-- ==== Sys2Proof/Word.lean ====
section
/-! DEFINITION. The machine's words and the sparse tables that hold its state as plain data. -/

namespace Sys2Proof

/-- A register or memory word of 64 bits (R57). -/
abbrev Word := BitVec 64

/-- A byte of memory (R4). -/
abbrev Byte := BitVec 8

/-- One bit for each lane of a gang, lane l in bit l (R15). -/
abbrev LaneMask := BitVec 32

/-- A sparse table: keys in strictly rising order, each with its value. -/
abbrev Tab (α : Type) := List (Nat × α)

end Sys2Proof
end

