-- ==== Sys2Proof/Syntax.lean ====
section
/-! DEFINITION. The instruction set: one constructor for each row of the opcode table.

A row with an encoding carries its variable fields, each a bit vector of the width the table gives it, in the order
of the table (high bit first): `d` destination, `a`, `b` operands, `u` the `BU`/`AU` bit, `i` an immediate, `l` the
lookahead count, `g` a guard, `n` its invert bit or a number; fields of other letters are named at their row.
A register pair or quad is named by the table's shorter field, so that `2 * p` or `4 * p` is the register number.

A row without an encoding is an *event*: a step which an engine, the hub, a command complex, the host, a device or
another chip of the pod takes by itself. Its constructor carries what the event happens to (log 3). -/

namespace Sys2Proof

/-- What issues instructions (R21, R352): a gang, named by its workgroup's key and its index in the workgroup, or a
service or command-complex core, named by its core index (R283). -/
inductive Agent where
  | gang (wg : Nat) (index : Nat)
  | core (index : Nat)
  deriving DecidableEq, Repr, Inhabited

/-- What a package of the pod announces when the pod forms (R374): its chip index, its cores that are present, a word for each die as
Table 16.9 lays it out, and the chip that each of its ports reaches. -/
structure PodChip where
  index : Nat
  present : List (BitVec 64)
  links : List (Nat × Nat)
  deriving DecidableEq, Repr, Inhabited

/-- The instructions and events of the part: one constructor for each row of the opcode table (R89, R91, R92 and the
rules named at each constructor). -/
inductive Instr where
  /-- R105: Does nothing. -/
  | nop
  /-- R105: Copies lane register B, or uniform register sB, into vd. -/
  | mov (d : BitVec 6) (b : BitVec 6) (u : BitVec 1)
  /-- R106: Reads a system register into vd in each thread. -/
  | rdsr (d : BitVec 6) (s : BitVec 12)
  /-- R106: Writes lane register A to a system register, under the access and field rules of that register. -/
  | wrsr (h : BitVec 6) (a : BitVec 6) (k : BitVec 6)
  /-- R105: Copies guards g7 to g0 into vd. -/
  | movgv (d : BitVec 6)
  /-- R105: Writes guards g1 to g7 from bits 7:1 of B. -/
  | movvg (b : BitVec 6) (u : BitVec 1)
  /-- R135: Waits until the 8-byte word at A differs from B, then writes the word's value to vd. -/
  | waitne (d : BitVec 6) (a : BitVec 6) (b : BitVec 6) (u : BitVec 1)
  /-- R107: Writes the lane mask of the selected kind to vd. -/
  | lanemask (d : BitVec 6) (k : BitVec 6)
  /-- R108: Writes A where the guard condition holds, and B where it does not. -/
  | sel (d : BitVec 6) (a : BitVec 6) (b : BitVec 6) (u : BitVec 1) (n : BitVec 1) (g : BitVec 3)
  /-- R109: 32-bit add, sign-extended. -/
  | addW (d : BitVec 6) (a : BitVec 6) (b : BitVec 6) (u : BitVec 1)
  /-- R109: 64-bit add. -/
  | addD (d : BitVec 6) (a : BitVec 6) (b : BitVec 6) (u : BitVec 1)
  /-- R109: 32-bit subtract, sign-extended. -/
  | subW (d : BitVec 6) (a : BitVec 6) (b : BitVec 6) (u : BitVec 1)
  /-- R109: 64-bit subtract. -/
  | subD (d : BitVec 6) (a : BitVec 6) (b : BitVec 6) (u : BitVec 1)
  /-- R109: 32-bit multiply, sign-extended. -/
  | mulW (d : BitVec 6) (a : BitVec 6) (b : BitVec 6) (u : BitVec 1)
  /-- R109: Low 64 bits of the product. -/
  | mulD (d : BitVec 6) (a : BitVec 6) (b : BitVec 6) (u : BitVec 1)
  /-- R109: High 64 bits of the signed product. -/
  | mulhD (d : BitVec 6) (a : BitVec 6) (b : BitVec 6) (u : BitVec 1)
  /-- R109: High 64 bits of the unsigned product. -/
  | mulhuD (d : BitVec 6) (a : BitVec 6) (b : BitVec 6) (u : BitVec 1)
  /-- R109: 32-bit D + A × B, sign-extended. -/
  | madW (d : BitVec 6) (a : BitVec 6) (b : BitVec 6) (u : BitVec 1)
  /-- R109: 64-bit D + A × B. -/
  | madD (d : BitVec 6) (a : BitVec 6) (b : BitVec 6) (u : BitVec 1)
  /-- R109: Bitwise and. -/
  | and (d : BitVec 6) (a : BitVec 6) (b : BitVec 6) (u : BitVec 1)
  /-- R109: Bitwise or. -/
  | or (d : BitVec 6) (a : BitVec 6) (b : BitVec 6) (u : BitVec 1)
  /-- R109: Bitwise exclusive or. -/
  | xor (d : BitVec 6) (a : BitVec 6) (b : BitVec 6) (u : BitVec 1)
  /-- R109: A and not B. -/
  | andn (d : BitVec 6) (a : BitVec 6) (b : BitVec 6) (u : BitVec 1)
  /-- R109: 32-bit shift left. -/
  | shlW (d : BitVec 6) (a : BitVec 6) (b : BitVec 6) (u : BitVec 1)
  /-- R109: 64-bit shift left. -/
  | shlD (d : BitVec 6) (a : BitVec 6) (b : BitVec 6) (u : BitVec 1)
  /-- R109: 32-bit logical shift right. -/
  | shrW (d : BitVec 6) (a : BitVec 6) (b : BitVec 6) (u : BitVec 1)
  /-- R109: 64-bit logical shift right. -/
  | shrD (d : BitVec 6) (a : BitVec 6) (b : BitVec 6) (u : BitVec 1)
  /-- R109: 32-bit arithmetic shift right. -/
  | sraW (d : BitVec 6) (a : BitVec 6) (b : BitVec 6) (u : BitVec 1)
  /-- R109: 64-bit arithmetic shift right. -/
  | sraD (d : BitVec 6) (a : BitVec 6) (b : BitVec 6) (u : BitVec 1)
  /-- R109: 32-bit rotate right. -/
  | rotW (d : BitVec 6) (a : BitVec 6) (b : BitVec 6) (u : BitVec 1)
  /-- R109: 64-bit rotate right. -/
  | rotD (d : BitVec 6) (a : BitVec 6) (b : BitVec 6) (u : BitVec 1)
  /-- R109: Signed minimum. -/
  | min (d : BitVec 6) (a : BitVec 6) (b : BitVec 6) (u : BitVec 1)
  /-- R109: Signed maximum. -/
  | max (d : BitVec 6) (a : BitVec 6) (b : BitVec 6) (u : BitVec 1)
  /-- R109: Unsigned minimum. -/
  | minu (d : BitVec 6) (a : BitVec 6) (b : BitVec 6) (u : BitVec 1)
  /-- R109: Unsigned maximum. -/
  | maxu (d : BitVec 6) (a : BitVec 6) (b : BitVec 6) (u : BitVec 1)
  /-- R109: Absolute value; abs of -2^63 is -2^63. -/
  | abs (d : BitVec 6) (a : BitVec 6)
  /-- R109: Counts the leading zero bits of A. -/
  | clz (d : BitVec 6) (a : BitVec 6)
  /-- R109: Counts the one bits of A. -/
  | popc (d : BitVec 6) (a : BitVec 6)
  /-- R109: Reverses the bits of A. -/
  | brev (d : BitVec 6) (a : BitVec 6)
  /-- R110: Extracts a bit field of A, sign-extended. -/
  | bfe (d : BitVec 6) (a : BitVec 6) (b : BitVec 6) (u : BitVec 1)
  /-- R110: Extracts a bit field of A, zero-extended. -/
  | bfeu (d : BitVec 6) (a : BitVec 6) (b : BitVec 6) (u : BitVec 1)
  /-- R110: Inserts a field from A into D. -/
  | bfi (d : BitVec 6) (a : BitVec 6) (b : BitVec 6) (u : BitVec 1)
  /-- R109: Signed less-than, giving 1 or 0. -/
  | slt (d : BitVec 6) (a : BitVec 6) (b : BitVec 6) (u : BitVec 1)
  /-- R109: Unsigned less-than, giving 1 or 0. -/
  | sltu (d : BitVec 6) (a : BitVec 6) (b : BitVec 6) (u : BitVec 1)
  /-- R109: Equality test, giving 1 or 0. -/
  | seq (d : BitVec 6) (a : BitVec 6) (b : BitVec 6) (u : BitVec 1)
  /-- R109: Inequality test, giving 1 or 0. -/
  | sne (d : BitVec 6) (a : BitVec 6) (b : BitVec 6) (u : BitVec 1)
  /-- R111: Adds A and B as a canonical 57-bit address, or faults PROT. -/
  | addva (d : BitVec 6) (a : BitVec 6) (b : BitVec 6) (u : BitVec 1)
  /-- R113: Compares the low 32 bits of A and B under the condition field and writes the result to a guard. -/
  | icmpW (g : BitVec 3) (a : BitVec 6) (b : BitVec 6) (u : BitVec 1) (c : BitVec 3)
  /-- R113: Compares all 64 bits of A and B under the condition field and writes the result to a guard. -/
  | icmpD (g : BitVec 3) (a : BitVec 6) (b : BitVec 6) (u : BitVec 1) (c : BitVec 3)
  /-- R114: FP64 add. -/
  | fadd (d : BitVec 6) (a : BitVec 6) (b : BitVec 6) (u : BitVec 1)
  /-- R114: FP64 subtract. -/
  | fsub (d : BitVec 6) (a : BitVec 6) (b : BitVec 6) (u : BitVec 1)
  /-- R114: FP64 multiply. -/
  | fmul (d : BitVec 6) (a : BitVec 6) (b : BitVec 6) (u : BitVec 1)
  /-- R114: FP64 fused A × B + D. -/
  | ffma (d : BitVec 6) (a : BitVec 6) (b : BitVec 6) (u : BitVec 1)
  /-- R114: FP64 minimumNumber. -/
  | fmin (d : BitVec 6) (a : BitVec 6) (b : BitVec 6) (u : BitVec 1)
  /-- R114: FP64 maximumNumber. -/
  | fmax (d : BitVec 6) (a : BitVec 6) (b : BitVec 6) (u : BitVec 1)
  /-- R114: Clears the sign bit of an FP64 value. -/
  | fabs (d : BitVec 6) (a : BitVec 6)
  /-- R114: Inverts the sign bit of an FP64 value. -/
  | fneg (d : BitVec 6) (a : BitVec 6)
  /-- R114: Magnitude of A with the sign of B, in FP64. -/
  | fcpysgn (d : BitVec 6) (a : BitVec 6) (b : BitVec 6) (u : BitVec 1)
  /-- R115: Writes the class mask of an FP64 value. -/
  | fclass (d : BitVec 6) (a : BitVec 6)
  /-- R114: FP32 add. -/
  | faddS (d : BitVec 6) (a : BitVec 6) (b : BitVec 6) (u : BitVec 1)
  /-- R114: FP32 subtract. -/
  | fsubS (d : BitVec 6) (a : BitVec 6) (b : BitVec 6) (u : BitVec 1)
  /-- R114: FP32 multiply. -/
  | fmulS (d : BitVec 6) (a : BitVec 6) (b : BitVec 6) (u : BitVec 1)
  /-- R114: FP32 fused A × B + D. -/
  | ffmaS (d : BitVec 6) (a : BitVec 6) (b : BitVec 6) (u : BitVec 1)
  /-- R114: FP32 minimumNumber. -/
  | fminS (d : BitVec 6) (a : BitVec 6) (b : BitVec 6) (u : BitVec 1)
  /-- R114: FP32 maximumNumber. -/
  | fmaxS (d : BitVec 6) (a : BitVec 6) (b : BitVec 6) (u : BitVec 1)
  /-- R114: Clears the sign bit of an FP32 value. -/
  | fabsS (d : BitVec 6) (a : BitVec 6)
  /-- R114: Inverts the sign bit of an FP32 value. -/
  | fnegS (d : BitVec 6) (a : BitVec 6)
  /-- R114: Magnitude of A with the sign of B, in FP32. -/
  | fcpysgnS (d : BitVec 6) (a : BitVec 6) (b : BitVec 6) (u : BitVec 1)
  /-- R115: Writes the class mask of an FP32 value. -/
  | fclassS (d : BitVec 6) (a : BitVec 6)
  /-- R116: Packed FP16 add. -/
  | hadd2 (d : BitVec 6) (a : BitVec 6) (b : BitVec 6) (u : BitVec 1)
  /-- R116: Packed FP16 multiply. -/
  | hmul2 (d : BitVec 6) (a : BitVec 6) (b : BitVec 6) (u : BitVec 1)
  /-- R116: Packed FP16 fused multiply-add. -/
  | hfma2 (d : BitVec 6) (a : BitVec 6) (b : BitVec 6) (u : BitVec 1)
  /-- R116: Packed FP16 maximumNumber. -/
  | hmax2 (d : BitVec 6) (a : BitVec 6) (b : BitVec 6) (u : BitVec 1)
  /-- R116: Packed BF16 add. -/
  | badd2 (d : BitVec 6) (a : BitVec 6) (b : BitVec 6) (u : BitVec 1)
  /-- R116: Packed BF16 multiply. -/
  | bmul2 (d : BitVec 6) (a : BitVec 6) (b : BitVec 6) (u : BitVec 1)
  /-- R116: Packed BF16 fused multiply-add. -/
  | bfma2 (d : BitVec 6) (a : BitVec 6) (b : BitVec 6) (u : BitVec 1)
  /-- R116: Packed BF16 maximumNumber. -/
  | bmax2 (d : BitVec 6) (a : BitVec 6) (b : BitVec 6) (u : BitVec 1)
  /-- R117: Compares FP32 values under the condition field and writes the result to a guard. -/
  | fcmpS (g : BitVec 3) (a : BitVec 6) (b : BitVec 6) (u : BitVec 1) (c : BitVec 3)
  /-- R117: Compares FP64 values under the condition field and writes the result to a guard. -/
  | fcmpD (g : BitVec 3) (a : BitVec 6) (b : BitVec 6) (u : BitVec 1) (c : BitVec 3)
  /-- R118: Converts between the integer and floating-point types named by the type fields. -/
  | cvt (d : BitVec 6) (a : BitVec 6) (s : BitVec 3) (t : BitVec 3)
  /-- R119: Quantises A × 2^B to E4M3. -/
  | qe4m3 (d : BitVec 6) (a : BitVec 6) (b : BitVec 6) (u : BitVec 1) (s : BitVec 1)
  /-- R119: Quantises A × 2^B to E5M2. -/
  | qe5m2 (d : BitVec 6) (a : BitVec 6) (b : BitVec 6) (u : BitVec 1) (s : BitVec 1)
  /-- R119: Quantises A × 2^B to E2M1. -/
  | qe2m1 (d : BitVec 6) (a : BitVec 6) (b : BitVec 6) (u : BitVec 1) (s : BitVec 1)
  /-- R119: Quantises A × 2^B to INT8. -/
  | qi8 (d : BitVec 6) (a : BitVec 6) (b : BitVec 6) (u : BitVec 1) (s : BitVec 1)
  /-- R119: Decodes an E4M3 code to FP32. -/
  | de4m3 (d : BitVec 6) (a : BitVec 6)
  /-- R119: Decodes an E5M2 code to FP32. -/
  | de5m2 (d : BitVec 6) (a : BitVec 6)
  /-- R119: Decodes an E2M1 code to FP32. -/
  | de2m1 (d : BitVec 6) (a : BitVec 6)
  /-- R112: 32-bit add of a 13-bit immediate. -/
  | addiW (d : BitVec 6) (a : BitVec 6) (i : BitVec 13)
  /-- R112: 64-bit add of a 13-bit immediate. -/
  | addiD (d : BitVec 6) (a : BitVec 6) (i : BitVec 13)
  /-- R112: And with a sign-extended immediate. -/
  | andi (d : BitVec 6) (a : BitVec 6) (i : BitVec 13)
  /-- R112: Or with a sign-extended immediate. -/
  | ori (d : BitVec 6) (a : BitVec 6) (i : BitVec 13)
  /-- R112: Exclusive or with a sign-extended immediate. -/
  | xori (d : BitVec 6) (a : BitVec 6) (i : BitVec 13)
  /-- R112: Shifts or rotates A by an immediate amount, of the kind and width that the fields give. -/
  | shifti (d : BitVec 6) (a : BitVec 6) (k : BitVec 2) (w : BitVec 1) (n : BitVec 6)
  /-- R112: Loads a sign-extended 19-bit immediate. -/
  | movi (d : BitVec 6) (i : BitVec 19)
  /-- R112: Shifts vd left by 19 bits and inserts a 19-bit immediate. -/
  | movsh (d : BitVec 6) (i : BitVec 19)
  /-- R120: FP32 reciprocal, correctly rounded. -/
  | rcpS (d : BitVec 6) (a : BitVec 6) (l : BitVec 4)
  /-- R120: FP32 reciprocal square root. -/
  | rsqS (d : BitVec 6) (a : BitVec 6) (l : BitVec 4)
  /-- R120: FP32 square root. -/
  | sqrtS (d : BitVec 6) (a : BitVec 6) (l : BitVec 4)
  /-- R120: FP32 divide. -/
  | divS (d : BitVec 6) (a : BitVec 6) (b : BitVec 6) (u : BitVec 1) (l : BitVec 4)
  /-- R120: FP64 reciprocal. -/
  | rcpD (d : BitVec 6) (a : BitVec 6) (l : BitVec 4)
  /-- R120: FP64 reciprocal square root. -/
  | rsqD (d : BitVec 6) (a : BitVec 6) (l : BitVec 4)
  /-- R120: FP64 square root. -/
  | sqrtD (d : BitVec 6) (a : BitVec 6) (l : BitVec 4)
  /-- R120: FP64 divide. -/
  | divD (d : BitVec 6) (a : BitVec 6) (b : BitVec 6) (u : BitVec 1) (l : BitVec 4)
  /-- R120: Faithfully rounded 2^A. -/
  | exp2 (d : BitVec 6) (a : BitVec 6) (l : BitVec 4)
  /-- R120: Faithfully rounded log2 A. -/
  | log2 (d : BitVec 6) (a : BitVec 6) (l : BitVec 4)
  /-- R120: Faithfully rounded sin(π × A). -/
  | sinpi (d : BitVec 6) (a : BitVec 6) (l : BitVec 4)
  /-- R120: Faithfully rounded cos(π × A). -/
  | cospi (d : BitVec 6) (a : BitVec 6) (l : BitVec 4)
  /-- R121: Signed 64-bit integer divide. -/
  | div (d : BitVec 6) (a : BitVec 6) (b : BitVec 6) (u : BitVec 1) (l : BitVec 4)
  /-- R121: Unsigned 64-bit integer divide. -/
  | divu (d : BitVec 6) (a : BitVec 6) (b : BitVec 6) (u : BitVec 1) (l : BitVec 4)
  /-- R121: Signed 64-bit remainder. -/
  | rem (d : BitVec 6) (a : BitVec 6) (b : BitVec 6) (u : BitVec 1) (l : BitVec 4)
  /-- R121: Unsigned 64-bit remainder. -/
  | remu (d : BitVec 6) (a : BitVec 6) (b : BitVec 6) (u : BitVec 1) (l : BitVec 4)
  /-- R142: Arrives at a convergence register; each member receives A from the lane that its B names. -/
  | xshfl (d : BitVec 6) (a : BitVec 6) (b : BitVec 6) (c : BitVec 3) (l : BitVec 4)
  /-- R142: Arrives at a convergence register; each member receives A from lane l xor pat. -/
  | xshxor (d : BitVec 6) (a : BitVec 6) (p : BitVec 5) (c : BitVec 3) (l : BitVec 4)
  /-- R143: Arrives at a convergence register; every member receives the tree-order reduction of all members' A. -/
  | xred (d : BitVec 6) (a : BitVec 6) (o : BitVec 5) (c : BitVec 3) (l : BitVec 4)
  /-- R143: Arrives at a convergence register; each member receives the inclusive or exclusive scan in ascending lane order. -/
  | xscan (d : BitVec 6) (a : BitVec 6) (e : BitVec 1) (o : BitVec 5) (c : BitVec 3) (l : BitVec 4)
  /-- R142: Arrives at a convergence register; every member receives the vote of the selected kind. -/
  | xvote (d : BitVec 6) (a : BitVec 6) (k : BitVec 6) (c : BitVec 3) (l : BitVec 4)
  /-- R142: Arrives at a convergence register; each member receives the mask of members whose A equals its own. -/
  | xmatch (d : BitVec 6) (a : BitVec 6) (c : BitVec 3) (l : BitVec 4)
  /-- R199: Loads a byte, sign-extended. -/
  | ldb (d : BitVec 6) (a : BitVec 6) (u : BitVec 1) (i : BitVec 8) (l : BitVec 4)
  /-- R199: Loads a byte, zero-extended. -/
  | ldbu (d : BitVec 6) (a : BitVec 6) (u : BitVec 1) (i : BitVec 8) (l : BitVec 4)
  /-- R199: Loads 2 bytes, sign-extended. -/
  | ldh (d : BitVec 6) (a : BitVec 6) (u : BitVec 1) (i : BitVec 8) (l : BitVec 4)
  /-- R199: Loads 2 bytes, zero-extended. -/
  | ldhu (d : BitVec 6) (a : BitVec 6) (u : BitVec 1) (i : BitVec 8) (l : BitVec 4)
  /-- R199: Loads 4 bytes, sign-extended. -/
  | ldw (d : BitVec 6) (a : BitVec 6) (u : BitVec 1) (i : BitVec 8) (l : BitVec 4)
  /-- R199: Loads 4 bytes, zero-extended. -/
  | ldwu (d : BitVec 6) (a : BitVec 6) (u : BitVec 1) (i : BitVec 8) (l : BitVec 4)
  /-- R199: Loads 8 bytes. -/
  | ldd (d : BitVec 6) (a : BitVec 6) (u : BitVec 1) (i : BitVec 8) (l : BitVec 4)
  /-- R199: Loads 16 bytes into vd and vd + 1. -/
  | ldq (d : BitVec 5) (a : BitVec 6) (u : BitVec 1) (i : BitVec 8) (l : BitVec 4)
  /-- R200: Brings a line into the L1 or its home under the hint, with no fault and no register written. -/
  | prefetch (h : BitVec 2) (a : BitVec 6) (u : BitVec 1) (i : BitVec 8)
  /-- R201: Acquire load of 4, 8 or 16 bytes at the named scope. -/
  | lda (d : BitVec 6) (a : BitVec 6) (u : BitVec 1) (w : BitVec 2) (s : BitVec 3) (o : BitVec 3) (l : BitVec 4)
  /-- R202: Guarded store of one byte. -/
  | stb (n : BitVec 1) (g : BitVec 3) (a : BitVec 6) (b : BitVec 6) (u : BitVec 1) (i : BitVec 8)
  /-- R202: Guarded store of 2 bytes. -/
  | sth (n : BitVec 1) (g : BitVec 3) (a : BitVec 6) (b : BitVec 6) (u : BitVec 1) (i : BitVec 8)
  /-- R202: Guarded store of 4 bytes. -/
  | stw (n : BitVec 1) (g : BitVec 3) (a : BitVec 6) (b : BitVec 6) (u : BitVec 1) (i : BitVec 8)
  /-- R202: Guarded store of 8 bytes. -/
  | std (n : BitVec 1) (g : BitVec 3) (a : BitVec 6) (b : BitVec 6) (u : BitVec 1) (i : BitVec 8)
  /-- R202: Guarded store of 16 bytes from A and A + 1. -/
  | stq (n : BitVec 1) (g : BitVec 3) (a : BitVec 5) (b : BitVec 6) (u : BitVec 1) (i : BitVec 8)
  /-- R203: Guarded strong release store that waits under R183 before it performs. -/
  | str (n : BitVec 1) (g : BitVec 3) (a : BitVec 6) (b : BitVec 6) (u : BitVec 1) (w : BitVec 2) (s : BitVec 3) (o : BitVec 3)
  /-- R204: Atomic wrapping add. -/
  | amadd (g : BitVec 2) (d : BitVec 6) (a : BitVec 6) (b : BitVec 6) (w : BitVec 1) (l : BitVec 4)
  /-- R204: Atomic signed minimum. -/
  | ammin (g : BitVec 2) (d : BitVec 6) (a : BitVec 6) (b : BitVec 6) (w : BitVec 1) (l : BitVec 4)
  /-- R204: Atomic signed maximum. -/
  | ammax (g : BitVec 2) (d : BitVec 6) (a : BitVec 6) (b : BitVec 6) (w : BitVec 1) (l : BitVec 4)
  /-- R204: Atomic unsigned minimum. -/
  | amumin (g : BitVec 2) (d : BitVec 6) (a : BitVec 6) (b : BitVec 6) (w : BitVec 1) (l : BitVec 4)
  /-- R204: Atomic unsigned maximum. -/
  | amumax (g : BitVec 2) (d : BitVec 6) (a : BitVec 6) (b : BitVec 6) (w : BitVec 1) (l : BitVec 4)
  /-- R204: Atomic and. -/
  | amand (g : BitVec 2) (d : BitVec 6) (a : BitVec 6) (b : BitVec 6) (w : BitVec 1) (l : BitVec 4)
  /-- R204: Atomic or. -/
  | amor (g : BitVec 2) (d : BitVec 6) (a : BitVec 6) (b : BitVec 6) (w : BitVec 1) (l : BitVec 4)
  /-- R204: Atomic exclusive or. -/
  | amxor (g : BitVec 2) (d : BitVec 6) (a : BitVec 6) (b : BitVec 6) (w : BitVec 1) (l : BitVec 4)
  /-- R204: Atomic swap. -/
  | amswap (g : BitVec 2) (d : BitVec 6) (a : BitVec 6) (b : BitVec 6) (w : BitVec 1) (l : BitVec 4)
  /-- R204: Atomic compare-and-swap against vd. -/
  | amcas (g : BitVec 2) (d : BitVec 6) (a : BitVec 6) (b : BitVec 6) (w : BitVec 1) (l : BitVec 4)
  /-- R204: Atomic FP32 or FP64 add, rounded to nearest even. -/
  | amfadd (g : BitVec 2) (d : BitVec 6) (a : BitVec 6) (b : BitVec 6) (w : BitVec 1) (l : BitVec 4)
  /-- R130: Guarded pc-relative branch. -/
  | br (n : BitVec 1) (g : BitVec 3) (o : BitVec 21)
  /-- R130: pc-relative call that writes the link v62. -/
  | call (o : BitVec 25)
  /-- R131: Jumps to the address in B. -/
  | jr (b : BitVec 6) (u : BitVec 1)
  /-- R131: Calls through the address in B, writing v62. -/
  | callr (b : BitVec 6) (u : BitVec 1)
  /-- R131: Jumps to v62. -/
  | ret
  /-- R133: Ends each thread of the PC-group; the last one to exit ends the gang and writes its exit word. -/
  | exit
  /-- R134: Raises BKPT with the number n. -/
  | bkpt (n : BitVec 12)
  /-- R137: Sets the member set of a convergence register from a uniform pair. -/
  | cvset (n : BitVec 3) (b : BitVec 5)
  /-- R137: Sets the member set of a convergence register to the issuing PC-group. -/
  | cvsetGrp (n : BitVec 3)
  /-- R138: Arrives at a convergence register and waits for the gathering to complete. -/
  | cvwait (n : BitVec 3)
  /-- R139: Returns a snapshot word of a convergence register. -/
  | cvquery (d : BitVec 6) (n : BitVec 3) (b : BitVec 6) (u : BitVec 1)
  /-- R140: Empties a convergence register and abandons the waiting instructions. -/
  | cvclear (n : BitVec 3)
  /-- R282: Offers TCB images, reserves the lowest free store entries, and clears the guard of each refused lane. -/
  | spawn (d : BitVec 6) (a : BitVec 6) (g : BitVec 3) (l : BitVec 4)
  /-- R283: Suspends the PC-group and writes one call record into the cluster call ring. -/
  | syscall (n : BitVec 15) (l : BitVec 4)
  /-- R229: Signs a convergence register for a matrix multiply-accumulate. -/
  | mma (c : BitVec 3) (a : BitVec 6) (p : BitVec 5) (q : BitVec 5) (l : BitVec 4)
  /-- R230: Signs for a conversion of accumulator tiles into scratchpad. -/
  | mdrain (c : BitVec 3) (a : BitVec 6) (p : BitVec 5) (q : BitVec 5) (l : BitVec 4)
  /-- R231: Signs for the zeroing of accumulator tiles. -/
  | mzero (c : BitVec 3) (a : BitVec 6) (l : BitVec 4)
  /-- R231: Signs for a bit-exact load of accumulator tiles from scratchpad. -/
  | mload (c : BitVec 3) (a : BitVec 6) (p : BitVec 5) (l : BitVec 4)
  /-- R231: Signs for a bit-exact store of accumulator tiles to scratchpad. -/
  | mstore (c : BitVec 3) (a : BitVec 6) (p : BitVec 5) (l : BitVec 4)
  /-- R232: Signs for quantisation of an FP32 matrix to a block-scaled format. -/
  | mquant (c : BitVec 3) (a : BitVec 6) (p : BitVec 4) (l : BitVec 4)
  /-- R233: Signs for a Hadamard pre-transform of an FP32 matrix. -/
  | mhad (c : BitVec 3) (a : BitVec 6) (p : BitVec 4) (l : BitVec 4)
  /-- R219: Once the matrix queue and range-lock entries have room, the gathering is checked, locks are registered, and the operation is queued. -/
  | matrixGatheringComplete (wg : Nat) (cv : Nat)
  /-- R235: The array completes one step of an operation and charges budget; at its last step the operation ends and releases its locks. -/
  | matrixStep (op : Nat)
  /-- R125: Uniform no-op. -/
  | snop
  /-- R125: Copies sa to sd. -/
  | smov (d : BitVec 6) (a : BitVec 6)
  /-- R125: Reads a system register into sd. -/
  | srdsr (d : BitVec 6) (s : BitVec 12)
  /-- R125: Writes sa to a system register for the PC-group. -/
  | swrsr (h : BitVec 6) (a : BitVec 6) (k : BitVec 6)
  /-- R126: Reads the PTB. -/
  | rdtime (d : BitVec 6)
  /-- R127: Reads the budget counter of the slice. -/
  | rdbudget (d : BitVec 6)
  /-- R128: Lowers the gang's rank in its partition and restarts its aging count. -/
  | yield
  /-- R129: Privileged: replaces a slice's deadline and returns the old one. -/
  | setdeadline (d : BitVec 6) (a : BitVec 6) (b : BitVec 6)
  /-- R123: Uniform add.w. -/
  | saddW (d : BitVec 6) (a : BitVec 6) (b : BitVec 6)
  /-- R123: Uniform add.d. -/
  | saddD (d : BitVec 6) (a : BitVec 6) (b : BitVec 6)
  /-- R123: Uniform sub.w. -/
  | ssubW (d : BitVec 6) (a : BitVec 6) (b : BitVec 6)
  /-- R123: Uniform sub.d. -/
  | ssubD (d : BitVec 6) (a : BitVec 6) (b : BitVec 6)
  /-- R123: Uniform mul.w. -/
  | smulW (d : BitVec 6) (a : BitVec 6) (b : BitVec 6)
  /-- R123: Uniform mul.d. -/
  | smulD (d : BitVec 6) (a : BitVec 6) (b : BitVec 6)
  /-- R123: Uniform mulh.d. -/
  | smulhD (d : BitVec 6) (a : BitVec 6) (b : BitVec 6)
  /-- R123: Uniform mulhu.d. -/
  | smulhuD (d : BitVec 6) (a : BitVec 6) (b : BitVec 6)
  /-- R123: Uniform mad.w. -/
  | smadW (d : BitVec 6) (a : BitVec 6) (b : BitVec 6)
  /-- R123: Uniform mad.d. -/
  | smadD (d : BitVec 6) (a : BitVec 6) (b : BitVec 6)
  /-- R123: Uniform and. -/
  | sand (d : BitVec 6) (a : BitVec 6) (b : BitVec 6)
  /-- R123: Uniform or. -/
  | sor (d : BitVec 6) (a : BitVec 6) (b : BitVec 6)
  /-- R123: Uniform xor. -/
  | sxor (d : BitVec 6) (a : BitVec 6) (b : BitVec 6)
  /-- R123: Uniform andn. -/
  | sandn (d : BitVec 6) (a : BitVec 6) (b : BitVec 6)
  /-- R123: Uniform shl.w. -/
  | sshlW (d : BitVec 6) (a : BitVec 6) (b : BitVec 6)
  /-- R123: Uniform shl.d. -/
  | sshlD (d : BitVec 6) (a : BitVec 6) (b : BitVec 6)
  /-- R123: Uniform shr.w. -/
  | sshrW (d : BitVec 6) (a : BitVec 6) (b : BitVec 6)
  /-- R123: Uniform shr.d. -/
  | sshrD (d : BitVec 6) (a : BitVec 6) (b : BitVec 6)
  /-- R123: Uniform sra.w. -/
  | ssraW (d : BitVec 6) (a : BitVec 6) (b : BitVec 6)
  /-- R123: Uniform sra.d. -/
  | ssraD (d : BitVec 6) (a : BitVec 6) (b : BitVec 6)
  /-- R123: Uniform rot.w. -/
  | srotW (d : BitVec 6) (a : BitVec 6) (b : BitVec 6)
  /-- R123: Uniform rot.d. -/
  | srotD (d : BitVec 6) (a : BitVec 6) (b : BitVec 6)
  /-- R123: Uniform min. -/
  | smin (d : BitVec 6) (a : BitVec 6) (b : BitVec 6)
  /-- R123: Uniform max. -/
  | smax (d : BitVec 6) (a : BitVec 6) (b : BitVec 6)
  /-- R123: Uniform minu. -/
  | sminu (d : BitVec 6) (a : BitVec 6) (b : BitVec 6)
  /-- R123: Uniform maxu. -/
  | smaxu (d : BitVec 6) (a : BitVec 6) (b : BitVec 6)
  /-- R123: Uniform abs. -/
  | sabs (d : BitVec 6) (a : BitVec 6)
  /-- R123: Uniform clz. -/
  | sclz (d : BitVec 6) (a : BitVec 6)
  /-- R123: Uniform popc. -/
  | spopc (d : BitVec 6) (a : BitVec 6)
  /-- R123: Uniform brev. -/
  | sbrev (d : BitVec 6) (a : BitVec 6)
  /-- R123: Uniform bfe. -/
  | sbfe (d : BitVec 6) (a : BitVec 6) (b : BitVec 6)
  /-- R123: Uniform bfeu. -/
  | sbfeu (d : BitVec 6) (a : BitVec 6) (b : BitVec 6)
  /-- R123: Uniform bfi. -/
  | sbfi (d : BitVec 6) (a : BitVec 6) (b : BitVec 6)
  /-- R123: Uniform slt. -/
  | sslt (d : BitVec 6) (a : BitVec 6) (b : BitVec 6)
  /-- R123: Uniform sltu. -/
  | ssltu (d : BitVec 6) (a : BitVec 6) (b : BitVec 6)
  /-- R123: Uniform seq. -/
  | sseq (d : BitVec 6) (a : BitVec 6) (b : BitVec 6)
  /-- R123: Uniform sne. -/
  | ssne (d : BitVec 6) (a : BitVec 6) (b : BitVec 6)
  /-- R123: Uniform addva, faulting PROT when the sum is not canonical. -/
  | saddva (d : BitVec 6) (a : BitVec 6) (b : BitVec 6)
  /-- R124: Uniform 64-bit add of an immediate. -/
  | saddi (d : BitVec 6) (a : BitVec 6) (i : BitVec 13)
  /-- R124: Uniform and with an immediate. -/
  | sandi (d : BitVec 6) (a : BitVec 6) (i : BitVec 13)
  /-- R124: Uniform or with an immediate. -/
  | sori (d : BitVec 6) (a : BitVec 6) (i : BitVec 13)
  /-- R124: Uniform xor with an immediate. -/
  | sxori (d : BitVec 6) (a : BitVec 6) (i : BitVec 13)
  /-- R124: Uniform shift or rotate by an immediate amount. -/
  | sshifti (d : BitVec 6) (a : BitVec 6) (k : BitVec 2) (w : BitVec 1) (n : BitVec 6)
  /-- R124: Uniform load of a sign-extended 19-bit immediate. -/
  | smovi (d : BitVec 6) (i : BitVec 19)
  /-- R124: Uniform shift by 19 bits with insertion of an immediate. -/
  | smovsh (d : BitVec 6) (i : BitVec 19)
  /-- R206: Uniform load, zero-extended, counting as an access of every thread of the group. -/
  | sld (d : BitVec 6) (a : BitVec 6) (w : BitVec 2) (i : BitVec 7) (l : BitVec 4)
  /-- R206: Uniform store. -/
  | sst (a : BitVec 6) (b : BitVec 6) (w : BitVec 2) (i : BitVec 11)
  /-- R185: Release fence at a scope. -/
  | fenceRel (s : BitVec 3)
  /-- R185: Acquire fence. -/
  | fenceAcq (s : BitVec 3)
  /-- R185: Acquire-release fence. -/
  | fenceAcqrel (s : BitVec 3)
  /-- R185: Sequentially consistent fence that makes earlier stores strong. -/
  | fenceSc (s : BitVec 3)
  /-- R185: Writes to sd the time D at which a release would end its wait, without waiting for it. -/
  | fenceWct (d : BitVec 6) (s : BitVec 3)
  /-- R183: PTB reaches D for a waiting release store or fence, and the thread proceeds. -/
  | releaseWaitEnd (agent : Agent) (issue : Nat)
  /-- R312: Initialises a barrier object and registers it. -/
  | barinit (d : BitVec 6) (a : BitVec 6) (b : BitVec 6) (l : BitVec 4)
  /-- R313: The threads of the PC-group arrive at a barrier, waiting when ARRPEND is 0. -/
  | bararrive (d : BitVec 6) (a : BitVec 6) (l : BitVec 4)
  /-- R314: Adds expected bytes to BYTEPEND. -/
  | barexpect (d : BitVec 6) (a : BitVec 6) (b : BitVec 6) (l : BitVec 4)
  /-- R315: Waits for the phase of the given parity to end, or for poisoning or re-initialisation. -/
  | barwait (d : BitVec 6) (a : BitVec 6) (b : BitVec 6) (l : BitVec 4)
  /-- R315: Tests a barrier phase without waiting. -/
  | bartry (d : BitVec 6) (a : BitVec 6) (b : BitVec 6) (l : BitVec 4)
  /-- R316: Poisons a barrier and releases its waiters. -/
  | barpoison (d : BitVec 6) (a : BitVec 6) (l : BitVec 4)
  /-- R324: Reads the selected counter of a launch, graph or slice. -/
  | cntrd (d : BitVec 6) (a : BitVec 6) (k : BitVec 6) (l : BitVec 4)
  /-- R325: Waits until GDONE or NENDED reaches a threshold, or the level completes. -/
  | cntwait (d : BitVec 6) (a : BitVec 6) (b : BitVec 6) (l : BitVec 4)
  /-- R326: Privileged: adds to a slice's budget counter, restarting or stopping the slice. -/
  | cntadd (d : BitVec 6) (a : BitVec 6) (b : BitVec 6) (l : BitVec 4)
  /-- R210: Reads and validates a copy descriptor, waits for a slot, locks both ranges and queues the copy. -/
  | cpy (d : BitVec 6) (a : BitVec 6) (l : BitVec 4)
  /-- R209: Returns the status word of a copy. -/
  | cpystat (d : BitVec 6) (a : BitVec 6) (l : BitVec 4)
  /-- R214: Waits until a copy has ended, then returns its status. -/
  | cpywait (d : BitVec 6) (a : BitVec 6) (l : BitVec 4)
  /-- R213: Cancels a queued, running or paused copy. -/
  | cpycancelCancel (d : BitVec 6) (a : BitVec 6) (l : BitVec 4)
  /-- R213: Privileged: resumes a paused copy. -/
  | cpycancelResume (d : BitVec 6) (a : BitVec 6) (l : BitVec 4)
  /-- R213: Privileged: fails a paused copy. -/
  | cpycancelFail (d : BitVec 6) (a : BitVec 6) (l : BitVec 4)
  /-- R215: Registers an explicit range lock. -/
  | rlock (d : BitVec 6) (a : BitVec 6) (b : BitVec 6) (l : BitVec 4)
  /-- R215: Releases an explicit range lock held by the gang. -/
  | runlock (d : BitVec 6) (a : BitVec 6) (l : BitVec 4)
  /-- R212: The copy engine begins a box once the slot, hold counts and budget allow; the first box makes the copy RUNNING. -/
  | copyBoxStart (copy : Nat) (box : Nat)
  /-- R187: Every byte of a box has performed: its count is added to the barrier, and after the last box the copy is DONE. -/
  | copyBoxLanded (copy : Nat) (box : Nat)
  /-- R212: A box meets a translation fault, a cross-chip pair or an uncorrectable error; the copy pauses or fails and a fault record is written. -/
  | copyBoxFault (copy : Nat) (box : Nat)
  /-- R272: Deals one unit of the launch from the contact sheet and writes the quad. -/
  | tfetch (d : BitVec 4) (l : BitVec 4)
  /-- R275: Marks dealt granules done and adds them to GDONE. -/
  | tretire (d : BitVec 6) (a : BitVec 4) (b : BitVec 6) (l : BitVec 4)
  /-- R275: Returns dealt granules to free. -/
  | tgive (d : BitVec 6) (a : BitVec 4) (b : BitVec 6) (l : BitVec 4)
  /-- R276: Returns a snapshot value of the launch's dealing. -/
  | tstat (d : BitVec 6) (k : BitVec 6) (l : BitVec 4)
  /-- R273: A lower dispenser takes a chunk of units from the root walk. -/
  | dispenserRefill (wg : Nat)
  /-- R277: Reads the committed value or the proof of a schedule register. -/
  | schr (d : BitVec 6) (a : BitVec 6) (p : BitVec 1) (n : BitVec 4)
  /-- R277: Writes the proof of a schedule register. -/
  | schw (h : BitVec 6) (a : BitVec 6) (n : BitVec 4)
  /-- R72: Checks the proof and commits it as a new generation, or reports the first failing register. -/
  | schcommit (d : BitVec 6) (a : BitVec 6)
  /-- R279: Reads a launch record and enters one launch node in the ready pool. -/
  | launch (d : BitVec 6) (a : BitVec 6) (b : BitVec 6) (l : BitVec 4)
  /-- R375: Starts a pod-wide launch from this chip as root. -/
  | launchp (d : BitVec 6) (a : BitVec 6) (b : BitVec 6) (l : BitVec 4)
  /-- R300: Checks a graph image, reserves store entries and enters the root nodes. -/
  | graphsub (d : BitVec 6) (a : BitVec 6) (b : BitVec 6) (l : BitVec 4)
  /-- R280: Cancels a slice, launch or graph, letting the units in flight finish. -/
  | cancelDrain (d : BitVec 6) (a : BitVec 6) (l : BitVec 4)
  /-- R280: Cancels a level and kills its workgroups. -/
  | cancelKill (d : BitVec 6) (a : BitVec 6) (l : BitVec 4)
  /-- R281: Waits for a level to complete and returns its status word with acquire. -/
  | waitdone (d : BitVec 6) (a : BitVec 6) (l : BitVec 4)
  /-- R284: Sends a 64-byte message on a channel to another core index. -/
  | msgsend (d : BitVec 6) (a : BitVec 6) (b : BitVec 6) (l : BitVec 4)
  /-- R284: Takes the oldest message of a channel, without waiting. -/
  | msgrecv (d : BitVec 6) (a : BitVec 6) (b : BitVec 6) (l : BitVec 4)
  /-- R284: Returns the bitmap of channels that hold messages. -/
  | msgpoll (d : BitVec 6) (l : BitVec 4)
  /-- R284: Copies out the earliest-deadline call record and frees its slot. -/
  | crpop (d : BitVec 6) (a : BitVec 6) (l : BitVec 4)
  /-- R285: Writes v1 and v2 of masked call lanes, or sets the pc of fault-suspended lanes, and makes them runnable. -/
  | resume (d : BitVec 6) (a : BitVec 5) (b : BitVec 5) (l : BitVec 4)
  /-- R285: Resumes every lane still suspended in the call or fault. -/
  | resumeall (d : BitVec 6) (a : BitVec 5) (b : BitVec 5) (l : BitVec 4)
  /-- R284: Gives the right to resume a call to another service core. -/
  | crfwd (d : BitVec 6) (a : BitVec 6) (b : BitVec 6) (l : BitVec 4)
  /-- R74: Reads a K register. -/
  | krd (d : BitVec 6) (k : BitVec 6)
  /-- R74: Writes a K register. -/
  | kwr (a : BitVec 6) (k : BitVec 6)
  /-- R286: Drops translation-buffer entries of the kind given, across the package. -/
  | tlbinv (d : BitVec 6) (a : BitVec 6) (b : BitVec 6)
  /-- R284: Returns to KEPC and accepts interrupts again. -/
  | kret
  /-- R284: Waits until an enabled interrupt is pending, clearing the charged slice. -/
  | idle
  /-- R287: Writes a gang's dirty register-cache lines to its image. -/
  | ctxevict (d : BitVec 6) (a : BitVec 6) (l : BitVec 4)
  /-- R287: Pins or unpins a workgroup against eviction. -/
  | ctxpin (d : BitVec 6) (a : BitVec 6) (b : BitVec 6) (l : BitVec 4)
  /-- R342: Terminates a gang with a code. -/
  | gangkill (d : BitVec 6) (a : BitVec 6) (b : BitVec 6) (l : BitVec 4)
  /-- R343: Kills a workgroup with a code. -/
  | wgkill (d : BitVec 6) (a : BitVec 6) (b : BitVec 6) (l : BitVec 4)
  /-- R287: Returns the residency, pin, call and LIVE state of a gang or workgroup. -/
  | ctxstat (d : BitVec 6) (a : BitVec 6) (l : BitVec 4)
  /-- R21: The partition's fetch unit broadcasts a 48-word window to the PC-group waiting at the next pc. -/
  | fetchTurn (agent : Agent)
  /-- R22: A gang that has been ready and unserved for 4,096 core cycles becomes aged. -/
  | gangAged (wg : Nat) (gang : Nat)
  /-- R22: A workgroup or node that has waited 4,096 core cycles for space becomes aged. -/
  | readyPoolAged (wg : Nat) (node : Nat)
  /-- R76: A context-image line arrives in the register cache, and the suspended PC-group may issue. -/
  | registerLineFill (agent : Agent) (line : Nat)
  /-- R87: A long-latency instruction or load delivers its destination once, to the register cache or to the image. -/
  | destinationDelivery (agent : Agent) (flight : Nat)
  /-- R166: A translation walk completes, installing an entry or raising the page fault of the access. -/
  | pageWalk (walk : Nat)
  /-- R175: A home serves a line fill and grants a lease. -/
  | homeFill (req : Nat) (lease : Nat)
  /-- R176: A home applies a store in arrival order and returns its WCT, or holds it behind a pending strong store. -/
  | homeStore (req : Nat)
  /-- R186: A far atomic is applied indivisibly at its home. -/
  | homeAtomic (req : Nat)
  /-- R176: A store's WCT returns to the issuer, and the store is acknowledged. -/
  | storeAck (req : Nat)
  /-- R419: PTB reaches a strong store's WCT: its value and the held accesses take effect together. -/
  | strongStoreVisible (req : Nat)
  /-- R175: An L1 line's lease ends, and later accesses miss. -/
  | leaseExpiry (core : Nat) (line : Nat)
  /-- R205: A home recalls a near-atomic line for another access, or 4,096 ns after the grant, and the line is written back. -/
  | ownershipRecall (line : Nat)
  /-- R135: A waiting waitne re-reads its word, at most 2 µs apart. -/
  | waitneReread (agent : Agent) (lane : Nat)
  /-- R189: PTB reaches a lock's RELT, and the engine's range lock is freed. -/
  | rangeLockRelease (core : Nat) (entry : Nat)
  /-- R336: A pre-emption request reaches a partition, and the gang's in-flight work is brought to rest. -/
  | preemptionRequest (wg : Nat) (gang : Nat)
  /-- R337: The ready pool evicts a workgroup: dealing stops, gangs are pre-empted, progress, lines and shares are saved. -/
  | eviction (wg : Nat)
  /-- R337: The save has landed and the workgroup's space is freed. -/
  | evictionComplete (wg : Nat)
  /-- R338: A saved workgroup is restored on a core, its locks re-registered, before any gang issues. -/
  | redispatch (wg : Nat) (core : Nat) (slot : Nat)
  /-- R264: The ready pool dispatches a node or workgroup to a suitable engine, zeroing shares at first dispatch. -/
  | readyPoolDispatch (node : Nat) (core : Nat) (slot : Nat)
  /-- R18: Every gang and every copy and matrix operation of a workgroup has ended: WGLIVE falls and the shares are freed. -/
  | workgroupEnd (wg : Nat)
  /-- R320: WGLIVE and SPAWNED reach 0: the status word is written and the completion token posted. -/
  | launchComplete (launch : Nat)
  /-- R423: A graph node ends, decrementing its successors' PRED or ending them FAILED or CANCELLED. -/
  | nodeEnd (node : Nat)
  /-- R266: A fault-ring slot becomes free, and the part writes a held record. -/
  | faultRingSlotFree (cluster : Nat)
  /-- R265: A call-ring slot becomes free, and a waiting syscall writes its record. -/
  | callRingSlotFree (cluster : Nat)
  /-- R79: An uncorrectable error in a register-cache line, a gang's and a line of its image, terminates the gang. -/
  | registerCacheEccUe (wg : Nat) (line : Nat × Nat)
  /-- R299: An uncorrectable scratchpad error kills the workgroup; an idempotent kernel is relaunched at most 4 times. -/
  | scratchpadEccUe (wg : Nat)
  /-- R238: An uncorrectable accumulator tile error found on read kills the workgroup. -/
  | accumulatorEccUe (wg : Nat)
  /-- R159: A parity error discards a clean line, or raises ECC_UE and poisons an owned one. -/
  | l1ParityError (core : Nat) (line : Nat)
  /-- R161: An uncorrectable error in a dirty L2 line poisons it in HBM. -/
  | l2EccUe (line : Nat)
  /-- R303: An uncorrectable error in a TCB entry poisons the node by its state. -/
  | tcbEccUe (node : Nat) (readable : Bool)
  /-- R390: A translation-buffer parity error drops the entry without a fault. -/
  | tlbParityError (cluster : Nat) (entry : Nat)
  /-- R241: A doorbell write makes the active complex read the queue descriptor. -/
  | doorbell (tenant : Nat) (queue : Nat) (ahead : Nat)
  /-- R241: Every 10 µs the complex reads the write pointer and state of each active or draining queue. -/
  | queuePoll (tenant : Nat) (queue : Nat) (ahead : Nat)
  /-- R244: Nop packet, ignored. -/
  | pktNop (tenant : Nat) (queue : Nat) (ahead : Nat)
  /-- R253: A slice packet at depth 0 begins a slice and is decided by admission. -/
  | pktSlice (tenant : Nat) (queue : Nat) (ahead : Nat)
  /-- R245: Launch packet: dispatches a launch node. -/
  | pktLaunch (tenant : Nat) (queue : Nat) (ahead : Nat)
  /-- R375: Pod launch packet, which starts the announce. -/
  | pktLaunchp (tenant : Nat) (queue : Nat) (ahead : Nat)
  /-- R300: Graph packet: checks the image and enters its root nodes. -/
  | pktGraph (tenant : Nat) (queue : Nat) (ahead : Nat)
  /-- R247: Opens an indirect buffer as a stream one depth deeper. -/
  | pktIb (tenant : Nat) (queue : Nat) (ahead : Nat)
  /-- R248: Compares a memory word and skips the next packets when the comparison fails. -/
  | pktPred (tenant : Nat) (queue : Nat) (ahead : Nat)
  /-- R249: Repeats the next N packets count times. -/
  | pktLoop (tenant : Nat) (queue : Nat) (ahead : Nat)
  /-- R246: Discards the words fetched ahead and refetches them after earlier packets perform. -/
  | pktFfence (tenant : Nat) (queue : Nat) (ahead : Nat)
  /-- R245: Atomic add to a signal with release at system scope. -/
  | pktSignal (tenant : Nat) (queue : Nat) (ahead : Nat)
  /-- R250: Observes its signals, holding later packets until they are all at most 0. -/
  | pktWait (tenant : Nat) (queue : Nat) (ahead : Nat)
  /-- R250: A waiting packet re-observes its signals and is satisfied or aborts with SIG_NEG. -/
  | waitObservation (tenant : Nat) (queue : Nat) (ahead : Nat)
  /-- R245: Queues a copy descriptor on a copy engine of the chip. -/
  | pktCopy (tenant : Nat) (queue : Nat) (ahead : Nat)
  /-- R245: Stores its words with release at system scope. -/
  | pktWrite (tenant : Nat) (queue : Nat) (ahead : Nat)
  /-- R245: Stores the PTB to a word. -/
  | pktTimestamp (tenant : Nat) (queue : Nat) (ahead : Nat)
  /-- R252: Cancels the named slice in drain or kill mode. -/
  | pktCancel (tenant : Nat) (queue : Nat) (ahead : Nat)
  /-- R245: Sends a host MSI, or a HOSTIRQ message to the owning shard. -/
  | pktHostirq (tenant : Nat) (queue : Nat) (ahead : Nat)
  /-- R425: After the last published packet, a fresh pointer read ends the slice. -/
  | sliceEnd (tenant : Nat) (queue : Nat)
  /-- R255: A slice has processed its last packet and all its work has completed; its completion entry is written. -/
  | sliceCompletion (slice : Nat)
  /-- R255: The consumer frees a completion entry, and the complex resumes slice packets. -/
  | completionRingRoom (tenant : Nat) (queue : Nat)
  /-- R259: PTB reaches an admitted slice's deadline, and an event is written. -/
  | deadlinemiss (slice : Nat)
  /-- R261: A slice's counter falls to 0 or below: its work stops and an event and message are sent. -/
  | budget (slice : Nat)
  /-- R263: Every 10 µs the hub measures each tenant against its caps. -/
  | capMeasurement (tenant : Nat) (other : Nat) (power : Nat)
  /-- R386: Every 10 µs the controller estimates tenant energy, halving PWRCAP while the package exceeds TDP. -/
  | powerEstimate (milliwatt : Nat)
  /-- R347: Tenant reset or removal begins PASID teardown. -/
  | tenantReset (tenant : Nat)
  /-- R347: Responses have drained and workgroups ended: queues become STOPPED and a kind 6 event is written. -/
  | teardownComplete (tenant : Nat)
  /-- R170: A host MSI to a shadow hart starts an invalidation from its mailbox entry. -/
  | shootdownRequest (msi : Nat × Nat)
  /-- R171: The conditions of R171 hold: the entry is acknowledged, or tlbinv completes. -/
  | invalidationComplete (inv : Nat)
  /-- R194: A host read of device HBM is served at its home. -/
  | cxlMemRead (offset : Nat) (size : Nat)
  /-- R194: A host write is applied at its home. -/
  | cxlMemWrite (offset : Nat) (bytes : List Byte)
  /-- R194: PTB reaches the write's WCT, and it is completed to the host. -/
  | cxlMemWriteComplete (write : Nat)
  /-- R193: A host snoop on a hub-held line, answered once the lease it granted expires. -/
  | hostSnoop (line : Nat)
  /-- R195: An inbound device write performs in order, carrying the largest WCT of earlier writes. -/
  | dmaWrite (requester : Nat) (addr : Nat) (bytes : List Byte)
  /-- R357: A device interrupt is sent as a DEVIRQ message to the owning shard, merging per vector. -/
  | devirq (source : Nat) (vector : Nat)
  /-- R362: A frame is received, its frame check sequence behind it, checked and written with its completion entry. -/
  | ethFrameReceive (port : Nat) (ring : Nat) (fcs : Nat) (bytes : List Byte)
  /-- R362: The port transmits a frame from its transmit ring entries. -/
  | ethTransmit (port : Nat) (ring : Nat)
  /-- R373: A fabric flit is received at a port, retransmitted on a CRC failure. -/
  | flitReceive (port : Nat) (bytes : List Byte)
  /-- R373: A port fails and the pod forms again without it. -/
  | fabricPortFailure (port : Nat)
  /-- R374: Packages announce chip indices, and PTBs are aligned to the master. -/
  | podFormation (clash : Bool) (ahead : Int) (chips : List PodChip)
  /-- R375: A chip receives an announce, checks the record, reserves an entry and acknowledges. -/
  | launchAnnounce (hop : Nat × Nat) (rootLaunch : Nat) (pasid : Nat) (slice : Nat) (bytes : List Byte)
  /-- R375: The root receives an acknowledgement, and sends Go once every chip has acknowledged. -/
  | announceAck (launch : Nat) (chip : Nat) (okay : Bool)
  /-- R375: A chip receives Go and starts its workgroups. -/
  | go (hop : Nat × Nat) (rootLaunch : Nat)
  /-- R375: A chip receives Withdraw and starts nothing. -/
  | withdraw (hop : Nat × Nat) (rootLaunch : Nat)
  /-- R375: No acknowledgement within 100 µs: the root withdraws and the launch fails. -/
  | announceTimeout (launch : Nat)
  /-- R380: A chip receives a pod cancel and applies its mode. -/
  | treeCancel (hop : Nat × Nat) (rootLaunch : Nat) (kill : Bool)
  /-- R377: The root receives a chip's report; after the last, it posts completion. -/
  | chipReport (launch : Nat) (chip : Nat)
  /-- R379: A chip silent for 100 µs after Go is lost; its dealt granules are poisoned. -/
  | chipLost (launch : Nat) (chip : Nat)
  /-- R378: The root counts a forwarded non-zero exit word in the aggregated report. -/
  | exitWordForward (launch : Nat) (chip : Nat) (time : Nat) (word : Nat)
  /-- R341: A service core takes a trap or accepted interrupt and enters its handler. -/
  | trapEntry (core : Nat)
  /-- R74: PTB reaches KTIMECMP, and KIP bit 3 is set. -/
  | ktimecmpMatch (core : Nat)
  /-- R355: Starts a stopped, measured service core with the given registers. -/
  | shardStart (core : Nat)
  /-- R367: Hashes a range and appends a kind 4 log entry. -/
  | measure (core : Nat)
  /-- R368: Writes a signed quote of the measurement log. -/
  | attest (core : Nat)
  /-- R370: Verifies a firmware image, loads it into the standby and boots it. -/
  | update (core : Nat)
  /-- R356: A complex message of unknown kind is answered with REPLY status 3. -/
  | unknownMessage (core : Nat)
  /-- R357: A full channel gains room and a held message is sent. -/
  | messageChannelRoom (target : Nat)
  /-- R370: The booted standby signals ready, and the active complex seeks a quiescent boundary. -/
  | updateStandbyReady
  /-- R370: No ready signal within 100 ms: the update ends with status 2. -/
  | updateReadyTimeout
  /-- R305: The active complex writes its state table. -/
  | quiescentBoundary
  /-- R370: No boundary within 1 ms: processing resumes with status 5. -/
  | quiescenceTimeout
  /-- R370: The standby imports the table and takes over, or refuses it. -/
  | stateTableImport
  /-- R371: The active complex stops; the standby takes over, stopping queues and failing slices. -/
  | complexMachineCheck
  /-- R371: A machine check on the standby resets it. -/
  | standbyMachineCheck
  /-- R389: Power-on asserts package reset. -/
  | powerOn
  /-- R385: A rail leaves its ±3 % band and asserts package reset. -/
  | railOutOfBand (rail : Nat)
  /-- R389: Host fundamental reset asserts package reset when the host link is enabled. -/
  | pcieFundamentalReset
  /-- R388: Writing 0x5253 asserts package reset. -/
  | mcreset
  /-- R363: Reset releases after rails are stable 10 ms, and complex A runs the boot steps. -/
  | boot (step : Nat) (okay : Bool)
  /-- R387: Every 100 µs sensors are read, with warning or trip actions. -/
  | thermalSample (sixteenths : Nat)
  /-- R383: A hub base register write takes effect only while every tenant's V is 0. -/
  | baseRegisterWrite (offset : Nat) (value : Nat)
  /-- R388: A write to a hub or management register with no row of its own, under its access codes. -/
  | registerWrite (offset : Nat) (value : Nat)
  /-- R92: An issued word whose major, function value or divided field is not assigned, or whose reserved or unused field is not zero, raises ILLEGAL or PRIV precisely in every thread of the PC-group by the order of Table 4.6. -/
  | unassignedWord (word : BitVec 32)
  /-- R156: An NVMe or Ethernet device reads HBM or a service-aperture window; a read of a thread-aperture address or of an empty or out-of-share slot delivers no data and completes the command with a data-transfer error. -/
  | dmaRead (requester : Nat) (addr : Nat) (size : Nat)
  /-- R390: An uncorrectable error in a service core's L1 is a machine check that stops the core, and the active complex restarts its shard. -/
  | serviceCoreL1EccUe (core : Nat)
  /-- R262: A tenant fault ring entry becomes free and the hub writes a held pending event of a slice into it. -/
  | tenantFaultRingEntryFree (tenant : Nat)
  deriving DecidableEq, Repr, Inhabited

end Sys2Proof
end

