-- ==== Sys2Proof/WellFormed.lean ====
section
/-! DEFINITION. Well-formed instructions: the field values that Table 4.6 steps 4 and 5 admit, beyond what the width
of a field already says. An event is always well formed; `unassignedWord` stands for a word that no row encodes. -/

namespace Sys2Proof

/-- The system-register numbers of Table 3.3 (R66, R106): any other number raises `ILLEGAL`. -/
def Number.assigned (n : BitVec 12) : Bool := decide (n.toNat ≤ 15)

/-- The field values of an encoded row that do not raise `ILLEGAL` (R84, R90 Table 4.4, and the rule named at each line). -/
def Instr.wf : Instr → Bool
  | .wrsr h _ k => Number.assigned (h ++ k)   -- R106
  | .rdsr _ s => Number.assigned s   -- R106
  | .swrsr h _ k => Number.assigned (h ++ k)   -- R106
  | .srdsr _ s => Number.assigned s   -- R106
  | .lanemask _ k => decide (k.toNat ≤ 6)   -- R107
  | .icmpW g _ _ _ _ => g != 0#3   -- R90
  | .icmpD g _ _ _ _ => g != 0#3   -- R90
  | .fcmpS g _ _ _ c => g != 0#3 && decide (c.toNat ≤ 5)   -- R90
  | .fcmpD g _ _ _ c => g != 0#3 && decide (c.toNat ≤ 5)   -- R90
  | .cvt _ _ s t => s != t   -- R90
  | .shifti _ _ _ w n => w == 1#1 || decide (n.toNat < 32)   -- R90
  | .sshifti _ _ _ w n => w == 1#1 || decide (n.toNat < 32)   -- R90
  | .xred _ _ o _ _ => decide (o.toNat ≤ 13)   -- R142
  | .xscan _ _ _ o _ _ => decide (o.toNat ≤ 13)   -- R142
  | .xvote _ _ k _ _ => decide (k.toNat ≤ 3)   -- R142
  | .prefetch h _ _ _ => decide (h.toNat ≤ 2)   -- R200
  | .lda d _ _ w s _ _ => decide (s.toNat ≤ 5) && (w == 0#2 || w == 1#2 || (w == 2#2 && d.getLsbD 0 == false))   -- R84, R201
  | .str _ _ a _ _ w s _ => decide (s.toNat ≤ 5) && (w == 0#2 || w == 1#2 || (w == 2#2 && a.getLsbD 0 == false))   -- R84, R203
  | .fenceRel s => decide (s.toNat ≤ 5)   -- R84
  | .fenceAcq s => decide (s.toNat ≤ 5)   -- R84
  | .fenceAcqrel s => decide (s.toNat ≤ 5)   -- R84
  | .fenceSc s => decide (s.toNat ≤ 5)   -- R84
  | .fenceWct _ s => decide (s.toNat ≤ 5)   -- R84
  | .cntrd _ _ k _ => decide (k.toNat ≤ 3) || (decide (32 ≤ k.toNat) && decide (k.toNat ≤ 39))   -- R324
  | .tfetch d _ => d != 0#4   -- R271
  | .tretire _ a _ _ => a != 0#4   -- R271
  | .tgive _ a _ _ => a != 0#4   -- R271
  | .tstat _ k _ => decide (k.toNat ≤ 6)   -- R276
  | .krd _ k => decide (k.toNat ≤ 14)   -- R74
  | .kwr _ k => decide (k.toNat ≤ 14)   -- R74
  | _ => true

end Sys2Proof
end

