-- ==== Sys2Proof/Decode.lean ====
section
/-! DEFINITION. The decoder, total on any bytes, and the encoder (R80 to R92). -/

namespace Sys2Proof

/-- Why a word encodes no row of the opcode table: the step of Table 4.6 that fails first on every kind of core. -/
inductive Reject where
  /-- R91: U set, major 0x16 to 0x3F. -/
  | reservedMajor
  /-- R89, R90: no row has this major and function, or a reserved or unused field is not zero. -/
  | noRow
  /-- R84, R90: a field holds a value that its row does not admit. -/
  | badField
  /-- Fewer than four bytes were given. -/
  | tooShort
  deriving DecidableEq, Repr

/-- Bits `lo` to `lo + n - 1` of an instruction word, right-aligned (R7). -/
def fieldOf (w : BitVec 32) (lo n : Nat) : BitVec n := w.extractLsb' lo n

/-- The row whose fixed bits the word matches, before the values of its fields are checked: the major in bits 30:25
and the set in bit 31 choose the group of rows (R80, R89, R91), the row's other fixed bits choose the row (R90).
-/
noncomputable def matchRow (w : BitVec 32) : Option Instr :=
  match (w >>> 25).toNat with
  | 0x00 =>   -- L set, major 0x00
    if w &&& 0x1FFFFFF#32 = 0x0000000#32 then some (.nop)
    else if w &&& 0x007E03F#32 = 0x0000001#32 then some (.mov (fieldOf w 19 6) (fieldOf w 7 6) (fieldOf w 6 1))
    else if w &&& 0x000007F#32 = 0x0000002#32 then some (.rdsr (fieldOf w 19 6) (fieldOf w 7 12))
    else if w &&& 0x000007F#32 = 0x0000003#32 then some (.wrsr (fieldOf w 19 6) (fieldOf w 13 6) (fieldOf w 7 6))
    else if w &&& 0x007FFFF#32 = 0x0000004#32 then some (.movgv (fieldOf w 19 6))
    else if w &&& 0x1FFE03F#32 = 0x0000005#32 then some (.movvg (fieldOf w 7 6) (fieldOf w 6 1))
    else if w &&& 0x000003F#32 = 0x0000006#32 then some (.waitne (fieldOf w 19 6) (fieldOf w 13 6) (fieldOf w 7 6) (fieldOf w 6 1))
    else if w &&& 0x0001FFF#32 = 0x0000007#32 then some (.lanemask (fieldOf w 19 6) (fieldOf w 13 6))
    else none
  | 0x01 =>   -- L set, major 0x01
    if w &&& 0x0000003#32 = 0x0000000#32 then some (.sel (fieldOf w 19 6) (fieldOf w 13 6) (fieldOf w 7 6) (fieldOf w 6 1) (fieldOf w 5 1) (fieldOf w 2 3))
    else none
  | 0x02 =>   -- L set, major 0x02
    if w &&& 0x000003F#32 = 0x0000000#32 then some (.addW (fieldOf w 19 6) (fieldOf w 13 6) (fieldOf w 7 6) (fieldOf w 6 1))
    else if w &&& 0x000003F#32 = 0x0000001#32 then some (.addD (fieldOf w 19 6) (fieldOf w 13 6) (fieldOf w 7 6) (fieldOf w 6 1))
    else if w &&& 0x000003F#32 = 0x0000002#32 then some (.subW (fieldOf w 19 6) (fieldOf w 13 6) (fieldOf w 7 6) (fieldOf w 6 1))
    else if w &&& 0x000003F#32 = 0x0000003#32 then some (.subD (fieldOf w 19 6) (fieldOf w 13 6) (fieldOf w 7 6) (fieldOf w 6 1))
    else if w &&& 0x000003F#32 = 0x0000004#32 then some (.mulW (fieldOf w 19 6) (fieldOf w 13 6) (fieldOf w 7 6) (fieldOf w 6 1))
    else if w &&& 0x000003F#32 = 0x0000005#32 then some (.mulD (fieldOf w 19 6) (fieldOf w 13 6) (fieldOf w 7 6) (fieldOf w 6 1))
    else if w &&& 0x000003F#32 = 0x0000006#32 then some (.mulhD (fieldOf w 19 6) (fieldOf w 13 6) (fieldOf w 7 6) (fieldOf w 6 1))
    else if w &&& 0x000003F#32 = 0x0000007#32 then some (.mulhuD (fieldOf w 19 6) (fieldOf w 13 6) (fieldOf w 7 6) (fieldOf w 6 1))
    else if w &&& 0x000003F#32 = 0x0000008#32 then some (.madW (fieldOf w 19 6) (fieldOf w 13 6) (fieldOf w 7 6) (fieldOf w 6 1))
    else if w &&& 0x000003F#32 = 0x0000009#32 then some (.madD (fieldOf w 19 6) (fieldOf w 13 6) (fieldOf w 7 6) (fieldOf w 6 1))
    else if w &&& 0x000003F#32 = 0x000000A#32 then some (.and (fieldOf w 19 6) (fieldOf w 13 6) (fieldOf w 7 6) (fieldOf w 6 1))
    else if w &&& 0x000003F#32 = 0x000000B#32 then some (.or (fieldOf w 19 6) (fieldOf w 13 6) (fieldOf w 7 6) (fieldOf w 6 1))
    else if w &&& 0x000003F#32 = 0x000000C#32 then some (.xor (fieldOf w 19 6) (fieldOf w 13 6) (fieldOf w 7 6) (fieldOf w 6 1))
    else if w &&& 0x000003F#32 = 0x000000D#32 then some (.andn (fieldOf w 19 6) (fieldOf w 13 6) (fieldOf w 7 6) (fieldOf w 6 1))
    else if w &&& 0x000003F#32 = 0x000000E#32 then some (.shlW (fieldOf w 19 6) (fieldOf w 13 6) (fieldOf w 7 6) (fieldOf w 6 1))
    else if w &&& 0x000003F#32 = 0x000000F#32 then some (.shlD (fieldOf w 19 6) (fieldOf w 13 6) (fieldOf w 7 6) (fieldOf w 6 1))
    else if w &&& 0x000003F#32 = 0x0000010#32 then some (.shrW (fieldOf w 19 6) (fieldOf w 13 6) (fieldOf w 7 6) (fieldOf w 6 1))
    else if w &&& 0x000003F#32 = 0x0000011#32 then some (.shrD (fieldOf w 19 6) (fieldOf w 13 6) (fieldOf w 7 6) (fieldOf w 6 1))
    else if w &&& 0x000003F#32 = 0x0000012#32 then some (.sraW (fieldOf w 19 6) (fieldOf w 13 6) (fieldOf w 7 6) (fieldOf w 6 1))
    else if w &&& 0x000003F#32 = 0x0000013#32 then some (.sraD (fieldOf w 19 6) (fieldOf w 13 6) (fieldOf w 7 6) (fieldOf w 6 1))
    else if w &&& 0x000003F#32 = 0x0000014#32 then some (.rotW (fieldOf w 19 6) (fieldOf w 13 6) (fieldOf w 7 6) (fieldOf w 6 1))
    else if w &&& 0x000003F#32 = 0x0000015#32 then some (.rotD (fieldOf w 19 6) (fieldOf w 13 6) (fieldOf w 7 6) (fieldOf w 6 1))
    else if w &&& 0x000003F#32 = 0x0000016#32 then some (.min (fieldOf w 19 6) (fieldOf w 13 6) (fieldOf w 7 6) (fieldOf w 6 1))
    else if w &&& 0x000003F#32 = 0x0000017#32 then some (.max (fieldOf w 19 6) (fieldOf w 13 6) (fieldOf w 7 6) (fieldOf w 6 1))
    else if w &&& 0x000003F#32 = 0x0000018#32 then some (.minu (fieldOf w 19 6) (fieldOf w 13 6) (fieldOf w 7 6) (fieldOf w 6 1))
    else if w &&& 0x000003F#32 = 0x0000019#32 then some (.maxu (fieldOf w 19 6) (fieldOf w 13 6) (fieldOf w 7 6) (fieldOf w 6 1))
    else if w &&& 0x0001FFF#32 = 0x000001A#32 then some (.abs (fieldOf w 19 6) (fieldOf w 13 6))
    else if w &&& 0x0001FFF#32 = 0x000001B#32 then some (.clz (fieldOf w 19 6) (fieldOf w 13 6))
    else if w &&& 0x0001FFF#32 = 0x000001C#32 then some (.popc (fieldOf w 19 6) (fieldOf w 13 6))
    else if w &&& 0x0001FFF#32 = 0x000001D#32 then some (.brev (fieldOf w 19 6) (fieldOf w 13 6))
    else if w &&& 0x000003F#32 = 0x000001E#32 then some (.bfe (fieldOf w 19 6) (fieldOf w 13 6) (fieldOf w 7 6) (fieldOf w 6 1))
    else if w &&& 0x000003F#32 = 0x000001F#32 then some (.bfeu (fieldOf w 19 6) (fieldOf w 13 6) (fieldOf w 7 6) (fieldOf w 6 1))
    else if w &&& 0x000003F#32 = 0x0000020#32 then some (.bfi (fieldOf w 19 6) (fieldOf w 13 6) (fieldOf w 7 6) (fieldOf w 6 1))
    else if w &&& 0x000003F#32 = 0x0000021#32 then some (.slt (fieldOf w 19 6) (fieldOf w 13 6) (fieldOf w 7 6) (fieldOf w 6 1))
    else if w &&& 0x000003F#32 = 0x0000022#32 then some (.sltu (fieldOf w 19 6) (fieldOf w 13 6) (fieldOf w 7 6) (fieldOf w 6 1))
    else if w &&& 0x000003F#32 = 0x0000023#32 then some (.seq (fieldOf w 19 6) (fieldOf w 13 6) (fieldOf w 7 6) (fieldOf w 6 1))
    else if w &&& 0x000003F#32 = 0x0000024#32 then some (.sne (fieldOf w 19 6) (fieldOf w 13 6) (fieldOf w 7 6) (fieldOf w 6 1))
    else if w &&& 0x000003F#32 = 0x0000025#32 then some (.addva (fieldOf w 19 6) (fieldOf w 13 6) (fieldOf w 7 6) (fieldOf w 6 1))
    else none
  | 0x03 =>   -- L set, major 0x03
    if w &&& 0x1C00007#32 = 0x0000000#32 then some (.icmpW (fieldOf w 19 3) (fieldOf w 13 6) (fieldOf w 7 6) (fieldOf w 6 1) (fieldOf w 3 3))
    else if w &&& 0x1C00007#32 = 0x0000004#32 then some (.icmpD (fieldOf w 19 3) (fieldOf w 13 6) (fieldOf w 7 6) (fieldOf w 6 1) (fieldOf w 3 3))
    else none
  | 0x04 =>   -- L set, major 0x04
    if w &&& 0x000003F#32 = 0x0000000#32 then some (.fadd (fieldOf w 19 6) (fieldOf w 13 6) (fieldOf w 7 6) (fieldOf w 6 1))
    else if w &&& 0x000003F#32 = 0x0000001#32 then some (.fsub (fieldOf w 19 6) (fieldOf w 13 6) (fieldOf w 7 6) (fieldOf w 6 1))
    else if w &&& 0x000003F#32 = 0x0000002#32 then some (.fmul (fieldOf w 19 6) (fieldOf w 13 6) (fieldOf w 7 6) (fieldOf w 6 1))
    else if w &&& 0x000003F#32 = 0x0000003#32 then some (.ffma (fieldOf w 19 6) (fieldOf w 13 6) (fieldOf w 7 6) (fieldOf w 6 1))
    else if w &&& 0x000003F#32 = 0x0000004#32 then some (.fmin (fieldOf w 19 6) (fieldOf w 13 6) (fieldOf w 7 6) (fieldOf w 6 1))
    else if w &&& 0x000003F#32 = 0x0000005#32 then some (.fmax (fieldOf w 19 6) (fieldOf w 13 6) (fieldOf w 7 6) (fieldOf w 6 1))
    else if w &&& 0x0001FFF#32 = 0x0000006#32 then some (.fabs (fieldOf w 19 6) (fieldOf w 13 6))
    else if w &&& 0x0001FFF#32 = 0x0000007#32 then some (.fneg (fieldOf w 19 6) (fieldOf w 13 6))
    else if w &&& 0x000003F#32 = 0x0000008#32 then some (.fcpysgn (fieldOf w 19 6) (fieldOf w 13 6) (fieldOf w 7 6) (fieldOf w 6 1))
    else if w &&& 0x0001FFF#32 = 0x0000009#32 then some (.fclass (fieldOf w 19 6) (fieldOf w 13 6))
    else none
  | 0x05 =>   -- L set, major 0x05
    if w &&& 0x000003F#32 = 0x0000000#32 then some (.faddS (fieldOf w 19 6) (fieldOf w 13 6) (fieldOf w 7 6) (fieldOf w 6 1))
    else if w &&& 0x000003F#32 = 0x0000001#32 then some (.fsubS (fieldOf w 19 6) (fieldOf w 13 6) (fieldOf w 7 6) (fieldOf w 6 1))
    else if w &&& 0x000003F#32 = 0x0000002#32 then some (.fmulS (fieldOf w 19 6) (fieldOf w 13 6) (fieldOf w 7 6) (fieldOf w 6 1))
    else if w &&& 0x000003F#32 = 0x0000003#32 then some (.ffmaS (fieldOf w 19 6) (fieldOf w 13 6) (fieldOf w 7 6) (fieldOf w 6 1))
    else if w &&& 0x000003F#32 = 0x0000004#32 then some (.fminS (fieldOf w 19 6) (fieldOf w 13 6) (fieldOf w 7 6) (fieldOf w 6 1))
    else if w &&& 0x000003F#32 = 0x0000005#32 then some (.fmaxS (fieldOf w 19 6) (fieldOf w 13 6) (fieldOf w 7 6) (fieldOf w 6 1))
    else if w &&& 0x0001FFF#32 = 0x0000006#32 then some (.fabsS (fieldOf w 19 6) (fieldOf w 13 6))
    else if w &&& 0x0001FFF#32 = 0x0000007#32 then some (.fnegS (fieldOf w 19 6) (fieldOf w 13 6))
    else if w &&& 0x000003F#32 = 0x0000008#32 then some (.fcpysgnS (fieldOf w 19 6) (fieldOf w 13 6) (fieldOf w 7 6) (fieldOf w 6 1))
    else if w &&& 0x0001FFF#32 = 0x0000009#32 then some (.fclassS (fieldOf w 19 6) (fieldOf w 13 6))
    else none
  | 0x06 =>   -- L set, major 0x06
    if w &&& 0x000003F#32 = 0x0000000#32 then some (.hadd2 (fieldOf w 19 6) (fieldOf w 13 6) (fieldOf w 7 6) (fieldOf w 6 1))
    else if w &&& 0x000003F#32 = 0x0000001#32 then some (.hmul2 (fieldOf w 19 6) (fieldOf w 13 6) (fieldOf w 7 6) (fieldOf w 6 1))
    else if w &&& 0x000003F#32 = 0x0000002#32 then some (.hfma2 (fieldOf w 19 6) (fieldOf w 13 6) (fieldOf w 7 6) (fieldOf w 6 1))
    else if w &&& 0x000003F#32 = 0x0000003#32 then some (.hmax2 (fieldOf w 19 6) (fieldOf w 13 6) (fieldOf w 7 6) (fieldOf w 6 1))
    else if w &&& 0x000003F#32 = 0x0000004#32 then some (.badd2 (fieldOf w 19 6) (fieldOf w 13 6) (fieldOf w 7 6) (fieldOf w 6 1))
    else if w &&& 0x000003F#32 = 0x0000005#32 then some (.bmul2 (fieldOf w 19 6) (fieldOf w 13 6) (fieldOf w 7 6) (fieldOf w 6 1))
    else if w &&& 0x000003F#32 = 0x0000006#32 then some (.bfma2 (fieldOf w 19 6) (fieldOf w 13 6) (fieldOf w 7 6) (fieldOf w 6 1))
    else if w &&& 0x000003F#32 = 0x0000007#32 then some (.bmax2 (fieldOf w 19 6) (fieldOf w 13 6) (fieldOf w 7 6) (fieldOf w 6 1))
    else none
  | 0x07 =>   -- L set, major 0x07
    if w &&& 0x1C00007#32 = 0x0000000#32 then some (.fcmpS (fieldOf w 19 3) (fieldOf w 13 6) (fieldOf w 7 6) (fieldOf w 6 1) (fieldOf w 3 3))
    else if w &&& 0x1C00007#32 = 0x0000004#32 then some (.fcmpD (fieldOf w 19 3) (fieldOf w 13 6) (fieldOf w 7 6) (fieldOf w 6 1) (fieldOf w 3 3))
    else none
  | 0x08 =>   -- L set, major 0x08
    if w &&& 0x0001FC0#32 = 0x0000000#32 then some (.cvt (fieldOf w 19 6) (fieldOf w 13 6) (fieldOf w 3 3) (fieldOf w 0 3))
    else none
  | 0x09 =>   -- L set, major 0x09
    if w &&& 0x0000037#32 = 0x0000000#32 then some (.qe4m3 (fieldOf w 19 6) (fieldOf w 13 6) (fieldOf w 7 6) (fieldOf w 6 1) (fieldOf w 3 1))
    else if w &&& 0x0000037#32 = 0x0000001#32 then some (.qe5m2 (fieldOf w 19 6) (fieldOf w 13 6) (fieldOf w 7 6) (fieldOf w 6 1) (fieldOf w 3 1))
    else if w &&& 0x0000037#32 = 0x0000002#32 then some (.qe2m1 (fieldOf w 19 6) (fieldOf w 13 6) (fieldOf w 7 6) (fieldOf w 6 1) (fieldOf w 3 1))
    else if w &&& 0x0000037#32 = 0x0000003#32 then some (.qi8 (fieldOf w 19 6) (fieldOf w 13 6) (fieldOf w 7 6) (fieldOf w 6 1) (fieldOf w 3 1))
    else if w &&& 0x0001FFF#32 = 0x0000004#32 then some (.de4m3 (fieldOf w 19 6) (fieldOf w 13 6))
    else if w &&& 0x0001FFF#32 = 0x0000005#32 then some (.de5m2 (fieldOf w 19 6) (fieldOf w 13 6))
    else if w &&& 0x0001FFF#32 = 0x0000006#32 then some (.de2m1 (fieldOf w 19 6) (fieldOf w 13 6))
    else none
  | 0x0A => some (.addiW (fieldOf w 19 6) (fieldOf w 13 6) (fieldOf w 0 13))   -- L set, major 0x0A
  | 0x0B => some (.addiD (fieldOf w 19 6) (fieldOf w 13 6) (fieldOf w 0 13))   -- L set, major 0x0B
  | 0x0C => some (.andi (fieldOf w 19 6) (fieldOf w 13 6) (fieldOf w 0 13))   -- L set, major 0x0C
  | 0x0D => some (.ori (fieldOf w 19 6) (fieldOf w 13 6) (fieldOf w 0 13))   -- L set, major 0x0D
  | 0x0E => some (.xori (fieldOf w 19 6) (fieldOf w 13 6) (fieldOf w 0 13))   -- L set, major 0x0E
  | 0x0F =>   -- L set, major 0x0F
    if w &&& 0x00003C0#32 = 0x0000000#32 then some (.shifti (fieldOf w 19 6) (fieldOf w 13 6) (fieldOf w 11 2) (fieldOf w 10 1) (fieldOf w 0 6))
    else none
  | 0x10 => some (.movi (fieldOf w 19 6) (fieldOf w 0 19))   -- L set, major 0x10
  | 0x11 => some (.movsh (fieldOf w 19 6) (fieldOf w 0 19))   -- L set, major 0x11
  | 0x12 =>   -- L set, major 0x12
    if w &&& 0x0001FF0#32 = 0x0000000#32 then some (.rcpS (fieldOf w 19 6) (fieldOf w 13 6) (fieldOf w 0 4))
    else if w &&& 0x0001FF0#32 = 0x0000010#32 then some (.rsqS (fieldOf w 19 6) (fieldOf w 13 6) (fieldOf w 0 4))
    else if w &&& 0x0001FF0#32 = 0x0000020#32 then some (.sqrtS (fieldOf w 19 6) (fieldOf w 13 6) (fieldOf w 0 4))
    else if w &&& 0x0000030#32 = 0x0000030#32 then some (.divS (fieldOf w 19 6) (fieldOf w 13 6) (fieldOf w 7 6) (fieldOf w 6 1) (fieldOf w 0 4))
    else none
  | 0x13 =>   -- L set, major 0x13
    if w &&& 0x0001FF0#32 = 0x0000000#32 then some (.rcpD (fieldOf w 19 6) (fieldOf w 13 6) (fieldOf w 0 4))
    else if w &&& 0x0001FF0#32 = 0x0000010#32 then some (.rsqD (fieldOf w 19 6) (fieldOf w 13 6) (fieldOf w 0 4))
    else if w &&& 0x0001FF0#32 = 0x0000020#32 then some (.sqrtD (fieldOf w 19 6) (fieldOf w 13 6) (fieldOf w 0 4))
    else if w &&& 0x0000030#32 = 0x0000030#32 then some (.divD (fieldOf w 19 6) (fieldOf w 13 6) (fieldOf w 7 6) (fieldOf w 6 1) (fieldOf w 0 4))
    else none
  | 0x14 =>   -- L set, major 0x14
    if w &&& 0x0001FF0#32 = 0x0000000#32 then some (.exp2 (fieldOf w 19 6) (fieldOf w 13 6) (fieldOf w 0 4))
    else if w &&& 0x0001FF0#32 = 0x0000010#32 then some (.log2 (fieldOf w 19 6) (fieldOf w 13 6) (fieldOf w 0 4))
    else if w &&& 0x0001FF0#32 = 0x0000020#32 then some (.sinpi (fieldOf w 19 6) (fieldOf w 13 6) (fieldOf w 0 4))
    else if w &&& 0x0001FF0#32 = 0x0000030#32 then some (.cospi (fieldOf w 19 6) (fieldOf w 13 6) (fieldOf w 0 4))
    else none
  | 0x15 =>   -- L set, major 0x15
    if w &&& 0x0000030#32 = 0x0000000#32 then some (.div (fieldOf w 19 6) (fieldOf w 13 6) (fieldOf w 7 6) (fieldOf w 6 1) (fieldOf w 0 4))
    else if w &&& 0x0000030#32 = 0x0000010#32 then some (.divu (fieldOf w 19 6) (fieldOf w 13 6) (fieldOf w 7 6) (fieldOf w 6 1) (fieldOf w 0 4))
    else if w &&& 0x0000030#32 = 0x0000020#32 then some (.rem (fieldOf w 19 6) (fieldOf w 13 6) (fieldOf w 7 6) (fieldOf w 6 1) (fieldOf w 0 4))
    else if w &&& 0x0000030#32 = 0x0000030#32 then some (.remu (fieldOf w 19 6) (fieldOf w 13 6) (fieldOf w 7 6) (fieldOf w 6 1) (fieldOf w 0 4))
    else none
  | 0x16 => some (.xshfl (fieldOf w 19 6) (fieldOf w 13 6) (fieldOf w 7 6) (fieldOf w 4 3) (fieldOf w 0 4))   -- L set, major 0x16
  | 0x17 =>   -- L set, major 0x17
    if w &&& 0x0001000#32 = 0x0000000#32 then some (.xshxor (fieldOf w 19 6) (fieldOf w 13 6) (fieldOf w 7 5) (fieldOf w 4 3) (fieldOf w 0 4))
    else none
  | 0x18 =>   -- L set, major 0x18
    if w &&& 0x0001000#32 = 0x0000000#32 then some (.xred (fieldOf w 19 6) (fieldOf w 13 6) (fieldOf w 7 5) (fieldOf w 4 3) (fieldOf w 0 4))
    else none
  | 0x19 => some (.xscan (fieldOf w 19 6) (fieldOf w 13 6) (fieldOf w 12 1) (fieldOf w 7 5) (fieldOf w 4 3) (fieldOf w 0 4))   -- L set, major 0x19
  | 0x1A => some (.xvote (fieldOf w 19 6) (fieldOf w 13 6) (fieldOf w 7 6) (fieldOf w 4 3) (fieldOf w 0 4))   -- L set, major 0x1A
  | 0x1B =>   -- L set, major 0x1B
    if w &&& 0x0001F80#32 = 0x0000000#32 then some (.xmatch (fieldOf w 19 6) (fieldOf w 13 6) (fieldOf w 4 3) (fieldOf w 0 4))
    else none
  | 0x1C => some (.ldb (fieldOf w 19 6) (fieldOf w 13 6) (fieldOf w 12 1) (fieldOf w 4 8) (fieldOf w 0 4))   -- L set, major 0x1C
  | 0x1D => some (.ldbu (fieldOf w 19 6) (fieldOf w 13 6) (fieldOf w 12 1) (fieldOf w 4 8) (fieldOf w 0 4))   -- L set, major 0x1D
  | 0x1E => some (.ldh (fieldOf w 19 6) (fieldOf w 13 6) (fieldOf w 12 1) (fieldOf w 4 8) (fieldOf w 0 4))   -- L set, major 0x1E
  | 0x1F => some (.ldhu (fieldOf w 19 6) (fieldOf w 13 6) (fieldOf w 12 1) (fieldOf w 4 8) (fieldOf w 0 4))   -- L set, major 0x1F
  | 0x20 => some (.ldw (fieldOf w 19 6) (fieldOf w 13 6) (fieldOf w 12 1) (fieldOf w 4 8) (fieldOf w 0 4))   -- L set, major 0x20
  | 0x21 => some (.ldwu (fieldOf w 19 6) (fieldOf w 13 6) (fieldOf w 12 1) (fieldOf w 4 8) (fieldOf w 0 4))   -- L set, major 0x21
  | 0x22 => some (.ldd (fieldOf w 19 6) (fieldOf w 13 6) (fieldOf w 12 1) (fieldOf w 4 8) (fieldOf w 0 4))   -- L set, major 0x22
  | 0x23 =>   -- L set, major 0x23
    if w &&& 0x0080000#32 = 0x0000000#32 then some (.ldq (fieldOf w 20 5) (fieldOf w 13 6) (fieldOf w 12 1) (fieldOf w 4 8) (fieldOf w 0 4))
    else if w &&& 0x1C8000F#32 = 0x0080000#32 then some (.prefetch (fieldOf w 20 2) (fieldOf w 13 6) (fieldOf w 12 1) (fieldOf w 4 8))
    else none
  | 0x24 => some (.lda (fieldOf w 19 6) (fieldOf w 13 6) (fieldOf w 12 1) (fieldOf w 10 2) (fieldOf w 7 3) (fieldOf w 4 3) (fieldOf w 0 4))   -- L set, major 0x24
  | 0x25 => some (.stb (fieldOf w 24 1) (fieldOf w 21 3) (fieldOf w 15 6) (fieldOf w 9 6) (fieldOf w 8 1) (fieldOf w 0 8))   -- L set, major 0x25
  | 0x26 => some (.sth (fieldOf w 24 1) (fieldOf w 21 3) (fieldOf w 15 6) (fieldOf w 9 6) (fieldOf w 8 1) (fieldOf w 0 8))   -- L set, major 0x26
  | 0x27 => some (.stw (fieldOf w 24 1) (fieldOf w 21 3) (fieldOf w 15 6) (fieldOf w 9 6) (fieldOf w 8 1) (fieldOf w 0 8))   -- L set, major 0x27
  | 0x28 => some (.std (fieldOf w 24 1) (fieldOf w 21 3) (fieldOf w 15 6) (fieldOf w 9 6) (fieldOf w 8 1) (fieldOf w 0 8))   -- L set, major 0x28
  | 0x29 =>   -- L set, major 0x29
    if w &&& 0x0008000#32 = 0x0000000#32 then some (.stq (fieldOf w 24 1) (fieldOf w 21 3) (fieldOf w 16 5) (fieldOf w 9 6) (fieldOf w 8 1) (fieldOf w 0 8))
    else none
  | 0x2A => some (.str (fieldOf w 24 1) (fieldOf w 21 3) (fieldOf w 15 6) (fieldOf w 9 6) (fieldOf w 8 1) (fieldOf w 6 2) (fieldOf w 3 3) (fieldOf w 0 3))   -- L set, major 0x2A
  | 0x2B => some (.amadd (fieldOf w 23 2) (fieldOf w 17 6) (fieldOf w 11 6) (fieldOf w 5 6) (fieldOf w 4 1) (fieldOf w 0 4))   -- L set, major 0x2B
  | 0x2C => some (.ammin (fieldOf w 23 2) (fieldOf w 17 6) (fieldOf w 11 6) (fieldOf w 5 6) (fieldOf w 4 1) (fieldOf w 0 4))   -- L set, major 0x2C
  | 0x2D => some (.ammax (fieldOf w 23 2) (fieldOf w 17 6) (fieldOf w 11 6) (fieldOf w 5 6) (fieldOf w 4 1) (fieldOf w 0 4))   -- L set, major 0x2D
  | 0x2E => some (.amumin (fieldOf w 23 2) (fieldOf w 17 6) (fieldOf w 11 6) (fieldOf w 5 6) (fieldOf w 4 1) (fieldOf w 0 4))   -- L set, major 0x2E
  | 0x2F => some (.amumax (fieldOf w 23 2) (fieldOf w 17 6) (fieldOf w 11 6) (fieldOf w 5 6) (fieldOf w 4 1) (fieldOf w 0 4))   -- L set, major 0x2F
  | 0x30 => some (.amand (fieldOf w 23 2) (fieldOf w 17 6) (fieldOf w 11 6) (fieldOf w 5 6) (fieldOf w 4 1) (fieldOf w 0 4))   -- L set, major 0x30
  | 0x31 => some (.amor (fieldOf w 23 2) (fieldOf w 17 6) (fieldOf w 11 6) (fieldOf w 5 6) (fieldOf w 4 1) (fieldOf w 0 4))   -- L set, major 0x31
  | 0x32 => some (.amxor (fieldOf w 23 2) (fieldOf w 17 6) (fieldOf w 11 6) (fieldOf w 5 6) (fieldOf w 4 1) (fieldOf w 0 4))   -- L set, major 0x32
  | 0x33 => some (.amswap (fieldOf w 23 2) (fieldOf w 17 6) (fieldOf w 11 6) (fieldOf w 5 6) (fieldOf w 4 1) (fieldOf w 0 4))   -- L set, major 0x33
  | 0x34 => some (.amcas (fieldOf w 23 2) (fieldOf w 17 6) (fieldOf w 11 6) (fieldOf w 5 6) (fieldOf w 4 1) (fieldOf w 0 4))   -- L set, major 0x34
  | 0x35 => some (.amfadd (fieldOf w 23 2) (fieldOf w 17 6) (fieldOf w 11 6) (fieldOf w 5 6) (fieldOf w 4 1) (fieldOf w 0 4))   -- L set, major 0x35
  | 0x36 => some (.br (fieldOf w 24 1) (fieldOf w 21 3) (fieldOf w 0 21))   -- L set, major 0x36
  | 0x37 => some (.call (fieldOf w 0 25))   -- L set, major 0x37
  | 0x38 =>   -- L set, major 0x38
    if w &&& 0x1FFE03F#32 = 0x0000000#32 then some (.jr (fieldOf w 7 6) (fieldOf w 6 1))
    else if w &&& 0x1FFE03F#32 = 0x0000001#32 then some (.callr (fieldOf w 7 6) (fieldOf w 6 1))
    else if w &&& 0x1FFFFFF#32 = 0x0000002#32 then some (.ret)
    else if w &&& 0x1FFFFFF#32 = 0x0000003#32 then some (.exit)
    else if w &&& 0x1F8007F#32 = 0x0000004#32 then some (.bkpt (fieldOf w 7 12))
    else none
  | 0x39 =>   -- L set, major 0x39
    if w &&& 0x1C7E0FF#32 = 0x0000040#32 then some (.cvset (fieldOf w 19 3) (fieldOf w 8 5))
    else if w &&& 0x1C7FFFF#32 = 0x0002000#32 then some (.cvsetGrp (fieldOf w 19 3))
    else if w &&& 0x1C7FFFF#32 = 0x0000001#32 then some (.cvwait (fieldOf w 19 3))
    else if w &&& 0x007003F#32 = 0x0000002#32 then some (.cvquery (fieldOf w 19 6) (fieldOf w 13 3) (fieldOf w 7 6) (fieldOf w 6 1))
    else if w &&& 0x1C7FFFF#32 = 0x0000003#32 then some (.cvclear (fieldOf w 19 3))
    else none
  | 0x3A =>   -- L set, major 0x3A
    if w &&& 0x0001C70#32 = 0x0000000#32 then some (.spawn (fieldOf w 19 6) (fieldOf w 13 6) (fieldOf w 7 3) (fieldOf w 0 4))
    else none
  | 0x3B =>   -- L set, major 0x3B
    if w &&& 0x1F80000#32 = 0x0080000#32 then some (.syscall (fieldOf w 4 15) (fieldOf w 0 4))
    else none
  | 0x3C =>   -- L set, major 0x3C
    if w &&& 0x0000410#32 = 0x0000000#32 then some (.mma (fieldOf w 22 3) (fieldOf w 16 6) (fieldOf w 11 5) (fieldOf w 5 5) (fieldOf w 0 4))
    else none
  | 0x3D =>   -- L set, major 0x3D
    if w &&& 0x0000410#32 = 0x0000000#32 then some (.mdrain (fieldOf w 22 3) (fieldOf w 16 6) (fieldOf w 11 5) (fieldOf w 5 5) (fieldOf w 0 4))
    else none
  | 0x3E =>   -- L set, major 0x3E
    if w &&& 0x000FFF0#32 = 0x0000000#32 then some (.mzero (fieldOf w 22 3) (fieldOf w 16 6) (fieldOf w 0 4))
    else if w &&& 0x00007F0#32 = 0x0000010#32 then some (.mload (fieldOf w 22 3) (fieldOf w 16 6) (fieldOf w 11 5) (fieldOf w 0 4))
    else if w &&& 0x00007F0#32 = 0x0000020#32 then some (.mstore (fieldOf w 22 3) (fieldOf w 16 6) (fieldOf w 11 5) (fieldOf w 0 4))
    else none
  | 0x3F =>   -- L set, major 0x3F
    if w &&& 0x0000FF0#32 = 0x0000000#32 then some (.mquant (fieldOf w 22 3) (fieldOf w 16 6) (fieldOf w 12 4) (fieldOf w 0 4))
    else if w &&& 0x0000FF0#32 = 0x0000010#32 then some (.mhad (fieldOf w 22 3) (fieldOf w 16 6) (fieldOf w 12 4) (fieldOf w 0 4))
    else none
  | 0x40 =>   -- U set, major 0x00
    if w &&& 0x1FFFFFF#32 = 0x0000000#32 then some (.snop)
    else if w &&& 0x0001FFF#32 = 0x0000001#32 then some (.smov (fieldOf w 19 6) (fieldOf w 13 6))
    else if w &&& 0x000007F#32 = 0x0000002#32 then some (.srdsr (fieldOf w 19 6) (fieldOf w 7 12))
    else if w &&& 0x000007F#32 = 0x0000003#32 then some (.swrsr (fieldOf w 19 6) (fieldOf w 13 6) (fieldOf w 7 6))
    else if w &&& 0x007FFFF#32 = 0x0000004#32 then some (.rdtime (fieldOf w 19 6))
    else if w &&& 0x007FFFF#32 = 0x0000005#32 then some (.rdbudget (fieldOf w 19 6))
    else if w &&& 0x1FFFFFF#32 = 0x0000006#32 then some (.yield)
    else if w &&& 0x000007F#32 = 0x0000007#32 then some (.setdeadline (fieldOf w 19 6) (fieldOf w 13 6) (fieldOf w 7 6))
    else none
  | 0x41 =>   -- U set, major 0x01
    if w &&& 0x000007F#32 = 0x0000000#32 then some (.saddW (fieldOf w 19 6) (fieldOf w 13 6) (fieldOf w 7 6))
    else if w &&& 0x000007F#32 = 0x0000001#32 then some (.saddD (fieldOf w 19 6) (fieldOf w 13 6) (fieldOf w 7 6))
    else if w &&& 0x000007F#32 = 0x0000002#32 then some (.ssubW (fieldOf w 19 6) (fieldOf w 13 6) (fieldOf w 7 6))
    else if w &&& 0x000007F#32 = 0x0000003#32 then some (.ssubD (fieldOf w 19 6) (fieldOf w 13 6) (fieldOf w 7 6))
    else if w &&& 0x000007F#32 = 0x0000004#32 then some (.smulW (fieldOf w 19 6) (fieldOf w 13 6) (fieldOf w 7 6))
    else if w &&& 0x000007F#32 = 0x0000005#32 then some (.smulD (fieldOf w 19 6) (fieldOf w 13 6) (fieldOf w 7 6))
    else if w &&& 0x000007F#32 = 0x0000006#32 then some (.smulhD (fieldOf w 19 6) (fieldOf w 13 6) (fieldOf w 7 6))
    else if w &&& 0x000007F#32 = 0x0000007#32 then some (.smulhuD (fieldOf w 19 6) (fieldOf w 13 6) (fieldOf w 7 6))
    else if w &&& 0x000007F#32 = 0x0000008#32 then some (.smadW (fieldOf w 19 6) (fieldOf w 13 6) (fieldOf w 7 6))
    else if w &&& 0x000007F#32 = 0x0000009#32 then some (.smadD (fieldOf w 19 6) (fieldOf w 13 6) (fieldOf w 7 6))
    else if w &&& 0x000007F#32 = 0x000000A#32 then some (.sand (fieldOf w 19 6) (fieldOf w 13 6) (fieldOf w 7 6))
    else if w &&& 0x000007F#32 = 0x000000B#32 then some (.sor (fieldOf w 19 6) (fieldOf w 13 6) (fieldOf w 7 6))
    else if w &&& 0x000007F#32 = 0x000000C#32 then some (.sxor (fieldOf w 19 6) (fieldOf w 13 6) (fieldOf w 7 6))
    else if w &&& 0x000007F#32 = 0x000000D#32 then some (.sandn (fieldOf w 19 6) (fieldOf w 13 6) (fieldOf w 7 6))
    else if w &&& 0x000007F#32 = 0x000000E#32 then some (.sshlW (fieldOf w 19 6) (fieldOf w 13 6) (fieldOf w 7 6))
    else if w &&& 0x000007F#32 = 0x000000F#32 then some (.sshlD (fieldOf w 19 6) (fieldOf w 13 6) (fieldOf w 7 6))
    else if w &&& 0x000007F#32 = 0x0000010#32 then some (.sshrW (fieldOf w 19 6) (fieldOf w 13 6) (fieldOf w 7 6))
    else if w &&& 0x000007F#32 = 0x0000011#32 then some (.sshrD (fieldOf w 19 6) (fieldOf w 13 6) (fieldOf w 7 6))
    else if w &&& 0x000007F#32 = 0x0000012#32 then some (.ssraW (fieldOf w 19 6) (fieldOf w 13 6) (fieldOf w 7 6))
    else if w &&& 0x000007F#32 = 0x0000013#32 then some (.ssraD (fieldOf w 19 6) (fieldOf w 13 6) (fieldOf w 7 6))
    else if w &&& 0x000007F#32 = 0x0000014#32 then some (.srotW (fieldOf w 19 6) (fieldOf w 13 6) (fieldOf w 7 6))
    else if w &&& 0x000007F#32 = 0x0000015#32 then some (.srotD (fieldOf w 19 6) (fieldOf w 13 6) (fieldOf w 7 6))
    else if w &&& 0x000007F#32 = 0x0000016#32 then some (.smin (fieldOf w 19 6) (fieldOf w 13 6) (fieldOf w 7 6))
    else if w &&& 0x000007F#32 = 0x0000017#32 then some (.smax (fieldOf w 19 6) (fieldOf w 13 6) (fieldOf w 7 6))
    else if w &&& 0x000007F#32 = 0x0000018#32 then some (.sminu (fieldOf w 19 6) (fieldOf w 13 6) (fieldOf w 7 6))
    else if w &&& 0x000007F#32 = 0x0000019#32 then some (.smaxu (fieldOf w 19 6) (fieldOf w 13 6) (fieldOf w 7 6))
    else if w &&& 0x0001FFF#32 = 0x000001A#32 then some (.sabs (fieldOf w 19 6) (fieldOf w 13 6))
    else if w &&& 0x0001FFF#32 = 0x000001B#32 then some (.sclz (fieldOf w 19 6) (fieldOf w 13 6))
    else if w &&& 0x0001FFF#32 = 0x000001C#32 then some (.spopc (fieldOf w 19 6) (fieldOf w 13 6))
    else if w &&& 0x0001FFF#32 = 0x000001D#32 then some (.sbrev (fieldOf w 19 6) (fieldOf w 13 6))
    else if w &&& 0x000007F#32 = 0x000001E#32 then some (.sbfe (fieldOf w 19 6) (fieldOf w 13 6) (fieldOf w 7 6))
    else if w &&& 0x000007F#32 = 0x000001F#32 then some (.sbfeu (fieldOf w 19 6) (fieldOf w 13 6) (fieldOf w 7 6))
    else if w &&& 0x000007F#32 = 0x0000020#32 then some (.sbfi (fieldOf w 19 6) (fieldOf w 13 6) (fieldOf w 7 6))
    else if w &&& 0x000007F#32 = 0x0000021#32 then some (.sslt (fieldOf w 19 6) (fieldOf w 13 6) (fieldOf w 7 6))
    else if w &&& 0x000007F#32 = 0x0000022#32 then some (.ssltu (fieldOf w 19 6) (fieldOf w 13 6) (fieldOf w 7 6))
    else if w &&& 0x000007F#32 = 0x0000023#32 then some (.sseq (fieldOf w 19 6) (fieldOf w 13 6) (fieldOf w 7 6))
    else if w &&& 0x000007F#32 = 0x0000024#32 then some (.ssne (fieldOf w 19 6) (fieldOf w 13 6) (fieldOf w 7 6))
    else if w &&& 0x000007F#32 = 0x0000025#32 then some (.saddva (fieldOf w 19 6) (fieldOf w 13 6) (fieldOf w 7 6))
    else none
  | 0x42 => some (.saddi (fieldOf w 19 6) (fieldOf w 13 6) (fieldOf w 0 13))   -- U set, major 0x02
  | 0x43 => some (.sandi (fieldOf w 19 6) (fieldOf w 13 6) (fieldOf w 0 13))   -- U set, major 0x03
  | 0x44 => some (.sori (fieldOf w 19 6) (fieldOf w 13 6) (fieldOf w 0 13))   -- U set, major 0x04
  | 0x45 => some (.sxori (fieldOf w 19 6) (fieldOf w 13 6) (fieldOf w 0 13))   -- U set, major 0x05
  | 0x46 =>   -- U set, major 0x06
    if w &&& 0x00003C0#32 = 0x0000000#32 then some (.sshifti (fieldOf w 19 6) (fieldOf w 13 6) (fieldOf w 11 2) (fieldOf w 10 1) (fieldOf w 0 6))
    else none
  | 0x47 => some (.smovi (fieldOf w 19 6) (fieldOf w 0 19))   -- U set, major 0x07
  | 0x48 => some (.smovsh (fieldOf w 19 6) (fieldOf w 0 19))   -- U set, major 0x08
  | 0x49 => some (.sld (fieldOf w 19 6) (fieldOf w 13 6) (fieldOf w 11 2) (fieldOf w 4 7) (fieldOf w 0 4))   -- U set, major 0x09
  | 0x4A => some (.sst (fieldOf w 19 6) (fieldOf w 13 6) (fieldOf w 11 2) (fieldOf w 0 11))   -- U set, major 0x0A
  | 0x4B =>   -- U set, major 0x0B
    if w &&& 0x1FFFFF8#32 = 0x0000000#32 then some (.fenceRel (fieldOf w 0 3))
    else if w &&& 0x1FFFFF8#32 = 0x0000010#32 then some (.fenceAcq (fieldOf w 0 3))
    else if w &&& 0x1FFFFF8#32 = 0x0000020#32 then some (.fenceAcqrel (fieldOf w 0 3))
    else if w &&& 0x1FFFFF8#32 = 0x0000030#32 then some (.fenceSc (fieldOf w 0 3))
    else if w &&& 0x007FFF8#32 = 0x0000040#32 then some (.fenceWct (fieldOf w 19 6) (fieldOf w 0 3))
    else none
  | 0x4C =>   -- U set, major 0x0C
    if w &&& 0x0000070#32 = 0x0000000#32 then some (.barinit (fieldOf w 19 6) (fieldOf w 13 6) (fieldOf w 7 6) (fieldOf w 0 4))
    else if w &&& 0x0001FF0#32 = 0x0000010#32 then some (.bararrive (fieldOf w 19 6) (fieldOf w 13 6) (fieldOf w 0 4))
    else if w &&& 0x0000070#32 = 0x0000020#32 then some (.barexpect (fieldOf w 19 6) (fieldOf w 13 6) (fieldOf w 7 6) (fieldOf w 0 4))
    else if w &&& 0x0000070#32 = 0x0000030#32 then some (.barwait (fieldOf w 19 6) (fieldOf w 13 6) (fieldOf w 7 6) (fieldOf w 0 4))
    else if w &&& 0x0000070#32 = 0x0000040#32 then some (.bartry (fieldOf w 19 6) (fieldOf w 13 6) (fieldOf w 7 6) (fieldOf w 0 4))
    else if w &&& 0x0001FF0#32 = 0x0000050#32 then some (.barpoison (fieldOf w 19 6) (fieldOf w 13 6) (fieldOf w 0 4))
    else none
  | 0x4D =>   -- U set, major 0x0D
    if w &&& 0x0000070#32 = 0x0000000#32 then some (.cntrd (fieldOf w 19 6) (fieldOf w 13 6) (fieldOf w 7 6) (fieldOf w 0 4))
    else if w &&& 0x0000070#32 = 0x0000010#32 then some (.cntwait (fieldOf w 19 6) (fieldOf w 13 6) (fieldOf w 7 6) (fieldOf w 0 4))
    else if w &&& 0x0000070#32 = 0x0000020#32 then some (.cntadd (fieldOf w 19 6) (fieldOf w 13 6) (fieldOf w 7 6) (fieldOf w 0 4))
    else none
  | 0x4E =>   -- U set, major 0x0E
    if w &&& 0x0001FF0#32 = 0x0000000#32 then some (.cpy (fieldOf w 19 6) (fieldOf w 13 6) (fieldOf w 0 4))
    else if w &&& 0x0001FF0#32 = 0x0000010#32 then some (.cpystat (fieldOf w 19 6) (fieldOf w 13 6) (fieldOf w 0 4))
    else if w &&& 0x0001FF0#32 = 0x0000020#32 then some (.cpywait (fieldOf w 19 6) (fieldOf w 13 6) (fieldOf w 0 4))
    else if w &&& 0x0001FF0#32 = 0x0000030#32 then some (.cpycancelCancel (fieldOf w 19 6) (fieldOf w 13 6) (fieldOf w 0 4))
    else if w &&& 0x0001FF0#32 = 0x00000B0#32 then some (.cpycancelResume (fieldOf w 19 6) (fieldOf w 13 6) (fieldOf w 0 4))
    else if w &&& 0x0001FF0#32 = 0x0000130#32 then some (.cpycancelFail (fieldOf w 19 6) (fieldOf w 13 6) (fieldOf w 0 4))
    else if w &&& 0x0000070#32 = 0x0000040#32 then some (.rlock (fieldOf w 19 6) (fieldOf w 13 6) (fieldOf w 7 6) (fieldOf w 0 4))
    else if w &&& 0x0001FF0#32 = 0x0000050#32 then some (.runlock (fieldOf w 19 6) (fieldOf w 13 6) (fieldOf w 0 4))
    else none
  | 0x4F =>   -- U set, major 0x0F
    if w &&& 0x01FFFF0#32 = 0x0000000#32 then some (.tfetch (fieldOf w 21 4) (fieldOf w 0 4))
    else if w &&& 0x0006070#32 = 0x0000010#32 then some (.tretire (fieldOf w 19 6) (fieldOf w 15 4) (fieldOf w 7 6) (fieldOf w 0 4))
    else if w &&& 0x0006070#32 = 0x0000020#32 then some (.tgive (fieldOf w 19 6) (fieldOf w 15 4) (fieldOf w 7 6) (fieldOf w 0 4))
    else if w &&& 0x007E070#32 = 0x0000030#32 then some (.tstat (fieldOf w 19 6) (fieldOf w 7 6) (fieldOf w 0 4))
    else none
  | 0x50 =>   -- U set, major 0x10
    if w &&& 0x000107F#32 = 0x0000000#32 then some (.schr (fieldOf w 19 6) (fieldOf w 13 6) (fieldOf w 11 1) (fieldOf w 7 4))
    else if w &&& 0x000187F#32 = 0x0000001#32 then some (.schw (fieldOf w 19 6) (fieldOf w 13 6) (fieldOf w 7 4))
    else if w &&& 0x0001FFF#32 = 0x0000002#32 then some (.schcommit (fieldOf w 19 6) (fieldOf w 13 6))
    else none
  | 0x51 =>   -- U set, major 0x11
    if w &&& 0x0000070#32 = 0x0000000#32 then some (.launch (fieldOf w 19 6) (fieldOf w 13 6) (fieldOf w 7 6) (fieldOf w 0 4))
    else if w &&& 0x0000070#32 = 0x0000010#32 then some (.launchp (fieldOf w 19 6) (fieldOf w 13 6) (fieldOf w 7 6) (fieldOf w 0 4))
    else if w &&& 0x0000070#32 = 0x0000020#32 then some (.graphsub (fieldOf w 19 6) (fieldOf w 13 6) (fieldOf w 7 6) (fieldOf w 0 4))
    else if w &&& 0x0001FF0#32 = 0x0000030#32 then some (.cancelDrain (fieldOf w 19 6) (fieldOf w 13 6) (fieldOf w 0 4))
    else if w &&& 0x0001FF0#32 = 0x00000B0#32 then some (.cancelKill (fieldOf w 19 6) (fieldOf w 13 6) (fieldOf w 0 4))
    else if w &&& 0x0001FF0#32 = 0x0000040#32 then some (.waitdone (fieldOf w 19 6) (fieldOf w 13 6) (fieldOf w 0 4))
    else none
  | 0x52 =>   -- U set, major 0x12
    if w &&& 0x0000070#32 = 0x0000000#32 then some (.msgsend (fieldOf w 19 6) (fieldOf w 13 6) (fieldOf w 7 6) (fieldOf w 0 4))
    else if w &&& 0x0000070#32 = 0x0000010#32 then some (.msgrecv (fieldOf w 19 6) (fieldOf w 13 6) (fieldOf w 7 6) (fieldOf w 0 4))
    else if w &&& 0x007FFF0#32 = 0x0000020#32 then some (.msgpoll (fieldOf w 19 6) (fieldOf w 0 4))
    else none
  | 0x53 =>   -- U set, major 0x13
    if w &&& 0x0001FF0#32 = 0x0000000#32 then some (.crpop (fieldOf w 19 6) (fieldOf w 13 6) (fieldOf w 0 4))
    else if w &&& 0x00020F0#32 = 0x0000010#32 then some (.resume (fieldOf w 19 6) (fieldOf w 14 5) (fieldOf w 8 5) (fieldOf w 0 4))
    else if w &&& 0x00020F0#32 = 0x0000020#32 then some (.resumeall (fieldOf w 19 6) (fieldOf w 14 5) (fieldOf w 8 5) (fieldOf w 0 4))
    else if w &&& 0x0000070#32 = 0x0000030#32 then some (.crfwd (fieldOf w 19 6) (fieldOf w 13 6) (fieldOf w 7 6) (fieldOf w 0 4))
    else none
  | 0x54 =>   -- U set, major 0x14
    if w &&& 0x007E07F#32 = 0x0000000#32 then some (.krd (fieldOf w 19 6) (fieldOf w 7 6))
    else if w &&& 0x1F8007F#32 = 0x0000001#32 then some (.kwr (fieldOf w 13 6) (fieldOf w 7 6))
    else if w &&& 0x000007F#32 = 0x0000002#32 then some (.tlbinv (fieldOf w 19 6) (fieldOf w 13 6) (fieldOf w 7 6))
    else if w &&& 0x1FFFFFF#32 = 0x0000003#32 then some (.kret)
    else if w &&& 0x1FFFFFF#32 = 0x0000004#32 then some (.idle)
    else none
  | 0x55 =>   -- U set, major 0x15
    if w &&& 0x0001FF0#32 = 0x0000000#32 then some (.ctxevict (fieldOf w 19 6) (fieldOf w 13 6) (fieldOf w 0 4))
    else if w &&& 0x0000070#32 = 0x0000010#32 then some (.ctxpin (fieldOf w 19 6) (fieldOf w 13 6) (fieldOf w 7 6) (fieldOf w 0 4))
    else if w &&& 0x0000070#32 = 0x0000020#32 then some (.gangkill (fieldOf w 19 6) (fieldOf w 13 6) (fieldOf w 7 6) (fieldOf w 0 4))
    else if w &&& 0x0000070#32 = 0x0000030#32 then some (.wgkill (fieldOf w 19 6) (fieldOf w 13 6) (fieldOf w 7 6) (fieldOf w 0 4))
    else if w &&& 0x0001FF0#32 = 0x0000040#32 then some (.ctxstat (fieldOf w 19 6) (fieldOf w 13 6) (fieldOf w 0 4))
    else none
  | _ => none

/-- Decodes one instruction word (R92 steps 1, 4 and 5). -/
noncomputable def decodeWord (w : BitVec 32) : Except Reject Instr :=
  if 0x56 ≤ (w >>> 25).toNat then .error .reservedMajor
  else match matchRow w with
    | none => .error .noRow
    | some i => if i.wf then .ok i else .error .badField

/-- The word whose little-endian bytes are given (R4, R80). -/
def wordOfBytes (b0 b1 b2 b3 : Byte) : BitVec 32 := b3 ++ b2 ++ b1 ++ b0

/-- The four bytes of a word as the part stores it (R4, R80). -/
def bytesOfWord (w : BitVec 32) : List Byte :=
  [fieldOf w 0 8, fieldOf w 8 8, fieldOf w 16 8, fieldOf w 24 8]

/-- Decodes the instruction at the head of a list of bytes, and returns the bytes after it. -/
noncomputable def decode : List Byte → Except Reject (Instr × List Byte)
  | b0 :: b1 :: b2 :: b3 :: rest =>
    match decodeWord (wordOfBytes b0 b1 b2 b3) with
    | .ok i => .ok (i, rest)
    | .error r => .error r
  | _ => .error .tooShort

/-- The instruction that the decoder reads from the table's numbering of an instruction's bits: every instruction is
one 32-bit word (R80). -/
noncomputable def decodeTableWord (nbits w : Nat) : Option Instr :=
  if nbits ≤ 32 then
    match decode (bytesOfWord (BitVec.ofNat 32 w)) with
    | .ok (i, _) => some i
    | .error _ => none
  else none

/-- A field placed at bit `lo` of a word. -/
def placed {n : Nat} (x : BitVec n) (lo : Nat) : BitVec 32 := x.setWidth 32 <<< lo

/-- The word of an encoded row (Tables 4.1, 4.3, 4.4 and 4.5); an event has none. -/
def encode : Instr → Option (BitVec 32)
  | .nop => some (0x00000000#32)
  | .mov d b u => some (0x00000001#32 ||| placed d 19 ||| placed b 7 ||| placed u 6)
  | .rdsr d s => some (0x00000002#32 ||| placed d 19 ||| placed s 7)
  | .wrsr h a k => some (0x00000003#32 ||| placed h 19 ||| placed a 13 ||| placed k 7)
  | .movgv d => some (0x00000004#32 ||| placed d 19)
  | .movvg b u => some (0x00000005#32 ||| placed b 7 ||| placed u 6)
  | .waitne d a b u => some (0x00000006#32 ||| placed d 19 ||| placed a 13 ||| placed b 7 ||| placed u 6)
  | .lanemask d k => some (0x00000007#32 ||| placed d 19 ||| placed k 13)
  | .sel d a b u n g => some (0x02000000#32 ||| placed d 19 ||| placed a 13 ||| placed b 7 ||| placed u 6 ||| placed n 5 ||| placed g 2)
  | .addW d a b u => some (0x04000000#32 ||| placed d 19 ||| placed a 13 ||| placed b 7 ||| placed u 6)
  | .addD d a b u => some (0x04000001#32 ||| placed d 19 ||| placed a 13 ||| placed b 7 ||| placed u 6)
  | .subW d a b u => some (0x04000002#32 ||| placed d 19 ||| placed a 13 ||| placed b 7 ||| placed u 6)
  | .subD d a b u => some (0x04000003#32 ||| placed d 19 ||| placed a 13 ||| placed b 7 ||| placed u 6)
  | .mulW d a b u => some (0x04000004#32 ||| placed d 19 ||| placed a 13 ||| placed b 7 ||| placed u 6)
  | .mulD d a b u => some (0x04000005#32 ||| placed d 19 ||| placed a 13 ||| placed b 7 ||| placed u 6)
  | .mulhD d a b u => some (0x04000006#32 ||| placed d 19 ||| placed a 13 ||| placed b 7 ||| placed u 6)
  | .mulhuD d a b u => some (0x04000007#32 ||| placed d 19 ||| placed a 13 ||| placed b 7 ||| placed u 6)
  | .madW d a b u => some (0x04000008#32 ||| placed d 19 ||| placed a 13 ||| placed b 7 ||| placed u 6)
  | .madD d a b u => some (0x04000009#32 ||| placed d 19 ||| placed a 13 ||| placed b 7 ||| placed u 6)
  | .and d a b u => some (0x0400000A#32 ||| placed d 19 ||| placed a 13 ||| placed b 7 ||| placed u 6)
  | .or d a b u => some (0x0400000B#32 ||| placed d 19 ||| placed a 13 ||| placed b 7 ||| placed u 6)
  | .xor d a b u => some (0x0400000C#32 ||| placed d 19 ||| placed a 13 ||| placed b 7 ||| placed u 6)
  | .andn d a b u => some (0x0400000D#32 ||| placed d 19 ||| placed a 13 ||| placed b 7 ||| placed u 6)
  | .shlW d a b u => some (0x0400000E#32 ||| placed d 19 ||| placed a 13 ||| placed b 7 ||| placed u 6)
  | .shlD d a b u => some (0x0400000F#32 ||| placed d 19 ||| placed a 13 ||| placed b 7 ||| placed u 6)
  | .shrW d a b u => some (0x04000010#32 ||| placed d 19 ||| placed a 13 ||| placed b 7 ||| placed u 6)
  | .shrD d a b u => some (0x04000011#32 ||| placed d 19 ||| placed a 13 ||| placed b 7 ||| placed u 6)
  | .sraW d a b u => some (0x04000012#32 ||| placed d 19 ||| placed a 13 ||| placed b 7 ||| placed u 6)
  | .sraD d a b u => some (0x04000013#32 ||| placed d 19 ||| placed a 13 ||| placed b 7 ||| placed u 6)
  | .rotW d a b u => some (0x04000014#32 ||| placed d 19 ||| placed a 13 ||| placed b 7 ||| placed u 6)
  | .rotD d a b u => some (0x04000015#32 ||| placed d 19 ||| placed a 13 ||| placed b 7 ||| placed u 6)
  | .min d a b u => some (0x04000016#32 ||| placed d 19 ||| placed a 13 ||| placed b 7 ||| placed u 6)
  | .max d a b u => some (0x04000017#32 ||| placed d 19 ||| placed a 13 ||| placed b 7 ||| placed u 6)
  | .minu d a b u => some (0x04000018#32 ||| placed d 19 ||| placed a 13 ||| placed b 7 ||| placed u 6)
  | .maxu d a b u => some (0x04000019#32 ||| placed d 19 ||| placed a 13 ||| placed b 7 ||| placed u 6)
  | .abs d a => some (0x0400001A#32 ||| placed d 19 ||| placed a 13)
  | .clz d a => some (0x0400001B#32 ||| placed d 19 ||| placed a 13)
  | .popc d a => some (0x0400001C#32 ||| placed d 19 ||| placed a 13)
  | .brev d a => some (0x0400001D#32 ||| placed d 19 ||| placed a 13)
  | .bfe d a b u => some (0x0400001E#32 ||| placed d 19 ||| placed a 13 ||| placed b 7 ||| placed u 6)
  | .bfeu d a b u => some (0x0400001F#32 ||| placed d 19 ||| placed a 13 ||| placed b 7 ||| placed u 6)
  | .bfi d a b u => some (0x04000020#32 ||| placed d 19 ||| placed a 13 ||| placed b 7 ||| placed u 6)
  | .slt d a b u => some (0x04000021#32 ||| placed d 19 ||| placed a 13 ||| placed b 7 ||| placed u 6)
  | .sltu d a b u => some (0x04000022#32 ||| placed d 19 ||| placed a 13 ||| placed b 7 ||| placed u 6)
  | .seq d a b u => some (0x04000023#32 ||| placed d 19 ||| placed a 13 ||| placed b 7 ||| placed u 6)
  | .sne d a b u => some (0x04000024#32 ||| placed d 19 ||| placed a 13 ||| placed b 7 ||| placed u 6)
  | .addva d a b u => some (0x04000025#32 ||| placed d 19 ||| placed a 13 ||| placed b 7 ||| placed u 6)
  | .icmpW g a b u c => some (0x06000000#32 ||| placed g 19 ||| placed a 13 ||| placed b 7 ||| placed u 6 ||| placed c 3)
  | .icmpD g a b u c => some (0x06000004#32 ||| placed g 19 ||| placed a 13 ||| placed b 7 ||| placed u 6 ||| placed c 3)
  | .fadd d a b u => some (0x08000000#32 ||| placed d 19 ||| placed a 13 ||| placed b 7 ||| placed u 6)
  | .fsub d a b u => some (0x08000001#32 ||| placed d 19 ||| placed a 13 ||| placed b 7 ||| placed u 6)
  | .fmul d a b u => some (0x08000002#32 ||| placed d 19 ||| placed a 13 ||| placed b 7 ||| placed u 6)
  | .ffma d a b u => some (0x08000003#32 ||| placed d 19 ||| placed a 13 ||| placed b 7 ||| placed u 6)
  | .fmin d a b u => some (0x08000004#32 ||| placed d 19 ||| placed a 13 ||| placed b 7 ||| placed u 6)
  | .fmax d a b u => some (0x08000005#32 ||| placed d 19 ||| placed a 13 ||| placed b 7 ||| placed u 6)
  | .fabs d a => some (0x08000006#32 ||| placed d 19 ||| placed a 13)
  | .fneg d a => some (0x08000007#32 ||| placed d 19 ||| placed a 13)
  | .fcpysgn d a b u => some (0x08000008#32 ||| placed d 19 ||| placed a 13 ||| placed b 7 ||| placed u 6)
  | .fclass d a => some (0x08000009#32 ||| placed d 19 ||| placed a 13)
  | .faddS d a b u => some (0x0A000000#32 ||| placed d 19 ||| placed a 13 ||| placed b 7 ||| placed u 6)
  | .fsubS d a b u => some (0x0A000001#32 ||| placed d 19 ||| placed a 13 ||| placed b 7 ||| placed u 6)
  | .fmulS d a b u => some (0x0A000002#32 ||| placed d 19 ||| placed a 13 ||| placed b 7 ||| placed u 6)
  | .ffmaS d a b u => some (0x0A000003#32 ||| placed d 19 ||| placed a 13 ||| placed b 7 ||| placed u 6)
  | .fminS d a b u => some (0x0A000004#32 ||| placed d 19 ||| placed a 13 ||| placed b 7 ||| placed u 6)
  | .fmaxS d a b u => some (0x0A000005#32 ||| placed d 19 ||| placed a 13 ||| placed b 7 ||| placed u 6)
  | .fabsS d a => some (0x0A000006#32 ||| placed d 19 ||| placed a 13)
  | .fnegS d a => some (0x0A000007#32 ||| placed d 19 ||| placed a 13)
  | .fcpysgnS d a b u => some (0x0A000008#32 ||| placed d 19 ||| placed a 13 ||| placed b 7 ||| placed u 6)
  | .fclassS d a => some (0x0A000009#32 ||| placed d 19 ||| placed a 13)
  | .hadd2 d a b u => some (0x0C000000#32 ||| placed d 19 ||| placed a 13 ||| placed b 7 ||| placed u 6)
  | .hmul2 d a b u => some (0x0C000001#32 ||| placed d 19 ||| placed a 13 ||| placed b 7 ||| placed u 6)
  | .hfma2 d a b u => some (0x0C000002#32 ||| placed d 19 ||| placed a 13 ||| placed b 7 ||| placed u 6)
  | .hmax2 d a b u => some (0x0C000003#32 ||| placed d 19 ||| placed a 13 ||| placed b 7 ||| placed u 6)
  | .badd2 d a b u => some (0x0C000004#32 ||| placed d 19 ||| placed a 13 ||| placed b 7 ||| placed u 6)
  | .bmul2 d a b u => some (0x0C000005#32 ||| placed d 19 ||| placed a 13 ||| placed b 7 ||| placed u 6)
  | .bfma2 d a b u => some (0x0C000006#32 ||| placed d 19 ||| placed a 13 ||| placed b 7 ||| placed u 6)
  | .bmax2 d a b u => some (0x0C000007#32 ||| placed d 19 ||| placed a 13 ||| placed b 7 ||| placed u 6)
  | .fcmpS g a b u c => some (0x0E000000#32 ||| placed g 19 ||| placed a 13 ||| placed b 7 ||| placed u 6 ||| placed c 3)
  | .fcmpD g a b u c => some (0x0E000004#32 ||| placed g 19 ||| placed a 13 ||| placed b 7 ||| placed u 6 ||| placed c 3)
  | .cvt d a s t => some (0x10000000#32 ||| placed d 19 ||| placed a 13 ||| placed s 3 ||| placed t 0)
  | .qe4m3 d a b u s => some (0x12000000#32 ||| placed d 19 ||| placed a 13 ||| placed b 7 ||| placed u 6 ||| placed s 3)
  | .qe5m2 d a b u s => some (0x12000001#32 ||| placed d 19 ||| placed a 13 ||| placed b 7 ||| placed u 6 ||| placed s 3)
  | .qe2m1 d a b u s => some (0x12000002#32 ||| placed d 19 ||| placed a 13 ||| placed b 7 ||| placed u 6 ||| placed s 3)
  | .qi8 d a b u s => some (0x12000003#32 ||| placed d 19 ||| placed a 13 ||| placed b 7 ||| placed u 6 ||| placed s 3)
  | .de4m3 d a => some (0x12000004#32 ||| placed d 19 ||| placed a 13)
  | .de5m2 d a => some (0x12000005#32 ||| placed d 19 ||| placed a 13)
  | .de2m1 d a => some (0x12000006#32 ||| placed d 19 ||| placed a 13)
  | .addiW d a i => some (0x14000000#32 ||| placed d 19 ||| placed a 13 ||| placed i 0)
  | .addiD d a i => some (0x16000000#32 ||| placed d 19 ||| placed a 13 ||| placed i 0)
  | .andi d a i => some (0x18000000#32 ||| placed d 19 ||| placed a 13 ||| placed i 0)
  | .ori d a i => some (0x1A000000#32 ||| placed d 19 ||| placed a 13 ||| placed i 0)
  | .xori d a i => some (0x1C000000#32 ||| placed d 19 ||| placed a 13 ||| placed i 0)
  | .shifti d a k w n => some (0x1E000000#32 ||| placed d 19 ||| placed a 13 ||| placed k 11 ||| placed w 10 ||| placed n 0)
  | .movi d i => some (0x20000000#32 ||| placed d 19 ||| placed i 0)
  | .movsh d i => some (0x22000000#32 ||| placed d 19 ||| placed i 0)
  | .rcpS d a l => some (0x24000000#32 ||| placed d 19 ||| placed a 13 ||| placed l 0)
  | .rsqS d a l => some (0x24000010#32 ||| placed d 19 ||| placed a 13 ||| placed l 0)
  | .sqrtS d a l => some (0x24000020#32 ||| placed d 19 ||| placed a 13 ||| placed l 0)
  | .divS d a b u l => some (0x24000030#32 ||| placed d 19 ||| placed a 13 ||| placed b 7 ||| placed u 6 ||| placed l 0)
  | .rcpD d a l => some (0x26000000#32 ||| placed d 19 ||| placed a 13 ||| placed l 0)
  | .rsqD d a l => some (0x26000010#32 ||| placed d 19 ||| placed a 13 ||| placed l 0)
  | .sqrtD d a l => some (0x26000020#32 ||| placed d 19 ||| placed a 13 ||| placed l 0)
  | .divD d a b u l => some (0x26000030#32 ||| placed d 19 ||| placed a 13 ||| placed b 7 ||| placed u 6 ||| placed l 0)
  | .exp2 d a l => some (0x28000000#32 ||| placed d 19 ||| placed a 13 ||| placed l 0)
  | .log2 d a l => some (0x28000010#32 ||| placed d 19 ||| placed a 13 ||| placed l 0)
  | .sinpi d a l => some (0x28000020#32 ||| placed d 19 ||| placed a 13 ||| placed l 0)
  | .cospi d a l => some (0x28000030#32 ||| placed d 19 ||| placed a 13 ||| placed l 0)
  | .div d a b u l => some (0x2A000000#32 ||| placed d 19 ||| placed a 13 ||| placed b 7 ||| placed u 6 ||| placed l 0)
  | .divu d a b u l => some (0x2A000010#32 ||| placed d 19 ||| placed a 13 ||| placed b 7 ||| placed u 6 ||| placed l 0)
  | .rem d a b u l => some (0x2A000020#32 ||| placed d 19 ||| placed a 13 ||| placed b 7 ||| placed u 6 ||| placed l 0)
  | .remu d a b u l => some (0x2A000030#32 ||| placed d 19 ||| placed a 13 ||| placed b 7 ||| placed u 6 ||| placed l 0)
  | .xshfl d a b c l => some (0x2C000000#32 ||| placed d 19 ||| placed a 13 ||| placed b 7 ||| placed c 4 ||| placed l 0)
  | .xshxor d a p c l => some (0x2E000000#32 ||| placed d 19 ||| placed a 13 ||| placed p 7 ||| placed c 4 ||| placed l 0)
  | .xred d a o c l => some (0x30000000#32 ||| placed d 19 ||| placed a 13 ||| placed o 7 ||| placed c 4 ||| placed l 0)
  | .xscan d a e o c l => some (0x32000000#32 ||| placed d 19 ||| placed a 13 ||| placed e 12 ||| placed o 7 ||| placed c 4 ||| placed l 0)
  | .xvote d a k c l => some (0x34000000#32 ||| placed d 19 ||| placed a 13 ||| placed k 7 ||| placed c 4 ||| placed l 0)
  | .xmatch d a c l => some (0x36000000#32 ||| placed d 19 ||| placed a 13 ||| placed c 4 ||| placed l 0)
  | .ldb d a u i l => some (0x38000000#32 ||| placed d 19 ||| placed a 13 ||| placed u 12 ||| placed i 4 ||| placed l 0)
  | .ldbu d a u i l => some (0x3A000000#32 ||| placed d 19 ||| placed a 13 ||| placed u 12 ||| placed i 4 ||| placed l 0)
  | .ldh d a u i l => some (0x3C000000#32 ||| placed d 19 ||| placed a 13 ||| placed u 12 ||| placed i 4 ||| placed l 0)
  | .ldhu d a u i l => some (0x3E000000#32 ||| placed d 19 ||| placed a 13 ||| placed u 12 ||| placed i 4 ||| placed l 0)
  | .ldw d a u i l => some (0x40000000#32 ||| placed d 19 ||| placed a 13 ||| placed u 12 ||| placed i 4 ||| placed l 0)
  | .ldwu d a u i l => some (0x42000000#32 ||| placed d 19 ||| placed a 13 ||| placed u 12 ||| placed i 4 ||| placed l 0)
  | .ldd d a u i l => some (0x44000000#32 ||| placed d 19 ||| placed a 13 ||| placed u 12 ||| placed i 4 ||| placed l 0)
  | .ldq d a u i l => some (0x46000000#32 ||| placed d 20 ||| placed a 13 ||| placed u 12 ||| placed i 4 ||| placed l 0)
  | .prefetch h a u i => some (0x46080000#32 ||| placed h 20 ||| placed a 13 ||| placed u 12 ||| placed i 4)
  | .lda d a u w s o l => some (0x48000000#32 ||| placed d 19 ||| placed a 13 ||| placed u 12 ||| placed w 10 ||| placed s 7 ||| placed o 4 ||| placed l 0)
  | .stb n g a b u i => some (0x4A000000#32 ||| placed n 24 ||| placed g 21 ||| placed a 15 ||| placed b 9 ||| placed u 8 ||| placed i 0)
  | .sth n g a b u i => some (0x4C000000#32 ||| placed n 24 ||| placed g 21 ||| placed a 15 ||| placed b 9 ||| placed u 8 ||| placed i 0)
  | .stw n g a b u i => some (0x4E000000#32 ||| placed n 24 ||| placed g 21 ||| placed a 15 ||| placed b 9 ||| placed u 8 ||| placed i 0)
  | .std n g a b u i => some (0x50000000#32 ||| placed n 24 ||| placed g 21 ||| placed a 15 ||| placed b 9 ||| placed u 8 ||| placed i 0)
  | .stq n g a b u i => some (0x52000000#32 ||| placed n 24 ||| placed g 21 ||| placed a 16 ||| placed b 9 ||| placed u 8 ||| placed i 0)
  | .str n g a b u w s o => some (0x54000000#32 ||| placed n 24 ||| placed g 21 ||| placed a 15 ||| placed b 9 ||| placed u 8 ||| placed w 6 ||| placed s 3 ||| placed o 0)
  | .amadd g d a b w l => some (0x56000000#32 ||| placed g 23 ||| placed d 17 ||| placed a 11 ||| placed b 5 ||| placed w 4 ||| placed l 0)
  | .ammin g d a b w l => some (0x58000000#32 ||| placed g 23 ||| placed d 17 ||| placed a 11 ||| placed b 5 ||| placed w 4 ||| placed l 0)
  | .ammax g d a b w l => some (0x5A000000#32 ||| placed g 23 ||| placed d 17 ||| placed a 11 ||| placed b 5 ||| placed w 4 ||| placed l 0)
  | .amumin g d a b w l => some (0x5C000000#32 ||| placed g 23 ||| placed d 17 ||| placed a 11 ||| placed b 5 ||| placed w 4 ||| placed l 0)
  | .amumax g d a b w l => some (0x5E000000#32 ||| placed g 23 ||| placed d 17 ||| placed a 11 ||| placed b 5 ||| placed w 4 ||| placed l 0)
  | .amand g d a b w l => some (0x60000000#32 ||| placed g 23 ||| placed d 17 ||| placed a 11 ||| placed b 5 ||| placed w 4 ||| placed l 0)
  | .amor g d a b w l => some (0x62000000#32 ||| placed g 23 ||| placed d 17 ||| placed a 11 ||| placed b 5 ||| placed w 4 ||| placed l 0)
  | .amxor g d a b w l => some (0x64000000#32 ||| placed g 23 ||| placed d 17 ||| placed a 11 ||| placed b 5 ||| placed w 4 ||| placed l 0)
  | .amswap g d a b w l => some (0x66000000#32 ||| placed g 23 ||| placed d 17 ||| placed a 11 ||| placed b 5 ||| placed w 4 ||| placed l 0)
  | .amcas g d a b w l => some (0x68000000#32 ||| placed g 23 ||| placed d 17 ||| placed a 11 ||| placed b 5 ||| placed w 4 ||| placed l 0)
  | .amfadd g d a b w l => some (0x6A000000#32 ||| placed g 23 ||| placed d 17 ||| placed a 11 ||| placed b 5 ||| placed w 4 ||| placed l 0)
  | .br n g o => some (0x6C000000#32 ||| placed n 24 ||| placed g 21 ||| placed o 0)
  | .call o => some (0x6E000000#32 ||| placed o 0)
  | .jr b u => some (0x70000000#32 ||| placed b 7 ||| placed u 6)
  | .callr b u => some (0x70000001#32 ||| placed b 7 ||| placed u 6)
  | .ret => some (0x70000002#32)
  | .exit => some (0x70000003#32)
  | .bkpt n => some (0x70000004#32 ||| placed n 7)
  | .cvset n b => some (0x72000040#32 ||| placed n 19 ||| placed b 8)
  | .cvsetGrp n => some (0x72002000#32 ||| placed n 19)
  | .cvwait n => some (0x72000001#32 ||| placed n 19)
  | .cvquery d n b u => some (0x72000002#32 ||| placed d 19 ||| placed n 13 ||| placed b 7 ||| placed u 6)
  | .cvclear n => some (0x72000003#32 ||| placed n 19)
  | .spawn d a g l => some (0x74000000#32 ||| placed d 19 ||| placed a 13 ||| placed g 7 ||| placed l 0)
  | .syscall n l => some (0x76080000#32 ||| placed n 4 ||| placed l 0)
  | .mma c a p q l => some (0x78000000#32 ||| placed c 22 ||| placed a 16 ||| placed p 11 ||| placed q 5 ||| placed l 0)
  | .mdrain c a p q l => some (0x7A000000#32 ||| placed c 22 ||| placed a 16 ||| placed p 11 ||| placed q 5 ||| placed l 0)
  | .mzero c a l => some (0x7C000000#32 ||| placed c 22 ||| placed a 16 ||| placed l 0)
  | .mload c a p l => some (0x7C000010#32 ||| placed c 22 ||| placed a 16 ||| placed p 11 ||| placed l 0)
  | .mstore c a p l => some (0x7C000020#32 ||| placed c 22 ||| placed a 16 ||| placed p 11 ||| placed l 0)
  | .mquant c a p l => some (0x7E000000#32 ||| placed c 22 ||| placed a 16 ||| placed p 12 ||| placed l 0)
  | .mhad c a p l => some (0x7E000010#32 ||| placed c 22 ||| placed a 16 ||| placed p 12 ||| placed l 0)
  | .snop => some (0x80000000#32)
  | .smov d a => some (0x80000001#32 ||| placed d 19 ||| placed a 13)
  | .srdsr d s => some (0x80000002#32 ||| placed d 19 ||| placed s 7)
  | .swrsr h a k => some (0x80000003#32 ||| placed h 19 ||| placed a 13 ||| placed k 7)
  | .rdtime d => some (0x80000004#32 ||| placed d 19)
  | .rdbudget d => some (0x80000005#32 ||| placed d 19)
  | .yield => some (0x80000006#32)
  | .setdeadline d a b => some (0x80000007#32 ||| placed d 19 ||| placed a 13 ||| placed b 7)
  | .saddW d a b => some (0x82000000#32 ||| placed d 19 ||| placed a 13 ||| placed b 7)
  | .saddD d a b => some (0x82000001#32 ||| placed d 19 ||| placed a 13 ||| placed b 7)
  | .ssubW d a b => some (0x82000002#32 ||| placed d 19 ||| placed a 13 ||| placed b 7)
  | .ssubD d a b => some (0x82000003#32 ||| placed d 19 ||| placed a 13 ||| placed b 7)
  | .smulW d a b => some (0x82000004#32 ||| placed d 19 ||| placed a 13 ||| placed b 7)
  | .smulD d a b => some (0x82000005#32 ||| placed d 19 ||| placed a 13 ||| placed b 7)
  | .smulhD d a b => some (0x82000006#32 ||| placed d 19 ||| placed a 13 ||| placed b 7)
  | .smulhuD d a b => some (0x82000007#32 ||| placed d 19 ||| placed a 13 ||| placed b 7)
  | .smadW d a b => some (0x82000008#32 ||| placed d 19 ||| placed a 13 ||| placed b 7)
  | .smadD d a b => some (0x82000009#32 ||| placed d 19 ||| placed a 13 ||| placed b 7)
  | .sand d a b => some (0x8200000A#32 ||| placed d 19 ||| placed a 13 ||| placed b 7)
  | .sor d a b => some (0x8200000B#32 ||| placed d 19 ||| placed a 13 ||| placed b 7)
  | .sxor d a b => some (0x8200000C#32 ||| placed d 19 ||| placed a 13 ||| placed b 7)
  | .sandn d a b => some (0x8200000D#32 ||| placed d 19 ||| placed a 13 ||| placed b 7)
  | .sshlW d a b => some (0x8200000E#32 ||| placed d 19 ||| placed a 13 ||| placed b 7)
  | .sshlD d a b => some (0x8200000F#32 ||| placed d 19 ||| placed a 13 ||| placed b 7)
  | .sshrW d a b => some (0x82000010#32 ||| placed d 19 ||| placed a 13 ||| placed b 7)
  | .sshrD d a b => some (0x82000011#32 ||| placed d 19 ||| placed a 13 ||| placed b 7)
  | .ssraW d a b => some (0x82000012#32 ||| placed d 19 ||| placed a 13 ||| placed b 7)
  | .ssraD d a b => some (0x82000013#32 ||| placed d 19 ||| placed a 13 ||| placed b 7)
  | .srotW d a b => some (0x82000014#32 ||| placed d 19 ||| placed a 13 ||| placed b 7)
  | .srotD d a b => some (0x82000015#32 ||| placed d 19 ||| placed a 13 ||| placed b 7)
  | .smin d a b => some (0x82000016#32 ||| placed d 19 ||| placed a 13 ||| placed b 7)
  | .smax d a b => some (0x82000017#32 ||| placed d 19 ||| placed a 13 ||| placed b 7)
  | .sminu d a b => some (0x82000018#32 ||| placed d 19 ||| placed a 13 ||| placed b 7)
  | .smaxu d a b => some (0x82000019#32 ||| placed d 19 ||| placed a 13 ||| placed b 7)
  | .sabs d a => some (0x8200001A#32 ||| placed d 19 ||| placed a 13)
  | .sclz d a => some (0x8200001B#32 ||| placed d 19 ||| placed a 13)
  | .spopc d a => some (0x8200001C#32 ||| placed d 19 ||| placed a 13)
  | .sbrev d a => some (0x8200001D#32 ||| placed d 19 ||| placed a 13)
  | .sbfe d a b => some (0x8200001E#32 ||| placed d 19 ||| placed a 13 ||| placed b 7)
  | .sbfeu d a b => some (0x8200001F#32 ||| placed d 19 ||| placed a 13 ||| placed b 7)
  | .sbfi d a b => some (0x82000020#32 ||| placed d 19 ||| placed a 13 ||| placed b 7)
  | .sslt d a b => some (0x82000021#32 ||| placed d 19 ||| placed a 13 ||| placed b 7)
  | .ssltu d a b => some (0x82000022#32 ||| placed d 19 ||| placed a 13 ||| placed b 7)
  | .sseq d a b => some (0x82000023#32 ||| placed d 19 ||| placed a 13 ||| placed b 7)
  | .ssne d a b => some (0x82000024#32 ||| placed d 19 ||| placed a 13 ||| placed b 7)
  | .saddva d a b => some (0x82000025#32 ||| placed d 19 ||| placed a 13 ||| placed b 7)
  | .saddi d a i => some (0x84000000#32 ||| placed d 19 ||| placed a 13 ||| placed i 0)
  | .sandi d a i => some (0x86000000#32 ||| placed d 19 ||| placed a 13 ||| placed i 0)
  | .sori d a i => some (0x88000000#32 ||| placed d 19 ||| placed a 13 ||| placed i 0)
  | .sxori d a i => some (0x8A000000#32 ||| placed d 19 ||| placed a 13 ||| placed i 0)
  | .sshifti d a k w n => some (0x8C000000#32 ||| placed d 19 ||| placed a 13 ||| placed k 11 ||| placed w 10 ||| placed n 0)
  | .smovi d i => some (0x8E000000#32 ||| placed d 19 ||| placed i 0)
  | .smovsh d i => some (0x90000000#32 ||| placed d 19 ||| placed i 0)
  | .sld d a w i l => some (0x92000000#32 ||| placed d 19 ||| placed a 13 ||| placed w 11 ||| placed i 4 ||| placed l 0)
  | .sst a b w i => some (0x94000000#32 ||| placed a 19 ||| placed b 13 ||| placed w 11 ||| placed i 0)
  | .fenceRel s => some (0x96000000#32 ||| placed s 0)
  | .fenceAcq s => some (0x96000010#32 ||| placed s 0)
  | .fenceAcqrel s => some (0x96000020#32 ||| placed s 0)
  | .fenceSc s => some (0x96000030#32 ||| placed s 0)
  | .fenceWct d s => some (0x96000040#32 ||| placed d 19 ||| placed s 0)
  | .barinit d a b l => some (0x98000000#32 ||| placed d 19 ||| placed a 13 ||| placed b 7 ||| placed l 0)
  | .bararrive d a l => some (0x98000010#32 ||| placed d 19 ||| placed a 13 ||| placed l 0)
  | .barexpect d a b l => some (0x98000020#32 ||| placed d 19 ||| placed a 13 ||| placed b 7 ||| placed l 0)
  | .barwait d a b l => some (0x98000030#32 ||| placed d 19 ||| placed a 13 ||| placed b 7 ||| placed l 0)
  | .bartry d a b l => some (0x98000040#32 ||| placed d 19 ||| placed a 13 ||| placed b 7 ||| placed l 0)
  | .barpoison d a l => some (0x98000050#32 ||| placed d 19 ||| placed a 13 ||| placed l 0)
  | .cntrd d a k l => some (0x9A000000#32 ||| placed d 19 ||| placed a 13 ||| placed k 7 ||| placed l 0)
  | .cntwait d a b l => some (0x9A000010#32 ||| placed d 19 ||| placed a 13 ||| placed b 7 ||| placed l 0)
  | .cntadd d a b l => some (0x9A000020#32 ||| placed d 19 ||| placed a 13 ||| placed b 7 ||| placed l 0)
  | .cpy d a l => some (0x9C000000#32 ||| placed d 19 ||| placed a 13 ||| placed l 0)
  | .cpystat d a l => some (0x9C000010#32 ||| placed d 19 ||| placed a 13 ||| placed l 0)
  | .cpywait d a l => some (0x9C000020#32 ||| placed d 19 ||| placed a 13 ||| placed l 0)
  | .cpycancelCancel d a l => some (0x9C000030#32 ||| placed d 19 ||| placed a 13 ||| placed l 0)
  | .cpycancelResume d a l => some (0x9C0000B0#32 ||| placed d 19 ||| placed a 13 ||| placed l 0)
  | .cpycancelFail d a l => some (0x9C000130#32 ||| placed d 19 ||| placed a 13 ||| placed l 0)
  | .rlock d a b l => some (0x9C000040#32 ||| placed d 19 ||| placed a 13 ||| placed b 7 ||| placed l 0)
  | .runlock d a l => some (0x9C000050#32 ||| placed d 19 ||| placed a 13 ||| placed l 0)
  | .tfetch d l => some (0x9E000000#32 ||| placed d 21 ||| placed l 0)
  | .tretire d a b l => some (0x9E000010#32 ||| placed d 19 ||| placed a 15 ||| placed b 7 ||| placed l 0)
  | .tgive d a b l => some (0x9E000020#32 ||| placed d 19 ||| placed a 15 ||| placed b 7 ||| placed l 0)
  | .tstat d k l => some (0x9E000030#32 ||| placed d 19 ||| placed k 7 ||| placed l 0)
  | .schr d a p n => some (0xA0000000#32 ||| placed d 19 ||| placed a 13 ||| placed p 11 ||| placed n 7)
  | .schw h a n => some (0xA0000001#32 ||| placed h 19 ||| placed a 13 ||| placed n 7)
  | .schcommit d a => some (0xA0000002#32 ||| placed d 19 ||| placed a 13)
  | .launch d a b l => some (0xA2000000#32 ||| placed d 19 ||| placed a 13 ||| placed b 7 ||| placed l 0)
  | .launchp d a b l => some (0xA2000010#32 ||| placed d 19 ||| placed a 13 ||| placed b 7 ||| placed l 0)
  | .graphsub d a b l => some (0xA2000020#32 ||| placed d 19 ||| placed a 13 ||| placed b 7 ||| placed l 0)
  | .cancelDrain d a l => some (0xA2000030#32 ||| placed d 19 ||| placed a 13 ||| placed l 0)
  | .cancelKill d a l => some (0xA20000B0#32 ||| placed d 19 ||| placed a 13 ||| placed l 0)
  | .waitdone d a l => some (0xA2000040#32 ||| placed d 19 ||| placed a 13 ||| placed l 0)
  | .msgsend d a b l => some (0xA4000000#32 ||| placed d 19 ||| placed a 13 ||| placed b 7 ||| placed l 0)
  | .msgrecv d a b l => some (0xA4000010#32 ||| placed d 19 ||| placed a 13 ||| placed b 7 ||| placed l 0)
  | .msgpoll d l => some (0xA4000020#32 ||| placed d 19 ||| placed l 0)
  | .crpop d a l => some (0xA6000000#32 ||| placed d 19 ||| placed a 13 ||| placed l 0)
  | .resume d a b l => some (0xA6000010#32 ||| placed d 19 ||| placed a 14 ||| placed b 8 ||| placed l 0)
  | .resumeall d a b l => some (0xA6000020#32 ||| placed d 19 ||| placed a 14 ||| placed b 8 ||| placed l 0)
  | .crfwd d a b l => some (0xA6000030#32 ||| placed d 19 ||| placed a 13 ||| placed b 7 ||| placed l 0)
  | .krd d k => some (0xA8000000#32 ||| placed d 19 ||| placed k 7)
  | .kwr a k => some (0xA8000001#32 ||| placed a 13 ||| placed k 7)
  | .tlbinv d a b => some (0xA8000002#32 ||| placed d 19 ||| placed a 13 ||| placed b 7)
  | .kret => some (0xA8000003#32)
  | .idle => some (0xA8000004#32)
  | .ctxevict d a l => some (0xAA000000#32 ||| placed d 19 ||| placed a 13 ||| placed l 0)
  | .ctxpin d a b l => some (0xAA000010#32 ||| placed d 19 ||| placed a 13 ||| placed b 7 ||| placed l 0)
  | .gangkill d a b l => some (0xAA000020#32 ||| placed d 19 ||| placed a 13 ||| placed b 7 ||| placed l 0)
  | .wgkill d a b l => some (0xAA000030#32 ||| placed d 19 ||| placed a 13 ||| placed b 7 ||| placed l 0)
  | .ctxstat d a l => some (0xAA000040#32 ||| placed d 19 ||| placed a 13 ||| placed l 0)
  | _ => none

/-- What happens without being issued: the rows of the opcode table that have no encoding. -/
def isEvent (i : Instr) : Bool :=
  match i with
  | .matrixGatheringComplete .. | .matrixStep .. | .releaseWaitEnd .. | .copyBoxStart .. | .copyBoxLanded .. | .copyBoxFault ..
  | .dispenserRefill .. | .fetchTurn .. | .gangAged .. | .readyPoolAged .. | .registerLineFill .. | .destinationDelivery .. | .pageWalk ..
  | .homeFill .. | .homeStore .. | .homeAtomic .. | .storeAck .. | .strongStoreVisible .. | .leaseExpiry .. | .ownershipRecall ..
  | .waitneReread .. | .rangeLockRelease .. | .preemptionRequest .. | .eviction .. | .evictionComplete .. | .redispatch ..
  | .readyPoolDispatch .. | .workgroupEnd .. | .launchComplete .. | .nodeEnd .. | .faultRingSlotFree .. | .callRingSlotFree ..
  | .registerCacheEccUe .. | .scratchpadEccUe .. | .accumulatorEccUe .. | .l1ParityError .. | .l2EccUe .. | .tcbEccUe ..
  | .tlbParityError .. | .doorbell .. | .queuePoll .. | .pktNop .. | .pktSlice .. | .pktLaunch .. | .pktLaunchp .. | .pktGraph ..
  | .pktIb .. | .pktPred .. | .pktLoop .. | .pktFfence .. | .pktSignal .. | .pktWait .. | .waitObservation .. | .pktCopy .. | .pktWrite ..
  | .pktTimestamp .. | .pktCancel .. | .pktHostirq .. | .sliceEnd .. | .sliceCompletion .. | .completionRingRoom .. | .deadlinemiss ..
  | .budget .. | .capMeasurement .. | .powerEstimate .. | .tenantReset .. | .teardownComplete .. | .shootdownRequest ..
  | .invalidationComplete .. | .cxlMemRead .. | .cxlMemWrite .. | .cxlMemWriteComplete .. | .hostSnoop .. | .dmaWrite .. | .devirq ..
  | .ethFrameReceive .. | .ethTransmit .. | .flitReceive .. | .fabricPortFailure .. | .podFormation .. | .launchAnnounce ..
  | .announceAck .. | .go .. | .withdraw .. | .announceTimeout .. | .treeCancel .. | .chipReport .. | .chipLost .. | .exitWordForward ..
  | .trapEntry .. | .ktimecmpMatch .. | .shardStart .. | .measure .. | .attest .. | .update .. | .unknownMessage ..
  | .messageChannelRoom .. | .updateStandbyReady .. | .updateReadyTimeout .. | .quiescentBoundary .. | .quiescenceTimeout ..
  | .stateTableImport .. | .complexMachineCheck .. | .standbyMachineCheck .. | .powerOn .. | .railOutOfBand .. | .pcieFundamentalReset ..
  | .mcreset .. | .boot .. | .thermalSample .. | .baseRegisterWrite .. | .registerWrite .. | .dmaRead .. | .serviceCoreL1EccUe ..
  | .tenantFaultRingEntryFree .. => true
  | _ => false

end Sys2Proof
end

