-- ==== Sys2Proof/Machine/State.lean ====
section
/-! DEFINITION. The state of one HL8 package as plain data, the reasons a step can stop, and the state after reset.
INVENTORY.md, '## State', names the rule of each field. Tables are sparse (`Tab`): an absent key has the default that
the accessor of Machine/Ops.lean gives it. -/

namespace Sys2Proof.Machine

/-- Where an access lands: a byte of a workgroup's scratchpad or accumulator share, a key of `mem` and a memory type, or a byte of a
management register, at its hub offset (R388). -/
inductive Loc where
  | scratch (wg off : Nat)
  | acc (wg off : Nat)
  | mem (key pbmt : Nat)
  | reg (offset : Nat)
  deriving DecidableEq, Repr, Inhabited

/-- What a thread that does not issue waits for (R21, R27, R332, Table 15.3). -/
inductive Status where
  /-- The thread may issue. -/
  | ready
  /-- The instruction at pc waits and is issued again from its start; `issue` names the issue that began the wait. -/
  | retry (issue : Nat)
  /-- Arrived at convergence register `cv` (R71). -/
  | gather (cv : Nat)
  /-- Waits in `barwait` (R315) on the object at scratch offset `off`; `dest` is the destination of the issue plus 64
  times its lookahead count. -/
  | barWait (off dest issue : Nat)
  /-- Waits in the third case of `bararrive` (R313); `arrived` once this thread was counted, in phase `parity`. -/
  | barArrive (off dest issue : Nat) (arrived : Bool) (parity : Nat)
  /-- Waits in `waitne` for the word at `addr` to differ from `cmp` (R135). -/
  | waitne (addr cmp : Word) (dest issue : Nat)
  /-- Waits under R183: at scope `scope`; `kind` 0 release store, 1 fence, 2 `fence.wct`; the store's bytes and the place that its
  checks found, which come before the wait (R203). -/
  | release (issue scope kind dest : Nat) (addr : Word) (data : List Byte) (loc : Loc)
  /-- Waits for line `line` of its context image (R76). -/
  | lineFill (line : Nat)
  /-- Waits in `waitdone` for the slice with a handle to end (R281); `dest` as in `barWait`. -/
  | sliceWait (handle : Word) (dest issue : Nat)
  /-- Suspended in the gang's outstanding call (R283). -/
  | call
  /-- Suspended by a fault (R332). -/
  | fault
  deriving DecidableEq, Repr, Inhabited

/-- What a lookahead window protects (R85, R86, R88): registers of the thread, uniform registers, or accumulator tiles. -/
inductive Dest where
  | lanes (regs : List Nat) (guard : Option Nat)
  | uniforms (regs : List Nat)
  | tiles (first last : Nat)
  deriving DecidableEq, Repr, Inhabited

/-- One open lookahead window of a thread: instructions of it still to come, and what it protects (R85). -/
structure Window where
  lane : Nat
  left : Nat
  dest : Dest
  deriving DecidableEq, Repr, Inhabited

/-- A destination in flight (R85, R87): lane 32 stands for a uniform destination. `vals` is empty until the value is there; `issued` is when it issued; `lanes` are the threads whose access or operation it is. -/
structure Flight where
  id : Nat
  issued : Nat
  lane : Nat
  lanes : LaneMask
  regs : List Nat
  vals : Option (List Word)
  flags : BitVec 5
  acquire : Bool
  poisoned : Bool
  pc : Word
  addr : Word
  deriving DecidableEq, Repr, Inhabited

/-- A 48-word loop-buffer window of a thread (R21). -/
structure LoopBuf where
  base : Word
  words : List (BitVec 32)
  deriving DecidableEq, Repr, Inhabited

/-- The registers and issue state of one gang, or of a service or command-complex core as a gang of one lane
(R57 to R71, R352). Lane l's v register n is at key 64 l + n; guards are one byte a lane. `lines` holds each present
register-cache line with its last use (R76); `descs` the descriptor that each waiting `cpy` has read, by its issue (R210); `bars` the fences whose condition later stores of a lane await:
the lane, the scope and the fence's name (R185); `came` what a
transfer to a target not yet fetched leaves as it was if that fetch fails: its target, its pc, v62 where it wrote it, and the windows (R132); `watched`
names the stores not yet acknowledged whose value lanes have read (R176, R178; log 105); `lost` says
that a pre-emption took its slot, which it is given again once nothing is in flight (R87); `served` names its last issue, and `able` says that
some of its threads that wait to issue again, or while another gang yields those that are ready, would go on if they were issued now (R22,
R27, R128; log 110). -/
structure Gang where
  count : Nat
  live : LaneMask
  v : Tab Word
  s : Tab Word
  g : Tab (BitVec 8)
  pc : Tab Word
  fcr : Tab (BitVec 32)
  gstat : Word
  status : Tab Status
  callSlot : Option Nat
  callLanes : LaneMask
  callDone : LaneMask
  faultLanes : LaneMask
  lines : Tab Nat
  dirty : List Nat
  flights : List Flight
  windows : List Window
  bufs : Tab LoopBuf
  descs : Tab (List Byte)
  bars : List (Nat × Nat × Nat)
  came : Tab (Word × Word × Option Word × List Window)
  horizon : Tab Nat
  wct : Tab Nat
  seen : Tab Nat
  watched : List (Nat × LaneMask)
  slot : Bool
  lost : Bool
  since : Nat
  aged : Bool
  yielded : Bool
  served : Nat
  able : Bool
  lastTurn : Option Word
  lastIssue : Option Word
  ended : Bool
  callCluster : Nat
  callPopped : Bool
  faultCluster : Nat
  deriving DecidableEq, Repr, Inhabited

/-- Convergence register (R70 Table 3.7). Masks are by gang; `record` holds what the arrivals brought: for each
arrived (gang, lane) at key 32 gang + lane its A and B values; `shape` what a matrix gathering recorded (R217). -/
structure Conv where
  members : Tab LaneMask
  arrived : Tab LaneMask
  state : Nat
  kind : Nat
  sig : Word
  phase : Bool
  record : Tab (List Word)
  shape : List Word
  deriving DecidableEq, Repr, Inhabited

/-- Barrier registry entry (R308): participants and arrived threads by `TID`; `collective` marks R381. -/
structure BarReg where
  participants : BitVec 1024
  arrived : BitVec 1024
  marked : Bool
  deriving DecidableEq, Repr, Inhabited

/-- Deal-list entry (R298): origin, extent and mask of a dealt unit. -/
structure Deal where
  origin : Word
  extent : Word
  mask : Word
  deriving DecidableEq, Repr, Inhabited

/-- Who holds a range lock (R304 `OWN`). -/
inductive LockOwner where
  | copy (id : Nat)
  | matrix (op : Nat)
  | gang (wg index : Nat)
  deriving DecidableEq, Repr, Inhabited

/-- Range-lock entry (R304 Table 13.8). `closing` says that only `RELT` keeps it. -/
structure Lock where
  base : Nat
  last : Nat
  pasid : Nat
  exclusive : Bool
  owner : LockOwner
  relt : Nat
  closing : Bool
  deriving DecidableEq, Repr, Inhabited

/-- A workgroup from dispatch to its end (R18, R155, R270, R287, R298, R308, R327, R344). -/
structure Workgroup where
  launch : Nat
  wgid : Nat
  serial : Nat
  home : Nat
  homeSlot : Nat
  place : Option (Nat × Nat)
  pinned : Bool
  evicting : Bool
  relaunches : Nat
  gangs : Tab Gang
  cvs : Tab Conv
  scratch : Tab Byte
  acc : Tab Byte
  registry : Tab BarReg
  deals : List Deal
  dealt : Nat
  perf : Tab Nat
  collective : Bool
  savedLocks : List Lock
  since : Nat
  aged : Bool
  arrivedAt : Nat
  deriving DecidableEq, Repr, Inhabited

/-- L1 line (R159, R175 to R177, R205); `merged` is the largest WCT of the acknowledged stores of the core merged into the copy, and
`used` orders the lines of a set by last use. An owned line holds only what is in coherence order. -/
structure Line where
  lease : Nat
  stamp : Nat
  merged : Nat
  data : List Byte
  owned : Bool
  used : Nat
  deriving DecidableEq, Repr, Inhabited

/-- What a home keeps for a line (R176, R205): latest lease, stamp, owning L1 and time of the grant. -/
structure Home where
  lease : Nat
  stamp : Nat
  owner : Option Nat
  granted : Nat
  deriving DecidableEq, Repr, Inhabited

/-- Where a request to a home stands (R176, R419). -/
inductive ReqState where
  | sent
  | pending (wct : Nat)
  | held
  | applied (wct : Nat)
  deriving DecidableEq, Repr, Inhabited

/-- Who is told when a write has been applied: a thread by its acknowledgement; the part by nothing; a device requester (R195), a
host write (R194), a box of a copy (R187), a queue (R183, R245), a node or a launch (R191) by its WCT. -/
inductive Source where
  | thread
  | part
  | dma (requester : Nat)
  | host (write : Nat)
  | box (copy index : Nat)
  | queue (key : Nat)
  | node (index : Nat)
  | launch (index : Nat)
  deriving DecidableEq, Repr, Inhabited

/-- What a request asks of its home. -/
inductive ReqKind where
  | load
  | prefetch
  | store
  | own
  | atomic
  deriving DecidableEq, Repr, Inhabited

/-- A request in flight between a core and a home (R175 to R177, R183 to R186, R205, R419). `op` is the atomic's
function; `signed` how a narrow value is widened (R199, R204). `merged` says that the store was merged into its core's L1 when it
issued (R177), `arrived` orders the requests held at a home (R419), and `after` names the lower half that must come first (R198). A write of another agent than a
thread has lanes 0. -/
structure Req where
  id : Nat
  agent : Agent
  lane : Nat
  lanes : LaneMask
  l1 : Nat
  kind : ReqKind
  key : Nat
  size : Nat
  cached : Bool
  data : List Byte
  op : Nat
  operand : Word
  compare : Word
  signed : Bool
  scope : Option Nat
  flight : Option Nat
  state : ReqState
  io : Bool
  merged : Bool
  source : Source
  arrived : Nat
  after : Option Nat
  deriving DecidableEq, Repr, Inhabited

/-- Translation-buffer entry (R165, R168, R353): `tag` the PASID, none for a shard entry. -/
structure Tlb where
  tag : Option Nat
  base : Nat
  size : Nat
  pa : Nat
  user : Bool
  r : Bool
  w : Bool
  x : Bool
  dirty : Bool
  pbmt : Nat
  deriving DecidableEq, Repr, Inhabited

/-- A translation walk in flight for lanes of an agent (R165, R166, R171): `kind` 0 load, 1 store, 2 atomic, 3 fetch;
`addrs` holds the address of each lane in the page of `addr`. -/
structure Walk where
  id : Nat
  agent : Agent
  lanes : LaneMask
  cluster : Nat
  addr : Word
  addrs : Tab Word
  kind : Nat
  cancelled : Bool
  deriving DecidableEq, Repr, Inhabited

/-- One compute core's own state (R19, R209, R270, R304). -/
structure Core where
  locks : Tab Lock
  slots : Tab Nat
  serials : Tab Nat
  copySeq : Nat
  copySlots : Tab Nat
  deriving DecidableEq, Repr, Inhabited

/-- A copy (R207 to R214). `state` as Table 9.9; `wg` none for a copy packet or node. `boxBusy` holds each box begun: 0, or 1
more than its largest WCT once its bytes have been written (R187); `away` says that its source lay on another chip (R346); `wrote` is the largest WCT of all that it wrote. -/
structure Copy where
  wg : Option Nat
  handle : Word
  core : Nat
  desc : List Byte
  state : Nat
  code : Nat
  counted : Nat
  fbox : Nat
  boxDone : List Nat
  boxBusy : Tab Nat
  waitFor : List Nat
  wrote : Nat
  cancelling : Bool
  endRead : Bool
  order : Nat
  pasid : Nat
  slice : Word
  node : Option Nat
  pc : Word
  away : Bool
  deriving DecidableEq, Repr, Inhabited

/-- A matrix operation, queued or running (R219, R235 to R238, Table 10.8). `signers` by gang; `state` as Table 10.8; `broken` says that
a running one was interrupted, by a save, a stopped slice or an assist, and is to be gone on with first; of an assist, `waiting` the signing lanes not yet resumed and `stopped` those of them that it has suspended (R237, R335). -/
structure MatrixOp where
  wg : Nat
  order : Nat
  major : Nat
  sub : Nat
  fmt : Word
  desc : List Word
  cv : Nat
  phase : Bool
  step : Nat
  state : Nat
  broken : Bool
  signers : Tab LaneMask
  waiting : Tab LaneMask
  stopped : Tab LaneMask
  deriving DecidableEq, Repr, Inhabited

/-- A launch's entry (R292, R293, R320, R72, R375 to R380). `waiting`: each workgroup not yet dispatched, with how often it
has been relaunched. On a pod launch `firstWg` is the `WGID` of this chip's first workgroup and `total` is W (R293); `announced` is when
the root sent the announce, and after Go when it sent that. `walk` is the root dispenser's place, `stock` the unit indices that each lower dispenser holds, a die's at 1 more
than its number, a core's at 9 more and another chip's at 1,024 more, and `turn` the child that a dispenser has last handed a chunk to (R273);
`rootLaunch` is the root's handle, `dealtTo` the chip that each granule dealt to another chip went to (R375, R379), and `wrote` the largest
WCT of what its ended work has stored (R191); `freeAt` is since when its
workgroups have waited only for space that they could use, and `aged` that of one with no node here (R22). -/
structure Launch where
  record : List Byte
  serial : Nat
  slice : Word
  tenant : Nat
  pasid : Nat
  dladj : Nat
  started : Bool
  gdone : Nat
  wglive : Nat
  spawned : Nat
  done : Bool
  statusWord : Word
  completed : Nat
  sch : Tab Word
  proof : Tab Word
  walk : Nat
  stock : Tab (List Nat)
  turn : Tab Nat
  placement : List Nat
  firstWg : Nat
  total : Nat
  waiting : Tab Nat
  cancel : Option Nat
  node : Option Nat
  pod : Bool
  root : Nat
  rootLaunch : Nat
  range : List Nat
  announced : Nat
  acked : List Nat
  gone : Bool
  reported : List Nat
  lost : List Nat
  report : Tab Nat
  firstFault : Option (Nat × Nat × Word)
  terminated : Nat
  failCode : Nat
  order : Nat
  peerAbort : Bool
  foreign : Tab Nat
  dealtTo : Tab Nat
  wrote : Nat
  aged : Bool
  freeAt : Nat
  deriving DecidableEq, Repr, Inhabited

/-- A task control block (R300 to R303, R423). `state`: 0 EMPTY, 1 WAITING, 2 READY, 3 RUNNING, 4 ENDED. `packet` marks the node
of a work packet: a copy packet's descriptor follows its image, and byte 1 of a launchp packet's image is 1; `wrote` is the
largest WCT of its signal's store (R191), `order` its place among the nodes that have entered the store by a packet or a `launchp` (R376), and `freeAt` is since when it has
waited only for what it could use (R22). -/
structure Tcb where
  state : Nat
  image : List Byte
  pred : Nat
  graph : Option Nat
  spawner : Option Nat
  base : Nat
  slice : Word
  tenant : Nat
  pasid : Nat
  bad : Bool
  kind : Nat
  code : Nat
  work : Option Nat
  wrote : Nat
  since : Nat
  aged : Bool
  freeAt : Nat
  packet : Bool
  order : Nat
  deriving DecidableEq, Repr, Inhabited

/-- A graph-table entry (R321). -/
structure Graph where
  n : Nat
  nended : Nat
  ndone : Nat
  base : Nat
  serial : Nat
  slice : Word
  tenant : Nat
  done : Bool
  kind : Nat
  code : Nat
  completed : Nat
  packet : Bool
  deriving DecidableEq, Repr, Inhabited

/-- An admitted, incomplete slice (R253 to R261, R322). -/
structure Slice where
  handle : Word
  tenant : Nat
  queue : Nat
  deadline : Nat
  budget : Int
  charged : Nat
  outst : Nat
  be : Bool
  ordered : Bool
  tag : BitVec 32
  word4 : BitVec 32
  budgetAt : Nat
  packetsDone : Bool
  cancel : Option Nat
  endKind : Nat
  endCode : Nat
  fail : Option (Nat × Nat)
  stopped : Bool
  missed : Bool
  deriving DecidableEq, Repr, Inhabited

/-- A packet stream: ring or ib buffer, the next word, the words fetched ahead of it, its loops (start, N, passes
left, packets left) (R246 to R249). -/
structure Stream where
  base : Nat
  len : Nat
  pos : Nat
  ahead : List (BitVec 32)
  loops : List (Nat × Nat × Nat × Nat)
  deriving DecidableEq, Repr, Inhabited

/-- A wait packet that is not satisfied (R250). -/
structure WaitPkt where
  slice : Word
  signals : List Nat
  barrier : Bool
  deriving DecidableEq, Repr, Inhabited

/-- A work packet that is held behind waits of its slice (R250): the slice, the header and body, and the place in the ring that the read
pointer does not pass before it. -/
structure HeldPacket where
  slice : Word
  header : Nat
  body : List Nat
  place : Nat
  deriving DecidableEq, Repr, Inhabited

/-- What the active complex keeps of a queue (R241 to R255, Table 13.9). `state` as Table 11.1; `skipping` passes over packets
up to the next slice packet; `entries` are completion entries for which the ring has no room yet; `owed` is the
completion write index to be published once its entry is visible, `readPtr` the read pointer as published, `rel` the largest WCT of the
queue's stores (R183, R245), and `deferred` its held packets in order. -/
structure Queue where
  state : Nat
  seenWrite : Nat
  streams : List Stream
  waits : List WaitPkt
  current : Word
  previous : Word
  serial : Nat
  skipping : Bool
  entries : List (List Byte)
  owed : Option Nat
  readPtr : Nat
  rel : Nat
  deferred : List HeldPacket
  deriving DecidableEq, Repr, Inhabited

/-- A tenant as the hub holds it (R263, R289, R347). `killed` is the address of the `WIREDFAULT` that kills it; `moved` counts the bytes
of its bandwidth measure since the last measurement, which was at `measuredAt`. -/
structure Tenant where
  capped : Bool
  teardown : Bool
  killed : Option Word
  valid : Bool
  pasid : Nat
  queueTable : Nat
  ring : Nat
  intTable : Nat
  shard : Nat
  moved : Nat
  measuredAt : Nat
  deriving DecidableEq, Repr, Inhabited

/-- A pending event of a tenant fault ring (R262, R348): one of each kind for each slice. -/
structure Event where
  tenant : Nat
  entry : List Byte
  deriving DecidableEq, Repr, Inhabited

/-- A service or command-complex core (R74, R352 to R355). -/
structure Scalar where
  ctx : Gang
  k : Tab Word
  running : Bool
  handling : Bool
  idle : Bool
  charging : Option Word
  half : Bool
  measured : Bool
  start : Option (List Byte)
  deriving DecidableEq, Repr, Inhabited

/-- A right to resume moved by `crfwd` (R284): the handle and the core index that holds it. -/
abbrev Rights := List (Word × Nat)

/-- What left the package: the model's record of the outside's view (log 5). -/
inductive Output where
  | msi (addr : Word) (data : BitVec 32)
  | data (requester : Nat) (bytes : List Byte)
  | dmaError (requester : Nat)
  | frame (port : Nat) (bytes : List Byte)
  | flit (port : Nat) (bytes : List Byte)
  | register (offset : Nat) (value : Word)
  | tree (kind launch : Nat) (chips : List Nat) (body : List Byte)
  | cxlDone (write : Nat)
  | snoop (line : Nat)
  deriving DecidableEq, Repr, Inhabited

/-- A host CXL.mem write waiting for its completion (R194). -/
structure HostWrite where
  id : Nat
  wct : Nat
  deriving DecidableEq, Repr, Inhabited

/-- An invalidation in progress (R171, R286): of a mailbox entry of a shadow hart, or of a `tlbinv`. -/
structure Inval where
  id : Nat
  kind : Nat
  pasid : Nat
  start : Nat
  len : Nat
  shard : Bool
  hart : Option Nat
  seq : Word
  ack : Nat
  rejected : Bool
  waits : List Nat
  deriving DecidableEq, Repr, Inhabited

/-- A live update in progress (R370): 1 booting, 2 seeking a boundary, 3 state table written. -/
structure Update where
  phase : Nat
  sender : Nat
  began : Nat
  version : Word
  deriving DecidableEq, Repr, Inhabited

/-- What a flit tells a chip for which it is (R346, R373, R375, R377, R380, R381, R398). Launches are named by the root's handle, what asks by
`tag`: a store at a home here, and an abort of a collective; to a root, accesses to its dispenser's registers, a deal from the units
(origin, extent) that a core's dispenser holds under a generation, a refill, granules that change state, a `tstat`, units charged, a wait by an
agent of a tenant, or of none, and a cancel; and to any chip an answer. -/
inductive PodMsg where
  | store (key : Nat) (bytes : List Byte)
  | abort (root : Nat) (handle : Word)
  | schr (handle : Word) (chip tag n : Nat) (proof : Bool)
  | schw (handle : Word) (n : Nat) (value : Word)
  | schcommit (handle : Word) (chip tag : Nat)
  | deal (handle : Word) (chip tag : Nat) (gen : Word) (units : List (Word × Word))
  | chunk (handle : Word) (chip tag : Nat)
  | granules (handle : Word) (chip : Nat) (tag : Option Nat) (dst : Nat) (list : List Nat)
  | tstat (handle : Word) (chip tag sel : Nat)
  | charge (slice : Word) (units : Nat)
  | wait (handle : Word) (tenant : Option Nat) (chip tag : Nat)
  | cancel (handle : Word) (chip tag : Nat) (kill : Bool)
  | answer (tag : Nat) (words : List Word)
  deriving DecidableEq, Repr, Inhabited

/-- What a group of threads, or a dispenser, has asked another chip (R273, R275 to R277, R377). A `unit` is a `tfetch` on a core with the
indices of the units that the core's dispenser held, under a generation; a `chunk` is a refill, for a `tfetch` on a core or for none;
`status` awaits so many answers yet; `forsaken` is a `unit` of a workgroup killed meanwhile, whose granules leave the state dealt when the
answer names them (R299, R343). -/
inductive Asked where
  | value
  | unit (core : Nat) (gen : Word) (units : List Nat)
  | chunk (core : Option Nat)
  | granules (dst : Nat) (gs : List (Nat × Nat))
  | status (left : Nat)
  | forsaken (dst : Nat)
  deriving DecidableEq, Repr, Inhabited

/-- A question to another chip: who asked it, at which pc, and what; `launch` is the serial of the launch that it is about, and `got` what
its instruction takes from the answer when it is issued again. -/
structure Ask where
  tag : Nat
  launch : Nat
  agent : Agent
  lanes : LaneMask
  pc : Word
  what : Asked
  got : Option (List Word)
  deriving DecidableEq, Repr, Inhabited

/-- What one step is: an issue of the PC-group that stands at a pc of an agent, or an event (log 3). -/
inductive Act where
  | issue (agent : Agent) (pc : Word)
  | event (i : Instr)
  deriving DecidableEq, Repr, Inhabited

/-- One entry of the agenda: ns of PTB that pass first, and what then happens (log 3). -/
structure Choice where
  dt : Nat
  act : Act
  deriving DecidableEq, Repr, Inhabited

/-- The state of one package. -/
structure State where
  ptb : Nat
  agenda : List Choice
  choiceNo : Nat
  cur : Agent
  mask : LaneMask
  free : Nat
  serialNo : Nat
  out : List Output
  present : Tab Word
  chip : Nat
  flash : Tab Byte
  puf : Tab Byte
  inReset : Bool
  mcTime : Nat
  railsAt : Nat
  tripped : Bool
  bootStep : Nat
  bootRecord : List Byte
  mcstat : Word
  mcpwr : Word
  mctemp : Word
  mcce : Word
  mceth : Word
  pwrHalved : Bool
  pwrZero : Bool
  localBase : Word
  podBase : Word
  tenantBase : Word
  pasidTbl : Word
  cctBase : Word
  harts : Tab Word
  imsics : Tab (List Nat)
  hosted : Bool
  hostLink : Bool
  doorbells : List (Nat × Nat)
  owners : Tab Nat
  mem : Tab Byte
  poison : List Nat
  dirtyLines : List Nat
  predictors : Tab (Tab Nat)
  homes : Tab Home
  reqs : List Req
  hostWrites : List HostWrite
  dmaWct : Tab Nat
  tlbs : Tab (List Tlb)
  walks : List Walk
  invals : List Inval
  heldFaults : Tab (List (List Byte))
  rights : Rights
  l1 : Tab (Tab Line)
  cores : Tab Core
  wgs : Tab Workgroup
  copies : Tab Copy
  ops : Tab MatrixOp
  launches : Tab Launch
  tcbs : Tab Tcb
  graphs : Tab Graph
  slices : List Slice
  queues : Tab Queue
  tenants : Tab Tenant
  events : List Event
  scalars : Tab Scalar
  channels : Tab (List (List Byte))
  heldMsgs : List (Nat × Nat × List Byte)
  checks : List Nat
  activeB : Bool
  versionA : Word
  versionB : Word
  update : Option Update
  log : List (List Byte)
  bank : List Byte
  ports : Tab Bool
  ethIdx : Tab Nat
  podChips : List Nat
  podMap : List PodChip
  alone : Bool
  podFormed : Bool
  slow : Nat
  treeSent : Nat
  treeSeen : Tab Nat
  treeHeld : List Output
  flitSeen : Tab Nat
  asks : List Ask
  waiters : List (Word × Nat × Nat)
  owedUnits : List (Word × Nat)
  parked : List PodMsg
  deriving DecidableEq, Repr, Inhabited

/-- Why the machine stops with a fault. -/
inductive Fault where
  /-- Raised by a `kret`, `krd`, … issued by an agent that `cur` names and the state does not hold: no run reaches it.
  Safe: the machine stops. -/
  | noAgent
  deriving DecidableEq, Repr

/-- Why an instruction has no meaning. -/
inductive Refusal where
  /-- Raised by an arm of `exec` whose instruction has no meaning yet. Safe. -/
  | notModelled (mnemonic : String)
  deriving DecidableEq, Repr

/-- A machine with every object table empty: the values of package reset where the spec gives them (R389, R328, R383,
R388), and those that log 6 names where it gives none. -/
def State.blank : State where
  ptb := 0
  agenda := []
  choiceNo := 0
  cur := .core 40
  mask := 0
  free := 0
  serialNo := 0
  out := []
  present := []
  chip := 0
  flash := []
  puf := []
  inReset := false
  mcTime := 10000000
  railsAt := 0
  tripped := false
  bootStep := 0
  bootRecord := []
  mcstat := 0
  mcpwr := 0
  mctemp := 0
  mcce := 0
  mceth := 0
  pwrHalved := false
  pwrZero := false
  localBase := 0
  podBase := 0x40000000000000
  tenantBase := 0
  pasidTbl := 0
  cctBase := 0
  harts := []
  imsics := []
  hosted := false
  hostLink := false
  doorbells := []
  owners := []
  mem := []
  poison := []
  dirtyLines := []
  predictors := []
  homes := []
  reqs := []
  hostWrites := []
  dmaWct := []
  tlbs := []
  walks := []
  invals := []
  heldFaults := []
  rights := []
  l1 := []
  cores := []
  wgs := []
  copies := []
  ops := []
  launches := []
  tcbs := []
  graphs := []
  slices := []
  queues := []
  tenants := []
  events := []
  scalars := []
  channels := []
  heldMsgs := []
  checks := []
  activeB := false
  versionA := 0x43010000
  versionB := 0x43010000
  update := none
  log := []
  bank := []
  ports := []
  ethIdx := []
  podChips := []
  podMap := []
  alone := false
  podFormed := false
  slow := 0
  treeSent := 0
  treeSeen := []
  treeHeld := []
  flitSeen := []
  asks := []
  waiters := []
  owedUnits := []
  parked := []

/-- The machine right after package reset: the boot ROM of complex A runs next (R363), so the agenda holds its first
step; everything else is at its reset value. -/
noncomputable def State.reset : State :=
  { State.blank with agenda := [⟨0, .event (.boot 0 true)⟩] }

end Sys2Proof.Machine
end

