-- ==== Sys2Proof/Config.lean ====
section
/-! DEFINITION. What one package fixes for all its life, and the values that the spec leaves free. An `opaque` constant
has no body: nothing can evaluate it, and a claim about it holds whatever it is (logs 3, 4, 10 to 12, 30 to 32, 35, 58). -/

namespace Sys2Proof.Config

open Sys2Proof.Machine

/-- The step that the machine takes next when the agenda is empty, for each count of such steps (R31; log 3). -/
opaque nextChoice : Nat → Choice
/-- Which of several free entries of a store, slots of a ring or engine slots is taken, by PTB and the numbers among which the choice
stands (R210, R262, R265, R266, R300, R320; log 58). -/
opaque freePick : Nat → List Nat → Nat
/-- The n-th value that the spec leaves unstated (log 4). -/
opaque freeWord : Nat → Word
/-- Whether a faithful special function (0 exp2, 1 log2, 2 sinpi, 3 cospi) of an operand delivers the upper of the two
neighbours (R40; log 10). -/
opaque sfuUpper : Nat → Nat → Bool
/-- The PUF response corrected by the helper data, none where it cannot be (R366; log 11). -/
opaque pufCorrect : List Byte → List Byte → Option (List Byte)
/-- The number that the signing engine chooses for the signature of a message (R368; log 11). -/
opaque nonce : List Byte → Nat
/-- The two key digests of the boot ROM (R364; log 11). -/
opaque bootKeys : List (List Byte)
/-- The digest of the boot ROM (R363, R367; log 11). -/
opaque romDigest : List Byte
/-- The digest of the firmware in the ROM (R367; log 11). -/
opaque firmwareDigest : List Byte
/-- Whether complex B's own ROM image verifies (R363; log 12). -/
opaque romVerifies : Bool
/-- Whether an HBM stack trains at boot (R363; log 12). -/
opaque stackTrains : Nat → Bool
/-- The deadline of a slice of another chip, in whose launch this chip takes part (R258, R375; log 30). -/
opaque foreignDeadline : Word → Nat
/-- What a flit tells the chip that it is for, none where it is of no account: the message types and the payload of Table 17.1 are not laid
out (R373; log 31). -/
opaque flitMessage : List Byte → Option PodMsg
/-- Base SPA and entries of a ring of an Ethernet port, by port, ring and kind: 0 transmit, 1 receive buffers, 2 receive completions.
No rule says how a port is told them (R362; log 32). -/
opaque ethRing : Nat → Nat → Nat → Nat × Nat
/-- The errors that storage has corrected when PTB has reached a time, of HBM and of on-die SRAM (R162, R390, Table 18.3; log 106). -/
opaque corrected : Nat → Nat × Nat
/-- The line of HBM in which its logic base die finds an error that it cannot correct, when PTB has reached a time; none where there is none
(R161, R390; log 106). -/
opaque hbmError : Nat → Option Nat
/-- The offset in BAR0 that the host reads when PTB has reached a time, none where it reads none (R382, R383, R388; log 106). -/
opaque barRead : Nat → Option Nat
/-- The shard-range address at which a configuration record maps the management registers: Table 16.9 has no field for it (R388; log 106). -/
opaque registersAt : List Byte → Option Word
/-- The revision that a signed firmware image carries, none where its signature is refused: its header is not laid out (R370; log
35). -/
opaque firmware : List Byte → Option Word
/-- Whether the firmware of a revision takes the state table (R305, R370; log 35). -/
opaque imports : Word → Bool

end Sys2Proof.Config
end

