-- ==== Sys2Proof/Machine/Tab.lean ====
section
/-! DEFINITION. Operations on sparse tables and byte memories, and the bit-field and byte-order helpers (R4, R7). -/

namespace Sys2Proof.Machine

/-- The value at key `k`, if the table lists it. -/
def Tab.find {α : Type} : Tab α → Nat → Option α
  | [], _ => none
  | (j, x) :: t, k => if j = k then some x else Tab.find t k

/-- The value at key `k`, or `d` where the table lists none. -/
def Tab.at {α : Type} (t : Tab α) (k : Nat) (d : α) : α := (Tab.find t k).getD d

/-- The table with key `k` removed. -/
def Tab.del {α : Type} : Tab α → Nat → Tab α
  | [], _ => []
  | (j, x) :: t, k => if j = k then Tab.del t k else (j, x) :: Tab.del t k

/-- The table with `x` at key `k`, keys kept in rising order. -/
def Tab.put {α : Type} : Tab α → Nat → α → Tab α
  | [], k, x => [(k, x)]
  | (j, y) :: t, k, x =>
    if k < j then (k, x) :: (j, y) :: t else if j = k then (k, x) :: t else (j, y) :: Tab.put t k x

/-- The table with `x` at key `k`, where a default `d` is never listed: the canonical form. -/
def Tab.set {α : Type} [DecidableEq α] (d : α) (t : Tab α) (k : Nat) (x : α) : Tab α :=
  if x = d then Tab.del t k else Tab.put t k x

/-- The table with the value at key `k`, where listed, changed by `f`. -/
def Tab.upd {α : Type} (t : Tab α) (k : Nat) (f : α → α) : Tab α :=
  t.map fun p => if p.1 = k then (p.1, f p.2) else p

/-- Keys strictly rising. -/
def Tab.sorted {α : Type} : Tab α → Bool
  | [] => true
  | [_] => true
  | (j, _) :: (k, y) :: t => decide (j < k) && Tab.sorted ((k, y) :: t)

/-- Reads one byte; an unlisted address reads as 0 (log 8). -/
def Mem.byte (m : Tab Byte) (a : Nat) : Byte := Tab.at m a 0

/-- Writes one byte, in canonical form. -/
def Mem.store (m : Tab Byte) (a : Nat) (b : Byte) : Tab Byte := Tab.set 0 m a b

/-- The canonical form of a memory: addresses strictly rising, no entry 0. -/
def Memory.wf (m : Tab Byte) : Bool := Tab.sorted m && m.all fun p => p.2 != 0

/-- Writes consecutive bytes from address `a`. -/
def Mem.storeAll (m : Tab Byte) : Nat → List Byte → Tab Byte
  | _, [] => m
  | a, b :: bs => Mem.storeAll (Mem.store m a b) (a + 1) bs

/-- Reads `n` consecutive bytes from address `a`. -/
def Mem.bytes (m : Tab Byte) (a n : Nat) : List Byte := (List.range n).map fun i => Mem.byte m (a + i)

/-- The little-endian value of a list of bytes (R4). -/
def leNat : List Byte → Nat
  | [] => 0
  | b :: bs => b.toNat + 256 * leNat bs

/-- The low `n` bytes of a number, little-endian (R4). -/
def leBytes : Nat → Nat → List Byte
  | 0, _ => []
  | n + 1, x => BitVec.ofNat 8 x :: leBytes n (x / 256)

/-- `n` bytes of a record at offset `o`, as a number. -/
def recAt (r : List Byte) (o n : Nat) : Nat := leNat ((r.drop o).take n)

/-- Bits `h` down to `l` of a number, right-aligned (R7 `bits`). -/
def bitsOf (x h l : Nat) : Nat := (x >>> l) % 2 ^ (h + 1 - l)

/-- Bit `i` of a number. -/
def bitOf (x i : Nat) : Bool := x.testBit i

/-- The two's-complement value of the low `n` bits of `x` (R33). -/
def sextInt (n x : Nat) : Int := (BitVec.ofNat n x).toInt

/-- The low 64 bits of an integer (R33). -/
def wordOfInt (x : Int) : Word := BitVec.ofInt 64 x

/-- The low 32 bits of a word, sign-extended: `w32` of R109. -/
def w32 (x : Word) : Word := (x.setWidth 32).signExtend 64

/-- A record of `n` bytes with the given fields (offset, size, value); every other byte is 0. -/
def mkRecord (n : Nat) (fields : List (Nat × Nat × Nat)) : List Byte :=
  Mem.bytes (fields.foldl (fun m f => Mem.storeAll m f.1 (leBytes f.2.1 f.2.2)) []) 0 n

/-- The lanes of a mask, in ascending order. -/
def lanesOf (m : LaneMask) : List Nat := (List.range 32).filter fun l => m.getLsbD l

/-- The mask with lane `l` alone. -/
def laneBit (l : Nat) : LaneMask := 1#32 <<< l

/-- The mask of a list of lanes. -/
def maskOf (ls : List Nat) : LaneMask := ls.foldl (fun m l => m ||| laneBit l) 0

/-- ceil(a / b). -/
def ceilDiv (a b : Nat) : Nat := (a + b - 1) / b

/-- `x` rounded up to a multiple of `b`. -/
def roundUp (x b : Nat) : Nat := ceilDiv x b * b

end Sys2Proof.Machine
end

