-- ==== Sys2Proof/Machine/Xlate.lean ====
section
/-! DEFINITION. Places of cores, the physical map, homes, translation and the access checks (R9, R155, R156, R161 to
R168, R197, R290, R291, R304, R353). -/

namespace Sys2Proof.Machine

/-! ### Cores and apertures -/

/-- First byte of the thread aperture (R155). -/
def threadAp : Nat := 0xFF00000000000000
/-- First byte of the service aperture (R155). -/
def serviceAp : Nat := 0xFF01000000000000

/-- The core index 0 to 39 of the service core of the cluster of core `c` (`CORELOC` bits 8:0) (R283, R67). -/
def clusterOf (c : Nat) : Nat := c / 64 * 5 + c / 8 % 8
/-- Die `d` is present (R9 Table 16.9). -/
def State.diePresent (s : State) (d : Nat) : Bool := (Tab.at s.present d 0).getLsbD 63
/-- Cluster `u` of die `d` is present. -/
def State.clusterPresent (s : State) (d u : Nat) : Bool :=
  s.diePresent d && decide (u < 5) && (Tab.at s.present d 0).getLsbD (40 + u)
/-- Core `c` (`CORELOC` bits 8:0) is present (R9). -/
def State.corePresent (s : State) (c : Nat) : Bool :=
  s.clusterPresent (c / 64) (c / 8 % 8) && (Tab.at s.present (c / 64) 0).getLsbD (c / 8 % 8 * 8 + c % 8)
/-- Every core number that is present, ascending (R293). -/
def State.presentCores (s : State) : List Nat := (List.range 512).filter s.corePresent
/-- Service core `i` is present: its cluster has a present core (R364). -/
def State.servicePresent (s : State) (i : Nat) : Bool :=
  decide (i < 40) && (List.range 8).any fun k => s.corePresent (i / 5 * 64 + i % 5 * 8 + k)
/-- Core index `i` names a present service core or a command-complex core (R283, R284). -/
def State.indexPresent (s : State) (i : Nat) : Bool := s.servicePresent i || (decide (40 ≤ i) && decide (i < 48))

/-- The L1 of a compute core is at its `CORELOC` bits 8:0; that of a core index i at 512 + i. -/
def l1Of : Nat → Nat := fun i => 512 + i

/-! ### The physical map -/

/-- Keys of host memory in `mem`; a key below it is chip number * 2^40 + offset (R163). -/
def hostKey : Nat := 2 ^ 56
/-- The home of a key is on another chip (R175, R183). -/
def State.remote (s : State) (key : Nat) : Bool := decide (key < hostKey) && decide (key / 2 ^ 40 ≠ s.chip)
/-- The extra wait for a home on another chip (R183). -/
def State.skew (s : State) (key : Nat) : Nat := if s.remote key then 20 else 0
/-- Local offset `o` of this package's HBM; none in a die that is absent (R162, R163). -/
def State.localKey (s : State) (o : Nat) : Option Nat :=
  if s.diePresent (o / 2 ^ 37) then some (s.chip * 2 ^ 40 + o) else none
/-- Table 7.3: where an SPA goes; none is not routable (R163). -/
def State.route (s : State) (a : Nat) : Option Nat :=
  let lb := s.localBase.toNat
  let pb := s.podBase.toNat
  if lb ≤ a ∧ a < lb + 2 ^ 40 then s.localKey (a - lb)
  else if pb ≤ a ∧ a < pb + 2 ^ 50 then
    let c := (a - pb) / 2 ^ 40
    if c = s.chip then s.localKey ((a - pb) % 2 ^ 40)
    else if !s.alone && s.podChips.contains c then some (a - pb) else none
  else if s.hostLink then some (hostKey + a) else none

/-! ### The HBM of a package (R161, R162) -/

/-- The die of a local offset (R162). -/
def hbmDie (o : Nat) : Nat := bitsOf o 39 37
/-- The stack of its die that holds a local offset: bit 8 xor bit 20 (R162). -/
def hbmStack (o : Nat) : Nat := if bitOf o 8 == bitOf o 20 then 0 else 1
/-- The pseudo-channel of its stack that holds a local offset (R162). -/
def hbmChannel (o : Nat) : Nat := bitsOf o 16 9
/-- The home slice of its die that holds a local offset (R162). -/
def homeSlice (o : Nat) : Nat := bitsOf o 10 7 ^^^ bitsOf o 22 19
/-- Lines that a home slice holds: 6 MiB of 128 bytes (R161). -/
def sliceLines : Nat := 49152
/-- Two lines have one home slice. -/
def sameSlice (m n : Nat) : Bool := hbmDie (128 * m) = hbmDie (128 * n) && homeSlice (128 * m) = homeSlice (128 * n)
/-- A line of this package's HBM becomes dirty in its home; of more dirty lines than a slice holds, the oldest is written back to HBM
(R161; log 88). -/
def State.soil (s : State) (line : Nat) : State :=
  if decide (hostKey ≤ line * 128) || s.remote (line * 128) || s.dirtyLines.contains line then s
  else
    let ds := s.dirtyLines ++ [line]
    let full := decide (sliceLines < ds.length) && decide (sliceLines < ds.countP (sameSlice line))
    { s with dirtyLines := if full then ds.eraseP (sameSlice line) else ds }

/-! ### What a home holds -/

/-- The byte that a home serves: an owned line is read at its owner (R161, R186, R205). -/
def State.homeByte (s : State) (key : Nat) : Byte :=
  match Tab.find s.homes (key / 128) with
  | some h =>
    match h.owner with
    | some l =>
      match Tab.find (Tab.at s.l1 l []) (key / 128) with
      | some ln => if ln.owned then ln.data.getD (key % 128) 0 else Mem.byte s.mem key
      | none => Mem.byte s.mem key
    | none => Mem.byte s.mem key
  | none => Mem.byte s.mem key
/-- `n` bytes at a home. -/
def State.homeRead (s : State) (key n : Nat) : List Byte := (List.range n).map fun i => s.homeByte (key + i)
/-- Poisons a line (R161). -/
def State.poisonLine (s : State) (line : Nat) : State := if s.poison.contains line then s else { s with poison := line :: s.poison }
/-- The line of a key is poisoned (R161). -/
def State.poisoned (s : State) (key : Nat) : Bool := s.poison.contains (key / 128)
/-- What a home keeps of a line; a line it has granted nothing for has lease and stamp 0. -/
def State.home (s : State) (line : Nat) : Home := Tab.at s.homes line ⟨0, 0, none, 0⟩
/-- Replaces what the home keeps of a line. -/
def State.setHome (s : State) (line : Nat) (h : Home) : State := { s with homes := Tab.set ⟨0, 0, none, 0⟩ s.homes line h }
/-- The L1 at `l`. -/
def State.l1At (s : State) (l : Nat) : Tab Line := Tab.at s.l1 l []
/-- Replaces the L1 at `l`. -/
def State.setL1 (s : State) (l : Nat) (t : Tab Line) : State := { s with l1 := Tab.set [] s.l1 l t }

/-- The predictor of an L1 for a line (R205). -/
def State.predicts (s : State) (l1 line : Nat) : Nat := Tab.at (Tab.at s.predictors l1 []) line 0
/-- Sets the predictor of an L1 for a line. -/
def State.setPredictor (s : State) (l1 line n : Nat) : State :=
  { s with predictors := Tab.set [] s.predictors l1 (Tab.set 0 (Tab.at s.predictors l1 []) line n) }
/-- Ends ownership of a line: its data is written back, and the owner's copy goes (R205). `bump` raises the owner's
predictor for the line. -/
def State.recall (s : State) (line : Nat) (bump : Bool) : State :=
  let h := s.home line
  match h.owner with
  | none => s
  | some l =>
    let s := match Tab.find (s.l1At l) line with
      | some ln =>
        let s := if ln.owned then { s with mem := Mem.storeAll s.mem (line * 128) ln.data }.soil line else s
        s.setL1 l (Tab.del (s.l1At l) line)
      | none => s
    let s := s.setHome line { h with owner := none }
    if bump then s.setPredictor l line (min 3 (s.predicts l line + 1)) else s

/-- The lines that n bytes at a key touch. -/
def linesOf (key n : Nat) : List Nat := (List.range ((key % 128 + n + 127) / 128)).map (key / 128 + ·)
/-- Bytes at a key, cut at line boundaries. -/
def linePieces (key : Nat) (bs : List Byte) : List (Nat × List Byte) :=
  (linesOf key bs.length).map fun n => (max key (n * 128), (bs.drop (n * 128 - key)).take (n * 128 + 128 - max key (n * 128)))
/-- Applies bytes at their home: ownership of an L1 is recalled first. -/
def State.homeWrite (s : State) (key : Nat) (bs : List Byte) : State :=
  let s := (linesOf key bs.length).foldl (fun s n => s.recall n true) s
  { s with mem := Mem.storeAll s.mem key bs }
/-- Bytes laid over the part of others that they meet. -/
def overlay (key : Nat) (bs : List Byte) (k : Nat) (new : List Byte) : List Byte :=
  (List.range bs.length).map fun i =>
    if k ≤ key + i ∧ key + i < k + new.length then new.getD (key + i - k) 0 else bs.getD i 0
/-- The copy of a line in an L1 that owns it. -/
def State.ownedLine (s : State) (l1 line : Nat) : Option Line := (Tab.find (s.l1At l1) line).filter (·.owned)
/-- Applies bytes within one line for an L1, in its own copy of a line that it owns, else at the home; their WCT is the stamp of the
line (R176, R178, R205). -/
def State.commit (s : State) (l1 wct key : Nat) (bs : List Byte) : State :=
  let line := key / 128
  let s := match s.ownedLine l1 line with
    | some ln => s.setL1 l1 (Tab.put (s.l1At l1) line { ln with data := overlay (line * 128) ln.data key bs, stamp := wct })
    | none => (s.homeWrite key bs).soil line
  s.setHome line { s.home line with stamp := wct }

/-! ### Requests at a home (R176, R184, R419) -/

/-- The L1 of an agent that has none. -/
def noL1 : Nat := 1024
/-- The WCT of a store applied now at a key's home (R176). -/
def State.wctNow (s : State) (key : Nat) : Nat := max s.ptb (s.home (key / 128)).lease
/-- A strong store is pending on a line: its WCT (R419). -/
def State.pendingOn (s : State) (line : Nat) : Option Nat :=
  (s.reqs.filterMap fun r => match r.state with
    | .pending w => if r.key / 128 = line then some w else none
    | _ => none).head?
/-- An access to the line waits behind a strong store. -/
def State.heldOn (s : State) (line : Nat) : Bool := s.reqs.any fun r => r.state = .held && r.key / 128 = line
/-- What arrives at the home of the line is held (R419). -/
def State.busyOn (s : State) (line : Nat) : Bool := (s.pendingOn line).isSome || s.heldOn line
/-- The place of the next request held, in the order of arrival (R419). -/
def State.arrival (s : State) : Nat := s.reqs.foldl (fun m r => max m r.arrived) 0 + 1
/-- Raises the `RELT` of the exclusive locks of a copy, on whichever core it has them (R189). -/
def State.lockUntil (s : State) (k time : Nat) : State :=
  let raise := fun (l : Lock) => if l.owner == LockOwner.copy k && l.exclusive then { l with relt := max l.relt time } else l
  { s with cores := s.cores.map fun p => (p.1, { p.2 with locks := p.2.locks.map fun q => (q.1, raise q.2) }) }
/-- The stamp that a write of a source gives its line: of a device, no less than what the device's earlier writes carry (R195). -/
def State.stampOf (s : State) (src : Source) (wct : Nat) : Nat :=
  match src with
  | .dma r => max wct (Tab.at s.dmaWct r 0)
  | _ => wct
/-- Tells the source of a write within one line its WCT (R187, R194, R195). -/
def State.landed (s : State) (src : Source) (key wct : Nat) : State :=
  let w := wct + s.skew key
  match src with
  | .dma r => { s with dmaWct := Tab.put s.dmaWct r wct }
  | .host i => { s with hostWrites := s.hostWrites.map fun x => if x.id = i then { x with wct := max x.wct wct } else x }
  | .box k b =>
    let tell := fun (c : Copy) => { c with wrote := max c.wrote w, boxBusy := Tab.upd c.boxBusy b fun t => max t (w + 1) }
    ({ s with copies := Tab.upd s.copies k tell }).lockUntil k w
  | .queue q => { s with queues := Tab.upd s.queues q fun x => { x with rel := max x.rel w } }
  | .node n => { s with tcbs := Tab.upd s.tcbs n fun t => { t with wrote := max t.wrote w } }
  | .launch l => { s with launches := Tab.upd s.launches l fun x => { x with wrote := max x.wrote w } }
  | _ => s
/-- Adds a request of another agent than a thread at a home, one write within one line. -/
def State.enqueue (s : State) (src : Source) (scope : Option Nat) (key : Nat) (bs : List Byte) (st : ReqState) : State :=
  let r : Req := { (default : Req) with
    id := s.serialNo, agent := .core 48, lane := 32, lanes := 0, l1 := noL1, kind := .store, key := key, size := bs.length
    data := bs, scope := scope, state := st, source := src, arrived := s.arrival }
  { s with serialNo := s.serialNo + 1, reqs := s.reqs ++ [r] }
/-- A write of another agent than a thread reaches the home of its line: it is held behind a pending strong store, a strong one is
pending until the last lease has ended, and any other is applied (R176, R184, R419). -/
def State.arrive (s : State) (src : Source) (scope : Option Nat) (key : Nat) (bs : List Byte) : State :=
  let wct := s.wctNow key
  if s.busyOn (key / 128) then s.enqueue src scope key bs .held
  else if scope.isSome && decide (s.ptb < wct) then (s.enqueue src scope key bs (.pending wct)).landed src key wct
  else
    let w := s.stampOf src wct
    (s.commit noL1 w key bs).landed src key w
/-- A release of the part, within one line, at a scope: a strong store that is pending until every lease has ended and PTB has reached the
WCTs of what comes before it, the largest of which is given (R183, R184). -/
def State.releaseStore (s : State) (scope key : Nat) (bs : List Byte) (time : Nat) : State :=
  let wct := max time (s.wctNow key)
  if s.busyOn (key / 128) then s.enqueue .part (some scope) key bs .held
  else if s.ptb < wct then s.enqueue .part (some scope) key bs (.pending wct)
  else s.commit noL1 wct key bs
/-- Memory as the hub and its complexes see it: with what they have stored and its homes have not applied yet (R184). -/
def State.ownSight (s : State) : State :=
  let mine := fun (r : Req) => r.lanes = 0 && match r.source, r.state with
    | .part, .pending _ => true
    | .part, .held => true
    | .queue _, .pending _ => true
    | .queue _, .held => true
    | _, _ => false
  (s.reqs.filter mine).foldl (fun t r => { t with mem := Mem.storeAll t.mem r.key r.data }) s
/-- Writes bytes at their homes for a source, as a strong store where a scope is given. -/
def State.write (s : State) (src : Source) (scope : Option Nat) (key : Nat) (bs : List Byte) : State :=
  (linePieces key bs).foldl (fun s p => s.arrive src scope p.1 p.2) s
/-- Writes bytes at their homes for the part. -/
def State.homeStore (s : State) (key : Nat) (bs : List Byte) : State := s.write .part none key bs
/-- A write of a source has not been applied yet. -/
def State.owes (s : State) (src : Source) : Bool := s.reqs.any fun r => r.source = src

/-! ### Package reset and the registers of the hub (R383, R388, R389) -/

/-- Memory after a package reset: host memory and the memory of other chips stay; what each written byte of this package's HBM holds is
open (R389; log 37). -/
def State.memAfter (s : State) : Tab Byte × Nat :=
  s.mem.foldl (fun acc p =>
    if p.1 / 2 ^ 40 = s.chip && decide (p.1 < hostKey) then
      (Mem.store acc.1 p.1 ((Config.freeWord acc.2).setWidth 8), acc.2 + 1)
    else (Mem.store acc.1 p.1 p.2, acc.2)) ([], s.free)
/-- Package reset is asserted: everything is at its reset value but `MCSTAT.THTRIP`, the flash and the PUF; it holds until the boot ROM
of complex A runs again (R389). -/
def State.packageReset (s : State) : State :=
  let m := s.memAfter
  { State.blank with
    inReset := true, mcTime := s.mcTime, railsAt := s.railsAt, tripped := s.tripped, mcstat := s.mcstat &&& 0x100000, flash := s.flash, puf := s.puf, mem := m.1
    free := m.2, agenda := s.agenda, choiceNo := s.choiceNo, serialNo := s.serialNo, out := s.out, cur := s.cur, mask := s.mask }
/-- A register of shadow hart h, at its offset in Table 17.3. -/
def State.hart (s : State) (h off : Nat) : Word := Tab.at s.harts (8 * h + off / 8) 0
/-- What a read of a hub or management register returns: bit 1 of `SHCTL` says that the hart's service core is present, reserved fields
and places without a register read as 0, and so do the doorbells (R6, R9, R383, R388). -/
def State.registerRead (s : State) (offset : Nat) : Word :=
  let hart := (offset - 0x2000) / 64
  let off := (offset - 0x2000) % 64
  if 0x2000 ≤ offset && offset < 0x2A00 then
    if off = 0x28 then s.hart hart 0x28 ||| (if s.servicePresent hart then 2 else 0)
    else if off ≤ 0x20 then s.hart hart off
    else 0
  else match offset with
    | 0 => s.localBase
    | 8 => s.podBase
    | 0x10 => s.tenantBase
    | 0x18 => s.pasidTbl
    | 0x20 => s.cctBase
    | 0x3000 => s.mcstat
    | 0x3008 => s.mcpwr
    | 0x3010 => s.mctemp
    | 0x3018 => s.mcce
    | 0x3020 => s.mceth
    | _ => 0
/-- A write to a management register: a 1 clears `THTRIP`, 0x5253 to `MCRESET` asserts package reset, and any other is ignored (R388). -/
def State.registerStore (s : State) (offset : Nat) (v : Word) : State :=
  if offset = 0x3000 then { s with mcstat := s.mcstat &&& ~~~(v &&& 0x100000) }
  else if offset = 0x3028 && v.toNat % 2 ^ 16 = 0x5253 then s.packageReset
  else s
/-- A shard's store of bytes at a management register: the bytes of a register that it does not write count as 0 (log 106). -/
def State.registerBytes (s : State) (offset : Nat) (bs : List Byte) : State :=
  (List.range ((offset % 8 + bs.length + 7) / 8)).foldl (fun s k =>
    let o := offset / 8 * 8 + 8 * k
    let word := (List.range 8).map fun i => if offset ≤ o + i then bs.getD (o + i - offset) 0 else 0
    s.registerStore o (BitVec.ofNat 64 (leNat word))) s

/-! ### Walks -/

/-- Who makes an access, as translation sees it (R166, R353): its translation buffer, its PASID, `KATP` of a service or
command-complex core, and whether it is a user access. -/
structure Ctx where
  cluster : Nat
  pasid : Nat
  katp : Option Word
  user : Bool
  deriving DecidableEq, Repr, Inhabited

/-- Kinds of access: 0 load, 1 store, 2 atomic, 3 fetch. The page fault of the access (R166). -/
def pageFault (kind : Nat) : Nat := if kind = 0 then 5 else if kind = 1 then 6 else if kind = 2 then 5 else 7

/-- One level of an Sv57 walk from the table at `ppn`: the leaf found and its A bit. An error is where the walk faults, true for a
leaf without U of a user access, whose other bits are not looked at; a leaf is an entry with R, W or X (R166 to R168, R291). An entry in a
poisoned line is read as it stands (log 120). -/
def State.walkFrom (s : State) (user : Bool) (va : Nat) : Nat → Nat → Except Bool (Tlb × Bool)
  | l, ppn =>
    match s.route (ppn * 4096 + 8 * bitsOf va (20 + 9 * l) (12 + 9 * l)) with
    | none => .error false
    | some key =>
      let e := leNat (s.homeRead key 8)
      let next := bitsOf e 53 10
      let n := bitOf e 63
      if !bitOf e 0 then .error false
      else if bitOf e 1 || bitOf e 2 || bitOf e 3 then
        let size := if n then 2 ^ 16 else 2 ^ (12 + 9 * l)
        if user && !bitOf e 4 then .error true
        else if bitsOf e 60 54 ≠ 0 || bitsOf e 62 61 = 3 || (bitOf e 2 && !bitOf e 1) || (n && (decide (l ≠ 0) || decide (next % 16 ≠ 8)))
          || (!n && decide (next % 512 ^ l ≠ 0)) then .error false
        else
          .ok (⟨none, va / size * size, size, (if n then next / 16 * 16 else next) * 4096,
            bitOf e 4, bitOf e 1, bitOf e 2, bitOf e 3, bitOf e 7, bitsOf e 62 61⟩, bitOf e 6)
      else if bitsOf e 60 54 ≠ 0 || bitOf e 7 || bitOf e 6 || bitOf e 4 || n || decide (bitsOf e 62 61 ≠ 0) then .error false
      else match l with
        | 0 => .error false
        | l + 1 => State.walkFrom s user va l next

/-- The fault of a leaf for an access: U first, then permission and Svade (R132, R166). -/
def leafFault (c : Ctx) (kind : Nat) (t : Tlb) (a : Bool) : Option Nat :=
  if c.user && !t.user then some (if kind = 3 then 7 else 8)
  else if kind = 3 then (if (!c.user && t.user) || !t.x || !a then some 7 else none)
  else if kind = 0 then (if !t.r || !a then some 5 else none)
  else if kind = 1 then (if !t.w || !a || !t.dirty then some 6 else none)
  else if !t.r || !a then some 5 else if !t.w || !t.dirty then some 6 else none

/-- The root table of PASID `p` (R290); none makes the walk fault. -/
def State.rootOf (s : State) (p : Nat) : Option Nat :=
  match s.route (s.pasidTbl.toNat + 8 * p) with
  | none => none
  | some key =>
    let e := leNat (s.homeRead key 8)
    if bitOf e 44 && decide (bitsOf e 63 60 = 1) && decide (bitsOf e 59 45 = 0) then some (bitsOf e 43 0) else none

/-- Whether an address lies in the shard half (Table 7.4). -/
def shardHalf (va : Word) : Bool := va.getLsbD 56
/-- Whether an address is canonical (R164). -/
def canonical (va : Word) : Bool := decide (sextInt 57 va.toNat = va.toInt)

/-- Level and table of the leaf that a walk of an address reaches (R291). -/
def State.leafTable (s : State) (va : Nat) : Nat → Nat → Option (Nat × Nat)
  | l, ppn =>
    match s.route (ppn * 4096 + 8 * bitsOf va (20 + 9 * l) (12 + 9 * l)) with
    | none => none
    | some key =>
      let e := leNat (s.homeRead key 8)
      if bitOf e 1 || bitOf e 2 || bitOf e 3 then some (l, ppn * 4096)
      else match l with
        | 0 => none
        | l + 1 => State.leafTable s va l (bitsOf e 53 10)
/-- The n leaves around an address in a table form one coalesced entry (R168). -/
def State.coalesces (s : State) (va l table n : Nat) : Bool :=
  let i := bitsOf va (20 + 9 * l) (12 + 9 * l) / n * n
  let es := (List.range n).map fun j => (s.route (table + 8 * (i + j))).map fun k => leNat (s.homeRead k 8)
  let e := (es.headD none).getD 0
  let bits := fun (x : Nat) => x - bitsOf x 53 10 * 1024
  let page := 512 ^ l
  decide (bitsOf e 53 10 % (n * page) = 0) && !bitOf e 63 && (List.range n).all fun j => match es.getD j none with
    | some x => bitOf x 0 && bits x = bits e && bitsOf x 53 10 = bitsOf e 53 10 + j * page
    | none => false
/-- The entry that the buffer holds for a leaf: the largest coalesced one that covers it, else its own (R168; log 24). -/
def State.coalesced (s : State) (root va : Nat) (t : Tlb) : Tlb :=
  match s.leafTable va 4 root with
  | some (l, table) =>
    match ((if l = 0 then [64, 4] else if l = 1 then [16, 4] else []).filter fun n => s.coalesces va l table n).head? with
    | some n =>
      let size := n * t.size
      { t with base := va / size * size, size := size, pa := t.pa - (t.base - va / size * size) }
    | none => t
  | none => t

/-- The root table that a walk of an address starts from (R166, R290, R353). -/
def State.rootFor (s : State) (c : Ctx) (va : Word) : Option Nat :=
  if shardHalf va then c.katp.bind fun k => if bitsOf k.toNat 63 60 = 1 then some (bitsOf k.toNat 43 0) else none
  else s.rootOf c.pasid
/-- The leaf that a walk of an address finds, with the root it started from, or the fault of the access (R166, R353). -/
def State.walkLeaf (s : State) (c : Ctx) (kind : Nat) (va : Word) : Except Nat (Nat × Tlb) :=
  match s.rootFor c va with
  | none => .error (pageFault kind)
  | some r =>
    match s.walkFrom c.user (va.toNat % 2 ^ 57) 4 r with
    | .error u => .error (if u && kind ≠ 3 then 8 else pageFault kind)
    | .ok (t, a) =>
      match leafFault c kind t a with
      | some f => .error f
      | none => .ok (r, t)
/-- A walk of an address: the entry to install, or the fault of the access (R166, R168, R353). -/
def State.walkVa (s : State) (c : Ctx) (kind : Nat) (va : Word) : Except Nat Tlb :=
  match s.walkLeaf c kind va with
  | .error f => .error f
  | .ok (r, t) => .ok { s.coalesced r (va.toNat % 2 ^ 57) t with tag := if shardHalf va then none else some c.pasid }

/-- The entry of a translation buffer that serves an address (R165). -/
def State.tlbFind (s : State) (c : Ctx) (va : Word) : Option Tlb :=
  let tag := if shardHalf va then none else some c.pasid
  let x := va.toNat % 2 ^ 57
  (Tab.at s.tlbs c.cluster []).find? fun t => t.tag == tag && decide (t.base ≤ x) && decide (x < t.base + t.size)

/-- What translation of an address gives (R165, R166, R353). -/
inductive Xl where
  | ok (key pbmt : Nat)
  | miss
  | fault (code : Nat)
  deriving DecidableEq, Repr

/-- The place an entry gives an address, routed (R163). -/
def State.place (s : State) (t : Tlb) (kind : Nat) (va : Word) : Xl :=
  match s.route (t.pa + (va.toNat % 2 ^ 57 - t.base)) with
  | some key => .ok key t.pbmt
  | none => .fault (if kind = 3 then 7 else 8)

/-- Translates an address that is not an aperture address. -/
def State.translate (s : State) (c : Ctx) (kind : Nat) (va : Word) : Xl :=
  if shardHalf va && c.katp.isNone then .fault (if kind = 3 then 7 else 8)
  else if shardHalf va && bitsOf (c.katp.getD 0).toNat 63 60 = 0 then
    match s.route (va.toNat % 2 ^ 56) with
    | some key => .ok key 0
    | none => .fault (if kind = 3 then 7 else 8)
  else match s.tlbFind c va with
    | none => .miss
    | some t =>
      match leafFault c kind t true with
      | some f => .fault f
      | none => s.place t kind va

/-- Installs an entry in a translation buffer of 8,192; a full one gives up its oldest (R165; log 89). -/
def State.tlbPut (s : State) (cluster : Nat) (t : Tlb) : State :=
  { s with tlbs := Tab.put s.tlbs cluster ((t :: Tab.at s.tlbs cluster []).take 8192) }
/-- An address of the thread aperture. -/
def inThreadAp (va : Nat) : Bool := decide (threadAp ≤ va) && decide (va < threadAp + 2 ^ 32)
/-- An address of the service aperture. -/
def inServiceAp (va : Nat) : Bool := decide (serviceAp ≤ va) && decide (va < serviceAp + 2 ^ 34)
/-- Translates an address with a walk at once where the buffer has no entry: a key and memory type, or a fault code. An aperture
address has no translation (R155). -/
def State.xlateNow (s : State) (c : Ctx) (kind : Nat) (va : Word) : Except Nat (Nat × Nat) :=
  if !canonical va || inThreadAp va.toNat || inServiceAp va.toNat then .error 8
  else match s.translate c kind va with
    | .ok k p => .ok (k, p)
    | .fault f => .error f
    | .miss =>
      match s.walkLeaf c kind va with
      | .error f => .error f
      | .ok (_, t) =>
        match s.place t kind va with
        | .ok k p => .ok (k, p)
        | .fault f => .error f
        | .miss => .error 8
/-- Keeps the entry that such a walk found in the translation buffer of its cluster (R165). -/
def State.keepEntry (s : State) (c : Ctx) (kind : Nat) (va : Word) : State :=
  if !canonical va || inThreadAp va.toNat || inServiceAp va.toNat then s
  else match s.translate c kind va with
    | .miss =>
      match s.walkVa c kind va with
      | .ok t => s.tlbPut c.cluster t
      | .error _ => s
    | _ => s

/-! ### Objects -/

/-- The workgroup with key `w`. -/
def State.wg (s : State) (w : Nat) : Option Workgroup := Tab.find s.wgs w
/-- The launch with `LAUNCHID` l. -/
def State.launch (s : State) (l : Nat) : Option Launch := Tab.find s.launches l
/-- The launch of a workgroup. -/
def State.launchOf (s : State) (w : Workgroup) : Option Launch := s.launch w.launch
/-- `n` bytes of a launch record at offset `o` (R292). -/
def Launch.field (l : Launch) (o n : Nat) : Nat := recAt l.record o n
/-- The declared scratchpad share in bytes (R151). -/
def Launch.scratch (l : Launch) : Nat := bitsOf (l.field 0x10 8) 31 16 * 1024
/-- The declared accumulator share in bytes (R151). -/
def Launch.accShare (l : Launch) : Nat := bitsOf (l.field 0x10 8) 15 0 * 1024
/-- `NGANG` of a launch. -/
def Launch.ngang (l : Launch) : Nat := l.field 0xA 1
/-- The scratchpad share of a workgroup. -/
def State.scratchOf (s : State) (w : Workgroup) : Nat := ((s.launchOf w).map Launch.scratch).getD 0
/-- The workgroup resident in a slot of a core, with its key (R155). -/
def State.resident (s : State) (core slot : Nat) : Option (Nat × Workgroup) :=
  s.wgs.find? fun p => p.2.place == some (core, slot)
/-- The service or command-complex core `i`. -/
def State.scalar (s : State) (i : Nat) : Option Scalar := Tab.find s.scalars i
/-- K register n of a core (Table 3.10). -/
def Scalar.kreg (c : Scalar) (n : Nat) : Word := Tab.at c.k n 0
/-- The compute core that holds a workgroup, or that last held it at first dispatch (R155). -/
def Workgroup.core (w : Workgroup) : Nat := (w.place.map Prod.fst).getD w.home

/-- The translation context of an agent (R165, R353). -/
def State.ctxOf (s : State) : Agent → Ctx
  | .gang w _ =>
    match s.wg w with
    | some g => ⟨clusterOf g.core, ((s.launchOf g).map (·.pasid)).getD 0, none, true⟩
    | none => ⟨0, 0, none, true⟩
  | .core i =>
    match s.scalar i with
    | some c => ⟨i, (c.kreg 9).toNat % 2 ^ 20, some (c.kreg 10), false⟩
    | none => ⟨i, 0, none, false⟩

/-- The context in which the part reaches a tenant's structures (R340). -/
def tenantCtx (pasid : Nat) : Ctx := ⟨48, pasid, none, false⟩

/-! ### Access checks -/

/-- What the checks of Table 9.1 answer. -/
inductive Chk where
  | ok (l : Loc)
  | miss
  | fault (code : Nat)
  deriving DecidableEq, Repr


/-- The scratchpad place of a thread-aperture address for a workgroup's own thread or copy; none is `PROT` (Table 7.2). -/
def State.homeWindow (s : State) (w : Nat) (g : Workgroup) (va : Nat) : Option Loc :=
  let x := va - threadAp
  if x / 2 ^ 23 = g.home ∧ x % 2 ^ 23 < s.scratchOf g then some (.scratch w (x % 2 ^ 23)) else none

/-- A matrix operation of the workgroup awaits assist (R335). -/
def State.awaitsAssist (s : State) (w : Nat) : Bool := s.ops.any fun p => p.2.wg = w && p.2.state = 3

/-- The place of a service-aperture address (R155, R335, Table 7.2): `cluster` none admits every core (DMA). -/
def State.serviceWindow (s : State) (cluster : Option Nat) (va : Nat) : Option Loc :=
  let x := va - serviceAp
  let core := x / 2 ^ 25
  let o := x % 2 ^ 23
  if cluster.isSome ∧ cluster ≠ some (clusterOf core) then none
  else match s.resident core (x / 2 ^ 23 % 4) with
    | none => none
    | some (w, g) =>
      let share := s.scratchOf g
      let up := roundUp share 65536
      if o < share then some (.scratch w o)
      else if cluster.isSome && s.awaitsAssist w && decide (up ≤ o) &&
          decide (o < up + ((s.launchOf g).map Launch.accShare).getD 0) then some (.acc w (o - up))
      else none

/-- Entry that a range lock makes an access fault on (R189, R210, R304): `me` holds its own locks unchecked. -/
def Lock.hits (k : Lock) (me : LockOwner) (pasid kind va size : Nat) : Bool :=
  let x := va % 2 ^ 57
  k.owner != me && decide (x ≤ k.last) && decide (k.base < x + size) && (k.exclusive || decide (kind ≠ 0)) &&
    (decide (2 ^ 56 ≤ k.base) || decide (k.pasid = pasid))

/-- Whether a thread access of a core meets a range lock (step 6). -/
def State.rangeLocked (s : State) (core : Nat) (me : LockOwner) (pasid kind va size : Nat) : Bool :=
  match Tab.find s.cores core with
  | some c => c.locks.any fun p => p.2.hits me pasid kind va size
  | none => false

/-- The management register that a shard's address names, where the configuration record maps them (R388; log 106). -/
def State.regWindow (s : State) (a : Agent) (va : Word) : Option Loc :=
  match a with
  | .core i =>
    if i < 40 && shardHalf va then
      (Config.registersAt s.bootRecord).bind fun b => if (va - b).toNat < 0x30 then some (.reg (0x3000 + (va - b).toNat)) else none
    else none
  | .gang .. => none
/-- The checks of Table 9.1 for a data access of an agent (R156, R197); of a 16-byte access that performs as two, the range locks of the
lower half (R198). -/
def State.check (s : State) (a : Agent) (kind size : Nat) (va : Word) : Chk :=
  if va.toNat % size ≠ 0 then .fault 4
  else if !canonical va then .fault 8
  else
    let c := s.ctxOf a
    let ap := inThreadAp va.toNat || inServiceAp va.toNat
    let loc : Chk :=
      if ap then
        let l := match a with
          | .gang w _ => if inThreadAp va.toNat then (s.wg w).bind fun g => s.homeWindow w g va.toNat else none
          | .core i => if inServiceAp va.toNat && decide (i < 40) then s.serviceWindow (some i) va.toNat else none
        match l with
        | some l => .ok l
        | none => .fault 8
      else match s.regWindow a va with
        | some l => .ok l
        | none => match s.translate c kind va with
          | .ok key p => .ok (.mem key p)
          | .miss => .miss
          | .fault f => .fault f
    match loc, a with
    | .ok l, .gang w i =>
      match s.wg w with
      | some g =>
        let part := match l with
          | .mem _ p => if p ≠ 0 && size = 16 then 8 else size
          | _ => size
        if s.rangeLocked g.core (.gang w i) c.pasid kind va.toNat part then .fault 9 else .ok l
      | none => .ok l
    | r, _ => r

/-- Reads a byte where an access landed, without a lease. -/
def State.locByte (s : State) : Loc → Byte
  | .scratch w o => match s.wg w with
    | some g => Mem.byte g.scratch o
    | none => 0
  | .acc w o => match s.wg w with
    | some g => Mem.byte g.acc o
    | none => 0
  | .mem key _ => s.homeByte key
  | .reg o => (s.registerRead (o / 8 * 8)).extractLsb' (8 * (o % 8)) 8
/-- The place `n` bytes on. -/
def Loc.plus (l : Loc) (n : Nat) : Loc :=
  match l with
  | .scratch w o => .scratch w (o + n)
  | .acc w o => .acc w (o + n)
  | .mem k p => .mem (k + n) p
  | .reg o => .reg (o + n)
/-- Reads `n` bytes where an access landed. -/
def State.locRead (s : State) (l : Loc) (n : Nat) : List Byte := (List.range n).map fun i => s.locByte (l.plus i)
/-- Changes a workgroup. -/
def State.updWg (s : State) (w : Nat) (f : Workgroup → Workgroup) : State := { s with wgs := Tab.upd s.wgs w f }
/-! ### The part's own accesses -/

/-- Reads `n` bytes at a virtual address for the part; where a page or line fails, the fault code and address of the
first byte that does. -/
def State.partRead (s : State) (c : Ctx) (va : Word) : Nat → Except (Nat × Word) (List Byte)
  | 0 => .ok []
  | n + 1 =>
    match s.xlateNow c 0 va with
    | .error f => .error (f, va)
    | .ok (k, _) =>
      if s.poisoned k then .error (0x13, va)
      else match State.partRead s c (va + 1) n with
        | .error f => .error f
        | .ok bs => .ok (s.homeByte k :: bs)

/-- The keys of `n` consecutive bytes that the part writes, or the first failure. -/
def State.partKeys (s : State) (c : Ctx) (va : Word) : Nat → Except (Nat × Word) (List Nat)
  | 0 => .ok []
  | n + 1 =>
    match s.xlateNow c 1 va with
    | .error f => .error (f, va)
    | .ok (k, _) =>
      match State.partKeys s c (va + 1) n with
      | .error f => .error f
      | .ok ks => .ok (k :: ks)

/-- Bytes at keys, as runs of consecutive keys. -/
def runsOf : List (Nat × Byte) → List (Nat × List Byte)
  | [] => []
  | (k, b) :: t =>
    match runsOf t with
    | (l, bs) :: r => if l = k + 1 then (k, b :: bs) :: r else (k, [b]) :: (l, bs) :: r
    | [] => [(k, [b])]
/-- Writes bytes at a virtual address for a source; nothing is written where the address of any byte faults. -/
def State.writeAt (s : State) (src : Source) (scope : Option Nat) (c : Ctx) (va : Word) (bs : List Byte) : Except (Nat × Word) State :=
  match s.partKeys c va bs.length with
  | .error f => .error f
  | .ok ks => .ok ((runsOf (ks.zip bs)).foldl (fun s p => s.write src scope p.1 p.2) s)
/-- Writes bytes at a virtual address for the part. -/
def State.partWrite (s : State) (c : Ctx) (va : Word) (bs : List Byte) : Except (Nat × Word) State := s.writeAt .part none c va bs

/-- A fault of the part's own access to a wired structure: the tenant is to be killed (R340). -/
def State.wiredFault (s : State) (tenant : Nat) (addr : Word) : State :=
  { s with tenants := Tab.upd s.tenants tenant fun t => if t.killed.isSome then t else { t with killed := some addr } }
/-- The save area of a workgroup: its scratchpad share, behind it the accumulator share (R293). -/
def Launch.saveAt (x : Launch) (wgid : Nat) : Word :=
  BitVec.ofNat 64 (x.field 0x30 8 + wgid * (roundUp x.scratch 65536 + roundUp x.accShare 65536))
/-- Writes bytes to a scratchpad; those of a workgroup that is not resident to its save area too (R158, R318). -/
def State.scratchWrite (s : State) (w o : Nat) (bs : List Byte) : State :=
  let s := s.updWg w fun g => { g with scratch := Mem.storeAll g.scratch o bs }
  match s.wg w with
  | none => s
  | some g =>
    if g.place.isSome then s
    else match s.launchOf g with
      | none => s
      | some x => match s.partWrite (tenantCtx x.pasid) (x.saveAt g.wgid + BitVec.ofNat 64 o) bs with
        | .ok s => s
        | .error e => s.wiredFault x.tenant e.2
/-- Writes bytes where they land at once: scratchpad, accumulator store or home. -/
def State.locWrite (s : State) (l : Loc) (bs : List Byte) : State :=
  match l with
  | .scratch w o => s.scratchWrite w o bs
  | .acc w o => s.updWg w fun g => { g with acc := Mem.storeAll g.acc o bs }
  | .mem k _ => s.homeStore k bs
  | .reg o => s.registerBytes o bs

/-- Reads a number of `n` bytes for the part. -/
def State.partNat (s : State) (c : Ctx) (va : Word) (n : Nat) : Except (Nat × Word) Nat :=
  match s.partRead c va n with
  | .ok bs => .ok (leNat bs)
  | .error f => .error f

end Sys2Proof.Machine
end

