-- ==== Sys2Proof/Machine/Ops.lean ====
section
/-! DEFINITION. The named operations over registers, issue, faults, rings and messages that every meaning uses (R57 to
R69, R75 to R79, R85 to R88, R92, R260, R265 to R267, R332 to R334, R341, R355, R357, R422). -/

namespace Sys2Proof.Machine

/-- A value that the spec leaves unstated, fresh at each use (log 4). -/
def State.unstated (s : State) : Word × State := (Config.freeWord s.free, { s with free := s.free + 1 })

/-! ### Registers of a gang -/

/-- Image slot of lane register n for a declared count (R75); a service core has no image and count 0. -/
def slotOf (count n : Nat) : Nat := if n < 60 then n else count + n - 64
/-- Image line of lane register n of a lane (R75, R76). -/
def lineOfV (count lane n : Nat) : Nat := 8 + 2 * slotOf count n + lane / 16
/-- Image line of uniform register n (R75, R76). -/
def lineOfS (n : Nat) : Nat := 4 + n / 16

/-- Lane register n of a lane. -/
def Gang.vreg (g : Gang) (lane n : Nat) : Word := Tab.at g.v (64 * lane + n) 0
/-- Uniform register n; s0 reads as 0 (R62). -/
def Gang.sreg (g : Gang) (n : Nat) : Word := if n = 0 then 0 else Tab.at g.s n 0
/-- Guards of a lane as `movgv` reads them; bit 0 is 1 (R64). -/
def Gang.guards (g : Gang) (lane : Nat) : BitVec 8 := Tab.at g.g lane 0 ||| 1
/-- Guard n of a lane. -/
def Gang.guard (g : Gang) (lane n : Nat) : Bool := (g.guards lane).getLsbD n
/-- pc of a lane. -/
def Gang.pcOf (g : Gang) (lane : Nat) : Word := Tab.at g.pc lane 0
/-- `FCR` of a lane. -/
def Gang.fcrOf (g : Gang) (lane : Nat) : BitVec 32 := Tab.at g.fcr lane 0
/-- Rounding mode of a lane (Table 3.5). -/
def Gang.rm (g : Gang) (lane : Nat) : Nat := bitsOf (g.fcrOf lane).toNat 9 8
/-- What a lane waits for. -/
def Gang.stat (g : Gang) (lane : Nat) : Status := Tab.at g.status lane .ready

/-- Marks an image line dirty; a service core has no image. -/
def Gang.mark (g : Gang) (line : Nat) : Gang :=
  if g.count = 0 || g.dirty.contains line then g else { g with dirty := line :: g.dirty }
/-- The newest value of an image line is the gang's own: the register cache holds it, or it is still owed to the image. -/
def Gang.holds (g : Gang) (line : Nat) : Bool := g.count = 0 || (Tab.find g.lines line).isSome || g.dirty.contains line
/-- Writes a lane register. -/
def Gang.setV (g : Gang) (lane n : Nat) (x : Word) : Gang :=
  { g with v := Tab.set 0 g.v (64 * lane + n) x }.mark (lineOfV g.count lane n)
/-- Writes a uniform register; a write of s0 is discarded (R62). -/
def Gang.setS (g : Gang) (n : Nat) (x : Word) : Gang :=
  if n = 0 then g else { g with s := Tab.set 0 g.s n x }.mark (lineOfS n)
/-- Writes the guards of a lane; g0 stays 1 (R64). -/
def Gang.setGuards (g : Gang) (lane : Nat) (x : BitVec 8) : Gang := { g with g := Tab.set 0 g.g lane (x &&& 0xFE) }
/-- Writes one guard of a lane; a write of g0 is discarded (R64). -/
def Gang.setGuard (g : Gang) (lane n : Nat) (b : Bool) : Gang :=
  g.setGuards lane (if b then g.guards lane ||| (1#8 <<< n) else g.guards lane &&& ~~~(1#8 <<< n))
/-- Sets flags in a lane's `FCR` (R38, R68). -/
def Gang.setFlags (g : Gang) (lane : Nat) (f : BitVec 5) : Gang :=
  { g with fcr := Tab.set 0 g.fcr lane (g.fcrOf lane ||| f.setWidth 32) }
/-- Replaces `FCR` whole; reserved bits stay 0 (R68). -/
def Gang.setFcr (g : Gang) (lane : Nat) (x : Word) : Gang := { g with fcr := Tab.set 0 g.fcr lane (x.setWidth 32 &&& 0x31F) }
/-- Writes a pc. A bad target that a `resume` gives stands here until its fetch faults (R65, R132, R334). -/
def Gang.setPc (g : Gang) (lane : Nat) (x : Word) : Gang := { g with pc := Tab.set 0 g.pc lane x }
/-- Sets what a lane waits for. -/
def Gang.setStat (g : Gang) (lane : Nat) (x : Status) : Gang := { g with status := Tab.set .ready g.status lane x }
/-- Applies a change in each lane of a mask. -/
def Gang.each (g : Gang) (m : LaneMask) (f : Gang → Nat → Gang) : Gang := (lanesOf m).foldl f g

/-- A lane that may issue. -/
def Gang.isReady (g : Gang) (lane : Nat) : Bool := g.live.getLsbD lane && g.stat lane == .ready
/-- Some lane may issue. -/
def Gang.anyReady (g : Gang) : Bool := (List.range 32).any g.isReady
/-- Some lane may issue, or has ended a wait (R22, R27; log 110). -/
def Gang.runnable (g : Gang) : Bool := g.anyReady || g.able

/-! ### Windows (R85 to R88) -/

/-- Counts one executed instruction against the open windows of a lane. -/
def tick (lane : Nat) (ws : List Window) : List Window :=
  ws.filterMap fun w => if w.lane = lane then (if w.left ≤ 1 then none else some { w with left := w.left - 1 }) else some w
/-- Completes an instruction in a lane: it goes on at `next`, may issue, and the instruction counts in its windows. -/
def Gang.finish (g : Gang) (lane : Nat) (next : Word) : Gang :=
  { (g.setPc lane next).setStat lane .ready with windows := tick lane g.windows }
/-- Completes an instruction in every lane of a mask, at the next pc. -/
def Gang.finishAll (g : Gang) (m : LaneMask) : Gang := g.each m fun g l => g.finish l (g.pcOf l + 4)
/-- Opens the window of a lookahead count in every lane of a mask. -/
def Gang.openAll (g : Gang) (m : LaneMask) (n : Nat) (d : Dest) : Gang :=
  if n = 0 then g else { g with windows := g.windows ++ (lanesOf m).map fun l => ⟨l, n, d⟩ }

/-- What an instruction names, and where it may run (Table 4.6, R59, R85). `allow`: 0 anywhere, 1 compute cores only,
2 service and command-complex cores only. `tiles`: each lane with its range of accumulator tiles (R88). -/
structure Use where
  allow : Nat
  lanes : List Nat
  unis : List Nat
  guards : List Nat
  mem : Bool
  fcr : Bool
  tiles : List (Nat × Nat × Nat)
  deriving DecidableEq, Repr, Inhabited

/-- Names lane registers and uniform registers only. -/
def Use.regs (lanes unis : List Nat) : Use := ⟨0, lanes, unis, [], false, false, []⟩

/-- Whether two lists of registers share one. -/
def meets (a b : List Nat) : Bool := a.any b.contains

/-- Whether an instruction names what a window protects (R85, R88). -/
def Use.names (u : Use) (lane : Nat) : Dest → Bool
  | .lanes regs guard => meets regs u.lanes || (guard.map u.guards.contains).getD false
  | .uniforms regs => meets regs u.unis
  | .tiles a b => u.tiles.any fun t => t.1 = lane && decide (t.2.1 ≤ b) && decide (a ≤ t.2.2)

/-- Lanes of a mask in which the instruction lies in a window and names its destination. -/
def Gang.inWindow (g : Gang) (u : Use) (m : LaneMask) : LaneMask :=
  maskOf ((lanesOf m).filter fun l => g.windows.any fun w => w.lane = l && u.names l w.dest)

/-- A lane has the window of a destination in flight open. -/
def Gang.windowOf (g : Gang) (lane : Nat) (f : Flight) : Bool :=
  g.windows.any fun w => w.lane = lane && (w.dest = .lanes f.regs none || w.dest = .uniforms f.regs)
/-- The scoreboard holds the instruction: it names a destination in flight, accesses memory behind an acquire load, touches `FCR`
behind floating-point flags in flight, or stands behind an access of a poisoned line, outside its window (R68, R85, R104, R182, R421). -/
def Gang.blocked (g : Gang) (u : Use) (m : LaneMask) : Bool :=
  g.flights.any fun f =>
    f.poisoned && (lanesOf (m &&& f.lanes)).any (fun l => !g.windowOf l f) ||
    if f.lane = 32 then meets f.regs u.unis || (u.mem && f.acquire && f.vals.isNone && f.lanes &&& m != 0)
    else m.getLsbD f.lane &&
      (meets f.regs u.lanes || (u.mem && f.acquire && f.vals.isNone) || (u.fcr && f.flags != 0))

/-- The image lines that an issue needs (R76). -/
def Gang.needs (g : Gang) (u : Use) (m : LaneMask) : List Nat :=
  if g.count = 0 then []
  else (u.unis.filter (· ≠ 0)).map lineOfS ++ (lanesOf m).flatMap fun l => u.lanes.map (lineOfV g.count l)

/-- A register that the declared count does not admit (R59). -/
def Gang.available (g : Gang) (n : Nat) : Bool := g.count = 0 || decide (60 ≤ n) || decide (n + 5 ≤ g.count)

/-! ### Agents -/

/-- The gang of an agent; a service or command-complex core is a gang of one lane. -/
def State.gang (s : State) : Agent → Option Gang
  | .gang w i => (s.wg w).bind fun g => Tab.find g.gangs i
  | .core i => (s.scalar i).map (·.ctx)
/-- Replaces the gang of an agent. -/
def State.setGang (s : State) (a : Agent) (g : Gang) : State :=
  match a with
  | .gang w i => { s with wgs := Tab.upd s.wgs w fun x => { x with gangs := Tab.upd x.gangs i fun _ => g } }
  | .core i => { s with scalars := Tab.upd s.scalars i fun x => { x with ctx := g } }
/-- Changes the gang of an agent. -/
def State.updGang (s : State) (a : Agent) (f : Gang → Gang) : State :=
  match s.gang a with
  | some g => s.setGang a (f g)
  | none => s
/-- Changes a core of the service and command-complex kind. -/
def State.updScalar (s : State) (i : Nat) (f : Scalar → Scalar) : State := { s with scalars := Tab.upd s.scalars i f }
/-- Changes a launch. -/
def State.updLaunch (s : State) (l : Nat) (f : Launch → Launch) : State := { s with launches := Tab.upd s.launches l f }
/-- The launch of an agent that is a gang. -/
def State.launchAt (s : State) : Agent → Option Launch
  | .gang w _ => (s.wg w).bind s.launchOf
  | .core _ => none

/-- The word that the issuing group executes, as its lowest-numbered lane holds it (R21). -/
def Gang.wordAt (g : Gang) (lane : Nat) : Option (BitVec 32) :=
  match Tab.find g.bufs lane with
  | some b =>
    let o := (g.pcOf lane).toNat - b.base.toNat
    if b.base.toNat ≤ (g.pcOf lane).toNat && (g.pcOf lane).toNat % 4 = 0 then b.words[o / 4]? else none
  | none => none
/-- The word at issue, for fault records (Table 15.2). -/
def State.curWord (s : State) : Word :=
  match s.gang s.cur with
  | some g => (((lanesOf s.mask).head?.bind g.wordAt).getD 0).setWidth 64
  | none => 0

/-! ### Slices and charges (R258 to R261, R322) -/

/-- The slice with a handle. -/
def State.slice (s : State) (h : Word) : Option Slice := s.slices.find? fun x => x.handle == h
/-- Changes the slice with a handle. -/
def State.updSlice (s : State) (h : Word) (f : Slice → Slice) : State :=
  { s with slices := s.slices.map fun x => if x.handle == h then f x else x }
/-- A launch of another root carries on work of a slice that is not here. -/
def State.foreignSlice (s : State) (h : Word) : Option Launch :=
  if (s.slice h).isSome then none
  else (s.launches.find? fun p => p.2.pod && p.2.root ≠ s.chip && p.2.slice == h && !p.2.done).map Prod.snd
/-- Charges units to a slice (Table 11.9); those of a slice of another chip are owed to it (R398). -/
def State.charge (s : State) (h : Word) (n : Nat) : State :=
  if (s.foreignSlice h).isSome then
    { s with owedUnits := (h, ((s.owedUnits.find? fun p => p.1 == h).map Prod.snd).getD 0 + n) :: s.owedUnits.filter fun p => p.1 != h }
  else s.updSlice h fun x => { x with budget := x.budget - n, charged := x.charged + n }

/-! ### The pod (R373 to R376) -/

/-- The chips that the ports of a chip reach, ascending. -/
def beside (m : List PodChip) (c : Nat) : List Nat :=
  let ns := ((m.find? fun x => x.index = c).map fun x => x.links.map Prod.snd).getD []
  if ns.isEmpty then [] else (List.range 1024).filter ns.contains
/-- Grows a tree breadth first: each chip reached, in order, with its parent, and the chips whose children are still to be added. The first
argument bounds them. -/
def growTree (m : List PodChip) : Nat → List (Nat × Nat) → List Nat → List (Nat × Nat)
  | 0, t, _ => t
  | _, t, [] => t
  | n + 1, t, c :: cs =>
    let kids := (beside m c).filter fun k => !t.any fun p => p.1 = k
    growTree m n (t ++ kids.map fun k => (k, c)) (cs ++ kids)
/-- The spanning tree from a chip, each child with its parent (R375). -/
def spanningTree (m : List PodChip) (root : Nat) : List (Nat × Nat) := growTree m 1024 [(root, root)] [root]
/-- How far a chip lies from the root of a tree; the first argument bounds it. -/
def depthIn (t : List (Nat × Nat)) : Nat → Nat → Nat
  | 0, _ => 0
  | n + 1, c => match t.find? fun p => p.1 = c with
    | some p => if p.2 = c then 0 else 1 + depthIn t n p.2
    | none => 2048
/-- The children of this chip in the spanning tree of a root. -/
def State.treeKids (s : State) (root : Nat) : List Nat :=
  ((spanningTree s.podMap root).filter fun p => p.2 = s.chip && p.1 ≠ root).map Prod.fst
/-- The port of this chip on the route to another: on a shortest path, the lowest (R373). -/
def State.routePort (s : State) (chip : Nat) : Option Nat :=
  let t := spanningTree s.podMap chip
  let links := ((s.podMap.find? fun x => x.index = s.chip).map (·.links)).getD []
  (List.range 18).find? fun p => !Tab.at s.ports p false && links.any fun l => l.1 = p && depthIn t 1024 l.2 + 1 = depthIn t 1024 s.chip
/-- This package carries pod traffic: the pod has formed, and its PTB is in line with the master's (R374). -/
def State.podUp (s : State) : Bool := s.podFormed && decide (s.slow = 0)
/-- Sends a message over the fabric, or holds it until the package carries traffic (R374). -/
def State.podPost (s : State) (o : Output) : State :=
  if s.podUp && s.treeHeld.isEmpty then { s with out := s.out ++ [o] } else { s with treeHeld := s.treeHeld ++ [o] }
/-- Messages that were held go out once the package carries traffic. -/
def State.podFlush (s : State) : State := if s.podUp then { s with out := s.out ++ s.treeHeld, treeHeld := [] } else s
/-- Sends a message for a slice to chips: the fabric charges each 1 KiB begun to each (R374, Table 11.9; log 101). -/
def State.treeSend (s : State) (slice : Word) (kind l : Nat) (chips : List Nat) (body : List Byte) : State :=
  if chips.isEmpty then s else (s.podPost (.tree kind l chips body)).charge slice (chips.length * max 1 ((body.length + 1023) / 1024))
/-- This chip, a root, sends a message down its spanning tree, which carries it over one edge to each chip of the pod, and numbers it (R375,
R376; logs 31, 101). -/
def State.treeDown (s : State) (slice : Word) (kind l : Nat) (body : List Byte) : State :=
  let n := s.treeSent
  let kids := s.treeKids s.chip
  let t := { s with treeSent := n + 1 }
  (if kids.isEmpty then t else t.podPost (.tree kind l kids (leBytes 8 n ++ body))).charge slice (s.podChips.length - 1)
/-- A message down the tree of another chip comes in its turn: a root's messages reach every chip in the order sent (R376). -/
def State.hears (s : State) (hop : Nat × Nat) : Bool :=
  s.podUp && hop.1 ≠ s.chip && s.podChips.contains hop.1 && decide (Tab.at s.treeSeen hop.1 0 = hop.2)
/-- Takes such a message, and passes it on to this chip's children in the tree (R375). -/
def State.relay (s : State) (hop : Nat × Nat) (kind l : Nat) (body : List Byte) : State :=
  let t := { s with treeSeen := Tab.put s.treeSeen hop.1 (hop.2 + 1) }
  let kids := t.treeKids hop.1
  if kids.isEmpty then t else t.podPost (.tree kind l kids (leBytes 8 hop.2 ++ body))
/-- Asks other chips for lanes of an agent (R273, R275 to R277, R377; log 31). -/
def State.askFor (s : State) (a : Agent) (m : LaneMask) (pc slice : Word) (kind l serial : Nat) (chips : List Nat) (body : List Byte) (what : Asked) : State :=
  let tag := s.serialNo
  ({ s with serialNo := tag + 1, asks := s.asks ++ [⟨tag, serial, a, m, pc, what, none⟩] } : State).treeSend slice kind l chips (leBytes 8 tag ++ body)
/-- An answer to another chip (log 31). -/
def State.podReply (s : State) (slice : Word) (chip tag : Nat) (words : List Word) : State :=
  s.treeSend slice 15 tag [chip] (words.flatMap fun w => leBytes 8 w.toNat)
/-- The slice whose work an agent does: a gang's launch's, or the one a service core is charging (R127, R354). -/
def State.sliceOf (s : State) (a : Agent) : Word :=
  match a with
  | .gang .. => ((s.launchAt a).map (·.slice)).getD 0
  | .core i => ((s.scalar i).bind (·.charging)).getD 0
/-- The deadline that work of a slice carries: best-effort work 2^64 - 1; less `DLADJ`, stopping at 0 (R258; log 30). -/
def State.deadlineOf (s : State) (h : Word) (dladj : Nat) : Nat :=
  match s.slice h with
  | some x => (if x.be then 2 ^ 64 - 1 else x.deadline) - dladj
  | none => Config.foreignDeadline h % 2 ^ 64 - dladj
/-- A tenant's work moves n bytes of this package's HBM, at a key (R263; log 100). -/
def State.moves (s : State) (tenant : Option Nat) (key n : Nat) : State :=
  match tenant with
  | some t =>
    if decide (key < hostKey) && !s.remote key then { s with tenants := Tab.upd s.tenants t fun x => { x with moved := x.moved + n } } else s
  | none => s
/-- A slice stopped by its budget (R261). -/
def State.sliceStopped (s : State) (h : Word) : Bool := ((s.slice h).map (·.stopped)).getD false
/-- Adds to a performance counter of a workgroup (Table 14.6). -/
def Workgroup.count (w : Workgroup) (sel n : Nat) : Workgroup := { w with perf := Tab.set 0 w.perf sel (Tab.at w.perf sel 0 + n) }

/-- Counts an issue of a gang: 1 unit to the slice, 1 instruction, and the gang is served (R22, R260, R327). A service core is charged
for its cycles instead (Table 11.9). -/
def State.countIssue (s : State) (a : Agent) : State :=
  match a with
  | .gang w _ =>
    let s := s.charge (s.sliceOf a) 1
    let s := s.updWg w fun x => x.count 32 1
    s.updGang a fun g => { g with since := s.ptb, aged := false, yielded := false, served := s.serialNo }
  | .core _ => s
/-- The units that n cycles of a service core charge to a slice, 1 for each 2, and whether a cycle is left over (R354). -/
def Scalar.cycles (c : Scalar) (n : Nat) : Nat × Bool :=
  let m := n + (if c.half then 1 else 0)
  (m / 2, m % 2 = 1)
/-- n cycles of every service and command-complex core pass: a core that is charging a slice charges it (R354). -/
def State.chargeCycles (s : State) (n : Nat) : State :=
  let s := s.scalars.foldl (fun s p => match p.2.charging with
    | some h => if p.2.running then s.charge h (p.2.cycles n).1 else s
    | none => s) s
  { s with scalars := s.scalars.map fun p =>
      if p.2.running && p.2.charging.isSome then (p.1, { p.2 with half := (p.2.cycles n).2 }) else p }

/-! ### Handles (R270 Table 12.1) -/

/-- A gang, workgroup, call or fault handle (kinds 3 to 6). -/
def gangHandle (w : Workgroup) (gang kind : Nat) : Word :=
  BitVec.ofNat 64 (w.serial * 2 ^ 24 + gang * 2 ^ 19 + w.homeSlot * 2 ^ 17 + w.home * 2 ^ 8 + kind)
/-- A launch or graph handle (kinds 1 and 2). -/
def tableHandle (serial index kind : Nat) : Word := BitVec.ofNat 64 (serial * 2 ^ 24 + index % 2 ^ 18 * 64 + kind)
/-- All ones. -/
def ones : Word := BitVec.allOnes 64

/-- The workgroup and gang index that a handle of a kind names; none when it is stale (R270). -/
def State.byHandle (s : State) (h : Word) (kind : Nat) : Option (Nat × Workgroup × Nat) :=
  let x := h.toNat
  if bitsOf x 5 0 = kind && bitsOf x 7 6 = 0 then
    match s.wgs.find? fun p => p.2.serial % 2 ^ 40 = bitsOf x 63 24 && p.2.homeSlot = bitsOf x 18 17 && p.2.home = bitsOf x 16 8 with
    | some (k, w) => if kind = 4 && bitsOf x 23 19 ≠ 0 then none else some (k, w, bitsOf x 23 19)
    | none => none
  else none
/-- The gang that a gang, call or fault handle names; none when it has ended. -/
def State.gangByHandle (s : State) (h : Word) (kind : Nat) : Option (Nat × Workgroup × Nat × Gang) :=
  (s.byHandle h kind).bind fun p =>
    match Tab.find p.2.1.gangs p.2.2 with
    | some g => if g.ended then none else some (p.1, p.2.1, p.2.2, g)
    | none => none

/-! ### Messages (R267, R357) -/

/-- Messages of the channel from core index `i` to core index `j`, oldest first. -/
def State.channel (s : State) (i j : Nat) : List (List Byte) := Tab.at s.channels (64 * i + j) []
/-- Replaces a channel. -/
def State.setChannel (s : State) (i j : Nat) (ms : List (List Byte)) : State :=
  { s with channels := Tab.set [] s.channels (64 * i + j) ms }
/-- Places a message in a channel with room, or holds it behind those already held for it (R357). -/
def State.send (s : State) (i j : Nat) (m : List Byte) : State :=
  if (s.channel i j).length < 8 && !s.heldMsgs.any (fun h => h.1 = i && h.2.1 = j) then s.setChannel i j (s.channel i j ++ [m])
  else { s with heldMsgs := s.heldMsgs ++ [(i, j, m)] }
/-- Core index of core k of the active complex (R283). -/
def State.complexCore (s : State) (k : Nat) : Nat := (if s.activeB then 44 else 40) + k
/-- The service cores that run. -/
def State.runningShards (s : State) : List Nat := (s.scalars.filter fun p => p.1 < 40 && p.2.running).map Prod.fst
/-- Shard 0: the present service core of lowest index (R356). -/
def State.shard0 (s : State) : Option Nat := (List.range 40).find? s.servicePresent

/-! ### Traps of a service core (R341, R355) -/

/-- The context of a service core that has just been started (R355). -/
def freshCtx (pc v63 s1 s2 s3 : Word) (now : Nat) : Gang :=
  { count := 0, live := 1, v := Tab.set 0 [] 63 v63
    s := Tab.set 0 (Tab.set 0 (Tab.set 0 [] 1 s1) 2 s2) 3 s3
    g := [], pc := Tab.set 0 [] 0 pc, fcr := [], gstat := 0, status := [], callSlot := none, callLanes := 0
    callDone := 0, faultLanes := 0, lines := [], dirty := [], flights := [], windows := [], bufs := [], descs := [], bars := [], came := []
    horizon := [], wct := [], seen := [], watched := [], slot := true, lost := false, since := now, aged := false, yielded := false, served := 0, able := false, lastTurn := none
    lastIssue := none, ended := false, callCluster := 0, callPopped := false, faultCluster := 0 }
/-- `KSHARD` of a core index (Table 3.10). -/
def kshard (i : Nat) : Word := if i < 40 then BitVec.ofNat 64 ((i / 5 * 8 + i % 5) * 8) else BitVec.ofNat 64 (0x8000 + (i - 40))
/-- A 64-bit field of a record. -/
def recWord (r : List Byte) (o : Nat) : Word := BitVec.ofNat 64 (recAt r o 8)
/-- A service core started from a `SHARD_START` message, with s3 (R355 Table 16.3). -/
def startedFrom (i : Nat) (m : List Byte) (s3 : Word) (c : Scalar) (now : Nat) : Scalar :=
  { c with
    ctx := freshCtx (recWord m 8) (recWord m 0x20) (recWord m 0x28) (recWord m 0x30) s3 now
    k := Tab.set 0 (Tab.set 0 (Tab.set 0 [] 0 (kshard i)) 9 (BitVec.ofNat 64 (recAt m 0x18 4 % 2 ^ 20))) 10 (recWord m 0x10 &&& 0xF0000FFFFFFFFFFF)
    running := true, handling := false, idle := false, charging := none, half := false, start := some m }

/-- A machine check of core index i: it stops, and the active complex starts a service core again from its last
`SHARD_START` with s3 = 1; messages waiting in its channels are discarded, those held for it are not, and every other running shard is told
(R341, R355, R357). Of a complex core, the complex is checked at the end of the step (R371). -/
def State.machineCheck (s : State) (i : Nat) : State :=
  match s.scalar i with
  | none => s
  | some c =>
    let s := s.updScalar i fun c => { c with running := false, measured := false }
    if 40 ≤ i then { s with checks := i :: s.checks }
    else
      let s := { s with channels := s.channels.filter (fun p => p.1 % 64 ≠ i) }
      let s := match c.start with
        | some m => s.updScalar i fun c => startedFrom i m 1 c s.ptb
        | none => s
      (s.runningShards.filter (· ≠ i)).foldl (fun s j =>
        s.send (s.complexCore 0) j (mkRecord 64 [(0, 2, 2), (2, 1, i)])) s

/-- Takes a trap or an accepted interrupt on a service or command-complex core: the pc is saved in `KEPC`, the cause and
value are set, and the core goes on at its handler, accepting no interrupt until `kret`; inside the handler it is a
machine check (R341). -/
def State.trap (s : State) (i : Nat) (cause : Word) (epc tval : Word) : State :=
  match s.scalar i with
  | none => s
  | some c =>
    if c.handling then s.machineCheck i
    else s.updScalar i fun c =>
      { c with
        k := Tab.set 0 (Tab.set 0 (Tab.set 0 c.k 1 cause) 2 epc) 3 tval
        handling := true, idle := false
        ctx := (c.ctx.setPc 0 0xFFFFFF0000000000).setStat 0 .ready }

/-! ### Fault and call rings (R265, R266, R422) -/

/-- The key of a byte of a ring of core index `i`. -/
def State.ringKey (s : State) (i : Nat) (va : Word) : Option Nat :=
  match s.xlateNow (s.ctxOf (.core i)) 1 va with
  | .ok (k, _) => if s.poisoned k then none else some k
  | .error _ => none
/-- The slots of a ring whose valid byte is 0. A ring that cannot be read has none. -/
def State.freeSlots (s : State) (i : Nat) (base : Word) (size n : Nat) : List Nat :=
  let seen := s.ownSight
  (List.range n).filter fun j =>
    match s.ringKey i (base + BitVec.ofNat 64 (size * j + 0x3F)) with
    | some k => seen.homeByte k == 0
    | none => false
/-- The one of some numbers that is taken at a PTB (log 58). -/
def pickOf (now : Nat) (js : List Nat) : Option Nat := js[Config.freePick now js % js.length]?
/-- The free slot of a ring that the next record takes. -/
def State.freeSlot (s : State) (i : Nat) (base : Word) (size n : Nat) : Option Nat := pickOf s.ptb (s.freeSlots i base size n)
/-- Base of the ring of a cluster: `KFRING` (4 KiB aligned) or `KCRING` (512 KiB aligned) (R74). -/
def Scalar.ring (c : Scalar) (call : Bool) : Word :=
  if call then c.kreg 8 &&& ~~~0x7FFFF#64 else c.kreg 7 &&& ~~~0xFFF#64
/-- The tenant of a slice handle (R254). -/
def tenantOfSlice (h : Word) : Nat := bitsOf h.toNat 15 10
/-- Writes bytes at consecutive addresses of a ring for work of a slice. A fault there is `WIREDFAULT` of the slice's tenant (R333, R340; log
23). -/
def State.ringWrite (s : State) (i : Nat) (slice va : Word) (bs : List Byte) : State :=
  match s.partWrite (s.ctxOf (.core i)) va bs with
  | .ok s => s
  | .error e => s.wiredFault (tenantOfSlice slice) e.2
/-- Writes a record to a slot of a ring for work of a slice, whose valid byte is 0, and then its valid byte with release at cluster scope: not
before the rest is visible (R183, R184, R265, R266). A fault there is `WIREDFAULT` of the slice's tenant (R333, R340; log 23). -/
def State.recordWrite (s : State) (i : Nat) (slice va : Word) (r : List Byte) : State :=
  match s.partKeys (s.ctxOf (.core i)) va r.length with
  | .error e => s.wiredFault (tenantOfSlice slice) e.2
  | .ok ks =>
    let s := (runsOf (ks.zip (r.set 0x3F 0))).foldl (fun s p => s.write .part none p.1 p.2) s
    let time := (ks.map fun k => (s.home (k / 128)).stamp).foldl max 0
    match ks[0x3F]? with
    | some k => s.releaseStore 2 k (r.drop 0x3F |>.take 1) time
    | none => s
/-- The slot that a record of a cluster can be written to now: the service core runs, and its ring register is not 0
(R422). -/
def State.ringRoom (s : State) (cluster : Nat) (call : Bool) : Option (Word × Nat) :=
  match s.scalar cluster with
  | some c =>
    let base := c.ring call
    if !c.running || base == 0 then none
    else (s.freeSlot cluster base (if call then 2048 else 64) (if call then 256 else 64)).map fun j => (base, j)
  | none => none
/-- The ring of a cluster that runs has no free slot, and one that cannot be read: its address. -/
def State.ringBroken (s : State) (cluster : Nat) (call : Bool) : Option Word :=
  match s.scalar cluster with
  | some c =>
    let base := c.ring call
    let slots := (List.range (if call then 256 else 64)).map fun j => base + BitVec.ofNat 64 ((if call then 2048 else 64) * j + 0x3F)
    if !c.running || base == 0 || (s.ringRoom cluster call).isSome then none else slots.find? fun a => (s.ringKey cluster a).isNone
  | none => none
/-- Records of a cluster that the part holds, oldest first. -/
def State.held (s : State) (cluster : Nat) : List (List Byte) := Tab.at s.heldFaults cluster []
/-- Writes a fault record to a cluster's ring, or holds it behind those already held; a ring that cannot be read is `WIREDFAULT` (R266,
R333, R422). -/
def State.postFault (s : State) (cluster : Nat) (r : List Byte) : State :=
  match s.held cluster, s.ringRoom cluster false, s.ringBroken cluster false with
  | [], some (base, j), _ => s.recordWrite cluster (recWord r 0x28) (base + BitVec.ofNat 64 (64 * j)) r
  | [], none, some a => s.wiredFault (tenantOfSlice (recWord r 0x28)) a
  | hs, _, _ => { s with heldFaults := Tab.put s.heldFaults cluster (hs ++ [r]) }

/-! ### Taking a fault (R332, R333) -/

/-- A fault of a thread: code, faulting address where the code has one, the values of record offsets 0x20, 0x16, 0x30
and 0x38, and the pc (Table 15.2). -/
structure Trap where
  code : Nat
  addr : Option Word
  val : Word
  aux : Nat
  copy : Word
  tag : Nat
  pc : Word
  deriving DecidableEq, Repr, Inhabited

/-- A fault with no address; the record carries the instruction word. -/
def State.wordTrap (s : State) (code : Nat) (pc : Word) : Trap := ⟨code, none, s.curWord, 0, 0, 0, pc⟩
/-- A fault at an address. -/
def addrTrap (code : Nat) (a pc : Word) : Trap := ⟨code, some a, a, 0, 0, 0, pc⟩
/-- A fault with neither. -/
def bareTrap (code : Nat) (pc : Word) : Trap := ⟨code, none, 0, 0, 0, 0, pc⟩

/-- A fault record (Table 15.2). -/
def faultRecord (now : Nat) (handle : Word) (lanes : LaneMask) (source : Nat) (t : Trap) (slice : Word) (pasid : Nat) : List Byte :=
  mkRecord 64 [(0, 8, now), (8, 8, handle.toNat), (0x10, 4, lanes.toNat), (0x14, 1, t.code), (0x15, 1, source),
    (0x16, 2, t.aux), (0x18, 8, t.pc.toNat), (0x20, 8, t.val.toNat), (0x28, 8, slice.toNat), (0x30, 8, t.copy.toNat),
    (0x38, 4, t.tag), (0x3C, 3, pasid % 2 ^ 20), (0x3F, 1, 1)]

/-- Two faults of one issue that share a record: one code, and one 4 KiB page or no address (R332). -/
def Trap.shares (a b : Trap) : Bool := a.code = b.code && a.pc = b.pc && a.addr.map (fun x => x.toNat / 4096) == b.addr.map (fun x => x.toNat / 4096)

/-- Gathers the faulting lanes of one issue into the sets that share a record, in the order of their lowest lanes. -/
def trapSets (ts : List (Nat × Trap)) : List (LaneMask × Trap) :=
  ts.foldl (fun acc p =>
    if acc.any fun q => q.2.shares p.2 then acc.map fun q => if q.2.shares p.2 then (q.1 ||| laneBit p.1, q.2) else q
    else acc ++ [(laneBit p.1, p.2)]) []

/-- Raises faults in lanes of an agent: a thread of a compute core suspends and a record goes to its cluster's ring; a
service core enters its handler. Nothing of the instruction takes effect there (R58, R332, R341). -/
def State.raise (s : State) (a : Agent) (ts : List (Nat × Trap)) : State :=
  match a with
  | .core i =>
    match ts.head? with
    | some (_, t) => s.trap i (BitVec.ofNat 64 t.code) t.pc (t.addr.getD s.curWord)
    | none => s
  | .gang w i =>
    match s.wg w with
    | none => s
    | some g =>
      let m := maskOf (ts.map Prod.fst)
      let s := s.updGang a fun x =>
        { (x.each m fun x l => x.setStat l .fault) with faultLanes := x.faultLanes ||| m, faultCluster := clusterOf g.core }
      let s := s.updWg w fun x => x.count 38 (ts.filter fun p => p.2.code = 9).length
      let l := s.launchOf g
      (trapSets ts).foldl (fun s q =>
        s.postFault (clusterOf g.core)
          (faultRecord s.ptb (gangHandle g i 6) q.1 0 q.2 ((l.map (·.slice)).getD 0) ((l.map (·.pasid)).getD 0))) s

/-- The pc of the issuing group. -/
def State.curPc (s : State) : Word := ((s.gang s.cur).bind fun g => (lanesOf s.mask).head?.map g.pcOf).getD 0
/-- Raises one fault in every thread of the issuing group. -/
def State.raiseAll (s : State) (t : Trap) : State := s.raise s.cur ((lanesOf s.mask).map fun l => (l, t))

/-! ### Issue (R85, R92, R76) -/

/-- What the checks that come before an instruction's own effect answer. -/
inductive Gate where
  | absent
  | stop (s : State)
  | go (s : State)
  deriving DecidableEq, Repr

/-- A waiting lane is issued again: nothing is counted a second time. -/
def Gang.retrying (g : Gang) (m : LaneMask) : Bool :=
  match (lanesOf m).head?.map g.stat with
  | some (.retry _) => true
  | _ => false

/-- The checks before an instruction's own effect, in the order of Table 4.6 and then the scoreboard and the register
cache: `stop` where they fault it, hold it or wait for a line; else `go`, the issue counted. `LOOKAHEAD` is raised in the threads
whose window holds the instruction; the others of the group issue it again (R85; log 90). `allow` stands for steps 2, 3 and 6, and for the checks
of the core's kind that no step names (log 102). Which tiles an instruction names is known
once the register that tells it is there, so a window on tiles is looked at last (R88). -/
def State.gate (s : State) (u : Use) : Gate :=
  match s.gang s.cur with
  | none => .absent
  | some g =>
    let compute := match s.cur with
      | .gang .. => true
      | .core _ => false
    let counted := if g.retrying s.mask then s else s.countIssue s.cur
    if u.allow = 1 && !compute then .stop (counted.raiseAll (s.wordTrap 1 s.curPc))
    else if u.allow = 2 && compute then .stop (counted.raiseAll (s.wordTrap 2 s.curPc))
    else if u.lanes.any fun n => !g.available n then .stop (counted.raiseAll (s.wordTrap 1 s.curPc))
    else
      let ahead := fun (bad : LaneMask) =>
        Gate.stop ((if s.mask &&& ~~~bad = 0 then counted else s).raise s.cur ((lanesOf bad).map fun l => (l, s.wordTrap 3 s.curPc)))
      let bad := g.inWindow { u with tiles := [] } s.mask
      if bad != 0 then ahead bad
      else if g.blocked u s.mask then .stop s
      else
        match (g.needs u s.mask).find? fun n => (Tab.find g.lines n).isNone with
        | some n => .stop (s.updGang s.cur fun g => g.each s.mask fun g l => g.setStat l (.lineFill n))
        | none =>
          let bad := g.inWindow u s.mask
          if bad != 0 then ahead bad
          else
            let s1 := { counted with serialNo := s.serialNo + 1 }
            .go (s1.updGang s1.cur fun g =>
              { g with lines := g.lines.map fun p => if (g.needs u s.mask).contains p.1 then (p.1, s1.serialNo) else p })

/-- Runs an instruction behind its gate. -/
def State.issue (s : State) (u : Use) (body : State → State) : Host.Outcome State Fault Refusal :=
  match s.gate u with
  | .absent => .fault .noAgent
  | .stop s => .next s
  | .go s => .next (body s)

/-- The question of the issuing group to another chip. -/
def State.askOf (s : State) : Option Ask := s.asks.find? fun q => q.agent = s.cur && q.pc == s.curPc && q.lanes &&& s.mask != 0
/-- The issuing group waits and its instruction is issued again from its start; a wait keeps the name of its first issue. -/
def State.waitRetry (s : State) (m : LaneMask) : State :=
  s.updGang s.cur fun g => g.each m fun g l =>
    match g.stat l with
    | .retry _ => g
    | _ => g.setStat l (.retry s.serialNo)

/-- The issuing group asks another chip, unless it has done so, and waits until the answer is there; then its instruction goes on with it. -/
def State.await (s : State) (send : State → State) (go : State → List Word → State) : State :=
  match s.askOf with
  | none => (send s).waitRetry s.mask
  | some q => match q.got with
    | none => s.waitRetry s.mask
    | some ws => go { s with asks := s.asks.filter fun r => r.tag ≠ q.tag } ws
/-- Asks the root of a launch for the issuing group. -/
def State.askRoot (s : State) (x : Launch) (kind : Nat) (body : List Byte) (what : Asked) : State :=
  s.askFor s.cur s.mask s.curPc x.slice kind x.rootLaunch x.serial [x.root] body what
/-- Completes the instruction in lanes of the issuing group, at the next pc. -/
def State.finish (s : State) (m : LaneMask) : State := s.updGang s.cur fun g => g.finishAll m

/-! ### Uniform results (R25, R62, R86, R122) -/

/-- The gang's live threads are not all in the issuing group. -/
def State.diverged (s : State) : Bool := ((s.gang s.cur).map fun g => g.live != s.mask).getD false
/-- Sets bits of `GSTAT` of the issuing gang. -/
def State.setGstat (s : State) (bits : Word) : State := s.updGang s.cur fun g => { g with gstat := g.gstat ||| bits }
/-- Writes per-gang state: under divergence `GSTAT.UDIV` is set, and where the launch enables it the group faults
`UDIV` in place of the write (R25). -/
def State.uniformWrite (s : State) (write : State → State) : State :=
  if s.diverged then
    if ((s.gang s.cur).map fun g => g.gstat.getLsbD 1).getD false then
      (s.setGstat 1).raiseAll (s.wordTrap 0x16 s.curPc)
    else (write s).setGstat 1
  else write s
/-- Writes uniform registers, completes the instruction and opens its window (R85, R86). A write of s0 alone writes no
uniform state. -/
def State.setUnis (s : State) (rs : List (Nat × Word)) (la : Nat) : State :=
  let rs := rs.filter fun p => p.1 ≠ 0
  let write := fun (s : State) => s.updGang s.cur fun g =>
    ((rs.foldl (fun g p => g.setS p.1 p.2) g).finishAll s.mask).openAll s.mask la (.uniforms (rs.map Prod.fst))
  if rs.isEmpty then s.finish s.mask else s.uniformWrite write
/-- Writes one uniform register. -/
def State.setUni (s : State) (d : Nat) (x : Word) (la : Nat) : State := s.setUnis [(d, x)] la
/-- Runs an instruction that ends with a uniform write, unless that write faults `UDIV`: then nothing takes effect (R25,
R58). -/
def State.uniGuard (s : State) (d : Nat) (body : State → State) : State :=
  if d ≠ 0 && s.diverged && ((s.gang s.cur).map fun g => g.gstat.getLsbD 1).getD false then
    (s.setGstat 1).raiseAll (s.wordTrap 0x16 s.curPc)
  else body s
/-- The issuing group asks the root of a launch for one word, its destination. -/
def State.askWord (s : State) (x : Launch) (kind : Nat) (body : List Byte) (d la : Nat) : State :=
  s.await (fun s => s.askRoot x kind body .value) fun s ws => s.setUni d (ws.headD ones) la
/-- Uniform register n of the issuing gang. -/
def State.uni (s : State) (n : Nat) : Word := ((s.gang s.cur).map fun g => g.sreg n).getD 0

end Sys2Proof.Machine
end

