-- ==== Sys2Proof/Machine/Issue.lean ====
section
/-! DEFINITION. Fetch, slots and the choice of a PC-group (R16, R20 to R25, R128, R132, R258, R261, R327, R352). -/

namespace Sys2Proof.Machine

/-! ### PC-groups (R21) -/

/-- A lane holds the word at its pc in its own window. -/
def Gang.buffered (g : Gang) (lane : Nat) : Bool := (g.wordAt lane).isSome
/-- The PC-group at a pc: live, non-waiting threads. -/
def Gang.group (g : Gang) (pc : Word) : LaneMask := maskOf ((List.range 32).filter fun l => g.isReady l && g.pcOf l == pc)
/-- The name of the issue that a waiting lane repeats. -/
def Gang.retryOf (g : Gang) (lane : Nat) : Option Nat :=
  match g.stat lane with
  | .retry n => if g.live.getLsbD lane then some n else none
  | _ => none
/-- The lanes at a pc that wait to issue again one instruction they issued together, oldest issue first. -/
def Gang.retryGroup (g : Gang) (pc : Word) : LaneMask :=
  let ls := (List.range 32).filter fun l => g.pcOf l == pc && (g.retryOf l).isSome
  match (ls.filterMap g.retryOf).foldl (fun m n => some (min n (m.getD n))) none with
  | some n => maskOf (ls.filter fun l => g.retryOf l == some n)
  | none => 0
/-- Distinct pcs of lanes, ascending. -/
def Gang.pcs (g : Gang) (ls : List Nat) : List Word :=
  (ls.foldl (fun t l => Tab.put t (g.pcOf l).toNat ()) ([] : Tab Unit)).map fun p => BitVec.ofNat 64 p.1
/-- The pcs whose whole PC-group issues from the loop buffers. -/
def Gang.readyPcs (g : Gang) : List Word :=
  (g.pcs ((List.range 32).filter g.isReady)).filter fun p => (lanesOf (g.group p)).all g.buffered
/-- The pcs that wait for a fetch turn. -/
def Gang.waitingPcs (g : Gang) : List Word :=
  (g.pcs ((List.range 32).filter g.isReady)).filter fun p => !(lanesOf (g.group p)).all g.buffered
/-- The first of a rising list above the last one served, else the lowest: ascending with a wrap. -/
def nextInTurn (last : Option Word) (ps : List Word) : Option Word :=
  match last with
  | some x => match ps.find? fun p => decide (x.toNat < p.toNat) with
    | some p => some p
    | none => ps.head?
  | none => ps.head?

/-! ### Ranking and slots (R20, R22, R128) -/

/-- Rank of a gang, lowest first: aged, deadline, launch order, gang index. -/
def State.rank (s : State) (w i : Nat) (g : Gang) : List Nat :=
  let l := (s.wg w).bind s.launchOf
  [if g.aged then 0 else 1, (l.map fun l => s.deadlineOf l.slice l.dladj).getD 0, (l.map (·.order)).getD 0, i, w]
/-- One rank comes before another. -/
def rankLt : List Nat → List Nat → Bool
  | [], _ => false
  | _ :: _, [] => false
  | a :: as, b :: bs => decide (a < b) || (decide (a = b) && rankLt as bs)
/-- The gangs bound to a partition of a core that hold a slot. -/
def State.holders (s : State) (core part : Nat) : List (Nat × Nat × Gang) :=
  s.wgs.flatMap fun p =>
    if (p.2.place.map Prod.fst) == some core then
      (p.2.gangs.filter fun q => q.1 % 4 = part && q.2.slot).map fun q => (p.1, q.1, q.2)
    else []
/-- Pending interrupts of a core, bits as `KIP` (Table 3.10; log 13). -/
def State.kip (s : State) (i : Nat) : Word :=
  match s.scalar i with
  | none => 0
  | some c =>
    let ring := fun (call : Bool) (size n : Nat) =>
      c.ring call != 0 && (List.range n).any fun j =>
        match s.ringKey i (c.ring call + BitVec.ofNat 64 (size * j + 0x3F)) with
        | some k => s.homeByte k != 0
        | none => false
    let bit := fun (b : Bool) (n : Nat) => if b then 1#64 <<< n else 0
    bit (decide (i < 40) && ring false 64 64) 0 ||| bit (decide (i < 40) && ring true 2048 256) 1 |||
      bit (s.channels.any fun p => p.1 % 64 = i && !p.2.isEmpty) 2 ||| (c.kreg 5 &&& 8) |||
      bit (s.wgs.any fun p => p.2.evicting && decide (clusterOf p.2.core = i)) 4 |||
      bit (s.slices.any fun x => x.stopped && ((Tab.find s.tenants x.tenant).map (·.shard)) == some i) 5 |||
      bit (s.invals.any fun x => x.hart == some i) 6

/-- Whether an agent may issue at all: a gang of a resident workgroup that is not being evicted, of a slice that is not
stopped; a service or command-complex core that runs and is not idle (R20, R261, R284, R337). -/
def State.mayIssue (s : State) (a : Agent) : Bool :=
  match a with
  | .gang w _ =>
    match s.wg w with
    | some g => g.place.isSome && !g.evicting && !s.sliceStopped (s.sliceOf a)
    | none => false
  | .core i =>
    match s.scalar i with
    | some c => c.running && (!c.idle || (s.kip i &&& c.kreg 4) != 0)
    | none => false

/-- A gang takes part in the ranking of its partition: it may issue, and a thread of it is ready or has ended a wait (R20, R22, R261, R337). -/
def State.contends (s : State) (w i : Nat) (g : Gang) : Bool := g.runnable && s.mayIssue (.gang w i)
/-- Such a gang has no slot and could be given one, nothing of a pre-empted gang being in flight (R20, R87). -/
def State.wantsSlot (s : State) (w i : Nat) (g : Gang) : Bool := !g.slot && s.contends w i g && (!g.lost || g.flights.isEmpty)
/-- Some other gang of the partition that wants a slot ranks before this one. -/
def State.slotOwed (s : State) (w i core : Nat) (g : Gang) : Bool :=
  s.wgs.any fun p => (p.2.place.map Prod.fst) == some core && p.2.gangs.any fun q =>
    q.1 % 4 = i % 4 && s.wantsSlot p.1 q.1 q.2 && rankLt (s.rank p.1 q.1 q.2) (s.rank w i g)
/-- Gives the gang a slot of its partition if it has one, or if one is free and no gang that ranks before it wants it; a gang that was
pre-empted waits until what it had in flight has been delivered (R20, R22, R87). -/
def State.takeSlot (s : State) (w i : Nat) (g : Gang) (core : Nat) : Option State :=
  if g.slot then some s
  else if (s.holders core (i % 4)).length < 16 && (!g.lost || g.flights.isEmpty) && !s.slotOwed w i core g then
    some (s.updGang (.gang w i) fun g => { g with slot := true, lost := false })
  else none
/-- A gang that has yielded lets another of its partition go first: one with a slot that would go on now, that has not been served since
the yield, and whose deadline is not later (R128; log 110). -/
def State.yieldsTo (s : State) (w i core : Nat) (g : Gang) : Bool :=
  let due := fun (w : Nat) => (((s.wg w).bind s.launchOf).map fun l => s.deadlineOf l.slice l.dladj).getD 0
  g.yielded && !g.aged && s.wgs.any fun p => (p.2.place.map Prod.fst) == some core && decide (due p.1 ≤ due w) && p.2.gangs.any fun q =>
    (p.1, q.1) != (w, i) && q.1 % 4 = i % 4 && q.2.slot && q.2.able && decide (q.2.served ≤ g.served) && s.mayIssue (.gang p.1 q.1)
/-- A gang that wants a slot of the partition outranks a holder, all slots being held (R20, R22). -/
def State.outranked (s : State) (w i core : Nat) (g : Gang) : Bool :=
  decide (16 ≤ (s.holders core (i % 4)).length) && s.slotOwed w i core g

/-- A gang of a core that ranks before one of it waits to issue again an instruction of a kind, and would go on now: an engine that serves
both serves it first (R22, R258). -/
def State.rankedOut (s : State) (w i core : Nat) (kind : BitVec 32 → Bool) : Bool :=
  match s.gang (.gang w i) with
  | none => false
  | some g => s.wgs.any fun p => (p.2.place.map Prod.fst) == some core && p.2.gangs.any fun q =>
      q.2.able && s.mayIssue (.gang p.1 q.1) && rankLt (s.rank p.1 q.1 q.2) (s.rank w i g) &&
        (List.range 32).any fun l => (q.2.retryOf l).isSome && ((q.2.wordAt l).map kind).getD false

/-- Picks the PC-group of an agent at a pc: the state with the issuing group named, and the word it executes. The turn
among ready PC-groups is round-robin in ascending pc order (R21); threads that wait to issue an instruction again take their turn among
them, and pass it on where they only wait on. A gang that has yielded lets another go first (R128). -/
def State.pick (s : State) (a : Agent) (pc : Word) : Option (State × BitVec 32) :=
  match s.gang a with
  | none => none
  | some g =>
    if !s.mayIssue a then none
    else
      let ready := g.group pc
      let m := if ready = 0 then g.retryGroup pc else ready
      match (lanesOf m).head? with
      | none => none
      | some l =>
        match g.wordAt l with
        | none => none
        | some w =>
          let turns := if ready != 0 then g.readyPcs else g.pcs (l :: (List.range 32).filter fun k => g.readyPcs.contains (g.pcOf k))
          if nextInTurn g.lastIssue turns != some pc then none
          else
            let s1 : Option State := match a with
              | .gang k i => match s.wg k with
                | some x => if s.yieldsTo k i x.core g then none else s.takeSlot k i g x.core
                | none => none
              | .core i => some (s.updScalar i fun c => { c with idle := false })
            s1.map fun t =>
              ({ (t.updGang a fun g => { g with lastIssue := if ready != 0 then some pc else g.lastIssue }) with cur := a, mask := m }, w)

/-! ### Fetch (R21, R23, R132) -/

/-- The L1 of an agent. -/
def State.l1Of (s : State) (a : Agent) : Nat :=
  match a with
  | .gang w _ => ((s.wg w).map (·.core)).getD 0
  | .core i => Sys2Proof.Machine.l1Of i
/-- What a fetch at an address meets first: fine, a translation to be walked, or the fault it raises (R132). -/
def State.fetchCheck (s : State) (a : Agent) (va : Word) : Chk :=
  if va.toNat % 4 ≠ 0 then .fault 4
  else if !canonical va || inThreadAp va.toNat || inServiceAp va.toNat then .fault 7
  else match s.translate (s.ctxOf a) 3 va with
    | .ok k p => .ok (.mem k p)
    | .miss => .miss
    | .fault f => .fault f

/-- Starts a translation walk for a lane of an agent, unless one for the same page and kind is in flight, which then
serves the lane too (R165, R166). -/
def State.startWalk (s : State) (a : Agent) (kind : Nat) (p : Nat × Word) : State :=
  let same := fun (w : Walk) => w.agent = a && w.kind = kind && w.addr.toNat / 4096 = p.2.toNat / 4096 && !w.cancelled
  if s.walks.any same then
    { s with walks := s.walks.map fun w =>
        if same w then { w with lanes := w.lanes ||| laneBit p.1, addrs := Tab.put w.addrs p.1 p.2 } else w }
  else
    { s with
      serialNo := s.serialNo + 1
      walks := s.walks ++ [⟨s.serialNo, a, laneBit p.1, (s.ctxOf a).cluster, p.2, [(p.1, p.2)], kind, false⟩] }
/-- Starts the walks that lanes of an agent need. -/
def State.startWalks (s : State) (a : Agent) (kind : Nat) (ps : List (Nat × Word)) : State :=
  ps.foldl (fun s p => s.startWalk a kind p) s

/-- Cycles that pass in dt ns from a PTB, at a rate in fifths of a GHz: 4 the compute cores, 8 the service cores (Table 1.2). -/
def cyclesIn (rate ptb dt : Nat) : Nat := (ptb + dt) * rate / 5 - ptb * rate / 5
/-- `MCCE` with errors counted that storage has corrected: in bits 63:32 those of HBM, in bits 31:0 those of SRAM (R390, Table 18.3). -/
def countCorrected (mcce : Word) (e : Nat × Nat) : Word :=
  BitVec.ofNat 64 ((mcce.toNat / 2 ^ 32 + e.1) % 2 ^ 32 * 2 ^ 32 + (mcce.toNat + e.2) % 2 ^ 32)
/-- HBM has an error that it cannot correct: the line is poisoned, unless a home holds it dirty (R161, R390; log 106). -/
def State.hbmFails (s : State) : State :=
  match Config.hbmError s.ptb with
  | some line => if s.inReset || line * 128 / 2 ^ 40 ≠ s.chip || s.dirtyLines.contains line || (s.home line).owner.isSome then s else s.poisonLine line
  | none => s
/-- The host reads a register through BAR0 (R382, R383, R388; log 106). -/
def State.barRead (s : State) : State :=
  match Config.barRead s.ptb with
  | some o => if s.inReset || !s.hostLink then s else { s with out := s.out ++ [.register o (s.registerRead o)] }
  | none => s
/-- Time passes, dt ns of PTB: a package ahead of its master counts 1 of each 2 ns until the master has caught up. The cycles that service
cores charge, those that workgroups are resident, and what storage and the host do (R327, R328, R354, R374, R382, R390; log 106). -/
def State.pass (s : State) (dt : Nat) : State :=
  if dt = 0 then s
  else
    let ns := dt + min dt s.slow
    let n := cyclesIn 4 s.ptb ns
    let t := s.chargeCycles (cyclesIn 8 s.ptb ns)
    (({ t with
      ptb := s.ptb + dt
      mcTime := s.mcTime + ns
      slow := s.slow - dt
      mcce := if s.inReset then s.mcce else countCorrected s.mcce (Config.corrected (s.ptb + dt))
      wgs := t.wgs.map fun p => if p.2.place.isSome then (p.1, p.2.count 39 n) else p } : State).hbmFails).barRead

/-- A gang keeps the slot it has: a thread may issue, or waits only for a line of the register cache (R27, R76). -/
def Gang.keepsSlot (g : Gang) : Bool := (List.range 32).any fun l => g.live.getLsbD l && match g.stat l with
  | .ready => true
  | .lineFill _ => true
  | _ => false
/-- What a step leaves of the slots: a gang with no thread that may issue holds none (R27), and one that becomes ready waits from now
on (R20, R22). -/
def State.tendSlots (s old : State) : State :=
  { s with wgs := s.wgs.map fun p => (p.1, { p.2 with gangs := p.2.gangs.map fun q =>
      (q.1, if s.contends p.1 q.1 q.2 then
          (if ((old.gang (.gang p.1 q.1)).map (old.contends p.1 q.1)).getD false then q.2 else { q.2 with since := s.ptb })
        else if q.2.keepsSlot then q.2 else { q.2 with slot := false }) }) }

/-! ### Whether a wait has ended (R22, R27, R128; log 110) -/

/-- The group of a gang at a pc would go on if it were issued now: of threads that wait to issue again, one no longer waits; of ready ones,
the scoreboard does not hold them. `run` is the meaning of a word. -/
def State.goesOn (s : State) (run : BitVec 32 → State → Host.Outcome State Fault Refusal) (w i : Nat) (g : Gang) (pc : Word) : Bool :=
  let ready := g.group pc
  let m := if ready = 0 then g.retryGroup pc else ready
  match (lanesOf m).head?.bind g.wordAt with
  | none => false
  | some x => match run x { s with cur := .gang w i, mask := m } with
    | .next t =>
      if ready != 0 then t.wg w != s.wg w
      else ((t.gang (.gang w i)).map fun h => (lanesOf m).any fun l => h.stat l != g.stat l || h.pcOf l != g.pcOf l).getD true
    | _ => true
/-- Some gang on a core has yielded. -/
def State.yielding (s : State) (core : Nat) : Bool :=
  s.wgs.any fun p => p.2.core = core && p.2.gangs.any fun q => q.2.yielded
/-- A group of a gang that waits to issue again would go on now, or a ready one of it where a gang of its core has yielded. -/
def State.goes (s : State) (run : BitVec 32 → State → Host.Outcome State Fault Refusal) (w i core : Nat) (g : Gang) : Bool :=
  let ps := g.pcs ((List.range 32).filter fun l => (g.retryOf l).isSome) ++ if s.yielding core then g.readyPcs else []
  s.mayIssue (.gang w i) && ps.any (s.goesOn run w i g)
/-- Marks the gangs that would go on now. -/
def State.survey (s : State) (run : BitVec 32 → State → Host.Outcome State Fault Refusal) : State :=
  { s with wgs := s.wgs.map fun p => (p.1, { p.2 with gangs := p.2.gangs.map fun q =>
      (q.1, { q.2 with able := s.goes run p.1 q.1 p.2.core q.2 }) }) }

/-- The next thing that happens: the head of the agenda, or where that is empty a free choice (log 3). -/
def State.nextAct (s : State) : Choice × State :=
  match s.agenda with
  | c :: cs => (c, { s with agenda := cs })
  | [] => (Config.nextChoice s.choiceNo, { s with choiceNo := s.choiceNo + 1 })

end Sys2Proof.Machine
end

