-- ==== Sys2Proof/Machine/Float.lean ====
section
/-! DEFINITION. Floating-point formats and exact arithmetic rounded once (R32 to R43, R50 to R56). -/

namespace Sys2Proof.Machine

/-- A format of Table 2.1: exponent and fraction widths, bias, and what an all-ones exponent means. -/
structure Fmt where
  ebits : Nat
  fbits : Nat
  bias : Nat
  kind : Nat
  deriving DecidableEq, Repr, Inhabited

/-- `kind` 0: IEEE infinities and NaNs; 1: E4M3 (normal but for fraction 111, no infinity); 2: E2M1 (all normal). -/
def fp64 : Fmt := ⟨11, 52, 1023, 0⟩
/-- FP32 (R34). -/
def fp32 : Fmt := ⟨8, 23, 127, 0⟩
/-- FP16 (R34). -/
def fp16 : Fmt := ⟨5, 10, 15, 0⟩
/-- BF16 (R34). -/
def bf16 : Fmt := ⟨8, 7, 127, 0⟩
/-- E5M2 (R34). -/
def e5m2 : Fmt := ⟨5, 2, 15, 0⟩
/-- E4M3 (R34). -/
def e4m3 : Fmt := ⟨4, 3, 7, 1⟩
/-- E2M1 (R34, R35). -/
def e2m1 : Fmt := ⟨2, 1, 1, 2⟩

/-- Width of a format in bits. -/
def Fmt.width (f : Fmt) : Nat := f.ebits + f.fbits + 1
/-- The exponent of the last fraction bit of the smallest normal, which is the quantum of subnormals. -/
def Fmt.qmin (f : Fmt) : Int := 1 - (f.bias : Int) - f.fbits

/-- A value: NaN, infinity, or sign and magnitude `man * 2 ^ exp`, exact. -/
inductive Val where
  | nan (signalling : Bool)
  | inf (neg : Bool)
  | fin (neg : Bool) (man : Nat) (exp : Int)
  deriving DecidableEq, Repr, Inhabited

/-- The exact value of a code of format `f` (R34, R35). -/
def Fmt.decode (f : Fmt) (x : Nat) : Val :=
  let frac := x % 2 ^ f.fbits
  let e := (x / 2 ^ f.fbits) % 2 ^ f.ebits
  let neg := x.testBit (f.fbits + f.ebits)
  let top := 2 ^ f.ebits - 1
  if e = top ∧ f.kind = 0 then
    if frac = 0 then .inf neg else .nan (!frac.testBit (f.fbits - 1))
  else if e = top ∧ f.kind = 1 ∧ frac = 2 ^ f.fbits - 1 then .nan false
  else if e = 0 then .fin neg frac f.qmin
  else .fin neg (2 ^ f.fbits + frac) (f.qmin + (e - 1))

/-- The canonical NaN (R34 Table 2.1). -/
def Fmt.nan (f : Fmt) : Nat :=
  if f.kind = 1 then 2 ^ (f.ebits + f.fbits) - 1
  else (2 ^ f.ebits - 1) * 2 ^ f.fbits + 2 ^ (f.fbits - 1)
/-- Infinity of a sign. -/
def Fmt.inf (f : Fmt) (neg : Bool) : Nat :=
  (if neg then 2 ^ (f.ebits + f.fbits) else 0) + (2 ^ f.ebits - 1) * 2 ^ f.fbits
/-- The sign bit of a code. -/
def Fmt.signBit (f : Fmt) (neg : Bool) : Nat := if neg then 2 ^ (f.ebits + f.fbits) else 0
/-- The largest finite code, without its sign. -/
def Fmt.maxCode (f : Fmt) : Nat :=
  if f.kind = 0 then (2 ^ f.ebits - 1) * 2 ^ f.fbits - 1
  else if f.kind = 1 then 2 ^ (f.ebits + f.fbits) - 2 else 2 ^ (f.ebits + f.fbits) - 1

/-- Whether a magnitude lying between `q` and `q + 1` quanta is rounded up: `half` compares the rest with one half
(R37 Table 2.3: 0 RNE, 1 RTZ, 2 RUP, 3 RDN). -/
def roundsUp (rm : Nat) (neg odd : Bool) (half : Ordering) (exact : Bool) : Bool :=
  if exact then false
  else match rm with
    | 0 => half == .gt || (half == .eq && odd)
    | 2 => !neg
    | 3 => neg
    | _ => false

/-- The number of bits of `n`. -/
def bitLen (n : Nat) : Nat := if n = 0 then 0 else Nat.log2 n + 1

/-- The rounding of a quotient `num / den` (den > 0) to an integer: quotient and whether it was exact. -/
def roundDiv (rm : Nat) (neg : Bool) (num den : Nat) : Nat × Bool :=
  let q := num / den
  let r := num % den
  let exact := r == 0
  if roundsUp rm neg (q % 2 == 1) (compare (2 * r) den) exact then (q + 1, exact) else (q, exact)

/-- `num / den * 2 ^ e` in units of `2 ^ u`, rounded to an integer. -/
def roundQuanta (rm : Nat) (neg : Bool) (num den : Nat) (e u : Int) : Nat × Bool :=
  if u ≤ e then roundDiv rm neg (num <<< (e - u).toNat) den else roundDiv rm neg num (den <<< (u - e).toNat)

/-- The exponent of the leading bit of `num / den * 2 ^ e`, num > 0: the e' with 2^e' ≤ it < 2^(e'+1). -/
def leadExp (num den : Nat) (e : Int) : Int :=
  let k : Int := (bitLen num : Int) - bitLen den
  let below := if 0 ≤ k then decide (num < den <<< k.toNat) else decide (num <<< (-k).toNat < den)
  e + (if below then k - 1 else k)

/-- Exception flags as `FCR` bits 4:0: NV 16, DZ 8, OF 4, UF 2, NX 1 (R38, R68). -/
abbrev Flags := BitVec 5
/-- No flag. -/
def noFlags : Flags := 0

/-- What a rounding delivers: the magnitude code, and the events of the step. -/
structure Rounded where
  code : Nat
  exact : Bool
  overflow : Bool
  tiny : Bool
  deriving DecidableEq, Repr, Inhabited

/-- Rounds the positive value `num / den * 2 ^ e` once to format `f`, with overflow judged with an unbounded exponent
and tininess after rounding (R36, R38). On overflow `code` is the largest finite code. -/
def Fmt.roundMag (f : Fmt) (rm : Nat) (neg : Bool) (num den : Nat) (e : Int) : Rounded :=
  let lead := leadExp num den e
  let emin : Int := 1 - (f.bias : Int)
  -- as though the exponent were unbounded
  let (qu, xu) := roundQuanta rm neg num den e (lead - f.fbits)
  let leadU := if qu = 2 ^ (f.fbits + 1) then lead + 1 else lead
  if leadU < emin then
    let (q, x) := roundQuanta rm neg num den e f.qmin
    ⟨q, x, false, true⟩
  else
    let frac := if qu = 2 ^ (f.fbits + 1) then 2 ^ f.fbits else qu
    let code := ((leadU - emin).toNat + 1) * 2 ^ f.fbits + (frac - 2 ^ f.fbits)
    if f.maxCode < code then ⟨f.maxCode, xu, true, false⟩ else ⟨code, xu, false, false⟩

/-- The bits and flags of an exact value `± num / den * 2 ^ e` rounded under IEEE rules to an IEEE format (R36, R38). -/
def Fmt.round (f : Fmt) (rm : Nat) (neg : Bool) (num den : Nat) (e : Int) : Nat × Flags :=
  if num = 0 then (f.signBit neg, 0)
  else
    let r := f.roundMag rm neg num den e
    if r.overflow then
      let toInf := rm == 0 || (rm == 2 && !neg) || (rm == 3 && neg)
      (if toInf then f.inf neg else f.signBit neg + f.maxCode, 0b00101)
    else (f.signBit neg + r.code, if r.exact then 0 else if r.tiny then 0b00011 else 0b00001)

/-- The exact sum of two finite values as (negative, man, exp); a zero sum takes the IEEE sign. -/
def addExact (rm : Nat) (n1 : Bool) (m1 : Nat) (e1 : Int) (n2 : Bool) (m2 : Nat) (e2 : Int) : Bool × Nat × Int :=
  let e := min e1 e2
  let a : Int := (if n1 then -1 else 1) * (m1 <<< (e1 - e).toNat : Nat)
  let b : Int := (if n2 then -1 else 1) * (m2 <<< (e2 - e).toNat : Nat)
  let t := a + b
  if t = 0 then ((if m1 = 0 ∧ m2 = 0 ∧ n1 = n2 then n1 else if n1 = n2 then n1 else rm == 3), 0, e)
  else (decide (t < 0), t.natAbs, e)

/-- Whether any of the values is a signalling NaN. -/
def anySignalling (vs : List Val) : Bool := vs.any fun v => v == .nan true
/-- Whether any of the values is a NaN. -/
def anyNan (vs : List Val) : Bool := vs.any fun v => v == .nan true || v == .nan false

/-- The canonical NaN delivered for a NaN operand (R39). -/
def Fmt.nanOf (f : Fmt) (vs : List Val) : Nat × Flags := (f.nan, if anySignalling vs then 0b10000 else 0)

/-- Sum of two values of format `f` (R36 to R39). -/
def Fmt.add (f : Fmt) (rm : Nat) (x y : Val) : Nat × Flags :=
  match x, y with
  | .nan _, _ => f.nanOf [x, y]
  | _, .nan _ => f.nanOf [x, y]
  | .inf n, .inf m => if n = m then (f.inf n, 0) else (f.nan, 0b10000)
  | .inf n, .fin .. => (f.inf n, 0)
  | .fin .., .inf m => (f.inf m, 0)
  | .fin n1 m1 e1, .fin n2 m2 e2 =>
    let (n, m, e) := addExact rm n1 m1 e1 n2 m2 e2
    f.round rm n m 1 e

/-- A value with its sign inverted. -/
def Val.neg : Val → Val
  | .nan s => .nan s
  | .inf n => .inf (!n)
  | .fin n m e => .fin (!n) m e

/-- Product of two values (R36 to R39). -/
def Fmt.mul (f : Fmt) (rm : Nat) (x y : Val) : Nat × Flags :=
  match x, y with
  | .nan _, _ => f.nanOf [x, y]
  | _, .nan _ => f.nanOf [x, y]
  | .inf n, .inf m => (f.inf (n != m), 0)
  | .inf n, .fin m k _ => if k = 0 then (f.nan, 0b10000) else (f.inf (n != m), 0)
  | .fin m k _, .inf n => if k = 0 then (f.nan, 0b10000) else (f.inf (n != m), 0)
  | .fin n1 m1 e1, .fin n2 m2 e2 => f.round rm (n1 != n2) (m1 * m2) 1 (e1 + e2)

/-- The exact product of two finite or infinite values, or a NaN for 0 × ∞ (R52). -/
def Val.mul (x y : Val) : Val :=
  match x, y with
  | .nan s, _ => .nan s
  | _, .nan s => .nan s
  | .inf n, .inf m => .inf (n != m)
  | .inf n, .fin m k _ => if k = 0 then .nan false else .inf (n != m)
  | .fin m k _, .inf n => if k = 0 then .nan false else .inf (n != m)
  | .fin n1 m1 e1, .fin n2 m2 e2 => .fin (n1 != n2) (m1 * m2) (e1 + e2)

/-- The exact sum of two values; NaN for ∞ - ∞ (R52). -/
def Val.add (x y : Val) : Val :=
  match x, y with
  | .nan s, _ => .nan s
  | _, .nan s => .nan s
  | .inf n, .inf m => if n = m then .inf n else .nan false
  | .inf n, .fin .. => .inf n
  | .fin .., .inf m => .inf m
  | .fin n1 m1 e1, .fin n2 m2 e2 =>
    let (n, m, e) := addExact 0 n1 m1 e1 n2 m2 e2
    .fin n m e

/-- An exact value rounded to a format (R51, R52): NaN canonical, no flag asked for. -/
def Fmt.ofVal (f : Fmt) (rm : Nat) (x : Val) : Nat × Flags :=
  match x with
  | .nan s => (f.nan, if s then 0b10000 else 0)
  | .inf n => (f.inf n, 0)
  | .fin n m e => f.round rm n m 1 e

/-- Fused multiply-add a × b + c (R36, R38, R39): 0 × ∞ is invalid even when c is a quiet NaN. -/
def Fmt.fma (f : Fmt) (rm : Nat) (a b c : Val) : Nat × Flags :=
  let zeroTimesInf := match a, b with
    | .inf _, .fin _ 0 _ => true
    | .fin _ 0 _, .inf _ => true
    | _, _ => false
  if zeroTimesInf then (f.nan, 0b10000)
  else if anyNan [a, b, c] then f.nanOf [a, b, c]
  else match Val.mul a b, c with
    | .inf n, .inf m => if n = m then (f.inf n, 0) else (f.nan, 0b10000)
    | .inf n, _ => (f.inf n, 0)
    | _, .inf m => (f.inf m, 0)
    | .fin n1 m1 e1, .fin n2 m2 e2 =>
      let (n, m, e) := addExact rm n1 m1 e1 n2 m2 e2
      f.round rm n m 1 e
    | _, _ => (f.nan, 0)

/-- Quotient a / b (R38, R40). -/
def Fmt.div (f : Fmt) (rm : Nat) (a b : Val) : Nat × Flags :=
  match a, b with
  | .nan _, _ => f.nanOf [a, b]
  | _, .nan _ => f.nanOf [a, b]
  | .inf _, .inf _ => (f.nan, 0b10000)
  | .inf n, .fin m _ _ => (f.inf (n != m), 0)
  | .fin n _ _, .inf m => (f.signBit (n != m), 0)
  | .fin n m1 e1, .fin n2 m2 e2 =>
    if m2 = 0 then (if m1 = 0 then (f.nan, 0b10000) else (f.inf (n != n2), 0b01000))
    else f.round rm (n != n2) m1 m2 (e1 - e2)

/-- Bits `k - 1` to 0 of the integer square root of `n`, below the bits already found in `r`. -/
def isqrtBits (n : Nat) : Nat → Nat → Nat
  | 0, r => r
  | k + 1, r => if (r + 2 ^ k) * (r + 2 ^ k) ≤ n then isqrtBits n k (r + 2 ^ k) else isqrtBits n k r

/-- The integer square root. -/
def isqrt (n : Nat) : Nat := isqrtBits n (bitLen n / 2 + 1) 0

/-- A rational that lies strictly between the same representable neighbours as the square root of `num / den`, or
equals it: the root in units of `2 ^ -k`, with a sticky half unit where it is not exact. -/
def rootSticky (num den k : Nat) : Nat :=
  let scaled := (num <<< (2 * k)) / den
  let r := isqrt scaled
  if r * r = scaled ∧ (num <<< (2 * k)) % den = 0 then 2 * r else 2 * r + 1

/-- The root of `num / den * 2 ^ e`, rounded once to format `f` (R40). The sticky unit lies far below the last bit. -/
def Fmt.root (f : Fmt) (rm : Nat) (num den : Nat) (e : Int) : Nat × Flags :=
  let (num, e) := if e % 2 = 0 then (num, e) else (2 * num, e - 1)
  let k := f.fbits + 8 + bitLen den
  f.round rm false (rootSticky num den k) 1 (e / 2 - k - 1)

/-- Square root (R38, R40). -/
def Fmt.sqrt (f : Fmt) (rm : Nat) (a : Val) : Nat × Flags :=
  match a with
  | .nan _ => f.nanOf [a]
  | .inf n => if n then (f.nan, 0b10000) else (f.inf false, 0)
  | .fin n m e => if m = 0 then (f.signBit n, 0) else if n then (f.nan, 0b10000) else f.root rm m 1 e

/-- Reciprocal square root (R38, R40, R120). -/
def Fmt.rsqrt (f : Fmt) (rm : Nat) (a : Val) : Nat × Flags :=
  match a with
  | .nan _ => f.nanOf [a]
  | .inf n => if n then (f.nan, 0b10000) else (0, 0)
  | .fin n m e =>
    if m = 0 then (f.inf n, 0b01000) else if n then (f.nan, 0b10000) else f.root rm 1 m (-e)

/-- Order of two values that are not NaN, with -0 = +0. -/
def Val.cmp (x y : Val) : Ordering :=
  match x, y with
  | .inf n, .inf m => if n = m then .eq else if n then .lt else .gt
  | .inf n, _ => if n then .lt else .gt
  | _, .inf m => if m then .gt else .lt
  | .fin n1 m1 e1, .fin n2 m2 e2 =>
    let e := min e1 e2
    let a : Int := (if n1 then -1 else 1) * (m1 <<< (e1 - e).toNat : Nat)
    let b : Int := (if n2 then -1 else 1) * (m2 <<< (e2 - e).toNat : Nat)
    compare a b
  | _, _ => .eq

/-- The sign of a value (false for NaN). -/
def Val.isNeg : Val → Bool
  | .nan _ => false
  | .inf n => n
  | .fin n _ _ => n

/-- `minimumNumber` (`wantMin`) or `maximumNumber` of two codes, -0 below +0 (R39). -/
def Fmt.minMax (f : Fmt) (wantMin : Bool) (a b : Nat) : Nat × Flags :=
  let x := f.decode a
  let y := f.decode b
  let fl : Flags := if anySignalling [x, y] then 0b10000 else 0
  if anyNan [x] && anyNan [y] then (f.nan, fl)
  else if anyNan [x] then (b, fl)
  else if anyNan [y] then (a, fl)
  else
    let less := match x.cmp y with
      | .lt => true
      | .gt => false
      | .eq => x.isNeg && !y.isNeg || (x.isNeg == y.isNeg)
    (if less == wantMin then a else b, fl)

/-- Class mask of Table 5.8 (R115). -/
def Fmt.classMask (f : Fmt) (a : Nat) : Nat :=
  match f.decode a with
  | .nan true => 2 ^ 8
  | .nan false => 2 ^ 9
  | .inf true => 2 ^ 0
  | .inf false => 2 ^ 7
  | .fin n m _ =>
    if m = 0 then (if n then 2 ^ 3 else 2 ^ 4)
    else if m < 2 ^ f.fbits then (if n then 2 ^ 2 else 2 ^ 5)
    else (if n then 2 ^ 1 else 2 ^ 6)

/-- FCMP condition `c` of Table 5.10 on two codes, with its flags (R117). -/
def Fmt.compare (f : Fmt) (c : Nat) (a b : Nat) : Bool × Flags :=
  let x := f.decode a
  let y := f.decode b
  let un := anyNan [x, y]
  let o := x.cmp y
  let res := match c with
    | 0 => !un && o == .eq
    | 1 => un || o != .eq
    | 2 => !un && o == .lt
    | 3 => !un && o != .gt
    | 4 => un
    | _ => !un
  (res, if (if c = 2 ∨ c = 3 then un else anySignalling [x, y]) then 0b10000 else 0)

/-- An exact value rounded to an integer, clamped to `lo .. hi` (R41): result and flags. -/
def Val.toInt (rm : Nat) (lo hi : Int) (x : Val) : Int × Flags :=
  match x with
  | .nan _ => (0, 0b10000)
  | .inf n => (if n then lo else hi, 0b10000)
  | .fin n m e =>
    let (q, ex) := roundQuanta rm n m 1 e 0
    let v : Int := if n then -(q : Int) else q
    if hi < v then (hi, 0b10000) else if v < lo then (lo, 0b10000) else (v, if ex then 0 else 0b00001)

/-- An integer rounded to format `f` (R41). -/
def Fmt.ofInt (f : Fmt) (rm : Nat) (x : Int) : Nat × Flags := f.round rm (decide (x < 0)) x.natAbs 1 0

/-- A value as FP32 or another IEEE format, exactly where it fits (widening, R41, R43). -/
def Fmt.widen (f : Fmt) (x : Val) : Nat := (f.ofVal 0 x).1

/-- QCVT narrowing of `x × 2 ^ k` to E4M3, E5M2 (R42 Table 2.5). -/
def qNarrow (f : Fmt) (sat : Bool) (x : Val) (k : Int) : Nat :=
  match x with
  | .nan _ => f.nan
  | .inf n => if sat then f.signBit n + f.maxCode else if f.kind = 1 then f.nan else f.inf n
  | .fin n m e =>
    if m = 0 then f.signBit n
    else
      let r := f.roundMag 0 n m 1 (e + k)
      if r.overflow then (if sat then f.signBit n + f.maxCode else if f.kind = 1 then f.nan else f.inf n)
      else f.signBit n + r.code

/-- QCVT narrowing to E2M1: saturates in both modes, NaN gives 0, and no code 0b1000 (R35, R42). -/
def qE2M1 (x : Val) (k : Int) : Nat :=
  match x with
  | .nan _ => 0
  | .inf n => e2m1.signBit n + 7
  | .fin n m e =>
    if m = 0 then 0
    else
      let r := e2m1.roundMag 0 n m 1 (e + k)
      if r.code = 0 then 0 else e2m1.signBit n + r.code

/-- QCVT narrowing to INT8 (R42). -/
def qInt8 (x : Val) (k : Int) : Int :=
  match x with
  | .nan _ => 0
  | .inf n => if n then -128 else 127
  | .fin n m e => (Val.toInt 0 (-128) 127 (.fin n m (e + k))).1

/-- The exact value of a lone E2M1 code, 0b1000 read as +0 (R35, R43). -/
def e2m1Lone (c : Nat) : Val := if c % 16 = 8 then .fin false 0 0 else e2m1.decode (c % 16)

end Sys2Proof.Machine
end

