-- ==== Sys2Proof/Machine/Flags.lean ====
section
/-! DEFINITION. Results and exception flags of the floating-point instructions (R32, R36 to R43, R114 to R120). -/

namespace Sys2Proof.Machine

/-- A floating-point result as it stands in a register, and its flags. -/
abbrev FpOut := Word × BitVec 5

/-- The value of the low bits of a register in a format (R32). -/
def Fmt.read (f : Fmt) (x : Word) : Val := f.decode (x.toNat % 2 ^ f.width)
/-- A code as a register holds it: zero above (R32). -/
def placeFp (r : Nat × Flags) : FpOut := (BitVec.ofNat 64 r.1, r.2)

/-- add, sub, mul, fused multiply-add, min and max of format f under rounding mode rm (Table 5.7): operands A, B, D. -/
def fpAdd (f : Fmt) (rm : Nat) (a b _d : Word) : FpOut := placeFp (f.add rm (f.read a) (f.read b))
/-- Subtraction (R114). -/
def fpSub (f : Fmt) (rm : Nat) (a b _d : Word) : FpOut := placeFp (f.add rm (f.read a) (f.read b).neg)
/-- Multiplication (R114). -/
def fpMul (f : Fmt) (rm : Nat) (a b _d : Word) : FpOut := placeFp (f.mul rm (f.read a) (f.read b))
/-- Fused A × B + D (R114). -/
def fpFma (f : Fmt) (rm : Nat) (a b d : Word) : FpOut := placeFp (f.fma rm (f.read a) (f.read b) (f.read d))
/-- minimumNumber (R39, R114). -/
def fpMin (f : Fmt) (_rm : Nat) (a b _d : Word) : FpOut := placeFp (f.minMax true (a.toNat % 2 ^ f.width) (b.toNat % 2 ^ f.width))
/-- maximumNumber (R39, R114). -/
def fpMax (f : Fmt) (_rm : Nat) (a b _d : Word) : FpOut := placeFp (f.minMax false (a.toNat % 2 ^ f.width) (b.toNat % 2 ^ f.width))
/-- Magnitude of A (R114). -/
def fpAbs (f : Fmt) (a : Word) : Word := BitVec.ofNat 64 (a.toNat % 2 ^ (f.width - 1))
/-- A with its sign inverted (R114). -/
def fpNeg (f : Fmt) (a : Word) : Word := BitVec.ofNat 64 ((a.toNat + 2 ^ (f.width - 1)) % 2 ^ f.width)
/-- Magnitude of A with the sign of B (R114). -/
def fpCopySign (f : Fmt) (a b : Word) : Word :=
  BitVec.ofNat 64 (a.toNat % 2 ^ (f.width - 1) + (if b.getLsbD (f.width - 1) then 2 ^ (f.width - 1) else 0))
/-- Class mask (R115). -/
def fpClass (f : Fmt) (a : Word) : Word := BitVec.ofNat 64 (f.classMask (a.toNat % 2 ^ f.width))

/-- An operation on both 16-bit elements of a packed register (R116). -/
def packed (op : Word → Word → Word → FpOut) (a b d : Word) : FpOut :=
  let lo := op (a &&& 0xFFFF) (b &&& 0xFFFF) (d &&& 0xFFFF)
  let hi := op (a >>> 16 &&& 0xFFFF) (b >>> 16 &&& 0xFFFF) (d >>> 16 &&& 0xFFFF)
  (lo.1 ||| hi.1 <<< 16, lo.2 ||| hi.2)

/-- 1 / A, 1 / √A, √A and A / B (R40, R120). -/
def fpRcp (f : Fmt) (rm : Nat) (a _b : Word) : FpOut := placeFp (f.div rm (.fin false 1 0) (f.read a))
/-- 1 / √A (R40, R120). -/
def fpRsq (f : Fmt) (rm : Nat) (a _b : Word) : FpOut := placeFp (f.rsqrt rm (f.read a))
/-- √A (R40, R120). -/
def fpSqrt (f : Fmt) (rm : Nat) (a _b : Word) : FpOut := placeFp (f.sqrt rm (f.read a))
/-- A / B (R40, R120). -/
def fpDiv (f : Fmt) (rm : Nat) (a b : Word) : FpOut := placeFp (f.div rm (f.read a) (f.read b))

/-! ### Faithful functions (R40): an irrational result is bracketed in 512-bit fixed point, and Config chooses the
neighbour (log 10). -/

/-- One unit of the fixed point. -/
def fixOne : Nat := 2 ^ 512
/-- π in the fixed point. -/
def fixPi : Nat := 0x3243f6a8885a308d313198a2e03707344a4093822299f31d0082efa98ec4e6c89452821e638d01377be5466cf34e90c6cc0ac29b7c97c50dd3f84d5b5b5470917

/-- Delivers the lower or upper FP32 neighbour of a value that FP32 does not represent: ± num / den * 2 ^ e. -/
def faithful (fn : Nat) (bits : Nat) (neg : Bool) (num den : Nat) (e : Int) : FpOut :=
  let r := fp32.roundMag 1 neg num den e
  let code := if Config.sfuUpper fn bits then r.code + 1 else r.code
  (BitVec.ofNat 64 (fp32.signBit neg + code), if r.tiny then 0b00011 else 0b00001)

/-- Product of 2 ^ (2 ^ -k) over the set bits k of a fraction, from its bit n - 1 down:  is 2 ^ (2 ^ -k) now. -/
def expBits (frac : Nat) : Nat → Nat → Nat → Nat
  | 0, _, acc => acc
  | n + 1, root, acc =>
    expBits frac n (isqrt (root * fixOne)) (if frac.testBit n then acc * root / fixOne else acc)

/-- 2^A (R40, R120). -/
def fpExp2 (_rm : Nat) (a _b : Word) : FpOut :=
  let bits := a.toNat % 2 ^ 32
  match fp32.read a with
  | .nan sg => (BitVec.ofNat 64 fp32.nan, if sg then 0b10000 else 0)
  | .inf n => if n then (0, 0) else (BitVec.ofNat 64 (fp32.inf false), 0)
  | .fin n m e =>
    if m = 0 then (0x3F800000, 0)
    else if !n && decide (2 ^ 7 ≤ m * 2 ^ e.toNat) && decide (0 ≤ e) || (!n && decide (e < 0) && decide (2 ^ 7 ≤ m / 2 ^ (-e).toNat)) then
      (BitVec.ofNat 64 (fp32.inf false), 0b00101)
    else if n && (decide (0 ≤ e) && decide (2 ^ 8 ≤ m * 2 ^ e.toNat) || decide (e < 0) && decide (2 ^ 8 ≤ m / 2 ^ (-e).toNat)) then
      faithful 0 bits false 1 1 (-300)
    else
      let q := (-e).toNat
      let x : Int := (if n then -1 else 1) * (m <<< e.toNat : Nat)
      let k := x / (2 ^ q : Nat)
      let f := (x % (2 ^ q : Nat)).toNat
      if f = 0 then
        let r := fp32.roundMag 0 false 1 1 k
        if r.exact then (BitVec.ofNat 64 r.code, 0) else faithful 0 bits false 1 1 k
      else faithful 0 bits false (expBits f q (isqrt (2 * fixOne * fixOne)) fixOne) fixOne k

/-- Fraction bits of log2 of a fixed-point number in [1, 2), by repeated squaring. -/
def logBits : Nat → Nat → Nat → Nat
  | 0, _, acc => acc
  | n + 1, y, acc =>
    let y2 := y * y / fixOne
    if 2 * fixOne ≤ y2 then logBits n (y2 / 2) (2 * acc + 1) else logBits n y2 (2 * acc)

/-- log2 A (R40, R120). -/
def fpLog2 (_rm : Nat) (a _b : Word) : FpOut :=
  let bits := a.toNat % 2 ^ 32
  match fp32.read a with
  | .nan sg => (BitVec.ofNat 64 fp32.nan, if sg then 0b10000 else 0)
  | .inf n => if n then (BitVec.ofNat 64 fp32.nan, 0b10000) else (BitVec.ofNat 64 (fp32.inf false), 0)
  | .fin n m e =>
    if m = 0 then (BitVec.ofNat 64 (fp32.inf true), 0b01000)
    else if n then (BitVec.ofNat 64 fp32.nan, 0b10000)
    else
      let l := Nat.log2 m
      let k := e + l
      if m = 2 ^ l then placeFp (fp32.ofInt 0 k)
      else
        let v : Int := k * (2 ^ 100 : Nat) + logBits 100 (m * fixOne / 2 ^ l) 0
        -- the value lies strictly between v and v + 1 units
        let w := 2 * v + 1
        faithful 1 bits (decide (w < 0)) w.natAbs 1 (-101)

/-- Alternating Taylor terms: `t` is the current term, `x2` the square of the argument, `k` the last factorial index. -/
def trigTerms (x2 : Nat) : Nat → Nat → Nat → Int
  | 0, _, _ => 0
  | n + 1, k, t => (t : Int) - trigTerms x2 n (k + 2) (t * x2 / fixOne / ((k + 1) * (k + 2)))

/-- sin(π r / 2 ^ q) for 0 < r / 2 ^ q < 1 / 2, or the cosine, in the fixed point. -/
def trig (cosine : Bool) (r q : Nat) : Nat :=
  let x := fixPi * r / 2 ^ q
  let x2 := x * x / fixOne
  (if cosine then trigTerms x2 60 0 fixOne else trigTerms x2 60 1 x).toNat

/-- sin(π x) or cos(π x) of a finite x = ± m * 2 ^ e. -/
def trigPi (fn bits : Nat) (cosine neg : Bool) (m : Nat) (e : Int) : FpOut :=
  let q := (-e).toNat
  let x := m <<< e.toNat
  -- position on the half circle, in units of 2 ^ -q: x mod 2
  let p := x % (2 * 2 ^ q)
  let half := decide (2 ^ q ≤ p)
  let r := p % 2 ^ q
  if cosine then
    if 2 * r = 2 ^ q then (0, 0)
    else
      let sgn := half != decide (2 ^ q < 2 * r)
      let r' := if 2 ^ q < 2 * r then 2 ^ q - r else r
      if r' = 0 then (BitVec.ofNat 64 (fp32.signBit sgn + 0x3F800000), 0)
      else faithful fn bits sgn (2 * trig true r' q + 1) (2 * fixOne) 0
  else
    let sgn := neg != half
    if r = 0 then (BitVec.ofNat 64 (fp32.signBit neg), 0)
    else if 2 * r = 2 ^ q then (BitVec.ofNat 64 (fp32.signBit sgn + 0x3F800000), 0)
    else
      let r' := if 2 ^ q < 2 * r then 2 ^ q - r else r
      faithful fn bits sgn (2 * trig false r' q + 1) (2 * fixOne) 0

/-- sin(π A) (R40, R120). -/
def fpSinpi (_rm : Nat) (a _b : Word) : FpOut :=
  match fp32.read a with
  | .nan sg => (BitVec.ofNat 64 fp32.nan, if sg then 0b10000 else 0)
  | .inf _ => (BitVec.ofNat 64 fp32.nan, 0b10000)
  | .fin n m e => if m = 0 then (BitVec.ofNat 64 (fp32.signBit n), 0) else trigPi 2 (a.toNat % 2 ^ 32) false n m e

/-- cos(π A) (R40, R120). -/
def fpCospi (_rm : Nat) (a _b : Word) : FpOut :=
  match fp32.read a with
  | .nan sg => (BitVec.ofNat 64 fp32.nan, if sg then 0b10000 else 0)
  | .inf _ => (BitVec.ofNat 64 fp32.nan, 0b10000)
  | .fin n m e => if m = 0 then (0x3F800000, 0) else trigPi 3 (a.toNat % 2 ^ 32) true n m e

/-! ### Conversions (R41, R118) -/

/-- Bits and signedness of an integer type code 0 to 3. -/
def intType (t : Nat) : Nat × Bool := (if t < 2 then 32 else 64, t % 2 == 0)
/-- Format of a floating-point type code 4 to 7. -/
def fpType (t : Nat) : Fmt := if t = 4 then fp16 else if t = 5 then bf16 else if t = 6 then fp32 else fp64
/-- The integer that a register holds as a type (R32). -/
def readInt (t : Nat) (x : Word) : Int :=
  let (n, sg) := intType t
  if sg then sextInt n x.toNat else (x.toNat % 2 ^ n : Nat)
/-- An integer as a register holds it in a type, wrapped to its width (R32). -/
def placeInt (t : Nat) (x : Int) : Word :=
  let (n, sg) := intType t
  let m := (BitVec.ofInt n x).toNat
  if sg then wordOfInt (sextInt n m) else BitVec.ofNat 64 m

/-- `cvt` from type src to type dst (R41, R118). -/
def convert (src dst rm : Nat) (a : Word) : FpOut :=
  if src < 4 then
    if dst < 4 then (placeInt dst (readInt src a), 0) else placeFp ((fpType dst).ofInt rm (readInt src a))
  else
    let x := (fpType src).read a
    if dst < 4 then
      let (n, sg) := intType dst
      let lo : Int := if sg then -(2 ^ (n - 1) : Nat) else 0
      let hi : Int := if sg then (2 ^ (n - 1) : Nat) - 1 else (2 ^ n : Nat) - 1
      let r := x.toInt rm lo hi
      (placeInt dst r.1, r.2)
    else placeFp ((fpType dst).ofVal rm x)

/-- The scale exponent of QCVT (R119). -/
def qScale (b : Word) : Int := sextInt 32 b.toNat

end Sys2Proof.Machine
end

