-- ==== Sys2Proof/Machine/Operands.lean ====
section
/-! DEFINITION. The operand forms of the lane and uniform formats, and how a result reaches its destination (R58, R61,
R63, R81 to R86, R101, R123). -/

namespace Sys2Proof.Machine

/-- Operand B of a lane format: a lane register, or with `BU` = 1 a uniform register (R82, R101). -/
def Gang.opB (g : Gang) (lane : Nat) (b : BitVec 6) (u : BitVec 1) : Word :=
  if u = 1#1 then g.sreg b.toNat else g.vreg lane b.toNat
/-- The registers that a list of lane registers and one operand B name. -/
def useB (lanes : List (BitVec 6)) (b : BitVec 6) (u : BitVec 1) : Use :=
  let l := lanes.map BitVec.toNat
  if u = 1#1 then .regs l [b.toNat] else .regs (l ++ [b.toNat]) []

/-- What an instruction does in one thread: lane registers and guards written, and flags set. -/
structure Eff where
  v : List (Nat × Word)
  g : List (Nat × Bool)
  f : BitVec 5
  deriving DecidableEq, Repr, Inhabited

/-- Writes one lane register. -/
def Eff.reg (d : BitVec 6) (x : Word) : Eff := ⟨[(d.toNat, x)], [], 0⟩
/-- Writes one lane register and sets flags. -/
def Eff.fp (d : BitVec 6) (x : FpOut) : Eff := ⟨[(d.toNat, x.1)], [], x.2⟩

/-- Applies the effect of an instruction in a lane, and completes it there. -/
def Gang.apply (g : Gang) (lane : Nat) (e : Eff) (next : Word) : Gang :=
  let g := e.v.foldl (fun g p => g.setV lane p.1 p.2) g
  let g := e.g.foldl (fun g p => g.setGuard lane p.1 p.2) g
  (g.setFlags lane e.f).finish lane next

/-- An instruction that acts in each thread of the group on the registers as they were before it (R101): every thread
without a trap takes its effect, the others fault (R58). -/
def State.perLane (s : State) (f : Gang → Nat → Except Trap Eff) : State :=
  match s.gang s.cur with
  | none => s
  | some g =>
    let ls := lanesOf s.mask
    let s1 := s.setGang s.cur (ls.foldl (fun g' l => match f g l with
      | .ok e => g'.apply l e (g.pcOf l + 4)
      | .error _ => g') g)
    s1.raise s.cur (ls.filterMap fun l => match f g l with
      | .error t => some (l, t)
      | .ok _ => none)

/-- As `perLane`, where no thread can trap. -/
def State.inLanes (s : State) (f : Gang → Nat → Eff) : State :=
  s.updGang s.cur fun g => (lanesOf s.mask).foldl (fun g' l => g'.apply l (f g l) (g.pcOf l + 4)) g

/-- LR form: vd := f A B D. -/
def State.laneR (s : State) (d a b : BitVec 6) (u : BitVec 1) (f : Word → Word → Word → Word) :
    Host.Outcome State Fault Refusal :=
  s.issue (useB [d, a] b u) fun s =>
    s.inLanes fun g l => .reg d (f (g.vreg l a.toNat) (g.opB l b u) (g.vreg l d.toNat))

/-- LR form with one source: vd := f A. -/
def State.laneU (s : State) (d a : BitVec 6) (f : Word → Word) : Host.Outcome State Fault Refusal :=
  s.issue (.regs [d.toNat, a.toNat] []) fun s => s.inLanes fun g l => .reg d (f (g.vreg l a.toNat))

/-- LI form: vd := f A D. -/
def State.laneI (s : State) (d a : BitVec 6) (f : Word → Word → Word) : Host.Outcome State Fault Refusal :=
  s.issue (.regs [d.toNat, a.toNat] []) fun s =>
    s.inLanes fun g l => .reg d (f (g.vreg l a.toNat) (g.vreg l d.toNat))

/-- LR form of an arithmetic instruction under the thread's rounding mode, with flags. -/
def State.laneF (s : State) (d a b : BitVec 6) (u : BitVec 1) (f : Nat → Word → Word → Word → FpOut) :
    Host.Outcome State Fault Refusal :=
  s.issue (useB [d, a] b u) fun s =>
    s.inLanes fun g l => .fp d (f (g.rm l) (g.vreg l a.toNat) (g.opB l b u) (g.vreg l d.toNat))

/-- A comparison that writes a guard (R113, R117). -/
def State.laneC (s : State) (gd : BitVec 3) (a b : BitVec 6) (u : BitVec 1) (f : Word → Word → Bool × BitVec 5) :
    Host.Outcome State Fault Refusal :=
  s.issue { useB [a] b u with guards := [gd.toNat] } fun s =>
    s.inLanes fun g l =>
      let r := f (g.vreg l a.toNat) (g.opB l b u)
      ⟨[], [(gd.toNat, r.1)], r.2⟩

/-- Puts a value in flight to a lane register in each thread, opens the windows and goes on (R85, R87, R120). -/
def State.launchLanes (s : State) (d : BitVec 6) (la : Nat) (f : Gang → Nat → FpOut) : State :=
  s.updGang s.cur fun g =>
    let fs := (lanesOf s.mask).map fun l =>
      let r := f g l
      { id := 32 * s.serialNo + l, issued := s.ptb, lane := l, lanes := laneBit l, regs := [d.toNat], vals := some [r.1], flags := r.2,
        acquire := false, poisoned := false, pc := g.pcOf l, addr := 0 : Flight }
    ({ g with flights := g.flights ++ fs }.finishAll s.mask).openAll s.mask la (.lanes [d.toNat] none)

/-- LX form of the long-latency pipes: vd := f A B, delivered later. -/
def State.laneX (s : State) (d a b : BitVec 6) (u : BitVec 1) (la : BitVec 4) (f : Nat → Word → Word → FpOut) :
    Host.Outcome State Fault Refusal :=
  s.issue (useB [d, a] b u) fun s =>
    s.launchLanes d la.toNat fun g l => f (g.rm l) (g.vreg l a.toNat) (g.opB l b u)

/-- LX form with one source. -/
def State.laneX1 (s : State) (d a : BitVec 6) (la : BitVec 4) (f : Nat → Word → Word → FpOut) :
    Host.Outcome State Fault Refusal :=
  s.issue (.regs [d.toNat, a.toNat] []) fun s => s.launchLanes d la.toNat fun g l => f (g.rm l) (g.vreg l a.toNat) 0

/-- UR form: sd := f A B D (R123). -/
def State.uniR (s : State) (d a b : BitVec 6) (f : Word → Word → Word → Word) : Host.Outcome State Fault Refusal :=
  s.issue (.regs [] [d.toNat, a.toNat, b.toNat]) fun s =>
    s.setUni d.toNat (f (s.uni a.toNat) (s.uni b.toNat) (s.uni d.toNat)) 0

/-- UR form with one source. -/
def State.uniU (s : State) (d a : BitVec 6) (f : Word → Word) : Host.Outcome State Fault Refusal :=
  s.issue (.regs [] [d.toNat, a.toNat]) fun s => s.setUni d.toNat (f (s.uni a.toNat)) 0

/-- UI form: sd := f A D (R124). -/
def State.uniI (s : State) (d a : BitVec 6) (f : Word → Word → Word) : Host.Outcome State Fault Refusal :=
  s.issue (.regs [] [d.toNat, a.toNat]) fun s => s.setUni d.toNat (f (s.uni a.toNat) (s.uni d.toNat)) 0

end Sys2Proof.Machine
end

