-- ==== Sys2Proof/Machine/Access.lean ====
section
/-! DEFINITION. Accesses of threads: checks, scratchpads, L1 hits, requests to homes, waits for release (R158, R159, R175
to R186, R197 to R206, R419, R421). -/

namespace Sys2Proof.Machine

/-! ### The views that a load may return (R177, R178, R184) -/

/-- Bytes of a store laid over bytes read at a key. -/
def overlayOne (key : Nat) (bs : List Byte) (r : Req) : List Byte := overlay key bs r.key r.data
/-- A store that its home has not applied yet. -/
def Req.waiting (r : Req) : Bool :=
  match r.state with
  | .applied _ => false
  | _ => true
/-- A strong store at cluster scope or wider (R184). -/
def Req.strong (r : Req) : Bool := match r.scope with
  | some k => decide (2 ≤ k)
  | none => false
/-- A request touches a byte range. -/
def Req.touches (r : Req) (key n : Nat) : Bool := decide (r.key < key + n) && decide (key < r.key + r.size)
/-- A request of a thread. -/
def Req.of (r : Req) (a : Agent) (lane : Nat) : Bool := r.agent = a && (r.lanes.getLsbD lane || r.lane = lane)

/-- A strong store that its home has applied serves its threads until PTB reaches its WCT, with 20 ns more for another chip (R184). -/
def State.lingers (s : State) (r : Req) : Bool :=
  r.kind = .store && r.strong && match r.state with
  | .applied w => decide (s.ptb < w + s.skew r.key)
  | _ => false
/-- An earlier strong store of the same threads to the same bytes still serves them, so that this store must go on serving them too. -/
def State.overStrong (s : State) (r : Req) : Bool :=
  s.reqs.any fun q => decide (q.id < r.id) && s.lingers q && q.agent = r.agent && q.lanes &&& r.lanes != 0 && q.touches r.key r.size
/-- The thread's own stores that still serve its loads: those not applied, its strong stores until PTB reaches their WCT, and what it stored
over those (R178, R184). -/
def State.ownStore (s : State) (a : Agent) (lanes : LaneMask) (r : Req) : Bool :=
  r.kind = .store && r.agent = a && r.lanes &&& lanes != 0 && (r.waiting || s.lingers r || s.overStrong r)
/-- The requests as a load of one of them sees them: without those that its own threads have made after it (R178). -/
def State.asOf (s : State) (r : Req) : State :=
  { s with reqs := s.reqs.filter fun q => !(q.agent = r.agent && q.lanes &&& r.lanes != 0 && decide (r.id < q.id)) }
/-- Bytes at a key with the thread's own stores laid over. -/
def State.ownView (s : State) (a : Agent) (lanes : LaneMask) (key : Nat) (bs : List Byte) : List Byte :=
  (s.reqs.filter (s.ownStore a lanes)).foldl (overlayOne key) bs
/-- What a fill of a line brings an L1: the home's bytes, with the core's own merged stores not yet applied (R177). -/
def State.fillView (s : State) (l1 key : Nat) (bs : List Byte) : List Byte :=
  (s.reqs.filter fun r => r.kind = .store && r.l1 = l1 && r.merged && r.waiting).foldl (overlayOne key) bs
/-- The bytes of a resident line as the threads of its core read them: over an owned line, which holds what is in coherence order, the
core's own stores not yet applied (R177, R205). -/
def State.lineView (s : State) (l1 key n : Nat) (ln : Line) : List Byte :=
  let bs := (ln.data.drop (key % 128)).take n
  if ln.owned then s.fillView l1 key bs else bs

/-! ### Horizons (R178, R183) -/

/-- Raises the horizon of lanes of a gang. -/
def Gang.bound (g : Gang) (lanes : LaneMask) (time : Nat) : Gang :=
  { g with horizon := (lanesOf lanes).foldl (fun t l => Tab.set 0 t l (max (Tab.at t l 0) time)) g.horizon }
/-- A stamp as a horizon counts it; 0 stands for a value that no store has written. -/
def late (stamp skew : Nat) : Nat := if stamp = 0 then 0 else stamp + skew
/-- Raises the horizon and the last value seen of a line in lanes of a gang. -/
def Gang.observe (g : Gang) (lanes : LaneMask) (line stamp skew : Nat) : Gang :=
  { g.bound lanes (late stamp skew) with
    seen := (lanesOf lanes).foldl (fun t l => Tab.set 0 t (line * 32 + l) (max (Tab.at t (line * 32 + l) 0) stamp)) g.seen }
/-- Lanes of a gang have read what stores not yet acknowledged wrote. -/
def Gang.watch (g : Gang) (lanes : LaneMask) (ids : List Nat) : Gang :=
  { g with watched := ids.map (fun i => (i, lanes)) ++ g.watched }
/-- Lanes of an agent read bytes of a line that its L1 holds or is filled with: their horizon takes its stamp, and the WCT of every store
of the core that was merged into it, once that is known (R176 to R178). -/
def State.observed (s : State) (a : Agent) (lanes : LaneMask) (l1 key n stamp merged : Nat) : State :=
  let ids := (s.reqs.filter fun r => r.kind = .store && r.l1 = l1 && r.merged && r.touches key n &&
    !(r.agent = a && lanes &&& ~~~r.lanes = 0)).map (·.id)
  s.updGang a fun g => ((g.observe lanes (key / 128) stamp (s.skew key)).bound lanes (late merged (s.skew key))).watch lanes ids
/-- Counts a WCT into lanes of a gang. -/
def Gang.wrote (g : Gang) (lanes : LaneMask) (wct : Nat) : Gang :=
  { g with wct := (lanesOf lanes).foldl (fun t l => Tab.set 0 t l (max (Tab.at t l 0) wct)) g.wct }
/-- Time D of R183 of a lane: its WCTs and its horizon. -/
def Gang.releaseTime (g : Gang) (lane : Nat) : Nat := max (Tab.at g.wct lane 0) (Tab.at g.horizon lane 0)
/-- Every earlier load of a lane has performed, and every earlier store and atomic is acknowledged (R183). -/
def State.quiet (s : State) (a : Agent) (lane : Nat) : Bool := !s.reqs.any fun r => r.kind != .prefetch && r.of a lane
/-- A lane has read a value whose WCT is not known yet (R176). -/
def Gang.watching (g : Gang) (lane : Nat) : Bool := g.watched.any fun p => p.2.getLsbD lane
/-- Every earlier load of a lane has performed. -/
def State.loadsDone (s : State) (a : Agent) (lane : Nat) : Bool :=
  !s.reqs.any fun r => (r.kind = .load || r.kind = .own || r.kind = .atomic) && r.waiting && r.of a lane
/-- The wait of R183 at a scope is over in a lane. -/
def State.released (s : State) (a : Agent) (scope lane : Nat) : Bool :=
  s.quiet a lane && (decide (scope ≤ 1) ||
    ((s.gang a).map fun g => !g.watching lane && decide (g.releaseTime lane ≤ s.ptb)).getD true)

/-- A release at a scope by every thread of the group before the instruction acts: they wait for its condition (R183,
R190 Table 8.3). -/
def State.afterRelease (s : State) (scope : Nat) (body : State → State) : State :=
  if (lanesOf s.mask).all fun l => s.released s.cur scope l then body s else s.waitRetry s.mask

/-! ### The L1 (R159, R175, R205) -/

/-- Lines that one set of an L1 holds: 128 sets of 16 ways in a core's L1, 64 of 8 in a service core's (R159, R352). -/
def l1Sets (l1 : Nat) : Nat := if l1 < 512 then 128 else 64
/-- Ways of an L1. -/
def l1Ways (l1 : Nat) : Nat := if l1 < 512 then 16 else 8
/-- Removes a line; an owned one is written back first, and its predictor falls by 1 (R205). -/
def State.dropLine (s : State) (l1 line : Nat) : State :=
  match Tab.find (s.l1At l1) line with
  | none => s
  | some ln =>
    if ln.owned then (s.recall line false).setPredictor l1 line (s.predicts l1 line - 1)
    else s.setL1 l1 (Tab.del (s.l1At l1) line)
/-- Installs a line, replacing the least recently used of a full set; the set is the line number modulo the number of sets (R159;
log 91). -/
def State.install (s : State) (l1 line : Nat) (ln : Line) : State :=
  let set := (s.l1At l1).filter fun p => p.1 % l1Sets l1 = line % l1Sets l1 && p.1 ≠ line
  let s := if set.length < l1Ways l1 then s
    else
      match set.foldl (fun (m : Option (Nat × Line)) p => match m with
        | none => some p
        | some q => if p.2.used < q.2.used then some p else some q) none with
      | some p => s.dropLine l1 p.1
      | none => s
  s.setL1 l1 (Tab.put (s.l1At l1) line ln)
/-- The line that a fetch may hit: its lease is unexpired, or it is owned (R175). -/
def State.fetchHit (s : State) (l1 key : Nat) : Option Line :=
  (Tab.find (s.l1At l1) (key / 128)).filter fun ln => ln.owned || decide (s.ptb + s.skew key < ln.lease)
/-- The line that a load of a lane may hit: its lease is unexpired, or it is owned, and it is not older than a value the
thread has read (R175, R178). -/
def State.hit (s : State) (g : Gang) (l1 : Nat) (lanes : LaneMask) (key : Nat) : Option Line :=
  match Tab.find (s.l1At l1) (key / 128) with
  | some ln =>
    if ln.owned || decide (s.ptb + s.skew key < ln.lease) &&
        (lanesOf lanes).all fun l => decide (Tab.at g.seen (key / 128 * 32 + l) 0 ≤ ln.stamp) then some ln else none
  | none => none
/-- An ordinary store of the core updates its resident copy, which is a use of it (R159, R177); an owned one takes the bytes when they enter coherence order. -/
def State.mergeStore (s : State) (l1 key : Nat) (bs : List Byte) : State :=
  match Tab.find (s.l1At l1) (key / 128) with
  | some ln =>
    if ln.owned then s
    else s.setL1 l1 (Tab.put (s.l1At l1) (key / 128) { ln with data := overlay (key / 128 * 128) ln.data key bs, used := s.serialNo })
  | none => s
/-- What an L1's copy of a line holds of the core's own stores and atomics is acknowledged up to a WCT (R176). -/
def State.mergedUntil (s : State) (l1 line wct : Nat) : State :=
  match Tab.find (s.l1At l1) line with
  | some ln => if ln.owned then s else s.setL1 l1 (Tab.put (s.l1At l1) line { ln with merged := max ln.merged wct })
  | none => s
/-- A use of a resident line, for its replacement (R159). -/
def State.touchLine (s : State) (l1 line : Nat) : State :=
  match Tab.find (s.l1At l1) line with
  | some ln => s.setL1 l1 (Tab.put (s.l1At l1) line { ln with used := s.serialNo })
  | none => s

/-! ### Values -/

/-- Bytes read, as a destination holds them: sign- or zero-extended (R32, R199). -/
def extend (signed : Bool) (bs : List Byte) : Word :=
  if signed then wordOfInt (sextInt (8 * bs.length) (leNat bs)) else BitVec.ofNat 64 (leNat bs)
/-- The words that a load delivers: two of 8 bytes for a 16-byte load (Table 9.2). -/
def loadWords (signed : Bool) (bs : List Byte) : List Word :=
  if bs.length = 16 then [extend false (bs.take 8), extend false (bs.drop 8)] else [extend signed bs]
/-- The new value of an atomic of n bytes, and whether it writes (Table 9.4). `op` counts from `amadd`. -/
def atomicOp (op n : Nat) (old b cmp : Nat) : Option Nat :=
  let sx := fun x => sextInt (8 * n) x
  let m := 2 ^ (8 * n)
  let f := if n = 4 then fp32 else fp64
  match op with
  | 0 => some ((old + b) % m)
  | 1 => some (if sx b < sx old then b else old)
  | 2 => some (if sx old < sx b then b else old)
  | 3 => some (min old b)
  | 4 => some (max old b)
  | 5 => some (old &&& b)
  | 6 => some (old ||| b)
  | 7 => some (old ^^^ b)
  | 8 => some b
  | 9 => if old = cmp then some b else none
  | _ => some (f.add 0 (f.decode old) (f.decode b)).1
/-- Whether the old value of an atomic is delivered sign-extended (R204). -/
def atomicSigned (op : Nat) : Bool := decide (op ≠ 3) && decide (op ≠ 4) && decide (op ≠ 10)

/-! ### Requests -/

/-- Requests of an L1 that have not come back (R11). -/
def State.outstanding (s : State) (l1 : Nat) : Nat := s.reqs.countP fun r => r.l1 = l1
/-- Adds to a performance counter of the workgroup of an agent (R327). -/
def State.countFor (s : State) (a : Agent) (sel n : Nat) : State :=
  match a with
  | .gang w _ => s.updWg w fun g => g.count sel n
  | .core _ => s
/-- The bytes of memory that a request moves: a fill moves its line (R159, R263). -/
def Req.moves (r : Req) : Nat := if r.cached && r.kind ≠ .store && r.kind ≠ .atomic then 128 else r.size
/-- Sends a request to a home; one to another chip is charged as a fabric message (Table 11.9), a load or fill counts, and what it moves
is the tenant's (R263, R327). -/
def State.request (s : State) (r : Req) : State :=
  let s := if s.remote r.key then s.charge (s.sliceOf r.agent) 1 else s
  let s := if r.kind = .load || r.kind = .prefetch || r.kind = .own then s.countFor r.agent 35 1 else s
  let s := s.moves ((s.launchAt r.agent).map (·.tenant)) r.key r.moves
  { s with serialNo := s.serialNo + 1, reqs := s.reqs ++ [{ r with id := s.serialNo }] }
/-- The last request sent comes after another, the lower half of a 16-byte access (R198). -/
def State.chained (s : State) (first : Option Nat) : State :=
  match s.reqs.getLast? with
  | some r => { s with reqs := s.reqs.dropLast ++ [{ r with after := first }] }
  | none => s
/-- The last request sent. -/
def State.lastReq (s : State) : Option Nat := s.reqs.getLast?.map (·.id)
/-- Adds a destination in flight. -/
def State.addFlight (s : State) (f : Flight) : State := s.updGang s.cur fun g => { g with flights := g.flights ++ [f] }

/-- One access of the issuing group after its checks: the lane whose access it is (32 for a uniform one), the threads it
counts for, and where it landed. -/
structure Acc where
  lane : Nat
  lanes : LaneMask
  addr : Word
  loc : Loc
  deriving DecidableEq, Repr, Inhabited

/-- The access goes to memory, and makes one or two requests there (R11, R198). -/
def Acc.toMemory (x : Acc) : Bool :=
  match x.loc with
  | .mem _ _ => true
  | _ => false
/-- A core has no room for the requests that some accesses may make: 4,096 are outstanding at most (R11). -/
def State.noRoom (s : State) (a : Agent) (xs : List Acc) : Bool :=
  xs.any Acc.toMemory && decide (4096 < s.outstanding (s.l1Of a) + 2 * xs.countP Acc.toMemory)
/-- What a fence kept before the later stores of a lane is over: the accesses before it have performed, and PTB has reached time D (R183,
R185). -/
def State.barOver (s : State) (a : Agent) (b : Nat × Nat × Nat) : Bool :=
  !s.reqs.any (fun r => r.kind != .prefetch && r.of a b.1 && decide (r.id < b.2.2)) && (decide (b.2.1 ≤ 1) ||
    ((s.gang a).map fun g => !g.watching b.1 && decide (g.releaseTime b.1 ≤ s.ptb)).getD true)
/-- A store or atomic of a thread waits for a fence before it (R185). -/
def State.barred (s : State) (x : Acc) : Bool :=
  ((s.gang s.cur).map fun g => g.bars.any fun b => x.lanes.getLsbD b.1 && !s.barOver s.cur b).getD false
/-- Fences whose condition holds hold nothing more. -/
def State.endBars (s : State) : State :=
  let open? := fun (a : Agent) (g : Gang) => if g.bars.isEmpty then g else { g with bars := g.bars.filter fun b => !s.barOver a b }
  { s with
    wgs := s.wgs.map fun p => (p.1, { p.2 with gangs := p.2.gangs.map fun q => (q.1, open? (.gang p.1 q.1) q.2) })
    scalars := s.scalars.map fun p => (p.1, { p.2 with ctx := open? (.core p.1) p.2.ctx }) }
/-- An earlier load or atomic of the same threads that touches the bytes has not performed (R178). -/
def State.readAhead (s : State) (a : Agent) (lanes : LaneMask) (key n : Nat) (before : Req → Bool) : Bool :=
  s.reqs.any fun q => before q && q.waiting && q.kind != .store && q.kind != .prefetch && q.agent = a && q.lanes &&& lanes != 0 &&
    q.touches key n
/-- The access must wait before it can issue: an earlier atomic of the thread to the bytes has not performed, or an
earlier access of it to an IO page has not completed (R167, R178). -/
def State.held? (s : State) (x : Acc) (n : Nat) : Bool :=
  match x.loc with
  | .mem key p => s.reqs.any fun r => r.agent = s.cur && r.lanes &&& x.lanes != 0 &&
      ((r.kind = .atomic || r.kind = .own) && r.waiting && r.touches key n || (r.io && p = 2))
  | _ => false

/-- Issues a load of n bytes to destination registers: the value is fixed at once in a scratchpad or on a hit, else, or behind an earlier load
of the same bytes, a request goes to the home (R175, R178, R181, R199). A poisoned line holds the thread at the access (R421; log 38). -/
def State.load (s : State) (x : Acc) (n : Nat) (signed acquire : Bool) (regs : List Nat) : State :=
  let id := 32 * s.serialNo
  let s := { s with serialNo := s.serialNo + 1 }
  let pc := s.curPc
  let fl : Flight := { id := id, issued := s.ptb, lane := x.lane, lanes := x.lanes, regs := regs, vals := none, flags := 0
                       acquire := acquire, poisoned := false, pc := pc, addr := x.addr }
  match x.loc with
  | .mem key p =>
    let l1 := s.l1Of s.cur
    let first := !s.readAhead s.cur x.lanes key n fun _ => true
    match (if p = 0 && first then (s.gang s.cur).bind fun g => s.hit g l1 x.lanes key else none) with
    | some ln =>
      let v := loadWords signed (s.ownView s.cur x.lanes key (s.lineView l1 key n ln))
      let s := (s.observed s.cur x.lanes l1 key n ln.stamp ln.merged).touchLine l1 (key / 128)
      let s := if s.ptb + s.skew key < ln.lease then s.countFor s.cur 34 1 else s
      s.addFlight { fl with vals := some v }
    | none =>
      (s.addFlight { fl with poisoned := s.poisoned key }).request
        { (default : Req) with
          agent := s.cur, lane := x.lane, lanes := x.lanes, l1 := l1, kind := .load, key := key, size := n
          cached := decide (p = 0), signed := signed, flight := some id, state := .sent, io := decide (p = 2), data := [] }
  | l => s.addFlight { fl with vals := some (loadWords signed (s.locRead l n)) }

/-- Issues a store of bytes: at once in a scratchpad, else a request to the home, merged into the core's copy unless it
is strong at cluster scope or wider (R159, R177, R202). -/
def State.storeOne (s : State) (x : Acc) (bs : List Byte) (scope : Option Nat) : State :=
  match x.loc with
  | .mem key p =>
    let l1 := s.l1Of s.cur
    let r : Req :=
      { (default : Req) with
        agent := s.cur, lane := x.lane, lanes := x.lanes, l1 := l1, kind := .store, key := key, size := bs.length
        cached := decide (p = 0), data := bs, scope := scope, state := .sent, io := decide (p = 2) }
    let merged := decide (p = 0) && !r.strong
    let s := s.request { r with merged := merged }
    if merged then s.mergeStore l1 key bs else s
  | l => s.locWrite l bs

/-- The place of the upper half of a 16-byte access that performs as two of 8 bytes, in an NC or IO page (R198). -/
def Acc.upper (x : Acc) : Option Acc :=
  match x.loc with
  | .mem key p => if p ≠ 0 then some { x with addr := x.addr + 8, loc := .mem (key + 8) p } else none
  | _ => none
/-- Issues a store; one of 16 bytes to an NC or IO page performs as two of 8, the lower first (R198). -/
def State.store (s : State) (x : Acc) (bs : List Byte) (scope : Option Nat) : State :=
  match (if bs.length = 16 then x.upper else none) with
  | some y =>
    let t := s.storeOne x (bs.take 8) scope
    (t.storeOne y (bs.drop 8) scope).chained t.lastReq
  | none => s.storeOne x bs scope
/-- Issues the load of a 16-byte pair: two loads of 8 bytes from an NC or IO page, the lower first (R198). -/
def State.loadPair (s : State) (x : Acc) (acquire : Bool) (r : Nat) : State :=
  match x.upper with
  | some y =>
    let t := s.load x 8 false acquire [r]
    (t.load y 8 false acquire [r + 1]).chained t.lastReq
  | none => s.load x 16 false acquire [r, r + 1]
/-- The lower half of a 16-byte load whose upper half faults has performed, to no register (R58, R198). -/
def State.loadHalf (s : State) (x : Acc) : State :=
  match x.loc with
  | .mem key p => s.request { (default : Req) with
      agent := s.cur, lane := x.lane, lanes := x.lanes, l1 := s.l1Of s.cur, kind := .load, key := key, size := 8
      data := [], state := .sent, io := decide (p = 2) }
  | _ => s

/-- Applies an atomic to n bytes where they stand now: the old value and the bytes to write. -/
def atomicAt (old : List Byte) (op : Nat) (b cmp : Word) : Word × Option (List Byte) :=
  let n := old.length
  let m := 2 ^ (8 * n)
  (extend (atomicSigned op) old, (atomicOp op n (leNat old) (b.toNat % m) (cmp.toNat % m)).map (leBytes n))

/-- A near atomic on a line that an L1 owns: the value it read, and what it leaves (R186, R205). -/
def State.nearAtomic (s : State) (a : Agent) (lanes : LaneMask) (l1 key n op : Nat) (b cmp : Word) : Word × State :=
  let line := key / 128
  match s.ownedLine l1 line with
  | none => (0, s)
  | some ln =>
    let x := atomicAt ((ln.data.drop (key % 128)).take n) op b cmp
    let s := s.touchLine l1 line
    match x.2 with
    | some bs =>
      let wct := s.wctNow key
      (x.1, (s.commit l1 wct key bs).updGang a fun g => ((g.wrote lanes wct).observe lanes line ln.stamp 0).observe lanes line wct 0)
    | none => (x.1, s.updGang a fun g => g.observe lanes line ln.stamp 0)
/-- An earlier access that comes before a store or atomic by this agent to the same bytes has not performed: one of the same threads, or a
store that the same L1 has merged (R177, R178). -/
def State.ahead (s : State) (a : Agent) (lanes : LaneMask) (l1 key n : Nat) (before : Req → Bool) : Bool :=
  s.readAhead a lanes key n before || s.reqs.any fun q => before q && q.waiting && q.kind = .store && q.touches key n &&
    ((q.agent = a && q.lanes &&& lanes != 0) || (q.merged && q.l1 = l1))
/-- Issues an atomic of n bytes: at once in a scratchpad or on a line its L1 owns, else a request, for ownership where
Table 9.5 executes it near, for the atomic itself where it executes it far (R186, R204, R205). -/
def State.atomic (s : State) (x : Acc) (n op : Nat) (b cmp : Word) (reg : Nat) : State :=
  let id := 32 * s.serialNo
  let s := { s with serialNo := s.serialNo + 1 }
  let fl : Flight := { id := id, issued := s.ptb, lane := x.lane, lanes := x.lanes, regs := [reg], vals := none, flags := 0
                       acquire := false, poisoned := false, pc := s.curPc, addr := x.addr }
  match x.loc with
  | .mem key p =>
    let l1 := s.l1Of s.cur
    let line := key / 128
    let local? := decide (key < hostKey) && !s.remote key && decide (p = 0)
    let free := !s.busyOn line && !s.ahead s.cur x.lanes l1 key n fun _ => true
    if local? && (s.ownedLine l1 line).isSome && free then
      let r := s.nearAtomic s.cur x.lanes l1 key n op b cmp
      r.2.addFlight { fl with vals := some [r.1] }
    else
      (s.addFlight { fl with poisoned := s.poisoned key }).request
        { (default : Req) with
          agent := s.cur, lane := x.lane, lanes := x.lanes, l1 := l1
          kind := if local? && decide (s.predicts l1 line < 2) then .own else .atomic, key := key, size := n, cached := decide (p = 0)
          data := [], op := op, operand := b, compare := cmp, flight := some id, state := .sent, io := decide (p = 2) }
  | l =>
    let r := atomicAt (s.locRead l n) op b cmp
    let s := match r.2 with
      | some bs => s.locWrite l bs
      | none => s
    s.addFlight { fl with vals := some [r.1] }

/-! ### The checks of one issue (R197) -/

/-- The upper half of a 16-byte access that performs as two of 8 bytes meets a range lock, which its lower half did not (R198). -/
def State.upperLocked (s : State) (kind size : Nat) (x : Acc) : Bool :=
  match (if size = 16 then x.upper else none), s.cur with
  | some y, .gang w i =>
    match s.wg w with
    | some g => s.rangeLocked g.core (.gang w i) (s.ctxOf s.cur).pasid kind y.addr.toNat 8
    | none => false
  | _, _ => false
/-- Runs an access of each lane in a list, (lane, threads it counts for, address), after the checks of Table 9.1: a
translation that misses, or no room for the requests, makes the whole group wait and issue again (R11); lanes that fail a check fault;
the others perform `go`, which is also to complete the instruction in them. `half` performs the lower half of a 16-byte access whose
upper half alone faults (R198). -/
def State.access (s : State) (kind size : Nat) (ps : List (Nat × LaneMask × Word)) (hold : State → Acc → Bool)
    (half : State → Acc → State) (go : State → List Acc → State) : State :=
  let cs := ps.map fun p => (p, s.check s.cur kind size p.2.2)
  let miss := cs.filter fun c => c.2 = .miss
  if !miss.isEmpty then
    (s.waitRetry s.mask).startWalks s.cur kind (miss.flatMap fun c => (lanesOf c.1.2.1).map fun l => (l, c.1.2.2))
  else
    let found := cs.filterMap fun c => match c.2 with
      | .ok l => some (⟨c.1.1, c.1.2.1, c.1.2.2, l⟩ : Acc)
      | _ => none
    let oks := found.filter fun x => !s.upperLocked kind size x
    let halves := found.filter (s.upperLocked kind size)
    if found.any (hold s) || s.noRoom s.cur found then s.waitRetry s.mask
    else
      let pc := s.curPc
      let bad := (cs.flatMap fun c => match c.2 with
        | .fault f => (lanesOf c.1.2.1).map fun l => (l, addrTrap f c.1.2.2 pc)
        | _ => []) ++ halves.flatMap fun x => (lanesOf x.lanes).map fun l => (l, addrTrap 9 (x.addr + 8) pc)
      let s1 := halves.foldl half (go s oks)
      if bad.isEmpty then s1 else s1.raise s1.cur bad

/-- The lanes of a list of accesses. -/
def accLanes (xs : List Acc) : LaneMask := xs.foldl (fun m x => m ||| x.lanes) 0

/-- The threads of the group whose guard condition holds (R83). -/
def Gang.passing (g : Gang) (m : LaneMask) (guard : Nat) (inv : Bool) : List Nat :=
  (lanesOf m).filter fun l => g.guard l guard != inv

/-! ### What homes do -/

/-- Changes a destination in flight of an agent. -/
def State.updFlight (s : State) (a : Agent) (id : Nat) (f : Flight → Flight) : State :=
  s.updGang a fun g => { g with flights := g.flights.map fun x => if x.id = id then f x else x }
/-- Changes a request. -/
def State.updReq (s : State) (id : Nat) (f : Req → Req) : State :=
  { s with reqs := s.reqs.map fun r => if r.id = id then f r else r }
/-- Removes a request. -/
def State.dropReq (s : State) (id : Nat) : State := { s with reqs := s.reqs.filter fun r => r.id ≠ id }
/-- The request with a name. -/
def State.req (s : State) (id : Nat) : Option Req := s.reqs.find? fun r => r.id = id

/-- An earlier request to the same bytes comes first, or the lower half of the same access does: in an IO page once it has completed
(R167, R177, R178, R198). -/
def State.behind (s : State) (r : Req) : Bool :=
  (match r.after with
    | some k => s.reqs.any fun q => q.id = k && (q.waiting || q.io)
    | none => false) ||
  if r.kind = .load then s.readAhead r.agent r.lanes r.key r.size fun q => decide (q.id < r.id)
  else s.ahead r.agent r.lanes r.l1 r.key r.size fun q => decide (q.id < r.id)
/-- The lease that a home grants now, for an asked length: at most 4,096 ns, and no later than a pending strong store's
WCT (R175, R184). -/
def State.grant (s : State) (line lease : Nat) : Nat :=
  let e := s.ptb + min lease 4096
  match s.pendingOn line with
  | some w => min e w
  | none => e

/-- Fills a line into an L1 under a lease of an asked length, where its home grants one; an L1 that owns the line keeps it so (R175,
R177). -/
def State.fill (s : State) (l1 line lease : Nat) : State :=
  let e := s.grant line lease
  if decide (s.ptb < e) && (s.ownedLine l1 line).isNone && !s.poisoned (line * 128) then
    let bs := s.fillView l1 (line * 128) (s.homeRead (line * 128) 128)
    let s := s.setHome line { s.home line with lease := max (s.home line).lease e }
    s.install l1 line ⟨e, (s.home line).stamp, 0, bs, false, s.serialNo⟩
  else s
/-- Ownership of a line by another L1 ends before the home serves an access of this one (R205). -/
def State.recallFor (s : State) (l1 line : Nat) : State :=
  let h := s.home line
  if h.owner.isSome && h.owner != some l1 then s.recall line true else s
/-- A home serves a load: its value is fixed, and a cached line is installed under a lease when one is granted (R175). -/
def State.serveLoad (s : State) (r : Req) (lease : Nat) : State :=
  let line := r.key / 128
  let s := s.recallFor r.l1 line
  let home := s.homeRead r.key r.size
  let raw := if r.cached then (s.asOf r).fillView r.l1 r.key home else home
  let v := loadWords r.signed ((s.asOf r).ownView r.agent r.lanes r.key raw)
  let s := if r.cached && (r.kind != .prefetch || (s.fetchHit r.l1 r.key).isNone) then s.fill r.l1 line lease else s
  let s := match r.flight with
    | some f =>
      let bad := s.poisoned r.key
      let s := s.updFlight r.agent f fun x => { x with vals := some v, poisoned := bad }
      if bad then s
      else s.observed r.agent r.lanes (if r.cached then r.l1 else noL1) r.key r.size (s.home line).stamp 0
    | none => s
  s.dropReq r.id

/-- A home applies an atomic to its bytes; the issuing core's copy of the line takes the new value, under what the core has stored since, and
its threads observe the value read and the one written (R174, R177, R186). -/
def State.serveAtomic (s : State) (r : Req) : State :=
  let line := r.key / 128
  let s := s.recallFor r.l1 line
  let x := atomicAt (s.homeRead r.key r.size) r.op r.operand r.compare
  let bad := s.poisoned r.key
  let s := match r.flight with
    | some f => s.updFlight r.agent f fun y => { y with vals := some [x.1], poisoned := bad }
    | none => s
  let s := match (if bad then none else x.2) with
    | some bs =>
      let wct := s.wctNow r.key
      let old := (s.home line).stamp
      let s := ((s.commit r.l1 wct r.key bs).mergeStore r.l1 r.key (s.fillView r.l1 r.key bs)).landed r.source r.key wct
      (s.mergedUntil r.l1 line wct).updGang r.agent fun g =>
        ((g.wrote r.lanes (wct + s.skew r.key)).observe r.lanes line old (s.skew r.key)).observe r.lanes line wct (s.skew r.key)
    | none => s.updGang r.agent fun g => g.observe r.lanes line (s.home line).stamp (s.skew r.key)
  s.dropReq r.id

/-- A home grants ownership of a line, unless the L1 has it, and the L1 applies the near atomic there (R205). -/
def State.serveOwn (s : State) (r : Req) : State :=
  let line := r.key / 128
  let s := s.recallFor r.l1 line
  if s.poisoned r.key then s.serveAtomic r
  else
    let s :=
      if (s.ownedLine r.l1 line).isSome then s
      else
        let h := s.home line
        let bs := s.homeRead (line * 128) 128
        (s.setHome line { h with owner := some r.l1, granted := s.ptb }).install r.l1 line ⟨h.lease, h.stamp, 0, bs, true, s.serialNo⟩
    let x := s.nearAtomic r.agent r.lanes r.l1 r.key r.size r.op r.operand r.compare
    let t := x.2.landed r.source r.key (s.wctNow r.key)
    let s := match r.flight with
      | some f => t.updFlight r.agent f fun y => { y with vals := some [x.1], poisoned := false }
      | none => t
    s.dropReq r.id

/-- A home applies a store with its WCT: a thread's awaits its acknowledgement, that of any other is told (R176). -/
def State.applyStore (s : State) (r : Req) (wct : Nat) : State :=
  let w := s.stampOf r.source wct
  let s := s.commit r.l1 w r.key r.data
  if r.source = .thread || r.lanes != 0 then s.updReq r.id fun r => { r with state := .applied w }
  else (s.landed r.source r.key w).dropReq r.id
/-- A home applies one store that reaches it: an ordinary one at once, with its WCT; a strong one is pending until its
WCT (R176, R184). -/
def State.serveStore (s : State) (r : Req) : State :=
  if r.strong then s.updReq r.id fun r => { r with state := .pending (s.wctNow r.key) } else s.applyStore r (s.wctNow r.key)

/-- Holds a request behind a pending strong store, last in the order of arrival (R419). -/
def State.hold (s : State) (r : Req) : State :=
  s.updReq r.id fun q => { q with kind := r.kind, state := .held, arrived := s.arrival }
/-- Puts a request in its place in the order of arrival. -/
def byArrival (r : Req) : List Req → List Req
  | [] => [r]
  | q :: t => if r.arrived ≤ q.arrived then r :: q :: t else q :: byArrival r t
/-- The requests held on a line, in the order of arrival. -/
def State.heldQueue (s : State) (line : Nat) : List Req :=
  (s.reqs.filter fun r => r.state = .held && r.key / 128 = line).foldr byArrival []
/-- Applies held requests in their order, up to the next strong store, which becomes pending (R419). -/
def State.applyHeld (s : State) : List Req → State
  | [] => s
  | r :: rs =>
    if r.kind = .store then
      let s1 := s.serveStore r
      if r.strong then s1 else State.applyHeld s1 rs
    else State.applyHeld (s.serveAtomic r) rs

/-! ### Waits of release (R183, R185) -/

/-- Ends the release wait of a lane where its condition holds: a release store is issued as a strong store to the place that its checks
found before the wait, a fence passes (R183, R203). -/
def State.endRelease (s : State) (a : Agent) (issue lane : Nat) : State :=
  let pc := ((s.gang a).map fun g => g.pcOf lane).getD 0
  match ((s.gang a).map fun g => g.stat lane).getD .ready with
  | .release n scope kind _ addr data loc =>
    let x : Acc := ⟨lane, laneBit lane, addr, loc⟩
    if n = issue ∧ kind ≠ 2 ∧ s.released a scope lane ∧ (kind = 0 → s.noRoom a [x] = false) then
      let s1 := s.updGang a fun g => g.finish lane (pc + 4)
      if kind = 0 then ({ s1 with cur := a }).store x data (some scope) else s1
    else s
  | _ => s

/-! ### Fetch (R21, R23, R132, R159, R175) -/

/-- A byte as an instruction fetch reads it, in a page of a memory type: an unexpired lease of the agent's L1, else its home with what
the core has stored (R160, R175, R177). -/
def State.fetchByte (s : State) (l1 pbmt key : Nat) : Byte :=
  if pbmt ≠ 0 then s.homeByte key
  else match s.fetchHit l1 key with
    | some ln => (s.lineView l1 key 1 ln).getD 0 0
    | none => (s.fillView l1 key [s.homeByte key]).getD 0 0
/-- The places of up to n words from a pc, with their memory types, stopping where a word cannot be fetched. -/
def State.fetchPlaces (s : State) (a : Agent) : Nat → Word → List (Nat × Nat)
  | 0, _ => []
  | n + 1, va =>
    match s.xlateNow (s.ctxOf a) 3 va with
    | .error _ => []
    | .ok (k, p) => if s.poisoned k then [] else (k, p) :: State.fetchPlaces s a n (va + 4)
/-- The word at a place. -/
def State.fetchWord (s : State) (l1 : Nat) (p : Nat × Nat) : BitVec 32 :=
  let b := fun i => s.fetchByte l1 p.2 (p.1 + i)
  b 3 ++ b 2 ++ b 1 ++ b 0
/-- A line that an agent's fetch missed is filled, under a lease that its home chooses, and counts (R159, R175, R327). -/
def State.fetchFill (s : State) (a : Agent) (l1 line : Nat) : State :=
  if (s.fetchHit l1 (line * 128)).isSome then s.touchLine l1 line
  else
    let u := s.unstated
    ((u.2.recallFor l1 line).fill l1 line (u.1.toNat % 4097)).countFor a 35 1
/-- What a broadcast of 48 words at a pc brings and leaves: the words, the lines filled, the entries kept (R21, R159, R165). -/
def State.broadcast (s : State) (a : Agent) (pc : Word) : List (BitVec 32) × State :=
  let ps := s.fetchPlaces a 48 pc
  let l1 := s.l1Of a
  let lines := ((ps.filter fun p => p.2 = 0).map fun p => p.1 / 128).eraseDups
  let t := lines.foldl (fun s n => s.fetchFill a l1 n) s
  (ps.map (s.fetchWord l1), t.keepEntry (s.ctxOf a) 3 (pc + 188))
/-- What a thread is to fault with where the fetch at its pc fails: a transfer that came here has written nothing, and the thread stands
at it again (R132). -/
def Gang.cameFrom (g : Gang) (lane : Nat) : Option (Word × Option Word × List Window) :=
  match Tab.find g.came lane with
  | some (target, pc, link, ws) => if target = g.pcOf lane then some (pc, link, ws) else none
  | none => none
/-- Takes back the transfer that brought a lane to its pc (R132). -/
def Gang.takeBack (g : Gang) (lane : Nat) : Gang :=
  match g.cameFrom lane with
  | none => g
  | some (pc, link, ws) =>
    let g' := match link with
      | some x => g.setV lane 62 x
      | none => g
    { g'.setPc lane pc with windows := (g.windows.filter fun w => w.lane ≠ lane) ++ ws, came := Tab.del g.came lane }
/-- A fetch fails in lanes of an agent, at their pcs: a transfer that came here is taken back, and each lane faults (R132). -/
def State.fetchFails (s : State) (a : Agent) (m : LaneMask) (f : Nat) : State :=
  match s.gang a with
  | none => s
  | some g => (s.updGang a fun g => g.each m Gang.takeBack).raise a
      ((lanesOf m).map fun l => (l, addrTrap f (g.pcOf l) (((g.cameFrom l).map Prod.fst).getD (g.pcOf l))))
/-- One fetch turn of an agent: serves the next of its waiting pcs (R21). The text of a command complex is not given, and nothing
fetches it (log 36). -/
def State.fetchTurn (s : State) (a : Agent) : State :=
  let firmware := match a with
    | .core i => decide (40 ≤ i)
    | .gang .. => false
  match s.gang a with
  | none => s
  | some g =>
    if firmware || !s.mayIssue a then s
    else match nextInTurn g.lastTurn g.waitingPcs with
      | none => s
      | some pc =>
        let m := g.group pc
        match s.fetchCheck a pc with
        | .fault f => s.fetchFails a m f
        | .miss => s.startWalks a 3 ((lanesOf m).map fun l => (l, pc))
        | .ok _ =>
          match s.broadcast a pc with
          | ([], _) => s.fetchFails a m 0x13
          | (ws, t) => t.updGang a fun g =>
            { g with lastTurn := some pc, bufs := (lanesOf m).foldl (fun t l => Tab.put t l ⟨pc, ws⟩) g.bufs
                     came := g.came.filter fun p => !m.getLsbD p.1 }

end Sys2Proof.Machine
end

