-- ==== Sys2Proof/Machine/Fresh.lean ====
section
/-! DEFINITION. Objects as they are when they begin: gangs, workgroups, launches, cores (R18, R57 to R70, R153, R292,
R293, R320), and an instruction placed where the next step fetches it. -/

namespace Sys2Proof.Machine

/-- Lane registers of lane l of a gang at its start (R60 Table 3.2): v60 and v63 the stack top, v61 the thread pointer. -/
def startLane (r : Launch) (wgid gang : Nat) (t : Tab Word) (l : Nat) : Tab Word :=
  let li := wgid * r.ngang * 32 + gang * 32 + l
  let stride := if r.field 0x48 8 = 0 then 2 ^ 23 else r.field 0x48 8
  let top := BitVec.ofNat 64 (r.field 0x40 8 + (li + 1) * stride)
  let tp := BitVec.ofNat 64 (r.field 0x50 8 + li * r.field 0x58 8)
  Tab.set 0 (Tab.set 0 (Tab.set 0 t (64 * l + 60) top) (64 * l + 61) tp) (64 * l + 63) top

/-- A gang at its start (R60, R62, R64, R65, R68, R69, R420). No line of its image is in the register cache; each is owed to the image. -/
def freshGang (r : Launch) (wgid gang now : Nat) : Gang :=
  let live := BitVec.ofNat 32 (r.field 0xC 4)
  { count := r.field 8 1, live := live
    v := (lanesOf live).foldl (startLane r wgid gang) []
    s := Tab.set 0 ((List.range 8).foldl (fun t i => Tab.set 0 t (i + 1) (BitVec.ofNat 64 (r.field (0x68 + 8 * i) 8))) [])
      60 (BitVec.ofNat 64 (r.field 0x60 8))
    g := [], pc := (lanesOf live).foldl (fun t l => Tab.set 0 t l (BitVec.ofNat 64 (r.field 0 8))) [], fcr := []
    gstat := BitVec.ofNat 64 (gang % 4 * 2 ^ 16 + (if bitOf (r.field 9 1) 2 then 2 else 0))
    status := [], callSlot := none, callLanes := 0, callDone := 0, faultLanes := 0, lines := [], dirty := List.range (8 + 2 * r.field 8 1)
    flights := [], windows := [], bufs := [], descs := [], bars := [], came := [], horizon := [], wct := [], seen := [], watched := [], slot := false, lost := false, since := now
    aged := false, yielded := false, served := 0, able := false, lastTurn := none, lastIssue := none, ended := false, callCluster := 0, callPopped := false, faultCluster := 0 }

/-- The gangs of a workgroup at its start. -/
def freshGangs (r : Launch) (wgid now : Nat) : Tab Gang := (List.range r.ngang).map fun g => (g, freshGang r wgid g now)

/-- A convergence register at dispatch (R70). -/
def emptyConv : Conv := ⟨[], [], 0, 0, 0, false, [], []⟩

/-- A workgroup at dispatch: zeroed shares, empty convergence registers, registry and deal list (R70, R153, R308). -/
def freshWg (r : Launch) (launch wgid serial core slot now : Nat) : Workgroup :=
  { launch := launch, wgid := wgid, serial := serial, home := core, homeSlot := slot, place := some (core, slot)
    pinned := false, evicting := false, relaunches := 0, gangs := freshGangs r wgid now, cvs := [], scratch := [], acc := []
    registry := [], deals := [], dealt := 0, perf := [], collective := false, savedLocks := []
    since := now, aged := false, arrivedAt := now }

/-- The schedule registers as a launch record gives them (R72, Table 13.4). -/
def recordSch (record : List Byte) : Tab Word := (List.range 16).foldl (fun t i => Tab.set 0 t i (recWord record (0x100 + 8 * i))) []
/-- A launch when its record has been copied and nothing has started (R72, R292, R320). -/
def freshLaunch (record : List Byte) (serial : Nat) (slice : Word) (tenant pasid dladj order : Nat) : Launch :=
  let sch := recordSch record
  { record := record, serial := serial, slice := slice, tenant := tenant, pasid := pasid, dladj := dladj, started := false
    gdone := 0, wglive := 0, spawned := 0, done := false, statusWord := 0, completed := 0, sch := sch, proof := sch, walk := 0, stock := [], turn := []
    placement := [], firstWg := 0, total := 0, waiting := [], cancel := none, node := none, pod := false, root := 0, rootLaunch := 0, range := [], announced := 0
    acked := [], gone := false, reported := [], lost := [], report := [], firstFault := none, terminated := 0, failCode := 0
    order := order, peerAbort := false, foreign := [], dealtTo := [], wrote := 0, aged := false, freeAt := 0 }

/-- The state of a compute core that holds nothing (R209, R304). -/
def freshCore : Core := ⟨[], [], [], 0, []⟩

/-- A service or command-complex core after package reset: stopped, every K register 0 but `KSHARD` (R74, R355). -/
def freshScalar (i now : Nat) : Scalar :=
  { ctx := freshCtx 0 0 0 0 0 now, k := Tab.set 0 [] 0 (kshard i), running := false, handling := false, idle := false
    charging := none, half := false, measured := false, start := none }

/-- The address at which `withFetchWord` places an instruction. -/
def probePc : Word := 0x1000
/-- The launch record of the gang that runs a placed instruction: 64 registers, one gang, lane 0 (log 14). -/
def probeRecord : List Byte := mkRecord 384 [(0, 8, 0x1000), (8, 1, 64), (0xA, 1, 1), (0xC, 4, 1), (0x10, 8, 0x40000000000)]

/-- A placed instruction runs on a service core: one of the privileged majors, `setdeadline` or `cntadd` (R30). -/
def runsOnService (w : BitVec 32) : Bool :=
  let m := (w >>> 25).toNat
  decide (0x52 ≤ m) && decide (m ≤ 0x55) || decide (m = 0x40) && decide (w.toNat % 128 = 7) ||
    decide (m = 0x4D) && decide (w.toNat / 16 % 8 = 2)

/-- Places an instruction in the loop buffer of a thread that issues next (R21): on a service core where only one may run
it, else in the one gang of a workgroup on CD0.C0.K0. -/
def State.placeWord (s : State) (w : BitVec 32) : State :=
  let buf : Tab LoopBuf := [(0, ⟨probePc, [w]⟩)]
  if runsOnService w then
    let c := freshScalar 0 s.ptb
    { s with
      scalars := Tab.put s.scalars 0 { c with running := true, ctx := { freshCtx probePc 0 0 0 0 s.ptb with bufs := buf } }
      agenda := [⟨0, .issue (.core 0) probePc⟩] }
  else
    let l := freshLaunch probeRecord 1 0 0 0 0 0
    let g := freshWg l 0 0 1 0 0 s.ptb
    let lines := (List.range 136).map fun n => (n, 0)
    { s with
      launches := Tab.put s.launches 0 { l with started := true, wglive := 1, placement := [0] }
      cores := Tab.put s.cores 0 { freshCore with slots := [(0, 0)] }
      wgs := Tab.put s.wgs 0
        { g with gangs := g.gangs.map fun p => (p.1, { p.2 with bufs := buf, lines := lines, slot := true }) }
      agenda := [⟨0, .issue (.gang 0 0) probePc⟩] }

end Sys2Proof.Machine
end

