-- ==== Sys2Proof/Machine/Cross.lean ====
section
/-! DEFINITION. Delivery to registers, convergence registers and cross-lane results (R26, R61, R70, R71, R75 to R77, R87,
R137 to R143, R340). -/

namespace Sys2Proof.Machine

/-- Runs a change with another issuing group named. -/
def State.as (s : State) (a : Agent) (m : LaneMask) (f : State → State) : State :=
  let t := f { s with cur := a, mask := m }
  { t with cur := s.cur, mask := s.mask }

/-! ### Structures of a tenant (R340) -/

/-- The teardown of a tenant has begun: no work of it reads or writes memory under its PASID any more (R29, R347). -/
def State.tornDown (s : State) (tenant : Nat) : Bool := ((Tab.find s.tenants tenant).map (·.teardown)).getD false
/-- Writes bytes of a wired structure of a tenant; a fault is `WIREDFAULT`. -/
def State.wiredWrite (s : State) (tenant pasid : Nat) (va : Word) (bs : List Byte) : State :=
  if s.tornDown tenant then s
  else match s.partWrite (tenantCtx pasid) va bs with
    | .ok s => s
    | .error e => s.wiredFault tenant e.2
/-- Writes bytes of a queue descriptor, completion ring or fault ring of a tenant, with release at system scope; a fault is `WIREDFAULT`
(R191, R262, R347). -/
def State.hubWrite (s : State) (src : Source) (tenant pasid : Nat) (va : Word) (bs : List Byte) : State :=
  match s.writeAt src (some 5) (tenantCtx pasid) va bs with
  | .ok s => s
  | .error e => s.wiredFault tenant e.2
/-- Reads bytes of a wired structure of a tenant; a fault is `WIREDFAULT`. -/
def State.wiredRead (s : State) (tenant pasid : Nat) (va : Word) (n : Nat) : Option (List Byte) × State :=
  match s.partRead (tenantCtx pasid) va n with
  | .ok bs => (some bs, s)
  | .error e => (none, s.wiredFault tenant e.2)

/-! ### Context images (R75, R77) -/

/-- Size of a context image (R75). -/
def imageSize (count : Nat) : Nat := 0x400 + count * 0x100
/-- Base of the context image of gang i of a workgroup (R293). -/
def Launch.image (l : Launch) (wgid i : Nat) : Word :=
  BitVec.ofNat 64 (l.field 0x38 8 + (wgid * l.ngang + i) * imageSize (l.field 8 1))
/-- Writes bytes of the image of a gang in memory. -/
def State.imageWrite (s : State) (w i off : Nat) (bs : List Byte) : State :=
  match s.wg w with
  | some g => match s.launchOf g with
    | some l => s.wiredWrite l.tenant l.pasid (l.image g.wgid i + BitVec.ofNat 64 off) bs
    | none => s
  | none => s
/-- The call state of a gang's image (Table 3.12). -/
def Gang.callState (g : Gang) : List Byte :=
  let slot := match g.callSlot with
    | some j => j
    | none => 2 ^ 64 - 1
  leBytes 8 slot ++ leBytes 4 (g.callLanes &&& ~~~g.callDone).toNat ++ leBytes 4 g.callDone.toNat ++ leBytes 4 g.faultLanes.toNat ++
    List.replicate 12 0
/-- The image of a gang is the only copy of its state: its workgroup is not resident (R77, R337). -/
def State.saved (s : State) (w : Nat) : Bool := ((s.wg w).map (·.place.isNone)).getD false
/-- The part updates the call state of a gang: in its image too, where its workgroup is saved (R420). -/
def State.keepCallState (s : State) (w i : Nat) : State :=
  match s.gang (.gang w i) with
  | some g => if s.saved w then s.imageWrite w i 0x60 g.callState else s
  | none => s
/-- Writes the pc of a resumed lane: in the gang, and in its image where its workgroup is saved (R77, R334). -/
def State.resumeAt (s : State) (w i : Nat) (m : LaneMask) (pc : Word) : State :=
  let s := s.updGang (.gang w i) fun g => g.each m fun g l => g.setPc l pc
  if s.saved w then (lanesOf m).foldl (fun s l => s.imageWrite w i (0x80 + 8 * l) (leBytes 8 pc.toNat)) s else s
/-- Sets bits of `GSTAT` of a gang: in the gang, and in its image where its workgroup is saved (R69, R77). -/
def State.markGang (s : State) (w i : Nat) (bits : Word) : State :=
  let s := s.updGang (.gang w i) fun g => { g with gstat := g.gstat ||| bits }
  match s.wg w with
  | none => s
  | some g =>
    if g.place.isSome then s
    else match s.launchOf g with
      | none => s
      | some l =>
        match s.partRead (tenantCtx l.pasid) (l.image g.wgid i) 8 with
        | .ok bs => s.imageWrite w i 0 (leBytes 8 ((BitVec.ofNat 64 (leNat bs)) ||| bits).toNat)
        | .error e => s.wiredFault l.tenant e.2
/-- Delivers a value to a lane register: to the register cache where its line is there, else to the image (R87). -/
def State.deliverV (s : State) (a : Agent) (lane n : Nat) (x : Word) : State :=
  match s.gang a with
  | none => s
  | some g =>
    if g.holds (lineOfV g.count lane n) then s.updGang a fun g => g.setV lane n x
    else match a with
      | .gang w i => s.imageWrite w i (0x400 + 0x100 * slotOf g.count n + 8 * lane) (leBytes 8 x.toNat)
      | .core _ => s
/-- Delivers a value to a uniform register (R87); s0 discards it. -/
def State.deliverS (s : State) (a : Agent) (n : Nat) (x : Word) : State :=
  match s.gang a with
  | none => s
  | some g =>
    if n = 0 then s
    else if g.holds (lineOfS n) then s.updGang a fun g => g.setS n x
    else match a with
      | .gang w i => s.imageWrite w i (0x200 + 8 * n) (leBytes 8 x.toNat)
      | .core _ => s
/-- A thread goes on at a pc after a wait, and its window opens. -/
def State.proceed (s : State) (a : Agent) (lane : Nat) (la : Nat) (d : Dest) : State :=
  s.updGang a fun g => (g.finish lane (g.pcOf lane + 4)).openAll (laneBit lane) la d

/-! ### Cross-lane results (R142, R143) -/

/-- Combination of Table 6.5. -/
def crossComb (op : Nat) (x y : Word) : Word :=
  match op with
  | 0 => x + y
  | 1 => if x.slt y then x else y
  | 2 => if y.slt x then x else y
  | 3 => if x.ult y then x else y
  | 4 => if y.ult x then x else y
  | 5 => x &&& y
  | 6 => x ||| y
  | 7 => x ^^^ y
  | 8 => (fpAdd fp32 0 x y 0).1
  | 9 => (fpMin fp32 0 x y 0).1
  | 10 => (fpMax fp32 0 x y 0).1
  | 11 => (fpAdd fp64 0 x y 0).1
  | 12 => (fpMin fp64 0 x y 0).1
  | _ => (fpMax fp64 0 x y 0).1
/-- Identity of Table 6.5. -/
def crossIdentity (op : Nat) : Word :=
  match op with
  | 1 => 0x7FFFFFFFFFFFFFFF
  | 2 => 0x8000000000000000
  | 3 => ones
  | 5 => ones
  | 9 => BitVec.ofNat 64 (fp32.inf false)
  | 10 => BitVec.ofNat 64 (fp32.inf true)
  | 12 => BitVec.ofNat 64 (fp64.inf false)
  | 13 => BitVec.ofNat 64 (fp64.inf true)
  | _ => 0
/-- Combination of values that may be absent (R143). -/
def combOpt (op : Nat) : Option Word → Option Word → Option Word
  | some x, some y => some (crossComb op x y)
  | some x, none => some x
  | none, y => y
/-- One level of the reduction tree. -/
def treeLevel (op h : Nat) (t : List (Option Word)) : List (Option Word) :=
  (List.range 32).map fun i =>
    if i % (2 * h) = 0 then combOpt op ((t[i]?).getD none) ((t[i + h]?).getD none) else (t[i]?).getD none
/-- Reduction in the fixed tree of R143. -/
def crossReduce (op : Nat) (a : Nat → Option Word) : Word :=
  let t := [1, 2, 4, 8, 16].foldl (fun t h => treeLevel op h t) ((List.range 32).map a)
  ((t.head?).getD none).getD 0
/-- What the scan of R143 leaves in lane l. -/
def crossScan (op : Nat) (excl : Bool) (a : Nat → Option Word) (l : Nat) : Word :=
  let upto := (List.range (if excl then l else l + 1)).foldl (fun s i => combOpt op s (a i)) none
  upto.getD (crossIdentity op)
/-- What an operation of Table 6.5 reads of an A value: an FP32 operation bits 31:0 (R32, R142; log 85). -/
def crossOperand (op : Nat) (x : Word) : Word := if 8 ≤ op ∧ op ≤ 10 then (x.setWidth 32).setWidth 64 else x
/-- Result of a cross-lane operation in lane l, from the members' A and B values (Table 6.4). -/
def crossResult (major bf : Nat) (a b : Nat → Option Word) (l : Nat) : Word :=
  let own := (a l).getD 0
  let ms := (List.range 32).filter fun j => (a j).isSome
  let taken := fun j => (a j).map (crossOperand (bf % 32))
  let bool := fun (x : Bool) => if x then (1 : Word) else 0
  let maskWhere := fun (p : Word → Bool) => (maskOf (ms.filter fun j => p ((a j).getD 0))).setWidth 64
  if major = 0x16 then (a (((b l).getD 0).toNat % 32)).getD own
  else if major = 0x17 then (a (l ^^^ bf % 32)).getD own
  else if major = 0x18 then crossReduce (bf % 32) taken
  else if major = 0x19 then crossScan (bf % 32) (bf ≥ 32) taken l
  else if major = 0x1A then
    match bf with
    | 0 => bool (ms.all fun j => (a j).getD 0 != 0)
    | 1 => bool (ms.any fun j => (a j).getD 0 != 0)
    | 2 => maskWhere fun x => x != 0
    | _ => bool (ms.all fun j => a j == a (ms.headD 0))
  else maskWhere fun x => x == own

/-! ### Convergence registers (R71 Table 3.8) -/

/-- Convergence register n of a workgroup. -/
def Workgroup.cv (g : Workgroup) (n : Nat) : Conv := Tab.at g.cvs n emptyConv
/-- Replaces a convergence register. -/
def State.setCv (s : State) (w n : Nat) (c : Conv) : State := s.updWg w fun g => { g with cvs := Tab.set emptyConv g.cvs n c }
/-- Lane l of gang i is a member. -/
def Conv.isMember (c : Conv) (i l : Nat) : Bool := (Tab.at c.members i 0).getLsbD l
/-- Every member has arrived. -/
def Conv.complete (c : Conv) : Bool := c.members.all fun p => Tab.at c.arrived p.1 0 == p.2
/-- No gathering: `KIND` and `SIG` 0 and nothing recorded; ARMED, or EMPTY without members. -/
def Conv.settle (c : Conv) : Conv :=
  { c with kind := 0, sig := 0, record := [], shape := [], arrived := [], state := if c.members.isEmpty then 0 else 1 }
/-- Some member lane is not live. -/
def Workgroup.deadMember (g : Workgroup) (c : Conv) : Bool :=
  c.members.any fun p => p.2 &&& ~~~((Tab.find g.gangs p.1).map (·.live)).getD 0 != 0
/-- The threads that have arrived, as (gang, lane). -/
def Conv.arrivals (c : Conv) : List (Nat × Nat) := c.arrived.flatMap fun p => (lanesOf p.2).map fun l => (p.1, l)
/-- What an arrival brought. -/
def Conv.brought (c : Conv) (i l k : Nat) : Word := (Tab.at c.record (32 * i + l) []).getD k 0
/-- Takes threads of a gang out of `ARRIVED` (Table 3.8, pre-emption row). -/
def Conv.unarrive (c : Conv) (i : Nat) (m : LaneMask) : Conv :=
  let c := { c with
    arrived := Tab.set 0 c.arrived i (Tab.at c.arrived i 0 &&& ~~~m)
    record := c.record.filter fun p => !(p.1 / 32 = i && m.getLsbD (p.1 % 32)) }
  if c.state = 2 && c.arrived.isEmpty then c.settle else c
/-- A thread that may issue its abandoned instruction again, from its start. -/
def State.restart (s : State) (w : Nat) (ts : List (Nat × Nat)) : State :=
  ts.foldl (fun s t => s.updGang (.gang w t.1) fun g => g.setStat t.2 .ready) s

/-- Completes a `cvwait` or cross-lane gathering in which every member has arrived: `PHASE` flips and every member goes on,
with its result (R138, R141). -/
def State.gathered (s : State) (w n : Nat) : State :=
  match s.wg w with
  | none => s
  | some g =>
    let c := g.cv n
    if c.state = 2 && c.kind ≤ 2 && c.complete then
      let s1 := s.setCv w n { c.settle with phase := !c.phase }
      c.arrivals.foldl (fun s t =>
        if c.kind = 1 then s.proceed (.gang w t.1) t.2 0 (.lanes [] none)
        else
          let get := fun (k l : Nat) => if c.isMember t.1 l then some (c.brought t.1 l k) else none
          let d := (c.brought t.1 t.2 2).toNat
          let x := crossResult (bitsOf c.sig.toNat 11 6) (bitsOf c.sig.toNat 5 0) (get 0) (get 1) t.2
          (s.deliverV (.gang w t.1) t.2 d x).proceed (.gang w t.1) t.2 (c.brought t.1 t.2 3).toNat (.lanes [d] none)) s1
    else s

/-- The arrival of one thread at a register, with what it brings; none where it faults `XMEMBER` (Table 3.8, R138, R141). -/
def Conv.arrive (c : Conv) (i l kind : Nat) (sig : Word) (brings : List Word) : Option Conv :=
  if !c.isMember i l || (c.state = 2 && (c.kind ≠ kind || c.sig != sig)) then none
  else some { c with
    arrived := Tab.put c.arrived i (Tab.at c.arrived i 0 ||| laneBit l), state := 2, kind := kind, sig := sig
    record := Tab.put c.record (32 * i + l) brings }

/-- The threads of the issuing group arrive at a register of their workgroup for `cvwait` (kind 1) or a cross-lane
operation (kind 2). -/
def State.arriveAll (s : State) (n kind : Nat) (sig : Word) (brings : Gang → Nat → List Word) : State :=
  match s.cur with
  | .core _ => s
  | .gang w i =>
    match s.wg w, s.gang s.cur with
    | some wg, some g =>
      let c := wg.cv n
      let barred := kind = 2 && ((c.members.any fun p => p.1 ≠ i) || wg.deadMember c)
      let r := (lanesOf s.mask).foldl (fun (r : Conv × List Nat) l =>
        match (if barred then none else r.1.arrive i l kind sig (brings g l)) with
        | some c => (c, r.2)
        | none => (r.1, r.2 ++ [l])) (c, [])
      let here := s.mask &&& ~~~maskOf r.2
      let s1 := (s.setCv w n r.1).updGang s.cur fun g => g.each here fun g l => g.setStat l (.gather n)
      let s2 := if r.2.isEmpty then s1 else s1.raise s.cur (r.2.map fun l => (l, bareTrap 0xA (g.pcOf l)))
      s2.gathered w n
    | _, _ => s

/-- Takes threads of a gang, which are no longer live, out of every convergence register (R26, Table 3.8). -/
def State.cvDepart (s : State) (w i : Nat) (m : LaneMask) : State :=
  (List.range 8).foldl (fun s n =>
    match s.wg w with
    | none => s
    | some g =>
      let c := g.cv n
      let c := { c with members := Tab.set 0 c.members i (Tab.at c.members i 0 &&& ~~~m) }.unarrive i m
      (s.setCv w n (if c.members.isEmpty then c.settle else c)).gathered w n) s

/-- Replaces the members of a register (R137): threads no longer members abandon their instruction. -/
def State.cvAssign (s : State) (w n : Nat) (ms : Tab LaneMask) : State :=
  match s.wg w with
  | none => s
  | some g =>
    let c := g.cv n
    let out := c.arrivals.filter fun t => !(Tab.at ms t.1 0).getLsbD t.2
    let c := out.foldl (fun c t => c.unarrive t.1 (laneBit t.2)) { c with members := ms }
    let c := if ms.isEmpty || c.state = 0 then c.settle else c
    ((s.setCv w n c).restart w out).gathered w n

/-- Takes waiting threads of a gang out of every gathering, to issue again from the start (R336). -/
def State.cvAbandon (s : State) (w i : Nat) (m : LaneMask) : State :=
  (List.range 8).foldl (fun s n =>
    match s.wg w with
    | none => s
    | some g =>
      let c := g.cv n
      let out := Tab.at c.arrived i 0 &&& m
      if out = 0 then s
      else (s.setCv w n (c.unarrive i out)).restart w ((lanesOf out).map fun l => (i, l))) s

end Sys2Proof.Machine
end

