-- ==== Sys2Proof/Machine/Barrier.lean ====
section
/-! DEFINITION. Barrier objects and the BAR major (R307 to R319, R346, R381). -/

namespace Sys2Proof.Machine

/-! ### Objects (R307 to R309) -/

/-- A barrier object: its low half, and `BYTEPEND` (Table 14.1). -/
structure Obj where
  lo : Word
  bytes : Int
  deriving DecidableEq, Repr, Inhabited

/-- `POISON`. -/
def Obj.poison (o : Obj) : Bool := o.lo.getLsbD 63
/-- `PHASE`. -/
def Obj.phase (o : Obj) : Bool := o.lo.getLsbD 62
/-- `ARRCNT`. -/
def Obj.arrcnt (o : Obj) : Nat := bitsOf o.lo.toNat 47 32
/-- `ARRPEND`. -/
def Obj.arrpend (o : Obj) : Nat := bitsOf o.lo.toNat 31 16
/-- An object with its four fields set; the reserved bits stay as the bytes hold them. -/
def Obj.put (o : Obj) (poison phase : Bool) (cnt pend : Nat) : Obj :=
  { o with lo := (o.lo &&& 0x3FFF00000000FFFF) ||| BitVec.ofNat 64 (cnt % 65536 * 2 ^ 32 + pend % 65536 * 2 ^ 16) |||
      (if poison then 0x8000000000000000 else 0) ||| (if phase then 0x4000000000000000 else 0) }
/-- The object at a scratch offset. -/
def Workgroup.obj (g : Workgroup) (off : Nat) : Obj :=
  ⟨BitVec.ofNat 64 (leNat (Mem.bytes g.scratch off 8)), sextInt 64 (leNat (Mem.bytes g.scratch (off + 8) 8))⟩
/-- Writes an object whole. -/
def State.setObj (s : State) (w off : Nat) (o : Obj) : State :=
  s.scratchWrite w off (leBytes 8 o.lo.toNat ++ leBytes 8 (wordOfInt o.bytes).toNat)
/-- Replaces a registry entry. -/
def State.setReg (s : State) (w off : Nat) (r : BarReg) : State :=
  s.updWg w fun g => { g with registry := Tab.put g.registry off r }
/-- `TID` of a lane of gang i, as a mask (R308). -/
def tidBit (i l : Nat) : BitVec 1024 := 1#1024 <<< (32 * i + l)
/-- A 64-bit signed value at its limits. -/
def saturate (x : Int) : Int := max (-(2 ^ 63)) (min (2 ^ 63 - 1) x)

/-! ### Waiting threads -/

/-- The live lanes of gang i that wait as `p` tells. -/
def Gang.waiters (g : Gang) (p : Status → Bool) : LaneMask :=
  maskOf ((List.range 32).filter fun l => g.live.getLsbD l && p (g.stat l))
/-- The issue name and destination of a thread that waits at an object. -/
def barWaitOf (off : Nat) (x : Status) : Option (Nat × Nat) :=
  match x with
  | .barWait o d n => if o = off then some (n, d) else none
  | _ => none
/-- The issue name and destination of a thread in the third case of R313 or one of its group. -/
def barArriveOf (off : Nat) (x : Status) : Option (Nat × Nat) :=
  match x with
  | .barArrive o d n _ _ => if o = off then some (n, d) else none
  | _ => none
/-- The issues of a gang that wait at an object, each with its destination, oldest first. -/
def Gang.issuesAt (g : Gang) (p : Status → Option (Nat × Nat)) : Tab Nat :=
  (List.range 32).foldl (fun t l => match (if g.live.getLsbD l then p (g.stat l) else none) with
    | some (n, d) => Tab.put t n d
    | none => t) []
/-- The lanes of one issue that wait at an object. -/
def Gang.issueLanes (g : Gang) (p : Status → Option (Nat × Nat)) (n : Nat) : LaneMask :=
  g.waiters fun x => (p x).map Prod.fst == some n
/-- Ends the `barwait` of every thread that waits at an object, with a result (R309, R312, R316). -/
def State.barRelease (s : State) (w off : Nat) (x : Word) : State :=
  match s.wg w with
  | none => s
  | some g => g.gangs.foldl (fun s p =>
      (p.2.issuesAt (barWaitOf off)).foldl (fun s q =>
        s.as (.gang w p.1) (p.2.issueLanes (barWaitOf off) q.1) fun s => s.setUni (q.2 % 64) x (q.2 / 64)) s) s
/-- Ends one `bararrive` with its arrival word; a parity that the spec does not state is free (R313). -/
def State.endArrive (s : State) (w i off n d : Nat) (extra : Word) : State :=
  match s.gang (.gang w i) with
  | none => s
  | some g =>
    let m := g.issueLanes (barArriveOf off) n
    let parity := match (lanesOf m).head?.map g.stat with
      | some (.barArrive _ _ _ true p) => some (BitVec.ofNat 64 (p % 2))
      | _ => none
    let r := match parity with
      | some p => (p, s)
      | none => (s.unstated.1 &&& 1, s.unstated.2)
    r.2.as (.gang w i) m fun s => s.setUni (d % 64) (r.1 ||| extra) (d / 64)
/-- Ends every `bararrive` that waits at an object (R312, R316). -/
def State.endArrives (s : State) (w off : Nat) (extra : Word) : State :=
  match s.wg w with
  | none => s
  | some g => g.gangs.foldl (fun s p =>
      (p.2.issuesAt (barArriveOf off)).foldl (fun s q => s.endArrive w p.1 off q.1 q.2 extra) s) s

/-- The threads of one `bararrive` that have not arrived do so, in ascending `TID`, while `ARRPEND` is above 0; the
instruction ends when all have; one that has ended has none. A thread that arrives is a participant (R313). Whether an arrival was
counted. -/
def State.arriveIssue (s : State) (w i off n d : Nat) : State × Bool :=
  match s.wg w, s.gang (.gang w i) with
  | some wg, some g =>
    match Tab.find wg.registry off with
    | none => (s, false)
    | some r0 =>
      let o0 := wg.obj off
      let waiting := g.issueLanes (barArriveOf off) n
      let r := (lanesOf waiting).foldl (fun (acc : BarReg × Nat × List Nat) l =>
        let counted := acc.1.arrived &&& tidBit i l != 0
        let came := match g.stat l with
          | .barArrive _ _ _ c _ => c
          | _ => false
        if came || (!counted && acc.2.1 = 0) then acc
        else
          let reg := { acc.1 with arrived := acc.1.arrived ||| tidBit i l, participants := acc.1.participants ||| tidBit i l }
          (reg, if counted then acc.2.1 else acc.2.1 - 1, acc.2.2 ++ [l])) (r0, o0.arrpend, [])
      let p := if o0.phase then 1 else 0
      let s := (s.setReg w off r.1).setObj w off (o0.put o0.poison o0.phase o0.arrcnt r.2.1)
      let s := s.updGang (.gang w i) fun g => r.2.2.foldl (fun g l => g.setStat l (.barArrive off d n true p)) g
      let all := ((s.gang (.gang w i)).map fun g => (lanesOf (g.issueLanes (barArriveOf off) n)).all fun l =>
        match g.stat l with
        | .barArrive _ _ _ a _ => a
        | _ => true).getD true
      (if all && waiting != 0 then s.endArrive w i off n d 0 else s, decide (r.2.1 ≠ o0.arrpend))
  | _, _ => (s, false)

/-- The completion test of R309, with the arrivals that wait for the new phase; the first argument bounds the phases that
such arrivals complete in turn. -/
def State.barTest : Nat → State → Nat → Nat → State
  | 0, s, _, _ => s
  | k + 1, s, w, off =>
    match s.wg w with
    | none => s
    | some g =>
      match Tab.find g.registry off with
      | none => s
      | some r =>
        let o := g.obj off
        if o.poison || o.arrpend ≠ 0 || o.bytes ≠ 0 then s
        else
          let s := (s.setObj w off (o.put false (!o.phase) o.arrcnt o.arrcnt)).setReg w off { r with arrived := 0 }
          let s := s.barRelease w off 0
          g.gangs.foldl (fun s p =>
            (p.2.issuesAt (barArriveOf off)).foldl (fun s q =>
              let t := s.arriveIssue w p.1 off q.1 q.2
              if t.2 then State.barTest k t.1 w off else t.1) s) s
/-- The completion test after an event. -/
def State.barEvent (s : State) (w off : Nat) : State := State.barTest 1025 s w off

/-- Threads of a gang that are no longer live depart from every object they take part in (R317). -/
def State.barDepart (s : State) (w i : Nat) (m : LaneMask) : State :=
  match s.wg w with
  | none => s
  | some g => g.registry.foldl (fun s p => (lanesOf m).foldl (fun s l =>
      match s.wg w with
      | none => s
      | some g =>
        match Tab.find g.registry p.1 with
        | none => s
        | some r =>
          if r.participants &&& tidBit i l = 0 then s
          else
            let o := g.obj p.1
            let came := r.arrived &&& tidBit i l != 0
            let s := s.setReg w p.1 { r with participants := r.participants &&& ~~~tidBit i l, arrived := r.arrived &&& ~~~tidBit i l }
            let s := s.setObj w p.1 (o.put o.poison o.phase (o.arrcnt - 1) (if came then o.arrpend else o.arrpend - 1))
            if came then s else s.barEvent w p.1) s) s

/-- Counts bytes of a box against a registered object; discarded on a poisoned or unregistered one (R314). -/
def State.boxCount (s : State) (w off n : Nat) : State :=
  match s.wg w with
  | none => s
  | some g =>
    if (Tab.find g.registry off).isNone || (g.obj off).poison then s
    else (s.setObj w off { g.obj off with bytes := saturate ((g.obj off).bytes - n) }).barEvent w off

/-- Marks an object of an aborted collective: its waiters fault `COLLABORT` (R346, R381). -/
def State.barAbort (s : State) (w off : Nat) : State :=
  match s.wg w with
  | none => s
  | some g =>
    match Tab.find g.registry off with
    | none => s
    | some r =>
      g.gangs.foldl (fun s p =>
        let m := p.2.waiters fun x => (barWaitOf off x).isSome
        if m = 0 then s else s.raise (.gang w p.1) ((lanesOf m).map fun l => (l, bareTrap 0x14 (p.2.pcOf l))))
        (s.setReg w off { r with marked := true })

/-! ### The BAR major (R311) -/

/-- The workgroup and offset of the object at an address, or the fault and address of the first check that fails; the
accumulator share, in reach during an assist, holds no object. -/
def State.barPlace (s : State) (va : Word) : Except (Nat × Word) (Nat × Nat) :=
  let ap := match s.cur with
    | .gang .. => inThreadAp va.toNat
    | .core _ => inServiceAp va.toNat
  if va.toNat % 8 ≠ 0 then .error (4, va)
  else if !ap then .error (8, va)
  else match s.check s.cur 2 8 va with
    | .fault f => .error (f, va)
    | .miss => .error (8, va)
    | .ok l =>
      match s.check s.cur 2 8 (va + 8) with
      | .fault f => .error (f, va + 8)
      | .miss => .error (8, va + 8)
      | .ok _ => match l with
        | .scratch w o => .ok (w, o)
        | .acc w o => .ok (w, 2 ^ 32 + o)
        | .mem .. => .error (8, va)
        | .reg _ => .error (8, va)

/-- A barrier instruction on a registered object; an address that is not registered makes sd all ones. -/
def State.onObject (s : State) (d a : BitVec 6) (l : BitVec 4) (body : State → Nat → Nat → Obj → BarReg → State) : State :=
  s.uniGuard d.toNat fun s =>
    match s.barPlace (s.uni a.toNat) with
    | .error e => s.raiseAll (addrTrap e.1 e.2 s.curPc)
    | .ok (w, off) =>
      match s.wg w with
      | none => s
      | some g => match Tab.find g.registry off with
        | none => s.setUni d.toNat ones l.toNat
        | some r => body s w off (g.obj off) r

/-- `PHASE` and `POISON` as `barexpect` and `bararrive` return them. -/
def Obj.word (o : Obj) : Word := (if o.phase then 1 else 0) ||| (if o.poison then 0x8000000000000000 else 0)

/-- `barinit` (R312). -/
def execBarinit (d a b : BitVec 6) (l : BitVec 4) (s : State) : Host.Outcome State Fault Refusal :=
  s.issue { Use.regs [] [d.toNat, a.toNat, b.toNat] with allow := 1, mem := true } fun s =>
    s.uniGuard d.toNat fun s =>
      let x := s.uni b.toNat
      match s.barPlace (s.uni a.toNat) with
      | .error e => s.raiseAll (addrTrap e.1 e.2 s.curPc)
      | .ok (w, off) =>
        match s.wg w with
        | none => s
        | some g =>
          let all := x.getLsbD 63
          if (x &&& 0x7FFFFFFFFFFF0000) != 0 || (all && (x &&& 0xFFFF) != 0) then s.setUni d.toNat 0xFFFFFFFFFFFFFFFE l.toNat
          else if (Tab.find g.registry off).isNone && decide (64 ≤ g.registry.length) then s.setUni d.toNat ones l.toNat
          else
            let live := g.gangs.foldl (fun (m : BitVec 1024) p => m ||| ((p.2.live.setWidth 1024 : BitVec 1024) <<< (32 * p.1))) 0
            let cnt := if all then (List.range 1024).countP fun k => live.getLsbD k else x.toNat % 65536
            let s := (s.barRelease w off 2).endArrives w off 0x4000000000000000
            let s := s.setReg w off ⟨if all then live else 0, 0, false⟩
            let s := s.setObj w off (Obj.put ⟨0, 0⟩ false false cnt cnt)
            s.setUni d.toNat 0 l.toNat

/-- `bararrive` (R313): a poisoned object counts nothing. -/
def execBararrive (d a : BitVec 6) (l : BitVec 4) (s : State) : Host.Outcome State Fault Refusal :=
  s.issue { Use.regs [] [d.toNat, a.toNat] with allow := 1, mem := true } fun s =>
    s.onObject d a l fun s w off o _ =>
      match s.cur with
      | .core _ => s
      | .gang _ i =>
        if o.poison then s.unstated.2.setUni d.toNat (s.unstated.1 &&& 1 ||| 0x8000000000000000) l.toNat
        else s.afterRelease 1 fun s =>
          let n := s.serialNo
          let dl := d.toNat + 64 * l.toNat
          let s := s.updGang s.cur fun g =>
            g.each s.mask fun g k => g.setStat k (.barArrive off dl n false 0)
          let t := s.arriveIssue w i off n dl
          if t.2 then t.1.barEvent w off else t.1

/-- `barexpect` (R314). -/
def execBarexpect (d a b : BitVec 6) (l : BitVec 4) (s : State) : Host.Outcome State Fault Refusal :=
  s.issue { Use.regs [] [d.toNat, a.toNat, b.toNat] with mem := true } fun s =>
    s.onObject d a l fun s w off o _ =>
      let t := s.setObj w off { o with bytes := saturate (o.bytes + (s.uni b.toNat).toInt) }
      (t.barEvent w off).setUni d.toNat o.word l.toNat

/-- The test of `barwait` and `bartry`: 0 passed, 1 poisoned, none not yet (R315, R316). -/
def Obj.passed (o : Obj) (b : Word) : Option Word :=
  if o.phase != b.getLsbD 0 then some 0 else if o.poison then some 1 else none

/-- `barwait` (R315). -/
def execBarwait (d a b : BitVec 6) (l : BitVec 4) (s : State) : Host.Outcome State Fault Refusal :=
  s.issue { Use.regs [] [d.toNat, a.toNat, b.toNat] with allow := 1, mem := true } fun s =>
    s.onObject d a l fun s _ off o r =>
      if r.marked then s.raiseAll (bareTrap 0x14 s.curPc)
      else match o.passed (s.uni b.toNat) with
        | some x => s.setUni d.toNat x l.toNat
        | none => s.updGang s.cur fun g => g.each s.mask fun g k => g.setStat k (.barWait off (d.toNat + 64 * l.toNat) s.serialNo)

/-- `bartry` (R315). -/
def execBartry (d a b : BitVec 6) (l : BitVec 4) (s : State) : Host.Outcome State Fault Refusal :=
  s.issue { Use.regs [] [d.toNat, a.toNat, b.toNat] with mem := true } fun s =>
    s.onObject d a l fun s _ _ o r =>
      if r.marked then s.raiseAll (bareTrap 0x14 s.curPc)
      else s.setUni d.toNat ((o.passed (s.uni b.toNat)).getD 2) l.toNat

/-- `barpoison` (R316). -/
def execBarpoison (d a : BitVec 6) (l : BitVec 4) (s : State) : Host.Outcome State Fault Refusal :=
  s.issue { Use.regs [] [d.toNat, a.toNat] with mem := true } fun s =>
    s.onObject d a l fun s w off o _ =>
      let t := s.setObj w off (o.put true o.phase o.arrcnt o.arrpend)
      ((t.barRelease w off 1).endArrives w off 0x8000000000000000).setUni d.toNat 0 l.toNat

end Sys2Proof.Machine
end

