-- ==== Sys2Proof/Machine/Crypto.lean ====
section
/-! DEFINITION. SHA-384 (FIPS 180-4), and ECDSA over brainpoolP384r1 (RFC 5639) with it, as the boot and the measurement log use them
(R363, R364, R366 to R368). -/

namespace Sys2Proof.Machine

/-- A number of big-endian bytes. -/
def beNat (bs : List Byte) : Nat := leNat bs.reverse
/-- The low n bytes of a number, big-endian. -/
def beBytes (n x : Nat) : List Byte := (leBytes n x).reverse

/-! ### SHA-384 -/

/-- The first primes, 80 of them and more. -/
def somePrimes : List Nat := (List.range 420).filter fun p => decide (2 ≤ p) && !(List.range 21).any fun d => decide (2 ≤ d) && decide (d < p) && p % d = 0
/-- The greatest number below 2^n whose power of a degree is at most x. -/
def rootOf (degree x n : Nat) : Nat :=
  (List.range n).foldl (fun r i => let c := r + 2 ^ (n - 1 - i); if c ^ degree ≤ x then c else r) 0
/-- The first 64 bits of the fraction of a prime's square or cube root. -/
def rootFraction (degree p : Nat) : Word := BitVec.ofNat 64 (rootOf degree (p * 2 ^ (64 * degree)) 70)
/-- The constants of the rounds. -/
def shaRound : List Word := (somePrimes.take 80).map (rootFraction 3)
/-- The initial hash value. -/
def shaStart : List Word := ((somePrimes.drop 8).take 8).map (rootFraction 2)
/-- A message in padded blocks of 128 bytes. -/
def shaBlocks (m : List Byte) : List (List Byte) :=
  let zeros := (111 + 128 - m.length % 128) % 128
  let padded := m ++ [0x80] ++ List.replicate zeros 0 ++ beBytes 16 (8 * m.length)
  (List.range (padded.length / 128)).map fun i => (padded.drop (128 * i)).take 128
/-- The schedule of a block, newest word first. -/
def shaSchedule (block : List Byte) : List Word :=
  let first := (List.range 16).map fun i => BitVec.ofNat 64 (beNat ((block.drop (8 * i)).take 8))
  (List.range 64).foldl (fun w _ =>
    let a := w.getD 14 0
    let b := w.getD 1 0
    let x := a.rotateRight 1 ^^^ a.rotateRight 8 ^^^ (a >>> 7)
    let y := b.rotateRight 19 ^^^ b.rotateRight 61 ^^^ (b >>> 6)
    (y + w.getD 6 0 + x + w.getD 15 0) :: w) first.reverse
/-- One round on the eight working variables. -/
def shaStep (v : List Word) (kw : Word) : List Word :=
  let g := fun (i : Nat) => v.getD i 0
  let s1 := (g 4).rotateRight 14 ^^^ (g 4).rotateRight 18 ^^^ (g 4).rotateRight 41
  let ch := (g 4 &&& g 5) ^^^ (~~~(g 4) &&& g 6)
  let t1 := g 7 + s1 + ch + kw
  let s0 := (g 0).rotateRight 28 ^^^ (g 0).rotateRight 34 ^^^ (g 0).rotateRight 39
  let maj := (g 0 &&& g 1) ^^^ (g 0 &&& g 2) ^^^ (g 1 &&& g 2)
  [t1 + s0 + maj, g 0, g 1, g 2, g 3 + t1, g 4, g 5, g 6]
/-- The hash value after a block. -/
def shaBlock (h : List Word) (block : List Byte) : List Word :=
  let v := (shaRound.zip (shaSchedule block).reverse).foldl (fun v p => shaStep v (p.1 + p.2)) h
  (h.zip v).map fun p => p.1 + p.2
/-- SHA-384 of bytes. -/
def sha384 (m : List Byte) : List Byte := (((shaBlocks m).foldl shaBlock shaStart).take 6).flatMap fun w => beBytes 8 w.toNat

/-! ### The curve brainpoolP384r1 -/

/-- The prime of the field. -/
def curveP : Nat := 0x8CB91E82A3386D280F5D6F7E50E641DF152F7109ED5456B412B1DA197FB71123ACD3A729901D1A71874700133107EC53
/-- Coefficient a. -/
def curveA : Nat := 0x7BC382C63D8C150C3C72080ACE05AFA0C2BEA28E4FB22787139165EFBA91F90F8AA5814A503AD4EB04A8C7DD22CE2826
/-- Coefficient b. -/
def curveB : Nat := 0x04A8C7DD22CE28268B39B55416F0447C2FB77DE107DCD2A62E880EA53EEB62D57CB4390295DBC9943AB78696FA504C11
/-- The base point. -/
def curveG : Nat × Nat :=
  (0x1D1C64F068CF45FFA2A63A81B7C13F6B8847A3E77EF14FE3DB7FCAFE0CBD10E8E826E03436D646AAEF87B2E247D4AF1E,
    0x8ABE1D7520F9C2A45CB1EB8E95CFD55262B70B29FEEC5864E19C054FF99129280E4646217791811142820341263C5315)
/-- The order of the base point (R366). -/
def curveN : Nat := 0x8CB91E82A3386D280F5D6F7E50E641DF152F7109ED5456B31F166E6CAC0425A7CF3AB6AF6B7FC3103B883202E9046565
/-- A power modulo m, of an exponent of at most 384 bits, highest first. -/
def powMod (x e m : Nat) : Nat :=
  (List.range 384).foldl (fun r i => let q := r * r % m; if e.testBit (383 - i) then q * x % m else q) 1
/-- The inverse modulo a prime. -/
def invMod (x p : Nat) : Nat := powMod x (p - 2) p
/-- The sum of two points; none is the point at infinity. -/
def pointAdd : Option (Nat × Nat) → Option (Nat × Nat) → Option (Nat × Nat)
  | none, q => q
  | p, none => p
  | some (x, y), some (u, v) =>
    if x = u && (y + v) % curveP = 0 then none
    else
      let slope :=
        if x = u then (3 * x * x + curveA) * invMod (2 * y % curveP) curveP % curveP
        else (v + curveP - y) * invMod ((u + curveP - x) % curveP) curveP % curveP
      let w := (slope * slope + 2 * curveP - x - u) % curveP
      some (w, (slope * (x + curveP - w) + curveP - y) % curveP)
/-- A multiple of a point. -/
def pointMul (k : Nat) (p : Option (Nat × Nat)) : Option (Nat × Nat) :=
  (List.range 384).foldl (fun r i => let d := pointAdd r r; if k.testBit (383 - i) then pointAdd d p else d) none

/-! ### ECDSA -/

/-- The digest of a message as the number that is signed. -/
def digestNat (m : List Byte) : Nat := beNat (sha384 m)
/-- A signature r ‖ s of a message verifies under an uncompressed public key (R364). -/
def ecdsaVerifies (key m sig : List Byte) : Bool :=
  let x := beNat ((key.drop 1).take 48)
  let y := beNat ((key.drop 49).take 48)
  let r := beNat (sig.take 48)
  let s := beNat ((sig.drop 48).take 48)
  let w := invMod s curveN
  let onCurve := x < curveP && y < curveP && y * y % curveP = (x * x * x + curveA * x + curveB) % curveP
  key.length = 97 && key.head? = some 4 && sig.length = 96 && onCurve && 0 < r && r < curveN && 0 < s && s < curveN &&
    match pointAdd (pointMul (digestNat m * w % curveN) (some curveG)) (pointMul (r * w % curveN) (some (x, y))) with
    | some (u, _) => u % curveN = r
    | none => false
/-- The identity key that a corrected PUF response gives (R366). -/
def identityKey (response : List Byte) : Nat :=
  let name : List Byte := [0x47, 0x5A, 0x2D, 0x49, 0x44]
  1 + digestNat (name ++ sha384 response) % (curveN - 1)
/-- The signature of a message under a private key; the engine chooses the number that no second signature uses (R368; log 11). -/
def ecdsaSign (d : Nat) (m : List Byte) : List Byte :=
  let k := 1 + Config.nonce m % (curveN - 1)
  let r := ((pointMul k (some curveG)).map Prod.fst).getD 0 % curveN
  beBytes 48 r ++ beBytes 48 (invMod k curveN * (digestNat m + r * d) % curveN)

end Sys2Proof.Machine
end

