-- ==== Sys2Proof/Machine/Ends.lean ====
section
/-! DEFINITION. How threads, gangs, workgroups, launches, nodes and slices end, and what removes them (R17, R18, R26, R133,
R262, R280, R295 to R303, R317, R336, R340 to R348, R378 to R381, R423). -/

namespace Sys2Proof.Machine

/-! ### The tenant fault ring (R262, R348) -/

/-- A tenant. -/
def State.tenant (s : State) (t : Nat) : Option Tenant := Tab.find s.tenants t
/-- New work of a tenant is held back: it is at a cap, or `PWRCAP` is 0 for all (R263, R387). -/
def State.underCap (s : State) (t : Nat) : Bool := s.pwrZero || ((s.tenant t).map (·.capped)).getD false
/-- An entry of a tenant fault ring (Table 15.4). -/
def eventEntry (now : Nat) (slice launch : Word) (kind code gangs : Nat) (val addr : Word) : List Byte :=
  mkRecord 64 [(0, 8, now), (8, 8, slice.toNat), (0x10, 8, launch.toNat), (0x18, 1, kind), (0x19, 1, code), (0x1C, 4, gangs),
    (0x20, 8, val.toNat), (0x28, 8, addr.toNat), (0x3F, 1, 1)]
/-- The free entry of a tenant's fault ring that the next event takes; an error is the ring's address. -/
def State.tenantSlot (s : State) (t : Tenant) : Except Word (Option Nat) :=
  match s.ownSight.partRead (tenantCtx t.pasid) (BitVec.ofNat 64 t.ring) 4096 with
  | .ok bs => .ok (pickOf s.ptb ((List.range 64).filter fun j => bs.getD (64 * j + 63) 0 == 0))
  | .error e => .error e.2
/-- Writes an entry into a free place of a tenant's fault ring; false where there is none. -/
def State.tryEvent (s : State) (tenant : Nat) (e : List Byte) : State × Bool :=
  match s.tenant tenant with
  | none => (s, true)
  | some t =>
    match s.tenantSlot t with
    | .error a => (s.wiredFault tenant a, true)
    | .ok none => (s, false)
    | .ok (some j) => (s.hubWrite .part tenant t.pasid (BitVec.ofNat 64 (t.ring + 64 * j)) e, true)
/-- Writes an event, or keeps it pending; at most one pending event of each kind for each slice (R262). -/
def State.postEvent (s : State) (tenant : Nat) (e : List Byte) : State :=
  let same := fun (x : Event) => x.tenant = tenant && recAt x.entry 8 8 = recAt e 8 8 && recAt x.entry 0x18 1 = recAt e 0x18 1
  if s.events.any same then s
  else
    let r := if s.events.any fun x => x.tenant = tenant then (s, false) else s.tryEvent tenant e
    if r.2 then r.1 else { r.1 with events := r.1.events ++ [⟨tenant, e⟩] }

/-! ### Exit words (R295, R348, R378) -/

/-- The address of the aggregated report of a pod launch (R378). -/
def State.reportAt (s : State) (l : Nat) : Nat := s.cctBase.toNat + 0x800000 + 256 * l
/-- Counts an exit word with a non-zero code: the launch's fault summary and, on a pod launch's root, its aggregated
report; another chip forwards it to the root (R348, R378). `chip` ended the gang at time `at`. -/
def State.countExit (s : State) (l : Nat) (chip time : Nat) (word : Word) : State :=
  match s.launch l with
  | none => s
  | some x =>
    if x.pod && x.root ≠ s.chip then s.treeSend x.slice 7 x.rootLaunch [x.root] (leBytes 8 time ++ leBytes 8 word.toNat)
    else
      let code := bitsOf word.toNat 63 56
      let first := match x.firstFault with
        | some f => if time < f.1 || (time = f.1 && chip < f.2.1) then (time, chip, word) else f
        | none => (time, chip, word)
      let n := x.terminated + 1
      let rep := if code ≤ 0x18 then Tab.put x.report code (min 65535 (Tab.at x.report code 0 + 1)) else x.report
      let chips := Tab.put x.foreign chip (Tab.at x.foreign chip 0 + 1)
      let s := s.updLaunch l fun x => { x with firstFault := some first, terminated := n, report := rep, foreign := chips }
      let addr := if x.pod then BitVec.ofNat 64 (s.reportAt l) else 0
      let e := eventEntry s.ptb x.slice (tableHandle x.serial l 1) 4 (bitsOf first.2.2.toNat 63 56) n first.2.2 addr
      let s := if x.terminated = 0 then s.postEvent x.tenant e
        else
        let renew := fun (v : Event) =>
          if v.tenant = x.tenant && recAt v.entry 0x10 8 = (tableHandle x.serial l 1).toNat && recAt v.entry 0x18 1 = 4
          then { v with entry := e } else v
        { s with events := s.events.map renew }
      if x.pod then
        match s.route (s.reportAt l) with
        | some k =>
          let counts := rep.map fun p => (0x18 + 2 * (p.1 - 1), 2, p.2)
          let bits := chips.map fun p => 2 ^ p.1
          s.homeStore k (mkRecord 256 ([(0, 8, first.1), (8, 8, first.2.2.toNat), (0x10, 2, first.2.1), (0x14, 4, n)] ++ counts ++
            [(0x80, 128, bits.foldl (· + ·) 0)]))
        | none => s.wiredFault x.tenant addr
      else s
/-- The exit word of a code at lane 0 and offset 0; 0xFF is recorded as 0xFE (Table 13.5; log 15). -/
def exitWord (code : Nat) : Word := BitVec.ofNat 64 ((if code % 256 = 0xFF then 0xFE else code % 256) * 2 ^ 56)
/-- The exit word of a fault that a lane raised at a pc: its offset from the kernel's entry is counted in words (Table 13.5). -/
def Launch.faultWord (x : Launch) (code lane : Nat) (pc : Word) : Word :=
  let words := (pc - BitVec.ofNat 64 (x.field 0 8)).toInt / 4
  BitVec.ofNat 64 (code * 2 ^ 56 + lane % 32 * 2 ^ 51 + (words % 2 ^ 51).toNat)
/-- Writes words of a launch's status array, whose WCT the launch's completion awaits; a page that fails is left (log 16), and after the
tenant's teardown has begun nothing is written (R191, R295, R347). -/
def State.statusWrite (s : State) (l : Nat) (x : Launch) (wgid i n : Nat) (w : Word) : State :=
  if s.tornDown x.tenant then s
  else (List.range n).foldl (fun s k =>
    match s.writeAt (.launch l) none (tenantCtx x.pasid) (BitVec.ofNat 64 (x.field 0x28 8 + 8 * (wgid * x.ngang + i + k))) (leBytes 8 w.toNat) with
    | .ok s => s
    | .error _ => s) s
/-- The exit words of a workgroup that never starts, each counted (R380). -/
def State.neverStarts (s : State) (l wgid code : Nat) : State :=
  match s.launch l with
  | none => s
  | some x => (List.range x.ngang).foldl (fun s i =>
      (s.statusWrite l x wgid i 1 (exitWord code)).countExit l s.chip s.ptb (exitWord code)) s

/-! ### Range locks (R189, R304) -/

/-- A copy's bytes that stand in a home behind a strong store are still to be written under its lock (R187, R189, R419). -/
def State.lockOwes (s : State) (k : Lock) : Bool := s.reqs.any fun r => match r.source with
  | .box j _ => k.owner == .copy j
  | _ => false
/-- An entry may be freed: what was written under it has a WCT, and PTB has reached `RELT` (R189). -/
def State.lockFree (s : State) (k : Lock) : Bool := decide (k.relt ≤ s.ptb) && !s.lockOwes k
/-- Frees the entries of a core that a test picks: at once on scratchpad, on translated memory once PTB has reached
`RELT` (R189). -/
def State.unlock (s : State) (core : Nat) (p : Lock → Bool) : State :=
  match Tab.find s.cores core with
  | none => s
  | some c =>
    let t := c.locks.filterMap fun q =>
      if p q.2 then (if s.lockFree q.2 then none else some (q.1, { q.2 with closing := true })) else some q
    { s with cores := Tab.put s.cores core { c with locks := t } }

/-- Frees the entries that a test picks on a core and, of a workgroup that is saved, among those put away for it (R304). -/
def State.unlockAll (s : State) (core : Nat) (w : Option Nat) (p : Lock → Bool) : State :=
  let s := s.unlock core p
  match w with
  | some w => s.updWg w fun g => { g with savedLocks := g.savedLocks.filter fun k => !p k }
  | none => s

/-! ### Threads and gangs (R133, R317, R342) -/

/-- Threads cease to be live: what they had in flight is discarded, and they depart from barrier objects and convergence
registers (R26, R133, R317). -/
def State.lanesEnd (s : State) (w i : Nat) (m : LaneMask) : State :=
  let a := Agent.gang w i
  let s := s.updGang a fun g =>
    let g := g.each m fun g l => g.setStat l .ready
    { g with
      live := g.live &&& ~~~m, faultLanes := g.faultLanes &&& ~~~m
      flights := g.flights.filter fun f => if f.lane = 32 then f.lanes &&& g.live &&& ~~~m != 0 else !m.getLsbD f.lane
      windows := g.windows.filter fun x => !m.getLsbD x.lane }
  let ws := s.walks.map fun x => if x.agent = a then { x with lanes := x.lanes &&& ~~~m } else x
  let s := { s with walks := ws.filter fun x => x.lanes != 0 }
  (s.barDepart w i m).cvDepart w i m

/-- A gang ends: its slot and its `rlock` entries are free and its exit word is written (R133, R215, R295). -/
def State.gangOver (s : State) (w i : Nat) (word : Word) : State :=
  match s.wg w with
  | none => s
  | some g =>
    let s := s.updGang (.gang w i) fun x => { x with ended := true, slot := false, flights := [] }
    let s := s.unlock g.core fun k => k.owner == .gang w i
    let s := { s with asks := s.asks.filter fun q => q.agent ≠ .gang w i || q.got.isNone }
    match s.launchOf g with
    | none => s
    | some x =>
      let s := s.statusWrite g.launch x g.wgid i 1 word
      if word = 0 then s else s.countExit g.launch s.chip s.ptb word

/-- A gang whose last live thread has exited ends with word 0 (R133). -/
def State.gangMayEnd (s : State) (w i : Nat) : State :=
  match s.gang (.gang w i) with
  | some g => if g.live = 0 && !g.ended then s.gangOver w i 0 else s
  | none => s

/-- Frees the slot of a gang's outstanding call where its record has not been popped (R342). -/
def State.dropCall (s : State) (w i : Nat) : State :=
  match s.wg w, s.gang (.gang w i) with
  | some g, some x =>
    match x.callSlot, s.scalar x.callCluster with
    | some j, some c =>
      let cluster := x.callCluster
      let va := c.ring true + BitVec.ofNat 64 (2048 * j)
      let s := match s.ownSight.partRead (s.ctxOf (.core cluster)) va 64 with
        | .ok r =>
          if !x.callPopped && recAt r 0x3F 1 = 1 && recAt r 0x1E 1 = i + 32 * g.homeSlot && recAt r 0x1F 1 = g.home % 8
          then s.ringWrite cluster (s.sliceOf (.gang w i)) (va + 0x3F) [0] else s
        | .error e => s.wiredFault (tenantOfSlice (s.sliceOf (.gang w i))) e.2
      s.updGang (.gang w i) fun x => { x with callSlot := none, callLanes := 0, callDone := 0 }
    | some _, none => s.updGang (.gang w i) fun x => { x with callSlot := none, callLanes := 0, callDone := 0 }
    | none, _ => s
  | _, _ => s

/-- Terminates a gang with an exit word (R342): its held fault and call records go, its records become stale. -/
def State.terminate (s : State) (w i : Nat) (word : Word) : State :=
  match s.wg w, s.gang (.gang w i) with
  | some g, some x =>
    if x.ended then s
    else
      let h := (gangHandle g i 6).toNat
      let keep := fun (p : Nat × List (List Byte)) =>
        let r := p.2.filter fun r => recAt r 8 8 ≠ h
        if r.isEmpty then none else some (p.1, r)
      let s := { s with heldFaults := s.heldFaults.filterMap keep }
      let s := (s.dropCall w i).lanesEnd w i x.live
      ({ s with rights := s.rights.filter fun r => r.1 != gangHandle g i 5 && r.1 != gangHandle g i 6 }).gangOver w i word
  | _, _ => s

/-- Threads of a gang stop waiting, to issue again from the start (Table 15.3). Threads suspended in a call or by a fault
stay so. -/
def State.abandon (s : State) (w i : Nat) (m : LaneMask) : State :=
  let s := s.cvAbandon w i m
  s.updGang (.gang w i) fun g => g.each m fun g l =>
    match g.stat l with
    | .call => g
    | .fault => g
    | _ => g.setStat l .ready

/-- A gang loses its slot: `PREEMPTED` is set where it had a thread ready, and its waits are abandoned; it is given a slot again once
nothing of it is in flight (R20, R69, R87, R336). -/
def State.preempt (s : State) (w i : Nat) : State :=
  match s.gang (.gang w i) with
  | none => s
  | some g =>
    let s := s.abandon w i g.live
    s.updGang (.gang w i) fun x =>
      { x with slot := false, lost := true, gstat := if g.slot && g.runnable then x.gstat ||| 4 else x.gstat }

/-! ### The contact sheet (R272, R275, R296, R297) -/

/-- Extent E_d of a launch's space. -/
def Launch.ext (x : Launch) (d : Nat) : Nat := x.field (0x18 + 2 * d) 2
/-- Granules of a launch's space. -/
def Launch.granules (x : Launch) : Nat := x.ext 0 * x.ext 1 * x.ext 2 * x.ext 3
/-- The granules of a unit, each mask bit with the granule's index (R272, R296); bits that name no granule are left out. -/
def Launch.unit (x : Launch) (origin extent : Word) : List (Nat × Nat) :=
  let o := fun d => bitsOf origin.toNat (16 * d + 15) (16 * d)
  let e := fun d => bitsOf extent.toNat (8 * d + 7) (8 * d)
  (List.range (min 64 (e 0 * e 1 * e 2 * e 3))).filterMap fun b =>
    let c0 := o 0 + b % e 0
    let c1 := o 1 + b / e 0 % e 1
    let c2 := o 2 + b / (e 0 * e 1) % e 2
    let c3 := o 3 + b / (e 0 * e 1 * e 2)
    if c0 < x.ext 0 ∧ c1 < x.ext 1 ∧ c2 < x.ext 2 ∧ c3 < x.ext 3 then
      some (b, c0 + x.ext 0 * (c1 + x.ext 1 * (c2 + x.ext 2 * c3)))
    else none
/-- The byte of the contact sheet that holds a granule. -/
def Launch.sheetAt (x : Launch) (i : Nat) : Word := BitVec.ofNat 64 (x.field 0x20 8 + i / 4)
/-- The state of a granule: 0 free, 1 dealt, 2 done, 3 poisoned; none where the sheet faults. -/
def State.granule (s : State) (x : Launch) (i : Nat) : Except Word Nat :=
  match s.partRead (tenantCtx x.pasid) (x.sheetAt i) 1 with
  | .ok bs => .ok (bitsOf (leNat bs) (2 * (i % 4) + 1) (2 * (i % 4)))
  | .error e => .error e.2
/-- Writes the state of a granule. -/
def State.setGranule (s : State) (x : Launch) (i v : Nat) : State :=
  match s.partRead (tenantCtx x.pasid) (x.sheetAt i) 1 with
  | .ok bs =>
    let old := leNat bs
    let sh := 2 * (i % 4)
    s.wiredWrite x.tenant x.pasid (x.sheetAt i) (leBytes 1 (old - bitsOf old (sh + 1) sh * 2 ^ sh + v * 2 ^ sh))
  | .error e => s.wiredFault x.tenant e.2
/-- Moves the granules of a list that stand in one state to another, in one step; the mask bits changed and the state. -/
def State.moveGranules (s : State) (x : Launch) (gs : List (Nat × Nat)) (src dst : Nat) : List Nat × State :=
  if s.tornDown x.tenant then ([], s)
  else gs.foldl (fun acc p =>
    match acc.2.granule x p.2 with
    | .ok v => if v = src then (acc.1 ++ [p.1], acc.2.setGranule x p.2 dst) else acc
    | .error a => (acc.1, acc.2.wiredFault x.tenant a)) ([], s)
/-- Granules of a killed workgroup leave the state dealt: on a chip that is not the root's, the root is told (R296, R299, R375). -/
def State.shiftGranules (s : State) (x : Launch) (gs : List (Nat × Nat)) (dst : Nat) : State :=
  if x.pod && x.root ≠ s.chip then
    s.treeSend x.slice 14 x.rootLaunch [x.root] (leBytes 8 0 ++ leBytes 1 dst ++ gs.flatMap fun p => leBytes 4 p.2)
  else (s.moveGranules x gs 1 dst).2
/-- The granules of a deal-list entry. -/
def Launch.dealt (x : Launch) (d : Deal) : List (Nat × Nat) := (x.unit d.origin d.extent).filter fun p => d.mask.getLsbD p.1

/-! ### Collectives (R346, R381) -/

/-- The source of a copy lies on another chip: now, or when the copy was queued. -/
def State.remoteSource (s : State) (c : Copy) : Bool :=
  c.away || match s.xlateNow (tenantCtx c.pasid) 0 (recWord c.desc 0) with
  | .ok (k, _) => s.remote k
  | .error _ => false
/-- A copy becomes CANCELLED at once, with `CANCELLED` or the code in its place; boxes that land later are not counted (R214, R303). -/
def State.copyKill (s : State) (k code : Nat) : State :=
  match Tab.find s.copies k with
  | none => s
  | some c =>
    if 3 ≤ c.state then s
    else
      let s := { s with copies := Tab.put s.copies k { c with state := 5, code := code, boxBusy := [], cancelling := false } }
      s.unlockAll c.core c.wg fun l => l.owner == .copy k
/-- The scratch offset of the object that a copy names. -/
def Copy.barOff (c : Copy) : Nat := (recWord c.desc 16).toNat % 2 ^ 23
/-- A copy of an aborted collective is cancelled, and the object that it names is marked (R346, R381; log 95). -/
def State.abortCopy (s : State) (k : Nat) : State :=
  match Tab.find s.copies k with
  | none => s
  | some c =>
    if !s.remoteSource c then s
    else
      let s := s.copyKill k 0x15
      match c.wg with
      | some w => if recAt c.desc 16 8 = 0 then s else s.barAbort w c.barOff
      | none => s
/-- This chip's collective state of a launch becomes `PEERABORT` (R346, R381). -/
def State.abortCollective (s : State) (l : Nat) : State :=
  match s.launch l with
  | none => s
  | some x =>
    if !x.pod || x.done || x.peerAbort then s
    else
      let s := s.updLaunch l fun x => { x with peerAbort := true }
      let mine := s.copies.filter fun p => match p.2.wg with
        | some w => ((s.wg w).map (·.launch)) == some l
        | none => false
      let s := mine.foldl (fun s p => s.abortCopy p.1) s
      let first := (x.firstFault.map fun f => f.2.2).getD 0
      let s := s.postEvent x.tenant
        (eventEntry s.ptb x.slice (tableHandle x.serial l 1) 4 0x18 x.terminated first (BitVec.ofNat 64 (s.reportAt l)))
      s.treeSend x.slice 8 x.rootLaunch ((x.root :: x.range).eraseDups.filter (· ≠ s.chip)) (leBytes 2 x.root)

/-! ### Workgroups (R18, R299, R343, R344) -/

/-- What the threads of a workgroup have stored and is not yet visible becomes its launch's, whose completion awaits it (R191, R343). -/
def State.leaveStores (s : State) (w : Nat) (g : Workgroup) : State :=
  let mine : Req → Bool := fun r => match r.agent with
    | .gang v _ => v = w && r.kind != .load && r.kind != .prefetch
    | .core _ => false
  let time := (g.gangs.flatMap fun p => (List.range 32).map p.2.releaseTime).foldl max 0
  { s with
    reqs := s.reqs.map fun r => if mine r then { r with source := .launch g.launch } else r
    launches := Tab.upd s.launches g.launch fun x => { x with wrote := max x.wrote time } }
/-- A workgroup is over: its space is free and `WGLIVE` falls by 1. -/
def State.wgOver (s : State) (w : Nat) : State :=
  match s.wg w with
  | none => s
  | some g =>
    let s := s.leaveStores w g
    let s := match g.place with
      | some (core, slot) => match Tab.find s.cores core with
        | some c => { s with cores := Tab.put s.cores core { c with slots := Tab.del c.slots slot } }
        | none => s
      | none => s
    let s := s.updLaunch g.launch fun x => { x with wglive := x.wglive - 1 }
    { s with wgs := Tab.del s.wgs w, copies := s.copies.filter fun p => p.2.wg ≠ some w }

/-- What the fetches of a killed workgroup are still to be dealt goes to a state when its root answers (R299, R343). -/
def State.forsake (s : State) (w dst : Nat) : State :=
  { s with asks := s.asks.map fun q => match q.agent, q.what with
    | .gang v _, .unit .. => if v = w && q.got.isNone then { q with what := .forsaken dst } else q
    | _, _ => q }
/-- Kills a workgroup with a code (R343). With `relaunch`, an uncorrectable error of an idempotent kernel relaunched fewer
than 4 times, its granules go to free, its exit words to all ones, and it waits to be dispatched afresh (R299, R344). -/
def State.wgKill (s : State) (w code : Nat) (relaunch : Bool) : State :=
  match s.wg w with
  | none => s
  | some g =>
    match s.launchOf g with
    | none => s
    | some x =>
      let s := if relaunch then s else s.abortCollective g.launch
      let s := g.gangs.foldl (fun s p => s.terminate w p.1 (exitWord code)) s
      let s := (s.copies.filter fun p => p.2.wg = some w).foldl (fun s p => s.copyKill p.1 0x15) s
      let s := { s with ops := s.ops.filter fun p => p.2.wg ≠ w }
      let s := s.unlock g.core fun k => match k.owner with
        | .matrix _ => !s.ops.any fun p => k.owner == .matrix p.1
        | .gang v _ => v = w
        | .copy _ => false
      let s := g.deals.foldl (fun s d => s.shiftGranules x (x.dealt d) (if relaunch then 0 else 3)) s
      let t : Trap := bareTrap code 0
      let s := s.postFault (clusterOf g.core) (faultRecord s.ptb (gangHandle g 0 4) 0 3 t x.slice x.pasid)
      let s := s.forsake w (if relaunch then 0 else 3)
      let s := s.wgOver w
      if relaunch then
        let s := s.statusWrite g.launch x g.wgid 0 x.ngang ones
        s.updLaunch g.launch fun x => { x with wglive := x.wglive + 1, waiting := Tab.put x.waiting g.wgid (g.relaunches + 1) }
      else s

/-- An uncorrectable error in a share kills its workgroup, and an idempotent kernel is relaunched at most 4 times for one
`WGID` (R299, R344). -/
def State.shareError (s : State) (w : Nat) : State :=
  match s.wg w with
  | none => s
  | some g =>
    let idem := ((s.launchOf g).map fun x => bitOf (x.field 9 1) 0).getD false
    s.wgKill w 0x13 (idem && decide (g.relaunches < 4))

/-! ### Nodes (R264, R303, R321, R423) -/

/-- The node at an index of the store. -/
def State.tcb (s : State) (n : Nat) : Option Tcb := Tab.find s.tcbs n
/-- Changes a node. -/
def State.updTcb (s : State) (n : Nat) (f : Tcb → Tcb) : State := { s with tcbs := Tab.upd s.tcbs n f }
/-- Successors of a node, as store indices: inline, and those read from `OVF` at submission, which follow the image. -/
def Tcb.succs (t : Tcb) : List Nat :=
  if t.graph.isNone then []
  else
    ((List.range (recAt t.image 2 1)).map fun i => t.base + recAt t.image (0x20 + 4 * i) 4) ++
      ((List.range (recAt t.image 0x48 4)).map fun i => t.base + recAt t.image (128 + 4 * i) 4)
/-- A node has started a launch, which its slice counts beside its graph (R322). -/
def Tcb.startedLaunch (t : Tcb) : Bool := recAt t.image 0 1 = 1 && t.work.isSome
/-- A piece of a slice's work ends: `OUTST` falls, and the first failure gives the slice its code (R255, R322). -/
def State.workOver (s : State) (h : Word) (counted : Bool) (kind code : Nat) : State :=
  s.updSlice h fun x =>
    { x with
      outst := if counted then x.outst - 1 else x.outst
      fail := if kind = 4 then some ((x.fail).getD (s.ptb, code)) else x.fail }
/-- Counts the end of a node in its graph; the last completes it and frees its entries (R303, R321). -/
def State.graphCount (s : State) (i : Nat) (kind code : Nat) : State :=
  match Tab.find s.graphs i with
  | none => s
  | some g =>
    let g := { g with
      nended := g.nended + 1, ndone := if kind = 0 then g.ndone + 1 else g.ndone
      kind := if kind = 4 || g.kind = 0 then (if kind = 4 && g.kind = 4 then g.kind else kind) else g.kind
      code := if kind = 4 && g.kind ≠ 4 then code else if g.kind = 0 then code else g.code }
    let full := g.nended = g.n
    let s := { s with graphs := Tab.put s.graphs i { g with done := full, completed := if full then s.serialNo else 0 } }
    if full then
      ({ s with tcbs := s.tcbs.filter fun p => p.2.graph ≠ some i, serialNo := s.serialNo + 1 }).workOver g.slice true g.kind g.code
    else s
/-- Ends a node, and with a failure or cancel its successors, transitively; after DONE a successor whose count reaches 0
enters the pool (R303, R423). The first argument bounds the chain. -/
def State.endNodes : Nat → State → Nat → Nat → Nat → State
  | 0, s, _, _, _ => s
  | k + 1, s, n, kind, code =>
    match s.tcb n with
    | none => s
    | some t =>
      if t.state = 4 || t.state = 0 then s
      else
        let s := s.updTcb n fun t => { t with state := 4, kind := kind, code := code }
        let s := t.succs.foldl (fun s m =>
          if kind = 0 then s.updTcb m fun u =>
            if u.state = 1 then { u with pred := u.pred - 1, state := if u.pred ≤ 1 then 2 else 1, since := s.ptb } else u
          else State.endNodes k s m kind code) s
        match t.graph, t.spawner with
        | some i, _ => (s.workOver t.slice t.startedLaunch kind code).graphCount i kind code
        | none, some l => (s.workOver t.slice t.startedLaunch kind code).updLaunch l fun x => { x with spawned := x.spawned - 1 }
        | none, none => ({ s with tcbs := Tab.del s.tcbs n }).workOver t.slice true kind code
/-- Ends a node. -/
def State.endNode (s : State) (n kind code : Nat) : State := State.endNodes (s.tcbs.length + 1) s n kind code

/-! ### Placements (Table 3.9, R293) -/

/-- Schedule register n of a copy of the sixteen. -/
def schAt (t : Tab Word) (n : Nat) : Nat := (Tab.at t n 0).toNat
/-- sch3 and sch4 name a core: its cluster's bit and its core's bit of its die's field. -/
def placeNames (t : Tab Word) (c : Nat) : Bool :=
  let f := bitsOf (schAt t (if c / 64 < 4 then 3 else 4)) (c / 64 % 4 * 13 + 12) (c / 64 % 4 * 13)
  decide (c / 8 % 8 < 5) && bitOf f (c / 8 % 8) && bitOf f (5 + c % 8)
/-- A valid entry of sch5 names a core. -/
def placeExcludes (t : Tab Word) (c : Nat) : Bool :=
  (List.range 4).any fun i =>
    let e := bitsOf (schAt t 5) (16 * i + 15) (16 * i)
    bitOf e 15 && e % 512 = c
/-- The chips of sch6. -/
def placeChips (t : Tab Word) : List Nat := (List.range (bitsOf (schAt t 6) 20 10)).map (bitsOf (schAt t 6) 9 0 + ·)
/-- A core stands in a package's presence words, one for each die (R9, Table 16.9). -/
def coreIn (ws : List Word) (c : Nat) : Bool :=
  let w := ws.getD (c / 64) 0
  w.getLsbD 63 && decide (c / 8 % 8 < 5) && w.getLsbD (40 + c / 8 % 8) && w.getLsbD (c / 8 % 8 * 8 + c % 8)
/-- The cores that a chip of the pod has, as the packages announced them when it formed (R374). -/
def State.coresOf (s : State) (chip : Nat) : List Nat :=
  if chip = s.chip then s.presentCores
  else match s.podMap.find? fun m => m.index = chip with
    | some m => (List.range 512).filter (coreIn m.present)
    | none => []
/-- The cores of a chip that a copy of the registers places, ascending (R293). -/
def State.placedOn (s : State) (chip : Nat) (t : Tab Word) : List Nat := (s.coresOf chip).filter fun c => placeNames t c && !placeExcludes t c
/-- Those of this chip. -/
def State.placed (s : State) (t : Tab Word) : List Nat := s.placedOn s.chip t

/-! ### Cancel (R252, R280, R380) -/

/-- Cancels a copy of a node: a drained one runs on. -/
def State.cancelCopy (s : State) (k mode code : Nat) : State := if mode = 1 then s.copyKill k code else s
/-- W of a pod launch, which its root has formed, or forms where it has not yet announced it (R293, R380). -/
def State.podTotal (s : State) (x : Launch) : Nat :=
  if x.total ≠ 0 then x.total else ((placeChips x.sch).map fun c => (s.placedOn c x.sch).length).foldl (· + ·) 0
/-- Cancels a launch or a node and what lies below it: `what` 0 launch, 1 node; `code` is `CANCELLED`, or the code of a
poisoned node's work (R280, R303). Before Go of a pod launch its root writes every exit word. The first argument bounds the depth. -/
def State.cancelWork : Nat → State → Nat → Nat → Nat → Nat → State
  | 0, s, _, _, _, _ => s
  | k + 1, s, 0, l, mode, code =>
    match s.launch l with
    | none => s
    | some x =>
      if x.done then s
      else
        let s := s.updLaunch l fun x =>
          { x with cancel := some mode, waiting := [], wglive := x.wglive - x.waiting.length
                   failCode := if code = 0x15 then x.failCode else code }
        let never := if x.pod && !x.gone then (if x.root = s.chip then List.range (s.podTotal x) else []) else x.waiting.map Prod.fst
        let s := never.foldl (fun s i => s.neverStarts l i code) s
        let s := if mode = 1 then (s.wgs.filter fun p => p.2.launch = l).foldl (fun s p => s.wgKill p.1 code false) s else s
        let s := if x.pod && x.root = s.chip && x.total ≠ 0 then s.treeDown x.slice (3 + mode) x.rootLaunch [] else s
        (s.tcbs.filter fun p => p.2.spawner = some l).foldl (fun s p => State.cancelWork k s 1 p.1 mode code) s
  | k + 1, s, _ + 1, n, mode, code =>
    match s.tcb n with
    | none => s
    | some t =>
      if t.state = 1 || t.state = 2 then
        let s := match t.work with
          | some l => if recAt t.image 0 1 = 1 then State.cancelWork k s 0 l mode code else s
          | none => s
        s.endNode n (if code = 0x15 then 3 else 4) code
      else if t.state = 3 then
        match t.work with
        | some j => if recAt t.image 0 1 = 1 then State.cancelWork k s 0 j mode code
          else if recAt t.image 0 1 = 2 then s.cancelCopy j mode code else s
        | none => s
      else s
/-- Bound of the depth of nested work. -/
def State.depth (s : State) : Nat := s.tcbs.length + s.launches.length + 2
/-- Cancels a launch in a mode, 0 drain or 1 kill. -/
def State.cancelLaunch (s : State) (l mode : Nat) : State := State.cancelWork s.depth s 0 l mode 0x15
/-- Cancels a graph: nodes not dispatched end CANCELLED, the others' work is cancelled. -/
def State.cancelGraph (s : State) (i mode : Nat) : State :=
  (s.tcbs.filter fun p => p.2.graph = some i).foldl (fun s p => State.cancelWork s.depth s 1 p.1 mode 0x15) s
/-- Cancels all the work of a slice that has been dispatched (R252). -/
def State.cancelDispatched (s : State) (h : Word) (mode : Nat) : State :=
  let s := (s.launches.filter fun p => p.2.slice == h && !p.2.done).foldl (fun s p => State.cancelWork s.depth s 0 p.1 mode 0x15) s
  (s.tcbs.filter fun p => p.2.slice == h).foldl (fun s p => State.cancelWork s.depth s 1 p.1 mode 0x15) s
/-- Ends a slice otherwise than by its packets: its work is cancelled, and its packets not yet processed are skipped; a failure takes the
place of a cancel (R252, R255, R280, R340, R371). -/
def State.stopSlice (s : State) (h : Word) (mode kind code : Nat) : State :=
  let s := s.updSlice h fun x =>
    if x.cancel.isSome && x.endKind ≠ 0 && (x.endKind = 4 || kind ≠ 4) then x
    else { x with cancel := some mode, endKind := kind, endCode := code, packetsDone := true }
  let skip := fun (p : Nat × Queue) =>
    let q := { p.2 with waits := p.2.waits.filter (fun x => x.slice != h), deferred := p.2.deferred.filter fun x => x.slice != h }
    (p.1, if p.2.current == h then { q with skipping := true } else q)
  let s := { s with queues := s.queues.map skip }
  s.cancelDispatched h mode

/-! ### Tenants (R340, R347) -/

/-- A message to a running core's channel from core index 47 or another. -/
def State.tell (s : State) (source : Nat) (target : Option Nat) (m : List Byte) : State :=
  match target with
  | some j => s.send source j m
  | none => s
/-- `TENANT_EVENT` to a tenant's owning shard and to shard 0 (Table 16.2). -/
def State.tenantEvent (s : State) (t : Tenant) (tenant kind : Nat) (slice : Word) : State :=
  let m := mkRecord 64 [(0, 2, 3), (2, 1, kind), (3, 1, tenant), (8, 8, slice.toNat)]
  let s := s.tell (s.complexCore 0) (some t.shard) m
  match s.shard0 with
  | some j => if j = t.shard then s else s.tell (s.complexCore 0) (some j) m
  | none => s
/-- An MSI of a tenant's host interrupt table (R289). -/
def State.tenantMsi (s : State) (t : Tenant) (vector : Nat) : State :=
  match s.partRead (tenantCtx t.pasid) (BitVec.ofNat 64 (t.intTable + 16 * vector)) 16 with
  | .ok r => { s with out := s.out ++ [.msi (recWord r 0) (BitVec.ofNat 32 (recAt r 8 4))] }
  | .error _ => s
/-- The state field of a queue descriptor is written, with release at system scope (Table 11.1). -/
def State.setQueueState (s : State) (tenant q : Nat) (v : Nat) : State :=
  let s := { s with queues := Tab.upd s.queues (16 * tenant + q) fun x => { x with state := v } }
  match s.tenant tenant with
  | none => s
  | some t =>
    let a := BitVec.ofNat 64 (t.queueTable + 64 * q + 9)
    match s.ownSight.partRead (tenantCtx t.pasid) a 1 with
    | .ok b => s.hubWrite .part tenant t.pasid a (leBytes 1 (leNat b / 4 * 4 + v))
    | .error e => s.wiredFault tenant e.2
/-- Steps 1 to 4 of the teardown of a tenant: every queue in TEARDOWN, slices cancelled in kill mode, translations dropped
and the work of other chips' slices here cancelled with them (R347). -/
def State.teardown (s : State) (tenant kind code : Nat) : State :=
  match s.tenant tenant with
  | none => s
  | some t =>
    let s := { s with tenants := Tab.upd s.tenants tenant fun t => { t with teardown := true } }
    let s := (List.range 16).foldl (fun s q => s.setQueueState tenant q 3) s
    let s := (s.slices.filter fun x => x.tenant = tenant).foldl (fun s x => s.stopSlice x.handle 1 kind code) s
    let s := (s.launches.filter fun p => p.2.tenant = tenant && !p.2.done && p.2.pod && p.2.root ≠ s.chip).foldl (fun s p => s.cancelLaunch p.1 1) s
    { s with
      tlbs := s.tlbs.map fun p => (p.1, p.2.filter fun e => e.tag ≠ some t.pasid) }
/-- The kill of a tenant whose wired structure faulted at an address: every collective of it is aborted (R340, R381). -/
def State.tenantKill (s : State) (tenant : Nat) (addr : Word) : State :=
  match s.tenant tenant with
  | none => s
  | some t =>
    let s := (s.launches.filter fun p => p.2.tenant = tenant).foldl (fun s p => s.abortCollective p.1) s
    let s := s.teardown tenant 4 0x0F
    let e := eventEntry s.ptb 0 0 5 0x0F 0 0 addr
    let s := (s.tryEvent tenant e).1
    let s := s.tenantEvent t tenant 5 0
    if s.hosted then s.tenantMsi t 0 else s
/-- The bytes of a launch's entry in the completion-counter table (Table 14.3). -/
def Launch.entry (x : Launch) : List Byte :=
  (x.record ++ List.replicate (384 - x.record.length) 0).take 384 ++
    mkRecord 128 [(0, 8, x.gdone), (8, 4, x.wglive), (12, 4, x.spawned), (16, 8, x.serial), (24, 8, x.statusWord.toNat),
      (32, 8, x.slice.toNat)]
/-- Writes the entries of the launches that a step has changed to the completion-counter table in memory (R320). -/
def State.postEntries (s old : State) : State :=
  s.launches.foldl (fun s p =>
    let same := match old.launch p.1 with
      | some y => y.record == p.2.record && y.gdone = p.2.gdone && y.wglive = p.2.wglive && y.spawned = p.2.spawned &&
          y.serial = p.2.serial && y.statusWord == p.2.statusWord && y.slice == p.2.slice
      | none => false
    if same then s
    else match s.route (s.cctBase.toNat + 512 * p.1) with
      | some k => s.homeStore k p.2.entry
      | none => s.wiredFault p.2.tenant (BitVec.ofNat 64 (s.cctBase.toNat + 512 * p.1))) s

end Sys2Proof.Machine
end

