-- ==== Sys2Proof/Machine/Control.lean ====
section
/-! DEFINITION. Transfers of control, `exit`, `bkpt`, the CONV major, cross-lane instructions and `syscall` (R130 to R143,
R265, R283, R420). -/

namespace Sys2Proof.Machine

/-! ### Transfers (R130 to R132) -/

/-- A lane's own window holds the word at a target (R21). -/
def Gang.windowHolds (g : Gang) (lane : Nat) (target : Word) : Bool :=
  match Tab.find g.bufs lane with
  | some b => decide (b.base.toNat ≤ target.toNat) && decide (target.toNat < b.base.toNat + 4 * b.words.length) && target.toNat % 4 = 0
  | none => false
/-- What a transfer of a lane to a target meets: a target in the lane's own window is fetched already (R21, R132). -/
def State.targetCheck (s : State) (g : Gang) (lane : Nat) (target : Word) : Chk :=
  if g.windowHolds lane target then .ok (.mem 0 0) else s.fetchCheck s.cur target
/-- What a transfer of a lane to a target is to be taken back to where the words there cannot be fetched (R132). -/
def Gang.leaving (g : Gang) (lane : Nat) (target : Word) (link : Bool) : Word × Word × Option Word × List Window :=
  (target, g.pcOf lane, if link then some (g.vreg lane 62) else none, g.windows.filter fun w => w.lane = lane)
/-- Moves each thread of the group to its target, or to the next instruction; with `link`, v62 receives the return address.
A thread whose target cannot be fetched faults and writes nothing (R132). -/
def State.transfer (s : State) (target : Gang → Nat → Option Word) (link : Bool) : State :=
  match s.gang s.cur with
  | none => s
  | some g =>
    let cs := (lanesOf s.mask).map fun l => (l, target g l, match target g l with
      | some t => s.targetCheck g l t
      | none => .ok (.mem 0 0))
    let miss := cs.filterMap fun c => if c.2.2 = .miss then some (c.1, (c.2.1).getD 0) else none
    if !miss.isEmpty then (s.waitRetry s.mask).startWalks s.cur 3 miss
    else
      let s1 := s.updGang s.cur fun g => cs.foldl (fun g c =>
        match c.2.2 with
        | .fault _ => g
        | _ =>
          let next := g.pcOf c.1 + 4
          let g' := if link then g.setV c.1 62 next else g
          let g' := { g' with came := match c.2.1 with
            | some t => if g.windowHolds c.1 t then Tab.del g'.came c.1 else Tab.put g'.came c.1 (g.leaving c.1 t link)
            | none => Tab.del g'.came c.1 }
          g'.finish c.1 ((c.2.1).getD next)) g
      let bad := cs.filterMap fun c => match c.2.2 with
        | .fault f => some (c.1, addrTrap f ((c.2.1).getD 0) (g.pcOf c.1))
        | _ => none
      if bad.isEmpty then s1 else s1.raise s.cur bad

/-- `br` (R130). -/
def execBr (n : BitVec 1) (g : BitVec 3) (o : BitVec 21) (s : State) : Host.Outcome State Fault Refusal :=
  s.issue { Use.regs [] [] with guards := [g.toNat] } fun s =>
    s.transfer (fun x l => if x.guard l g.toNat != (n == 1) then some (x.pcOf l + 4 * o.signExtend 64) else none) false
/-- `call` (R130). -/
def execCall (o : BitVec 25) (s : State) : Host.Outcome State Fault Refusal :=
  s.issue (.regs [62] []) fun s => s.transfer (fun x l => some (x.pcOf l + 4 * o.signExtend 64)) true
/-- `jr` (R131). -/
def execJr (b : BitVec 6) (u : BitVec 1) (s : State) : Host.Outcome State Fault Refusal :=
  s.issue (useB [] b u) fun s => s.transfer (fun x l => some (x.opB l b u)) false
/-- `callr` (R131). -/
def execCallr (b : BitVec 6) (u : BitVec 1) (s : State) : Host.Outcome State Fault Refusal :=
  s.issue (useB [62#6] b u) fun s => s.transfer (fun x l => some (x.opB l b u)) true
/-- `ret` (R131). -/
def execRet (s : State) : Host.Outcome State Fault Refusal :=
  s.issue (.regs [62] []) fun s => s.transfer (fun x l => some (x.vreg l 62)) false
/-- `exit` (R133). -/
def execExit (s : State) : Host.Outcome State Fault Refusal :=
  s.issue { Use.regs [] [] with allow := 1 } fun s =>
    match s.cur with
    | .gang w i => (s.lanesEnd w i s.mask).gangMayEnd w i
    | .core _ => s
/-- `bkpt` (R134). -/
def execBkpt (n : BitVec 12) (s : State) : Host.Outcome State Fault Refusal :=
  s.issue (.regs [] []) fun s => s.raiseAll { bareTrap 0x11 s.curPc with aux := n.toNat }

/-! ### Convergence instructions (R136 to R140) -/

/-- Replaces the members of a register and goes on (R137). -/
def State.cvsetTo (s : State) (n : Nat) (members : Workgroup → Nat → Tab LaneMask) : State :=
  match s.cur with
  | .core _ => s
  | .gang w i =>
    match s.wg w with
    | none => s
    | some g => (s.finish s.mask).cvAssign w n (members g i)
/-- Gangs of a workgroup. -/
def Workgroup.ngang (g : Workgroup) : Nat := g.gangs.length
/-- `cvset` in the pair form (R137). -/
def execCvset (n : BitVec 3) (b : BitVec 5) (s : State) : Host.Outcome State Fault Refusal :=
  s.issue { Use.regs [] [2 * b.toNat, 2 * b.toNat + 1] with allow := 1 } fun s =>
    s.cvsetTo n.toNat fun g _ =>
      let sel := s.uni (2 * b.toNat)
      let x := s.uni (2 * b.toNat + 1)
      let keep := b != 0 && x.getLsbD 63
      (List.range g.ngang).foldl (fun t k =>
        Tab.set 0 t k (if sel.getLsbD k && decide (k < 32) then x.setWidth 32
          else if keep then Tab.at (g.cv n.toNat).members k 0 else 0)) []
/-- `cvset.grp` (R137). -/
def execCvsetGrp (n : BitVec 3) (s : State) : Host.Outcome State Fault Refusal :=
  s.issue { Use.regs [] [] with allow := 1 } fun s => s.cvsetTo n.toNat fun _ i => [(i, s.mask)]
/-- `cvwait` (R138). -/
def execCvwait (n : BitVec 3) (s : State) : Host.Outcome State Fault Refusal :=
  s.issue { Use.regs [] [] with allow := 1 } fun s => s.afterRelease 1 fun s => s.arriveAll n.toNat 1 0 fun _ _ => []
/-- A word of the snapshot of a register (R139 Table 6.3). -/
def Workgroup.cvWord (g : Workgroup) (n : Nat) (b : Word) : Word :=
  let c := g.cv n
  let k := b.toNat % 32
  match bitsOf b.toNat 6 5 with
  | 0 => BitVec.ofNat 64 ((Tab.at c.members k 0).toNat * 2 ^ 32 + (Tab.at c.arrived k 0).toNat)
  | 1 =>
    let gangs := (c.members.filter fun p => p.2 != 0).foldl (fun m p => m + 2 ^ p.1) 0
    BitVec.ofNat 64 (gangs * 2 ^ 32 + (if c.phase then 128 else 0) + (if g.deadMember c then 64 else 0) + c.kind * 16 + c.state)
  | 2 => c.sig
  | _ => 0
/-- `cvquery` (R139): the snapshot is taken at issue (log 20). -/
def execCvquery (d : BitVec 6) (n : BitVec 3) (b : BitVec 6) (u : BitVec 1) (s : State) : Host.Outcome State Fault Refusal :=
  s.issue { useB [d] b u with allow := 1 } fun s =>
    match s.cur with
    | .core _ => s
    | .gang w _ =>
      match s.wg w with
      | none => s
      | some g => s.inLanes fun x l => .reg d (g.cvWord n.toNat (x.opB l b u))
/-- `cvclear` (R140, Table 3.8). -/
def execCvclear (n : BitVec 3) (s : State) : Host.Outcome State Fault Refusal :=
  s.issue { Use.regs [] [] with allow := 1 } fun s =>
    match s.cur with
    | .core _ => s
    | .gang w _ =>
      match s.wg w with
      | none => s
      | some g =>
        let c := g.cv n.toNat
        ((s.finish s.mask).setCv w n.toNat { c with members := [] }.settle).restart w c.arrivals

/-! ### Cross-lane instructions (R141 to R143) -/

/-- Arrival at a cross-lane operation: a member brings its A, its B, its destination and its lookahead count. -/
def State.cross (s : State) (major bf : Nat) (d a : BitVec 6) (b : Option (BitVec 6)) (c : BitVec 3) (l : BitVec 4) :
    Host.Outcome State Fault Refusal :=
  s.issue { Use.regs ([d.toNat, a.toNat] ++ (b.map BitVec.toNat).toList) [] with allow := 1 } fun s =>
    s.arriveAll c.toNat 2 (BitVec.ofNat 64 (64 * major + bf)) fun g k =>
      [g.vreg k a.toNat, g.vreg k ((b.map BitVec.toNat).getD 0), BitVec.ofNat 64 d.toNat, BitVec.ofNat 64 l.toNat]
/-- `xshfl` (R142). -/
def execXshfl (d a b : BitVec 6) (c : BitVec 3) (l : BitVec 4) (s : State) : Host.Outcome State Fault Refusal :=
  s.cross 0x16 0 d a (some b) c l
/-- `xshxor` (R142). -/
def execXshxor (d a : BitVec 6) (p : BitVec 5) (c : BitVec 3) (l : BitVec 4) (s : State) : Host.Outcome State Fault Refusal :=
  s.cross 0x17 p.toNat d a none c l
/-- `xred` (R142, R143). -/
def execXred (d a : BitVec 6) (o : BitVec 5) (c : BitVec 3) (l : BitVec 4) (s : State) : Host.Outcome State Fault Refusal :=
  s.cross 0x18 o.toNat d a none c l
/-- `xscan` (R142, R143). -/
def execXscan (d a : BitVec 6) (e : BitVec 1) (o : BitVec 5) (c : BitVec 3) (l : BitVec 4) (s : State) :
    Host.Outcome State Fault Refusal := s.cross 0x19 (32 * e.toNat + o.toNat) d a none c l
/-- `xvote` (R142). -/
def execXvote (d a k : BitVec 6) (c : BitVec 3) (l : BitVec 4) (s : State) : Host.Outcome State Fault Refusal :=
  s.cross 0x1A k.toNat d a none c l
/-- `xmatch` (R142). -/
def execXmatch (d a : BitVec 6) (c : BitVec 3) (l : BitVec 4) (s : State) : Host.Outcome State Fault Refusal :=
  s.cross 0x1B 0 d a none c l

/-! ### syscall (R265, R283) -/

/-- Lane register n of a lane, in the register cache or in the image. -/
def State.laneValue (s : State) (w i lane n : Nat) : Word :=
  match s.wg w, s.gang (.gang w i) with
  | some g, some x =>
    if x.holds (lineOfV x.count lane n) then x.vreg lane n
    else match s.launchOf g with
      | some l =>
        match s.partRead (tenantCtx l.pasid) (l.image g.wgid i + BitVec.ofNat 64 (0x400 + 0x100 * slotOf x.count n + 8 * lane)) 8 with
        | .ok bs => BitVec.ofNat 64 (leNat bs)
        | .error _ => 0
      | none => 0
  | _, _ => 0
/-- The images of some lanes that a call record is read from, where a register is not in the register cache: the address of one that faults
(R340). -/
def State.imageFault (s : State) (w i : Nat) : Option Word :=
  match s.wg w, s.gang (.gang w i) with
  | some g, some x =>
    if (List.range 192).all fun k => x.holds (lineOfV x.count (k / 6) (k % 6 + 1)) then none
    else match s.launchOf g with
      | some l => match s.partRead (tenantCtx l.pasid) (l.image g.wgid i) (imageSize x.count) with
        | .ok _ => none
        | .error e => some e.2
      | none => none
  | _, _ => none
/-- A call record (Table 11.11). -/
def State.callRecord (s : State) (w i n : Nat) (m : LaneMask) (pc : Word) : List Byte :=
  match s.wg w with
  | none => []
  | some g =>
    let l := s.launchOf g
    let slice := (l.map (·.slice)).getD 0
    mkRecord 64 [(0, 8, s.ptb), (8, 8, s.deadlineOf slice ((l.map (·.dladj)).getD 0)), (0x10, 8, slice.toNat),
      (0x18, 4, m.toNat), (0x1C, 2, n), (0x1E, 1, i + 32 * g.homeSlot), (0x1F, 1, g.home % 8), (0x20, 8, pc.toNat),
      (0x28, 8, (l.map (·.pasid)).getD 0), (0x3F, 1, 1)] ++
    ((List.range 32).flatMap fun lane => (List.range 6).flatMap fun k => leBytes 8 (s.laneValue w i lane (k + 1)).toNat) ++
    List.replicate 448 0
/-- Writes the call record of the issuing group where its gang has no other call and the ring has a free slot, else the
threads wait (R265, R283, R422). -/
def State.makeCall (s : State) (n : Nat) : State :=
  match s.cur with
  | .core i => s.trap i 0x12 (s.curPc + 4) s.curWord
  | .gang w i =>
    match s.wg w, s.gang s.cur with
    | some g, some x =>
      if x.callSlot.isSome then s.waitRetry s.mask
      else s.afterRelease 3 fun s =>
        match s.ringRoom (clusterOf g.core) true with
        | none =>
          match s.ringBroken (clusterOf g.core) true with
          | some a => (s.waitRetry s.mask).wiredFault (tenantOfSlice (s.sliceOf s.cur)) a
          | none => s.waitRetry s.mask
        | some (base, j) =>
          let slice := s.sliceOf s.cur
          let s := match s.imageFault w i with
            | some a => s.wiredFault (tenantOfSlice slice) a
            | none => s
          let s := s.recordWrite (clusterOf g.core) slice (base + BitVec.ofNat 64 (2048 * j)) (s.callRecord w i n s.mask s.curPc)
          s.updGang s.cur fun x =>
            { ((x.finishAll s.mask).each s.mask fun x l => x.setStat l .call) with
              callSlot := some j, callCluster := clusterOf g.core, callPopped := false, callLanes := s.mask, callDone := 0 }
    | _, _ => s
/-- `syscall` (R283): reads v1 to v6. -/
def execSyscall (n : BitVec 15) (_l : BitVec 4) (s : State) : Host.Outcome State Fault Refusal :=
  s.issue (.regs [1, 2, 3, 4, 5, 6] []) fun s => s.makeCall n.toNat

end Sys2Proof.Machine
end

