-- ==== Sys2Proof/Machine/Matrix.lean ====
section
/-! DEFINITION. The matrix majors and the matrix array (R44 to R55, R88, R217 to R238, R335). -/

namespace Sys2Proof.Machine

/-! ### Format word and tile descriptors (R220 to R226) -/

/-- A format word, read field by field (Table 10.1). -/
abbrev FmtWord := Nat
/-- `AFMT`. -/
def fwA (f : FmtWord) : Nat := bitsOf f 3 0
/-- `BFMT`. -/
def fwB (f : FmtWord) : Nat := bitsOf f 7 4
/-- `SAT`. -/
def fwSat (f : FmtWord) : Bool := bitOf f 8
/-- `CPLX`. -/
def fwCplx (f : FmtWord) : Bool := bitOf f 9
/-- `ZERO`. -/
def fwZero (f : FmtWord) : Bool := bitOf f 10
/-- `SCL`. -/
def fwScl (f : FmtWord) : Bool := bitOf f 11
/-- Rows M. -/
def fwM (f : FmtWord) : Nat := 16 * (bitsOf f 15 12 + 1)
/-- Columns N. -/
def fwN (f : FmtWord) : Nat := 16 * (bitsOf f 19 16 + 1)
/-- `K`. -/
def fwK (f : FmtWord) : Nat := bitsOf f 35 20
/-- `CT`. -/
def fwCt (f : FmtWord) : Nat := bitsOf f 47 36
/-- Points of `HN`; 128 for its invalid code. -/
def fwHn (f : FmtWord) : Nat := 16 * 2 ^ bitsOf f 49 48
/-- `HAX`. -/
def fwHax (f : FmtWord) : Bool := bitOf f 50

/-- Size of an element in half bytes (Table 10.2). -/
def halfBytes (fmt : Nat) : Nat :=
  if fmt = 0 then 16 else if fmt = 1 || fmt = 11 then 8 else if fmt = 2 || fmt = 3 then 4 else if fmt = 9 then 1 else 2
/-- A block-scaled format. -/
def blocked (fmt : Nat) : Bool := fmt = 8 || fmt = 9
/-- Bytes of a block header. -/
def headerBytes (fmt : Nat) : Nat := if fmt = 9 then 2 else 1

/-- A stored matrix as an operation reads or writes it: rows by columns (Table 10.4, R224). -/
structure Mat where
  base : Nat
  ld : Nat
  scale : Nat
  trans : Bool
  axis : Bool
  fmt : Nat
  rows : Nat
  cols : Nat
  written : Bool
  deriving DecidableEq, Repr, Inhabited

/-- The matrix that a pair of descriptor words describes. -/
def matOf (lo hi : Word) (fmt rows cols : Nat) (written : Bool) : Mat :=
  let x := lo.toNat
  ⟨bitsOf x 22 0, bitsOf hi.toNat 19 0, bitsOf x 47 25, bitOf x 24, bitOf x 23, fmt, rows, cols, written⟩
/-- Lines are columns. -/
def Mat.flip (m : Mat) : Bool := m.trans || (blocked m.fmt && m.axis)
/-- Number of lines. -/
def Mat.lines (m : Mat) : Nat := if m.flip then m.cols else m.rows
/-- Elements of a line. -/
def Mat.elems (m : Mat) : Nat := if m.flip then m.rows else m.cols
/-- Length of a line in bytes. -/
def Mat.lineBytes (m : Mat) : Nat := m.elems * halfBytes m.fmt / 2
/-- Line and position of an element. -/
def Mat.locate (m : Mat) (r c : Nat) : Nat × Nat := if m.flip then (c, r) else (r, c)
/-- Offset of the first byte of an element (R224, R225). -/
def Mat.offset (m : Mat) (r c : Nat) : Nat :=
  let p := m.locate r c
  m.base + p.1 * m.ld + p.2 * halfBytes m.fmt / 2
/-- Offset of the header of an element's block (R225). -/
def Mat.header (m : Mat) (r c : Nat) : Nat :=
  let p := m.locate r c
  m.scale + headerBytes m.fmt * (p.1 * (m.elems / 256) + p.2 / 256)
/-- The byte ranges of the matrix: first byte and length, of its lines and of its scale array (R234). -/
def Mat.ranges (m : Mat) : List (Nat × Nat) :=
  let body := if m.lines = 0 || m.lineBytes = 0 then [] else [(m.base, (m.lines - 1) * m.ld + m.lineBytes)]
  let heads := headerBytes m.fmt * (m.lines * (m.elems / 256))
  body ++ if blocked m.fmt && decide (0 < heads) then [(m.scale, heads)] else []

/-- The accumulator kind of an operand format (Table 10.3). -/
def accKind (fmt : Nat) : Nat := if fmt = 0 then 0 else if fmt = 6 || fmt = 7 then 11 else 1

/-- What an operation does, without its place in a queue. -/
structure MxOp where
  major : Nat
  sub : Nat
  fmt : FmtWord
  desc : List Word
  deriving DecidableEq, Repr, Inhabited

/-- Descriptor word n. -/
def MxOp.word (o : MxOp) (n : Nat) : Word := o.desc.getD n 0
/-- The accumulator kind of the tiles it names. -/
def MxOp.kind (o : MxOp) : Nat := if o.major = 0x3C then accKind (fwA o.fmt) else fwA o.fmt
/-- Columns of a tile (R226). -/
def MxOp.tileCols (o : MxOp) : Nat := if o.kind = 0 then 8 else 16
/-- Bytes of an accumulator element. -/
def MxOp.accBytes (o : MxOp) : Nat := if o.kind = 0 then 8 else 4
/-- It names tiles: every major but 0x3F (R226). -/
def MxOp.tiled (o : MxOp) : Bool := o.major ≠ 0x3F
/-- Number of tiles T (R226). -/
def MxOp.tiles (o : MxOp) : Nat := fwM o.fmt / 16 * (fwN o.fmt / o.tileCols)
/-- The matrices in scratchpad: A, B, destination, multipliers, source (R229 to R233). -/
def MxOp.mats (o : MxOp) : List Mat :=
  let f := o.fmt
  let pair := fun (n : Nat) => matOf (o.word n) (o.word (n + 1))
  if o.major = 0x3C then
    [pair 0 (fwA f) (fwM f) (fwK f) false, pair 2 (fwB f) (fwK f) (if fwCplx f then fwN f / 2 else fwN f) false]
  else if o.major = 0x3D then
    pair 0 (fwB f) (fwM f) (fwN f) true :: if fwScl f then [pair 2 1 1 (fwN f) false] else []
  else if o.major = 0x3E then
    if o.sub = 0 then [] else [pair 0 (fwA f) (fwM f) (fwN f) (o.sub == 2)]
  else [pair 0 1 (fwM f) (fwK f) false, pair 2 (fwB f) (fwM f) (fwK f) true]
/-- First byte, length and whether written of each range (R234). -/
def MxOp.ranges (o : MxOp) : List (Nat × Nat × Bool) :=
  o.mats.flatMap fun m => m.ranges.map fun r => (r.1, r.2, m.written)

/-! ### Checks at completion (Table 10.5) -/

/-- Mask of the format-word bits that an instruction does not use. -/
def MxOp.unused (o : MxOp) : Nat :=
  let scl := 2 ^ 11
  let h := 7 * 2 ^ 48
  let low := 15 * 2 ^ 8
  let k := 0xFFFF * 2 ^ 20
  let ct := 0xFFF * 2 ^ 36
  let nb := 15 * 2 ^ 16
  if o.major = 0x3C then scl + h
  else if o.major = 0x3D then k + 2 ^ 10 + 2 ^ 9 + h
  else if o.major = 0x3E then k + low + 0xF0 + h
  else if o.sub = 0 then ct + nb + low + h else ct + nb + low
/-- An operand pair of Table 10.3. -/
def acceptedPair (a b : Nat) : Bool :=
  (a = b && (a ≤ 3 || a = 8 || a = 9)) || ((a = 4 || a = 5) && (b = 4 || b = 5)) || ((a = 6 || a = 7) && (b = 6 || b = 7))
/-- An accumulator kind. -/
def isAcc (a : Nat) : Bool := a = 0 || a = 1 || a = 11
/-- Reserved bits of a descriptor pair. -/
def reservedDesc (lo hi : Word) : Bool := bitsOf lo.toNat 63 48 ≠ 0 || bitsOf hi.toNat 63 20 ≠ 0
/-- Step 1: a reserved or unused field, a code not accepted or a size outside the limits. -/
def MxOp.illegal (o : MxOp) : Bool :=
  let f := o.fmt
  let a := fwA f
  let b := fwB f
  let ms := o.mats
  let plain := fun (m : Mat) => m.scale = 0 && !m.axis
  bitsOf f 63 51 ≠ 0 || (f &&& o.unused) ≠ 0 ||
    reservedDesc (o.word 0) (o.word 1) || reservedDesc (o.word 2) (o.word 3) ||
    ms.any (fun m => m.written && decide (m.ld < m.lineBytes)) ||
    (if o.major = 0x3C then
      !acceptedPair a b || 7 < bitsOf f 15 12 || 7 < bitsOf f 19 16 || fwK f = 0 ||
        (blocked a && fwK f % 256 ≠ 0) || (fwSat f && a ≠ 6 && a ≠ 7) ||
        (fwCplx f && (1 < a || fwK f % 2 ≠ 0 || (a = 1 && fwN f % 32 ≠ 0))) ||
        (!blocked a && !ms.all plain)
    else if o.major = 0x3D then
      !isAcc a || (7 < b && b ≠ 11) || !(ms.take 1).all plain ||
        (fwScl f && (bitsOf (o.word 2).toNat 63 23 ≠ 0 || o.word 3 != 0))
    else if o.major = 0x3E then !isAcc a || !ms.all plain
    else
      a ≠ 1 || !(ms.take 1).all plain || ms.any (·.trans) ||
        (if o.sub = 0 then
          !blocked b || (if (ms.drop 1).any (·.axis) then fwM f ≠ 256 else fwK f % 256 ≠ 0)
        else b ≠ 1 || !ms.all plain || 64 < fwHn f || (if fwHax f then fwM f else fwK f) % fwHn f ≠ 0))
/-- Step 2: a block axis that does not run along K. -/
def MxOp.badAxis (o : MxOp) : Bool :=
  o.major = 0x3C && blocked (fwA o.fmt) &&
    (o.mats.any (·.trans) || (o.mats.take 1).any (·.axis) || (o.mats.drop 1).any fun m => !m.axis)
/-- Step 3: a `BASE`, `LD` or `SCALE` that is not aligned. -/
def MxOp.misaligned (o : MxOp) : Bool :=
  o.mats.any fun m => m.base % 16 ≠ 0 || m.ld % 16 ≠ 0 || (m.fmt = 9 && m.scale % 2 ≠ 0)
/-- Step 4: a tile or a byte at or beyond a share. -/
def MxOp.outside (o : MxOp) (scratch acc : Nat) : Bool :=
  (o.tiled && acc < 1024 * (fwCt o.fmt + o.tiles)) || o.ranges.any fun r => scratch < r.1 + r.2.1
/-- Two ranges share a byte. -/
def rangesMeet (a b : Nat × Nat × Bool) : Bool := decide (a.1 < b.1 + b.2.1) && decide (b.1 < a.1 + a.2.1)
/-- Step 5: a written range meets another, but for the in-place form of `mhad`. -/
def MxOp.overlaps (o : MxOp) : Bool :=
  let inPlace := o.major = 0x3F && o.sub = 1 && match o.mats with
    | [a, b] => a.base = b.base && a.ld = b.ld
    | _ => false
  let rs := o.ranges
  !inPlace && (List.range rs.length).any fun i => (List.range rs.length).any fun j =>
    let x := rs.getD i (0, 0, false)
    i ≠ j && x.2.2 && rangesMeet x (rs.getD j (0, 0, false))
/-- The fault of the first check that fails. -/
def MxOp.check (o : MxOp) (scratch acc : Nat) : Option Nat :=
  if o.illegal then some 1 else if o.badAxis then some 0xC else if o.misaligned then some 4
  else if o.outside scratch acc then some 8 else if o.overlaps then some 1 else none

/-! ### Values of operands and accumulators -/

/-- A value times 2 ^ k. -/
def Val.scale (x : Val) (k : Int) : Val :=
  match x with
  | .fin n m e => .fin n m (e + k)
  | x => x
/-- Magnitude of a value. -/
def Val.abs (x : Val) : Val :=
  match x with
  | .fin _ m e => .fin false m e
  | .inf _ => .inf false
  | x => x
/-- The format of a code of Table 10.2. -/
def opFmt (c : Nat) : Fmt :=
  if c = 0 then fp64 else if c = 2 then fp16 else if c = 3 then bf16 else if c = 4 || c = 8 then e4m3
  else if c = 5 then e5m2 else fp32
/-- The element of a block whose header is E and X (R45). -/
def blockElement (fmt raw e x : Nat) : Val :=
  if e = 0 || e = 255 then .nan false
  else
    let v := if fmt = 8 then e4m3.decode raw else if raw = 8 then e4m3.decode x else e2m1.decode raw
    v.scale ((e : Int) - 127)
/-- The raw code of an element in scratchpad. -/
def Workgroup.rawAt (g : Workgroup) (m : Mat) (r c : Nat) : Nat :=
  let p := m.locate r c
  if m.fmt = 9 then
    let b := (Mem.byte g.scratch (m.offset r c)).toNat
    if p.2 % 2 = 0 then b % 16 else b / 16
  else leNat (Mem.bytes g.scratch (m.offset r c) (halfBytes m.fmt / 2))
/-- The exact value of an element of a floating-point or block-scaled operand. -/
def Workgroup.elemAt (g : Workgroup) (m : Mat) (r c : Nat) : Val :=
  if blocked m.fmt then
    blockElement m.fmt (g.rawAt m r c) (Mem.byte g.scratch (m.header r c)).toNat (Mem.byte g.scratch (m.header r c + 1)).toNat
  else (opFmt m.fmt).decode (g.rawAt m r c)
/-- The value of an element of an integer operand (R53). -/
def Workgroup.intAt (g : Workgroup) (m : Mat) (r c : Nat) : Int :=
  if m.fmt = 6 then sextInt 8 (g.rawAt m r c) else (g.rawAt m r c : Nat)
/-- Offset of an accumulator element in the accumulator share (R226). -/
def MxOp.accAt (o : MxOp) (i j : Nat) : Nat :=
  let w := o.tileCols
  1024 * (fwCt o.fmt + i / 16 * (fwN o.fmt / w) + j / w) + o.accBytes * (w * (i % 16) + j % w)
/-- An accumulator element, bit for bit. -/
def Workgroup.accBits (g : Workgroup) (o : MxOp) (i j : Nat) : Nat := leNat (Mem.bytes g.acc (o.accAt i j) o.accBytes)
/-- Writes an accumulator element. -/
def Workgroup.setAcc (g : Workgroup) (o : MxOp) (i j x : Nat) : Workgroup :=
  { g with acc := Mem.storeAll g.acc (o.accAt i j) (leBytes o.accBytes x) }
/-- Writes an element of a matrix of whole bytes. -/
def Workgroup.setElem (g : Workgroup) (m : Mat) (r c x : Nat) : Workgroup :=
  { g with scratch := Mem.storeAll g.scratch (m.offset r c) (leBytes (halfBytes m.fmt / 2) x) }

/-! ### Arithmetic (R47, R49, R51 to R55) -/

/-- A rounding step of a fused chain or of `mdrain` in FP32 or FP64: a tiny non-zero result becomes a zero of its sign under `ftz`, and under
`assist` stops the operation (R55); the smallest normal is tiny too where it is inexact and was below itself before it was rounded (log 111). -/
def fpStep (f : Fmt) (ftz : Bool) (r : Nat × Flags) : Option Nat :=
  let mag := r.1 % 2 ^ (f.width - 1)
  let tiny := mag ≠ 0 && (decide (mag < 2 ^ f.fbits) || (mag = 2 ^ f.fbits && r.2.getLsbD 1))
  if tiny then (if ftz then some (r.1 - mag) else none) else some r.1
/-- One fused step. -/
def fmaStep (f : Fmt) (ftz : Bool) (a b : Val) (c : Nat) : Option Nat := fpStep f ftz (f.fma 0 a b (f.decode c))
/-- The fused chain over k (R51). -/
def chain (f : Fmt) (ftz : Bool) (ks : List Nat) (a b : Nat → Val) (c : Nat) : Option Nat :=
  ks.foldl (fun c k => c.bind (fmaStep f ftz (a k) (b k))) (some c)
/-- Both chains of complex mode over complex k (R54): real and imaginary parts. -/
def chains (f : Fmt) (ftz : Bool) (ks : List Nat) (a b c d : Nat → Val) (re im : Nat) : Option (Nat × Nat) :=
  ks.foldl (fun r k => r.bind fun p =>
    match (fmaStep f ftz (a k) (c k) p.1).bind (fmaStep f ftz (b k).neg (d k)),
        (fmaStep f ftz (a k) (d k) p.2).bind (fmaStep f ftz (b k) (c k)) with
    | some x, some y => some (x, y)
    | _, _ => none) (some (re, im))
/-- The exact sum of a group of products, and its addition to the accumulator; zeros have the signs of IEEE 754 (R52; log 103). -/
def exactGroup (ks : List Nat) (a b : Nat → Val) (c : Nat) : Nat :=
  match ks.map fun k => (a k).mul (b k) with
  | [] => c
  | x :: xs => (fp32.add 0 (fp32.decode c) (xs.foldl Val.add x)).1
/-- The sum of an integer group, and its addition to the accumulator (R53). -/
def intGroup (sat : Bool) (ks : List Nat) (a b : Nat → Int) (c : Nat) : Nat :=
  let t := sextInt 32 c + (ks.map fun k => a k * b k).foldl (· + ·) 0
  (BitVec.ofInt 32 (if sat then max (-(2 ^ 31)) (min (2 ^ 31 - 1) t) else t)).toNat

/-- Largest magnitude of a block, none where an element is NaN or infinite (R47). -/
def amaxOf (xs : List Val) : Option Val :=
  xs.foldl (fun m x => match m, x with
    | some y, .fin _ k e => if y.cmp (.fin false k e) = .lt then some (.fin false k e) else some y
    | _, _ => none) (some (.fin false 0 0))
/-- Exponent ceil(log2(amax / q)) of amax = m * 2^e > 0, for q = 6 or 448 (R47). -/
def scaleExp (bs4 : Bool) (m : Nat) (e : Int) : Int :=
  let top := 2 ^ (bitLen m - 1)
  let lead := e + (bitLen m - 1 : Nat)
  if bs4 then (if 2 * m ≤ 3 * top then lead - 2 else lead - 1)
  else if 4 * m ≤ 7 * top then lead - 8 else lead - 7
/-- The quantiser: E, X and the element codes of a block; a zero of BS8 keeps its sign (R47; log 53). -/
def quantise (bs4 : Bool) (xs : List Val) : Nat × Nat × List Nat :=
  match amaxOf xs with
  | none => (255, 0, xs.map fun _ => 0)
  | some (.fin _ m e) =>
    if m = 0 then (127, 0, xs.map fun x => if bs4 then 0 else e4m3.signBit x.isNeg)
    else
      let ex := max 1 (scaleExp bs4 m e + 127)
      let k := 127 - ex
      if bs4 then
        let peak := (xs.find? fun x => x.abs.cmp (.fin false m e) = .eq).getD (.fin false m e)
        let x := qNarrow e4m3 false peak k
        (ex.toNat, x, xs.map fun v =>
          let y := v.scale k
          let c := qE2M1 v k
          let dist : Val → Val := fun z => (y.add z.neg).abs
          if (dist (e4m3.decode x)).cmp (dist (e2m1.decode c)) == Ordering.lt then 8 else c)
      else (ex.toNat, 0, xs.map fun v => qNarrow e4m3 false v k)
  | some _ => (255, 0, xs.map fun _ => 0)

/-- One stage of the Hadamard transform: sums and differences of partners h apart (R49). -/
def hadStage (h : Nat) (xs : List Nat) : List Nat :=
  (List.range xs.length).map fun i =>
    if i / h % 2 = 0 then (fp32.add 0 (fp32.decode (xs.getD i 0)) (fp32.decode (xs.getD (i + h) 0))).1
    else (fp32.add 0 (fp32.decode (xs.getD (i - h) 0)) (fp32.decode (xs.getD i 0)).neg).1
/-- The Hadamard transform of n values (R49). -/
def hadamard (n : Nat) (xs : List Nat) : List Nat :=
  let ys := ([1, 2, 4, 8, 16, 32].filter (· < n)).foldl (fun ys h => hadStage h ys) xs
  let c := if n = 16 then 0x3E800000 else if n = 32 then 0x3E3504F3 else 0x3E000000
  ys.map fun y => (fp32.mul 0 (fp32.decode y) (fp32.decode c)).1

/-- The conversion of `mdrain` (R230): `acc` is the format in which the value stands. -/
def drainConvert (acc b : Nat) (sat ftz : Bool) (v : Val) : Option Nat :=
  match b with
  | 0 => some (fp64.ofVal 0 v).1
  | 1 => if acc = 0 then fpStep fp32 ftz (fp32.ofVal 0 v) else some (fp32.ofVal 0 v).1
  | 6 => some (BitVec.ofInt 8 (v.toInt 0 (-128) 127).1).toNat
  | 7 => some (BitVec.ofInt 8 (v.toInt 0 0 255).1).toNat
  | 11 => some (BitVec.ofInt 32 (v.toInt 0 (-(2 ^ 31)) (2 ^ 31 - 1)).1).toNat
  | b => some (qNarrow (opFmt b) sat v 0)
/-- One element of `mdrain`: the accumulator bits and the multiplier. -/
def drainElement (f : FmtWord) (ftz : Bool) (bits : Nat) (m : Val) : Option Nat :=
  let k := fwA f
  let v := if k = 11 then
      let x := sextInt 32 bits
      Val.fin (decide (x < 0)) x.natAbs 0
    else (opFmt k).decode bits
  let p := if k = 0 then fp64 else fp32
  if fwScl f then
    (fpStep p ftz (p.ofVal 0 (v.mul m))).bind fun r => drainConvert k (fwB f) (fwSat f) ftz (p.decode r)
  else drainConvert k (fwB f) (fwSat f) ftz v

/-! ### Steps (Table 10.7) -/

/-- Consecutive k of a step. -/
def MxOp.kStep (o : MxOp) : Nat := if fwA o.fmt = 0 then 8 else 16
/-- Groups of a `mhad` in a step of 256 elements. -/
def MxOp.hadPer (o : MxOp) : Nat := 256 / fwHn o.fmt
/-- Number of steps. -/
def MxOp.steps (o : MxOp) : Nat :=
  let f := o.fmt
  if o.major = 0x3C then ceilDiv (fwK f) o.kStep
  else if o.major = 0x3F then ceilDiv (fwM f * fwK f) 256
  else fwM f / 16
/-- Busy cycles of a step. -/
def MxOp.busy (o : MxOp) : Nat :=
  let f := o.fmt
  let a := fwA f
  if o.major = 0x3C then
    let rate := if a = 1 then 4096 else if a ≤ 3 then 32768 else if a = 9 then 131072 else 65536
    if a = 0 then ceilDiv (fwM f * fwN f * 8) 2048 else ceilDiv (fwM f * fwN f * 16) rate
  else if o.major = 0x3F then 4
  else ceilDiv (16 * fwN f * o.accBytes) (if o.major = 0x3E && o.sub = 0 then 4096 else 512)
/-- The k of step n. -/
def MxOp.ks (o : MxOp) (n : Nat) : List Nat := (List.range o.kStep).map (n * o.kStep + ·) |>.filter (· < fwK o.fmt)
/-- The rows of step n. -/
def stepRows (n : Nat) : List Nat := (List.range 16).map (16 * n + ·)
/-- The elements of group q of a `mhad` (R233), or of block q of a `mquant` (R232). -/
def MxOp.group (o : MxOp) (q : Nat) : List (Nat × Nat) :=
  let cols := fwK o.fmt
  if o.sub = 0 then
    let perRow := cols / 256
    if (o.mats.drop 1).any (·.axis) then (List.range 256).map fun i => (i, q)
    else (List.range 256).map fun i => (q / perRow, q % perRow * 256 + i)
  else
    let n := fwHn o.fmt
    if fwHax o.fmt then (List.range n).map fun i => (q / cols * n + i, q % cols)
    else (List.range n).map fun i => (q / (cols / n), q % (cols / n) * n + i)
/-- The groups of step n. -/
def MxOp.groups (o : MxOp) (n : Nat) : List Nat :=
  if o.sub = 0 then [n].filter (· < o.steps)
  else (List.range o.hadPer).map (n * o.hadPer + ·) |>.filter (· < fwM o.fmt * fwK o.fmt / fwHn o.fmt)

/-- Folds a change that may be refused over a list. -/
def foldOpt {α β : Type} (f : β → α → Option β) : β → List α → Option β
  | b, [] => some b
  | b, x :: xs => match f b x with
    | some c => foldOpt f c xs
    | none => none
/-- The pairs of two lists, row by row. -/
def pairs (is js : List Nat) : List (Nat × Nat) := is.flatMap fun i => js.map fun j => (i, j)

/-- A step of `mma` on one element of the region (R229). -/
def Workgroup.mmaElement (g : Workgroup) (o : MxOp) (ftz : Bool) (ma mb : Mat) (n i j : Nat) : Option Nat :=
  let a := fwA o.fmt
  let c := if n = 0 && fwZero o.fmt then 0 else g.accBits o i j
  let ks := o.ks n
  if a ≤ 1 then chain (opFmt a) ftz ks (g.elemAt ma i) (fun k => g.elemAt mb k j) c
  else if a = 6 || a = 7 then some (intGroup (fwSat o.fmt) ks (g.intAt ma i) (fun k => g.intAt mb k j) c)
  else some (exactGroup ks (g.elemAt ma i) (fun k => g.elemAt mb k j) c)
/-- A step of a complex `mma` on one complex element. -/
def Workgroup.mmaComplex (g : Workgroup) (o : MxOp) (ftz : Bool) (ma mb : Mat) (n i q : Nat) : Option (Nat × Nat) :=
  let zero := n = 0 && fwZero o.fmt
  let ks := (o.ks n).filter (· % 2 = 0)
  chains (opFmt (fwA o.fmt)) ftz ks (g.elemAt ma i) (fun k => g.elemAt ma i (k + 1)) (fun k => g.elemAt mb k q)
    (fun k => g.elemAt mb (k + 1) q) (if zero then 0 else g.accBits o i (2 * q)) (if zero then 0 else g.accBits o i (2 * q + 1))

/-- Writes the elements and header of a quantised block (R44, R225, R232). -/
def Workgroup.putBlock (g : Workgroup) (m : Mat) (cells : List (Nat × Nat)) (r : Nat × Nat × List Nat) : Workgroup :=
  let codes := r.2.2
  let at0 := cells.headD (0, 0)
  let bytes := if m.fmt = 9 then
      (List.range 128).map fun i => BitVec.ofNat 8 (codes.getD (2 * i) 0 + 16 * codes.getD (2 * i + 1) 0)
    else codes.map (BitVec.ofNat 8)
  let t := Mem.storeAll g.scratch (m.offset at0.1 at0.2) bytes
  let head := if m.fmt = 9 then [BitVec.ofNat 8 r.1, BitVec.ofNat 8 r.2.1] else [BitVec.ofNat 8 r.1]
  { g with scratch := Mem.storeAll t (m.header at0.1 at0.2) head }

/-- The effect of step n of an operation on the shares of its workgroup; none where it needs an assist, before it writes
anything (R229 to R233, R237). -/
def MxOp.run (o : MxOp) (ftz : Bool) (n : Nat) (g : Workgroup) : Option Workgroup :=
  let f := o.fmt
  let cells := pairs (stepRows n) (List.range (fwN f))
  match o.major, o.mats with
  | 0x3C, [ma, mb] =>
    if fwCplx f then
      foldOpt (fun h p => (g.mmaComplex o ftz ma mb n p.1 p.2).map fun c =>
        (h.setAcc o p.1 (2 * p.2) c.1).setAcc o p.1 (2 * p.2 + 1) c.2) g (pairs (List.range (fwM f)) (List.range (fwN f / 2)))
    else
      foldOpt (fun h p => (g.mmaElement o ftz ma mb n p.1 p.2).map (h.setAcc o p.1 p.2)) g
        (pairs (List.range (fwM f)) (List.range (fwN f)))
  | 0x3D, md :: ms =>
    foldOpt (fun h p =>
      let m := match ms with
        | [mm] => g.elemAt mm 0 p.2
        | _ => .fin false 1 0
      (drainElement f ftz (g.accBits o p.1 p.2) m).map (h.setElem md p.1 p.2)) g cells
  | 0x3E, ms =>
    match ms with
    | [m] =>
      if m.written then some (cells.foldl (fun h p => h.setElem m p.1 p.2 (g.accBits o p.1 p.2)) g)
      else some (cells.foldl (fun h p => h.setAcc o p.1 p.2 (g.rawAt m p.1 p.2)) g)
    | _ => some (cells.foldl (fun h p => h.setAcc o p.1 p.2 0) g)
  | 0x3F, [src, dst] =>
    some ((o.groups n).foldl (fun h q =>
      let cs := o.group q
      if o.sub = 0 then h.putBlock dst cs (quantise (dst.fmt == 9) (cs.map fun p => g.elemAt src p.1 p.2))
      else (cs.zip (hadamard (fwHn f) (cs.map fun p => g.rawAt src p.1 p.2))).foldl (fun h p => h.setElem dst p.1.1 p.1.2 p.2) h) g)
  | _, _ => some g

/-- The scratchpad bytes that step n reads, each element by its first byte (R234). -/
def MxOp.reads (o : MxOp) (n : Nat) : List Nat :=
  let f := o.fmt
  let both := fun (m : Mat) (r c : Nat) => if blocked m.fmt then [m.offset r c, m.header r c] else [m.offset r c]
  match o.major, o.mats with
  | 0x3C, [ma, mb] =>
    (pairs (List.range (fwM f)) (o.ks n)).flatMap (fun p => both ma p.1 p.2) ++
      (pairs (o.ks n) (List.range mb.cols)).flatMap fun p => both mb p.1 p.2
  | 0x3D, [_, mm] => (List.range (fwN f)).map fun j => mm.offset 0 j
  | 0x3E, [m] => if m.written then [] else (pairs (stepRows n) (List.range (fwN f))).map fun p => m.offset p.1 p.2
  | 0x3F, src :: _ => (o.groups n).flatMap fun q => (o.group q).map fun p => src.offset p.1 p.2
  | _, _ => []

/-! ### Operations in the machine -/

/-- The operation of an entry. -/
def MatrixOp.mx (p : MatrixOp) : MxOp := ⟨p.major, p.sub, p.fmt.toNat, p.desc⟩
/-- The operand hold count of a page includes this operation: a step to come reads a byte of it (R211, R234). -/
def MatrixOp.holds (p : MatrixOp) (page : Nat) : Bool :=
  (List.range p.mx.steps).any fun n => decide (p.step ≤ n) && (p.mx.reads n).any fun a => a / 4096 = page
/-- The gang has an operation queued or running (R218). -/
def State.signedOp (s : State) (w i : Nat) : Bool := s.ops.any fun p => p.2.wg = w && Tab.at p.2.signers i 0 != 0
/-- A release store of a thread of the gang has passed its checks and waits (R183, R203). -/
def Gang.storeWaits (g : Gang) (lane : Nat) : Option Nat :=
  match g.stat lane with
  | .release n _ 0 _ _ _ _ => if g.live.getLsbD lane then some n else none
  | _ => none
/-- Every access that a thread of a core has made has performed, a release store that has passed its checks and waits among them, but no
`waitne` that waits (R189, R203; log 118). -/
def State.coreQuiet (s : State) (core : Nat) : Bool :=
  (!s.reqs.any fun r => r.kind != .prefetch && r.waiting && match r.agent with
    | .gang w _ => ((s.wg w).map (·.core)) == some core
    | .core _ => false) &&
    s.wgs.all fun p => p.2.core ≠ core || p.2.gangs.all fun q => (List.range 32).all fun l => (q.2.storeWaits l).isNone
/-- Free range-lock entries of a core, lowest first (R304). -/
def State.freeLocks (s : State) (core : Nat) : List Nat :=
  let used := ((Tab.find s.cores core).map (·.locks)).getD []
  (List.range 32).filter fun n => (Tab.find used n).isNone
/-- Registers locks in the lowest free entries of a core. -/
def State.addLocks (s : State) (core : Nat) (ls : List Lock) : State :=
  match Tab.find s.cores core with
  | none => s
  | some c =>
    let t := ((s.freeLocks core).zip ls).foldl (fun t p => Tab.put t p.1 p.2) c.locks
    { s with cores := Tab.put s.cores core { c with locks := t } }
/-- The range lock of a scratchpad range of a workgroup. -/
def Workgroup.scratchLock (g : Workgroup) (first len : Nat) (exclusive : Bool) (owner : LockOwner) : Lock :=
  let base := (threadAp + g.home * 2 ^ 23 + first) % 2 ^ 57
  ⟨base, base + len - 1, 0, exclusive, owner, 0, false⟩
/-- The operations on the array of a core. -/
def State.opsOn (s : State) (core : Nat) : Tab MatrixOp :=
  s.ops.filter fun p => ((s.wg p.2.wg).map fun g => g.place.map Prod.fst) == some (some core)

/-! ### Signing (R217, R218) -/

/-- The arrival of one thread at a register for a matrix operation: the register, and the threads that fault `FMTDIV`; none
where it faults `XMEMBER`. -/
def Conv.sign (c : Conv) (i l : Nat) (fmt : Word) (shape : List Word) (la : Nat) : Option (Conv × List (Nat × Nat)) :=
  if !c.isMember i l || (c.state = 2 && c.kind ≠ 3) then none
  else if c.state = 2 && (c.sig != fmt || c.shape != shape) then some (c.settle, c.arrivals ++ [(i, l)])
  else some ({ c with
    arrived := Tab.put c.arrived i (Tab.at c.arrived i 0 ||| laneBit l), state := 2, kind := 3, sig := fmt, shape := shape
    record := Tab.put c.record (32 * i + l) [BitVec.ofNat 64 la] }, [])
/-- Raises a fault in threads of a workgroup, gang by gang. -/
def State.raiseIn (s : State) (w : Nat) (ts : List (Nat × Nat)) (f : Gang → Nat → Trap) : State :=
  (ts.foldl (fun (t : Tab (List Nat)) p => Tab.put t p.1 (Tab.at t p.1 [] ++ [p.2])) []).foldl (fun s p =>
    match s.gang (.gang w p.1) with
    | some g => s.raise (.gang w p.1) (p.2.map fun l => (l, f g l))
    | none => s) s
/-- The threads of the issuing group sign a register, one after another in ascending lane order (R217). -/
def State.signAll (s : State) (n a : Nat) (shape : List Word) (la : Nat) : State :=
  match s.cur with
  | .core _ => s
  | .gang w i =>
    match s.wg w, s.gang s.cur with
    | some wg, some g =>
      let r := (lanesOf s.mask).foldl (fun (r : Conv × List (Nat × Nat) × List (Nat × Nat)) l =>
        match r.1.sign i l (g.vreg l a) shape la with
        | some (c, bad) => (c, r.2.1 ++ bad, r.2.2)
        | none => (r.1, r.2.1, r.2.2 ++ [(i, l)])) (wg.cv n, [], [])
      let here := (lanesOf s.mask).filter fun l => (Tab.at r.1.arrived i 0).getLsbD l
      let s1 := (s.setCv w n r.1).updGang s.cur fun g => here.foldl (fun g l => g.setStat l (.gather n)) g
      (s1.raiseIn w r.2.1 fun g l => bareTrap 0xB (g.pcOf l)).raiseIn w r.2.2 fun g l => bareTrap 0xA (g.pcOf l)
    | _, _ => s
/-- The tiles that each lane's format word names, where its register line is present (R88). -/
def State.tilesNamed (s : State) (major a : Nat) : List (Nat × Nat × Nat) :=
  match s.gang s.cur with
  | none => []
  | some g => (lanesOf s.mask).filterMap fun l =>
      if major = 0x3F || (Tab.find g.lines (lineOfV g.count l a)).isNone then none
      else
        let o : MxOp := ⟨major, 0, (g.vreg l a).toNat, []⟩
        some (l, fwCt o.fmt, fwCt o.fmt + o.tiles - 1)
/-- Some thread of the group has `SCL` = 1 in its format word. -/
def State.anyScl (s : State) (a : Nat) : Bool :=
  ((s.gang s.cur).map fun g => (lanesOf s.mask).any fun l => (g.vreg l a).getLsbD 11).getD false
/-- A matrix instruction with its descriptor registers (R85, R217 to R219, R228); of `mdrain`, `second` is named, and read only where some
thread's `SCL` asks for it (R230; log 115). -/
def State.matrix (s : State) (major sub : Nat) (c : BitVec 3) (a : BitVec 6) (regs : List Nat) (second : List Nat) (l : BitVec 4) :
    Host.Outcome State Fault Refusal :=
  s.issue ⟨1, [a.toNat], regs ++ second, [], false, false, s.tilesNamed major a.toNat⟩ fun s =>
    match s.cur with
    | .core _ => s
    | .gang w i =>
      if s.signedOp w i then s.waitRetry s.mask
      else s.afterRelease 1 fun s =>
        let words := (regs ++ if major = 0x3D && !s.anyScl a.toNat then [] else second).map s.uni
        s.signAll c.toNat a.toNat ([BitVec.ofNat 64 major, BitVec.ofNat 64 sub] ++ words) l.toNat
/-- The pair of uniform registers that a field names. -/
def pairAt (n : Nat) : List Nat := [2 * n, 2 * n + 1]
/-- The quad of uniform registers that a field names. -/
def quadAt (n : Nat) : List Nat := [4 * n, 4 * n + 1, 4 * n + 2, 4 * n + 3]
/-- `mma` (R229). -/
def execMma (c : BitVec 3) (a : BitVec 6) (p q : BitVec 5) (l : BitVec 4) (s : State) : Host.Outcome State Fault Refusal :=
  s.matrix 0x3C 0 c a (pairAt p.toNat) (pairAt q.toNat) l
/-- `mdrain` (R230). -/
def execMdrain (c : BitVec 3) (a : BitVec 6) (p q : BitVec 5) (l : BitVec 4) (s : State) : Host.Outcome State Fault Refusal :=
  s.matrix 0x3D 0 c a (pairAt p.toNat) (pairAt q.toNat) l
/-- `mzero` (R231). -/
def execMzero (c : BitVec 3) (a : BitVec 6) (l : BitVec 4) (s : State) : Host.Outcome State Fault Refusal :=
  s.matrix 0x3E 0 c a [] [] l
/-- `mload` (R231). -/
def execMload (c : BitVec 3) (a : BitVec 6) (p : BitVec 5) (l : BitVec 4) (s : State) : Host.Outcome State Fault Refusal :=
  s.matrix 0x3E 1 c a (pairAt p.toNat) [] l
/-- `mstore` (R231). -/
def execMstore (c : BitVec 3) (a : BitVec 6) (p : BitVec 5) (l : BitVec 4) (s : State) : Host.Outcome State Fault Refusal :=
  s.matrix 0x3E 2 c a (pairAt p.toNat) [] l
/-- `mquant` (R232). -/
def execMquant (c : BitVec 3) (a : BitVec 6) (p : BitVec 4) (l : BitVec 4) (s : State) : Host.Outcome State Fault Refusal :=
  s.matrix 0x3F 0 c a (quadAt p.toNat) [] l
/-- `mhad` (R233). -/
def execMhad (c : BitVec 3) (a : BitVec 6) (p : BitVec 4) (l : BitVec 4) (s : State) : Host.Outcome State Fault Refusal :=
  s.matrix 0x3F 1 c a (quadAt p.toNat) [] l

/-! ### Completion of a gathering (R219, R227, R234) -/

/-- The operation that a gathering holds. -/
def Conv.operation (c : Conv) : MxOp := ⟨(c.shape.getD 0 0).toNat, (c.shape.getD 1 0).toNat, c.sig.toNat, c.shape.drop 2⟩
/-- The gathering is over and every signer faults: the register is ARMED, its phase unchanged (R219). -/
def State.signFails (s : State) (w n code : Nat) (c : Conv) : State :=
  (s.setCv w n c.settle).raiseIn w c.arrivals fun g l =>
    if code = 1 then ⟨1, none, ((g.wordAt l).getD 0).setWidth 64, 0, 0, 0, g.pcOf l⟩ else bareTrap code (g.pcOf l)
/-- Queues the operation of a gathering; its signers go on, each with a window on the tiles that the operation names (R88, R226, R228;
log 104). -/
def State.queueOp (s : State) (w n : Nat) (g : Workgroup) (c : Conv) (o : MxOp) : State :=
  let id := s.serialNo
  let op : MatrixOp :=
    { wg := w, order := id, major := o.major, sub := o.sub, fmt := c.sig, desc := o.desc, cv := n, phase := !c.phase, step := 0
      state := 1, broken := false, signers := c.arrived, waiting := [], stopped := [] }
  let s := { s with serialNo := id + 1, ops := Tab.put s.ops id op }
  let s := s.addLocks g.core (o.ranges.map fun r => g.scratchLock r.1 r.2.1 r.2.2 (LockOwner.matrix id))
  let s := s.setCv w n { c.settle with phase := !c.phase }
  let d : Dest := if o.tiled then .tiles (fwCt o.fmt) (fwCt o.fmt + o.tiles - 1) else .lanes [] none
  c.arrivals.foldl (fun s t => s.proceed (.gang w t.1) t.2 (c.brought t.1 t.2 0).toNat d) s
/-- A gathering whose last member has arrived completes, once the queue has a place and the core has enough lock entries and
every access of its threads has performed, and no gang that signed has another operation outstanding (R189, R218, R219; log 96). -/
def execMatrixGatheringComplete (w n : Nat) (s : State) : Host.Outcome State Fault Refusal :=
  match s.wg w with
  | none => .next s
  | some g =>
    let c := g.cv n
    let o := c.operation
    if c.state = 2 && c.kind = 3 && c.complete && g.place.isSome && !g.evicting && decide ((s.opsOn g.core).length < 16)
        && decide (o.ranges.length ≤ (s.freeLocks g.core).length) && s.coreQuiet g.core
        && c.arrived.all fun q => q.2 = 0 || !s.signedOp w q.1 then
      let l := s.launchOf g
      match o.check ((l.map Launch.scratch).getD 0) ((l.map Launch.accShare).getD 0) with
      | some code => .next (s.signFails w n code c)
      | none => .next (s.queueOp w n g c o)
    else .next s

/-! ### Steps and assists (R235 to R238, R335) -/

/-- The launch keeps subnormals by assist (R55): its record's `.fpmode` is not `ftz`. -/
def Launch.ftz (l : Launch) : Bool := bitOf (l.field 9 1) 1
/-- Threads that an assist still waits for: signers, live, not yet resumed. -/
def State.assistLeft (s : State) (p : MatrixOp) : Tab LaneMask :=
  p.waiting.filterMap fun q =>
    let live := ((s.gang (.gang p.wg q.1)).map fun g => if g.ended then 0 else g.live).getD 0
    if q.2 &&& live = 0 then none else some (q.1, q.2 &&& live)
/-- Ends an operation of a workgroup: its locks are released, those put away with a saved workgroup among them (R238, R304). -/
def State.endOp (s : State) (k w core : Nat) : State :=
  ({ s with ops := Tab.del s.ops k }).unlockAll core (some w) fun l => l.owner == LockOwner.matrix k
/-- An assist has been served for all its signers: `GSTAT.ASSIST` is set and the array goes on with the next step. -/
def State.assistServed (s : State) (k : Nat) (p : MatrixOp) : State :=
  let s := p.signers.foldl (fun s q => s.markGang p.wg q.1 16) s
  if p.mx.steps ≤ p.step + 1 then s.endOp k p.wg (((s.wg p.wg).map (·.core)).getD 0)
  else { s with ops := Tab.put s.ops k { p with state := 2, broken := true, step := p.step + 1, waiting := [], stopped := [] } }
/-- Serves every assist of a workgroup for which no thread is left to wait. -/
def State.assistCheck (s : State) (w : Nat) : State :=
  s.ops.foldl (fun s p => if p.2.wg = w && p.2.state = 3 && (s.assistLeft p.2).isEmpty then s.assistServed p.1 p.2 else s) s
/-- Suspends threads of a gang for an assist, one record for each of its PC-groups (R237, R335). -/
def State.assistStop (s : State) (k i : Nat) (m : LaneMask) : State :=
  match Tab.find s.ops k with
  | none => s
  | some p =>
    match s.wg p.wg, s.gang (.gang p.wg i) with
    | some g, some x =>
      let ahead := (s.ops.filter fun q => q.2.wg = p.wg && decide (q.2.order < p.order)).length
      let tag := ahead % 16 * 2 ^ 28 + p.mx.tiles * 2 ^ 12 + fwCt p.fmt.toNat
      let l := s.launchOf g
      let s := s.updGang (.gang p.wg i) fun x =>
        { (x.each m fun x l => x.setStat l .fault) with faultLanes := x.faultLanes ||| m, faultCluster := clusterOf g.core }
      let s := { s with ops := Tab.put s.ops k { p with stopped := Tab.put p.stopped i (Tab.at p.stopped i 0 ||| m) } }
      let s := s.keepCallState p.wg i
      (x.pcs (lanesOf m)).foldl (fun s pc =>
        let t : Trap := ⟨0x0D, none, 0, 0, p.fmt, tag, pc⟩
        s.postFault (clusterOf g.core) (faultRecord s.ptb (gangHandle g i 6) (maskOf ((lanesOf m).filter fun l => x.pcOf l == pc)) 2 t
          ((l.map (·.slice)).getD 0) ((l.map (·.pasid)).getD 0))) s
    | _, _ => s
/-- The threads of a gang that an assist has yet to stop, and that may be stopped now. -/
def State.assistPending (s : State) (p : MatrixOp) (i : Nat) : LaneMask :=
  match s.gang (.gang p.wg i) with
  | none => 0
  | some g =>
    maskOf ((lanesOf (Tab.at (s.assistLeft p) i 0 &&& ~~~Tab.at p.stopped i 0)).filter fun l => g.stat l != .call && g.stat l != .fault)
/-- Stops those signers of a gang that are ready to be stopped for an assist under way (R237). -/
def State.assistCatch (s : State) (w i : Nat) : State :=
  s.ops.foldl (fun s p =>
    if p.2.wg = w && p.2.state = 3 && s.assistPending p.2 i != 0 then s.assistStop p.1 i (s.assistPending p.2 i) else s) s
/-- An operation needs an assist: the waits of its signers are abandoned, and each stops (R237). -/
def State.assist (s : State) (k : Nat) (p : MatrixOp) : State :=
  let p := { p with state := 3, waiting := p.signers, stopped := [] }
  let s := { s with ops := Tab.put s.ops k p }
  p.signers.foldl (fun s q =>
    let m := s.assistPending p q.1
    let t := s.abandon p.wg q.1 m
    if m = 0 then t else t.assistStop k q.1 m) s

/-- Rank of an operation on the array: one that was interrupted, or saved with its workgroup, then the order among workgroups, where one counts as aged with a gang
that signed (R22, R219, R236; log 97). -/
def State.opRank (s : State) (p : MatrixOp) : List Nat :=
  let l := (s.wg p.wg).bind s.launchOf
  let aged := p.signers.any fun q => ((s.gang (.gang p.wg q.1)).map (·.aged)).getD false
  [if p.state = 2 || p.broken then 0 else 1, if aged then 0 else 1, (l.map fun l => s.deadlineOf l.slice l.dladj).getD 0, (l.map (·.order)).getD 0, p.wg]
/-- The array may work on an operation as far as its workgroup goes: it is resident, its slice is not stopped, and no earlier operation
of it is left (R219, R235). -/
def State.opReady (s : State) (p : MatrixOp) : Bool :=
  match s.wg p.wg with
  | some g => (p.state = 1 || p.state = 2) && g.place.isSome && !g.evicting && !s.sliceStopped (s.sliceOf (.gang p.wg 0)) &&
      !s.ops.any fun r => r.2.wg = p.wg && decide (r.2.order < p.order)
  | none => false
/-- The array may work on an operation: it is the one running, or none is and no other ranks before it (R219, R235 to R238). -/
def State.opEligible (s : State) (k : Nat) (p : MatrixOp) : Bool :=
  match s.wg p.wg with
  | none => false
  | some g =>
    let running := fun (q : MatrixOp) => q.state = 2 && !q.broken
    s.opReady p && (running p || ((s.opsOn g.core).filter fun q => q.1 ≠ k && s.opReady q.2).all fun q =>
      !running q.2 && !rankLt (s.opRank q.2) (s.opRank p))
/-- The other operations that the array had begun are interrupted. -/
def State.breakOthers (s : State) (k core : Nat) : State :=
  let on := (s.opsOn core).map Prod.fst
  { s with ops := s.ops.map fun p => if p.1 ≠ k && on.contains p.1 && p.2.state = 2 then (p.1, { p.2 with broken := true }) else p }
/-- Step n of an operation reads accumulator tiles (R226, R229 to R231). -/
def MxOp.readsTiles (o : MxOp) (n : Nat) : Bool :=
  match o.major, o.mats with
  | 0x3C, _ => decide (0 < n) || !fwZero o.fmt
  | 0x3D, _ => true
  | 0x3E, [m] => m.written
  | _, _ => false
/-- A tile of a workgroup's accumulator share is being read: by the step that the array works next, by the service core during an
assist, or by the save at eviction (Table 7.1). -/
def State.tilesRead (s : State) (w : Nat) (g : Workgroup) : Bool :=
  decide (0 < ((s.launchOf g).map Launch.accShare).getD 0) && g.place.isSome &&
    (g.evicting || s.ops.any fun p => p.2.wg = w && (p.2.state = 3 || (s.opEligible p.1 p.2 && p.2.mx.readsTiles p.2.step)))
/-- The array works one step of an operation, and ends it with its last (R235, R237, R238). -/
def execMatrixStep (k : Nat) (s : State) : Host.Outcome State Fault Refusal :=
  match Tab.find s.ops k with
  | none => .next s
  | some p =>
    if p.state = 3 then .next (if (s.assistLeft p).isEmpty then s.assistServed k p else s)
    else if !s.opEligible k p then .next s
    else match s.wg p.wg with
      | none => .next s
      | some g =>
        let cycles := (if p.state = 1 then 8 else 0) + (if p.mx.steps = 0 then 0 else p.mx.busy)
        let l := s.launchOf g
        let s := ((s.breakOthers k g.core).charge ((l.map (·.slice)).getD 0) (4 * cycles)).updWg p.wg fun g => g.count 33 cycles
        match s.wg p.wg with
        | none => .next s
        | some g =>
          match p.mx.run ((l.map Launch.ftz).getD false) p.step g with
          | none => .next (s.assist k p)
          | some h =>
            let s := s.updWg p.wg fun _ => h
            if p.mx.steps ≤ p.step + 1 then .next (s.endOp k p.wg g.core)
            else .next { s with ops := Tab.put s.ops k { p with state := 2, broken := false, step := p.step + 1 } }

end Sys2Proof.Machine
end

