-- ==== Sys2Proof/Machine/Copy.lean ====
section
/-! DEFINITION. The CPY major, the copy engine and the explicit range locks (R187, R189, R207 to R215, R304, R405, R406). -/

namespace Sys2Proof.Machine

/-! ### Descriptors and boxes (R207, R208) -/

/-- A copy descriptor (Table 9.6): extents and strides by dimension, the strides of dimensions 1 to 3. -/
structure CopyDesc where
  src : Nat
  dst : Nat
  bar : Nat
  ext : List Nat
  esize : Nat
  waitOps : Bool
  reserved : Nat
  sstr : List Int
  dstr : List Int
  tag : Nat
  deriving DecidableEq, Repr, Inhabited

/-- The descriptor in 64 bytes. -/
def copyDesc (r : List Byte) : CopyDesc :=
  let stride := fun (o : Nat) => sextInt 32 (recAt r o 4)
  let w := recAt r 34 2
  { src := recAt r 0 8, dst := recAt r 8 8, bar := recAt r 16 8
    ext := [recAt r 24 4, recAt r 28 2, recAt r 30 2, recAt r 32 2]
    esize := bitsOf w 2 0, waitOps := bitOf w 3, reserved := bitsOf w 15 4
    sstr := [stride 36, stride 40, stride 44], dstr := [stride 48, stride 52, stride 56], tag := recAt r 60 4 }
/-- Extent of dimension d. -/
def CopyDesc.e (d : CopyDesc) (k : Nat) : Nat := d.ext.getD k 0
/-- Element size in bytes. -/
def CopyDesc.size (d : CopyDesc) : Nat := 2 ^ d.esize
/-- Number of rows. -/
def CopyDesc.rows (d : CopyDesc) : Nat := d.e 1 * d.e 2 * d.e 3
/-- Bytes of a row. -/
def CopyDesc.row (d : CopyDesc) : Nat := d.size * d.e 0
/-- Number of boxes (R208). -/
def CopyDesc.boxes (d : CopyDesc) : Nat :=
  if 4096 ≤ d.row then d.rows * ceilDiv d.row 4096 else if d.row = 0 then 0 else ceilDiv d.rows (4096 / d.row)
/-- Address of a row from a base with strides. -/
def CopyDesc.rowAt (d : CopyDesc) (base : Nat) (str : List Int) (r : Nat) : Word :=
  BitVec.ofInt 64 (base + (r % d.e 1 : Nat) * str.getD 0 0 + (r / d.e 1 % d.e 2 : Nat) * str.getD 1 0 +
    (r / (d.e 1 * d.e 2) : Nat) * str.getD 2 0)
/-- The pieces of a box: row, offset in the row and length. -/
def CopyDesc.pieces (d : CopyDesc) (k : Nat) : List (Nat × Nat × Nat) :=
  if 4096 ≤ d.row then
    let per := ceilDiv d.row 4096
    let o := k % per * 4096
    [(k / per, o, min 4096 (d.row - o))]
  else
    let n := 4096 / d.row
    ((List.range n).map (k * n + ·) |>.filter (· < d.rows)).map fun r => (r, 0, d.row)
/-- Source and destination address of every byte of a box. -/
def CopyDesc.bytes (d : CopyDesc) (k : Nat) : List (Word × Word) :=
  (d.pieces k).flatMap fun p => (List.range p.2.2).map fun i =>
    (d.rowAt d.src d.sstr p.1 + BitVec.ofNat 64 (p.2.1 + i), d.rowAt d.dst d.dstr p.1 + BitVec.ofNat 64 (p.2.1 + i))
/-- First and last byte of the bounding range from a base. -/
def CopyDesc.bound (d : CopyDesc) (base : Nat) (str : List Int) : Int × Int :=
  let reach := fun (k : Nat) => ((d.e (k + 1) : Int) - 1) * str.getD k 0
  let ds := [reach 0, reach 1, reach 2]
  (base + (ds.map (min 0)).foldl (· + ·) 0, base + (ds.map (max 0)).foldl (· + ·) 0 + d.row - 1)

/-! ### Validation (Table 9.8) -/

/-- A canonical address below 2^56, or one above. -/
def canonHalf (x : Int) : Option Bool :=
  if 0 ≤ x ∧ x < 2 ^ 56 then some false else if 2 ^ 64 - 2 ^ 56 ≤ x ∧ x < 2 ^ 64 then some true else none
/-- A range crosses the canonical boundary or lies outside the canonical addresses (log 117). -/
def crosses (r : Int × Int) : Bool := canonHalf r.1 = none || canonHalf r.1 ≠ canonHalf r.2
/-- A byte range meets an aperture. -/
def meetsAperture (r : Int × Int) : Bool :=
  (decide (r.1 < threadAp + 2 ^ 32) && decide ((threadAp : Int) ≤ r.2)) ||
    (decide (r.1 < serviceAp + 2 ^ 34) && decide ((serviceAp : Int) ≤ r.2))
/-- The scratchpad place of an address for a copy's workgroup. -/
def State.copyWindow (s : State) (w : Option Nat) (va : Nat) : Option Loc :=
  match w with
  | none => none
  | some w => if inThreadAp va then (s.wg w).bind fun g => s.homeWindow w g va else none
/-- A range that meets an aperture and does not lie whole in the workgroup's own share. -/
def State.badAperture (s : State) (w : Option Nat) (r : Int × Int) : Bool :=
  meetsAperture r && ((s.copyWindow w r.1.toNat).isNone || (s.copyWindow w r.2.toNat).isNone)
/-- The context in which a copy's boxes translate. -/
def copyCtx (core pasid : Nat) : Ctx := ⟨clusterOf core, pasid, none, true⟩
/-- The translated place of an address for a copy is on another chip. -/
def State.copyRemote (s : State) (c : Ctx) (kind : Nat) (va : Nat) : Bool :=
  if inThreadAp va || inServiceAp va then false
  else match s.xlateNow c kind (BitVec.ofNat 64 va) with
    | .ok (k, _) => s.remote k
    | .error _ => false
/-- The first reason that a descriptor fails, or 0 (R210, Table 9.8). -/
def State.copyReason (s : State) (w : Option Nat) (c : Ctx) (d : CopyDesc) : Nat :=
  let z := d.size
  let rs := [d.bound d.src d.sstr, d.bound d.dst d.dstr]
  let a := d.bound d.src d.sstr
  let b := d.bound d.dst d.dstr
  if 4 < d.esize then 2
  else if d.src % z ≠ 0 || d.dst % z ≠ 0 || (d.sstr ++ d.dstr).any fun x => x % (z : Int) ≠ 0 then 1
  else if d.ext.contains 0 || d.reserved ≠ 0 || 2 ^ 24 < z * d.e 0 * d.rows || 4096 < d.boxes then 2
  else if rs.any crosses || rs.any (s.badAperture w) then 3
  else if d.bar ≠ 0 && (d.bar % 8 ≠ 0 || (s.copyWindow w d.bar).isNone || (s.copyWindow w (d.bar + 15)).isNone) then 4
  else if a.1 ≤ b.2 && b.1 ≤ a.2 then 5
  else if s.copyRemote c 0 d.src && s.copyRemote c 1 d.dst then 6
  else 0

/-! ### Slots, locks and status (R209, R210, R212) -/

/-- The core whose engine a handle's slot belongs to at issue, and the slot. -/
def handleSlot (h : Word) : Nat := bitsOf h.toNat 14 9
/-- The engine slot of a core is free: none uses it, or its copy has ended and has been read or has seen 64 later
copies issued on its core (R209). -/
def State.slotFree (s : State) (c : Core) (n : Nat) : Bool :=
  match (Tab.find c.copySlots n).bind fun k => Tab.find s.copies k with
  | none => true
  | some x => decide (3 ≤ x.state) && (x.endRead || decide (x.order + 65 ≤ c.copySeq))
/-- The free engine slot of a core that the next copy takes (log 58). -/
def State.engineSlot (s : State) (core : Nat) : Option Nat :=
  (Tab.find s.cores core).bind fun c => pickOf s.ptb ((List.range 64).filter (s.slotFree c))
/-- The range lock of a bounding range. -/
def boundLock (r : Int × Int) (pasid : Nat) (exclusive : Bool) (owner : LockOwner) : Lock :=
  ⟨(r.1 % 2 ^ 57).toNat, (r.2 % 2 ^ 57).toNat, pasid, exclusive, owner, 0, false⟩
/-- The status word of a copy (Table 9.9). -/
def Copy.status (c : Copy) : Word :=
  BitVec.ofNat 64 (c.state * 2 ^ 61 + c.code * 2 ^ 48 + (copyDesc c.desc).boxes * 2 ^ 32 + c.counted * 2 ^ 16 + c.fbox)
/-- The operations that hold a page of the destination's bounding range now (R211). -/
def State.opsHolding (s : State) (w : Nat) (d : CopyDesc) : List Nat :=
  let b := d.bound d.dst d.dstr
  if !d.waitOps || !inThreadAp b.1.toNat then []
  else
    let first := (b.1.toNat - threadAp) % 2 ^ 23 / 4096
    let last := (b.2.toNat - threadAp) % 2 ^ 23 / 4096
    (s.ops.filter fun p => p.2.wg = w && (List.range (last + 1 - first)).any fun i => p.2.holds (first + i)).map Prod.fst
/-- The scratchpad pages of the destination of a copy. -/
def CopyDesc.pages (d : CopyDesc) : List Nat :=
  let b := d.bound d.dst d.dstr
  let first := (b.1.toNat - threadAp) % 2 ^ 23 / 4096
  let last := (b.2.toNat - threadAp) % 2 ^ 23 / 4096
  (List.range (last + 1 - first)).map (first + ·)
/-- Queues a copy on the engine of a core in a slot, with both range locks (R210 steps 5 and 6). `home` is the core of its
handle. -/
def State.queueCopy (s : State) (core home slot : Nat) (w node : Option Nat) (desc : List Byte) (pasid : Nat) (slice pc : Word) :
    State × Nat :=
  match Tab.find s.cores core with
  | none => (s, 0)
  | some c =>
    let id := s.serialNo
    let d := copyDesc desc
    let copy : Copy :=
      { wg := w, handle := BitVec.ofNat 64 (id * 2 ^ 16 + slot * 2 ^ 9 + home), core := core, desc := desc, state := 0, code := 0
        counted := 0, fbox := 0, boxDone := [], boxBusy := [], waitFor := (w.map fun w => s.opsHolding w d).getD []
        wrote := 0, cancelling := false, endRead := false, order := c.copySeq, pasid := pasid, slice := slice, node := node, pc := pc
        away := false }
    let copy := { copy with away := s.remoteSource copy }
    let c := { c with copySeq := c.copySeq + 1, copySlots := Tab.put c.copySlots slot id }
    let s := { s with serialNo := id + 1, cores := Tab.put s.cores core c, copies := Tab.put s.copies id copy }
    (s.addLocks core [boundLock (d.bound d.src d.sstr) pasid false (.copy id), boundLock (d.bound d.dst d.dstr) pasid true (.copy id)], id)

/-! ### The CPY functions (R209 to R215) -/

/-- The line that an access of the issuing group may hit. -/
def State.accHit (s : State) (x : Acc) : Option Line :=
  match x.loc with
  | .mem key p => if p = 0 then (s.gang s.cur).bind fun g => s.hit g (s.l1Of s.cur) x.lanes key else none
  | _ => none
/-- Reads n bytes for an access now: an unexpired lease of the L1, else the home, with the stores of the core and of the threads
themselves (R175, R177, R178). -/
def State.readNow (s : State) (x : Acc) (n : Nat) : List Byte :=
  match x.loc with
  | .mem key p =>
    let l1 := s.l1Of s.cur
    let raw := match s.accHit x with
      | some ln => s.lineView l1 key n ln
      | none => if p = 0 then s.fillView l1 key (s.homeRead key n) else s.homeRead key n
    s.ownView s.cur x.lanes key raw
  | l => s.locRead l n
/-- What such a read leaves: the horizon of its threads takes the stamp that it returned; a hit is a use of its line, and a miss fills the
line under a lease that its home chooses (R159, R175, R178, R327). -/
def State.readSeen (s : State) (x : Acc) (n : Nat) : State :=
  match x.loc with
  | .mem key p =>
    let l1 := s.l1Of s.cur
    match s.accHit x with
    | some ln =>
      let s := (s.observed s.cur x.lanes l1 key n ln.stamp ln.merged).touchLine l1 (key / 128)
      if s.ptb + s.skew key < ln.lease then s.countFor s.cur 34 1 else s
    | none =>
      let s := (s.observed s.cur x.lanes (if p = 0 then l1 else noL1) key n (s.home (key / 128)).stamp 0).countFor s.cur 35 1
      if p = 0 then (s.unstated.2.recallFor l1 (key / 128)).fill l1 (key / 128) (s.unstated.1.toNat % 4097) else s
  | _ => s
/-- The place of an access is poisoned. -/
def State.accPoisoned (s : State) (x : Acc) : Bool :=
  match x.loc with
  | .mem key _ => s.poisoned key
  | _ => false
/-- The name of the issue that the group repeats, or of this one. -/
def State.issueName (s : State) : Nat :=
  (((s.gang s.cur).bind fun g => (lanesOf s.mask).head?.bind g.retryOf)).getD s.serialNo
/-- Keeps the descriptor that a waiting `cpy` has read, for as long as a thread repeats that issue. -/
def State.keepDesc (s : State) (n : Nat) (d : List Byte) : State :=
  s.updGang s.cur fun g =>
    { g with descs := Tab.put (g.descs.filter fun p => (List.range 32).any fun l => g.retryOf l == some p.1) n d }
/-- A word of `cpy`. -/
def cpyWord (w : BitVec 32) : Bool := w &&& 0xFE001FF0#32 == 0x9C000000#32
/-- Steps 2 to 6 of `cpy`, the descriptor read; of those that wait for a slot the first in rank takes it (R187, R189, R210, R258). -/
def State.copyIssue (s : State) (w i : Nat) (desc : List Byte) (n : Nat) (d : BitVec 6) (l : BitVec 4) : State :=
  match s.wg w with
  | none => s
  | some g =>
    let x := s.launchOf g
    let pasid := (x.map (·.pasid)).getD 0
    let cd := copyDesc desc
    let fresh := ((s.gang s.cur).bind fun g => Tab.find g.descs n).isNone
    let reason := if fresh then s.copyReason (some w) (copyCtx g.core pasid) cd else 0
    if reason ≠ 0 then s.raiseAll { bareTrap 0x0E s.curPc with aux := reason * 2 ^ 13, tag := cd.tag }
    else
      let hold := (s.waitRetry s.mask).keepDesc n desc
      if 2 ≤ (s.freeLocks g.core).length && ((lanesOf s.mask).all fun k => s.quiet (.gang w i) k) && s.coreQuiet g.core &&
          !s.rankedOut w i g.core cpyWord then
        match s.engineSlot g.core with
        | none => hold
        | some slot =>
          let r := s.queueCopy g.core g.home slot (some w) none desc pasid ((x.map (·.slice)).getD 0) s.curPc
          let t := r.1.updGang s.cur fun g => { g with descs := Tab.del g.descs n }
          let u := if (x.map (·.peerAbort)).getD false then t.abortCopy r.2 else t
          u.setUni d.toNat ((Tab.find u.copies r.2).map (·.handle) |>.getD 0) l.toNat
      else hold
/-- `cpy` (R210). -/
def execCpy (d a : BitVec 6) (l : BitVec 4) (s : State) : Host.Outcome State Fault Refusal :=
  s.issue { Use.regs [] [d.toNat, a.toNat] with allow := 1, mem := true } fun s =>
    s.uniGuard d.toNat fun s =>
      match s.cur with
      | .core _ => s
      | .gang w i =>
        let n := s.issueName
        match (s.gang s.cur).bind fun g => Tab.find g.descs n with
        | some desc => s.copyIssue w i desc n d l
        | none =>
          s.access 0 64 [(32, s.mask, s.uni a.toNat)] (fun s x => s.held? x 64) (fun s _ => s) fun s xs =>
            match xs with
            | x :: _ =>
              if s.accPoisoned x then s.raiseAll (addrTrap 0x13 x.addr s.curPc)
              else (s.readSeen x 64).copyIssue w i (s.readNow x 64) n d l
            | [] => s
/-- A copy has the engine slot that it took: no later copy has reused it (R209). -/
def State.copySlotted (s : State) (k : Nat) (c : Copy) : Bool :=
  ((Tab.find s.cores c.core).map fun c => c.copySlots.any fun p => p.2 = k).getD false
/-- The copy that a handle names for the issuing thread (R209). -/
def State.copyNamed (s : State) (h : Word) : Option (Nat × Copy) :=
  s.copies.find? fun p => p.2.handle == h && s.copySlotted p.1 p.2 &&
    match s.cur, p.2.wg with
    | .gang w _, some v => w = v
    | .gang _ _, none => false
    | .core i, some v => match s.wg v with
      | some g => clusterOf g.core = i
      | none => false
    | .core i, none => clusterOf p.2.core = i
/-- Writes the status of a copy to sd; `read` notes a status that tells of the end (R209). -/
def State.copyReport (s : State) (read : Bool) (k : Nat) (d : BitVec 6) (l : BitVec 4) : State :=
  match Tab.find s.copies k with
  | none => s.setUni d.toNat ones l.toNat
  | some c =>
    let c' := { c with endRead := c.endRead || (read && decide (3 ≤ c.state)) }
    { s with copies := Tab.put s.copies k c' }.setUni d.toNat c.status l.toNat
/-- A CPY function on the copy that sa names; all ones where it names none (R209). -/
def State.onCopy (s : State) (allow : Nat) (d a : BitVec 6) (l : BitVec 4) (body : State → Nat → Copy → State) :
    Host.Outcome State Fault Refusal :=
  s.issue { Use.regs [] [d.toNat, a.toNat] with allow := allow } fun s =>
    s.uniGuard d.toNat fun s =>
      match s.copyNamed (s.uni a.toNat) with
      | none => s.setUni d.toNat ones l.toNat
      | some (k, c) => body s k c
/-- `cpystat` (R209). -/
def execCpystat (d a : BitVec 6) (l : BitVec 4) (s : State) : Host.Outcome State Fault Refusal :=
  s.onCopy 0 d a l fun s k _ => s.copyReport true k d l
/-- `cpywait` (R214). -/
def execCpywait (d a : BitVec 6) (l : BitVec 4) (s : State) : Host.Outcome State Fault Refusal :=
  s.onCopy 0 d a l fun s k c => if 3 ≤ c.state then s.copyReport true k d l else s.waitRetry s.mask
/-- Releases the locks of a copy, those of a saved workgroup among them (R189, R212, R304). -/
def State.unlockCopy (s : State) (k : Nat) (c : Copy) : State := s.unlockAll c.core c.wg fun x => x.owner == LockOwner.copy k
/-- A copy that is being cancelled, or has failed, with no box in flight, ends: its locks are released (R212, R213). -/
def State.copySettle (s : State) (k : Nat) : State :=
  match Tab.find s.copies k with
  | none => s
  | some c =>
    if !c.boxBusy.isEmpty then s
    else if c.cancelling && c.state < 3 then
      ({ s with copies := Tab.put s.copies k { c with state := 5, code := 0x15, cancelling := false } }).unlockCopy k c
    else if c.state = 4 then s.unlockCopy k c
    else s
/-- `cpycancel.cancel` (R213). -/
def execCpycancelCancel (d a : BitVec 6) (l : BitVec 4) (s : State) : Host.Outcome State Fault Refusal :=
  s.onCopy 0 d a l fun s k c =>
    let t := if c.state < 3 then ({ s with copies := Tab.put s.copies k { c with cancelling := true } }).copySettle k else s
    t.copyReport false k d l
/-- `cpycancel.resume` (R213, R406). -/
def execCpycancelResume (d a : BitVec 6) (l : BitVec 4) (s : State) : Host.Outcome State Fault Refusal :=
  s.onCopy 2 d a l fun s k c =>
    if !(lanesOf s.mask).all fun n => s.quiet s.cur n then s.waitRetry s.mask
    else
      let t := if c.state = 2 then { s with copies := Tab.put s.copies k { c with state := 1, code := 0, fbox := 0 } } else s
      t.copyReport false k d l
/-- `cpycancel.fail` (R213): boxes in flight land, and then the locks are released (R212). -/
def execCpycancelFail (d a : BitVec 6) (l : BitVec 4) (s : State) : Host.Outcome State Fault Refusal :=
  s.onCopy 2 d a l fun s k c =>
    let t := if c.state = 2 then
        ({ s with copies := Tab.put s.copies k { c with state := 4, code := 0x0E, cancelling := false } }).copySettle k
      else s
    t.copyReport false k d l
/-- `rlock` (R215): a bad range is answered before a table with no free entry is (log 117). -/
def execRlock (d a b : BitVec 6) (l : BitVec 4) (s : State) : Host.Outcome State Fault Refusal :=
  s.issue { Use.regs [] [d.toNat, a.toNat, b.toNat] with allow := 1, mem := true } fun s =>
    s.uniGuard d.toNat fun s =>
      match s.cur with
      | .core _ => s
      | .gang w i =>
        match s.wg w with
        | none => s
        | some g =>
          let x := s.uni b.toNat
          let first := (s.uni a.toNat).toNat
          let len := bitsOf x.toNat 39 0
          let r : Int × Int := (first, (first : Int) + len - 1)
          if bitsOf x.toNat 62 40 ≠ 0 || len = 0 || crosses r then s.setUni d.toNat 0xFFFFFFFFFFFFFFFE l.toNat
          else match s.freeLocks g.core with
            | [] => s.setUni d.toNat ones l.toNat
            | n :: _ =>
              if s.coreQuiet g.core then
                (s.addLocks g.core [boundLock r (((s.launchOf g).map (·.pasid)).getD 0) (!x.getLsbD 63) (.gang w i)]).setUni d.toNat
                  (BitVec.ofNat 64 n) l.toNat
              else s.waitRetry s.mask
/-- `runlock` (R215). -/
def execRunlock (d a : BitVec 6) (l : BitVec 4) (s : State) : Host.Outcome State Fault Refusal :=
  s.issue { Use.regs [] [d.toNat, a.toNat] with allow := 1 } fun s =>
    s.uniGuard d.toNat fun s =>
      match s.cur with
      | .core _ => s
      | .gang w i =>
        match s.wg w with
        | none => s
        | some g =>
          let n := (s.uni a.toNat).toNat
          match (Tab.find s.cores g.core).bind fun c => Tab.find c.locks n with
          | some k =>
            if k.owner = .gang w i && !k.closing then
              match Tab.find s.cores g.core with
              | some c =>
                let t := if s.lockFree k then Tab.del c.locks n else Tab.put c.locks n { k with closing := true }
                ({ s with cores := Tab.put s.cores g.core { c with locks := t } }).setUni d.toNat 0 l.toNat
              | none => s
            else s.setUni d.toNat 1 l.toNat
          | none => s.setUni d.toNat 1 l.toNat
/-- PTB reaches the `RELT` of an entry to be freed (R189). -/
def execRangeLockRelease (core entry : Nat) (s : State) : Host.Outcome State Fault Refusal :=
  match Tab.find s.cores core with
  | none => .next s
  | some c =>
    match Tab.find c.locks entry with
    | some k =>
      if k.closing && s.lockFree k then
        .next { s with cores := Tab.put s.cores core { c with locks := Tab.del c.locks entry } }
      else .next s
    | none => .next s

/-! ### Boxes (R187, R208, R211, R212) -/

/-- Where a byte of a copy lies, or the fault. -/
def State.copyLoc (s : State) (c : Copy) (kind : Nat) (va : Word) : Except Nat Loc :=
  if inThreadAp va.toNat || inServiceAp va.toNat then
    match s.copyWindow c.wg va.toNat with
    | some l => .ok l
    | none => .error 8
  else match s.xlateNow (copyCtx c.core c.pasid) kind va with
    | .ok (k, p) => .ok (.mem k p)
    | .error f => .error f
/-- A place is on another chip. -/
def State.locRemote (s : State) (l : Loc) : Bool :=
  match l with
  | .mem k _ => s.remote k
  | _ => false
/-- How a byte of a box fails. -/
inductive BoxFault where
  | page (addr : Word)
  | ecc (addr : Word)
  | far (addr : Word)
  deriving DecidableEq, Repr, Inhabited
/-- The places of the bytes of a box up to the first that fails, and how that fails (R212). -/
def State.boxPlaces (s : State) (c : Copy) : List (Word × Word) → List (Loc × Loc) × Option BoxFault
  | [] => ([], none)
  | (a, b) :: t =>
    match s.copyLoc c 0 a, s.copyLoc c 1 b with
    | .error _, _ => ([], some (.page a))
    | .ok _, .error _ => ([], some (.page b))
    | .ok x, .ok y =>
      if s.locRemote x && s.locRemote y then ([], some (.far a))
      else
        let bad := match x with
          | .mem k _ => s.poisoned k
          | _ => false
        if bad then ([], some (.ecc a))
        else
          let r := State.boxPlaces s c t
          ((x, y) :: r.1, r.2)
/-- Writes one byte of a box at its home or in the scratchpad; the home tells the copy its WCT, with 20 ns more for another chip
(R187). -/
def State.boxByte (s : State) (k box : Nat) (y : Loc) (b : Byte) : State :=
  match y with
  | .mem key _ => s.write (.box k box) none key [b]
  | l => s.locWrite l [b]
/-- Moves bytes of a box: all are read before any is written. -/
def State.moveBytes (s : State) (k box : Nat) (ps : List (Loc × Loc)) : State :=
  let data := ps.map fun p => s.locByte p.1
  (ps.zip data).foldl (fun s p => s.boxByte k box p.1.2 p.2) s
/-- Keeps in the translation buffer of the engine's cluster what a box's pages needed (R165). -/
def State.keepPages (s : State) (c : Copy) (ps : List (Word × Word)) : State :=
  let pages := fun (as : List Word) => (as.map fun a => a.toNat / 4096).eraseDups.map fun n => BitVec.ofNat 64 (4096 * n)
  let ctx := copyCtx c.core c.pasid
  let s := (pages (ps.map Prod.fst)).foldl (fun s a => s.keepEntry ctx 0 a) s
  (pages (ps.map Prod.snd)).foldl (fun s a => s.keepEntry ctx 1 a) s
/-- Charges the bytes of a box to its slice, its fabric messages too, and counts them (Table 11.9, R263, R327). -/
def State.chargeBox (s : State) (c : Copy) (ps : List (Loc × Loc)) : State :=
  let far := ps.countP fun p => s.locRemote p.1 || s.locRemote p.2
  let s := s.charge c.slice (ceilDiv ps.length 256 + ceilDiv far 1024)
  let tenant := (s.slice c.slice).map (·.tenant)
  let move := fun (s : State) (l : Loc) => match l with
    | .mem k _ => s.moves tenant k 1
    | _ => s
  let s := ps.foldl (fun s p => move (move s p.1) p.2) s
  match c.wg with
  | some w => s.updWg w fun g => g.count 36 ps.length
  | none => s
/-- The engine may work on a copy: its workgroup is resident and not being evicted, its slice not stopped, and where its source lies on
another chip the pod is formed (R212, R261, R374). -/
def State.copyActive (s : State) (c : Copy) : Bool :=
  !s.sliceStopped c.slice && (s.podUp || !s.remoteSource c) && match c.wg with
    | some w => ((s.wg w).map fun g => g.place.isSome && !g.evicting).getD false
    | none => true
/-- A copy of a collective that has been aborted, whose source lies on another chip, is to be cancelled (R346, R381). -/
def State.copyAborted (s : State) (c : Copy) : Bool :=
  (((c.wg.bind s.wg).bind s.launchOf).map (·.peerAbort)).getD false && decide (c.state < 3) && s.remoteSource c
/-- The engine begins a box (R211, R212): copies of one engine begin in issue order. -/
def execCopyBoxStart (k box : Nat) (s : State) : Host.Outcome State Fault Refusal :=
  match Tab.find s.copies k with
  | none => .next s
  | some c =>
    let d := copyDesc c.desc
    let first := !s.copies.any fun p => p.2.core = c.core && p.2.state = 0 && decide (p.1 < k) && s.copyActive p.2
    let free := c.waitFor.all fun o => match Tab.find s.ops o with
      | some p => !d.pages.any p.holds
      | none => true
    if s.copyAborted c then .next (s.abortCopy k)
    else if box < d.boxes && !c.boxDone.contains box && (Tab.find c.boxBusy box).isNone && c.state ≤ 1 && !c.cancelling &&
        s.copyActive c && free && (c.state = 1 || first) then
      .next { s with copies := Tab.put s.copies k { c with state := 1, boxBusy := Tab.put c.boxBusy box 0, away := s.remoteSource c } }
    else .next s
/-- Adds a box that has performed to the count of its copy, to its barrier unless the copy has ended, and ends the copy with its last
(R187, R208, R212, R214, R405). -/
def State.countBox (s : State) (k box : Nat) (c : Copy) : State :=
  let d := copyDesc c.desc
  let ended := decide (3 ≤ c.state)
  let c := { c with boxDone := c.boxDone ++ [box], counted := c.counted + 1, boxBusy := Tab.del c.boxBusy box }
  let full := c.counted = d.boxes && c.state ≤ 2 && !c.cancelling
  let s := { s with copies := Tab.put s.copies k (if full then { c with state := 3, code := 0 } else c) }
  let s := if full then s.unlockCopy k c else s.copySettle k
  match c.wg with
  | some w => if d.bar = 0 || ended then s else s.boxCount w c.barOff (d.bytes box).length
  | none => s
/-- Every byte of a box whose bytes have been written has performed: it is counted once PTB has reached its largest WCT (R187). -/
def State.boxPerformed (s : State) (k box : Nat) : State :=
  match Tab.find s.copies k with
  | none => s
  | some c =>
    match Tab.find c.boxBusy box with
    | some (t + 1) => if decide (t ≤ s.ptb) && !s.owes (.box k box) then s.countBox k box c else s
    | _ => s
/-- The bytes of a box are written, and once PTB has reached the box's largest WCT the box is counted (R187, R212). -/
def execCopyBoxLanded (k box : Nat) (s : State) : Host.Outcome State Fault Refusal :=
  match Tab.find s.copies k with
  | none => .next s
  | some c =>
    match Tab.find c.boxBusy box with
    | some 0 =>
      let bytes := (copyDesc c.desc).bytes box
      if s.copyAborted c then .next (s.abortCopy k)
      else match s.boxPlaces c bytes with
      | (_, some _) => .next s
      | (ps, none) =>
        let c := { c with boxBusy := Tab.put c.boxBusy box 1 }
        let s := (s.keepPages c bytes).chargeBox c ps
        .next (({ s with copies := Tab.put s.copies k c }.moveBytes k box ps).boxPerformed k box)
    | _ => .next (s.boxPerformed k box)
/-- The fault record of a copy (R212, Table 15.2). -/
def State.copyRecord (s : State) (c : Copy) (reason box : Nat) (addr : Word) : State :=
  let handle := ((c.wg.bind s.wg).map fun g => gangHandle g 0 4).getD 0
  let t : Trap := ⟨0x0E, none, addr, reason * 2 ^ 13 + box, c.handle, (copyDesc c.desc).tag, c.pc⟩
  s.postFault (clusterOf c.core) (faultRecord s.ptb handle 0 1 t c.slice c.pasid)
/-- The name under which the bytes of a box that fails are written: they count for the copy's `RELT`, and for no box that moves again. -/
def partBox (box : Nat) : Nat := 65536 + box
/-- A box meets a fault: some of its bytes may have landed; a page fault pauses the copy, an uncorrectable error or two places
on other chips fail it (R212). How many of the bytes before the first failing one have landed is left open (log 4). -/
def execCopyBoxFault (k box : Nat) (s : State) : Host.Outcome State Fault Refusal :=
  match Tab.find s.copies k with
  | none => .next s
  | some c =>
    match Tab.find c.boxBusy box with
    | some 0 =>
      match s.boxPlaces c ((copyDesc c.desc).bytes box) with
      | (_, none) => .next s
      | (ps, some f) =>
        let u := s.unstated
        let part := ps.take (u.1.toNat % (ps.length + 1))
        let s := ((u.2.keepPages c (((copyDesc c.desc).bytes box).take ps.length)).chargeBox c part).moveBytes k (partBox box) part
        let c := (Tab.find s.copies k).getD c
        let c := { c with boxBusy := Tab.del c.boxBusy box }
        let put := fun (s : State) (c : Copy) => { s with copies := Tab.put s.copies k c }
        if c.state ≠ 1 || c.cancelling then .next ((put s c).copySettle k)
        else match f with
          | .page a => .next ((put s { c with state := 2, code := 0x0E, fbox := box }).copyRecord c 7 box a)
          | .ecc _ => .next ((put s { c with state := 4, code := 0x13, fbox := box }).copySettle k)
          | .far a => .next (((put s { c with state := 4, code := 0x0E, fbox := box }).copyRecord c 6 box a).copySettle k)
    | _ => .next s

end Sys2Proof.Machine
end

