-- ==== Sys2Proof/Machine/Misc.lean ====
section
/-! DEFINITION. The LMISC and UMISC majors (R66 to R69, R104 to R107, R125 to R129, R258, R261, R349). -/

namespace Sys2Proof.Machine

/-- `nop` (R105). -/
def execNop (s : State) : Host.Outcome State Fault Refusal := s.issue (.regs [] []) fun s => s.finish s.mask
/-- `mov` (R105). -/
def execMov (d b : BitVec 6) (u : BitVec 1) (s : State) : Host.Outcome State Fault Refusal :=
  s.issue (useB [d] b u) fun s => s.inLanes fun g l => .reg d (g.opB l b u)
/-- `movgv` (R105). -/
def execMovgv (d : BitVec 6) (s : State) : Host.Outcome State Fault Refusal :=
  s.issue { Use.regs [d.toNat] [] with guards := List.range 8 } fun s => s.inLanes fun g l => .reg d ((g.guards l).setWidth 64)
/-- `movvg` (R105). -/
def execMovvg (b : BitVec 6) (u : BitVec 1) (s : State) : Host.Outcome State Fault Refusal :=
  s.issue { useB [] b u with guards := [1, 2, 3, 4, 5, 6, 7] } fun s =>
    s.inLanes fun g l => ⟨[], (List.range 8).map fun n => (n, (g.opB l b u).getLsbD n), 0⟩
/-- The lane mask of a kind (R107 Table 5.3). -/
def laneMask (kind lane : Nat) (group live : LaneMask) : LaneMask :=
  let below := laneBit lane - 1
  match kind with
  | 0 => laneBit lane
  | 1 => below
  | 2 => below ||| laneBit lane
  | 3 => ~~~(below ||| laneBit lane)
  | 4 => ~~~below
  | 5 => group
  | _ => live
/-- `lanemask` (R107); a core of one lane has that lane as its live one (log 112). -/
def execLanemask (d k : BitVec 6) (s : State) : Host.Outcome State Fault Refusal :=
  s.issue (.regs [d.toNat] []) fun s =>
    s.inLanes fun g l => .reg d ((laneMask k.toNat l s.mask g.live).setWidth 64)

/-! ### System registers (R66 to R69, R106) -/

/-- A system register as a lane reads it (Table 3.3); on a service core every number but `FCR` reads as 0. -/
def State.sysreg (s : State) (g : Gang) (lane n : Nat) : Word :=
  if n = 8 then (g.fcrOf lane).setWidth 64
  else match s.cur with
    | .core _ => 0
    | .gang w i =>
      match s.wg w with
      | none => 0
      | some wg =>
        let l := s.launchOf wg
        let f := fun (o k : Nat) => BitVec.ofNat 64 ((l.map fun x => x.field o k).getD 0)
        match n with
        | 0 => BitVec.ofNat 64 (i * 32 + lane)
        | 1 => BitVec.ofNat 64 lane
        | 2 => BitVec.ofNat 64 i
        | 3 => f 0xA 1
        | 4 => BitVec.ofNat 64 wg.wgid
        | 5 => BitVec.ofNat 64 (s.chip * 2 ^ 10 + wg.core)
        | 6 => g.live.setWidth 64
        | 7 => BitVec.ofNat 64 wg.launch
        | 9 => g.gstat
        | 10 => f 0x40 8
        | 11 => if f 0x48 8 = 0 then 0x800000 else f 0x48 8
        | 12 => BitVec.ofNat 64 ((l.map fun x => s.deadlineOf x.slice x.dladj).getD 0)
        | 13 => f 0x10 8
        | 14 => BitVec.ofNat 64 (threadAp + wg.home * 2 ^ 23)
        | 15 => f 0x28 8
        | _ => 0
/-- `rdsr` (R106): `FCR` is read behind the flags in flight (R104). -/
def execRdsr (d : BitVec 6) (n : BitVec 12) (s : State) : Host.Outcome State Fault Refusal :=
  s.issue { Use.regs [d.toNat] [] with fcr := n == 8 } fun s => s.inLanes fun g l => .reg d (s.sysreg g l n.toNat)
/-- The bits of `GSTAT` that a write of 1 clears (Table 3.6). -/
def Gang.clearGstat (g : Gang) (x : Word) : Gang := { g with gstat := g.gstat &&& ~~~(x &&& 0x1D) }
/-- The number of a written register, split over two fields (R106). -/
def srNumber (h k : BitVec 6) : Nat := h.toNat * 64 + k.toNat
/-- `wrsr` (R66, R68, R69, R106). -/
def execWrsr (h a k : BitVec 6) (s : State) : Host.Outcome State Fault Refusal :=
  s.issue { Use.regs [a.toNat] [] with fcr := srNumber h k = 8 } fun s =>
    s.updGang s.cur fun g =>
      let g' := g.each s.mask fun x l =>
        if srNumber h k = 8 then x.setFcr l (g.vreg l a.toNat)
        else if srNumber h k = 9 then x.clearGstat (g.vreg l a.toNat) else x
      g'.finishAll s.mask

/-! ### UMISC (R125) -/

/-- `snop` (R125). -/
def execSnop (s : State) : Host.Outcome State Fault Refusal := s.issue (.regs [] []) fun s => s.finish s.mask
/-- `smov` (R125). -/
def execSmov (d a : BitVec 6) (s : State) : Host.Outcome State Fault Refusal :=
  s.issue (.regs [] [d.toNat, a.toNat]) fun s => s.setUni d.toNat (s.uni a.toNat) 0
/-- `srdsr` (R66, R106): a thread-held register is that of the lowest-numbered thread of the group. -/
def execSrdsr (d : BitVec 6) (n : BitVec 12) (s : State) : Host.Outcome State Fault Refusal :=
  s.issue { Use.regs [] [d.toNat] with fcr := n == 8 } fun s =>
    match s.gang s.cur with
    | some g => s.setUni d.toNat (s.sysreg g ((lanesOf s.mask).headD 0) n.toNat) 0
    | none => s
/-- `swrsr` (R66, R68, R69, R125): of `FCR` or `GSTAT` it is a write of per-gang state. -/
def execSwrsr (h a k : BitVec 6) (s : State) : Host.Outcome State Fault Refusal :=
  s.issue { Use.regs [] [a.toNat] with fcr := srNumber h k = 8 } fun s =>
    let x := s.uni a.toNat
    let write := fun (f : Gang → Gang) => s.uniformWrite fun s => s.updGang s.cur fun g => (f g).finishAll s.mask
    if srNumber h k = 8 then write fun g => g.each s.mask fun g l => g.setFcr l x
    else if srNumber h k = 9 then write fun g => g.clearGstat x
    else s.finish s.mask
/-- `rdtime` (R126): the PTB at issue. -/
def execRdtime (d : BitVec 6) (s : State) : Host.Outcome State Fault Refusal :=
  s.issue (.regs [] [d.toNat]) fun s => s.setUni d.toNat (BitVec.ofNat 64 s.ptb) 0
/-- `rdbudget` (R127): after the charge of its own issue; the counter of a slice of another chip is not here (logs 30, 116). -/
def execRdbudget (d : BitVec 6) (s : State) : Host.Outcome State Fault Refusal :=
  s.issue (.regs [] [d.toNat]) fun s =>
    match s.slice (s.sliceOf s.cur) with
    | some x => s.setUni d.toNat (wordOfInt x.budget) 0
    | none =>
      if (s.foreignSlice (s.sliceOf s.cur)).isSome then
        s.unstated.2.setUni d.toNat s.unstated.1 0
      else s.setUni d.toNat 0 0
/-- `yield` (R128). -/
def execYield (s : State) : Host.Outcome State Fault Refusal :=
  s.issue (.regs [] []) fun s => (s.finish s.mask).updGang s.cur fun g => { g with yielded := true, aged := false, since := s.ptb }

/-- The stopped work of a slice starts again: `GSTAT.BUDGETX` is set in each live gang of it (R69, R261). -/
def State.restartSlice (s : State) (h : Word) : State :=
  if s.sliceStopped h then
    let s := s.updSlice h fun x => { x with stopped := false }
    (s.wgs.filter fun p => ((s.launchOf p.2).map (·.slice)) == some h).foldl (fun s p =>
      p.2.gangs.foldl (fun s q =>
        if q.2.live = 0 then s else s.markGang p.1 q.1 8) s) s
  else s
/-- The `DEADLINEMISS` event of a slice whose deadline PTB has reached, once (R259, R349). -/
def State.missDeadline (s : State) (h : Word) : State :=
  match s.slice h with
  | some x =>
    if !x.be && !x.missed && decide (x.deadline ≤ s.ptb) then
      (s.updSlice h fun x => { x with missed := true }).postEvent x.tenant
        (eventEntry s.ptb h 0 2 0 0 (BitVec.ofNat 64 x.deadline) 0)
    else s
  | none => s
/-- `setdeadline` (R129, R258, R261, R349): 2^64 − 1 makes the slice best-effort (log 17). -/
def execSetdeadline (d a b : BitVec 6) (s : State) : Host.Outcome State Fault Refusal :=
  s.issue { Use.regs [] [d.toNat, a.toNat, b.toNat] with allow := 2 } fun s =>
    let h := s.uni a.toNat
    let x := s.uni b.toNat
    match s.slice h with
    | none => s.setUni d.toNat ones 0
    | some y =>
      let t := s.updSlice h fun y => { y with deadline := x.toNat, be := x == ones, missed := false }
      let t := if x == ones then t.restartSlice h else t.missDeadline h
      t.setUni d.toNat (if y.be then ones else BitVec.ofNat 64 y.deadline) 0

end Sys2Proof.Machine
end

