-- ==== Sys2Proof/Machine/Counter.lean ====
section
/-! DEFINITION. The CNT major, and what a spent budget stops (R261, R270, R320 to R326). -/

namespace Sys2Proof.Machine

/-- A level of work that a handle names (R270). -/
inductive Level where
  | launch (l : Nat)
  | graph (i : Nat)
  | slice (h : Word)
  deriving DecidableEq, Repr, Inhabited

/-- The tenant whose handles an agent may use; a service or command-complex core may use those of each (R270, R277). -/
def State.agentTenant (s : State) (a : Agent) : Option Nat := (s.launchAt a).map (·.tenant)
/-- A tenant's object is in reach of the issuing agent. -/
def State.reaches (s : State) (tenant : Nat) : Bool :=
  match s.agentTenant s.cur with
  | some t => t = tenant
  | none => true
/-- The registers of a launch, and its dispenser, are held on another chip (R375, R398). -/
def State.schedAway (s : State) (x : Launch) : Bool := x.pod && x.root ≠ s.chip
/-- This chip's part of another root's launch, by its root's handle. -/
def State.memberNamed (s : State) (h : Word) : Option (Nat × Launch) :=
  s.launches.find? fun p => s.schedAway p.2 && p.2.rootLaunch = h.toNat
/-- The launch here that a launch handle names: this chip's own, or its part of another root's (R270, R375; log 67). -/
def State.launchNamed (s : State) (h : Word) : Option (Nat × Launch) :=
  let i := bitsOf h.toNat 23 6
  match s.launch i with
  | some x => if x.serial % 2 ^ 40 = bitsOf h.toNat 63 24 && !s.schedAway x then some (i, x) else s.memberNamed h
  | none => s.memberNamed h
/-- The level that a handle names for the issuing agent; none where it is stale, another tenant's, or of another kind (R270). -/
def State.level (s : State) (h : Word) : Option Level :=
  let i := bitsOf h.toNat 23 6
  let serial := bitsOf h.toNat 63 24
  match bitsOf h.toNat 5 0 with
  | 0 => match s.slice h with
    | some x => if s.reaches x.tenant then some (.slice h) else none
    | none => none
  | 1 => match s.launchNamed h with
    | some (l, x) => if s.reaches x.tenant then some (.launch l) else none
    | none => none
  | 2 => match Tab.find s.graphs i with
    | some x => if x.serial % 2 ^ 40 = serial && s.reaches x.tenant then some (.graph i) else none
    | none => none
  | _ => none
/-- The index of the issuing gang's own launch; none on a service or command-complex core. -/
def State.ownLaunch (s : State) : Option Nat :=
  match s.cur with
  | .gang w _ => (s.wg w).map (·.launch)
  | .core _ => none
/-- The level that operand sa names, where s0 names the issuing gang's own launch (R277, R323). -/
def State.levelOrOwn (s : State) (a : BitVec 6) : Option Level :=
  if a = 0#6 then s.ownLaunch.map .launch else s.level (s.uni a.toNat)

/-- Granules of a space that a launch's chips have retired, as the status word counts them (R320, R377). -/
def Launch.short (x : Launch) : Nat := x.granules - x.gdone
/-- The counter that a selector picks of a level (Table 14.5). -/
def State.counter (s : State) (v : Level) (k : Nat) : Word :=
  match v with
  | .launch l => match s.launch l with
    | some x => match k with
      | 0 => BitVec.ofNat 64 x.gdone
      | 1 => BitVec.ofNat 64 x.wglive
      | 2 => BitVec.ofNat 64 x.spawned
      | 3 => BitVec.ofNat 64 x.granules
      | _ => ones
    | none => ones
  | .graph i => match Tab.find s.graphs i with
    | some x => match k with
      | 0 => BitVec.ofNat 64 x.nended
      | 1 => BitVec.ofNat 64 x.ndone
      | 2 => BitVec.ofNat 64 x.n
      | _ => ones
    | none => ones
  | .slice h => match s.slice h with
    | some x => match k with
      | 0 => wordOfInt x.budget
      | 1 => BitVec.ofNat 64 x.charged
      | 2 => BitVec.ofNat 64 x.outst
      | _ => ones
    | none => ones
/-- The performance counter of the issuing workgroup. -/
def State.perfCounter (s : State) (k : Nat) : Word :=
  match s.cur with
  | .gang w _ => BitVec.ofNat 64 (((s.wg w).map fun g => Tab.at g.perf k 0).getD 0)
  | .core _ => ones
/-- `cntrd` (R323, R324): the counter is read at issue, one of the instants that the table allows (log 20). -/
def execCntrd (d a k : BitVec 6) (l : BitVec 4) (s : State) : Host.Outcome State Fault Refusal :=
  s.issue (.regs [] [d.toNat, a.toNat]) fun s =>
    let x := if 32 ≤ k.toNat then (if a = 0#6 then s.perfCounter k.toNat else ones)
      else match s.levelOrOwn a with
        | some v => s.counter v k.toNat
        | none => ones
    s.setUni d.toNat x l.toNat
/-- `cntwait` (R325). -/
def execCntwait (d a b : BitVec 6) (l : BitVec 4) (s : State) : Host.Outcome State Fault Refusal :=
  s.issue (.regs [] [d.toNat, a.toNat, b.toNat]) fun s =>
    let done := match s.levelOrOwn a with
      | some (.launch i) => ((s.launch i).map (·.done)).getD true
      | some (.graph i) => ((Tab.find s.graphs i).map (·.done)).getD true
      | _ => true
    let x := match s.levelOrOwn a with
      | some (.slice _) => ones
      | some v => s.counter v 0
      | none => ones
    if done || decide ((s.uni b.toNat).toNat ≤ x.toNat) then s.setUni d.toNat x l.toNat else s.waitRetry s.mask

/-! ### Budgets (R261, R326) -/

/-- A gang of a stopped slice loses its slot, `PREEMPTED` set where it had a thread ready; its threads that wait go on waiting (R69, R261, R416;
log 109). -/
def Gang.idle (g : Gang) : Gang :=
  { g with slot := false, lost := true, gstat := if g.slot && g.runnable then g.gstat ||| 4 else g.gstat }
/-- A slice whose counter is spent stops: its events are sent, and its gangs that hold slots lose them (R20, R261, R416). -/
def State.budgetStop (s : State) (h : Word) : State :=
  match s.slice h with
  | none => s
  | some x =>
    if x.be || x.stopped || 0 < x.budget then s
    else
      let s := s.updSlice h fun x => { x with stopped := true }
      let s := s.postEvent x.tenant (eventEntry s.ptb h 0 1 0 0 (wordOfInt x.budget) 0)
      let s := match s.tenant x.tenant with
        | some t => s.tenantEvent t x.tenant 1 h
        | none => s
      (s.wgs.filter fun p => ((s.launchOf p.2).map (·.slice)) == some h).foldl (fun s p =>
        s.updWg p.1 fun x => { x with gangs := x.gangs.map fun q => (q.1, if q.2.slot then q.2.idle else q.2) }) s
/-- A slice's counter has fallen to 0 or below (R261). -/
def execBudget (h : Nat) (s : State) : Host.Outcome State Fault Refusal := .next (s.budgetStop (BitVec.ofNat 64 h))
/-- PTB has reached a slice's deadline (R259). -/
def execDeadlinemiss (h : Nat) (s : State) : Host.Outcome State Fault Refusal := .next (s.missDeadline (BitVec.ofNat 64 h))
/-- `cntadd` (R326). -/
def execCntadd (d a b : BitVec 6) (l : BitVec 4) (s : State) : Host.Outcome State Fault Refusal :=
  s.issue { Use.regs [] [d.toNat, a.toNat, b.toNat] with allow := 2 } fun s =>
    match s.levelOrOwn a with
    | some (.slice h) => match s.slice h with
      | some x =>
        let add := (s.uni b.toNat).toInt
        let n := saturate (x.budget + add)
        let t := s.updSlice h fun x => { x with budget := n }
        let t := if x.stopped && !x.be && decide (0 < n) then t.restartSlice h else if add < 0 then t.budgetStop h else t
        t.setUni d.toNat (wordOfInt n) l.toNat
      | none => s.setUni d.toNat ones l.toNat
    | _ => s.setUni d.toNat ones l.toNat

end Sys2Proof.Machine
end

