-- ==== Sys2Proof/Machine/Schedule.lean ====
section
/-! DEFINITION. Placements, the commit check of the schedule registers and the SCHED major (R72, R73, R277, R293, R398). -/

namespace Sys2Proof.Machine

/-! ### Placements (Table 3.9, R293) -/

/-- A core of this chip is in the committed placement of a launch (R72, R273). -/
def State.inPlacement (s : State) (x : Launch) (c : Nat) : Bool :=
  x.placement.contains c && placeNames x.sch c && !placeExcludes x.sch c && (!x.pod || (placeChips x.sch).contains s.chip)

/-! ### The commit check (Table 3.9) -/

/-- sch0: four dimensions, each once. -/
def schOrder (t : Tab Word) : List Nat := (List.range 4).map fun i => bitsOf (schAt t 0) (2 * i + 1) (2 * i)
/-- sch1: the extent of a unit along dimension d. -/
def schTile (t : Tab Word) (d : Nat) : Nat := bitsOf (schAt t 1) (8 * d + 7) (8 * d)
/-- sch2: units a refill brings. -/
def schChunk (t : Tab Word) : Nat := bitsOf (schAt t 2) 31 16
/-- A core of one half of the dies that a proof places on a chip of its range, and that the initial registers do not place there. -/
def State.placeWidens (s : State) (x : Launch) (t : Tab Word) (half : Nat) : Bool :=
  let first := recordSch x.record
  (if x.pod then x.range.filter (placeChips t).contains else [s.chip]).any fun chip =>
    (s.placedOn chip t).any fun c => c / 256 = half && !(placeNames first c && !placeExcludes first c)
/-- A schedule register passes its commit check. -/
def State.schPasses (s : State) (x : Launch) (t : Tab Word) (n : Nat) : Bool :=
  let v := schAt t n
  match n with
  | 0 => decide (v < 256) && (List.range 4).all fun d => (schOrder t).contains d
  | 1 => decide (v < 2 ^ 32) && ((List.range 4).all fun d => schTile t d ≠ 0) &&
      decide (schTile t 0 * schTile t 1 * schTile t 2 * schTile t 3 ≤ 64)
  | 2 => decide (v < 2 ^ 32) && decide (bitsOf v 15 0 ≤ 1) && schChunk t ≠ 0
  | 3 => decide (v < 2 ^ 52) && !s.placeWidens x t 0
  | 4 => decide (v < 2 ^ 52) && !s.placeWidens x t 1
  | 5 => (List.range 4).all fun i => !bitOf v (16 * i + 15) || decide (bitsOf v (16 * i + 5) (16 * i + 3) < 5)
  | 6 => decide (v < 2 ^ 21) && decide (1 ≤ bitsOf v 20 10) && decide (bitsOf v 20 10 ≤ 1024) &&
      decide (bitsOf v 9 0 + bitsOf v 20 10 ≤ 1024) && (!x.pod || (placeChips t).all x.range.contains)
  | _ => true
/-- The first register of a proof that fails. -/
def State.schFails (s : State) (x : Launch) (t : Tab Word) : Option Nat :=
  (List.range 7).find? fun n => !s.schPasses x t n
/-- Commits a proof: the generation rises, dispensers discard the indices they hold, and the walk starts again (R72, R273). -/
def Launch.commit (x : Launch) (t : Tab Word) : Launch :=
  let t := Tab.set 0 t 7 (Tab.at x.sch 7 0 + 1)
  { x with sch := t, proof := t, walk := 0, stock := [], turn := [] }

/-! ### The SCHED major (R277) -/

/-- The incomplete launch that a schedule instruction names. -/
def State.schedLaunch (s : State) (a : BitVec 6) : Option (Nat × Launch) :=
  match s.levelOrOwn a with
  | some (.launch l) => match s.launch l with
    | some x => if x.done && !s.schedAway x then none else some (l, x)
    | none => none
  | _ => none
/-- What a commit of a launch's proof answers, and the state after it (R72, R277). -/
def State.commitOf (s : State) (l : Nat) (x : Launch) : Word × State :=
  match s.schFails x x.proof with
  | some n => (0x8000000000000000 ||| BitVec.ofNat 64 n, s)
  | none => (Tab.at x.sch 7 0 + 1, s.updLaunch l fun x => x.commit x.proof)
/-- A write of a launch's proof: sch7 is not written (R72). -/
def State.proofWrite (s : State) (l n : Nat) (v : Word) : State :=
  if n = 7 then s else s.updLaunch l fun x => { x with proof := Tab.set 0 x.proof n v }
/-- `schr` (R277): of a launch of another root, that root is asked (R398; log 31). -/
def execSchr (d a : BitVec 6) (p : BitVec 1) (n : BitVec 4) (s : State) : Host.Outcome State Fault Refusal :=
  s.issue (.regs [] [d.toNat, a.toNat]) fun s =>
    match s.schedLaunch a with
    | none => s.setUni d.toNat ones 0
    | some (_, x) =>
      if s.schedAway x then s.uniGuard d.toNat fun s => s.askWord x 12 (leBytes 1 n.toNat ++ leBytes 1 p.toNat) d.toNat 0
      else s.setUni d.toNat (Tab.at (if p = 1#1 then x.proof else x.sch) n.toNat 0) 0
/-- `schw` (R72, R277): sch7 is not written; a stale handle does nothing; of a launch of another root, the register and the value are sent to
it (R398). -/
def execSchw (h a : BitVec 6) (n : BitVec 4) (s : State) : Host.Outcome State Fault Refusal :=
  s.issue (.regs [] [h.toNat, a.toNat]) fun s =>
    let t := match s.schedLaunch h with
      | none => s
      | some (l, x) =>
        if s.schedAway x then s.treeSend x.slice 9 x.rootLaunch [x.root] (leBytes 1 n.toNat ++ leBytes 8 (s.uni a.toNat).toNat)
        else s.proofWrite l n.toNat (s.uni a.toNat)
    t.finish t.mask
/-- `schcommit` (R72, R73, R277): of a launch of another root, that root is asked (R398; log 31). -/
def execSchcommit (d a : BitVec 6) (s : State) : Host.Outcome State Fault Refusal :=
  s.issue (.regs [] [d.toNat, a.toNat]) fun s =>
    s.uniGuard d.toNat fun s =>
      match s.schedLaunch a with
      | none => s.setUni d.toNat ones 0
      | some (l, x) =>
        if s.schedAway x then s.askWord x 10 [] d.toNat 0
        else
          let r := s.commitOf l x
          r.2.setUni d.toNat r.1 0

end Sys2Proof.Machine
end

