-- ==== Sys2Proof/Machine/Dispenser.lean ====
section
/-! DEFINITION. The DISP major and the walk of the dispensers (R271 to R276, R296 to R298). -/

namespace Sys2Proof.Machine

/-! ### Units (R272, R273) -/

/-- Units of a launch along dimension d. -/
def Launch.units (x : Launch) (d : Nat) : Nat := ceilDiv (x.ext d) (schTile x.sch d)
/-- Number of units of the committed generation. -/
def Launch.unitCount (x : Launch) : Nat := x.units 0 * x.units 1 * x.units 2 * x.units 3
/-- The place of unit u along each dimension, as `ORDER` nests them: (dimension, index). -/
def unitPlace (x : Launch) : List Nat → Nat → List (Nat × Nat)
  | [], _ => []
  | d :: ds, u => (d, u % x.units d) :: unitPlace x ds (u / x.units d)
/-- Origin and extent of unit u, clipped at the edge of the space (R272, Table 12.3). -/
def Launch.unitAt (x : Launch) (u : Nat) : Word × Word :=
  (unitPlace x (schOrder x.sch) u).foldl (fun p q =>
    let o := q.2 * schTile x.sch q.1
    (p.1 + BitVec.ofNat 64 (o * 2 ^ (16 * q.1)), p.2 + BitVec.ofNat 64 (min (schTile x.sch q.1) (x.ext q.1 - o) * 2 ^ (8 * q.1)))) (0, 0)
/-- A word with the given bits set. -/
def bitsWord (bs : List Nat) : Word := bs.foldl (fun m b => m ||| 1#64 <<< b) 0
/-- The states of the first n granules of a launch; an error is the address that faults. -/
def State.sheet (s : State) (x : Launch) : Nat → Except Word (List Nat)
  | 0 => .ok []
  | n + 1 =>
    match State.sheet s x n with
    | .error a => .error a
    | .ok vs => match s.granule x n with
      | .error a => .error a
      | .ok v => .ok (vs ++ [v])

/-- The units that a refill takes: `CHUNK` of the walk's, up to the last unit, after which the walk begins again. -/
def Launch.refill (x : Launch) : List Nat × Launch :=
  let last := min x.unitCount (x.walk + max 1 (schChunk x.sch))
  ((List.range (last - x.walk)).map (x.walk + ·), { x with walk := if last = x.unitCount then 0 else last })

/-! ### The dispensers below the root (R273, Table 3.9) -/

/-- The key of a die's dispenser in `stock`; the root's in `turn` is 0. -/
def dieKey (d : Nat) : Nat := 1 + d
/-- The key of a core's dispenser. -/
def coreKey (c : Nat) : Nat := 9 + c
/-- The key of a chip's dispenser of a pod launch (R375). -/
def chipKey (c : Nat) : Nat := 1024 + c
/-- The unit indices that a lower dispenser holds. -/
def Launch.stocked (x : Launch) (k : Nat) : List Nat := Tab.at x.stock k []
/-- The dies of this chip whose dispensers are handed chunks, and the cores that a die's hands them to. -/
def State.dealers (s : State) (x : Launch) (die : Option Nat) : List Nat :=
  let cores := x.placement.filter fun c => s.inPlacement x c
  match die with
  | none => ((cores.map fun c => dieKey (c / 64)).eraseDups)
  | some d => (cores.filter fun c => c / 64 = d).map coreKey
/-- The chips that the root of a pod launch hands chunks to. -/
def State.dealerChips (s : State) (x : Launch) : List Nat :=
  (x.range.filter fun c => (placeChips x.sch).contains c && !x.lost.contains c && !(s.placedOn c x.sch).isEmpty).map chipKey
/-- The dispensers above a core's, from the lowest: each one's key, its parent's and the parent's children's. On a chip that is not the
root's they end with the chip's own. -/
def State.levels (s : State) (x : Launch) (c : Nat) : List (Nat × Nat × List Nat) :=
  let d := c / 64
  [(coreKey c, dieKey d, s.dealers x (some d)), (dieKey d, if x.pod then chipKey s.chip else 0, s.dealers x none)] ++
    if x.pod && x.root = s.chip then [(chipKey s.chip, 0, s.dealerChips x)] else []
/-- Which child of a dispenser is handed its next chunk: in BLOCK the one that asks, in CYCLIC each in its turn. -/
def Launch.childOf (x : Launch) (kids : List Nat) (k asks : Nat) : Nat :=
  if bitsOf (schAt x.sch 2) 1 0 = 0 then asks else (kids.find? fun c => Tab.at x.turn k 0 < c).getD (kids.headD asks)
/-- A dispenser hands units to a child. -/
def Launch.hand (x : Launch) (k child : Nat) (us : List Nat) : Launch :=
  { x with stock := Tab.put x.stock child (x.stocked child ++ us), turn := Tab.put x.turn k child }
/-- The next chunk of a dispenser: at the root of the walk, below it of what it holds. -/
def Launch.chunkOf (x : Launch) (k : Nat) : List Nat × Launch :=
  if k = 0 then x.refill
  else
    let n := max 1 (schChunk x.sch)
    ((x.stocked k).take n, { x with stock := Tab.put x.stock k ((x.stocked k).drop n) })
/-- The dispenser above, refilled itself where it holds none, hands out chunks until the one that asks has one; each child has at most one
turn (R273). -/
def Launch.stockUp (x : Launch) : List (Nat × Nat × List Nat) → Launch
  | [] => x
  | (c, p, kids) :: up =>
    (List.range (kids.length + 1)).foldl (fun x _ =>
      if !(x.stocked c).isEmpty then x
      else
        let y := if p ≠ 0 && (x.stocked p).isEmpty then x.stockUp up else x
        let r := y.chunkOf p
        if r.1.isEmpty then y else r.2.hand p (y.childOf kids p c) r.1) x

/-- The first unit of a list with a free granule, dealt in one step: the rest of the list, the unit with its mask bits, and
the state (R272). -/
def State.dealFrom (s : State) (x : Launch) : List Nat → Option (List Nat × Nat × List Nat) × State
  | [] => (none, s)
  | u :: us =>
    let p := x.unitAt u
    match s.moveGranules x (x.unit p.1 p.2) 0 1 with
    | ([], s) => State.dealFrom s x us
    | (bs, s) => (some (us, u, bs), s)
/-- Deals from the walk itself until a unit has a free granule; the first argument bounds the refills. -/
def State.dealWalk : Nat → State → Launch → Option (Nat × List Nat) × State × Launch
  | 0, s, x => (none, s, x)
  | k + 1, s, x =>
    let r := x.refill
    match s.dealFrom x r.1 with
    | (some d, s) => (some (d.2.1, d.2.2), s, r.2)
    | (none, s) => State.dealWalk k s r.2
/-- Deals from what a core's dispenser holds; where no unit there has a free granule, none is left. -/
def State.dealHeld (s : State) (x : Launch) (c : Nat) : Option (Nat × List Nat) × State × Launch :=
  let left := fun (us : List Nat) => ({ x with stock := Tab.put x.stock (coreKey c) us } : Launch)
  match s.dealFrom x (x.stocked (coreKey c)) with
  | (some d, s) => (some (d.2.1, d.2.2), s, left d.1)
  | (none, s) => (none, s, left [])
/-- Deals from refills of a core's dispenser until a unit has a free granule; the first argument bounds the refills. -/
def State.dealCore : Nat → State → Launch → Nat → Option (Nat × List Nat) × State × Launch
  | 0, s, x, _ => (none, s, x)
  | k + 1, s, x, c =>
    match s.dealHeld (x.stockUp (s.levels x c)) c with
    | (some d, s, x) => (some d, s, x)
    | (none, s, x) => State.dealCore k s x c
/-! ### The DISP major (R271) -/

/-- What a `tfetch` with no unit writes: `DONE`, with the generation bits 0 before any commit, as R395 has them, and open after one (R273; log
4). -/
def State.doneQuad (s : State) (x : Launch) : List Word × State :=
  let gen := if Tab.at x.sch 7 0 = 0 then (0, s) else s.unstated
  ([0, 0, 0, gen.1 ||| 0x8000000000000000], gen.2)
/-- What a `tfetch` with a unit writes (Table 12.3). -/
def quadOf (origin extent mask gen : Word) : List Word := [origin, extent, mask, gen &&& 0x7FFFFFFFFFFFFFFF]
/-- Completes a `tfetch` with its quad. -/
def State.setQuad (s : State) (q la : Nat) (ws : List Word) : State :=
  s.setUnis [(q, ws.getD 0 0), (q + 1, ws.getD 1 0), (q + 2, ws.getD 2 0), (q + 3, ws.getD 3 0)] la
/-- Completes a `tfetch` with no unit. -/
def State.fetchDone (s : State) (x : Launch) (q la : Nat) : State := (s.doneQuad x).2.setQuad q la (s.doneQuad x).1
/-- A dealt unit enters a workgroup's deal list (R298). -/
def State.dealtUnit (s : State) (w : Nat) (origin extent mask : Word) : State :=
  s.updWg w fun g => { g with deals := g.deals ++ [⟨origin, extent, mask⟩], dealt := g.dealt + 1 }
/-- A word of `tfetch`. -/
def tfetchWord (w : BitVec 32) : Bool := w &&& 0xFE1FFFF0#32 == 0x9E000000#32
/-- Deals the next unit of a launch to a workgroup: of those that its core's dispenser holds, then of its refills, and at last of the walk
of the whole space (R272, R273, R298). -/
def State.dealNext (s : State) (w q la : Nat) (g : Workgroup) (x : Launch) : State :=
  let give := fun (s : State) (x : Launch) (u : Nat) (bs : List Nat) =>
    let p := x.unitAt u
    let m := bitsWord bs
    let here := ((x.unit p.1 p.2).filter fun p => bs.contains p.1).map Prod.snd
    let s := s.updLaunch g.launch fun y =>
      { y with walk := x.walk, stock := x.stock, turn := x.turn, dealtTo := y.dealtTo.filter fun p => !here.contains p.1 }
    (s.dealtUnit w p.1 p.2 m).setQuad q la (quadOf p.1 p.2 m (Tab.at x.sch 7 0))
  match s.dealHeld x g.core with
  | (some d, s, x) => give s x d.1 d.2
  | (none, s, x) =>
    match State.dealCore x.unitCount s x g.core with
    | (some d, s, x) => give s x d.1 d.2
    | (none, s, x) => match State.dealWalk (x.unitCount + 1) s x with
      | (some d, s, x) => give s x d.1 d.2
      | (none, s, _) => s.fetchDone x q la
/-- A workgroup of another root's launch asks that root for a unit of those that its core's dispenser holds, refilled from its chip's, or for
a chunk where there is none (R273, R375; log 31). -/
def State.askUnit (s : State) (g : Workgroup) (x : Launch) : State :=
  let k := coreKey g.core
  let y := if (x.stocked k).isEmpty then x.stockUp (s.levels x g.core) else x
  let us := y.stocked k
  if us.isEmpty || !s.inPlacement x g.core then s.askRoot x 19 [] (.chunk (some g.core))
  else
    let gen := Tab.at x.sch 7 0
    let s := s.updLaunch g.launch fun z => { z with stock := Tab.put y.stock k [], turn := y.turn }
    s.askRoot x 13 (leBytes 8 gen.toNat ++ us.flatMap fun u => leBytes 8 (x.unitAt u).1.toNat ++ leBytes 8 (x.unitAt u).2.toNat)
      (.unit g.core gen us)
/-- `tfetch` (R272 to R274, R298): of those that wait on a core the first in rank is dealt to (R258). -/
def execTfetch (d l : BitVec 4) (s : State) : Host.Outcome State Fault Refusal :=
  let q := 4 * d.toNat
  s.issue { Use.regs [] [q, q + 1, q + 2, q + 3] with allow := 1 } fun s =>
    s.uniGuard q fun s =>
      match s.cur with
      | .core _ => s
      | .gang w i =>
        match s.wg w with
        | none => s
        | some g =>
          match s.launchOf g with
          | none => s
          | some x =>
            let holds := s.underCap x.tenant || 64 ≤ g.deals.length || s.rankedOut w i g.core tfetchWord
            if x.cancel.isSome then s.fetchDone x q l.toNat
            else if s.schedAway x then
              if holds && s.askOf.isNone then s.waitRetry s.mask
              else s.await (fun s => s.askUnit g x) fun s ws => s.setQuad q l.toNat ws
            else if !s.inPlacement x g.core then s.fetchDone x q l.toNat
            else match s.sheet x x.granules with
              | .error e => s.wiredFault x.tenant e
              | .ok vs =>
                if !vs.contains 0 then s.fetchDone x q l.toNat
                else if holds then s.waitRetry s.mask
                else s.dealNext w q l.toNat g x

/-- Removes granules from the deal lists of a launch's workgroups; an entry with none left goes (R298). -/
def State.undeal (s : State) (l : Nat) (x : Launch) (idx : List Nat) : State :=
  let fix := fun (d : Deal) =>
    let gone := ((x.dealt d).filter fun p => idx.contains p.2).map Prod.fst
    let m := d.mask &&& ~~~bitsWord gone
    if m = 0 then none else some { d with mask := m }
  { s with wgs := s.wgs.map fun p => if p.2.launch = l then (p.1, { p.2 with deals := p.2.deals.filterMap fix }) else p }
/-- What `tretire` and `tgive` leave once granules of a list have changed state: they go from the deal lists, `tretire` counts them, and the
destination is written (R275, R298). -/
def State.gaveBack (s : State) (i : Nat) (x : Launch) (gs : List (Nat × Nat)) (changed : List Nat) (dst : Nat) : Word × State :=
  let n := changed.length
  let s := s.undeal i x changed
  let s := if dst = 2 then s.updLaunch i fun x => { x with gdone := x.gdone + n } else s
  (BitVec.ofNat 64 (n + (gs.length - n) * 2 ^ 32), s)
/-- `tretire` and `tgive`: dealt granules of a quad go to a state; of a launch of another root, that root is asked (R275, R375). -/
def State.giveBack (s : State) (d : BitVec 6) (a : BitVec 4) (b : BitVec 6) (l : BitVec 4) (dst : Nat) :
    Host.Outcome State Fault Refusal :=
  let q := 4 * a.toNat
  s.issue { Use.regs [] [d.toNat, q, q + 1, q + 2, q + 3, b.toNat] with allow := 1 } fun s =>
    s.uniGuard d.toNat fun s =>
      match s.ownLaunch with
      | none => s
      | some i =>
        match s.launch i with
        | none => s
        | some x =>
          let m := s.uni b.toNat &&& s.uni (q + 2)
          let gs := (x.unit (s.uni q) (s.uni (q + 1))).filter fun p => m.getLsbD p.1
          if s.schedAway x then
            s.await (fun s => s.askRoot x 14 (leBytes 1 dst ++ gs.flatMap fun p => leBytes 4 p.2) (.granules dst gs)) fun s ws =>
              s.setUni d.toNat (ws.headD ones) l.toNat
          else
            let r := s.moveGranules x gs 1 dst
            let u := r.2.gaveBack i x gs ((gs.filter fun p => r.1.contains p.1).map Prod.snd) dst
            u.2.setUni d.toNat u.1 l.toNat
/-- `tretire` (R275). -/
def execTretire (d : BitVec 6) (a : BitVec 4) (b : BitVec 6) (l : BitVec 4) (s : State) : Host.Outcome State Fault Refusal :=
  s.giveBack d a b l 2
/-- `tgive` (R275). -/
def execTgive (d : BitVec 6) (a : BitVec 4) (b : BitVec 6) (l : BitVec 4) (s : State) : Host.Outcome State Fault Refusal :=
  s.giveBack d a b l 0
/-- What selectors 1 to 5 of `tstat` read of a launch; an error is the address that faults (R276). -/
def State.tstatOf (s : State) (x : Launch) (k : Nat) : Except Word Nat :=
  if k = 5 then .ok (schAt x.sch 7) else (s.sheet x x.granules).map fun vs => vs.count (k - 1)
/-- `tstat` (R276): read at issue; of a launch of another root, selectors 1 to 5 at that root (R375; log 31). -/
def execTstat (d k : BitVec 6) (l : BitVec 4) (s : State) : Host.Outcome State Fault Refusal :=
  s.issue { Use.regs [] [d.toNat] with allow := 1 } fun s =>
    match s.cur with
    | .core _ => s
    | .gang w _ =>
      match s.wg w with
      | none => s
      | some g =>
        match s.launchOf g with
        | none => s
        | some x =>
          let give := fun (n : Nat) => s.setUni d.toNat (BitVec.ofNat 64 n) l.toNat
          if k = 0#6 then give x.granules
          else if k = 6#6 then give g.dealt
          else if s.schedAway x then s.uniGuard d.toNat fun s => s.askWord x 20 (leBytes 1 k.toNat) d.toNat l.toNat
          else match s.tstatOf x k.toNat with
            | .ok n => give n
            | .error e => s.wiredFault x.tenant e
/-- The dispenser of a workgroup's core takes a chunk of units from the level above; its chip's, where it holds none, asks the root's (R273,
R375). -/
def execDispenserRefill (w : Nat) (s : State) : Host.Outcome State Fault Refusal :=
  match s.wg w with
  | none => .next s
  | some g =>
    match s.launchOf g with
    | none => .next s
    | some x =>
      if g.place.isSome && !g.evicting && x.cancel.isNone && !s.sliceStopped x.slice && s.inPlacement x g.core &&
          (x.stocked (coreKey g.core)).isEmpty then
        let r := x.stockUp (s.levels x g.core)
        let t := s.updLaunch g.launch fun y => { y with walk := r.walk, stock := r.stock, turn := r.turn }
        if s.schedAway x && (r.stocked (coreKey g.core)).isEmpty && !s.asks.any fun q => q.agent = .core 48 && q.launch = x.serial then
          .next (t.askFor (.core 48) 0 0 x.slice 19 x.rootLaunch x.serial [x.root] [] (.chunk none))
        else .next t
      else .next s

end Sys2Proof.Machine
end

