-- ==== Sys2Proof/Machine/Pool.lean ====
section
/-! DEFINITION. The ready pool: nodes and entries taken, a launch's checks and start, dispatch, and the ends of workgroups,
launches and nodes (R18, R19, R22, R258, R264, R292 to R296, R300 to R303, R320, R321, R423). -/

namespace Sys2Proof.Machine

/-! ### Free entries (R282, R300, R320) -/

/-- The gaps of a table below a limit, from key c: first key and length. -/
def gaps {α : Type} (limit : Nat) : Nat → Tab α → List (Nat × Nat)
  | c, [] => [(c, limit - c)]
  | c, (j, _) :: t => (c, min j limit - c) :: gaps limit (j + 1) t
/-- How many keys stand in some gaps. -/
def gapCount (gs : List (Nat × Nat)) : Nat := (gs.map Prod.snd).sum
/-- The n-th key of some gaps. -/
def gapKey : List (Nat × Nat) → Nat → Option Nat
  | [], _ => none
  | (c, k) :: gs, n => if n < k then some (c + n) else gapKey gs (n - k)
/-- The key of some gaps that is taken at a PTB, none where they hold none (log 58). -/
def pickKey (now : Nat) (gs : List (Nat × Nat)) : Option Nat :=
  gapKey gs (Config.freePick now (gs.flatMap fun g => [g.1, g.2]) % gapCount gs)
/-- The key that is taken among those that a table does not list below a limit. -/
def freeKey {α : Type} (now limit : Nat) (t : Tab α) : Option Nat := pickKey now (gaps limit 0 t)
/-- The n lowest keys that a table does not list below a limit (R282). -/
def freeKeys {α : Type} (limit n : Nat) (t : Tab α) : List Nat :=
  ((gaps limit 0 t).flatMap fun g => (List.range (min g.2 n)).map (g.1 + ·)).take n
/-- The first of the n consecutive keys that are taken among those that a table does not list below a limit. -/
def freeRun {α : Type} (now limit n : Nat) (t : Tab α) : Option Nat :=
  pickKey now (((gaps limit 0 t).filter fun g => n ≤ g.2).map fun g => (g.1, g.2 + 1 - n))
/-- The done entry of a table that completed earliest. -/
def earliest {α : Type} (done : α → Bool) (time : α → Nat) (t : Tab α) : Option Nat :=
  (t.foldl (fun (m : Option (Nat × Nat)) p =>
    if !done p.2 then m
    else match m with
      | some q => if time p.2 < q.2 then some (p.1, time p.2) else m
      | none => some (p.1, time p.2)) none).map Prod.fst
/-- The entry of the store that the node of a work packet or of a `launch` takes, where the ready pool has one free (R264, R279, R303; log
58). -/
def State.freeNode (s : State) : Option Nat := freeKey s.ptb 65536 s.tcbs
/-- The completion-counter entry that a launch takes: one never used, else the one whose launch completed earliest. -/
def State.freeLaunch (s : State) : Option Nat :=
  match freeKey s.ptb 16384 s.launches with
  | some l => some l
  | none => earliest Launch.done Launch.completed s.launches
/-- The graph-table entry that a graph takes. -/
def State.freeGraph (s : State) : Option Nat :=
  match freeKey s.ptb 16384 s.graphs with
  | some i => some i
  | none => earliest Graph.done Graph.completed s.graphs
/-- A node that has just entered the store. -/
def newTcb (image : List Byte) (slice : Word) (tenant pasid now : Nat) : Tcb :=
  { state := 2, image := image, pred := 0, graph := none, spawner := none, base := 0, slice := slice, tenant := tenant
    pasid := pasid, bad := false, kind := 0, code := 0, work := none, wrote := 0, since := now, aged := false, freeAt := now, packet := false, order := 0 }
/-- A launch of a record takes its completion-counter entry; none where there is none (R292, R320). -/
def State.takeLaunch (s : State) (record : List Byte) (slice : Word) (tenant pasid dladj : Nat) (node : Option Nat) (pod : Bool) :
    Option (Nat × State) :=
  s.freeLaunch.map fun l =>
    let x := freshLaunch record (s.serialNo + 1) slice tenant pasid dladj s.serialNo
    let x := { x with node := node, pod := pod, root := s.chip, rootLaunch := (tableHandle x.serial l 1).toNat }
    (l, { s with serialNo := s.serialNo + 2, launches := Tab.put s.launches l x })
/-- Counts a piece of work that a slice has started (R322). -/
def State.outUp (s : State) (h : Word) : State := s.updSlice h fun x => { x with outst := x.outst + 1 }

/-! ### The checks of a launch (R294, Table 13.4) -/

/-- KiB of the pool that a partition word reserves (R19, R151). -/
def Launch.reserves (x : Launch) : Nat :=
  let p := x.field 0x10 8
  roundUp (bitsOf p 47 32) 64 + roundUp (bitsOf p 31 16) 64 + roundUp (bitsOf p 15 0) 64
/-- The address fields of a record. -/
def Launch.addresses (x : Launch) : List Nat := [0, 0x20, 0x28, 0x30, 0x38, 0x40, 0x50].map fun o => x.field o 8
/-- The fields of a record are within the limits of Table 13.4, and its reserved fields are 0. -/
def Launch.recordOk (x : Launch) : Bool :=
  let p := x.field 0x10 8
  let stride := x.field 0x48 8
  canonical (BitVec.ofNat 64 (x.field 0 8)) && x.field 0 8 % 4 = 0 && [16, 24, 32, 48, 64].contains (x.field 8 1) &&
    x.field 9 1 < 8 && 1 ≤ x.ngang && x.ngang ≤ 32 && x.field 0xB 1 = 0 && x.field 0xC 4 ≠ 0 &&
    bitsOf p 63 48 = 0 && 64 ≤ bitsOf p 47 32 && bitsOf p 15 0 ≤ 4096 && bitsOf p 15 0 + bitsOf p 31 16 ≤ 8192 &&
    ((List.range 4).all fun d => x.ext d ≠ 0) && x.granules ≤ 2 ^ 32 &&
    x.field 0x20 8 % 64 = 0 && x.field 0x28 8 % 8 = 0 && x.field 0x30 8 % 4096 = 0 && x.field 0x38 8 % 128 = 0 &&
    x.field 0x40 8 % 65536 = 0 && (stride = 0 || (stride % 65536 = 0 && 3 * 65536 ≤ stride && stride ≤ 2 ^ 30)) &&
    x.field 0x50 8 % 16 = 0 && x.field 0x58 8 % 16 = 0 && (x.record.drop 0xA8).take 88 == List.replicate 88 0 &&
    x.field 0x138 8 = 0 && (x.addresses.all fun a => !inThreadAp a && !inServiceAp a) && x.reserves ≤ 8192
/-- A launch with its placement on this chip and its chip range formed from its record; on a pod launch also W, and the `WGID` of this chip's
first workgroup (R293). -/
def State.withPlacement (s : State) (x : Launch) : Launch :=
  if x.pod then
    let range := placeChips x.sch
    { x with
      placement := if range.contains s.chip then s.placed x.sch else [], range := range, total := s.podTotal x
      firstWg := ((range.filter (· < s.chip)).map fun c => (s.placedOn c x.sch).length).foldl (· + ·) 0 }
  else { x with placement := s.placed x.sch, range := [s.chip] }
/-- The launch passes the checks of R294 on this chip. -/
def State.launchOk (s : State) (x : Launch) : Bool :=
  x.recordOk && (s.schFails x x.sch).isNone && (if x.pod then x.range.length ≤ max 1 s.podChips.length && x.total ≠ 0 else !x.placement.isEmpty)
/-- The bytes of a fresh contact sheet (R296). -/
def Launch.freshSheet (x : Launch) : List Byte :=
  (List.range (roundUp (ceilDiv x.granules 4) 64)).map fun i =>
    BitVec.ofNat 8 (((List.range 4).map fun k => if x.granules ≤ 4 * i + k then 2 * 4 ^ k else 0).foldl (· + ·) 0)
/-- Every word of a launch's status array becomes all ones (R295); `cores` is W of the launch. -/
def State.statusInit (s : State) (l : Nat) (x : Launch) (cores : Nat) : State := s.statusWrite l x 0 0 (cores * x.ngang) ones
/-- This chip's part of a launch may run: its workgroups wait to be dispatched. -/
def State.armLaunch (s : State) (l : Nat) (x : Launch) : State :=
  let w := x.placement.length
  s.updLaunch l fun y =>
    { y with
      placement := x.placement, range := x.range, firstWg := x.firstWg, total := x.total, started := true, wglive := w
      waiting := (List.range w).map fun i => (x.firstWg + i, 0) }
/-- A pod launch of this root is announced, and neither Go nor Withdraw nor a cancel of it has been sent (R375, R380). -/
def Launch.undecided (x : Launch) (chip : Nat) : Bool :=
  x.pod && x.root = chip && !x.started && !x.done && x.cancel.isNone && x.total ≠ 0
/-- A node that a launchp packet or a `launchp` has entered. -/
def Tcb.makesPod (t : Tcb) : Bool := t.graph.isNone && t.spawner.isNone && recAt t.image 0 2 = 0x101
/-- The queue from which a node that makes a pod launch comes: its slice's. -/
def State.podQueue (s : State) (t : Tcb) : Option (Nat × Nat) := if t.makesPod then (s.slice t.slice).map fun y => (y.tenant, y.queue) else none
/-- Go of a launch waits: an earlier one of the same queue is not decided, and they start on every chip in issue order (R376; log 107). -/
def State.goHeld (s : State) (x : Launch) : Bool :=
  match x.node.bind s.tcb with
  | some t => (s.podQueue t).isSome && s.launches.any fun p => p.2.undecided s.chip && match p.2.node.bind s.tcb with
    | some u => decide (u.order < t.order) && s.podQueue u == s.podQueue t
    | none => false
  | none => false
/-- The root sends Go down the tree: its own workgroups may start, and those of the other chips of the range when it reaches them (R375). -/
def State.sendGo (s : State) (l : Nat) : State :=
  match s.launch l with
  | none => s
  | some x => (s.updLaunch l fun x => { x with gone := true, started := true, announced := s.ptb }).treeDown x.slice 1 x.rootLaunch []
/-- The root withdraws a pod launch: no workgroup starts, and it ends FAILED with code `ILLEGAL` (R375). -/
def State.withdraw (s : State) (l : Nat) : State :=
  match s.launch l with
  | none => s
  | some x => (s.updLaunch l fun x => { x with started := true, failCode := 1, waiting := [], wglive := 0 }).treeDown x.slice 2 x.rootLaunch []
/-- A package whose pod is not in line yet begins no pod launch (R374); one that runs alone, or has met no other, is a pod of one. -/
def State.podSettled (s : State) : Bool := s.alone || decide (s.podChips.length ≤ 1) || s.podUp
/-- A pod launch begins: its status array is written all ones and its record goes down the tree; where the record passes the root's checks the
contact sheet and an empty report are written too, else it is withdrawn (R294, R295, R375, R378). -/
def State.announce (s : State) (l : Nat) : State :=
  match s.launch l with
  | none => s
  | some x =>
    let x := s.withPlacement x
    let ok := s.launchOk x
    let s := s.statusInit l x x.total
    let s := if ok then
        let s := s.wiredWrite x.tenant x.pasid (BitVec.ofNat 64 (x.field 0x20 8)) x.freshSheet
        match s.route (s.reportAt l) with
        | some k => s.homeStore k (List.replicate 256 0)
        | none => s.wiredFault x.tenant (BitVec.ofNat 64 (s.reportAt l))
      else s
    let s := (s.armLaunch l x).updLaunch l fun x => { x with started := false, announced := s.ptb }
    let s := s.treeDown x.slice 0 x.rootLaunch (leBytes 8 x.slice.toNat ++ leBytes 4 x.pasid ++ x.record)
    if ok then s else s.withdraw l
/-- A launch of one chip begins: it fails its checks, or its status array and contact sheet are written and its workgroups
wait (R292 to R296). -/
def State.launchStart (s : State) (l : Nat) : State :=
  match s.launch l with
  | none => s
  | some x =>
    let x := s.withPlacement x
    if s.launchOk x then
      let s := s.statusInit l x x.placement.length
      let s := s.wiredWrite x.tenant x.pasid (BitVec.ofNat 64 (x.field 0x20 8)) x.freshSheet
      s.armLaunch l x
    else s.updLaunch l fun x => { x with started := true, failCode := 1 }

/-! ### Dispatch of workgroups (R18, R19, R22, R258, R263) -/

/-- KiB that the workgroups on a core reserve. -/
def State.reserved (s : State) (core : Nat) : Nat :=
  (s.wgs.map fun p => if p.2.place.map Prod.fst = some core then ((s.launchOf p.2).map Launch.reserves).getD 0 else 0).foldl (· + ·) 0
/-- KiB of each workgroup for which a pod launch other than this one holds a core's space, from its acknowledgement to its dispatch
(R375). -/
def State.podHolds (s : State) (core : Nat) (x : Launch) : List Nat :=
  (s.launches.filter fun p =>
    p.2.pod && p.2.serial ≠ x.serial && !p.2.done && p.2.acked.contains s.chip && p.2.placement.contains core &&
      (Tab.find p.2.waiting (p.2.firstWg + p.2.placement.idxOf core)).isSome).map fun p => p.2.reserves
/-- A core holds a workgroup of the launch: it never takes a second (R18). -/
def State.hasOther (s : State) (core : Nat) (x : Launch) : Bool :=
  s.wgs.any fun p => p.2.place.map Prod.fst = some core && ((s.launchOf p.2).map (·.serial)) = some x.serial
/-- A core has a slot and the space for a workgroup of a launch. -/
def State.hasRoom (s : State) (core slot : Nat) (x : Launch) : Bool :=
  let holds := s.podHolds core x
  let free := ((List.range 4).filter fun k => (s.resident core k).isNone).length
  slot < 4 && s.corePresent core && (s.resident core slot).isNone && decide (holds.length < free) && !s.hasOther core x &&
    decide (s.reserved core + holds.foldl (· + ·) 0 + x.reserves ≤ 8192)
/-- Rank in the ready pool: aged, deadline, then the oldest (R22). -/
def State.poolRank (s : State) (aged : Bool) (slice : Word) (dladj age key : Nat) : List Nat :=
  [if aged then 0 else 1, s.deadlineOf slice dladj, age, key]
/-- A node of a launch is aged. -/
def State.launchAged (s : State) (x : Launch) : Bool := x.aged || ((x.node.bind s.tcb).map (·.aged)).getD false
/-- The pool may dispatch new workgroups of a launch now; those that a drained launch has waiting are relaunched ones (R261, R263, R280,
R299). -/
def State.mayPlace (s : State) (x : Launch) : Bool :=
  x.started && x.cancel ≠ some 1 && !s.sliceStopped x.slice && !s.underCap x.tenant
/-- Work of a best-effort slice, which takes only space that no admitted workgroup waits for, whatever its age (R258). -/
def State.afterAdmitted (s : State) (slice : Word) : Nat := if ((s.slice slice).map (·.be)).getD false then 1 else 0
/-- A launch's rank. -/
def State.launchRank (s : State) (l : Nat) (x : Launch) : List Nat :=
  s.afterAdmitted x.slice :: s.poolRank (s.launchAged x) x.slice x.dladj x.order l
/-- A saved workgroup's rank. -/
def State.savedRank (s : State) (w : Nat) (g : Workgroup) : List Nat :=
  match s.launchOf g with
  | some x => s.afterAdmitted x.slice :: s.poolRank g.aged x.slice x.dladj x.order w
  | none => [2, 0, 0, w]
/-- The entries that a core's range-lock table has free. -/
def State.lockRoom (s : State) (core : Nat) : Nat := (s.freeLocks core).length
/-- The engine slots of a core that a copy may take. -/
def State.engineSlots (s : State) (core : Nat) : Nat :=
  match Tab.find s.cores core with
  | some c => (List.range 64).countP (s.slotFree c)
  | none => 64
/-- A saved workgroup could be dispatched to a slot of a core: its locks find entries there, and its copies that have not ended engine
slots (R209, R304); places of the matrix queue it needs none (log 121). -/
def State.savedFits (s : State) (core slot : Nat) (w : Nat) (g : Workgroup) : Bool :=
  match s.launchOf g with
  | some x => g.place.isNone && !s.sliceStopped x.slice && s.hasRoom core slot x && decide (g.savedLocks.length ≤ s.lockRoom core) &&
      decide ((s.copies.countP fun p => p.2.wg = some w && p.2.state < 3 && p.2.core ≠ core) ≤ s.engineSlots core)
  | none => false
/-- No other workgroup that waits for this space comes first. -/
def State.firstForSpace (s : State) (core slot : Nat) (rank : List Nat) : Bool :=
  (s.launches.all fun p =>
    let w := p.2.firstWg + p.2.placement.idxOf core
    !(s.mayPlace p.2 && (Tab.find p.2.waiting w).isSome && s.hasRoom core slot p.2 && rankLt (s.launchRank p.1 p.2) rank)) &&
  s.wgs.all fun p => !(s.savedFits core slot p.1 p.2 && rankLt (s.savedRank p.1 p.2) rank)
/-- Dispatches the workgroup of a launch to its core: its first dispatch, or afresh after an uncorrectable error (R18, R153,
R270, R299). -/
def State.placeWg (s : State) (l : Nat) (x : Launch) (core slot : Nat) : State :=
  let wgid := x.firstWg + x.placement.idxOf core
  match Tab.find x.waiting wgid with
  | none => s
  | some relaunches =>
    if s.mayPlace x && s.hasRoom core slot x && s.firstForSpace core slot (s.launchRank l x) then
      let c := Tab.at s.cores core freshCore
      let serial := Tab.at c.serials slot 0 + 1
      let w := s.serialNo
      let g := { freshWg x l wgid serial core slot s.ptb with relaunches := relaunches }
      let s := { s with
        serialNo := w + 1, wgs := Tab.put s.wgs w g
        cores := Tab.put s.cores core { c with slots := Tab.put c.slots slot w, serials := Tab.put c.serials slot serial } }
      s.updLaunch l fun x => { x with waiting := Tab.del x.waiting wgid }
    else s

/-! ### Dispatch of nodes (R264, R301, R302, R423) -/

/-- Declared ranges of an image: first page, pages, written (Table 13.7). -/
def Tcb.ranges (t : Tcb) : List (Nat × Nat × Bool) :=
  (List.range (recAt t.image 3 1)).map fun i =>
    let r := recAt t.image (0x50 + 8 * i) 8
    (bitsOf r 44 0, bitsOf r 63 48, bitOf r 45)
/-- The graph that a node belongs to: a spawned one to its launch's (R282), which is that of the launch's own node, or the launch's own
where that has none. The first argument bounds the depth. -/
def State.graphOf (s : State) : Nat → Tcb → Option Level
  | 0, _ => none
  | k + 1, t =>
    match t.graph, t.spawner with
    | some i, _ => some (.graph i)
    | none, some l =>
      match ((s.launch l).bind (·.node)).bind s.tcb with
      | some u => if u.graph.isNone && u.spawner.isNone then some (.launch l) else State.graphOf s k u
      | none => some (.launch l)
    | none, none => if t.startedLaunch then t.work.map .launch else none
/-- A node is held by the written ranges of a running node of its graph (R301). -/
def State.rangeHeld (s : State) (n : Nat) (t : Tcb) : Bool :=
  let g := s.graphOf s.depth t
  g.isSome && s.tcbs.any fun p => p.1 ≠ n && p.2.state = 3 && s.graphOf s.depth p.2 = g &&
    p.2.ranges.any fun r => r.2.2 && t.ranges.any fun q => decide (q.1 < r.1 + r.2.1) && decide (r.1 < q.1 + q.2.1)
/-- A node that makes a pod launch is held by an earlier one of its queue that has not been announced (R376). -/
def State.podHeld (s : State) (t : Tcb) : Bool :=
  (s.podQueue t).isSome && s.tcbs.any fun p => p.2.state = 2 && decide (p.2.order < t.order) && s.podQueue p.2 == s.podQueue t
/-- A ready node that nothing holds. -/
def State.nodeFree (s : State) (n : Nat) (t : Tcb) : Bool := t.state = 2 && !s.sliceStopped t.slice && !s.rangeHeld n t && !s.podHeld t
/-- Rank of a node. -/
def State.nodeRank (s : State) (n : Nat) (t : Tcb) : List Nat := s.poolRank t.aged t.slice (recAt t.image 8 8) t.since n
/-- Address of a node's body. -/
def Tcb.body (t : Tcb) : Word := recWord t.image 0x10
/-- The channel from the hub to a service core takes a message now. -/
def State.hubRoom (s : State) (j : Nat) : Bool :=
  s.servicePresent j && decide ((s.channel 47 j).length < 8) && !s.heldMsgs.any fun h => h.1 = 47 && h.2.1 = j
/-- The engine of a core takes a copy of the pool now. -/
def State.engineRoom (s : State) (core : Nat) : Bool :=
  s.corePresent core && ((Tab.find s.cores core).isNone || (s.engineSlot core).isSome) && decide (2 ≤ s.lockRoom core) && s.coreQuiet core
/-- Some engine suitable for a node could take it now (R264). -/
def State.nodeCan (s : State) (t : Tcb) : Bool :=
  t.bad || match recAt t.image 0 1 with
    | 1 => (t.work.isSome || s.freeLaunch.isSome) && (!t.makesPod || s.podSettled)
    | 2 => s.presentCores.any s.engineRoom
    | 3 =>
      let arg := recAt t.image 0x18 8
      if arg = 63 then s.shard0.isNone || (List.range 40).any s.hubRoom else !s.servicePresent arg || s.hubRoom arg
    | _ => match s.xlateNow (tenantCtx t.pasid) 2 t.body with
      | .ok (k, _) => !s.busyOn (k / 128)
      | .error _ => true
/-- A launch has workgroups that wait only for space that they could use. -/
def State.launchWaits (s : State) (x : Launch) : Bool := s.mayPlace x && !x.waiting.isEmpty
/-- What waits in the ready pool for what it could not yet use begins its 4,096 cycles anew: a saved workgroup of a stopped slice, a node that
is held, a launch that may not be dispatched (R22). -/
def State.tendPool (s : State) : State :=
  { s with
    wgs := s.wgs.map fun p =>
      if p.2.place.isNone && ((s.launchOf p.2).map fun x => s.sliceStopped x.slice).getD false then (p.1, { p.2 with since := s.ptb }) else p
    tcbs := s.tcbs.map fun p => if s.nodeFree p.1 p.2 then p else (p.1, { p.2 with freeAt := s.ptb })
    launches := s.launches.map fun p => if s.launchWaits p.2 then p else (p.1, { p.2 with freeAt := s.ptb }) }
/-- No other ready node that could be dispatched comes first (R22, R264). -/
def State.nodeFirst (s : State) (n : Nat) (t : Tcb) : Bool :=
  s.tcbs.all fun p => !(s.nodeFree p.1 p.2 && rankLt (s.nodeRank p.1 p.2) (s.nodeRank n t) && s.nodeCan p.2)
/-- A store of n bytes for a slice is charged for each line of it that another chip holds (R260, Table 11.9). -/
def State.chargeStore (s : State) (h : Word) (c : Ctx) (va : Word) (n : Nat) : State :=
  match s.partKeys c va n with
  | .ok ks => s.charge h (((ks.filter s.remote).map (· / 128)).eraseDups.length)
  | .error _ => s
/-- An atomic add with release at system scope to a signal, for a source: the fault of the access, none where it waits at the home behind
a strong store, or the state after it (R245, R301, R419). -/
def State.signalAdd (s : State) (src : Source) (slice : Word) (pasid : Nat) (va : Word) (x : Word) : Except (Nat × Word) (Option State) :=
  match s.xlateNow (tenantCtx pasid) 2 va with
  | .error f => .error (f, va)
  | .ok (k, _) =>
    if s.poisoned k then .error (0x13, va)
    else if s.busyOn (k / 128) then .ok none
    else
      let u := s.write src (some 5) k (leBytes 8 (BitVec.ofNat 64 (leNat (s.homeRead k 8)) + x).toNat)
      .ok (some (if s.remote k then u.charge slice 1 else u))
/-- Dispatches a launch node (R292, R423). -/
def State.startLaunchNode (s : State) (n : Nat) (t : Tcb) : State :=
  if t.makesPod && !s.podSettled then s
  else match t.work with
  | some l =>
    if ((s.launch l).bind (·.cancel)).isSome then s
    else
      let s := s.updTcb n fun t => { t with state := 3 }
      if ((s.launch l).map (·.pod)).getD false then s.announce l else s.launchStart l
  | none =>
    match s.partRead (tenantCtx t.pasid) t.body 384 with
    | .error e => s.endNode n 4 e.1
    | .ok r =>
      let pod := t.makesPod
      match s.takeLaunch r t.slice t.tenant t.pasid (recAt t.image 8 8) (some n) pod with
      | none => s
      | some (l, s) =>
        let s := s.updTcb n fun t => { t with state := 3, work := some l }
        let s := if t.graph.isSome || t.spawner.isSome then s.outUp t.slice else s
        if pod then s.announce l else s.launchStart l
/-- Dispatches a copy node or packet to the engine of a core (R245, R301, R423). -/
def State.startCopyNode (s : State) (n core : Nat) (t : Tcb) : State :=
  let desc : Except (Nat × Word) (List Byte) :=
    if t.packet then .ok ((t.image.drop 128).take 64) else s.partRead (tenantCtx t.pasid) t.body 64
  match desc with
  | .error e => s.endNode n 4 e.1
  | .ok r =>
    if !s.corePresent core then s
    else if s.copyReason none (copyCtx core t.pasid) (copyDesc r) ≠ 0 then s.endNode n 4 0x0E
    else
      let s := if (Tab.find s.cores core).isNone then { s with cores := Tab.put s.cores core freshCore } else s
      match s.engineSlot core with
      | none => s
      | some slot =>
        if 2 ≤ s.lockRoom core && s.coreQuiet core then
          let q := s.queueCopy core core slot none (some n) r t.pasid t.slice 0
          q.1.updTcb n fun t => { t with state := 3, work := some q.2 }
        else s
/-- Delivers the message of a service node; `ARG` 63 lets the pool choose the core (R301, R423). -/
def State.startServiceNode (s : State) (n core : Nat) (t : Tcb) : State :=
  match s.partRead (tenantCtx t.pasid) t.body 64 with
  | .error e => s.endNode n 4 e.1
  | .ok m =>
    let arg := recAt t.image 0x18 8
    let target := if arg = 63 then core else arg
    if (arg = 63 && s.shard0.isNone) || (arg ≠ 63 && !s.servicePresent arg) then s.endNode n 4 1
    else if s.hubRoom target then
      (s.send 47 target (m ++ leBytes 8 t.slice.toNat)).endNode n 0 0
    else s
/-- A host-signal node has performed: its add stands in memory and PTB has reached its WCT (R191, R423). -/
def State.signalNodeOver (s : State) (n : Nat) : State :=
  match s.tcb n with
  | some t => if t.wrote ≤ s.ptb && !s.owes (.node n) then s.endNode n 0 0 else s
  | none => s
/-- Begins the add of a host-signal node (R301, R423). -/
def State.startSignalNode (s : State) (n : Nat) (t : Tcb) : State :=
  match s.signalAdd (.node n) t.slice t.pasid t.body (recWord t.image 0x18) with
  | .error e => s.endNode n 4 e.1
  | .ok none => s
  | .ok (some s) => (s.updTcb n fun t => { t with state := 3 }).signalNodeOver n
/-- The pool dispatches a ready node to an engine, or one workgroup of a running launch to its core (R264). A number from 65,536 to
131,071 names the launch with that index less 65,536: one that entered from another chip, with no node here (R375). -/
def execReadyPoolDispatch (n core slot : Nat) (s : State) : Host.Outcome State Fault Refusal :=
  if 65536 ≤ n then
    match s.launch (n - 65536) with
    | some x => .next (s.placeWg (n - 65536) x core slot)
    | none => .next s
  else
    match s.tcb n with
    | none => .next s
    | some t =>
      if t.state = 3 && recAt t.image 0 1 = 1 then
        match t.work with
        | some l => match s.launch l with
          | some x => .next (s.placeWg l x core slot)
          | none => .next s
        | none => .next s
      else if s.nodeFree n t && s.nodeFirst n t then
        if t.bad then .next (s.endNode n 4 1)
        else
          match recAt t.image 0 1 with
          | 1 => .next (s.startLaunchNode n t)
          | 2 => .next (s.startCopyNode n core t)
          | 3 => .next (s.startServiceNode n core t)
          | _ => .next (s.startSignalNode n t)
      else .next s

/-! ### Ends (R18, R191, R320, R377, R423) -/

/-- A copy has ended, none of its boxes is in flight, and PTB has reached the WCT of all that it wrote (R187, R191). -/
def State.copyOver (s : State) (k : Nat) (c : Copy) : Bool :=
  decide (3 ≤ c.state) && c.boxBusy.isEmpty && decide (c.wrote ≤ s.ptb) && !s.reqs.any fun r => match r.source with
    | .box j _ => j = k
    | _ => false
/-- Every gang and every copy and matrix operation of a workgroup has ended, and what its threads wrote is visible as its
completion token promises, on a pod launch at pod scope (R18, R183, R191, R377). -/
def State.wgFinished (s : State) (w : Nat) (g : Workgroup) : Bool :=
  let scope := if ((s.launchOf g).map (·.pod)).getD false then 4 else 3
  (g.gangs.all fun p => p.2.ended && (List.range 32).all fun l => s.released (.gang w p.1) scope l) &&
    (s.copies.all fun p => p.2.wg ≠ some w || s.copyOver p.1 p.2) && s.ops.all fun p => p.2.wg ≠ w
/-- A workgroup ends (R18). -/
def execWorkgroupEnd (w : Nat) (s : State) : Host.Outcome State Fault Refusal :=
  match s.wg w with
  | some g => .next (if s.wgFinished w g then s.wgOver w else s)
  | none => .next s
/-- Granules of a launch that are not done, of a pod launch as its root's sheet has them, which is wired, and the state (R320, R340, R377). -/
def State.shortOf (s : State) (x : Launch) : Nat × State :=
  if x.pod && x.root = s.chip then
    match s.sheet x x.granules with
    | .ok vs => (x.granules - vs.count 2, s)
    | .error e => (x.granules, s.wiredFault x.tenant e)
  else (x.short, s)
/-- Writes the status word of a launch and frees its entry and the ended entries of the nodes it spawned; chips that wait for it are answered
(R303, R320, R377). -/
def State.completeLaunch (s : State) (l : Nat) (x : Launch) : State :=
  let kind := if x.failCode ≠ 0 then 4 else if x.cancel.isSome then 3 else 0
  let code := if x.failCode ≠ 0 then x.failCode else if x.cancel.isSome then 0x15 else 0
  let word := BitVec.ofNat 64 (kind * 2 ^ 56 + code * 2 ^ 48 + (s.shortOf x).1 % 2 ^ 32)
  let s := (s.shortOf x).2
  let h := tableHandle x.serial l 1
  let s := s.updLaunch l fun x => { x with done := true, statusWord := word, completed := s.serialNo }
  let s := (s.waiters.filter fun q => q.1 == h).foldl (fun s q => s.podReply x.slice q.2.1 q.2.2 [word]) s
  { s with serialNo := s.serialNo + 1, tcbs := s.tcbs.filter (fun p => p.2.spawner ≠ some l), waiters := s.waiters.filter fun q => q.1 != h }
/-- Every workgroup of a launch has ended and every node it spawned, and what they wrote, its exit words among it, is visible (R191, R320); on a pod launch every chip of the range has reported
or is lost (R377, R379), and a member's chip reports to its root. -/
def execLaunchComplete (l : Nat) (s : State) : Host.Outcome State Fault Refusal :=
  match s.launch l with
  | none => .next s
  | some x =>
    if x.done || !(x.started || x.cancel.isSome) || x.wglive ≠ 0 || x.spawned ≠ 0 || s.ptb < x.wrote || s.owes (.launch l) then .next s
    else if x.pod && x.root ≠ s.chip then
      .next ((s.treeSend x.slice 6 x.rootLaunch [x.root] []).completeLaunch l x)
    else if x.pod && x.gone && !(x.range.all fun c => c = s.chip || x.reported.contains c || x.lost.contains c) then .next s
    else .next (s.completeLaunch l x)
/-- The kind and code of a status word (Table 12.6). -/
def wordEnd (w : Word) : Nat × Nat := (bitsOf w.toNat 63 56, bitsOf w.toNat 55 48)
/-- A dispatched node whose work has ended ends with that end (R423). -/
def execNodeEnd (n : Nat) (s : State) : Host.Outcome State Fault Refusal :=
  match s.tcb n with
  | none => .next s
  | some t =>
    if t.state ≠ 2 && t.state ≠ 3 then .next s
    else match t.work with
      | none => .next (if t.state = 3 && recAt t.image 0 1 = 4 then s.signalNodeOver n else s)
      | some j =>
        if recAt t.image 0 1 = 1 then
          match s.launch j with
          | some x => .next (if x.done then s.endNode n (wordEnd x.statusWord).1 (wordEnd x.statusWord).2 else s)
          | none => .next s
        else
          match Tab.find s.copies j with
          | some c =>
            if !s.copyOver j c then .next s
            else
              let s := { s with copies := Tab.put s.copies j { c with endRead := true } }
              .next (match c.state with
                | 3 => s.endNode n 0 0
                | 4 => s.endNode n 4 c.code
                | _ => if c.code = 0x15 then s.endNode n 3 0x15 else s.endNode n 4 c.code)
          | none => .next s

end Sys2Proof.Machine
end

