-- ==== Sys2Proof/Machine/Work.lean ====
section
/-! DEFINITION. The WORK major and `spawn` (R278 to R282, R300, R302). -/

namespace Sys2Proof.Machine

/-! ### Records and images read at the fault point (R278, R279) -/

/-- 64 bytes of a record at an address: as the issuing threads load them, or on a service or command-complex core under a PASID.
An error is a fault code, or none where the issue must wait. -/
def State.recordChunk (s : State) (pasid : Nat) (va : Word) : Except (Option Nat) (List Byte) :=
  match s.cur with
  | .gang .. =>
    match s.check s.cur 0 64 va with
    | .fault f => .error (some f)
    | .miss => .error none
    | .ok l =>
      let x : Acc := ⟨32, s.mask, va, l⟩
      if s.held? x 64 then .error none
      else if s.accPoisoned x then .error (some 0x13) else .ok (s.readNow x 64)
  | .core i =>
    if va.toNat % 64 ≠ 0 then .error (some 4)
    else if !canonical va || inThreadAp va.toNat then .error (some 8)
    else if inServiceAp va.toNat then
      match (if i < 40 then s.serviceWindow (some i) va.toNat else none) with
      | some l => .ok (s.locRead l 64)
      | none => .error (some 8)
    else match s.partRead { s.ctxOf s.cur with pasid := pasid } va 64 with
      | .ok bs => .ok bs
      | .error e => .error (some e.1)
/-- What reading 64 bytes of a record leaves: the horizon of the issuing threads takes their stamp (R178). -/
def State.chunkSeen (s : State) (va : Word) : State :=
  match s.cur, s.check s.cur 0 64 va with
  | .gang .., .ok l => s.readSeen ⟨32, s.mask, va, l⟩ 64
  | _, _ => s
/-- The chunks of a record in turn: its bytes, or the first error with its address. -/
def State.recordChunks (s : State) (pasid : Nat) : List Word → Except (Option Nat × Word) (List Byte)
  | [] => .ok []
  | a :: t =>
    match s.recordChunk pasid a with
    | .error e => .error (e, a)
    | .ok bs => match State.recordChunks s pasid t with
      | .error e => .error e
      | .ok cs => .ok (bs ++ cs)
/-- Runs an instruction on the n 64-byte chunks of a record whose address is to be a multiple of `align`. -/
def State.onRecord (s : State) (pasid align n : Nat) (va : Word) (body : State → List Byte → State) : State :=
  if va.toNat % align ≠ 0 then s.raiseAll (addrTrap 4 va s.curPc)
  else
    let chunks := (List.range n).map fun i => va + BitVec.ofNat 64 (64 * i)
    match s.recordChunks pasid chunks with
    | .ok bs => body (chunks.foldl State.chunkSeen s) bs
    | .error (some f, a) => s.raiseAll (addrTrap f a s.curPc)
    | .error (none, a) =>
      match s.check s.cur 0 64 a with
      | .miss => (s.waitRetry s.mask).startWalks s.cur 0 ((lanesOf s.mask).map fun l => (l, a))
      | _ => s.waitRetry s.mask
/-- The slice whose work new work joins, with its tenant and PASID: on a compute core the gang's own; elsewhere the one with a
handle. -/
def State.workSlice (s : State) (h : Word) : Option (Word × Nat × Nat) :=
  match s.launchAt s.cur with
  | some x => some (x.slice, x.tenant, x.pasid)
  | none => match s.cur with
    | .gang .. => none
    | .core _ => (s.slice h).map fun y => (h, y.tenant, ((s.tenant y.tenant).map (·.pasid)).getD 0)

/-- Enters a launch: its node, its entry and its handle (R278, R279, R292, R320). A pod launch's node is dispatched by its
announce (R375). -/
def State.enterLaunch (s : State) (d : BitVec 6) (l : BitVec 4) (pod : Bool) (v : Word × Nat × Nat) (r : List Byte) : State :=
  match s.freeNode with
  | none => s.setUni d.toNat 0xFFFFFFFFFFFFFFFE l.toNat
  | some n =>
    match s.takeLaunch r v.1 v.2.1 v.2.2 0 (some n) pod with
    | none => s.waitRetry s.mask
    | some (i, s) =>
      let image := mkRecord 128 [(0, 1, 1), (1, 1, if pod then 1 else 0)]
      let t := { newTcb image v.1 v.2.1 v.2.2 s.ptb with work := some i, order := s.serialNo }
      let s := ({ s with tcbs := Tab.put s.tcbs n t, serialNo := s.serialNo + 1 } : State).outUp v.1
      s.setUni d.toNat (tableHandle (((s.launch i).map (·.serial)).getD 0) i 1) l.toNat
/-- `launch` and `launchp`; an sb field other than 0 on a compute core is an encoding of nothing, and no register is looked at (R92, R278). -/
def State.launchFrom (s : State) (d a b : BitVec 6) (l : BitVec 4) (pod : Bool) : Host.Outcome State Fault Refusal :=
  let gang := match s.cur with
    | .gang .. => true
    | .core _ => false
  if gang && b ≠ 0#6 then s.issue (.regs [] []) fun s => s.raiseAll (s.wordTrap 1 s.curPc)
  else s.issue { Use.regs [] [d.toNat, a.toNat, b.toNat] with mem := true } fun s =>
    s.uniGuard d.toNat fun s =>
      match s.workSlice (s.uni b.toNat) with
      | none => s.setUni d.toNat ones l.toNat
      | some v => s.onRecord v.2.2 64 6 (s.uni a.toNat) fun s r =>
          s.afterRelease (if pod then 4 else 3) fun s => s.enterLaunch d l pod v r
/-- `launch` (R278, R279). -/
def execLaunch (d a b : BitVec 6) (l : BitVec 4) (s : State) : Host.Outcome State Fault Refusal := s.launchFrom d a b l false
/-- `launchp` (R278, R279, R375). -/
def execLaunchp (d a b : BitVec 6) (l : BitVec 4) (s : State) : Host.Outcome State Fault Refusal := s.launchFrom d a b l true

/-! ### Graphs (R300, Table 13.7) -/

/-- Body of a node: within its alignment, and no aperture address. -/
def bodyOk (r : List Byte) : Bool :=
  let b := recAt r 0x10 8
  let k := recAt r 0 1
  decide (1 ≤ k) && decide (k ≤ 4) && b % (if k = 4 then 8 else 64) = 0 && !inThreadAp b && !inServiceAp b
/-- The limits of Table 13.7 on one image of a graph of N nodes, `PRED` apart. -/
def imageOk (n : Nat) (r : List Byte) : Bool :=
  let ovf := recAt r 0x40 8
  let arg := recAt r 0x18 8
  bodyOk r && recAt r 1 1 = 0 && decide (recAt r 2 1 ≤ 8) && decide (recAt r 3 1 ≤ 4) &&
    (if recAt r 0 1 = 3 then decide (arg < 64) else recAt r 0 1 = 4 || arg = 0) &&
    ((List.range 8).all fun i => let x := recAt r (0x20 + 4 * i) 4
      if i < recAt r 2 1 then decide (x < n) else x = 0) &&
    ovf % 4 = 0 && !inThreadAp ovf && !inServiceAp ovf && decide (recAt r 0x48 4 ≤ 65535) && (ovf ≠ 0 || recAt r 0x48 4 = 0) &&
    recAt r 0x4C 4 = 0 &&
    ((List.range 4).all fun i => let x := recAt r (0x50 + 8 * i) 8
      if i < recAt r 3 1 then bitsOf x 63 48 ≠ 0 && bitsOf x 47 46 = 0 else x = 0) &&
    recAt r 0x70 16 = 0
/-- The images of a graph. -/
def images : Nat → List Byte → List (List Byte)
  | 0, _ => []
  | n + 1, r => r.take 128 :: images n (r.drop 128)
/-- Each image with its further successors behind it, read under a PASID; none where one cannot be read (log 22). -/
def State.withOverflow (s : State) (pasid : Nat) : List (List Byte) → Option (List (List Byte))
  | [] => some []
  | r :: rs =>
    match s.partRead (tenantCtx pasid) (recWord r 0x40) (4 * recAt r 0x48 4), State.withOverflow s pasid rs with
    | .ok bs, some t => some ((r ++ bs) :: t)
    | _, _ => none
/-- Successors of an image as the graph numbers them. -/
def succsOf (r : List Byte) : List Nat :=
  ((List.range (recAt r 2 1)).map fun i => recAt r (0x20 + 4 * i) 4) ++
    (List.range (recAt r 0x48 4)).map fun i => recAt r (128 + 4 * i) 4
/-- The images of a graph pass the checks of R300, each `PRED` equal to the node's in-edges. -/
def graphOk (rs : List (List Byte)) : Bool :=
  let edges := rs.flatMap succsOf
  rs.all (imageOk rs.length) && edges.all (fun m => decide (m < rs.length)) &&
    (List.range rs.length).all fun i => recAt (rs.getD i []) 4 4 = edges.count i
/-- A graph's entry: with its nodes in the store from a base, or failed at submission (R300, R321). -/
def State.enterGraph (s : State) (i n : Nat) (v : Word × Nat × Nat) (nodes : Option (Nat × List (List Byte))) : State :=
  let serial := s.serialNo
  let g : Graph := { n := n, nended := 0, ndone := 0, base := 0, serial := serial, slice := v.1, tenant := v.2.1, done := false
                     kind := 0, code := 0, completed := 0, packet := false }
  let s := { s with serialNo := serial + 1 }
  match nodes with
  | none =>
    ({ s with graphs := Tab.put s.graphs i { g with done := true, kind := 4, code := 1, completed := serial } }).workOver v.1 false 4 1
  | some (base, rs) =>
    let fill := fun (acc : Tab Tcb × Nat) (r : List Byte) =>
      let pred := recAt r 4 4
      let t := { newTcb r v.1 v.2.1 v.2.2 s.ptb with
        state := if pred = 0 then 2 else 1, pred := pred, graph := some i, base := base }
      (Tab.put acc.1 (base + acc.2) t, acc.2 + 1)
    ({ s with graphs := Tab.put s.graphs i { g with base := base }, tcbs := (rs.foldl fill (s.tcbs, 0)).1 }).outUp v.1
/-- What submission of a graph answers: its checks fail, there is no room, or its index and the state. -/
inductive Submitted where
  | fails
  | full
  | done (i : Nat) (s : State)
  deriving DecidableEq, Repr
/-- Submits the images of a graph (R300, R321). -/
def State.submit (s : State) (v : Word × Nat × Nat) (n : Nat) (r : List Byte) : Submitted :=
  match s.withOverflow v.2.2 (images n r) with
  | none => .fails
  | some rs =>
    if !graphOk rs then .fails
    else match freeRun s.ptb 65536 n s.tcbs, s.freeGraph with
      | some base, some i => .done i (s.enterGraph i n v (some (base, rs)))
      | _, _ => .full
/-- Writes the handle of a graph. -/
def State.graphHandle (s : State) (d : BitVec 6) (l : BitVec 4) (i : Nat) : State :=
  s.setUni d.toNat (tableHandle (((Tab.find s.graphs i).map (·.serial)).getD 0) i 2) l.toNat
/-- A graph that fails at submission. -/
def State.failGraph (s : State) (d : BitVec 6) (l : BitVec 4) (v : Word × Nat × Nat) (n : Nat) : State :=
  match s.freeGraph with
  | none => s.setUni d.toNat 0xFFFFFFFFFFFFFFFE l.toNat
  | some i => (s.enterGraph i n v none).graphHandle d l i
/-- `graphsub` (R278, R279, R300): a count outside 1 to 65,535 fails as a check does. -/
def execGraphsub (d a b : BitVec 6) (l : BitVec 4) (s : State) : Host.Outcome State Fault Refusal :=
  s.issue { Use.regs [] [d.toNat, a.toNat, b.toNat] with mem := true } fun s =>
    s.uniGuard d.toNat fun s =>
      match s.workSlice (s.sliceOf s.cur) with
      | none => s.setUni d.toNat ones l.toNat
      | some v =>
        let n := (s.uni b.toNat).toNat
        if n = 0 || 65535 < n then s.failGraph d l v n
        else s.onRecord v.2.2 128 (2 * n) (s.uni a.toNat) fun s r =>
          s.afterRelease 3 fun s =>
            match s.submit v n r with
            | .fails => s.failGraph d l v n
            | .full => s.setUni d.toNat 0xFFFFFFFFFFFFFFFE l.toNat
            | .done i s => s.graphHandle d l i

/-! ### `cancel` and `waitdone` (R280, R281) -/

/-- Cancels a level in a mode, 0 drain or 1 kill. -/
def State.cancelLevel (s : State) (mode : Nat) : Level → State
  | .launch l => s.cancelLaunch l mode
  | .graph i => s.cancelGraph i mode
  | .slice h => s.stopSlice h mode 3 0x15
/-- A launch of another root, whose root cancels it and knows its end (R377, R380). -/
def State.awayOf (s : State) : Level → Option Launch
  | .launch l => (s.launch l).bind fun x => if s.schedAway x then some x else none
  | _ => none
/-- A level has completed. -/
def State.levelDone (s : State) : Level → Bool
  | .launch l => ((s.launch l).map (·.done)).getD true
  | .graph i => ((Tab.find s.graphs i).map (·.done)).getD true
  | .slice h => (s.slice h).isNone
/-- `cancel`: the destination is written before a kill that may reach the issuing gang itself; of a launch of another root, that root is
asked (R380; log 31). -/
def State.cancelBy (s : State) (d a : BitVec 6) (l : BitVec 4) (mode : Nat) : Host.Outcome State Fault Refusal :=
  s.issue (.regs [] [d.toNat, a.toNat]) fun s =>
    s.uniGuard d.toNat fun s =>
      match s.level (s.uni a.toNat) with
      | none => s.setUni d.toNat ones l.toNat
      | some v =>
        match s.awayOf v with
        | some x => s.askWord x 18 (leBytes 1 mode) d.toNat l.toNat
        | none => if s.levelDone v then s.setUni d.toNat 1 l.toNat else (s.setUni d.toNat 0 l.toNat).cancelLevel mode v
/-- `cancel.drain` (R280). -/
def execCancelDrain (d a : BitVec 6) (l : BitVec 4) (s : State) : Host.Outcome State Fault Refusal := s.cancelBy d a l 0
/-- `cancel.kill` (R280). -/
def execCancelKill (d a : BitVec 6) (l : BitVec 4) (s : State) : Host.Outcome State Fault Refusal := s.cancelBy d a l 1
/-- The launches and graphs that contain the work of a launch, itself first; the first argument bounds the depth (R281). -/
def State.containers : Nat → State → Nat → List Level
  | 0, _, _ => []
  | k + 1, s, l =>
    .launch l :: match ((s.launch l).bind (·.node)).bind s.tcb with
      | some t => match t.graph, t.spawner with
        | some i, _ => [.graph i]
        | none, some m => State.containers k s m
        | none, none => []
      | none => []
/-- A level contains the issuing gang. -/
def State.containsSelf (s : State) (v : Level) : Bool :=
  match s.ownLaunch with
  | some l => (State.containers s.depth s l).contains v || v == .slice (s.sliceOf s.cur)
  | none => false
/-- The status word of a completed launch or graph (Table 12.6). -/
def State.statusOf (s : State) : Level → Word
  | .launch l => ((s.launch l).map (·.statusWord)).getD 0
  | .graph i => match Tab.find s.graphs i with
    | some g => BitVec.ofNat 64 (g.kind * 2 ^ 56 + g.code * 2 ^ 48 + (g.n - g.ndone))
    | none => 0
  | .slice _ => 0
/-- The other chips that may know a launch handle that names nothing here (R377). -/
def State.askedOf (s : State) (h : Word) : List Nat :=
  if bitsOf h.toNat 5 0 = 1 && s.podUp then s.podChips.filter (· ≠ s.chip) else []
/-- Asks chips for the status word of a launch, for an agent of a tenant or of none (R377; log 31). -/
def State.askStatus (s : State) (h : Word) (chips : List Nat) (d la : Nat) : State :=
  let who := match s.agentTenant s.cur with
    | some t => leBytes 1 1 ++ leBytes 1 t
    | none => leBytes 2 0
  s.await (fun s => s.askFor s.cur s.mask s.curPc (s.sliceOf s.cur) 17 h.toNat 0 chips who (.status chips.length)) fun s ws =>
    s.setUni d (ws.headD ones) la
/-- `waitdone` (R281), on a launch of another chip by its handle as well (R377). A wait for a slice ends with the slice. -/
def execWaitdone (d a : BitVec 6) (l : BitVec 4) (s : State) : Host.Outcome State Fault Refusal :=
  s.issue (.regs [] [d.toNat, a.toNat]) fun s =>
    s.uniGuard d.toNat fun s =>
      let h := s.uni a.toNat
      match s.level h with
      | none =>
        if (s.askedOf h).isEmpty && s.askOf.isNone then s.setUni d.toNat ones l.toNat else s.askStatus h (s.askedOf h) d.toNat l.toNat
      | some v =>
        if s.containsSelf v then s.setUni d.toNat 0xFFFFFFFFFFFFFFFE l.toNat
        else match s.awayOf v with
        | some x => s.askStatus h [x.root] d.toNat l.toNat
        | none => if s.levelDone v then s.setUni d.toNat (s.statusOf v) l.toNat
        else match v with
          | .slice h => s.updGang s.cur fun g =>
              g.each s.mask fun g k => g.setStat k (.sliceWait h (d.toNat + 64 * l.toNat) s.serialNo)
          | _ => s.waitRetry s.mask

/-! ### `spawn` (R282, R302) -/

/-- The node that an offered image becomes. -/
def spawnTcb (r : List Byte) (l : Nat) (x : Launch) (now : Nat) : Tcb :=
  { newTcb r x.slice x.tenant x.pasid now with spawner := some l, bad := !bodyOk r }
/-- Reserves entries for the offers, lowest lane first, and answers each lane (R282). -/
def State.spawnAll (s : State) (d : BitVec 6) (gn : BitVec 3) (la i : Nat) (x : Launch) (offers : List (Nat × List Byte))
    (idle : LaneMask) : State :=
  let es := freeKeys 65536 offers.length s.tcbs
  let pairs : List ((Nat × List Byte) × Nat) := (offers.take es.length).zip es
  let s : State := { s with tcbs := pairs.foldl (fun (t : Tab Tcb) (p : (Nat × List Byte) × Nat) => Tab.put t p.2 (spawnTcb p.1.2 i x s.ptb)) s.tcbs }
  let s := s.updLaunch i fun x => { x with spawned := x.spawned + pairs.length }
  let lanes := maskOf (offers.map Prod.fst)
  s.updGang s.cur fun g =>
    let g := pairs.foldl (fun (g : Gang) (p : (Nat × List Byte) × Nat) => g.setV p.1.1 d.toNat (BitVec.ofNat 64 p.2)) g
    let g := (offers.drop es.length).foldl (fun (g : Gang) (p : Nat × List Byte) => (g.setV p.1 d.toNat ones).setGuard p.1 gn.toNat false) g
    (g.finishAll (lanes ||| idle)).openAll (lanes ||| idle) la (.lanes [d.toNat] (if gn = 0#3 then none else some gn.toNat))
/-- `spawn` (R282). -/
def execSpawn (d a : BitVec 6) (gn : BitVec 3) (l : BitVec 4) (s : State) : Host.Outcome State Fault Refusal :=
  s.issue { Use.regs [d.toNat, a.toNat] [] with allow := 1, mem := true, guards := [gn.toNat] } fun s =>
    match s.ownLaunch, s.gang s.cur with
    | some i, some g =>
      match s.launch i with
      | none => s
      | some x =>
        let offering := (lanesOf s.mask).filter fun k => g.vreg k a.toNat ≠ 0
        let idle := s.mask &&& ~~~maskOf offering
        s.access 0 128 (offering.map fun k => (k, laneBit k, g.vreg k a.toNat)) (fun s x => s.held? x 128) (fun s _ => s) fun s xs =>
          let bad := xs.filter s.accPoisoned
          let good := xs.filter fun x => !s.accPoisoned x
          s.afterRelease 3 fun s =>
          let t := (good.foldl (fun s x => s.readSeen x 128) s).spawnAll d gn l.toNat i x (good.map fun x => (x.lane, s.readNow x 128)) idle
          if bad.isEmpty then t else t.raise t.cur (bad.map fun x => (x.lane, addrTrap 0x13 x.addr s.curPc))
    | _, _ => s

end Sys2Proof.Machine
end

