-- ==== Sys2Proof/Machine/Service.lean ====
section
/-! DEFINITION. The MSG, CALLQ, PRIV and CTX majors (R74, R78, R170, R171, R265, R283 to R287, R334, R342, R343, R354). -/

namespace Sys2Proof.Machine

/-- The core index of the issuing service or command-complex core. -/
def State.me (s : State) : Nat :=
  match s.cur with
  | .core i => i
  | .gang .. => 0
/-- The issuing core charges a slice from now on (R354). -/
def State.chargeTo (s : State) (h : Word) : State := s.updScalar s.me fun c => { c with charging := some h, half := false }
/-- Runs an instruction of a service core under its gate. -/
def State.service (s : State) (unis : List Nat) (mem : Bool) (body : State → State) : Host.Outcome State Fault Refusal :=
  s.issue { Use.regs [] unis with allow := 2, mem := mem } body

/-! ### Messages (R267, R284) -/

/-- Checks of n chunks of 64 bytes from an address, for loads or stores; then `go` on the places where they landed. -/
def State.onBuffer (s : State) (kind n : Nat) (va : Word) (go : State → List Acc → State) : State :=
  let ps := (List.range n).map fun i => (32, s.mask, va + BitVec.ofNat 64 (64 * i))
  let bad := ps.find? fun p => match s.check s.cur kind 64 p.2.2 with
    | .fault _ => true
    | _ => false
  match bad with
  | some p => match s.check s.cur kind 64 p.2.2 with
    | .fault f => s.raiseAll (addrTrap f p.2.2 s.curPc)
    | _ => s
  | none => s.access kind 64 ps (fun s x => s.held? x 64) (fun s _ => s) go
/-- Stores a buffer where its chunks landed. -/
def State.storeBuffer (s : State) : List Acc → List Byte → State
  | [], _ => s
  | x :: xs, bs => State.storeBuffer (s.store x (bs.take 64) none) xs (bs.drop 64)
/-- `msgsend` (R284): with release at chip scope. -/
def execMsgsend (d a b : BitVec 6) (l : BitVec 4) (s : State) : Host.Outcome State Fault Refusal :=
  s.service [d.toNat, a.toNat, b.toNat] true fun s =>
    s.onBuffer 0 1 (s.uni a.toNat) fun s xs =>
      match xs with
      | [] => s
      | x :: _ =>
        let j := (s.uni b.toNat).toNat
        if s.accPoisoned x then s.raiseAll (addrTrap 0x13 x.addr s.curPc)
        else if !s.indexPresent j then s.setUni d.toNat ones l.toNat
        else if 8 ≤ (s.channel s.me j).length then s.setUni d.toNat 1 l.toNat
        else s.afterRelease 3 fun s =>
          ((s.readSeen x 64).setChannel s.me j (s.channel s.me j ++ [s.readNow x 64])).setUni d.toNat 0 l.toNat
/-- The channel that `msgrecv` takes from: the one named, or the lowest that holds a message. -/
def State.recvFrom (s : State) (b : Word) : Option Nat :=
  if b.getLsbD 63 then (List.range 48).find? fun j => !(s.channel j s.me).isEmpty
  else if b.toNat < 48 && !(s.channel b.toNat s.me).isEmpty then some b.toNat else none
/-- `msgrecv` (R284, R354): the message of a service node carries the node's slice behind its 64 bytes. -/
def execMsgrecv (d a b : BitVec 6) (l : BitVec 4) (s : State) : Host.Outcome State Fault Refusal :=
  s.service [d.toNat, a.toNat, b.toNat] true fun s =>
    s.onBuffer 1 1 (s.uni a.toNat) fun s xs =>
      match s.recvFrom (s.uni b.toNat) with
      | none => s.setUni d.toNat ones l.toNat
      | some j =>
        match s.channel j s.me with
        | [] => s
        | m :: ms =>
          let s := (s.setChannel j s.me ms).storeBuffer xs (m.take 64)
          let s := if 64 < m.length then s.chargeTo (recWord m 64) else s
          s.setUni d.toNat (BitVec.ofNat 64 j) l.toNat
/-- `msgpoll` (R284). -/
def execMsgpoll (d : BitVec 6) (l : BitVec 4) (s : State) : Host.Outcome State Fault Refusal :=
  s.service [d.toNat] false fun s =>
    s.setUni d.toNat (bitsWord ((List.range 48).filter fun j => !(s.channel j s.me).isEmpty)) l.toNat

/-! ### Calls (R265, R284, R285, R334) -/

/-- A word at an offset of a ring slot; 0 where it cannot be read. -/
def State.slotWord (s : State) (i : Nat) (va : Word) : Nat :=
  match s.partNat (s.ctxOf (.core i)) va 8 with
  | .ok x => x
  | .error _ => 0
/-- The deadline that the call record in a slot of a cluster's ring carries: that of its gang's work, which `setdeadline` may have changed
since (R129, R258); of a record that no gang's call wrote, the one in it. -/
def State.slotDeadline (s : State) (i j : Nat) (va : Word) : Nat :=
  let caller := s.wgs.find? fun p => p.2.gangs.any fun q => q.2.callSlot == some j && q.2.callCluster = i && !q.2.callPopped
  match caller.bind fun p => s.launchOf p.2 with
  | some x => s.deadlineOf x.slice x.dladj
  | none => s.slotWord i (va + 8)
/-- The valid call record that `crpop` takes: earliest deadline, then oldest (R258, R265). -/
def State.popSlot (s : State) (i : Nat) : Option (Nat × Word) :=
  match s.scalar i with
  | none => none
  | some c =>
    if 40 ≤ i || c.ring true == 0 then none
    else
      let js := (List.range 256).filter fun j =>
        match s.ringKey i (c.ring true + BitVec.ofNat 64 (2048 * j + 0x3F)) with
        | some k => s.homeByte k != 0
        | none => false
      let va := fun (j : Nat) => c.ring true + BitVec.ofNat 64 (2048 * j)
      let rank := fun (j : Nat) => [s.slotDeadline i j (va j), s.slotWord i (va j), j]
      (js.foldl (fun (m : Option Nat) j => match m with
        | none => some j
        | some k => if rankLt (rank j) (rank k) then some j else some k) none).map fun j => (j, va j)
/-- The gang whose record stands in a slot of a cluster's ring, and its call handle; a record that no gang's call wrote gets a
handle that names nothing. -/
def State.callerAt (s : State) (i j : Nat) (r : List Byte) : Option (Nat × Nat) × Word :=
  let here := fun (p : Nat × Workgroup) => (p.2.gangs.find? fun q =>
    q.2.callSlot == some j && q.2.callCluster = i && !q.2.callPopped).map fun q => (p.1, q.1, gangHandle p.2 q.1 5)
  match (s.wgs.filterMap here).head? with
  | some (w, k, h) => (some (w, k), h)
  | none =>
    let core := i / 5 * 64 + i % 5 * 8 + recAt r 0x1F 1 % 8
    (none, BitVec.ofNat 64 (recAt r 0x1E 1 % 32 * 2 ^ 19 + recAt r 0x1E 1 / 32 % 4 * 2 ^ 17 + core * 2 ^ 8 + 5))
/-- `crpop` (R265, R284, R354). -/
def execCrpop (d a : BitVec 6) (l : BitVec 4) (s : State) : Host.Outcome State Fault Refusal :=
  s.service [d.toNat, a.toNat] true fun s =>
    s.onBuffer 1 32 (s.uni a.toNat) fun s xs =>
      match s.popSlot s.me with
      | none => s.setUni d.toNat 0 l.toNat
      | some (j, va) =>
        match s.partRead (s.ctxOf s.cur) va 2048 with
        | .error e => s.raiseAll (addrTrap e.1 e.2 s.curPc)
        | .ok r =>
          let who := s.callerAt s.me j r
          let s := (s.storeBuffer xs r).ringWrite s.me (recWord r 0x10) (va + 0x3F) [0]
          let s := match who.1 with
            | some (w, k) => s.updGang (.gang w k) fun g => { g with callPopped := true }
            | none => s
          (s.chargeTo (recWord r 0x10)).setUni d.toNat who.2 l.toNat
/-- The core that holds the right to resume a handle: the one `crfwd` gave it to, else the cluster's (R284, R334). -/
def State.holder (s : State) (h : Word) (cluster : Nat) : Nat := ((s.rights.find? fun r => r.1 == h).map Prod.snd).getD cluster
/-- The right to resume a handle is gone with what it named. -/
def State.dropRight (s : State) (h : Word) : State := { s with rights := s.rights.filter fun r => r.1 != h }
/-- Nothing is in flight to lanes of a gang (R87). -/
def Gang.landed (g : Gang) (m : LaneMask) : Bool := g.flights.all fun f => f.lane = 32 || !m.getLsbD f.lane
/-- Resumes lanes of a call with v1 and v2; the last ends it (R285). -/
def State.resumeCall (s : State) (w i : Nat) (x : Gang) (h : Word) (m : LaneMask) (v1 v2 : Word) : State :=
  let a := Agent.gang w i
  let s := (lanesOf m).foldl (fun s l => (s.deliverV a l 1 v1).deliverV a l 2 v2) s
  let fin := x.callLanes &&& ~~~(x.callDone ||| m) &&& x.live = 0
  let s := s.updGang a fun g =>
    let g := { g.each m (fun g l => g.setStat l .ready) with callDone := g.callDone ||| m }
    if fin then { g with callSlot := none, callLanes := 0, callDone := 0, callPopped := false } else g
  let s := s.keepCallState w i
  let slice := s.sliceOf a
  let s := if s.sliceOf s.cur == slice then s else s.charge slice 1
  (if fin then s.dropRight h else s).assistCatch w i
/-- Resumes fault-suspended lanes at a pc (R334, R335). -/
def State.resumeFault (s : State) (w i : Nat) (h : Word) (m : LaneMask) (pc : Word) : State :=
  let s := (s.resumeAt w i m pc).updGang (.gang w i) fun g =>
    { g.each m (fun g l => g.setStat l .ready) with faultLanes := g.faultLanes &&& ~~~m, came := g.came.filter fun p => !m.getLsbD p.1 }
  let s := s.keepCallState w i
  let less := fun (t : Tab LaneMask) => Tab.upd t i fun n => n &&& ~~~m
  let ops := s.ops.map fun p =>
    if p.2.wg = w && p.2.state = 3 then
      let served := Tab.at p.2.stopped i 0 &&& m
      (p.1, { p.2 with waiting := Tab.upd p.2.waiting i fun n => n &&& ~~~served, stopped := less p.2.stopped })
    else p
  let s := { s with ops := ops }
  let s := match s.gang (.gang w i) with
    | some g => if g.faultLanes = 0 then s.dropRight h else s
    | none => s
  ((s.chargeTo (s.sliceOf (.gang w i))).assistCheck w).assistCatch w i
/-- `resume` and `resumeall`: `all` takes every suspended lane (R284, R285, R334). -/
def State.resumeBy (s : State) (d : BitVec 6) (a b : BitVec 5) (l : BitVec 4) (all : Bool) : Host.Outcome State Fault Refusal :=
  let ra := 2 * a.toNat
  let rb := 2 * b.toNat
  s.service [d.toNat, ra, ra + 1, rb, rb + 1] false fun s =>
    let h := s.uni ra
    let lanes := s.uni (ra + 1)
    let x1 := s.uni rb
    let x2 := s.uni (rb + 1)
    let answer := fun (s : State) (x : Word) => s.setUni d.toNat x l.toNat
    let kind := bitsOf h.toNat 5 0
    match (if kind = 5 || kind = 6 then s.gangByHandle h kind else none) with
    | none => answer s ones
    | some (w, g, i, x) =>
      let suspended := if kind = 5 then x.callLanes &&& ~~~x.callDone &&& x.live else x.faultLanes &&& x.live
      let m : LaneMask := if all then suspended else lanes.setWidth 32
      let none? := kind = 5 && x.callSlot.isNone
      if none? || s.holder h (if kind = 5 then x.callCluster else if x.faultLanes = 0 then clusterOf g.core else x.faultCluster) ≠ s.me then answer s ones
      else if (!all && decide (2 ^ 32 ≤ lanes.toNat)) || m &&& ~~~suspended != 0 || (kind = 6 && x2 != 0) then answer s 1
      else if !x.landed m then s.waitRetry s.mask
      else s.afterRelease 3 fun s =>
        if kind = 5 then answer (s.resumeCall w i x h m x1 x2) 0 else answer (s.resumeFault w i h m x1) 0
/-- `resume` (R284, R285, R334). -/
def execResume (d : BitVec 6) (a b : BitVec 5) (l : BitVec 4) (s : State) : Host.Outcome State Fault Refusal :=
  s.resumeBy d a b l false
/-- `resumeall` (R284, R285, R334). -/
def execResumeall (d : BitVec 6) (a b : BitVec 5) (l : BitVec 4) (s : State) : Host.Outcome State Fault Refusal :=
  s.resumeBy d a b l true
/-- `crfwd` (R284, R334). -/
def execCrfwd (d a b : BitVec 6) (l : BitVec 4) (s : State) : Host.Outcome State Fault Refusal :=
  s.service [d.toNat, a.toNat, b.toNat] false fun s =>
    let h := s.uni a.toNat
    let j := (s.uni b.toNat).toNat
    let kind := bitsOf h.toNat 5 0
    match (if kind = 5 || kind = 6 then s.gangByHandle h kind else none) with
    | none => s.setUni d.toNat ones l.toNat
    | some (_, _, _, x) =>
      let gone := if kind = 5 then x.callSlot.isNone else x.faultLanes = 0
      if gone || !s.servicePresent j || s.holder h (if kind = 5 then x.callCluster else x.faultCluster) ≠ s.me then
        s.setUni d.toNat ones l.toNat
      else ({ s.dropRight h with rights := (h, j) :: (s.dropRight h).rights }).setUni d.toNat 0 l.toNat

/-! ### PRIV (R74, R284, R286) -/

/-- A K register as `krd` reads it (R74). -/
def State.readK (s : State) (i n : Nat) : Word :=
  if n = 5 then s.kip i else ((s.scalar i).map fun c => c.kreg n).getD 0
/-- `krd` (R74, R284). -/
def execKrd (d k : BitVec 6) (s : State) : Host.Outcome State Fault Refusal :=
  s.service [d.toNat] false fun s => s.setUni d.toNat (s.readK s.me k.toNat) 0
/-- The bits of a K register that software writes; `KSHARD` is only read, and of `KIP` the timer bit is cleared by 1 (R6, R74). -/
def kMask (n : Nat) : Word :=
  match n with
  | 1 => 0x80000000000000FF
  | 4 => 0x7F
  | 7 => 0xFFFFFFFFFFFFF000
  | 8 => 0xFFFFFFFFFFF80000
  | 9 => 0xFFFFF
  | 10 => 0xF0000FFFFFFFFFFF
  | _ => ones
/-- `kwr` (R74, R284). -/
def execKwr (a k : BitVec 6) (s : State) : Host.Outcome State Fault Refusal :=
  s.service [a.toNat] false fun s =>
    let x := s.uni a.toNat
    let n := k.toNat
    let put := fun (x : Word) => (s.updScalar s.me fun c => { c with k := Tab.set 0 c.k n x }).finish s.mask
    if n = 0 then s.finish s.mask
    else if n = 5 then put (((s.scalar s.me).map fun c => c.kreg 5).getD 0 &&& ~~~(x &&& 8))
    else if n = 10 && 1 < bitsOf x.toNat 63 60 then s.raiseAll (s.wordTrap 1 s.curPc)
    else put (x &&& kMask n)
/-- An invalidation covers an entry with a tag over a range of addresses (R169, R286). -/
def Inval.covers (v : Inval) (tag : Option Nat) (base size : Nat) : Bool :=
  match v.kind with
  | 0 => true
  | 1 => tag == some v.pasid
  | _ => (if v.shard then tag.isNone else tag == some v.pasid) && decide (base < v.start + v.len) && decide (v.start < base + size)
/-- The tag of the entry that an address of an agent uses. -/
def State.tagOf (s : State) (a : Agent) (va : Word) : Option Nat := if shardHalf va then none else some (s.ctxOf a).pasid
/-- Whether what an agent has under way may use an entry that an invalidation covers; what a workgroup that is gone or the part itself has
sent may always (R171; log 113). -/
def State.usesCovered (s : State) (v : Inval) (a : Agent) : Bool :=
  (s.gang a).isNone || v.kind = 0 || (v.kind = 2 && v.shard && (s.ctxOf a).katp.isSome) || (!(v.kind = 2 && v.shard) && (s.ctxOf a).pasid = v.pasid) ||
    (s.ctxOf a).katp.isSome
/-- Begins an invalidation: every translation buffer drops the entries it covers, walks that could install one are cancelled,
and every access under way that may have used one is to be waited for (R171, R286). -/
def State.invalidate (s : State) (v : Inval) : State :=
  let reqs := (s.reqs.filter fun r => s.usesCovered v r.agent).map (·.id)
  let stores := s.wgs.flatMap fun p => p.2.gangs.flatMap fun q =>
    if s.usesCovered v (.gang p.1 q.1) then (List.range 32).filterMap q.2.storeWaits else []
  let own := (s.scalars.filter fun p => s.usesCovered v (.core p.1)).filterMap fun p => p.2.ctx.storeWaits 0
  let boxes := (s.copies.filter fun p => !p.2.boxBusy.isEmpty && (v.kind = 0 || p.2.pasid = v.pasid)).map Prod.fst
  let gangs := s.wgs.flatMap fun p => p.2.gangs.flatMap fun q =>
    if s.usesCovered v (.gang p.1 q.1) then q.2.flights.map (·.id) else []
  let cores := s.scalars.flatMap fun p => if s.usesCovered v (.core p.1) then p.2.ctx.flights.map (·.id) else []
  let hit := fun (w : Walk) =>
    let tag := s.tagOf w.agent w.addr
    v.kind = 0 || (v.kind = 2 && v.shard && tag.isNone) || (!(v.kind = 2 && v.shard) && tag == some v.pasid)
  let walks := (s.walks.filter hit).map (·.id)
  { s with
    tlbs := s.tlbs.map fun p => (p.1, p.2.filter fun t => !v.covers t.tag t.base t.size)
    walks := s.walks.map fun w => if hit w then { w with cancelled := true } else w
    invals := s.invals ++ [{ v with waits := reqs ++ stores ++ own ++ boxes ++ gangs ++ cores ++ walks }] }
/-- What an invalidation waits for has delivered or performed (R171). -/
def State.invalOver (s : State) (v : Inval) : Bool :=
  v.waits.all fun id =>
    !(s.reqs.any fun r => r.id = id) && !(s.walks.any fun w => w.id = id) && (((Tab.find s.copies id).map fun c => c.boxBusy.isEmpty).getD true) &&
      (s.wgs.all fun p => p.2.gangs.all fun q => (q.2.flights.all fun f => f.id ≠ id) && (List.range 32).all fun l => q.2.storeWaits l ≠ some id) &&
      s.scalars.all fun p => (p.2.ctx.flights.all fun f => f.id ≠ id) && p.2.ctx.storeWaits 0 ≠ some id
/-- The range of an invalidation in 57-bit addresses: a length of 0 goes to the end of the half. -/
def invalRange (start : Word) (len : Nat) : Nat × Nat :=
  let x := start.toNat % 2 ^ 57 / 4096 * 4096
  (x, if len = 0 then 2 ^ 56 - x % 2 ^ 56 else len)
/-- `tlbinv` (R286): it waits until the conditions of R171 hold. -/
def execTlbinv (d a b : BitVec 6) (s : State) : Host.Outcome State Fault Refusal :=
  s.service [d.toNat, a.toNat, b.toNat] false fun s =>
    let x := (s.uni a.toNat).toNat
    let kind := bitsOf x 62 61
    if kind = 3 || bitOf x 63 || bitsOf x 60 20 ≠ 0 then s.raiseAll (s.wordTrap 1 s.curPc)
    else if ((s.gang s.cur).map fun g => g.retrying s.mask).getD false then
      if s.invals.any fun v => v.id = s.issueName then s else s.finish s.mask
    else
      let r := invalRange (s.uni b.toNat) (s.uni d.toNat).toNat
      let v : Inval := { id := s.serialNo, kind := kind, pasid := bitsOf x 19 0, start := r.1, len := r.2
                         shard := shardHalf (s.uni b.toNat), hart := none, seq := 0, ack := 0, rejected := false, waits := [] }
      (s.invalidate v).waitRetry s.mask
/-- `kret` (R284, R341). -/
def execKret (s : State) : Host.Outcome State Fault Refusal :=
  s.service [] false fun s =>
    let pc := ((s.scalar s.me).map fun c => c.kreg 2).getD 0
    (s.updGang s.cur fun g => g.finish 0 pc).updScalar s.me fun c => { c with handling := false }
/-- `idle` (R284, R354): it charges no slice, and goes on once a bit of `KIP` and `KIE` is 1. -/
def execIdle (s : State) : Host.Outcome State Fault Refusal :=
  s.service [] false fun s => (s.finish s.mask).updScalar s.me fun c => { c with idle := true, charging := none, half := false }

/-! ### Context images (R75, R78, R420) -/

/-- The matrix progress record of a gang (Table 10.8): that of the first operation it has signed that is not done; its place among those of its
workgroup, and 0 for the registers that no thread has recorded (log 121). -/
def State.progress (s : State) (w i : Nat) : List Byte :=
  let mine := s.ops.filter fun p => p.2.wg = w && (Tab.find p.2.signers i).isSome
  match mine.head? with
  | none => List.replicate 48 0
  | some (_, p) =>
    let place := (s.ops.filter fun q => q.2.wg = w && decide (q.2.order < p.order)).length
    let f := place % 16 * 2 ^ 48 + p.step % 65536 * 2 ^ 32 + p.sub % 64 * 2 ^ 14 + p.major % 64 * 2 ^ 8 + p.cv % 8 * 2 ^ 5 +
      (if p.phase then 16 else 0) + p.state % 16
    leBytes 8 p.fmt.toNat ++ ((List.range 4).flatMap fun k => leBytes 8 (p.desc.getD k 0).toNat) ++ leBytes 8 f
/-- A per-lane field of an image: that of a lane that is not live holds an unspecified value, free value n or beyond (R75; log 4). -/
def Gang.laneField (g : Gang) (n lane : Nat) (x : Nat) : Nat := if g.live.getLsbD lane then x else (Config.freeWord (n + lane)).toNat
/-- Bytes 0x000 to 0x1FF of a gang's image (Tables 3.11, 3.12). -/
def State.imageHead (s : State) (w i : Nat) (g : Gang) : List Byte :=
  leBytes 8 g.gstat.toNat ++ leBytes 8 (g.count + g.live.toNat * 256) ++
    ((List.range 32).flatMap fun l => leBytes 1 (g.laneField s.free l (g.guards l).toNat)) ++
    s.progress w i ++ g.callState ++ ((List.range 32).flatMap fun l => leBytes 8 (g.laneField (s.free + 32) l (g.pcOf l).toNat)) ++
    (List.range 32).flatMap fun l => leBytes 4 (g.laneField (s.free + 64) l (g.fcrOf l).toNat)
/-- The lane register that an image slot holds (R75). -/
def regOfSlot (count slot : Nat) : Nat := if slot + 4 < count then slot else slot + 64 - count
/-- A register line of a gang's image; `free` is the next free value. -/
def Gang.imageLine (g : Gang) (free n : Nat) : List Byte :=
  (List.range 16).flatMap fun k =>
    let lane := (n - 8) % 2 * 16 + k
    leBytes 8 (if n < 8 then (g.sreg ((n - 4) * 16 + k)).toNat else g.laneField free lane (g.vreg lane (regOfSlot g.count ((n - 8) / 2))).toNat)
/-- Writes a register line of a gang to its image, whole (R77). -/
def State.writeLine (s : State) (w i n : Nat) : State :=
  match s.gang (.gang w i) with
  | some g => { s.imageWrite w i (128 * n) (g.imageLine s.free n) with free := s.free + 32 }
  | none => s
/-- Writes what a gang's image lacks, and gives up its lines (R77, R78). -/
def State.writeImage (s : State) (w i : Nat) : State :=
  match s.gang (.gang w i) with
  | none => s
  | some g =>
    let s := { s.imageWrite w i 0 (s.imageHead w i g) with free := s.free + 96 }
    let s := g.dirty.foldl (fun s n => if 4 ≤ n then s.writeLine w i n else s) s
    s.updGang (.gang w i) fun g => { g with lines := [], dirty := [] }

/-! ### CTX (R287) -/

/-- Runs a context instruction on the gang or workgroup that a handle of one of some kinds names. -/
def State.onContext (s : State) (kinds : List Nat) (d a b : BitVec 6) (l : BitVec 4)
    (body : State → Nat → Workgroup → Nat → State) : Host.Outcome State Fault Refusal :=
  s.service [d.toNat, a.toNat, b.toNat] false fun s =>
    let h := s.uni a.toNat
    let k := bitsOf h.toNat 5 0
    let named := if !kinds.contains k then none
      else if k = 4 then s.byHandle h 4
      else (s.gangByHandle h k).map fun p => (p.1, p.2.1, p.2.2.1)
    match named with
    | none => s.setUni d.toNat ones l.toNat
    | some (w, g, i) => body s w g i
/-- `ctxevict` (R78, R287). -/
def execCtxevict (d a : BitVec 6) (l : BitVec 4) (s : State) : Host.Outcome State Fault Refusal :=
  s.onContext [3] d a 0#6 l fun s w _ i => (s.writeImage w i).setUni d.toNat 0 l.toNat
/-- `ctxpin` (R287, R410). -/
def execCtxpin (d a b : BitVec 6) (l : BitVec 4) (s : State) : Host.Outcome State Fault Refusal :=
  s.onContext [4] d a b l fun s w _ _ =>
    let x := s.uni b.toNat
    if 1 < x.toNat then s.setUni d.toNat 0xFFFFFFFFFFFFFFFE l.toNat
    else (s.updWg w fun g => { g with pinned := x == 1 }).setUni d.toNat 0 l.toNat
/-- `gangkill` (R287, R342, R354). -/
def execGangkill (d a b : BitVec 6) (l : BitVec 4) (s : State) : Host.Outcome State Fault Refusal :=
  s.onContext [3, 6] d a b l fun s w _ i =>
    let s := if bitsOf (s.uni a.toNat).toNat 5 0 = 6 then s.chargeTo (s.sliceOf (.gang w i)) else s
    ((s.terminate w i (exitWord ((s.uni b.toNat).toNat % 256))).assistCheck w).setUni d.toNat 0 l.toNat
/-- `wgkill` (R287, R343). -/
def execWgkill (d a b : BitVec 6) (l : BitVec 4) (s : State) : Host.Outcome State Fault Refusal :=
  s.onContext [4] d a b l fun s w _ _ => (s.wgKill w ((s.uni b.toNat).toNat % 256) false).setUni d.toNat 0 l.toNat
/-- The word of `ctxstat` (R287): one that is being evicted is no longer resident (R410; log 114). -/
def contextWord (g : Workgroup) (i : Nat) : Word :=
  let x := Tab.at g.gangs i default
  let at? := match g.place with
    | some (core, slot) => if g.evicting then 0 else 2 ^ 63 + core * 2 ^ 42 + slot * 2 ^ 40
    | none => 0
  BitVec.ofNat 64 (at? + (if g.pinned then 2 ^ 62 else 0) + (if x.callSlot.isSome then 2 ^ 61 else 0) + x.live.toNat * 2 ^ 8 +
    x.gstat.toNat % 256)
/-- `ctxstat` (R287). -/
def execCtxstat (d a : BitVec 6) (l : BitVec 4) (s : State) : Host.Outcome State Fault Refusal :=
  s.onContext [3, 4] d a 0#6 l fun s _ g i => s.setUni d.toNat (contextWord g i) l.toNat

/-! ### Words that no instruction encodes (R92) -/

/-- Majors whose words raise `PRIV` on a compute core before their function is looked at: those of service cores (Table 4.6). -/
def privMajor (m : Nat) : Bool := decide (0x52 ≤ m) && decide (m ≤ 0x55)
/-- An unassigned word raises `ILLEGAL` in every thread of the group, or `PRIV` where its major is privileged (R30, R92). -/
def execUnassignedWord (w : BitVec 32) (s : State) : Host.Outcome State Fault Refusal :=
  match s.gang s.cur with
  | none => .fault .noAgent
  | some g =>
    let counted := if g.retrying s.mask then s else s.countIssue s.cur
    let compute := match s.cur with
      | .gang .. => true
      | .core _ => false
    .next (counted.raiseAll (s.wordTrap (if compute && privMajor (w >>> 25).toNat then 2 else 1) s.curPc))

end Sys2Proof.Machine
end

