-- ==== Sys2Proof/Machine/Evict.lean ====
section
/-! DEFINITION. Fetch turns, aging, the register cache, pre-emption, eviction and redispatch, ring room, and soft errors (R20 to
R22, R76, R77, R79, R153, R159, R161, R192, R265, R266, R303, R304, R336 to R339, R344, R390, R410, R422). -/

namespace Sys2Proof.Machine

/-- ns of 4,096 core cycles at 0.8 GHz (R22). -/
def agingNs : Nat := 5120
/-- One fetch turn of an agent (R21). -/
def execFetchTurn (a : Agent) (s : State) : Host.Outcome State Fault Refusal := .next (s.fetchTurn a)
/-- A gang that has been ready and unserved for 4,096 core cycles is aged (R22; log 28). -/
def execGangAged (w i : Nat) (s : State) : Host.Outcome State Fault Refusal :=
  match s.gang (.gang w i) with
  | some g =>
    .next (if s.contends w i g && !g.ended && decide (g.since + agingNs ≤ s.ptb) then s.updGang (.gang w i) fun g => { g with aged := true } else s)
  | none => .next s
/-- A saved workgroup, a node, or a launch's workgroups that have waited 4,096 core cycles in the pool for space that they could use are
aged; a number from 65,536 names the launch with that index less 65,536, one with no node here (R22, R375). -/
def execReadyPoolAged (w n : Nat) (s : State) : Host.Outcome State Fault Refusal :=
  let late := fun (t : Nat) => decide (t + agingNs ≤ s.ptb)
  let saved := fun (g : Workgroup) => g.place.isNone && !((s.launchOf g).map fun x => s.sliceStopped x.slice).getD false && late g.since
  let waits := fun (x : Launch) => s.launchWaits x && late x.freeAt
  if ((s.wg w).map saved).getD false then .next (s.updWg w fun g => { g with aged := true })
  else if 65536 ≤ n then
    .next (if ((s.launch (n - 65536)).map waits).getD false then s.updLaunch (n - 65536) fun x => { x with aged := true } else s)
  else match s.tcb n with
    | some t =>
      let free := s.nodeFree n t && late t.freeAt || t.state = 3 && ((t.work.bind s.launch).map waits).getD false
      .next (if free then s.updTcb n fun t => { t with aged := true } else s)
    | none => .next s

/-! ### The register cache (R76) -/

/-- Lines that the register cache of a core holds: what no scratchpad or accumulator share reserves (R19, R151). -/
def State.cacheLines (s : State) (core : Nat) : Nat :=
  let used := s.wgs.map fun p =>
    if p.2.place.map Prod.fst = some core then
      ((s.launchOf p.2).map fun x => roundUp x.scratch 65536 + roundUp x.accShare 65536).getD 0
    else 0
  (2 ^ 23 - used.foldl (· + ·) 0) / 128
/-- Lines of a workgroup in the register cache. -/
def Workgroup.lineCount (g : Workgroup) : Nat := (g.gangs.map fun p => p.2.lines.length).foldl (· + ·) 0
/-- Lines that a partition word keeps in the register cache. -/
def Launch.leastLines (x : Launch) : Nat := bitsOf (x.field 0x10 8) 47 32 * 8
/-- The least number of lines of a workgroup. -/
def State.least (s : State) (g : Workgroup) : Nat := ((s.launchOf g).map Launch.leastLines).getD 0
/-- The lines of a workgroup in the register cache: workgroup, gang, line and last use. -/
def Workgroup.cached (g : Workgroup) (w : Nat) : List (Nat × Nat × Nat × Nat) :=
  g.gangs.flatMap fun q => q.2.lines.map fun l => (w, q.1, l.1, l.2)
/-- The lines that a miss of a workgroup may replace: its own, and those of others that are not pinned and are above their minimum. One that
is pinned replaces those of others until it holds all that their minima leave, and from then on its own (R76, R287). -/
def State.victims (s : State) (core w : Nat) : List (Nat × Nat × Nat × Nat) :=
  let here := s.wgs.filter fun p => p.2.place.map Prod.fst = some core
  let others := (here.filter fun p => p.1 ≠ w && !p.2.pinned && decide (s.least p.2 < p.2.lineCount)).flatMap fun p => p.2.cached p.1
  let kept := ((here.filter fun q => q.1 ≠ w).map fun q => s.least q.2).foldl (· + ·) 0
  match here.find? fun p => p.1 = w with
  | some p =>
    if !p.2.pinned then p.2.cached w ++ others
    else if decide (p.2.lineCount + kept < s.cacheLines core) && !others.isEmpty then others else p.2.cached w
  | none => others
/-- Makes room for one line of a workgroup: the least recently used line that it may replace goes, written whole where dirty (R76,
R77). -/
def State.replaceLine (s : State) (core w : Nat) : State :=
  let held := s.wgs.map fun p => if p.2.place.map Prod.fst = some core then p.2.lineCount else 0
  if held.foldl (· + ·) 0 < s.cacheLines core then s
  else
    let least := (s.victims core w).foldl (fun (m : Option (Nat × Nat × Nat × Nat)) v => match m with
      | none => some v
      | some x => if v.2.2.2 < x.2.2.2 then some v else some x) none
    match least with
    | none => s
    | some (v, i, n, _) =>
      match s.gang (.gang v i) with
      | none => s
      | some g =>
        let s := if g.dirty.contains n then s.writeLine v i n else s
        s.updGang (.gang v i) fun g => { g with lines := Tab.del g.lines n, dirty := g.dirty.filter (· ≠ n) }
/-- Takes the registers of a line from its image. -/
def Gang.loadLine (g : Gang) (n : Nat) (bs : List Byte) : Gang :=
  (List.range 16).foldl (fun g k =>
    let x := recWord bs (8 * k)
    if n < 8 then { g with s := Tab.set 0 g.s ((n - 4) * 16 + k) x }
    else { g with v := Tab.set 0 g.v (64 * ((n - 8) % 2 * 16 + k) + regOfSlot g.count ((n - 8) / 2)) x }) g
/-- Threads that wait for a line may issue. -/
def Gang.lineCame (g : Gang) (n : Nat) : Gang :=
  (List.range 32).foldl (fun g l => if g.stat l = .lineFill n then g.setStat l .ready else g) g
/-- A line of a context image arrives in the register cache (R76, R77). -/
def execRegisterLineFill (a : Agent) (n : Nat) (s : State) : Host.Outcome State Fault Refusal :=
  match a with
  | .core _ => .next s
  | .gang w i =>
    match s.wg w, s.gang a with
    | some g, some x =>
      match s.launchOf g with
      | none => .next s
      | some l =>
        let wanted := (List.range 32).any fun k => x.live.getLsbD k && x.stat k = .lineFill n
        if !wanted || g.place.isNone || g.evicting then .next s
        else
          let s := (s.replaceLine g.core w).updWg w fun g => g.count 37 1
          let come := fun (s : State) (f : Gang → Gang) =>
            s.updGang a fun g => (f { g with lines := Tab.put g.lines n s.serialNo }).lineCame n
          if x.dirty.contains n then .next (come s id)
          else match s.partRead (tenantCtx l.pasid) (l.image g.wgid i + BitVec.ofNat 64 (128 * n)) 128 with
            | .ok bs => .next (come s fun g => g.loadLine n bs)
            | .error e => .next (s.wiredFault l.tenant e.2)
    | _, _ => .next s

/-! ### Pre-emption and eviction (R20, R336, R337, R410) -/

/-- A gang that holds a slot is pre-empted for one that outranks it (R20, R336). -/
def execPreemptionRequest (w i : Nat) (s : State) : Host.Outcome State Fault Refusal :=
  match s.wg w, s.gang (.gang w i) with
  | some g, some x => .next (if x.slot && g.place.isSome && s.outranked w i g.core x then s.preempt w i else s)
  | _, _ => .next s
/-- What a workgroup's place is ranked by when space is needed: best-effort work after all other, then the deadline (R19, R258). -/
def State.spaceRank (s : State) (x : Launch) : List Nat := [s.afterAdmitted x.slice, s.deadlineOf x.slice x.dladj]
/-- That rank of a workgroup. -/
def State.wgRank (s : State) (g : Workgroup) : List Nat := ((s.launchOf g).map s.spaceRank).getD []
/-- A lock belongs to a copy or matrix operation of a workgroup. -/
def State.lockOf (s : State) (w : Nat) (k : Lock) : Bool :=
  match k.owner with
  | .copy c => ((Tab.find s.copies c).map fun c => c.wg == some w).getD false
  | .matrix o => ((Tab.find s.ops o).map fun o => o.wg == w).getD false
  | .gang .. => false
/-- A core without some of its workgroups and their locks. -/
def State.without (s : State) (core : Nat) (f : Workgroup → Bool) : State :=
  let gone := (s.wgs.filter fun p => p.2.place.map Prod.fst = some core && f p.2).map Prod.fst
  let theirs := fun (k : Lock) => gone.any fun w => s.lockOf w k || match k.owner with
    | .gang v _ => v = w
    | _ => false
  { s with
    wgs := s.wgs.map fun p => if gone.contains p.1 then (p.1, { p.2 with place := none }) else p
    cores := Tab.upd s.cores core fun c => { c with locks := c.locks.filter fun p => !theirs p.2 } }
/-- A workgroup that ranks before another waits for space on a core: it has none now, nor once the evictions in progress are over, and
would have it if those that may be evicted and rank after it went (R19, R258, R287, R410). -/
def State.earlierWaits (s : State) (core : Nat) (rank : List Nat) : Bool :=
  let going := s.without core (·.evicting)
  let waits := fun (r : List Nat) (fits : State → Nat → Bool) =>
    let spare := s.without core fun g => g.evicting || (!g.pinned && rankLt r (s.wgRank g))
    rankLt r rank && ((List.range 4).all fun k => !fits s k && !fits going k) && (List.range 4).any (fits spare)
  (s.launches.any fun p =>
    s.mayPlace p.2 && (Tab.find p.2.waiting (p.2.firstWg + p.2.placement.idxOf core)).isSome &&
      waits (s.spaceRank p.2) fun u k => u.hasRoom core k p.2) ||
    s.wgs.any fun p => waits (s.wgRank p.2) fun u k => u.savedFits core k p.1 p.2
/-- The ready pool evicts a workgroup for one of an earlier deadline: its gangs are pre-empted, and `PREEMPTED` is set in each. A
best-effort one goes before any other, and a pinned one stays (R69, R258, R287, R337, R410). -/
def execEviction (w : Nat) (s : State) : Host.Outcome State Fault Refusal :=
  match s.wg w with
  | none => .next s
  | some g =>
    match g.place with
    | none => .next s
    | some (core, _) =>
      let be := fun (g : Workgroup) => (s.wgRank g).headD 0 = 1
      let spare := !be g && s.wgs.any fun p =>
        p.2.place.map Prod.fst = some core && !p.2.evicting && !p.2.pinned && be p.2
      if g.evicting || g.pinned || spare || !s.earlierWaits core (s.wgRank g) then .next s
      else .next ((g.gangs.foldl (fun s p => s.preempt w p.1) s).updWg w fun g =>
        let marked : Tab Gang := g.gangs.map fun p => (p.1, { p.2 with gstat := p.2.gstat ||| 4 })
        { g with evicting := true, gangs := marked })
/-- Writes a share of a workgroup to its save area, whole (R153). -/
def State.saveShare (s : State) (x : Launch) (va : Word) (m : Tab Byte) (n : Nat) : State :=
  s.wiredWrite x.tenant x.pasid va (Mem.bytes m 0 n)
/-- What has to come to rest before a workgroup is saved: values in flight, and boxes in flight, which land and are counted (R87, R212,
R336, R337). A question to another chip waits with it. -/
def State.atRest (s : State) (w : Nat) (g : Workgroup) : Bool :=
  (g.gangs.all fun p => p.2.flights.isEmpty) && s.copies.all fun p => p.2.wg ≠ some w || (p.2.boxBusy.isEmpty && !s.reqs.any fun r =>
    match r.source with
    | .box j _ => j = p.1
    | _ => false)
/-- Writes what the image of a gang lacks; of a gang that has ended, the record of an operation that it signed (R77, R236). -/
def State.saveGang (s : State) (w i : Nat) (g : Gang) : State :=
  if !g.ended then s.writeImage w i else if s.signedOp w i then s.imageWrite w i 0x30 (s.progress w i) else s
/-- The save of an evicted workgroup has landed: images, shares and locks are put away, and its space is free (R212, R215, R304,
R337). -/
def execEvictionComplete (w : Nat) (s : State) : Host.Outcome State Fault Refusal :=
  match s.wg w with
  | none => .next s
  | some g =>
    match g.place, s.launchOf g with
    | some (core, slot), some x =>
      if !g.evicting || !s.atRest w g then .next s
      else
        let s := g.gangs.foldl (fun s p => s.saveGang w p.1 p.2) s
        let s := s.saveShare x (x.saveAt g.wgid) g.scratch x.scratch
        let s := s.saveShare x (x.saveAt g.wgid + BitVec.ofNat 64 (roundUp x.scratch 65536)) g.acc x.accShare
        let c := Tab.at s.cores core freshCore
        let mine := (c.locks.filter fun p => s.lockOf w p.2).map Prod.snd
        let locks : Tab Lock := c.locks.filter fun p => !s.lockOf w p.2
        let c := { c with slots := Tab.del c.slots slot, locks := locks }
        let s := { s with cores := Tab.put s.cores core c }
        let s := s.unlock core fun k => match k.owner with
          | .gang v _ => v = w
          | _ => false
        let bare : Tab Gang → Tab Gang := fun t => t.map fun p => (p.1, { p.2 with bufs := [] })
        .next (s.updWg w fun g =>
          { g with place := none, evicting := false, savedLocks := mine, since := s.ptb, aged := false, gangs := bare g.gangs })
    | _, _ => .next s

/-! ### Redispatch (R153, R192, R304, R338) -/

/-- Every store of a workgroup's threads is complete and every horizon passed (R192). -/
def State.wgQuiet (s : State) (w : Nat) (g : Workgroup) : Bool :=
  g.gangs.all fun p => (List.range 32).all fun l => s.quiet (.gang w p.1) l && !p.2.watching l && decide (p.2.releaseTime l ≤ s.ptb)
/-- Takes `GSTAT`, guards, pc and `FCR` of a gang from the first 512 bytes of its image. -/
def Gang.loadHead (g : Gang) (bs : List Byte) : Gang :=
  let g := { g with gstat := recWord bs 0 &&& 0x3001F }
  (lanesOf g.live).foldl (fun g l =>
    let g := (g.setGuards l (BitVec.ofNat 8 (recAt bs (0x10 + l) 1))).setPc l (recWord bs (0x80 + 8 * l))
    g.setFcr l (BitVec.ofNat 64 (recAt bs (0x180 + 4 * l) 4))) g
/-- A gang of a restored workgroup: its horizons are discarded and it takes its state from the image (R77, R192). -/
def State.restoreGang (s : State) (w i : Nat) (g : Workgroup) (x : Launch) : State :=
  let calm := fun (s : State) => s.updGang (.gang w i) fun g => { g with horizon := [], wct := [], seen := [], watched := [], bars := [], came := [], since := s.ptb }
  match s.gang (.gang w i) with
  | none => s
  | some y =>
    if y.ended then s
    else match s.partRead (tenantCtx x.pasid) (x.image g.wgid i) 512 with
      | .ok bs => (calm s).updGang (.gang w i) fun g => g.loadHead bs
      | .error e => s.wiredFault x.tenant e.2
/-- Reads a share back from the save area. -/
def State.loadShare (s : State) (x : Launch) (va : Word) (n : Nat) : Except (Nat × Word) (Tab Byte) :=
  match s.partRead (tenantCtx x.pasid) va n with
  | .ok bs => .ok (Mem.storeAll [] 0 bs)
  | .error e => .error e
/-- The copies of a workgroup that have not ended move to another core, each to an engine slot that is free there; their handles do not
change (R209, R338). -/
def State.moveCopies (s : State) (w core : Nat) : State :=
  ((s.copies.filter fun p => p.2.wg = some w && p.2.state < 3 && p.2.core ≠ core).map Prod.fst).foldl (fun s k =>
    match Tab.find s.copies k, s.engineSlot core, Tab.find s.cores core with
    | some x, some slot, some c =>
      let leave := fun (c : Core) => { c with copySlots := c.copySlots.filter fun p => p.2 ≠ k }
      let s := { s with cores := Tab.upd s.cores x.core leave, copies := Tab.put s.copies k { x with core := core, order := c.copySeq } }
      { s with cores := Tab.put s.cores core { c with copySeq := c.copySeq + 1, copySlots := Tab.put c.copySlots slot k } }
    | _, _, _ => s) s
/-- A saved workgroup is restored on a core that meets R19 and R304, its locks registered, before any gang issues (R338). -/
def execRedispatch (w core slot : Nat) (s : State) : Host.Outcome State Fault Refusal :=
  match s.wg w with
  | none => .next s
  | some g =>
    match s.launchOf g with
    | none => .next s
    | some x =>
      if !s.savedFits core slot w g || !s.firstForSpace core slot (s.savedRank w g) || !s.wgQuiet w g then .next s
      else
        let sc := s.loadShare x (x.saveAt g.wgid) x.scratch
        let ac := s.loadShare x (x.saveAt g.wgid + BitVec.ofNat 64 (roundUp x.scratch 65536)) x.accShare
        match sc, ac with
        | .ok a, .ok b =>
          let c := Tab.at s.cores core freshCore
          let ops := s.ops.map fun p => if p.2.wg = w then (p.1, { p.2 with broken := true }) else p
          let s := { s with cores := Tab.put s.cores core { c with slots := Tab.put c.slots slot w }, ops := ops }
          let s := (s.moveCopies w core).addLocks core g.savedLocks
          let s := s.updWg w fun g => { g with place := some (core, slot), savedLocks := [], scratch := a, acc := b, aged := false }
          .next (g.gangs.foldl (fun s p => s.restoreGang w p.1 g x) s)
        | .error e, _ => .next (s.wiredFault x.tenant e.2)
        | _, .error e => .next (s.wiredFault x.tenant e.2)

/-! ### Rings (R265, R266, R422) -/

/-- A slot of a cluster's fault ring is free: the part writes the oldest record it holds (R266, R422). -/
def execFaultRingSlotFree (cluster : Nat) (s : State) : Host.Outcome State Fault Refusal :=
  let rest := fun (s : State) (rs : List (List Byte)) =>
    { s with heldFaults := if rs.isEmpty then Tab.del s.heldFaults cluster else Tab.put s.heldFaults cluster rs }
  match s.held cluster, s.ringRoom cluster false, s.ringBroken cluster false with
  | r :: rs, some (base, j), _ => .next (rest (s.recordWrite cluster (recWord r 0x28) (base + BitVec.ofNat 64 (64 * j)) r) rs)
  | r :: rs, none, some a => .next (rest (s.wiredFault (tenantOfSlice (recWord r 0x28)) a) rs)
  | _, _, _ => .next s
/-- A slot of a cluster's call ring is free: of the groups that wait in `syscall` there, the one whose issue is oldest writes its
record (R265, R283). -/
def execCallRingSlotFree (cluster : Nat) (s : State) : Host.Outcome State Fault Refusal :=
  match s.ringRoom cluster true with
  | none => .next s
  | some _ =>
    let isCall := fun (g : Gang) (l : Nat) => match g.wordAt l with
      | some w => (w >>> 25).toNat = 0x3B
      | none => false
    let waiting := s.wgs.flatMap fun p =>
      if p.2.place.isSome && !p.2.evicting && clusterOf p.2.core = cluster then
        p.2.gangs.flatMap fun q => ((List.range 32).filter fun l => isCall q.2 l && q.2.callSlot.isNone).filterMap fun l =>
          (q.2.retryOf l).map fun n => (n, p.1, q.1, l)
      else []
    let first := waiting.foldl (fun (m : Option (Nat × Nat × Nat × Nat)) x => match m with
      | none => some x
      | some y => if x.1 < y.1 then some x else some y) none
    match first with
    | none => .next s
    | some (n, w, i, l) =>
      match s.gang (.gang w i) with
      | none => .next s
      | some g =>
        let m := maskOf ((List.range 32).filter fun k => g.retryOf k == some n)
        .next (s.as (.gang w i) m fun s => s.makeCall (bitsOf (((g.wordAt l).getD 0).toNat) 18 4))

/-! ### Soft errors (R79, R159, R161, R238, R299, R303, R341, R390) -/

/-- The lowest live lane whose values an image line holds, half a gang's of a lane register, else the whole gang's (R75; log 15). -/
def Gang.lineLane (g : Gang) (line : Nat) : Nat :=
  let live := (List.range 32).filter fun l => g.live.getLsbD l
  ((live.find? fun l => line < 8 || l / 16 = line % 2).orElse fun _ => live.head?).getD 0
/-- An uncorrectable error in a line that the register cache holds, a gang's and a line of its image, terminates the gang (R79, R295,
R342). -/
def execRegisterCacheEccUe (w : Nat) (line : Nat × Nat) (s : State) : Host.Outcome State Fault Refusal :=
  match s.gang (.gang w line.1), (s.wg w).bind s.launchOf with
  | some g, some x =>
    let lane := g.lineLane line.2
    if (Tab.find g.lines line.2).isNone then .next s
    else .next ((s.terminate w line.1 (x.faultWord 0x13 lane (g.pcOf lane))).assistCheck w)
  | _, _ => .next s
/-- An uncorrectable error in a scratchpad share, of a workgroup that has one (R152, R299, R344). -/
def execScratchpadEccUe (w : Nat) (s : State) : Host.Outcome State Fault Refusal :=
  match s.wg w with
  | some g => .next (if g.place.isSome && 0 < ((s.launchOf g).map Launch.scratch).getD 0 then s.shareError w else s)
  | none => .next s
/-- An uncorrectable error in an accumulator tile, found when the tile is read (R152, R238, R299). -/
def execAccumulatorEccUe (w : Nat) (s : State) : Host.Outcome State Fault Refusal :=
  match s.wg w with
  | some g => .next (if s.tilesRead w g then s.shareError w else s)
  | none => .next s
/-- A parity error in an L1 line: a clean one goes; an owned one goes unwritten and its home's line is poisoned, which raises
`ECC_UE` in the thread that accesses it (R159). -/
def execL1ParityError (core line : Nat) (s : State) : Host.Outcome State Fault Refusal :=
  match Tab.find (s.l1At core) line with
  | none => .next s
  | some x =>
    let s := s.setL1 core (Tab.del (s.l1At core) line)
    .next (if x.owned then (s.setHome line { s.home line with owner := none }).poisonLine line else s)
/-- An uncorrectable error in a line that a die L2 holds dirty: it is poisoned in HBM (R161). -/
def execL2EccUe (line : Nat) (s : State) : Host.Outcome State Fault Refusal :=
  .next (if s.dirtyLines.contains line then { s with dirtyLines := s.dirtyLines.erase line }.poisonLine line else s)
/-- Poisons a node: it ends FAILED with `ECC_UE`, and its work, a launch that waits for its node among it, is killed with that code. Where its successors cannot be read,
every unended node of its graph ends the same way (R303, R345). -/
def State.poisonNode (s : State) (n : Nat) : State :=
  (State.cancelWork s.depth s 1 n 1 0x13).endNode n 4 0x13
/-- An uncorrectable error in an entry of the TCB store (R303). -/
def execTcbEccUe (n : Nat) (readable : Bool) (s : State) : Host.Outcome State Fault Refusal :=
  match s.tcb n with
  | none => .next s
  | some t =>
    if t.state = 0 || t.state = 4 then .next s
    else
      let s := s.poisonNode n
      if readable || t.graph.isNone then .next s
      else .next ((s.tcbs.filter fun p => p.2.graph = t.graph && p.2.state ≠ 4).foldl (fun s p => s.poisonNode p.1) s)
/-- A parity error in a translation buffer drops the entry (R390). -/
def execTlbParityError (cluster entry : Nat) (s : State) : Host.Outcome State Fault Refusal :=
  let tlbs : Tab (List Tlb) := s.tlbs.map fun p => if p.1 = cluster then (p.1, p.2.eraseIdx entry) else p
  .next { s with tlbs := tlbs }
/-- An uncorrectable error in a service core's L1 is a machine check (R341, R390). -/
def execServiceCoreL1EccUe (core : Nat) (s : State) : Host.Outcome State Fault Refusal :=
  .next (if core < 40 && ((s.scalar core).map (·.running)).getD false then s.machineCheck core else s)

end Sys2Proof.Machine
end

