-- ==== Sys2Proof/Machine/Queue.lean ====
section
/-! DEFINITION. Queue descriptors, tenant records, completion rings, admission and slices (R240 to R242, R252 to R257, R289, R424,
R425). -/

namespace Sys2Proof.Machine

/-! ### Tenants and descriptors (R240, R241, R289) -/

/-- The active complex runs: the boot is past step 5, and no machine check has stopped it (R363, R369, R371). -/
def State.complexUp (s : State) : Bool :=
  !s.inReset && decide (5 < s.bootStep) && ((s.scalar (s.complexCore 0)).map (·.running)).getD false
/-- The active complex fetches queues: it runs, and no update is between the boundary it seeks and its end (R370). -/
def State.fetching (s : State) : Bool := s.complexUp && !((s.update.map fun u => decide (2 ≤ u.phase)).getD false)
/-- `n` bytes of a physical structure at an SPA; none where it is not routed. -/
def State.spaBytes (s : State) (a n : Nat) : Option (List Byte) := (s.route a).map fun k => s.homeRead k n
/-- Where tenant t's record stands. -/
def State.recordAt (s : State) (t : Nat) : Nat := s.tenantBase.toNat + 64 * t
/-- Tenant t's record (Table 13.1); none where it cannot be read, which is `WIREDFAULT` (R340). -/
def State.tenantRecord (s : State) (t : Nat) : Option (List Byte) :=
  if ((s.route (s.recordAt t)).map s.poisoned).getD false then none else s.spaBytes (s.recordAt t) 64
/-- What a record that cannot be read means for a tenant that the hub holds. -/
def State.recordFault (s : State) (t : Nat) : State :=
  if (s.tenantRecord t).isNone then s.wiredFault t (BitVec.ofNat 64 (s.recordAt t)) else s
/-- A record with `V` 1 and no reserved byte set, as the hub then holds the tenant. -/
def tenantOf (r : List Byte) : Option Tenant :=
  if bitOf (recAt r 0 4) 31 && (r.drop 0x21).all (· == 0) then
    some { capped := false, teardown := false, killed := none, valid := true, pasid := recAt r 0 4 % 2 ^ 20, queueTable := recAt r 8 8
           ring := recAt r 0x10 8, intTable := recAt r 0x18 8, shard := recAt r 0x20 1, moved := 0, measuredAt := 0 }
  else none
/-- The hub reads the record of a tenant and holds what it finds; none where the tenant is not there (R289). -/
def State.readTenant (s : State) (t : Nat) : Option State :=
  ((s.tenantRecord t).bind tenantOf).map fun x =>
    let capped := s.pwrZero || ((s.tenant t).map (·.capped)).getD false
    { s with tenants := Tab.put s.tenants t { x with
      capped := capped, moved := ((s.tenant t).map (·.moved)).getD 0, measuredAt := ((s.tenant t).map (·.measuredAt)).getD s.ptb } }
/-- The hub holds the tenant of work that enters from another chip (R375, R386). -/
def State.tenantOfPod (s : State) (t : Nat) : State := if (s.tenant t).isSome then s else (s.readTenant t).getD s
/-- A queue that has not been seen. -/
def freshQueue : Queue :=
  { state := 0, seenWrite := 0, streams := [], waits := [], current := 0, previous := 0, serial := 0, skipping := false
    entries := [], owed := none, readPtr := 0, rel := 0, deferred := [] }
/-- Queue q of tenant t. -/
def State.queue (s : State) (t q : Nat) : Queue := Tab.at s.queues (16 * t + q) freshQueue
/-- Changes a queue. -/
def State.updQueue (s : State) (t q : Nat) (f : Queue → Queue) : State :=
  { s with queues := Tab.put s.queues (16 * t + q) (f (s.queue t q)) }
/-- The address of a field of a queue descriptor (Table 11.1). -/
def Tenant.desc (t : Tenant) (q off : Nat) : Word := BitVec.ofNat 64 (t.queueTable + 64 * q + off)
/-- A number of a queue descriptor; a fault is `WIREDFAULT`, and none is answered. -/
def State.descNat (s : State) (t q off n : Nat) : Option Nat × State :=
  match s.tenant t with
  | none => (none, s)
  | some x => match s.ownSight.partNat (tenantCtx x.pasid) (x.desc q off) n with
    | .ok v => (some v, s)
    | .error e => (none, s.wiredFault t e.2)
/-- Writes a number of a queue descriptor, with release at system scope. -/
def State.setDesc (s : State) (t q off n v : Nat) : State :=
  match s.tenant t with
  | none => s
  | some x => s.hubWrite .part t x.pasid (x.desc q off) (leBytes n v)
/-- The name of a queue as the source of writes. -/
def queueSource (t q : Nat) : Source := .queue (16 * t + q)
/-- Everything that a queue has stored is visible: the processing of its last packet has ended, and a release may follow (R183, R191,
R245). -/
def State.settled (s : State) (t q : Nat) : Bool := decide ((s.queue t q).rel ≤ s.ptb) && !s.owes (queueSource t q)

/-! ### Completion entries (R255) -/

/-- A completion entry (Table 11.6), but for its PTB. -/
def completionEntry (handle : Word) (kind code : Nat) (tag : BitVec 32) (charged : Nat) : List Byte :=
  mkRecord 32 [(0, 8, handle.toNat), (8, 8, kind * 2 ^ 56 + code * 2 ^ 48 + tag.toNat), (0x18, 8, charged)]
/-- Publishes the write index of a completion ring once the entry below it is visible (R255). -/
def State.publishIndex (s : State) (t q : Nat) : State :=
  match (s.queue t q).owed with
  | some w => if s.settled t q then (s.setDesc t q 0x30 8 w).updQueue t q fun x => { x with owed := none } else s
  | none => s
/-- Writes an entry with release at system scope where the ring has room: false where it has none, or where what the queue stored before
is not visible yet. An entry that cannot be written is gone with its tenant. -/
def State.tryEntry (s : State) (t q : Nat) (e : List Byte) : State × Bool :=
  match s.tenant t with
  | none => (s, true)
  | some x =>
    let s := s.publishIndex t q
    if !s.settled t q then (s, false)
    else match s.ownSight.partRead (tenantCtx x.pasid) (x.desc q 0) 64 with
      | .error a => (s.wiredFault t a.2, true)
      | .ok d =>
        let n := 2 ^ (recAt d 0x28 1 % 16)
        let w := recAt d 0x30 8
        if n ≤ w - recAt d 0x38 8 then (s, false)
        else
          let e := e.take 16 ++ leBytes 8 s.ptb ++ e.drop 24
          let s := s.hubWrite (queueSource t q) t x.pasid (BitVec.ofNat 64 (recAt d 0x20 8 + 32 * (w % n))) e
          ((s.updQueue t q fun x => { x with owed := some (w + 1) }).publishIndex t q, true)
/-- Appends an entry to a queue's completion ring, behind those that wait for room or for what the queue stored before. -/
def State.entry (s : State) (t q : Nat) (e : List Byte) : State :=
  let r := if (s.queue t q).entries.isEmpty then s.tryEntry t q e else (s, false)
  if r.2 then r.1 else r.1.updQueue t q fun x => { x with entries := x.entries ++ [e] }
/-- The completion ring of a queue has room. -/
def State.entryRoom (s : State) (t q : Nat) : Bool :=
  match (s.descNat t q 0x28 4).1, (s.descNat t q 0x30 8).1, (s.descNat t q 0x38 8).1 with
  | some n, some w, some r => decide (w - r < 2 ^ (n % 16))
  | _, _, _ => true
/-- Writes the entries of a queue that wait, while there is room; the first argument bounds them. -/
def State.drainEntries : Nat → State → Nat → Nat → State
  | 0, s, _, _ => s
  | n + 1, s, t, q =>
    match (s.queue t q).entries with
    | [] => s
    | e :: es =>
      let r := s.tryEntry t q e
      if r.2 then State.drainEntries n (r.1.updQueue t q fun x => { x with entries := es }) t q else r.1
/-- What a queue owes its completion ring is written, as far as it can be. -/
def State.tendRing (s : State) (t q : Nat) : State := State.drainEntries ((s.queue t q).entries.length) (s.publishIndex t q) t q
/-- The consumer frees an entry, and the active complex writes entries that wait (R255, R268). -/
def execCompletionRingRoom (t q : Nat) (s : State) : Host.Outcome State Fault Refusal :=
  .next (if s.complexUp then s.tendRing t q else s)

/-! ### Aborts (R242, R243, R424) -/

/-- The slice whose packets a queue is processing, if one is current. -/
def State.currentSlice (s : State) (t q : Nat) : Option Slice :=
  let x := s.queue t q
  if x.skipping || x.current == 0 then none
  else (s.slice x.current).bind fun y => if y.cancel.isSome || y.packetsDone then none else some y
/-- Aborts the current slice of a queue with a code; where none is current, an entry with handle 0 (R253, R424). -/
def State.abortSlice (s : State) (t q code : Nat) (addr : Word) : State :=
  match s.currentSlice t q with
  | some y => (s.stopSlice y.handle 1 2 code).postEvent t (eventEntry s.ptb y.handle 0 3 code 0 0 addr)
  | none =>
    let s := if code = 0x40 then s else s.postEvent t (eventEntry s.ptb 0 0 3 code 0 0 addr)
    if code = 0x43 then s else s.entry t q (completionEntry 0 2 code 0 0)
/-- `PKT_ILLEGAL`. -/
def State.pktIllegal (s : State) (t q : Nat) : State := s.abortSlice t q 0x40 0
/-- `PKT_FAULT` at an address: a fault on a word of the ring also stops the queue (R424). -/
def State.pktFault (s : State) (t q : Nat) (ring : Bool) (addr : Word) : State :=
  let s := s.abortSlice t q 0x44 addr
  if ring then s.setQueueState t q 0 else s
/-- A malformed queue: it is stopped and its current slice aborted (R242). -/
def State.malformed (s : State) (t q : Nat) : State := (s.abortSlice t q 0x43 0).setQueueState t q 0

/-! ### Reading descriptors (R241, R242, R289) -/

/-- A queue in DRAIN whose read pointer has reached its write pointer, its last slice ended, becomes STOPPED (R242). -/
def State.drainStop (s : State) (t q : Nat) : State :=
  let x := s.queue t q
  if x.state = 2 && x.current == 0 && x.readPtr = x.seenWrite && (x.streams.map (·.pos)) == [x.seenWrite] then s.setQueueState t q 0 else s
/-- Publishes the read pointer, past each packet whose processing has ended; an open loop or ib buffer has not, nor has a packet that is
held (R241). -/
def State.publish (s : State) (t q : Nat) : State :=
  let x := s.queue t q
  match x.streams with
  | [r] =>
    let place := (x.deferred.map (·.place)).foldl min r.pos
    if r.loops.isEmpty && x.readPtr ≠ place && s.settled t q && !x.waits.any (·.barrier) then
      (s.setDesc t q 0x18 8 place).updQueue t q fun x => { x with readPtr := place }
    else s
  | _ => s
/-- Takes the pointers and the state that a read of a descriptor has found. -/
def State.takeDesc (s : State) (t q : Nat) (d : List Byte) : State :=
  let x := s.queue t q
  let st := recAt d 9 1 % 4
  let wp := recAt d 0x10 8
  let size := 2 ^ (recAt d 8 1 % 32)
  if st = 0 || st = 3 then s.updQueue t q fun x => { x with state := st }
  else
    let rp := if x.state = 0 then recAt d 0x18 8 else x.readPtr
    let ring : Stream := { base := recAt d 0 8, len := size, pos := rp, ahead := [], loops := [] }
    let same := x.readPtr = rp && ((x.streams.getLast?).map fun r => r.base = ring.base && r.len = size).getD false
    let bad := decide (wp < rp) || decide (size < wp - rp) || (x.state ≠ 0 && decide (wp < x.seenWrite))
    let s := s.updQueue t q fun x =>
      { x with state := st, readPtr := rp, streams := if x.state = 0 && !same then [ring] else x.streams }
    if bad then s.malformed t q else (((s.updQueue t q fun x => { x with seenWrite := wp }).tendRing t q).publish t q).drainStop t q
/-- Reads the descriptor of a queue, whole (R241); of a queue that was STOPPED the tenant's record first (R289). -/
def State.readDesc (s : State) (t q : Nat) : State :=
  let known := s.tenant t
  if 64 ≤ t || 16 ≤ q || (known.map (·.teardown)).getD false then s
  else
    match (if (s.queue t q).state ≠ 0 then some s else s.readTenant t) with
    | none => { s.recordFault t with tenants := Tab.upd (s.recordFault t).tenants t fun x => { x with valid := false } }
    | some s =>
      match s.tenant t with
      | none => s
      | some x => match s.ownSight.partRead (tenantCtx x.pasid) (x.desc q 0) 64 with
        | .ok d => s.takeDesc t q d
        | .error e => s.wiredFault t e.2
/-- Words that a stream holds from a place on: those fetched ahead, then memory. -/
def State.streamWord (s : State) (pasid : Nat) (ring : Bool) (st : Stream) (p : Nat) : Except (Nat × Word) Nat :=
  match (if p < st.pos then none else st.ahead[p - st.pos]?) with
  | some w => .ok w.toNat
  | none => s.partNat (tenantCtx pasid) (BitVec.ofNat 64 (st.base + 4 * (if ring then p % st.len else p))) 4
/-- `n` words of a stream from a place, or the address of the first that cannot be fetched. -/
def State.streamWords (s : State) (pasid : Nat) (ring : Bool) (st : Stream) (p : Nat) : Nat → Except (Nat × Word) (List Nat)
  | 0 => .ok []
  | n + 1 =>
    match s.streamWord pasid ring st p with
    | .error e => .error e
    | .ok w => match State.streamWords s pasid ring st (p + 1) n with
      | .error e => .error e
      | .ok ws => .ok (w :: ws)
/-- Up to `n` words of a stream from a place, as many as can be fetched (R246, R424). -/
def State.fetchAhead (s : State) (pasid : Nat) (ring : Bool) (st : Stream) (p : Nat) : Nat → List (BitVec 32)
  | 0 => []
  | n + 1 =>
    match s.streamWord pasid ring st p with
    | .error _ => []
    | .ok w => BitVec.ofNat 32 w :: State.fetchAhead s pasid ring st (p + 1) n
/-- Fetches ahead in the innermost stream of a queue that is not STOPPED, up to 256 words from its place and never beyond what is
published (R242, R246). -/
def State.lookAhead (s : State) (t q n : Nat) : State :=
  let x := s.queue t q
  match (if x.state = 1 || x.state = 2 then s.tenant t else none), x.streams with
  | some y, st :: ss =>
    let stop := if ss.isEmpty then x.seenWrite else st.len
    let ws := s.fetchAhead y.pasid ss.isEmpty st st.pos (min (min n 256) (stop - st.pos))
    s.updQueue t q fun x => { x with streams := { st with ahead := ws } :: ss }
  | _, _ => s
/-- A doorbell write: the complex reads the descriptor; while no queue is fetched the hub keeps it (R241, R347, R370). -/
def execDoorbell (t q ahead : Nat) (s : State) : Host.Outcome State Fault Refusal :=
  if s.fetching then .next ((s.readDesc t q).lookAhead t q ahead)
  else if !s.complexUp || s.doorbells.contains (t, q) then .next s
  else .next { s with doorbells := s.doorbells ++ [(t, q)] }
/-- The write pointer and state of an active or draining queue are read (R241). -/
def execQueuePoll (t q ahead : Nat) (s : State) : Host.Outcome State Fault Refusal :=
  let st := (s.queue t q).state
  if s.fetching && (st = 1 || st = 2) then .next ((s.readDesc t q).lookAhead t q ahead) else .next s

/-! ### Admission (R256, R257) -/

/-- The capacity of the package in units of 0.1 budget units a ns. -/
def State.capacity (s : State) : Nat := 100 * s.presentCores.length + 8 * ((List.range 40).filter s.servicePresent).length
/-- The load of a slice in units of 2^−16, rounded up. -/
def State.sliceLoad (s : State) (x : Slice) : Nat :=
  if x.be then 0 else ceilDiv (x.budget.toNat * 65536) (max (x.deadline - s.ptb) 1000)
/-- The share of a caps word, of 1,024. -/
def capShare (w : Nat) : Nat :=
  let c := fun (k : Nat) => let v := bitsOf w (10 * k + 9) (10 * k); if v = 1023 then 1024 else v
  min (c 0) (min (c 1) (c 2))
/-- The row of Table 11.7 that rejects a slice packet with the given body words; 0 admits it. -/
def State.admission (s : State) (t q : Nat) (b : List Nat) : Nat :=
  let w := fun (i : Nat) => b.getD i 0
  let deadline := w 0 + w 1 * 2 ^ 32
  let budget := w 2 + w 3 * 2 ^ 32
  let be := bitOf (w 4) 8
  let mine := s.slices.filter fun x => x.tenant = t
  let sum := fun (xs : List Slice) => (xs.map s.sliceLoad).foldl (· + ·) 0
  let fresh := ceilDiv (budget * 65536) (deadline - s.ptb)
  let f := capShare (((s.tenantRecord t).map fun r => recAt r 4 4).getD 0)
  if bitsOf (w 4) 31 10 ≠ 0 || bitsOf (w 4) 7 6 ≠ 0 || w 6 ≠ 0 || w 7 ≠ 0 || bitsOf (w 4) 5 0 ≠ t || 2 ^ 62 ≤ budget then 6
  else if (s.queue t q).state = 2 then 7
  else if budget = 0 then 3
  else if !be && decide (deadline ≤ s.ptb) then 2
  else if 64 ≤ mine.length then 5
  else if be then 0
  else if f = 0 || 95 * s.capacity * f * 65536 / 1024000 < sum mine + fresh then 4
  else if 95 * s.capacity * 65536 / 1000 < sum s.slices + fresh then 1
  else 0

/-! ### Ends of slices (R253 to R255, R425) -/

/-- The packets of a queue's current slice are at their end. -/
def State.endPackets (s : State) (t q : Nat) : State :=
  let s := match s.currentSlice t q with
    | some y => s.updSlice y.handle fun y => { y with packetsDone := true }
    | none => s
  s.updQueue t q fun x =>
    { x with previous := if x.current == 0 then x.previous else x.current, current := 0, skipping := false }
/-- While packets are passed over, every open ib buffer and loop is left (R253). -/
def State.unwind (s : State) (t q : Nat) : State :=
  let x := s.queue t q
  if x.skipping then
    s.updQueue t q fun x => { x with streams := (x.streams.getLast?).toList.map fun r => { r with loops := [] } }
  else s
/-- A fresh read of the write pointer shows no further word: the slice ends (R425), and a draining queue stops (R242). -/
def execSliceEnd (t q : Nat) (s : State) : Host.Outcome State Fault Refusal :=
  let s := s.unwind t q
  let x := s.queue t q
  match x.streams with
  | [r] =>
    if !s.fetching || (x.state ≠ 1 && x.state ≠ 2) || !r.loops.isEmpty || r.pos ≠ x.seenWrite || x.waits.any (·.barrier) ||
        x.deferred.any (fun d => d.slice == x.current) || !s.settled t q then .next s
    else match s.descNat t q 0x10 8 with
      | (none, s) => .next s
      | (some wp, s) =>
        if wp < x.seenWrite || r.len < wp - x.readPtr then .next (s.malformed t q)
        else if wp ≠ r.pos then .next (s.updQueue t q fun x => { x with seenWrite := wp })
        else .next (((s.endPackets t q).publish t q).drainStop t q)
  | _ => .next s
/-- The threads that wait for a slice take its status word (R281). -/
def State.wakeWaiters (s : State) (h word : Word) : State :=
  let agents := (s.wgs.flatMap fun p => p.2.gangs.map fun q => Agent.gang p.1 q.1) ++ s.scalars.map fun p => Agent.core p.1
  agents.foldl (fun s a =>
    match s.gang a with
    | none => s
    | some g =>
      let find := fun (l : Nat) => match g.stat l with
        | .sliceWait x d n => if x == h && g.live.getLsbD l then some (d, n) else none
        | _ => none
      let groups := ((List.range 32).filterMap find).eraseDups
      groups.foldl (fun s p =>
        s.as a (maskOf ((List.range 32).filter fun l => find l == some p)) fun s => s.setUni (p.1 % 64) word (p.1 / 64)) s) s
/-- A slice has ended: its packets are processed and its work has completed. Its completion entry follows (R255, R322). -/
def execSliceCompletion (h : Nat) (s : State) : Host.Outcome State Fault Refusal :=
  let h := BitVec.ofNat 64 h
  match s.slice h with
  | none => .next s
  | some x =>
    let q := s.queue x.tenant x.queue
    if !s.complexUp || !x.packetsDone || x.outst ≠ 0 || q.waits.any (fun w => w.slice == h) || q.deferred.any (fun d => d.slice == h) ||
        !s.settled x.tenant x.queue then .next s
    else
      let last := if x.endKind ≠ 0 then (x.endKind, x.endCode) else match x.fail with
        | some f => (4, f.2)
        | none => (0, 0)
      let s := s.entry x.tenant x.queue (completionEntry h last.1 last.2 x.tag x.charged)
      let s := { s with slices := s.slices.filter fun y => y.handle != h }
      .next (s.wakeWaiters h (BitVec.ofNat 64 (last.1 * 2 ^ 56 + last.2 * 2 ^ 48)))

end Sys2Proof.Machine
end

