-- ==== Sys2Proof/Machine/Packet.lean ====
section
/-! DEFINITION. The processing of packets (R243 to R253, R300, R375, R424). -/

namespace Sys2Proof.Machine

/-! ### The frame of a packet (R243, R246, R247, R249) -/

/-- Counts one packet that has ended against the loops of its stream, innermost first: the place to go on at, the loops, and whether
a body begins again (R249). -/
def countLoops (pos : Nat) : List (Nat × Nat × Nat × Nat) → Nat × List (Nat × Nat × Nat × Nat) × Bool
  | [] => (pos, [], false)
  | (start, n, passes, left) :: ls =>
    if 1 < left then (pos, (start, n, passes, left - 1) :: ls, false)
    else if 1 < passes then (start, (start, n, passes - 1, n) :: ls, true)
    else countLoops pos ls
/-- Counts one ended packet in a stream. -/
def Stream.count (st : Stream) : Stream :=
  let r := countLoops st.pos st.loops
  { st with pos := r.1, loops := r.2.1, ahead := if r.2.2 then [] else st.ahead }
/-- Counts n ended packets. -/
def Stream.countN : Nat → Stream → Stream
  | 0, st => st
  | n + 1, st => Stream.countN n st.count
/-- Changes the innermost stream of a queue. -/
def State.updTop (s : State) (t q : Nat) (f : Stream → Stream) : State :=
  s.updQueue t q fun x => { x with streams := match x.streams with
    | st :: ss => f st :: ss
    | [] => [] }
/-- Leaves the ib buffers that have ended; true where one ends inside a loop body (R247, R249). -/
def popStreams : List Stream → List Stream × Bool
  | [] => ([], false)
  | [r] => ([r], false)
  | st :: ss => if st.len ≤ st.pos then (if st.loops.isEmpty then popStreams ss else (st :: ss, true)) else (st :: ss, false)

/-- A packet that stands next in a queue: its header, its body, where it begins, and whether in the ring. -/
structure Packet where
  header : Nat
  body : List Nat
  place : Nat
  ring : Bool
  deriving DecidableEq, Repr, Inhabited

/-- `TYPE` of a header (Table 11.2). -/
def Packet.type (p : Packet) : Nat := bitsOf p.header 31 24
/-- A 64-bit field of a body. -/
def Packet.word (p : Packet) (i : Nat) : Nat := p.body.getD i 0 + p.body.getD (i + 1) 0 * 2 ^ 32
/-- What a look at the next packet finds. -/
inductive Next where
  | none
  | ends (s : State)
  | found (s : State) (p : Packet)
  deriving DecidableEq, Repr

/-- The next packet of a queue, where the complex may process one: the state has its streams unwound, the words beyond the packet
fetched ahead, and its place past the packet. The packet before it has performed (R245). A word that faults, and a packet past the end of its ib buffer, abort the slice
(R246, R247, R424). -/
def State.nextPacket (s : State) (t q ahead : Nat) (wanted : Nat → Bool) : Next :=
  let s := s.unwind t q
  let x := s.queue t q
  let pop := popStreams x.streams
  match s.tenant t, pop.1 with
  | some y, st :: ss =>
    let ring := ss.isEmpty
    let stop := if ring then x.seenWrite else st.len
    let s := s.updQueue t q fun x => { x with streams := st :: ss }
    if !s.fetching || y.teardown || (x.state ≠ 1 && x.state ≠ 2) || x.waits.any (·.barrier) || !s.settled t q then .none
    else if pop.2 then .ends (s.pktIllegal t q)
    else if stop ≤ st.pos then .none
    else match s.streamWord y.pasid ring st st.pos with
      | .error e => .ends (s.pktFault t q ring e.2)
      | .ok h =>
        let n := bitsOf h 23 12
        let after := st.pos + 1 + n
        if !wanted (bitsOf h 31 24) then .none
        else if stop < after then (if ring then .none else .ends (s.pktIllegal t q))
        else match s.streamWords y.pasid ring st (st.pos + 1) n with
          | .error e => .ends (s.pktFault t q ring e.2)
          | .ok b =>
            let ws := s.fetchAhead y.pasid ring st after (min (min ahead 256) (stop - after))
            .found (s.updTop t q fun st => { st with pos := after, ahead := ws }) ⟨h, b, st.pos, ring⟩
  | _, _ => .none

/-- The work packets of a slice that have not completed (R245). -/
def State.packetsOut (s : State) (h : Word) : Bool :=
  (s.tcbs.any fun p => p.2.slice == h && p.2.graph.isNone && p.2.spawner.isNone && p.2.packet) ||
    s.graphs.any fun p => p.2.slice == h && p.2.packet && !p.2.done
/-- The slice before the current one of its queue has completed (R253 `ORDERED`). -/
def State.inOrder (s : State) (t q : Nat) (y : Slice) : Bool := !y.ordered || (s.slice (s.queue t q).previous).isNone
/-- Whether a packet is a work packet (R244). -/
def workPacket (k : Nat) : Bool := k = 2 || k = 3 || k = 4 || k = 0xB
/-- Ends the processing of a packet: it counts in the loops of its stream, ib buffers that have ended are left, and the read pointer
follows (R241, R247, R249). -/
def State.packetOver (s : State) (t q : Nat) : State :=
  let s := (s.updTop t q Stream.count).updQueue t q fun x => { x with streams := (popStreams x.streams).1 }
  (s.publish t q).drainStop t q
/-- Holds a work packet behind the waits of its slice; the read pointer does not pass it (R241, R250). -/
def State.holdPacket (s : State) (t q : Nat) (h : Word) (p : Packet) : State :=
  let x := s.queue t q
  let place := if p.ring && ((x.streams.head?).map fun r => r.loops.isEmpty).getD false then p.place else x.readPtr
  s.updQueue t q fun x => { x with deferred := x.deferred ++ [⟨h, p.header, p.body, place⟩] }

/-- Processes the next packet of a queue where its type is one that an event stands for: passed over where its slice is, out of
place where no slice is current, held where it must wait, illegal where its header or its body is (R243, R245, R250, R253). The body
answers none where the packet has to wait. -/
def State.packet (s : State) (t q ahead : Nat) (wanted : Nat → Bool) (legal : Packet → Bool)
    (body : State → Slice → Packet → Option State) : Host.Outcome State Fault Refusal :=
  match s.nextPacket t q ahead wanted with
  | .none => .next s
  | .ends u => .next u
  | .found u p =>
    let x := s.queue t q
    match u.currentSlice t q with
    | none =>
      let u := if x.skipping || p.type = 0 then u else u.abortSlice t q 0x40 0
      .next (u.packetOver t q)
    | some y =>
      let before := x.deferred.any fun d => d.slice == y.handle
      if !u.inOrder t q y then .next s
      else if workPacket p.type && (before || x.waits.any fun w => w.slice == y.handle) then
        .next ((u.holdPacket t q y.handle p).packetOver t q)
      else if bitOf p.header 1 && (before || u.packetsOut y.handle) then .next s
      else if bitsOf p.header 11 2 ≠ 0 || (bitOf p.header 0 && p.type ≠ 0xA) || !legal p then .next (u.pktIllegal t q)
      else match body u y p with
        | some v => .next v
        | none => .next s
/-- A packet of one type. -/
def State.onPacket (s : State) (t q ahead k : Nat) (legal : Packet → Bool)
    (body : State → Slice → Packet → Option State) : Host.Outcome State Fault Refusal :=
  s.packet t q ahead (· = k) legal body

/-! ### Packets (Table 11.3) -/

/-- A nop; and a packet whose type Table 11.3 does not have, which is illegal (R243, R244). -/
def execPktNop (t q ahead : Nat) (s : State) : Host.Outcome State Fault Refusal :=
  s.packet t q ahead (fun k => k = 0 || decide (0xF < k)) (fun p => p.type = 0) fun s _ _ => some (s.packetOver t q)

/-- Begins a slice: its handle, and its admission (R253, R254, R257). -/
def State.beginSlice (s : State) (t q : Nat) (p : Packet) : State :=
  let s := s.endPackets t q
  let n := (s.queue t q).serial + 1
  let h := BitVec.ofNat 64 (n * 2 ^ 16 + t * 2 ^ 10 + q * 2 ^ 6)
  let s := s.updQueue t q fun x => { x with serial := n, current := h }
  let b := p.body
  let tag := BitVec.ofNat 32 (b.getD 5 0)
  let pass := fun (s : State) => s.updQueue t q fun x => { x with skipping := true }
  if b.length ≠ 8 || bitsOf p.header 11 2 ≠ 0 || bitOf p.header 0 then
    (pass (s.entry t q (completionEntry h 2 0x40 tag 0))).postEvent t (eventEntry s.ptb h 0 3 0x40 0 0 0)
  else
    let code := s.admission t q b
    if code ≠ 0 then pass (s.entry t q (completionEntry h 1 code tag 0))
    else
      let y : Slice :=
        { handle := h, tenant := t, queue := q, deadline := p.word 0, budget := p.word 2, charged := 0, outst := 0
          be := bitOf (b.getD 4 0) 8, ordered := bitOf (b.getD 4 0) 9, tag := tag, word4 := BitVec.ofNat 32 (b.getD 4 0)
          budgetAt := p.word 2, packetsDone := false, cancel := none, endKind := 0, endCode := 0, fail := none
          stopped := false, missed := false }
      { s with slices := s.slices ++ [y] }
/-- A slice packet: illegal in an ib buffer and in a loop body (R247, R249), held while the completion ring is full (R255). -/
def execPktSlice (t q ahead : Nat) (s : State) : Host.Outcome State Fault Refusal :=
  match s.nextPacket t q ahead (· = 1) with
  | .none => .next s
  | .ends u => .next u
  | .found u p =>
    let loops := ((u.queue t q).streams.map fun st => !st.loops.isEmpty).headD false
    if !p.ring then .next (u.pktIllegal t q)
    else if loops then .next ((u.updTop t q fun st => { st with pos := p.place, ahead := [] }).pktIllegal t q)
    else if !(s.queue t q).entries.isEmpty || !s.entryRoom t q then .next s
    else .next (((u.beginSlice t q p).publish t q).drainStop t q)

/-- Enters the node of a work packet of a slice, where the pool has room. -/
def State.enterPacket (s : State) (t : Nat) (h : Word) (image : List Byte) : Option State :=
  match s.freeNode, s.tenant t with
  | some n, some x =>
    let c := { newTcb image h t x.pasid s.ptb with packet := true, order := s.serialNo }
    some (({ s with tcbs := Tab.put s.tcbs n c, serialNo := s.serialNo + 1 } : State).outUp h)
  | _, _ => none
/-- A range of a copy packet lies whole in translated memory. -/
def Packet.clear (base : Nat) (r : Int × Int) : Bool := !inThreadAp base && !inServiceAp base && !meetsAperture r
/-- The body of a work packet is within Table 11.3: a record 64-byte aligned, images 128-byte aligned, a descriptor with `BAR` 0 and both
ranges in translated memory (R244, R245). -/
def Packet.workLegal (p : Packet) : Bool :=
  match p.type with
  | 4 => p.body.length = 4 && p.word 0 % 128 = 0 && 1 ≤ p.body.getD 2 0 && p.body.getD 2 0 ≤ 65535 && p.body.getD 3 0 = 0
  | 0xB =>
    let d := copyDesc (p.body.flatMap fun w => leBytes 4 w)
    let range := fun (base : Nat) (str : List Int) => if d.ext.contains 0 then ((base : Int), (base : Int)) else d.bound base str
    p.body.length = 16 && p.word 4 = 0 && Packet.clear d.src (range d.src d.sstr) && Packet.clear d.dst (range d.dst d.dstr)
  | _ => p.body.length = 2 && p.word 0 % 64 = 0
/-- Aborts a slice with a code (R243, R424). -/
def State.abortHandle (s : State) (t : Nat) (h : Word) (code : Nat) (addr : Word) : State :=
  (s.stopSlice h 1 2 code).postEvent t (eventEntry s.ptb h 0 3 code 0 0 addr)
/-- Dispatches a graph packet of a slice: its checks, then its nodes; with too few free entries it waits (R300; log 22). -/
def State.dispatchGraph (s : State) (t : Nat) (h : Word) (p : Packet) : Option (Bool × State) :=
  match s.tenant t with
  | none => none
  | some x =>
    let n := p.body.getD 2 0
    match s.partRead (tenantCtx x.pasid) (BitVec.ofNat 64 (p.word 0)) (128 * n) with
    | .error e => some (false, s.abortHandle t h 0x44 e.2)
    | .ok r => match s.submit (h, t, x.pasid) n r with
      | .fails => some (false, s.abortHandle t h 0x40 0)
      | .full => none
      | .done i s => some (true, { s with graphs := Tab.upd s.graphs i fun g => { g with packet := true } })
/-- Dispatches a work packet of a slice: none where it has to wait, else whether it was dispatched and not aborted (R245). A launchp
packet's node announces the launch when it is dispatched (R375). -/
def State.dispatchPacket (s : State) (t : Nat) (h : Word) (p : Packet) : Option (Bool × State) :=
  match p.type with
  | 4 => s.dispatchGraph t h p
  | 0xB => (s.enterPacket t h (mkRecord 128 [(0, 1, 2)] ++ p.body.flatMap fun w => leBytes 4 w)).map fun s => (true, s)
  | k => (s.enterPacket t h (mkRecord 128 [(0, 1, 1), (1, 1, if k = 3 then 1 else 0), (0x10, 8, p.word 0)])).map fun s => (true, s)
/-- A work packet of one type (R244, R245). -/
def State.onWork (s : State) (t q ahead k : Nat) : Host.Outcome State Fault Refusal :=
  s.onPacket t q ahead k Packet.workLegal fun s y p => (s.dispatchPacket t y.handle p).map fun r => if r.1 then r.2.packetOver t q else r.2
/-- Dispatches a held packet of a queue, where nothing holds it any more; false where something does. -/
def State.tryHeld (s : State) (t q : Nat) (d : HeldPacket) : State × Bool :=
  let p : Packet := ⟨d.header, d.body, d.place, true⟩
  if (s.queue t q).waits.any (fun w => w.slice == d.slice) || !s.settled t q || (bitOf d.header 1 && s.packetsOut d.slice) then (s, false)
  else if bitsOf d.header 11 2 ≠ 0 || bitOf d.header 0 || !p.workLegal then (s.abortHandle t d.slice 0x40 0, true)
  else match s.dispatchPacket t d.slice p with
    | some r => (r.2, true)
    | none => (s, false)
/-- Dispatches the held packets of a queue, each slice's in order, as far as nothing holds them (R245, R250). -/
def State.tendHeld (s : State) (t q : Nat) : State :=
  ((s.queue t q).deferred.foldl (fun (r : State × List Word) d =>
    if r.2.contains d.slice || !(r.1.queue t q).deferred.contains d then r
    else
      let u := r.1.tryHeld t q d
      if u.2 then (u.1.updQueue t q fun x => { x with deferred := x.deferred.erase d }, r.2) else (u.1, d.slice :: r.2)) (s, [])).1
/-- A launch packet (R245). -/
def execPktLaunch (t q ahead : Nat) (s : State) : Host.Outcome State Fault Refusal := s.onWork t q ahead 2
/-- A launchp packet (R245, R375). -/
def execPktLaunchp (t q ahead : Nat) (s : State) : Host.Outcome State Fault Refusal := s.onWork t q ahead 3
/-- A graph packet (R245, R300). -/
def execPktGraph (t q ahead : Nat) (s : State) : Host.Outcome State Fault Refusal := s.onWork t q ahead 4
/-- An ib packet: its buffer is opened one level deeper, at most four (R247). -/
def execPktIb (t q ahead : Nat) (s : State) : Host.Outcome State Fault Refusal :=
  s.onPacket t q ahead 5
    (fun p => p.body.length = 4 && p.word 0 % 4 = 0 && 1 ≤ p.body.getD 2 0 && p.body.getD 2 0 ≤ 2 ^ 22 && p.body.getD 3 0 = 0)
    fun s _ p =>
      if 5 ≤ (s.queue t q).streams.length then some (s.abortSlice t q 0x41 0)
      else
        let st : Stream := { base := p.word 0, len := p.body.getD 2 0, pos := 0, ahead := [], loops := [] }
        some ((s.updTop t q Stream.count).updQueue t q fun x => { x with streams := st :: x.streams })

/-- What passing over packets finds: the place behind them, the stream's end, or a word that faults. -/
inductive Skip where
  | at (p : Nat)
  | past
  | fault (addr : Word)
  deriving DecidableEq, Repr
/-- Passes over n packets of a stream from a place; a loop takes its body with it (R248, R249). The first argument bounds the
packets. -/
def State.skipPackets (s : State) (pasid : Nat) (ring : Bool) (st : Stream) (stop : Nat) : Nat → Nat → Nat → Skip
  | _, 0, p => .at p
  | 0, _, _ => .past
  | k + 1, n + 1, p =>
    if stop ≤ p then .past
    else match s.streamWord pasid ring st p with
      | .error e => .fault e.2
      | .ok h =>
        let next := p + 1 + bitsOf h 23 12
        if stop < next || (ring && bitsOf h 31 24 = 1) then .past
        else if bitsOf h 31 24 = 7 then
          match s.streamWord pasid ring st (p + 1) with
          | .error e => .fault e.2
          | .ok c => State.skipPackets s pasid ring st stop k (n + c % 256) next
        else State.skipPackets s pasid ring st stop k n next
/-- The comparison of a pred packet (Table 11.3). -/
def predHolds (c : Nat) (x y : Word) : Bool :=
  match c with
  | 0 => x == y
  | 1 => x != y
  | 2 => decide (x.toInt < y.toInt)
  | 3 => decide (x.toInt ≤ y.toInt)
  | 4 => decide (x.toNat < y.toNat)
  | _ => decide (x.toNat ≤ y.toNat)
/-- A pred packet: a skip inside a loop body ends with the body (R248, R249). -/
def execPktPred (t q ahead : Nat) (s : State) : Host.Outcome State Fault Refusal :=
  s.onPacket t q ahead 6
    (fun p => p.body.length = 6 && p.word 0 % 8 = 0 && p.body.getD 4 0 ≤ 5 && 1 ≤ p.body.getD 5 0 && p.body.getD 5 0 ≤ 255)
    fun s _ p =>
      match s.tenant t, (s.queue t q).streams with
      | some x, st :: ss =>
        match s.partNat (tenantCtx x.pasid) (BitVec.ofNat 64 (p.word 0)) 8 with
        | .error e => some (s.pktFault t q false e.2)
        | .ok v =>
          if predHolds (p.body.getD 4 0) (BitVec.ofNat 64 v) (BitVec.ofNat 64 (p.word 2)) then some (s.packetOver t q)
          else
            let n := match st.loops with
              | (_, _, _, left) :: _ => min (p.body.getD 5 0) (left - 1)
              | [] => p.body.getD 5 0
            let stop := if ss.isEmpty then (s.queue t q).seenWrite else st.len
            match s.skipPackets x.pasid ss.isEmpty st stop (2 ^ 32) n st.pos with
            | .past => some (s.pktIllegal t q)
            | .fault a => some (s.pktFault t q ss.isEmpty a)
            | .at place =>
              let s := s.updTop t q fun st => ({ st with pos := place, ahead := st.ahead.drop (place - st.pos) } : Stream).countN n
              some (s.packetOver t q)
      | _, _ => none
/-- A loop packet, at most four deep in its stream (R249). -/
def execPktLoop (t q ahead : Nat) (s : State) : Host.Outcome State Fault Refusal :=
  s.onPacket t q ahead 7 (fun p => p.body.length = 2 && 1 ≤ p.body.getD 0 0 && p.body.getD 0 0 ≤ 255 && 1 ≤ p.body.getD 1 0)
    fun s _ p =>
      match (s.queue t q).streams with
      | st :: _ =>
        let n := p.body.getD 0 0
        if 4 ≤ st.loops.length then some (s.pktIllegal t q)
        else some (s.updTop t q fun st => { st with loops := (st.pos, n, p.body.getD 1 0, n) :: st.loops })
      | [] => none
/-- An ffence packet: every word fetched beyond it is discarded (R246). -/
def execPktFfence (t q ahead : Nat) (s : State) : Host.Outcome State Fault Refusal :=
  s.onPacket t q ahead 8 (fun p => p.body.isEmpty) fun s _ _ =>
    let bare : List Stream → List Stream := fun ss => ss.map fun st => { st with ahead := [] }
    some ((s.updQueue t q fun x => { x with streams := bare x.streams }).packetOver t q)
/-- A signal packet: an atomic add with release at system scope (R245). -/
def execPktSignal (t q ahead : Nat) (s : State) : Host.Outcome State Fault Refusal :=
  s.onPacket t q ahead 9 (fun p => p.body.length = 4 && p.word 0 % 8 = 0) fun s _ p =>
    match s.signalAdd (queueSource t q) (s.queue t q).current (((s.tenant t).map (·.pasid)).getD 0) (BitVec.ofNat 64 (p.word 0)) (BitVec.ofNat 64 (p.word 2)) with
    | .error e => some (s.pktFault t q false e.2)
    | .ok none => none
    | .ok (some s) => some (s.packetOver t q)
/-- Stores bytes for the complex with release at system scope; a fault is an operand fault (R245, R424). -/
def State.packetStore (s : State) (t q : Nat) (va : Word) (bs : List Byte) : State :=
  let c := tenantCtx (((s.tenant t).map (·.pasid)).getD 0)
  match s.writeAt (queueSource t q) (some 5) c va bs with
  | .error e => s.pktFault t q false e.2
  | .ok u => (u.chargeStore (s.queue t q).current c va bs.length).packetOver t q
/-- A write packet (R245). -/
def execPktWrite (t q ahead : Nat) (s : State) : Host.Outcome State Fault Refusal :=
  s.onPacket t q ahead 0xC (fun p => 3 ≤ p.body.length && p.word 0 % 4 = 0) fun s _ p =>
    some (s.packetStore t q (BitVec.ofNat 64 (p.word 0)) ((p.body.drop 2).flatMap fun w => leBytes 4 w))
/-- A timestamp packet (R245). -/
def execPktTimestamp (t q ahead : Nat) (s : State) : Host.Outcome State Fault Refusal :=
  s.onPacket t q ahead 0xD (fun p => p.body.length = 2 && p.word 0 % 8 = 0) fun s _ p =>
    some (s.packetStore t q (BitVec.ofNat 64 (p.word 0)) (leBytes 8 s.ptb))
/-- A copy packet (R245). -/
def execPktCopy (t q ahead : Nat) (s : State) : Host.Outcome State Fault Refusal := s.onWork t q ahead 0xB
/-- A cancel packet (R252): of the current slice the work dispatched so far, of another the whole slice. -/
def execPktCancel (t q ahead : Nat) (s : State) : Host.Outcome State Fault Refusal :=
  s.onPacket t q ahead 0xE (fun p => p.body.length = 3 && p.body.getD 2 0 ≤ 1) fun s y p =>
    let h := BitVec.ofNat 64 (p.word 0)
    let mode := p.body.getD 2 0
    let s := s.packetOver t q
    match s.slice h with
    | some x =>
      if x.tenant ≠ t then some s
      else if x.handle == y.handle then some (s.cancelDispatched h mode)
      else some (s.stopSlice h mode 3 0x15)
    | none => some s
/-- A hostirq packet: an MSI in hosted mode, else a `HOSTIRQ` message to the owning shard (R245, Table 16.2). -/
def execPktHostirq (t q ahead : Nat) (s : State) : Host.Outcome State Fault Refusal :=
  s.onPacket t q ahead 0xF (fun p => p.body.length = 1 && p.body.getD 0 0 < 2 ^ 11) fun s y p =>
    match s.tenant t with
    | none => none
    | some x =>
      let v := p.body.getD 0 0
      let s := if s.hosted then s.tenantMsi x v
        else s.tell (s.complexCore 0) (some x.shard) (mkRecord 64 [(0, 2, 5), (2, 2, v), (8, 8, y.handle.toNat)])
      some (s.packetOver t q)

/-! ### Waits (R250, R251) -/

/-- Signals that the walk of a slice's remainder finds: each open stream from its place, ib buffers followed, each loop body once.
The first argument bounds the packets; a stream ends where a word cannot be fetched (R251). -/
def State.walkSignals (s : State) (pasid written : Nat) : Nat → List (Stream × Nat) → List Word → List Word
  | 0, _, acc => acc
  | _, [], acc => acc
  | k + 1, (st, depth) :: ss, acc =>
    let ring := depth = 0
    let stop := if ring then written else st.len
    let next := State.walkSignals s pasid written k
    if stop ≤ st.pos then next ss acc
    else match s.streamWord pasid ring st st.pos with
      | .error _ => next ss acc
      | .ok h =>
        let n := bitsOf h 23 12
        if stop < st.pos + 1 + n || (ring && bitsOf h 31 24 = 1) then next ss acc
        else
          let rest := ({ st with pos := st.pos + 1 + n, ahead := st.ahead.drop (1 + n) }, depth) :: ss
          match s.streamWords pasid ring st (st.pos + 1) (min n 3) with
          | .error _ => next ss acc
          | .ok b =>
            let a := b.getD 0 0 + b.getD 1 0 * 2 ^ 32
            if bitsOf h 31 24 = 9 && n = 4 && a % 8 = 0 then next rest (acc ++ [BitVec.ofNat 64 a])
            else if bitsOf h 31 24 = 5 && n = 4 && a % 4 = 0 && depth < 4 then
              next (({ base := a, len := b.getD 2 0, pos := 0, ahead := [], loops := [] }, depth + 1) :: rest) acc
            else next rest acc
/-- Where the remainder of a stream begins: a loop with a further pass to make begins its body again (R251). -/
def Stream.remainder (st : Stream) : Stream :=
  let p := ((st.loops.filter fun l => 1 < l.2.2.1).map Prod.fst).foldl min st.pos
  if p = st.pos then st else { st with pos := p, ahead := [] }
/-- Aborts a slice with `SIG_NEG`: where it is the current one, each signal of its remainder becomes −2^63, by a store with release at
system scope (R251). -/
def State.signalAbort (s : State) (t q : Nat) (h : Word) : State :=
  let x := s.queue t q
  let c := tenantCtx (((s.tenant t).map (·.pasid)).getD 0)
  let depths := (x.streams.map Stream.remainder).zip (List.range x.streams.length).reverse
  let live := ((s.currentSlice t q).map fun y => y.handle == h).getD false
  let found := if live then s.walkSignals c.pasid x.seenWrite (2 ^ 64) depths [] else []
  let s := found.foldl (fun s a => match s.writeAt (queueSource t q) (some 5) c a (leBytes 8 (2 ^ 63)) with
    | .ok u => u.chargeStore h c a 8
    | .error _ => s) s
  s.abortHandle t h 0x42 0
/-- What an observation of signals finds. -/
inductive Seen where
  | waits
  | satisfied
  | negative
  | fault (addr : Word)
  deriving DecidableEq, Repr
/-- Observes signals (R250). -/
def State.observe (s : State) (pasid : Nat) : List Nat → Seen
  | [] => .satisfied
  | a :: as =>
    match s.partNat (tenantCtx pasid) (BitVec.ofNat 64 a) 8 with
    | .error e => .fault e.2
    | .ok v =>
      let x := (BitVec.ofNat 64 v).toInt
      match State.observe s pasid as with
      | .fault e => .fault e
      | .waits => .waits
      | .negative => if 0 < x then .waits else .negative
      | .satisfied => if 0 < x then .waits else if x < 0 then .negative else .satisfied
/-- A wait packet's length and body are in order. -/
def Packet.waitLegal (p : Packet) : Bool :=
  let n := p.body.getD 0 0
  decide (1 ≤ n) && decide (n ≤ 8) && p.body.length = 1 + 2 * n && (List.range n).all fun i => p.word (1 + 2 * i) % 8 = 0
/-- A wait packet is first processed (R250). -/
def execPktWait (t q ahead : Nat) (s : State) : Host.Outcome State Fault Refusal :=
  s.onPacket t q ahead 0xA Packet.waitLegal fun s y p =>
    let addrs := (List.range (p.body.getD 0 0)).map fun i => p.word (1 + 2 * i)
    match s.observe (((s.tenant t).map (·.pasid)).getD 0) addrs with
    | .satisfied => some (s.packetOver t q)
    | .negative => some (s.signalAbort t q y.handle)
    | .fault a => some (s.pktFault t q false a)
    | .waits =>
      let w : WaitPkt := ⟨y.handle, addrs, bitOf p.header 0⟩
      some ((s.updQueue t q fun x => { x with waits := x.waits ++ [w] }).packetOver t q)
/-- The waits of a queue observe their signals again, whether or not it is fetched, and packets that no wait holds any more are dispatched
(R250). A fault on a signal aborts the wait's slice (R424). -/
def execWaitObservation (t q ahead : Nat) (s : State) : Host.Outcome State Fault Refusal :=
  let x := s.queue t q
  if !s.complexUp || !s.settled t q then .next s
  else
    let s := x.waits.foldl (fun s w =>
      if !(s.queue t q).waits.contains w then s
      else
        let drop := fun (s : State) => s.updQueue t q fun x => { x with waits := x.waits.erase w }
        match s.observe (((s.tenant t).map (·.pasid)).getD 0) w.signals with
        | .waits => s
        | .satisfied => drop s
        | .negative => drop (s.signalAbort t q w.slice)
        | .fault a => drop (s.abortHandle t w.slice 0x44 a)) s
    let s := (((s.tendHeld t q).tendRing t q).publish t q).drainStop t q
    .next (if s.fetching then s.lookAhead t q ahead else s)

end Sys2Proof.Machine
end

