-- ==== Sys2Proof/Machine/Pod.lean ====
section
/-! DEFINITION. The pod: its fabric and its formation, the phases of a pod launch, reports and losses (R373 to R381). -/

namespace Sys2Proof.Machine

/-! ### Fabric and formation (R373, R374) -/

/-- One byte of the CRC-64 of ECMA-182, most significant bit first. -/
def crc64Byte (c : Word) (b : Byte) : Word :=
  (List.range 8).foldl (fun c _ => if c.getLsbD 63 then c <<< 1 ^^^ 0x42F0E1EBA9EA3693 else c <<< 1) (c ^^^ b.setWidth 64 <<< 56)
/-- The CRC-64 of bytes, over the ECMA-182 polynomial (Table 17.1; log 11). -/
def crc64 (bs : List Byte) : Word := bs.foldl crc64Byte 0
/-- A flit as Table 17.1 lays it out, with its CRC: its chips and its virtual channel are ones that there are. -/
def flitSound (bytes : List Byte) : Bool :=
  bytes.length = 256 && recWord bytes 0xF8 == crc64 (bytes.take 0xF8) && recAt bytes 0 2 < 1024 && recAt bytes 2 2 < 1024 && recAt bytes 4 1 < 3
/-! ### What flits ask and tell (R273, R275, R277, R375, R377, R380, R398; log 31) -/

/-- The pod launch that this chip roots under a handle, with its index. -/
def State.rooted (s : State) (h : Word) : Option (Nat × Launch) :=
  let i := bitsOf h.toNat 23 6
  (s.launch i).bind fun x => if x.pod && x.root = s.chip && tableHandle x.serial i 1 == h then some (i, x) else none
/-- A chip of the range of a launch that is not done asks its root: what is answered, or what is where the launch is not there. -/
def State.asRoot (s : State) (h : Word) (chip tag : Nat) (gone : List Word) (body : Nat → Launch → List Word × State) : State :=
  match s.rooted h with
  | some (l, x) =>
    if x.done || !x.range.contains chip then s.podReply x.slice chip tag gone
    else
      let r := body l x
      r.2.podReply x.slice chip tag r.1
  | none => s.podReply 0 chip tag gone
/-- The first of some units with a free granule, dealt in one step: its place in the list, the mask bits and its granules, and the state
(R272). -/
def State.dealUnits (s : State) (x : Launch) : Nat → List (Word × Word) → Option (Nat × List Nat × Word × Word) × State
  | _, [] => (none, s)
  | i, p :: ps =>
    match s.moveGranules x (x.unit p.1 p.2) 0 1 with
    | ([], s) => State.dealUnits s x (i + 1) ps
    | (bs, s) => (some (i, bs, p.1, p.2), s)
/-- The root's dispenser refills another chip's: the committed registers, and the units (R273, R375). -/
def State.refillChip (s : State) (l : Nat) (x : Launch) (chip : Nat) : List Word × State :=
  let kids := s.dealerChips x
  let y := if kids.contains (chipKey chip) then x.stockUp [(chipKey chip, 0, kids)] else x
  let us := (y.stocked (chipKey chip)).map (BitVec.ofNat 64)
  (1 :: (List.range 16).map (fun n => Tab.at x.sch n 0) ++ us,
    s.updLaunch l fun z => { z with walk := y.walk, stock := Tab.put y.stock (chipKey chip) [], turn := y.turn })
/-- The root's dispenser deals to another chip, of the units that a dispenser there holds under a generation, or refills it: 0 a unit, with
its place, mask, origin and extent; 1 a refill; 2 that no granule is free, or the launch is being cancelled; 3 that none of those units
has a free one (R272, R273). -/
def State.dealFor (s : State) (l : Nat) (x : Launch) (chip : Nat) (held : Option (Word × List (Word × Word))) : List Word × State :=
  if x.cancel.isSome then ([2], s)
  else match s.sheet x x.granules with
    | .error e => ([2], s.wiredFault x.tenant e)
    | .ok vs =>
      if !vs.contains 0 then ([2], s)
      else match held with
        | none => s.refillChip l x chip
        | some (gen, units) =>
          if gen != Tab.at x.sch 7 0 then s.refillChip l x chip
          else match s.dealUnits x 0 units with
            | (none, s) => ([3], s)
            | (some (i, bs, o, e), s) =>
              let gone := ((x.unit o e).filter fun p => bs.contains p.1).map Prod.snd
              ([0, BitVec.ofNat 64 i, bitsWord bs, o, e], s.updLaunch l fun z => { z with dealtTo := gone.foldl (fun t i => Tab.put t i chip) z.dealtTo })
/-- A launch's root holds its deals back while the slice is stopped (R274). -/
def State.dealsHeld (s : State) (h : Word) : Bool := ((s.rooted h).map fun p => s.sliceStopped p.2.slice).getD false
/-- The group that asked is still there. -/
def State.agentLives (s : State) : Agent → Bool
  | .core i => (s.scalar i).isSome
  | a => ((s.gang a).map fun g => !g.ended).getD false
/-- What a `tfetch` takes from the answer of its root, none where it asks again, and the state: a dealt unit enters the deal list, and a
refill its chip's dispenser (R72, R273, R298). -/
def State.tookDeal (s : State) (l : Nat) (x : Launch) (a : Agent) (core : Option Nat) (gen : Word) (us : List Nat) (ws : List Word) :
    Option (List Word) × State :=
  let word := fun (n : Nat) => ws.getD n 0
  match (ws.headD 2).toNat with
  | 0 =>
    let left := us.drop ((word 1).toNat + 1)
    let k := coreKey (core.getD 0)
    let s := if Tab.at x.sch 7 0 == gen then s.updLaunch l fun y => { y with stock := Tab.put y.stock k (y.stocked k ++ left) } else s
    let s := match a with
      | .gang w _ => s.dealtUnit w (word 3) (word 4) (word 2)
      | .core _ => s
    (some (quadOf (word 3) (word 4) (word 2) gen), s)
  | 1 =>
    let t := (List.range 16).foldl (fun t n => Tab.set 0 t n (word (n + 1))) []
    let x := if Tab.at t 7 0 == Tab.at x.sch 7 0 then x else { x with sch := t, proof := t, stock := [], turn := [] }
    let x := x.hand 0 (chipKey s.chip) ((ws.drop 17).map BitVec.toNat)
    let s := s.updLaunch l fun y => { y with sch := x.sch, proof := x.proof, stock := x.stock, turn := x.turn }
    match core with
    | some c => if s.inPlacement x c then (none, s) else (some (s.doneQuad x).1, (s.doneQuad x).2)
    | none => (none, s)
  | 2 => if core.isSome then (some (s.doneQuad x).1, (s.doneQuad x).2) else (none, s)
  | _ => (none, s)
/-- An answer arrives for a question: its instruction goes on with it when it is issued again. -/
def State.answered (s : State) (tag : Nat) (ws : List Word) : State :=
  match s.asks.find? fun q => q.tag = tag && q.got.isNone with
  | none => s
  | some q =>
    let rest : State := { s with asks := s.asks.filter fun r => r.tag ≠ tag }
    let take := fun (s : State) (vs : List Word) => if s.agentLives q.agent then { s with asks := s.asks ++ [{ q with got := some vs }] } else s
    let deal := fun (core : Option Nat) (gen : Word) (us : List Nat) =>
      match s.launches.find? fun p => p.2.serial = q.launch with
      | none => rest
      | some (l, x) =>
        let r := rest.tookDeal l x q.agent core gen us ws
        match r.1 with
        | some vs => take r.2 vs
        | none => r.2
    match q.what with
    | .value => take rest [ws.headD ones]
    | .status left =>
      if ws.isEmpty && decide (1 < left) then
        { s with asks := s.asks.map fun r => if r.tag = tag then { r with what := .status (left - 1) } else r }
      else take rest [ws.headD ones]
    | .unit core gen us => deal (some core) gen us
    | .chunk core => deal core 0 []
    | .granules dst gs =>
      match s.launches.find? fun p => p.2.serial = q.launch with
      | none => rest
      | some (l, x) =>
        let r := rest.gaveBack l x gs (ws.map BitVec.toNat) dst
        take r.2 [r.1]
    | .forsaken dst =>
      match s.launches.find? fun p => p.2.serial = q.launch, ws with
      | some (_, x), [0, _, mask, o, e] => rest.shiftGranules x ((x.unit o e).filter fun p => mask.getLsbD p.1) dst
      | _, _ => rest
/-- What a flit does to the chip that it is for. -/
def State.podMessage (s : State) (m : PodMsg) : State :=
  match m with
  | .store key bytes => if decide (key < hostKey) && !s.remote key then s.homeStore key bytes else s
  | .abort root h =>
    match s.launches.find? fun p => p.2.pod && p.2.root = root && p.2.rootLaunch = h.toNat && !p.2.done with
    | some p => s.abortCollective p.1
    | none => s
  | .schr h chip tag n proof => s.asRoot h chip tag [ones] fun _ x => ([Tab.at (if proof then x.proof else x.sch) n 0], s)
  | .schw h n v =>
    match s.rooted h with
    | some (l, x) => if x.done then s else s.proofWrite l n v
    | none => s
  | .schcommit h chip tag => s.asRoot h chip tag [ones] fun l x => ([(s.commitOf l x).1], (s.commitOf l x).2)
  | .deal h chip tag gen units =>
    if s.dealsHeld h then { s with parked := s.parked ++ [m] } else s.asRoot h chip tag [2] fun l x => s.dealFor l x chip (some (gen, units))
  | .chunk h chip tag =>
    if s.dealsHeld h then { s with parked := s.parked ++ [m] } else s.asRoot h chip tag [2] fun l x => s.dealFor l x chip none
  | .granules h chip tag dst list =>
    let move := fun (x : Launch) =>
      let r := s.moveGranules x (list.map fun i => (i, i)) 1 dst
      (r.1.map (BitVec.ofNat 64), r.2)
    match tag with
    | some t => s.asRoot h chip t [] fun _ x => move x
    | none => ((s.rooted h).map fun p => (move p.2).2).getD s
  | .tstat h chip tag sel =>
    s.asRoot h chip tag [ones] fun _ x =>
      match s.tstatOf x sel with
      | .ok n => ([BitVec.ofNat 64 n], s)
      | .error e => ([ones], s.wiredFault x.tenant e)
  | .charge slice n => if (s.slice slice).isSome then s.charge slice n else s
  | .wait h tenant chip tag =>
    match s.rooted h with
    | some (_, x) =>
      if (tenant.map fun t => decide (t = x.tenant)).getD true then
        (if x.done then s.podReply x.slice chip tag [x.statusWord] else { s with waiters := s.waiters ++ [(h, chip, tag)] })
      else s.podReply 0 chip tag []
    | none => s.podReply 0 chip tag []
  | .cancel h chip tag kill =>
    match s.rooted h with
    | some (l, x) =>
      if x.done then s.podReply x.slice chip tag [1] else (s.cancelLaunch l (if kill then 1 else 0)).podReply x.slice chip tag [0]
    | none => s.podReply 0 chip tag [ones]
  | .answer tag ws => s.answered tag ws
/-- Deals that were held back while their slice was stopped. -/
def State.unpark (s : State) : State := s.parked.foldl State.podMessage { s with parked := [] }

/-! ### The fabric and the formation of the pod (R373, R374) -/

/-- A flit arrives at a port: one whose CRC fails is sent again by the link, and nothing else happens; one for another chip of the pod goes
on by the port of its route; of one for this chip, which comes in its place in its channel, the message is taken (R373; log 31). -/
def execFlitReceive (port : Nat) (bytes : List Byte) (s : State) : Host.Outcome State Fault Refusal :=
  let target := recAt bytes 0 2
  let channel := recAt bytes 2 2 * 4 + recAt bytes 4 1
  if 18 ≤ port || Tab.at s.ports port false || !flitSound bytes || s.alone || !s.podUp || !s.podChips.contains (recAt bytes 2 2) then .next s
  else if target ≠ s.chip then
    match if s.podChips.contains target then s.routePort target else none with
    | some p => .next { s with out := s.out ++ [.flit p bytes] }
    | none => .next s
  else if recAt bytes 6 2 ≠ Tab.at s.flitSeen channel 0 then .next s
  else
    let s := { s with flitSeen := Tab.put s.flitSeen channel ((recAt bytes 6 2 + 1) % 65536) }
    .next (match Config.flitMessage bytes with
      | some m => s.podMessage m
      | none => s)
/-- A port fails: the pod forms again without it (R373). -/
def execFabricPortFailure (port : Nat) (s : State) : Host.Outcome State Fault Refusal :=
  .next (if port < 18 then { s with ports := Tab.put s.ports port true, podFormed := false } else s)
/-- The pod forms: of a clash of chip indices this package runs alone, and the controller reports it; else it takes its place among the
packages that have announced themselves. One that the master is ahead of by some ns steps its PTB forward, and one that is ahead advances
its count slowly until the master has caught up (R328, R373, R374, R388). -/
def execPodFormation (clash : Bool) (ahead : Int) (chips : List PodChip) (s : State) : Host.Outcome State Fault Refusal :=
  if s.inReset || s.bootStep ≤ 4 then .next s
  else if clash then
    .next { s with alone := true, podFormed := false, podChips := [s.chip], podMap := [], slow := 0, mcstat := s.mcstat ||| 0x40000 }
  else
    let all := chips.filter fun c => decide (c.index < 1024)
    let others := ((all.map (·.index)).filter fun c => decide (c ≠ s.chip)).eraseDups
    let master := !others.any (· < s.chip)
    .next { s with
      alone := false, podFormed := true, podChips := s.chip :: others, podMap := all, flitSeen := [], mcstat := s.mcstat &&& ~~~0x40000
      ptb := if master then s.ptb else s.ptb + ahead.toNat, slow := if master then 0 else (-ahead).toNat }

/-! ### Announce, Go, Withdraw (R375, R376) -/

/-- The launch here of a root's pod launch that is not done. -/
def State.memberOf (s : State) (root rootLaunch : Nat) : Option (Nat × Launch) :=
  s.launches.find? fun p => p.2.pod && p.2.root = root && p.2.rootLaunch = rootLaunch && !p.2.done && p.2.root ≠ s.chip
/-- A message down a root's tree is taken in its turn, and passed on to this chip's children (R375, R376). -/
def State.heard (s : State) (hop : Nat × Nat) (kind l : Nat) (body : List Byte) (act : State → State) : Host.Outcome State Fault Refusal :=
  .next (if s.hears hop then act (s.relay hop kind l body) else s)
/-- Every core of a launch's placement here has room for its workgroup. -/
def State.placementRoom (s : State) (x : Launch) : Bool :=
  x.placement.all fun c => (List.range 4).any fun k => s.hasRoom c k x
/-- The chips of the range acknowledge: this one reserves the space of a launch's placement once it has it, the root not later than
100 µs after the announce (R375). -/
def State.ackMembers (s : State) : State :=
  s.launches.foldl (fun s p =>
    match s.launch p.1 with
    | none => s
    | some x =>
      let late := x.root = s.chip && decide (x.announced + 100000 < s.ptb)
      if x.pod && !x.started && !x.done && x.cancel.isNone && x.total ≠ 0 && !late && x.range.contains s.chip && !x.acked.contains s.chip &&
          s.placementRoom x then
        let s := s.updLaunch p.1 fun x => { x with acked := s.chip :: x.acked }
        if x.root = s.chip then s else s.treeSend x.slice 5 x.rootLaunch [x.root] []
      else s) s
/-- An announce reaches this chip: outside the range it is passed on and no more. A chip of the range checks the record, a failure of which
it reports, takes an entry, for which the announce waits, and acknowledges once it has the space of its placement (R294, R375; log 30). -/
def execLaunchAnnounce (hop : Nat × Nat) (rootLaunch pasid slice : Nat) (bytes : List Byte) (s : State) : Host.Outcome State Fault Refusal :=
  let handle := BitVec.ofNat 64 slice
  let member := (placeChips (recordSch bytes)).contains s.chip
  if bytes.length ≠ 384 || (member && s.freeLaunch.isNone) then .next s
  else s.heard hop 0 rootLaunch (leBytes 8 slice ++ leBytes 4 pasid ++ bytes) fun s =>
    if !member || (s.memberOf hop.1 rootLaunch).isSome then s
    else
      let s := s.tenantOfPod (bitsOf slice 15 10)
      match s.takeLaunch bytes handle (bitsOf slice 15 10) (pasid % 2 ^ 20) 0 none true with
      | none => s
      | some (l, u) =>
        match u.launch l with
        | none => s
        | some x =>
          let x := u.withPlacement { x with root := hop.1, rootLaunch := rootLaunch }
          if !u.launchOk x then s.treeSend handle 11 rootLaunch [hop.1] []
          else (u.armLaunch l x).updLaunch l fun y => { y with started := false, root := hop.1, rootLaunch := rootLaunch }
/-- The root receives an acknowledgement: after the last it sends Go, once Go or Withdraw of earlier launches of the queue has been
sent; after a failure, or one that comes too late, Withdraw (R375, R376; log 107). -/
def execAnnounceAck (l chip : Nat) (okay : Bool) (s : State) : Host.Outcome State Fault Refusal :=
  match s.launch l with
  | none => .next s
  | some x =>
    if !x.undecided s.chip || chip = s.chip || !x.range.contains chip then .next s
    else if !okay || decide (x.announced + 100000 < s.ptb) then .next (s.withdraw l)
    else
      let acked := if x.acked.contains chip then x.acked else chip :: x.acked
      let s := s.updLaunch l fun x => { x with acked := acked }
      .next (if x.range.all acked.contains && !s.goHeld x then s.sendGo l else s)
/-- Go reaches this chip, before any cancel of the launch: its workgroups may start (R376). -/
def execGo (hop : Nat × Nat) (rootLaunch : Nat) (s : State) : Host.Outcome State Fault Refusal :=
  s.heard hop 1 rootLaunch [] fun s =>
    match s.memberOf hop.1 rootLaunch with
    | some (l, x) => if x.cancel.isSome then s else s.updLaunch l fun x => { x with started := true, gone := true }
    | none => s
/-- Withdraw reaches this chip: it starts nothing. -/
def execWithdraw (hop : Nat × Nat) (rootLaunch : Nat) (s : State) : Host.Outcome State Fault Refusal :=
  s.heard hop 2 rootLaunch [] fun s =>
    match s.memberOf hop.1 rootLaunch with
    | some (l, x) =>
      if x.started then s
      else
        let n := s.serialNo
        let s := s.updLaunch l fun x => { x with done := true, failCode := 1, waiting := [], wglive := 0, completed := n }
        { s with serialNo := n + 1 }
    | none => s
/-- 100 µs have passed since the announce without every acknowledgement (R375). -/
def execAnnounceTimeout (l : Nat) (s : State) : Host.Outcome State Fault Refusal :=
  match s.launch l with
  | some x =>
    let waits := x.undecided s.chip && !x.range.all x.acked.contains
    .next (if waits && decide (x.announced + 100000 ≤ s.ptb) then s.withdraw l else s)
  | none => .next s

/-! ### Cancel, reports and losses (R377 to R380) -/

/-- A cancel of a pod launch reaches this chip (R280, R380). -/
def execTreeCancel (hop : Nat × Nat) (rootLaunch : Nat) (kill : Bool) (s : State) : Host.Outcome State Fault Refusal :=
  let mode := if kill then 1 else 0
  s.heard hop (3 + mode) rootLaunch [] fun s =>
    match s.memberOf hop.1 rootLaunch with
    | some (l, _) => s.cancelLaunch l mode
    | none => s
/-- The root receives a chip's report (R377). -/
def execChipReport (l chip : Nat) (s : State) : Host.Outcome State Fault Refusal :=
  match s.launch l with
  | some x =>
    if x.pod && x.root = s.chip && x.gone && !x.done && x.range.contains chip && !x.reported.contains chip then
      .next (s.updLaunch l fun x => { x with reported := chip :: x.reported })
    else .next s
  | none => .next s
/-- A chip of the range is lost, silent for 100 µs after Go: the granules dealt to its workgroups are poisoned, its gangs of which no exit
word has come count as terminated with `PEERABORT`, the collective is aborted, and its memory is reached no more (R163, R379, R381; log 29). -/
def execChipLost (l chip : Nat) (s : State) : Host.Outcome State Fault Refusal :=
  match s.launch l with
  | none => .next s
  | some x =>
    if !x.pod || x.root ≠ s.chip || !x.gone || x.done || chip = s.chip || !x.range.contains chip || x.reported.contains chip ||
        x.lost.contains chip || decide (s.ptb < x.announced + 100000) then .next s
    else
      let theirs := (x.dealtTo.filter fun p => p.2 = chip).map fun p => (0, p.1)
      let s := (s.moveGranules x theirs 1 3).2
      let s := s.updLaunch l fun x => { x with lost := chip :: x.lost }
      let gangs := (s.placedOn chip (recordSch x.record)).length * x.ngang - Tab.at x.foreign chip 0
      let s := (List.range gangs).foldl (fun s _ => s.countExit l chip s.ptb (exitWord 0x18)) s
      let s := s.abortCollective l
      .next { s with podChips := s.podChips.filter (· ≠ chip), podMap := s.podMap.filter fun m => m.index ≠ chip }
/-- The root counts an exit word that another chip forwards (R378). -/
def execExitWordForward (l chip time word : Nat) (s : State) : Host.Outcome State Fault Refusal :=
  match s.launch l with
  | some x =>
    let w := BitVec.ofNat 64 word
    if x.pod && x.root = s.chip && x.gone && !x.done && x.range.contains chip && bitsOf w.toNat 63 56 ≠ 0 then
      .next (s.countExit l chip time w)
    else .next s
  | none => .next s

/-! ### What a step leaves to be done -/

/-- The root sends the Gos that were held back for earlier launches, in the order of the launches (R376; log 107). The first argument bounds
their number. -/
def State.sendGos : Nat → State → State
  | 0, s => s
  | k + 1, s =>
    match s.launches.find? fun p => p.2.undecided s.chip && p.2.range.all p.2.acked.contains && !s.goHeld p.2 with
    | some p => State.sendGos k (s.sendGo p.1)
    | none => s
/-- Units that this chip owes slices of other chips go to them, a message that is charged to none (R398; log 101). -/
def State.payUnits (s : State) : State :=
  s.owedUnits.foldl (fun s p =>
    match s.launches.find? fun q => q.2.pod && q.2.root ≠ s.chip && q.2.slice == p.1 with
    | some q => s.podPost (.tree 16 0 [q.2.root] (leBytes 8 p.1.toNat ++ leBytes 8 p.2))
    | none => s) { s with owedUnits := [] }
/-- Slices whose counter has fallen to 0 or below are stopped (R261). -/
def State.stopSpent (s : State) : State :=
  (s.slices.filter fun x => !x.be && !x.stopped && decide (x.budget ≤ 0)).foldl (fun s x => s.budgetStop x.handle) s

end Sys2Proof.Machine
end

