-- ==== Sys2Proof/Machine/Hub.lean ====
section
/-! DEFINITION. The hub: caps and power, the teardown of a tenant, shootdowns, the host link, device DMA and Ethernet (R156, R170,
R171, R193 to R195, R262, R263, R347, R357, R362, R386). -/

namespace Sys2Proof.Machine

/-! ### Caps and power (R263, R386, R387) -/

/-- mW of TDP (R384). -/
def tdp : Nat := 3600000
/-- The cores that hold a workgroup of a tenant. -/
def State.tenantCores (s : State) (t : Nat) : Nat :=
  (((s.wgs.filter fun p => ((s.launchOf p.2).map (·.tenant)) == some t).filterMap fun p => p.2.place.map Prod.fst).eraseDups).length
/-- A measure `n / d` has reached a cap `c`, in halves of 1/1,024; 1,023 caps nothing. -/
def atCap (n d halves : Nat) (none? : Bool) : Bool := !none? && decide (halves * d ≤ 2 * 1024 * n)
/-- `PWRCAP` as the hub treats it, in halves (R386, R387), and whether it caps nothing. -/
def State.powerCap (s : State) (c : Nat) : Nat × Bool :=
  if s.pwrZero then (0, false) else if s.pwrHalved then (if c = 1023 then 1024 else c, false) else (2 * c, c = 1023)
/-- The hub measures a tenant, every 10 µs of PTB, whose work drew `power` mW since it last did: its cores, the HBM bytes that its accesses and
copies have moved, with those that walks and the part's own accesses have moved for it, and its power, each against its cap (R263, Table 11.10;
log 100). -/
def execCapMeasurement (t other power : Nat) (s : State) : Host.Outcome State Fault Refusal :=
  match s.tenant t, s.tenantRecord t with
  | some x, some r =>
    let w := recAt r 4 4
    let cores := bitsOf w 9 0
    let band := bitsOf w 19 10
    let p := s.powerCap (bitsOf w 29 20)
    let window := s.ptb - x.measuredAt
    let capped := atCap (s.tenantCores t) s.presentCores.length (2 * cores) (cores = 1023) ||
      atCap ((x.moved + other) * 10000) (480000000 * window) (2 * band) (band = 1023) || atCap power tdp p.1 p.2
    if window < 10000 then .next s
    else .next { s with tenants := Tab.upd s.tenants t fun x => { x with capped := capped, moved := 0, measuredAt := s.ptb } }
  | some _, none => .next (s.recordFault t)
  | none, _ => .next s
/-- The controller's estimate of package power: above TDP each `PWRCAP` counts as halved, until it is below 95 % of it (R386,
R388). -/
def execPowerEstimate (milliwatt : Nat) (s : State) : Host.Outcome State Fault Refusal :=
  let halved := if tdp < milliwatt then true else if milliwatt * 100 < tdp * 95 then false else s.pwrHalved
  .next { s with mcpwr := BitVec.ofNat 64 milliwatt, pwrHalved := halved }

/-! ### Tenants (R262, R347) -/

/-- A tenant is reset or removed; the hub reads the record of one that it does not hold (R289, R347). -/
def execTenantReset (t : Nat) (s : State) : Host.Outcome State Fault Refusal :=
  let s := if 64 ≤ t || (s.tenant t).isSome then s else (s.readTenant t).getD s
  .next (if ((s.tenant t).map (·.teardown)).getD true then s else s.teardown t 3 0x15)
/-- Nothing of a tenant is left under way. -/
def State.tenantQuiet (s : State) (t : Nat) (x : Tenant) : Bool :=
  let mine := fun (a : Agent) => (s.agentTenant a) == some t
  (s.wgs.all fun p => ((s.launchOf p.2).map (·.tenant)) != some t) && (s.slices.all fun y => y.tenant ≠ t) &&
    (s.copies.all fun p => p.2.pasid ≠ x.pasid || p.2.boxBusy.isEmpty) && (List.range 16).all (fun q => !s.owes (.queue (16 * t + q))) && (s.reqs.all fun r => !mine r.agent) &&
    s.walks.all fun w => !mine w.agent
/-- The last response has drained and every workgroup has ended: each queue becomes STOPPED, and an entry of kind 6 is written
(R347 step 5). -/
def execTeardownComplete (t : Nat) (s : State) : Host.Outcome State Fault Refusal :=
  match s.tenant t with
  | none => .next s
  | some x =>
    if !x.teardown || !s.tenantQuiet t x then .next s
    else
      let bare := fun (q : Queue) => { q with streams := [], waits := [], current := 0, skipping := false, deferred := [] }
      let s := (List.range 16).foldl (fun s q => (s.setQueueState t q 0).updQueue t q bare) s
      let s := s.postEvent t (eventEntry s.ptb 0 0 6 0 0 0 0)
      .next { s with tenants := Tab.upd s.tenants t fun x => { x with teardown := false, killed := none, valid := false } }
/-- An entry of a tenant's fault ring is free: the hub writes the oldest event it holds for it (R262). -/
def execTenantFaultRingEntryFree (t : Nat) (s : State) : Host.Outcome State Fault Refusal :=
  match s.events.find? fun e => e.tenant = t with
  | none => .next s
  | some e =>
    let r := s.tryEvent t e.entry
    .next (if r.2 then { r.1 with events := r.1.events.erase e } else r.1)

/-! ### Shootdowns (R170, R171, R383) -/

/-- The part begins the next entry of the mailbox of a shadow hart (R170, Table 7.6). -/
def State.beginEntry (s : State) (h n : Nat) : State :=
  match s.spaBytes ((s.hart h 8).toNat + 64 * (n % 64)) 64 with
  | none => s
  | some e =>
    let kind := recAt e 8 4
    let start := recWord e 0x10
    let r := invalRange start (recAt e 0x18 8)
    let v : Inval :=
      { id := s.serialNo, kind := kind, pasid := recAt e 0xC 4 % 2 ^ 20, start := r.1, len := r.2, shard := shardHalf start
        hart := some h, seq := recWord e 0, ack := recAt e 0x20 8, rejected := decide (2 < kind), waits := [] }
    let s := { s with serialNo := s.serialNo + 1 }
    if v.rejected then { s with invals := s.invals ++ [v] } else s.invalidate v
/-- A shadow hart that is present, and in hosted mode enabled, takes what is pending in its interrupt file: it begins every entry that the
host has produced (R170; log 33). -/
def State.serveMailbox (s : State) (h : Nat) : State :=
  if !s.servicePresent h || !s.hosted || !(s.hart h 0x28).getLsbD 0 then s
  else
    let s := { s with imsics := Tab.del s.imsics h }
    let first := (s.hart h 0x18).toNat + (s.invals.filter fun v => v.hart == some h).length
    (List.range (min 64 ((s.hart h 0x10).toNat - first))).foldl (fun s i => s.beginEntry h (first + i)) s
/-- The identity that an MSI brings an interrupt file: its data where it is for the file's little-endian register, at offset 0, its data with
the bytes reversed for the big-endian one, at offset 4; none else, or where it is no identity (R170; log 33). -/
def msiIdentity (msi : Nat × Nat) : Option Nat :=
  let n := if msi.1 % 4096 = 0 then msi.2 else if msi.1 % 4096 = 4 then leNat (leBytes 4 msi.2).reverse else 0
  if 1 ≤ n && n ≤ 2047 then some n else none
/-- The host writes an MSI, an address and its data, to an interrupt file: its identity is pending in the file of each shadow hart whose page
it is and whose service core is present, which then takes it (R170, R383; log 33). -/
def execShootdownRequest (msi : Nat × Nat) (s : State) : Host.Outcome State Fault Refusal :=
  match msiIdentity msi with
  | none => .next s
  | some n =>
    let pend := fun (s : State) (h : Nat) =>
      let ids := Tab.at s.imsics h []
      ({ s with imsics := Tab.put s.imsics h (if ids.contains n then ids else n :: ids) } : State).serveMailbox h
    .next (((List.range 40).filter fun h => s.servicePresent h && (s.hart h 0).toNat / 4096 = msi.1 / 4096).foldl pend s)
/-- The conditions of R171 hold: `tlbinv` goes on, or the entry is acknowledged, each mailbox in order. -/
def execInvalidationComplete (id : Nat) (s : State) : Host.Outcome State Fault Refusal :=
  match s.invals.find? fun v => v.id = id with
  | none => .next s
  | some v =>
    let first := (s.invals.find? fun u => u.hart == v.hart).map (·.id)
    if !s.invalOver v || (v.hart.isSome && first ≠ some id) then .next s
    else
      let s := { s with invals := s.invals.filter fun u => u.id ≠ id }
      match v.hart with
      | none => .next s
      | some h =>
        let word := if v.rejected then v.seq ||| 0x8000000000000000 else v.seq
        let s := match s.route v.ack with
          | some k => s.write .part (some 5) k (leBytes 8 word.toNat)
          | none => s
        .next { s with harts := Tab.set 0 s.harts (8 * h + 3) (s.hart h 0x18 + 1) }

/-! ### The host link (R193, R194) -/

/-- The number by which the host's own accesses are named in the record of what left the package. -/
def hostRequester : Nat := 8
/-- A host read of HBM, served at its home (R194). -/
def execCxlMemRead (offset size : Nat) (s : State) : Host.Outcome State Fault Refusal :=
  match s.localKey offset with
  | some k =>
    if !s.hostLink || 2 ^ 40 < offset + size then .next s
    else
      let bad := (linesOf k size).any fun i => s.poisoned (i * 128)
      .next { s with out := s.out ++ [if bad then .dmaError hostRequester else .data hostRequester (s.homeRead k size)] }
  | none => .next s
/-- A host write to HBM, applied at its home (R194). -/
def execCxlMemWrite (offset : Nat) (bytes : List Byte) (s : State) : Host.Outcome State Fault Refusal :=
  match s.localKey offset with
  | some k =>
    if !s.hostLink || 2 ^ 40 < offset + bytes.length || bytes.isEmpty || 128 < bytes.length then .next s
    else
      let t := { s with serialNo := s.serialNo + 1, hostWrites := s.hostWrites ++ [(⟨s.serialNo, 0⟩ : HostWrite)] }
      .next (t.write (.host s.serialNo) none k bytes)
  | none => .next s
/-- PTB has reached the WCT of a host write: it is completed to the host (R194). -/
def execCxlMemWriteComplete (id : Nat) (s : State) : Host.Outcome State Fault Refusal :=
  match s.hostWrites.find? fun w => w.id = id with
  | some w =>
    if s.ptb < w.wct || s.owes (.host id) then .next s
    else .next { s with hostWrites := s.hostWrites.filter fun v => v.id ≠ id, out := s.out ++ [.cxlDone id] }
  | none => .next s
/-- Bytes that the host has written, which nothing here says. -/
def State.hostBytes (s : State) : Nat → List Byte × State
  | 0 => ([], s)
  | n + 1 =>
    let r := State.hostBytes s n
    (r.1 ++ leBytes 8 (r.2.unstated.1).toNat, r.2.unstated.2)
/-- A host snoop of a line of host memory, answered once the latest lease on it has expired; the host then owns the line, and what it
writes there is open (R193; log 34). -/
def execHostSnoop (line : Nat) (s : State) : Host.Outcome State Fault Refusal :=
  if !s.hostLink || line < hostKey / 128 || (hostKey + 2 ^ 56) / 128 ≤ line || s.ptb < (s.home line).lease then .next s
  else
    let s := s.recall line true
    let r := s.hostBytes 16
    .next { (r.2.homeWrite (128 * line) r.1) with out := r.2.out ++ [.snoop line] }

/-! ### Devices (R156, R157, R195) -/

/-- Where a device access of n bytes lands: a share through the service aperture, or a home of HBM, of this package for a drive (requesters 0
to 3); none where it has no place. One that runs past its share has none (R156, R172, R361; log 98). -/
def State.dmaPlace (s : State) (r a n : Nat) : Option Loc :=
  if inThreadAp a then none
  else if inServiceAp a then
    match s.serviceWindow none a, s.serviceWindow none (a + n - 1) with
    | some x, some y => if x.plus (n - 1) = y then some x else none
    | _, _ => none
  else match s.route a, s.route (a + n - 1) with
    | some k, some l => if k + n - 1 = l && decide (l < hostKey) && (decide (4 ≤ r) || !s.remote k) then some (.mem k 0) else none
    | _, _ => none
/-- A device write performs, or is held at its home: the written lines carry the largest WCT of the requester's earlier writes (R195,
R419). -/
def State.dmaStore (s : State) (r : Nat) (l : Loc) (bs : List Byte) : State :=
  match l with
  | .mem k _ => s.write (.dma r) none k bs
  | l => s.locWrite l bs
/-- An inbound device write, in the order of its requester: it waits for an earlier one that is held (R156, R195). -/
def execDmaWrite (r addr : Nat) (bytes : List Byte) (s : State) : Host.Outcome State Fault Refusal :=
  if 8 ≤ r || bytes.isEmpty || s.owes (.dma r) then .next s
  else match s.dmaPlace r addr bytes.length with
    | some l => .next (s.dmaStore r l bytes)
    | none => .next { s with out := s.out ++ [.dmaError r] }
/-- Some of the bytes at a place are in a poisoned line. -/
def State.spoiled (s : State) (l : Loc) (n : Nat) : Bool :=
  match l with
  | .mem k _ => (linesOf k n).any fun i => s.poisoned (i * 128)
  | _ => false
/-- A device read (R156): a poisoned line delivers no data. -/
def execDmaRead (r addr size : Nat) (s : State) : Host.Outcome State Fault Refusal :=
  if 8 ≤ r || size = 0 then .next s
  else match s.dmaPlace r addr size with
    | some l =>
      .next { s with out := s.out ++ [if s.spoiled l size then .dmaError r else .data r (s.locRead l size)] }
    | none => .next { s with out := s.out ++ [.dmaError r] }
/-- A device interrupt: a `DEVIRQ` message to the source's owning shard, unless one of its vector is held or unreceived, from either
complex; a drive has 64 vectors (R357, Tables 16.2 and 16.6). -/
def execDevirq (source vector : Nat) (s : State) : Host.Outcome State Fault Refusal :=
  let m := mkRecord 64 [(0, 2, 4), (2, 2, vector), (4, 1, source)]
  let j := Tab.at s.owners source 0
  let there := fun (i : Nat) => (s.channel i j).contains m || s.heldMsgs.contains (i, j, m)
  if 8 ≤ source || (if source < 4 then 64 else 2 ^ 16) ≤ vector || !s.servicePresent j then .next s
  else if there 42 || there 46 then .next s
  else .next (s.send (s.complexCore 2) j m)

/-! ### Ethernet (R362) -/

/-- One byte of the CRC-32 of IEEE 802.3, least significant bit first. -/
def crcByte (c : Nat) (b : Byte) : Nat :=
  (List.range 8).foldl (fun c _ => if c % 2 = 1 then (c / 2) ^^^ 0xEDB88320 else c / 2) (c ^^^ b.toNat)
/-- The CRC-32 of bytes. -/
def crc32 (bs : List Byte) : Nat := bs.foldl crcByte 0xFFFFFFFF ^^^ 0xFFFFFFFF
/-- A frame with the frame check sequence that a port appends. -/
def withFcs (bs : List Byte) : List Byte := bs ++ leBytes 4 (crc32 bs)
/-- The place of a port's next entry in a ring of a kind, and its index. -/
def State.ethEntry (s : State) (port ring kind : Nat) : Nat × Nat :=
  let r := Config.ethRing port ring kind
  let i := Tab.at s.ethIdx ((port * 64 + ring) * 3 + kind) 0 % max 1 r.2
  (r.1 + 16 * i, i)
/-- Moves a port on to the next entry of a ring. -/
def State.ethNext (s : State) (port ring kind : Nat) : State :=
  let k := (port * 64 + ring) * 3 + kind
  let n := max 1 (Config.ethRing port ring kind).2
  { s with ethIdx := Tab.set 0 s.ethIdx k ((Tab.at s.ethIdx k 0 + 1) % n) }
/-- Bytes could not be written now: a strong store is pending on a line of theirs (R419). -/
def State.locBusy (s : State) (l : Loc) (n : Nat) : Bool :=
  match l with
  | .mem k _ => (linesOf k n).any s.busyOn
  | _ => false
/-- A port writes bytes at an address, or has an error where they have no place. -/
def State.portWrite (s : State) (port a : Nat) (bs : List Byte) : State :=
  if bs.isEmpty then s
  else match s.dmaPlace (4 + port) a bs.length with
    | some l => s.dmaStore (4 + port) l bs
    | none => { s with out := s.out ++ [Output.dmaError (4 + port)] }
/-- A port's write of n bytes at an address has to wait. -/
def State.portHeld (s : State) (port a n : Nat) : Bool :=
  s.owes (.dma (4 + port)) || ((s.dmaPlace (4 + port) a n).map fun l => s.locBusy l n).getD false
/-- A frame is received with a frame check sequence: dropped and counted where the check fails, else its payload and then its completion entry are written, the valid
byte last; a buffer whose capacity is out of bounds takes none (R195, R362, Table 16.7, R388; log 99). -/
def execEthFrameReceive (port ring fcs : Nat) (frame : List Byte) (s : State) : Host.Outcome State Fault Refusal :=
  if 4 ≤ port || 64 ≤ ring then .next s
  else if crc32 frame ≠ fcs then .next { s with mceth := s.mceth + 1 }
  else
    let b := s.ethEntry port ring 1
    match s.spaBytes b.1 16 with
    | none => .next s
    | some e =>
      let a := recAt e 0 8
      let cap := recAt e 8 2
      let done := (s.ethEntry port ring 2).1
      let fits := decide (64 ≤ cap) && decide (cap ≤ 9216)
      if fits && (s.portHeld port a (min cap frame.length) || s.portHeld port done 16) then .next s
      else if !fits then .next (({ s with out := s.out ++ [.dmaError (4 + port)] } : State).ethNext port ring 1)
      else
        let entry := mkRecord 16
          [(0, 4, b.2), (4, 2, frame.length), (6, 1, if cap < frame.length then 1 else 0), (8, 8, s.ptb)]
        let s := ((s.portWrite port a (frame.take cap)).portWrite port done entry).portWrite port (done + 7) [1]
        .next ((s.ethNext port ring 1).ethNext port ring 2)
/-- The buffers of a frame, from a port's next transmit entry to the one marked last; the first argument bounds them. A buffer that
cannot be read, or whose length is out of bounds, ends the frame (Table 16.7; log 99). -/
def State.ethFrame : Nat → State → Nat → Nat → Option (List Byte) × State
  | 0, s, _, _ => (none, s)
  | n + 1, s, port, ring =>
    match s.spaBytes (s.ethEntry port ring 0).1 16 with
    | none => (none, s)
    | some e =>
      let len := recAt e 8 2
      let s := s.ethNext port ring 0
      match (if len < 60 || 9216 < len then none else s.dmaPlace (4 + port) (recAt e 0 8) len).filter fun l => !s.spoiled l len with
      | none => (none, { s with out := s.out ++ [.dmaError (4 + port)] })
      | some l =>
        let bs := s.locRead l len
        if recAt e 0xA 2 % 2 = 1 then (some bs, s)
        else match State.ethFrame n s port ring with
          | (some more, s) => (some (bs ++ more), s)
          | r => r
/-- A port transmits a frame, with its frame check sequence. -/
def execEthTransmit (port ring : Nat) (s : State) : Host.Outcome State Fault Refusal :=
  if 4 ≤ port || 64 ≤ ring then .next s
  else match s.ethFrame (max 1 (Config.ethRing port ring 0).2) port ring with
    | (some bs, s) => .next { s with out := s.out ++ [.frame port (withFcs bs)] }
    | (none, s) => .next s

end Sys2Proof.Machine
end

