-- ==== Sys2Proof/Machine/Firmware.lean ====
section
/-! DEFINITION. Interrupts of service cores, the messages that the active complex serves, attestation and live update (R74, R305,
R341, R355 to R357, R367 to R371). -/

namespace Sys2Proof.Machine

/-! ### Interrupts (R74, R341) -/

/-- A core accepts an interrupt that is pending and enabled, outside a handler; the cause's code and `KTVAL` are open (R341, Table
3.10; log 27). -/
def execTrapEntry (i : Nat) (s : State) : Host.Outcome State Fault Refusal :=
  match s.scalar i with
  | none => .next s
  | some c =>
    if !c.running || c.handling || (s.kip i &&& c.kreg 4) = 0 then .next s
    else
      let u := s.unstated
      let v := u.2.unstated
      .next (v.2.trap i (0x8000000000000000 ||| (u.1 &&& 0xFF)) (c.ctx.pcOf 0) v.1)
/-- PTB has reached `KTIMECMP`: the timer bit of `KIP` is set. -/
def execKtimecmpMatch (i : Nat) (s : State) : Host.Outcome State Fault Refusal :=
  match s.scalar i with
  | some c =>
    if c.kreg 6 != 0 && decide ((c.kreg 6).toNat ≤ s.ptb) then
      .next (s.updScalar i fun c => { c with k := Tab.set 0 c.k 5 (c.kreg 5 ||| 8) })
    else .next s
  | none => .next s

/-! ### Messages to the complexes (R356, R357) -/

/-- Takes the oldest message of one of some kinds from a core to a core of the active complex, lowest first: the state without it, the
core that took it, and the message. -/
def State.takeMessage (s : State) (i : Nat) (wanted : Nat → Bool) : Option (State × Nat × List Byte) :=
  let ready := (List.range 4).filterMap fun k =>
    match s.channel i (s.complexCore k) with
    | m :: ms => if wanted (recAt m 0 2) then some (s.setChannel i (s.complexCore k) ms, s.complexCore k, m) else none
    | [] => none
  if s.complexUp then ready.head? else none
/-- `REPLY` (Table 16.2) from core j to core i. -/
def State.reply (s : State) (j i kind status : Nat) : State := s.send j i (mkRecord 64 [(0, 2, 9), (2, 2, kind), (4, 4, status)])
/-- Serves a message of one kind from a core: the body answers the status, and the state. -/
def State.serve (s : State) (i kind : Nat) (body : State → List Byte → Nat × State) : Host.Outcome State Fault Refusal :=
  match s.takeMessage i (· = kind) with
  | none => .next s
  | some (s, j, m) =>
    let r := body s m
    .next (r.2.reply j i kind r.1)
/-- `SHARD_START` (R355, R356, R368, Table 16.3). -/
def execShardStart (i : Nat) (s : State) : Host.Outcome State Fault Refusal :=
  s.serve i 1 fun s m =>
    let j := recAt m 2 1
    let pc := recWord m 8
    let fine := some i = s.shard0 && s.servicePresent j && shardHalf pc && canonical pc && !inThreadAp pc.toNat && !inServiceAp pc.toNat &&
      pc.toNat % 4 = 0 && recAt m 3 5 = 0 &&
      recAt m 0x1C 4 = 0 && recAt m 0x38 8 = 0 && recAt m 0x18 4 < 2 ^ 20 && bitsOf (recAt m 0x10 8) 63 60 ≤ 1
    match s.scalar j with
    | none => (3, s)
    | some c => if fine && !c.running && c.measured then (0, s.updScalar j fun c => startedFrom j m 0 c s.ptb) else (3, s)
/-- A measurement log entry (Table 16.10). -/
def logEntry (kind index : Nat) (version : Word) (digest : List Byte) : List Byte :=
  mkRecord 16 [(0, 2, kind), (4, 4, index), (8, 8, version.toNat)] ++ (digest ++ List.replicate 48 0).take 48
/-- Appends an entry to the measurement log. -/
def State.logAdd (s : State) (kind : Nat) (version : Word) (digest : List Byte) : State :=
  { s with log := s.log ++ [logEntry kind s.log.length version digest] }
/-- `MEASURE` (R355, R367): refused for the 257th entry, and where its fields are bad. -/
def execMeasure (i : Nat) (s : State) : Host.Outcome State Fault Refusal :=
  s.serve i 6 fun s m =>
    let j := recAt m 2 1
    let n := recAt m 0x10 8
    match s.spaBytes (recAt m 8 8) n with
    | none => (3, s)
    | some bs =>
      if 40 ≤ i || 40 ≤ j || n = 0 || 2 ^ 32 < n || 256 ≤ s.log.length then (3, s)
      else (0, (s.logAdd 4 (BitVec.ofNat 64 j) (sha384 bs)).updScalar j fun c => { c with measured := true })
/-- The PUF response as the helper data corrects it (R366). -/
def State.pufResponse (s : State) : Option (List Byte) := Config.pufCorrect (Mem.bytes s.puf 0 8192) (Mem.bytes s.flash 0x200000 4096)
/-- The quote of the log for a nonce (R368). -/
def State.quote (s : State) (nonce : List Byte) : List Byte :=
  let body := leBytes 8 s.log.length ++ sha384 s.log.flatten ++ nonce ++ leBytes 8 s.ptb
  body ++ ecdsaSign (identityKey ((s.pufResponse).getD [])) body
/-- Bytes written at a key now are visible at once: no lease on a line of theirs is left, and no strong store is pending (R175, R184,
R419). -/
def State.openAt (s : State) (key n : Nat) : Bool := (linesOf key n).all fun i => decide ((s.home i).lease ≤ s.ptb) && !s.busyOn i
/-- What an `ATTEST` writes now is visible when its reply is sent (R368). -/
def State.attestOpen (s : State) (m : List Byte) : Bool :=
  let free := fun (a n : Nat) => ((s.route a).map fun k => s.openAt k n).getD true
  free (recAt m 0x28 8) 192 && (recAt m 0x30 8 = 0 || free (recAt m 0x30 8) (64 * s.log.length))
/-- `ATTEST` (R368): the quote, and where it is asked for the log, at SPAs that are routed, with release before the reply. -/
def execAttest (i : Nat) (s : State) : Host.Outcome State Fault Refusal :=
  if ((s.takeMessage i (· = 7)).map fun t => !s.attestOpen t.2.2).getD false then .next s
  else s.serve i 7 fun s m =>
    let at1 := s.route (recAt m 0x28 8)
    let at2 := s.route (recAt m 0x30 8)
    match at1 with
    | none => (3, s)
    | some k =>
      if 40 ≤ i || (recAt m 0x30 8 ≠ 0 && at2.isNone) then (3, s)
      else
        let q := s.quote ((m.drop 8).take 32)
        let log := s.log.flatten
        let s := s.write .part (some 5) k q
        match at2 with
        | some l => (0, if recAt m 0x30 8 = 0 || log.isEmpty then s else s.write .part (some 5) l log)
        | none => (0, s)
/-- Resets the cores of the standby complex, which then run or do not (R370, R371). -/
def State.resetStandby (s : State) (run : Bool) : State :=
  let standby := if s.activeB then 40 else 44
  (List.range 4).foldl (fun s k => s.updScalar (standby + k) fun _ => { freshScalar (standby + k) s.ptb with running := run }) s
/-- `UPDATE` (R370 steps 1 and 2): an image that is refused is answered, and nothing else changes; else the standby boots it. -/
def execUpdate (i : Nat) (s : State) : Host.Outcome State Fault Refusal :=
  if s.update.isSome then .next s
  else match s.takeMessage i (· = 8) with
    | none => .next s
    | some (s, j, m) =>
      let n := recAt m 0x10 8
      match s.spaBytes (recAt m 8 8) n with
      | none => .next (s.reply j i 8 3)
      | some image =>
        if 40 ≤ i || n = 0 || 1536 * 1024 < n || 256 ≤ s.log.length then .next (s.reply j i 8 3)
        else match Config.firmware image with
          | none => .next (s.reply j i 8 1)
          | some v =>
            let u : Update := { phase := 1, sender := i, began := s.ptb, version := v }
            .next { (s.logAdd 2 v (sha384 image)).resetStandby false with bank := image, update := some u }
/-- A message that no row of Table 16.2 has the complex serve is answered with status 3, one from shard to shard is ignored, and one to
the standby is answered with status 4 (R356). -/
def execUnknownMessage (i : Nat) (s : State) : Host.Outcome State Fault Refusal :=
  match s.takeMessage i fun k => k ≠ 1 && k ≠ 6 && k ≠ 7 && k ≠ 8 with
  | some (s, j, m) =>
    let k := recAt m 0 2
    .next (if k = 0 || 0x8000 ≤ k then s else s.reply j i k 3)
  | none =>
    let standby := if s.activeB then 40 else 44
    let full := (List.range 4).find? fun k => !(s.channel i (standby + k)).isEmpty
    match full with
    | none => .next s
    | some k =>
      match s.channel i (standby + k) with
      | [] => .next s
      | m :: ms =>
        if ((s.scalar (standby + k)).map (·.running)).getD false then
          .next ((s.setChannel i (standby + k) ms).reply (standby + k) i (recAt m 0 2) 4)
        else .next s
/-- A channel to a core has room: the oldest message held for one is sent (R357). -/
def execMessageChannelRoom (j : Nat) (s : State) : Host.Outcome State Fault Refusal :=
  match s.heldMsgs.find? fun h => h.2.1 = j && decide ((s.channel h.1 j).length < 8) with
  | none => .next s
  | some h => .next { (s.setChannel h.1 j (s.channel h.1 j ++ [h.2.2])) with heldMsgs := s.heldMsgs.erase h }

/-! ### The state table (R305) -/

/-- The loops of a stream, outermost first (Table 13.9). -/
def loopBytes (st : Stream) : List Byte :=
  let ls := st.loops.reverse.flatMap fun l => leBytes 4 l.1 ++ leBytes 4 l.2.1 ++ leBytes 4 l.2.2.1 ++ leBytes 4 l.2.2.2
  (ls ++ List.replicate 64 0).take 64
/-- What the complex is doing with a queue: 1 waiting, 2 held for `SER`, else 0. -/
def State.queuePhase (s : State) (t q : Nat) (x : Queue) : Nat :=
  if !x.waits.isEmpty then 1
  else match ({ s with update := none } : State).nextPacket t q 0 fun _ => true with
    | .found _ p => if bitOf p.header 1 && s.packetsOut x.current then 2 else 0
    | _ => 0
/-- The record of a queue (Table 13.9). -/
def State.queueRecord (s : State) (k : Nat) (x : Queue) : List Byte :=
  let up := x.streams.reverse
  let ibs := (up.drop 1).flatMap fun st => leBytes 8 st.base ++ leBytes 8 st.len
  let deep := up.map fun st => BitVec.ofNat 8 st.loops.length
  let loops := up.flatMap loopBytes
  let w := x.waits.headD ⟨0, [], false⟩
  let sigs := w.signals.flatMap fun a => leBytes 8 a
  let pad := fun (bs : List Byte) (n : Nat) => (bs ++ List.replicate n 0).take n
  leBytes 4 (k / 16 + k % 16 * 64 + x.state * 1024 + (x.streams.length - 1) * 4096) ++ leBytes 4 (s.queuePhase (k / 16) (k % 16) x) ++
    leBytes 8 x.readPtr ++ leBytes 8 ((x.streams.map (·.pos)).headD 0) ++ pad ibs 64 ++ pad deep 8 ++ pad loops 320 ++
    leBytes 8 x.current.toNat ++ leBytes 8 x.previous.toNat ++ pad sigs 64 ++
    leBytes 4 (w.signals.length + if w.barrier then 16 else 0) ++ List.replicate 12 0
/-- The state table (R305). -/
def State.stateTable (s : State) : List Byte :=
  let qs := s.queues.flatMap fun p => s.queueRecord p.1 p.2
  let ss := s.slices.flatMap fun x =>
    leBytes 8 x.handle.toNat ++ leBytes 8 x.deadline ++ leBytes 8 x.budgetAt ++ leBytes 8 x.word4.toNat
  let ts := s.tenants.flatMap fun p =>
    let mine := s.slices.filter fun x => x.tenant = p.1
    leBytes 4 p.1 ++ leBytes 4 mine.length ++ leBytes 8 ((mine.map s.sliceLoad).foldl (· + ·) 0) ++ List.replicate 16 0
  let head := leBytes 4 1 ++ leBytes 4 s.queues.length ++ leBytes 4 s.slices.length ++ leBytes 4 s.tenants.length ++ leBytes 8 s.ptb
  let later := List.replicate 36 0 ++ qs ++ ss ++ ts
  head ++ leBytes 4 (crc32 later) ++ later

/-! ### Live update (R370) -/

/-- Acts on the doorbells that the hub has kept. -/
def State.keptDoorbells (s : State) : State :=
  (s.doorbells.foldl (fun s p => s.readDesc p.1 p.2) { s with doorbells := [] })
/-- An update ends without a takeover: the active complex goes on, and the sender is told. -/
def State.endUpdate (s : State) (u : Update) (status : Nat) : State :=
  (({ s with update := none } : State).reply (s.complexCore 0) u.sender 8 status).keptDoorbells
/-- The standby has booted the image within 100 ms, and the active complex seeks a boundary. -/
def execUpdateStandbyReady (s : State) : Host.Outcome State Fault Refusal :=
  match s.update with
  | some u =>
    if u.phase = 1 && decide (s.ptb ≤ u.began + 100000000) then
      .next { s.resetStandby true with update := some { u with phase := 2, began := s.ptb } }
    else .next s
  | none => .next s
/-- The standby has not become ready within 100 ms. -/
def execUpdateReadyTimeout (s : State) : Host.Outcome State Fault Refusal :=
  match s.update with
  | some u => .next (if u.phase = 1 && decide (u.began + 100000000 ≤ s.ptb) then s.endUpdate u 2 else s)
  | none => .next s
/-- A quiescent boundary, within 1 ms: between two steps no queue is inside a packet other than a wait where none holds a work packet, and the table
is written (R250, R305). -/
def execQuiescentBoundary (s : State) : Host.Outcome State Fault Refusal :=
  match s.update with
  | some u => .next (if u.phase = 2 && decide (s.ptb ≤ u.began + 1000000) && s.queues.all fun p => p.2.deferred.isEmpty then { s with update := some { u with phase := 3 }, bank := s.stateTable } else s)
  | none => .next s
/-- No boundary has come within 1 ms. -/
def execQuiescenceTimeout (s : State) : Host.Outcome State Fault Refusal :=
  match s.update with
  | some u => .next (if u.phase = 2 && decide (u.began + 1000000 ≤ s.ptb) then s.endUpdate u 5 else s)
  | none => .next s
/-- The other complex becomes active: held messages pass to it, words fetched ahead do not, and every running shard is told (R356,
R370). -/
def State.takeOver (s : State) : State :=
  let shift := fun (i : Nat) => if s.activeB then (if 44 ≤ i && i < 48 then i - 4 else i) else if 40 ≤ i && i < 44 then i + 4 else i
  let bare : Tab Queue := s.queues.map fun p =>
    let ss : List Stream := p.2.streams.map fun st => { st with ahead := [] }
    (p.1, { p.2 with streams := ss })
  let held : List (Nat × Nat × List Byte) := s.heldMsgs.map fun h => (shift h.1, h.2)
  let s := { s with activeB := !s.activeB, queues := bare, heldMsgs := held, update := none }
  s.runningShards.foldl (fun s j => s.send (s.complexCore 0) j (mkRecord 64 [(0, 2, 0xA), (2, 1, if s.activeB then 1 else 0)])) s
/-- An `ATTEST` that the active complex has not received passes to the standby's channel, as either complex may answer it (R372). -/
def State.moveAttests (s : State) : State :=
  let old := if s.activeB then 44 else 40
  let new := if s.activeB then 40 else 44
  (List.range 40).foldl (fun s i => (List.range 4).foldl (fun s k =>
    let ms := s.channel i (old + k)
    (ms.filter fun m => recAt m 0 2 = 7).foldl (fun s m => s.send i (new + k) m)
      (s.setChannel i (old + k) (ms.filter fun m => recAt m 0 2 ≠ 7))) s) s
/-- A state table that a standby of C1.0 takes: its version is 1 and its CRC that of every later byte (R305). -/
def tableSound (bank : List Byte) : Bool := recAt bank 0 4 = 1 && recAt bank 24 4 = crc32 (bank.drop 28)
/-- The standby imports the table and becomes active, or refuses it (R305, R370 steps 5 and 6). -/
def execStateTableImport (s : State) : Host.Outcome State Fault Refusal :=
  match s.update with
  | none => .next s
  | some u =>
    if u.phase ≠ 3 then .next s
    else if !tableSound s.bank || !Config.imports u.version then .next (s.endUpdate u 2)
    else
      let s := if s.activeB then { s with versionA := u.version } else { s with versionB := u.version }
      let s := s.moveAttests.takeOver
      .next ((s.reply (s.complexCore 0) u.sender 8 0).keptDoorbells)

/-! ### Machine checks of a complex (R371) -/

/-- The active complex stops: the standby, where it runs, becomes active without a table; queues are stopped, slices fail, and the fault ring
of each tenant takes an event, of those that the hub has not read as well. -/
def State.complexCheck (s : State) : State :=
  let old := if s.activeB then 44 else 40
  let stop := fun (s : State) => (List.range 4).foldl (fun s k => s.updScalar (old + k) fun c => { c with running := false }) s
  let standby := ((s.scalar (if s.activeB then 40 else 44)).map (·.running)).getD false
  let s := stop s
  if !standby then { s with update := none }
  else
    let s := (List.range 64).foldl State.tenantOfPod s.takeOver
    let s := s.queues.foldl (fun s p => if p.2.state = 0 then s else s.setQueueState (p.1 / 16) (p.1 % 16) 0) s
    let s := (s.tenants.filter fun p => p.2.valid).foldl (fun s p => (List.range 16).foldl (fun s q => s.setQueueState p.1 q 0) s) s
    let s := s.slices.foldl (fun s x => s.stopSlice x.handle 1 4 0x13) s
    (s.tenants.foldl (fun s p => if p.2.valid then s.postEvent p.1 (eventEntry s.ptb 0 0 3 0x13 0 0 0) else s) s).keptDoorbells
/-- A machine check on a core of the active complex. -/
def execComplexMachineCheck (s : State) : Host.Outcome State Fault Refusal := .next (if s.complexUp then s.complexCheck else s)
/-- A machine check on the standby resets it. -/
def execStandbyMachineCheck (s : State) : Host.Outcome State Fault Refusal :=
  let standby := if s.activeB then 40 else 44
  let up := ((s.scalar standby).map (·.running)).getD false
  if !up then .next s
  else .next (s.resetStandby true)
/-- Traps inside the handlers of complex cores check their complexes (R341, R371). -/
def State.checked (s : State) : State :=
  s.checks.foldl (fun s i => if (decide (44 ≤ i)) = s.activeB then s.complexCheck else s.resetStandby true) { s with checks := [] }

/-! ### What a step leaves to be done -/

/-- What a step leaves to be done: spent slices stop (R261), fences whose condition holds hold nothing more (R185), chips acknowledge and
Gos that were held back are sent (R375, R376), deals that were held back are made (R274), units are paid (R398), complexes are checked (R371),
tenants whose wired memory faulted are killed (R340), the completion-counter table follows the launches (R320), and what waits in the pool
is looked at (R22). -/
def State.settle (s old : State) : State :=
  let t := ((s.stopSpent.endBars.ackMembers.sendGos s.launches.length).unpark.checked.payUnits.podFlush).postEntries old
  (((t.tenants.filter fun p => p.2.killed.isSome && !p.2.teardown).foldl (fun s p =>
    s.tenantKill p.1 ((p.2.killed).getD 0)) t).postEntries t).tendPool

end Sys2Proof.Machine
end

