-- ==== Sys2Proof/Machine/Boot.lean ====
section
/-! DEFINITION. Package reset, the boot, the thermal rules and the registers that the host sees (R9, R328, R363 to R367, R383, R385,
R387 to R389). -/

namespace Sys2Proof.Machine

/-! ### Package reset (R389) -/

/-- Power-on asserts package reset. -/
def execPowerOn (s : State) : Host.Outcome State Fault Refusal := .next { s.packageReset with railsAt := s.mcTime }
/-- A rail is outside its band (R385). -/
def execRailOutOfBand (rail : Nat) (s : State) : Host.Outcome State Fault Refusal :=
  .next (if rail < 5 then { s.packageReset with railsAt := s.mcTime } else s)
/-- Fundamental reset from a host link that the configuration record enables. -/
def execPcieFundamentalReset (s : State) : Host.Outcome State Fault Refusal :=
  .next (if bitOf (recAt s.bootRecord 0x10 1) 1 then s.packageReset else s)
/-- `MCRESET` is written with 0x5253 (R388). -/
def execMcreset (s : State) : Host.Outcome State Fault Refusal := .next s.packageReset

/-! ### The boot (Table 16.8) -/

/-- Degrees of Table 18.1 in sixteenths. -/
def warnAt : Nat := 1600
/-- The trip temperature. -/
def tripAt : Nat := 1840
/-- A boot step begins: `MCSTAT.BOOTSTEP` shows it (Table 18.4). -/
def State.bootAt (s : State) (n : Nat) : State := { s with mcstat := (s.mcstat &&& ~~~0xFF#64) ||| BitVec.ofNat 64 (min n 8), bootStep := n }
/-- The boot halts with a code. -/
def State.halt (s : State) (code : Nat) : State :=
  { s with mcstat := s.mcstat ||| 0x20000 ||| BitVec.ofNat 64 (code * 256), bootStep := 0 }
/-- The boot ROM begins, where package reset has ended. Reset ends: every rail has been in its band for 10 ms of
the controller's time, every sensor is below the warning temperature after a trip, and PTB starts at 0 (R328, R385, R387). -/
def State.release (s : State) : State :=
  if s.inReset then
    if !s.tripped && decide (s.railsAt + 10000000 ≤ s.mcTime) then ({ s with inReset := false, ptb := 0 } : State).bootAt 1 else s
  else if s.bootStep = 0 && !s.mcstat.getLsbD 17 then s.bootAt 1
  else s
/-- Step 1: the ROM's own digest and its firmware's enter the log; complex A runs, and complex B where its own image verifies. -/
def State.bootRom (s : State) : State :=
  let s := (s.logAdd 1 0 Config.romDigest).logAdd 2 0x43010000 Config.firmwareDigest
  let cores := (List.range (if Config.romVerifies then 8 else 4)).foldl (fun t k => Tab.put t (40 + k) { freshScalar (40 + k) s.ptb with running := true }) s.scalars
  ({ s with scalars := cores } : State).bootAt 2
/-- A configuration record is accepted (R364). -/
def recordAccepted (r : List Byte) : Bool :=
  let key := (r.drop 0x100).take 97
  recAt r 0 4 = 0x52435A47 && recAt r 4 2 = 1 && Config.bootKeys.contains (sha384 key) &&
    ecdsaVerifies key (r.take 0x200) ((r.drop 0x200).take 96)
/-- Step 3: the record at flash offset 0, or its copy (R364, R367). -/
def State.bootConfig (s : State) : State :=
  let a := Mem.bytes s.flash 0 0x260
  let b := Mem.bytes s.flash 0x100000 0x260
  match (if recordAccepted a then some a else if recordAccepted b then some b else none) with
  | none => s.halt 3
  | some r => (({ s with bootRecord := r } : State).logAdd 3 (recWord r 8) (sha384 r)).bootAt 4
/-- Step 4: the hub registers, as the record has them, and what is present; a die with a stack that does not train is absent (R9, R163, R364;
log 119). -/
def State.bootHub (s : State) : State :=
  let r := s.bootRecord
  let die := fun (d : Nat) =>
    let w := recWord r (0x18 + 8 * d)
    if Config.stackTrains (2 * d) && Config.stackTrains (2 * d + 1) then w else w &&& 0x7FFFFFFFFFFFFFFF
  let dies := (List.range 8).foldl (fun t d => Tab.set 0 t d (die d)) []
  let owners := (List.range 8).foldl (fun t k => Tab.put t k (recAt r (0xD8 + 2 * k) 2)) []
  let s := { s with
    chip := recAt r 0x12 2 % 1024, hosted := bitOf (recAt r 0x10 1) 0, present := dies, localBase := recWord r 0x58, podBase := recWord r 0x60
    tenantBase := recWord r 0x68, pasidTbl := recWord r 0x70, cctBase := recWord r 0x78, owners := owners, podChips := [recAt r 0x12 2 % 1024] }
  let shards := ((List.range 40).filter s.servicePresent).foldl (fun t i => Tab.put t i (freshScalar i s.ptb)) s.scalars
  if !(List.range 8).any s.diePresent then s.halt 4 else ({ s with scalars := shards } : State).bootAt 5
/-- An SPA of this package's HBM where a copy of the record can stand: in a present die, clear of an image of n bytes; which one is open
(R365; log 38). -/
def State.recordPlace (s : State) (image n : Nat) : Nat × State :=
  let u := s.unstated
  let v := u.2.unstated
  let dies := (List.range 8).filter s.diePresent
  let base := s.localBase.toNat + dies.getD (u.1.toNat % dies.length) 0 * 2 ^ 37
  let o := v.1.toNat % (2 ^ 37 - 0x260)
  let meets := fun (a : Nat) => decide (a < image + n) && decide (image < a + 0x260)
  (if meets (base + o) then base + (o + 2 ^ 36) % (2 ^ 37 - 0x260) else base + o, v.2)
/-- Step 5: the image of shard 0 is copied, checked, measured and started; s1 holds the SPA of a copy of the record (R365). -/
def State.bootShard (s : State) : State :=
  let r := s.bootRecord
  let n := recAt r 0x88 8
  let dest := recAt r 0x90 8
  let image := Mem.bytes s.flash (recAt r 0x80 8) n
  match s.route dest, s.route (dest + n - 1), s.shard0 with
  | some k, some l, some j =>
    if 2 ^ 26 < n || l + 1 ≠ k + n || sha384 image != (r.drop 0xA8).take 48 then s.halt 5
    else
      let s := (s.homeStore k image).logAdd 4 (BitVec.ofNat 64 j) (sha384 image)
      let p := s.recordPlace dest n
      let s := match p.2.route p.1 with
        | some k => p.2.homeStore k r
        | none => p.2
      let shards := bitsWord ((List.range 40).filter s.servicePresent)
      let m := mkRecord 64 [(0, 2, 1), (2, 1, j), (8, 8, recAt r 0x98 8), (0x10, 8, recAt r 0xA0 8), (0x28, 8, p.1), (0x30, 8, shards.toNat)]
      (s.updScalar j fun c => { startedFrom j m 0 c s.ptb with measured := true }).bootAt 6
  | _, _, _ => s.halt 5
/-- The last step: the host link is trained where the record enables it; a link that does not train leaves the part self-hosted. -/
def State.bootLink (s : State) (okay : Bool) : State :=
  let up := bitOf (recAt s.bootRecord 0x10 1) 1 && okay
  ({ s with hostLink := up, hosted := s.hosted && up, mcstat := s.mcstat ||| 0x10000 } : State).bootAt 9
/-- A step of the boot, in turn; 0 is the end of package reset. `okay` says whether the host link trains. Steps 6 and 7 are the shards'
own (R363). -/
def execBoot (n : Nat) (okay : Bool) (s : State) : Host.Outcome State Fault Refusal :=
  if n = 0 then .next s.release
  else if s.inReset || s.bootStep ≠ n then .next s
  else match n with
    | 1 => .next s.bootRom
    | 2 => .next (if s.pufResponse.isNone then s.halt 2 else s.bootAt 3)
    | 3 => .next s.bootConfig
    | 4 => .next s.bootHub
    | 5 => .next s.bootShard
    | 6 => .next (s.bootAt 7)
    | 7 => .next (s.bootAt 8)
    | 8 => .next (s.bootLink okay)
    | _ => .next s

/-! ### Temperature (R387) -/

/-- The sensors are read: `sixteenths` is the hottest of them in 1/16 °C. After a trip reset holds until one finds each below the warning
temperature. -/
def execThermalSample (sixteenths : Nat) (s : State) : Host.Outcome State Fault Refusal :=
  let t := BitVec.ofNat 64 sixteenths
  if s.inReset then
    .next { s with mctemp := t, tripped := decide (tripAt ≤ sixteenths) || (s.tripped && decide (warnAt ≤ sixteenths))
                   mcstat := if tripAt ≤ sixteenths then s.mcstat ||| 0x100000 else s.mcstat }
  else if tripAt ≤ sixteenths then
    let s := s.packageReset
    .next { s with mctemp := t, tripped := true, mcstat := s.mcstat ||| 0x100000 }
  else
    let warn := decide (warnAt ≤ sixteenths)
    let zero := if warn then true else if sixteenths ≤ warnAt - 80 then false else s.pwrZero
    let bit : Word := if warn then 0x80000 else 0
    let caps : Tab Tenant := s.tenants.map fun p => if zero then (p.1, { p.2 with capped := true }) else p
    .next { s with mctemp := t, mcstat := (s.mcstat &&& ~~~0x80000#64) ||| bit, pwrZero := zero, tenants := caps }

/-! ### Registers (R383, R388) -/

/-- Some tenant's record has `V` 1. -/
def State.someTenant (s : State) : Bool :=
  (List.range 64).any fun t => ((s.tenantRecord t).map fun r => bitOf (recAt r 0 4) 31).getD false
/-- A write of a base register by the driver, in hosted mode, over the host link: ignored while some tenant's `V` is 1; the low bits below its alignment are dropped (R163, R289, R290,
R320, R382, R383; log 39). -/
def State.baseWrite (s : State) (offset value : Nat) : State :=
  if s.someTenant || !s.hosted || !s.hostLink then s
  else
    let v := fun (n : Nat) => BitVec.ofNat 64 (value % 2 ^ 64 / n * n)
    match offset with
    | 0 => { s with localBase := v (2 ^ 40) }
    | 8 => { s with podBase := v (2 ^ 50) }
    | 0x10 => { s with tenantBase := v 4096 }
    | 0x18 => { s with pasidTbl := v 4096 }
    | 0x20 => { s with cctBase := v 4096 }
    | _ => s
/-- A base register is written (R383). -/
def execBaseRegisterWrite (offset value : Nat) (s : State) : Host.Outcome State Fault Refusal :=
  .next (if s.inReset then s else s.baseWrite offset value)
/-- A write to a register of a shadow hart (Table 17.3); the bits of `SHRING` below its alignment are dropped (log 39). A hart that is enabled
serves what its interrupt file holds (R170; log 33). -/
def State.hartWrite (s : State) (h off : Nat) (v : Word) : State :=
  let put := fun (v : Word) => { s with harts := Tab.set 0 s.harts (8 * h + off / 8) v }
  match off with
  | 0 => put v
  | 8 => put (v &&& ~~~0xFFF#64)
  | 0x10 => put v
  | 0x20 => put v
  | 0x28 => if v.getLsbD 0 && !(Tab.at s.imsics h []).isEmpty then (put 1).serveMailbox h else put (v &&& 1)
  | _ => s
/-- A write through BAR0 to a hub or management register: a shadow hart's, a doorbell, a W1C bit, `MCRESET`; a register that is only read
ignores it, and a doorbell may be a shard's (R241, R289, R382, R383, R388; log 106). -/
def execRegisterWrite (offset value : Nat) (s : State) : Host.Outcome State Fault Refusal :=
  let v := BitVec.ofNat 64 value
  if s.inReset then .next s
  else if offset < 0x10000 && !s.hostLink then .next s
  else if offset < 0x28 then .next (s.baseWrite offset value)
  else if 0x2000 ≤ offset && offset < 0x2A00 then .next (if s.hosted then s.hartWrite ((offset - 0x2000) / 64) ((offset - 0x2000) % 64) v else s)
  else if 0x3000 ≤ offset && offset < 0x3030 then .next (s.registerStore offset v)
  else if 0x10000 ≤ offset && offset < 0x50000 && (offset - 0x10000) % 4096 < 128 && offset % 8 = 0 then
    let t := (offset - 0x10000) / 4096
    let q := (offset - 0x10000) % 4096 / 8
    if s.fetching then .next (s.readDesc t q)
    else if !s.complexUp || s.doorbells.contains (t, q) then .next s
    else .next { s with doorbells := s.doorbells ++ [(t, q)] }
  else .next s

end Sys2Proof.Machine
end

