-- ==== Sys2Proof/Machine/Floating.lean ====
section
/-! DEFINITION. Majors FP64, FP32, PK16, FCMP, CVT, QCVT, SFU32, SFU64, SFUX and IDIV (R114 to R121). -/

namespace Sys2Proof.Machine

/-- FP64 sum (R114). -/
def execFadd (d a b : BitVec 6) (u : BitVec 1) (s : State) : Host.Outcome State Fault Refusal :=
  s.laneF d a b u (fpAdd fp64)
/-- FP64 difference (R114). -/
def execFsub (d a b : BitVec 6) (u : BitVec 1) (s : State) : Host.Outcome State Fault Refusal :=
  s.laneF d a b u (fpSub fp64)
/-- FP64 product (R114). -/
def execFmul (d a b : BitVec 6) (u : BitVec 1) (s : State) : Host.Outcome State Fault Refusal :=
  s.laneF d a b u (fpMul fp64)
/-- FP64 fused A × B + D (R114). -/
def execFfma (d a b : BitVec 6) (u : BitVec 1) (s : State) : Host.Outcome State Fault Refusal :=
  s.laneF d a b u (fpFma fp64)
/-- FP64 minimumNumber (R114). -/
def execFmin (d a b : BitVec 6) (u : BitVec 1) (s : State) : Host.Outcome State Fault Refusal :=
  s.laneF d a b u (fpMin fp64)
/-- FP64 maximumNumber (R114). -/
def execFmax (d a b : BitVec 6) (u : BitVec 1) (s : State) : Host.Outcome State Fault Refusal :=
  s.laneF d a b u (fpMax fp64)
/-- FP64 magnitude (R114). -/
def execFabs (d a : BitVec 6) (s : State) : Host.Outcome State Fault Refusal :=
  s.laneU d a (fpAbs fp64)
/-- FP64 sign inverted (R114). -/
def execFneg (d a : BitVec 6) (s : State) : Host.Outcome State Fault Refusal :=
  s.laneU d a (fpNeg fp64)
/-- FP64 magnitude of A with the sign of B (R114). -/
def execFcpysgn (d a b : BitVec 6) (u : BitVec 1) (s : State) : Host.Outcome State Fault Refusal :=
  s.laneR d a b u fun x y _ => fpCopySign fp64 x y
/-- FP64 class mask (R115). -/
def execFclass (d a : BitVec 6) (s : State) : Host.Outcome State Fault Refusal :=
  s.laneU d a (fpClass fp64)
/-- FP32 sum (R114). -/
def execFaddS (d a b : BitVec 6) (u : BitVec 1) (s : State) : Host.Outcome State Fault Refusal :=
  s.laneF d a b u (fpAdd fp32)
/-- FP32 difference (R114). -/
def execFsubS (d a b : BitVec 6) (u : BitVec 1) (s : State) : Host.Outcome State Fault Refusal :=
  s.laneF d a b u (fpSub fp32)
/-- FP32 product (R114). -/
def execFmulS (d a b : BitVec 6) (u : BitVec 1) (s : State) : Host.Outcome State Fault Refusal :=
  s.laneF d a b u (fpMul fp32)
/-- FP32 fused A × B + D (R114). -/
def execFfmaS (d a b : BitVec 6) (u : BitVec 1) (s : State) : Host.Outcome State Fault Refusal :=
  s.laneF d a b u (fpFma fp32)
/-- FP32 minimumNumber (R114). -/
def execFminS (d a b : BitVec 6) (u : BitVec 1) (s : State) : Host.Outcome State Fault Refusal :=
  s.laneF d a b u (fpMin fp32)
/-- FP32 maximumNumber (R114). -/
def execFmaxS (d a b : BitVec 6) (u : BitVec 1) (s : State) : Host.Outcome State Fault Refusal :=
  s.laneF d a b u (fpMax fp32)
/-- FP32 magnitude (R114). -/
def execFabsS (d a : BitVec 6) (s : State) : Host.Outcome State Fault Refusal :=
  s.laneU d a (fpAbs fp32)
/-- FP32 sign inverted (R114). -/
def execFnegS (d a : BitVec 6) (s : State) : Host.Outcome State Fault Refusal :=
  s.laneU d a (fpNeg fp32)
/-- FP32 magnitude of A with the sign of B (R114). -/
def execFcpysgnS (d a b : BitVec 6) (u : BitVec 1) (s : State) : Host.Outcome State Fault Refusal :=
  s.laneR d a b u fun x y _ => fpCopySign fp32 x y
/-- FP32 class mask (R115). -/
def execFclassS (d a : BitVec 6) (s : State) : Host.Outcome State Fault Refusal :=
  s.laneU d a (fpClass fp32)
/-- Packed FP16 sum (R116). -/
def execHadd2 (d a b : BitVec 6) (u : BitVec 1) (s : State) : Host.Outcome State Fault Refusal :=
  s.laneF d a b u fun rm => packed (fpAdd fp16 rm)
/-- Packed FP16 product (R116). -/
def execHmul2 (d a b : BitVec 6) (u : BitVec 1) (s : State) : Host.Outcome State Fault Refusal :=
  s.laneF d a b u fun rm => packed (fpMul fp16 rm)
/-- Packed FP16 fused a × b + d (R116). -/
def execHfma2 (d a b : BitVec 6) (u : BitVec 1) (s : State) : Host.Outcome State Fault Refusal :=
  s.laneF d a b u fun rm => packed (fpFma fp16 rm)
/-- Packed FP16 maximumNumber (R116). -/
def execHmax2 (d a b : BitVec 6) (u : BitVec 1) (s : State) : Host.Outcome State Fault Refusal :=
  s.laneF d a b u fun rm => packed (fpMax fp16 rm)
/-- Packed BF16 sum (R116). -/
def execBadd2 (d a b : BitVec 6) (u : BitVec 1) (s : State) : Host.Outcome State Fault Refusal :=
  s.laneF d a b u fun rm => packed (fpAdd bf16 rm)
/-- Packed BF16 product (R116). -/
def execBmul2 (d a b : BitVec 6) (u : BitVec 1) (s : State) : Host.Outcome State Fault Refusal :=
  s.laneF d a b u fun rm => packed (fpMul bf16 rm)
/-- Packed BF16 fused a × b + d (R116). -/
def execBfma2 (d a b : BitVec 6) (u : BitVec 1) (s : State) : Host.Outcome State Fault Refusal :=
  s.laneF d a b u fun rm => packed (fpFma bf16 rm)
/-- Packed BF16 maximumNumber (R116). -/
def execBmax2 (d a b : BitVec 6) (u : BitVec 1) (s : State) : Host.Outcome State Fault Refusal :=
  s.laneF d a b u fun rm => packed (fpMax bf16 rm)
/-- A comparison result as `laneC` takes it (R117). -/
def fcmp (f : Fmt) (c : BitVec 3) (a b : Word) : Bool × BitVec 5 :=
  f.compare c.toNat (a.toNat % 2 ^ f.width) (b.toNat % 2 ^ f.width)
/-- `fcmp.cond.s` (R117). -/
def execFcmpS (gd : BitVec 3) (a b : BitVec 6) (u : BitVec 1) (c : BitVec 3) (s : State) : Host.Outcome State Fault Refusal :=
  s.laneC gd a b u (fcmp fp32 c)
/-- `fcmp.cond.d` (R117). -/
def execFcmpD (gd : BitVec 3) (a b : BitVec 6) (u : BitVec 1) (c : BitVec 3) (s : State) : Host.Outcome State Fault Refusal :=
  s.laneC gd a b u (fcmp fp64 c)
/-- `cvt.dst.src` (R41, R118). -/
def execCvt (d a : BitVec 6) (src dst : BitVec 3) (s : State) : Host.Outcome State Fault Refusal :=
  s.issue (.regs [d.toNat, a.toNat] []) fun s =>
    s.inLanes fun g l => .fp d (convert src.toNat dst.toNat (g.rm l) (g.vreg l a.toNat))
/-- `qe4m3` (R42, R119). -/
def execQe4m3 (d a b : BitVec 6) (u : BitVec 1) (sat : BitVec 1) (s : State) : Host.Outcome State Fault Refusal :=
  s.laneR d a b u fun x y _ => BitVec.ofNat 64 (qNarrow e4m3 (sat == 1#1) (fp32.read x) (qScale y))
/-- `qe5m2` (R42, R119). -/
def execQe5m2 (d a b : BitVec 6) (u : BitVec 1) (sat : BitVec 1) (s : State) : Host.Outcome State Fault Refusal :=
  s.laneR d a b u fun x y _ => BitVec.ofNat 64 (qNarrow e5m2 (sat == 1#1) (fp32.read x) (qScale y))
/-- `qe2m1` (R42, R119): `SAT` changes nothing. -/
def execQe2m1 (d a b : BitVec 6) (u : BitVec 1) (_sat : BitVec 1) (s : State) : Host.Outcome State Fault Refusal :=
  s.laneR d a b u fun x y _ => BitVec.ofNat 64 (qE2M1 (fp32.read x) (qScale y))
/-- `qi8` (R42, R119): sign-extended; `SAT` changes nothing. -/
def execQi8 (d a b : BitVec 6) (u : BitVec 1) (_sat : BitVec 1) (s : State) : Host.Outcome State Fault Refusal :=
  s.laneR d a b u fun x y _ => wordOfInt (qInt8 (fp32.read x) (qScale y))
/-- `de4m3` (R43, R119). -/
def execDe4m3 (d a : BitVec 6) (s : State) : Host.Outcome State Fault Refusal :=
  s.laneU d a fun x => BitVec.ofNat 64 (fp32.widen (e4m3.read x))
/-- `de5m2` (R43, R119). -/
def execDe5m2 (d a : BitVec 6) (s : State) : Host.Outcome State Fault Refusal :=
  s.laneU d a fun x => BitVec.ofNat 64 (fp32.widen (e5m2.read x))
/-- `de2m1` (R35, R43, R119). -/
def execDe2m1 (d a : BitVec 6) (s : State) : Host.Outcome State Fault Refusal :=
  s.laneU d a fun x => BitVec.ofNat 64 (fp32.widen (e2m1Lone (x.toNat % 16)))

/-- FP32 1 / A (R120). -/
def execRcpS (d a : BitVec 6) (la : BitVec 4) (s : State) : Host.Outcome State Fault Refusal :=
  s.laneX1 d a la (fpRcp fp32)
/-- FP32 1 / √A (R120). -/
def execRsqS (d a : BitVec 6) (la : BitVec 4) (s : State) : Host.Outcome State Fault Refusal :=
  s.laneX1 d a la (fpRsq fp32)
/-- FP32 √A (R120). -/
def execSqrtS (d a : BitVec 6) (la : BitVec 4) (s : State) : Host.Outcome State Fault Refusal :=
  s.laneX1 d a la (fpSqrt fp32)
/-- FP32 A / B (R120). -/
def execDivS (d a b : BitVec 6) (u : BitVec 1) (la : BitVec 4) (s : State) : Host.Outcome State Fault Refusal :=
  s.laneX d a b u la (fpDiv fp32)
/-- FP64 1 / A (R120). -/
def execRcpD (d a : BitVec 6) (la : BitVec 4) (s : State) : Host.Outcome State Fault Refusal :=
  s.laneX1 d a la (fpRcp fp64)
/-- FP64 1 / √A (R120). -/
def execRsqD (d a : BitVec 6) (la : BitVec 4) (s : State) : Host.Outcome State Fault Refusal :=
  s.laneX1 d a la (fpRsq fp64)
/-- FP64 √A (R120). -/
def execSqrtD (d a : BitVec 6) (la : BitVec 4) (s : State) : Host.Outcome State Fault Refusal :=
  s.laneX1 d a la (fpSqrt fp64)
/-- FP64 A / B (R120). -/
def execDivD (d a b : BitVec 6) (u : BitVec 1) (la : BitVec 4) (s : State) : Host.Outcome State Fault Refusal :=
  s.laneX d a b u la (fpDiv fp64)
/-- 2^A, faithful (R40, R120). -/
def execExp2 (d a : BitVec 6) (la : BitVec 4) (s : State) : Host.Outcome State Fault Refusal :=
  s.laneX1 d a la fpExp2
/-- log2 A, faithful (R40, R120). -/
def execLog2 (d a : BitVec 6) (la : BitVec 4) (s : State) : Host.Outcome State Fault Refusal :=
  s.laneX1 d a la fpLog2
/-- sin(π A), faithful (R40, R120). -/
def execSinpi (d a : BitVec 6) (la : BitVec 4) (s : State) : Host.Outcome State Fault Refusal :=
  s.laneX1 d a la fpSinpi
/-- cos(π A), faithful (R40, R120). -/
def execCospi (d a : BitVec 6) (la : BitVec 4) (s : State) : Host.Outcome State Fault Refusal :=
  s.laneX1 d a la fpCospi
/-- Quotient and remainder of Table 5.12 and R121: signed, rounded toward zero. -/
def idiv (a b : Word) : Word := if b = 0 then BitVec.allOnes 64 else a.sdiv b
/-- Signed remainder, with the sign of A (R121). -/
def irem (a b : Word) : Word := if b = 0 then a else a.srem b
/-- Unsigned quotient (R121). -/
def idivu (a b : Word) : Word := if b = 0 then BitVec.allOnes 64 else a / b
/-- Unsigned remainder (R121). -/
def iremu (a b : Word) : Word := if b = 0 then a else a % b

/-- Signed quotient (R121). -/
def execDiv (d a b : BitVec 6) (u : BitVec 1) (la : BitVec 4) (s : State) : Host.Outcome State Fault Refusal :=
  s.laneX d a b u la fun _ x y => (idiv x y, 0)
/-- Unsigned quotient (R121). -/
def execDivu (d a b : BitVec 6) (u : BitVec 1) (la : BitVec 4) (s : State) : Host.Outcome State Fault Refusal :=
  s.laneX d a b u la fun _ x y => (idivu x y, 0)
/-- Signed remainder (R121). -/
def execRem (d a b : BitVec 6) (u : BitVec 1) (la : BitVec 4) (s : State) : Host.Outcome State Fault Refusal :=
  s.laneX d a b u la fun _ x y => (irem x y, 0)
/-- Unsigned remainder (R121). -/
def execRemu (d a b : BitVec 6) (u : BitVec 1) (la : BitVec 4) (s : State) : Host.Outcome State Fault Refusal :=
  s.laneX d a b u la fun _ x y => (iremu x y, 0)

end Sys2Proof.Machine
end

