-- ==== Sys2Proof/Machine/Alu.lean ====
section
/-! DEFINITION. The integer functions of Table 5.4, which IALU and SIALU share (R109 to R111, R123). -/

namespace Sys2Proof.Machine

/-- Position of a field specifier (R110). -/
def fieldPos (b : Word) : Nat := bitsOf b.toNat 5 0
/-- Length used of a field specifier, cut at bit 63 (R110). -/
def fieldLen (b : Word) : Nat := min (bitsOf b.toNat 14 8) (64 - fieldPos b)
/-- Mask of a field specifier (R110). -/
def fieldMask (b : Word) : Word := BitVec.ofNat 64 ((2 ^ fieldLen b - 1) * 2 ^ fieldPos b)
/-- The field of A that a specifier names, sign-extended; 0 when its length is 0 (R110). -/
def bitField (a b : Word) : Word := wordOfInt (sextInt (fieldLen b) ((a &&& fieldMask b) >>> fieldPos b).toNat)

/-- w32(A + B) (Table 5.4). -/
def aluAddW (a b _d : Word) : Word := w32 (a + b)
/-- A + B (Table 5.4). -/
def aluAddD (a b _d : Word) : Word := a + b
/-- w32(A − B) (Table 5.4). -/
def aluSubW (a b _d : Word) : Word := w32 (a - b)
/-- A − B (Table 5.4). -/
def aluSubD (a b _d : Word) : Word := a - b
/-- w32(A × B) (Table 5.4). -/
def aluMulW (a b _d : Word) : Word := w32 (a * b)
/-- low 64 bits of A × B (Table 5.4). -/
def aluMulD (a b _d : Word) : Word := a * b
/-- bits 127:64 of s(A) × s(B) (Table 5.4). -/
def aluMulhD (a b _d : Word) : Word := BitVec.ofInt 64 (a.toInt * b.toInt / 2 ^ 64)
/-- bits 127:64 of u(A) × u(B) (Table 5.4). -/
def aluMulhuD (a b _d : Word) : Word := BitVec.ofNat 64 (a.toNat * b.toNat / 2 ^ 64)
/-- w32(D + A × B) (Table 5.4). -/
def aluMadW (a b d : Word) : Word := w32 (d + a * b)
/-- D + A × B (Table 5.4). -/
def aluMadD (a b d : Word) : Word := d + a * b
/-- A and B (Table 5.4). -/
def aluAnd (a b _d : Word) : Word := a &&& b
/-- A or B (Table 5.4). -/
def aluOr (a b _d : Word) : Word := a ||| b
/-- A xor B (Table 5.4). -/
def aluXor (a b _d : Word) : Word := a ^^^ b
/-- A and not B (Table 5.4). -/
def aluAndn (a b _d : Word) : Word := a &&& ~~~b
/-- w32(A ≪ bits(B, 4, 0)) (Table 5.4). -/
def aluShlW (a b _d : Word) : Word := w32 (a <<< (b.toNat % 32))
/-- A ≪ bits(B, 5, 0) (Table 5.4). -/
def aluShlD (a b _d : Word) : Word := a <<< (b.toNat % 64)
/-- w32(zext of bits 31:0 of A ≫ bits(B, 4, 0)) (Table 5.4). -/
def aluShrW (a b _d : Word) : Word := w32 ((a &&& 0xFFFFFFFF) >>> (b.toNat % 32))
/-- u(A) ≫ bits(B, 5, 0) (Table 5.4). -/
def aluShrD (a b _d : Word) : Word := a >>> (b.toNat % 64)
/-- w32(s of bits 31:0 of A ≫ bits(B, 4, 0)) (Table 5.4). -/
def aluSraW (a b _d : Word) : Word := w32 ((w32 a).sshiftRight (b.toNat % 32))
/-- s(A) ≫ bits(B, 5, 0) (Table 5.4). -/
def aluSraD (a b _d : Word) : Word := a.sshiftRight (b.toNat % 64)
/-- w32 of bits 31:0 of A rotated right by bits(B, 4, 0) (Table 5.4). -/
def aluRotW (a b _d : Word) : Word := ((a.setWidth 32).rotateRight (b.toNat % 32)).signExtend 64
/-- A rotated right by bits(B, 5, 0) (Table 5.4). -/
def aluRotD (a b _d : Word) : Word := a.rotateRight (b.toNat % 64)
/-- the smaller of s(A), s(B) (Table 5.4). -/
def aluMin (a b _d : Word) : Word := if a.slt b then a else b
/-- the larger of s(A), s(B) (Table 5.4). -/
def aluMax (a b _d : Word) : Word := if a.slt b then b else a
/-- the smaller of u(A), u(B) (Table 5.4). -/
def aluMinu (a b _d : Word) : Word := if a.ult b then a else b
/-- the larger of u(A), u(B) (Table 5.4). -/
def aluMaxu (a b _d : Word) : Word := if a.ult b then b else a
/-- |s(A)|; abs of −2^63 is −2^63 (Table 5.4). -/
def aluAbs (a : Word) : Word := if a.slt 0 then -a else a
/-- the number of leading zero bits of A (Table 5.4). -/
def aluClz (a : Word) : Word := BitVec.ofNat 64 (64 - bitLen a.toNat)
/-- the number of one bits of A (Table 5.4). -/
def aluPopc (a : Word) : Word := BitVec.ofNat 64 ((List.range 64).filter a.getLsbD).length
/-- A with bit i moved to bit 63 − i (Table 5.4). -/
def aluBrev (a : Word) : Word := a.reverse
/-- the field of A that B specifies, sign-extended (R110) (Table 5.4). -/
def aluBfe (a b _d : Word) : Word := bitField a b
/-- the field of A that B specifies, zero-extended (R110) (Table 5.4). -/
def aluBfeu (a b _d : Word) : Word := (a &&& fieldMask b) >>> fieldPos b
/-- D with the field that B specifies replaced from A (R110) (Table 5.4). -/
def aluBfi (a b d : Word) : Word := (d &&& ~~~fieldMask b) ||| ((a <<< fieldPos b) &&& fieldMask b)
/-- 1 if s(A) < s(B), else 0 (Table 5.4). -/
def aluSlt (a b _d : Word) : Word := if a.slt b then 1 else 0
/-- 1 if u(A) < u(B), else 0 (Table 5.4). -/
def aluSltu (a b _d : Word) : Word := if a.ult b then 1 else 0
/-- 1 if A == B, else 0 (Table 5.4). -/
def aluSeq (a b _d : Word) : Word := if a = b then 1 else 0
/-- 1 if A ≠ B, else 0 (Table 5.4). -/
def aluSne (a b _d : Word) : Word := if a = b then 0 else 1

/-- The exact sum of `addva` (R111). -/
def vaSum (a b : Word) : Int := a.toInt + b.toInt
/-- Whether the sum of `addva` is a canonical address (R111). -/
def vaFits (a b : Word) : Bool := decide (-(2 ^ 56 : Int) ≤ vaSum a b) && decide (vaSum a b < 2 ^ 56)

/-- A shift of kind k (0 shl, 1 shr, 2 sra, 3 rot) and width w (0 `.w`, 1 `.d`) by n (Table 4.4, R112). -/
def aluShift (k : BitVec 2) (w : BitVec 1) (n : BitVec 6) (a : Word) : Word :=
  let b : Word := n.setWidth 64
  if w = 0#1 then
    if k = 0#2 then aluShlW a b 0 else if k = 1#2 then aluShrW a b 0 else if k = 2#2 then aluSraW a b 0 else aluRotW a b 0
  else if k = 0#2 then aluShlD a b 0 else if k = 1#2 then aluShrD a b 0 else if k = 2#2 then aluSraD a b 0 else aluRotD a b 0

/-- The sign-extended 13-bit immediate (R112, R124). -/
def imm13 (i : BitVec 13) : Word := i.signExtend 64

end Sys2Proof.Machine
end

