-- ==== Sys2Proof/Machine/Integer.lean ====
section
/-! DEFINITION. Majors IALU, ICMP, SEL and the LI majors (R108 to R113). -/

namespace Sys2Proof.Machine

/-- `sel` (R108): A where the guard condition holds, B where it does not. -/
def execSel (d a b : BitVec 6) (u : BitVec 1) (n : BitVec 1) (gd : BitVec 3) (s : State) : Host.Outcome State Fault Refusal :=
  s.issue { useB [d, a] b u with guards := [gd.toNat] } fun s =>
    s.inLanes fun g l => .reg d (if g.guard l gd.toNat != (n == 1#1) then g.vreg l a.toNat else g.opB l b u)

/-- vd := w32(A + B) (R109). -/
def execAddW (d a b : BitVec 6) (u : BitVec 1) (s : State) : Host.Outcome State Fault Refusal :=
  s.laneR d a b u aluAddW
/-- vd := A + B (R109). -/
def execAddD (d a b : BitVec 6) (u : BitVec 1) (s : State) : Host.Outcome State Fault Refusal :=
  s.laneR d a b u aluAddD
/-- vd := w32(A − B) (R109). -/
def execSubW (d a b : BitVec 6) (u : BitVec 1) (s : State) : Host.Outcome State Fault Refusal :=
  s.laneR d a b u aluSubW
/-- vd := A − B (R109). -/
def execSubD (d a b : BitVec 6) (u : BitVec 1) (s : State) : Host.Outcome State Fault Refusal :=
  s.laneR d a b u aluSubD
/-- vd := w32(A × B) (R109). -/
def execMulW (d a b : BitVec 6) (u : BitVec 1) (s : State) : Host.Outcome State Fault Refusal :=
  s.laneR d a b u aluMulW
/-- vd := low 64 bits of A × B (R109). -/
def execMulD (d a b : BitVec 6) (u : BitVec 1) (s : State) : Host.Outcome State Fault Refusal :=
  s.laneR d a b u aluMulD
/-- vd := bits 127:64 of s(A) × s(B) (R109). -/
def execMulhD (d a b : BitVec 6) (u : BitVec 1) (s : State) : Host.Outcome State Fault Refusal :=
  s.laneR d a b u aluMulhD
/-- vd := bits 127:64 of u(A) × u(B) (R109). -/
def execMulhuD (d a b : BitVec 6) (u : BitVec 1) (s : State) : Host.Outcome State Fault Refusal :=
  s.laneR d a b u aluMulhuD
/-- vd := w32(D + A × B) (R109). -/
def execMadW (d a b : BitVec 6) (u : BitVec 1) (s : State) : Host.Outcome State Fault Refusal :=
  s.laneR d a b u aluMadW
/-- vd := D + A × B (R109). -/
def execMadD (d a b : BitVec 6) (u : BitVec 1) (s : State) : Host.Outcome State Fault Refusal :=
  s.laneR d a b u aluMadD
/-- vd := A and B (R109). -/
def execAnd (d a b : BitVec 6) (u : BitVec 1) (s : State) : Host.Outcome State Fault Refusal :=
  s.laneR d a b u aluAnd
/-- vd := A or B (R109). -/
def execOr (d a b : BitVec 6) (u : BitVec 1) (s : State) : Host.Outcome State Fault Refusal :=
  s.laneR d a b u aluOr
/-- vd := A xor B (R109). -/
def execXor (d a b : BitVec 6) (u : BitVec 1) (s : State) : Host.Outcome State Fault Refusal :=
  s.laneR d a b u aluXor
/-- vd := A and not B (R109). -/
def execAndn (d a b : BitVec 6) (u : BitVec 1) (s : State) : Host.Outcome State Fault Refusal :=
  s.laneR d a b u aluAndn
/-- vd := w32(A ≪ bits(B, 4, 0)) (R109). -/
def execShlW (d a b : BitVec 6) (u : BitVec 1) (s : State) : Host.Outcome State Fault Refusal :=
  s.laneR d a b u aluShlW
/-- vd := A ≪ bits(B, 5, 0) (R109). -/
def execShlD (d a b : BitVec 6) (u : BitVec 1) (s : State) : Host.Outcome State Fault Refusal :=
  s.laneR d a b u aluShlD
/-- vd := w32(zext of bits 31:0 of A ≫ bits(B, 4, 0)) (R109). -/
def execShrW (d a b : BitVec 6) (u : BitVec 1) (s : State) : Host.Outcome State Fault Refusal :=
  s.laneR d a b u aluShrW
/-- vd := u(A) ≫ bits(B, 5, 0) (R109). -/
def execShrD (d a b : BitVec 6) (u : BitVec 1) (s : State) : Host.Outcome State Fault Refusal :=
  s.laneR d a b u aluShrD
/-- vd := w32(s of bits 31:0 of A ≫ bits(B, 4, 0)) (R109). -/
def execSraW (d a b : BitVec 6) (u : BitVec 1) (s : State) : Host.Outcome State Fault Refusal :=
  s.laneR d a b u aluSraW
/-- vd := s(A) ≫ bits(B, 5, 0) (R109). -/
def execSraD (d a b : BitVec 6) (u : BitVec 1) (s : State) : Host.Outcome State Fault Refusal :=
  s.laneR d a b u aluSraD
/-- vd := w32 of bits 31:0 of A rotated right by bits(B, 4, 0) (R109). -/
def execRotW (d a b : BitVec 6) (u : BitVec 1) (s : State) : Host.Outcome State Fault Refusal :=
  s.laneR d a b u aluRotW
/-- vd := A rotated right by bits(B, 5, 0) (R109). -/
def execRotD (d a b : BitVec 6) (u : BitVec 1) (s : State) : Host.Outcome State Fault Refusal :=
  s.laneR d a b u aluRotD
/-- vd := the smaller of s(A), s(B) (R109). -/
def execMin (d a b : BitVec 6) (u : BitVec 1) (s : State) : Host.Outcome State Fault Refusal :=
  s.laneR d a b u aluMin
/-- vd := the larger of s(A), s(B) (R109). -/
def execMax (d a b : BitVec 6) (u : BitVec 1) (s : State) : Host.Outcome State Fault Refusal :=
  s.laneR d a b u aluMax
/-- vd := the smaller of u(A), u(B) (R109). -/
def execMinu (d a b : BitVec 6) (u : BitVec 1) (s : State) : Host.Outcome State Fault Refusal :=
  s.laneR d a b u aluMinu
/-- vd := the larger of u(A), u(B) (R109). -/
def execMaxu (d a b : BitVec 6) (u : BitVec 1) (s : State) : Host.Outcome State Fault Refusal :=
  s.laneR d a b u aluMaxu
/-- vd := |s(A)|; abs of −2^63 is −2^63 (R109). -/
def execAbs (d a : BitVec 6) (s : State) : Host.Outcome State Fault Refusal :=
  s.laneU d a aluAbs
/-- vd := the number of leading zero bits of A (R109). -/
def execClz (d a : BitVec 6) (s : State) : Host.Outcome State Fault Refusal :=
  s.laneU d a aluClz
/-- vd := the number of one bits of A (R109). -/
def execPopc (d a : BitVec 6) (s : State) : Host.Outcome State Fault Refusal :=
  s.laneU d a aluPopc
/-- vd := A with bit i moved to bit 63 − i (R109). -/
def execBrev (d a : BitVec 6) (s : State) : Host.Outcome State Fault Refusal :=
  s.laneU d a aluBrev
/-- vd := the field of A that B specifies, sign-extended (R110) (R109). -/
def execBfe (d a b : BitVec 6) (u : BitVec 1) (s : State) : Host.Outcome State Fault Refusal :=
  s.laneR d a b u aluBfe
/-- vd := the field of A that B specifies, zero-extended (R110) (R109). -/
def execBfeu (d a b : BitVec 6) (u : BitVec 1) (s : State) : Host.Outcome State Fault Refusal :=
  s.laneR d a b u aluBfeu
/-- vd := D with the field that B specifies replaced from A (R110) (R109). -/
def execBfi (d a b : BitVec 6) (u : BitVec 1) (s : State) : Host.Outcome State Fault Refusal :=
  s.laneR d a b u aluBfi
/-- vd := 1 if s(A) < s(B), else 0 (R109). -/
def execSlt (d a b : BitVec 6) (u : BitVec 1) (s : State) : Host.Outcome State Fault Refusal :=
  s.laneR d a b u aluSlt
/-- vd := 1 if u(A) < u(B), else 0 (R109). -/
def execSltu (d a b : BitVec 6) (u : BitVec 1) (s : State) : Host.Outcome State Fault Refusal :=
  s.laneR d a b u aluSltu
/-- vd := 1 if A == B, else 0 (R109). -/
def execSeq (d a b : BitVec 6) (u : BitVec 1) (s : State) : Host.Outcome State Fault Refusal :=
  s.laneR d a b u aluSeq
/-- vd := 1 if A ≠ B, else 0 (R109). -/
def execSne (d a b : BitVec 6) (u : BitVec 1) (s : State) : Host.Outcome State Fault Refusal :=
  s.laneR d a b u aluSne
/-- `addva` (R111): a canonical sum, or `PROT` with the sum as the faulting address. -/
def execAddva (d a b : BitVec 6) (u : BitVec 1) (s : State) : Host.Outcome State Fault Refusal :=
  s.issue (useB [d, a] b u) fun s =>
    s.perLane fun g l =>
      let t := wordOfInt (vaSum (g.vreg l a.toNat) (g.opB l b u))
      if vaFits (g.vreg l a.toNat) (g.opB l b u) then .ok (.reg d t) else .error (addrTrap 8 t (g.pcOf l))

/-- Condition c of Table 5.6 on two values. -/
def icmpCond {n : Nat} (c : BitVec 3) (a b : BitVec n) : Bool :=
  match c.toNat with
  | 0 => a == b
  | 1 => a != b
  | 2 => a.slt b
  | 3 => a.sle b
  | 4 => a.ult b
  | 5 => a.ule b
  | 6 => a &&& b != 0
  | _ => a &&& b == 0

/-- `icmp.cond.w` (R113). -/
def execIcmpW (gd : BitVec 3) (a b : BitVec 6) (u : BitVec 1) (c : BitVec 3) (s : State) : Host.Outcome State Fault Refusal :=
  s.laneC gd a b u fun x y => (icmpCond c (x.setWidth 32) (y.setWidth 32), 0)
/-- `icmp.cond.d` (R113). -/
def execIcmpD (gd : BitVec 3) (a b : BitVec 6) (u : BitVec 1) (c : BitVec 3) (s : State) : Host.Outcome State Fault Refusal :=
  s.laneC gd a b u fun x y => (icmpCond c x y, 0)

/-- `addi.w` (R112). -/
def execAddiW (d a : BitVec 6) (i : BitVec 13) (s : State) : Host.Outcome State Fault Refusal :=
  s.laneI d a fun x _ => w32 (x + imm13 i)
/-- `addi.d` (R112). -/
def execAddiD (d a : BitVec 6) (i : BitVec 13) (s : State) : Host.Outcome State Fault Refusal :=
  s.laneI d a fun x _ => x + imm13 i
/-- `andi` (R112). -/
def execAndi (d a : BitVec 6) (i : BitVec 13) (s : State) : Host.Outcome State Fault Refusal :=
  s.laneI d a fun x _ => x &&& imm13 i
/-- `ori` (R112). -/
def execOri (d a : BitVec 6) (i : BitVec 13) (s : State) : Host.Outcome State Fault Refusal :=
  s.laneI d a fun x _ => x ||| imm13 i
/-- `xori` (R112). -/
def execXori (d a : BitVec 6) (i : BitVec 13) (s : State) : Host.Outcome State Fault Refusal :=
  s.laneI d a fun x _ => x ^^^ imm13 i
/-- `shifti` (R112). -/
def execShifti (d a : BitVec 6) (k : BitVec 2) (w : BitVec 1) (n : BitVec 6) (s : State) : Host.Outcome State Fault Refusal :=
  s.laneI d a fun x _ => aluShift k w n x
/-- `movi` (R112): A‖IMM13 is one 19-bit immediate, and no source register is named. -/
def execMovi (d : BitVec 6) (i : BitVec 19) (s : State) : Host.Outcome State Fault Refusal :=
  s.issue (.regs [d.toNat] []) fun s => s.inLanes fun _ _ => .reg d (i.signExtend 64)
/-- `movsh` (R112): reads its destination. -/
def execMovsh (d : BitVec 6) (i : BitVec 19) (s : State) : Host.Outcome State Fault Refusal :=
  s.issue (.regs [d.toNat] []) fun s => s.inLanes fun g l => .reg d (g.vreg l d.toNat <<< 19 ||| i.setWidth 64)

end Sys2Proof.Machine
end

