-- ==== Sys2Proof/Machine/Memory.lean ====
section
/-! DEFINITION. Loads, stores, atomics, uniform loads and stores, fences and `waitne`, and the steps by which accesses reach
their homes and come back (R87, R135, R165, R166, R175 to R186, R197 to R206, R419, R421). -/

namespace Sys2Proof.Machine

/-! ### Loads (R199 to R201) -/

/-- Base of a load: vA, or sA with `AU` = 1 (R199), and the scaled offset. -/
def Gang.base (g : Gang) (lane : Nat) (a : BitVec 6) (u : BitVec 1) (off : Int) : Word := g.opB lane a u + BitVec.ofInt 64 off
/-- The accesses of the threads of a group at computed addresses. -/
def State.laneAcc (s : State) (ls : List Nat) (addr : Gang → Nat → Word) : List (Nat × LaneMask × Word) :=
  match s.gang s.cur with
  | some g => ls.map fun l => (l, laneBit l, addr g l)
  | none => []
/-- Ends the issue of an access in lanes and opens its window. -/
def State.accDone (s : State) (m : LaneMask) (la : Nat) (d : Dest) : State :=
  s.updGang s.cur fun g => (g.finishAll m).openAll m la d
/-- A load of each thread of the group (R199). -/
def State.loads (s : State) (d : Nat) (a : BitVec 6) (u : BitVec 1) (off : Int) (size : Nat) (signed acquire : Bool)
    (l : BitVec 4) : Host.Outcome State Fault Refusal :=
  let regs := if size = 16 then [d, d + 1] else [d]
  let u0 := useB [] a u
  s.issue { u0 with lanes := regs ++ u0.lanes, mem := true } fun s =>
    s.access 0 size (s.laneAcc (lanesOf s.mask) fun g k => g.base k a u off) (fun s x => s.held? x size) State.loadHalf fun s xs =>
      let s := xs.foldl (fun s x => if size = 16 then s.loadPair x acquire d else s.load x size signed acquire [d]) s
      s.accDone (accLanes xs) l.toNat (.lanes regs none)
/-- `ldb` (R199). -/
def execLdb (d a : BitVec 6) (u : BitVec 1) (i : BitVec 8) (l : BitVec 4) (s : State) : Host.Outcome State Fault Refusal :=
  s.loads d.toNat a u i.toInt 1 true false l
/-- `ldbu` (R199). -/
def execLdbu (d a : BitVec 6) (u : BitVec 1) (i : BitVec 8) (l : BitVec 4) (s : State) : Host.Outcome State Fault Refusal :=
  s.loads d.toNat a u i.toInt 1 false false l
/-- `ldh` (R199). -/
def execLdh (d a : BitVec 6) (u : BitVec 1) (i : BitVec 8) (l : BitVec 4) (s : State) : Host.Outcome State Fault Refusal :=
  s.loads d.toNat a u (2 * i.toInt) 2 true false l
/-- `ldhu` (R199). -/
def execLdhu (d a : BitVec 6) (u : BitVec 1) (i : BitVec 8) (l : BitVec 4) (s : State) : Host.Outcome State Fault Refusal :=
  s.loads d.toNat a u (2 * i.toInt) 2 false false l
/-- `ldw` (R199). -/
def execLdw (d a : BitVec 6) (u : BitVec 1) (i : BitVec 8) (l : BitVec 4) (s : State) : Host.Outcome State Fault Refusal :=
  s.loads d.toNat a u (4 * i.toInt) 4 true false l
/-- `ldwu` (R199). -/
def execLdwu (d a : BitVec 6) (u : BitVec 1) (i : BitVec 8) (l : BitVec 4) (s : State) : Host.Outcome State Fault Refusal :=
  s.loads d.toNat a u (4 * i.toInt) 4 false false l
/-- `ldd` (R199). -/
def execLdd (d a : BitVec 6) (u : BitVec 1) (i : BitVec 8) (l : BitVec 4) (s : State) : Host.Outcome State Fault Refusal :=
  s.loads d.toNat a u (8 * i.toInt) 8 false false l
/-- `ldq` (R199): vd is twice the field. -/
def execLdq (d : BitVec 5) (a : BitVec 6) (u : BitVec 1) (i : BitVec 8) (l : BitVec 4) (s : State) : Host.Outcome State Fault Refusal :=
  s.loads (2 * d.toNat) a u (16 * i.toInt) 16 false false l
/-- Asks for the line of a prefetch that misses, where every check of the address passes and there is room for the request; an entry that the
translation buffer lacks is walked for and kept. The hint `.long` asks for the longest lease. The access is taken to be of 1 byte, so
that no alignment is asked for (R159, R165, R200; log 92). -/
def State.prefetchLane (s : State) (long : Bool) (lane : Nat) (va : Word) : State :=
  let s := match s.check s.cur 0 1 va with
    | .miss => s.keepEntry (s.ctxOf s.cur) 0 va
    | _ => s
  match s.check s.cur 0 1 va with
  | .ok (.mem key 0) =>
    if 4096 ≤ s.outstanding (s.l1Of s.cur) || (s.fetchHit (s.l1Of s.cur) key).isSome then s
    else s.request { (default : Req) with
      agent := s.cur, lane := lane, lanes := laneBit lane, l1 := s.l1Of s.cur, kind := .prefetch, key := key, size := 1
      cached := true, data := [], flight := none, state := .sent, operand := if long then 4096 else 0 }
  | _ => s
/-- What a `prefetch` waits for: it names no register and raises no fault, and reads its base behind the scoreboard, but in a window, or where
the base is not available, as it stands (R200; log 93). -/
def State.prefetchUse (s : State) (a : BitVec 6) (u : BitVec 1) : Use :=
  let read : Use := { useB [] a u with mem := true }
  match s.gang s.cur with
  | some g => if g.inWindow read s.mask = 0 && read.lanes.all g.available then read else { Use.regs [] [] with mem := true }
  | none => read
/-- `prefetch` (R200): hint 1 fills no L1 and has no other effect in this model. -/
def execPrefetch (h : BitVec 2) (a : BitVec 6) (u : BitVec 1) (i : BitVec 8) (s : State) : Host.Outcome State Fault Refusal :=
  s.issue (s.prefetchUse a u) fun s =>
    let ps := s.laneAcc (lanesOf s.mask) fun g k => g.base k a u (16 * i.toInt)
    (if h = 1#2 then s else ps.foldl (fun s p => s.prefetchLane (h == 2#2) p.1 p.2.2) s).finish s.mask
/-- `lda` (R201). -/
def execLda (d a : BitVec 6) (u : BitVec 1) (w : BitVec 2) (_sc o : BitVec 3) (l : BitVec 4) (s : State) :
    Host.Outcome State Fault Refusal := s.loads d.toNat a u (2 ^ (w.toNat + 2) * o.toInt) (2 ^ (w.toNat + 2)) false true l

/-! ### Stores (R202, R203) -/

/-- The bytes that a store of a thread writes. -/
def Gang.bytesOf (g : Gang) (lane a size : Nat) : List Byte :=
  if size = 16 then leBytes 8 (g.vreg lane a).toNat ++ leBytes 8 (g.vreg lane (a + 1)).toNat
  else leBytes size (g.vreg lane a).toNat
/-- What a store names. -/
def storeUse (g : BitVec 3) (a size : Nat) (b : BitVec 6) (u : BitVec 1) : Use :=
  let u0 := useB [] b u
  { u0 with lanes := (if size = 16 then [a, a + 1] else [a]) ++ u0.lanes, guards := [g.toNat], mem := true }
/-- A store in the threads whose guard condition holds; the others go on (R83, R202). `half` is what a 16-byte one leaves whose upper
half alone faults (R198). -/
def State.stores (s : State) (n : BitVec 1) (g : BitVec 3) (a : Nat) (b : BitVec 6) (u : BitVec 1) (off : Int) (size : Nat)
    (half perform : State → Gang → Acc → State) : Host.Outcome State Fault Refusal :=
  s.issue (storeUse g a size b u) fun s =>
    match s.gang s.cur with
    | none => s
    | some x =>
      let ls := x.passing s.mask g.toNat (n == 1)
      let idle := s.mask &&& ~~~maskOf ls
      s.access 1 size (s.laneAcc ls fun g k => g.base k b u off) (fun s y => s.barred y || s.held? y size) (fun s y => half s x y) fun s ys =>
        let s := s.finish idle
        ys.foldl (fun s y => perform s x y) s
/-- An ordinary store. -/
def State.plainStore (s : State) (n : BitVec 1) (g : BitVec 3) (a : Nat) (b : BitVec 6) (u : BitVec 1) (off : Int) (size : Nat) :
    Host.Outcome State Fault Refusal :=
  s.stores n g a b u off size (fun s x y => s.storeOne y ((x.bytesOf y.lane a size).take 8) none)
    fun s x y => (s.store y (x.bytesOf y.lane a size) none).finish y.lanes
/-- `stb` (R202). -/
def execStb (n : BitVec 1) (g : BitVec 3) (a b : BitVec 6) (u : BitVec 1) (i : BitVec 8) (s : State) : Host.Outcome State Fault Refusal :=
  s.plainStore n g a.toNat b u i.toInt 1
/-- `sth` (R202). -/
def execSth (n : BitVec 1) (g : BitVec 3) (a b : BitVec 6) (u : BitVec 1) (i : BitVec 8) (s : State) : Host.Outcome State Fault Refusal :=
  s.plainStore n g a.toNat b u (2 * i.toInt) 2
/-- `stw` (R202). -/
def execStw (n : BitVec 1) (g : BitVec 3) (a b : BitVec 6) (u : BitVec 1) (i : BitVec 8) (s : State) : Host.Outcome State Fault Refusal :=
  s.plainStore n g a.toNat b u (4 * i.toInt) 4
/-- `std` (R202). -/
def execStd (n : BitVec 1) (g : BitVec 3) (a b : BitVec 6) (u : BitVec 1) (i : BitVec 8) (s : State) : Host.Outcome State Fault Refusal :=
  s.plainStore n g a.toNat b u (8 * i.toInt) 8
/-- `stq` (R202): the data register is twice the field. -/
def execStq (n : BitVec 1) (g : BitVec 3) (a : BitVec 5) (b : BitVec 6) (u : BitVec 1) (i : BitVec 8) (s : State) :
    Host.Outcome State Fault Refusal := s.plainStore n g (2 * a.toNat) b u (16 * i.toInt) 16
/-- `str` (R203): every check comes first, then each thread waits, and then its strong store is issued; one that would fault performs
nothing. -/
def execStr (n : BitVec 1) (g : BitVec 3) (a b : BitVec 6) (u : BitVec 1) (w : BitVec 2) (sc o : BitVec 3) (s : State) :
    Host.Outcome State Fault Refusal :=
  let size : Nat := 2 ^ (w.toNat + 2)
  s.stores n g a.toNat b u (size * o.toInt) size (fun s _ _ => s) fun s x y =>
    let s1 := s.updGang s.cur fun g =>
      g.setStat y.lane (.release s.serialNo sc.toNat 0 0 y.addr (x.bytesOf y.lane a.toNat size) y.loc)
    let t := s1.endRelease s.cur s.serialNo y.lane
    { t with cur := s.cur }

/-! ### Atomics (R204, R205) -/

/-- An atomic in the threads whose guard is 1 (R204). -/
def State.atomics (s : State) (op : Nat) (g : BitVec 2) (d a b : BitVec 6) (w : BitVec 1) (l : BitVec 4) :
    Host.Outcome State Fault Refusal :=
  let size := if w = 1#1 then 8 else 4
  s.issue { Use.regs [d.toNat, a.toNat, b.toNat] [] with guards := [g.toNat], mem := true } fun s =>
    match s.gang s.cur with
    | none => s
    | some x =>
      let ls := x.passing s.mask g.toNat false
      let idle := s.mask &&& ~~~maskOf ls
      s.access 2 size (s.laneAcc ls fun g k => g.vreg k a.toNat) (fun s y => s.barred y || s.held? y size) (fun s _ => s) fun s ys =>
        let s := ys.foldl (fun s y => s.atomic y size op (x.vreg y.lane b.toNat) (x.vreg y.lane d.toNat) d.toNat) s
        (s.finish idle).accDone (accLanes ys) l.toNat (.lanes [d.toNat] none)
/-- `amadd` (R204). -/
def execAmadd (g : BitVec 2) (d a b : BitVec 6) (w : BitVec 1) (l : BitVec 4) (s : State) : Host.Outcome State Fault Refusal :=
  s.atomics 0 g d a b w l
/-- `ammin` (R204). -/
def execAmmin (g : BitVec 2) (d a b : BitVec 6) (w : BitVec 1) (l : BitVec 4) (s : State) : Host.Outcome State Fault Refusal :=
  s.atomics 1 g d a b w l
/-- `ammax` (R204). -/
def execAmmax (g : BitVec 2) (d a b : BitVec 6) (w : BitVec 1) (l : BitVec 4) (s : State) : Host.Outcome State Fault Refusal :=
  s.atomics 2 g d a b w l
/-- `amumin` (R204). -/
def execAmumin (g : BitVec 2) (d a b : BitVec 6) (w : BitVec 1) (l : BitVec 4) (s : State) : Host.Outcome State Fault Refusal :=
  s.atomics 3 g d a b w l
/-- `amumax` (R204). -/
def execAmumax (g : BitVec 2) (d a b : BitVec 6) (w : BitVec 1) (l : BitVec 4) (s : State) : Host.Outcome State Fault Refusal :=
  s.atomics 4 g d a b w l
/-- `amand` (R204). -/
def execAmand (g : BitVec 2) (d a b : BitVec 6) (w : BitVec 1) (l : BitVec 4) (s : State) : Host.Outcome State Fault Refusal :=
  s.atomics 5 g d a b w l
/-- `amor` (R204). -/
def execAmor (g : BitVec 2) (d a b : BitVec 6) (w : BitVec 1) (l : BitVec 4) (s : State) : Host.Outcome State Fault Refusal :=
  s.atomics 6 g d a b w l
/-- `amxor` (R204). -/
def execAmxor (g : BitVec 2) (d a b : BitVec 6) (w : BitVec 1) (l : BitVec 4) (s : State) : Host.Outcome State Fault Refusal :=
  s.atomics 7 g d a b w l
/-- `amswap` (R204). -/
def execAmswap (g : BitVec 2) (d a b : BitVec 6) (w : BitVec 1) (l : BitVec 4) (s : State) : Host.Outcome State Fault Refusal :=
  s.atomics 8 g d a b w l
/-- `amcas` (R204): vd is the compare value and the destination. -/
def execAmcas (g : BitVec 2) (d a b : BitVec 6) (w : BitVec 1) (l : BitVec 4) (s : State) : Host.Outcome State Fault Refusal :=
  s.atomics 9 g d a b w l
/-- `amfadd` (R204). -/
def execAmfadd (g : BitVec 2) (d a b : BitVec 6) (w : BitVec 1) (l : BitVec 4) (s : State) : Host.Outcome State Fault Refusal :=
  s.atomics 10 g d a b w l

/-! ### Uniform accesses (R206) -/

/-- An access under divergence sets `GSTAT.UDIV`, and faults where the launch enables the trap (R25, R206). -/
def State.uniAccess (s : State) (kind size : Nat) (addr : Word) (go : State → Acc → State) : State :=
  s.uniGuard 1 fun s =>
    s.access kind size [(32, s.mask, addr)] (fun s x => kind = 1 && s.barred x || s.held? x size) (fun s _ => s) fun s xs =>
      let s := if s.diverged && !xs.isEmpty then s.setGstat 1 else s
      xs.foldl go s
/-- `sld` (R206). -/
def execSld (d a : BitVec 6) (w : BitVec 2) (i : BitVec 7) (l : BitVec 4) (s : State) : Host.Outcome State Fault Refusal :=
  let size : Nat := 2 ^ w.toNat
  s.issue { Use.regs [] [d.toNat, a.toNat] with mem := true } fun s =>
    s.uniAccess 0 size (s.uni a.toNat + BitVec.ofInt 64 (size * i.toInt)) fun s x =>
      let regs := if d = 0 then [] else [d.toNat]
      (s.load x size false false regs).accDone s.mask (if d = 0 then 0 else l.toNat) (.uniforms regs)
/-- `sst` (R206). -/
def execSst (a b : BitVec 6) (w : BitVec 2) (i : BitVec 11) (s : State) : Host.Outcome State Fault Refusal :=
  let size : Nat := 2 ^ w.toNat
  s.issue { Use.regs [] [a.toNat, b.toNat] with mem := true } fun s =>
    s.uniAccess 1 size (s.uni b.toNat + BitVec.ofInt 64 (size * i.toInt)) fun s x =>
      (s.store x (leBytes size (s.uni a.toNat).toNat) none).finish s.mask

/-! ### Fences (R185) -/

/-- The threads of the group wait at a fence for the condition of R183, or pass it. -/
def State.fenceHere (s : State) (sc : BitVec 3) : State :=
  let n := s.serialNo
  let s1 := s.updGang s.cur fun g => g.each s.mask fun g l => g.setStat l (.release n sc.toNat 1 0 0 [] default)
  (lanesOf s.mask).foldl (fun s l => s.endRelease s.cur n l) s1
/-- Passes a fence before which later stores and atomics of the threads wait for the condition of R183 (R185). -/
def State.fenceStores (s : State) (sc : BitVec 3) : State :=
  (s.finish s.mask).updGang s.cur fun g => { g with bars := g.bars ++ (lanesOf s.mask).map fun l => (l, sc.toNat, s.serialNo) }
/-- `fence.rel` (R185): only later stores and atomics wait. -/
def execFenceRel (sc : BitVec 3) (s : State) : Host.Outcome State Fault Refusal :=
  s.issue { Use.regs [] [] with mem := true } fun s => s.fenceStores sc
/-- `fence.acq` (R185): earlier loads have performed. -/
def execFenceAcq (_sc : BitVec 3) (s : State) : Host.Outcome State Fault Refusal :=
  s.issue (.regs [] []) fun s =>
    if (lanesOf s.mask).all fun l => s.loadsDone s.cur l then s.finish s.mask else s.waitRetry s.mask
/-- `fence.acqrel` (R185): earlier loads have performed, and later stores and atomics wait. -/
def execFenceAcqrel (sc : BitVec 3) (s : State) : Host.Outcome State Fault Refusal :=
  s.issue { Use.regs [] [] with mem := true } fun s =>
    if (lanesOf s.mask).all fun l => s.loadsDone s.cur l then s.fenceStores sc else s.waitRetry s.mask
/-- A thread of another issue has read a store from the core's L1. -/
def State.readEarly (s : State) (r : Req) : Bool := s.wgs.any fun p => p.2.gangs.any fun q => q.2.watched.any fun x => x.1 = r.id
/-- The stores of the issuing threads that their homes have not applied are strong at a scope from now on; at cluster scope and wider the
core's L1 serves those that no other thread has read from it no more, and loses its copies of their lines (R184; log 94). -/
def State.strengthen (s : State) (scope : Nat) : State :=
  let mine := fun (r : Req) => r.kind = .store && r.agent = s.cur && r.lanes &&& s.mask != 0 && (r.state = .sent || r.state = .held)
  let hides := fun (r : Req) => mine r && r.merged && decide (2 ≤ scope) && !s.readEarly r
  let t := (s.reqs.filter hides).foldl (fun t r => if (t.ownedLine r.l1 (r.key / 128)).isSome then t else t.dropLine r.l1 (r.key / 128)) s
  { t with reqs := s.reqs.map fun r =>
      if mine r then { r with scope := some (max scope (r.scope.getD 0)), merged := r.merged && !hides r } else r }
/-- `fence.sc` (R185): every earlier store is strong, and the threads wait as R183 gives (R184). -/
def execFenceSc (sc : BitVec 3) (s : State) : Host.Outcome State Fault Refusal :=
  s.issue { Use.regs [] [] with mem := true } fun s => (s.strengthen sc.toNat).fenceHere sc
/-- Ends a `fence.wct` of one issue once every thread of it is quiet: sd receives the largest D, or 0 at gang and core
scope (R185). -/
def State.endWct (s : State) (a : Agent) (n : Nat) : State :=
  match s.gang a with
  | none => s
  | some g =>
    let ls := (List.range 32).filterMap fun l => match g.stat l with
      | .release k sc 2 d _ _ _ => if k = n ∧ g.live.getLsbD l then some (l, sc, d) else none
      | _ => none
    match ls.head? with
    | none => s
    | some (_, sc, d) =>
      if ls.all fun p => s.quiet a p.1 && (decide (sc ≤ 1) || !g.watching p.1) then
        let x := if sc ≤ 1 then 0 else ls.foldl (fun m p => max m (g.releaseTime p.1)) 0
        s.as a (maskOf (ls.map Prod.fst)) fun s => s.setUni d (BitVec.ofNat 64 x) 0
      else s
/-- `fence.wct` (R185). -/
def execFenceWct (d : BitVec 6) (sc : BitVec 3) (s : State) : Host.Outcome State Fault Refusal :=
  s.issue { Use.regs [] [d.toNat] with mem := true } fun s =>
    let n := s.serialNo
    (s.updGang s.cur fun g => g.each s.mask fun g l => g.setStat l (.release n sc.toNat 2 d.toNat 0 [] default)).endWct s.cur n
/-- The waits of one issue end where their condition holds (R183). -/
def execReleaseWaitEnd (a : Agent) (n : Nat) (s : State) : Host.Outcome State Fault Refusal :=
  let t := (List.range 32).foldl (fun s l => s.endRelease a n l) s
  .next ({ t with cur := s.cur }.endWct a n)

/-! ### waitne (R135) -/

/-- Reads the word that a thread waits on, at its home or in the scratchpad; where it differs from the compare value the
thread receives it and goes on (R135); a read at a home counts (R327). -/
def State.reread (s : State) (a : Agent) (lane : Nat) (cmp : Word) (d : Nat) (loc : Loc) : State :=
  let m := laneBit lane
  let done := fun (s : State) (x : Word) =>
    if x == cmp then s else ((s.deliverV a lane d x).proceed a lane 0 (.lanes [] none))
  match loc with
  | .mem key _ =>
    let x := extend false (s.ownView a m key (s.homeRead key 8))
    done ((s.countFor a 35 1).updGang a fun g => g.observe m (key / 128) (s.home (key / 128)).stamp (s.skew key)) x
  | l => done s (extend false (s.locRead l 8))
/-- A place is poisoned. -/
def State.locPoisoned (s : State) : Loc → Bool
  | .mem key _ => s.poisoned key
  | _ => false
/-- `waitne` (R135): a poisoned line raises `ECC_UE` (R421). -/
def execWaitne (d a b : BitVec 6) (u : BitVec 1) (s : State) : Host.Outcome State Fault Refusal :=
  s.issue { useB [d, a] b u with mem := true } fun s =>
    match s.gang s.cur with
    | none => s
    | some x =>
      s.access 0 8 (s.laneAcc (lanesOf s.mask) fun g k => g.vreg k a.toNat) (fun s y => s.held? y 8) (fun s _ => s) fun s ys =>
        let pc := s.curPc
        let bad := ys.filter fun y => s.locPoisoned y.loc
        let s := (ys.filter fun y => !s.locPoisoned y.loc).foldl (fun s y =>
          let cmp := x.opB y.lane b u
          (s.updGang s.cur fun g => g.setStat y.lane (.waitne y.addr cmp d.toNat s.serialNo)).reread s.cur y.lane cmp d.toNat y.loc) s
        if bad.isEmpty then s else s.raise s.cur (bad.map fun y => (y.lane, addrTrap 0x13 y.addr pc))
/-- The place of a word that a thread waits on, as it is now; none where the address has lost it. -/
def State.waitPlace (s : State) (a : Agent) (va : Word) : Option Loc :=
  if inThreadAp va.toNat || inServiceAp va.toNat then
    match a with
    | .gang w _ => (s.wg w).bind fun g => s.homeWindow w g va.toNat
    | .core i => s.serviceWindow (some i) va.toNat
  else (s.xlateNow (s.ctxOf a) 0 va).toOption.map fun p => .mem p.1 p.2
/-- A waiting thread is where its memory can be reached: on a core, in a workgroup that has a place and is not being evicted; a stopped slice's
threads wait on (R284, R337, R416). -/
def State.reaching (s : State) (a : Agent) : Bool :=
  match a with
  | .gang w _ => ((s.wg w).map fun g => g.place.isSome && !g.evicting).getD false
  | .core _ => s.mayIssue a
/-- Whether a lane waits in `waitne` of an issue for a word of a poisoned line, and for which. -/
def State.waitBad (s : State) (a : Agent) (g : Gang) (issue lane : Nat) : Option Word :=
  match g.stat lane with
  | .waitne addr _ _ n => if g.live.getLsbD lane && n = issue && ((s.waitPlace a addr).map s.locPoisoned).getD false then some addr else none
  | _ => none
/-- A waiting `waitne` reads its word again (R135). Its checks came before the wait: a translation it no longer has is walked at once and
kept (R165), and where the address has lost its place the instruction is issued again from its start. A poisoned line raises `ECC_UE` in all
threads of the issue that wait for one (R332, R421). -/
def execWaitneReread (a : Agent) (lane : Nat) (s : State) : Host.Outcome State Fault Refusal :=
  match ((s.gang a).map fun g => g.stat lane).getD .ready with
  | .waitne addr cmp d n =>
    if !s.reaching a then .next s
    else match s.waitPlace a addr with
      | none => .next (s.updGang a fun g => g.setStat lane .ready)
      | some l =>
        if s.locPoisoned l then
          match s.gang a with
          | some g => .next (s.raise a ((List.range 32).filterMap fun k => (s.waitBad a g n k).map fun x => (k, addrTrap 0x13 x (g.pcOf k))))
          | none => .next s
        else .next ((s.keepEntry (s.ctxOf a) 0 addr).reread a lane cmp d l)
  | _ => .next s

/-! ### Delivery and walks -/

/-- A lane that may be stopped before the next instruction it would issue. -/
def Gang.interruptible (g : Gang) (lane : Nat) : Bool :=
  match g.stat lane with
  | .ready => true
  | .retry _ => true
  | .lineFill _ => true
  | _ => false
/-- The windows of a lane without the one that protects registers, and without those opened behind it: what they hold is executed again
(R421). -/
def rewind (lane : Nat) (regs : List Nat) : List Window → List Window
  | [] => []
  | w :: t =>
    if w.lane = lane && (w.dest = .lanes regs none || w.dest = .uniforms regs) then t.filter fun x => x.lane ≠ lane
    else w :: rewind lane regs t
/-- Where a lane stands for an access whose data is poisoned: an access with no window leaves the thread at it (R421). -/
def Gang.backTo (g : Gang) (lane : Nat) (f : Flight) : Gang :=
  let g := if !g.windowOf lane f && g.pcOf lane == f.pc + 4 then g.setPc lane f.pc else g
  { g with windows := rewind lane f.regs g.windows }
/-- The live lanes of a destination in flight that may be stopped now. -/
def Gang.stoppable (g : Gang) (f : Flight) : LaneMask := maskOf ((lanesOf (f.lanes &&& g.live)).filter g.interruptible)
/-- A destination in flight is delivered once; poisoned data suspends the threads instead: those of one issue to which it has come and that
may be stopped now, in one (R87, R332, R421). -/
def execDestinationDelivery (a : Agent) (id : Nat) (s : State) : Host.Outcome State Fault Refusal :=
  match (s.gang a).bind fun g => (g.flights.find? fun f => f.id = id).map fun f => (g, f) with
  | none => .next s
  | some (g, f) =>
    match f.vals with
    | none => .next s
    | some vs =>
      if f.poisoned then
        let mates := g.flights.filter fun x => x.poisoned && x.vals.isSome && x.issued = f.issued && x.pc == f.pc
        let ls := mates.flatMap fun x => (lanesOf (g.stoppable x)).map fun l => (l, x)
        let left := g.flights.filterMap fun x =>
          let wait := x.lanes &&& g.live &&& ~~~g.stoppable x
          if mates.contains x then (if wait = 0 then none else some { x with lanes := wait }) else some x
        let t := s.updGang a fun g => { (ls.foldl (fun g p => g.backTo p.1 p.2) g) with flights := left }
        .next (if ls.isEmpty then t else t.raise a (ls.map fun p => (p.1, addrTrap 0x13 p.2.addr p.2.pc)))
      else
        let s := (f.regs.zip vs).foldl (fun s p =>
          if f.lane = 32 then s.deliverS a p.1 p.2 else s.deliverV a f.lane p.1 p.2) s
        let s := if f.lane = 32 then s else s.updGang a fun g => g.setFlags f.lane f.flags
        .next (s.updGang a fun g => { g with flights := g.flights.filter fun x => x.id ≠ id })

/-- A lane of an agent waits for a walk of a kind: a fetch of it stands at the address, or its instruction waits. -/
def Gang.walks (g : Gang) (kind lane : Nat) (addr : Word) : Bool :=
  g.live.getLsbD lane && ((g.retryOf lane).isSome || (kind = 3 && g.isReady lane && g.pcOf lane == addr))
/-- A translation walk completes: an entry is installed, or the fault of the access is raised in the threads that wait for
it (R132, R166). A walk that an invalidation cancelled leaves nothing (R171). -/
def execPageWalk (id : Nat) (s : State) : Host.Outcome State Fault Refusal :=
  match s.walks.find? fun w => w.id = id with
  | none => .next s
  | some w =>
    let s := { s with walks := s.walks.filter fun x => x.id ≠ id }
    if w.cancelled then .next s
    else match s.walkVa (s.ctxOf w.agent) w.kind w.addr with
      | .ok t => .next (s.tlbPut w.cluster t)
      | .error f =>
        match s.gang w.agent with
        | none => .next s
        | some g =>
          let ls := (lanesOf w.lanes).filter fun l => g.walks w.kind l (Tab.at w.addrs l w.addr)
          if ls.isEmpty then .next s
          else if w.kind = 3 then .next (s.fetchFails w.agent (maskOf ls) f)
          else .next (s.raise w.agent (ls.map fun l => (l, addrTrap f (Tab.at w.addrs l w.addr) (g.pcOf l))))

/-! ### Homes (R175, R176, R184, R186, R205, R419) -/

/-- A request may be served: none that comes first waits, and one to another chip finds the pod formed (R374). -/
def State.atHome (s : State) (r : Req) : Bool := !s.behind r && (!s.remote r.key || s.podUp)
/-- A home serves a fill and grants a lease of its choice, the longest where a prefetch asks for it (R175, R200). -/
def execHomeFill (id lease : Nat) (s : State) : Host.Outcome State Fault Refusal :=
  match s.req id with
  | some r => .next (if (r.kind = .load || r.kind = .prefetch) && r.state = .sent && s.atHome r then s.serveLoad r (max lease r.operand.toNat) else s)
  | none => .next s
/-- A home applies a store in arrival order, or holds it behind a pending strong store (R176, R419). -/
def execHomeStore (id : Nat) (s : State) : Host.Outcome State Fault Refusal :=
  match s.req id with
  | some r =>
    if r.kind = .store && r.state = .sent && s.atHome r then
      .next (if s.busyOn (r.key / 128) then s.hold r else s.serveStore r)
    else .next s
  | none => .next s
/-- A home applies an atomic, or grants ownership for a near one (R186, R205). -/
def execHomeAtomic (id : Nat) (s : State) : Host.Outcome State Fault Refusal :=
  match s.req id with
  | some r =>
    if (r.kind = .atomic || r.kind = .own) && r.state = .sent && s.atHome r then
      if s.busyOn (r.key / 128) then .next (s.hold { r with kind := .atomic })
      else if r.kind = .own then .next (s.serveOwn r) else .next (s.serveAtomic r)
    else .next s
  | none => .next s
/-- The WCT of a store is known to the lanes of its core that have read its value (R176). -/
def Gang.learn (g : Gang) (id wct : Nat) : Gang :=
  let mine := g.watched.filter fun p => p.1 = id
  { (mine.foldl (fun g p => g.bound p.2 wct) g) with watched := g.watched.filter fun p => p.1 ≠ id }
/-- A store's WCT returns to its threads, and the store is acknowledged; a strong store's once its WCT has come, and so what its thread has
stored over it. The copy in the core's L1
and every lane that has read the value count the WCT (R176, R178). -/
def execStoreAck (id : Nat) (s : State) : Host.Outcome State Fault Refusal :=
  match s.req id with
  | some r =>
    match r.state with
    | .applied w =>
      let t := w + s.skew r.key
      if r.kind = .store && (!r.strong || decide (t ≤ s.ptb)) && !s.overStrong r then
        let s := (s.updGang r.agent fun g => g.wrote r.lanes t).landed r.source r.key w
        let s := if r.merged then s.mergedUntil r.l1 (r.key / 128) w else s
        let learn := fun (g : Gang) => if g.watched.isEmpty then g else g.learn id t
        let all := fun (p : Nat × Workgroup) => (p.1, { p.2 with gangs := p.2.gangs.map fun q => (q.1, learn q.2) })
        .next ({ s with wgs := s.wgs.map all }.dropReq id)
      else .next s
    | _ => .next s
  | none => .next s
/-- PTB reaches a strong store's WCT: it and what was held behind it take effect (R184, R419). -/
def execStrongStoreVisible (id : Nat) (s : State) : Host.Outcome State Fault Refusal :=
  match s.req id with
  | some r =>
    match r.state with
    | .pending w =>
      if w ≤ s.ptb then
        let s := s.applyStore r w
        .next (s.applyHeld (s.heldQueue (r.key / 128)))
      else .next s
    | _ => .next s
  | none => .next s
/-- A line's lease has ended (R175). -/
def execLeaseExpiry (core line : Nat) (s : State) : Host.Outcome State Fault Refusal :=
  match Tab.find (s.l1At core) line with
  | some x => .next (if !x.owned && decide (x.lease ≤ s.ptb) then s.dropLine core line else s)
  | none => .next s
/-- A home recalls an owned line: for an access of another agent, or 4,096 ns after its grant (R205). -/
def execOwnershipRecall (line : Nat) (s : State) : Host.Outcome State Fault Refusal :=
  let h := s.home line
  let other := s.reqs.any fun r => r.key / 128 = line && r.waiting && h.owner != some r.l1
  .next (if h.owner.isSome && (other || decide (h.granted + 4096 ≤ s.ptb)) then s.recall line other else s)

end Sys2Proof.Machine
end

