-- ==== Sys2Proof/Machine/Uniform.lean ====
section
/-! DEFINITION. Majors SIALU and UI (R122 to R124). -/

namespace Sys2Proof.Machine

/-- sd := w32(A + B) (R123). -/
def execSaddW (d a b : BitVec 6) (s : State) : Host.Outcome State Fault Refusal :=
  s.uniR d a b aluAddW
/-- sd := A + B (R123). -/
def execSaddD (d a b : BitVec 6) (s : State) : Host.Outcome State Fault Refusal :=
  s.uniR d a b aluAddD
/-- sd := w32(A − B) (R123). -/
def execSsubW (d a b : BitVec 6) (s : State) : Host.Outcome State Fault Refusal :=
  s.uniR d a b aluSubW
/-- sd := A − B (R123). -/
def execSsubD (d a b : BitVec 6) (s : State) : Host.Outcome State Fault Refusal :=
  s.uniR d a b aluSubD
/-- sd := w32(A × B) (R123). -/
def execSmulW (d a b : BitVec 6) (s : State) : Host.Outcome State Fault Refusal :=
  s.uniR d a b aluMulW
/-- sd := low 64 bits of A × B (R123). -/
def execSmulD (d a b : BitVec 6) (s : State) : Host.Outcome State Fault Refusal :=
  s.uniR d a b aluMulD
/-- sd := bits 127:64 of s(A) × s(B) (R123). -/
def execSmulhD (d a b : BitVec 6) (s : State) : Host.Outcome State Fault Refusal :=
  s.uniR d a b aluMulhD
/-- sd := bits 127:64 of u(A) × u(B) (R123). -/
def execSmulhuD (d a b : BitVec 6) (s : State) : Host.Outcome State Fault Refusal :=
  s.uniR d a b aluMulhuD
/-- sd := w32(D + A × B) (R123). -/
def execSmadW (d a b : BitVec 6) (s : State) : Host.Outcome State Fault Refusal :=
  s.uniR d a b aluMadW
/-- sd := D + A × B (R123). -/
def execSmadD (d a b : BitVec 6) (s : State) : Host.Outcome State Fault Refusal :=
  s.uniR d a b aluMadD
/-- sd := A and B (R123). -/
def execSand (d a b : BitVec 6) (s : State) : Host.Outcome State Fault Refusal :=
  s.uniR d a b aluAnd
/-- sd := A or B (R123). -/
def execSor (d a b : BitVec 6) (s : State) : Host.Outcome State Fault Refusal :=
  s.uniR d a b aluOr
/-- sd := A xor B (R123). -/
def execSxor (d a b : BitVec 6) (s : State) : Host.Outcome State Fault Refusal :=
  s.uniR d a b aluXor
/-- sd := A and not B (R123). -/
def execSandn (d a b : BitVec 6) (s : State) : Host.Outcome State Fault Refusal :=
  s.uniR d a b aluAndn
/-- sd := w32(A ≪ bits(B, 4, 0)) (R123). -/
def execSshlW (d a b : BitVec 6) (s : State) : Host.Outcome State Fault Refusal :=
  s.uniR d a b aluShlW
/-- sd := A ≪ bits(B, 5, 0) (R123). -/
def execSshlD (d a b : BitVec 6) (s : State) : Host.Outcome State Fault Refusal :=
  s.uniR d a b aluShlD
/-- sd := w32(zext of bits 31:0 of A ≫ bits(B, 4, 0)) (R123). -/
def execSshrW (d a b : BitVec 6) (s : State) : Host.Outcome State Fault Refusal :=
  s.uniR d a b aluShrW
/-- sd := u(A) ≫ bits(B, 5, 0) (R123). -/
def execSshrD (d a b : BitVec 6) (s : State) : Host.Outcome State Fault Refusal :=
  s.uniR d a b aluShrD
/-- sd := w32(s of bits 31:0 of A ≫ bits(B, 4, 0)) (R123). -/
def execSsraW (d a b : BitVec 6) (s : State) : Host.Outcome State Fault Refusal :=
  s.uniR d a b aluSraW
/-- sd := s(A) ≫ bits(B, 5, 0) (R123). -/
def execSsraD (d a b : BitVec 6) (s : State) : Host.Outcome State Fault Refusal :=
  s.uniR d a b aluSraD
/-- sd := w32 of bits 31:0 of A rotated right by bits(B, 4, 0) (R123). -/
def execSrotW (d a b : BitVec 6) (s : State) : Host.Outcome State Fault Refusal :=
  s.uniR d a b aluRotW
/-- sd := A rotated right by bits(B, 5, 0) (R123). -/
def execSrotD (d a b : BitVec 6) (s : State) : Host.Outcome State Fault Refusal :=
  s.uniR d a b aluRotD
/-- sd := the smaller of s(A), s(B) (R123). -/
def execSmin (d a b : BitVec 6) (s : State) : Host.Outcome State Fault Refusal :=
  s.uniR d a b aluMin
/-- sd := the larger of s(A), s(B) (R123). -/
def execSmax (d a b : BitVec 6) (s : State) : Host.Outcome State Fault Refusal :=
  s.uniR d a b aluMax
/-- sd := the smaller of u(A), u(B) (R123). -/
def execSminu (d a b : BitVec 6) (s : State) : Host.Outcome State Fault Refusal :=
  s.uniR d a b aluMinu
/-- sd := the larger of u(A), u(B) (R123). -/
def execSmaxu (d a b : BitVec 6) (s : State) : Host.Outcome State Fault Refusal :=
  s.uniR d a b aluMaxu
/-- sd := |s(A)|; abs of −2^63 is −2^63 (R123). -/
def execSabs (d a : BitVec 6) (s : State) : Host.Outcome State Fault Refusal :=
  s.uniU d a aluAbs
/-- sd := the number of leading zero bits of A (R123). -/
def execSclz (d a : BitVec 6) (s : State) : Host.Outcome State Fault Refusal :=
  s.uniU d a aluClz
/-- sd := the number of one bits of A (R123). -/
def execSpopc (d a : BitVec 6) (s : State) : Host.Outcome State Fault Refusal :=
  s.uniU d a aluPopc
/-- sd := A with bit i moved to bit 63 − i (R123). -/
def execSbrev (d a : BitVec 6) (s : State) : Host.Outcome State Fault Refusal :=
  s.uniU d a aluBrev
/-- sd := the field of A that B specifies, sign-extended (R110) (R123). -/
def execSbfe (d a b : BitVec 6) (s : State) : Host.Outcome State Fault Refusal :=
  s.uniR d a b aluBfe
/-- sd := the field of A that B specifies, zero-extended (R110) (R123). -/
def execSbfeu (d a b : BitVec 6) (s : State) : Host.Outcome State Fault Refusal :=
  s.uniR d a b aluBfeu
/-- sd := D with the field that B specifies replaced from A (R110) (R123). -/
def execSbfi (d a b : BitVec 6) (s : State) : Host.Outcome State Fault Refusal :=
  s.uniR d a b aluBfi
/-- sd := 1 if s(A) < s(B), else 0 (R123). -/
def execSslt (d a b : BitVec 6) (s : State) : Host.Outcome State Fault Refusal :=
  s.uniR d a b aluSlt
/-- sd := 1 if u(A) < u(B), else 0 (R123). -/
def execSsltu (d a b : BitVec 6) (s : State) : Host.Outcome State Fault Refusal :=
  s.uniR d a b aluSltu
/-- sd := 1 if A == B, else 0 (R123). -/
def execSseq (d a b : BitVec 6) (s : State) : Host.Outcome State Fault Refusal :=
  s.uniR d a b aluSeq
/-- sd := 1 if A ≠ B, else 0 (R123). -/
def execSsne (d a b : BitVec 6) (s : State) : Host.Outcome State Fault Refusal :=
  s.uniR d a b aluSne
/-- `saddva` (R111, R123): a canonical sum, or `PROT` in every thread of the group, a destination of s0 included. -/
def execSaddva (d a b : BitVec 6) (s : State) : Host.Outcome State Fault Refusal :=
  s.issue (.regs [] [d.toNat, a.toNat, b.toNat]) fun s =>
    let t := wordOfInt (vaSum (s.uni a.toNat) (s.uni b.toNat))
    if vaFits (s.uni a.toNat) (s.uni b.toNat) then s.setUni d.toNat t 0 else s.raiseAll (addrTrap 8 t s.curPc)
/-- `saddi` (R124). -/
def execSaddi (d a : BitVec 6) (i : BitVec 13) (s : State) : Host.Outcome State Fault Refusal := s.uniI d a fun x _ => x + imm13 i
/-- `sandi` (R124). -/
def execSandi (d a : BitVec 6) (i : BitVec 13) (s : State) : Host.Outcome State Fault Refusal := s.uniI d a fun x _ => x &&& imm13 i
/-- `sori` (R124). -/
def execSori (d a : BitVec 6) (i : BitVec 13) (s : State) : Host.Outcome State Fault Refusal := s.uniI d a fun x _ => x ||| imm13 i
/-- `sxori` (R124). -/
def execSxori (d a : BitVec 6) (i : BitVec 13) (s : State) : Host.Outcome State Fault Refusal := s.uniI d a fun x _ => x ^^^ imm13 i
/-- `sshifti` (R124). -/
def execSshifti (d a : BitVec 6) (k : BitVec 2) (w : BitVec 1) (n : BitVec 6) (s : State) : Host.Outcome State Fault Refusal :=
  s.uniI d a fun x _ => aluShift k w n x
/-- `smovi` (R124): no source register is named. -/
def execSmovi (d : BitVec 6) (i : BitVec 19) (s : State) : Host.Outcome State Fault Refusal :=
  s.issue (.regs [] [d.toNat]) fun s => s.setUni d.toNat (i.signExtend 64) 0
/-- `smovsh` (R124): reads its destination. -/
def execSmovsh (d : BitVec 6) (i : BitVec 19) (s : State) : Host.Outcome State Fault Refusal :=
  s.issue (.regs [] [d.toNat]) fun s => s.setUni d.toNat (s.uni d.toNat <<< 19 ||| i.setWidth 64) 0

end Sys2Proof.Machine
end

