-- ==== Sys2Proof/Machine/Dispatch.lean ====
section
/-! DEFINITION. One arm for each instruction: a direct call of its meaning. -/

namespace Sys2Proof.Machine

/-- The effect of one instruction or event. -/
def exec (i : Instr) (s : State) : Host.Outcome State Fault Refusal :=
  match i with
  | .nop => Sys2Proof.Machine.execNop s
  | .mov d b u => Sys2Proof.Machine.execMov d b u s
  | .rdsr d k => Sys2Proof.Machine.execRdsr d k s
  | .wrsr h a k => Sys2Proof.Machine.execWrsr h a k s
  | .movgv d => Sys2Proof.Machine.execMovgv d s
  | .movvg b u => Sys2Proof.Machine.execMovvg b u s
  | .waitne d a b u => Sys2Proof.Machine.execWaitne d a b u s
  | .lanemask d k => Sys2Proof.Machine.execLanemask d k s
  | .sel d a b u n g => Sys2Proof.Machine.execSel d a b u n g s
  | .addW d a b u => Sys2Proof.Machine.execAddW d a b u s
  | .addD d a b u => Sys2Proof.Machine.execAddD d a b u s
  | .subW d a b u => Sys2Proof.Machine.execSubW d a b u s
  | .subD d a b u => Sys2Proof.Machine.execSubD d a b u s
  | .mulW d a b u => Sys2Proof.Machine.execMulW d a b u s
  | .mulD d a b u => Sys2Proof.Machine.execMulD d a b u s
  | .mulhD d a b u => Sys2Proof.Machine.execMulhD d a b u s
  | .mulhuD d a b u => Sys2Proof.Machine.execMulhuD d a b u s
  | .madW d a b u => Sys2Proof.Machine.execMadW d a b u s
  | .madD d a b u => Sys2Proof.Machine.execMadD d a b u s
  | .and d a b u => Sys2Proof.Machine.execAnd d a b u s
  | .or d a b u => Sys2Proof.Machine.execOr d a b u s
  | .xor d a b u => Sys2Proof.Machine.execXor d a b u s
  | .andn d a b u => Sys2Proof.Machine.execAndn d a b u s
  | .shlW d a b u => Sys2Proof.Machine.execShlW d a b u s
  | .shlD d a b u => Sys2Proof.Machine.execShlD d a b u s
  | .shrW d a b u => Sys2Proof.Machine.execShrW d a b u s
  | .shrD d a b u => Sys2Proof.Machine.execShrD d a b u s
  | .sraW d a b u => Sys2Proof.Machine.execSraW d a b u s
  | .sraD d a b u => Sys2Proof.Machine.execSraD d a b u s
  | .rotW d a b u => Sys2Proof.Machine.execRotW d a b u s
  | .rotD d a b u => Sys2Proof.Machine.execRotD d a b u s
  | .min d a b u => Sys2Proof.Machine.execMin d a b u s
  | .max d a b u => Sys2Proof.Machine.execMax d a b u s
  | .minu d a b u => Sys2Proof.Machine.execMinu d a b u s
  | .maxu d a b u => Sys2Proof.Machine.execMaxu d a b u s
  | .abs d a => Sys2Proof.Machine.execAbs d a s
  | .clz d a => Sys2Proof.Machine.execClz d a s
  | .popc d a => Sys2Proof.Machine.execPopc d a s
  | .brev d a => Sys2Proof.Machine.execBrev d a s
  | .bfe d a b u => Sys2Proof.Machine.execBfe d a b u s
  | .bfeu d a b u => Sys2Proof.Machine.execBfeu d a b u s
  | .bfi d a b u => Sys2Proof.Machine.execBfi d a b u s
  | .slt d a b u => Sys2Proof.Machine.execSlt d a b u s
  | .sltu d a b u => Sys2Proof.Machine.execSltu d a b u s
  | .seq d a b u => Sys2Proof.Machine.execSeq d a b u s
  | .sne d a b u => Sys2Proof.Machine.execSne d a b u s
  | .addva d a b u => Sys2Proof.Machine.execAddva d a b u s
  | .icmpW g a b u c => Sys2Proof.Machine.execIcmpW g a b u c s
  | .icmpD g a b u c => Sys2Proof.Machine.execIcmpD g a b u c s
  | .fadd d a b u => Sys2Proof.Machine.execFadd d a b u s
  | .fsub d a b u => Sys2Proof.Machine.execFsub d a b u s
  | .fmul d a b u => Sys2Proof.Machine.execFmul d a b u s
  | .ffma d a b u => Sys2Proof.Machine.execFfma d a b u s
  | .fmin d a b u => Sys2Proof.Machine.execFmin d a b u s
  | .fmax d a b u => Sys2Proof.Machine.execFmax d a b u s
  | .fabs d a => Sys2Proof.Machine.execFabs d a s
  | .fneg d a => Sys2Proof.Machine.execFneg d a s
  | .fcpysgn d a b u => Sys2Proof.Machine.execFcpysgn d a b u s
  | .fclass d a => Sys2Proof.Machine.execFclass d a s
  | .faddS d a b u => Sys2Proof.Machine.execFaddS d a b u s
  | .fsubS d a b u => Sys2Proof.Machine.execFsubS d a b u s
  | .fmulS d a b u => Sys2Proof.Machine.execFmulS d a b u s
  | .ffmaS d a b u => Sys2Proof.Machine.execFfmaS d a b u s
  | .fminS d a b u => Sys2Proof.Machine.execFminS d a b u s
  | .fmaxS d a b u => Sys2Proof.Machine.execFmaxS d a b u s
  | .fabsS d a => Sys2Proof.Machine.execFabsS d a s
  | .fnegS d a => Sys2Proof.Machine.execFnegS d a s
  | .fcpysgnS d a b u => Sys2Proof.Machine.execFcpysgnS d a b u s
  | .fclassS d a => Sys2Proof.Machine.execFclassS d a s
  | .hadd2 d a b u => Sys2Proof.Machine.execHadd2 d a b u s
  | .hmul2 d a b u => Sys2Proof.Machine.execHmul2 d a b u s
  | .hfma2 d a b u => Sys2Proof.Machine.execHfma2 d a b u s
  | .hmax2 d a b u => Sys2Proof.Machine.execHmax2 d a b u s
  | .badd2 d a b u => Sys2Proof.Machine.execBadd2 d a b u s
  | .bmul2 d a b u => Sys2Proof.Machine.execBmul2 d a b u s
  | .bfma2 d a b u => Sys2Proof.Machine.execBfma2 d a b u s
  | .bmax2 d a b u => Sys2Proof.Machine.execBmax2 d a b u s
  | .fcmpS g a b u c => Sys2Proof.Machine.execFcmpS g a b u c s
  | .fcmpD g a b u c => Sys2Proof.Machine.execFcmpD g a b u c s
  | .cvt d a k t => Sys2Proof.Machine.execCvt d a k t s
  | .qe4m3 d a b u k => Sys2Proof.Machine.execQe4m3 d a b u k s
  | .qe5m2 d a b u k => Sys2Proof.Machine.execQe5m2 d a b u k s
  | .qe2m1 d a b u k => Sys2Proof.Machine.execQe2m1 d a b u k s
  | .qi8 d a b u k => Sys2Proof.Machine.execQi8 d a b u k s
  | .de4m3 d a => Sys2Proof.Machine.execDe4m3 d a s
  | .de5m2 d a => Sys2Proof.Machine.execDe5m2 d a s
  | .de2m1 d a => Sys2Proof.Machine.execDe2m1 d a s
  | .addiW d a imm => Sys2Proof.Machine.execAddiW d a imm s
  | .addiD d a imm => Sys2Proof.Machine.execAddiD d a imm s
  | .andi d a imm => Sys2Proof.Machine.execAndi d a imm s
  | .ori d a imm => Sys2Proof.Machine.execOri d a imm s
  | .xori d a imm => Sys2Proof.Machine.execXori d a imm s
  | .shifti d a k w n => Sys2Proof.Machine.execShifti d a k w n s
  | .movi d imm => Sys2Proof.Machine.execMovi d imm s
  | .movsh d imm => Sys2Proof.Machine.execMovsh d imm s
  | .rcpS d a l => Sys2Proof.Machine.execRcpS d a l s
  | .rsqS d a l => Sys2Proof.Machine.execRsqS d a l s
  | .sqrtS d a l => Sys2Proof.Machine.execSqrtS d a l s
  | .divS d a b u l => Sys2Proof.Machine.execDivS d a b u l s
  | .rcpD d a l => Sys2Proof.Machine.execRcpD d a l s
  | .rsqD d a l => Sys2Proof.Machine.execRsqD d a l s
  | .sqrtD d a l => Sys2Proof.Machine.execSqrtD d a l s
  | .divD d a b u l => Sys2Proof.Machine.execDivD d a b u l s
  | .exp2 d a l => Sys2Proof.Machine.execExp2 d a l s
  | .log2 d a l => Sys2Proof.Machine.execLog2 d a l s
  | .sinpi d a l => Sys2Proof.Machine.execSinpi d a l s
  | .cospi d a l => Sys2Proof.Machine.execCospi d a l s
  | .div d a b u l => Sys2Proof.Machine.execDiv d a b u l s
  | .divu d a b u l => Sys2Proof.Machine.execDivu d a b u l s
  | .rem d a b u l => Sys2Proof.Machine.execRem d a b u l s
  | .remu d a b u l => Sys2Proof.Machine.execRemu d a b u l s
  | .xshfl d a b c l => Sys2Proof.Machine.execXshfl d a b c l s
  | .xshxor d a p c l => Sys2Proof.Machine.execXshxor d a p c l s
  | .xred d a o c l => Sys2Proof.Machine.execXred d a o c l s
  | .xscan d a e o c l => Sys2Proof.Machine.execXscan d a e o c l s
  | .xvote d a k c l => Sys2Proof.Machine.execXvote d a k c l s
  | .xmatch d a c l => Sys2Proof.Machine.execXmatch d a c l s
  | .ldb d a u imm l => Sys2Proof.Machine.execLdb d a u imm l s
  | .ldbu d a u imm l => Sys2Proof.Machine.execLdbu d a u imm l s
  | .ldh d a u imm l => Sys2Proof.Machine.execLdh d a u imm l s
  | .ldhu d a u imm l => Sys2Proof.Machine.execLdhu d a u imm l s
  | .ldw d a u imm l => Sys2Proof.Machine.execLdw d a u imm l s
  | .ldwu d a u imm l => Sys2Proof.Machine.execLdwu d a u imm l s
  | .ldd d a u imm l => Sys2Proof.Machine.execLdd d a u imm l s
  | .ldq d a u imm l => Sys2Proof.Machine.execLdq d a u imm l s
  | .prefetch h a u imm => Sys2Proof.Machine.execPrefetch h a u imm s
  | .lda d a u w k o l => Sys2Proof.Machine.execLda d a u w k o l s
  | .stb n g a b u imm => Sys2Proof.Machine.execStb n g a b u imm s
  | .sth n g a b u imm => Sys2Proof.Machine.execSth n g a b u imm s
  | .stw n g a b u imm => Sys2Proof.Machine.execStw n g a b u imm s
  | .std n g a b u imm => Sys2Proof.Machine.execStd n g a b u imm s
  | .stq n g a b u imm => Sys2Proof.Machine.execStq n g a b u imm s
  | .str n g a b u w k o => Sys2Proof.Machine.execStr n g a b u w k o s
  | .amadd g d a b w l => Sys2Proof.Machine.execAmadd g d a b w l s
  | .ammin g d a b w l => Sys2Proof.Machine.execAmmin g d a b w l s
  | .ammax g d a b w l => Sys2Proof.Machine.execAmmax g d a b w l s
  | .amumin g d a b w l => Sys2Proof.Machine.execAmumin g d a b w l s
  | .amumax g d a b w l => Sys2Proof.Machine.execAmumax g d a b w l s
  | .amand g d a b w l => Sys2Proof.Machine.execAmand g d a b w l s
  | .amor g d a b w l => Sys2Proof.Machine.execAmor g d a b w l s
  | .amxor g d a b w l => Sys2Proof.Machine.execAmxor g d a b w l s
  | .amswap g d a b w l => Sys2Proof.Machine.execAmswap g d a b w l s
  | .amcas g d a b w l => Sys2Proof.Machine.execAmcas g d a b w l s
  | .amfadd g d a b w l => Sys2Proof.Machine.execAmfadd g d a b w l s
  | .br n g o => Sys2Proof.Machine.execBr n g o s
  | .call o => Sys2Proof.Machine.execCall o s
  | .jr b u => Sys2Proof.Machine.execJr b u s
  | .callr b u => Sys2Proof.Machine.execCallr b u s
  | .ret => Sys2Proof.Machine.execRet s
  | .exit => Sys2Proof.Machine.execExit s
  | .bkpt n => Sys2Proof.Machine.execBkpt n s
  | .cvset n b => Sys2Proof.Machine.execCvset n b s
  | .cvsetGrp n => Sys2Proof.Machine.execCvsetGrp n s
  | .cvwait n => Sys2Proof.Machine.execCvwait n s
  | .cvquery d n b u => Sys2Proof.Machine.execCvquery d n b u s
  | .cvclear n => Sys2Proof.Machine.execCvclear n s
  | .spawn d a g l => Sys2Proof.Machine.execSpawn d a g l s
  | .syscall n l => Sys2Proof.Machine.execSyscall n l s
  | .mma c a p q l => Sys2Proof.Machine.execMma c a p q l s
  | .mdrain c a p q l => Sys2Proof.Machine.execMdrain c a p q l s
  | .mzero c a l => Sys2Proof.Machine.execMzero c a l s
  | .mload c a p l => Sys2Proof.Machine.execMload c a p l s
  | .mstore c a p l => Sys2Proof.Machine.execMstore c a p l s
  | .mquant c a p l => Sys2Proof.Machine.execMquant c a p l s
  | .mhad c a p l => Sys2Proof.Machine.execMhad c a p l s
  | .matrixGatheringComplete wg cv => Sys2Proof.Machine.execMatrixGatheringComplete wg cv s
  | .matrixStep op => Sys2Proof.Machine.execMatrixStep op s
  | .snop => Sys2Proof.Machine.execSnop s
  | .smov d a => Sys2Proof.Machine.execSmov d a s
  | .srdsr d k => Sys2Proof.Machine.execSrdsr d k s
  | .swrsr h a k => Sys2Proof.Machine.execSwrsr h a k s
  | .rdtime d => Sys2Proof.Machine.execRdtime d s
  | .rdbudget d => Sys2Proof.Machine.execRdbudget d s
  | .yield => Sys2Proof.Machine.execYield s
  | .setdeadline d a b => Sys2Proof.Machine.execSetdeadline d a b s
  | .saddW d a b => Sys2Proof.Machine.execSaddW d a b s
  | .saddD d a b => Sys2Proof.Machine.execSaddD d a b s
  | .ssubW d a b => Sys2Proof.Machine.execSsubW d a b s
  | .ssubD d a b => Sys2Proof.Machine.execSsubD d a b s
  | .smulW d a b => Sys2Proof.Machine.execSmulW d a b s
  | .smulD d a b => Sys2Proof.Machine.execSmulD d a b s
  | .smulhD d a b => Sys2Proof.Machine.execSmulhD d a b s
  | .smulhuD d a b => Sys2Proof.Machine.execSmulhuD d a b s
  | .smadW d a b => Sys2Proof.Machine.execSmadW d a b s
  | .smadD d a b => Sys2Proof.Machine.execSmadD d a b s
  | .sand d a b => Sys2Proof.Machine.execSand d a b s
  | .sor d a b => Sys2Proof.Machine.execSor d a b s
  | .sxor d a b => Sys2Proof.Machine.execSxor d a b s
  | .sandn d a b => Sys2Proof.Machine.execSandn d a b s
  | .sshlW d a b => Sys2Proof.Machine.execSshlW d a b s
  | .sshlD d a b => Sys2Proof.Machine.execSshlD d a b s
  | .sshrW d a b => Sys2Proof.Machine.execSshrW d a b s
  | .sshrD d a b => Sys2Proof.Machine.execSshrD d a b s
  | .ssraW d a b => Sys2Proof.Machine.execSsraW d a b s
  | .ssraD d a b => Sys2Proof.Machine.execSsraD d a b s
  | .srotW d a b => Sys2Proof.Machine.execSrotW d a b s
  | .srotD d a b => Sys2Proof.Machine.execSrotD d a b s
  | .smin d a b => Sys2Proof.Machine.execSmin d a b s
  | .smax d a b => Sys2Proof.Machine.execSmax d a b s
  | .sminu d a b => Sys2Proof.Machine.execSminu d a b s
  | .smaxu d a b => Sys2Proof.Machine.execSmaxu d a b s
  | .sabs d a => Sys2Proof.Machine.execSabs d a s
  | .sclz d a => Sys2Proof.Machine.execSclz d a s
  | .spopc d a => Sys2Proof.Machine.execSpopc d a s
  | .sbrev d a => Sys2Proof.Machine.execSbrev d a s
  | .sbfe d a b => Sys2Proof.Machine.execSbfe d a b s
  | .sbfeu d a b => Sys2Proof.Machine.execSbfeu d a b s
  | .sbfi d a b => Sys2Proof.Machine.execSbfi d a b s
  | .sslt d a b => Sys2Proof.Machine.execSslt d a b s
  | .ssltu d a b => Sys2Proof.Machine.execSsltu d a b s
  | .sseq d a b => Sys2Proof.Machine.execSseq d a b s
  | .ssne d a b => Sys2Proof.Machine.execSsne d a b s
  | .saddva d a b => Sys2Proof.Machine.execSaddva d a b s
  | .saddi d a imm => Sys2Proof.Machine.execSaddi d a imm s
  | .sandi d a imm => Sys2Proof.Machine.execSandi d a imm s
  | .sori d a imm => Sys2Proof.Machine.execSori d a imm s
  | .sxori d a imm => Sys2Proof.Machine.execSxori d a imm s
  | .sshifti d a k w n => Sys2Proof.Machine.execSshifti d a k w n s
  | .smovi d imm => Sys2Proof.Machine.execSmovi d imm s
  | .smovsh d imm => Sys2Proof.Machine.execSmovsh d imm s
  | .sld d a w imm l => Sys2Proof.Machine.execSld d a w imm l s
  | .sst a b w imm => Sys2Proof.Machine.execSst a b w imm s
  | .fenceRel k => Sys2Proof.Machine.execFenceRel k s
  | .fenceAcq k => Sys2Proof.Machine.execFenceAcq k s
  | .fenceAcqrel k => Sys2Proof.Machine.execFenceAcqrel k s
  | .fenceSc k => Sys2Proof.Machine.execFenceSc k s
  | .fenceWct d k => Sys2Proof.Machine.execFenceWct d k s
  | .releaseWaitEnd agent issue => Sys2Proof.Machine.execReleaseWaitEnd agent issue s
  | .barinit d a b l => Sys2Proof.Machine.execBarinit d a b l s
  | .bararrive d a l => Sys2Proof.Machine.execBararrive d a l s
  | .barexpect d a b l => Sys2Proof.Machine.execBarexpect d a b l s
  | .barwait d a b l => Sys2Proof.Machine.execBarwait d a b l s
  | .bartry d a b l => Sys2Proof.Machine.execBartry d a b l s
  | .barpoison d a l => Sys2Proof.Machine.execBarpoison d a l s
  | .cntrd d a k l => Sys2Proof.Machine.execCntrd d a k l s
  | .cntwait d a b l => Sys2Proof.Machine.execCntwait d a b l s
  | .cntadd d a b l => Sys2Proof.Machine.execCntadd d a b l s
  | .cpy d a l => Sys2Proof.Machine.execCpy d a l s
  | .cpystat d a l => Sys2Proof.Machine.execCpystat d a l s
  | .cpywait d a l => Sys2Proof.Machine.execCpywait d a l s
  | .cpycancelCancel d a l => Sys2Proof.Machine.execCpycancelCancel d a l s
  | .cpycancelResume d a l => Sys2Proof.Machine.execCpycancelResume d a l s
  | .cpycancelFail d a l => Sys2Proof.Machine.execCpycancelFail d a l s
  | .rlock d a b l => Sys2Proof.Machine.execRlock d a b l s
  | .runlock d a l => Sys2Proof.Machine.execRunlock d a l s
  | .copyBoxStart copy box => Sys2Proof.Machine.execCopyBoxStart copy box s
  | .copyBoxLanded copy box => Sys2Proof.Machine.execCopyBoxLanded copy box s
  | .copyBoxFault copy box => Sys2Proof.Machine.execCopyBoxFault copy box s
  | .tfetch d l => Sys2Proof.Machine.execTfetch d l s
  | .tretire d a b l => Sys2Proof.Machine.execTretire d a b l s
  | .tgive d a b l => Sys2Proof.Machine.execTgive d a b l s
  | .tstat d k l => Sys2Proof.Machine.execTstat d k l s
  | .dispenserRefill wg => Sys2Proof.Machine.execDispenserRefill wg s
  | .schr d a p n => Sys2Proof.Machine.execSchr d a p n s
  | .schw h a n => Sys2Proof.Machine.execSchw h a n s
  | .schcommit d a => Sys2Proof.Machine.execSchcommit d a s
  | .launch d a b l => Sys2Proof.Machine.execLaunch d a b l s
  | .launchp d a b l => Sys2Proof.Machine.execLaunchp d a b l s
  | .graphsub d a b l => Sys2Proof.Machine.execGraphsub d a b l s
  | .cancelDrain d a l => Sys2Proof.Machine.execCancelDrain d a l s
  | .cancelKill d a l => Sys2Proof.Machine.execCancelKill d a l s
  | .waitdone d a l => Sys2Proof.Machine.execWaitdone d a l s
  | .msgsend d a b l => Sys2Proof.Machine.execMsgsend d a b l s
  | .msgrecv d a b l => Sys2Proof.Machine.execMsgrecv d a b l s
  | .msgpoll d l => Sys2Proof.Machine.execMsgpoll d l s
  | .crpop d a l => Sys2Proof.Machine.execCrpop d a l s
  | .resume d a b l => Sys2Proof.Machine.execResume d a b l s
  | .resumeall d a b l => Sys2Proof.Machine.execResumeall d a b l s
  | .crfwd d a b l => Sys2Proof.Machine.execCrfwd d a b l s
  | .krd d k => Sys2Proof.Machine.execKrd d k s
  | .kwr a k => Sys2Proof.Machine.execKwr a k s
  | .tlbinv d a b => Sys2Proof.Machine.execTlbinv d a b s
  | .kret => Sys2Proof.Machine.execKret s
  | .idle => Sys2Proof.Machine.execIdle s
  | .ctxevict d a l => Sys2Proof.Machine.execCtxevict d a l s
  | .ctxpin d a b l => Sys2Proof.Machine.execCtxpin d a b l s
  | .gangkill d a b l => Sys2Proof.Machine.execGangkill d a b l s
  | .wgkill d a b l => Sys2Proof.Machine.execWgkill d a b l s
  | .ctxstat d a l => Sys2Proof.Machine.execCtxstat d a l s
  | .fetchTurn agent => Sys2Proof.Machine.execFetchTurn agent s
  | .gangAged wg gang => Sys2Proof.Machine.execGangAged wg gang s
  | .readyPoolAged wg node => Sys2Proof.Machine.execReadyPoolAged wg node s
  | .registerLineFill agent line => Sys2Proof.Machine.execRegisterLineFill agent line s
  | .destinationDelivery agent flight => Sys2Proof.Machine.execDestinationDelivery agent flight s
  | .pageWalk walk => Sys2Proof.Machine.execPageWalk walk s
  | .homeFill req lease => Sys2Proof.Machine.execHomeFill req lease s
  | .homeStore req => Sys2Proof.Machine.execHomeStore req s
  | .homeAtomic req => Sys2Proof.Machine.execHomeAtomic req s
  | .storeAck req => Sys2Proof.Machine.execStoreAck req s
  | .strongStoreVisible req => Sys2Proof.Machine.execStrongStoreVisible req s
  | .leaseExpiry core line => Sys2Proof.Machine.execLeaseExpiry core line s
  | .ownershipRecall line => Sys2Proof.Machine.execOwnershipRecall line s
  | .waitneReread agent lane => Sys2Proof.Machine.execWaitneReread agent lane s
  | .rangeLockRelease core entry => Sys2Proof.Machine.execRangeLockRelease core entry s
  | .preemptionRequest wg gang => Sys2Proof.Machine.execPreemptionRequest wg gang s
  | .eviction wg => Sys2Proof.Machine.execEviction wg s
  | .evictionComplete wg => Sys2Proof.Machine.execEvictionComplete wg s
  | .redispatch wg core slot => Sys2Proof.Machine.execRedispatch wg core slot s
  | .readyPoolDispatch node core slot => Sys2Proof.Machine.execReadyPoolDispatch node core slot s
  | .workgroupEnd wg => Sys2Proof.Machine.execWorkgroupEnd wg s
  | .launchComplete launch => Sys2Proof.Machine.execLaunchComplete launch s
  | .nodeEnd node => Sys2Proof.Machine.execNodeEnd node s
  | .faultRingSlotFree cluster => Sys2Proof.Machine.execFaultRingSlotFree cluster s
  | .callRingSlotFree cluster => Sys2Proof.Machine.execCallRingSlotFree cluster s
  | .registerCacheEccUe wg line => Sys2Proof.Machine.execRegisterCacheEccUe wg line s
  | .scratchpadEccUe wg => Sys2Proof.Machine.execScratchpadEccUe wg s
  | .accumulatorEccUe wg => Sys2Proof.Machine.execAccumulatorEccUe wg s
  | .l1ParityError core line => Sys2Proof.Machine.execL1ParityError core line s
  | .l2EccUe line => Sys2Proof.Machine.execL2EccUe line s
  | .tcbEccUe node readable => Sys2Proof.Machine.execTcbEccUe node readable s
  | .tlbParityError cluster entry => Sys2Proof.Machine.execTlbParityError cluster entry s
  | .doorbell tenant queue ahead => Sys2Proof.Machine.execDoorbell tenant queue ahead s
  | .queuePoll tenant queue ahead => Sys2Proof.Machine.execQueuePoll tenant queue ahead s
  | .pktNop tenant queue ahead => Sys2Proof.Machine.execPktNop tenant queue ahead s
  | .pktSlice tenant queue ahead => Sys2Proof.Machine.execPktSlice tenant queue ahead s
  | .pktLaunch tenant queue ahead => Sys2Proof.Machine.execPktLaunch tenant queue ahead s
  | .pktLaunchp tenant queue ahead => Sys2Proof.Machine.execPktLaunchp tenant queue ahead s
  | .pktGraph tenant queue ahead => Sys2Proof.Machine.execPktGraph tenant queue ahead s
  | .pktIb tenant queue ahead => Sys2Proof.Machine.execPktIb tenant queue ahead s
  | .pktPred tenant queue ahead => Sys2Proof.Machine.execPktPred tenant queue ahead s
  | .pktLoop tenant queue ahead => Sys2Proof.Machine.execPktLoop tenant queue ahead s
  | .pktFfence tenant queue ahead => Sys2Proof.Machine.execPktFfence tenant queue ahead s
  | .pktSignal tenant queue ahead => Sys2Proof.Machine.execPktSignal tenant queue ahead s
  | .pktWait tenant queue ahead => Sys2Proof.Machine.execPktWait tenant queue ahead s
  | .waitObservation tenant queue ahead => Sys2Proof.Machine.execWaitObservation tenant queue ahead s
  | .pktCopy tenant queue ahead => Sys2Proof.Machine.execPktCopy tenant queue ahead s
  | .pktWrite tenant queue ahead => Sys2Proof.Machine.execPktWrite tenant queue ahead s
  | .pktTimestamp tenant queue ahead => Sys2Proof.Machine.execPktTimestamp tenant queue ahead s
  | .pktCancel tenant queue ahead => Sys2Proof.Machine.execPktCancel tenant queue ahead s
  | .pktHostirq tenant queue ahead => Sys2Proof.Machine.execPktHostirq tenant queue ahead s
  | .sliceEnd tenant queue => Sys2Proof.Machine.execSliceEnd tenant queue s
  | .sliceCompletion slice => Sys2Proof.Machine.execSliceCompletion slice s
  | .completionRingRoom tenant queue => Sys2Proof.Machine.execCompletionRingRoom tenant queue s
  | .deadlinemiss slice => Sys2Proof.Machine.execDeadlinemiss slice s
  | .budget slice => Sys2Proof.Machine.execBudget slice s
  | .capMeasurement tenant other power => Sys2Proof.Machine.execCapMeasurement tenant other power s
  | .powerEstimate milliwatt => Sys2Proof.Machine.execPowerEstimate milliwatt s
  | .tenantReset tenant => Sys2Proof.Machine.execTenantReset tenant s
  | .teardownComplete tenant => Sys2Proof.Machine.execTeardownComplete tenant s
  | .shootdownRequest addr => Sys2Proof.Machine.execShootdownRequest addr s
  | .invalidationComplete inv => Sys2Proof.Machine.execInvalidationComplete inv s
  | .cxlMemRead offset size => Sys2Proof.Machine.execCxlMemRead offset size s
  | .cxlMemWrite offset bytes => Sys2Proof.Machine.execCxlMemWrite offset bytes s
  | .cxlMemWriteComplete write => Sys2Proof.Machine.execCxlMemWriteComplete write s
  | .hostSnoop line => Sys2Proof.Machine.execHostSnoop line s
  | .dmaWrite requester addr bytes => Sys2Proof.Machine.execDmaWrite requester addr bytes s
  | .devirq source vector => Sys2Proof.Machine.execDevirq source vector s
  | .ethFrameReceive port ring fcs bytes => Sys2Proof.Machine.execEthFrameReceive port ring fcs bytes s
  | .ethTransmit port ring => Sys2Proof.Machine.execEthTransmit port ring s
  | .flitReceive port bytes => Sys2Proof.Machine.execFlitReceive port bytes s
  | .fabricPortFailure port => Sys2Proof.Machine.execFabricPortFailure port s
  | .podFormation clash ahead chips => Sys2Proof.Machine.execPodFormation clash ahead chips s
  | .launchAnnounce root rootLaunch pasid slice bytes => Sys2Proof.Machine.execLaunchAnnounce root rootLaunch pasid slice bytes s
  | .announceAck launch chip okay => Sys2Proof.Machine.execAnnounceAck launch chip okay s
  | .go root rootLaunch => Sys2Proof.Machine.execGo root rootLaunch s
  | .withdraw root rootLaunch => Sys2Proof.Machine.execWithdraw root rootLaunch s
  | .announceTimeout launch => Sys2Proof.Machine.execAnnounceTimeout launch s
  | .treeCancel root rootLaunch kill => Sys2Proof.Machine.execTreeCancel root rootLaunch kill s
  | .chipReport launch chip => Sys2Proof.Machine.execChipReport launch chip s
  | .chipLost launch chip => Sys2Proof.Machine.execChipLost launch chip s
  | .exitWordForward launch chip time word => Sys2Proof.Machine.execExitWordForward launch chip time word s
  | .trapEntry core => Sys2Proof.Machine.execTrapEntry core s
  | .ktimecmpMatch core => Sys2Proof.Machine.execKtimecmpMatch core s
  | .shardStart core => Sys2Proof.Machine.execShardStart core s
  | .measure core => Sys2Proof.Machine.execMeasure core s
  | .attest core => Sys2Proof.Machine.execAttest core s
  | .update core => Sys2Proof.Machine.execUpdate core s
  | .unknownMessage core => Sys2Proof.Machine.execUnknownMessage core s
  | .messageChannelRoom target => Sys2Proof.Machine.execMessageChannelRoom target s
  | .updateStandbyReady => Sys2Proof.Machine.execUpdateStandbyReady s
  | .updateReadyTimeout => Sys2Proof.Machine.execUpdateReadyTimeout s
  | .quiescentBoundary => Sys2Proof.Machine.execQuiescentBoundary s
  | .quiescenceTimeout => Sys2Proof.Machine.execQuiescenceTimeout s
  | .stateTableImport => Sys2Proof.Machine.execStateTableImport s
  | .complexMachineCheck => Sys2Proof.Machine.execComplexMachineCheck s
  | .standbyMachineCheck => Sys2Proof.Machine.execStandbyMachineCheck s
  | .powerOn => Sys2Proof.Machine.execPowerOn s
  | .railOutOfBand rail => Sys2Proof.Machine.execRailOutOfBand rail s
  | .pcieFundamentalReset => Sys2Proof.Machine.execPcieFundamentalReset s
  | .mcreset => Sys2Proof.Machine.execMcreset s
  | .boot step okay => Sys2Proof.Machine.execBoot step okay s
  | .thermalSample sixteenths => Sys2Proof.Machine.execThermalSample sixteenths s
  | .baseRegisterWrite offset value => Sys2Proof.Machine.execBaseRegisterWrite offset value s
  | .registerWrite offset value => Sys2Proof.Machine.execRegisterWrite offset value s
  | .unassignedWord word => Sys2Proof.Machine.execUnassignedWord word s
  | .dmaRead requester addr size => Sys2Proof.Machine.execDmaRead requester addr size s
  | .serviceCoreL1EccUe core => Sys2Proof.Machine.execServiceCoreL1EccUe core s
  | .tenantFaultRingEntryFree tenant => Sys2Proof.Machine.execTenantFaultRingEntryFree tenant s

end Sys2Proof.Machine
end

