-- ==== Sys2Proof/Machine/Step.lean ====
section
/-! DEFINITION. One step of the machine: time passes, and an agent issues one instruction or one event happens (log 3). -/

namespace Sys2Proof.Machine

/-- The instruction that a word is in the machine: what the decoder reads, or an unassigned word (R92). -/
noncomputable def instrOf (w : BitVec 32) : Instr :=
  match decodeWord w with
  | .ok i => i
  | .error _ => .unassignedWord w

/-- Carries out what was chosen. An issue for which no PC-group is ready leaves the state as it is; an instruction word runs only
by an issue. -/
noncomputable def act (s : State) : Act → Host.Outcome State Fault Refusal
  | .issue a pc =>
    match s.pick a pc with
    | some (s, w) => exec (instrOf w) s
    | none => .next s
  | .event i => if isEvent i then exec i s else .next s

/-- One step: time passes, one thing happens, and what it leaves to be done is done (R21, R320, R328, R340; log 3). -/
noncomputable def step (s : State) : Host.Outcome State Fault Refusal :=
  let c := s.nextAct
  let old := c.2.pass c.1.dt
  match act old c.1.act with
  | .next t => .next (((t.settle old).survey fun w u => exec (instrOf w) u).tendSlots old)
  | .fault f => .fault f
  | .refused r => .refused r

/-- The state in which the next step fetches and runs an instruction: the word stands in the loop buffer of a thread
whose turn it is (log 14). -/
noncomputable def State.withFetchWord (s : State) (_nbits w : Nat) : State := s.placeWord (BitVec.ofNat 32 w)

end Sys2Proof.Machine
end

