-- ==== Sys2Proof/Safety.lean ====
section
/-! DEFINITION. What claims about the machine rest on: the invariant of every state, when an instruction of the issuing group
reaches its own effect, and what a step may have changed. -/

namespace Sys2Proof.Machine

/-- The invariant that every step keeps: device memory, host memory and what the model holds of them is in canonical form. -/
def State.Inv (s : State) : Prop := Memory.wf s.mem = true

/-- An agent is a gang of a compute core. -/
def isGang : Agent → Bool
  | .gang _ _ => true
  | .core _ => false

/-- An instruction that names `u` reaches its own effect when the group of state `s`, of gang `g`, issues it: no check of Table
4.6 faults it, the scoreboard does not hold it, and the register cache has its lines (R59, R76, R85, R92). -/
structure State.Admits (s : State) (u : Use) (g : Gang) : Prop where
  agent : s.gang s.cur = some g
  compute : u.allow = 1 → isGang s.cur = true
  service : u.allow = 2 → isGang s.cur = false
  registers : ∀ n ∈ u.lanes, g.available n = true
  window : g.inWindow u s.mask = 0
  scoreboard : g.blocked u s.mask = false
  lines : ∀ n ∈ g.needs u s.mask, (Tab.find g.lines n).isSome = true

/-- The gang of an admitted issue as the instruction finds it: the lines it names are the last used, and the first issue of an
instruction has served a gang of a compute core (R22, R76). -/
def Gang.issued (g : Gang) (s : State) (u : Use) : Gang :=
  let g' := if isGang s.cur && !g.retrying s.mask then { g with since := s.ptb, aged := false, yielded := false, served := s.serialNo } else g
  { g' with lines := g.lines.map fun p => if (g.needs u s.mask).contains p.1 then (p.1, s.serialNo + 1) else p }

/-- A state with what an issue counts, and every gang, taken from another. -/
def State.withGangsOf (t s : State) : State :=
  { t with wgs := s.wgs, scalars := s.scalars, slices := s.slices, serialNo := s.serialNo, owedUnits := s.owedUnits }

/-- Two states differ at most in the gang of the issuing group, which becomes `g'`, and in what an issue counts: units charged to
a slice or owed to one of another chip, the instruction counter of the workgroup, and the counter that names issues (R260, R327, R398). -/
structure OnlyGang (s t : State) (g' : Gang) : Prop where
  issuer : t.gang s.cur = some g'
  others : ∀ a, a ≠ s.cur → t.gang a = s.gang a
  workgroups : ∀ w x, s.wg w = some x → ∃ y, t.wg w = some y ∧ { y with gangs := x.gangs, perf := x.perf } = x
  cores : ∀ i c, s.scalar i = some c → ∃ d, t.scalar i = some d ∧ { d with ctx := c.ctx } = c
  slices : ∀ h x, s.slice h = some x → ∃ y, t.slice h = some y ∧ { y with budget := x.budget, charged := x.charged } = x
  rest : t.withGangsOf s = s

/-- A gang with what its threads hold (registers, guards, pcs, `FCR`s, waits, windows, values in flight), and what serves its
register cache and ranking, taken from another. -/
def Gang.withLanesOf (g' g : Gang) : Gang :=
  { g' with
    v := g.v, g := g.g, pc := g.pc, fcr := g.fcr, status := g.status, flights := g.flights, windows := g.windows
    lines := g.lines, dirty := g.dirty, since := g.since, aged := g.aged, yielded := g.yielded, served := g.served }

/-- An instruction completed in the lanes of `m`: each holds the lane registers `reg` and guards `guard`, has raised `flags` in its
`FCR`, goes on at pc + 4 and may issue; `flights` are then in flight. Every other lane, and everything else of the gang, is as
it was (R58, R101). -/
structure Took (g g' : Gang) (m : LaneMask) (reg : Nat → Nat → Word) (guard : Nat → Nat → Bool) (flags : Nat → BitVec 5)
    (flights : List Flight) : Prop where
  regs : ∀ l n, l < 32 → n < 64 → g'.vreg l n = if m.getLsbD l then reg l n else g.vreg l n
  guards : ∀ l n, l < 32 → n < 8 → g'.guard l n = if m.getLsbD l then guard l n else g.guard l n
  fcr : ∀ l, l < 32 → g'.fcrOf l = if m.getLsbD l then g.fcrOf l ||| (flags l).setWidth 32 else g.fcrOf l
  pc : ∀ l, l < 32 → g'.pcOf l = if m.getLsbD l then g.pcOf l + 4 else g.pcOf l
  stat : ∀ l, l < 32 → g'.stat l = if m.getLsbD l then .ready else g.stat l
  inFlight : g'.flights = flights
  rest : g'.withLanesOf g = g

/-- An instruction that writes one uniform register completed in the lanes of `m`: uniform register d holds x (s0 stays 0), `GSTAT`
gains `udiv`, and each lane of the group goes on at pc + 4. Everything else is as it was (R62, R123). -/
structure TookUniform (g g' : Gang) (m : LaneMask) (d : Nat) (x udiv : Word) : Prop where
  uniform : ∀ n, n < 64 → g'.sreg n = if n = d ∧ d ≠ 0 then x else g.sreg n
  gstat : g'.gstat = g.gstat ||| udiv
  pc : ∀ l, l < 32 → g'.pcOf l = if m.getLsbD l then g.pcOf l + 4 else g.pcOf l
  stat : ∀ l, l < 32 → g'.stat l = if m.getLsbD l then .ready else g.stat l
  regs : ∀ l n, l < 32 → n < 64 → g'.vreg l n = g.vreg l n
  guards : ∀ l n, l < 32 → n < 8 → g'.guard l n = g.guard l n
  fcr : ∀ l, l < 32 → g'.fcrOf l = g.fcrOf l
  inFlight : g'.flights = g.flights
  rest : { g'.withLanesOf g with s := g.s, gstat := g.gstat } = g

end Sys2Proof.Machine
end

