-- ==== Sys2Proof/Certificates/Slice0/Obligations.lean ====
section
/-! DEFINITION. The statements for the provers. -/

open Sys2Proof Sys2Proof.Machine

/-! ### What results are said of -/

/-- An admitted instruction answers a next state in which each thread of the group holds the registers `reg` and guards `guard` and
has raised `flags`, and nothing else is changed (R58, R101, R103). -/
def LaneDoes (i : Instr) (u : Use) (s : State) (g : Gang) (reg : Nat → Nat → Word) (guard : Nat → Nat → Bool)
    (flags : Nat → BitVec 5) : Prop :=
  s.Admits u g → ∃ (t : State) (g' : Gang), exec i s = .next t ∧ OnlyGang s t g' ∧ Took g g' s.mask reg guard flags g.flights
/-- An admitted lane instruction answers a next state in which each thread of the group holds, in lane register d, a value of
which `p` is true, and nothing else is changed (R58, R101, R103). -/
def LaneSuch (i : Instr) (u : Use) (s : State) (g : Gang) (d : BitVec 6) (p : Nat → Word → Prop) : Prop :=
  s.Admits u g → ∃ (t : State) (g' : Gang) (x : Nat → Word), exec i s = .next t ∧ OnlyGang s t g' ∧
    Took g g' s.mask (fun l n => if n = d.toNat then x l else g.vreg l n) g.guard (fun _ => 0) g.flights ∧
    ∀ l, s.mask.getLsbD l = true → p l (x l)
/-- The same, of one value. -/
def LaneIs (i : Instr) (u : Use) (s : State) (g : Gang) (d : BitVec 6) (x : Nat → Word) : Prop :=
  LaneSuch i u s g d fun l y => y = x l
/-- An admitted lane instruction writes a floating-point result to lane register d and raises its flags. -/
def LaneFp (i : Instr) (u : Use) (s : State) (g : Gang) (d : BitVec 6) (r : Nat → FpOut) : Prop :=
  LaneDoes i u s g (fun l n => if n = d.toNat then (r l).1 else g.vreg l n) g.guard fun l => (r l).2
/-- An admitted comparison writes guard gd, raises its flags and leaves every lane register. -/
def LaneCmp (i : Instr) (u : Use) (s : State) (g : Gang) (gd : BitVec 3) (r : Nat → Bool × BitVec 5) : Prop :=
  LaneDoes i u s g g.vreg (fun l n => if n = gd.toNat ∧ n ≠ 0 then (r l).1 else g.guard l n) fun l => (r l).2
/-- An admitted long-latency instruction leaves every register and puts, for each thread of the group, its value and flags in flight
to lane register d (R87, R103). -/
def LaneFlies (i : Instr) (u : Use) (s : State) (g : Gang) (d : BitVec 6) (r : Nat → FpOut) : Prop :=
  s.Admits u g → ∃ (t : State) (g' : Gang) (id : Nat → Nat), exec i s = .next t ∧ OnlyGang s t g' ∧
    Took g g' s.mask g.vreg g.guard (fun _ => 0) (g.flights ++ (lanesOf s.mask).map fun l =>
      ⟨id l, s.ptb, l, laneBit l, [d.toNat], some [(r l).1], (r l).2, false, false, g.pcOf l, 0⟩)
/-- The group is diverged and its launch traps a uniform write under divergence (R25). -/
def UdivTraps (s : State) (g : Gang) (d : BitVec 6) : Prop := d ≠ 0 ∧ g.live ≠ s.mask ∧ g.gstat.getLsbD 1 = true
/-- An admitted instruction that does not trap answers a next state in which uniform register d holds x (s0 stays 0), `GSTAT.UDIV` is
set where the group was diverged, and nothing else is changed (R25, R62, R123). -/
def UniIs (i : Instr) (u : Use) (s : State) (g : Gang) (d : BitVec 6) (x : Word) : Prop :=
  s.Admits u g → ¬UdivTraps s g d → ∃ (t : State) (g' : Gang), exec i s = .next t ∧ OnlyGang s t g' ∧
    TookUniform g g' s.mask d.toNat x (if d ≠ 0 ∧ g.live ≠ s.mask then 1 else 0)
/-- An admitted instruction answers a next state that differs from the state of the issue only in the gang, of which `p` is true. -/
def Does (i : Instr) (u : Use) (s : State) (g : Gang) (p : Gang → Prop) : Prop :=
  s.Admits u g → ∃ (t : State) (g' : Gang), exec i s = .next t ∧ OnlyGang s t g' ∧ p g'
/-- The low 32 bits of an integer, sign-extended: `w32` of R109. -/
def low32 (x : Int) : Word := (BitVec.ofInt 32 x).signExtend 64
/-- 1 or 0. -/
def flag (p : Prop) [Decidable p] : Word := if p then 1 else 0
/-- The position and the length of a field specifier (R110). -/
def specPos (b : Word) : Nat := b.toNat % 64
def specLen (b : Word) : Nat := min (b.toNat / 256 % 128) (64 - specPos b)

/-- Table 5.4, FN 0 to 13 and 22 to 29: the arithmetic and logic of IALU. -/
def Obligations.LaneArithmetic : Prop :=
  ∀ (s : State) (g : Gang) (d a b : BitVec 6) (u : BitVec 1),
    let A := fun l => g.vreg l a.toNat
    let B := fun l => g.opB l b u
    let D := fun l => g.vreg l d.toNat
    let r := fun (i : Instr) (x : Nat → Word) => LaneIs i (useB [d, a] b u) s g d x
    let r1 := fun (i : Instr) (p : Nat → Word → Prop) => LaneSuch i (.regs [d.toNat, a.toNat] []) s g d p
    r (.addW d a b u) (fun l => low32 ((A l).toInt + (B l).toInt)) ∧
    r (.addD d a b u) (fun l => BitVec.ofInt 64 ((A l).toInt + (B l).toInt)) ∧
    r (.subW d a b u) (fun l => low32 ((A l).toInt - (B l).toInt)) ∧
    r (.subD d a b u) (fun l => BitVec.ofInt 64 ((A l).toInt - (B l).toInt)) ∧
    r (.mulW d a b u) (fun l => low32 ((A l).toInt * (B l).toInt)) ∧
    r (.mulD d a b u) (fun l => BitVec.ofInt 64 ((A l).toInt * (B l).toInt)) ∧
    r (.mulhD d a b u) (fun l => BitVec.ofInt 64 ((A l).toInt * (B l).toInt / 2 ^ 64)) ∧
    r (.mulhuD d a b u) (fun l => BitVec.ofNat 64 ((A l).toNat * (B l).toNat / 2 ^ 64)) ∧
    r (.madW d a b u) (fun l => low32 ((D l).toInt + (A l).toInt * (B l).toInt)) ∧
    r (.madD d a b u) (fun l => BitVec.ofInt 64 ((D l).toInt + (A l).toInt * (B l).toInt)) ∧
    r (.and d a b u) (fun l => A l &&& B l) ∧
    r (.or d a b u) (fun l => A l ||| B l) ∧
    r (.xor d a b u) (fun l => A l ^^^ B l) ∧
    r (.andn d a b u) (fun l => A l &&& ~~~B l) ∧
    r (.min d a b u) (fun l => BitVec.ofInt 64 (min (A l).toInt (B l).toInt)) ∧
    r (.max d a b u) (fun l => BitVec.ofInt 64 (max (A l).toInt (B l).toInt)) ∧
    r (.minu d a b u) (fun l => BitVec.ofNat 64 (min (A l).toNat (B l).toNat)) ∧
    r (.maxu d a b u) (fun l => BitVec.ofNat 64 (max (A l).toNat (B l).toNat)) ∧
    r1 (.abs d a) (fun l x => x = BitVec.ofNat 64 (A l).toInt.natAbs) ∧
    r1 (.clz d a) (fun l x => x.toNat ≤ 64 ∧ (A l).toNat < 2 ^ (64 - x.toNat) ∧ (x.toNat < 64 → 2 ^ (63 - x.toNat) ≤ (A l).toNat)) ∧
    r1 (.popc d a) (fun l x => x.toNat = (List.range 64).countP (A l).getLsbD) ∧
    r1 (.brev d a) (fun l x => ∀ j, j < 64 → x.getLsbD j = (A l).getLsbD (63 - j))

/-- Table 5.4, FN 14 to 21, 30 to 36: the shifts, fields and set instructions of IALU (R109, R110). -/
def Obligations.LaneShiftsAndFields : Prop :=
  ∀ (s : State) (g : Gang) (d a b : BitVec 6) (u : BitVec 1),
    let A := fun l => g.vreg l a.toNat
    let B := fun l => g.opB l b u
    let D := fun l => g.vreg l d.toNat
    let n5 := fun l => (B l).toNat % 32
    let n6 := fun l => (B l).toNat % 64
    let r := fun (i : Instr) (x : Nat → Word) => LaneIs i (useB [d, a] b u) s g d x
    let rs := fun (i : Instr) (p : Nat → Word → Prop) => LaneSuch i (useB [d, a] b u) s g d p
    r (.shlW d a b u) (fun l => low32 ((A l).toInt * 2 ^ n5 l)) ∧
    r (.shlD d a b u) (fun l => BitVec.ofInt 64 ((A l).toInt * 2 ^ n6 l)) ∧
    r (.shrW d a b u) (fun l => low32 (((A l).toNat % 2 ^ 32 / 2 ^ n5 l : Nat) : Int)) ∧
    r (.shrD d a b u) (fun l => BitVec.ofNat 64 ((A l).toNat / 2 ^ n6 l)) ∧
    r (.sraW d a b u) (fun l => low32 (((A l).setWidth 32 : BitVec 32).toInt / 2 ^ n5 l)) ∧
    r (.sraD d a b u) (fun l => BitVec.ofInt 64 ((A l).toInt / 2 ^ n6 l)) ∧
    rs (.rotW d a b u) (fun l x => ∀ j, j < 64 → x.getLsbD j = (A l).getLsbD ((min j 31 + n5 l) % 32)) ∧
    rs (.rotD d a b u) (fun l x => ∀ j, j < 64 → x.getLsbD j = (A l).getLsbD ((j + n6 l) % 64)) ∧
    r (.bfe d a b u) (fun l => BitVec.ofInt 64 ((BitVec.ofNat (specLen (B l)) ((A l).toNat / 2 ^ specPos (B l))).toInt)) ∧
    r (.bfeu d a b u) (fun l => BitVec.ofNat 64 ((A l).toNat / 2 ^ specPos (B l) % 2 ^ specLen (B l))) ∧
    rs (.bfi d a b u) (fun l x => ∀ j, j < 64 → x.getLsbD j =
      if specPos (B l) ≤ j ∧ j < specPos (B l) + specLen (B l) then (A l).getLsbD (j - specPos (B l)) else (D l).getLsbD j) ∧
    r (.slt d a b u) (fun l => flag ((A l).toInt < (B l).toInt)) ∧
    r (.sltu d a b u) (fun l => flag ((A l).toNat < (B l).toNat)) ∧
    r (.seq d a b u) (fun l => flag (A l = B l)) ∧
    r (.sne d a b u) (fun l => flag (A l ≠ B l))

/-- R104, R105, R107, R112, SEL: moves, selections, lane masks and immediates. -/
def laneMovesAndImmediatesRule : Prop :=
  ∀ (s : State) (g : Gang) (d a b : BitVec 6) (u : BitVec 1) (n : BitVec 1) (gd : BitVec 3) (k : BitVec 13) (j : BitVec 19),
    let A := fun l => g.vreg l a.toNat
    let B := fun l => g.opB l b u
    let D := fun l => g.vreg l d.toNat
    let ri := fun (i : Instr) (x : Nat → Word) => LaneIs i (.regs [d.toNat, a.toNat] []) s g d x
    let rd := fun (i : Instr) (x : Nat → Word) => LaneIs i (.regs [d.toNat] []) s g d x
    LaneDoes .nop (.regs [] []) s g g.vreg g.guard (fun _ => 0) ∧
    LaneDoes .snop (.regs [] []) s g g.vreg g.guard (fun _ => 0) ∧
    LaneIs (.mov d b u) (useB [d] b u) s g d B ∧
    LaneIs (.sel d a b u n gd) { useB [d, a] b u with guards := [gd.toNat] } s g d
      (fun l => if (if n = 1#1 then !g.guard l gd.toNat else g.guard l gd.toNat) then A l else B l) ∧
    LaneIs (.movgv d) { Use.regs [d.toNat] [] with guards := List.range 8 } s g d
      (fun l => BitVec.ofNat 64 (((List.range 8).map fun n => if g.guard l n then 2 ^ n else 0).sum)) ∧
    LaneDoes (.movvg b u) { useB [] b u with guards := [1, 2, 3, 4, 5, 6, 7] } s g g.vreg
      (fun l n => if n = 0 then true else (B l).getLsbD n) (fun _ => 0) ∧
    ri (.addiW d a k) (fun l => low32 ((A l).toInt + k.toInt)) ∧
    ri (.addiD d a k) (fun l => BitVec.ofInt 64 ((A l).toInt + k.toInt)) ∧
    ri (.andi d a k) (fun l => A l &&& k.signExtend 64) ∧
    ri (.ori d a k) (fun l => A l ||| k.signExtend 64) ∧
    ri (.xori d a k) (fun l => A l ^^^ k.signExtend 64) ∧
    rd (.movi d j) (fun _ => BitVec.ofInt 64 j.toInt) ∧
    rd (.movsh d j) (fun l => BitVec.ofNat 64 ((D l).toNat * 2 ^ 19) ||| BitVec.ofNat 64 j.toNat)

/-- R107 Table 5.3: each lane mask has, in bit k below 32, what its kind says of lane k. -/
def laneMasksRule : Prop :=
  ∀ (s : State) (g : Gang) (d : BitVec 6) (k : BitVec 6), k.toNat ≤ 6 →
    LaneSuch (.lanemask d k) (.regs [d.toNat] []) s g d fun l x => ∀ j, j < 64 →
      x.getLsbD j = (decide (j < 32) && (match k.toNat with
        | 0 => decide (j = l)
        | 1 => decide (j < l)
        | 2 => decide (j ≤ l)
        | 3 => decide (l < j)
        | 4 => decide (l ≤ j)
        | 5 => s.mask.getLsbD j
        | _ => g.live.getLsbD j))

/-- R112 Table 5.5 with Table 4.4: `shifti` is the IALU shift of its kind and width by n, for every n that its width admits. -/
def laneShiftImmediatesRule : Prop :=
  ∀ (s : State) (g : Gang) (d a : BitVec 6) (n : BitVec 6),
    let A := fun l => g.vreg l a.toNat
    let r := fun (k : BitVec 2) (w : BitVec 1) (x : Nat → Word) =>
      LaneIs (.shifti d a k w n) (.regs [d.toNat, a.toNat] []) s g d x
    let rs := fun (k : BitVec 2) (w : BitVec 1) (p : Nat → Word → Prop) =>
      LaneSuch (.shifti d a k w n) (.regs [d.toNat, a.toNat] []) s g d p
    (n.toNat < 32 →
      r 0 0 (fun l => low32 ((A l).toInt * 2 ^ n.toNat)) ∧
      r 1 0 (fun l => low32 (((A l).toNat % 2 ^ 32 / 2 ^ n.toNat : Nat) : Int)) ∧
      r 2 0 (fun l => low32 (((A l).setWidth 32 : BitVec 32).toInt / 2 ^ n.toNat)) ∧
      rs 3 0 (fun l x => ∀ j, j < 64 → x.getLsbD j = (A l).getLsbD ((min j 31 + n.toNat) % 32))) ∧
    r 0 1 (fun l => BitVec.ofInt 64 ((A l).toInt * 2 ^ n.toNat)) ∧
    r 1 1 (fun l => BitVec.ofNat 64 ((A l).toNat / 2 ^ n.toNat)) ∧
    r 2 1 (fun l => BitVec.ofInt 64 ((A l).toInt / 2 ^ n.toNat)) ∧
    rs 3 1 (fun l x => ∀ j, j < 64 → x.getLsbD j = (A l).getLsbD ((j + n.toNat) % 64))

/-- R104, R105, R107, R112 with Tables 5.3 and 5.5: moves, selections, guards and lane masks, and the immediate majors. -/
def Obligations.LaneMovesAndImmediates : Prop := laneMovesAndImmediatesRule ∧ laneMasksRule ∧ laneShiftImmediatesRule

/-- R113 Table 5.6 and R117 Table 5.10: the conditions of `icmp`; `fcmp` writes its guard from the comparison of the two values and
raises NV as the table says. -/
def laneComparesRule : Prop :=
  ∀ (s : State) (g : Gang) (a b : BitVec 6) (u : BitVec 1) (gd : BitVec 3) (c : BitVec 3), gd ≠ 0 →
    let A := fun l => g.vreg l a.toNat
    let B := fun l => g.opB l b u
    let us : Use := { useB [a] b u with guards := [gd.toNat] }
    let holds := fun (x y : Int) (ux uy : Nat) (meet : Bool) => match c.toNat with
      | 0 => decide (x = y)
      | 1 => decide (x ≠ y)
      | 2 => decide (x < y)
      | 3 => decide (x ≤ y)
      | 4 => decide (ux < uy)
      | 5 => decide (ux ≤ uy)
      | 6 => meet
      | _ => !meet
    LaneCmp (.icmpD gd a b u c) us s g gd
      (fun l => (holds (A l).toInt (B l).toInt (A l).toNat (B l).toNat (decide (A l &&& B l ≠ 0)), 0)) ∧
    LaneCmp (.icmpW gd a b u c) us s g gd
      (fun l =>
        let x : BitVec 32 := (A l).setWidth 32
        let y : BitVec 32 := (B l).setWidth 32
        (holds x.toInt y.toInt x.toNat y.toNat (decide (x &&& y ≠ 0)), 0)) ∧
    (c.toNat ≤ 5 → LaneCmp (.fcmpS gd a b u c) us s g gd (fun l => fcmp fp32 c (A l) (B l)) ∧
      LaneCmp (.fcmpD gd a b u c) us s g gd (fun l => fcmp fp64 c (A l) (B l)))

/-- What Table 5.10 says of two values: the guard, and NV. -/
def fcmpTable (c : Nat) (x y : Val) : Bool × BitVec 5 :=
  let nan := anyNan [x, y]
  let snan := anySignalling [x, y]
  let lt := !nan && x.cmp y == .lt
  let eq := !nan && x.cmp y == .eq
  let nv := fun (b : Bool) => if b then 16#5 else 0
  match c with
  | 0 => (eq, nv snan)
  | 1 => (!eq, nv snan)
  | 2 => (lt, nv nan)
  | 3 => (lt || eq, nv nan)
  | 4 => (nan, nv snan)
  | _ => (!nan, nv snan)

/-- R117: the comparison that `fcmp` makes is that of Table 5.10, in both widths; two finite values compare as the rational numbers
that they are, so that −0 and +0 are equal. -/
def fcmpTableRule : Prop :=
  (∀ (c : BitVec 3) (a b : Word), c.toNat ≤ 5 →
    fcmp fp32 c a b = fcmpTable c.toNat (fp32.read a) (fp32.read b) ∧
    fcmp fp64 c a b = fcmpTable c.toNat (fp64.read a) (fp64.read b)) ∧
  ∀ (n1 n2 : Bool) (m1 m2 : Nat) (e1 e2 : Int),
    let v := fun (n : Bool) (m : Nat) (e : Int) => (if n then (-1 : ℚ) else 1) * m * (2 : ℚ) ^ e
    Val.cmp (.fin n1 m1 e1) (.fin n2 m2 e2) =
      (if v n1 m1 e1 < v n2 m2 e2 then .lt else if v n1 m1 e1 = v n2 m2 e2 then .eq else .gt)

/-- R113, R117: `icmp` and `fcmp`, and the table of what a comparison of floating-point values is. -/
def Obligations.LaneCompares : Prop := laneComparesRule ∧ fcmpTableRule

/-- R114, R115: the FP64 and FP32 functions of Table 5.7, each rounded once under the thread's own rounding mode. -/
def Obligations.LaneFloat : Prop :=
  ∀ (s : State) (g : Gang) (d a b : BitVec 6) (u : BitVec 1),
    let A := fun l => g.vreg l a.toNat
    let B := fun l => g.opB l b u
    let D := fun l => g.vreg l d.toNat
    let m := fun l => g.rm l
    let r := fun (i : Instr) (x : Nat → FpOut) => LaneFp i (useB [d, a] b u) s g d x
    let r1 := fun (i : Instr) (x : Nat → Word) => LaneIs i (.regs [d.toNat, a.toNat] []) s g d x
    r (.fadd d a b u) (fun l => placeFp (fp64.add (m l) (fp64.read (A l)) (fp64.read (B l)))) ∧
    r (.fsub d a b u) (fun l => placeFp (fp64.add (m l) (fp64.read (A l)) (fp64.read (B l)).neg)) ∧
    r (.fmul d a b u) (fun l => placeFp (fp64.mul (m l) (fp64.read (A l)) (fp64.read (B l)))) ∧
    r (.ffma d a b u) (fun l => placeFp (fp64.fma (m l) (fp64.read (A l)) (fp64.read (B l)) (fp64.read (D l)))) ∧
    r (.fmin d a b u) (fun l => placeFp (fp64.minMax true (A l).toNat (B l).toNat)) ∧
    r (.fmax d a b u) (fun l => placeFp (fp64.minMax false (A l).toNat (B l).toNat)) ∧
    r (.faddS d a b u) (fun l => placeFp (fp32.add (m l) (fp32.read (A l)) (fp32.read (B l)))) ∧
    r (.fsubS d a b u) (fun l => placeFp (fp32.add (m l) (fp32.read (A l)) (fp32.read (B l)).neg)) ∧
    r (.fmulS d a b u) (fun l => placeFp (fp32.mul (m l) (fp32.read (A l)) (fp32.read (B l)))) ∧
    r (.ffmaS d a b u) (fun l => placeFp (fp32.fma (m l) (fp32.read (A l)) (fp32.read (B l)) (fp32.read (D l)))) ∧
    r (.fminS d a b u) (fun l => placeFp (fp32.minMax true ((A l).toNat % 2 ^ 32) ((B l).toNat % 2 ^ 32))) ∧
    r (.fmaxS d a b u) (fun l => placeFp (fp32.minMax false ((A l).toNat % 2 ^ 32) ((B l).toNat % 2 ^ 32))) ∧
    r1 (.fabs d a) (fun l => A l &&& 0x7FFFFFFFFFFFFFFF) ∧
    r1 (.fneg d a) (fun l => A l ^^^ 0x8000000000000000) ∧
    LaneIs (.fcpysgn d a b u) (useB [d, a] b u) s g d
      (fun l => (A l &&& 0x7FFFFFFFFFFFFFFF) ||| (B l &&& 0x8000000000000000)) ∧
    r1 (.fabsS d a) (fun l => A l &&& 0x7FFFFFFF) ∧
    r1 (.fnegS d a) (fun l => (A l ^^^ 0x80000000) &&& 0xFFFFFFFF) ∧
    LaneIs (.fcpysgnS d a b u) (useB [d, a] b u) s g d (fun l => (A l &&& 0x7FFFFFFF) ||| (B l &&& 0x80000000))

/-- R115 Table 5.8: the class mask has exactly one bit, and which. -/
def Obligations.LaneClass : Prop :=
  ∀ (s : State) (g : Gang) (d a : BitVec 6),
    let mask := fun (f : Fmt) (v : Val) (x : Word) => match v with
      | .inf true => x = 1
      | .inf false => x = 128
      | .nan true => x = 256
      | .nan false => x = 512
      | .fin neg man _ =>
        if man = 0 then x = (if neg then 8 else 16)
        else if man < 2 ^ f.fbits then x = (if neg then 4 else 32)
        else x = (if neg then 2 else 64)
    LaneSuch (.fclass d a) (.regs [d.toNat, a.toNat] []) s g d (fun l x => mask fp64 (fp64.read (g.vreg l a.toNat)) x) ∧
    LaneSuch (.fclassS d a) (.regs [d.toNat, a.toNat] []) s g d (fun l x => mask fp32 (fp32.read (g.vreg l a.toNat)) x)

/-- R116 Table 5.9: each element of a packed operation is the operation on the elements at its place, bits 63:32 are 0, and the
flags of both are raised. -/
def Obligations.LanePacked : Prop :=
  ∀ (s : State) (g : Gang) (d a b : BitVec 6) (u : BitVec 1),
    let elem := fun (x : Word) (k : Nat) => x.toNat / 2 ^ (16 * k) % 2 ^ 16
    let r := fun (i : Instr) (op : Nat → Nat → Nat → Nat → Nat × Flags) =>
      LaneFp i (useB [d, a] b u) s g d fun l =>
        let at' := fun k => op (g.rm l) (elem (g.vreg l a.toNat) k) (elem (g.opB l b u) k) (elem (g.vreg l d.toNat) k)
        (BitVec.ofNat 64 (at' 0).1 ||| BitVec.ofNat 64 (at' 1).1 <<< 16, (at' 0).2 ||| (at' 1).2)
    let add := fun (f : Fmt) (m x y _z : Nat) => f.add m (f.decode x) (f.decode y)
    let mul := fun (f : Fmt) (m x y _z : Nat) => f.mul m (f.decode x) (f.decode y)
    let fma := fun (f : Fmt) (m x y z : Nat) => f.fma m (f.decode x) (f.decode y) (f.decode z)
    let mx := fun (f : Fmt) (_m x y _z : Nat) => f.minMax false x y
    r (.hadd2 d a b u) (add fp16) ∧ r (.hmul2 d a b u) (mul fp16) ∧ r (.hfma2 d a b u) (fma fp16) ∧ r (.hmax2 d a b u) (mx fp16) ∧
    r (.badd2 d a b u) (add bf16) ∧ r (.bmul2 d a b u) (mul bf16) ∧ r (.bfma2 d a b u) (fma bf16) ∧ r (.bmax2 d a b u) (mx bf16)

/-- R118, R119: `cvt` and the quantising conversions write the converted value. -/
def Obligations.LaneConversions : Prop :=
  ∀ (s : State) (g : Gang) (d a b : BitVec 6) (u : BitVec 1) (sat : BitVec 1) (st dt : BitVec 3),
    let A := fun l => g.vreg l a.toNat
    let X := fun l => fp32.read (g.vreg l a.toNat)
    let k := fun l => ((g.opB l b u).setWidth 32 : BitVec 32).toInt
    let q := fun (i : Instr) (x : Nat → Word) => LaneIs i (useB [d, a] b u) s g d x
    let w := fun (i : Instr) (x : Nat → Word) => LaneIs i (.regs [d.toNat, a.toNat] []) s g d x
    (st ≠ dt → LaneFp (.cvt d a st dt) (.regs [d.toNat, a.toNat] []) s g d
      (fun l => convert st.toNat dt.toNat (g.rm l) (A l))) ∧
    q (.qe4m3 d a b u sat) (fun l => BitVec.ofNat 64 (qNarrow e4m3 (sat == 1#1) (X l) (k l))) ∧
    q (.qe5m2 d a b u sat) (fun l => BitVec.ofNat 64 (qNarrow e5m2 (sat == 1#1) (X l) (k l))) ∧
    q (.qe2m1 d a b u sat) (fun l => BitVec.ofNat 64 (qE2M1 (X l) (k l))) ∧
    q (.qi8 d a b u sat) (fun l => BitVec.ofInt 64 (qInt8 (X l) (k l))) ∧
    w (.de4m3 d a) (fun l => BitVec.ofNat 64 (fp32.widen (e4m3.decode ((A l).toNat % 256)))) ∧
    w (.de5m2 d a) (fun l => BitVec.ofNat 64 (fp32.widen (e5m2.decode ((A l).toNat % 256)))) ∧
    w (.de2m1 d a) (fun l => BitVec.ofNat 64 (fp32.widen (e2m1Lone ((A l).toNat % 16))))

/-- A finite value as a rational number. -/
def ratOf : Val → ℚ
  | .fin n m e => (if n then -1 else 1) * m * (2 : ℚ) ^ e
  | _ => 0
/-- A value is finite, has this sign, and is y. -/
def FinIs (v : Val) (neg : Bool) (y : ℝ) : Prop := (∃ m e, v = .fin neg m e) ∧ (ratOf v : ℝ) = y
/-- R37 Table 2.3: z is x rounded to an integer. -/
def RoundedTo (rm : Nat) (x : ℝ) (z : ℤ) : Prop :=
  match rm with
  | 0 => |x - z| ≤ 1 / 2 ∧ (|x - z| = 1 / 2 → 2 ∣ z)
  | 1 => |(z : ℝ)| ≤ |x| ∧ |x| < |(z : ℝ)| + 1 ∧ 0 ≤ x * z
  | 2 => x ≤ z ∧ z < x + 1
  | _ => z ≤ x ∧ x < z + 1
/-- x, not 0, rounded once to format f (R36 to R38): `above` where the rounded value, taken with an unbounded exponent, is above the largest
finite one; else `fits` of the value delivered, and of whether it is tiny. -/
def Rounds (f : Fmt) (rm : Nat) (x : ℝ) (above : Prop) (fits : ℝ → Prop → Prop) : Prop :=
  ∀ u z : ℤ, (2 : ℝ) ^ (u + f.fbits) ≤ |x| → |x| < (2 : ℝ) ^ (u + f.fbits + 1) → RoundedTo rm (x / (2 : ℝ) ^ u) z →
    let y := (z : ℝ) * (2 : ℝ) ^ u
    let big : ℝ := (ratOf (f.decode f.maxCode) : ℝ)
    (big < |y| → above) ∧
    (|y| < (2 : ℝ) ^ (1 - (f.bias : ℤ)) → ∀ k : ℤ, RoundedTo rm (x / (2 : ℝ) ^ f.qmin) k → fits (k * (2 : ℝ) ^ f.qmin) True) ∧
    (|y| ≤ big → (2 : ℝ) ^ (1 - (f.bias : ℤ)) ≤ |y| → fits y False)
/-- A code and flags are x, not 0, rounded once to an IEEE format, with the flags of Table 2.4 (R36 to R38). -/
def RoundsTo (f : Fmt) (rm : Nat) (x : ℝ) (r : Nat × Flags) : Prop :=
  ∀ neg : Bool, (neg = true ↔ x < 0) →
    Rounds f rm x
      (r.2 = 5 ∧ if rm = 0 ∨ (rm = 2 ∧ neg = false) ∨ (rm = 3 ∧ neg = true) then f.decode r.1 = .inf neg
        else FinIs (f.decode r.1) neg (if neg then -(ratOf (f.decode f.maxCode) : ℝ) else (ratOf (f.decode f.maxCode) : ℝ)))
      (fun y tiny => FinIs (f.decode r.1) neg y ∧ (y = x → r.2 = 0) ∧ (y ≠ x → (tiny → r.2 = 3) ∧ (¬tiny → r.2 = 1)))

/-- R36 to R38, R40: each operation on finite values delivers its exact result rounded once under the mode, where that is not 0. -/
def operationsRoundOnceRule : Prop :=
  ∀ f ∈ [fp16, bf16, fp32, fp64], ∀ rm, rm < 4 → ∀ (n1 n2 n3 : Bool) (m1 m2 m3 : Nat) (e1 e2 e3 : Int),
    let x := Val.fin n1 m1 e1
    let y := Val.fin n2 m2 e2
    let z := Val.fin n3 m3 e3
    (ratOf x + ratOf y ≠ 0 → RoundsTo f rm ((ratOf x + ratOf y : ℚ) : ℝ) (f.add rm x y)) ∧
    (ratOf x * ratOf y ≠ 0 → RoundsTo f rm ((ratOf x * ratOf y : ℚ) : ℝ) (f.mul rm x y)) ∧
    (ratOf x * ratOf y + ratOf z ≠ 0 → RoundsTo f rm ((ratOf x * ratOf y + ratOf z : ℚ) : ℝ) (f.fma rm x y z)) ∧
    (ratOf x ≠ 0 → ratOf y ≠ 0 → RoundsTo f rm ((ratOf x / ratOf y : ℚ) : ℝ) (f.div rm x y)) ∧
    (0 < ratOf x → RoundsTo f rm (Real.sqrt (ratOf x : ℝ)) (f.sqrt rm x) ∧ RoundsTo f rm (1 / Real.sqrt (ratOf x : ℝ)) (f.rsqrt rm x))

/-- The integer that a register holds as a type of `cvt` (s32, u32, s64, u64), and a register that holds one, wrapped (R32). -/
def intOf (t : Nat) (a : Word) : Int :=
  match t with
  | 0 => (a.setWidth 32 : BitVec 32).toInt
  | 1 => ((a.setWidth 32 : BitVec 32).toNat : Int)
  | 2 => a.toInt
  | _ => (a.toNat : Int)
def intAs (t : Nat) (z : Int) : Word :=
  match t with
  | 0 => (BitVec.ofInt 32 z).signExtend 64
  | 1 => (BitVec.ofInt 32 z).setWidth 64
  | _ => BitVec.ofInt 64 z
/-- The limits of an integer type. -/
def intLow (t : Nat) : Int :=
  match t with
  | 0 => -(2 ^ 31)
  | 2 => -(2 ^ 63)
  | _ => 0
def intHigh (t : Nat) : Int :=
  match t with
  | 0 => 2 ^ 31 - 1
  | 1 => 2 ^ 32 - 1
  | 2 => 2 ^ 63 - 1
  | _ => 2 ^ 64 - 1
/-- The format of a floating-point type of `cvt`. -/
def fmtOf (t : Nat) : Fmt :=
  match t with
  | 4 => fp16
  | 5 => bf16
  | 6 => fp32
  | _ => fp64

/-- R41, with R32: between integer types `cvt` wraps the source to the target's width. From every floating-point format to every integer
type a NaN converts to 0, and an infinity or a value that rounds to one out of range to the limit of the target, each with NV alone;
any other to its rounded value, with NX where that is another. To a floating-point format an integer or a value is rounded once, a NaN
gives the canonical one, with NV where it signals, and infinities and zeros stay what they are. -/
def convertLimitsRule : Prop :=
  ∀ (s d rm : Nat) (a : Word), rm < 4 → s < 8 → d < 8 → s ≠ d →
    let r := convert s d rm a
    let x := (fmtOf s).read a
    (s < 4 → d < 4 → r = (intAs d (intOf s a), 0)) ∧
    (s < 4 → 4 ≤ d → ∃ c : Nat × Flags, r = placeFp c ∧
      (intOf s a = 0 → c = (0, 0)) ∧ (intOf s a ≠ 0 → RoundsTo (fmtOf d) rm (intOf s a : ℝ) c)) ∧
    (4 ≤ s → d < 4 →
      (∀ q, x = .nan q → r = (0, 16)) ∧ (x = .inf false → r = (intAs d (intHigh d), 16)) ∧ (x = .inf true → r = (intAs d (intLow d), 16)) ∧
      ∀ n m e, x = .fin n m e → ∀ z : ℤ, RoundedTo rm (ratOf x : ℝ) z →
        r = if intHigh d < z then (intAs d (intHigh d), 16) else if z < intLow d then (intAs d (intLow d), 16)
          else (intAs d z, if (z : ℚ) = ratOf x then 0 else 1)) ∧
    (4 ≤ s → 4 ≤ d → ∃ c : Nat × Flags, r = placeFp c ∧
      (∀ q, x = .nan q → c = ((fmtOf d).nan, if q then 16 else 0)) ∧
      (∀ n, x = .inf n → (fmtOf d).decode c.1 = .inf n ∧ c.2 = 0) ∧
      ∀ n m e, x = .fin n m e → (m = 0 → FinIs ((fmtOf d).decode c.1) n 0 ∧ c.2 = 0) ∧
        (m ≠ 0 → RoundsTo (fmtOf d) rm (ratOf x : ℝ) c))

/-- R35, R42 with Table 2.5, R43: the quantising conversions round the value scaled by a power of two once, to nearest with ties to even,
to the limits of the table; the widening ones are exact. -/
def quantisingRule : Prop :=
  (∀ (n sat : Bool) (m : Nat) (e k : Int), 0 < m →
    let v := Val.fin n m e
    let x : ℝ := ((ratOf v * (2 : ℚ) ^ k : ℚ) : ℝ)
    (∀ f ∈ [e4m3, e5m2], let c := qNarrow f sat v k
      Rounds f 0 x (if sat then FinIs (f.decode c) n (if n then -(ratOf (f.decode f.maxCode) : ℝ) else (ratOf (f.decode f.maxCode) : ℝ))
          else if f = e4m3 then c = 0x7F else c = if n then 0xFC else 0x7C)
        (fun y _ => FinIs (f.decode c) n y)) ∧
    (let c := qE2M1 v k
     Rounds e2m1 0 x (c = if n then 15 else 7) (fun y _ => c < 16 ∧ c ≠ 8 ∧ (ratOf (e2m1.decode c) : ℝ) = y)) ∧
    ∀ z : ℤ, RoundedTo 0 x z → qInt8 v k = max (-128) (min 127 z)) ∧
  (∀ (n sat q : Bool) (e k : Int),
    qNarrow e4m3 sat (.fin n 0 e) k = (if n then 0x80 else 0) ∧ qNarrow e5m2 sat (.fin n 0 e) k = (if n then 0x80 else 0) ∧
    qNarrow e4m3 sat (.inf n) k = (if sat then (if n then 0xFE else 0x7E) else 0x7F) ∧
    qNarrow e5m2 sat (.inf n) k = (if sat then (if n then 0xFB else 0x7B) else if n then 0xFC else 0x7C) ∧
    qNarrow e4m3 sat (.nan q) k = 0x7F ∧ qNarrow e5m2 sat (.nan q) k = 0x7E ∧
    qE2M1 (.fin n 0 e) k = 0 ∧ qE2M1 (.inf n) k = (if n then 15 else 7) ∧ qE2M1 (.nan q) k = 0 ∧
    qInt8 (.fin n 0 e) k = 0 ∧ qInt8 (.inf n) k = (if n then -128 else 127) ∧ qInt8 (.nan q) k = 0) ∧
  ∀ c, c < 256 →
    let exact := fun (v : Val) => match v with
      | .nan _ => fp32.widen v = 0x7FC00000
      | .inf n => fp32.decode (fp32.widen v) = .inf n
      | .fin n _ _ => FinIs (fp32.decode (fp32.widen v)) n (ratOf v : ℝ)
    exact (e4m3.decode c) ∧ exact (e5m2.decode c) ∧
      (c < 16 → exact (e2m1Lone c) ∧ (c ≠ 8 → e2m1Lone c = e2m1.decode c) ∧ (c = 8 → ratOf (e2m1Lone c) = 0))

/-- R40: the special values of `exp2`, `log2`, `sinpi` and `cospi`, their exactness where the exact value is a binary number, and a bound
of the result on every other finite operand. -/
def specialFunctionsRule : Prop :=
  (∀ (a : Word) (q : Bool), fp32.read a = .nan q →
    let r : FpOut := (0x7FC00000, if q then 16 else 0)
    fpExp2 0 a 0 = r ∧ fpLog2 0 a 0 = r ∧ fpSinpi 0 a 0 = r ∧ fpCospi 0 a 0 = r) ∧
  (∀ (a : Word) (n : Bool), fp32.read a = .inf n →
    fpExp2 0 a 0 = (if n then 0 else 0x7F800000, 0) ∧ fpLog2 0 a 0 = (if n then (0x7FC00000, 16) else (0x7F800000, 0)) ∧
      fpSinpi 0 a 0 = (0x7FC00000, 16) ∧ fpCospi 0 a 0 = (0x7FC00000, 16)) ∧
  ∀ (a : Word) (n : Bool) (m : Nat) (e : Int), fp32.read a = .fin n m e →
    let x : ℝ := (ratOf (.fin n m e) : ℝ)
    let near := fun (r : FpOut) (v slack : ℝ) => ∃ neg y, FinIs (fp32.read r.1) neg y ∧ |y - v| ≤ |v| * (2 : ℝ) ^ (-22 : ℤ) + slack
    let exactly := fun (r : FpOut) (v : ℝ) => (∃ neg, FinIs (fp32.read r.1) neg v) ∧ r.2 = 0
    let least := (2 : ℝ) ^ (-149 : ℤ)
    (if 128 ≤ x then fpExp2 0 a 0 = (0x7F800000, 5) else near (fpExp2 0 a 0) ((2 : ℝ) ^ x) least) ∧
    (∀ z : ℤ, -149 ≤ z → z ≤ 127 → x = z → exactly (fpExp2 0 a 0) ((2 : ℝ) ^ z)) ∧
    (m = 0 → fpLog2 0 a 0 = (0xFF800000, 8) ∧ fpSinpi 0 a 0 = (if n then 0x80000000 else 0, 0)) ∧
    (m ≠ 0 → n = true → fpLog2 0 a 0 = (0x7FC00000, 16)) ∧
    (0 < x → near (fpLog2 0 a 0) (Real.logb 2 x) 0 ∧ ∀ z : ℤ, x = (2 : ℝ) ^ z → exactly (fpLog2 0 a 0) z) ∧
    near (fpSinpi 0 a 0) (Real.sin (Real.pi * x)) least ∧ near (fpCospi 0 a 0) (Real.cos (Real.pi * x)) least ∧
    ∀ z : ℤ, 2 * x = z → exactly (fpSinpi 0 a 0) (Real.sin (Real.pi * x)) ∧ exactly (fpCospi 0 a 0) (Real.cos (Real.pi * x))

/-- R39: what an operation on a NaN, an invalid operation, and the two orderings of zeros deliver, in every IEEE format. -/
def floatSpecialValuesRule : Prop :=
  ∀ f ∈ [fp16, bf16, fp32, fp64],
    (∀ (rm : Nat) (x y : Val), anyNan [x, y] = true →
      f.add rm x y = (f.nan, if anySignalling [x, y] then 16 else 0) ∧
      f.mul rm x y = (f.nan, if anySignalling [x, y] then 16 else 0)) ∧
    (∀ (rm : Nat) (x y z : Val), anyNan [x, y, z] = true → (f.fma rm x y z).1 = f.nan) ∧
    (∀ (rm : Nat) (n : Bool), f.add rm (.inf n) (.inf (!n)) = (f.nan, 16)) ∧
    (∀ (rm : Nat) (n m : Bool) (e : Int), f.mul rm (.inf n) (.fin m 0 e) = (f.nan, 16) ∧ f.mul rm (.fin m 0 e) (.inf n) = (f.nan, 16)) ∧
    (∀ (rm : Nat) (n m : Bool) (k : Nat) (e1 e2 : Int), 0 < k → f.div rm (.fin n k e1) (.fin m 0 e2) = (f.inf (n != m), 8)) ∧
    (∀ (rm : Nat) (n m : Bool) (e1 e2 : Int), f.div rm (.fin n 0 e1) (.fin m 0 e2) = (f.nan, 16)) ∧
    (∀ (a b : Nat), anyNan [f.decode a] = true → anyNan [f.decode b] = false →
      (f.minMax true a b).1 = b ∧ (f.minMax false a b).1 = b ∧ (f.minMax true b a).1 = b ∧ (f.minMax false b a).1 = b) ∧
    (let z := 2 ^ (f.ebits + f.fbits)
     f.minMax true z 0 = (z, 0) ∧ f.minMax true 0 z = (z, 0) ∧ f.minMax false z 0 = (0, 0) ∧ f.minMax false 0 z = (0, 0))

/-- R37 Table 2.3: the rounding of an exact quotient num / den to an integer. -/
def roundingModesRule : Prop :=
  ∀ (num den : Nat) (neg : Bool), 0 < den →
    let r := fun rm => roundDiv rm neg num den
    (∀ rm, ((r rm).2 = true ↔ den ∣ num) ∧ (den ∣ num → (r rm).1 * den = num)) ∧
    ((r 1).1 * den ≤ num ∧ num < ((r 1).1 + 1) * den) ∧
    (if neg then (r 2).1 = (r 1).1 ∧ (num ≤ (r 3).1 * den ∧ (r 3).1 * den < num + den)
      else (r 3).1 = (r 1).1 ∧ (num ≤ (r 2).1 * den ∧ (r 2).1 * den < num + den)) ∧
    (2 * ((r 0).1 * den) ≤ 2 * num + den ∧ 2 * num ≤ 2 * ((r 0).1 * den) + den) ∧
    (2 * ((r 0).1 * den) = 2 * num + den ∨ 2 * num = 2 * ((r 0).1 * den) + den → (r 0).1 % 2 = 0)

/-- R55: what a fused step, or a rounding step of `mdrain`, delivers for a result r: a tiny one that is not 0 as a zero of its sign under `ftz`,
and under `assist` not at all. A result that is delivered as the smallest normal may count as tiny (log 111). -/
def ArrayStep (f : Fmt) (ftz : Bool) (r : Nat × Flags) (c : Nat) : Prop :=
  let mag := r.1 % 2 ^ (f.width - 1)
  (mag = 0 ∨ 2 ^ f.fbits < mag → c = r.1) ∧ (0 < mag → mag < 2 ^ f.fbits → ftz = true ∧ c = r.1 - mag) ∧
    (mag = 2 ^ f.fbits → c = r.1 ∨ (ftz = true ∧ c = r.1 - mag))
/-- The greatest finite value of a format, with a sign. -/
def mostOf (f : Fmt) (neg : Bool) : ℝ := if neg then -(ratOf (f.decode f.maxCode) : ℝ) else (ratOf (f.decode f.maxCode) : ℝ)
/-- R230: the code that `mdrain` converts a value to, from an accumulator of kind a to the result format b. -/
def Drained (a b : Nat) (sat ftz : Bool) (v : Val) (c : Nat) : Prop :=
  let r := opFmt b
  let whole := b = 6 ∨ b = 7 ∨ b = 11
  let low : Int := if b = 6 then -128 else if b = 7 then 0 else -(2 ^ 31)
  let high : Int := if b = 6 then 127 else if b = 7 then 255 else 2 ^ 31 - 1
  let int : Int := if b = 6 then sextInt 8 c else if b = 7 then (c : Int) else sextInt 32 c
  let above := fun (n : Bool) =>
    if 2 ≤ b ∧ sat = true then FinIs (r.decode c) n (mostOf r n) else if b = 4 then c = 0x7F else r.decode c = .inf n
  match v with
  | .nan _ => c = if whole then 0 else r.nan
  | .inf n => if whole then int = (if n then low else high) else above n
  | .fin n m e =>
    let q : ℝ := (ratOf (.fin n m e) : ℝ)
    (whole → ∀ z : ℤ, RoundedTo 0 q z → int = max low (min high z)) ∧
    (¬whole → m = 0 → FinIs (r.decode c) n 0) ∧
    (¬whole → m ≠ 0 → if b = 0 then FinIs (r.decode c) n q
      else Rounds r 0 q (above n) fun y tiny =>
        if b = 1 ∧ a = 0 then (¬tiny → FinIs (r.decode c) n y) ∧ (tiny → y = 0 → FinIs (r.decode c) n 0) ∧
          (tiny → y ≠ 0 → |y| < (2 : ℝ) ^ (-126 : ℤ) → ftz = true ∧ FinIs (r.decode c) n 0)
        else FinIs (r.decode c) n y)

/-- R51 to R54, R229: what a step of `mma` leaves in an accumulator element of the region. -/
def multiplyStepRule (o : MxOp) (ftz : Bool) (n : Nat) (x y : Workgroup) : Prop :=
  let f := o.fmt
  let a := fwA f
  let p := opFmt a
  let A := matOf (o.word 0) (o.word 1) a (fwM f) (fwK f) false
  let B := matOf (o.word 2) (o.word 3) (fwB f) (fwK f) (if fwCplx f then fwN f / 2 else fwN f) false
  let first := o.kStep * n
  let last := min (fwK f) (o.kStep * (n + 1))
  let start := fun (i j : Nat) => if n = 0 ∧ fwZero f = true then 0 else x.accBits o i j
  let fused := fun (u v : Val) (c d : Nat) => ArrayStep p ftz (p.fma 0 u v (p.decode c)) d
  ∀ i, i < fwM f →
    (a ≤ 1 → fwCplx f = false → ∀ j, j < fwN f → ∃ c : Nat → Nat, c first = start i j ∧ y.accBits o i j = c last ∧
      ∀ k, first ≤ k → k < last → fused (x.elemAt A i k) (x.elemAt B k j) (c k) (c (k + 1))) ∧
    (fwCplx f = true → ∀ q, q < fwN f / 2 → ∃ re im : Nat → Nat, re first = start i (2 * q) ∧ im first = start i (2 * q + 1) ∧
      y.accBits o i (2 * q) = re last ∧ y.accBits o i (2 * q + 1) = im last ∧ ∀ m, first ≤ 2 * m → 2 * m < last →
        fused (x.elemAt A i (2 * m)) (x.elemAt B (2 * m) q) (re (2 * m)) (re (2 * m + 1)) ∧
        fused (x.elemAt A i (2 * m + 1)).neg (x.elemAt B (2 * m + 1) q) (re (2 * m + 1)) (re (2 * m + 2)) ∧
        fused (x.elemAt A i (2 * m)) (x.elemAt B (2 * m + 1) q) (im (2 * m)) (im (2 * m + 1)) ∧
        fused (x.elemAt A i (2 * m + 1)) (x.elemAt B (2 * m) q) (im (2 * m + 1)) (im (2 * m + 2))) ∧
    (a = 6 ∨ a = 7 → ∀ j, j < fwN f →
      let t := sextInt 32 (start i j) + ((List.range' first (last - first)).map fun k => x.intAt A i k * x.intAt B k j).sum
      sextInt 32 (y.accBits o i j) = if fwSat f then max (-(2 ^ 31)) (min (2 ^ 31 - 1) t) else (BitVec.ofInt 32 t).toInt) ∧
    (2 ≤ a → a ≠ 6 → a ≠ 7 → ∀ j, j < fwN f →
      let term := fun (k : Nat) => (x.elemAt A i k).mul (x.elemAt B k j)
      let some := fun (p : Val → Prop) => ∃ k, first ≤ k ∧ k < last ∧ p (term k)
      let c := fp32.decode (start i j)
      let d := fp32.decode (y.accBits o i j)
      let bad := some (fun v => ∃ q, v = .nan q) ∨ (some (· = .inf true) ∧ some (· = .inf false)) ∨ (∃ q, c = .nan q) ∨
        ∃ s, c = .inf s ∧ some (· = .inf !s)
      (bad → y.accBits o i j = 0x7FC00000) ∧
      (∀ s, ¬bad → some (· = .inf s) ∨ c = .inf s → d = .inf s) ∧
      (¬bad → (∀ s, ¬some (· = .inf s) ∧ c ≠ .inf s) →
        let t := ratOf c + ((List.range' first (last - first)).map fun k => ratOf (x.elemAt A i k) * ratOf (x.elemAt B k j)).sum
        (t = 0 → ∃ s, FinIs d s 0) ∧ (t ≠ 0 → ∀ s : Bool, (s = true ↔ t < 0) → Rounds fp32 0 (t : ℝ) (d = .inf s) fun v _ => FinIs d s v)))
/-- R47, R232: what a step of `mquant` writes for its block. -/
def quantiseStepRule (o : MxOp) (n : Nat) (x y : Workgroup) : Prop :=
  let f := o.fmt
  let b := fwB f
  let S := matOf (o.word 0) (o.word 1) 1 (fwM f) (fwK f) false
  let D := matOf (o.word 2) (o.word 3) b (fwM f) (fwK f) true
  let cell := fun (i : Nat) => if D.axis then (i, n) else (n / (fwK f / 256), n % (fwK f / 256) * 256 + i)
  let X := fun (i : Nat) => x.elemAt S (cell i).1 (cell i).2
  let head := D.header (cell 0).1 (cell 0).2
  let E := (Mem.byte y.scratch head).toNat
  let peak := (Mem.byte y.scratch (head + 1)).toNat
  let code := fun (i : Nat) => y.rawAt D (cell i).1 (cell i).2
  let finite := ∀ i, i < 256 → ∃ s m e, X i = .fin s m e
  (¬finite → E = 255 ∧ (b = 9 → peak = 0) ∧ ∀ i, i < 256 → code i = 0) ∧
  (finite → (∀ i, i < 256 → ratOf (X i) = 0) → E = 127 ∧ (b = 9 → peak = 0) ∧
    ∀ i, i < 256 → code i = if b = 8 ∧ (X i).isNeg = true then 0x80 else 0) ∧
  ∀ j : Nat, finite → j < 256 → ratOf (X j) ≠ 0 → (∀ i, i < 256 → |ratOf (X i)| ≤ |ratOf (X j)|) →
    (∀ i, i < j → |ratOf (X i)| < |ratOf (X j)|) →
    let most : ℚ := if b = 9 then 6 else 448
    let k : Int := 127 - (E : Int)
    1 ≤ E ∧ |ratOf (X j)| ≤ most * (2 : ℚ) ^ (-k) ∧ (E ≠ 1 → most * (2 : ℚ) ^ (-k - 1) < |ratOf (X j)|) ∧
    (b = 8 → ∀ i, i < 256 → code i = qNarrow e4m3 false (X i) k) ∧
    (b = 9 → peak = qNarrow e4m3 false (X j) k ∧ ∀ i, i < 256 →
      let v := ratOf (X i) * (2 : ℚ) ^ k
      let c := qE2M1 (X i) k
      code i = if |v - ratOf (e4m3.decode peak)| < |v - ratOf (e2m1.decode c)| then 8 else c)
/-- R49, R233: what a step of `mhad` writes for each of its groups. -/
def hadamardStepRule (o : MxOp) (n : Nat) (x y : Workgroup) : Prop :=
  let f := o.fmt
  let S := matOf (o.word 0) (o.word 1) 1 (fwM f) (fwK f) false
  let D := matOf (o.word 2) (o.word 3) (fwB f) (fwM f) (fwK f) true
  let h := fwHn f
  ∀ q, o.hadPer * n ≤ q → q < o.hadPer * (n + 1) → q < fwM f * fwK f / h →
    let cell := fun (i : Nat) => if fwHax f then (q / fwK f * h + i, q % fwK f) else (q / (fwK f / h), q % (fwK f / h) * h + i)
    ∃ v : Nat → Nat → Nat, (∀ i, i < h → v 0 i = x.rawAt S (cell i).1 (cell i).2) ∧
      (∀ s i, 2 ^ s < h → i < h → v (s + 1) i =
        if i / 2 ^ s % 2 = 0 then (fp32.add 0 (fp32.decode (v s i)) (fp32.decode (v s (i + 2 ^ s)))).1
        else (fp32.add 0 (fp32.decode (v s (i - 2 ^ s))) (fp32.decode (v s i)).neg).1) ∧
      ∀ s i, 2 ^ s = h → i < h → y.rawAt D (cell i).1 (cell i).2 =
        (fp32.mul 0 (fp32.decode (v s i)) (fp32.decode (if h = 16 then 0x3E800000 else if h = 32 then 0x3E3504F3 else 0x3E000000))).1
/-- R44 to R55, R224 to R226, R229 to R233: what each step of an operation that passes its checks leaves in the shares of its workgroup. Under `ftz`
no step needs an assist. -/
def matrixArithmeticRule : Prop :=
  ∀ (o : MxOp) (ftz : Bool) (scratch acc n : Nat) (x : Workgroup), o.check scratch acc = none → n < o.steps →
    (ftz = true → (o.run ftz n x).isSome = true) ∧ ∀ y, o.run ftz n x = some y →
      let f := o.fmt
      let a := fwA f
      let here := fun (p : Nat → Nat → Prop) => ∀ i j, 16 * n ≤ i → i < 16 * n + 16 → j < fwN f → p i j
      let region := fun (w : Bool) => matOf (o.word 0) (o.word 1) a (fwM f) (fwN f) w
      (if o.major = 0x3C ∨ (o.major = 0x3E ∧ o.sub ≠ 2) then { y with acc := x.acc } = x else { y with scratch := x.scratch } = x) ∧
      (∀ e, e < 1024 * fwCt f ∨ 1024 * (fwCt f + o.tiles) ≤ e → Mem.byte y.acc e = Mem.byte x.acc e) ∧
      (∀ e, (∀ r ∈ o.ranges, r.2.2 = true → e < r.1 ∨ r.1 + r.2.1 ≤ e) → Mem.byte y.scratch e = Mem.byte x.scratch e) ∧
      (o.major = 0x3C → multiplyStepRule o ftz n x y) ∧
      (o.major = 0x3D → here fun i j =>
        let bits := x.accBits o i j
        let v := if a = 11 then Val.fin (decide (sextInt 32 bits < 0)) (sextInt 32 bits).natAbs 0 else (opFmt a).decode bits
        let p := if a = 0 then fp64 else fp32
        let c := y.rawAt (matOf (o.word 0) (o.word 1) (fwB f) (fwM f) (fwN f) true) i j
        if fwScl f then
          ∃ r, ArrayStep p ftz (p.mul 0 v (fp32.decode (leNat (Mem.bytes x.scratch (bitsOf (o.word 2).toNat 22 0 + 4 * j) 4)))) r ∧
            Drained a (fwB f) (fwSat f) ftz (p.decode r) c
        else Drained a (fwB f) (fwSat f) ftz v c) ∧
      (o.major = 0x3E → o.sub = 0 → here fun i j => y.accBits o i j = 0) ∧
      (o.major = 0x3E → o.sub = 1 → here fun i j => y.accBits o i j = x.rawAt (region false) i j) ∧
      (o.major = 0x3E → o.sub = 2 → here fun i j => y.rawAt (region true) i j = x.accBits o i j) ∧
      (o.major = 0x3F → o.sub = 0 → quantiseStepRule o n x y) ∧ (o.major = 0x3F → o.sub = 1 → hadamardStepRule o n x y)

/-- R35 to R55: the rounding modes, the special values, what the operations round, what conversions deliver, bounds of the special functions, and
the arithmetic of the matrix array. -/
def Obligations.FloatingPointRules : Prop :=
  convertLimitsRule ∧ floatSpecialValuesRule ∧ roundingModesRule ∧ operationsRoundOnceRule ∧ quantisingRule ∧ specialFunctionsRule ∧
    matrixArithmeticRule

/-- R40, R120: the special functions and the floating-point divisions put their value in flight. Which of two neighbours a special function
delivers is the model's free value (log 10). -/
def Obligations.LaneLongLatency : Prop :=
  ∀ (s : State) (g : Gang) (d a b : BitVec 6) (u : BitVec 1) (la : BitVec 4),
    let A := fun l => g.vreg l a.toNat
    let B := fun l => g.opB l b u
    let m := fun l => g.rm l
    let f1 := fun (i : Instr) (x : Nat → FpOut) => LaneFlies i (.regs [d.toNat, a.toNat] []) s g d x
    let f2 := fun (i : Instr) (x : Nat → FpOut) => LaneFlies i (useB [d, a] b u) s g d x
    f1 (.rcpS d a la) (fun l => placeFp (fp32.div (m l) (.fin false 1 0) (fp32.read (A l)))) ∧
    f1 (.rsqS d a la) (fun l => placeFp (fp32.rsqrt (m l) (fp32.read (A l)))) ∧
    f1 (.sqrtS d a la) (fun l => placeFp (fp32.sqrt (m l) (fp32.read (A l)))) ∧
    f2 (.divS d a b u la) (fun l => placeFp (fp32.div (m l) (fp32.read (A l)) (fp32.read (B l)))) ∧
    f1 (.rcpD d a la) (fun l => placeFp (fp64.div (m l) (.fin false 1 0) (fp64.read (A l)))) ∧
    f1 (.rsqD d a la) (fun l => placeFp (fp64.rsqrt (m l) (fp64.read (A l)))) ∧
    f1 (.sqrtD d a la) (fun l => placeFp (fp64.sqrt (m l) (fp64.read (A l)))) ∧
    f2 (.divD d a b u la) (fun l => placeFp (fp64.div (m l) (fp64.read (A l)) (fp64.read (B l)))) ∧
    f1 (.exp2 d a la) (fun l => fpExp2 0 (A l) 0) ∧ f1 (.log2 d a la) (fun l => fpLog2 0 (A l) 0) ∧
    f1 (.sinpi d a la) (fun l => fpSinpi 0 (A l) 0) ∧ f1 (.cospi d a la) (fun l => fpCospi 0 (A l) 0)

/-- R121, Table 5.12: the quotient is rounded toward zero and the remainder is A - B * quotient; division by 0 and the most negative dividend by -1 give the table's
results; no flag is raised. -/
def Obligations.IntegerDivision : Prop :=
  ∀ (s : State) (g : Gang) (d a b : BitVec 6) (u : BitVec 1) (la : BitVec 4),
    let A := fun l => g.vreg l a.toNat
    let B := fun l => g.opB l b u
    let f2 := fun (i : Instr) (x : Nat → FpOut) => LaneFlies i (useB [d, a] b u) s g d x
    f2 (.div d a b u la) (fun l => (if B l = 0 then BitVec.allOnes 64 else BitVec.ofInt 64 ((A l).toInt.tdiv (B l).toInt), 0)) ∧
    f2 (.rem d a b u la) (fun l => (if B l = 0 then A l else BitVec.ofInt 64 ((A l).toInt.tmod (B l).toInt), 0)) ∧
    f2 (.divu d a b u la) (fun l => (if B l = 0 then BitVec.allOnes 64 else BitVec.ofNat 64 ((A l).toNat / (B l).toNat), 0)) ∧
    f2 (.remu d a b u la) (fun l => (if B l = 0 then A l else BitVec.ofNat 64 ((A l).toNat % (B l).toNat), 0))

/-- R123, with Table 5.4: the uniform arithmetic is IALU's on uniform registers. -/
def Obligations.UniformArithmetic : Prop :=
  ∀ (s : State) (g : Gang) (d a b : BitVec 6),
    let A := g.sreg a.toNat
    let B := g.sreg b.toNat
    let D := g.sreg d.toNat
    let n5 := B.toNat % 32
    let n6 := B.toNat % 64
    let r := fun (i : Instr) (x : Word) => UniIs i (.regs [] [d.toNat, a.toNat, b.toNat]) s g d x
    let r1 := fun (i : Instr) (x : Word) => UniIs i (.regs [] [d.toNat, a.toNat]) s g d x
    r (.saddW d a b) (low32 (A.toInt + B.toInt)) ∧ r (.saddD d a b) (BitVec.ofInt 64 (A.toInt + B.toInt)) ∧
    r (.ssubW d a b) (low32 (A.toInt - B.toInt)) ∧ r (.ssubD d a b) (BitVec.ofInt 64 (A.toInt - B.toInt)) ∧
    r (.smulW d a b) (low32 (A.toInt * B.toInt)) ∧ r (.smulD d a b) (BitVec.ofInt 64 (A.toInt * B.toInt)) ∧
    r (.smulhD d a b) (BitVec.ofInt 64 (A.toInt * B.toInt / 2 ^ 64)) ∧
    r (.smulhuD d a b) (BitVec.ofNat 64 (A.toNat * B.toNat / 2 ^ 64)) ∧
    r (.smadW d a b) (low32 (D.toInt + A.toInt * B.toInt)) ∧ r (.smadD d a b) (BitVec.ofInt 64 (D.toInt + A.toInt * B.toInt)) ∧
    r (.sand d a b) (A &&& B) ∧ r (.sor d a b) (A ||| B) ∧ r (.sxor d a b) (A ^^^ B) ∧ r (.sandn d a b) (A &&& ~~~B) ∧
    r (.sshlW d a b) (low32 (A.toInt * 2 ^ n5)) ∧ r (.sshlD d a b) (BitVec.ofInt 64 (A.toInt * 2 ^ n6)) ∧
    r (.sshrW d a b) (low32 ((A.toNat % 2 ^ 32 / 2 ^ n5 : Nat) : Int)) ∧ r (.sshrD d a b) (BitVec.ofNat 64 (A.toNat / 2 ^ n6)) ∧
    r (.ssraW d a b) (low32 ((A.setWidth 32 : BitVec 32).toInt / 2 ^ n5)) ∧ r (.ssraD d a b) (BitVec.ofInt 64 (A.toInt / 2 ^ n6)) ∧
    r (.srotW d a b) (((A.setWidth 32 : BitVec 32).rotateRight n5).signExtend 64) ∧ r (.srotD d a b) (A.rotateRight n6) ∧
    r (.smin d a b) (BitVec.ofInt 64 (min A.toInt B.toInt)) ∧ r (.smax d a b) (BitVec.ofInt 64 (max A.toInt B.toInt)) ∧
    r (.sminu d a b) (BitVec.ofNat 64 (min A.toNat B.toNat)) ∧ r (.smaxu d a b) (BitVec.ofNat 64 (max A.toNat B.toNat)) ∧
    r1 (.sabs d a) (BitVec.ofNat 64 A.toInt.natAbs) ∧ r1 (.sclz d a) (BitVec.ofNat 64 (64 - Nat.size A.toNat)) ∧
    r1 (.spopc d a) (BitVec.ofNat 64 ((List.range 64).countP A.getLsbD)) ∧ r1 (.sbrev d a) A.reverse ∧
    r (.sbfe d a b) (BitVec.ofInt 64 ((BitVec.ofNat (specLen B) (A.toNat / 2 ^ specPos B)).toInt)) ∧
    r (.sbfeu d a b) (BitVec.ofNat 64 (A.toNat / 2 ^ specPos B % 2 ^ specLen B)) ∧
    r (.sbfi d a b) (BitVec.ofNat 64 (D.toNat % 2 ^ specPos B + A.toNat % 2 ^ specLen B * 2 ^ specPos B +
      D.toNat / 2 ^ (specPos B + specLen B) * 2 ^ (specPos B + specLen B))) ∧
    r (.sslt d a b) (flag (A.toInt < B.toInt)) ∧ r (.ssltu d a b) (flag (A.toNat < B.toNat)) ∧
    r (.sseq d a b) (flag (A = B)) ∧ r (.ssne d a b) (flag (A ≠ B))

/-- R124, R125, R126: uniform immediates, moves, the PTB, and the shifts by an immediate. That `rdtime` reads PTB at issue is the model's reading
(log 47). -/
def Obligations.UniformImmediatesAndMoves : Prop :=
  ∀ (s : State) (g : Gang) (d a : BitVec 6) (k : BitVec 13) (j : BitVec 19) (n : BitVec 6),
    let A := g.sreg a.toNat
    let D := g.sreg d.toNat
    let r1 := fun (i : Instr) (x : Word) => UniIs i (.regs [] [d.toNat, a.toNat]) s g d x
    let r0 := fun (i : Instr) (x : Word) => UniIs i (.regs [] [d.toNat]) s g d x
    r1 (.saddi d a k) (BitVec.ofInt 64 (A.toInt + k.toInt)) ∧ r1 (.sandi d a k) (A &&& k.signExtend 64) ∧
    r1 (.sori d a k) (A ||| k.signExtend 64) ∧ r1 (.sxori d a k) (A ^^^ k.signExtend 64) ∧
    r0 (.smovi d j) (BitVec.ofInt 64 j.toInt) ∧
    r0 (.smovsh d j) (BitVec.ofNat 64 (D.toNat * 2 ^ 19) ||| BitVec.ofNat 64 j.toNat) ∧
    r1 (.smov d a) A ∧ r0 (.rdtime d) (BitVec.ofNat 64 s.ptb) ∧
    (n.toNat < 32 → r1 (.sshifti d a 0 0 n) (low32 (A.toInt * 2 ^ n.toNat)) ∧
      r1 (.sshifti d a 1 0 n) (low32 ((A.toNat % 2 ^ 32 / 2 ^ n.toNat : Nat) : Int)) ∧
      r1 (.sshifti d a 2 0 n) (low32 ((A.setWidth 32 : BitVec 32).toInt / 2 ^ n.toNat)) ∧
      r1 (.sshifti d a 3 0 n) (((A.setWidth 32 : BitVec 32).rotateRight n.toNat).signExtend 64)) ∧
    r1 (.sshifti d a 0 1 n) (BitVec.ofInt 64 (A.toInt * 2 ^ n.toNat)) ∧
    r1 (.sshifti d a 1 1 n) (BitVec.ofNat 64 (A.toNat / 2 ^ n.toNat)) ∧
    r1 (.sshifti d a 2 1 n) (BitVec.ofInt 64 (A.toInt / 2 ^ n.toNat)) ∧
    r1 (.sshifti d a 3 1 n) (A.rotateRight n.toNat)

/-- Table 3.3 for lane l of gang i of workgroup x, of a launch with record and order r. -/
def sysTable (s : State) (g : Gang) (x : Workgroup) (r : Launch) (i l n : Nat) : Word :=
  match n with
  | 0x0 => BitVec.ofNat 64 (i * 32 + l)
  | 0x1 => BitVec.ofNat 64 l
  | 0x2 => BitVec.ofNat 64 i
  | 0x3 => BitVec.ofNat 64 r.ngang
  | 0x4 => BitVec.ofNat 64 x.wgid
  | 0x5 => BitVec.ofNat 64 (s.chip * 1024 + x.core)
  | 0x6 => BitVec.ofNat 64 g.live.toNat
  | 0x7 => BitVec.ofNat 64 x.launch
  | 0x8 => (g.fcrOf l).setWidth 64
  | 0x9 => g.gstat
  | 0xA => BitVec.ofNat 64 (r.field 0x40 8)
  | 0xB => BitVec.ofNat 64 (if r.field 0x48 8 % 2 ^ 64 = 0 then 8 * 2 ^ 20 else r.field 0x48 8)
  | 0xC => BitVec.ofNat 64 (s.deadlineOf r.slice r.dladj)
  | 0xD => BitVec.ofNat 64 (r.field 0x10 8)
  | 0xE => BitVec.ofNat 64 (0xFF00000000000000 + x.home * 2 ^ 23)
  | _ => BitVec.ofNat 64 (r.field 0x28 8)

/-- R66, R106: reading a system register, by a thread and by a gang, on a compute core and on a service core. -/
def systemRegisterReadsRule : Prop :=
  (∀ (s : State) (g : Gang) (w i : Nat) (x : Workgroup) (r : Launch) (d : BitVec 6) (n : BitVec 12),
    s.cur = .gang w i → s.wg w = some x → s.launchOf x = some r → n.toNat ≤ 15 →
    LaneIs (.rdsr d n) { Use.regs [d.toNat] [] with fcr := n == 8 } s g d (fun l => sysTable s g x r i l n.toNat) ∧
    (s.mask ≠ 0 → UniIs (.srdsr d n) { Use.regs [] [d.toNat] with fcr := n == 8 } s g d
      (sysTable s g x r i ((lanesOf s.mask).headD 0) n.toNat))) ∧
  ∀ (s : State) (g : Gang) (c : Nat) (d : BitVec 6) (n : BitVec 12), s.cur = .core c → n.toNat ≤ 15 →
    LaneIs (.rdsr d n) { Use.regs [d.toNat] [] with fcr := n == 8 } s g d
      (fun l => if n = 8 then (g.fcrOf l).setWidth 64 else 0) ∧
    (s.mask = 1 → UniIs (.srdsr d n) { Use.regs [] [d.toNat] with fcr := n == 8 } s g d
      (if n = 8 then (g.fcrOf 0).setWidth 64 else 0))

/-- Every lane of m goes on at pc + 4 and may issue; lane registers, guards, uniform registers, values in flight, and what else the gang holds but
its `FCR`s and `GSTAT` are as they were. -/
structure OnlyStatus (g g' : Gang) (m : LaneMask) : Prop where
  pc : ∀ l, l < 32 → g'.pcOf l = if m.getLsbD l then g.pcOf l + 4 else g.pcOf l
  stat : ∀ l, l < 32 → g'.stat l = if m.getLsbD l then .ready else g.stat l
  regs : g'.v = g.v ∧ g'.s = g.s ∧ g'.g = g.g ∧ g'.flights = g.flights
  rest : { g'.withLanesOf g with gstat := g.gstat } = g

/-- R66, R68, R69, R106: a write of `FCR` replaces it in each thread, one of `GSTAT` clears the W1C bits written as 1, the union of the
threads' bits, and a write of any other register is ignored. -/
def Obligations.SystemRegisterWrites : Prop :=
  ∀ (s : State) (g : Gang) (h a k : BitVec 6),
    let n := h.toNat * 64 + k.toNat
    let A := fun l => g.vreg l a.toNat
    n ≤ 15 →
    Does (.wrsr h a k) { Use.regs [a.toNat] [] with fcr := decide (n = 8) } s g (fun g' => OnlyStatus g g' s.mask ∧
      (∀ l, l < 32 → g'.fcrOf l = if n = 8 ∧ s.mask.getLsbD l = true then (A l).setWidth 32 &&& 0x31F else g.fcrOf l) ∧
      ∀ j, j < 64 → g'.gstat.getLsbD j = (g.gstat.getLsbD j &&
        !(decide (n = 9) && decide (j ∈ [0, 2, 3, 4]) && (lanesOf s.mask).any fun l => (A l).getLsbD j))) ∧
    (¬UdivTraps s g 1 → Does (.swrsr h a k) { Use.regs [] [a.toNat] with fcr := decide (n = 8) } s g (fun g' =>
      OnlyStatus g g' s.mask ∧
      (∀ l, l < 32 → g'.fcrOf l =
        if n = 8 ∧ s.mask.getLsbD l = true then (g.sreg a.toNat).setWidth 32 &&& 0x31F else g.fcrOf l) ∧
      ∀ j, j < 64 → g'.gstat.getLsbD j =
        ((g.gstat.getLsbD j && !(decide (n = 9) && decide (j ∈ [0, 2, 3, 4]) && (g.sreg a.toNat).getLsbD j)) ||
          (decide (j = 0) && decide (n = 8 ∨ n = 9) && decide (g.live ≠ s.mask)))))

/-- R111: `addva` forms the exact sum; in the threads where it is a canonical address vd receives it. Where every thread's sum is, the
instruction completes in all of them; so does `saddva`. -/
def canonicalSumRule : Prop :=
  (∀ (s : State) (g : Gang) (d a b : BitVec 6) (u : BitVec 1),
    let sum := fun l => (g.vreg l a.toNat).toInt + (g.opB l b u).toInt
    (∀ l, s.mask.getLsbD l = true → -(2 ^ 56 : Int) ≤ sum l ∧ sum l < 2 ^ 56) →
    LaneIs (.addva d a b u) (useB [d, a] b u) s g d (fun l => BitVec.ofInt 64 (sum l))) ∧
  ∀ (s : State) (g : Gang) (d a b : BitVec 6),
    let sum := (g.sreg a.toNat).toInt + (g.sreg b.toNat).toInt
    sum < 2 ^ 56 → (-(2 ^ 56) : Int) ≤ sum →
    UniIs (.saddva d a b) (.regs [] [d.toNat, a.toNat, b.toNat]) s g d (BitVec.ofInt 64 sum)

/-- As `OnlyGang`, where the instruction also changes of the state what `back` restores, and of workgroups what `field` does. -/
structure OnlyAnd (s t : State) (g' : Gang) (back : State → State) (field : Workgroup → Workgroup → Workgroup) : Prop where
  issuer : t.gang s.cur = some g'
  others : ∀ a, a ≠ s.cur → t.gang a = s.gang a
  workgroups : ∀ w x, s.wg w = some x → ∃ y, t.wg w = some y ∧ { field y x with gangs := x.gangs, perf := x.perf } = x
  cores : ∀ i c, s.scalar i = some c → ∃ d, t.scalar i = some d ∧ { d with ctx := c.ctx } = c
  slices : ∀ h x, s.slice h = some x → ∃ y, t.slice h = some y ∧ { y with budget := x.budget, charged := x.charged } = x
  rest : back (t.withGangsOf s) = s
/-- Nothing of a workgroup differs but its gangs and counters. -/
def noneOf (y _x : Workgroup) : Workgroup := y
/-- R127: `rdbudget` writes the budget counter of the slice that the agent works for, as it stands when the issue has been charged (the instant
is the model's reading: log 116); 0 where there is none; and where another chip holds it the model's free value (log 30). -/
def budgetReadRule : Prop :=
  ∀ (s : State) (g : Gang) (d : BitVec 6), s.Admits (.regs [] [d.toNat]) g → ¬UdivTraps s g d →
    (∀ x, s.slice (s.sliceOf s.cur) = some x → ∃ t g' y, exec (.rdbudget d) s = .next t ∧ OnlyGang s t g' ∧
      t.slice (s.sliceOf s.cur) = some y ∧
      TookUniform g g' s.mask d.toNat (BitVec.ofInt 64 y.budget) (if d ≠ 0 ∧ g.live ≠ s.mask then 1 else 0)) ∧
    (s.slice (s.sliceOf s.cur) = none → s.foreignSlice (s.sliceOf s.cur) = none → ∃ t g', exec (.rdbudget d) s = .next t ∧ OnlyGang s t g' ∧
      TookUniform g g' s.mask d.toNat 0 (if d ≠ 0 ∧ g.live ≠ s.mask then 1 else 0)) ∧
    ((s.foreignSlice (s.sliceOf s.cur)).isSome = true → ∃ t g' x, exec (.rdbudget d) s = .next t ∧
      OnlyAnd s t g' (fun t => { t with free := s.free }) noneOf ∧
      TookUniform g g' s.mask d.toNat x (if d ≠ 0 ∧ g.live ≠ s.mask then 1 else 0))

/-- R66, R106, R127: reading a system register, and the budget counter. -/
def Obligations.SystemRegisterReads : Prop := systemRegisterReadsRule ∧ budgetReadRule

/-! ### Traps -/

/-- Every line that an L1 owns is there whole. -/
def LinesWhole (s : State) : Prop := ∀ c n x, Tab.find (s.l1At c) n = some x → x.owned = true → x.data.length = 128
/-- What a home holds is whole: an L1 owns a line where the line's home says so, and holds all 128 bytes of it. -/
def OwnersWhole (s : State) : Prop := LinesWhole s ∧ ∀ n c, (s.home n).owner = some c ↔ (s.ownedLine c n).isSome = true
/-- No strong store is pending on a line, and nothing is held there. -/
def LineFree (s : State) (n : Nat) : Prop := s.pendingOn n = none ∧ s.heldOn n = false
/-- A record r that is written at an address of a cluster stands there at once: its bytes lie one behind the other, nothing is on its way to
their lines and no lease there runs (R184, R265, R266). -/
def Stands (s t : State) (cluster : Nat) (va : Word) (r : List Byte) : Prop :=
  ∀ k, s.partKeys (s.ctxOf (.core cluster)) va r.length = .ok ((List.range r.length).map (k + ·)) → OwnersWhole s →
    (∀ n, n < r.length → LineFree s ((k + n) / 128) ∧ (s.home ((k + n) / 128)).lease ≤ s.ptb) →
    ∀ n, n < r.length → t.homeByte (k + n) = r.getD n 0

/-- A fault record of threads m of a gang of a compute core: it goes to a free slot of the cluster's fault ring; the part holds it, behind
those it holds already, where the ring has no room; and a ring that cannot be read is `WIREDFAULT` of the tenant whose work faults, which the
model takes to be the slice's (R266, R332, R333, R422; log 23). -/
structure Recorded (s t : State) (i : Nat) (x : Workgroup) (r : Launch) (m : LaneMask) (tr : Trap) : Prop where
  ring : ∀ base j, s.held (clusterOf x.core) = [] → s.ringRoom (clusterOf x.core) false = some (base, j) →
    t.held (clusterOf x.core) = [] ∧ Stands s t (clusterOf x.core) (base + BitVec.ofNat 64 (64 * j))
      (faultRecord s.ptb (gangHandle x i 6) m 0 tr r.slice r.pasid)
  held : s.held (clusterOf x.core) ≠ [] ∨ (s.ringRoom (clusterOf x.core) false = none ∧ s.ringBroken (clusterOf x.core) false = none) →
    t.held (clusterOf x.core) = s.held (clusterOf x.core) ++ [faultRecord s.ptb (gangHandle x i 6) m 0 tr r.slice r.pasid]
  broken : ∀ a, s.held (clusterOf x.core) = [] → s.ringBroken (clusterOf x.core) false = some a →
    t.held (clusterOf x.core) = [] ∧ t.tenants = (s.wiredFault (tenantOfSlice r.slice) a).tenants

/-- Threads m of the issuing group of a compute core are suspended by a fault, of which one record tells: what the group held stands, at the
instruction's own pc (R58, R332). -/
structure SuspendedIn (s t : State) (g : Gang) (i : Nat) (x : Workgroup) (r : Launch) (m : LaneMask) (tr : Trap) : Prop where
  gang : ∃ g', t.gang s.cur = some g' ∧ (∀ l, l < 32 → g'.stat l = if m.getLsbD l then .fault else g.stat l) ∧
    g'.v = g.v ∧ g'.s = g.s ∧ g'.g = g.g ∧ g'.pc = g.pc ∧ g'.fcr = g.fcr ∧ g'.faultLanes = g.faultLanes ||| m
  record : Recorded s t i x r m tr
  others : ∀ a, a ≠ s.cur → t.gang a = s.gang a
/-- The threads of the issuing group are suspended by fault `c`, whose record carries the instruction word. -/
def Suspended (s t : State) (g : Gang) (i : Nat) (x : Workgroup) (r : Launch) (c : Nat) : Prop :=
  SuspendedIn s t g i x r s.mask ⟨c, none, s.curWord, 0, 0, 0, s.curPc⟩

/-- A service core that is not in its handler takes a trap: `KCAUSE`, `KEPC` and `KTVAL` hold the cause, the pc and the value, and it
goes on at its handler and accepts no interrupt (R341). -/
structure Trapped (s t : State) (c : Nat) (k : Scalar) (cause epc tval : Word) : Prop where
  core : ∃ k', t.scalar c = some k' ∧ k'.kreg 1 = cause ∧ k'.kreg 2 = epc ∧ k'.kreg 3 = tval ∧ k'.handling = true ∧
    (∀ n, n ≠ 1 → n ≠ 2 → n ≠ 3 → k'.kreg n = k.kreg n) ∧ k'.ctx.pcOf 0 = 0xFFFFFF0000000000 ∧
    k'.ctx.v = k.ctx.v ∧ k'.ctx.s = k.ctx.s
  others : ∀ j, j ≠ c → t.scalar j = s.scalar j
  memory : t.mem = s.mem

/-- The issuing group of a compute core: gang i of workgroup w. -/
structure OnCompute (s : State) (g : Gang) (w i : Nat) (x : Workgroup) (r : Launch) : Prop where
  cur : s.cur = .gang w i
  wg : s.wg w = some x
  launch : s.launchOf x = some r
  gang : Tab.find x.gangs i = some g
  some : s.mask ≠ 0
/-- The issuing service core. -/
structure OnService (s : State) (c : Nat) (k : Scalar) : Prop where
  cur : s.cur = .core c
  core : s.scalar c = some k
  one : s.mask = 1
  free : k.handling = false

/-! ### The forms of the instruction set -/

/-- Values of the fields of an instruction word. -/
structure Fields where
  d : BitVec 6
  a : BitVec 6
  b : BitVec 6
  k : BitVec 6
  u : BitVec 1
  n : BitVec 1
  e : BitVec 1
  g : BitVec 3
  c : BitVec 3
  g2 : BitVec 2
  w : BitVec 2
  p : BitVec 5
  q : BitVec 5
  m : BitVec 4
  l : BitVec 4
  i7 : BitVec 7
  i8 : BitVec 8
  i11 : BitVec 11
  i12 : BitVec 12
  i13 : BitVec 13
  i15 : BitVec 15
  i19 : BitVec 19
  i21 : BitVec 21
  i25 : BitVec 25
  deriving DecidableEq, Repr

/-- The lane instructions of IALU, FALU, packed and quantising arithmetic with two sources. -/
def twoSourceForms (f : Fields) : List Instr :=
  [Instr.addW f.d f.a f.b f.u, .addD f.d f.a f.b f.u, .subW f.d f.a f.b f.u, .subD f.d f.a f.b f.u, .mulW f.d f.a f.b f.u,
    .mulD f.d f.a f.b f.u, .mulhD f.d f.a f.b f.u, .mulhuD f.d f.a f.b f.u, .madW f.d f.a f.b f.u, .madD f.d f.a f.b f.u,
    .and f.d f.a f.b f.u, .or f.d f.a f.b f.u, .xor f.d f.a f.b f.u, .andn f.d f.a f.b f.u] ++
  [Instr.shlW f.d f.a f.b f.u, .shlD f.d f.a f.b f.u, .shrW f.d f.a f.b f.u, .shrD f.d f.a f.b f.u, .sraW f.d f.a f.b f.u,
    .sraD f.d f.a f.b f.u, .rotW f.d f.a f.b f.u, .rotD f.d f.a f.b f.u, .min f.d f.a f.b f.u, .max f.d f.a f.b f.u,
    .minu f.d f.a f.b f.u, .maxu f.d f.a f.b f.u, .bfe f.d f.a f.b f.u, .bfeu f.d f.a f.b f.u, .bfi f.d f.a f.b f.u,
    .slt f.d f.a f.b f.u, .sltu f.d f.a f.b f.u, .seq f.d f.a f.b f.u, .sne f.d f.a f.b f.u, .addva f.d f.a f.b f.u] ++
  [Instr.fadd f.d f.a f.b f.u, .fsub f.d f.a f.b f.u, .fmul f.d f.a f.b f.u, .ffma f.d f.a f.b f.u, .fmin f.d f.a f.b f.u,
    .fmax f.d f.a f.b f.u, .fcpysgn f.d f.a f.b f.u, .faddS f.d f.a f.b f.u, .fsubS f.d f.a f.b f.u, .fmulS f.d f.a f.b f.u,
    .ffmaS f.d f.a f.b f.u, .fminS f.d f.a f.b f.u, .fmaxS f.d f.a f.b f.u, .fcpysgnS f.d f.a f.b f.u] ++
  [Instr.hadd2 f.d f.a f.b f.u, .hmul2 f.d f.a f.b f.u, .hfma2 f.d f.a f.b f.u, .hmax2 f.d f.a f.b f.u, .badd2 f.d f.a f.b f.u,
    .bmul2 f.d f.a f.b f.u, .bfma2 f.d f.a f.b f.u, .bmax2 f.d f.a f.b f.u, .qe4m3 f.d f.a f.b f.u f.e, .qe5m2 f.d f.a f.b f.u f.e,
    .qe2m1 f.d f.a f.b f.u f.e, .qi8 f.d f.a f.b f.u f.e]
/-- Those with one source, and the immediate majors. -/
def oneSourceForms (f : Fields) : List Instr :=
  [Instr.abs f.d f.a, .clz f.d f.a, .popc f.d f.a, .brev f.d f.a, .fabs f.d f.a, .fneg f.d f.a, .fclass f.d f.a, .fabsS f.d f.a,
    .fnegS f.d f.a, .fclassS f.d f.a, .cvt f.d f.a f.g f.c, .de4m3 f.d f.a, .de5m2 f.d f.a, .de2m1 f.d f.a, .addiW f.d f.a f.i13,
    .addiD f.d f.a f.i13, .andi f.d f.a f.i13, .ori f.d f.a f.i13, .xori f.d f.a f.i13, .shifti f.d f.a f.w f.e f.k]
/-- Every lane instruction that completes at issue and has no lookahead count, with what it names. -/
def plainForms (f : Fields) : List (Instr × Use) :=
  ((twoSourceForms f).map fun i => (i, useB [f.d, f.a] f.b f.u)) ++
  ((oneSourceForms f).map fun i => (i, Use.regs [f.d.toNat, f.a.toNat] [])) ++
  [(.mov f.d f.b f.u, useB [f.d] f.b f.u), (.sel f.d f.a f.b f.u f.n f.g, { useB [f.d, f.a] f.b f.u with guards := [f.g.toNat] }),
    (.rdsr f.d f.i12, { Use.regs [f.d.toNat] [] with fcr := f.i12 == 8 }),
    (.wrsr f.d f.a f.k, { Use.regs [f.a.toNat] [] with fcr := decide (f.d.toNat * 64 + f.k.toNat = 8) }),
    (.movgv f.d, { Use.regs [f.d.toNat] [] with guards := List.range 8 }),
    (.movvg f.b f.u, { useB [] f.b f.u with guards := [1, 2, 3, 4, 5, 6, 7] }), (.lanemask f.d f.k, .regs [f.d.toNat] []),
    (.movi f.d f.i19, .regs [f.d.toNat] []), (.movsh f.d f.i19, .regs [f.d.toNat] [])] ++
  [Instr.icmpW f.g f.a f.b f.u f.c, .icmpD f.g f.a f.b f.u f.c, .fcmpS f.g f.a f.b f.u f.c, .fcmpD f.g f.a f.b f.u f.c].map fun i =>
    (i, { useB [f.a] f.b f.u with guards := [f.g.toNat] })
/-- Every lane instruction with a lookahead count that puts its destination in flight, with the lane registers of its destination and what it
names. -/
def flyingForms (f : Fields) : List (Instr × List Nat × Use) :=
  let d := f.d.toNat
  let base := useB [] f.a f.u
  let load := fun (i : Instr) => (i, [d], { base with lanes := d :: base.lanes, mem := true })
  (([Instr.div f.d f.a f.b f.u f.l, .rem f.d f.a f.b f.u f.l, .divu f.d f.a f.b f.u f.l, .remu f.d f.a f.b f.u f.l,
      .divS f.d f.a f.b f.u f.l, .divD f.d f.a f.b f.u f.l] : List Instr).map fun i => (i, [d], useB [f.d, f.a] f.b f.u)) ++
  (([Instr.rcpS f.d f.a f.l, .rsqS f.d f.a f.l, .sqrtS f.d f.a f.l, .rcpD f.d f.a f.l, .rsqD f.d f.a f.l, .sqrtD f.d f.a f.l,
      .exp2 f.d f.a f.l, .log2 f.d f.a f.l, .sinpi f.d f.a f.l, .cospi f.d f.a f.l] : List Instr).map fun i =>
    (i, [d], Use.regs [d, f.a.toNat] [])) ++
  (([Instr.ldb f.d f.a f.u f.i8 f.l, .ldbu f.d f.a f.u f.i8 f.l, .ldh f.d f.a f.u f.i8 f.l, .ldhu f.d f.a f.u f.i8 f.l,
      .ldw f.d f.a f.u f.i8 f.l, .ldwu f.d f.a f.u f.i8 f.l, .ldd f.d f.a f.u f.i8 f.l] : List Instr).map load) ++
  [(.ldq f.p f.a f.u f.i8 f.l, [2 * f.p.toNat, 2 * f.p.toNat + 1],
      { base with lanes := [2 * f.p.toNat, 2 * f.p.toNat + 1] ++ base.lanes, mem := true })] ++
  (if f.w.toNat ≤ 2 then [load (.lda f.d f.a f.u f.w f.g f.c f.l)] else []) ++
  (([Instr.amadd f.g2 f.d f.a f.b f.u f.l, .ammin f.g2 f.d f.a f.b f.u f.l, .ammax f.g2 f.d f.a f.b f.u f.l,
      .amumin f.g2 f.d f.a f.b f.u f.l, .amumax f.g2 f.d f.a f.b f.u f.l, .amand f.g2 f.d f.a f.b f.u f.l, .amor f.g2 f.d f.a f.b f.u f.l,
      .amxor f.g2 f.d f.a f.b f.u f.l, .amswap f.g2 f.d f.a f.b f.u f.l, .amcas f.g2 f.d f.a f.b f.u f.l,
      .amfadd f.g2 f.d f.a f.b f.u f.l] : List Instr).map fun i =>
    (i, [d], { Use.regs [d, f.a.toNat, f.b.toNat] [] with guards := [f.g2.toNat], mem := true }))
/-- Every other instruction of a compute core that names lane registers or guards. -/
def otherLaneForms (f : Fields) : List (Instr × Use) :=
  let base := useB [] f.b f.u
  let store := fun (i : Instr) (rs : List Nat) => (i, { base with lanes := rs ++ base.lanes, guards := [f.g.toNat], mem := true })
  let cross := fun (i : Instr) (rs : List Nat) => (i, { Use.regs rs [] with allow := 1 })
  let d := f.d.toNat
  let a := f.a.toNat
  let pair := fun (n : Nat) => [2 * n, 2 * n + 1]
  let four := fun (n : Nat) => [4 * n, 4 * n + 1, 4 * n + 2, 4 * n + 3]
  let array := fun (i : Instr) (rs : List Nat) => (i, { Use.regs [a] rs with allow := 1 })
  [(.waitne f.d f.a f.b f.u, { useB [f.d, f.a] f.b f.u with mem := true }),
    store (.stb f.n f.g f.a f.b f.u f.i8) [a], store (.sth f.n f.g f.a f.b f.u f.i8) [a], store (.stw f.n f.g f.a f.b f.u f.i8) [a],
    store (.std f.n f.g f.a f.b f.u f.i8) [a], store (.stq f.n f.g f.p f.b f.u f.i8) (pair f.p.toNat)] ++
  (if f.w.toNat ≤ 2 then [store (.str f.n f.g f.a f.b f.u f.w f.c f.c) (if f.w.toNat = 2 then [a, a + 1] else [a])] else []) ++
  [(.br f.n f.g f.i21, { Use.regs [] [] with guards := [f.g.toNat] }), (.call f.i25, .regs [62] []), (.jr f.b f.u, base),
    (.callr f.b f.u, useB [62#6] f.b f.u), (.ret, .regs [62] []), (.syscall f.i15 f.l, .regs [1, 2, 3, 4, 5, 6] [])] ++
  [(.cvquery f.d f.c f.b f.u, { useB [f.d] f.b f.u with allow := 1 }), cross (.xshfl f.d f.a f.b f.c f.l) [d, a, f.b.toNat],
    cross (.xshxor f.d f.a f.p f.c f.l) [d, a], cross (.xred f.d f.a f.p f.c f.l) [d, a], cross (.xscan f.d f.a f.e f.p f.c f.l) [d, a],
    cross (.xvote f.d f.a f.k f.c f.l) [d, a], cross (.xmatch f.d f.a f.c f.l) [d, a],
    (.spawn f.d f.a f.g f.l, { Use.regs [d, a] [] with allow := 1, mem := true, guards := [f.g.toNat] })] ++
  [array (.mma f.c f.a f.p f.q f.l) (pair f.p.toNat ++ pair f.q.toNat), array (.mdrain f.c f.a f.p f.q f.l) (pair f.p.toNat ++ pair f.q.toNat),
    array (.mzero f.c f.a f.l) [], array (.mload f.c f.a f.p f.l) (pair f.p.toNat), array (.mstore f.c f.a f.p f.l) (pair f.p.toNat),
    array (.mquant f.c f.a f.m f.l) (four f.m.toNat), array (.mhad f.c f.a f.m f.l) (four f.m.toNat)]
/-- The uniform arithmetic with two sources. -/
def uniformForms (f : Fields) : List Instr :=
  [Instr.saddW f.d f.a f.b, .saddD f.d f.a f.b, .ssubW f.d f.a f.b, .ssubD f.d f.a f.b, .smulW f.d f.a f.b, .smulD f.d f.a f.b,
    .smulhD f.d f.a f.b, .smulhuD f.d f.a f.b, .smadW f.d f.a f.b, .smadD f.d f.a f.b, .sand f.d f.a f.b, .sor f.d f.a f.b,
    .sxor f.d f.a f.b, .sandn f.d f.a f.b, .sshlW f.d f.a f.b, .sshlD f.d f.a f.b] ++
  [Instr.sshrW f.d f.a f.b, .sshrD f.d f.a f.b, .ssraW f.d f.a f.b, .ssraD f.d f.a f.b, .srotW f.d f.a f.b, .srotD f.d f.a f.b,
    .smin f.d f.a f.b, .smax f.d f.a f.b, .sminu f.d f.a f.b, .smaxu f.d f.a f.b, .sbfe f.d f.a f.b, .sbfeu f.d f.a f.b,
    .sbfi f.d f.a f.b, .sslt f.d f.a f.b, .ssltu f.d f.a f.b, .sseq f.d f.a f.b, .ssne f.d f.a f.b]
/-- Every instruction of a compute core whose result is written to uniform register d of the issuing gang when it issues, whatever the state,
with what it names. -/
def UniformWriter (f : Fields) (p : Instr × Use) : Prop :=
  let two := Use.regs [] [f.d.toNat, f.a.toNat]
  let three := Use.regs [] [f.d.toNat, f.a.toNat, f.b.toNat]
  p ∈ ((uniformForms f).map fun i => (i, three)) ++
  (([Instr.sabs f.d f.a, .sclz f.d f.a, .spopc f.d f.a, .sbrev f.d f.a, .saddi f.d f.a f.i13, .sandi f.d f.a f.i13, .sori f.d f.a f.i13,
      .sxori f.d f.a f.i13, .sshifti f.d f.a f.w f.e f.k, .smov f.d f.a, .schr f.d f.a f.e f.m, .schcommit f.d f.a,
      .cntrd f.d f.a f.k f.l] : List Instr).map fun i => (i, two)) ++
  [(.smovi f.d f.i19, .regs [] [f.d.toNat]), (.smovsh f.d f.i19, .regs [] [f.d.toNat]), (.rdtime f.d, .regs [] [f.d.toNat]),
    (.rdbudget f.d, .regs [] [f.d.toNat]), (.srdsr f.d f.i12, { Use.regs [] [f.d.toNat] with fcr := f.i12 == 8 }),
    (.tstat f.d f.k f.l, { Use.regs [] [f.d.toNat] with allow := 1 })]
/-- Every other instruction of a compute core that ends with a write of uniform register d: it traps before it does anything. -/
def UniformActor (f : Fields) (p : Instr × Use) : Prop :=
  let two := Use.regs [] [f.d.toNat, f.a.toNat]
  let three := Use.regs [] [f.d.toNat, f.a.toNat, f.b.toNat]
  let none' := Use.regs [] [f.d.toNat, f.a.toNat, 0]
  let q := 4 * f.m.toNat
  let back := Use.regs [] [f.d.toNat, q, q + 1, q + 2, q + 3, f.b.toNat]
  p ∈ [(Instr.barinit f.d f.a f.b f.l, { three with allow := 1, mem := true }), (.bararrive f.d f.a f.l, { two with allow := 1, mem := true }),
    (.barexpect f.d f.a f.b f.l, { three with mem := true }), (.barwait f.d f.a f.b f.l, { three with allow := 1, mem := true }),
    (.bartry f.d f.a f.b f.l, { three with mem := true }), (.barpoison f.d f.a f.l, { two with mem := true })] ++
  [(.cpy f.d f.a f.l, { two with allow := 1, mem := true }), (.cpystat f.d f.a f.l, two), (.cpywait f.d f.a f.l, two),
    (.cpycancelCancel f.d f.a f.l, two), (.rlock f.d f.a f.b f.l, { three with allow := 1, mem := true }),
    (.runlock f.d f.a f.l, { two with allow := 1 }), (.tretire f.d f.m f.b f.l, { back with allow := 1 }),
    (.tgive f.d f.m f.b f.l, { back with allow := 1 })] ++
  [(.launch f.d f.a 0 f.l, { none' with mem := true }), (.launchp f.d f.a 0 f.l, { none' with mem := true }),
    (.graphsub f.d f.a f.b f.l, { three with mem := true }), (.cancelDrain f.d f.a f.l, two), (.cancelKill f.d f.a f.l, two),
    (.waitdone f.d f.a f.l, two)]
/-- The instructions of a compute core that name uniform registers only and are not in those two lists: they wait, or write elsewhere. -/
def OtherUniformForm (f : Fields) (p : Instr × Use) : Prop :=
  let q := 4 * f.m.toNat
  p ∈ [(Instr.swrsr f.d f.a f.k, { Use.regs [] [f.a.toNat] with fcr := decide (f.d.toNat * 64 + f.k.toNat = 8) }),
    (.saddva f.d f.a f.b, .regs [] [f.d.toNat, f.a.toNat, f.b.toNat]), (.schw f.d f.a f.m, .regs [] [f.d.toNat, f.a.toNat]),
    (.cntwait f.d f.a f.b f.l, .regs [] [f.d.toNat, f.a.toNat, f.b.toNat]),
    (.sld f.d f.a f.w f.i7 f.l, { Use.regs [] [f.d.toNat, f.a.toNat] with mem := true }),
    (.sst f.a f.b f.w f.i11, { Use.regs [] [f.a.toNat, f.b.toNat] with mem := true }),
    (.fenceWct f.d f.c, { Use.regs [] [f.d.toNat] with mem := true }),
    (.tfetch f.m f.l, { Use.regs [] [q, q + 1, q + 2, q + 3] with allow := 1 }),
    (.cvset f.c f.p, { Use.regs [] [2 * f.p.toNat, 2 * f.p.toNat + 1] with allow := 1 })]
/-- Every instruction of a compute core that names registers, with what it names. -/
def NamingForm (f : Fields) (p : Instr × Use) : Prop :=
  p ∈ plainForms f ∨ (∃ q ∈ flyingForms f, p = (q.1, q.2.2)) ∨ p ∈ otherLaneForms f ∨ UniformWriter f p ∨ UniformActor f p ∨ OtherUniformForm f p

/-! ### Traps of each kind -/

/-- R29, R92 Table 4.6 step 3: an instruction of a service core raises `PRIV` on a compute core. That `cpycancel.resume` and `cpycancel.fail`
do so before any other check is the model's reading (log 102). -/
def privilegedWordsTrapOnComputeCoresRule : Prop :=
  ∀ (s : State) (g : Gang) (w i : Nat) (x : Workgroup) (r : Launch) (d a b : BitVec 6) (l : BitVec 4) (p q : BitVec 5),
    OnCompute s g w i x r →
    ∀ j ∈ [Instr.msgsend d a b l, .msgrecv d a b l, .msgpoll d l, .crpop d a l, .resume d p q l, .resumeall d p q l,
        .crfwd d a b l, .krd d a, .kwr a b, .tlbinv d a b, .kret, .idle, .ctxevict d a l, .ctxpin d a b l, .gangkill d a b l,
        .wgkill d a b l, .ctxstat d a l, .setdeadline d a b, .cntadd d a b l, .cpycancelResume d a l, .cpycancelFail d a l],
      ∃ t, exec j s = .next t ∧ Suspended s t g i x r 2

/-- R30, R92: an instruction of compute cores only raises `ILLEGAL` on a service core. That `KTVAL` holds the instruction word, and that the
check comes before those of registers, is the model's reading (logs 42, 102). -/
def computeWordsTrapOnServiceCoresRule : Prop :=
  ∀ (s : State) (c : Nat) (k : Scalar) (f : Fields), OnService s c k →
    ∀ j ∈ [Instr.exit, .cvset f.c f.p, .cvsetGrp f.c, .cvwait f.c, .cvquery f.d f.c f.b f.u, .cvclear f.c, .xshfl f.d f.a f.b f.c f.l,
        .xshxor f.d f.a f.p f.c f.l, .xred f.d f.a f.p f.c f.l, .xscan f.d f.a f.e f.p f.c f.l, .xvote f.d f.a f.k f.c f.l,
        .xmatch f.d f.a f.c f.l, .spawn f.d f.a f.g f.l] ++
      [Instr.mma f.c f.a f.p f.q f.l, .mdrain f.c f.a f.p f.q f.l, .mzero f.c f.a f.l, .mload f.c f.a f.p f.l, .mstore f.c f.a f.p f.l,
        .mquant f.c f.a f.m f.l, .mhad f.c f.a f.m f.l, .bararrive f.d f.a f.l, .barwait f.d f.a f.b f.l, .barinit f.d f.a f.b f.l,
        .cpy f.d f.a f.l, .rlock f.d f.a f.b f.l, .runlock f.d f.a f.l, .tfetch f.m f.l, .tretire f.d f.m f.b f.l, .tgive f.d f.m f.b f.l,
        .tstat f.d f.k f.l],
      ∃ t, exec j s = .next t ∧ Trapped s t c k 1 (k.ctx.pcOf 0) s.curWord

/-- R29, R30, R92: an instruction of the other kind of core raises `PRIV` on a compute core and `ILLEGAL` on a service core. What a service
core's `KTVAL` holds, which check comes first, and whose tenant a broken fault ring kills, are the model's readings (logs 42, 102, 23). -/
def Obligations.WordsOfTheOtherKindTrap : Prop := privilegedWordsTrapOnComputeCoresRule ∧ computeWordsTrapOnServiceCoresRule

/-- R91, R92: a word that encodes no instruction raises `ILLEGAL`, on both kinds of core; on a compute core one of a privileged major
(U majors 0x12 to 0x15) raises `PRIV`, the check that comes first. -/
def unassignedWordsTrapRule : Prop :=
  (∀ (s : State) (g : Gang) (w i : Nat) (x : Workgroup) (r : Launch) (z : BitVec 32), OnCompute s g w i x r →
    ∃ t, exec (.unassignedWord z) s = .next t ∧
      Suspended s t g i x r (if 0x52 ≤ z.toNat / 2 ^ 25 ∧ z.toNat / 2 ^ 25 ≤ 0x55 then 2 else 1)) ∧
  ∀ (s : State) (c : Nat) (k : Scalar) (z : BitVec 32), OnService s c k →
    ∃ t, exec (.unassignedWord z) s = .next t ∧ Trapped s t c k 1 (k.ctx.pcOf 0) s.curWord

/-- R59: an instruction that names a lane register which the declared count does not admit raises `ILLEGAL`. -/
def unavailableRegistersTrapRule : Prop :=
  ∀ (s : State) (g : Gang) (w i : Nat) (x : Workgroup) (r : Launch) (f : Fields), OnCompute s g w i x r →
    ∀ p, NamingForm f p → (∃ n ∈ p.2.lanes, g.available n = false) → ∃ t, exec p.1 s = .next t ∧ Suspended s t g i x r 1

/-- A window protects what an instruction names (R85). -/
def protects (u : Use) : Dest → Prop
  | .lanes regs guard => (∃ n ∈ regs, n ∈ u.lanes) ∨ ∃ n ∈ u.guards, guard = some n
  | .uniforms regs => ∃ n ∈ regs, n ∈ u.unis
  | .tiles _ _ => False
/-- R85: an instruction that lies in an open window and names what it protects raises `LOOKAHEAD` in the threads concerned, and only there (that
the others of the group then issue it again is the model's choice: log 90). -/
def lookaheadTrapRule : Prop :=
  ∀ (s : State) (g : Gang) (w i : Nat) (x : Workgroup) (r : Launch) (f : Fields), OnCompute s g w i x r →
    ∀ p, NamingForm f p → (∀ n ∈ p.2.lanes, g.available n = true) → ∀ m : LaneMask, m ≠ 0 →
      (∀ l, l < 32 → (m.getLsbD l = true ↔ s.mask.getLsbD l = true ∧ ∃ k ∈ g.windows, k.lane = l ∧ protects p.2 k.dest)) →
      ∃ t, exec p.1 s = .next t ∧ SuspendedIn s t g i x r m ⟨3, none, s.curWord, 0, 0, 0, s.curPc⟩

/-- The windows of a lane once an instruction with a lookahead count has completed there: each open one has one instruction left fewer, those
that had one left are gone, and a count above 0 opens one of as many instructions on the destination (R85 to R87). -/
def windowsAfter (g : Gang) (l count : Nat) (dest : Dest) : List Window :=
  ((g.windows.filter fun w => w.lane = l && decide (1 < w.left)).map fun w => { w with left := w.left - 1 }) ++
    if count = 0 then [] else [⟨l, count, dest⟩]
/-- Where an instruction completes in a thread it leaves these windows there. -/
def LeavesWindows (i : Instr) (us : Use) (s : State) (g : Gang) (count : Nat) (dest : Dest) : Prop :=
  s.Admits us g → ∀ t g', exec i s = .next t → t.gang s.cur = some g' → ∀ l, s.mask.getLsbD l = true →
    g'.pcOf l = g.pcOf l + 4 → g'.stat l = .ready → (g'.windows.filter fun w => w.lane = l) = windowsAfter g l count dest
/-- R85 to R88: a lookahead count opens a window on the destination of a long-latency instruction, a load, an atomic, a uniform load, and an
instruction of U format that writes a uniform register; an instruction without one opens none; each instruction that a thread completes
counts in its open windows. -/
def windowsOpenRule : Prop :=
  ∀ (s : State) (g : Gang) (f : Fields),
    (∀ p ∈ flyingForms f, LeavesWindows p.1 p.2.2 s g f.l.toNat (.lanes p.2.1 none)) ∧
    (∀ p ∈ plainForms f, LeavesWindows p.1 p.2 s g 0 (.lanes [] none)) ∧
    (let one : Dest := .uniforms [f.d.toNat]
     let count := if f.d = 0 then 0 else f.l.toNat
     (¬UdivTraps s g 1 → LeavesWindows (.sld f.d f.a f.w f.i7 f.l) { Use.regs [] [f.d.toNat, f.a.toNat] with mem := true } s g count one) ∧
     LeavesWindows (.cntrd f.d f.a f.k f.l) (.regs [] [f.d.toNat, f.a.toNat]) s g count one ∧
     LeavesWindows (.tstat f.d f.k f.l) { Use.regs [] [f.d.toNat] with allow := 1 } s g count one ∧
     LeavesWindows (.msgpoll f.d f.l) { Use.regs [] [f.d.toNat] with allow := 2 } s g count one)

/-- R59, R85 to R88: naming a register that the declared count does not admit, or one that a lookahead window protects, raises its fault; and
when windows open and end. Whose tenant a broken fault ring kills, and what becomes of the threads that a window does not concern, are the
model's readings (logs 23, 90). -/
def Obligations.RegisterAndLookaheadTraps : Prop := unavailableRegistersTrapRule ∧ lookaheadTrapRule ∧ windowsOpenRule

/-- R25: where the launch traps it, a uniform write by a group that is not all of its gang's live threads sets `GSTAT.UDIV` and raises
`UDIV` in place of the write; so do `sld` and `sst`, and a write of `FCR` or `GSTAT` by `swrsr`. Whose tenant a broken fault ring kills is
the model's reading (log 23). -/
def Obligations.DivergedUniformWriteTraps : Prop :=
  ∀ (s : State) (g : Gang) (w i : Nat) (x : Workgroup) (r : Launch) (f : Fields), OnCompute s g w i x r →
    let traps := fun (j : Instr) (us : Use) => s.Admits us g →
      ∃ t, exec j s = .next t ∧ Suspended s t g i x r 0x16 ∧ ∃ g', t.gang s.cur = some g' ∧ g'.gstat = g.gstat ||| 1
    (UdivTraps s g f.d → ∀ p, UniformWriter f p ∨ UniformActor f p → traps p.1 p.2) ∧
    (UdivTraps s g f.d → (let sum := (g.sreg f.a.toNat).toInt + (g.sreg f.b.toNat).toInt; (-(2 ^ 56) : Int) ≤ sum ∧ sum < 2 ^ 56) →
      traps (.saddva f.d f.a f.b) (.regs [] [f.d.toNat, f.a.toNat, f.b.toNat])) ∧
    (UdivTraps s g f.d → s.levelOrOwn f.a = none →
      traps (.cntwait f.d f.a f.b f.l) (.regs [] [f.d.toNat, f.a.toNat, f.b.toNat])) ∧
    (UdivTraps s g 1 →
      (f.m ≠ 0 → let q := 4 * f.m.toNat; traps (.tfetch f.m f.l) { Use.regs [] [q, q + 1, q + 2, q + 3] with allow := 1 }) ∧
      traps (.sld f.d f.a f.w f.i7 f.l) { Use.regs [] [f.d.toNat, f.a.toNat] with mem := true } ∧
      traps (.sst f.a f.b f.w f.i11) { Use.regs [] [f.a.toNat, f.b.toNat] with mem := true } ∧
      ∀ n, n = 8 ∨ n = 9 → f.d.toNat * 64 + f.k.toNat = n →
        traps (.swrsr f.d f.a f.k) { Use.regs [] [f.a.toNat] with fcr := decide (n = 8) })

/-- R111: where the sum of `addva` is no canonical address, or that of `saddva`, the thread faults `PROT` with the sum as the faulting address
and its destination is unchanged; the other threads complete. On a service core the sum is in `KTVAL`. -/
def noncanonicalSumTrapsRule : Prop :=
  (∀ (s : State) (g : Gang) (w i : Nat) (x : Workgroup) (r : Launch) (d a b : BitVec 6) (u : BitVec 1), OnCompute s g w i x r →
    s.Admits (useB [d, a] b u) g →
    let sum := fun l => (g.vreg l a.toNat).toInt + (g.opB l b u).toInt
    let addr := fun l => BitVec.ofInt 64 (sum l)
    ∀ m : LaneMask, m ≠ 0 →
      (∀ l, l < 32 → (m.getLsbD l = true ↔ s.mask.getLsbD l = true ∧ ¬((-(2 ^ 56) : Int) ≤ sum l ∧ sum l < 2 ^ 56))) →
      ∃ t g', exec (.addva d a b u) s = .next t ∧ t.gang s.cur = some g' ∧ (∀ c, c ≠ s.cur → t.gang c = s.gang c) ∧
        (∀ l n, l < 32 → n < 64 → g'.vreg l n =
          if s.mask.getLsbD l = true ∧ m.getLsbD l = false ∧ n = d.toNat then addr l else g.vreg l n) ∧
        (∀ l, l < 32 → g'.pcOf l = if s.mask.getLsbD l = true ∧ m.getLsbD l = false then g.pcOf l + 4 else g.pcOf l) ∧
        (∀ l, l < 32 → g'.stat l = if m.getLsbD l then .fault else if s.mask.getLsbD l then .ready else g.stat l) ∧
        g'.s = g.s ∧ (∀ l n, l < 32 → n < 8 → g'.guard l n = g.guard l n) ∧ (∀ l, l < 32 → g'.fcrOf l = g.fcrOf l) ∧
        g'.flights = g.flights ∧ g'.faultLanes = g.faultLanes ||| m ∧
        ∀ k, m.getLsbD k = true → (∀ l, l < k → m.getLsbD l = false) →
          (∀ l, m.getLsbD l = true → (addr l).toNat / 4096 = (addr k).toNat / 4096 ∧ g.pcOf l = g.pcOf k) →
          Recorded s t i x r m ⟨8, some (addr k), addr k, 0, 0, 0, g.pcOf k⟩) ∧
  (∀ (s : State) (g : Gang) (w i : Nat) (x : Workgroup) (r : Launch) (d a b : BitVec 6), OnCompute s g w i x r →
    s.Admits (.regs [] [d.toNat, a.toNat, b.toNat]) g →
    let sum := (g.sreg a.toNat).toInt + (g.sreg b.toNat).toInt
    ¬((-(2 ^ 56) : Int) ≤ sum ∧ sum < 2 ^ 56) →
    ∃ t, exec (.saddva d a b) s = .next t ∧
      SuspendedIn s t g i x r s.mask ⟨8, some (BitVec.ofInt 64 sum), BitVec.ofInt 64 sum, 0, 0, 0, s.curPc⟩) ∧
  ∀ (s : State) (c : Nat) (k : Scalar) (d a b : BitVec 6) (u : BitVec 1), OnService s c k →
    (s.Admits (useB [d, a] b u) k.ctx →
      let sum := (k.ctx.vreg 0 a.toNat).toInt + (k.ctx.opB 0 b u).toInt
      ¬((-(2 ^ 56) : Int) ≤ sum ∧ sum < 2 ^ 56) →
      ∃ t, exec (.addva d a b u) s = .next t ∧ Trapped s t c k 8 (k.ctx.pcOf 0) (BitVec.ofInt 64 sum)) ∧
    (s.Admits (.regs [] [d.toNat, a.toNat, b.toNat]) k.ctx →
      let sum := (k.ctx.sreg a.toNat).toInt + (k.ctx.sreg b.toNat).toInt
      ¬((-(2 ^ 56) : Int) ≤ sum ∧ sum < 2 ^ 56) →
      ∃ t, exec (.saddva d a b) s = .next t ∧ Trapped s t c k 8 (k.ctx.pcOf 0) (BitVec.ofInt 64 sum))

/-- R111: `addva` and `saddva` complete where the sum is a canonical address; in each thread whose sum is not they fault. What `KTVAL` holds, and
whose tenant a broken fault ring kills, are the model's readings (logs 42, 23). -/
def Obligations.CanonicalSums : Prop := canonicalSumRule ∧ noncanonicalSumTrapsRule

/-- R134: `bkpt` faults `BKPT` in each thread of the group, at its own pc, with its number in the record; a service core traps. -/
def breakpointTrapsRule : Prop :=
  (∀ (s : State) (g : Gang) (w i : Nat) (x : Workgroup) (r : Launch) (n : BitVec 12), OnCompute s g w i x r →
    s.Admits (.regs [] []) g → ∃ t, exec (.bkpt n) s = .next t ∧
      SuspendedIn s t g i x r s.mask ⟨0x11, none, 0, n.toNat, 0, 0, s.curPc⟩) ∧
  ∀ (s : State) (c : Nat) (k : Scalar) (n : BitVec 12), OnService s c k → s.Admits (.regs [] []) k.ctx →
    ∃ t, exec (.bkpt n) s = .next t ∧ Trapped s t c k 0x11 (k.ctx.pcOf 0) s.curWord

/-- R91, R92, R134: an unassigned word and `bkpt` raise their faults, on both kinds of core. What a service core's `KTVAL` holds, and whose
tenant a broken fault ring kills, are the model's readings (logs 42, 23), and so is that a privileged major of no row is `PRIV` first (log
82). -/
def Obligations.UnassignedWordsAndBreakpointsTrap : Prop := unassignedWordsTrapRule ∧ breakpointTrapsRule

/-! ### Control (R130 to R143) -/

/-- A transfer completed in the lanes of m: each goes on at `next`, and with `link` its v62 holds the return address; the words there
are fetched, so that nothing is left to be taken back (R132). -/
structure Moved (g g' : Gang) (m : LaneMask) (next : Nat → Word) (link : Bool) : Prop where
  pc : ∀ l, l < 32 → g'.pcOf l = if m.getLsbD l then next l else g.pcOf l
  stat : ∀ l, l < 32 → g'.stat l = if m.getLsbD l then .ready else g.stat l
  regs : ∀ l n, l < 32 → n < 64 → g'.vreg l n = if m.getLsbD l ∧ link = true ∧ n = 62 then g.pcOf l + 4 else g.vreg l n
  same : g'.s = g.s ∧ g'.g = g.g ∧ g'.fcr = g.fcr ∧ g'.flights = g.flights
  arrived : ∀ l, Tab.find g'.came l = if l < 32 ∧ m.getLsbD l = true then none else Tab.find g.came l
  rest : { g'.withLanesOf g with came := g.came } = g
/-- A target lies in the words that a lane has fetched already. -/
def Fetched (g : Gang) (l : Nat) (x : Word) : Prop :=
  ∃ b, Tab.find g.bufs l = some b ∧ b.base.toNat ≤ x.toNat ∧ x.toNat < b.base.toNat + 4 * b.words.length ∧ x.toNat % 4 = 0

/-- R130, R131: branches, calls and returns whose targets are fetched; the operand of `jr` and `callr` may be v62 itself. -/
def Obligations.TransfersOfControl : Prop :=
  ∀ (s : State) (g : Gang) (n : BitVec 1) (gd : BitVec 3) (o : BitVec 21) (o' : BitVec 25) (b : BitVec 6) (u : BitVec 1),
    let goes := fun (i : Instr) (us : Use) (next : Nat → Word) (link : Bool) =>
      (∀ l, s.mask.getLsbD l = true → Fetched g l (next l)) → Does i us s g fun g' => Moved g g' s.mask next link
    ((∀ l, s.mask.getLsbD l = true → g.guard l gd.toNat ≠ (n == 1) → Fetched g l (g.pcOf l + 4 * o.signExtend 64)) →
      Does (.br n gd o) { Use.regs [] [] with guards := [gd.toNat] } s g fun g' => Moved g g' s.mask
        (fun l => if g.guard l gd.toNat ≠ (n == 1) then g.pcOf l + 4 * o.signExtend 64 else g.pcOf l + 4) false) ∧
    goes (.call o') (.regs [62] []) (fun l => g.pcOf l + 4 * o'.signExtend 64) true ∧
    goes (.jr b u) (useB [] b u) (fun l => g.opB l b u) false ∧
    goes (.callr b u) (useB [62#6] b u) (fun l => g.opB l b u) true ∧
    goes .ret (.regs [62] []) (fun l => g.vreg l 62) false

/-! ### What else a gang may change -/

/-- Nothing of a gang but what its threads wait for, and what serves its register cache and ranking. -/
def OnlyStat (g g' : Gang) : Prop :=
  { g' with status := g.status, lines := g.lines, since := g.since, aged := g.aged, yielded := g.yielded, served := g.served } = g
/-- The group waits, and its instruction issues again from its start. -/
structure Waits (g g' : Gang) (m : LaneMask) : Prop where
  stat : ∀ l, l < 32 → if m.getLsbD l then ∃ n, g'.stat l = .retry n else g'.stat l = g.stat l
  rest : OnlyStat g g'
/-- The lanes of m go on at pc + 4 with registers, guards and `FCR`s as they were; what is in flight, windows, and what accesses count
(R178, R183) may differ. -/
structure GoesOn (g g' : Gang) (m : LaneMask) : Prop where
  pc : ∀ l, l < 32 → g'.pcOf l = if m.getLsbD l then g.pcOf l + 4 else g.pcOf l
  stat : ∀ l, l < 32 → g'.stat l = if m.getLsbD l then .ready else g.stat l
  regs : g'.v = g.v ∧ g'.s = g.s ∧ g'.g = g.g ∧ g'.fcr = g.fcr
  rest : { g'.withLanesOf g with horizon := g.horizon, seen := g.seen, wct := g.wct, watched := g.watched } = g
/-- The lanes of m complete, and no register, guard or flag changes. -/
def Completed (g g' : Gang) (m : LaneMask) : Prop := Took g g' m g.vreg g.guard (fun _ => 0) g.flights
/-- What a workgroup's convergence registers hold may differ. -/
def cvsOf (y x : Workgroup) : Workgroup := { y with cvs := x.cvs }
/-- What a workgroup's shares hold may differ. -/
def sharesOf (y x : Workgroup) : Workgroup := { y with scratch := x.scratch, acc := x.acc }

/-- R26, R133, R347: `exit` makes the threads of the group no longer live and discards what they had in flight; with its last live
thread the gang ends, and exit word 0 goes to its place of the status array, unless its tenant's teardown has begun. -/
def threadsExitRule : Prop :=
  ∀ (s : State) (g : Gang) (w i : Nat) (x : Workgroup) (r : Launch), OnCompute s g w i x r →
    s.Admits { Use.regs [] [] with allow := 1 } g → g.ended = false →
    ∃ t g', exec .exit s = .next t ∧ t.gang s.cur = some g' ∧ g'.live = g.live &&& ~~~s.mask ∧ g'.ended = decide (g'.live = 0) ∧
      (x.cvs = [] → x.registry = [] →
        (∀ a, a ≠ s.cur → t.gang a = s.gang a) ∧ g'.v = g.v ∧ g'.s = g.s ∧ g'.g = g.g ∧ g'.pc = g.pc ∧ g'.fcr = g.fcr ∧
        (∀ f ∈ g'.flights, f ∈ g.flights ∧ (if f.lane = 32 then f.lanes &&& g'.live ≠ 0 else s.mask.getLsbD f.lane = false)) ∧
        (g'.live ≠ 0 → t.mem = s.mem ∧ ∀ f ∈ g.flights,
          (if f.lane = 32 then f.lanes &&& g'.live ≠ 0 else s.mask.getLsbD f.lane = false) → f ∈ g'.flights) ∧
        (g'.live = 0 → g'.slot = false ∧ g'.flights = [] ∧ (s.tornDown r.tenant = true → t.mem = s.mem) ∧
          ∀ s2, s.tornDown r.tenant = false → s.partWrite (tenantCtx r.pasid)
          (BitVec.ofNat 64 (r.field 0x28 8 + 8 * (x.wgid * r.ngang + i))) (leBytes 8 0) = .ok s2 → t.mem = s2.mem))

/-- R128, R265, R283, R333, R341: `yield` completes and marks the gang; `syscall` writes a call record and suspends its threads in
the call with the next pc, or waits, or on a service core traps; a ring that cannot be read is `WIREDFAULT` of a tenant, which the model takes
to be that of the slice whose work calls (log 23). -/
def yieldAndSyscallRule : Prop :=
  (∀ (s : State) (g : Gang), Does .yield (.regs [] []) s g fun g' =>
    Completed g g' s.mask ∧ g'.yielded = true ∧ g'.aged = false ∧ g'.since = s.ptb) ∧
  (∀ (s : State) (g : Gang) (w i : Nat) (x : Workgroup) (r : Launch) (n : BitVec 15) (l : BitVec 4), OnCompute s g w i x r →
    s.Admits (.regs [1, 2, 3, 4, 5, 6] []) g →
    let released := ∀ k, s.mask.getLsbD k = true → s.released s.cur 3 k = true
    let ring := s.ringRoom (clusterOf x.core) true
    (∀ base j, g.callSlot = none → released → ring = some (base, j) →
      ∃ t g', exec (.syscall n l) s = .next t ∧ t.gang s.cur = some g' ∧ (∀ a, a ≠ s.cur → t.gang a = s.gang a) ∧
        (∀ k, k < 32 → g'.stat k = if s.mask.getLsbD k then .call else g.stat k) ∧
        (∀ k, k < 32 → g'.pcOf k = if s.mask.getLsbD k then g.pcOf k + 4 else g.pcOf k) ∧
        g'.callSlot = some j ∧ g'.callLanes = s.mask ∧ g'.callDone = 0 ∧ g'.callCluster = clusterOf x.core ∧
        g'.v = g.v ∧ g'.s = g.s ∧ g'.g = g.g ∧ g'.fcr = g.fcr ∧
        Stands s t (clusterOf x.core) (base + BitVec.ofNat 64 (2048 * j)) (s.callRecord w i n.toNat s.mask s.curPc)) ∧
    ((g.callSlot.isSome = true ∨ ¬released ∨ (ring = none ∧ s.ringBroken (clusterOf x.core) true = none)) →
      ∃ t g', exec (.syscall n l) s = .next t ∧ OnlyGang s t g' ∧ Waits g g' s.mask) ∧
    (∀ a, g.callSlot = none → released → s.ringBroken (clusterOf x.core) true = some a →
      ∃ t g', exec (.syscall n l) s = .next t ∧ Waits g g' s.mask ∧
        OnlyAnd s t g' (fun t => { t with tenants := s.tenants }) noneOf ∧
        t.tenants = (s.wiredFault (tenantOfSlice r.slice) a).tenants)) ∧
  ∀ (s : State) (c : Nat) (k : Scalar) (n : BitVec 15) (l : BitVec 4), OnService s c k → s.Admits (.regs [1, 2, 3, 4, 5, 6] []) k.ctx →
    ∃ t, exec (.syscall n l) s = .next t ∧ Trapped s t c k 0x12 (k.ctx.pcOf 0 + 4) s.curWord

/-- R26, R128, R133, R265, R283: `exit`, `yield` and `syscall`. How long a yield goes on, and from when a gang ages after it, are the
model's readings (logs 28, 110). -/
def Obligations.ExitYieldAndSyscall : Prop := threadsExitRule ∧ yieldAndSyscallRule

/-! ### Convergence registers and cross-lane instructions (R70, R71, R136 to R143) -/

/-- R137, R139, R140: assigning, reading and clearing convergence register n; `cvset` with a pair names gangs in its first register
and lanes in its second. -/
def convergenceRegistersRule : Prop :=
  ∀ (s : State) (g : Gang) (w i : Nat) (x : Workgroup) (r : Launch) (n : BitVec 3) (p : BitVec 5) (d b : BitVec 6) (u : BitVec 1),
    OnCompute s g w i x r →
    let c := x.cv n.toNat
    let gather := c.arrived ≠ [] ∨ 2 ≤ c.state
    let sel := g.sreg (2 * p.toNat)
    let val := g.sreg (2 * p.toNat + 1)
    let done := fun (j : Instr) (us : Use) (ms : Nat → LaneMask) => s.Admits us g →
      ∃ t y, exec j s = .next t ∧ t.wg w = some y ∧ (∀ k, Tab.at (y.cv n.toNat).members k 0 = ms k) ∧
        (¬gather → (y.cv n.toNat).state = (if (y.cv n.toNat).members = [] then 0 else 1) ∧ (y.cv n.toNat).arrived = [] ∧
          (y.cv n.toNat).phase = c.phase ∧ (∀ m, m ≠ n.toNat → y.cv m = x.cv m) ∧
          ∃ g', OnlyAnd s t g' id cvsOf ∧ Completed g g' s.mask)
    done (.cvsetGrp n) { Use.regs [] [] with allow := 1 } (fun k => if k = i then s.mask else 0) ∧
    done (.cvset n p) { Use.regs [] [2 * p.toNat, 2 * p.toNat + 1] with allow := 1 } (fun k =>
      if x.gangs.length ≤ k then 0
      else if k < 32 ∧ sel.getLsbD k = true then val.setWidth 32
      else if p ≠ 0 ∧ val.getLsbD 63 = true then Tab.at c.members k 0 else 0) ∧
    done (.cvclear n) { Use.regs [] [] with allow := 1 } (fun _ => 0) ∧
    (Tab.sorted c.members = true → (∀ q ∈ c.members, q.1 < 32) →
      LaneIs (.cvquery d n b u) { useB [d] b u with allow := 1 } s g d (fun l =>
        let k := (g.opB l b u).toNat % 32
        match (g.opB l b u).toNat / 32 % 4 with
        | 0 => (Tab.at c.members k 0) ++ (Tab.at c.arrived k 0)
        | 1 => BitVec.ofNat 64 (c.state + 16 * c.kind + (if x.deadMember c then 64 else 0) + (if c.phase then 128 else 0) +
            2 ^ 32 * ((List.range 32).map fun k => if Tab.at c.members k 0 = 0 then 0 else 2 ^ k).sum)
        | 2 => c.sig
        | _ => 0))

/-- R138, R141, Table 3.8: threads of a register that arrive while another member has not wait there; those of a register whose
members have then all arrived go on, and the register's phase flips. -/
def convergenceArrivalsRule : Prop :=
  ∀ (s : State) (g : Gang) (w i : Nat) (x : Workgroup) (r : Launch) (n : BitVec 3) (d a b : BitVec 6) (k : BitVec 5) (v : BitVec 6)
    (e : BitVec 1) (l : BitVec 4), OnCompute s g w i x r →
    let c := x.cv n.toNat
    let members := ∀ j, s.mask.getLsbD j = true → (Tab.at c.members i 0).getLsbD j = true
    let early := ∃ q ∈ c.members, (Tab.at c.arrived q.1 0 ||| (if q.1 = i then s.mask else 0)) ≠ q.2
    let released := ∀ j, s.mask.getLsbD j = true → s.released s.cur 1 j = true
    let arrives := fun (j : Instr) (us : Use) (kind : Nat) (sig : Word) => s.Admits us g → members → early →
      (c.state = 2 → c.kind = kind ∧ c.sig = sig) →
      ∃ t g' y, exec j s = .next t ∧ OnlyAnd s t g' id cvsOf ∧ OnlyStat g g' ∧ t.wg w = some y ∧
        (∀ m, m < 32 → g'.stat m = if s.mask.getLsbD m then .gather n.toNat else g.stat m) ∧
        (y.cv n.toNat).members = c.members ∧ (y.cv n.toNat).state = 2 ∧ (y.cv n.toNat).kind = kind ∧ (y.cv n.toNat).sig = sig ∧
        (y.cv n.toNat).phase = c.phase ∧
        ∀ m, Tab.at (y.cv n.toNat).arrived m 0 = Tab.at c.arrived m 0 ||| (if m = i then s.mask else 0)
    let us := fun (ns : List Nat) => { Use.regs ns [] with allow := 1 }
    let cross := (∀ q ∈ c.members, q.1 = i) → x.deadMember c = false →
      arrives (.xshfl d a b n l) (us [d.toNat, a.toNat, b.toNat]) 2 (64 * 0x16) ∧
      arrives (.xshxor d a k n l) (us [d.toNat, a.toNat]) 2 (64 * 0x17 + k.setWidth 64) ∧
      arrives (.xred d a k n l) (us [d.toNat, a.toNat]) 2 (64 * 0x18 + k.setWidth 64) ∧
      arrives (.xscan d a e k n l) (us [d.toNat, a.toNat]) 2 (64 * 0x19 + 32 * e.setWidth 64 + k.setWidth 64) ∧
      arrives (.xvote d a v n l) (us [d.toNat, a.toNat]) 2 (64 * 0x1A + v.setWidth 64) ∧
      arrives (.xmatch d a n l) (us [d.toNat, a.toNat]) 2 (64 * 0x1B)
    cross ∧ (released → arrives (.cvwait n) (us []) 1 0) ∧
    (released → s.Admits (us []) g → c.members = [(i, s.mask)] → c.arrived = [] → c.state = 1 →
      ∃ t g' y, exec (.cvwait n) s = .next t ∧ OnlyAnd s t g' id cvsOf ∧ Completed g g' s.mask ∧ t.wg w = some y ∧
        y.cv n.toNat = { c with phase := !c.phase, kind := 0, sig := 0, record := [], shape := [] })

/-- R70, R136 to R141: assigning, reading and clearing a convergence register, and arriving at one. That `cvquery` reads at issue, and what
`cvset` of no lane leaves, are the model's readings (logs 20, 45). -/
def Obligations.Convergence : Prop := convergenceRegistersRule ∧ convergenceArrivalsRule

/-- The fixed tree of R143: 2^k lanes from `lo` up, lanes that are no members left out. -/
def treeOf (op : Nat) (a : Nat → Option Word) : Nat → Nat → Option Word
  | 0, lo => a lo
  | k + 1, lo => combOpt op (treeOf op a k lo) (treeOf op a k (lo + 2 ^ k))
/-- The members below n in ascending lane order, combined from the left (R143). -/
def scanOf (op : Nat) (a : Nat → Option Word) : Nat → Option Word
  | 0 => none
  | n + 1 => combOpt op (scanOf op a n) (a n)

/-- R141 to R143: where the group is all the members of register n, each cross-lane instruction (`xshfl`, `xshxor`, `xred`, `xscan`,
`xvote`, `xmatch`) completes at once with the result of Table 6.4 in each lane. That an FP32 operation reads bits 31:0 of its operand is
the model's reading (log 85). -/
def Obligations.CrossLaneResults : Prop :=
  ∀ (s : State) (g : Gang) (w i : Nat) (x : Workgroup) (r : Launch) (n : BitVec 3) (d a b : BitVec 6) (k : BitVec 5) (v : BitVec 6)
    (e : BitVec 1) (la : BitVec 4), OnCompute s g w i x r →
    let c := x.cv n.toNat
    c.members = [(i, s.mask)] → c.arrived = [] → c.state = 1 → s.mask &&& ~~~g.live = 0 →
    let A := fun l => g.vreg l a.toNat
    let own := fun l => if s.mask.getLsbD l then some (if 8 ≤ k.toNat ∧ k.toNat ≤ 10 then BitVec.ofNat 64 ((A l).toNat % 2 ^ 32) else A l) else none
    let lanes := lanesOf s.mask
    let give := fun (j : Instr) (ns : List Nat) (p : Nat → Word → Prop) => s.Admits { Use.regs ns [] with allow := 1 } g →
      ∃ (t : State) (g' : Gang) (y : Workgroup) (res : Nat → Word), exec j s = .next t ∧ OnlyAnd s t g' id cvsOf ∧ t.wg w = some y ∧
        y.cv n.toNat = { c with phase := !c.phase, kind := 0, sig := 0, record := [], shape := [] } ∧
        Took g g' s.mask (fun l m => if m = d.toNat then res l else g.vreg l m) g.guard (fun _ => 0) g.flights ∧
        ∀ l, s.mask.getLsbD l = true → p l (res l)
    let bits := fun (q : Nat → Bool) (y : Word) => ∀ j, j < 64 → y.getLsbD j = (decide (j < 32) && s.mask.getLsbD j && q j)
    give (.xshfl d a b n la) [d.toNat, a.toNat, b.toNat] (fun l y =>
      let j := (g.vreg l b.toNat).toNat % 32
      y = if s.mask.getLsbD j then A j else A l) ∧
    give (.xshxor d a k n la) [d.toNat, a.toNat] (fun l y => y = if s.mask.getLsbD (l ^^^ k.toNat) then A (l ^^^ k.toNat) else A l) ∧
    (k.toNat ≤ 13 → give (.xred d a k n la) [d.toNat, a.toNat] (fun _ y => some y = treeOf k.toNat own 5 0) ∧
      give (.xscan d a e k n la) [d.toNat, a.toNat] (fun l y =>
        y = (scanOf k.toNat own (if e = 1#1 then l else l + 1)).getD (crossIdentity k.toNat))) ∧
    (v.toNat ≤ 3 → give (.xvote d a v n la) [d.toNat, a.toNat] (fun _ y => match v.toNat with
      | 0 => y = flag (∀ j ∈ lanes, A j ≠ 0)
      | 1 => y = flag (∃ j ∈ lanes, A j ≠ 0)
      | 2 => bits (fun j => decide (A j ≠ 0)) y
      | _ => y = flag (∀ j ∈ lanes, ∀ m ∈ lanes, A j = A m))) ∧
    give (.xmatch d a n la) [d.toNat, a.toNat] (fun l y => bits (fun j => decide (A j = A l)) y)

/-! ### Accesses (R175 to R186, R197 to R206) -/

/-- The accesses that one load or store of a thread makes: 16 bytes of an NC or IO page are two of 8, the lower first (R198); each with
its size and the registers it fills. -/
def parts (loc : Loc) (size d : Nat) : List (Loc × Nat × List Nat) :=
  match loc with
  | .mem k p =>
    if size = 16 ∧ p ≠ 0 then [(.mem k p, 8, [d]), (.mem (k + 8) p, 8, [d + 1])]
    else [(loc, size, if size = 16 then [d, d + 1] else [d])]
  | _ => [(loc, size, if size = 16 then [d, d + 1] else [d])]
/-- The accesses of threads `ls` at addresses `va`, to places `loc`. -/
def accesses (ls : List Nat) (va : Nat → Word) (loc : Nat → Loc) : List Acc := ls.map fun l => ⟨l, laneBit l, va l, loc l⟩
/-- Accesses may issue: each passes every check, no earlier access of its thread is in its way, no lock meets the upper half of a 16-byte
one that performs as two, no fence before a store or atomic still holds it, and the core has room for the requests (R11, R167, R178, R185,
R197, R198). -/
structure MayIssue (s : State) (kind size : Nat) (xs : List Acc) : Prop where
  checked : ∀ x ∈ xs, s.check s.cur kind size x.addr = .ok x.loc
  free : ∀ x ∈ xs, s.held? x size = false
  halves : ∀ x ∈ xs, s.upperLocked kind size x = false
  fenced : kind = 0 ∨ ∀ x ∈ xs, s.barred x = false
  room : s.noRoom s.cur xs = false
/-- What requests may leave changed: themselves, the copies of the core's L1, and what its tenants have moved. -/
def asked (s t : State) : State := { t with reqs := s.reqs, l1 := s.l1, tenants := s.tenants }
/-- Tenants differ at most in the bytes that their work has moved (R263). -/
def OnlyMoved (s t : State) : Prop :=
  ∀ k, (Tab.find t.tenants k).map (fun x => { x with moved := 0 }) = (Tab.find s.tenants k).map fun x => { x with moved := 0 }
/-- What a load has at once: the bytes of a share or of a management register, or those of a line that it hits, under the thread's own stores;
a load of bytes that an earlier one of its thread has still to read waits for the home too (R175, R178). -/
def loadedNow (s : State) (g : Gang) (lanes : LaneMask) (loc : Loc) (size : Nat) (signed : Bool) : Option (List Word) :=
  match loc with
  | .mem k p =>
    if p = 0 ∧ s.readAhead s.cur lanes k size (fun _ => true) = false then (s.hit g (s.l1Of s.cur) lanes k).map fun ln =>
      loadWords signed (s.ownView s.cur lanes k (s.lineView (s.l1Of s.cur) k size ln))
    else none
  | .scratch v o => some (loadWords signed (s.locRead (.scratch v o) size))
  | .acc v o => some (loadWords signed (s.locRead (.acc v o) size))
  | .reg o => some (loadWords signed (s.locRead (.reg o) size))
/-- A load of each thread of the group, at operand a and an offset, with every check passed: a destination in flight for each
access, with the value where it is there at once and with a request to its home where it is not; memory reads as before. -/
def LoadsIs (i : Instr) (s : State) (g : Gang) (d : Nat) (a : BitVec 6) (u : BitVec 1) (size : Nat) (signed acquire : Bool) (off : Int) :
    Prop :=
  let us : Use := { useB [] a u with lanes := (if size = 16 then [d, d + 1] else [d]) ++ (useB [] a u).lanes, mem := true }
  let va := fun l => g.opB l a u + BitVec.ofInt 64 off
  s.Admits us g → ∀ loc : Nat → Loc, MayIssue s 0 size (accesses (lanesOf s.mask) va loc) →
    let all := (lanesOf s.mask).flatMap fun l => (parts (loc l) size d).map fun p => (l, p)
    ∃ t g' fs rs, exec i s = .next t ∧ OnlyAnd s t g' (asked s) noneOf ∧ OnlyMoved s t ∧ GoesOn g g' s.mask ∧ g'.flights = g.flights ++ fs ∧ t.reqs = s.reqs ++ rs ∧
      fs.map (fun f => (f.lane, f.lanes, f.regs, f.vals, f.flags, f.acquire, f.poisoned)) = all.map (fun q =>
        (q.1, laneBit q.1, q.2.2.2, loadedNow s g (laneBit q.1) q.2.1 q.2.2.1 signed, 0, acquire,
        (loadedNow s g (laneBit q.1) q.2.1 q.2.2.1 signed).isNone && s.locPoisoned q.2.1)) ∧
      rs.map (fun r => (r.lane, r.flight, r.key, r.size)) = (fs.zip all).filterMap (fun q => match q.1.vals, q.2.2.1 with
        | none, .mem k _ => some (q.1.lane, some q.1.id, k, q.2.2.2.1)
        | _, _ => none) ∧
      (∀ r ∈ rs, r.kind = .load ∧ r.agent = s.cur ∧ r.state = .sent ∧ r.signed = signed) ∧
      ∀ k, t.homeByte k = s.homeByte k

/-- R198, R199, R201: the loads. -/
def Obligations.Loads : Prop :=
  ∀ (s : State) (g : Gang) (d a : BitVec 6) (q : BitVec 5) (u : BitVec 1) (o : BitVec 8) (w : BitVec 2) (c e : BitVec 3) (l : BitVec 4),
    LoadsIs (.ldb d a u o l) s g d.toNat a u 1 true false o.toInt ∧
    LoadsIs (.ldbu d a u o l) s g d.toNat a u 1 false false o.toInt ∧
    LoadsIs (.ldh d a u o l) s g d.toNat a u 2 true false (2 * o.toInt) ∧
    LoadsIs (.ldhu d a u o l) s g d.toNat a u 2 false false (2 * o.toInt) ∧
    LoadsIs (.ldw d a u o l) s g d.toNat a u 4 true false (4 * o.toInt) ∧
    LoadsIs (.ldwu d a u o l) s g d.toNat a u 4 false false (4 * o.toInt) ∧
    LoadsIs (.ldd d a u o l) s g d.toNat a u 8 false false (8 * o.toInt) ∧
    LoadsIs (.ldq q a u o l) s g (2 * q.toNat) a u 16 false false (16 * o.toInt) ∧
    (w.toNat ≤ 2 → LoadsIs (.lda d a u w c e l) s g d.toNat a u (2 ^ (w.toNat + 2)) false true (2 ^ (w.toNat + 2) * e.toInt))

/-- The bytes of a share after stores of `ls`, each of `size` bytes, in their order. -/
def laid (ls : List Nat) (place : Nat → Option Nat) (bs : Nat → List Byte) (size o : Nat) (old : Byte) : Byte :=
  ls.foldl (fun b l => match place l with
    | some q => if q ≤ o ∧ o < q + size then (bs l).getD (o - q) 0 else b
    | none => b) old
/-- The scratch offset, in the share of workgroup v, of an access. -/
def scratchIn (v : Nat) : Loc → Option Nat
  | .scratch w o => if w = v then some o else none
  | _ => none
/-- The accumulator offset, in the share of workgroup v, of an access. -/
def accIn (v : Nat) : Loc → Option Nat
  | .acc w o => if w = v then some o else none
  | _ => none
/-- Stores of `bs l` by the threads `ls` to places that passed every check: a share holds the bytes at once; a place in memory gets a
request for each part, and no home holds anything else yet. -/
structure Stored (s t : State) (ls : List Nat) (loc : Nat → Loc) (size : Nat) (bs : Nat → List Byte) (scope : Option Nat)
    (rs : List Req) : Prop where
  reqs : t.reqs = s.reqs ++ rs
  each : rs.map (fun r => (r.lane, r.key, r.data)) = (ls.flatMap fun l => (parts (loc l) size 0).map fun p => (l, p)).filterMap
    (fun q => match q.2.1 with
      | .mem k _ => some (q.1, k, if q.2.2.2 = [1] then (bs q.1).drop 8 else (bs q.1).take q.2.2.1)
      | _ => none)
  kind : ∀ r ∈ rs, r.kind = .store ∧ r.agent = s.cur ∧ r.state = .sent ∧ r.scope = scope
  shares : ∀ v x, s.wg v = some x → ∃ y, t.wg v = some y ∧ ∀ o,
    Mem.byte y.scratch o = laid ls (fun l => scratchIn v (loc l)) bs size o (Mem.byte x.scratch o) ∧
    Mem.byte y.acc o = laid ls (fun l => accIn v (loc l)) bs size o (Mem.byte x.acc o)
  homes : ∀ k, t.homeByte k = s.homeByte k
/-- Places are in memory or in shares, and those in shares belong to workgroups that are resident. -/
def ResidentShares (s : State) (ls : List Nat) (loc : Nat → Loc) : Prop :=
  ∀ l ∈ ls, (∀ o, loc l ≠ .reg o) ∧ ∀ v o x, loc l = .scratch v o → s.wg v = some x → x.place.isSome = true
/-- A store of the threads whose guard condition holds, at operand b and an offset, with every check passed. -/
def StoresIs (i : Instr) (s : State) (g : Gang) (n : BitVec 1) (gd : BitVec 3) (a : Nat) (b : BitVec 6) (u : BitVec 1) (size : Nat)
    (off : Int) : Prop :=
  let us : Use := { useB [] b u with
    lanes := (if size = 16 then [a, a + 1] else [a]) ++ (useB [] b u).lanes, guards := [gd.toNat], mem := true }
  let va := fun l => g.opB l b u + BitVec.ofInt 64 off
  let ls := (lanesOf s.mask).filter fun l => g.guard l gd.toNat != (n == 1)
  let bs := fun l => if size = 16 then leBytes 8 (g.vreg l a).toNat ++ leBytes 8 (g.vreg l (a + 1)).toNat
    else leBytes size (g.vreg l a).toNat
  s.Admits us g → ∀ loc : Nat → Loc, ResidentShares s ls loc → MayIssue s 1 size (accesses ls va loc) →
    ∃ t g' rs, exec i s = .next t ∧ OnlyAnd s t g' (asked s) sharesOf ∧ OnlyMoved s t ∧
      GoesOn g g' s.mask ∧ g'.flights = g.flights ∧ Stored s t ls loc size bs none rs

/-- R83, R198, R202: the guarded stores. -/
def storesRule : Prop :=
  ∀ (s : State) (g : Gang) (n : BitVec 1) (gd : BitVec 3) (a b : BitVec 6) (q : BitVec 5) (u : BitVec 1) (o : BitVec 8),
    StoresIs (.stb n gd a b u o) s g n gd a.toNat b u 1 o.toInt ∧
    StoresIs (.sth n gd a b u o) s g n gd a.toNat b u 2 (2 * o.toInt) ∧
    StoresIs (.stw n gd a b u o) s g n gd a.toNat b u 4 (4 * o.toInt) ∧
    StoresIs (.std n gd a b u o) s g n gd a.toNat b u 8 (8 * o.toInt) ∧
    StoresIs (.stq n gd q b u o) s g n gd (2 * q.toNat) b u 16 (16 * o.toInt)

/-- R388: where the configuration record maps the management registers into the shard half (the model's choice: log 106), a shard's store of 8
bytes at one acts as the write of it does: a 1 clears `THTRIP`, 0x5253 to `MCRESET` asserts package reset, and any other leaves everything. -/
def registerStoresRule : Prop :=
  ∀ (s : State) (g : Gang) (n : BitVec 1) (gd : BitVec 3) (a b : BitVec 6) (u : BitVec 1) (k : BitVec 8) (o : Nat),
    let us : Use := { useB [] b u with lanes := a.toNat :: (useB [] b u).lanes, guards := [gd.toNat], mem := true }
    let v := g.vreg 0 a.toNat
    s.Admits us g → s.mask = 1 → g.guard 0 gd.toNat ≠ (n == 1) → o % 8 = 0 →
    MayIssue s 1 8 [⟨0, 1, g.opB 0 b u + BitVec.ofInt 64 (8 * k.toInt), .reg o⟩] →
    ∃ t, exec (.std n gd a b u k) s = .next t ∧
      if o = 0x3028 ∧ v.toNat % 2 ^ 16 = 0x5253 then t.inReset = true ∧ t.scalars = [] ∧ t.mcstat = s.mcstat &&& 0x100000 else
        ∃ g', OnlyAnd s t g' (fun t => { t with mcstat := s.mcstat }) noneOf ∧ GoesOn g g' s.mask ∧ g'.flights = g.flights ∧
          t.mcstat = if o = 0x3000 then s.mcstat &&& ~~~(v &&& 0x100000) else s.mcstat

/-- R183, R203: `str` issues a strong store in each thread whose release is over, and makes each other one wait for it. -/
def releaseStoresRule : Prop :=
  ∀ (s : State) (g : Gang) (n : BitVec 1) (gd : BitVec 3) (a b : BitVec 6) (u : BitVec 1) (w : BitVec 2) (c o : BitVec 3),
    w.toNat ≤ 2 →
    let size := 2 ^ (w.toNat + 2)
    let us : Use := { useB [] b u with
      lanes := (if size = 16 then [a.toNat, a.toNat + 1] else [a.toNat]) ++ (useB [] b u).lanes, guards := [gd.toNat], mem := true }
    let va := fun l => g.opB l b u + BitVec.ofInt 64 (size * o.toInt)
    let ls := (lanesOf s.mask).filter fun l => g.guard l gd.toNat != (n == 1)
    let bs := fun l => if size = 16 then leBytes 8 (g.vreg l a.toNat).toNat ++ leBytes 8 (g.vreg l (a.toNat + 1)).toNat
      else leBytes size (g.vreg l a.toNat).toNat
    s.Admits us g → ∀ loc : Nat → Loc, ResidentShares s ls loc → MayIssue s 1 size (accesses ls va loc) →
      let now := ls.filter fun l => s.released s.cur c.toNat l
      ∃ t g' rs, exec (.str n gd a b u w c o) s = .next t ∧
        OnlyAnd s t g' (asked s) sharesOf ∧ OnlyMoved s t ∧
        Stored s t now loc size bs (some c.toNat) rs ∧
        (∀ l, l < 32 → g'.pcOf l = if s.mask.getLsbD l = true ∧ (l ∈ ls → l ∈ now) then g.pcOf l + 4 else g.pcOf l) ∧
        (∀ l, l < 32 → if l ∈ ls ∧ l ∉ now then ∃ m, g'.stat l = .release m c.toNat 0 0 (va l) (bs l) (loc l)
          else g'.stat l = if s.mask.getLsbD l then .ready else g.stat l) ∧
        g'.v = g.v ∧ g'.s = g.s ∧ g'.g = g.g ∧ g'.fcr = g.fcr ∧ g'.flights = g.flights

/-- R83, R183, R198, R202, R203: the guarded stores, and the strong stores of `str`, which wait until what precedes them has taken effect; and
a shard's stores to management registers (where they stand is log 106). -/
def Obligations.Stores : Prop := storesRule ∧ releaseStoresRule ∧ registerStoresRule

/-- Table 9.4: what an atomic of n bytes makes of an old value, from the operand and the compare value; none where it writes
nothing. -/
def atomicTable (op n old b cmp : Nat) : Option Nat :=
  let int := fun (x : Nat) => if x < 2 ^ (8 * n - 1) then (x : Int) else (x : Int) - 2 ^ (8 * n)
  match op with
  | 0 => some ((old + b) % 2 ^ (8 * n))
  | 1 => some (if int old ≤ int b then old else b)
  | 2 => some (if int b ≤ int old then old else b)
  | 3 => some (min old b)
  | 4 => some (max old b)
  | 5 => some (Nat.land old b)
  | 6 => some (Nat.lor old b)
  | 7 => some (Nat.xor old b)
  | 8 => some b
  | 9 => if old = cmp then some b else none
  | _ => some (if n = 4 then (fp32.add 0 (fp32.decode old) (fp32.decode b)).1 else (fp64.add 0 (fp64.decode old) (fp64.decode b)).1)
/-- What an atomic delivers of the old value: sign-extended, but for `amumin`, `amumax` and `amfadd` (R204). -/
def atomicOld (op n old : Nat) : Word :=
  if op = 3 ∨ op = 4 ∨ op = 10 then BitVec.ofNat 64 old else BitVec.ofInt 64 (sextInt (8 * n) old)
/-- The atomic with number `op` of Table 9.4. -/
def atomicInstr (op : Nat) (gd : BitVec 2) (d a b : BitVec 6) (w : BitVec 1) (l : BitVec 4) : Instr :=
  match op with
  | 0 => .amadd gd d a b w l
  | 1 => .ammin gd d a b w l
  | 2 => .ammax gd d a b w l
  | 3 => .amumin gd d a b w l
  | 4 => .amumax gd d a b w l
  | 5 => .amand gd d a b w l
  | 6 => .amor gd d a b w l
  | 7 => .amxor gd d a b w l
  | 8 => .amswap gd d a b w l
  | 9 => .amcas gd d a b w l
  | _ => .amfadd gd d a b w l

/-- R186, R204, R205: the atomics `amadd`, `ammin`, `ammax`, `amumin`, `amumax`, `amand`, `amor`, `amxor`, `amswap`, `amcas`, `amfadd`
(op 0 to 10) in the threads whose guard is 1. To memory whose lines the core does not own each puts its destination in flight and
sends a request; in a share, or on a line that its L1 owns and to which nothing else is on its way, the one thread's atomic acts at
once. -/
def Obligations.Atomics : Prop :=
  ∀ (op : Nat) (s : State) (g : Gang) (gd : BitVec 2) (d a b : BitVec 6) (w : BitVec 1) (la : BitVec 4), op ≤ 10 →
    let i := atomicInstr op gd d a b w la
    let size := if w = 1#1 then 8 else 4
    let ls := (lanesOf s.mask).filter fun l => g.guard l gd.toNat
    let va := fun l => g.vreg l a.toNat
    let val := fun l => (g.vreg l b.toNat).toNat % 2 ^ (8 * size)
    let cmp := fun l => (g.vreg l d.toNat).toNat % 2 ^ (8 * size)
    s.Admits { Use.regs [d.toNat, a.toNat, b.toNat] [] with guards := [gd.toNat], mem := true } g →
    ∀ loc : Nat → Loc, MayIssue s 2 size (accesses ls va loc) →
      (∀ key : Nat → Nat, ∀ pb : Nat → Nat, (∀ l ∈ ls, loc l = .mem (key l) (pb l) ∧
          ∀ ln, Tab.find (s.l1At (s.l1Of s.cur)) (key l / 128) = some ln → ln.owned = false) →
        ∃ t g' fs rs, exec i s = .next t ∧ OnlyAnd s t g' (fun t => { t with reqs := s.reqs, tenants := s.tenants }) noneOf ∧
          OnlyMoved s t ∧ GoesOn g g' s.mask ∧
          g'.flights = g.flights ++ fs ∧ t.reqs = s.reqs ++ rs ∧
          fs.map (fun f => (f.lane, f.regs, f.vals)) = ls.map (fun l => (l, [d.toNat], none)) ∧
          rs.map (fun r => (r.lane, r.flight, r.key)) = fs.map (fun f => (f.lane, some f.id, key f.lane)) ∧
          (∀ r ∈ rs, (r.kind = .own ∨ r.kind = .atomic) ∧ r.agent = s.cur ∧ r.size = size ∧ r.op = op ∧
            r.operand = g.vreg r.lane b.toNat ∧ r.compare = g.vreg r.lane d.toNat) ∧
          ∀ k, t.homeByte k = s.homeByte k) ∧
      (∀ l v o x, ls = [l] → loc l = .scratch v o → s.wg v = some x → x.place.isSome = true →
        let old := leNat (Mem.bytes x.scratch o size)
        ∃ t g' f y, exec i s = .next t ∧ OnlyAnd s t g' id sharesOf ∧ GoesOn g g' s.mask ∧ g'.flights = g.flights ++ [f] ∧
          f.lane = l ∧ f.regs = [d.toNat] ∧ f.vals = some [atomicOld op size old] ∧ t.wg v = some y ∧ y.acc = x.acc ∧
          ∀ q, Mem.byte y.scratch q = match atomicTable op size old (val l) (cmp l) with
            | some z => if o ≤ q ∧ q < o + size then BitVec.ofNat 8 (z / 256 ^ (q - o)) else Mem.byte x.scratch q
            | none => Mem.byte x.scratch q) ∧
      (∀ l k ln, ls = [l] → loc l = .mem k 0 → k < hostKey → s.remote k = false → k % 128 + size ≤ 128 →
        (s.home (k / 128)).owner = some (s.l1Of s.cur) → Tab.find (s.l1At (s.l1Of s.cur)) (k / 128) = some ln → ln.owned = true →
        ln.data.length = 128 → s.busyOn (k / 128) = false →
        (∀ r ∈ s.reqs, (r.kind = .load ∧ (r.agent = s.cur → r.lanes &&& laneBit l = 0)) ∨ r.kind = .prefetch ∨ r.waiting = false ∨
          r.touches k size = false) →
        let old := leNat ((List.range size).map fun j => s.homeByte (k + j))
        ∃ t g' f, exec i s = .next t ∧
          OnlyAnd s t g' (fun t => { t with l1 := s.l1, homes := s.homes, dirtyLines := s.dirtyLines }) noneOf ∧
          GoesOn g g' s.mask ∧ g'.flights = g.flights ++ [f] ∧ f.lane = l ∧ f.regs = [d.toNat] ∧ f.vals = some [atomicOld op size old] ∧ t.mem = s.mem ∧ t.reqs = s.reqs ∧
          ∀ q, t.homeByte q = match atomicTable op size old (val l) (cmp l) with
            | some z => if k ≤ q ∧ q < k + size then BitVec.ofNat 8 (z / 256 ^ (q - k)) else s.homeByte q
            | none => s.homeByte q)

/-- R25, R199, R202, R206: the uniform load and store make one access for the group; under divergence they set `GSTAT.UDIV`. -/
def Obligations.UniformAccesses : Prop :=
  ∀ (s : State) (g : Gang) (d a b : BitVec 6) (w : BitVec 2) (o : BitVec 7) (q : BitVec 11) (la : BitVec 4),
    let size := 2 ^ w.toNat
    let udiv : Word := if g.live ≠ s.mask then 1 else 0
    let acc := fun (va : Word) (kind : Nat) (loc : Loc) =>
      ¬UdivTraps s g 1 ∧ MayIssue s kind size [⟨32, s.mask, va, loc⟩]
    (∀ loc, s.Admits { Use.regs [] [d.toNat, a.toNat] with mem := true } g →
      acc (g.sreg a.toNat + BitVec.ofInt 64 (size * o.toInt)) 0 loc →
      ∃ t g' f rs, exec (.sld d a w o la) s = .next t ∧ OnlyAnd s t g' (asked s) noneOf ∧ OnlyMoved s t ∧
        GoesOn g { g' with gstat := g.gstat } s.mask ∧ g'.gstat = g.gstat ||| udiv ∧ g'.flights = g.flights ++ [f] ∧
        f.lane = 32 ∧ f.lanes = s.mask ∧ f.regs = (if d = 0 then [] else [d.toNat]) ∧
        f.vals = loadedNow s g s.mask loc size false ∧ t.reqs = s.reqs ++ rs ∧
        (f.vals.isSome = true → rs = []) ∧
        (∀ k p, loc = .mem k p → f.vals = none → ∃ r, rs = [r] ∧ r.kind = .load ∧ r.key = k ∧ r.size = size ∧ r.flight = some f.id) ∧
        ∀ k, t.homeByte k = s.homeByte k) ∧
    (∀ loc, s.Admits { Use.regs [] [a.toNat, b.toNat] with mem := true } g → ResidentShares s [32] (fun _ => loc) →
      acc (g.sreg b.toNat + BitVec.ofInt 64 (size * q.toInt)) 1 loc →
      ∃ t g' rs, exec (.sst a b w q) s = .next t ∧ OnlyAnd s t g' (asked s) sharesOf ∧ OnlyMoved s t ∧
        GoesOn g { g' with gstat := g.gstat } s.mask ∧ g'.gstat = g.gstat ||| udiv ∧ g'.flights = g.flights ∧
        Stored s t [32] (fun _ => loc) size (fun _ => leBytes size (g.sreg a.toNat).toNat) none rs)

/-- R183 to R185: `fence.rel` passes at once, and each later store and atomic of its threads waits until what precedes the fence has taken
effect; `fence.acqrel` waits for the earlier loads besides; `fence.sc` makes strong each store of the threads that its home has not applied,
drops the copies of such lines that no other thread has read them from (log 94), and passes a thread where the release of its scope is over. -/
def fencesRule : Prop :=
  ∀ (s : State) (g : Gang) (sc : BitVec 3), s.Admits { Use.regs [] [] with mem := true } g →
    let passes := fun (i : Instr) => ∃ t g' n, exec i s = .next t ∧ OnlyGang s t g' ∧ Completed g { g' with bars := g.bars } s.mask ∧
      s.serialNo ≤ n ∧ g'.bars = g.bars ++ (lanesOf s.mask).map fun l => (l, sc.toNat, n)
    let mine := fun (r : Req) => r.kind = .store ∧ r.agent = s.cur ∧ r.lanes &&& s.mask ≠ 0 ∧ (r.state = .sent ∨ r.state = .held)
    let hides := fun (r : Req) => mine r ∧ r.merged = true ∧ 2 ≤ sc.toNat ∧ ∀ p ∈ s.wgs, ∀ q ∈ p.2.gangs, ∀ x ∈ q.2.watched, x.1 ≠ r.id
    passes (.fenceRel sc) ∧
    (if ∀ l ∈ lanesOf s.mask, s.loadsDone s.cur l = true then passes (.fenceAcqrel sc)
      else ∃ t g', exec (.fenceAcqrel sc) s = .next t ∧ OnlyGang s t g' ∧ Waits g g' s.mask) ∧
    ∃ t g', exec (.fenceSc sc) s = .next t ∧ OnlyAnd s t g' (fun t => { t with reqs := s.reqs, l1 := s.l1 }) noneOf ∧
      List.Forall₂ (fun r q => (mine r → q.scope = some (match r.scope with
          | some k => max sc.toNat k
          | none => sc.toNat)) ∧ (¬mine r → q.scope = r.scope) ∧ (hides r → q.merged = false) ∧ (¬hides r → q.merged = r.merged) ∧
        { q with scope := r.scope, merged := r.merged } = r) s.reqs t.reqs ∧
      (∀ c n, ((∃ r ∈ s.reqs, hides r ∧ r.l1 = c ∧ r.key / 128 = n) → s.ownedLine c n = none → Tab.find (t.l1At c) n = none) ∧
        (¬(∃ r ∈ s.reqs, hides r ∧ r.l1 = c ∧ r.key / 128 = n) ∨ (s.ownedLine c n).isSome = true →
          Tab.find (t.l1At c) n = Tab.find (s.l1At c) n)) ∧
      (∀ l, l < 32 → g'.pcOf l = if s.mask.getLsbD l = true ∧ s.released s.cur sc.toNat l = true then g.pcOf l + 4 else g.pcOf l) ∧
      (∀ l, l < 32 → if s.mask.getLsbD l then
          (if s.released s.cur sc.toNat l then g'.stat l = .ready else ∃ n, g'.stat l = .release n sc.toNat 1 0 0 [] default)
        else g'.stat l = g.stat l) ∧
      g'.v = g.v ∧ g'.s = g.s ∧ g'.g = g.g ∧ g'.fcr = g.fcr ∧ g'.flights = g.flights ∧ g'.withLanesOf g = g

/-- R178, R183, R185: a store that a fence before it still holds makes its group wait. -/
def fencedStoresWaitRule : Prop :=
  ∀ (s : State) (g : Gang) (n : BitVec 1) (gd : BitVec 3) (a b : BitVec 6) (u : BitVec 1) (k : BitVec 8) (loc : Nat → Loc),
    let va := fun l => g.opB l b u + BitVec.ofInt 64 (8 * k.toInt)
    let xs := accesses ((lanesOf s.mask).filter fun l => g.guard l gd.toNat != (n == 1)) va loc
    s.Admits { useB [] b u with lanes := a.toNat :: (useB [] b u).lanes, guards := [gd.toNat], mem := true } g →
    (∀ x ∈ xs, s.check s.cur 1 8 x.addr = .ok x.loc) → (∃ x ∈ xs, s.barred x = true) →
    ∃ t g', exec (.std n gd a b u k) s = .next t ∧ OnlyGang s t g' ∧ Waits g g' s.mask

/-- R135, R183, R185, R200: fences, `waitne` and `prefetch`. `fence.wct` writes the largest time D of R183 once every thread is quiet;
`waitne` delivers the word where it differs from the compare value; `prefetch` asks for the lines that its L1 misses. That a prefetch in a
window, or with a base that is not available, reads it as it stands is the model's choice (log 93). Which earlier stores `fence.sc` makes
strong, and that a waiting `waitne` holds up no lock, are readings too (logs 94, 118). -/
def Obligations.FencesAndWaitne : Prop :=
  fencesRule ∧ fencedStoresWaitRule ∧
  ∀ (s : State) (g : Gang) (sc : BitVec 3) (d a b : BitVec 6) (u : BitVec 1) (h : BitVec 2) (o : BitVec 8),
    let named := ∀ l n c k e y z p, g.stat l = .release n c k e y z p → n ≤ s.serialNo
    (s.Admits (.regs [] []) g → ∃ t g', exec (.fenceAcq sc) s = .next t ∧ OnlyGang s t g' ∧
      if ∀ l ∈ lanesOf s.mask, s.loadsDone s.cur l = true then Completed g g' s.mask else Waits g g' s.mask) ∧
    (named → s.mask ≠ 0 → s.mask &&& ~~~g.live = 0 →
      (∀ l ∈ lanesOf s.mask, s.quiet s.cur l = true ∧ (2 ≤ sc.toNat → g.watching l = false)) →
      UniIs (.fenceWct d sc) { Use.regs [] [d.toNat] with mem := true } s g d
        (if sc.toNat ≤ 1 then 0 else BitVec.ofNat 64 (((lanesOf s.mask).map g.releaseTime).foldl max 0))) ∧
    (∀ loc : Nat → Loc, s.Admits { useB [d, a] b u with mem := true } g →
      MayIssue s 0 8 (accesses (lanesOf s.mask) (fun l => g.vreg l a.toNat) loc) →
      (∀ l, s.mask.getLsbD l = true → ∀ k p, loc l = .mem k p → s.poisoned k = false) →
      let word := fun l => BitVec.ofNat 64 (leNat (match loc l with
        | .mem k _ => s.ownView s.cur (laneBit l) k (s.homeRead k 8)
        | .scratch v q => s.locRead (.scratch v q) 8
        | .acc v q => s.locRead (.acc v q) 8
        | .reg q => s.locRead (.reg q) 8))
      ∃ t g' n, exec (.waitne d a b u) s = .next t ∧ OnlyGang s t g' ∧
        (∀ l n, l < 32 → n < 64 → g'.vreg l n =
          if s.mask.getLsbD l = true ∧ word l ≠ g.opB l b u ∧ n = d.toNat then word l else g.vreg l n) ∧
        (∀ l, l < 32 → g'.pcOf l = if s.mask.getLsbD l = true ∧ word l ≠ g.opB l b u then g.pcOf l + 4 else g.pcOf l) ∧
        (∀ l, l < 32 → g'.stat l = if s.mask.getLsbD l then
            (if word l = g.opB l b u then .waitne (g.vreg l a.toNat) (g.opB l b u) d.toNat n else .ready) else g.stat l) ∧
        g'.s = g.s ∧ g'.g = g.g ∧ g'.fcr = g.fcr ∧ g'.flights = g.flights) ∧
    (h.toNat ≤ 2 → s.Admits (s.prefetchUse a u) g →
      ∃ t g' rs, exec (.prefetch h a u o) s = .next t ∧
        OnlyAnd s t g' (fun t => { t with reqs := s.reqs, tlbs := s.tlbs, tenants := s.tenants }) noneOf ∧ OnlyMoved s t ∧
        Completed g g' s.mask ∧ t.reqs = s.reqs ++ rs ∧ (h = 1#2 → rs = []) ∧
        ∀ r ∈ rs, r.kind = .prefetch ∧ r.agent = s.cur ∧ r.flight = none ∧ s.mask.getLsbD r.lane = true ∧
          s.fetchHit (s.l1Of s.cur) r.key = none ∧ r.operand = if h = 2#2 then 4096 else 0)

/-! ### Instructions with a uniform result (R86, R122, R123) -/

/-- An admitted instruction that no divergence turns away answers a next state in which uniform register d holds x, the group goes on,
what `back` and `field` restore may differ too, and `more` holds. -/
def UniAnd (i : Instr) (us : Use) (s : State) (g : Gang) (d : BitVec 6) (x : Word) (back : State → State)
    (field : Workgroup → Workgroup → Workgroup) (more : State → Prop) : Prop :=
  s.Admits us g → ¬UdivTraps s g d → ∃ t g', exec i s = .next t ∧ OnlyAnd s t g' back field ∧
    TookUniform g g' s.mask d.toNat x (if d ≠ 0 ∧ g.live ≠ s.mask then 1 else 0) ∧ more t
/-- As `UniAnd`, of a result that may change anything besides: uniform register d holds x and the group goes on. -/
def UniSo (i : Instr) (us : Use) (s : State) (g : Gang) (d : BitVec 6) (x : State → Word) (more : State → Prop) : Prop :=
  s.Admits us g → ¬UdivTraps s g d → ∃ t g', exec i s = .next t ∧ t.gang s.cur = some g' ∧
    TookUniform g g' s.mask d.toNat (x t) (if d ≠ 0 ∧ g.live ≠ s.mask then 1 else 0) ∧ more t
/-- What the reads of an instruction leave changed besides: the lines that they fill, and what homes keep of those and of the lines that they
replace (R159, R175, R205). -/
def filled (s t : State) : State :=
  { t with l1 := s.l1, homes := s.homes, mem := s.mem, dirtyLines := s.dirtyLines, predictors := s.predictors, free := s.free }
/-- Every byte of memory reads as before. -/
def SameBytes (s t : State) : Prop := OwnersWhole s → ∀ q, t.homeByte q = s.homeByte q
/-- A gang but for what the reads of an instruction leave of its horizon (R178). -/
def unread (g' g : Gang) : Gang := { g' with horizon := g.horizon, seen := g.seen, watched := g.watched }
/-- As `UniIs`, `UniSo` and `WaitsIs`, of an instruction that has read a record: what reads leave of the horizon may differ. -/
def UniReads (i : Instr) (us : Use) (s : State) (g : Gang) (d : BitVec 6) (x : Word) : Prop :=
  s.Admits us g → ¬UdivTraps s g d → ∃ t g', exec i s = .next t ∧ OnlyAnd s t g' (filled s) noneOf ∧ SameBytes s t ∧
    TookUniform g (unread g' g) s.mask d.toNat x (if d ≠ 0 ∧ g.live ≠ s.mask then 1 else 0)
def UniReadsSo (i : Instr) (us : Use) (s : State) (g : Gang) (d : BitVec 6) (x : State → Word) (more : State → Prop) : Prop :=
  s.Admits us g → ¬UdivTraps s g d → ∃ t g', exec i s = .next t ∧ t.gang s.cur = some g' ∧ SameBytes s t ∧
    TookUniform g (unread g' g) s.mask d.toNat (x t) (if d ≠ 0 ∧ g.live ≠ s.mask then 1 else 0) ∧ more t
def UniReadsAnd (i : Instr) (us : Use) (s : State) (g : Gang) (d : BitVec 6) (x : Word) (back : State → State) (more : State → Prop) :
    Prop :=
  s.Admits us g → ¬UdivTraps s g d → ∃ t g', exec i s = .next t ∧ OnlyAnd s t g' (fun t => back (filled s t)) noneOf ∧ SameBytes s t ∧
    TookUniform g (unread g' g) s.mask d.toNat x (if d ≠ 0 ∧ g.live ≠ s.mask then 1 else 0) ∧ more t
def ReadsAndWaits (i : Instr) (us : Use) (s : State) (g : Gang) (d : BitVec 6) : Prop :=
  s.Admits us g → ¬UdivTraps s g d → ∃ t g', exec i s = .next t ∧ OnlyAnd s t g' (filled s) noneOf ∧ SameBytes s t ∧
    Waits g (unread g' g) s.mask
/-- An admitted instruction makes its group wait, to issue again from its start; nothing else changes. -/
def WaitsIs (i : Instr) (us : Use) (s : State) (g : Gang) (d : BitVec 6) : Prop :=
  s.Admits us g → ¬UdivTraps s g d → ∃ t g', exec i s = .next t ∧ OnlyGang s t g' ∧ Waits g g' s.mask
/-- All ones, and all ones but bit 0: the answers for what is not there, and for what is not to be had. -/
def allOnes : Word := BitVec.allOnes 64
def noRoom : Word := 0xFFFFFFFFFFFFFFFE

/-! ### Barriers (R307 to R317) -/

/-- What a workgroup's scratchpad and registry hold may differ. -/
def barriersOf (y x : Workgroup) : Workgroup := { y with scratch := x.scratch, registry := x.registry }
/-- The workgroup differs in its scratchpad and registry at most at the object of an offset. -/
def OnlyObject (x y : Workgroup) (off : Nat) : Prop :=
  (∀ m, m ≠ off → Tab.find y.registry m = Tab.find x.registry m) ∧
    ∀ o, ¬(off ≤ o ∧ o < off + 16) → Mem.byte y.scratch o = Mem.byte x.scratch o
/-- No thread of a workgroup waits at an object. -/
def NobodyAt (x : Workgroup) (off : Nat) : Prop :=
  ∀ p ∈ x.gangs, ∀ l, barWaitOf off (p.2.stat l) = none ∧ barArriveOf off (p.2.stat l) = none
/-- Fields of an object, in the order `POISON`, `PHASE`, `ARRCNT`, `ARRPEND`, `BYTEPEND` (Table 14.1). -/
def objFields (o : Obj) : Bool × Bool × Nat × Nat × Int := (o.poison, o.phase, o.arrcnt, o.arrpend, o.bytes)
/-- The bits of a group's threads in a mask by `TID` (R308). -/
def tidMask (i : Nat) (m : LaneMask) : BitVec 1024 := (lanesOf m).foldl (fun b l => b ||| tidBit i l) 0

/-- R309, R312 to R316: the BAR instructions on an object whose address passes its checks, of a resident workgroup. An unregistered object
answers all ones. What `barexpect` answers as it completes a phase, and that the object's address is looked at after the word's own checks,
are the model's readings (logs 48, 102). -/
def Obligations.Barriers : Prop :=
  ∀ (s : State) (g : Gang) (d a b : BitVec 6) (l : BitVec 4) (w off : Nat) (x : Workgroup),
    s.barPlace (g.sreg a.toNat) = .ok (w, off) → s.wg w = some x → x.place.isSome = true →
    let two : Use := { Use.regs [] [d.toNat, a.toNat] with mem := true }
    let three : Use := { Use.regs [] [d.toNat, a.toNat, b.toNat] with mem := true }
    let B := g.sreg b.toNat
    let o := x.obj off
    let at' := fun (t : State) (p : Workgroup → Prop) => ∃ y, t.wg w = some y ∧ OnlyObject x y off ∧ p y
    (Tab.find x.registry off = none →
      UniIs (.bararrive d a l) { two with allow := 1 } s g d allOnes ∧ UniIs (.barexpect d a b l) three s g d allOnes ∧
      UniIs (.barwait d a b l) { three with allow := 1 } s g d allOnes ∧ UniIs (.bartry d a b l) three s g d allOnes ∧
      UniIs (.barpoison d a l) two s g d allOnes) ∧
    (∀ r, Tab.find x.registry off = some r →
      (r.marked = false → ∀ y, (y = if o.phase ≠ B.getLsbD 0 then 0 else if o.poison then 1 else 2) →
        UniIs (.bartry d a b l) three s g d y ∧
        (y ≠ 2 → UniIs (.barwait d a b l) { three with allow := 1 } s g d y) ∧
        (y = 2 → s.Admits { three with allow := 1 } g → ¬UdivTraps s g d →
          ∃ t g', exec (.barwait d a b l) s = .next t ∧ OnlyGang s t g' ∧ OnlyStat g g' ∧
            ∀ k, k < 32 → if s.mask.getLsbD k then ∃ n, g'.stat k = .barWait off (d.toNat + 64 * l.toNat) n
              else g'.stat k = g.stat k)) ∧
      (NobodyAt x off →
        UniAnd (.barpoison d a l) two s g d 0 id barriersOf (fun t => at' t fun y =>
          objFields (y.obj off) = (true, o.phase, o.arrcnt, o.arrpend, o.bytes) ∧ Tab.find y.registry off = some r) ∧
        (let n := saturate (o.bytes + B.toInt)
         let done := o.poison = false ∧ o.arrpend = 0 ∧ n = 0
         UniAnd (.barexpect d a b l) three s g d ((if o.phase then 1 else 0) ||| (if o.poison then 0x8000000000000000 else 0))
          id barriersOf (fun t => at' t fun y => if done
            then objFields (y.obj off) = (false, !o.phase, o.arrcnt, o.arrcnt, 0) ∧ Tab.find y.registry off = some { r with arrived := 0 }
            else objFields (y.obj off) = (o.poison, o.phase, o.arrcnt, o.arrpend, n) ∧ Tab.find y.registry off = some r)) ∧
        (∀ i, s.cur = .gang w i → o.poison = false → s.mask ≠ 0 → s.mask &&& ~~~g.live = 0 →
          (lanesOf s.mask).length ≤ o.arrpend → r.arrived &&& tidMask i s.mask = 0 →
          (∀ k, s.mask.getLsbD k = true → s.released s.cur 1 k = true) →
          let left := o.arrpend - (lanesOf s.mask).length
          UniAnd (.bararrive d a l) { two with allow := 1 } s g d (if o.phase then 1 else 0) id barriersOf (fun t => at' t fun y =>
            if left = 0 ∧ o.bytes = 0
            then objFields (y.obj off) = (false, !o.phase, o.arrcnt, o.arrcnt, 0) ∧
              Tab.find y.registry off = some ⟨r.participants ||| tidMask i s.mask, 0, r.marked⟩
            else objFields (y.obj off) = (false, o.phase, o.arrcnt, left, o.bytes) ∧
              Tab.find y.registry off = some ⟨r.participants ||| tidMask i s.mask, r.arrived ||| tidMask i s.mask, r.marked⟩)))) ∧
    (let every := B.getLsbD 63
     let bad := B &&& 0x7FFFFFFFFFFF0000 ≠ 0 ∨ (every = true ∧ B &&& 0xFFFF ≠ 0)
     let full := Tab.find x.registry off = none ∧ 64 ≤ x.registry.length
     let us : Use := { three with allow := 1 }
     (bad → UniIs (.barinit d a b l) us s g d noRoom) ∧ (¬bad → full → UniIs (.barinit d a b l) us s g d allOnes) ∧
     (¬bad → ¬full → NobodyAt x off → ∀ live : BitVec 1024,
       (∀ j k, j < 32 → k < 32 → live.getLsbD (32 * j + k) = x.gangs.any fun p => p.1 == j && p.2.live.getLsbD k) →
       let n := if every then (List.range 1024).countP fun k => live.getLsbD k else B.toNat % 65536
       UniAnd (.barinit d a b l) us s g d 0 id barriersOf (fun t => at' t fun y =>
         objFields (y.obj off) = (false, false, n, n, 0) ∧
           Tab.find y.registry off = some ⟨if every then live else 0, 0, false⟩)))

/-! ### Counters, schedules and the dispenser (R270 to R277, R298, R320 to R326) -/

/-- R270, R323 to R326: reading a counter of a level of work, waiting for one, and adding to a slice's budget, which stops the slice's work
where it falls to 0 and restarts it where it rises above. That a counter is read at issue, and when a budget stop and its end reach the
threads, are the model's readings (logs 20, 109, 116). -/
def Obligations.Counters : Prop :=
  ∀ (s : State) (g : Gang) (d a b k : BitVec 6) (l : BitVec 4),
    let us := Use.regs [] [d.toNat, a.toNat]
    let us3 := Use.regs [] [d.toNat, a.toNat, b.toNat]
    let B := (g.sreg b.toNat).toNat
    let wait := fun (done : Bool) (n : Nat) =>
      if done = true ∨ B ≤ n then UniIs (.cntwait d a b l) us3 s g d (BitVec.ofNat 64 n) else WaitsIs (.cntwait d a b l) us3 s g d
    (∀ i x, s.levelOrOwn a = some (.launch i) → s.launch i = some x →
      (k.toNat ≤ 3 → UniIs (.cntrd d a k l) us s g d (match k.toNat with
        | 0 => BitVec.ofNat 64 x.gdone
        | 1 => BitVec.ofNat 64 x.wglive
        | 2 => BitVec.ofNat 64 x.spawned
        | _ => BitVec.ofNat 64 (x.ext 0 * x.ext 1 * x.ext 2 * x.ext 3))) ∧
      (x.gdone < 2 ^ 64 → wait x.done x.gdone)) ∧
    (∀ i x, s.levelOrOwn a = some (.graph i) → Tab.find s.graphs i = some x →
      (k.toNat ≤ 3 → UniIs (.cntrd d a k l) us s g d (match k.toNat with
        | 0 => BitVec.ofNat 64 x.nended
        | 1 => BitVec.ofNat 64 x.ndone
        | 2 => BitVec.ofNat 64 x.n
        | _ => allOnes)) ∧
      (x.nended < 2 ^ 64 → wait x.done x.nended)) ∧
    (∀ h x, s.levelOrOwn a = some (.slice h) → s.slice h = some x →
      (k.toNat ≤ 3 → UniSo (.cntrd d a k l) us s g d (fun t => ((t.slice h).map fun y => match k.toNat with
        | 0 => BitVec.ofInt 64 y.budget
        | 1 => BitVec.ofNat 64 y.charged
        | 2 => BitVec.ofNat 64 y.outst
        | _ => allOnes).getD 0) (fun t => (t.slice h).isSome = true)) ∧
      UniIs (.cntwait d a b l) us3 s g d allOnes ∧
      (s.sliceOf s.cur ≠ h →
        let add := (g.sreg b.toNat).toInt
        let n := saturate (x.budget + add)
        UniSo (.cntadd d a b l) { us3 with allow := 2 } s g d (fun _ => BitVec.ofInt 64 n) (fun t => ∃ y, t.slice h = some y ∧
          y.budget = n ∧ y.charged = x.charged ∧
          y.stopped = (if x.stopped = true ∧ x.be = false ∧ 0 < n then false
            else x.stopped || (decide (add < 0) && !x.be && decide (n ≤ 0)))))) ∧
    (s.levelOrOwn a = none → (k.toNat ≤ 3 → UniIs (.cntrd d a k l) us s g d allOnes) ∧ UniIs (.cntwait d a b l) us3 s g d allOnes ∧
      UniIs (.cntadd d a b l) { us3 with allow := 2 } s g d allOnes) ∧
    (∀ w i, s.cur = .gang w i → a = 0 → 32 ≤ k.toNat → UniSo (.cntrd d a k l) us s g d
      (fun t => BitVec.ofNat 64 (((t.wg w).map fun y => Tab.at y.perf k.toNat 0).getD 0)) (fun _ => True))

/-- An admitted instruction that acts on a launch of another root: the group asks that root and waits, and with its answer goes on as `p` says.
That its chip is asked by a message, and what the message holds, is the model's choice (log 31). -/
def AsksFor (j : Instr) (us : Use) (s : State) (g : Gang) (free : Prop) (p : Ask → List Word → Prop) : Prop :=
  match s.askOf with
  | none => s.Admits us g → free → ∃ t g' q, exec j s = .next t ∧ t.gang s.cur = some g' ∧ Waits g g' s.mask ∧
      t.asks = s.asks ++ [q] ∧ q.agent = s.cur ∧ q.lanes = s.mask ∧ q.pc = s.curPc ∧ q.got = none ∧
      t.out.length + t.treeHeld.length = s.out.length + s.treeHeld.length + 1
  | some q => match q.got with
    | none => s.Admits us g → free → ∃ t g', exec j s = .next t ∧ OnlyGang s t g' ∧ Waits g g' s.mask
    | some ws => p q ws
/-- The same, of one word that is written to uniform register d. -/
def AsksChip (j : Instr) (us : Use) (s : State) (g : Gang) (d : BitVec 6) : Prop :=
  AsksFor j us s g (¬UdivTraps s g d) fun q ws => UniAnd j us s g d (ws.headD allOnes) (fun t => { t with asks := s.asks }) noneOf
    (fun t => t.asks = s.asks.filter fun r => r.tag ≠ q.tag)
/-- The launch is of another root of the pod. -/
def Away (s : State) (x : Launch) : Prop := x.pod = true ∧ x.root ≠ s.chip

/-- R72, R73, R277, R398: reading a schedule register, or its copy for the proof; writing the copy; and committing it, which raises the
generation in sch7, starts the walk again and empties the dispensers, or answers the first register that fails. Of a launch of another
root, that root is asked to read or commit and told what to write; of a launch that is complete the handle is stale. What the messages hold, and
where they are applied, is the model's choice (logs 20, 31). -/
def Obligations.ScheduleRegisters : Prop :=
  ∀ (s : State) (g : Gang) (d a h : BitVec 6) (p : BitVec 1) (n : BitVec 4) (i : Nat) (x : Launch),
    let us := Use.regs [] [d.toNat, a.toNat]
    (s.levelOrOwn a = some (.launch i) → s.launch i = some x → x.done = false → (x.pod = true → x.root = s.chip) →
      UniIs (.schr d a p n) us s g d (Tab.at (if p = 1#1 then x.proof else x.sch) n.toNat 0) ∧
      (match s.schFails x x.proof with
        | some k => UniIs (.schcommit d a) us s g d (0x8000000000000000 + BitVec.ofNat 64 k)
        | none => UniAnd (.schcommit d a) us s g d (Tab.at x.sch 7 0 + 1) (fun t => { t with launches := s.launches }) noneOf
            (fun t => ∃ y, t.launch i = some y ∧ y.walk = 0 ∧ y.sch = y.proof ∧ (∀ j, j ≠ i → t.launch j = s.launch j) ∧
              (∀ j, Tab.at y.sch j 0 = if j = 7 then Tab.at x.sch 7 0 + 1 else Tab.at x.proof j 0) ∧
              y.stock = [] ∧ y.turn = [] ∧
              { y with sch := x.sch, proof := x.proof, walk := x.walk, stock := x.stock, turn := x.turn } = x))) ∧
    (s.levelOrOwn h = some (.launch i) → s.launch i = some x → x.done = false → (x.pod = true → x.root = s.chip) →
      s.Admits (.regs [] [h.toNat, a.toNat]) g →
      ∃ t g' y, exec (.schw h a n) s = .next t ∧ OnlyAnd s t g' (fun t => { t with launches := s.launches }) noneOf ∧
        Completed g g' s.mask ∧ t.launch i = some y ∧ (∀ j, j ≠ i → t.launch j = s.launch j) ∧ { y with proof := x.proof } = x ∧
        ∀ j, Tab.at y.proof j 0 = if j = n.toNat ∧ n ≠ 7 then g.sreg a.toNat else Tab.at x.proof j 0) ∧
    (s.levelOrOwn a = some (.launch i) → s.launch i = some x → Away s x →
      AsksChip (.schr d a p n) us s g d ∧ AsksChip (.schcommit d a) us s g d) ∧
    (s.levelOrOwn h = some (.launch i) → s.launch i = some x → Away s x → s.Admits (.regs [] [h.toNat, a.toNat]) g →
      ∃ t g', exec (.schw h a n) s = .next t ∧ t.gang s.cur = some g' ∧ Completed g g' s.mask ∧ t.launches = s.launches ∧
        t.out.length + t.treeHeld.length = s.out.length + s.treeHeld.length + 1) ∧
    (s.levelOrOwn a = none ∨ (s.levelOrOwn a = some (.launch i) ∧ s.launch i = some x ∧ x.done = true ∧ ¬Away s x) →
      UniIs (.schr d a p n) us s g d allOnes ∧ UniIs (.schcommit d a) us s g d allOnes) ∧
    (s.levelOrOwn h = none ∨ (s.levelOrOwn h = some (.launch i) ∧ s.launch i = some x ∧ x.done = true ∧ ¬Away s x) →
      s.Admits (.regs [] [h.toNat, a.toNat]) g → ∃ t g', exec (.schw h a n) s = .next t ∧ OnlyGang s t g' ∧ Completed g g' s.mask)

/-- A group completed an instruction that writes uniform registers: register n of the gang holds f n. -/
structure TookUnis (g g' : Gang) (m : LaneMask) (f : Nat → Word) (udiv : Word) : Prop where
  uniform : ∀ n, n < 64 → g'.sreg n = f n
  gstat : g'.gstat = g.gstat ||| udiv
  pc : ∀ l, l < 32 → g'.pcOf l = if m.getLsbD l then g.pcOf l + 4 else g.pcOf l
  stat : ∀ l, l < 32 → g'.stat l = if m.getLsbD l then .ready else g.stat l
  regs : g'.v = g.v ∧ g'.g = g.g ∧ g'.fcr = g.fcr ∧ g'.flights = g.flights
/-- The four registers of a quad, and the others as they were. -/
def quadIs (g : Gang) (q : Nat) (a b c d : Word) : Nat → Word := fun n =>
  if n = q then a else if n = q + 1 then b else if n = q + 2 then c else if n = q + 3 then d else g.sreg n

/-- R271 to R276, R298, R387, R398: `tfetch` answers DONE where the launch is cancelled, the issuing core is not in its placement or no granule is
free (its generation bits are 0 before any commit and the model's free value after one: log 4); it waits while the deal list is full or the
tenant is held under a cap; else it deals the first unit that its core's dispenser holds, where that has a free granule and no gang of the core
that ranks before it waits for one (logs 19, 68), and enters it in the deal list. `tretire` and `tgive` move dealt granules and answer how many
moved and how many did not; `tstat` reads the dispenser, at issue (log 20). Of a launch of another root, that root is asked (log 31). -/
def Obligations.Dispenser : Prop :=
  ∀ (s : State) (g : Gang) (w i : Nat) (x : Workgroup) (r : Launch) (q l : BitVec 4) (d b k : BitVec 6), OnCompute s g w i x r →
    let n := 4 * q.toNat
    let fetch : Use := { Use.regs [] [n, n + 1, n + 2, n + 3] with allow := 1 }
    let udiv : Word := if g.live ≠ s.mask then 1 else 0
    let traps := g.live ≠ s.mask ∧ g.gstat.getLsbD 1 = true
    let back : Use := { Use.regs [] [d.toNat, n, n + 1, n + 2, n + 3, b.toNat] with allow := 1 }
    let stat : Use := { Use.regs [] [d.toNat] with allow := 1 }
    let held := s.pwrZero = true ∨ ((s.tenant r.tenant).map (·.capped)).getD false = true ∨ 64 ≤ x.deals.length
    let waits := ∃ t g', exec (.tfetch q l) s = .next t ∧ OnlyGang s t g' ∧ Waits g g' s.mask
    (q ≠ 0 → r.cancel = none → Away s r → s.rankedOut w i x.core tfetchWord = false → g.aged = false →
      (held → s.askOf = none → ¬traps → s.Admits fetch g → waits) ∧
      (¬(held ∧ s.askOf = none) → AsksFor (.tfetch q l) fetch s g (¬traps) fun p ws => s.Admits fetch g → ¬traps →
        ∃ t g', exec (.tfetch q l) s = .next t ∧ OnlyAnd s t g' (fun t => { t with asks := s.asks }) noneOf ∧
          t.asks = (s.asks.filter fun r => r.tag ≠ p.tag) ∧
          TookUnis g g' s.mask (quadIs g n (ws.getD 0 0) (ws.getD 1 0) (ws.getD 2 0) (ws.getD 3 0)) udiv)) ∧
    (q ≠ 0 → ¬traps → s.Admits fetch g →
      (r.cancel.isSome = true ∨ (¬Away s r ∧ (s.inPlacement r x.core = false ∨ ∃ vs, s.sheet r r.granules = .ok vs ∧ 0 ∉ vs)) →
        ∃ t g' z, exec (.tfetch q l) s = .next t ∧ OnlyAnd s t g' (fun t => { t with free := s.free }) noneOf ∧ z.getLsbD 63 = true ∧
          (Tab.at r.sch 7 0 = 0 → z = 0x8000000000000000) ∧ TookUnis g g' s.mask (quadIs g n 0 0 0 z) udiv) ∧
      (∀ vs, r.cancel = none → ¬Away s r → s.inPlacement r x.core = true → s.sheet r r.granules = .ok vs → 0 ∈ vs → held → waits) ∧
      (∀ vs u us bs s1, r.cancel = none → ¬Away s r → s.inPlacement r x.core = true → s.sheet r r.granules = .ok vs → 0 ∈ vs →
        ¬held → s.rankedOut w i x.core tfetchWord = false → g.aged = false → r.stocked (coreKey x.core) = u :: us →
        s.moveGranules r (r.unit (r.unitAt u).1 (r.unitAt u).2) 0 1 = (bs, s1) → bs ≠ [] →
        ∃ t g' y m, exec (.tfetch q l) s = .next t ∧ t.gang s.cur = some g' ∧ t.wg w = some y ∧ t.mem = s1.mem ∧
          (∀ j, j < 64 → m.getLsbD j = decide (j ∈ bs)) ∧
          TookUnis g g' s.mask (quadIs g n (r.unitAt u).1 (r.unitAt u).2 m (Tab.at r.sch 7 0 &&& 0x7FFFFFFFFFFFFFFF)) udiv ∧
          y.deals = x.deals ++ [⟨(r.unitAt u).1, (r.unitAt u).2, m⟩] ∧ y.dealt = x.dealt + 1 ∧
          ∃ z, t.launch x.launch = some z ∧ z.stocked (coreKey x.core) = us ∧ { z with stock := r.stock, dealtTo := r.dealtTo } = r ∧
            ∀ p, p ∈ z.dealtTo ↔ p ∈ r.dealtTo ∧
              ∀ k ∈ r.unit (r.unitAt u).1 (r.unitAt u).2, k.1 ∈ bs → k.2 ≠ p.1)) ∧
    (Away s r → (q ≠ 0 → AsksChip (.tretire d q b l) back s g d ∧ AsksChip (.tgive d q b l) back s g d) ∧
      (1 ≤ k.toNat → k.toNat ≤ 5 → AsksChip (.tstat d k l) stat s g d)) ∧
    (q ≠ 0 → ¬Away s r →
      let m := g.sreg b.toNat &&& g.sreg (n + 2)
      let gs := (r.unit (g.sreg n) (g.sreg (n + 1))).filter fun p => m.getLsbD p.1
      let moved := fun (j : Instr) (dst : Nat) => ∀ bs s1, s.moveGranules r gs 1 dst = (bs, s1) →
        UniSo j back s g d (fun _ => BitVec.ofNat 64 (bs.length + (gs.length - bs.length) * 2 ^ 32)) (fun t =>
          t.mem = s1.mem ∧ ∃ y, t.launch x.launch = some y ∧ y.gdone = (if dst = 2 then r.gdone + bs.length else r.gdone))
      moved (.tretire d q b l) 2 ∧ moved (.tgive d q b l) 0) ∧
    (∀ vs, ¬Away s r → s.sheet r r.granules = .ok vs → 1 ≤ k.toNat → k.toNat ≤ 4 →
      UniIs (.tstat d k l) stat s g d (BitVec.ofNat 64 (vs.count (k.toNat - 1)))) ∧
    UniIs (.tstat d 0 l) stat s g d (BitVec.ofNat 64 (r.ext 0 * r.ext 1 * r.ext 2 * r.ext 3)) ∧
    (¬Away s r → UniIs (.tstat d 5 l) stat s g d (Tab.at r.sch 7 0)) ∧
    UniIs (.tstat d 6 l) stat s g d (BitVec.ofNat 64 x.dealt)

/-! ### Copies and range locks (R209 to R215, R304) -/

/-- What a workgroup has put away of its locks may differ. -/
def locksOf (y x : Workgroup) : Workgroup := { y with savedLocks := x.savedLocks }

/-- R209, R210, R213 to R215, R304: `cpy` queues the copy that its descriptor describes, under two range locks, and answers its handle; the
other CPY functions act on the copy that a handle names, and one that ends with no box in flight gives its locks up; `rlock` and `runlock`
take and free an entry of the core's range-lock table. A copy names its engine slot as long as no later one has taken the slot. That a bad
range is answered before a table with no free entry is, and that a range outside the canonical addresses is a bad one, is the model's choice
(log 117). So are which slot is taken, how locks compare addresses, and which copies an abort ends (logs 40, 55, 58, 95). -/
def Obligations.CopiesAndLocks : Prop :=
  ∀ (s : State) (g : Gang) (d a b : BitVec 6) (l : BitVec 4),
    let us := Use.regs [] [d.toNat, a.toNat]
    let one : Use := { us with allow := 1 }
    let kernel : Use := { us with allow := 2 }
    let copiesOf := fun (t : State) => { t with copies := s.copies, cores := s.cores }
    (∀ w i x r loc c slot, OnCompute s g w i x r → g.descs = [] → (∀ p ∈ s.copies, p.1 ≤ s.serialNo) → x.home < 512 →
      r.peerAbort = false → MayIssue s 0 64 [⟨32, s.mask, g.sreg a.toNat, loc⟩] →
      s.accPoisoned ⟨32, s.mask, g.sreg a.toNat, loc⟩ = false →
      let desc := s.readNow ⟨32, s.mask, g.sreg a.toNat, loc⟩ 64
      s.copyReason (some w) (copyCtx x.core r.pasid) (copyDesc desc) = 0 → 2 ≤ (s.freeLocks x.core).length →
      (∀ k, s.mask.getLsbD k = true → s.quiet s.cur k = true) → s.coreQuiet x.core = true →
      Tab.find s.cores x.core = some c → s.engineSlot x.core = some slot → s.rankedOut w i x.core cpyWord = false → g.aged = false →
      s.Admits { one with mem := true } g → ¬UdivTraps s g d →
      ∃ t g' k y c', exec (.cpy d a l) s = .next t ∧ t.gang s.cur = some g' ∧
        TookUniform g (unread g' g) s.mask d.toNat y.handle (if d ≠ 0 ∧ g.live ≠ s.mask then 1 else 0) ∧
        SameBytes s t ∧ Tab.find s.copies k = none ∧ Tab.find t.copies k = some y ∧ y.desc = desc ∧ y.state = 0 ∧ y.core = x.core ∧ y.wg = some w ∧
        y.handle.toNat % 2 ^ 16 = slot * 512 + x.home ∧ Tab.find t.cores x.core = some c' ∧
        2 ≤ (c'.locks.filter fun p => p.2.owner == .copy k).length) ∧
    (∀ k c, s.copyNamed (g.sreg a.toNat) = some (k, c) → Tab.find s.copies k = some c →
      let after := fun (j : Instr) (u : Use) (read : Bool) (c' : Copy) => UniAnd j u s g d c'.status copiesOf locksOf (fun t =>
        Tab.find t.copies k = some { c' with endRead := c'.endRead || (read && decide (3 ≤ c'.state)) } ∧
        (∀ m, m ≠ k → Tab.find t.copies m = Tab.find s.copies m) ∧
        (c'.boxBusy = [] → 4 ≤ c'.state → c.state < 3 → ∀ q, Tab.find t.cores c.core = some q →
          ∀ p ∈ q.locks, p.2.owner = .copy k → p.2.closing = true ∧ s.lockFree p.2 = false))
      after (.cpystat d a l) us true c ∧
      (if 3 ≤ c.state then after (.cpywait d a l) us true c else WaitsIs (.cpywait d a l) us s g d) ∧
      after (.cpycancelCancel d a l) us false (if c.state < 3 then
        (if c.boxBusy = [] then { c with state := 5, code := 0x15, cancelling := false } else { c with cancelling := true }) else c) ∧
      ((∀ n, s.mask.getLsbD n = true → s.quiet s.cur n = true) →
        after (.cpycancelResume d a l) kernel false (if c.state = 2 then { c with state := 1, code := 0, fbox := 0 } else c)) ∧
      after (.cpycancelFail d a l) kernel false
        (if c.state = 2 then { c with state := 4, code := 0x0E, cancelling := false } else c)) ∧
    (s.copyNamed (g.sreg a.toNat) = none → UniIs (.cpystat d a l) us s g d allOnes ∧ UniIs (.cpywait d a l) us s g d allOnes ∧
      UniIs (.cpycancelCancel d a l) us s g d allOnes ∧ UniIs (.cpycancelResume d a l) kernel s g d allOnes ∧
      UniIs (.cpycancelFail d a l) kernel s g d allOnes) ∧
    (∀ w i x r c, OnCompute s g w i x r → Tab.find s.cores x.core = some c →
      let coresOf := fun (t : State) => { t with cores := s.cores }
      let rl : Use := { Use.regs [] [d.toNat, a.toNat, b.toNat] with allow := 1, mem := true }
      let first : Nat := (g.sreg a.toNat).toNat
      let len : Nat := (g.sreg b.toNat).toNat % 2 ^ 40
      let bad := (g.sreg b.toNat).toNat / 2 ^ 40 % 2 ^ 23 ≠ 0 ∨ len = 0 ∨ crosses ((first : Int), (first : Int) + (len : Int) - 1) = true
      (bad → UniIs (.rlock d a b l) rl s g d noRoom) ∧
      (¬bad → (∀ n, n < 32 → (Tab.find c.locks n).isSome = true) → UniIs (.rlock d a b l) rl s g d allOnes) ∧
      (∀ n, ¬bad → n < 32 → Tab.find c.locks n = none → (∀ m, m < n → (Tab.find c.locks m).isSome = true) →
        if s.coreQuiet x.core then UniAnd (.rlock d a b l) rl s g d (BitVec.ofNat 64 n) coresOf noneOf (fun t =>
          ∃ c', Tab.find t.cores x.core = some c' ∧ (∀ m, m ≠ n → Tab.find c'.locks m = Tab.find c.locks m) ∧
            Tab.find c'.locks n = some
              ⟨first % 2 ^ 57, (first + len - 1) % 2 ^ 57, r.pasid, !(g.sreg b.toNat).getLsbD 63, .gang w i, 0, false⟩)
        else WaitsIs (.rlock d a b l) rl s g d) ∧
      (∀ k, Tab.find c.locks (g.sreg a.toNat).toNat = some k → k.owner = .gang w i → k.closing = false →
        UniAnd (.runlock d a l) one s g d 0 coresOf noneOf (fun t => ∃ c', Tab.find t.cores x.core = some c' ∧
          (∀ m, m ≠ (g.sreg a.toNat).toNat → Tab.find c'.locks m = Tab.find c.locks m) ∧
          Tab.find c'.locks (g.sreg a.toNat).toNat = if s.lockFree k = true then none else some { k with closing := true })) ∧
      ((∀ k, Tab.find c.locks (g.sreg a.toNat).toNat = some k → k.owner ≠ .gang w i ∨ k.closing = true) →
        UniIs (.runlock d a l) one s g d 1))

/-! ### Work (R278 to R282, R292, R300, R302, R320 to R322) -/

/-- R278, R279, R292, R322: `launch` and `launchp` read a record, release, and answer the handle of a new entry whose node stands ready;
they answer or wait where there is no room. On a compute core an sb field other than 0 encodes nothing (whose tenant a broken fault ring
kills is the model's reading: log 23). So are which entry is taken, the wait for a completion-counter entry, how a service core's own record
is read, and that a node takes an entry of the TCB store (logs 58, 59, 66, 86). -/
def Obligations.LaunchInstructions : Prop :=
  ∀ (s : State) (g : Gang) (d a b : BitVec 6) (l : BitVec 4) (pod : Bool),
    let i : Instr := if pod then .launchp d a b l else .launch d a b l
    let us : Use := { Use.regs [] [d.toNat, a.toNat, b.toNat] with mem := true }
    let A := g.sreg a.toNat
    (isGang s.cur = false → s.workSlice (g.sreg b.toNat) = none → UniIs i us s g d allOnes) ∧
    (∀ w n x r, OnCompute s g w n x r → b ≠ 0 → ∃ t, exec i s = .next t ∧ Suspended s t g n x r 1) ∧
    ∀ v r, (isGang s.cur = true → b = 0) → s.workSlice (g.sreg b.toNat) = some v → A.toNat % 64 = 0 →
      s.recordChunks v.2.2 ((List.range 6).map fun j => A + BitVec.ofNat 64 (64 * j)) = .ok r →
      let read := ((List.range 6).map fun j => A + BitVec.ofNat 64 (64 * j)).foldl State.chunkSeen s
      let released := ∀ k, s.mask.getLsbD k = true → read.released s.cur (if pod then 4 else 3) k = true
      (¬released → ReadsAndWaits i us s g d) ∧
      (released → s.freeNode = none → UniReads i us s g d noRoom) ∧
      ∀ n, released → s.freeNode = some n →
        (s.freeLaunch = none → ReadsAndWaits i us s g d) ∧
        ∀ k, s.freeLaunch = some k → UniReadsSo i us s g d
          (fun t => BitVec.ofNat 64 (((t.launch k).map (·.serial)).getD 0 * 2 ^ 24 + k % 2 ^ 18 * 64 + 1))
          (fun t => ∃ y z, t.launch k = some y ∧ y.record = r ∧ y.slice = v.1 ∧ y.tenant = v.2.1 ∧ y.pasid = v.2.2 ∧ y.pod = pod ∧
            y.node = some n ∧ y.done = false ∧ y.started = false ∧ y.gdone = 0 ∧ y.wglive = 0 ∧ y.spawned = 0 ∧
            Tab.find t.tcbs n = some z ∧ z.state = 2 ∧ z.work = some k ∧ z.slice = v.1 ∧
            ∀ x, s.slice v.1 = some x → ∃ x', t.slice v.1 = some x' ∧ x'.outst = x.outst + 1)

/-- R278, R279, R300, R321: `graphsub` enters the nodes of a graph that passes its checks, those without predecessors ready; a graph that
fails them is complete at once, FAILED with `ILLEGAL`. Which entries are taken, how overflow lists are read, and how a service core's own
record is read are the model's readings (logs 22, 58, 66). -/
def Obligations.GraphSubmission : Prop :=
  ∀ (s : State) (g : Gang) (d a b : BitVec 6) (l : BitVec 4) (v : Word × Nat × Nat) (r : List Byte) (i : Nat),
    let us : Use := { Use.regs [] [d.toNat, a.toNat, b.toNat] with mem := true }
    let A := g.sreg a.toNat
    let n := (g.sreg b.toNat).toNat
    let handle := fun (t : State) => BitVec.ofNat 64 (((Tab.find t.graphs i).map (·.serial)).getD 0 * 2 ^ 24 + i % 2 ^ 18 * 64 + 2)
    let failed := fun (t : State) => ∃ y, Tab.find t.graphs i = some y ∧ y.n = n ∧ y.done = true ∧ y.kind = 4 ∧ y.code = 1 ∧
      y.slice = v.1 ∧ t.tcbs = s.tcbs ∧ SameBytes s t
    let fails := UniReadsSo (.graphsub d a b l) us s g d handle failed
    let chunks := (List.range (2 * n)).map fun j => A + BitVec.ofNat 64 (64 * j)
    let read := chunks.foldl State.chunkSeen s
    s.workSlice (s.sliceOf s.cur) = some v → s.freeGraph = some i →
    (n = 0 ∨ 65535 < n → UniSo (.graphsub d a b l) us s g d handle failed) ∧
    (1 ≤ n → n ≤ 65535 → A.toNat % 128 = 0 →
      s.recordChunks v.2.2 chunks = .ok r →
      if (lanesOf s.mask).all fun k => read.released s.cur 3 k then
        match s.withOverflow v.2.2 (images n r) with
        | none => fails
        | some rs => if graphOk rs then
            match freeRun s.ptb 65536 n s.tcbs with
            | none => UniReads (.graphsub d a b l) us s g d noRoom
            | some base => UniReadsSo (.graphsub d a b l) us s g d handle (fun t => ∃ y, Tab.find t.graphs i = some y ∧ y.n = n ∧
                y.base = base ∧ y.nended = 0 ∧ y.ndone = 0 ∧ y.done = false ∧ y.slice = v.1 ∧
                ∀ j q, rs[j]? = some q → ∃ z, Tab.find t.tcbs (base + j) = some z ∧ z.image = q ∧ z.graph = some i ∧ z.base = base ∧
                  z.pred = recAt q 4 4 ∧ z.state = if recAt q 4 4 = 0 then 2 else 1)
          else fails
      else ReadsAndWaits (.graphsub d a b l) us s g d)

/-- R252, R280, R281, R377, R380: `cancel` of a level of work in drain (mode 0) and kill (mode 1) mode, and `waitdone`. A launch of another root, and
a handle that names nothing here and may name a launch of another chip of the pod, are asked of that chip, and the group waits for the answer,
which is then the result; what the questions look like is the model's choice (logs 31, 67). -/
def Obligations.CancelAndWaitdone : Prop :=
  ∀ (s : State) (g : Gang) (d a : BitVec 6) (l : BitVec 4) (mode : Nat), mode ≤ 1 →
    let i : Instr := if mode = 0 then .cancelDrain d a l else .cancelKill d a l
    let us := Use.regs [] [d.toNat, a.toNat]
    let A := g.sreg a.toNat
    let done := fun (p : State → Prop) => s.Admits us g → ¬UdivTraps s g d → (∃ t, exec i s = .next t ∧ p t) ∧
      (mode = 0 → UniSo i us s g d (fun _ => 0) p)
    let others := s.podUp = true ∧ A.toNat % 64 = 1 ∧ ∃ c ∈ s.podChips, c ≠ s.chip
    let asks := fun (j : Instr) => AsksChip j us s g d
    (s.level A = none → UniIs i us s g d allOnes ∧ (¬others → s.askOf = none → UniIs (.waitdone d a l) us s g d allOnes) ∧
      (others → asks (.waitdone d a l))) ∧
    (∀ v, s.level A = some v →
      (s.levelDone v = true → s.awayOf v = none → UniIs i us s g d 1) ∧
      (s.containsSelf v = true → UniIs (.waitdone d a l) us s g d noRoom) ∧
      (∀ x, s.awayOf v = some x → asks i ∧ (s.containsSelf v = false → asks (.waitdone d a l)))) ∧
    (∀ k x, s.level A = some (.launch k) → s.launch k = some x → s.awayOf (.launch k) = none →
      (x.done = false → done fun t => (∃ y, t.launch k = some y ∧ y.cancel = some mode ∧ y.waiting = []) ∧
        (mode = 1 → ∀ w y, t.wg w = some y → y.launch ≠ k)) ∧
      (s.containsSelf (.launch k) = false → if x.done then UniIs (.waitdone d a l) us s g d x.statusWord
        else WaitsIs (.waitdone d a l) us s g d)) ∧
    (∀ k x, s.level A = some (.graph k) → Tab.find s.graphs k = some x →
      (x.done = false → done fun t => ∀ n z, Tab.find t.tcbs n = some z → z.graph = some k → z.state ≠ 1 ∧ z.state ≠ 2) ∧
      (s.containsSelf (.graph k) = false → if x.done
        then UniIs (.waitdone d a l) us s g d (BitVec.ofNat 64 (x.kind * 2 ^ 56 + x.code * 2 ^ 48 + (x.n - x.ndone)))
        else WaitsIs (.waitdone d a l) us s g d)) ∧
    (∀ h x, s.level A = some (.slice h) → s.slice h = some x →
      (x.cancel = none → done fun t => ∃ y, t.slice h = some y ∧ y.cancel = some mode ∧ y.endKind = 3 ∧ y.endCode = 0x15 ∧
        y.packetsDone = true) ∧
      (s.containsSelf (.slice h) = false → s.Admits us g → ¬UdivTraps s g d →
        ∃ t g', exec (.waitdone d a l) s = .next t ∧ OnlyGang s t g' ∧ OnlyStat g g' ∧
          ∀ k, k < 32 → if s.mask.getLsbD k then ∃ n, g'.stat k = .sliceWait h (d.toNat + 64 * l.toNat) n else g'.stat k = g.stat k))

/-- R282, R302: `spawn` enters an image for each thread that offers one, lowest lane first while there is room, and answers each its
entry, or all ones with the guard cleared; threads that offer nothing go on. All wait until what precedes them has taken effect. -/
def Obligations.Spawn : Prop :=
  ∀ (s : State) (g : Gang) (w i : Nat) (x : Workgroup) (r : Launch) (d a : BitVec 6) (gn : BitVec 3) (l : BitVec 4),
    OnCompute s g w i x r → s.Admits { Use.regs [d.toNat, a.toNat] [] with allow := 1, mem := true, guards := [gn.toNat] } g →
    let offers := (lanesOf s.mask).filter fun k => g.vreg k a.toNat ≠ 0
    let es := freeKeys 65536 offers.length s.tcbs
    ∀ loc : Nat → Loc, MayIssue s 0 128 (accesses offers (fun k => g.vreg k a.toNat) loc) →
      (∀ k ∈ offers, s.accPoisoned ⟨k, laneBit k, g.vreg k a.toNat, loc k⟩ = false) →
      if ∃ k ∈ lanesOf s.mask, s.released s.cur 3 k = false then
        ∃ t g', exec (.spawn d a gn l) s = .next t ∧ OnlyGang s t g' ∧ Waits g g' s.mask
      else ∃ t g', exec (.spawn d a gn l) s = .next t ∧ OnlyAnd s t g' (fun t => { filled s t with tcbs := s.tcbs, launches := s.launches }) noneOf ∧
        SameBytes s t ∧ Took g (unread g' g) s.mask
          (fun k n => if n = d.toNat ∧ k ∈ offers then (match es[offers.idxOf k]? with
            | some e => BitVec.ofNat 64 e
            | none => allOnes) else g.vreg k n)
          (fun k n => if n = gn.toNat ∧ n ≠ 0 ∧ k ∈ offers ∧ es.length ≤ offers.idxOf k then false else g.guard k n)
          (fun _ => 0) g.flights ∧
        (∀ j k e : Nat, offers[j]? = some k → es[j]? = some e → ∃ z, Tab.find t.tcbs e = some z ∧
          z.image = s.readNow ⟨k, laneBit k, g.vreg k a.toNat, loc k⟩ 128 ∧ z.state = 2 ∧ z.spawner = some x.launch) ∧
        ∃ y, t.launch x.launch = some y ∧ y.spawned = r.spawned + min offers.length es.length

/-- R217 to R219, R228 to R233: the threads of a group sign a matrix instruction: they arrive at its convergence register with the format
word and the descriptor registers, and wait there; a gang with an operation queued or running waits to sign. `mdrain` names its SB pair
whatever its format word holds, and brings the pair where a thread's `SCL` is 1: the model's choice (log 115). -/
def Obligations.MatrixSigning : Prop :=
  ∀ (s : State) (g : Gang) (w i : Nat) (x : Workgroup) (r : Launch) (n : BitVec 3) (a : BitVec 6) (p q : BitVec 5) (e : BitVec 4)
    (l : BitVec 4) (fmt : Word), OnCompute s g w i x r →
    let c := x.cv n.toNat
    let two := fun (k : Nat) => [2 * k, 2 * k + 1]
    let four := fun (k : Nat) => [4 * k, 4 * k + 1, 4 * k + 2, 4 * k + 3]
    let scl := if (lanesOf s.mask).any fun k => (g.vreg k a.toNat).getLsbD 11 then two q.toNat else []
    let signs := fun (j : Instr) (major sub : Nat) (rs second : List Nat) =>
      let us : Use := ⟨1, [a.toNat], rs ++ second, [], false, false, s.tilesNamed major a.toNat⟩
      let shape : List Word := [BitVec.ofNat 64 major, BitVec.ofNat 64 sub] ++ (rs ++ if major = 0x3D then scl else second).map g.sreg
      s.Admits us g →
      if s.signedOp w i then ∃ t g', exec j s = .next t ∧ OnlyGang s t g' ∧ Waits g g' s.mask
      else (∀ k, s.mask.getLsbD k = true → s.released s.cur 1 k = true ∧ g.vreg k a.toNat = fmt ∧
          (Tab.at c.members i 0).getLsbD k = true) →
        (c.state = 2 → c.kind = 3 ∧ c.sig = fmt ∧ c.shape = shape) →
        ∃ t g' y, exec j s = .next t ∧ OnlyAnd s t g' id cvsOf ∧ OnlyStat g g' ∧ t.wg w = some y ∧
          (∀ k, k < 32 → g'.stat k = if s.mask.getLsbD k then .gather n.toNat else g.stat k) ∧
          (y.cv n.toNat).members = c.members ∧ (y.cv n.toNat).state = 2 ∧ (y.cv n.toNat).kind = 3 ∧ (y.cv n.toNat).sig = fmt ∧
          (y.cv n.toNat).shape = shape ∧ (y.cv n.toNat).phase = c.phase ∧
          ∀ m, Tab.at (y.cv n.toNat).arrived m 0 = Tab.at c.arrived m 0 ||| (if m = i then s.mask else 0)
    signs (.mma n a p q l) 0x3C 0 (two p.toNat) (two q.toNat) ∧ signs (.mdrain n a p q l) 0x3D 0 (two p.toNat) (two q.toNat) ∧
    signs (.mzero n a l) 0x3E 0 [] [] ∧ signs (.mload n a p l) 0x3E 1 (two p.toNat) [] ∧ signs (.mstore n a p l) 0x3E 2 (two p.toNat) [] ∧
    signs (.mquant n a e l) 0x3F 0 (four e.toNat) [] ∧ signs (.mhad n a e l) 0x3F 1 (four e.toNat) []

/-! ### Service cores (R74, R265, R267, R283 to R287, R334, R342, R343, R349) -/

/-- What a service core's instruction names. -/
def coreUse (unis : List Nat) (mem : Bool) : Use := { Use.regs [] unis with allow := 2, mem := mem }
/-- Every channel but one is as it was. -/
def OtherChannels (s t : State) (i j : Nat) : Prop := ∀ p q, q < 64 → ¬(p = i ∧ q = j) → t.channel p q = s.channel p q

/-- R267, R284, R354: sending, receiving and polling messages on service core c. -/
def Obligations.Messages : Prop :=
  ∀ (s : State) (g : Gang) (c : Nat) (d a b : BitVec 6) (l : BitVec 4) (loc : Loc), s.cur = .core c → c < 64 →
    let A := g.sreg a.toNat
    let B := g.sreg b.toNat
    let us := coreUse [d.toNat, a.toNat, b.toNat] true
    let acc : Acc := ⟨32, s.mask, A, loc⟩
    let chans := fun (t : State) => { t with channels := s.channels }
    (∀ y : Word, (∀ j, j < 64 → y.getLsbD j = (decide (j < 48) && !(s.channel j c).isEmpty)) →
      UniIs (.msgpoll d l) (coreUse [d.toNat] false) s g d y) ∧
    (MayIssue s 0 64 [acc] → s.accPoisoned acc = false →
      if s.indexPresent B.toNat = false then UniIs (.msgsend d a b l) us s g d allOnes
      else if 8 ≤ (s.channel c B.toNat).length then UniIs (.msgsend d a b l) us s g d 1
      else if (lanesOf s.mask).all fun k => s.released s.cur 3 k then
        UniReadsAnd (.msgsend d a b l) us s g d 0 chans (fun t =>
          t.channel c B.toNat = s.channel c B.toNat ++ [s.readNow acc 64] ∧ OtherChannels s t c B.toNat)
      else WaitsIs (.msgsend d a b l) us s g d) ∧
    (MayIssue s 1 64 [acc] → ResidentShares s [32] (fun _ => loc) →
      let from' := fun (j : Nat) => (s.channel j c).isEmpty = false ∧ j < 48 ∧
        if B.getLsbD 63 then ∀ k, k < j → (s.channel k c).isEmpty = true else B.toNat = j
      ((∀ j, ¬from' j) → UniIs (.msgrecv d a b l) us s g d allOnes) ∧
      ∀ j m ms, from' j → s.channel j c = m :: ms →
        (m.length = 64 → s.Admits us g → ¬UdivTraps s g d →
          ∃ t g' rs, exec (.msgrecv d a b l) s = .next t ∧
            OnlyAnd s t g' (fun t => { asked s t with channels := s.channels }) sharesOf ∧ OnlyMoved s t ∧
            TookUniform g g' s.mask d.toNat (BitVec.ofNat 64 j) (if d ≠ 0 ∧ g.live ≠ s.mask then 1 else 0) ∧
            Stored s t [32] (fun _ => loc) 64 (fun _ => m) none rs ∧ t.channel j c = ms ∧ OtherChannels s t j c) ∧
        (m.length = 72 → UniSo (.msgrecv d a b l) us s g d (fun _ => BitVec.ofNat 64 j) (fun t => t.channel j c = ms ∧
          ∃ k, t.scalar c = some k ∧ k.charging = some (BitVec.ofNat 64 (leNat (m.drop 64))))))

/-- R265, R284, R285, R334, R354: `crpop` stores the earliest call record of the ring, frees its slot, charges its slice from then on and
answers the call handle; a ring that it cannot write is `WIREDFAULT` of a tenant (log 23); `resume` and `resumeall` return lanes of a call with v1 and v2, or fault-suspended lanes at a pc; `crfwd` moves the
right to resume. -/
def Obligations.CallsAndResumes : Prop :=
  ∀ (s : State) (g : Gang) (c : Nat) (d a b : BitVec 6) (p q : BitVec 5) (l : BitVec 4), s.cur = .core c →
    let us := coreUse [d.toNat, a.toNat] true
    let four := coreUse [d.toNat, 2 * p.toNat, 2 * p.toNat + 1, 2 * q.toNat, 2 * q.toNat + 1] false
    let A := g.sreg a.toNat
    (∀ loc : Nat → Loc, MayIssue s 1 64 ((List.range 32).map fun n => ⟨32, s.mask, A + BitVec.ofNat 64 (64 * n), loc n⟩) →
      (s.popSlot c = none → UniIs (.crpop d a l) us s g d 0) ∧
      ∀ j va r, s.popSlot c = some (j, va) → s.partRead (s.ctxOf s.cur) va 2048 = .ok r →
        ResidentShares s (List.range 32) loc →
        UniSo (.crpop d a l) us s g d (fun _ => (s.callerAt c j r).2) (fun t =>
          (let piece := fun (n : Nat) => (r.drop (64 * n)).take 64
           (∀ n k p, n < 32 → loc n = .mem k p → ∃ q ∈ t.reqs, q.kind = .store ∧ q.agent = s.cur ∧ q.key = k ∧ q.data = piece n ∧
              q.state = .sent ∧ s.serialNo ≤ q.id) ∧
           ∀ v x, s.wg v = some x → ∃ y, t.wg v = some y ∧ ∀ o,
             Mem.byte y.scratch o = laid (List.range 32) (fun n => scratchIn v (loc n)) piece 64 o (Mem.byte x.scratch o) ∧
             Mem.byte y.acc o = laid (List.range 32) (fun n => accIn v (loc n)) piece 64 o (Mem.byte x.acc o)) ∧
          Stands s t c (va + 0x3F) [0] ∧
          (∃ k, t.scalar c = some k ∧ k.charging = some (recWord r 0x10)) ∧
          ∀ w i x, (s.callerAt c j r).1 = some (w, i) → s.gang (.gang w i) = some x →
            ∃ y, t.gang (.gang w i) = some y ∧ y.callPopped = true ∧ y.pc = x.pc ∧ y.v = x.v)) ∧
    (let h := g.sreg (2 * p.toNat)
     let lanes := g.sreg (2 * p.toNat + 1)
     let x1 := g.sreg (2 * q.toNat)
     let x2 := g.sreg (2 * q.toNat + 1)
     let both := fun (f : Instr → Bool → Prop) => f (.resume d p q l) false ∧ f (.resumeall d p q l) true
     ((h.toNat % 64 ≠ 5 → h.toNat % 64 ≠ 6 → both fun i _ => UniIs i four s g d allOnes)) ∧
     (∀ kind w x i y, kind = 5 ∨ kind = 6 → h.toNat % 64 = kind → s.gangByHandle h kind = some (w, x, i, y) → s.wg w = some x →
       (∀ o ∈ s.ops, o.2.wg = w → o.2.state ≠ 3) →
       let waits := if kind = 5 then y.callLanes &&& ~~~y.callDone &&& y.live else y.faultLanes &&& y.live
       (if kind = 5 then y.callSlot.isSome = true else y.faultLanes ≠ 0) →
       s.holder h (if kind = 5 then y.callCluster else y.faultCluster) = c →
       both fun j all =>
         let m := if all then waits else lanes.setWidth 32
         (all = false → lanes.toNat < 2 ^ 32) → (kind = 6 → x2 = 0) →
         if m &&& ~~~waits ≠ 0 then UniIs j four s g d 1
         else (∀ f ∈ y.flights, f.lane = 32 ∨ m.getLsbD f.lane = false) →
           (∀ k, s.mask.getLsbD k = true → s.released s.cur 3 k = true) →
           UniSo j four s g d (fun _ => 0) (fun t => ∃ z, t.gang (.gang w i) = some z ∧
             (∀ k, k < 32 → z.stat k = if m.getLsbD k then .ready else y.stat k) ∧
             (∀ k, k < 32 → z.pcOf k = if kind = 6 ∧ m.getLsbD k = true then x1 else y.pcOf k) ∧
             (kind = 5 → ∀ k, m.getLsbD k = true → (y.holds (lineOfV y.count k 1) = true → z.vreg k 1 = x1) ∧
               (y.holds (lineOfV y.count k 2) = true → z.vreg k 2 = x2)) ∧
             (kind = 6 → z.v = y.v ∧ z.faultLanes = y.faultLanes &&& ~~~m) ∧
             (kind = 5 → z.callSlot = if y.callLanes &&& ~~~(y.callDone ||| m) &&& y.live = 0 then none else y.callSlot)))) ∧
    (∀ kind w x i y, kind = 5 ∨ kind = 6 → A.toNat % 64 = kind → s.gangByHandle A kind = some (w, x, i, y) →
      (if kind = 5 then y.callSlot.isSome = true else y.faultLanes ≠ 0) → s.servicePresent (g.sreg b.toNat).toNat = true →
      s.holder A (if kind = 5 then y.callCluster else y.faultCluster) = c →
      UniAnd (.crfwd d a b l) (coreUse [d.toNat, a.toNat, b.toNat] false) s g d 0 (fun t => { t with rights := s.rights }) noneOf
        (fun t => (∀ n, t.holder A n = (g.sreg b.toNat).toNat) ∧ ∀ h n, h ≠ A → t.holder h n = s.holder h n))

/-- R74, R169, R171, R284, R286, R341, R354: reading and writing K registers, `kret`, `idle` and `tlbinv` on service core c. What `kwr` to
`KSHARD` does, the levels of `KIP` bits 4 to 6, and `KTVAL` of a trap without an address are the model's readings (logs 25, 13, 42). -/
def Obligations.ServiceRegisters : Prop :=
  ∀ (s : State) (g : Gang) (c : Nat) (k : Scalar) (d a b n : BitVec 6), OnService s c k → g = k.ctx →
    let A := g.sreg a.toNat
    let core := fun (i : Instr) (us : Use) (p : Gang → Scalar → Prop) => s.Admits us g →
      ∃ t g' k', exec i s = .next t ∧ t.gang s.cur = some g' ∧ t.scalar c = some k' ∧ (∀ a, a ≠ s.cur → t.gang a = s.gang a) ∧
        t.mem = s.mem ∧ t.channels = s.channels ∧ p g' k'
    let kept := fun (x : Nat) => match x with
      | 1 => (0x80000000000000FF : Word)
      | 4 => 0x7F
      | 7 => ~~~0xFFF
      | 8 => ~~~0x7FFFF
      | 9 => 0xFFFFF
      | 10 => 0xF0000FFFFFFFFFFF
      | _ => allOnes
    (n.toNat ≤ 14 → UniIs (.krd d n) (coreUse [d.toNat] false) s g d (if n = 5 then s.kip c else k.kreg n.toNat)) ∧
    (n.toNat ≤ 14 → (n = 10 → A.toNat / 2 ^ 60 ≤ 1) → core (.kwr a n) (coreUse [a.toNat] false) fun g' k' => Completed g g' s.mask ∧
      (∀ m, k'.kreg m = if m = n.toNat ∧ n ≠ 0 then (if n = 5 then k.kreg 5 &&& ~~~(A &&& 8) else A &&& kept m) else k.kreg m) ∧
      { k' with ctx := k.ctx, k := k.k } = k) ∧
    core .kret (coreUse [] false) (fun g' k' => k'.handling = false ∧ g'.pcOf 0 = k.kreg 2 ∧ g'.v = g.v ∧ g'.s = g.s ∧ k'.k = k.k ∧
      { k' with ctx := k.ctx, handling := k.handling } = k) ∧
    core .idle (coreUse [] false) (fun g' k' => Completed g g' s.mask ∧ k'.idle = true ∧ k'.charging = none ∧ k'.k = k.k) ∧
    (let us := coreUse [d.toNat, a.toNat, b.toNat] false
     let kind := A.toNat / 2 ^ 61 % 4
     let pasid := A.toNat % 2 ^ 20
     let start := (g.sreg b.toNat).toNat % 2 ^ 57 / 4096 * 4096
     let len := if g.sreg d.toNat = 0 then 2 ^ 56 - start % 2 ^ 56 else (g.sreg d.toNat).toNat
     let tag := if (g.sreg b.toNat).getLsbD 56 then none else some pasid
     let goes := fun (e : Tlb) => kind = 0 ∨ (kind = 1 ∧ e.tag = some pasid) ∨
       (kind = 2 ∧ e.tag = tag ∧ e.base < start + len ∧ start < e.base + e.size)
     (kind ≠ 3 → A.getLsbD 63 = false → A.toNat / 2 ^ 20 % 2 ^ 41 = 0 → g.retrying s.mask = false → s.Admits us g →
       ∃ t g' v, exec (.tlbinv d a b) s = .next t ∧
         OnlyAnd s t g' (fun t => { t with tlbs := s.tlbs, walks := s.walks, invals := s.invals }) noneOf ∧ Waits g g' s.mask ∧
         t.invals = s.invals ++ [v] ∧ g'.stat 0 = .retry v.id ∧
         ∀ u e, e ∈ Tab.at t.tlbs u [] ↔ e ∈ Tab.at s.tlbs u [] ∧ ¬goes e) ∧
     (∀ m, kind ≠ 3 → A.getLsbD 63 = false → A.toNat / 2 ^ 20 % 2 ^ 41 = 0 → g.stat 0 = .retry m → (∀ v ∈ s.invals, v.id ≠ m) →
       s.Admits us g → ∃ t g', exec (.tlbinv d a b) s = .next t ∧ OnlyGang s t g' ∧ Completed g g' s.mask))

/-- R78, R129, R258, R287, R342, R343: the CTX instructions on the gang or workgroup that a handle names, and `setdeadline`. That a
workgroup counts as no longer resident from the moment its eviction begins is the model's reading (log 114). So are what of a resident
gang's image is read back, and `setdeadline` of all ones (logs 26, 17). -/
def Obligations.ContextsAndDeadlines : Prop :=
  ∀ (s : State) (g : Gang) (c : Nat) (d a b : BitVec 6) (l : BitVec 4), s.cur = .core c →
    let A := g.sreg a.toNat
    let B := g.sreg b.toNat
    let three := coreUse [d.toNat, a.toNat, b.toNat] false
    let two := coreUse [d.toNat, a.toNat, 0] false
    let word := fun (x : Workgroup) (y : Gang) => BitVec.ofNat 64 ((match x.place with
        | some (core, slot) => if x.evicting then 0 else 2 ^ 63 + core * 2 ^ 42 + slot * 2 ^ 40
        | none => 0) + (if x.pinned then 2 ^ 62 else 0) + (if y.callSlot.isSome then 2 ^ 61 else 0) + y.live.toNat * 2 ^ 8 +
      y.gstat.toNat % 256)
    (A.toNat % 64 ≠ 3 → A.toNat % 64 ≠ 4 → A.toNat % 64 ≠ 6 → UniIs (.ctxstat d a l) two s g d allOnes ∧
      UniIs (.ctxevict d a l) two s g d allOnes ∧ UniIs (.ctxpin d a b l) three s g d allOnes ∧
      UniIs (.gangkill d a b l) three s g d allOnes ∧ UniIs (.wgkill d a b l) three s g d allOnes) ∧
    (∀ w x i y, A.toNat % 64 = 3 → s.gangByHandle A 3 = some (w, x, i, y) → s.wg w = some x →
      UniIs (.ctxstat d a l) two s g d (word x y) ∧
      UniSo (.ctxevict d a l) two s g d (fun _ => 0) (fun t => ∃ z, t.gang (.gang w i) = some z ∧ { z with lines := y.lines, dirty := y.dirty } = y ∧
        z.lines = [] ∧ z.dirty = []) ∧
      UniSo (.gangkill d a b l) three s g d (fun _ => 0) (fun t => ∃ z, t.gang (.gang w i) = some z ∧ z.ended = true ∧ z.live = 0 ∧
        z.slot = false ∧ z.flights = [])) ∧
    (∀ w x i r, A.toNat % 64 = 4 → s.byHandle A 4 = some (w, x, i) → s.wg w = some x →
      s.launchOf x = some r →
      UniIs (.ctxstat d a l) two s g d (word x (Tab.at x.gangs 0 default)) ∧
      (1 < B.toNat → UniIs (.ctxpin d a b l) three s g d noRoom) ∧
      (B.toNat ≤ 1 → UniAnd (.ctxpin d a b l) three s g d 0 id (fun y x => { y with pinned := x.pinned }) (fun t =>
        ∃ y, t.wg w = some y ∧ y.pinned = decide (B = 1) ∧ ∀ v, v ≠ w → (t.wg v).map (·.pinned) = (s.wg v).map (·.pinned))) ∧
      UniSo (.wgkill d a b l) three s g d (fun _ => 0) (fun t => t.wg w = none ∧
        ∃ y, t.launch x.launch = some y ∧ y.wglive = r.wglive - 1)) ∧
    (s.slice A = none → UniIs (.setdeadline d a b) three s g d allOnes) ∧
    (∀ x, s.slice A = some x → UniSo (.setdeadline d a b) three s g d (fun _ => if x.be then allOnes else BitVec.ofNat 64 x.deadline)
      (fun t => ∃ y, t.slice A = some y ∧ y.deadline = B.toNat ∧ y.be = decide (B = allOnes) ∧ y.tenant = x.tenant ∧
        (B = allOnes → y.stopped = false)))

/-! ### Events: fetch, slots, the register cache and delivery -/

/-- An event answers a next state of which p holds. -/
def Becomes (i : Instr) (s : State) (p : State → Prop) : Prop := ∃ t, exec i s = .next t ∧ p t
/-- State t with the counters of its workgroups as s has them. -/
def countedAs (s t : State) : State :=
  { t with wgs := t.wgs.map fun p => (p.1, { p.2 with perf := ((s.wg p.1).map (·.perf)).getD p.2.perf }) }
/-- Only the gang of agent a differs, and it becomes g'. -/
def OneGang (s t : State) (a : Agent) (g' : Gang) : Prop :=
  t.gang a = some g' ∧ (∀ b, b ≠ a → t.gang b = s.gang b) ∧
    (∀ w x, s.wg w = some x → ∃ y, t.wg w = some y ∧ { y with gangs := x.gangs } = x) ∧
    (∀ i c, s.scalar i = some c → ∃ d, t.scalar i = some d ∧ { d with ctx := c.ctx } = c) ∧
    { t with wgs := s.wgs, scalars := s.scalars } = s

/-- R21, R159, R175: a fetch turn serves the next waiting pc of an agent: every lane of the PC-group there holds the word at the pc in its
loop buffer, whose window of at most 48 words begins there. Lines may enter the L1, and count as fills: no byte changes as a home holds it. -/
def fetchTurnServes : Prop :=
  ∀ (s : State) (a : Agent) (g : Gang) (pc : Word) (k p : Nat), s.gang a = some g → s.mayIssue a = true → (∀ i, a = .core i → i < 40) →
    nextInTurn g.lastTurn g.waitingPcs = some pc → s.fetchCheck a pc = .ok (.mem k p) → s.poisoned k = false → LinesWhole s →
    Becomes (.fetchTurn a) s fun t => ∃ g',
      OneGang s (countedAs s { t with
        mem := s.mem, l1 := s.l1, homes := s.homes, predictors := s.predictors, tlbs := s.tlbs, free := s.free, dirtyLines := s.dirtyLines }) a g' ∧
      (∀ n, t.homeByte n = s.homeByte n) ∧ g'.lastTurn = some pc ∧
      { g' with lastTurn := g.lastTurn, bufs := g.bufs, came := g.came } = g ∧
      ∀ l, if (g.group pc).getLsbD l then Tab.find g'.came l = none ∧ ∃ ws, Tab.find g'.bufs l = some ⟨pc, ws⟩ ∧ ws.length ≤ 48 ∧
          ws[0]? = some (s.fetchByte (s.l1Of a) p (k + 3) ++ s.fetchByte (s.l1Of a) p (k + 2) ++ s.fetchByte (s.l1Of a) p (k + 1) ++
            s.fetchByte (s.l1Of a) p k)
        else Tab.find g'.came l = Tab.find g.came l ∧ Tab.find g'.bufs l = Tab.find g.bufs l
/-- R22: a gang that has been ready and unserved for 4,096 cycles (5,120 ns) is aged, while it may issue; so is a saved workgroup, a node, or a
launch with workgroups to place, that has waited so long in the ready pool for what it could use. What counts as the time of a wait is the
model's reading (log 28). -/
def agingAfter4096Cycles : Prop :=
  (∀ (s : State) (w i : Nat) (g : Gang), s.gang (.gang w i) = some g → g.ended = false →
    (s.contends w i g = true → g.since + 5120 ≤ s.ptb →
      Becomes (.gangAged w i) s fun t => OneGang s t (.gang w i) { g with aged := true }) ∧
    (s.contends w i g = false ∨ s.ptb < g.since + 5120 → exec (.gangAged w i) s = .next s)) ∧
  (∀ (s : State) (w n : Nat) (x : Workgroup) (r : Launch), s.wg w = some x → s.launchOf x = some r → x.place = none →
    s.sliceStopped r.slice = false → x.since + 5120 ≤ s.ptb →
    Becomes (.readyPoolAged w n) s fun t => t.wg w = some { x with aged := true } ∧ (∀ v, v ≠ w → t.wg v = s.wg v) ∧
      { t with wgs := s.wgs } = s) ∧
  (∀ (s : State) (w n : Nat) (c : Tcb), s.wg w = none → n < 65536 → s.tcb n = some c →
    (s.nodeFree n c = true ∧ c.freeAt + 5120 ≤ s.ptb) ∨
      (c.state = 3 ∧ ∃ l x, c.work = some l ∧ s.launch l = some x ∧ s.launchWaits x = true ∧ x.freeAt + 5120 ≤ s.ptb) →
    Becomes (.readyPoolAged w n) s fun t => t.tcb n = some { c with aged := true } ∧ (∀ m, m ≠ n → t.tcb m = s.tcb m) ∧
      { t with tcbs := s.tcbs } = s) ∧
  ∀ (s : State) (w l : Nat) (x : Launch), s.wg w = none → s.launch l = some x → s.launchWaits x = true → x.freeAt + 5120 ≤ s.ptb →
    Becomes (.readyPoolAged w (65536 + l)) s fun t => t.launch l = some { x with aged := true } ∧ (∀ m, m ≠ l → t.launch m = s.launch m) ∧
      { t with launches := s.launches } = s
/-- R76, R77: a line that a thread waits for arrives from its context image into a register cache with room: the registers of the
line are as the image has them, the line is present and the threads that waited for it may issue. -/
def registerLineArrives : Prop :=
  ∀ (s : State) (w i n : Nat) (x : Workgroup) (g : Gang) (r : Launch) (bs : List Byte),
    s.wg w = some x → s.gang (.gang w i) = some g → s.launchOf x = some r → x.place.isSome = true → x.evicting = false →
    (∃ l, l < 32 ∧ g.live.getLsbD l = true ∧ g.stat l = .lineFill n) → g.dirty.contains n = false → 4 ≤ n →
    n < 8 + 2 * g.count → 4 ≤ g.count → g.count ≤ 64 →
    (s.wgs.map fun p => if p.2.place.map Prod.fst = some x.core then p.2.lineCount else 0).foldl (· + ·) 0 < s.cacheLines x.core →
    s.partRead (tenantCtx r.pasid) (r.image x.wgid i + BitVec.ofNat 64 (128 * n)) 128 = .ok bs →
    Becomes (.registerLineFill (.gang w i) n) s fun t => ∃ g', t.gang (.gang w i) = some g' ∧
      (∀ b, b ≠ .gang w i → t.gang b = s.gang b) ∧ { t with wgs := s.wgs } = s ∧ (Tab.find g'.lines n).isSome = true ∧
      (∀ m, m < 64 → g'.sreg m = if lineOfS m = n ∧ m ≠ 0 then recWord bs (8 * (m % 16)) else g.sreg m) ∧
      (∀ l m, l < 32 → m < 64 → m < g.count - 4 ∨ 60 ≤ m →
        g'.vreg l m = if lineOfV g.count l m = n then recWord bs (8 * (l % 16)) else g.vreg l m) ∧
      (∀ l, l < 32 → g'.stat l = if g.stat l = .lineFill n then .ready else g.stat l) ∧
      g'.g = g.g ∧ g'.pc = g.pc ∧ g'.fcr = g.fcr ∧ g'.flights = g.flights
/-- R87: a value in flight is delivered to its registers once, and its flags to the thread's `FCR`; it is then in flight no
more. The lines of the registers are the gang's own to hold. -/
def deliveryOnce : Prop :=
  (∀ (s : State) (a : Agent) (g : Gang) (f : Flight) (vs : List Word), s.gang a = some g →
    g.flights.find? (fun x => x.id = f.id) = some f →
    f.vals = some vs → f.poisoned = false → f.lane < 32 → f.regs.Nodup → vs.length = f.regs.length → (∀ n ∈ f.regs, n < 64) →
    (∀ n ∈ f.regs, g.holds (lineOfV g.count f.lane n) = true) →
    Becomes (.destinationDelivery a f.id) s fun t => ∃ g', OneGang s t a g' ∧
      (∀ l n, l < 32 → n < 64 → g'.vreg l n = if l = f.lane then (((f.regs.zip vs).find? fun p => p.1 = n).map Prod.snd).getD (g.vreg l n) else g.vreg l n) ∧
      (∀ l, l < 32 → g'.fcrOf l = if l = f.lane then g.fcrOf l ||| f.flags.setWidth 32 else g.fcrOf l) ∧
      g'.flights = g.flights.filter (fun x => x.id ≠ f.id) ∧ g'.s = g.s ∧ g'.g = g.g ∧ g'.pc = g.pc ∧ g'.status = g.status ∧
      g'.windows = g.windows) ∧
  ∀ (s : State) (a : Agent) (g : Gang) (f : Flight) (n : Nat) (x : Word), s.gang a = some g → g.flights.find? (fun x => x.id = f.id) = some f →
    f.vals = some [x] → f.regs = [n] → f.poisoned = false → f.lane = 32 → n < 64 → g.holds (lineOfS n) = true →
    Becomes (.destinationDelivery a f.id) s fun t => ∃ g', OneGang s t a g' ∧
      (∀ m, m < 64 → g'.sreg m = if m = n ∧ n ≠ 0 then x else g.sreg m) ∧
      g'.flights = g.flights.filter (fun x => x.id ≠ f.id) ∧ g'.v = g.v ∧ g'.g = g.g ∧ g'.fcr = g.fcr ∧ g'.pc = g.pc ∧ g'.status = g.status
/-- R165, R166, R171: a completed walk installs the entry it found at the head of the buffer that asked for it, and a cancelled one
leaves nothing. -/
def walkInstalls : Prop :=
  ∀ (s : State) (x : Walk), s.walks.find? (fun w => w.id = x.id) = some x →
    (x.cancelled = true → Becomes (.pageWalk x.id) s fun t => t.walks = s.walks.filter (fun w => w.id ≠ x.id) ∧ { t with walks := s.walks } = s) ∧
    ∀ e, x.cancelled = false →
      State.walkVa { s with walks := s.walks.filter fun w => w.id ≠ x.id } (s.ctxOf x.agent) x.kind x.addr = .ok e →
      Becomes (.pageWalk x.id) s fun t => t.walks = s.walks.filter (fun w => w.id ≠ x.id) ∧
        (∀ c, Tab.at t.tlbs c [] = if c = x.cluster then (e :: Tab.at s.tlbs c []).take 8192 else Tab.at s.tlbs c []) ∧
        { t with walks := s.walks, tlbs := s.tlbs } = s
/-- R135, R337, R416: a thread that waits in `waitne` on a scratchpad word goes on with the word once it differs from the compare value, and
waits on while it is equal, or while its workgroup is off its core; a stopped slice's threads wait on, and see it. -/
def waitneGoesOn : Prop :=
  ∀ (s : State) (a : Agent) (g : Gang) (l d n : Nat) (va cmp : Word) (w o : Nat), s.gang a = some g → l < 32 → d < 64 →
    g.stat l = .waitne va cmp d n → s.waitPlace a va = some (.scratch w o) →
    let x := BitVec.ofNat 64 (leNat (s.locRead (.scratch w o) 8))
    let reaches := match a with
      | .gang v _ => ∃ y, s.wg v = some y ∧ y.place.isSome = true ∧ y.evicting = false
      | .core _ => s.mayIssue a = true
    (¬reaches → exec (.waitneReread a l) s = .next s) ∧
    (x = cmp → exec (.waitneReread a l) s = .next s) ∧
    (reaches → x ≠ cmp → g.holds (lineOfV g.count l d) = true → Becomes (.waitneReread a l) s fun t => ∃ g', OneGang s t a g' ∧
      (∀ k n, k < 32 → n < 64 → g'.vreg k n = if k = l ∧ n = d then x else g.vreg k n) ∧
      (∀ k, k < 32 → g'.stat k = if k = l then .ready else g.stat k) ∧
      (∀ k, k < 32 → g'.pcOf k = if k = l then g.pcOf k + 4 else g.pcOf k) ∧
      g'.s = g.s ∧ g'.g = g.g ∧ g'.fcr = g.fcr ∧ g'.flights = g.flights)
/-- R183, R185: a thread that waits in a fence goes on once its earlier accesses have performed and PTB has reached the times of its
stores and of what it has read. -/
def fenceWaitEnds : Prop :=
  ∀ (s : State) (a : Agent) (g : Gang) (n l c d : Nat) (va : Word) (bs : List Byte) (loc : Loc), s.gang a = some g → l < 32 →
    g.stat l = .release n c 1 d va bs loc → s.released a c l = true →
    (∀ k, k < 32 → k ≠ l → ∀ m c' k' d' va' bs' loc', g.stat k = .release m c' k' d' va' bs' loc' → m ≠ n) →
    Becomes (.releaseWaitEnd a n) s fun t => ∃ g', OneGang s t a g' ∧
      (∀ k, k < 32 → g'.stat k = if k = l then .ready else g.stat k) ∧
      (∀ k, k < 32 → g'.pcOf k = if k = l then g.pcOf k + 4 else g.pcOf k) ∧
      g'.v = g.v ∧ g'.s = g.s ∧ g'.g = g.g ∧ g'.fcr = g.fcr ∧ g'.flights = g.flights
/-- R20, R336: a gang that a waiting gang outranks loses its slot, `GSTAT.PREEMPTED` is set where it had a thread ready, or one whose wait had
ended (log 110), and its threads' waits are abandoned; those of a call and of a fault stand. -/
def preemptionTakesSlot : Prop :=
  ∀ (s : State) (w i : Nat) (x : Workgroup) (g : Gang), s.wg w = some x → s.gang (.gang w i) = some g → g.slot = true →
    x.place.isSome = true → s.outranked w i x.core g = true →
    (∀ k l, (Tab.at (x.cv k).arrived i 0).getLsbD l = true → ∃ m, g.stat l = .gather m) →
    Becomes (.preemptionRequest w i) s fun t => ∃ g', t.gang (.gang w i) = some g' ∧ g'.slot = false ∧
      g'.gstat = (if g.anyReady = true ∨ g.able = true then g.gstat ||| 4 else g.gstat) ∧
      (∀ l, l < 32 → g.live.getLsbD l = true → g'.stat l = match g.stat l with
        | .call => .call
        | .fault => .fault
        | _ => .ready) ∧
      g'.v = g.v ∧ g'.s = g.s ∧ g'.g = g.g ∧ g'.pc = g.pc ∧ g'.fcr = g.fcr ∧ t.mem = s.mem
/-- R265, R266, R422: with a slot of a cluster's fault ring free the oldest record held for it is written there, and a ring that cannot be read
is `WIREDFAULT` of the tenant whose work the record tells of (log 23); with a slot of its call ring free, of the groups that wait in `syscall`
the one whose wait is oldest makes its call, and its record is written there. -/
def ringSlotsServeOldest : Prop :=
  (∀ (s : State) (c j : Nat) (base : Word) (r : List Byte) (rs : List (List Byte)), s.held c = r :: rs → r.length = 64 → r.getD 0x3F 0 = 1 →
    s.ringRoom c false = some (base, j) →
    Becomes (.faultRingSlotFree c) s fun t => Stands s t c (base + BitVec.ofNat 64 (64 * j)) r ∧ t.held c = rs ∧
      (∀ d, d ≠ c → t.held d = s.held d) ∧ t.wgs = s.wgs ∧ t.scalars = s.scalars) ∧
  (∀ (s : State) (c : Nat) (va : Word) (r : List Byte) (rs : List (List Byte)), s.held c = r :: rs → s.ringRoom c false = none →
    s.ringBroken c false = some va → Becomes (.faultRingSlotFree c) s fun t => t.held c = rs ∧ (∀ d, d ≠ c → t.held d = s.held d) ∧
      { t with heldFaults := s.heldFaults, tenants := s.tenants } = s ∧
      ∀ x, s.tenant (recAt r 0x28 8 / 2 ^ 10 % 64) = some x → ∃ y, t.tenant (recAt r 0x28 8 / 2 ^ 10 % 64) = some y ∧ y.killed.isSome = true) ∧
  ∀ (s : State) (c w i n : Nat) (x : Workgroup) (g : Gang) (base pc : Word) (j : Nat) (word : BitVec 32) (m : LaneMask),
    s.ringRoom c true = some (base, j) → s.wg w = some x → s.gang (.gang w i) = some g → x.place.isSome = true → x.evicting = false →
    clusterOf x.core = c → g.callSlot = none → word.toNat / 2 ^ 25 = 0x3B → m ≠ 0 →
    (∀ l, l < 32 → (m.getLsbD l = true ↔ g.retryOf l = some n)) →
    (∀ l, m.getLsbD l = true → g.wordAt l = some word ∧ g.pcOf l = pc ∧ s.released (.gang w i) 3 l = true) →
    (∀ p ∈ s.wgs, p.2.place.isSome = true → p.2.evicting = false → clusterOf p.2.core = c → ∀ q ∈ p.2.gangs, q.2.callSlot = none →
      ∀ l wd k, l < 32 → q.2.wordAt l = some wd → wd.toNat / 2 ^ 25 = 0x3B → q.2.retryOf l = some k →
        n < k ∨ (p.1 = w ∧ q.1 = i ∧ k = n ∧ m.getLsbD l = true)) →
    Becomes (.callRingSlotFree c) s fun t => ∃ g', t.gang (.gang w i) = some g' ∧ g'.callSlot = some j ∧ g'.callLanes = m ∧
      (∀ l, l < 32 → g'.stat l = if m.getLsbD l then .call else g.stat l) ∧
      (∀ l, l < 32 → g'.pcOf l = if m.getLsbD l then g.pcOf l + 4 else g.pcOf l) ∧ g'.callCluster = c ∧
      (∀ a, a ≠ .gang w i → t.gang a = s.gang a) ∧
      Stands s t c (base + BitVec.ofNat 64 (2048 * j)) (s.callRecord w i (word.toNat / 16 % 2 ^ 15) m pc)

/-- R20 to R22, R76, R77, R87, R135, R165, R166, R171, R183, R185, R265, R266, R336, R422: the events by which agents are fetched for,
aged, filled, delivered to, woken and pre-empted, and by which waiting records reach their rings. -/
def Obligations.AgentsAreServed : Prop :=
  fetchTurnServes ∧ agingAfter4096Cycles ∧ registerLineArrives ∧ deliveryOnce ∧ walkInstalls ∧ waitneGoesOn ∧ fenceWaitEnds ∧
    preemptionTakesSlot ∧ ringSlotsServeOldest

/-! ### Events: homes, leases and ownership -/

/-- Bytes as a home holds them once bs has been written at k. -/
def written (s : State) (k : Nat) (bs : List Byte) (a : Nat) : Byte :=
  if k ≤ a ∧ a < k + bs.length then bs.getD (a - k) 0 else s.homeByte a
/-- The only request of its name, sent, and not behind another of its threads. -/
def Arrives (s : State) (r : Req) : Prop :=
  s.req r.id = some r ∧ r.state = .sent ∧ s.behind r = false ∧ ∀ q ∈ s.reqs, q.id = r.id → q = r

/-- R176: an ordinary store that arrives is applied at its home at once: each byte of it is then what the home holds, no other byte
changes, and its WCT is the later of PTB and the line's lease, which the line's stamp takes. The line stays with an L1 that owns it and
has sent the store; from another it is recalled. -/
def storesApply : Prop :=
  ∀ (s : State) (r : Req), OwnersWhole s → Arrives s r → r.kind = .store → r.source = .thread → r.strong = false →
    LineFree s (r.key / 128) → r.key % 128 + r.data.length ≤ 128 → 0 < r.data.length →
    Becomes (.homeStore r.id) s fun t => (∀ a, t.homeByte a = written s r.key r.data a) ∧
      (t.home (r.key / 128)).stamp = max s.ptb (s.home (r.key / 128)).lease ∧
      (t.home (r.key / 128)).owner = (if (s.home (r.key / 128)).owner = some r.l1 then some r.l1 else none) ∧ (∀ n, n ≠ r.key / 128 → t.home n = s.home n) ∧
      t.req r.id = some { r with state := .applied (max s.ptb (s.home (r.key / 128)).lease) } ∧
      { t with mem := s.mem, homes := s.homes, l1 := s.l1, predictors := s.predictors, reqs := s.reqs, dirtyLines := s.dirtyLines } = s
/-- R184: a strong store that arrives is pending until its WCT, and no byte changes before; when PTB has reached the WCT its bytes are there. -/
def strongStoresPend : Prop :=
  (∀ (s : State) (r : Req), Arrives s r → r.kind = .store → r.strong = true → LineFree s (r.key / 128) →
    Becomes (.homeStore r.id) s fun t => t.req r.id = some { r with state := .pending (max s.ptb (s.home (r.key / 128)).lease) } ∧
      { t with reqs := s.reqs } = s) ∧
  ∀ (s : State) (r : Req) (w : Nat), OwnersWhole s → s.req r.id = some r → r.kind = .store → r.source = .thread → r.state = .pending w →
    w ≤ s.ptb → (∀ q ∈ s.reqs, q.id = r.id → q = r) → s.heldOn (r.key / 128) = false → r.key % 128 + r.data.length ≤ 128 →
    0 < r.data.length →
    Becomes (.strongStoreVisible r.id) s fun t => (∀ a, t.homeByte a = written s r.key r.data a) ∧
      t.req r.id = some { r with state := .applied w } ∧ (t.home (r.key / 128)).stamp = w ∧
      { t with mem := s.mem, homes := s.homes, l1 := s.l1, predictors := s.predictors, reqs := s.reqs, dirtyLines := s.dirtyLines } = s
/-- R419: a store or atomic that arrives at a line with a strong store pending is held, after what has arrived before it; an atomic that was
to be near is far then. -/
def pendingLinesHold : Prop :=
  ∀ (s : State) (r : Req) (w : Nat), Arrives s r → s.pendingOn (r.key / 128) = some w →
    let held := fun (t : State) (k : ReqKind) => ∃ n, (∀ q ∈ s.reqs, q.arrived < n) ∧
      t.reqs = s.reqs.map (fun q => if q.id = r.id then { r with kind := k, state := .held, arrived := n } else q) ∧ { t with reqs := s.reqs } = s
    (r.kind = .store → Becomes (.homeStore r.id) s fun t => held t .store) ∧
    (r.kind = .atomic ∨ r.kind = .own → Becomes (.homeAtomic r.id) s fun t => held t .atomic)
/-- R186, Table 9.4: an atomic applied at its home delivers the old value and leaves the new one there, where it writes one, in one step. -/
def atomicsApply : Prop :=
  ∀ (s : State) (r : Req) (g : Gang) (f : Flight), OwnersWhole s → Arrives s r → r.kind = .atomic → LineFree s (r.key / 128) →
    s.poisoned r.key = false → (r.size = 4 ∨ r.size = 8) → r.key % r.size = 0 → s.gang r.agent = some g → r.flight = some f.id → f ∈ g.flights →
    let old := leNat (s.homeRead r.key r.size)
    let new := atomicTable r.op r.size old (r.operand.toNat % 2 ^ (8 * r.size)) (r.compare.toNat % 2 ^ (8 * r.size))
    Becomes (.homeAtomic r.id) s fun t =>
      (∀ a, t.homeByte a = match new with
        | some x => written s r.key (leBytes r.size x) a
        | none => s.homeByte a) ∧
      (∃ g' y, t.gang r.agent = some g' ∧ y ∈ g'.flights ∧ y.id = f.id ∧ y.regs = f.regs ∧ y.lane = f.lane ∧
        y.vals = some [atomicOld r.op r.size old]) ∧
      t.reqs = s.reqs.filter (fun q => q.id ≠ r.id)
/-- R175: a fill of a line that is not there grants a lease of at most 4,096 ns, which its home records, and no byte changes; the value of
its load is what the home holds. No store is on its way, the line has no owner, and its set has room. A request may ask for a length, as
a prefetch `.long` does (R200). -/
def fillsGrantLeases : Prop :=
  ∀ (s : State) (r : Req) (n : Nat), Arrives s r → r.cached = true → s.poisoned r.key = false → 0 < max n r.operand.toNat →
    max n r.operand.toNat ≤ 4096 → r.key % 128 + r.size ≤ 128 → (s.home (r.key / 128)).owner = none → (∀ q ∈ s.reqs, q.kind ≠ .store) → s.pendingOn (r.key / 128) = none →
    Tab.find (s.l1At r.l1) (r.key / 128) = none →
    ((s.l1At r.l1).filter fun p => p.1 % (if r.l1 < 512 then 128 else 64) = r.key / 128 % (if r.l1 < 512 then 128 else 64)).length <
      (if r.l1 < 512 then 16 else 8) →
    (r.kind = .prefetch ∧ r.flight = none ∨
      r.kind = .load ∧ ∃ g f, s.gang r.agent = some g ∧ f ∈ g.flights ∧ r.flight = some f.id) →
    Becomes (.homeFill r.id n) s fun t =>
      (t.home (r.key / 128)).lease = max (s.home (r.key / 128)).lease (s.ptb + max n r.operand.toNat) ∧
      (∃ x, Tab.find (t.l1At r.l1) (r.key / 128) = some x ∧ x.lease = s.ptb + max n r.operand.toNat ∧ x.owned = false ∧
        x.stamp = (s.home (r.key / 128)).stamp ∧ x.data = s.homeRead (r.key / 128 * 128) 128) ∧
      (∀ k, t.homeByte k = s.homeByte k) ∧ t.reqs = s.reqs.filter (fun q => q.id ≠ r.id) ∧
      ∀ g f, s.gang r.agent = some g → f ∈ g.flights → r.flight = some f.id →
        ∃ g' y, t.gang r.agent = some g' ∧ y ∈ g'.flights ∧ y.id = f.id ∧ y.regs = f.regs ∧ y.lane = f.lane ∧
          y.vals = some (loadWords r.signed (s.homeRead r.key r.size))
/-- R176, R178: the acknowledgement of a store brings its WCT to its threads, and to the threads of its chip's gangs that have read its value
before; a strong store's comes once PTB has reached it. -/
def acknowledgementsBringWct : Prop :=
  ∀ (s : State) (r : Req) (w : Nat), s.req r.id = some r → r.kind = .store → r.state = .applied w →
    let d := w + (if s.remote r.key then 20 else 0)
    (r.strong = false ∨ d ≤ s.ptb) →
    Becomes (.storeAck r.id) s fun t => t.reqs = s.reqs.filter (fun q => q.id ≠ r.id) ∧ t.mem = s.mem ∧ t.homes = s.homes ∧
      ∀ b g, s.gang b = some g → ∃ g', t.gang b = some g' ∧ { g' with wct := g.wct, horizon := g.horizon, watched := g.watched } = g ∧
        ∀ l, l < 32 → g'.releaseTime l =
          if (b = r.agent ∧ r.lanes.getLsbD l = true) ∨ (isGang b = true ∧ ∃ p ∈ g.watched, p.1 = r.id ∧ p.2.getLsbD l = true) then
            max (g.releaseTime l) d
          else g.releaseTime l
/-- R175, R205: a line whose lease has ended leaves its L1; an owned line is recalled 4,096 ns after its grant, and what the owner held is then
what the home holds. No byte changes as a load sees it. -/
def linesAreGivenUp : Prop :=
  (∀ (s : State) (c n : Nat) (x : Line), Tab.find (s.l1At c) n = some x → x.owned = false → x.lease ≤ s.ptb →
    Becomes (.leaseExpiry c n) s fun t => Tab.find (t.l1At c) n = none ∧ (∀ d m, ¬(d = c ∧ m = n) → Tab.find (t.l1At d) m = Tab.find (s.l1At d) m) ∧
      (∀ k, t.homeByte k = s.homeByte k) ∧ { t with l1 := s.l1 } = s) ∧
  ∀ (s : State) (n c : Nat), OwnersWhole s → (s.home n).owner = some c → (s.home n).granted + 4096 ≤ s.ptb →
    Becomes (.ownershipRecall n) s fun t => (t.home n).owner = none ∧ Tab.find (t.l1At c) n = none ∧
      (∀ k, t.homeByte k = s.homeByte k) ∧ { t with mem := s.mem, homes := s.homes, l1 := s.l1, predictors := s.predictors, dirtyLines := s.dirtyLines } = s

/-- R175, R176, R178, R184, R186, R205, R419: what the homes of lines do with the requests that reach them. The 20 ns of a home on another
chip, the halves of a 16-byte access, which line falls into which set, and which access a watched line answers for are the model's readings
(logs 41, 43, 91, 105). -/
def Obligations.HomesServe : Prop :=
  storesApply ∧ strongStoresPend ∧ pendingLinesHold ∧ atomicsApply ∧ fillsGrantLeases ∧ acknowledgementsBringWct ∧ linesAreGivenUp

/-! ### Events: copies, matrix operations and the dispensers -/

/-- Copy k becomes c, and every other copy is as it was. -/
def CopyIs (s t : State) (k : Nat) (c : Copy) : Prop :=
  Tab.find t.copies k = some c ∧ ∀ m, m ≠ k → Tab.find t.copies m = Tab.find s.copies m
/-- A byte as a place holds it, without its memory type. -/
def bare : Loc → Loc
  | .mem k _ => .mem k 0
  | l => l

/-- R189: an entry that is only to be freed goes once PTB has reached its `RELT` and nothing is left to be written under it. -/
def rangeLocksGo : Prop :=
  ∀ (s : State) (i n : Nat) (c : Core) (k : Lock), Tab.find s.cores i = some c → Tab.find c.locks n = some k → k.closing = true → k.relt ≤ s.ptb →
    (∀ q ∈ s.reqs, ∀ m b, q.source = .box m b → k.owner ≠ .copy m) →
    Becomes (.rangeLockRelease i n) s fun t => (∃ c', Tab.find t.cores i = some c' ∧ Tab.find c'.locks n = none ∧
      (∀ m, m ≠ n → Tab.find c'.locks m = Tab.find c.locks m) ∧ { c' with locks := c.locks } = c) ∧
      (∀ j, j ≠ i → Tab.find t.cores j = Tab.find s.cores j) ∧ { t with cores := s.cores } = s
/-- R208, R211, R212: a box of a copy that nothing holds begins: the copy is RUNNING, or is QUEUED with no earlier one of its engine that could
begin; the operations that it waits for hold no page of its destination any more. -/
def boxesBegin : Prop :=
  ∀ (s : State) (k b : Nat) (c : Copy), Tab.find s.copies k = some c → c.cancelling = false →
    (c.state = 1 ∨ (c.state = 0 ∧ ∀ q ∈ s.copies, q.2.core = c.core → q.2.state = 0 → s.copyActive q.2 = true → k ≤ q.1)) →
    (∀ o ∈ c.waitFor, ∀ p, Tab.find s.ops o = some p → ∀ n ∈ (copyDesc c.desc).pages, p.holds n = false) →
    b < (copyDesc c.desc).boxes → b ∉ c.boxDone → Tab.find c.boxBusy b = none → s.copyActive c = true → s.copyAborted c = false →
    Becomes (.copyBoxStart k b) s fun t =>
      CopyIs s t k { c with state := 1, boxBusy := Tab.put c.boxBusy b 0, away := s.remoteSource c } ∧ { t with copies := s.copies } = s
/-- R187, R212: when a box lands every byte of it is at its destination as it stood at its source before any byte was written, and no
other byte of memory has changed. The copy has no barrier, its workgroup is resident, and no byte has two sources, and no strong
store is pending on a line that it writes. -/
def boxesLand : Prop :=
  (∀ (s : State) (k b : Nat) (c : Copy) (ps : List (Loc × Loc)), OwnersWhole s → Tab.find s.copies k = some c → Tab.find c.boxBusy b = some 0 →
    s.boxPlaces c ((copyDesc c.desc).bytes b) = (ps, none) → (copyDesc c.desc).bar = 0 → (ps.map fun p => bare p.2).Nodup →
    (∀ p ∈ ps, ∀ a m, p.2 = .mem a m → LineFree s (a / 128)) → s.owes (.box k b) = false → s.copyAborted c = false →
    (∀ w, c.wg = some w → ∃ x, s.wg w = some x ∧ x.place.isSome = true) →
    Becomes (.copyBoxLanded k b) s fun t =>
      (∀ p ∈ ps, t.locByte p.2 = s.locByte p.1) ∧ (∀ a, (∀ p ∈ ps, bare p.2 ≠ .mem a 0) → t.homeByte a = s.homeByte a) ∧
      ∃ y, Tab.find t.copies k = some y ∧
        (y.counted = c.counted + 1 ∧ Tab.find y.boxBusy b = none ∨
          y.counted = c.counted ∧ ∃ n, s.ptb < n ∧ Tab.find y.boxBusy b = some (n + 1))) ∧
  ∀ (s : State) (k b n : Nat) (c : Copy), Tab.find s.copies k = some c → Tab.find c.boxBusy b = some (n + 1) → n ≤ s.ptb →
    s.owes (.box k b) = false → (copyDesc c.desc).bar = 0 → c.state = 1 → c.cancelling = false →
    Becomes (.copyBoxLanded k b) s fun t => t.mem = s.mem ∧
      CopyIs s t k { c with
        boxDone := c.boxDone ++ [b], counted := c.counted + 1, boxBusy := Tab.del c.boxBusy b
        state := if c.counted + 1 = (copyDesc c.desc).boxes then 3 else 1
        code := if c.counted + 1 = (copyDesc c.desc).boxes then 0 else c.code }
/-- R212, Table 9.9: a box that meets a page fault pauses its copy with code `COPYFAULT` and the number of the box, and one that meets an
uncorrectable error, or bytes whose source and destination both lie on other chips, ends it FAILED with code `ECC_UE`, or `COPYFAULT`. -/
def boxesFault : Prop :=
  ∀ (s : State) (k b : Nat) (c : Copy) (ps : List (Loc × Loc)) (a : Word), Tab.find s.copies k = some c → Tab.find c.boxBusy b = some 0 →
    c.state = 1 → c.cancelling = false → (∀ q ∈ c.boxBusy, q.1 < 65536) →
    let faults := fun (e : BoxFault) (state code : Nat) => s.boxPlaces c ((copyDesc c.desc).bytes b) = (ps, some e) →
      Becomes (.copyBoxFault k b) s fun t => ∃ y, CopyIs s t k y ∧
        { y with wrote := c.wrote } = { c with boxBusy := Tab.del c.boxBusy b, state := state, code := code, fbox := b }
    faults (.page a) 2 0x0E ∧ faults (.ecc a) 4 0x13 ∧ faults (.far a) 4 0x0E

/-- R218, R219, R234: a gathering whose last member has arrived, and whose operation passes its checks, completes once the queue has a place
and no gang that signed has another operation queued or running: the operation is queued, `PHASE` flips, the register is ARMED again and its threads go on. -/
def gatheringsQueue : Prop :=
  ∀ (s : State) (w n : Nat) (x : Workgroup) (r : Launch), s.wg w = some x → s.launchOf x = some r → x.place.isSome = true → x.evicting = false →
    let c := x.cv n
    let o := c.operation
    c.state = 2 → c.kind = 3 → c.complete = true → c.members ≠ [] → c.arrivals.Nodup → (s.opsOn x.core).length < 16 →
    o.ranges.length ≤ (s.freeLocks x.core).length → s.coreQuiet x.core = true → o.check r.scratch r.accShare = none →
    (∀ q ∈ c.arrived, q.2 = 0 ∨ s.signedOp w q.1 = false) → Tab.find s.ops s.serialNo = none →
    Becomes (.matrixGatheringComplete w n) s fun t =>
      Tab.find t.ops s.serialNo = some ⟨w, s.serialNo, o.major, o.sub, c.sig, o.desc, n, !c.phase, 0, 1, false, c.arrived, [], []⟩ ∧
      (∀ k, k ≠ s.serialNo → Tab.find t.ops k = Tab.find s.ops k) ∧ t.mem = s.mem ∧
      (∃ y, t.wg w = some y ∧ y.cv n = { c with phase := !c.phase, kind := 0, sig := 0, record := [], shape := [], arrived := [], state := 1 } ∧
        y.scratch = x.scratch ∧ y.acc = x.acc) ∧
      ∀ i l g, (i, l) ∈ c.arrivals → s.gang (.gang w i) = some g → ∃ g', t.gang (.gang w i) = some g' ∧ g'.stat l = .ready ∧
        g'.pcOf l = g.pcOf l + 4
/-- R229 to R235: the array works one step of an operation that it may work on, which changes the shares as the step says, and charges and counts
its busy cycles; after the last step the operation ends, and others that had begun are interrupted. A step of `mzero` leaves 0 in every accumulator
element of its rows. -/
def matrixStepsWork : Prop :=
  ∀ (s : State) (k : Nat) (p : MatrixOp) (x h : Workgroup) (r : Launch), Tab.find s.ops k = some p → p.state = 1 ∨ p.state = 2 →
    s.opEligible k p = true → s.wg p.wg = some x → s.launchOf x = some r →
    let cycles := (if p.state = 1 then 8 else 0) + (if p.mx.steps = 0 then 0 else p.mx.busy)
    p.mx.run r.ftz p.step (x.count 33 cycles) = some h →
    Becomes (.matrixStep k) s fun t => t.mem = s.mem ∧ (∃ h', t.wg p.wg = some h' ∧ { h' with savedLocks := h.savedLocks } = h) ∧ (∀ v, v ≠ p.wg → t.wg v = s.wg v) ∧
      Tab.find t.ops k = (if p.mx.steps ≤ p.step + 1 then none else some { p with state := 2, broken := false, step := p.step + 1 }) ∧
      (∀ m q, m ≠ k → Tab.find s.ops m = some q → ∃ b, Tab.find t.ops m = some { q with broken := b } ∧ (q.state ≠ 2 → b = q.broken)) ∧
      (∀ y, s.slice r.slice = some y → ∃ z, t.slice r.slice = some z ∧ z.budget = y.budget - 4 * cycles ∧ z.charged = y.charged + 4 * cycles) ∧
      (p.major = 0x3E → p.sub = 0 → ∀ i j, 16 * p.step ≤ i → i < 16 * p.step + 16 → j < fwN p.fmt.toNat → h.accBits p.mx i j = 0)
/-- R273: a refill of a core's dispenser that holds none takes `CHUNK` units from its die's, which takes the next `CHUNK` of the walk where it
holds none: up to the last unit, after which the walk begins again. In BLOCK order a dispenser hands to the child that asks, in CYCLIC order to
the next in turn. -/
def refillsWalk : Prop :=
  ∀ (s : State) (w : Nat) (x : Workgroup) (r : Launch), s.wg w = some x → s.launchOf x = some r → x.place.isSome = true → x.evicting = false →
    r.cancel = none → s.sliceStopped r.slice = false → s.inPlacement r x.core = true → r.pod = false →
    let die := 1 + x.core / 64
    let core := 9 + x.core
    let chunk := max 1 (schChunk r.sch)
    let last := min r.unitCount (r.walk + chunk)
    let inTurn := fun (kids : List Nat) (k asks : Nat) => schAt r.sch 2 % 4 = 0 ∨
      (kids.find? fun c => decide (Tab.at r.turn k 0 < c)).getD (kids.headD asks) = asks
    let brought := if r.stocked die = [] then (List.range (last - r.walk)).map (r.walk + ·) else r.stocked die
    r.stocked core = [] → (r.stocked die = [] → r.walk < r.unitCount) →
    inTurn (s.dealers r none) 0 die → inTurn (s.dealers r (some (x.core / 64))) die core →
    Becomes (.dispenserRefill w) s fun t => ∃ y, t.launch x.launch = some y ∧ y.stocked core = brought.take chunk ∧
      y.stocked die = brought.drop chunk ∧ (∀ k, k ≠ die → k ≠ core → y.stocked k = r.stocked k) ∧
      y.walk = (if r.stocked die = [] then (if last = r.unitCount then 0 else last) else r.walk) ∧
      { y with walk := r.walk, stock := r.stock, turn := r.turn } = r ∧ (∀ l, l ≠ x.launch → t.launch l = s.launch l) ∧
      { t with launches := s.launches } = s

/-- R187, R189, R208, R211, R212, R219, R229 to R235, R273: what the copy engine, the matrix array, the lock table and the dispenser of a
core do by themselves. What an assisted operation leaves, `mquant` of no row, the pc of a copy's record, that a box lands in one step, which
entry is taken, the order of dispensers, a gathering of a busy gang, the rank of operations, the tiny results of a matrix step, and what an
`mdrain` names and records are the model's readings (logs 51, 52, 56, 57, 58, 68, 96, 97, 111, 115). -/
def Obligations.EnginesWork : Prop :=
  rangeLocksGo ∧ boxesBegin ∧ boxesLand ∧ boxesFault ∧ gatheringsQueue ∧ matrixStepsWork ∧ refillsWalk

/-! ### Events: dispatch, ends, eviction -/

/-- R18, R153, R270: the pool dispatches a workgroup of a running launch to its core: every gang has the live mask and the entry point of the
launch record, the shares are zero, the core's slot is taken, and the workgroup waits no more. The launch is that of a running node, or one
that entered from another chip. -/
def workgroupsAreDispatched : Prop :=
  ∀ (s : State) (n l core slot k : Nat) (x : Launch),
    (if n < 65536 then ∃ c, s.tcb n = some c ∧ c.state = 3 ∧ recAt c.image 0 1 = 1 ∧ c.work = some l else l = n - 65536) → s.launch l = some x → Tab.find x.waiting (x.firstWg + x.placement.idxOf core) = some k → s.mayPlace x = true →
    s.hasRoom core slot x = true → s.firstForSpace core slot (s.launchRank l x) = true →
    Becomes (.readyPoolDispatch n core slot) s fun t => ∃ y, t.wg s.serialNo = some y ∧ y.launch = l ∧
      y.wgid = x.firstWg + x.placement.idxOf core ∧ y.place = some (core, slot) ∧ y.home = core ∧ y.homeSlot = slot ∧ y.relaunches = k ∧
      (∀ o, Mem.byte y.scratch o = 0 ∧ Mem.byte y.acc o = 0) ∧ y.registry = [] ∧ (∀ m, (y.cv m).state = 0) ∧
      (∀ i, i < x.ngang → ∃ g, Tab.find y.gangs i = some g ∧ g.live = BitVec.ofNat 32 (x.field 0xC 4) ∧ g.gstat.toNat / 2 ^ 16 % 4 = i % 4 ∧
        ∀ b, b < 32 → (g.live.getLsbD b = true → g.pcOf b = BitVec.ofNat 64 (x.field 0 8)) ∧ g.stat b = .ready ∧ g.fcrOf b = 0 ∧ g.guards b = 1) ∧
      (∀ v, v ≠ s.serialNo → t.wg v = s.wg v) ∧
      (∃ z, t.launch l = some z ∧ { z with waiting := x.waiting } = x ∧ Tab.find z.waiting (x.firstWg + x.placement.idxOf core) = none) ∧
      (∃ d, Tab.find t.cores core = some d ∧ Tab.find d.slots slot = some s.serialNo) ∧ t.mem = s.mem
/-- R191, R301, R423: a host-signal node adds its argument to its signal, as a strong store: while a lease on the line runs, the node runs and no
byte changes; with none running the new value stands, and a node of this chip ends DONE. It ends once PTB has reached the WCT of its add. -/
def signalNodesSignal : Prop :=
  (∀ (s : State) (n core slot k p : Nat) (c : Tcb), n < 65536 → s.tcb n = some c → c.state = 2 → s.nodeFree n c = true → s.nodeFirst n c = true → c.bad = false →
    recAt c.image 0 1 = 4 → s.xlateNow (tenantCtx c.pasid) 2 (recWord c.image 0x10) = .ok (k, p) → s.poisoned k = false → OwnersWhole s → k % 8 = 0 →
    LineFree s (k / 128) → c.wrote ≤ s.ptb → s.owes (.node n) = false → c.graph = none → c.spawner = none →
    let lease := (s.home (k / 128)).lease
    Becomes (.readyPoolDispatch n core slot) s fun t =>
      if s.ptb < lease then (∀ a, t.homeByte a = s.homeByte a) ∧ t.pendingOn (k / 128) = some lease ∧
        t.tcb n = some { c with state := 3, wrote := lease + if s.remote k then 20 else 0 }
      else (∀ a, t.homeByte a =
          written s k (leBytes 8 (BitVec.ofNat 64 (leNat (s.homeRead k 8)) + recWord c.image 0x18).toNat) a) ∧
        t.tcb n = if s.remote k then some { c with state := 3, wrote := s.ptb + 20 } else none) ∧
  ∀ (s : State) (n : Nat) (c : Tcb), s.tcb n = some c → c.state = 3 → c.work = none → recAt c.image 0 1 = 4 → c.wrote ≤ s.ptb →
    s.owes (.node n) = false → c.graph = none → c.spawner = none → Becomes (.nodeEnd n) s fun t => t.tcb n = none ∧ (∀ a, t.homeByte a = s.homeByte a)
/-- R18, R191: a workgroup of which everything has ended is over: its slot is free, `WGLIVE` falls by 1, and its launch's completion awaits what its
threads have stored. -/
def workgroupsEnd : Prop :=
  ∀ (s : State) (w core slot : Nat) (x : Workgroup) (r : Launch) (c : Core), s.wg w = some x → s.wgFinished w x = true → x.place = some (core, slot) →
    s.launch x.launch = some r → Tab.find s.cores core = some c →
    Becomes (.workgroupEnd w) s fun t => t.wg w = none ∧ (∀ v, v ≠ w → t.wg v = s.wg v) ∧
      (∃ n, r.wrote ≤ n ∧ t.launch x.launch = some { r with wglive := r.wglive - 1, wrote := n }) ∧
      Tab.find t.cores core = some { c with slots := Tab.del c.slots slot } ∧ t.mem = s.mem ∧
      ∀ k y, Tab.find t.copies k = some y → y.wg ≠ some w
/-- R191, R320: a launch of one chip whose workgroups and spawned nodes have all ended, and whose stores are visible, is complete: its status word
has kind 0, or 3 with `CANCELLED`, or 4 with its failure code, and how many granules are not done. -/
def launchesComplete : Prop :=
  ∀ (s : State) (l : Nat) (x : Launch), s.launch l = some x → x.done = false → x.started = true → x.wglive = 0 → x.spawned = 0 → x.pod = false →
    let k := if x.failCode ≠ 0 then 4 else if x.cancel.isSome then 3 else 0
    let c := if x.failCode ≠ 0 then x.failCode else if x.cancel.isSome then 0x15 else 0
    let visible := x.wrote ≤ s.ptb ∧ ∀ q ∈ s.reqs, q.source ≠ .launch l
    (¬visible → exec (.launchComplete l) s = .next s) ∧
    (visible → Becomes (.launchComplete l) s fun t =>
      t.launch l = some { x with done := true, completed := s.serialNo
                                 statusWord := BitVec.ofNat 64 (k * 2 ^ 56 + c * 2 ^ 48 + (x.granules - x.gdone) % 2 ^ 32) } ∧
      (∀ m, m ≠ l → t.launch m = s.launch m) ∧ (∀ n c, t.tcb n = some c → c.spawner ≠ some l) ∧ t.mem = s.mem)
/-- R255, R303, R322, R423: a node has ended with a kind and a code. One with no graph leaves the store, and its slice's `OUTST` falls, a failure
giving the slice its code if it has none; a spawned one stands ended, and its launch counts it; in a graph it counts, and each successor enters the
pool that waits for nothing else, if the node is DONE, or ends with the same kind and code. -/
def NodeEnded (s t : State) (n : Nat) (c : Tcb) (kind code : Nat) : Prop :=
  (c.graph = none → c.spawner = none → t.tcb n = none ∧ ∀ z, s.slice c.slice = some z → t.slice c.slice =
    some { z with outst := z.outst - 1, fail := if kind = 4 then some (z.fail.getD (s.ptb, code)) else z.fail }) ∧
  (∀ l x, c.graph = none → c.spawner = some l → s.launch l = some x →
    t.tcb n = some { c with state := 4, kind := kind, code := code } ∧ t.launch l = some { x with spawned := x.spawned - 1 }) ∧
  ∀ i g, c.graph = some i → Tab.find s.graphs i = some g →
    (kind = 0 → g.nended + 1 < g.n → c.succs.Nodup → n ∉ c.succs →
      t.tcb n = some { c with state := 4, kind := 0, code := code } ∧
      (∀ m d, m ≠ n → s.tcb m = some d → t.tcb m = some (if m ∈ c.succs ∧ d.state = 1 then
        { d with pred := d.pred - 1, state := if d.pred ≤ 1 then 2 else 1, since := s.ptb } else d)) ∧
      ∃ h, Tab.find t.graphs i = some h ∧ h.nended = g.nended + 1 ∧ h.ndone = g.ndone + 1 ∧ h.done = false) ∧
    (kind ≠ 0 → (∀ e, t.tcb n = some e → e.state = 4 ∧ e.kind = kind ∧ e.code = code) ∧
      (∀ m ∈ c.succs, ∀ d e, s.tcb m = some d → d.state ≠ 0 → t.tcb m = some e →
        e.state = 4 ∧ (d.state ≠ 4 → e.kind = kind ∧ e.code = code)) ∧
      ∀ h, Tab.find t.graphs i = some h → g.nended < h.nended ∧ h.ndone = g.ndone)
/-- R303, R423: the node of a complete launch ends with the kind and code of its status word, and the node of a copy with those of the copy, once
all that it wrote is visible. -/
def nodesEnd : Prop :=
  ∀ (s : State) (n l : Nat) (c : Tcb), s.tcb n = some c → c.state = 3 → c.work = some l →
    (∀ x, recAt c.image 0 1 = 1 → s.launch l = some x →
      (x.done = false → exec (.nodeEnd n) s = .next s) ∧
      (x.done = true → Becomes (.nodeEnd n) s fun t => t.mem = s.mem ∧
        NodeEnded s t n c (x.statusWord.toNat / 2 ^ 56) (x.statusWord.toNat / 2 ^ 48 % 256))) ∧
    ∀ y, recAt c.image 0 1 ≠ 1 → Tab.find s.copies l = some y → 3 ≤ y.state → y.boxBusy = [] → y.wrote ≤ s.ptb →
      (∀ q ∈ s.reqs, ∀ b, q.source ≠ .box l b) →
      Becomes (.nodeEnd n) s fun t => t.mem = s.mem ∧
        if y.state = 3 then NodeEnded s t n c 0 0 else if y.state ≠ 4 ∧ y.code = 0x15 then NodeEnded s t n c 3 0x15 else NodeEnded s t n c 4 y.code
/-- The work of a workgroup is of a slice admitted best-effort. -/
def bestEffort (s : State) (x : Workgroup) : Prop := ∃ r y, s.launchOf x = some r ∧ s.slice r.slice = some y ∧ y.be = true
/-- R69, R258, R337: the pool evicts a workgroup for one that ranks before it, best-effort ones before any other: every gang of it loses its slot, with `PREEMPTED` set, and it
is being evicted. -/
def evictionsBegin : Prop :=
  ∀ (s : State) (w core slot : Nat) (x : Workgroup), s.wg w = some x → x.place = some (core, slot) → x.evicting = false → x.pinned = false →
    s.earlierWaits core (s.wgRank x) = true →
    (bestEffort s x ∨ ∀ p ∈ s.wgs, p.2.place.map Prod.fst = some core → p.2.evicting = true ∨ p.2.pinned = true ∨ ¬bestEffort s p.2) →
    Becomes (.eviction w) s fun t => ∃ y, t.wg w = some y ∧ y.evicting = true ∧ y.place = x.place ∧ y.scratch = x.scratch ∧ y.acc = x.acc ∧
      (∀ i g, Tab.find y.gangs i = some g → g.slot = false ∧ g.gstat.getLsbD 2 = true) ∧ (∀ v, v ≠ w → t.wg v = s.wg v) ∧ t.mem = s.mem
/-- R304, R337, R338: the save of an evicted workgroup takes its images and shares to memory, in that order, puts away the locks of its copies and
matrix operations, and frees its slot; its dispatch again brings the shares, those locks and the head of every image back before any gang issues. -/
def evictionAndRedispatch : Prop :=
  (∀ (s : State) (w core slot : Nat) (x : Workgroup) (r : Launch), s.wg w = some x → s.launchOf x = some r → x.place = some (core, slot) → x.evicting = true →
    s.atRest w x = true →
    let a := x.gangs.foldl (fun s p => s.saveGang w p.1 p.2) s
    let b := a.wiredWrite r.tenant r.pasid (r.saveAt x.wgid) (Mem.bytes x.scratch 0 r.scratch)
    let c := b.wiredWrite r.tenant r.pasid (r.saveAt x.wgid + BitVec.ofNat 64 (roundUp r.scratch 65536)) (Mem.bytes x.acc 0 r.accShare)
    Becomes (.evictionComplete w) s fun t => t.mem = c.mem ∧
      (∃ y, t.wg w = some y ∧ y.place = none ∧ y.evicting = false ∧ y.since = s.ptb ∧ y.scratch = x.scratch ∧ y.acc = x.acc ∧ y.cvs = x.cvs ∧
        y.registry = x.registry ∧ y.deals = x.deals ∧
        y.savedLocks = ((Tab.at s.cores core freshCore).locks.filter fun p => s.lockOf w p.2).map Prod.snd) ∧
      (∀ v, v ≠ w → t.wg v = s.wg v) ∧
      ∃ d, Tab.find t.cores core = some d ∧ Tab.find d.slots slot = none ∧ ∀ q ∈ d.locks, s.lockOf w q.2 = false) ∧
  ∀ (s : State) (w core slot : Nat) (x : Workgroup) (r : Launch) (bs cs : List Byte), s.wg w = some x → s.launchOf x = some r →
    s.savedFits core slot w x = true → s.firstForSpace core slot (s.savedRank w x) = true → s.wgQuiet w x = true →
    s.partRead (tenantCtx r.pasid) (r.saveAt x.wgid) r.scratch = .ok bs →
    s.partRead (tenantCtx r.pasid) (r.saveAt x.wgid + BitVec.ofNat 64 (roundUp r.scratch 65536)) r.accShare = .ok cs →
    (x.gangs.map Prod.fst).Nodup →
    Becomes (.redispatch w core slot) s fun t => t.mem = s.mem ∧ (∀ v, v ≠ w → t.wg v = s.wg v) ∧
      (∃ d, Tab.find t.cores core = some d ∧ Tab.find d.slots slot = some w ∧ (∀ k ∈ x.savedLocks, ∃ n, n < 32 ∧ Tab.find d.locks n = some k) ∧
        ∀ n k, Tab.find (Tab.at s.cores core freshCore).locks n = some k → Tab.find d.locks n = some k) ∧
      ∃ y, t.wg w = some y ∧ y.place = some (core, slot) ∧ y.savedLocks = [] ∧ (∀ o, o < r.scratch → Mem.byte y.scratch o = bs.getD o 0) ∧
        (∀ o, o < r.accShare → Mem.byte y.acc o = cs.getD o 0) ∧
        ∀ i g hs, Tab.find x.gangs i = some g → g.ended = false → s.partRead (tenantCtx r.pasid) (r.image x.wgid i) 512 = .ok hs →
          ∃ g', Tab.find y.gangs i = some g' ∧ g'.gstat = recWord hs 0 &&& 0x3001F ∧ g'.horizon = [] ∧
            ∀ l, l < 32 → g.live.getLsbD l = true → g'.pcOf l = recWord hs (0x80 + 8 * l) ∧
              g'.guards l = BitVec.ofNat 8 (recAt hs (0x10 + l) 1) ||| 1 ∧ g'.fcrOf l = BitVec.ofNat 32 (recAt hs (0x180 + 4 * l) 4) &&& 0x31F

/-- R18, R153, R258, R264, R270, R301, R303, R320, R337, R338, R423: how workgroups and nodes are dispatched, end, are evicted and come back. -/
def Obligations.WorkIsDispatchedAndEnds : Prop :=
  workgroupsAreDispatched ∧ signalNodesSignal ∧ workgroupsEnd ∧ launchesComplete ∧ nodesEnd ∧ evictionsBegin ∧ evictionAndRedispatch

/-! ### Events: soft errors -/

/-- R79, R295, R342: an uncorrectable error in a register-cache line terminates its gang; the exit word of its launch's first fault names
`ECC_UE`, a lane and its distance from the entry point, in words; that this is the lowest live lane whose values the line holds is the model's
reading (log 15). -/
def registerErrorsTerminate : Prop :=
  ∀ (s : State) (w i n : Nat) (x : Workgroup) (g : Gang) (r : Launch), s.wg w = some x → s.gang (.gang w i) = some g → s.launchOf x = some r →
    (Tab.find g.lines n).isSome = true → g.ended = false →
    let holds := fun (k : Nat) => g.live.getLsbD k = true ∧ (n < 8 ∨ k / 16 = n % 2)
    Becomes (.registerCacheEccUe w (i, n)) s fun t => ∃ g', t.gang (.gang w i) = some g' ∧ g'.ended = true ∧ g'.live = 0 ∧ g'.slot = false ∧
      g'.flights = [] ∧ (r.pod = false → ∃ y, t.launch x.launch = some y ∧ y.terminated = r.terminated + 1 ∧
        ∀ l, l < 32 → holds l → (∀ k, k < l → ¬holds k) → r.firstFault = none →
          let words := (g.pcOf l - BitVec.ofNat 64 (r.field 0 8)).toInt / 4
          y.firstFault = some (s.ptb, s.chip, BitVec.ofNat 64 (0x13 * 2 ^ 56 + l * 2 ^ 51 + (words % 2 ^ 51).toNat)))
/-- R152, R299, R344: an uncorrectable error in a share kills its workgroup, that of an accumulator tile when the tile is read; that of an
idempotent kernel, killed so fewer than four times before, waits to be dispatched afresh, and any other is over. -/
def shareErrorsKill : Prop :=
  ∀ (s : State) (w : Nat) (x : Workgroup) (r : Launch) (i : Instr), (i = .scratchpadEccUe w ∧ 0 < r.scratch) ∨ (i = .accumulatorEccUe w ∧ s.tilesRead w x = true) →
    s.wg w = some x → s.launchOf x = some r → x.place.isSome = true →
    Becomes i s fun t => t.wg w = none ∧ ∃ y, t.launch x.launch = some y ∧
      if r.field 9 1 % 2 = 1 ∧ x.relaunches < 4 then Tab.find y.waiting x.wgid = some (x.relaunches + 1) ∧ y.wglive = r.wglive - 1 + 1
      else y.wglive = r.wglive - 1 ∧ y.waiting = r.waiting
/-- R159, R161, R390: a parity error drops a clean L1 line or a translation entry; of an owned L1 line it ends the ownership and poisons the
line, as an uncorrectable error in a dirty line of the die L2 does. -/
def linesArePoisoned : Prop :=
  (∀ (s : State) (c n : Nat) (x : Line), Tab.find (s.l1At c) n = some x →
    Becomes (.l1ParityError c n) s fun t => Tab.find (t.l1At c) n = none ∧ (∀ d m, ¬(d = c ∧ m = n) → Tab.find (t.l1At d) m = Tab.find (s.l1At d) m) ∧
      t.mem = s.mem ∧ (x.owned = false → { t with l1 := s.l1 } = s) ∧
      (x.owned = true → (t.home n).owner = none ∧ ∀ k, t.poisoned k = (s.poisoned k || k / 128 == n))) ∧
  (∀ (s : State) (n : Nat), Becomes (.l2EccUe n) s fun t => if n ∈ s.dirtyLines then
      (∀ k, t.poisoned k = (s.poisoned k || k / 128 == n)) ∧ t.dirtyLines = s.dirtyLines.erase n ∧
        { t with poison := s.poison, dirtyLines := s.dirtyLines } = s
    else t = s) ∧
  ∀ (s : State) (c e : Nat), Becomes (.tlbParityError c e) s fun t =>
    (∀ d, Tab.at t.tlbs d [] = if d = c then (Tab.at s.tlbs d []).eraseIdx e else Tab.at s.tlbs d []) ∧ { t with tlbs := s.tlbs } = s
/-- R303: an uncorrectable error in a TCB that has not been dispatched ends its node FAILED with `ECC_UE`. It has no successor, and its graph has
other nodes that have not ended. -/
def nodeErrorsFail : Prop :=
  ∀ (s : State) (n i : Nat) (c : Tcb) (g : Graph), n < 65536 → s.tcb n = some c → c.state = 1 ∨ c.state = 2 → c.work = none → c.succs = [] → c.graph = some i →
    Tab.find s.graphs i = some g → g.nended + 1 < g.n →
    Becomes (.tcbEccUe n true) s fun t => t.tcb n = some { c with state := 4, kind := 4, code := 0x13 } ∧ (∀ m, m ≠ n → t.tcb m = s.tcb m) ∧
      (∃ h, Tab.find t.graphs i = some h ∧ h.nended = g.nended + 1 ∧ h.ndone = g.ndone) ∧ t.mem = s.mem
/-- R341, R355, R390: an uncorrectable error in a service core's L1 is a machine check: the core is started again from its last `SHARD_START`
with s3 = 1, its channels are emptied, and every other running shard is told. -/
def serviceErrorsRestart : Prop :=
  ∀ (s : State) (c : Nat) (d : Scalar) (m : List Byte), c < 40 → s.scalar c = some d → d.running = true → d.start = some m →
    Becomes (.serviceCoreL1EccUe c) s fun t => ∃ e, t.scalar c = some e ∧ e.running = true ∧ e.handling = false ∧
      e.ctx.pcOf 0 = recWord m 8 ∧ e.ctx.sreg 3 = 1 ∧ e.ctx.sreg 1 = recWord m 0x28 ∧ e.ctx.sreg 2 = recWord m 0x30 ∧ e.ctx.vreg 0 63 = recWord m 0x20 ∧
      e.kreg 10 = recWord m 0x10 &&& 0xF0000FFFFFFFFFFF ∧ e.kreg 1 = 0 ∧ e.kreg 2 = 0 ∧ e.kreg 4 = 0 ∧ (∀ p, t.channel p c = []) ∧ t.mem = s.mem ∧
      ∀ j f, j < 40 → j ≠ c → s.scalar j = some f → f.running = true → (s.scalars.map Prod.fst).Nodup → s.heldMsgs = [] →
        (s.channel (s.complexCore 0) j).length < 8 →
        t.channel (s.complexCore 0) j = s.channel (s.complexCore 0) j ++ [mkRecord 64 [(0, 2, 2), (2, 1, c)]]

/-- R79, R159, R161, R299, R303, R341, R342, R344, R355, R390: what soft errors do. What an exit word holds of a gang that no instruction of
its own ended, and the event of a machine check, are the model's readings (logs 15, 77). -/
def Obligations.SoftErrors : Prop :=
  registerErrorsTerminate ∧ shareErrorsKill ∧ linesArePoisoned ∧ nodeErrorsFail ∧ serviceErrorsRestart

/-! ### Events: queues and packets -/

/-- The word at a place of a queue's ring. -/
def ringWord (s : State) (y : Tenant) (r : Stream) (p : Nat) : Except (Nat × Word) Nat :=
  s.partNat (tenantCtx y.pasid) (BitVec.ofNat 64 (r.base + 4 * (p % r.len))) 4
/-- A packet of type k with body b stands next in the ring of an active queue, no flag of its header set: nothing of the ring has been
fetched ahead, no loop is open, nothing of the queue waits, and what it has stored is visible (R241, R243). -/
structure Standing (s : State) (t q : Nat) (y : Tenant) (r : Stream) (k : Nat) (b : List Nat) : Prop where
  fetching : s.fetching = true
  tenant : s.tenant t = some y ∧ y.teardown = false
  active : (s.queue t q).state = 1 ∧ (s.queue t q).skipping = false ∧ (s.queue t q).waits = [] ∧ (s.queue t q).deferred = []
  ring : (s.queue t q).streams = [r] ∧ r.ahead = [] ∧ r.loops = [] ∧ (s.queue t q).readPtr = r.pos
  quiet : s.settled t q = true
  small : k < 256 ∧ b.length < 4096 ∧ r.pos + 1 + b.length ≤ (s.queue t q).seenWrite
  header : ringWord s y r r.pos = .ok (k * 2 ^ 24 + b.length * 2 ^ 12)
  body : ∀ i w, b[i]? = some w → ringWord s y r (r.pos + 1 + i) = .ok w
/-- Slice x is current in a queue, and neither ordered nor ended (R253). -/
structure InSlice (s : State) (t q : Nat) (x : Slice) : Prop where
  current : (s.queue t q).current = x.handle ∧ x.handle ≠ 0
  slice : s.slice x.handle = some x ∧ x.cancel = none ∧ x.packetsDone = false ∧ x.ordered = false
/-- The queue stands n words behind where it stood, and its read pointer says so in memory as state u had it, once what the queue has stored is
visible (R241). -/
def PassedFrom (u v : State) (t q : Nat) (r : Stream) (n : Nat) : Prop :=
  (∃ ws, ws.length ≤ 256 ∧ (v.queue t q).streams = [{ r with pos := r.pos + n, ahead := ws }]) ∧
    if v.settled t q = true then (v.queue t q).readPtr = r.pos + n ∧ v.mem = (u.setDesc t q 0x18 8 (r.pos + n)).mem
    else (v.queue t q).readPtr = r.pos ∧ v.mem = u.mem
/-- Two words of a body as a number of 64 bits. -/
def two (b : List Nat) (i : Nat) : Nat := b.getD i 0 + b.getD (i + 1) 0 * 2 ^ 32

/-- R184, R241: a read of the descriptor of an active queue, in which the part sees its own stores that are still pending, takes the write pointer that it finds, be it a doorbell or a poll that caused it; while
no queue is fetched a doorbell is kept. -/
def descriptorsAreRead : Prop :=
  (∀ (s : State) (t q a : Nat) (y : Tenant) (r : Stream) (d : List Byte) (i : Instr), i = .doorbell t q a ∨ i = .queuePoll t q a → t < 64 → q < 16 →
    s.fetching = true → s.tenant t = some y → y.teardown = false → (s.queue t q).state = 1 → (s.queue t q).streams = [r] →
    s.ownSight.partRead (tenantCtx y.pasid) (BitVec.ofNat 64 (y.queueTable + 64 * q)) 64 = .ok d → recAt d 9 1 % 4 = 1 →
    (s.queue t q).readPtr ≤ recAt d 0x10 8 → recAt d 0x10 8 - (s.queue t q).readPtr ≤ 2 ^ (recAt d 8 1 % 32) → (s.queue t q).seenWrite ≤ recAt d 0x10 8 →
    Becomes i s fun v => (v.queue t q).seenWrite = recAt d 0x10 8 ∧ (v.queue t q).state = 1 ∧
      ∃ ws, (v.queue t q).streams = [{ r with ahead := ws }]) ∧
  ∀ (s : State) (t q a : Nat), s.fetching = false → s.complexUp = true → (t, q) ∉ s.doorbells →
    Becomes (.doorbell t q a) s fun v => v.doorbells = s.doorbells ++ [(t, q)] ∧ { v with doorbells := s.doorbells } = s
/-- R253, R254, R257: a slice packet ends the slice before it; admitted, its slice begins with the deadline, budget, tag and flags of its body under a
handle of the queue's next number; rejected, its packets are passed over. -/
def slicePacketsBegin : Prop :=
  ∀ (s : State) (t q a : Nat) (y : Tenant) (r : Stream) (b : List Nat), Standing s t q y r 1 b → b.length = 8 → t < 64 → q < 16 →
    (s.queue t q).entries = [] → s.entryRoom t q = true →
    let h := BitVec.ofNat 64 (((s.queue t q).serial + 1) * 2 ^ 16 + t * 2 ^ 10 + q * 2 ^ 6)
    (s.admission t q b = 0 → Becomes (.pktSlice t q a) s fun v => PassedFrom s v t q r 9 ∧ (v.queue t q).current = h ∧
      (v.queue t q).serial = (s.queue t q).serial + 1 ∧ v.slices.length = s.slices.length + 1 ∧
      ∃ x ∈ v.slices, x.handle = h ∧ x.tenant = t ∧ x.queue = q ∧ x.deadline = two b 0 ∧ x.budget = two b 2 ∧ x.tag = BitVec.ofNat 32 (b.getD 5 0) ∧
        x.be = (b.getD 4 0).testBit 8 ∧ x.ordered = (b.getD 4 0).testBit 9 ∧ x.cancel = none ∧ x.packetsDone = false ∧ x.outst = 0 ∧ x.charged = 0) ∧
    (s.admission t q b ≠ 0 → Becomes (.pktSlice t q a) s fun v => v.slices.length = s.slices.length ∧ (v.queue t q).skipping = true ∧
      (v.queue t q).current = h)
/-- R245, R375: a launch, launchp or copy packet enters a node that is ready, with what its body names, and its slice has one more piece of work. -/
def workPacketsEnter : Prop :=
  ∀ (s : State) (t q a n : Nat) (y : Tenant) (r : Stream) (x : Slice) (b : List Nat), InSlice s t q x → s.freeNode = some n →
    let enters := fun (i : Instr) (p : Tcb → Prop) => Becomes i s fun v => PassedFrom s v t q r (1 + b.length) ∧
      (∃ c, v.tcb n = some c ∧ p c ∧ c.state = 2 ∧ c.slice = x.handle ∧ c.tenant = t ∧ c.pasid = y.pasid ∧ c.graph = none ∧ c.spawner = none ∧ c.packet = true) ∧
      (∀ m, m ≠ n → v.tcb m = s.tcb m) ∧ v.slice x.handle = some { x with outst := x.outst + 1 }
    (Standing s t q y r 2 b → b.length = 2 → two b 0 % 64 = 0 →
      enters (.pktLaunch t q a) fun c => recAt c.image 0 1 = 1 ∧ recAt c.image 1 1 = 0 ∧ c.body = BitVec.ofNat 64 (two b 0)) ∧
    (Standing s t q y r 3 b → b.length = 2 → two b 0 % 64 = 0 →
      enters (.pktLaunchp t q a) fun c => recAt c.image 0 1 = 1 ∧ recAt c.image 1 1 = 1 ∧ c.body = BitVec.ofNat 64 (two b 0)) ∧
    (Standing s t q y r 0xB b → b.length = 16 → two b 4 = 0 →
      (let d := copyDesc (b.flatMap fun w => leBytes 4 w)
       ∀ e ∈ [(d.src, d.sstr), (d.dst, d.dstr)], inThreadAp e.1 = false ∧ inServiceAp e.1 = false ∧
         meetsAperture (if d.ext.contains 0 then (e.1, e.1) else d.bound e.1 e.2) = false) →
      enters (.pktCopy t q a) fun c => recAt c.image 0 1 = 2 ∧ (c.image.drop 128).take 64 = b.flatMap fun w => leBytes 4 w)
/-- R300: a graph packet whose nodes pass their checks submits them; with too few free entries it waits as it stands, and with a node that fails its
checks its slice is aborted. -/
def graphPacketsSubmit : Prop :=
  ∀ (s u : State) (t q a n : Nat) (y : Tenant) (x : Slice) (p : Packet) (rec : List Byte), s.nextPacket t q a (· = 4) = .found u p →
    u.currentSlice t q = some x → u.tenant t = some y → p.header = 4 * 2 ^ 24 + 4 * 2 ^ 12 → p.body.length = 4 → p.body.getD 2 0 = n → 1 ≤ n → n ≤ 65535 →
    p.body.getD 3 0 = 0 → two p.body 0 % 128 = 0 → (s.queue t q).waits = [] → (s.queue t q).deferred = [] → x.ordered = false →
    u.partRead (tenantCtx y.pasid) (BitVec.ofNat 64 (two p.body 0)) (128 * n) = .ok rec →
    (u.submit (x.handle, t, y.pasid) n rec = .full → exec (.pktGraph t q a) s = .next s) ∧
    (∀ i v, u.submit (x.handle, t, y.pasid) n rec = .done i v → ∀ g, Tab.find v.graphs i = some g →
      Becomes (.pktGraph t q a) s fun w => Tab.find w.graphs i = some { g with packet := true } ∧ w.tcbs = v.tcbs ∧ w.slices = v.slices) ∧
    (u.submit (x.handle, t, y.pasid) n rec = .fails → (s.slice x.handle).isSome = true →
      Becomes (.pktGraph t q a) s fun w => ∃ z, w.slice x.handle = some z ∧ z.cancel = some 1 ∧ z.endKind = 2 ∧ z.endCode = 0x40 ∧ z.packetsDone = true)
/-- R246 to R249: an ib packet opens its buffer, a loop packet its loop, an ffence discards what was fetched ahead, and a pred packet whose condition
fails passes over the packets that it names. -/
def controlPacketsSteer : Prop :=
  ∀ (s : State) (t q a : Nat) (y : Tenant) (r : Stream) (x : Slice) (b : List Nat), InSlice s t q x →
    (Standing s t q y r 0 b → Becomes (.pktNop t q a) s fun v => PassedFrom s v t q r (1 + b.length) ∧ v.slices = s.slices) ∧
    (Standing s t q y r 5 b → b.length = 4 → two b 0 % 4 = 0 → 1 ≤ b.getD 2 0 → b.getD 2 0 ≤ 2 ^ 22 → b.getD 3 0 = 0 →
      Becomes (.pktIb t q a) s fun v => v.mem = s.mem ∧ ∃ ws, (v.queue t q).streams = [⟨two b 0, b.getD 2 0, 0, [], []⟩,
        { r with pos := r.pos + 5, ahead := ws }]) ∧
    (Standing s t q y r 6 b → b.length = 6 → two b 0 % 8 = 0 → b.getD 4 0 ≤ 5 → b.getD 5 0 = 1 → ∀ v0 m k, k ≠ 7 → k ≠ 1 → k < 256 → m < 4096 →
      s.partNat (tenantCtx y.pasid) (BitVec.ofNat 64 (two b 0)) 8 = .ok v0 → r.pos + 8 + m ≤ (s.queue t q).seenWrite →
      ringWord s y r (r.pos + 7) = .ok (k * 2 ^ 24 + m * 2 ^ 12) →
      let S := fun (n : Nat) => sextInt 64 n
      let holds := match b.getD 4 0 with
        | 0 => v0 = two b 2
        | 1 => v0 ≠ two b 2
        | 2 => S v0 < S (two b 2)
        | 3 => S v0 ≤ S (two b 2)
        | 4 => v0 < two b 2
        | _ => v0 ≤ two b 2
      Becomes (.pktPred t q 0) s fun v => (holds → PassedFrom s v t q r 7) ∧ (¬holds → PassedFrom s v t q r (8 + m))) ∧
    (Standing s t q y r 7 b → b.length = 2 → 1 ≤ b.getD 0 0 → b.getD 0 0 ≤ 255 → 1 ≤ b.getD 1 0 →
      Becomes (.pktLoop t q a) s fun v => v.mem = s.mem ∧ ∃ ws, (v.queue t q).streams =
        [{ r with pos := r.pos + 3, ahead := ws, loops := [(r.pos + 3, b.getD 0 0, b.getD 1 0, b.getD 0 0)] }]) ∧
    (Standing s t q y r 8 [] → Becomes (.pktFfence t q a) s fun v => PassedFrom s v t q r 1 ∧ (v.queue t q).streams = [{ r with pos := r.pos + 1 }])
/-- R184, R245, R250, R252, Table 11.3: as strong stores, a signal packet adds to its signal, unless one pends there, a write packet stores
its words and a timestamp packet stores PTB; a wait packet passes once
its signal is 0 and else waits behind the queue, a cancel packet cancels another slice of its tenant, and a hostirq packet messages the owning shard. -/
def storePacketsStore : Prop :=
  ∀ (s : State) (t q a : Nat) (y : Tenant) (r : Stream) (x : Slice) (b : List Nat), InSlice s t q x →
    let c := tenantCtx y.pasid
    let store := fun (n : Nat) (bs : List Byte) => s.writeAt (.queue (16 * t + q)) (some 5) c (BitVec.ofNat 64 n) bs
    let add := s.signalAdd (.queue (16 * t + q)) (s.queue t q).current y.pasid (BitVec.ofNat 64 (two b 0)) (BitVec.ofNat 64 (two b 2))
    (Standing s t q y r 9 b → b.length = 4 → two b 0 % 8 = 0 →
      (∀ u, add = .ok (some u) → Becomes (.pktSignal t q a) s fun v => PassedFrom u v t q r 5) ∧
      (add = .ok none → exec (.pktSignal t q a) s = .next s)) ∧
    (Standing s t q y r 0xC b → 3 ≤ b.length → two b 0 % 4 = 0 → ∀ u, store (two b 0) ((b.drop 2).flatMap fun w => leBytes 4 w) = .ok u →
      Becomes (.pktWrite t q a) s fun v => PassedFrom u v t q r (1 + b.length)) ∧
    (Standing s t q y r 0xD b → b.length = 2 → two b 0 % 8 = 0 → ∀ u, store (two b 0) (leBytes 8 s.ptb) = .ok u →
      Becomes (.pktTimestamp t q a) s fun v => PassedFrom u v t q r 3) ∧
    (Standing s t q y r 0xA b → b.length = 3 → b.getD 0 0 = 1 → two b 1 % 8 = 0 → ∀ n, s.partNat c (BitVec.ofNat 64 (two b 1)) 8 = .ok n →
      (n = 0 → Becomes (.pktWait t q a) s fun v => PassedFrom s v t q r 4 ∧ (v.queue t q).waits = []) ∧
      (0 < n → n < 2 ^ 63 → Becomes (.pktWait t q a) s fun v => PassedFrom s v t q r 4 ∧ (v.queue t q).waits = [⟨x.handle, [two b 1], false⟩])) ∧
    (Standing s t q y r 0xE b → b.length = 3 → b.getD 2 0 ≤ 1 → ∀ z, s.slice (BitVec.ofNat 64 (two b 0)) = some z → z.tenant = t → z.handle ≠ x.handle → z.cancel = none →
      Becomes (.pktCancel t q a) s fun v => ∃ z', v.slice z.handle = some z' ∧ z'.cancel = some (b.getD 2 0) ∧ z'.endKind = 3 ∧ z'.endCode = 0x15 ∧
        z'.packetsDone = true) ∧
    (Standing s t q y r 0xF b → b.length = 1 → b.getD 0 0 < 2 ^ 11 → s.hosted = false → s.heldMsgs = [] → (s.channel (s.complexCore 0) y.shard).length < 8 →
      Becomes (.pktHostirq t q a) s fun v => PassedFrom s v t q r 2 ∧ v.channel (s.complexCore 0) y.shard =
        s.channel (s.complexCore 0) y.shard ++ [mkRecord 64 [(0, 2, 5), (2, 2, b.getD 0 0), (8, 8, x.handle.toNat)]])
/-- What an entry appended to a ring with room leaves, of a queue that has no entry waiting, all it stored before being visible: the entry is
written as a strong store, and once it is visible the write index follows (R191, R255, Table 11.6). -/
def EntryWritten (s v : State) (t q : Nat) (y : Tenant) (d e : List Byte) : Prop :=
  let u := s.hubWrite (.queue (16 * t + q)) t y.pasid (BitVec.ofNat 64 (recAt d 0x20 8 + 32 * (recAt d 0x30 8 % 2 ^ (recAt d 0x28 1 % 16)))) e
  if u.settled t q = true then (v.queue t q).owed = none ∧
    v.mem = (u.hubWrite .part t y.pasid (BitVec.ofNat 64 (y.queueTable + 64 * q + 0x30)) (leBytes 8 (recAt d 0x30 8 + 1))).mem
  else (v.queue t q).owed = some (recAt d 0x30 8 + 1) ∧ v.mem = u.mem
/-- R250, R253, R255, R425: a wait ends when its signal is 0; a slice's packets are at their end when the write pointer shows no further word; a slice that has
none left and no work outstanding is complete, and its entry goes to the completion ring, where a waiting entry also goes once there is room. -/
def slicesComplete : Prop :=
  (∀ (s : State) (t q a m : Nat) (y : Tenant) (w : WaitPkt), s.complexUp = true → s.tenant t = some y → s.settled t q = true →
    (s.queue t q).waits = [w] → w.signals = [m] → s.partNat (tenantCtx y.pasid) (BitVec.ofNat 64 m) 8 = .ok 0 →
    Becomes (.waitObservation t q a) s fun v => (v.queue t q).waits = []) ∧
  (∀ (s : State) (t q : Nat) (y : Tenant) (r : Stream) (x : Slice), s.fetching = true → s.tenant t = some y → (s.queue t q).state = 1 →
    (s.queue t q).skipping = false → (s.queue t q).streams = [r] → r.loops = [] → (s.queue t q).waits = [] → (s.queue t q).deferred = [] →
    s.settled t q = true → r.pos = (s.queue t q).seenWrite → (s.queue t q).readPtr = r.pos → s.ownSight.partNat (tenantCtx y.pasid) (BitVec.ofNat 64 (y.queueTable + 64 * q + 0x10)) 8 = .ok r.pos → InSlice s t q x →
    Becomes (.sliceEnd t q) s fun v => v.slice x.handle = some { x with packetsDone := true } ∧ (v.queue t q).current = 0 ∧
      (v.queue t q).previous = x.handle ∧ v.mem = s.mem) ∧
  (∀ (s : State) (h : Nat) (x : Slice) (y : Tenant) (d : List Byte), s.complexUp = true → x.handle = BitVec.ofNat 64 h → s.slice x.handle = some x → x.packetsDone = true → x.outst = 0 →
    (∀ w ∈ (s.queue x.tenant x.queue).waits, w.slice ≠ x.handle) → (∀ w ∈ (s.queue x.tenant x.queue).deferred, w.slice ≠ x.handle) →
    s.settled x.tenant x.queue = true → (s.queue x.tenant x.queue).entries = [] → (s.queue x.tenant x.queue).owed = none →
    s.tenant x.tenant = some y → s.ownSight.partRead (tenantCtx y.pasid) (BitVec.ofNat 64 (y.queueTable + 64 * x.queue)) 64 = .ok d →
    recAt d 0x30 8 - recAt d 0x38 8 < 2 ^ (recAt d 0x28 1 % 16) →
    (∀ a g l n e, s.gang a = some g → g.stat l ≠ .sliceWait x.handle n e) →
    let last : Nat × Nat := if x.endKind ≠ 0 then (x.endKind, x.endCode) else match x.fail with
      | some f => (4, f.2)
      | none => (0, 0)
    Becomes (.sliceCompletion h) s fun v => v.slice x.handle = none ∧ EntryWritten s v x.tenant x.queue y d
      (leBytes 8 x.handle.toNat ++ leBytes 8 (last.1 * 2 ^ 56 + last.2 * 2 ^ 48 + x.tag.toNat) ++ leBytes 8 s.ptb ++ leBytes 8 x.charged)) ∧
  ∀ (s : State) (t q : Nat) (y : Tenant) (d e : List Byte), s.complexUp = true → s.settled t q = true → (s.queue t q).entries = [e] →
    (s.queue t q).owed = none → s.tenant t = some y →
    s.ownSight.partRead (tenantCtx y.pasid) (BitVec.ofNat 64 (y.queueTable + 64 * q)) 64 = .ok d → recAt d 0x30 8 - recAt d 0x38 8 < 2 ^ (recAt d 0x28 1 % 16) →
    Becomes (.completionRingRoom t q) s fun v => (v.queue t q).entries = [] ∧
      EntryWritten s v t q y d (e.take 16 ++ leBytes 8 s.ptb ++ e.drop 24)

/-- R241 to R257, R300, R375, R424, R425: what the complexes do with queues and their packets. Images that cannot be read, the core that
sends a message, a copy packet that fails, malformed slice packets, held packets, a slice that ends with waits left, `pred` with loops, and
the release of a queue's stores are the model's readings (logs 22, 60, 69, 71, 72, 73, 74, 75). -/
def Obligations.PacketsAreProcessed : Prop :=
  descriptorsAreRead ∧ slicePacketsBegin ∧ workPacketsEnter ∧ graphPacketsSubmit ∧ controlPacketsSteer ∧ storePacketsStore ∧ slicesComplete

/-! ### Events: the hub, tenants, devices and the pod -/

/-- R263, R386, R387: 10 µs after the last one, a measurement caps a tenant where its cores, the HBM bytes moved by and for its work in that time (which
bytes count is the model's choice: log 100), or its power have reached its share of the package; a share of 1,023 caps nothing, a halved power share
counts half, and at the last thermal step it is 0. -/
def capsAreMeasured : Prop :=
  (∀ (s : State) (t other power : Nat) (x : Tenant) (rec : List Byte), s.tenant t = some x → s.tenantRecord t = some rec →
    let window := s.ptb - x.measuredAt
    let share := fun (i : Nat) => recAt rec 4 4 / 2 ^ (10 * i) % 1024
    let reached := fun (n d c : Nat) => c * d ≤ 1024 * n
    let capped := share 0 ≠ 1023 ∧ reached (s.tenantCores t) s.presentCores.length (share 0) ∨
      share 1 ≠ 1023 ∧ reached ((x.moved + other) * 10000) (480000000 * window) (share 1) ∨
      (if s.pwrZero then True else if s.pwrHalved then (if share 2 = 1023 then 1024 else share 2) * 3600000 ≤ 2 * 1024 * power
        else share 2 ≠ 1023 ∧ reached power 3600000 (share 2))
    (window < 10000 → exec (.capMeasurement t other power) s = .next s) ∧
    (10000 ≤ window → Becomes (.capMeasurement t other power) s fun v =>
      (∃ y, v.tenant t = some y ∧ { y with capped := x.capped, moved := x.moved, measuredAt := x.measuredAt } = x ∧ y.moved = 0 ∧
        y.measuredAt = s.ptb ∧ (y.capped = true ↔ capped)) ∧
      (∀ u, u ≠ t → v.tenant u = s.tenant u) ∧ { v with tenants := s.tenants } = s)) ∧
  ∀ (s : State) (mw : Nat), Becomes (.powerEstimate mw) s fun v => v.mcpwr = BitVec.ofNat 64 mw ∧
    v.pwrHalved = (if 3600000 < mw then true else if mw * 100 < 3600000 * 95 then false else s.pwrHalved) ∧
    { v with mcpwr := s.mcpwr, pwrHalved := s.pwrHalved } = s
/-- R262, R348: an event of a tenant is posted: at most one of each kind for each slice waits; it waits behind others and where no entry of the ring is free,
and else stands in a free entry. -/
def Posted (s v : State) (t : Nat) (y : Tenant) (e : List Byte) : Prop :=
  let same := ∃ w ∈ s.events, w.tenant = t ∧ recAt w.entry 8 8 = recAt e 8 8 ∧ recAt w.entry 0x18 1 = recAt e 0x18 1
  (same → v.events = s.events ∧ v.mem = s.mem) ∧
  (¬same → ((∃ w ∈ s.events, w.tenant = t) ∨ s.tenantSlot y = .ok none) → v.events = s.events ++ [⟨t, e⟩] ∧ v.mem = s.mem) ∧
  ((∀ w ∈ s.events, w.tenant ≠ t) → ∀ j, s.tenantSlot y = .ok (some j) → v.events = s.events ∧
    v.mem = (s.hubWrite .part t y.pasid (BitVec.ofNat 64 (y.ring + 64 * j)) e).mem)
/-- An entry of a tenant fault ring for a slice: PTB, the handle, kind, and `VAL` (Table 15.4). -/
def sliceEvent (s : State) (h : Word) (kind : Nat) (val : Word) : List Byte :=
  mkRecord 64 [(0, 8, s.ptb), (8, 8, h.toNat), (0x18, 1, kind), (0x20, 8, val.toNat), (0x3F, 1, 1)]
/-- R20, R259, R261, R262, Table 15.4: a deadline that PTB reaches is an event of kind 2 of its slice. A budget that is used up is one of kind 1 and a message to
the owning shard and to shard 0, and it stops the slice's work: its gangs lose their slots and stay as they wait (log 109). An event that waits is written once
an entry of the tenant fault ring is free; which of the free ones is the model's free value (log 58). -/
def eventsAreWritten : Prop :=
  (∀ (s : State) (h : Nat) (x : Slice) (y : Tenant), x.handle = BitVec.ofNat 64 h → s.slice x.handle = some x → s.tenant x.tenant = some y → x.missed = false →
    x.be = false → x.deadline ≤ s.ptb →
    Becomes (.deadlinemiss h) s fun v => v.slice x.handle = some { x with missed := true } ∧
      Posted s v x.tenant y (sliceEvent s x.handle 2 (BitVec.ofNat 64 x.deadline))) ∧
  (∀ (s : State) (h : Nat) (x : Slice) (y : Tenant), x.handle = BitVec.ofNat 64 h → s.slice x.handle = some x → s.tenant x.tenant = some y → x.stopped = false →
    x.be = false → x.budget ≤ 0 →
    let told := fun (j : Nat) => j = y.shard ∨ s.shard0 = some j
    let m := mkRecord 64 [(0, 2, 3), (2, 1, 1), (3, 1, x.tenant), (8, 8, x.handle.toNat)]
    Becomes (.budget h) s fun v => v.slice x.handle = some { x with stopped := true } ∧
      Posted s v x.tenant y (sliceEvent s x.handle 1 (BitVec.ofInt 64 x.budget)) ∧
      (s.heldMsgs = [] → y.shard < 64 → (∀ j, told j → (s.channel (s.complexCore 0) j).length < 8) →
        ∀ j, told j → v.channel (s.complexCore 0) j = s.channel (s.complexCore 0) j ++ [m]) ∧
      ∀ a g, s.gang a = some g → isGang a = true → x.handle ≠ 0 → s.sliceOf a = x.handle → ∃ g', v.gang a = some g' ∧ g'.slot = false ∧
        (g.slot = true → g.runnable = true → g'.gstat = g.gstat ||| 4) ∧ { g' with slot := g.slot, lost := g.lost, gstat := g.gstat } = g) ∧
  ∀ (s : State) (t j : Nat) (e : Event) (y : Tenant), s.events.find? (fun e => e.tenant = t) = some e → s.tenant t = some y → s.tenantSlot y = .ok (some j) →
    Becomes (.tenantFaultRingEntryFree t) s fun v => v.events = s.events.erase e ∧
      v.mem = (s.hubWrite .part t y.pasid (BitVec.ofNat 64 (y.ring + 64 * j)) e.entry).mem
/-- R347: the reset of a tenant puts its queues in TEARDOWN, cancels its slices in kill mode (one that has ended otherwise keeps how) and drops its translations; once nothing of it is left under way its
queues are STOPPED and it is no more. -/
def tenantsAreTornDown : Prop :=
  (∀ (s : State) (t : Nat) (x : Tenant), s.tenant t = some x → x.teardown = false →
    Becomes (.tenantReset t) s fun v => (∃ y, v.tenant t = some y ∧ y.teardown = true) ∧ (∀ z ∈ v.slices, z.tenant = t → z.cancel.isSome = true ∧
      ((∀ x ∈ s.slices, x.handle = z.handle → x.cancel = none) → z.cancel = some 1 ∧ z.endKind = 3 ∧ z.endCode = 0x15)) ∧
      (∀ q, q < 16 → (Tab.find s.queues (16 * t + q)).isSome = true → (v.queue t q).state = 3) ∧
      ∀ c, ∀ e ∈ Tab.at v.tlbs c [], e.tag ≠ some x.pasid) ∧
  ∀ (s : State) (t : Nat) (x : Tenant), s.tenant t = some x → x.teardown = true → s.tenantQuiet t x = true →
    Becomes (.teardownComplete t) s fun v => (∃ y, v.tenant t = some y ∧ y.teardown = false ∧ y.valid = false ∧ y.killed = none) ∧
      ∀ q, q < 16 → (v.queue t q).state = 0 ∧ (v.queue t q).streams = [] ∧ (v.queue t q).waits = [] ∧ (v.queue t q).deferred = []
/-- The data of an MSI that brings identity n: as it is at offset 0 of the page, its bytes reversed at offset 4 (log 33). -/
def MsiBrings (addr data n : Nat) : Prop :=
  1 ≤ n ∧ n ≤ 2047 ∧ (addr % 4096 = 0 ∧ data = n ∨ addr % 4096 = 4 ∧ data = leNat (leBytes 4 n).reverse)
/-- R170, R171: an MSI with an identity at the page of the interrupt file of a shadow hart that is enabled begins every entry that its mailbox holds (the file, and that
every entry is begun, are the model's reading: log 33): covered translations go, or an unknown kind is refused; of one that is not enabled the identity stays
pending until it is. When nothing that may have used them is left, the sequence number is stored at its acknowledgement address, as a strong store, and the
head moves on. -/
def shootdownsAreAcknowledged : Prop :=
  (∀ (s : State) (h addr data id : Nat) (e : List Byte), h < 40 → s.servicePresent h = true → s.hosted = true → (s.hart h 0x28).getLsbD 0 = true →
    MsiBrings addr data id → (∀ j, j < 40 → ((s.hart j 0).toNat / 4096 = addr / 4096 ↔ j = h)) →
    let n := (s.hart h 0x18).toNat + (s.invals.filter fun v => v.hart == some h).length
    let entry := fun (n : Nat) => s.spaBytes ((s.hart h 8).toNat + 64 * (n % 64)) 64
    n < (s.hart h 0x10).toNat → (∀ i, i < min 64 ((s.hart h 0x10).toNat - n) → (entry (n + i)).isSome = true) → entry n = some e →
    Becomes (.shootdownRequest (addr, data)) s fun v => v.mem = s.mem ∧ Tab.at v.imsics h [] = [] ∧ ∃ i is, v.invals = s.invals ++ i :: is ∧
      is.length + 1 = min 64 ((s.hart h 0x10).toNat - n) ∧ i.hart = some h ∧ i.seq = recWord e 0 ∧
      i.ack = recAt e 0x20 8 ∧ i.kind = recAt e 8 4 ∧ i.pasid = recAt e 0xC 4 % 2 ^ 20 ∧ i.rejected = decide (2 < recAt e 8 4) ∧
      (recAt e 8 4 = 0 → ∀ c, ∀ b ∈ Tab.at v.tlbs c [], i.covers b.tag b.base b.size = false) ∧ (2 < recAt e 8 4 → is = [] → v.tlbs = s.tlbs)) ∧
  (∀ (s : State) (addr data : Nat),
    ((∀ n, ¬MsiBrings addr data n) → exec (.shootdownRequest (addr, data)) s = .next s) ∧
    ∀ h id, h < 40 → s.servicePresent h = true → s.hosted = false ∨ (s.hart h 0x28).getLsbD 0 = false → MsiBrings addr data id →
      (∀ j, j < 40 → ((s.hart j 0).toNat / 4096 = addr / 4096 ↔ j = h)) →
      Becomes (.shootdownRequest (addr, data)) s fun v => id ∈ Tab.at v.imsics h [] ∧ { v with imsics := s.imsics } = s) ∧
  ∀ (s : State) (i : Inval) (h : Nat), s.invals.find? (fun v => v.id = i.id) = some i → s.invalOver i = true → i.hart = some h →
    (s.invals.find? fun u => u.hart == i.hart) = some i →
    Becomes (.invalidationComplete i.id) s fun v => v.invals = s.invals.filter (fun u => u.id ≠ i.id) ∧ v.hart h 0x18 = s.hart h 0x18 + 1 ∧
      ∀ k, s.route i.ack = some k → k % 128 ≤ 120 → OwnersWhole s → LineFree s (k / 128) → ∀ a, v.homeByte a =
        if s.ptb < (s.home (k / 128)).lease then s.homeByte a
        else written s k (leBytes 8 (if i.rejected then i.seq ||| 0x8000000000000000 else i.seq).toNat) a
/-- R193, R194: the host reads and writes HBM at its home, a write completes once PTB has reached its WCT, and a snoop of a line of host memory is answered when no
lease on it is left. -/
def hostAccesses : Prop :=
  (∀ (s : State) (o n k : Nat), s.localKey o = some k → s.hostLink = true → o + n ≤ 2 ^ 40 → 0 < n → (∀ i, i < n → s.poisoned (k + i) = false) →
    Becomes (.cxlMemRead o n) s fun v => v.out = s.out ++ [.data 8 (s.homeRead k n)] ∧ { v with out := s.out } = s) ∧
  (∀ (s : State) (o k : Nat) (bs : List Byte), OwnersWhole s → s.localKey o = some k → s.hostLink = true → o + bs.length ≤ 2 ^ 40 → bs ≠ [] →
    k % 128 + bs.length ≤ 128 → LineFree s (k / 128) → s.remote k = false → (∀ w ∈ s.hostWrites, w.id ≠ s.serialNo) →
    Becomes (.cxlMemWrite o bs) s fun v => (∀ a, v.homeByte a = written s k bs a) ∧
      v.hostWrites = s.hostWrites ++ [⟨s.serialNo, max s.ptb (s.home (k / 128)).lease⟩]) ∧
  (∀ (s : State) (w : HostWrite), s.hostWrites.find? (fun v => v.id = w.id) = some w → w.wct ≤ s.ptb →
    s.owes (.host w.id) = false → Becomes (.cxlMemWriteComplete w.id) s fun v => v.hostWrites = s.hostWrites.filter (fun v => v.id ≠ w.id) ∧ v.out = s.out ++ [.cxlDone w.id] ∧
      { v with hostWrites := s.hostWrites, out := s.out } = s) ∧
  ∀ (s : State) (n : Nat), OwnersWhole s → s.hostLink = true → 2 ^ 49 ≤ n → n < 2 ^ 50 → (s.home n).lease ≤ s.ptb →
    Becomes (.hostSnoop n) s fun v => v.out = s.out ++ [.snoop n] ∧ (v.home n).owner = none ∧ ∀ a, a / 128 ≠ n → v.homeByte a = s.homeByte a
/-- R156, R195, R357, R362: a device write lands whole, its line carrying the times of the requester's earlier writes; one without a place is an error; a read
delivers what is there; a device interrupt is a message to the owning shard; a frame whose check fails is counted, and one that passes is written with its
completion entry, the valid byte last; a frame is sent from its buffer, with its check. -/
def deviceAccesses : Prop :=
  (∀ (s : State) (r a k p : Nat) (bs : List Byte), OwnersWhole s → r < 8 → bs ≠ [] → s.dmaPlace r a bs.length = some (.mem k p) → k % 128 + bs.length ≤ 128 →
    LineFree s (k / 128) → s.owes (.dma r) = false →
    Becomes (.dmaWrite r a bs) s fun v => (∀ b, v.homeByte b = written s k bs b) ∧
      (v.home (k / 128)).stamp = max (max s.ptb (s.home (k / 128)).lease) (Tab.at s.dmaWct r 0) ∧
      Tab.at v.dmaWct r 0 = max (max s.ptb (s.home (k / 128)).lease) (Tab.at s.dmaWct r 0)) ∧
  (∀ (s : State) (r a n : Nat) (bs : List Byte), r < 8 →
    (bs ≠ [] → s.owes (.dma r) = false → s.dmaPlace r a bs.length = none →
      Becomes (.dmaWrite r a bs) s fun v => v.out = s.out ++ [.dmaError r] ∧ { v with out := s.out } = s) ∧
    (0 < n → s.dmaPlace r a n = none → Becomes (.dmaRead r a n) s fun v => v.out = s.out ++ [.dmaError r] ∧ { v with out := s.out } = s) ∧
    ∀ l, 0 < n → s.dmaPlace r a n = some l → (∀ k p i, l = .mem k p → i < n → s.poisoned (k + i) = false) →
      Becomes (.dmaRead r a n) s fun v => v.out = s.out ++ [.data r (s.locRead l n)] ∧ { v with out := s.out } = s) ∧
  (∀ (s : State) (d n : Nat), d < 8 → n < (if d < 4 then 64 else 2 ^ 16) → s.servicePresent (Tab.at s.owners d 0) = true → s.heldMsgs = [] →
    let m := mkRecord 64 [(0, 2, 4), (2, 2, n), (4, 1, d)]
    let ms := s.channel (s.complexCore 2) (Tab.at s.owners d 0)
    m ∉ s.channel 42 (Tab.at s.owners d 0) → m ∉ s.channel 46 (Tab.at s.owners d 0) → ms.length < 8 →
    Becomes (.devirq d n) s fun v => v.channel (s.complexCore 2) (Tab.at s.owners d 0) = ms ++ [m] ∧ { v with channels := s.channels } = s) ∧
  (∀ (s : State) (p r c : Nat) (frame : List Byte), p < 4 → r < 64 →
    (crc32 frame ≠ c → Becomes (.ethFrameReceive p r c frame) s fun v => v.mceth = s.mceth + 1 ∧ { v with mceth := s.mceth } = s) ∧
    ∀ e, crc32 frame = c → s.spaBytes (s.ethEntry p r 1).1 16 = some e → 64 ≤ recAt e 8 2 → recAt e 8 2 ≤ 9216 →
      frame.length ≤ recAt e 8 2 → let done := (s.ethEntry p r 2).1
      s.portHeld p (recAt e 0 8) frame.length = false → s.portHeld p done 16 = false →
      Becomes (.ethFrameReceive p r c frame) s fun v => v.mceth = s.mceth ∧
        v.mem = (((s.portWrite p (recAt e 0 8) frame).portWrite p done
          (mkRecord 16 [(0, 4, (s.ethEntry p r 1).2), (4, 2, frame.length), (8, 8, s.ptb)])).portWrite p (done + 7) [1]).mem) ∧
  ∀ (s : State) (p r : Nat), p < 4 → r < 64 → Becomes (.ethTransmit p r) s fun v => v.mem = s.mem ∧
    ∀ e l, s.spaBytes (s.ethEntry p r 0).1 16 = some e → 60 ≤ recAt e 8 2 → recAt e 8 2 ≤ 9216 → recAt e 0xA 2 % 2 = 1 →
      s.dmaPlace (4 + p) (recAt e 0 8) (recAt e 8 2) = some l → s.spoiled l (recAt e 8 2) = false →
      v.out = s.out ++ [.frame p (withFcs (s.locRead l (recAt e 8 2)))]

/-- R156, R170, R171, R193 to R195, R259, R261 to R263, R347, R357, R362, R386, R387: what the hub, the host and devices do. -/
def Obligations.HubAndDevices : Prop :=
  capsAreMeasured ∧ eventsAreWritten ∧ tenantsAreTornDown ∧ shootdownsAreAcknowledged ∧ hostAccesses ∧ deviceAccesses

/-- The package carries pod traffic, and holds no message back (R374). -/
def Carries (s : State) : Prop := s.podFormed = true ∧ s.slow = 0 ∧ s.treeHeld = []
/-- A flit whose CRC and numbers are in order comes in at a port that works, from a chip of the pod, at a package that carries traffic (R373, Table 17.1;
that the CRC begins at 0 is the model's reading: log 11). -/
structure ComesIn (s : State) (p : Nat) (bs : List Byte) : Prop where
  port : p < 18 ∧ Tab.at s.ports p false = false
  whole : bs.length = 256 ∧ recWord bs 0xF8 = crc64 (bs.take 0xF8) ∧ recAt bs 0 2 < 1024 ∧ recAt bs 2 2 < 1024 ∧ recAt bs 4 1 < 3
  pod : s.alone = false ∧ Carries s ∧ recAt bs 2 2 ∈ s.podChips
/-- It is for this chip, in its place in its channel, and tells m: what a flit tells is the model's free value (log 31). -/
def Tells (s : State) (p : Nat) (bs : List Byte) (m : PodMsg) : Prop :=
  ComesIn s p bs ∧ recAt bs 0 2 = s.chip ∧ recAt bs 6 2 = Tab.at s.flitSeen (recAt bs 2 2 * 4 + recAt bs 4 1) 0 ∧ Config.flitMessage bs = some m
/-- R373, R374, R388: a flit whose CRC fails, or whose place in its channel it is not, does nothing here; one for another chip of the pod goes on by the port of
its route, on a shortest path the lowest; a port that fails ends the formation; in a clash of chip indices the package runs alone and the controller
reports it; else the pod forms with the packages found, and a package that does not hold the lowest index steps its PTB forward, or counts 1 of
each 2 ns until its master has caught up. -/
def podForms : Prop :=
  (∀ (s : State) (p : Nat) (bs : List Byte), bs.length = 256 → recWord bs 0xF8 ≠ crc64 (bs.take 0xF8) → exec (.flitReceive p bs) s = .next s) ∧
  (∀ (s : State) (p : Nat) (bs : List Byte), ComesIn s p bs →
    (recAt bs 0 2 = s.chip → recAt bs 6 2 ≠ Tab.at s.flitSeen (recAt bs 2 2 * 4 + recAt bs 4 1) 0 → exec (.flitReceive p bs) s = .next s) ∧
    ∀ q, recAt bs 0 2 ≠ s.chip → recAt bs 0 2 ∈ s.podChips → s.routePort (recAt bs 0 2) = some q →
      Becomes (.flitReceive p bs) s fun v => v.out = s.out ++ [.flit q bs] ∧ { v with out := s.out } = s) ∧
  (∀ (s : State) (c p : Nat) (x : PodChip), s.podMap.find? (fun y => y.index = s.chip) = some x → s.routePort c = some p →
    let far := depthIn (spanningTree s.podMap c) 1024
    let nearer := fun (q : Nat) => ∃ d, (q, d) ∈ x.links ∧ far d + 1 = far s.chip
    p < 18 ∧ Tab.at s.ports p false = false ∧ nearer p ∧ ∀ q, q < p → Tab.at s.ports q false = false → ¬nearer q) ∧
  (∀ (s : State) (p : Nat) (bs : List Byte) (m : PodMsg), Tells s p bs m → OwnersWhole s → Becomes (.flitReceive p bs) s fun v =>
    Tab.at v.flitSeen (recAt bs 2 2 * 4 + recAt bs 4 1) 0 = (recAt bs 6 2 + 1) % 65536 ∧
    ∀ k cs, m = .store k cs → k < hostKey → s.remote k = false → k % 128 + cs.length ≤ 128 → LineFree s (k / 128) → ∀ a, v.homeByte a = written s k cs a) ∧
  (∀ (s : State) (p : Nat), p < 18 → Becomes (.fabricPortFailure p) s fun v => Tab.at v.ports p false = true ∧ v.podFormed = false ∧
    { v with ports := s.ports, podFormed := s.podFormed } = s) ∧
  (∀ (s : State) (ahead : Int) (cs : List PodChip), s.inReset = false → 4 < s.bootStep →
    (Becomes (.podFormation true ahead cs) s fun v => v.alone = true ∧ v.podFormed = false ∧ v.podChips = [s.chip] ∧ v.podMap = [] ∧ v.slow = 0 ∧
      v.mcstat = s.mcstat ||| 0x40000 ∧
      { v with alone := s.alone, podFormed := s.podFormed, podChips := s.podChips, podMap := s.podMap, slow := s.slow, mcstat := s.mcstat } = s) ∧
    Becomes (.podFormation false ahead cs) s fun v =>
      let lower := ∃ c ∈ cs, c.index < s.chip ∧ c.index < 1024
      v.alone = false ∧ v.podFormed = true ∧ (∀ n, n ∈ v.podChips ↔ n = s.chip ∨ n < 1024 ∧ ∃ c ∈ cs, c.index = n) ∧
      v.podMap = cs.filter (fun c => decide (c.index < 1024)) ∧ v.flitSeen = [] ∧ v.mcstat = s.mcstat &&& ~~~0x40000 ∧
      v.ptb = (if lower then s.ptb + ahead.toNat else s.ptb) ∧ v.slow = (if lower then (-ahead).toNat else 0) ∧
      { v with alone := s.alone, podFormed := s.podFormed, podChips := s.podChips, podMap := s.podMap, flitSeen := s.flitSeen, mcstat := s.mcstat
               ptb := s.ptb, slow := s.slow } = s) ∧
  ∀ (s : State) (dt : Nat), (s.pass dt).ptb = s.ptb + dt ∧ (s.pass dt).slow = s.slow - dt ∧ (s.pass dt).mcTime = s.mcTime + dt + min dt s.slow
/-- A slice of handle h, where there is one, is charged n units more (R260). -/
def Charged (s v : State) (h : Word) (n : Nat) : Prop :=
  ∀ z, s.slice h = some z → v.slice h = some { z with budget := z.budget - n, charged := z.charged + n }
/-- R277, R280, R375, R380, R398: a launch's root answers a chip of its range that reads a dispenser register, takes its writes of the proof and the units that it
charges, and cancels at its word. That flits carry these, and how, is the model's choice (log 31). -/
def rootsAnswer : Prop :=
  ∀ (s : State) (p l : Nat) (bs : List Byte) (h : Word) (x : Launch), s.rooted h = some (l, x) → s.launch l = some x → x.done = false →
    (∀ c tag n b, c ∈ x.range → Tells s p bs (.schr h c tag n b) → Becomes (.flitReceive p bs) s fun v =>
      v.out = s.out ++ [.tree 15 tag [c] (leBytes 8 (Tab.at (if b then x.proof else x.sch) n 0).toNat)] ∧ v.launches = s.launches ∧ v.mem = s.mem) ∧
    (∀ n w, n ≠ 7 → Tells s p bs (.schw h n w) → Becomes (.flitReceive p bs) s fun v =>
      v.launch l = some { x with proof := Tab.set 0 x.proof n w } ∧ (∀ m, m ≠ l → v.launch m = s.launch m) ∧ v.mem = s.mem) ∧
    (∀ z n, Tells s p bs (.charge z n) → Becomes (.flitReceive p bs) s fun v => Charged s v z n ∧ v.launches = s.launches ∧ v.mem = s.mem) ∧
    ∀ c tag k, Tells s p bs (.cancel h c tag k) → Becomes (.flitReceive p bs) s fun v =>
      ∃ y, v.launch l = some y ∧ y.cancel = some (if k then 1 else 0) ∧ y.waiting = []
/-- A pod launch at its root: announced, not started, not over. -/
def AtRoot (s : State) (l : Nat) (x : Launch) : Prop :=
  s.launch l = some x ∧ x.pod = true ∧ x.root = s.chip ∧ x.started = false ∧ x.done = false ∧ x.cancel = none ∧ x.total ≠ 0
/-- A message of a kind for a launch that this chip sends to its children in the tree of a root, with its number (R375). -/
def downTree (s : State) (root kind l n : Nat) (body : List Byte) : List Output :=
  if s.treeKids root = [] then [] else [.tree kind l (s.treeKids root) (leBytes 8 n ++ body)]
/-- The node of a launch came from the same queue as that of another, and before it (R376; log 107). -/
def Earlier (s : State) (y x : Launch) : Prop :=
  ∃ t u, x.node.bind s.tcb = some t ∧ y.node.bind s.tcb = some u ∧ u.order < t.order ∧ s.podQueue u = s.podQueue t ∧ (s.podQueue t).isSome = true
/-- R260, R375, R376: the root of a pod launch sends Go down its tree after the last acknowledgement, once no earlier launch of its queue is undecided (log 107), and
withdraws the launch after a failure, after one that comes too late, or 100 µs without an acknowledgement. What the fabric charges for a message is
the model's choice (log 101). -/
def announcesAreAnswered : Prop :=
  ∀ (s : State) (l : Nat) (x : Launch), AtRoot s l x → Carries s →
    let sends := fun (v : State) (kind : Nat) => v.out = s.out ++ downTree s s.chip kind x.rootLaunch s.treeSent [] ∧ v.treeSent = s.treeSent + 1 ∧
      Charged s v x.slice (s.podChips.length - 1) ∧
      { v with launches := s.launches, out := s.out, slices := s.slices, treeSent := s.treeSent, owedUnits := s.owedUnits } = s
    let withdrawn := fun (v : State) => v.launch l = some { x with started := true, failCode := 1, waiting := [], wglive := 0 } ∧ sends v 2
    (∀ c, c ∈ x.range → c ≠ s.chip →
      (s.ptb ≤ x.announced + 100000 → c ∉ x.acked →
        ((∀ d ∈ x.range, d = c ∨ d ∈ x.acked) → (∀ p ∈ s.launches, p.2.undecided s.chip = true → ¬Earlier s p.2 x) →
          Becomes (.announceAck l c true) s fun v =>
            v.launch l = some { x with acked := c :: x.acked, gone := true, started := true, announced := s.ptb } ∧ sends v 1) ∧
        ((∃ d ∈ x.range, d ≠ c ∧ d ∉ x.acked) ∨ (∃ p ∈ s.launches, p.2.undecided s.chip = true ∧ Earlier s p.2 x) →
          Becomes (.announceAck l c true) s fun v => v.launch l = some { x with acked := c :: x.acked } ∧ { v with launches := s.launches } = s)) ∧
      (x.announced + 100000 < s.ptb → Becomes (.announceAck l c true) s withdrawn) ∧ Becomes (.announceAck l c false) s withdrawn) ∧
    (∀ d ∈ x.range, d ∉ x.acked → x.announced + 100000 ≤ s.ptb → Becomes (.announceTimeout l) s withdrawn)
/-- R376: the Gos that were held back are sent (that they were is the model's reading: log 107): what a step leaves holds back no Go but of launches that an earlier one of their queue precedes, and it changes only launches, what leaves the package and what
slices are charged. -/
def heldGosFollow : Prop :=
  ∀ s : State, let v := s.sendGos s.launches.length
    (∀ p ∈ v.launches, p.2.undecided v.chip = true → (∀ c ∈ p.2.range, c ∈ p.2.acked) → v.goHeld p.2 = true) ∧
    (∀ l x, s.launch l = some x → ∃ y, v.launch l = some y ∧ { y with gone := x.gone, started := x.started, announced := x.announced } = x) ∧
    { v with launches := s.launches, out := s.out, slices := s.slices, treeSent := s.treeSent, treeHeld := s.treeHeld, owedUnits := s.owedUnits } = s
/-- The launch that an announced record describes on this chip (R293, R375). -/
def announcedEntry (s : State) (root rl pasid slice : Nat) (bs : List Byte) : Launch :=
  s.withPlacement { freshLaunch bs (s.serialNo + 1) (BitVec.ofNat 64 slice) (bitsOf slice 15 10) (pasid % 2 ^ 20) 0 s.serialNo with
    pod := true, root := root, rootLaunch := rl }
/-- R294, R375: a chip passes an announce on down the tree of its root. Of a launch in whose range it is it takes an entry, for which the announce waits, whose
workgroups wait for Go; with a check that fails it tells the root. It acknowledges once it has the space of its placement. -/
def announcesReserve : Prop :=
  (∀ (s : State) (root n rl pasid slice : Nat) (bs : List Byte), Carries s → root ≠ s.chip → root ∈ s.podChips → Tab.at s.treeSeen root 0 = n →
    bs.length = 384 → s.memberOf root rl = none →
    let z := announcedEntry s root rl pasid slice bs
    let down := downTree s root 0 rl n (leBytes 8 slice ++ leBytes 4 pasid ++ bs)
    (s.chip ∉ placeChips (recordSch bs) → Becomes (.launchAnnounce (root, n) rl pasid slice bs) s fun v => v.out = s.out ++ down ∧
      Tab.at v.treeSeen root 0 = n + 1 ∧ { v with out := s.out, treeSeen := s.treeSeen } = s) ∧
    (s.chip ∈ placeChips (recordSch bs) → s.freeLaunch = none → exec (.launchAnnounce (root, n) rl pasid slice bs) s = .next s) ∧
    ∀ l, s.chip ∈ placeChips (recordSch bs) → s.freeLaunch = some l →
      (s.launchOk z = true → Becomes (.launchAnnounce (root, n) rl pasid slice bs) s fun v => v.out = s.out ++ down ∧ v.mem = s.mem ∧
        Tab.at v.treeSeen root 0 = n + 1 ∧ (∀ m, m ≠ l → v.launch m = s.launch m) ∧
        ∃ y, v.launch l = some y ∧ y.record = bs ∧ y.pod = true ∧ y.root = root ∧ y.rootLaunch = rl ∧ y.started = false ∧ y.done = false ∧ y.acked = [] ∧
          y.placement = s.placed (recordSch bs) ∧ y.range = placeChips (recordSch bs) ∧ y.firstWg = z.firstWg ∧ y.total = z.total ∧
          y.wglive = y.placement.length ∧ y.waiting.map Prod.fst = (List.range y.placement.length).map (y.firstWg + ·) ∧
          y.pasid = pasid % 2 ^ 20 ∧ y.slice = BitVec.ofNat 64 slice) ∧
      (s.launchOk z = false → Becomes (.launchAnnounce (root, n) rl pasid slice bs) s fun v =>
        v.out = s.out ++ down ++ [.tree 11 rl [root] []] ∧ v.launches = s.launches ∧ v.mem = s.mem)) ∧
  ∀ (s : State) (l : Nat) (x : Launch), s.launch l = some x → x.pod = true → x.started = false → x.done = false → x.cancel = none → x.total ≠ 0 →
    s.chip ∈ x.range → s.chip ∉ x.acked → (∀ c ∈ x.placement, ∃ k, k < 4 ∧ s.hasRoom c k x = true) → (s.launches.map Prod.fst).Nodup →
    (∀ p ∈ s.launches, p.1 ≠ l → p.2.pod = false ∨ p.2.started = true ∨ s.chip ∈ p.2.acked) →
    (x.root = s.chip → s.ptb ≤ x.announced + 100000) → Carries s → let v := s.ackMembers
    v.launch l = some { x with acked := s.chip :: x.acked } ∧ (∀ m, m ≠ l → v.launch m = s.launch m) ∧
      v.out = (if x.root = s.chip then s.out else s.out ++ [.tree 5 x.rootLaunch [x.root] []])
/-- R280, R375, R376, R380: at a member Go starts the launch, Withdraw ends it with no workgroup started, and a cancel cancels it; each is passed on down the
tree of the root, whose messages come in the order sent: one out of turn waits. -/
def membersFollow : Prop :=
  ∀ (s : State) (l root n rl : Nat) (x : Launch), s.memberOf root rl = some (l, x) → s.launch l = some x → Carries s → root ≠ s.chip → root ∈ s.podChips →
    (Tab.at s.treeSeen root 0 ≠ n → ∀ k, exec (.go (root, n) rl) s = .next s ∧ exec (.withdraw (root, n) rl) s = .next s ∧
      exec (.treeCancel (root, n) rl k) s = .next s) ∧
    (Tab.at s.treeSeen root 0 = n →
      (x.cancel = none → Becomes (.go (root, n) rl) s fun v => v.launch l = some { x with started := true, gone := true } ∧
        v.out = s.out ++ downTree s root 1 rl n [] ∧ Tab.at v.treeSeen root 0 = n + 1 ∧
        { v with launches := s.launches, out := s.out, treeSeen := s.treeSeen } = s) ∧
      (x.started = false → Becomes (.withdraw (root, n) rl) s fun v => v.out = s.out ++ downTree s root 2 rl n [] ∧
        v.launch l = some { x with done := true, failCode := 1, waiting := [], wglive := 0, completed := s.serialNo }) ∧
      ∀ k, Becomes (.treeCancel (root, n) rl k) s fun v => ∃ y, v.launch l = some y ∧ y.cancel = some (if k then 1 else 0) ∧ y.waiting = [])
/-- R377 to R381: the root notes each chip's report, counts each exit word that is forwarded, and of a chip that is lost, not before 100 µs after Go, counts the gangs
of which no exit word has come as terminated (how many those are is the model's reading: log 29), aborts the collective and routes no more to it. -/
def rootsAreTold : Prop :=
  ∀ (s : State) (l c : Nat) (x : Launch), s.launch l = some x → x.pod = true → x.root = s.chip → x.gone = true → x.done = false → c ∈ x.range →
    (c ∉ x.reported → Becomes (.chipReport l c) s fun v => v.launch l = some { x with reported := c :: x.reported } ∧ { v with launches := s.launches } = s) ∧
    (c ≠ s.chip → c ∉ x.reported → c ∉ x.lost →
      if s.ptb < x.announced + 100000 then exec (.chipLost l c) s = .next s
      else Becomes (.chipLost l c) s fun v => (∃ y, v.launch l = some y ∧ y.lost = c :: x.lost ∧ y.peerAbort = true ∧
          x.terminated + ((s.placedOn c (recordSch x.record)).length * x.ngang - Tab.at x.foreign c 0) ≤ y.terminated) ∧
        v.podChips = s.podChips.filter (· ≠ c) ∧ v.podMap = s.podMap.filter (fun m => m.index ≠ c)) ∧
    ∀ time w, w / 2 ^ 56 % 256 ≠ 0 → Becomes (.exitWordForward l c time w) s fun v => ∃ y, v.launch l = some y ∧ y.terminated = x.terminated + 1 ∧
      Tab.at y.foreign c 0 = Tab.at x.foreign c 0 + 1 ∧
      y.firstFault = some (match x.firstFault with
        | some f => if time < f.1 ∨ (time = f.1 ∧ c < f.2.1) then (time, c, BitVec.ofNat 64 w) else f
        | none => (time, c, BitVec.ofNat 64 w))

/-- R277, R280, R294, R373 to R381, R398: the pod, and the phases of a pod launch. -/
def Obligations.PodLaunches : Prop :=
  podForms ∧ rootsAnswer ∧ announcesAreAnswered ∧ heldGosFollow ∧ announcesReserve ∧ membersFollow ∧ rootsAreTold

/-! ### Events: service cores, the complexes, reset and boot -/

/-- The oldest message from core i to core 0 of the active complex is m, and there is room for a reply (R357). -/
structure Asked (s : State) (i : Nat) (m : List Byte) (ms : List (List Byte)) : Prop where
  up : s.complexUp = true
  first : s.channel i (s.complexCore 0) = m :: ms
  room : s.heldMsgs = [] ∧ (s.channel (s.complexCore 0) i).length < 8 ∧ i < 40
/-- The message is taken, and the reply to it has this kind and status (R356, Table 16.2). -/
def Answered (s v : State) (i : Nat) (ms : List (List Byte)) (kind status : Nat) : Prop :=
  v.channel i (s.complexCore 0) = ms ∧
    v.channel (s.complexCore 0) i = s.channel (s.complexCore 0) i ++ [mkRecord 64 [(0, 2, 9), (2, 2, kind), (4, 4, status)]]

/-- R74, R341: a core accepts an enabled pending interrupt as it takes a trap: the pc is saved, the cause has bit 63 set, and it goes on at its handler, where it accepts no
other. PTB at `KTIMECMP` sets the timer's bit. The cause's code is the model's free value (log 27). -/
def interruptsAreAccepted : Prop :=
  (∀ (s : State) (c : Nat) (k : Scalar), s.scalar c = some k → k.running = true → k.handling = false → s.kip c &&& k.kreg 4 ≠ 0 →
    Becomes (.trapEntry c) s fun v => (∃ d, v.scalar c = some d ∧ d.handling = true ∧ d.idle = false ∧ d.kreg 2 = k.ctx.pcOf 0 ∧ (d.kreg 1).getLsbD 63 = true ∧
      (d.kreg 1).toNat / 256 = 2 ^ 55 ∧ d.ctx.pcOf 0 = 0xFFFFFF0000000000 ∧ d.ctx.v = k.ctx.v ∧ d.ctx.s = k.ctx.s) ∧
      (∀ e, e ≠ c → v.scalar e = s.scalar e) ∧ { v with scalars := s.scalars, free := s.free } = s) ∧
  ∀ (s : State) (c : Nat) (k : Scalar), s.scalar c = some k → k.kreg 6 ≠ 0 → (k.kreg 6).toNat ≤ s.ptb →
    Becomes (.ktimecmpMatch c) s fun v => (∃ d, v.scalar c = some d ∧ d.kreg 5 = k.kreg 5 ||| 8 ∧ { d with k := k.k } = k) ∧
      (∀ e, e ≠ c → v.scalar e = s.scalar e) ∧ { v with scalars := s.scalars } = s
/-- R355, R356, Table 16.3: shard 0 starts a measured core that is stopped at a pc of the shard half, with the registers that its message gives; a start that is not
allowed is answered 3. -/
def shardsStart : Prop :=
  ∀ (s : State) (i : Nat) (m : List Byte) (ms : List (List Byte)) (c : Scalar), Asked s i m ms → recAt m 0 2 = 1 → s.scalar (recAt m 2 1) = some c →
    let j := recAt m 2 1
    let pc := recWord m 8
    let fine := s.shard0 = some i ∧ s.servicePresent j = true ∧ shardHalf pc = true ∧ canonical pc = true ∧ inThreadAp pc.toNat = false ∧
      inServiceAp pc.toNat = false ∧ pc.toNat % 4 = 0 ∧ recAt m 3 5 = 0 ∧
      recAt m 0x1C 4 = 0 ∧ recAt m 0x38 8 = 0 ∧ recAt m 0x18 4 < 2 ^ 20 ∧ recAt m 0x10 8 / 2 ^ 60 % 16 ≤ 1 ∧ c.running = false ∧ c.measured = true
    (fine → Becomes (.shardStart i) s fun v => Answered s v i ms 1 0 ∧ ∃ d, v.scalar j = some d ∧ d.running = true ∧ d.handling = false ∧
      d.ctx.pcOf 0 = pc ∧ d.ctx.vreg 0 63 = recWord m 0x20 ∧ d.ctx.sreg 1 = recWord m 0x28 ∧ d.ctx.sreg 2 = recWord m 0x30 ∧ d.ctx.sreg 3 = 0 ∧
      d.kreg 9 = BitVec.ofNat 64 (recAt m 0x18 4) ∧ d.kreg 10 = recWord m 0x10 &&& 0xF0000FFFFFFFFFFF ∧ d.start = some m) ∧
    (¬fine → Becomes (.shardStart i) s fun v => Answered s v i ms 1 3 ∧ v.scalars = s.scalars)
/-- R355, R367, R368, R370: an image is measured into the log and its core may start; a quote of the log, and the log, go to the addresses asked for, once no lease there is left (when is the model's choice: log 108); an update's image that is accepted is
measured and booted, and one that is refused is answered 1; a message that nothing serves is answered 3. -/
def complexesServe : Prop :=
  (∀ (s : State) (i : Nat) (m bs : List Byte) (ms : List (List Byte)) (c : Scalar), Asked s i m ms → recAt m 0 2 = 6 → s.scalar (recAt m 2 1) = some c →
    recAt m 2 1 < 40 → 0 < recAt m 0x10 8 → recAt m 0x10 8 ≤ 2 ^ 32 → s.log.length < 256 → s.spaBytes (recAt m 8 8) (recAt m 0x10 8) = some bs →
    Becomes (.measure i) s fun v => Answered s v i ms 6 0 ∧ v.scalar (recAt m 2 1) = some { c with measured := true } ∧
      v.log = s.log ++ [mkRecord 16 [(0, 2, 4), (4, 4, s.log.length), (8, 8, recAt m 2 1)] ++ (sha384 bs ++ List.replicate 48 0).take 48]) ∧
  (∀ (s : State) (i k : Nat) (m : List Byte) (ms : List (List Byte)), Asked s i m ms → recAt m 0 2 = 7 → s.route (recAt m 0x28 8) = some k →
    let t := s.write .part (some 5) k (s.quote ((m.drop 8).take 32))
    (s.openAt k 192 = false → exec (.attest i) s = .next s) ∧
    (recAt m 0x30 8 = 0 → s.openAt k 192 = true → Becomes (.attest i) s fun v => Answered s v i ms 7 0 ∧ v.log = s.log ∧ v.mem = t.mem ∧ v.reqs = t.reqs) ∧
    ∀ l, recAt m 0x30 8 ≠ 0 → s.route (recAt m 0x30 8) = some l → s.log ≠ [] → s.openAt k 192 = true → s.openAt l (64 * s.log.length) = true →
      Becomes (.attest i) s fun v => Answered s v i ms 7 0 ∧ v.log = s.log ∧ v.mem = (t.write .part (some 5) l s.log.flatten).mem) ∧
  (∀ (s : State) (i : Nat) (m bs : List Byte) (ms : List (List Byte)), Asked s i m ms → recAt m 0 2 = 8 → s.update = none → 0 < recAt m 0x10 8 →
    recAt m 0x10 8 ≤ 1536 * 1024 → s.log.length < 256 → s.spaBytes (recAt m 8 8) (recAt m 0x10 8) = some bs →
    Becomes (.update i) s fun v => match Config.firmware bs with
      | none => Answered s v i ms 8 1 ∧ v.update = none ∧ v.log = s.log
      | some n => v.channel i (s.complexCore 0) = ms ∧ v.update = some ⟨1, i, s.ptb, n⟩ ∧ v.log.length = s.log.length + 1 ∧ v.bank = bs) ∧
  (∀ (s : State) (i : Nat) (m : List Byte) (ms : List (List Byte)), Asked s i m ms → (recAt m 0 2 = 2 ∨ recAt m 0 2 = 3 ∨ 9 ≤ recAt m 0 2 ∧ recAt m 0 2 < 0x8000) →
    Becomes (.unknownMessage i) s fun v => Answered s v i ms (recAt m 0 2) 3) ∧
  ∀ (s : State) (i j : Nat) (m : List Byte), s.heldMsgs = [(i, j, m)] → i < 64 → j < 64 → (s.channel i j).length < 8 →
    Becomes (.messageChannelRoom j) s fun v => v.channel i j = s.channel i j ++ [m] ∧ v.heldMsgs = []
/-- The standby complex's cores are as reset leaves them and run; no other core changes (R370, R371). -/
def StandbyReset (s v : State) : Prop :=
  (∀ k, k < 4 → (s.scalar ((if s.activeB then 40 else 44) + k)).isSome = true →
    ∃ d, v.scalar ((if s.activeB then 40 else 44) + k) = some d ∧ d.running = true ∧ d.handling = false ∧ d.kreg 4 = 0) ∧
  ∀ i, (i < 40 ∨ 48 ≤ i) → v.scalar i = s.scalar i
/-- R370: a standby that is ready within 100 ms lets the active complex seek a boundary, for 1 ms; at the boundary the state table is written; the standby that takes it becomes
active. Each way in which it fails ends the update with its status. -/
def updatesProceed : Prop :=
  ∀ (s : State) (u : Update), s.update = some u → s.doorbells = [] → s.heldMsgs = [] → u.sender < 40 →
    let ended := fun (status : Nat) (v : State) => v.update = none ∧ v.activeB = s.activeB ∧ ((s.channel (s.complexCore 0) u.sender).length < 8 →
      v.channel (s.complexCore 0) u.sender = s.channel (s.complexCore 0) u.sender ++ [mkRecord 64 [(0, 2, 9), (2, 2, 8), (4, 4, status)]])
    (u.phase = 1 → s.ptb ≤ u.began + 100000000 → Becomes .updateStandbyReady s fun v => v.update = some { u with phase := 2, began := s.ptb } ∧
      StandbyReset s v ∧ { v with update := s.update, scalars := s.scalars } = s) ∧
    (u.phase = 1 → u.began + 100000000 ≤ s.ptb → Becomes .updateReadyTimeout s (ended 2)) ∧
    (u.phase = 2 → (s.ptb ≤ u.began + 1000000 → (∀ p ∈ s.queues, p.2.deferred = []) → Becomes .quiescentBoundary s fun v =>
        v.update = some { u with phase := 3 } ∧ v.bank = s.stateTable ∧ { v with update := s.update, bank := s.bank } = s) ∧
      (u.began + 1000000 < s.ptb → exec .quiescentBoundary s = .next s)) ∧
    (u.phase = 2 → u.began + 1000000 ≤ s.ptb → Becomes .quiescenceTimeout s (ended 5)) ∧
    (u.phase = 3 → Becomes .stateTableImport s fun v => ((tableSound s.bank && Config.imports u.version) = false → ended 2 v) ∧
      ((tableSound s.bank && Config.imports u.version) = true →
      v.update = none ∧ v.activeB = !s.activeB ∧ v.slices = s.slices ∧ (if s.activeB then v.versionA = u.version else v.versionB = u.version)))
/-- R341, R371: a machine check stops the active complex; a standby that runs becomes active, queues are stopped and slices end FAILED with `ECC_UE`. One on the
standby resets it; a trap inside a handler of a complex core is one of its complex. -/
def complexesAreChecked : Prop :=
  (∀ (s : State), s.complexUp = true → s.doorbells = [] → ((s.scalar (if s.activeB then 40 else 44)).map (·.running)) = some true →
    Becomes .complexMachineCheck s fun v => v.activeB = !s.activeB ∧ v.update = none ∧
      (∀ k d, k < 4 → v.scalar ((if s.activeB then 44 else 40) + k) = some d → d.running = false) ∧
      (∀ k x, Tab.find v.queues k = some x → x.state = 0) ∧ ∀ x ∈ v.slices, x.cancel.isSome = true ∧ x.endKind = 4 ∧
        ((∀ y ∈ s.slices, y.handle = x.handle → y.endKind ≠ 4) → x.endCode = 0x13)) ∧
  (∀ (s : State), ((s.scalar (if s.activeB then 40 else 44)).map (·.running)) = some true →
    Becomes .standbyMachineCheck s fun v => StandbyReset s v ∧ { v with scalars := s.scalars } = s) ∧
  ∀ (s : State) (i : Nat), s.checks = [i] → 40 ≤ i → i < 48 → ((s.scalar (if s.activeB then 40 else 44)).map (·.running)) = some true → s.doorbells = [] →
    let v := s.checked
    v.checks = [] ∧ if (if s.activeB then 44 ≤ i else i < 44) then v.activeB = !s.activeB ∧ ∀ k x, Tab.find v.queues k = some x → x.state = 0
      else StandbyReset s v ∧ v.activeB = s.activeB

/-- R341, R355 to R357, R367 to R371: interrupts, and what the complexes serve, update and survive. The cause of an interrupt, the layout of
the state table, the core that sends a message, a full measurement log, the event of a machine check, messages of other kinds and those held
by a complex that is checked, and when an `ATTEST` is answered are the model's (logs 27, 35, 60, 76, 77, 78, 79, 108). -/
def Obligations.ComplexesServe : Prop :=
  interruptsAreAccepted ∧ shardsStart ∧ complexesServe ∧ updatesProceed ∧ complexesAreChecked

/-- Everything of v is as package reset leaves it: what is not named here has its reset value. PTB is 0, the flash and the PUF keep their contents, `MCSTAT` keeps at most
`THTRIP`, the controller's own time goes on, and memory that is not this package's HBM keeps its own. What the HBM holds is the model's free value
(log 37). -/
def ResetFrom (s v : State) : Prop :=
  v.inReset = true ∧ v.flash = s.flash ∧ v.puf = s.puf ∧ v.mcTime = s.mcTime ∧ v.mcstat &&& ~~~0x100000#64 = 0 ∧
    (s.mcstat.getLsbD 20 = true → v.mcstat.getLsbD 20 = true) ∧
    { State.blank with
      inReset := true, mcTime := s.mcTime, railsAt := v.railsAt, tripped := v.tripped, mcstat := v.mcstat, mctemp := v.mctemp, flash := s.flash, puf := s.puf
      mem := v.mem, free := v.free, agenda := s.agenda, choiceNo := s.choiceNo, serialNo := s.serialNo, out := s.out, cur := s.cur, mask := s.mask } = v ∧
    (Memory.wf s.mem = true → ∀ k, ¬(k / 2 ^ 40 = s.chip ∧ k < 2 ^ 56) → Mem.byte v.mem k = Mem.byte s.mem k)
/-- R385, R387, R389: power-on, a rail outside its band, a fundamental reset from an enabled host link, a write of 0x5253 to `MCRESET` and a sensor at 115 °C each
assert package reset; the rails count from the first two, and the last sets `THTRIP` and holds reset until every sensor is below the warning temperature. Below
that the warning bit and the caps follow the temperature. -/
def resetsAreAsserted : Prop :=
  ∀ (s : State),
    let resets := fun (i : Instr) (rails : Nat) => Becomes i s fun v => ResetFrom s v ∧ v.railsAt = rails ∧ v.tripped = s.tripped
    resets .powerOn s.mcTime ∧ (∀ r, r < 5 → resets (.railOutOfBand r) s.mcTime) ∧ resets .mcreset s.railsAt ∧
    (recAt s.bootRecord 0x10 1 / 2 % 2 = 1 → resets .pcieFundamentalReset s.railsAt) ∧
    (s.inReset = false → s.hostLink = true → ∀ x : Nat, x % 2 ^ 16 = 0x5253 → resets (.registerWrite 0x3028 x) s.railsAt) ∧
    (s.inReset = true → ∀ n, Becomes (.thermalSample n) s fun v => v.mctemp = BitVec.ofNat 64 n ∧
      v.mcstat = (if 1840 ≤ n then s.mcstat ||| 0x100000 else s.mcstat) ∧ (v.tripped = true ↔ 1840 ≤ n ∨ s.tripped = true ∧ 1600 ≤ n) ∧
      { v with mctemp := s.mctemp, mcstat := s.mcstat, tripped := s.tripped } = s) ∧
    (s.inReset = false → ∀ n, 1840 ≤ n → Becomes (.thermalSample n) s fun v => ResetFrom s v ∧ v.mcstat.getLsbD 20 = true ∧ v.mctemp = BitVec.ofNat 64 n ∧
      v.tripped = true ∧ v.railsAt = s.railsAt) ∧
    (s.inReset = false → ∀ n, n < 1840 → Becomes (.thermalSample n) s fun v => v.mctemp = BitVec.ofNat 64 n ∧ v.mcstat.getLsbD 19 = decide (1600 ≤ n) ∧
      v.pwrZero = (if 1600 ≤ n then true else if n ≤ 1520 then false else s.pwrZero) ∧
      (1600 ≤ n → ∀ t x, v.tenant t = some x → x.capped = true) ∧ { v with mctemp := s.mctemp, mcstat := s.mcstat, pwrZero := s.pwrZero, tenants := s.tenants } = s)
/-- A configuration record that the boot accepts: its magic and version, a key whose digest is a boot key's, and its signature (R364; which keys those are is the
part's own). -/
def Accepts (r : List Byte) : Prop :=
  recAt r 0 4 = 0x52435A47 ∧ recAt r 4 2 = 1 ∧ sha384 ((r.drop 0x100).take 97) ∈ Config.bootKeys ∧
    ecdsaVerifies ((r.drop 0x100).take 97) (r.take 0x200) ((r.drop 0x200).take 96) = true
/-- The boot has halted with a code (R363, Table 18.4). -/
def Halted (s v : State) (code : Nat) : Prop := v.bootStep = 0 ∧ v.mcstat = s.mcstat ||| 0x20000 ||| BitVec.ofNat 64 (256 * code)
/-- An entry of the measurement log (Table 16.10). -/
def measured (s : State) (kind : Nat) (version : Word) (digest : List Byte) : List Byte :=
  mkRecord 16 [(0, 2, kind), (4, 4, s.log.length), (8, 8, version.toNat)] ++ (digest ++ List.replicate 48 0).take 48
/-- R363 to R367, Table 16.8: reset ends when the rails have been in band for 10 ms and the part is cool after a trip, and PTB starts at 0; the ROM's digests enter the log and the complexes run; the PUF
is read; the configuration record is read, or its copy; the hub's registers are those of the record; the image of shard 0 is copied, measured and started,
with a copy of the record at a place of the model's choice (log 38); the shards take their steps; the last step is the host link's. -/
def bootProceeds : Prop :=
  (∀ (s : State) (b : Bool), s.inReset = true →
    (s.tripped = false → s.railsAt + 10000000 ≤ s.mcTime → Becomes (.boot 0 b) s fun v => v.ptb = 0 ∧ v.inReset = false ∧ v.bootStep = 1 ∧
      v.mcstat = s.mcstat &&& ~~~0xFF#64 ||| 1 ∧ { v with ptb := s.ptb, inReset := s.inReset, bootStep := s.bootStep, mcstat := s.mcstat } = s) ∧
    (s.tripped = true ∨ s.mcTime < s.railsAt + 10000000 → exec (.boot 0 b) s = .next s)) ∧
  (∀ (s : State) (b : Bool), s.inReset = false → s.bootStep = 0 → s.mcstat.getLsbD 17 = false → Becomes (.boot 0 b) s fun v => v.bootStep = 1 ∧
    v.mcstat = s.mcstat &&& ~~~0xFF#64 ||| 1 ∧ { v with bootStep := s.bootStep, mcstat := s.mcstat } = s) ∧
  ∀ (s : State) (b : Bool), s.inReset = false →
    let r := s.bootRecord
    let at' := fun (v : State) (n : Nat) => v.bootStep = n ∧ v.mcstat = s.mcstat &&& ~~~0xFF#64 ||| BitVec.ofNat 64 n
    (s.bootStep = 1 → Becomes (.boot 1 b) s fun v => at' v 2 ∧
      v.log = s.log ++ [measured s 1 0 Config.romDigest, mkRecord 16 [(0, 2, 2), (4, 4, s.log.length + 1), (8, 8, 0x43010000)] ++
        (Config.firmwareDigest ++ List.replicate 48 0).take 48] ∧
      ∀ k, k < 8 → if k < 4 ∨ Config.romVerifies = true then ∃ d, v.scalar (40 + k) = some d ∧ d.running = true
        else v.scalar (40 + k) = s.scalar (40 + k)) ∧
    (s.bootStep = 2 → Becomes (.boot 2 b) s fun v => if s.pufResponse = none then Halted s v 2 else at' v 3) ∧
    (s.bootStep = 3 → ∀ x y, x = Mem.bytes s.flash 0 0x260 → y = Mem.bytes s.flash 0x100000 0x260 →
      (∀ z, (Accepts x ∧ z = x) ∨ (¬Accepts x ∧ Accepts y ∧ z = y) → Becomes (.boot 3 b) s fun v => at' v 4 ∧ v.bootRecord = z ∧
        v.log = s.log ++ [measured s 3 (recWord z 8) (sha384 z)] ∧
        { v with bootRecord := s.bootRecord, log := s.log, bootStep := s.bootStep, mcstat := s.mcstat } = s) ∧
      (¬Accepts x → ¬Accepts y → Becomes (.boot 3 b) s fun v => Halted s v 3 ∧ { v with bootStep := s.bootStep, mcstat := s.mcstat } = s)) ∧
    (s.bootStep = 4 → Becomes (.boot 4 b) s fun v => v.chip = recAt r 0x12 2 % 1024 ∧ v.localBase = recWord r 0x58 ∧
      v.podBase = recWord r 0x60 ∧ v.tenantBase = recWord r 0x68 ∧ v.pasidTbl = recWord r 0x70 ∧
      v.cctBase = recWord r 0x78 ∧ v.hosted = (recAt r 0x10 1).testBit 0 ∧
      (∀ d, v.diePresent d = true → d < 8 ∧ (recWord r (0x18 + 8 * d)).getLsbD 63 = true) ∧
      ((∃ d, v.diePresent d = true) → v.bootStep = 5) ∧ ((∀ d, v.diePresent d = false) → Halted s v 4)) ∧
    (s.bootStep = 5 →
      let n := recAt r 0x88 8
      let dest := recAt r 0x90 8
      let image := Mem.bytes s.flash (recAt r 0x80 8) n
      let fine := fun (k l : Nat) => n ≤ 2 ^ 26 ∧ l + 1 = k + n ∧ sha384 image = (r.drop 0xA8).take 48
      ∀ j k l c, s.shard0 = some j → s.scalar j = some c → s.route dest = some k → s.route (dest + n - 1) = some l →
        (fine k l →
          let p := (s.homeStore k image).recordPlace dest n
          Becomes (.boot 5 b) s fun v => at' v 6 ∧ v.log = s.log ++ [measured s 4 (BitVec.ofNat 64 j) (sha384 image)] ∧
            v.mem = (match p.2.route p.1 with
              | some q => (p.2.homeStore q r).mem
              | none => p.2.mem) ∧
            ∃ d, v.scalar j = some d ∧ d.running = true ∧ d.measured = true ∧ d.ctx.pcOf 0 = recWord r 0x98 ∧
              d.kreg 10 = recWord r 0xA0 &&& 0xF0000FFFFFFFFFFF ∧ d.ctx.sreg 1 = BitVec.ofNat 64 p.1 ∧ d.ctx.sreg 3 = 0 ∧
              ∀ i, i < 40 → (d.ctx.sreg 2).getLsbD i = s.servicePresent i) ∧
        (¬fine k l → Becomes (.boot 5 b) s fun v => Halted s v 5 ∧ { v with bootStep := s.bootStep, mcstat := s.mcstat } = s)) ∧
    (∀ n, n = 6 ∨ n = 7 → s.bootStep = n → Becomes (.boot n b) s fun v => at' v (n + 1) ∧
      { v with bootStep := s.bootStep, mcstat := s.mcstat } = s) ∧
    (s.bootStep = 8 → Becomes (.boot 8 b) s fun v => v.hostLink = ((recAt r 0x10 1).testBit 1 && b) ∧ v.hosted = (s.hosted && v.hostLink) ∧
      v.mcstat.getLsbD 16 = true ∧ v.mcstat.toNat % 256 = 8)
/-- R289, R382, R383, R388: over a host link that is trained a base register takes a write in hosted mode while no tenant is valid, aligned, and ignores it else; a shadow
hart's registers take theirs in hosted mode; a 1 clears `THTRIP`; a register that is only read ignores it. That low bits below an alignment are dropped is the model's
choice (log 39). -/
def registersAreWritten : Prop :=
  ∀ (s : State) (x : Nat), s.inReset = false → x < 2 ^ 64 →
    (s.someTenant = true ∨ s.hosted = false ∨ s.hostLink = false → ∀ o, o < 0x28 →
      exec (.baseRegisterWrite o x) s = .next s ∧ exec (.registerWrite o x) s = .next s) ∧
    (s.someTenant = false → s.hosted = true → s.hostLink = true → ∀ i : Nat → Instr, i = (fun o => .baseRegisterWrite o x) ∨ i = (fun o => .registerWrite o x) →
      (Becomes (i 0) s fun v => v.localBase = BitVec.ofNat 64 (x / 2 ^ 40 * 2 ^ 40) ∧ { v with localBase := s.localBase } = s) ∧
      (Becomes (i 8) s fun v => v.podBase = BitVec.ofNat 64 (x / 2 ^ 50 * 2 ^ 50) ∧ { v with podBase := s.podBase } = s) ∧
      (Becomes (i 0x10) s fun v => v.tenantBase = BitVec.ofNat 64 (x / 4096 * 4096) ∧ { v with tenantBase := s.tenantBase } = s) ∧
      (Becomes (i 0x18) s fun v => v.pasidTbl = BitVec.ofNat 64 (x / 4096 * 4096) ∧ { v with pasidTbl := s.pasidTbl } = s) ∧
      (Becomes (i 0x20) s fun v => v.cctBase = BitVec.ofNat 64 (x / 4096 * 4096) ∧ { v with cctBase := s.cctBase } = s)) ∧
    (∀ h, h < 40 → (s.hosted = true → s.hostLink = true → Tab.at s.imsics h [] = [] →
        (∀ o, o = 0 ∨ o = 8 ∨ o = 0x10 ∨ o = 0x20 ∨ o = 0x28 → Becomes (.registerWrite (0x2000 + 64 * h + o) x) s fun v =>
          v.hart h o = (if o = 8 then BitVec.ofNat 64 x &&& ~~~0xFFF#64 else if o = 0x28 then BitVec.ofNat 64 x &&& 1 else BitVec.ofNat 64 x) ∧
          (∀ g p, 8 * g + p / 8 ≠ 8 * h + o / 8 → v.hart g p = s.hart g p) ∧ { v with harts := s.harts } = s) ∧
        exec (.registerWrite (0x2000 + 64 * h + 0x18) x) s = .next s) ∧
      (s.hosted = false ∨ s.hostLink = false → ∀ o, o < 64 → exec (.registerWrite (0x2000 + 64 * h + o) x) s = .next s)) ∧
    (s.hostLink = true → Becomes (.registerWrite 0x3000 x) s fun v =>
      v.mcstat = s.mcstat &&& ~~~(BitVec.ofNat 64 x &&& 0x100000) ∧ { v with mcstat := s.mcstat } = s) ∧
    (s.hostLink = false → ∀ o, 0x3000 ≤ o → o < 0x3030 → exec (.registerWrite o x) s = .next s)
/-- R6, R9, R289, R383, R388: what a read of the hub's and the management registers returns; a read through BAR0, over a host link that is trained, returns it to
the host. When the host reads is the model's free choice (log 106). -/
def registersAreRead : Prop :=
  ∀ (s : State),
    (∀ h, h < 40 → (∀ o, o = 0 ∨ o = 8 ∨ o = 0x10 ∨ o = 0x18 ∨ o = 0x20 → s.registerRead (0x2000 + 64 * h + o) = s.hart h o) ∧
      ∀ i, (s.registerRead (0x2000 + 64 * h + 0x28)).getLsbD i = ((s.hart h 0x28).getLsbD i || decide (i = 1) && s.servicePresent h)) ∧
    s.registerRead 0 = s.localBase ∧ s.registerRead 8 = s.podBase ∧ s.registerRead 0x10 = s.tenantBase ∧ s.registerRead 0x18 = s.pasidTbl ∧
    s.registerRead 0x20 = s.cctBase ∧ s.registerRead 0x3000 = s.mcstat ∧ s.registerRead 0x3008 = s.mcpwr ∧ s.registerRead 0x3010 = s.mctemp ∧
    s.registerRead 0x3018 = s.mcce ∧ s.registerRead 0x3020 = s.mceth ∧ s.registerRead 0x3028 = 0 ∧
    ∀ o, Config.barRead s.ptb = some o → if s.inReset = true ∨ s.hostLink = false then s.barRead = s
      else s.barRead.out = s.out ++ [.register o (s.registerRead o)] ∧ { s.barRead with out := s.out } = s

/-- R6, R289, R328, R363 to R367, R382, R383, R385, R387 to R389: what asserts package reset, how it ends, the boot, the sensors and the
registers of the hub. The contents of the flash, the constants of the standards of the boot, which stacks train, what HBM holds after a
reset, where the record's copy lies, who writes the bases, the trip bit at power-on, and how the registers are reached are the model's (logs
7, 11, 12, 37, 38, 39, 80, 106). -/
def Obligations.ResetAndBoot : Prop := resetsAreAsserted ∧ bootProceeds ∧ registersAreWritten ∧ registersAreRead

/-! ### The machine as a whole -/

/-- R2, R163, R328, R363: after package reset PTB is 0, both complexes hold version 1.0, nothing is in any table, no lock, request or
message is there, memory lists nothing, and the boot of complex A runs next. That an agenda holds the boot, and what it brings, is the
model's choice (log 14). -/
def Obligations.ResetState : Prop :=
  let r := State.reset
  r.ptb = 0 ∧ r.agenda = [⟨0, .event (.boot 0 true)⟩] ∧ r.mem = [] ∧ r.activeB = false ∧ r.versionA = 0x43010000 ∧ r.versionB = 0x43010000 ∧
    r.update = none ∧ r.bank = [] ∧ r.log = [] ∧
    r.wgs = [] ∧ r.cores = [] ∧ r.copies = [] ∧ r.ops = [] ∧ r.l1 = [] ∧ r.scalars = [] ∧
    r.launches = [] ∧ r.tcbs = [] ∧ r.graphs = [] ∧ r.slices = [] ∧ r.queues = [] ∧ r.tenants = [] ∧ r.events = [] ∧ r.doorbells = [] ∧
    r.homes = [] ∧ r.reqs = [] ∧ r.tlbs = [] ∧ r.walks = [] ∧ r.invals = [] ∧ r.harts = [] ∧ r.imsics = [] ∧ r.hostWrites = [] ∧ r.dmaWct = [] ∧
    r.poison = [] ∧ r.dirtyLines = [] ∧ r.heldFaults = [] ∧ r.channels = [] ∧ r.heldMsgs = [] ∧ r.checks = [] ∧
    r.podFormed = false ∧ r.alone = false ∧ r.podChips = [] ∧ r.podMap = [] ∧ r.ports = [] ∧ r.treeHeld = [] ∧ r.asks = [] ∧ r.waiters = [] ∧
    r.owedUnits = [] ∧ r.parked = [] ∧
    r.mcstat = 0 ∧ r.mcpwr = 0 ∧ r.mctemp = 0 ∧ r.mcce = 0 ∧ r.mceth = 0 ∧ r.pwrHalved = false ∧ r.pwrZero = false ∧
    r.localBase = 0 ∧ r.tenantBase = 0 ∧ r.pasidTbl = 0 ∧ r.cctBase = 0 ∧ r.hosted = false ∧ r.hostLink = false ∧ r.out = []

/-- The invariant holds after package reset: memory is in its canonical form. The form is the model's, and what unwritten memory reads as is
its choice (logs 2, 8). -/
def Obligations.ResetKeepsInvariant : Prop := State.Inv State.reset

/-- Every step, from any state, keeps memory in its canonical form: addresses strictly rising, and no listed byte that an unlisted address
reads as. The form is the model's, and what unwritten memory reads as is its choice (logs 2, 8). -/
def Obligations.StepKeepsInvariant : Prop := ∀ s t : State, State.Inv s → step s = .next t → State.Inv t

/-- From every state the machine goes on: no step ends in a fault or a refusal. -/
def Obligations.StepGoesOn : Prop := ∀ s : State, ∃ t, step s = .next t

/-- A step issues the instruction that the word of the PC-group whose turn it is decodes to, after the time that passes first, and then does what the step leaves to be done; a word
that no row encodes is issued as such; an event whose turn it is happens. -/
def Obligations.StepRunsTheDecoded : Prop :=
  (∀ (s u : State) (cs : List Choice) (dt : Nat) (a : Agent) (pc : Word) (w : BitVec 32), s.agenda = ⟨dt, .issue a pc⟩ :: cs →
    let old := State.pass { s with agenda := cs } dt
    old.pick a pc = some (u, w) →
    (∀ i, decodeWord w = .ok i → step s = match exec i u with
      | .next t => .next (((t.settle old).survey fun w u => exec (instrOf w) u).tendSlots old)
      | r => r) ∧
    ∀ e, decodeWord w = .error e → step s = match exec (.unassignedWord w) u with
      | .next t => .next (((t.settle old).survey fun w u => exec (instrOf w) u).tendSlots old)
      | r => r) ∧
  ∀ (s : State) (cs : List Choice) (dt : Nat) (i : Instr), s.agenda = ⟨dt, .event i⟩ :: cs → isEvent i = true →
    let old := State.pass { s with agenda := cs } dt
    step s = match exec i old with
      | .next t => .next (((t.settle old).survey fun w u => exec (instrOf w) u).tendSlots old)
      | r => r

/-- R89, R90, Tables 4.1 and 4.3 to 4.5: words written out from the encodings decode to the instructions that they stand for. -/
def Obligations.DecodedWords : Prop :=
  decodeTableWord 32 0x00000000 = some .nop ∧
    decodeTableWord 32 0x0408A281 = some (.addD 1 5 5 0) ∧
    decodeTableWord 32 0x80080004 = some (.rdtime 1) ∧
    decodeTableWord 32 0x70000003 = some .exit ∧
    decodeTableWord 32 0xA8000003 = some .kret

/-- Every well-formed instruction that is issued has a word, and decodes from it, whatever the values of its fields: no bit of an encoding is dropped; and a word that
decodes is the word of what it decodes to, which is well-formed (R89 to R91). -/
def Obligations.DecodeInvertsEncode : Prop :=
  (∀ (i : Instr), i.wf = true → isEvent i = false → (∀ w, i ≠ .unassignedWord w) → ∃ w, encode i = some w ∧ decode (bytesOfWord w) = .ok (i, [])) ∧
  (∀ (i : Instr) (w : BitVec 32), i.wf = true → encode i = some w → decode (bytesOfWord w) = .ok (i, [])) ∧
  ∀ (w : BitVec 32) (i : Instr), decodeWord w = .ok i → i.wf = true ∧ encode i = some w
end

