-- ==== Sys2Proof/Laws/Tab.lean ====
section
/-! SUPPORT. Laws of sparse tables and byte memories: reading after writing, and the canonical form. -/

namespace Sys2Proof.Machine

theorem Tab.find_put_same {α : Type} (t : Tab α) (k : Nat) (x : α) : Tab.find (Tab.put t k x) k = some x := by
  induction t with
  | nil => simp [Tab.put, Tab.find]
  | cons p t ih =>
    obtain ⟨j, y⟩ := p
    unfold Tab.put
    split
    · simp [Tab.find]
    · split
      · simp [Tab.find]
      · simp [Tab.find, *]

theorem Tab.find_put_other {α : Type} (t : Tab α) (k j : Nat) (x : α) (h : j ≠ k) :
    Tab.find (Tab.put t k x) j = Tab.find t j := by
  induction t with
  | nil => simp [Tab.put, Tab.find, Ne.symm h]
  | cons p t ih =>
    obtain ⟨i, y⟩ := p
    unfold Tab.put
    split
    · simp [Tab.find, Ne.symm h]
    · split
      · subst i; simp [Tab.find, Ne.symm h]
      · simp [Tab.find, ih]

theorem Tab.find_del_other {α : Type} (t : Tab α) (k j : Nat) (h : j ≠ k) : Tab.find (Tab.del t k) j = Tab.find t j := by
  induction t with
  | nil => rfl
  | cons p t ih =>
    obtain ⟨i, y⟩ := p
    unfold Tab.del
    split
    · subst i; simp [Tab.find, Ne.symm h, ih]
    · simp [Tab.find, ih]

/-- Every listed key is above a bound. -/
def Tab.above {α : Type} (b : Nat) (t : Tab α) : Prop := ∀ p ∈ t, b < p.1

theorem Tab.sorted_cons {α : Type} (k : Nat) (x : α) (t : Tab α) :
    Tab.sorted ((k, x) :: t) = true ↔ Tab.above k t ∧ Tab.sorted t = true := by
  induction t generalizing k x with
  | nil => simp [Tab.sorted, Tab.above]
  | cons p t ih =>
    obtain ⟨j, y⟩ := p
    simp only [Tab.sorted, Bool.and_eq_true, decide_eq_true_eq]
    constructor
    · rintro ⟨h1, h2⟩
      refine ⟨?_, h2⟩
      have h3 := ((ih j y).1 h2).1
      intro q hq
      rcases List.mem_cons.1 hq with rfl | hq
      · exact h1
      · exact lt_trans h1 (h3 q hq)
    · rintro ⟨h1, h2⟩
      exact ⟨h1 (j, y) (by simp), h2⟩

theorem Tab.find_del_same {α : Type} (t : Tab α) (k : Nat) : Tab.find (Tab.del t k) k = none := by
  induction t with
  | nil => rfl
  | cons p t ih =>
    obtain ⟨i, y⟩ := p
    unfold Tab.del
    split
    · exact ih
    · rename_i h; simp [Tab.find, h, ih]

/-- Reading a key of a table after a canonical write of it. -/
theorem Tab.at_set_same {α : Type} [DecidableEq α] (d : α) (t : Tab α) (k : Nat) (x : α) :
    Tab.at (Tab.set d t k x) k d = x := by
  unfold Tab.set Tab.at
  split
  · rename_i h; simp [Tab.find_del_same, h]
  · simp [Tab.find_put_same]

/-- Reading any other key of a table after a canonical write. -/
theorem Tab.at_set_other {α : Type} [DecidableEq α] (d e : α) (t : Tab α) (k j : Nat) (x : α) (h : j ≠ k) :
    Tab.at (Tab.set d t k x) j e = Tab.at t j e := by
  unfold Tab.set Tab.at
  split
  · rw [Tab.find_del_other _ _ _ h]
  · rw [Tab.find_put_other _ _ _ _ h]

theorem Tab.at_set {α : Type} [DecidableEq α] (d : α) (t : Tab α) (k j : Nat) (x : α) :
    Tab.at (Tab.set d t k x) j d = if j = k then x else Tab.at t j d := by
  split
  · subst j; exact Tab.at_set_same d t k x
  · exact Tab.at_set_other d d t k j x ‹_›

theorem Tab.mem_put {α : Type} {t : Tab α} {k : Nat} {x : α} {p : Nat × α} (h : p ∈ Tab.put t k x) : p = (k, x) ∨ p ∈ t := by
  induction t with
  | nil => simpa [Tab.put] using h
  | cons q t ih =>
    obtain ⟨j, y⟩ := q
    unfold Tab.put at h
    split at h
    · simpa using h
    · split at h
      · rcases List.mem_cons.1 h with h | h
        · exact .inl h
        · exact .inr (by simp [h])
      · rcases List.mem_cons.1 h with h | h
        · exact .inr (by simp [h])
        · rcases ih h with h | h
          · exact .inl h
          · exact .inr (by simp [h])

theorem Tab.mem_del {α : Type} {t : Tab α} {k : Nat} {p : Nat × α} (h : p ∈ Tab.del t k) : p ∈ t := by
  induction t with
  | nil => simp [Tab.del] at h
  | cons q t ih =>
    obtain ⟨j, y⟩ := q
    unfold Tab.del at h
    split at h
    · simp [ih h]
    · rcases List.mem_cons.1 h with h | h
      · simp [h]
      · simp [ih h]

theorem Tab.sorted_put {α : Type} (t : Tab α) (k : Nat) (x : α) (h : Tab.sorted t = true) : Tab.sorted (Tab.put t k x) = true := by
  induction t with
  | nil => rfl
  | cons p t ih =>
    obtain ⟨j, y⟩ := p
    have h2 := (Tab.sorted_cons j y t).1 h
    unfold Tab.put
    split
    · rename_i h3
      refine (Tab.sorted_cons _ _ _).2 ⟨?_, h⟩
      intro q hq
      rcases List.mem_cons.1 hq with rfl | hq
      · exact h3
      · exact lt_trans h3 (h2.1 q hq)
    · split
      · rename_i h3; subst h3; exact (Tab.sorted_cons _ _ _).2 h2
      · refine (Tab.sorted_cons _ _ _).2 ⟨?_, ih h2.2⟩
        intro q hq
        rcases Tab.mem_put hq with rfl | hq
        · simp only; omega
        · exact h2.1 q hq

theorem Tab.sorted_del {α : Type} (t : Tab α) (k : Nat) (h : Tab.sorted t = true) : Tab.sorted (Tab.del t k) = true := by
  induction t with
  | nil => rfl
  | cons p t ih =>
    obtain ⟨j, y⟩ := p
    have h2 := (Tab.sorted_cons j y t).1 h
    unfold Tab.del
    split
    · exact ih h2.2
    · exact (Tab.sorted_cons _ _ _).2 ⟨fun q hq => h2.1 q (Tab.mem_del hq), ih h2.2⟩

theorem Memory.wf_iff (m : Tab Byte) : Memory.wf m = true ↔ Tab.sorted m = true ∧ ∀ p ∈ m, p.2 ≠ 0 := by
  simp [Memory.wf]

/-- Writing a byte keeps the canonical form. -/
theorem Mem.store_wf (m : Tab Byte) (a : Nat) (b : Byte) (h : Memory.wf m = true) : Memory.wf (Mem.store m a b) = true := by
  rw [Memory.wf_iff] at *
  unfold Mem.store Tab.set
  split
  · exact ⟨Tab.sorted_del _ _ h.1, fun p hp => h.2 p (Tab.mem_del hp)⟩
  · refine ⟨Tab.sorted_put _ _ _ h.1, fun p hp => ?_⟩
    rcases Tab.mem_put hp with rfl | hp
    · assumption
    · exact h.2 p hp

/-- Writing bytes keeps the canonical form. -/
theorem Mem.storeAll_wf (bs : List Byte) : ∀ (m : Tab Byte) (a : Nat), Memory.wf m = true → Memory.wf (Mem.storeAll m a bs) = true := by
  induction bs with
  | nil => exact fun m a h => h
  | cons b bs ih => exact fun m a h => ih _ _ (Mem.store_wf m a b h)

/-- A byte reads as what was written to it. -/
theorem Mem.byte_store_same (m : Tab Byte) (a : Nat) (b : Byte) : Mem.byte (Mem.store m a b) a = b := Tab.at_set_same 0 m a b

/-- A write leaves every other byte as it was. -/
theorem Mem.byte_store_other (m : Tab Byte) (a c : Nat) (b : Byte) (h : c ≠ a) : Mem.byte (Mem.store m a b) c = Mem.byte m c := Tab.at_set_other 0 0 m a c b h

/-- A write of bytes leaves every byte outside them as it was. -/
theorem Mem.byte_storeAll_other (bs : List Byte) : ∀ (m : Tab Byte) (a c : Nat), (c < a ∨ a + bs.length ≤ c) →
    Mem.byte (Mem.storeAll m a bs) c = Mem.byte m c := by
  induction bs with
  | nil => exact fun m a c _ => rfl
  | cons b bs ih =>
    intro m a c h
    simp only [List.length_cons] at h
    unfold Mem.storeAll
    rw [ih _ _ _ (by omega), Mem.byte_store_other _ _ _ _ (by omega)]

/-- A write of bytes leaves each of them in its place. -/
theorem Mem.byte_storeAll_in (bs : List Byte) : ∀ (m : Tab Byte) (a i : Nat) (h : i < bs.length), Mem.byte (Mem.storeAll m a bs) (a + i) = bs[i] := by
  induction bs with
  | nil => intro m a i h; simp at h
  | cons b bs ih =>
    intro m a i h
    cases i with
    | zero => exact (Mem.byte_storeAll_other bs _ (a + 1) a (.inl (by omega))).trans (Mem.byte_store_same m a b)
    | succ i =>
      have e := ih (Mem.store m a b) (a + 1) i (by simpa using h)
      rw [Nat.add_assoc, Nat.add_comm 1 i] at e
      exact e

end Sys2Proof.Machine
end

