-- ==== Sys2Proof/Laws/Gang.lean ====
section
/-! SUPPORT. Laws of gangs within a state: reading one after writing it, and what an issue counts. -/

namespace Sys2Proof.Machine

theorem Tab.find_upd_same {α : Type} (t : Tab α) (k : Nat) (f : α → α) : Tab.find (Tab.upd t k f) k = (Tab.find t k).map f := by
  induction t with
  | nil => rfl
  | cons p t ih =>
    obtain ⟨j, y⟩ := p
    by_cases h : j = k
    · simp [Tab.upd, Tab.find, h]
    · simpa [Tab.upd, Tab.find, h] using ih

theorem Tab.find_upd_other {α : Type} (t : Tab α) (k j : Nat) (f : α → α) (h : j ≠ k) :
    Tab.find (Tab.upd t k f) j = Tab.find t j := by
  induction t with
  | nil => rfl
  | cons p t ih =>
    obtain ⟨i, y⟩ := p
    by_cases h1 : i = k
    · have h2 : k ≠ j := fun e => h e.symm
      simpa [Tab.upd, Tab.find, h1, h2] using ih
    · by_cases h2 : i = j
      · simp [Tab.upd, Tab.find, h2, h]
      · simpa [Tab.upd, Tab.find, h1, h2] using ih

theorem Tab.find_upd {α : Type} (t : Tab α) (k j : Nat) (f : α → α) :
    Tab.find (Tab.upd t k f) j = if j = k then (Tab.find t j).map f else Tab.find t j := by
  split
  · subst j; exact Tab.find_upd_same t k f
  · exact Tab.find_upd_other t k j f ‹_›

@[simp] theorem State.gang_core (s : State) (i : Nat) : s.gang (.core i) = (Tab.find s.scalars i).map (·.ctx) := rfl
@[simp] theorem State.gang_gang (s : State) (w i : Nat) :
    s.gang (.gang w i) = (Tab.find s.wgs w).bind fun g => Tab.find g.gangs i := rfl

/-- Replacing the gang of an agent gives that agent the new gang. -/
theorem State.gang_setGang_same (s : State) (a : Agent) (g : Gang) (h : (s.gang a).isSome = true) :
    (s.setGang a g).gang a = some g := by
  cases a with
  | core i =>
    simp only [State.setGang, State.gang_core, Tab.find_upd_same] at *
    cases h1 : Tab.find s.scalars i <;> simp_all
  | gang w i =>
    simp only [State.setGang, State.gang_gang, Tab.find_upd_same] at *
    cases h1 : Tab.find s.wgs w with
    | none => simp_all
    | some x =>
      simp only [h1, Option.bind_some, Option.map_some, Tab.find_upd_same] at *
      cases h2 : Tab.find x.gangs i <;> simp_all

/-- Replacing the gang of an agent leaves the gang of every other agent. -/
theorem State.gang_setGang_other (s : State) (a b : Agent) (g : Gang) (h : b ≠ a) :
    (s.setGang a g).gang b = s.gang b := by
  cases a with
  | core i =>
    cases b with
    | gang w j => rfl
    | core j =>
      have : j ≠ i := fun e => h (by rw [e])
      simp only [State.setGang, State.gang_core, Tab.find_upd_other _ _ _ _ this]
  | gang w i =>
    cases b with
    | core j => rfl
    | gang v j =>
      simp only [State.setGang, State.gang_gang, Tab.find_upd]
      split
      · subst v
        have : j ≠ i := fun e => h (by rw [e])
        cases Tab.find s.wgs w <;> simp [Tab.find_upd_other _ _ _ _ this]
      · rfl

/-- Replacing a gang touches only the tables that hold gangs. -/
theorem State.setGang_rest (s : State) (a : Agent) (g : Gang) :
    { s.setGang a g with wgs := s.wgs, scalars := s.scalars } = s := by cases a <;> rfl

/-- Replacing a gang leaves everything else of every workgroup. -/
theorem State.setGang_wg (s : State) (a : Agent) (g : Gang) (w : Nat) (x : Workgroup) (h : s.wg w = some x) :
    ∃ y, (s.setGang a g).wg w = some y ∧ { y with gangs := x.gangs } = x := by
  cases a with
  | core i => exact ⟨x, h, rfl⟩
  | gang v i =>
    simp only [State.wg, State.setGang, Tab.find_upd] at *
    rw [h]
    split
    · exact ⟨_, rfl, rfl⟩
    · exact ⟨x, rfl, rfl⟩

/-- Replacing a gang leaves everything else of every service core. -/
theorem State.setGang_scalar (s : State) (a : Agent) (g : Gang) (i : Nat) (c : Scalar) (h : s.scalar i = some c) :
    ∃ d, (s.setGang a g).scalar i = some d ∧ { d with ctx := c.ctx } = c := by
  cases a with
  | gang w j => exact ⟨c, h, rfl⟩
  | core j =>
    simp only [State.scalar, State.setGang, Tab.find_upd] at *
    rw [h]
    split
    · exact ⟨_, rfl, rfl⟩
    · exact ⟨c, rfl, rfl⟩

end Sys2Proof.Machine
end

