-- ==== Sys2Proof/Laws/Issue.lean ====
section
/-! SUPPORT. Laws of the gate: what an admitted issue hands to the instruction's own effect. -/

namespace Sys2Proof.Machine

theorem State.gang_updGang_same (s : State) (a : Agent) (f : Gang → Gang) (g : Gang) (h : s.gang a = some g) :
    (s.updGang a f).gang a = some (f g) := by
  unfold State.updGang
  rw [h]
  exact State.gang_setGang_same s a (f g) (by rw [h]; rfl)

theorem State.gang_updGang_other (s : State) (a b : Agent) (f : Gang → Gang) (h : b ≠ a) :
    (s.updGang a f).gang b = s.gang b := by
  unfold State.updGang
  split
  · exact State.gang_setGang_other s a b _ h
  · rfl

/-- Nothing differs but the gang of the issuing agent. -/
theorem OnlyGang.refl (s : State) (g : Gang) (h : s.gang s.cur = some g) : OnlyGang s s g where
  issuer := h
  others := fun _ _ => rfl
  workgroups := fun _ x h => ⟨x, h, rfl⟩
  cores := fun _ c h => ⟨c, h, rfl⟩
  slices := fun _ x h => ⟨x, h, rfl⟩
  rest := rfl

theorem OnlyGang.cur {s t : State} {g : Gang} (h : OnlyGang s t g) : t.cur = s.cur := (congrArg State.cur h.rest : (t.withGangsOf s).cur = s.cur)
theorem OnlyGang.mask {s t : State} {g : Gang} (h : OnlyGang s t g) : t.mask = s.mask := (congrArg State.mask h.rest : (t.withGangsOf s).mask = s.mask)
theorem OnlyGang.mem {s t : State} {g : Gang} (h : OnlyGang s t g) : t.mem = s.mem := (congrArg State.mem h.rest : (t.withGangsOf s).mem = s.mem)
theorem OnlyGang.ptb {s t : State} {g : Gang} (h : OnlyGang s t g) : t.ptb = s.ptb := (congrArg State.ptb h.rest : (t.withGangsOf s).ptb = s.ptb)

theorem OnlyGang.trans {s t r : State} {g g' : Gang} (h : OnlyGang s t g) (k : OnlyGang t r g') : OnlyGang s r g' where
  issuer := by rw [← h.cur]; exact k.issuer
  others := fun a ha => by rw [k.others a (by rw [h.cur]; exact ha), h.others a ha]
  workgroups := fun w x hx => by
    obtain ⟨y, hy, ey⟩ := h.workgroups w x hx
    obtain ⟨z, hz, ez⟩ := k.workgroups w y hy
    exact ⟨z, hz, by rw [← ey, ← ez]⟩
  cores := fun i c hc => by
    obtain ⟨y, hy, ey⟩ := h.cores i c hc
    obtain ⟨z, hz, ez⟩ := k.cores i y hy
    exact ⟨z, hz, by rw [← ey, ← ez]⟩
  slices := fun i c hc => by
    obtain ⟨y, hy, ey⟩ := h.slices i c hc
    obtain ⟨z, hz, ez⟩ := k.slices i y hy
    exact ⟨z, hz, by rw [← ey, ← ez]⟩
  rest := by
    have e : r.withGangsOf s = (r.withGangsOf t).withGangsOf s := rfl
    rw [e, k.rest, h.rest]

/-- A change of the issuing gang alone. -/
theorem OnlyGang.updGang (s : State) (f : Gang → Gang) (g : Gang) (h : s.gang s.cur = some g) :
    OnlyGang s (s.updGang s.cur f) (f g) where
  issuer := State.gang_updGang_same s _ f g h
  others := fun a ha => State.gang_updGang_other s _ a f ha
  workgroups := fun w x hx => by
    obtain ⟨y, hy, ey⟩ := State.setGang_wg s s.cur (f g) w x hx
    refine ⟨y, ?_, ?_⟩
    · unfold State.updGang; rw [h]; exact hy
    · rw [← ey]
  cores := fun i c hc => by
    obtain ⟨y, hy, ey⟩ := State.setGang_scalar s s.cur (f g) i c hc
    refine ⟨y, ?_, ?_⟩
    · unfold State.updGang; rw [h]; exact hy
    · rw [← ey]
  slices := fun i c hc => by
    refine ⟨c, ?_, rfl⟩
    unfold State.updGang; rw [h]
    simp only [State.slice] at *
    rw [← hc]
    cases s.cur <;> rfl
  rest := by
    unfold State.updGang; rw [h]
    cases hs : s.cur <;> rfl

theorem State.slice_updSlice (s : State) (h k : Word) (f : Slice → Slice) (hf : ∀ x, (f x).handle = x.handle) :
    (s.updSlice h f).slice k = (s.slice k).map fun x => if x.handle == h then f x else x := by
  simp only [State.slice, State.updSlice, List.find?_map]
  congr 1
  apply congrArg (fun p => List.find? p s.slices)
  funext x
  simp only [Function.comp]
  split
  · rw [hf]
  · rfl

theorem State.charge_cur (s : State) (h : Word) (n : Nat) : (s.charge h n).cur = s.cur := by unfold State.charge; split <;> rfl
theorem State.charge_ptb (s : State) (h : Word) (n : Nat) : (s.charge h n).ptb = s.ptb := by unfold State.charge; split <;> rfl
theorem State.charge_serialNo (s : State) (h : Word) (n : Nat) : (s.charge h n).serialNo = s.serialNo := by
  unfold State.charge; split <;> rfl

/-- Charging a slice, or owing its units to another chip, differs from the state before it only in what is charged or owed. -/
theorem OnlyGang.charge (s : State) (h : Word) (n : Nat) (g : Gang) (hg : s.gang s.cur = some g) :
    OnlyGang s (s.charge h n) g := by
  unfold State.charge
  split
  · exact ⟨hg, fun _ _ => rfl, fun _ x h => ⟨x, h, rfl⟩, fun _ c h => ⟨c, h, rfl⟩, fun _ x h => ⟨x, h, rfl⟩, rfl⟩
  · refine ⟨hg, fun _ _ => rfl, fun _ x h => ⟨x, h, rfl⟩, fun _ c h => ⟨c, h, rfl⟩, fun k x hx => ?_, rfl⟩
    have e := State.slice_updSlice s h k (fun x => { x with budget := x.budget - n, charged := x.charged + n }) (fun _ => rfl)
    rw [hx] at e
    refine ⟨_, e, ?_⟩
    dsimp only
    split <;> rfl

/-- Counting for a workgroup differs from the state before it only in its counters. -/
theorem OnlyGang.count (s : State) (w sel n : Nat) (g : Gang) (hg : s.gang s.cur = some g) :
    OnlyGang s (s.updWg w fun x => x.count sel n) g where
  issuer := by
    rw [← hg]
    cases h : (State.updWg s w fun x => x.count sel n).cur with
    | core i => simp [State.updWg] at h; rw [h]; rfl
    | gang v i =>
      have h' : s.cur = .gang v i := h
      rw [h']
      simp only [State.updWg, State.gang_gang, Tab.find_upd]
      split
      · cases Tab.find s.wgs v <;> rfl
      · rfl
  others := fun a _ => by
    cases a with
    | core i => rfl
    | gang v i =>
      simp only [State.updWg, State.gang_gang, Tab.find_upd]
      split
      · cases Tab.find s.wgs v <;> rfl
      · rfl
  workgroups := fun v x hx => by
    simp only [State.wg, State.updWg, Tab.find_upd] at *
    rw [hx]
    split
    · exact ⟨_, rfl, rfl⟩
    · exact ⟨x, rfl, rfl⟩
  cores := fun _ c h => ⟨c, h, rfl⟩
  slices := fun _ x h => ⟨x, h, rfl⟩
  rest := rfl

/-- What counting an issue changes. -/
theorem OnlyGang.countIssue (s : State) (g : Gang) (hg : s.gang s.cur = some g) :
    OnlyGang s (s.countIssue s.cur) (if isGang s.cur then { g with since := s.ptb, aged := false, yielded := false, served := s.serialNo } else g) := by
  unfold State.countIssue
  split
  · rename_i w i hc
    simp only [hc, isGang, if_true]
    have h1 := OnlyGang.charge s (s.sliceOf (.gang w i)) 1 g hg
    have h2 := h1.trans (OnlyGang.count _ w 32 1 g (by rw [h1.cur]; exact h1.issuer))
    have h3 := h2.trans (OnlyGang.updGang _ (fun g => { g with since := s.ptb, aged := false, yielded := false, served := s.serialNo }) g
      (by rw [h2.cur]; exact h2.issuer))
    have h4 : (((s.charge (s.sliceOf (.gang w i)) 1).updWg w fun x => x.count 32 1)).cur = .gang w i := by rw [h2.cur, hc]
    have hp : ((s.charge (s.sliceOf (.gang w i)) 1).updWg w fun x => x.count 32 1).ptb = s.ptb := s.charge_ptb _ 1
    have hn : ((s.charge (s.sliceOf (.gang w i)) 1).updWg w fun x => x.count 32 1).serialNo = s.serialNo := s.charge_serialNo _ 1
    rw [h4] at h3
    simp only [hp, hn]
    exact h3
  · rename_i i hc
    simp only [hc, isGang]
    exact OnlyGang.refl s g hg

/-- The counter that names issues moves. -/
theorem OnlyGang.named (s : State) (n : Nat) (g : Gang) (hg : s.gang s.cur = some g) : OnlyGang s { s with serialNo := n } g where
  issuer := hg
  others := fun _ _ => rfl
  workgroups := fun _ x h => ⟨x, h, rfl⟩
  cores := fun _ c h => ⟨c, h, rfl⟩
  slices := fun _ x h => ⟨x, h, rfl⟩
  rest := rfl

/-- The lanes of a mask made from a list are the list's. -/
theorem maskOf_lane (ls : List Nat) (i : Nat) (hi : i < 32) : (maskOf ls).getLsbD i = decide (i ∈ ls) := by
  have key : ∀ m : LaneMask, (ls.foldl (fun m l => m ||| laneBit l) m).getLsbD i = (m.getLsbD i || decide (i ∈ ls)) := by
    induction ls with
    | nil => simp
    | cons l ls ih =>
      intro m
      have e : (laneBit l).getLsbD i = decide (i = l) := by
        rw [laneBit, BitVec.getLsbD_shiftLeft, Bool.eq_iff_iff]
        simp only [hi, decide_true, Bool.true_and, Bool.and_eq_true, Bool.not_eq_true', decide_eq_false_iff_not, BitVec.getLsbD_one,
          decide_eq_true_eq]
        omega
      rw [List.foldl_cons, ih, BitVec.getLsbD_or, e, Bool.or_assoc]
      congr 1
      simp [Bool.decide_or]
  simpa [maskOf] using key 0

/-- An instruction that no window stops is stopped by none when its tiles are not looked at. -/
theorem Gang.inWindow_tiles (g : Gang) (u : Use) (m : LaneMask) (h : g.inWindow u m = 0) :
    g.inWindow { u with tiles := [] } m = 0 := by
  refine BitVec.eq_of_getLsbD_eq fun i hi => ?_
  have hf := congrArg (fun x : LaneMask => x.getLsbD i) h
  unfold Gang.inWindow at hf ⊢
  have hz : (0 : LaneMask).getLsbD i = false := by simp
  rw [hz] at hf ⊢
  simp only [maskOf_lane _ _ hi, decide_eq_false_iff_not, List.mem_filter, List.any_eq_true, not_and, not_exists] at hf ⊢
  intro hm w hw
  have := hf hm w hw
  cases hd : w.dest <;> simp_all [Use.names]

/-- An admitted issue passes the gate, which changes only what an issue counts. -/
theorem State.gate_admits (s : State) (u : Use) (g : Gang) (h : s.Admits u g) :
    ∃ t, s.gate u = .go t ∧ OnlyGang s t (g.issued s u) := by
  have h3 : (u.lanes.any fun n => !g.available n) = false := by
    rw [List.any_eq_false]
    intro n hn
    simp [h.registers n hn]
  have h4 : (g.needs u s.mask).find? (fun n => (Tab.find g.lines n).isNone) = none := by
    rw [List.find?_eq_none]
    intro n hn
    have := h.lines n hn
    cases e : Tab.find g.lines n <;> simp_all
  have hr : s.mask &&& ~~~(0 : LaneMask) = s.mask := by
    show s.mask &&& BitVec.allOnes 32 = s.mask
    exact BitVec.and_allOnes
  have hc : OnlyGang s (if g.retrying s.mask then s else s.countIssue s.cur)
      (if isGang s.cur && !g.retrying s.mask then { g with since := s.ptb, aged := false, yielded := false, served := s.serialNo } else g) := by
    by_cases e : g.retrying s.mask = true
    · simp only [e, if_true, Bool.not_true, Bool.and_false]
      exact OnlyGang.refl s g h.agent
    · simp only [e, Bool.not_false, Bool.and_true]
      exact OnlyGang.countIssue s g h.agent
  unfold State.gate
  rw [h.agent]
  dsimp only
  rw [if_neg (by have := h.compute; cases hc : s.cur <;> simp_all [isGang]),
    if_neg (by have := h.service; cases hc : s.cur <;> simp_all [isGang]), if_neg (by simp [h3])]
  simp only [h.window, g.inWindow_tiles u s.mask h.window, hr, h.scoreboard, h4]
  rw [if_neg (by simp), if_neg (by simp)]
  refine ⟨_, rfl, ?_⟩
  have hn := hc.trans (OnlyGang.named _ (s.serialNo + 1) _ (by rw [hc.cur]; exact hc.issuer))
  have hu := hn.trans (OnlyGang.updGang _ (fun x => { x with lines := x.lines.map fun p => if (x.needs u s.mask).contains p.1 then (p.1, s.serialNo + 1) else p }) _ (by rw [hn.cur]; exact hn.issuer))
  have he : g.issued s u = (fun x : Gang => { x with lines := x.lines.map fun p => if (x.needs u s.mask).contains p.1 then (p.1, s.serialNo + 1) else p })
      (if isGang s.cur && !g.retrying s.mask then { g with since := s.ptb, aged := false, yielded := false, served := s.serialNo } else g) := by
    unfold Gang.issued
    split <;> rfl
  rw [he]
  exact hu

/-- What an admitted instruction does: its own effect, on a state in which only the issue has been counted. -/
theorem State.issue_admits (s : State) (u : Use) (g : Gang) (body : State → State) (h : s.Admits u g) :
    ∃ t, s.issue u body = .next (body t) ∧ OnlyGang s t (g.issued s u) := by
  obtain ⟨t, h1, h2⟩ := s.gate_admits u g h
  exact ⟨t, by unfold State.issue; rw [h1], h2⟩

/-- An instruction that its gate does not turn away never stops the machine. -/
theorem State.issue_next (s : State) (u : Use) (body : State → State) (h : (s.gang s.cur).isSome = true) :
    ∃ t, s.issue u body = .next t := by
  unfold State.issue
  split
  · rename_i e
    exfalso
    revert e
    unfold State.gate
    split
    · rename_i e; simp [e] at h
    · dsimp only
      split_ifs <;> (try split) <;> simp
  · exact ⟨_, rfl⟩
  · exact ⟨_, rfl⟩

end Sys2Proof.Machine
end

