-- ==== Sys2Proof/Laws/Lanes.lean ====
section
/-! SUPPORT. Laws of the lane forms: what an instruction that acts in each thread leaves in each of them. -/

namespace Sys2Proof.Machine

/-! ### Fields that the writers of a gang leave -/

@[simp] theorem Gang.mark_v (g : Gang) (n : Nat) : (g.mark n).v = g.v := by unfold Gang.mark; split <;> rfl
@[simp] theorem Gang.mark_s (g : Gang) (n : Nat) : (g.mark n).s = g.s := by unfold Gang.mark; split <;> rfl
@[simp] theorem Gang.mark_g (g : Gang) (n : Nat) : (g.mark n).g = g.g := by unfold Gang.mark; split <;> rfl
@[simp] theorem Gang.mark_pc (g : Gang) (n : Nat) : (g.mark n).pc = g.pc := by unfold Gang.mark; split <;> rfl
@[simp] theorem Gang.mark_fcr (g : Gang) (n : Nat) : (g.mark n).fcr = g.fcr := by unfold Gang.mark; split <;> rfl
@[simp] theorem Gang.mark_status (g : Gang) (n : Nat) : (g.mark n).status = g.status := by unfold Gang.mark; split <;> rfl
@[simp] theorem Gang.mark_flights (g : Gang) (n : Nat) : (g.mark n).flights = g.flights := by unfold Gang.mark; split <;> rfl
@[simp] theorem Gang.mark_gstat (g : Gang) (n : Nat) : (g.mark n).gstat = g.gstat := by unfold Gang.mark; split <;> rfl
@[simp] theorem Gang.mark_rest (g : Gang) (n : Nat) (h : Gang) : (g.mark n).withLanesOf h = g.withLanesOf h := by
  unfold Gang.mark; split <;> rfl

theorem key_eq {l n k j : Nat} (hn : n < 64) (hj : j < 64) : (64 * k + j = 64 * l + n) ↔ (k = l ∧ j = n) := by omega

theorem Gang.vreg_setV (g : Gang) (l n : Nat) (x : Word) (k j : Nat) (hn : n < 64) (hj : j < 64) :
    (g.setV l n x).vreg k j = if k = l ∧ j = n then x else g.vreg k j := by
  unfold Gang.setV Gang.vreg
  rw [Gang.mark_v]
  dsimp only
  rw [Tab.at_set]
  simp only [key_eq hn hj]

/-- What the register writes of an effect leave in lane register n. -/
def Eff.value (e : Eff) (n : Nat) (old : Word) : Word := e.v.foldl (fun x p => if n = p.1 then p.2 else x) old
/-- What the guard writes of an effect leave in guard n. -/
def Eff.guard (e : Eff) (n : Nat) (old : Bool) : Bool := e.g.foldl (fun x p => if n = p.1 ∧ n ≠ 0 then p.2 else x) old
/-- Every register that an effect writes exists. -/
def Eff.ok (e : Eff) : Prop := (∀ p ∈ e.v, p.1 < 64) ∧ ∀ p ∈ e.g, p.1 < 8

theorem Gang.guard_zero (g : Gang) (l : Nat) : g.guard l 0 = true := by simp [Gang.guard, Gang.guards]

theorem getLsbD_one8 (i n : Nat) (hn : n < 8) : (1#8 <<< i).getLsbD n = decide (n = i) := by
  rw [BitVec.getLsbD_shiftLeft]
  by_cases h : n = i
  · subst h; simp [hn]
  · by_cases h2 : n < i
    · simp [h, h2]
    · have : n - i ≠ 0 := by omega
      simp [h, BitVec.getLsbD_one, this]

theorem Gang.guard_setGuard (g : Gang) (l n : Nat) (b : Bool) (k j : Nat) (hn : n < 8) (hj : j < 8) :
    (g.setGuard l n b).guard k j = if k = l then (if j = n ∧ j ≠ 0 then b else g.guard k j) else g.guard k j := by
  unfold Gang.setGuard Gang.setGuards Gang.guard Gang.guards
  dsimp only
  rw [Tab.at_set]
  by_cases hk : k = l
  · subst hk
    simp only [if_true]
    have h0 : (0xFE : BitVec 8).getLsbD j = decide (j ≠ 0) := by interval_cases j <;> rfl
    have h1 : (1 : BitVec 8).getLsbD j = decide (j = 0) := by interval_cases j <;> rfl
    have hs := getLsbD_one8 n j hj
    by_cases e0 : j = 0
    · subst e0; simp
    · by_cases e : j = n
      · subst e
        cases b <;>
          simp only [if_true, if_false, Bool.false_eq_true, BitVec.getLsbD_or, BitVec.getLsbD_and, BitVec.getLsbD_not, h0, h1, hs] <;>
          simp [e0, hj]
      · cases b <;>
          simp only [if_true, if_false, Bool.false_eq_true, BitVec.getLsbD_or, BitVec.getLsbD_and, BitVec.getLsbD_not, h0, h1, hs] <;>
          simp [e0, e, hj]
  · simp only [hk, if_false]

@[simp] theorem Gang.setGuard_v (g : Gang) (l n : Nat) (b : Bool) : (g.setGuard l n b).v = g.v := rfl
@[simp] theorem Gang.setGuard_pc (g : Gang) (l n : Nat) (b : Bool) : (g.setGuard l n b).pc = g.pc := rfl
@[simp] theorem Gang.setGuard_fcr (g : Gang) (l n : Nat) (b : Bool) : (g.setGuard l n b).fcr = g.fcr := rfl
@[simp] theorem Gang.setGuard_status (g : Gang) (l n : Nat) (b : Bool) : (g.setGuard l n b).status = g.status := rfl
@[simp] theorem Gang.setGuard_flights (g : Gang) (l n : Nat) (b : Bool) : (g.setGuard l n b).flights = g.flights := rfl
@[simp] theorem Gang.setGuard_rest (g : Gang) (l n : Nat) (b : Bool) (h : Gang) :
    (g.setGuard l n b).withLanesOf h = g.withLanesOf h := rfl
@[simp] theorem Gang.setV_g (g : Gang) (l n : Nat) (x : Word) : (g.setV l n x).g = g.g := by simp [Gang.setV]
@[simp] theorem Gang.setV_pc (g : Gang) (l n : Nat) (x : Word) : (g.setV l n x).pc = g.pc := by simp [Gang.setV]
@[simp] theorem Gang.setV_fcr (g : Gang) (l n : Nat) (x : Word) : (g.setV l n x).fcr = g.fcr := by simp [Gang.setV]
@[simp] theorem Gang.setV_status (g : Gang) (l n : Nat) (x : Word) : (g.setV l n x).status = g.status := by simp [Gang.setV]
@[simp] theorem Gang.setV_flights (g : Gang) (l n : Nat) (x : Word) : (g.setV l n x).flights = g.flights := by
  simp [Gang.setV]
@[simp] theorem Gang.setV_rest (g : Gang) (l n : Nat) (x : Word) (h : Gang) :
    (g.setV l n x).withLanesOf h = g.withLanesOf h := by simp only [Gang.setV, Gang.mark_rest]; rfl

/-- The register writes of an effect, in one lane. -/
def Gang.putRegs (g : Gang) (l : Nat) (ps : List (Nat × Word)) : Gang := ps.foldl (fun g p => g.setV l p.1 p.2) g
/-- The guard writes of an effect, in one lane. -/
def Gang.putGuards (g : Gang) (l : Nat) (ps : List (Nat × Bool)) : Gang := ps.foldl (fun g p => g.setGuard l p.1 p.2) g

theorem Gang.putRegs_same (ps : List (Nat × Word)) : ∀ (g : Gang) (l : Nat) (h : Gang),
    (g.putRegs l ps).g = g.g ∧ (g.putRegs l ps).pc = g.pc ∧ (g.putRegs l ps).fcr = g.fcr ∧
    (g.putRegs l ps).status = g.status ∧ (g.putRegs l ps).flights = g.flights ∧
    (g.putRegs l ps).withLanesOf h = g.withLanesOf h := by
  induction ps with
  | nil => exact fun g l h => ⟨rfl, rfl, rfl, rfl, rfl, rfl⟩
  | cons p ps ih =>
    intro g l h
    have := ih (g.setV l p.1 p.2) l h
    simpa [Gang.putRegs] using this

theorem Gang.putGuards_same (ps : List (Nat × Bool)) : ∀ (g : Gang) (l : Nat) (h : Gang),
    (g.putGuards l ps).v = g.v ∧ (g.putGuards l ps).pc = g.pc ∧ (g.putGuards l ps).fcr = g.fcr ∧
    (g.putGuards l ps).status = g.status ∧ (g.putGuards l ps).flights = g.flights ∧
    (g.putGuards l ps).withLanesOf h = g.withLanesOf h := by
  induction ps with
  | nil => exact fun g l h => ⟨rfl, rfl, rfl, rfl, rfl, rfl⟩
  | cons p ps ih =>
    intro g l h
    have := ih (g.setGuard l p.1 p.2) l h
    simpa [Gang.putGuards] using this

theorem Gang.putRegs_vreg (ps : List (Nat × Word)) : ∀ (g : Gang) (l k j : Nat), (∀ p ∈ ps, p.1 < 64) → j < 64 →
    (g.putRegs l ps).vreg k j =
      if k = l then ps.foldl (fun x p => if j = p.1 then p.2 else x) (g.vreg k j) else g.vreg k j := by
  induction ps with
  | nil => intro g l k j _ _; simp [Gang.putRegs]
  | cons p ps ih =>
    intro g l k j hp hj
    have h1 := ih (g.setV l p.1 p.2) l k j (fun q hq => hp q (by simp [hq])) hj
    have h2 := Gang.vreg_setV g l p.1 p.2 k j (hp p (by simp)) hj
    simp only [Gang.putRegs, List.foldl_cons] at *
    rw [h1, h2]
    by_cases hk : k = l <;> simp [hk]

theorem Gang.putGuards_guard (ps : List (Nat × Bool)) : ∀ (g : Gang) (l k j : Nat), (∀ p ∈ ps, p.1 < 8) → j < 8 →
    (g.putGuards l ps).guard k j =
      if k = l then ps.foldl (fun x p => if j = p.1 ∧ j ≠ 0 then p.2 else x) (g.guard k j) else g.guard k j := by
  induction ps with
  | nil => intro g l k j _ _; simp [Gang.putGuards]
  | cons p ps ih =>
    intro g l k j hp hj
    have h1 := ih (g.setGuard l p.1 p.2) l k j (fun q hq => hp q (by simp [hq])) hj
    have h2 := Gang.guard_setGuard g l p.1 p.2 k j (hp p (by simp)) hj
    simp only [Gang.putGuards, List.foldl_cons] at *
    rw [h1, h2]
    by_cases hk : k = l <;> simp [hk]

/-! ### One lane -/

theorem Gang.apply_eq (g : Gang) (l : Nat) (e : Eff) (next : Word) :
    g.apply l e next = (((g.putRegs l e.v).putGuards l e.g).setFlags l e.f).finish l next := rfl

/-- What an effect leaves in the registers of every lane. -/
theorem Gang.apply_vreg (g : Gang) (l : Nat) (e : Eff) (next : Word) (k j : Nat) (he : e.ok) (hj : j < 64) :
    (g.apply l e next).vreg k j = if k = l then e.value j (g.vreg k j) else g.vreg k j := by
  have h1 := (Gang.putGuards_same e.g (g.putRegs l e.v) l g).1
  have h2 := Gang.putRegs_vreg e.v g l k j he.1 hj
  rw [Gang.apply_eq]
  unfold Eff.value
  rw [← h2]
  simp only [Gang.vreg]
  rw [← h1]
  rfl

theorem Gang.apply_guard (g : Gang) (l : Nat) (e : Eff) (next : Word) (k j : Nat) (he : e.ok) (hj : j < 8) :
    (g.apply l e next).guard k j = if k = l then e.guard j (g.guard k j) else g.guard k j := by
  have h1 := (Gang.putRegs_same e.v g l g).1
  have h2 := Gang.putGuards_guard e.g (g.putRegs l e.v) l k j he.2 hj
  have h3 : (g.putRegs l e.v).guard k j = g.guard k j := by simp only [Gang.guard, Gang.guards, h1]
  rw [h3] at h2
  rw [Gang.apply_eq]
  unfold Eff.guard
  rw [← h2]
  rfl

theorem Gang.apply_fcr (g : Gang) (l : Nat) (e : Eff) (next : Word) (k : Nat) :
    (g.apply l e next).fcrOf k = if k = l then g.fcrOf k ||| e.f.setWidth 32 else g.fcrOf k := by
  have h1 := (Gang.putGuards_same e.g (g.putRegs l e.v) l g).2.2.1
  have h2 := (Gang.putRegs_same e.v g l g).2.2.1
  rw [Gang.apply_eq]
  have : ((((g.putRegs l e.v).putGuards l e.g).setFlags l e.f).finish l next).fcrOf k =
      Tab.at (Tab.set 0 g.fcr l (g.fcrOf l ||| e.f.setWidth 32)) k 0 := by
    simp only [Gang.finish, Gang.setStat, Gang.setPc, Gang.setFlags, Gang.fcrOf, h1, h2]
  rw [this, Tab.at_set]
  split
  · rename_i h; rw [h]
  · rfl

theorem Gang.apply_pc (g : Gang) (l : Nat) (e : Eff) (next : Word) (k : Nat) :
    (g.apply l e next).pcOf k = if k = l then next else g.pcOf k := by
  have h1 := (Gang.putGuards_same e.g (g.putRegs l e.v) l g).2.1
  have h2 := (Gang.putRegs_same e.v g l g).2.1
  rw [Gang.apply_eq]
  have : ((((g.putRegs l e.v).putGuards l e.g).setFlags l e.f).finish l next).pcOf k =
      Tab.at (Tab.set 0 g.pc l next) k 0 := by
    simp only [Gang.finish, Gang.setStat, Gang.setPc, Gang.setFlags, Gang.pcOf, h1, h2]
  rw [this, Tab.at_set]
  rfl

theorem Gang.apply_stat (g : Gang) (l : Nat) (e : Eff) (next : Word) (k : Nat) :
    (g.apply l e next).stat k = if k = l then .ready else g.stat k := by
  have h1 := (Gang.putGuards_same e.g (g.putRegs l e.v) l g).2.2.2.1
  have h2 := (Gang.putRegs_same e.v g l g).2.2.2.1
  rw [Gang.apply_eq]
  have : ((((g.putRegs l e.v).putGuards l e.g).setFlags l e.f).finish l next).stat k =
      Tab.at (Tab.set .ready g.status l .ready) k .ready := by
    simp only [Gang.finish, Gang.setStat, Gang.setPc, Gang.setFlags, Gang.stat, h1, h2]
  rw [this, Tab.at_set]
  rfl

theorem Gang.apply_rest (g : Gang) (l : Nat) (e : Eff) (next : Word) (h : Gang) :
    (g.apply l e next).flights = g.flights ∧ (g.apply l e next).withLanesOf h = g.withLanesOf h := by
  have h1 := Gang.putGuards_same e.g (g.putRegs l e.v) l h
  have h2 := Gang.putRegs_same e.v g l h
  rw [Gang.apply_eq]
  constructor
  · rw [← h2.2.2.2.2.1, ← h1.2.2.2.2.1]; rfl
  · rw [← h2.2.2.2.2.2, ← h1.2.2.2.2.2]; rfl

/-! ### Every lane of a group -/

theorem mem_lanesOf (m : LaneMask) (l : Nat) (hl : l < 32) : l ∈ lanesOf m ↔ m.getLsbD l = true := by
  simp [lanesOf, hl]

theorem lanesOf_lt (m : LaneMask) (l : Nat) (h : l ∈ lanesOf m) : l < 32 := by
  simp only [lanesOf, List.mem_filter, List.mem_range] at h; exact h.1

theorem lanesOf_nodup (m : LaneMask) : (lanesOf m).Nodup := List.Nodup.filter _ List.nodup_range

/-- The effect of an instruction in each lane of a list. -/
def Gang.applyAll (g : Gang) (ls : List Nat) (f : Nat → Eff) (next : Nat → Word) : Gang :=
  ls.foldl (fun g l => g.apply l (f l) (next l)) g

theorem Gang.applyAll_spec (f : Nat → Eff) (next : Nat → Word) (hf : ∀ l, (f l).ok) (ls : List Nat) : ls.Nodup → ∀ g : Gang,
    (∀ k j, j < 64 → (g.applyAll ls f next).vreg k j = if k ∈ ls then (f k).value j (g.vreg k j) else g.vreg k j) ∧
    (∀ k j, j < 8 → (g.applyAll ls f next).guard k j = if k ∈ ls then (f k).guard j (g.guard k j) else g.guard k j) ∧
    (∀ k, (g.applyAll ls f next).fcrOf k = if k ∈ ls then g.fcrOf k ||| (f k).f.setWidth 32 else g.fcrOf k) ∧
    (∀ k, (g.applyAll ls f next).pcOf k = if k ∈ ls then next k else g.pcOf k) ∧
    (∀ k, (g.applyAll ls f next).stat k = if k ∈ ls then .ready else g.stat k) ∧
    (g.applyAll ls f next).flights = g.flights ∧
    (∀ h, (g.applyAll ls f next).withLanesOf h = g.withLanesOf h) := by
  induction ls with
  | nil => intro _ g; simp [Gang.applyAll]
  | cons l ls ih =>
    intro hn g
    obtain ⟨hl, hn⟩ := List.nodup_cons.1 hn
    obtain ⟨i1, i2, i3, i4, i5, i6, i7⟩ := ih hn (g.apply l (f l) (next l))
    have e : g.applyAll (l :: ls) f next = (g.apply l (f l) (next l)).applyAll ls f next := rfl
    rw [e]
    refine ⟨fun k j hj => ?_, fun k j hj => ?_, fun k => ?_, fun k => ?_, fun k => ?_, ?_, fun h => ?_⟩
    · rw [i1 k j hj, Gang.apply_vreg _ _ _ _ _ _ (hf l) hj]
      by_cases hk : k = l
      · subst hk; simp [hl]
      · simp [hk]
    · rw [i2 k j hj, Gang.apply_guard _ _ _ _ _ _ (hf l) hj]
      by_cases hk : k = l
      · subst hk; simp [hl]
      · simp [hk]
    · rw [i3 k, Gang.apply_fcr]
      by_cases hk : k = l
      · subst hk; simp [hl]
      · simp [hk]
    · rw [i4 k, Gang.apply_pc]
      by_cases hk : k = l
      · subst hk; simp [hl]
      · simp [hk]
    · rw [i5 k, Gang.apply_stat]
      by_cases hk : k = l
      · subst hk; simp [hl]
      · simp [hk]
    · rw [i6, (Gang.apply_rest g l (f l) (next l) g).1]
    · rw [i7 h, (Gang.apply_rest g l (f l) (next l) h).2]

/-- An instruction that acts in every lane of the group leaves its effect in each, and nothing else. -/
theorem Gang.applyAll_took (g g0 : Gang) (m : LaneMask) (f : Nat → Eff) (hf : ∀ l, (f l).ok)
    (hv : g.v = g0.v) (hg : g.g = g0.g) (hc : g.fcr = g0.fcr) (hp : g.pc = g0.pc) (hs : g.status = g0.status)
    (hr : g.withLanesOf g0 = g0) :
    Took g0 (g.applyAll (lanesOf m) f fun l => g.pcOf l + 4) m (fun l n => (f l).value n (g0.vreg l n))
      (fun l n => (f l).guard n (g0.guard l n)) (fun l => (f l).f) g.flights := by
  obtain ⟨h1, h2, h3, h4, h5, h6, h7⟩ := Gang.applyAll_spec f (fun l => g.pcOf l + 4) hf (lanesOf m) (lanesOf_nodup m) g
  have ev : ∀ l n, g.vreg l n = g0.vreg l n := fun l n => by simp only [Gang.vreg, hv]
  have eg : ∀ l n, g.guard l n = g0.guard l n := fun l n => by simp only [Gang.guard, Gang.guards, hg]
  have ec : ∀ l, g.fcrOf l = g0.fcrOf l := fun l => by simp only [Gang.fcrOf, hc]
  have ep : ∀ l, g.pcOf l = g0.pcOf l := fun l => by simp only [Gang.pcOf, hp]
  have es : ∀ l, g.stat l = g0.stat l := fun l => by simp only [Gang.stat, hs]
  constructor
  · intro l n hl hn; rw [h1 l n hn, ev]; simp only [mem_lanesOf m l hl]
  · intro l n hl hn; rw [h2 l n hn, eg]; simp only [mem_lanesOf m l hl]
  · intro l hl; rw [h3 l, ec]; simp only [mem_lanesOf m l hl]
  · intro l hl; rw [h4 l, ep]; simp only [mem_lanesOf m l hl]
  · intro l hl; rw [h5 l, es]; simp only [mem_lanesOf m l hl]
  · exact h6
  · rw [h7 g0]; exact hr

/-- What an issue leaves of a gang's lanes: all of it. -/
theorem Gang.issued_fields (g : Gang) (s : State) (u : Use) :
    (g.issued s u).v = g.v ∧ (g.issued s u).s = g.s ∧ (g.issued s u).g = g.g ∧ (g.issued s u).pc = g.pc ∧
    (g.issued s u).fcr = g.fcr ∧ (g.issued s u).status = g.status ∧ (g.issued s u).flights = g.flights ∧
    (g.issued s u).gstat = g.gstat ∧ (g.issued s u).live = g.live ∧ (g.issued s u).withLanesOf g = g := by
  unfold Gang.issued; split <;> exact ⟨rfl, rfl, rfl, rfl, rfl, rfl, rfl, rfl, rfl, rfl⟩

/-- A body that acts in every lane of the group: what it leaves. -/
theorem State.inLanes_took (s t : State) (u : Use) (g : Gang) (f : Gang → Nat → Eff) (h : OnlyGang s t (g.issued s u))
    (hf : ∀ x l, (f x l).ok) :
    ∃ g', OnlyGang s (t.inLanes f) g' ∧
      Took g g' s.mask (fun l n => (f (g.issued s u) l).value n (g.vreg l n))
        (fun l n => (f (g.issued s u) l).guard n (g.guard l n)) (fun l => (f (g.issued s u) l).f) g.flights := by
  have hi : t.gang t.cur = some (g.issued s u) := by rw [h.cur]; exact h.issuer
  have hu := h.trans (OnlyGang.updGang t (fun g => (lanesOf t.mask).foldl (fun g' l => g'.apply l (f g l) (g.pcOf l + 4)) g) _ hi)
  refine ⟨_, hu, ?_⟩
  rw [h.mask]
  obtain ⟨hv, -, hg, hp, hc, hs, hfl, -, -, hr⟩ := g.issued_fields s u
  have hx := Gang.applyAll_took (g.issued s u) g s.mask (f (g.issued s u)) (hf _) hv hg hc hp hs hr
  rw [hfl] at hx
  exact hx

end Sys2Proof.Machine
end

