-- ==== Sys2Proof/Laws/State.lean ====
section
/-! SUPPORT. The fields of State that each named update leaves as they are, so that no proof unfolds a record update. -/

namespace Sys2Proof.Machine

/-! ### `State.updScalar`: every field but `scalars` -/

@[simp] theorem State.updScalar_ptb (s : State) (i : Nat) (f : Scalar → Scalar) : (s.updScalar i f).ptb = s.ptb := rfl
@[simp] theorem State.updScalar_agenda (s : State) (i : Nat) (f : Scalar → Scalar) : (s.updScalar i f).agenda = s.agenda := rfl
@[simp] theorem State.updScalar_choiceNo (s : State) (i : Nat) (f : Scalar → Scalar) : (s.updScalar i f).choiceNo = s.choiceNo := rfl
@[simp] theorem State.updScalar_cur (s : State) (i : Nat) (f : Scalar → Scalar) : (s.updScalar i f).cur = s.cur := rfl
@[simp] theorem State.updScalar_mask (s : State) (i : Nat) (f : Scalar → Scalar) : (s.updScalar i f).mask = s.mask := rfl
@[simp] theorem State.updScalar_free (s : State) (i : Nat) (f : Scalar → Scalar) : (s.updScalar i f).free = s.free := rfl
@[simp] theorem State.updScalar_serialNo (s : State) (i : Nat) (f : Scalar → Scalar) : (s.updScalar i f).serialNo = s.serialNo := rfl
@[simp] theorem State.updScalar_out (s : State) (i : Nat) (f : Scalar → Scalar) : (s.updScalar i f).out = s.out := rfl
@[simp] theorem State.updScalar_present (s : State) (i : Nat) (f : Scalar → Scalar) : (s.updScalar i f).present = s.present := rfl
@[simp] theorem State.updScalar_chip (s : State) (i : Nat) (f : Scalar → Scalar) : (s.updScalar i f).chip = s.chip := rfl
@[simp] theorem State.updScalar_flash (s : State) (i : Nat) (f : Scalar → Scalar) : (s.updScalar i f).flash = s.flash := rfl
@[simp] theorem State.updScalar_puf (s : State) (i : Nat) (f : Scalar → Scalar) : (s.updScalar i f).puf = s.puf := rfl
@[simp] theorem State.updScalar_inReset (s : State) (i : Nat) (f : Scalar → Scalar) : (s.updScalar i f).inReset = s.inReset := rfl
@[simp] theorem State.updScalar_mcTime (s : State) (i : Nat) (f : Scalar → Scalar) : (s.updScalar i f).mcTime = s.mcTime := rfl
@[simp] theorem State.updScalar_railsAt (s : State) (i : Nat) (f : Scalar → Scalar) : (s.updScalar i f).railsAt = s.railsAt := rfl
@[simp] theorem State.updScalar_tripped (s : State) (i : Nat) (f : Scalar → Scalar) : (s.updScalar i f).tripped = s.tripped := rfl
@[simp] theorem State.updScalar_bootStep (s : State) (i : Nat) (f : Scalar → Scalar) : (s.updScalar i f).bootStep = s.bootStep := rfl
@[simp] theorem State.updScalar_bootRecord (s : State) (i : Nat) (f : Scalar → Scalar) : (s.updScalar i f).bootRecord = s.bootRecord := rfl
@[simp] theorem State.updScalar_mcstat (s : State) (i : Nat) (f : Scalar → Scalar) : (s.updScalar i f).mcstat = s.mcstat := rfl
@[simp] theorem State.updScalar_mcpwr (s : State) (i : Nat) (f : Scalar → Scalar) : (s.updScalar i f).mcpwr = s.mcpwr := rfl
@[simp] theorem State.updScalar_mctemp (s : State) (i : Nat) (f : Scalar → Scalar) : (s.updScalar i f).mctemp = s.mctemp := rfl
@[simp] theorem State.updScalar_mcce (s : State) (i : Nat) (f : Scalar → Scalar) : (s.updScalar i f).mcce = s.mcce := rfl
@[simp] theorem State.updScalar_mceth (s : State) (i : Nat) (f : Scalar → Scalar) : (s.updScalar i f).mceth = s.mceth := rfl
@[simp] theorem State.updScalar_pwrHalved (s : State) (i : Nat) (f : Scalar → Scalar) : (s.updScalar i f).pwrHalved = s.pwrHalved := rfl
@[simp] theorem State.updScalar_pwrZero (s : State) (i : Nat) (f : Scalar → Scalar) : (s.updScalar i f).pwrZero = s.pwrZero := rfl
@[simp] theorem State.updScalar_localBase (s : State) (i : Nat) (f : Scalar → Scalar) : (s.updScalar i f).localBase = s.localBase := rfl
@[simp] theorem State.updScalar_podBase (s : State) (i : Nat) (f : Scalar → Scalar) : (s.updScalar i f).podBase = s.podBase := rfl
@[simp] theorem State.updScalar_tenantBase (s : State) (i : Nat) (f : Scalar → Scalar) : (s.updScalar i f).tenantBase = s.tenantBase := rfl
@[simp] theorem State.updScalar_pasidTbl (s : State) (i : Nat) (f : Scalar → Scalar) : (s.updScalar i f).pasidTbl = s.pasidTbl := rfl
@[simp] theorem State.updScalar_cctBase (s : State) (i : Nat) (f : Scalar → Scalar) : (s.updScalar i f).cctBase = s.cctBase := rfl
@[simp] theorem State.updScalar_harts (s : State) (i : Nat) (f : Scalar → Scalar) : (s.updScalar i f).harts = s.harts := rfl
@[simp] theorem State.updScalar_imsics (s : State) (i : Nat) (f : Scalar → Scalar) : (s.updScalar i f).imsics = s.imsics := rfl
@[simp] theorem State.updScalar_hosted (s : State) (i : Nat) (f : Scalar → Scalar) : (s.updScalar i f).hosted = s.hosted := rfl
@[simp] theorem State.updScalar_hostLink (s : State) (i : Nat) (f : Scalar → Scalar) : (s.updScalar i f).hostLink = s.hostLink := rfl
@[simp] theorem State.updScalar_doorbells (s : State) (i : Nat) (f : Scalar → Scalar) : (s.updScalar i f).doorbells = s.doorbells := rfl
@[simp] theorem State.updScalar_owners (s : State) (i : Nat) (f : Scalar → Scalar) : (s.updScalar i f).owners = s.owners := rfl
@[simp] theorem State.updScalar_mem (s : State) (i : Nat) (f : Scalar → Scalar) : (s.updScalar i f).mem = s.mem := rfl
@[simp] theorem State.updScalar_poison (s : State) (i : Nat) (f : Scalar → Scalar) : (s.updScalar i f).poison = s.poison := rfl
@[simp] theorem State.updScalar_dirtyLines (s : State) (i : Nat) (f : Scalar → Scalar) : (s.updScalar i f).dirtyLines = s.dirtyLines := rfl
@[simp] theorem State.updScalar_predictors (s : State) (i : Nat) (f : Scalar → Scalar) : (s.updScalar i f).predictors = s.predictors := rfl
@[simp] theorem State.updScalar_homes (s : State) (i : Nat) (f : Scalar → Scalar) : (s.updScalar i f).homes = s.homes := rfl
@[simp] theorem State.updScalar_reqs (s : State) (i : Nat) (f : Scalar → Scalar) : (s.updScalar i f).reqs = s.reqs := rfl
@[simp] theorem State.updScalar_hostWrites (s : State) (i : Nat) (f : Scalar → Scalar) : (s.updScalar i f).hostWrites = s.hostWrites := rfl
@[simp] theorem State.updScalar_dmaWct (s : State) (i : Nat) (f : Scalar → Scalar) : (s.updScalar i f).dmaWct = s.dmaWct := rfl
@[simp] theorem State.updScalar_tlbs (s : State) (i : Nat) (f : Scalar → Scalar) : (s.updScalar i f).tlbs = s.tlbs := rfl
@[simp] theorem State.updScalar_walks (s : State) (i : Nat) (f : Scalar → Scalar) : (s.updScalar i f).walks = s.walks := rfl
@[simp] theorem State.updScalar_invals (s : State) (i : Nat) (f : Scalar → Scalar) : (s.updScalar i f).invals = s.invals := rfl
@[simp] theorem State.updScalar_heldFaults (s : State) (i : Nat) (f : Scalar → Scalar) : (s.updScalar i f).heldFaults = s.heldFaults := rfl
@[simp] theorem State.updScalar_rights (s : State) (i : Nat) (f : Scalar → Scalar) : (s.updScalar i f).rights = s.rights := rfl
@[simp] theorem State.updScalar_l1 (s : State) (i : Nat) (f : Scalar → Scalar) : (s.updScalar i f).l1 = s.l1 := rfl
@[simp] theorem State.updScalar_cores (s : State) (i : Nat) (f : Scalar → Scalar) : (s.updScalar i f).cores = s.cores := rfl
@[simp] theorem State.updScalar_wgs (s : State) (i : Nat) (f : Scalar → Scalar) : (s.updScalar i f).wgs = s.wgs := rfl
@[simp] theorem State.updScalar_copies (s : State) (i : Nat) (f : Scalar → Scalar) : (s.updScalar i f).copies = s.copies := rfl
@[simp] theorem State.updScalar_ops (s : State) (i : Nat) (f : Scalar → Scalar) : (s.updScalar i f).ops = s.ops := rfl
@[simp] theorem State.updScalar_launches (s : State) (i : Nat) (f : Scalar → Scalar) : (s.updScalar i f).launches = s.launches := rfl
@[simp] theorem State.updScalar_tcbs (s : State) (i : Nat) (f : Scalar → Scalar) : (s.updScalar i f).tcbs = s.tcbs := rfl
@[simp] theorem State.updScalar_graphs (s : State) (i : Nat) (f : Scalar → Scalar) : (s.updScalar i f).graphs = s.graphs := rfl
@[simp] theorem State.updScalar_slices (s : State) (i : Nat) (f : Scalar → Scalar) : (s.updScalar i f).slices = s.slices := rfl
@[simp] theorem State.updScalar_queues (s : State) (i : Nat) (f : Scalar → Scalar) : (s.updScalar i f).queues = s.queues := rfl
@[simp] theorem State.updScalar_tenants (s : State) (i : Nat) (f : Scalar → Scalar) : (s.updScalar i f).tenants = s.tenants := rfl
@[simp] theorem State.updScalar_events (s : State) (i : Nat) (f : Scalar → Scalar) : (s.updScalar i f).events = s.events := rfl
@[simp] theorem State.updScalar_channels (s : State) (i : Nat) (f : Scalar → Scalar) : (s.updScalar i f).channels = s.channels := rfl
@[simp] theorem State.updScalar_heldMsgs (s : State) (i : Nat) (f : Scalar → Scalar) : (s.updScalar i f).heldMsgs = s.heldMsgs := rfl
@[simp] theorem State.updScalar_checks (s : State) (i : Nat) (f : Scalar → Scalar) : (s.updScalar i f).checks = s.checks := rfl
@[simp] theorem State.updScalar_activeB (s : State) (i : Nat) (f : Scalar → Scalar) : (s.updScalar i f).activeB = s.activeB := rfl
@[simp] theorem State.updScalar_versionA (s : State) (i : Nat) (f : Scalar → Scalar) : (s.updScalar i f).versionA = s.versionA := rfl
@[simp] theorem State.updScalar_versionB (s : State) (i : Nat) (f : Scalar → Scalar) : (s.updScalar i f).versionB = s.versionB := rfl
@[simp] theorem State.updScalar_update (s : State) (i : Nat) (f : Scalar → Scalar) : (s.updScalar i f).update = s.update := rfl
@[simp] theorem State.updScalar_log (s : State) (i : Nat) (f : Scalar → Scalar) : (s.updScalar i f).log = s.log := rfl
@[simp] theorem State.updScalar_bank (s : State) (i : Nat) (f : Scalar → Scalar) : (s.updScalar i f).bank = s.bank := rfl
@[simp] theorem State.updScalar_ports (s : State) (i : Nat) (f : Scalar → Scalar) : (s.updScalar i f).ports = s.ports := rfl
@[simp] theorem State.updScalar_ethIdx (s : State) (i : Nat) (f : Scalar → Scalar) : (s.updScalar i f).ethIdx = s.ethIdx := rfl
@[simp] theorem State.updScalar_podChips (s : State) (i : Nat) (f : Scalar → Scalar) : (s.updScalar i f).podChips = s.podChips := rfl
@[simp] theorem State.updScalar_podMap (s : State) (i : Nat) (f : Scalar → Scalar) : (s.updScalar i f).podMap = s.podMap := rfl
@[simp] theorem State.updScalar_alone (s : State) (i : Nat) (f : Scalar → Scalar) : (s.updScalar i f).alone = s.alone := rfl
@[simp] theorem State.updScalar_podFormed (s : State) (i : Nat) (f : Scalar → Scalar) : (s.updScalar i f).podFormed = s.podFormed := rfl
@[simp] theorem State.updScalar_slow (s : State) (i : Nat) (f : Scalar → Scalar) : (s.updScalar i f).slow = s.slow := rfl
@[simp] theorem State.updScalar_treeSent (s : State) (i : Nat) (f : Scalar → Scalar) : (s.updScalar i f).treeSent = s.treeSent := rfl
@[simp] theorem State.updScalar_treeSeen (s : State) (i : Nat) (f : Scalar → Scalar) : (s.updScalar i f).treeSeen = s.treeSeen := rfl
@[simp] theorem State.updScalar_treeHeld (s : State) (i : Nat) (f : Scalar → Scalar) : (s.updScalar i f).treeHeld = s.treeHeld := rfl
@[simp] theorem State.updScalar_flitSeen (s : State) (i : Nat) (f : Scalar → Scalar) : (s.updScalar i f).flitSeen = s.flitSeen := rfl
@[simp] theorem State.updScalar_asks (s : State) (i : Nat) (f : Scalar → Scalar) : (s.updScalar i f).asks = s.asks := rfl
@[simp] theorem State.updScalar_waiters (s : State) (i : Nat) (f : Scalar → Scalar) : (s.updScalar i f).waiters = s.waiters := rfl
@[simp] theorem State.updScalar_owedUnits (s : State) (i : Nat) (f : Scalar → Scalar) : (s.updScalar i f).owedUnits = s.owedUnits := rfl
@[simp] theorem State.updScalar_parked (s : State) (i : Nat) (f : Scalar → Scalar) : (s.updScalar i f).parked = s.parked := rfl

/-! ### `State.updLaunch`: every field but `launches` -/

@[simp] theorem State.updLaunch_ptb (s : State) (i : Nat) (f : Launch → Launch) : (s.updLaunch i f).ptb = s.ptb := rfl
@[simp] theorem State.updLaunch_agenda (s : State) (i : Nat) (f : Launch → Launch) : (s.updLaunch i f).agenda = s.agenda := rfl
@[simp] theorem State.updLaunch_choiceNo (s : State) (i : Nat) (f : Launch → Launch) : (s.updLaunch i f).choiceNo = s.choiceNo := rfl
@[simp] theorem State.updLaunch_cur (s : State) (i : Nat) (f : Launch → Launch) : (s.updLaunch i f).cur = s.cur := rfl
@[simp] theorem State.updLaunch_mask (s : State) (i : Nat) (f : Launch → Launch) : (s.updLaunch i f).mask = s.mask := rfl
@[simp] theorem State.updLaunch_free (s : State) (i : Nat) (f : Launch → Launch) : (s.updLaunch i f).free = s.free := rfl
@[simp] theorem State.updLaunch_serialNo (s : State) (i : Nat) (f : Launch → Launch) : (s.updLaunch i f).serialNo = s.serialNo := rfl
@[simp] theorem State.updLaunch_out (s : State) (i : Nat) (f : Launch → Launch) : (s.updLaunch i f).out = s.out := rfl
@[simp] theorem State.updLaunch_present (s : State) (i : Nat) (f : Launch → Launch) : (s.updLaunch i f).present = s.present := rfl
@[simp] theorem State.updLaunch_chip (s : State) (i : Nat) (f : Launch → Launch) : (s.updLaunch i f).chip = s.chip := rfl
@[simp] theorem State.updLaunch_flash (s : State) (i : Nat) (f : Launch → Launch) : (s.updLaunch i f).flash = s.flash := rfl
@[simp] theorem State.updLaunch_puf (s : State) (i : Nat) (f : Launch → Launch) : (s.updLaunch i f).puf = s.puf := rfl
@[simp] theorem State.updLaunch_inReset (s : State) (i : Nat) (f : Launch → Launch) : (s.updLaunch i f).inReset = s.inReset := rfl
@[simp] theorem State.updLaunch_mcTime (s : State) (i : Nat) (f : Launch → Launch) : (s.updLaunch i f).mcTime = s.mcTime := rfl
@[simp] theorem State.updLaunch_railsAt (s : State) (i : Nat) (f : Launch → Launch) : (s.updLaunch i f).railsAt = s.railsAt := rfl
@[simp] theorem State.updLaunch_tripped (s : State) (i : Nat) (f : Launch → Launch) : (s.updLaunch i f).tripped = s.tripped := rfl
@[simp] theorem State.updLaunch_bootStep (s : State) (i : Nat) (f : Launch → Launch) : (s.updLaunch i f).bootStep = s.bootStep := rfl
@[simp] theorem State.updLaunch_bootRecord (s : State) (i : Nat) (f : Launch → Launch) : (s.updLaunch i f).bootRecord = s.bootRecord := rfl
@[simp] theorem State.updLaunch_mcstat (s : State) (i : Nat) (f : Launch → Launch) : (s.updLaunch i f).mcstat = s.mcstat := rfl
@[simp] theorem State.updLaunch_mcpwr (s : State) (i : Nat) (f : Launch → Launch) : (s.updLaunch i f).mcpwr = s.mcpwr := rfl
@[simp] theorem State.updLaunch_mctemp (s : State) (i : Nat) (f : Launch → Launch) : (s.updLaunch i f).mctemp = s.mctemp := rfl
@[simp] theorem State.updLaunch_mcce (s : State) (i : Nat) (f : Launch → Launch) : (s.updLaunch i f).mcce = s.mcce := rfl
@[simp] theorem State.updLaunch_mceth (s : State) (i : Nat) (f : Launch → Launch) : (s.updLaunch i f).mceth = s.mceth := rfl
@[simp] theorem State.updLaunch_pwrHalved (s : State) (i : Nat) (f : Launch → Launch) : (s.updLaunch i f).pwrHalved = s.pwrHalved := rfl
@[simp] theorem State.updLaunch_pwrZero (s : State) (i : Nat) (f : Launch → Launch) : (s.updLaunch i f).pwrZero = s.pwrZero := rfl
@[simp] theorem State.updLaunch_localBase (s : State) (i : Nat) (f : Launch → Launch) : (s.updLaunch i f).localBase = s.localBase := rfl
@[simp] theorem State.updLaunch_podBase (s : State) (i : Nat) (f : Launch → Launch) : (s.updLaunch i f).podBase = s.podBase := rfl
@[simp] theorem State.updLaunch_tenantBase (s : State) (i : Nat) (f : Launch → Launch) : (s.updLaunch i f).tenantBase = s.tenantBase := rfl
@[simp] theorem State.updLaunch_pasidTbl (s : State) (i : Nat) (f : Launch → Launch) : (s.updLaunch i f).pasidTbl = s.pasidTbl := rfl
@[simp] theorem State.updLaunch_cctBase (s : State) (i : Nat) (f : Launch → Launch) : (s.updLaunch i f).cctBase = s.cctBase := rfl
@[simp] theorem State.updLaunch_harts (s : State) (i : Nat) (f : Launch → Launch) : (s.updLaunch i f).harts = s.harts := rfl
@[simp] theorem State.updLaunch_imsics (s : State) (i : Nat) (f : Launch → Launch) : (s.updLaunch i f).imsics = s.imsics := rfl
@[simp] theorem State.updLaunch_hosted (s : State) (i : Nat) (f : Launch → Launch) : (s.updLaunch i f).hosted = s.hosted := rfl
@[simp] theorem State.updLaunch_hostLink (s : State) (i : Nat) (f : Launch → Launch) : (s.updLaunch i f).hostLink = s.hostLink := rfl
@[simp] theorem State.updLaunch_doorbells (s : State) (i : Nat) (f : Launch → Launch) : (s.updLaunch i f).doorbells = s.doorbells := rfl
@[simp] theorem State.updLaunch_owners (s : State) (i : Nat) (f : Launch → Launch) : (s.updLaunch i f).owners = s.owners := rfl
@[simp] theorem State.updLaunch_mem (s : State) (i : Nat) (f : Launch → Launch) : (s.updLaunch i f).mem = s.mem := rfl
@[simp] theorem State.updLaunch_poison (s : State) (i : Nat) (f : Launch → Launch) : (s.updLaunch i f).poison = s.poison := rfl
@[simp] theorem State.updLaunch_dirtyLines (s : State) (i : Nat) (f : Launch → Launch) : (s.updLaunch i f).dirtyLines = s.dirtyLines := rfl
@[simp] theorem State.updLaunch_predictors (s : State) (i : Nat) (f : Launch → Launch) : (s.updLaunch i f).predictors = s.predictors := rfl
@[simp] theorem State.updLaunch_homes (s : State) (i : Nat) (f : Launch → Launch) : (s.updLaunch i f).homes = s.homes := rfl
@[simp] theorem State.updLaunch_reqs (s : State) (i : Nat) (f : Launch → Launch) : (s.updLaunch i f).reqs = s.reqs := rfl
@[simp] theorem State.updLaunch_hostWrites (s : State) (i : Nat) (f : Launch → Launch) : (s.updLaunch i f).hostWrites = s.hostWrites := rfl
@[simp] theorem State.updLaunch_dmaWct (s : State) (i : Nat) (f : Launch → Launch) : (s.updLaunch i f).dmaWct = s.dmaWct := rfl
@[simp] theorem State.updLaunch_tlbs (s : State) (i : Nat) (f : Launch → Launch) : (s.updLaunch i f).tlbs = s.tlbs := rfl
@[simp] theorem State.updLaunch_walks (s : State) (i : Nat) (f : Launch → Launch) : (s.updLaunch i f).walks = s.walks := rfl
@[simp] theorem State.updLaunch_invals (s : State) (i : Nat) (f : Launch → Launch) : (s.updLaunch i f).invals = s.invals := rfl
@[simp] theorem State.updLaunch_heldFaults (s : State) (i : Nat) (f : Launch → Launch) : (s.updLaunch i f).heldFaults = s.heldFaults := rfl
@[simp] theorem State.updLaunch_rights (s : State) (i : Nat) (f : Launch → Launch) : (s.updLaunch i f).rights = s.rights := rfl
@[simp] theorem State.updLaunch_l1 (s : State) (i : Nat) (f : Launch → Launch) : (s.updLaunch i f).l1 = s.l1 := rfl
@[simp] theorem State.updLaunch_cores (s : State) (i : Nat) (f : Launch → Launch) : (s.updLaunch i f).cores = s.cores := rfl
@[simp] theorem State.updLaunch_wgs (s : State) (i : Nat) (f : Launch → Launch) : (s.updLaunch i f).wgs = s.wgs := rfl
@[simp] theorem State.updLaunch_copies (s : State) (i : Nat) (f : Launch → Launch) : (s.updLaunch i f).copies = s.copies := rfl
@[simp] theorem State.updLaunch_ops (s : State) (i : Nat) (f : Launch → Launch) : (s.updLaunch i f).ops = s.ops := rfl
@[simp] theorem State.updLaunch_tcbs (s : State) (i : Nat) (f : Launch → Launch) : (s.updLaunch i f).tcbs = s.tcbs := rfl
@[simp] theorem State.updLaunch_graphs (s : State) (i : Nat) (f : Launch → Launch) : (s.updLaunch i f).graphs = s.graphs := rfl
@[simp] theorem State.updLaunch_slices (s : State) (i : Nat) (f : Launch → Launch) : (s.updLaunch i f).slices = s.slices := rfl
@[simp] theorem State.updLaunch_queues (s : State) (i : Nat) (f : Launch → Launch) : (s.updLaunch i f).queues = s.queues := rfl
@[simp] theorem State.updLaunch_tenants (s : State) (i : Nat) (f : Launch → Launch) : (s.updLaunch i f).tenants = s.tenants := rfl
@[simp] theorem State.updLaunch_events (s : State) (i : Nat) (f : Launch → Launch) : (s.updLaunch i f).events = s.events := rfl
@[simp] theorem State.updLaunch_scalars (s : State) (i : Nat) (f : Launch → Launch) : (s.updLaunch i f).scalars = s.scalars := rfl
@[simp] theorem State.updLaunch_channels (s : State) (i : Nat) (f : Launch → Launch) : (s.updLaunch i f).channels = s.channels := rfl
@[simp] theorem State.updLaunch_heldMsgs (s : State) (i : Nat) (f : Launch → Launch) : (s.updLaunch i f).heldMsgs = s.heldMsgs := rfl
@[simp] theorem State.updLaunch_checks (s : State) (i : Nat) (f : Launch → Launch) : (s.updLaunch i f).checks = s.checks := rfl
@[simp] theorem State.updLaunch_activeB (s : State) (i : Nat) (f : Launch → Launch) : (s.updLaunch i f).activeB = s.activeB := rfl
@[simp] theorem State.updLaunch_versionA (s : State) (i : Nat) (f : Launch → Launch) : (s.updLaunch i f).versionA = s.versionA := rfl
@[simp] theorem State.updLaunch_versionB (s : State) (i : Nat) (f : Launch → Launch) : (s.updLaunch i f).versionB = s.versionB := rfl
@[simp] theorem State.updLaunch_update (s : State) (i : Nat) (f : Launch → Launch) : (s.updLaunch i f).update = s.update := rfl
@[simp] theorem State.updLaunch_log (s : State) (i : Nat) (f : Launch → Launch) : (s.updLaunch i f).log = s.log := rfl
@[simp] theorem State.updLaunch_bank (s : State) (i : Nat) (f : Launch → Launch) : (s.updLaunch i f).bank = s.bank := rfl
@[simp] theorem State.updLaunch_ports (s : State) (i : Nat) (f : Launch → Launch) : (s.updLaunch i f).ports = s.ports := rfl
@[simp] theorem State.updLaunch_ethIdx (s : State) (i : Nat) (f : Launch → Launch) : (s.updLaunch i f).ethIdx = s.ethIdx := rfl
@[simp] theorem State.updLaunch_podChips (s : State) (i : Nat) (f : Launch → Launch) : (s.updLaunch i f).podChips = s.podChips := rfl
@[simp] theorem State.updLaunch_podMap (s : State) (i : Nat) (f : Launch → Launch) : (s.updLaunch i f).podMap = s.podMap := rfl
@[simp] theorem State.updLaunch_alone (s : State) (i : Nat) (f : Launch → Launch) : (s.updLaunch i f).alone = s.alone := rfl
@[simp] theorem State.updLaunch_podFormed (s : State) (i : Nat) (f : Launch → Launch) : (s.updLaunch i f).podFormed = s.podFormed := rfl
@[simp] theorem State.updLaunch_slow (s : State) (i : Nat) (f : Launch → Launch) : (s.updLaunch i f).slow = s.slow := rfl
@[simp] theorem State.updLaunch_treeSent (s : State) (i : Nat) (f : Launch → Launch) : (s.updLaunch i f).treeSent = s.treeSent := rfl
@[simp] theorem State.updLaunch_treeSeen (s : State) (i : Nat) (f : Launch → Launch) : (s.updLaunch i f).treeSeen = s.treeSeen := rfl
@[simp] theorem State.updLaunch_treeHeld (s : State) (i : Nat) (f : Launch → Launch) : (s.updLaunch i f).treeHeld = s.treeHeld := rfl
@[simp] theorem State.updLaunch_flitSeen (s : State) (i : Nat) (f : Launch → Launch) : (s.updLaunch i f).flitSeen = s.flitSeen := rfl
@[simp] theorem State.updLaunch_asks (s : State) (i : Nat) (f : Launch → Launch) : (s.updLaunch i f).asks = s.asks := rfl
@[simp] theorem State.updLaunch_waiters (s : State) (i : Nat) (f : Launch → Launch) : (s.updLaunch i f).waiters = s.waiters := rfl
@[simp] theorem State.updLaunch_owedUnits (s : State) (i : Nat) (f : Launch → Launch) : (s.updLaunch i f).owedUnits = s.owedUnits := rfl
@[simp] theorem State.updLaunch_parked (s : State) (i : Nat) (f : Launch → Launch) : (s.updLaunch i f).parked = s.parked := rfl

/-! ### `State.updSlice`: every field but `slices` -/

@[simp] theorem State.updSlice_ptb (s : State) (h : Word) (f : Slice → Slice) : (s.updSlice h f).ptb = s.ptb := rfl
@[simp] theorem State.updSlice_agenda (s : State) (h : Word) (f : Slice → Slice) : (s.updSlice h f).agenda = s.agenda := rfl
@[simp] theorem State.updSlice_choiceNo (s : State) (h : Word) (f : Slice → Slice) : (s.updSlice h f).choiceNo = s.choiceNo := rfl
@[simp] theorem State.updSlice_cur (s : State) (h : Word) (f : Slice → Slice) : (s.updSlice h f).cur = s.cur := rfl
@[simp] theorem State.updSlice_mask (s : State) (h : Word) (f : Slice → Slice) : (s.updSlice h f).mask = s.mask := rfl
@[simp] theorem State.updSlice_free (s : State) (h : Word) (f : Slice → Slice) : (s.updSlice h f).free = s.free := rfl
@[simp] theorem State.updSlice_serialNo (s : State) (h : Word) (f : Slice → Slice) : (s.updSlice h f).serialNo = s.serialNo := rfl
@[simp] theorem State.updSlice_out (s : State) (h : Word) (f : Slice → Slice) : (s.updSlice h f).out = s.out := rfl
@[simp] theorem State.updSlice_present (s : State) (h : Word) (f : Slice → Slice) : (s.updSlice h f).present = s.present := rfl
@[simp] theorem State.updSlice_chip (s : State) (h : Word) (f : Slice → Slice) : (s.updSlice h f).chip = s.chip := rfl
@[simp] theorem State.updSlice_flash (s : State) (h : Word) (f : Slice → Slice) : (s.updSlice h f).flash = s.flash := rfl
@[simp] theorem State.updSlice_puf (s : State) (h : Word) (f : Slice → Slice) : (s.updSlice h f).puf = s.puf := rfl
@[simp] theorem State.updSlice_inReset (s : State) (h : Word) (f : Slice → Slice) : (s.updSlice h f).inReset = s.inReset := rfl
@[simp] theorem State.updSlice_mcTime (s : State) (h : Word) (f : Slice → Slice) : (s.updSlice h f).mcTime = s.mcTime := rfl
@[simp] theorem State.updSlice_railsAt (s : State) (h : Word) (f : Slice → Slice) : (s.updSlice h f).railsAt = s.railsAt := rfl
@[simp] theorem State.updSlice_tripped (s : State) (h : Word) (f : Slice → Slice) : (s.updSlice h f).tripped = s.tripped := rfl
@[simp] theorem State.updSlice_bootStep (s : State) (h : Word) (f : Slice → Slice) : (s.updSlice h f).bootStep = s.bootStep := rfl
@[simp] theorem State.updSlice_bootRecord (s : State) (h : Word) (f : Slice → Slice) : (s.updSlice h f).bootRecord = s.bootRecord := rfl
@[simp] theorem State.updSlice_mcstat (s : State) (h : Word) (f : Slice → Slice) : (s.updSlice h f).mcstat = s.mcstat := rfl
@[simp] theorem State.updSlice_mcpwr (s : State) (h : Word) (f : Slice → Slice) : (s.updSlice h f).mcpwr = s.mcpwr := rfl
@[simp] theorem State.updSlice_mctemp (s : State) (h : Word) (f : Slice → Slice) : (s.updSlice h f).mctemp = s.mctemp := rfl
@[simp] theorem State.updSlice_mcce (s : State) (h : Word) (f : Slice → Slice) : (s.updSlice h f).mcce = s.mcce := rfl
@[simp] theorem State.updSlice_mceth (s : State) (h : Word) (f : Slice → Slice) : (s.updSlice h f).mceth = s.mceth := rfl
@[simp] theorem State.updSlice_pwrHalved (s : State) (h : Word) (f : Slice → Slice) : (s.updSlice h f).pwrHalved = s.pwrHalved := rfl
@[simp] theorem State.updSlice_pwrZero (s : State) (h : Word) (f : Slice → Slice) : (s.updSlice h f).pwrZero = s.pwrZero := rfl
@[simp] theorem State.updSlice_localBase (s : State) (h : Word) (f : Slice → Slice) : (s.updSlice h f).localBase = s.localBase := rfl
@[simp] theorem State.updSlice_podBase (s : State) (h : Word) (f : Slice → Slice) : (s.updSlice h f).podBase = s.podBase := rfl
@[simp] theorem State.updSlice_tenantBase (s : State) (h : Word) (f : Slice → Slice) : (s.updSlice h f).tenantBase = s.tenantBase := rfl
@[simp] theorem State.updSlice_pasidTbl (s : State) (h : Word) (f : Slice → Slice) : (s.updSlice h f).pasidTbl = s.pasidTbl := rfl
@[simp] theorem State.updSlice_cctBase (s : State) (h : Word) (f : Slice → Slice) : (s.updSlice h f).cctBase = s.cctBase := rfl
@[simp] theorem State.updSlice_harts (s : State) (h : Word) (f : Slice → Slice) : (s.updSlice h f).harts = s.harts := rfl
@[simp] theorem State.updSlice_imsics (s : State) (h : Word) (f : Slice → Slice) : (s.updSlice h f).imsics = s.imsics := rfl
@[simp] theorem State.updSlice_hosted (s : State) (h : Word) (f : Slice → Slice) : (s.updSlice h f).hosted = s.hosted := rfl
@[simp] theorem State.updSlice_hostLink (s : State) (h : Word) (f : Slice → Slice) : (s.updSlice h f).hostLink = s.hostLink := rfl
@[simp] theorem State.updSlice_doorbells (s : State) (h : Word) (f : Slice → Slice) : (s.updSlice h f).doorbells = s.doorbells := rfl
@[simp] theorem State.updSlice_owners (s : State) (h : Word) (f : Slice → Slice) : (s.updSlice h f).owners = s.owners := rfl
@[simp] theorem State.updSlice_mem (s : State) (h : Word) (f : Slice → Slice) : (s.updSlice h f).mem = s.mem := rfl
@[simp] theorem State.updSlice_poison (s : State) (h : Word) (f : Slice → Slice) : (s.updSlice h f).poison = s.poison := rfl
@[simp] theorem State.updSlice_dirtyLines (s : State) (h : Word) (f : Slice → Slice) : (s.updSlice h f).dirtyLines = s.dirtyLines := rfl
@[simp] theorem State.updSlice_predictors (s : State) (h : Word) (f : Slice → Slice) : (s.updSlice h f).predictors = s.predictors := rfl
@[simp] theorem State.updSlice_homes (s : State) (h : Word) (f : Slice → Slice) : (s.updSlice h f).homes = s.homes := rfl
@[simp] theorem State.updSlice_reqs (s : State) (h : Word) (f : Slice → Slice) : (s.updSlice h f).reqs = s.reqs := rfl
@[simp] theorem State.updSlice_hostWrites (s : State) (h : Word) (f : Slice → Slice) : (s.updSlice h f).hostWrites = s.hostWrites := rfl
@[simp] theorem State.updSlice_dmaWct (s : State) (h : Word) (f : Slice → Slice) : (s.updSlice h f).dmaWct = s.dmaWct := rfl
@[simp] theorem State.updSlice_tlbs (s : State) (h : Word) (f : Slice → Slice) : (s.updSlice h f).tlbs = s.tlbs := rfl
@[simp] theorem State.updSlice_walks (s : State) (h : Word) (f : Slice → Slice) : (s.updSlice h f).walks = s.walks := rfl
@[simp] theorem State.updSlice_invals (s : State) (h : Word) (f : Slice → Slice) : (s.updSlice h f).invals = s.invals := rfl
@[simp] theorem State.updSlice_heldFaults (s : State) (h : Word) (f : Slice → Slice) : (s.updSlice h f).heldFaults = s.heldFaults := rfl
@[simp] theorem State.updSlice_rights (s : State) (h : Word) (f : Slice → Slice) : (s.updSlice h f).rights = s.rights := rfl
@[simp] theorem State.updSlice_l1 (s : State) (h : Word) (f : Slice → Slice) : (s.updSlice h f).l1 = s.l1 := rfl
@[simp] theorem State.updSlice_cores (s : State) (h : Word) (f : Slice → Slice) : (s.updSlice h f).cores = s.cores := rfl
@[simp] theorem State.updSlice_wgs (s : State) (h : Word) (f : Slice → Slice) : (s.updSlice h f).wgs = s.wgs := rfl
@[simp] theorem State.updSlice_copies (s : State) (h : Word) (f : Slice → Slice) : (s.updSlice h f).copies = s.copies := rfl
@[simp] theorem State.updSlice_ops (s : State) (h : Word) (f : Slice → Slice) : (s.updSlice h f).ops = s.ops := rfl
@[simp] theorem State.updSlice_launches (s : State) (h : Word) (f : Slice → Slice) : (s.updSlice h f).launches = s.launches := rfl
@[simp] theorem State.updSlice_tcbs (s : State) (h : Word) (f : Slice → Slice) : (s.updSlice h f).tcbs = s.tcbs := rfl
@[simp] theorem State.updSlice_graphs (s : State) (h : Word) (f : Slice → Slice) : (s.updSlice h f).graphs = s.graphs := rfl
@[simp] theorem State.updSlice_queues (s : State) (h : Word) (f : Slice → Slice) : (s.updSlice h f).queues = s.queues := rfl
@[simp] theorem State.updSlice_tenants (s : State) (h : Word) (f : Slice → Slice) : (s.updSlice h f).tenants = s.tenants := rfl
@[simp] theorem State.updSlice_events (s : State) (h : Word) (f : Slice → Slice) : (s.updSlice h f).events = s.events := rfl
@[simp] theorem State.updSlice_scalars (s : State) (h : Word) (f : Slice → Slice) : (s.updSlice h f).scalars = s.scalars := rfl
@[simp] theorem State.updSlice_channels (s : State) (h : Word) (f : Slice → Slice) : (s.updSlice h f).channels = s.channels := rfl
@[simp] theorem State.updSlice_heldMsgs (s : State) (h : Word) (f : Slice → Slice) : (s.updSlice h f).heldMsgs = s.heldMsgs := rfl
@[simp] theorem State.updSlice_checks (s : State) (h : Word) (f : Slice → Slice) : (s.updSlice h f).checks = s.checks := rfl
@[simp] theorem State.updSlice_activeB (s : State) (h : Word) (f : Slice → Slice) : (s.updSlice h f).activeB = s.activeB := rfl
@[simp] theorem State.updSlice_versionA (s : State) (h : Word) (f : Slice → Slice) : (s.updSlice h f).versionA = s.versionA := rfl
@[simp] theorem State.updSlice_versionB (s : State) (h : Word) (f : Slice → Slice) : (s.updSlice h f).versionB = s.versionB := rfl
@[simp] theorem State.updSlice_update (s : State) (h : Word) (f : Slice → Slice) : (s.updSlice h f).update = s.update := rfl
@[simp] theorem State.updSlice_log (s : State) (h : Word) (f : Slice → Slice) : (s.updSlice h f).log = s.log := rfl
@[simp] theorem State.updSlice_bank (s : State) (h : Word) (f : Slice → Slice) : (s.updSlice h f).bank = s.bank := rfl
@[simp] theorem State.updSlice_ports (s : State) (h : Word) (f : Slice → Slice) : (s.updSlice h f).ports = s.ports := rfl
@[simp] theorem State.updSlice_ethIdx (s : State) (h : Word) (f : Slice → Slice) : (s.updSlice h f).ethIdx = s.ethIdx := rfl
@[simp] theorem State.updSlice_podChips (s : State) (h : Word) (f : Slice → Slice) : (s.updSlice h f).podChips = s.podChips := rfl
@[simp] theorem State.updSlice_podMap (s : State) (h : Word) (f : Slice → Slice) : (s.updSlice h f).podMap = s.podMap := rfl
@[simp] theorem State.updSlice_alone (s : State) (h : Word) (f : Slice → Slice) : (s.updSlice h f).alone = s.alone := rfl
@[simp] theorem State.updSlice_podFormed (s : State) (h : Word) (f : Slice → Slice) : (s.updSlice h f).podFormed = s.podFormed := rfl
@[simp] theorem State.updSlice_slow (s : State) (h : Word) (f : Slice → Slice) : (s.updSlice h f).slow = s.slow := rfl
@[simp] theorem State.updSlice_treeSent (s : State) (h : Word) (f : Slice → Slice) : (s.updSlice h f).treeSent = s.treeSent := rfl
@[simp] theorem State.updSlice_treeSeen (s : State) (h : Word) (f : Slice → Slice) : (s.updSlice h f).treeSeen = s.treeSeen := rfl
@[simp] theorem State.updSlice_treeHeld (s : State) (h : Word) (f : Slice → Slice) : (s.updSlice h f).treeHeld = s.treeHeld := rfl
@[simp] theorem State.updSlice_flitSeen (s : State) (h : Word) (f : Slice → Slice) : (s.updSlice h f).flitSeen = s.flitSeen := rfl
@[simp] theorem State.updSlice_asks (s : State) (h : Word) (f : Slice → Slice) : (s.updSlice h f).asks = s.asks := rfl
@[simp] theorem State.updSlice_waiters (s : State) (h : Word) (f : Slice → Slice) : (s.updSlice h f).waiters = s.waiters := rfl
@[simp] theorem State.updSlice_owedUnits (s : State) (h : Word) (f : Slice → Slice) : (s.updSlice h f).owedUnits = s.owedUnits := rfl
@[simp] theorem State.updSlice_parked (s : State) (h : Word) (f : Slice → Slice) : (s.updSlice h f).parked = s.parked := rfl

/-! ### `State.setChannel`: every field but `channels` -/

@[simp] theorem State.setChannel_ptb (s : State) (i j : Nat) (m : List (List Byte)) : (s.setChannel i j m).ptb = s.ptb := rfl
@[simp] theorem State.setChannel_agenda (s : State) (i j : Nat) (m : List (List Byte)) : (s.setChannel i j m).agenda = s.agenda := rfl
@[simp] theorem State.setChannel_choiceNo (s : State) (i j : Nat) (m : List (List Byte)) : (s.setChannel i j m).choiceNo = s.choiceNo := rfl
@[simp] theorem State.setChannel_cur (s : State) (i j : Nat) (m : List (List Byte)) : (s.setChannel i j m).cur = s.cur := rfl
@[simp] theorem State.setChannel_mask (s : State) (i j : Nat) (m : List (List Byte)) : (s.setChannel i j m).mask = s.mask := rfl
@[simp] theorem State.setChannel_free (s : State) (i j : Nat) (m : List (List Byte)) : (s.setChannel i j m).free = s.free := rfl
@[simp] theorem State.setChannel_serialNo (s : State) (i j : Nat) (m : List (List Byte)) : (s.setChannel i j m).serialNo = s.serialNo := rfl
@[simp] theorem State.setChannel_out (s : State) (i j : Nat) (m : List (List Byte)) : (s.setChannel i j m).out = s.out := rfl
@[simp] theorem State.setChannel_present (s : State) (i j : Nat) (m : List (List Byte)) : (s.setChannel i j m).present = s.present := rfl
@[simp] theorem State.setChannel_chip (s : State) (i j : Nat) (m : List (List Byte)) : (s.setChannel i j m).chip = s.chip := rfl
@[simp] theorem State.setChannel_flash (s : State) (i j : Nat) (m : List (List Byte)) : (s.setChannel i j m).flash = s.flash := rfl
@[simp] theorem State.setChannel_puf (s : State) (i j : Nat) (m : List (List Byte)) : (s.setChannel i j m).puf = s.puf := rfl
@[simp] theorem State.setChannel_inReset (s : State) (i j : Nat) (m : List (List Byte)) : (s.setChannel i j m).inReset = s.inReset := rfl
@[simp] theorem State.setChannel_mcTime (s : State) (i j : Nat) (m : List (List Byte)) : (s.setChannel i j m).mcTime = s.mcTime := rfl
@[simp] theorem State.setChannel_railsAt (s : State) (i j : Nat) (m : List (List Byte)) : (s.setChannel i j m).railsAt = s.railsAt := rfl
@[simp] theorem State.setChannel_tripped (s : State) (i j : Nat) (m : List (List Byte)) : (s.setChannel i j m).tripped = s.tripped := rfl
@[simp] theorem State.setChannel_bootStep (s : State) (i j : Nat) (m : List (List Byte)) : (s.setChannel i j m).bootStep = s.bootStep := rfl
@[simp] theorem State.setChannel_bootRecord (s : State) (i j : Nat) (m : List (List Byte)) : (s.setChannel i j m).bootRecord = s.bootRecord := rfl
@[simp] theorem State.setChannel_mcstat (s : State) (i j : Nat) (m : List (List Byte)) : (s.setChannel i j m).mcstat = s.mcstat := rfl
@[simp] theorem State.setChannel_mcpwr (s : State) (i j : Nat) (m : List (List Byte)) : (s.setChannel i j m).mcpwr = s.mcpwr := rfl
@[simp] theorem State.setChannel_mctemp (s : State) (i j : Nat) (m : List (List Byte)) : (s.setChannel i j m).mctemp = s.mctemp := rfl
@[simp] theorem State.setChannel_mcce (s : State) (i j : Nat) (m : List (List Byte)) : (s.setChannel i j m).mcce = s.mcce := rfl
@[simp] theorem State.setChannel_mceth (s : State) (i j : Nat) (m : List (List Byte)) : (s.setChannel i j m).mceth = s.mceth := rfl
@[simp] theorem State.setChannel_pwrHalved (s : State) (i j : Nat) (m : List (List Byte)) : (s.setChannel i j m).pwrHalved = s.pwrHalved := rfl
@[simp] theorem State.setChannel_pwrZero (s : State) (i j : Nat) (m : List (List Byte)) : (s.setChannel i j m).pwrZero = s.pwrZero := rfl
@[simp] theorem State.setChannel_localBase (s : State) (i j : Nat) (m : List (List Byte)) : (s.setChannel i j m).localBase = s.localBase := rfl
@[simp] theorem State.setChannel_podBase (s : State) (i j : Nat) (m : List (List Byte)) : (s.setChannel i j m).podBase = s.podBase := rfl
@[simp] theorem State.setChannel_tenantBase (s : State) (i j : Nat) (m : List (List Byte)) : (s.setChannel i j m).tenantBase = s.tenantBase := rfl
@[simp] theorem State.setChannel_pasidTbl (s : State) (i j : Nat) (m : List (List Byte)) : (s.setChannel i j m).pasidTbl = s.pasidTbl := rfl
@[simp] theorem State.setChannel_cctBase (s : State) (i j : Nat) (m : List (List Byte)) : (s.setChannel i j m).cctBase = s.cctBase := rfl
@[simp] theorem State.setChannel_harts (s : State) (i j : Nat) (m : List (List Byte)) : (s.setChannel i j m).harts = s.harts := rfl
@[simp] theorem State.setChannel_imsics (s : State) (i j : Nat) (m : List (List Byte)) : (s.setChannel i j m).imsics = s.imsics := rfl
@[simp] theorem State.setChannel_hosted (s : State) (i j : Nat) (m : List (List Byte)) : (s.setChannel i j m).hosted = s.hosted := rfl
@[simp] theorem State.setChannel_hostLink (s : State) (i j : Nat) (m : List (List Byte)) : (s.setChannel i j m).hostLink = s.hostLink := rfl
@[simp] theorem State.setChannel_doorbells (s : State) (i j : Nat) (m : List (List Byte)) : (s.setChannel i j m).doorbells = s.doorbells := rfl
@[simp] theorem State.setChannel_owners (s : State) (i j : Nat) (m : List (List Byte)) : (s.setChannel i j m).owners = s.owners := rfl
@[simp] theorem State.setChannel_mem (s : State) (i j : Nat) (m : List (List Byte)) : (s.setChannel i j m).mem = s.mem := rfl
@[simp] theorem State.setChannel_poison (s : State) (i j : Nat) (m : List (List Byte)) : (s.setChannel i j m).poison = s.poison := rfl
@[simp] theorem State.setChannel_dirtyLines (s : State) (i j : Nat) (m : List (List Byte)) : (s.setChannel i j m).dirtyLines = s.dirtyLines := rfl
@[simp] theorem State.setChannel_predictors (s : State) (i j : Nat) (m : List (List Byte)) : (s.setChannel i j m).predictors = s.predictors := rfl
@[simp] theorem State.setChannel_homes (s : State) (i j : Nat) (m : List (List Byte)) : (s.setChannel i j m).homes = s.homes := rfl
@[simp] theorem State.setChannel_reqs (s : State) (i j : Nat) (m : List (List Byte)) : (s.setChannel i j m).reqs = s.reqs := rfl
@[simp] theorem State.setChannel_hostWrites (s : State) (i j : Nat) (m : List (List Byte)) : (s.setChannel i j m).hostWrites = s.hostWrites := rfl
@[simp] theorem State.setChannel_dmaWct (s : State) (i j : Nat) (m : List (List Byte)) : (s.setChannel i j m).dmaWct = s.dmaWct := rfl
@[simp] theorem State.setChannel_tlbs (s : State) (i j : Nat) (m : List (List Byte)) : (s.setChannel i j m).tlbs = s.tlbs := rfl
@[simp] theorem State.setChannel_walks (s : State) (i j : Nat) (m : List (List Byte)) : (s.setChannel i j m).walks = s.walks := rfl
@[simp] theorem State.setChannel_invals (s : State) (i j : Nat) (m : List (List Byte)) : (s.setChannel i j m).invals = s.invals := rfl
@[simp] theorem State.setChannel_heldFaults (s : State) (i j : Nat) (m : List (List Byte)) : (s.setChannel i j m).heldFaults = s.heldFaults := rfl
@[simp] theorem State.setChannel_rights (s : State) (i j : Nat) (m : List (List Byte)) : (s.setChannel i j m).rights = s.rights := rfl
@[simp] theorem State.setChannel_l1 (s : State) (i j : Nat) (m : List (List Byte)) : (s.setChannel i j m).l1 = s.l1 := rfl
@[simp] theorem State.setChannel_cores (s : State) (i j : Nat) (m : List (List Byte)) : (s.setChannel i j m).cores = s.cores := rfl
@[simp] theorem State.setChannel_wgs (s : State) (i j : Nat) (m : List (List Byte)) : (s.setChannel i j m).wgs = s.wgs := rfl
@[simp] theorem State.setChannel_copies (s : State) (i j : Nat) (m : List (List Byte)) : (s.setChannel i j m).copies = s.copies := rfl
@[simp] theorem State.setChannel_ops (s : State) (i j : Nat) (m : List (List Byte)) : (s.setChannel i j m).ops = s.ops := rfl
@[simp] theorem State.setChannel_launches (s : State) (i j : Nat) (m : List (List Byte)) : (s.setChannel i j m).launches = s.launches := rfl
@[simp] theorem State.setChannel_tcbs (s : State) (i j : Nat) (m : List (List Byte)) : (s.setChannel i j m).tcbs = s.tcbs := rfl
@[simp] theorem State.setChannel_graphs (s : State) (i j : Nat) (m : List (List Byte)) : (s.setChannel i j m).graphs = s.graphs := rfl
@[simp] theorem State.setChannel_slices (s : State) (i j : Nat) (m : List (List Byte)) : (s.setChannel i j m).slices = s.slices := rfl
@[simp] theorem State.setChannel_queues (s : State) (i j : Nat) (m : List (List Byte)) : (s.setChannel i j m).queues = s.queues := rfl
@[simp] theorem State.setChannel_tenants (s : State) (i j : Nat) (m : List (List Byte)) : (s.setChannel i j m).tenants = s.tenants := rfl
@[simp] theorem State.setChannel_events (s : State) (i j : Nat) (m : List (List Byte)) : (s.setChannel i j m).events = s.events := rfl
@[simp] theorem State.setChannel_scalars (s : State) (i j : Nat) (m : List (List Byte)) : (s.setChannel i j m).scalars = s.scalars := rfl
@[simp] theorem State.setChannel_heldMsgs (s : State) (i j : Nat) (m : List (List Byte)) : (s.setChannel i j m).heldMsgs = s.heldMsgs := rfl
@[simp] theorem State.setChannel_checks (s : State) (i j : Nat) (m : List (List Byte)) : (s.setChannel i j m).checks = s.checks := rfl
@[simp] theorem State.setChannel_activeB (s : State) (i j : Nat) (m : List (List Byte)) : (s.setChannel i j m).activeB = s.activeB := rfl
@[simp] theorem State.setChannel_versionA (s : State) (i j : Nat) (m : List (List Byte)) : (s.setChannel i j m).versionA = s.versionA := rfl
@[simp] theorem State.setChannel_versionB (s : State) (i j : Nat) (m : List (List Byte)) : (s.setChannel i j m).versionB = s.versionB := rfl
@[simp] theorem State.setChannel_update (s : State) (i j : Nat) (m : List (List Byte)) : (s.setChannel i j m).update = s.update := rfl
@[simp] theorem State.setChannel_log (s : State) (i j : Nat) (m : List (List Byte)) : (s.setChannel i j m).log = s.log := rfl
@[simp] theorem State.setChannel_bank (s : State) (i j : Nat) (m : List (List Byte)) : (s.setChannel i j m).bank = s.bank := rfl
@[simp] theorem State.setChannel_ports (s : State) (i j : Nat) (m : List (List Byte)) : (s.setChannel i j m).ports = s.ports := rfl
@[simp] theorem State.setChannel_ethIdx (s : State) (i j : Nat) (m : List (List Byte)) : (s.setChannel i j m).ethIdx = s.ethIdx := rfl
@[simp] theorem State.setChannel_podChips (s : State) (i j : Nat) (m : List (List Byte)) : (s.setChannel i j m).podChips = s.podChips := rfl
@[simp] theorem State.setChannel_podMap (s : State) (i j : Nat) (m : List (List Byte)) : (s.setChannel i j m).podMap = s.podMap := rfl
@[simp] theorem State.setChannel_alone (s : State) (i j : Nat) (m : List (List Byte)) : (s.setChannel i j m).alone = s.alone := rfl
@[simp] theorem State.setChannel_podFormed (s : State) (i j : Nat) (m : List (List Byte)) : (s.setChannel i j m).podFormed = s.podFormed := rfl
@[simp] theorem State.setChannel_slow (s : State) (i j : Nat) (m : List (List Byte)) : (s.setChannel i j m).slow = s.slow := rfl
@[simp] theorem State.setChannel_treeSent (s : State) (i j : Nat) (m : List (List Byte)) : (s.setChannel i j m).treeSent = s.treeSent := rfl
@[simp] theorem State.setChannel_treeSeen (s : State) (i j : Nat) (m : List (List Byte)) : (s.setChannel i j m).treeSeen = s.treeSeen := rfl
@[simp] theorem State.setChannel_treeHeld (s : State) (i j : Nat) (m : List (List Byte)) : (s.setChannel i j m).treeHeld = s.treeHeld := rfl
@[simp] theorem State.setChannel_flitSeen (s : State) (i j : Nat) (m : List (List Byte)) : (s.setChannel i j m).flitSeen = s.flitSeen := rfl
@[simp] theorem State.setChannel_asks (s : State) (i j : Nat) (m : List (List Byte)) : (s.setChannel i j m).asks = s.asks := rfl
@[simp] theorem State.setChannel_waiters (s : State) (i j : Nat) (m : List (List Byte)) : (s.setChannel i j m).waiters = s.waiters := rfl
@[simp] theorem State.setChannel_owedUnits (s : State) (i j : Nat) (m : List (List Byte)) : (s.setChannel i j m).owedUnits = s.owedUnits := rfl
@[simp] theorem State.setChannel_parked (s : State) (i j : Nat) (m : List (List Byte)) : (s.setChannel i j m).parked = s.parked := rfl

/-! ### `State.updWg`: every field but `wgs` -/

@[simp] theorem State.updWg_ptb (s : State) (i : Nat) (f : Workgroup → Workgroup) : (s.updWg i f).ptb = s.ptb := rfl
@[simp] theorem State.updWg_agenda (s : State) (i : Nat) (f : Workgroup → Workgroup) : (s.updWg i f).agenda = s.agenda := rfl
@[simp] theorem State.updWg_choiceNo (s : State) (i : Nat) (f : Workgroup → Workgroup) : (s.updWg i f).choiceNo = s.choiceNo := rfl
@[simp] theorem State.updWg_cur (s : State) (i : Nat) (f : Workgroup → Workgroup) : (s.updWg i f).cur = s.cur := rfl
@[simp] theorem State.updWg_mask (s : State) (i : Nat) (f : Workgroup → Workgroup) : (s.updWg i f).mask = s.mask := rfl
@[simp] theorem State.updWg_free (s : State) (i : Nat) (f : Workgroup → Workgroup) : (s.updWg i f).free = s.free := rfl
@[simp] theorem State.updWg_serialNo (s : State) (i : Nat) (f : Workgroup → Workgroup) : (s.updWg i f).serialNo = s.serialNo := rfl
@[simp] theorem State.updWg_out (s : State) (i : Nat) (f : Workgroup → Workgroup) : (s.updWg i f).out = s.out := rfl
@[simp] theorem State.updWg_present (s : State) (i : Nat) (f : Workgroup → Workgroup) : (s.updWg i f).present = s.present := rfl
@[simp] theorem State.updWg_chip (s : State) (i : Nat) (f : Workgroup → Workgroup) : (s.updWg i f).chip = s.chip := rfl
@[simp] theorem State.updWg_flash (s : State) (i : Nat) (f : Workgroup → Workgroup) : (s.updWg i f).flash = s.flash := rfl
@[simp] theorem State.updWg_puf (s : State) (i : Nat) (f : Workgroup → Workgroup) : (s.updWg i f).puf = s.puf := rfl
@[simp] theorem State.updWg_inReset (s : State) (i : Nat) (f : Workgroup → Workgroup) : (s.updWg i f).inReset = s.inReset := rfl
@[simp] theorem State.updWg_mcTime (s : State) (i : Nat) (f : Workgroup → Workgroup) : (s.updWg i f).mcTime = s.mcTime := rfl
@[simp] theorem State.updWg_railsAt (s : State) (i : Nat) (f : Workgroup → Workgroup) : (s.updWg i f).railsAt = s.railsAt := rfl
@[simp] theorem State.updWg_tripped (s : State) (i : Nat) (f : Workgroup → Workgroup) : (s.updWg i f).tripped = s.tripped := rfl
@[simp] theorem State.updWg_bootStep (s : State) (i : Nat) (f : Workgroup → Workgroup) : (s.updWg i f).bootStep = s.bootStep := rfl
@[simp] theorem State.updWg_bootRecord (s : State) (i : Nat) (f : Workgroup → Workgroup) : (s.updWg i f).bootRecord = s.bootRecord := rfl
@[simp] theorem State.updWg_mcstat (s : State) (i : Nat) (f : Workgroup → Workgroup) : (s.updWg i f).mcstat = s.mcstat := rfl
@[simp] theorem State.updWg_mcpwr (s : State) (i : Nat) (f : Workgroup → Workgroup) : (s.updWg i f).mcpwr = s.mcpwr := rfl
@[simp] theorem State.updWg_mctemp (s : State) (i : Nat) (f : Workgroup → Workgroup) : (s.updWg i f).mctemp = s.mctemp := rfl
@[simp] theorem State.updWg_mcce (s : State) (i : Nat) (f : Workgroup → Workgroup) : (s.updWg i f).mcce = s.mcce := rfl
@[simp] theorem State.updWg_mceth (s : State) (i : Nat) (f : Workgroup → Workgroup) : (s.updWg i f).mceth = s.mceth := rfl
@[simp] theorem State.updWg_pwrHalved (s : State) (i : Nat) (f : Workgroup → Workgroup) : (s.updWg i f).pwrHalved = s.pwrHalved := rfl
@[simp] theorem State.updWg_pwrZero (s : State) (i : Nat) (f : Workgroup → Workgroup) : (s.updWg i f).pwrZero = s.pwrZero := rfl
@[simp] theorem State.updWg_localBase (s : State) (i : Nat) (f : Workgroup → Workgroup) : (s.updWg i f).localBase = s.localBase := rfl
@[simp] theorem State.updWg_podBase (s : State) (i : Nat) (f : Workgroup → Workgroup) : (s.updWg i f).podBase = s.podBase := rfl
@[simp] theorem State.updWg_tenantBase (s : State) (i : Nat) (f : Workgroup → Workgroup) : (s.updWg i f).tenantBase = s.tenantBase := rfl
@[simp] theorem State.updWg_pasidTbl (s : State) (i : Nat) (f : Workgroup → Workgroup) : (s.updWg i f).pasidTbl = s.pasidTbl := rfl
@[simp] theorem State.updWg_cctBase (s : State) (i : Nat) (f : Workgroup → Workgroup) : (s.updWg i f).cctBase = s.cctBase := rfl
@[simp] theorem State.updWg_harts (s : State) (i : Nat) (f : Workgroup → Workgroup) : (s.updWg i f).harts = s.harts := rfl
@[simp] theorem State.updWg_imsics (s : State) (i : Nat) (f : Workgroup → Workgroup) : (s.updWg i f).imsics = s.imsics := rfl
@[simp] theorem State.updWg_hosted (s : State) (i : Nat) (f : Workgroup → Workgroup) : (s.updWg i f).hosted = s.hosted := rfl
@[simp] theorem State.updWg_hostLink (s : State) (i : Nat) (f : Workgroup → Workgroup) : (s.updWg i f).hostLink = s.hostLink := rfl
@[simp] theorem State.updWg_doorbells (s : State) (i : Nat) (f : Workgroup → Workgroup) : (s.updWg i f).doorbells = s.doorbells := rfl
@[simp] theorem State.updWg_owners (s : State) (i : Nat) (f : Workgroup → Workgroup) : (s.updWg i f).owners = s.owners := rfl
@[simp] theorem State.updWg_mem (s : State) (i : Nat) (f : Workgroup → Workgroup) : (s.updWg i f).mem = s.mem := rfl
@[simp] theorem State.updWg_poison (s : State) (i : Nat) (f : Workgroup → Workgroup) : (s.updWg i f).poison = s.poison := rfl
@[simp] theorem State.updWg_dirtyLines (s : State) (i : Nat) (f : Workgroup → Workgroup) : (s.updWg i f).dirtyLines = s.dirtyLines := rfl
@[simp] theorem State.updWg_predictors (s : State) (i : Nat) (f : Workgroup → Workgroup) : (s.updWg i f).predictors = s.predictors := rfl
@[simp] theorem State.updWg_homes (s : State) (i : Nat) (f : Workgroup → Workgroup) : (s.updWg i f).homes = s.homes := rfl
@[simp] theorem State.updWg_reqs (s : State) (i : Nat) (f : Workgroup → Workgroup) : (s.updWg i f).reqs = s.reqs := rfl
@[simp] theorem State.updWg_hostWrites (s : State) (i : Nat) (f : Workgroup → Workgroup) : (s.updWg i f).hostWrites = s.hostWrites := rfl
@[simp] theorem State.updWg_dmaWct (s : State) (i : Nat) (f : Workgroup → Workgroup) : (s.updWg i f).dmaWct = s.dmaWct := rfl
@[simp] theorem State.updWg_tlbs (s : State) (i : Nat) (f : Workgroup → Workgroup) : (s.updWg i f).tlbs = s.tlbs := rfl
@[simp] theorem State.updWg_walks (s : State) (i : Nat) (f : Workgroup → Workgroup) : (s.updWg i f).walks = s.walks := rfl
@[simp] theorem State.updWg_invals (s : State) (i : Nat) (f : Workgroup → Workgroup) : (s.updWg i f).invals = s.invals := rfl
@[simp] theorem State.updWg_heldFaults (s : State) (i : Nat) (f : Workgroup → Workgroup) : (s.updWg i f).heldFaults = s.heldFaults := rfl
@[simp] theorem State.updWg_rights (s : State) (i : Nat) (f : Workgroup → Workgroup) : (s.updWg i f).rights = s.rights := rfl
@[simp] theorem State.updWg_l1 (s : State) (i : Nat) (f : Workgroup → Workgroup) : (s.updWg i f).l1 = s.l1 := rfl
@[simp] theorem State.updWg_cores (s : State) (i : Nat) (f : Workgroup → Workgroup) : (s.updWg i f).cores = s.cores := rfl
@[simp] theorem State.updWg_copies (s : State) (i : Nat) (f : Workgroup → Workgroup) : (s.updWg i f).copies = s.copies := rfl
@[simp] theorem State.updWg_ops (s : State) (i : Nat) (f : Workgroup → Workgroup) : (s.updWg i f).ops = s.ops := rfl
@[simp] theorem State.updWg_launches (s : State) (i : Nat) (f : Workgroup → Workgroup) : (s.updWg i f).launches = s.launches := rfl
@[simp] theorem State.updWg_tcbs (s : State) (i : Nat) (f : Workgroup → Workgroup) : (s.updWg i f).tcbs = s.tcbs := rfl
@[simp] theorem State.updWg_graphs (s : State) (i : Nat) (f : Workgroup → Workgroup) : (s.updWg i f).graphs = s.graphs := rfl
@[simp] theorem State.updWg_slices (s : State) (i : Nat) (f : Workgroup → Workgroup) : (s.updWg i f).slices = s.slices := rfl
@[simp] theorem State.updWg_queues (s : State) (i : Nat) (f : Workgroup → Workgroup) : (s.updWg i f).queues = s.queues := rfl
@[simp] theorem State.updWg_tenants (s : State) (i : Nat) (f : Workgroup → Workgroup) : (s.updWg i f).tenants = s.tenants := rfl
@[simp] theorem State.updWg_events (s : State) (i : Nat) (f : Workgroup → Workgroup) : (s.updWg i f).events = s.events := rfl
@[simp] theorem State.updWg_scalars (s : State) (i : Nat) (f : Workgroup → Workgroup) : (s.updWg i f).scalars = s.scalars := rfl
@[simp] theorem State.updWg_channels (s : State) (i : Nat) (f : Workgroup → Workgroup) : (s.updWg i f).channels = s.channels := rfl
@[simp] theorem State.updWg_heldMsgs (s : State) (i : Nat) (f : Workgroup → Workgroup) : (s.updWg i f).heldMsgs = s.heldMsgs := rfl
@[simp] theorem State.updWg_checks (s : State) (i : Nat) (f : Workgroup → Workgroup) : (s.updWg i f).checks = s.checks := rfl
@[simp] theorem State.updWg_activeB (s : State) (i : Nat) (f : Workgroup → Workgroup) : (s.updWg i f).activeB = s.activeB := rfl
@[simp] theorem State.updWg_versionA (s : State) (i : Nat) (f : Workgroup → Workgroup) : (s.updWg i f).versionA = s.versionA := rfl
@[simp] theorem State.updWg_versionB (s : State) (i : Nat) (f : Workgroup → Workgroup) : (s.updWg i f).versionB = s.versionB := rfl
@[simp] theorem State.updWg_update (s : State) (i : Nat) (f : Workgroup → Workgroup) : (s.updWg i f).update = s.update := rfl
@[simp] theorem State.updWg_log (s : State) (i : Nat) (f : Workgroup → Workgroup) : (s.updWg i f).log = s.log := rfl
@[simp] theorem State.updWg_bank (s : State) (i : Nat) (f : Workgroup → Workgroup) : (s.updWg i f).bank = s.bank := rfl
@[simp] theorem State.updWg_ports (s : State) (i : Nat) (f : Workgroup → Workgroup) : (s.updWg i f).ports = s.ports := rfl
@[simp] theorem State.updWg_ethIdx (s : State) (i : Nat) (f : Workgroup → Workgroup) : (s.updWg i f).ethIdx = s.ethIdx := rfl
@[simp] theorem State.updWg_podChips (s : State) (i : Nat) (f : Workgroup → Workgroup) : (s.updWg i f).podChips = s.podChips := rfl
@[simp] theorem State.updWg_podMap (s : State) (i : Nat) (f : Workgroup → Workgroup) : (s.updWg i f).podMap = s.podMap := rfl
@[simp] theorem State.updWg_alone (s : State) (i : Nat) (f : Workgroup → Workgroup) : (s.updWg i f).alone = s.alone := rfl
@[simp] theorem State.updWg_podFormed (s : State) (i : Nat) (f : Workgroup → Workgroup) : (s.updWg i f).podFormed = s.podFormed := rfl
@[simp] theorem State.updWg_slow (s : State) (i : Nat) (f : Workgroup → Workgroup) : (s.updWg i f).slow = s.slow := rfl
@[simp] theorem State.updWg_treeSent (s : State) (i : Nat) (f : Workgroup → Workgroup) : (s.updWg i f).treeSent = s.treeSent := rfl
@[simp] theorem State.updWg_treeSeen (s : State) (i : Nat) (f : Workgroup → Workgroup) : (s.updWg i f).treeSeen = s.treeSeen := rfl
@[simp] theorem State.updWg_treeHeld (s : State) (i : Nat) (f : Workgroup → Workgroup) : (s.updWg i f).treeHeld = s.treeHeld := rfl
@[simp] theorem State.updWg_flitSeen (s : State) (i : Nat) (f : Workgroup → Workgroup) : (s.updWg i f).flitSeen = s.flitSeen := rfl
@[simp] theorem State.updWg_asks (s : State) (i : Nat) (f : Workgroup → Workgroup) : (s.updWg i f).asks = s.asks := rfl
@[simp] theorem State.updWg_waiters (s : State) (i : Nat) (f : Workgroup → Workgroup) : (s.updWg i f).waiters = s.waiters := rfl
@[simp] theorem State.updWg_owedUnits (s : State) (i : Nat) (f : Workgroup → Workgroup) : (s.updWg i f).owedUnits = s.owedUnits := rfl
@[simp] theorem State.updWg_parked (s : State) (i : Nat) (f : Workgroup → Workgroup) : (s.updWg i f).parked = s.parked := rfl

/-! ### `State.updTcb`: every field but `tcbs` -/

@[simp] theorem State.updTcb_ptb (s : State) (i : Nat) (f : Tcb → Tcb) : (s.updTcb i f).ptb = s.ptb := rfl
@[simp] theorem State.updTcb_agenda (s : State) (i : Nat) (f : Tcb → Tcb) : (s.updTcb i f).agenda = s.agenda := rfl
@[simp] theorem State.updTcb_choiceNo (s : State) (i : Nat) (f : Tcb → Tcb) : (s.updTcb i f).choiceNo = s.choiceNo := rfl
@[simp] theorem State.updTcb_cur (s : State) (i : Nat) (f : Tcb → Tcb) : (s.updTcb i f).cur = s.cur := rfl
@[simp] theorem State.updTcb_mask (s : State) (i : Nat) (f : Tcb → Tcb) : (s.updTcb i f).mask = s.mask := rfl
@[simp] theorem State.updTcb_free (s : State) (i : Nat) (f : Tcb → Tcb) : (s.updTcb i f).free = s.free := rfl
@[simp] theorem State.updTcb_serialNo (s : State) (i : Nat) (f : Tcb → Tcb) : (s.updTcb i f).serialNo = s.serialNo := rfl
@[simp] theorem State.updTcb_out (s : State) (i : Nat) (f : Tcb → Tcb) : (s.updTcb i f).out = s.out := rfl
@[simp] theorem State.updTcb_present (s : State) (i : Nat) (f : Tcb → Tcb) : (s.updTcb i f).present = s.present := rfl
@[simp] theorem State.updTcb_chip (s : State) (i : Nat) (f : Tcb → Tcb) : (s.updTcb i f).chip = s.chip := rfl
@[simp] theorem State.updTcb_flash (s : State) (i : Nat) (f : Tcb → Tcb) : (s.updTcb i f).flash = s.flash := rfl
@[simp] theorem State.updTcb_puf (s : State) (i : Nat) (f : Tcb → Tcb) : (s.updTcb i f).puf = s.puf := rfl
@[simp] theorem State.updTcb_inReset (s : State) (i : Nat) (f : Tcb → Tcb) : (s.updTcb i f).inReset = s.inReset := rfl
@[simp] theorem State.updTcb_mcTime (s : State) (i : Nat) (f : Tcb → Tcb) : (s.updTcb i f).mcTime = s.mcTime := rfl
@[simp] theorem State.updTcb_railsAt (s : State) (i : Nat) (f : Tcb → Tcb) : (s.updTcb i f).railsAt = s.railsAt := rfl
@[simp] theorem State.updTcb_tripped (s : State) (i : Nat) (f : Tcb → Tcb) : (s.updTcb i f).tripped = s.tripped := rfl
@[simp] theorem State.updTcb_bootStep (s : State) (i : Nat) (f : Tcb → Tcb) : (s.updTcb i f).bootStep = s.bootStep := rfl
@[simp] theorem State.updTcb_bootRecord (s : State) (i : Nat) (f : Tcb → Tcb) : (s.updTcb i f).bootRecord = s.bootRecord := rfl
@[simp] theorem State.updTcb_mcstat (s : State) (i : Nat) (f : Tcb → Tcb) : (s.updTcb i f).mcstat = s.mcstat := rfl
@[simp] theorem State.updTcb_mcpwr (s : State) (i : Nat) (f : Tcb → Tcb) : (s.updTcb i f).mcpwr = s.mcpwr := rfl
@[simp] theorem State.updTcb_mctemp (s : State) (i : Nat) (f : Tcb → Tcb) : (s.updTcb i f).mctemp = s.mctemp := rfl
@[simp] theorem State.updTcb_mcce (s : State) (i : Nat) (f : Tcb → Tcb) : (s.updTcb i f).mcce = s.mcce := rfl
@[simp] theorem State.updTcb_mceth (s : State) (i : Nat) (f : Tcb → Tcb) : (s.updTcb i f).mceth = s.mceth := rfl
@[simp] theorem State.updTcb_pwrHalved (s : State) (i : Nat) (f : Tcb → Tcb) : (s.updTcb i f).pwrHalved = s.pwrHalved := rfl
@[simp] theorem State.updTcb_pwrZero (s : State) (i : Nat) (f : Tcb → Tcb) : (s.updTcb i f).pwrZero = s.pwrZero := rfl
@[simp] theorem State.updTcb_localBase (s : State) (i : Nat) (f : Tcb → Tcb) : (s.updTcb i f).localBase = s.localBase := rfl
@[simp] theorem State.updTcb_podBase (s : State) (i : Nat) (f : Tcb → Tcb) : (s.updTcb i f).podBase = s.podBase := rfl
@[simp] theorem State.updTcb_tenantBase (s : State) (i : Nat) (f : Tcb → Tcb) : (s.updTcb i f).tenantBase = s.tenantBase := rfl
@[simp] theorem State.updTcb_pasidTbl (s : State) (i : Nat) (f : Tcb → Tcb) : (s.updTcb i f).pasidTbl = s.pasidTbl := rfl
@[simp] theorem State.updTcb_cctBase (s : State) (i : Nat) (f : Tcb → Tcb) : (s.updTcb i f).cctBase = s.cctBase := rfl
@[simp] theorem State.updTcb_harts (s : State) (i : Nat) (f : Tcb → Tcb) : (s.updTcb i f).harts = s.harts := rfl
@[simp] theorem State.updTcb_imsics (s : State) (i : Nat) (f : Tcb → Tcb) : (s.updTcb i f).imsics = s.imsics := rfl
@[simp] theorem State.updTcb_hosted (s : State) (i : Nat) (f : Tcb → Tcb) : (s.updTcb i f).hosted = s.hosted := rfl
@[simp] theorem State.updTcb_hostLink (s : State) (i : Nat) (f : Tcb → Tcb) : (s.updTcb i f).hostLink = s.hostLink := rfl
@[simp] theorem State.updTcb_doorbells (s : State) (i : Nat) (f : Tcb → Tcb) : (s.updTcb i f).doorbells = s.doorbells := rfl
@[simp] theorem State.updTcb_owners (s : State) (i : Nat) (f : Tcb → Tcb) : (s.updTcb i f).owners = s.owners := rfl
@[simp] theorem State.updTcb_mem (s : State) (i : Nat) (f : Tcb → Tcb) : (s.updTcb i f).mem = s.mem := rfl
@[simp] theorem State.updTcb_poison (s : State) (i : Nat) (f : Tcb → Tcb) : (s.updTcb i f).poison = s.poison := rfl
@[simp] theorem State.updTcb_dirtyLines (s : State) (i : Nat) (f : Tcb → Tcb) : (s.updTcb i f).dirtyLines = s.dirtyLines := rfl
@[simp] theorem State.updTcb_predictors (s : State) (i : Nat) (f : Tcb → Tcb) : (s.updTcb i f).predictors = s.predictors := rfl
@[simp] theorem State.updTcb_homes (s : State) (i : Nat) (f : Tcb → Tcb) : (s.updTcb i f).homes = s.homes := rfl
@[simp] theorem State.updTcb_reqs (s : State) (i : Nat) (f : Tcb → Tcb) : (s.updTcb i f).reqs = s.reqs := rfl
@[simp] theorem State.updTcb_hostWrites (s : State) (i : Nat) (f : Tcb → Tcb) : (s.updTcb i f).hostWrites = s.hostWrites := rfl
@[simp] theorem State.updTcb_dmaWct (s : State) (i : Nat) (f : Tcb → Tcb) : (s.updTcb i f).dmaWct = s.dmaWct := rfl
@[simp] theorem State.updTcb_tlbs (s : State) (i : Nat) (f : Tcb → Tcb) : (s.updTcb i f).tlbs = s.tlbs := rfl
@[simp] theorem State.updTcb_walks (s : State) (i : Nat) (f : Tcb → Tcb) : (s.updTcb i f).walks = s.walks := rfl
@[simp] theorem State.updTcb_invals (s : State) (i : Nat) (f : Tcb → Tcb) : (s.updTcb i f).invals = s.invals := rfl
@[simp] theorem State.updTcb_heldFaults (s : State) (i : Nat) (f : Tcb → Tcb) : (s.updTcb i f).heldFaults = s.heldFaults := rfl
@[simp] theorem State.updTcb_rights (s : State) (i : Nat) (f : Tcb → Tcb) : (s.updTcb i f).rights = s.rights := rfl
@[simp] theorem State.updTcb_l1 (s : State) (i : Nat) (f : Tcb → Tcb) : (s.updTcb i f).l1 = s.l1 := rfl
@[simp] theorem State.updTcb_cores (s : State) (i : Nat) (f : Tcb → Tcb) : (s.updTcb i f).cores = s.cores := rfl
@[simp] theorem State.updTcb_wgs (s : State) (i : Nat) (f : Tcb → Tcb) : (s.updTcb i f).wgs = s.wgs := rfl
@[simp] theorem State.updTcb_copies (s : State) (i : Nat) (f : Tcb → Tcb) : (s.updTcb i f).copies = s.copies := rfl
@[simp] theorem State.updTcb_ops (s : State) (i : Nat) (f : Tcb → Tcb) : (s.updTcb i f).ops = s.ops := rfl
@[simp] theorem State.updTcb_launches (s : State) (i : Nat) (f : Tcb → Tcb) : (s.updTcb i f).launches = s.launches := rfl
@[simp] theorem State.updTcb_graphs (s : State) (i : Nat) (f : Tcb → Tcb) : (s.updTcb i f).graphs = s.graphs := rfl
@[simp] theorem State.updTcb_slices (s : State) (i : Nat) (f : Tcb → Tcb) : (s.updTcb i f).slices = s.slices := rfl
@[simp] theorem State.updTcb_queues (s : State) (i : Nat) (f : Tcb → Tcb) : (s.updTcb i f).queues = s.queues := rfl
@[simp] theorem State.updTcb_tenants (s : State) (i : Nat) (f : Tcb → Tcb) : (s.updTcb i f).tenants = s.tenants := rfl
@[simp] theorem State.updTcb_events (s : State) (i : Nat) (f : Tcb → Tcb) : (s.updTcb i f).events = s.events := rfl
@[simp] theorem State.updTcb_scalars (s : State) (i : Nat) (f : Tcb → Tcb) : (s.updTcb i f).scalars = s.scalars := rfl
@[simp] theorem State.updTcb_channels (s : State) (i : Nat) (f : Tcb → Tcb) : (s.updTcb i f).channels = s.channels := rfl
@[simp] theorem State.updTcb_heldMsgs (s : State) (i : Nat) (f : Tcb → Tcb) : (s.updTcb i f).heldMsgs = s.heldMsgs := rfl
@[simp] theorem State.updTcb_checks (s : State) (i : Nat) (f : Tcb → Tcb) : (s.updTcb i f).checks = s.checks := rfl
@[simp] theorem State.updTcb_activeB (s : State) (i : Nat) (f : Tcb → Tcb) : (s.updTcb i f).activeB = s.activeB := rfl
@[simp] theorem State.updTcb_versionA (s : State) (i : Nat) (f : Tcb → Tcb) : (s.updTcb i f).versionA = s.versionA := rfl
@[simp] theorem State.updTcb_versionB (s : State) (i : Nat) (f : Tcb → Tcb) : (s.updTcb i f).versionB = s.versionB := rfl
@[simp] theorem State.updTcb_update (s : State) (i : Nat) (f : Tcb → Tcb) : (s.updTcb i f).update = s.update := rfl
@[simp] theorem State.updTcb_log (s : State) (i : Nat) (f : Tcb → Tcb) : (s.updTcb i f).log = s.log := rfl
@[simp] theorem State.updTcb_bank (s : State) (i : Nat) (f : Tcb → Tcb) : (s.updTcb i f).bank = s.bank := rfl
@[simp] theorem State.updTcb_ports (s : State) (i : Nat) (f : Tcb → Tcb) : (s.updTcb i f).ports = s.ports := rfl
@[simp] theorem State.updTcb_ethIdx (s : State) (i : Nat) (f : Tcb → Tcb) : (s.updTcb i f).ethIdx = s.ethIdx := rfl
@[simp] theorem State.updTcb_podChips (s : State) (i : Nat) (f : Tcb → Tcb) : (s.updTcb i f).podChips = s.podChips := rfl
@[simp] theorem State.updTcb_podMap (s : State) (i : Nat) (f : Tcb → Tcb) : (s.updTcb i f).podMap = s.podMap := rfl
@[simp] theorem State.updTcb_alone (s : State) (i : Nat) (f : Tcb → Tcb) : (s.updTcb i f).alone = s.alone := rfl
@[simp] theorem State.updTcb_podFormed (s : State) (i : Nat) (f : Tcb → Tcb) : (s.updTcb i f).podFormed = s.podFormed := rfl
@[simp] theorem State.updTcb_slow (s : State) (i : Nat) (f : Tcb → Tcb) : (s.updTcb i f).slow = s.slow := rfl
@[simp] theorem State.updTcb_treeSent (s : State) (i : Nat) (f : Tcb → Tcb) : (s.updTcb i f).treeSent = s.treeSent := rfl
@[simp] theorem State.updTcb_treeSeen (s : State) (i : Nat) (f : Tcb → Tcb) : (s.updTcb i f).treeSeen = s.treeSeen := rfl
@[simp] theorem State.updTcb_treeHeld (s : State) (i : Nat) (f : Tcb → Tcb) : (s.updTcb i f).treeHeld = s.treeHeld := rfl
@[simp] theorem State.updTcb_flitSeen (s : State) (i : Nat) (f : Tcb → Tcb) : (s.updTcb i f).flitSeen = s.flitSeen := rfl
@[simp] theorem State.updTcb_asks (s : State) (i : Nat) (f : Tcb → Tcb) : (s.updTcb i f).asks = s.asks := rfl
@[simp] theorem State.updTcb_waiters (s : State) (i : Nat) (f : Tcb → Tcb) : (s.updTcb i f).waiters = s.waiters := rfl
@[simp] theorem State.updTcb_owedUnits (s : State) (i : Nat) (f : Tcb → Tcb) : (s.updTcb i f).owedUnits = s.owedUnits := rfl
@[simp] theorem State.updTcb_parked (s : State) (i : Nat) (f : Tcb → Tcb) : (s.updTcb i f).parked = s.parked := rfl

/-! ### `State.updQueue`: every field but `queues` -/

@[simp] theorem State.updQueue_ptb (s : State) (t q : Nat) (f : Queue → Queue) : (s.updQueue t q f).ptb = s.ptb := rfl
@[simp] theorem State.updQueue_agenda (s : State) (t q : Nat) (f : Queue → Queue) : (s.updQueue t q f).agenda = s.agenda := rfl
@[simp] theorem State.updQueue_choiceNo (s : State) (t q : Nat) (f : Queue → Queue) : (s.updQueue t q f).choiceNo = s.choiceNo := rfl
@[simp] theorem State.updQueue_cur (s : State) (t q : Nat) (f : Queue → Queue) : (s.updQueue t q f).cur = s.cur := rfl
@[simp] theorem State.updQueue_mask (s : State) (t q : Nat) (f : Queue → Queue) : (s.updQueue t q f).mask = s.mask := rfl
@[simp] theorem State.updQueue_free (s : State) (t q : Nat) (f : Queue → Queue) : (s.updQueue t q f).free = s.free := rfl
@[simp] theorem State.updQueue_serialNo (s : State) (t q : Nat) (f : Queue → Queue) : (s.updQueue t q f).serialNo = s.serialNo := rfl
@[simp] theorem State.updQueue_out (s : State) (t q : Nat) (f : Queue → Queue) : (s.updQueue t q f).out = s.out := rfl
@[simp] theorem State.updQueue_present (s : State) (t q : Nat) (f : Queue → Queue) : (s.updQueue t q f).present = s.present := rfl
@[simp] theorem State.updQueue_chip (s : State) (t q : Nat) (f : Queue → Queue) : (s.updQueue t q f).chip = s.chip := rfl
@[simp] theorem State.updQueue_flash (s : State) (t q : Nat) (f : Queue → Queue) : (s.updQueue t q f).flash = s.flash := rfl
@[simp] theorem State.updQueue_puf (s : State) (t q : Nat) (f : Queue → Queue) : (s.updQueue t q f).puf = s.puf := rfl
@[simp] theorem State.updQueue_inReset (s : State) (t q : Nat) (f : Queue → Queue) : (s.updQueue t q f).inReset = s.inReset := rfl
@[simp] theorem State.updQueue_mcTime (s : State) (t q : Nat) (f : Queue → Queue) : (s.updQueue t q f).mcTime = s.mcTime := rfl
@[simp] theorem State.updQueue_railsAt (s : State) (t q : Nat) (f : Queue → Queue) : (s.updQueue t q f).railsAt = s.railsAt := rfl
@[simp] theorem State.updQueue_tripped (s : State) (t q : Nat) (f : Queue → Queue) : (s.updQueue t q f).tripped = s.tripped := rfl
@[simp] theorem State.updQueue_bootStep (s : State) (t q : Nat) (f : Queue → Queue) : (s.updQueue t q f).bootStep = s.bootStep := rfl
@[simp] theorem State.updQueue_bootRecord (s : State) (t q : Nat) (f : Queue → Queue) : (s.updQueue t q f).bootRecord = s.bootRecord := rfl
@[simp] theorem State.updQueue_mcstat (s : State) (t q : Nat) (f : Queue → Queue) : (s.updQueue t q f).mcstat = s.mcstat := rfl
@[simp] theorem State.updQueue_mcpwr (s : State) (t q : Nat) (f : Queue → Queue) : (s.updQueue t q f).mcpwr = s.mcpwr := rfl
@[simp] theorem State.updQueue_mctemp (s : State) (t q : Nat) (f : Queue → Queue) : (s.updQueue t q f).mctemp = s.mctemp := rfl
@[simp] theorem State.updQueue_mcce (s : State) (t q : Nat) (f : Queue → Queue) : (s.updQueue t q f).mcce = s.mcce := rfl
@[simp] theorem State.updQueue_mceth (s : State) (t q : Nat) (f : Queue → Queue) : (s.updQueue t q f).mceth = s.mceth := rfl
@[simp] theorem State.updQueue_pwrHalved (s : State) (t q : Nat) (f : Queue → Queue) : (s.updQueue t q f).pwrHalved = s.pwrHalved := rfl
@[simp] theorem State.updQueue_pwrZero (s : State) (t q : Nat) (f : Queue → Queue) : (s.updQueue t q f).pwrZero = s.pwrZero := rfl
@[simp] theorem State.updQueue_localBase (s : State) (t q : Nat) (f : Queue → Queue) : (s.updQueue t q f).localBase = s.localBase := rfl
@[simp] theorem State.updQueue_podBase (s : State) (t q : Nat) (f : Queue → Queue) : (s.updQueue t q f).podBase = s.podBase := rfl
@[simp] theorem State.updQueue_tenantBase (s : State) (t q : Nat) (f : Queue → Queue) : (s.updQueue t q f).tenantBase = s.tenantBase := rfl
@[simp] theorem State.updQueue_pasidTbl (s : State) (t q : Nat) (f : Queue → Queue) : (s.updQueue t q f).pasidTbl = s.pasidTbl := rfl
@[simp] theorem State.updQueue_cctBase (s : State) (t q : Nat) (f : Queue → Queue) : (s.updQueue t q f).cctBase = s.cctBase := rfl
@[simp] theorem State.updQueue_harts (s : State) (t q : Nat) (f : Queue → Queue) : (s.updQueue t q f).harts = s.harts := rfl
@[simp] theorem State.updQueue_imsics (s : State) (t q : Nat) (f : Queue → Queue) : (s.updQueue t q f).imsics = s.imsics := rfl
@[simp] theorem State.updQueue_hosted (s : State) (t q : Nat) (f : Queue → Queue) : (s.updQueue t q f).hosted = s.hosted := rfl
@[simp] theorem State.updQueue_hostLink (s : State) (t q : Nat) (f : Queue → Queue) : (s.updQueue t q f).hostLink = s.hostLink := rfl
@[simp] theorem State.updQueue_doorbells (s : State) (t q : Nat) (f : Queue → Queue) : (s.updQueue t q f).doorbells = s.doorbells := rfl
@[simp] theorem State.updQueue_owners (s : State) (t q : Nat) (f : Queue → Queue) : (s.updQueue t q f).owners = s.owners := rfl
@[simp] theorem State.updQueue_mem (s : State) (t q : Nat) (f : Queue → Queue) : (s.updQueue t q f).mem = s.mem := rfl
@[simp] theorem State.updQueue_poison (s : State) (t q : Nat) (f : Queue → Queue) : (s.updQueue t q f).poison = s.poison := rfl
@[simp] theorem State.updQueue_dirtyLines (s : State) (t q : Nat) (f : Queue → Queue) : (s.updQueue t q f).dirtyLines = s.dirtyLines := rfl
@[simp] theorem State.updQueue_predictors (s : State) (t q : Nat) (f : Queue → Queue) : (s.updQueue t q f).predictors = s.predictors := rfl
@[simp] theorem State.updQueue_homes (s : State) (t q : Nat) (f : Queue → Queue) : (s.updQueue t q f).homes = s.homes := rfl
@[simp] theorem State.updQueue_reqs (s : State) (t q : Nat) (f : Queue → Queue) : (s.updQueue t q f).reqs = s.reqs := rfl
@[simp] theorem State.updQueue_hostWrites (s : State) (t q : Nat) (f : Queue → Queue) : (s.updQueue t q f).hostWrites = s.hostWrites := rfl
@[simp] theorem State.updQueue_dmaWct (s : State) (t q : Nat) (f : Queue → Queue) : (s.updQueue t q f).dmaWct = s.dmaWct := rfl
@[simp] theorem State.updQueue_tlbs (s : State) (t q : Nat) (f : Queue → Queue) : (s.updQueue t q f).tlbs = s.tlbs := rfl
@[simp] theorem State.updQueue_walks (s : State) (t q : Nat) (f : Queue → Queue) : (s.updQueue t q f).walks = s.walks := rfl
@[simp] theorem State.updQueue_invals (s : State) (t q : Nat) (f : Queue → Queue) : (s.updQueue t q f).invals = s.invals := rfl
@[simp] theorem State.updQueue_heldFaults (s : State) (t q : Nat) (f : Queue → Queue) : (s.updQueue t q f).heldFaults = s.heldFaults := rfl
@[simp] theorem State.updQueue_rights (s : State) (t q : Nat) (f : Queue → Queue) : (s.updQueue t q f).rights = s.rights := rfl
@[simp] theorem State.updQueue_l1 (s : State) (t q : Nat) (f : Queue → Queue) : (s.updQueue t q f).l1 = s.l1 := rfl
@[simp] theorem State.updQueue_cores (s : State) (t q : Nat) (f : Queue → Queue) : (s.updQueue t q f).cores = s.cores := rfl
@[simp] theorem State.updQueue_wgs (s : State) (t q : Nat) (f : Queue → Queue) : (s.updQueue t q f).wgs = s.wgs := rfl
@[simp] theorem State.updQueue_copies (s : State) (t q : Nat) (f : Queue → Queue) : (s.updQueue t q f).copies = s.copies := rfl
@[simp] theorem State.updQueue_ops (s : State) (t q : Nat) (f : Queue → Queue) : (s.updQueue t q f).ops = s.ops := rfl
@[simp] theorem State.updQueue_launches (s : State) (t q : Nat) (f : Queue → Queue) : (s.updQueue t q f).launches = s.launches := rfl
@[simp] theorem State.updQueue_tcbs (s : State) (t q : Nat) (f : Queue → Queue) : (s.updQueue t q f).tcbs = s.tcbs := rfl
@[simp] theorem State.updQueue_graphs (s : State) (t q : Nat) (f : Queue → Queue) : (s.updQueue t q f).graphs = s.graphs := rfl
@[simp] theorem State.updQueue_slices (s : State) (t q : Nat) (f : Queue → Queue) : (s.updQueue t q f).slices = s.slices := rfl
@[simp] theorem State.updQueue_tenants (s : State) (t q : Nat) (f : Queue → Queue) : (s.updQueue t q f).tenants = s.tenants := rfl
@[simp] theorem State.updQueue_events (s : State) (t q : Nat) (f : Queue → Queue) : (s.updQueue t q f).events = s.events := rfl
@[simp] theorem State.updQueue_scalars (s : State) (t q : Nat) (f : Queue → Queue) : (s.updQueue t q f).scalars = s.scalars := rfl
@[simp] theorem State.updQueue_channels (s : State) (t q : Nat) (f : Queue → Queue) : (s.updQueue t q f).channels = s.channels := rfl
@[simp] theorem State.updQueue_heldMsgs (s : State) (t q : Nat) (f : Queue → Queue) : (s.updQueue t q f).heldMsgs = s.heldMsgs := rfl
@[simp] theorem State.updQueue_checks (s : State) (t q : Nat) (f : Queue → Queue) : (s.updQueue t q f).checks = s.checks := rfl
@[simp] theorem State.updQueue_activeB (s : State) (t q : Nat) (f : Queue → Queue) : (s.updQueue t q f).activeB = s.activeB := rfl
@[simp] theorem State.updQueue_versionA (s : State) (t q : Nat) (f : Queue → Queue) : (s.updQueue t q f).versionA = s.versionA := rfl
@[simp] theorem State.updQueue_versionB (s : State) (t q : Nat) (f : Queue → Queue) : (s.updQueue t q f).versionB = s.versionB := rfl
@[simp] theorem State.updQueue_update (s : State) (t q : Nat) (f : Queue → Queue) : (s.updQueue t q f).update = s.update := rfl
@[simp] theorem State.updQueue_log (s : State) (t q : Nat) (f : Queue → Queue) : (s.updQueue t q f).log = s.log := rfl
@[simp] theorem State.updQueue_bank (s : State) (t q : Nat) (f : Queue → Queue) : (s.updQueue t q f).bank = s.bank := rfl
@[simp] theorem State.updQueue_ports (s : State) (t q : Nat) (f : Queue → Queue) : (s.updQueue t q f).ports = s.ports := rfl
@[simp] theorem State.updQueue_ethIdx (s : State) (t q : Nat) (f : Queue → Queue) : (s.updQueue t q f).ethIdx = s.ethIdx := rfl
@[simp] theorem State.updQueue_podChips (s : State) (t q : Nat) (f : Queue → Queue) : (s.updQueue t q f).podChips = s.podChips := rfl
@[simp] theorem State.updQueue_podMap (s : State) (t q : Nat) (f : Queue → Queue) : (s.updQueue t q f).podMap = s.podMap := rfl
@[simp] theorem State.updQueue_alone (s : State) (t q : Nat) (f : Queue → Queue) : (s.updQueue t q f).alone = s.alone := rfl
@[simp] theorem State.updQueue_podFormed (s : State) (t q : Nat) (f : Queue → Queue) : (s.updQueue t q f).podFormed = s.podFormed := rfl
@[simp] theorem State.updQueue_slow (s : State) (t q : Nat) (f : Queue → Queue) : (s.updQueue t q f).slow = s.slow := rfl
@[simp] theorem State.updQueue_treeSent (s : State) (t q : Nat) (f : Queue → Queue) : (s.updQueue t q f).treeSent = s.treeSent := rfl
@[simp] theorem State.updQueue_treeSeen (s : State) (t q : Nat) (f : Queue → Queue) : (s.updQueue t q f).treeSeen = s.treeSeen := rfl
@[simp] theorem State.updQueue_treeHeld (s : State) (t q : Nat) (f : Queue → Queue) : (s.updQueue t q f).treeHeld = s.treeHeld := rfl
@[simp] theorem State.updQueue_flitSeen (s : State) (t q : Nat) (f : Queue → Queue) : (s.updQueue t q f).flitSeen = s.flitSeen := rfl
@[simp] theorem State.updQueue_asks (s : State) (t q : Nat) (f : Queue → Queue) : (s.updQueue t q f).asks = s.asks := rfl
@[simp] theorem State.updQueue_waiters (s : State) (t q : Nat) (f : Queue → Queue) : (s.updQueue t q f).waiters = s.waiters := rfl
@[simp] theorem State.updQueue_owedUnits (s : State) (t q : Nat) (f : Queue → Queue) : (s.updQueue t q f).owedUnits = s.owedUnits := rfl
@[simp] theorem State.updQueue_parked (s : State) (t q : Nat) (f : Queue → Queue) : (s.updQueue t q f).parked = s.parked := rfl

/-! ### `State.setHome`: every field but `homes` -/

@[simp] theorem State.setHome_ptb (s : State) (i : Nat) (h : Home) : (s.setHome i h).ptb = s.ptb := rfl
@[simp] theorem State.setHome_agenda (s : State) (i : Nat) (h : Home) : (s.setHome i h).agenda = s.agenda := rfl
@[simp] theorem State.setHome_choiceNo (s : State) (i : Nat) (h : Home) : (s.setHome i h).choiceNo = s.choiceNo := rfl
@[simp] theorem State.setHome_cur (s : State) (i : Nat) (h : Home) : (s.setHome i h).cur = s.cur := rfl
@[simp] theorem State.setHome_mask (s : State) (i : Nat) (h : Home) : (s.setHome i h).mask = s.mask := rfl
@[simp] theorem State.setHome_free (s : State) (i : Nat) (h : Home) : (s.setHome i h).free = s.free := rfl
@[simp] theorem State.setHome_serialNo (s : State) (i : Nat) (h : Home) : (s.setHome i h).serialNo = s.serialNo := rfl
@[simp] theorem State.setHome_out (s : State) (i : Nat) (h : Home) : (s.setHome i h).out = s.out := rfl
@[simp] theorem State.setHome_present (s : State) (i : Nat) (h : Home) : (s.setHome i h).present = s.present := rfl
@[simp] theorem State.setHome_chip (s : State) (i : Nat) (h : Home) : (s.setHome i h).chip = s.chip := rfl
@[simp] theorem State.setHome_flash (s : State) (i : Nat) (h : Home) : (s.setHome i h).flash = s.flash := rfl
@[simp] theorem State.setHome_puf (s : State) (i : Nat) (h : Home) : (s.setHome i h).puf = s.puf := rfl
@[simp] theorem State.setHome_inReset (s : State) (i : Nat) (h : Home) : (s.setHome i h).inReset = s.inReset := rfl
@[simp] theorem State.setHome_mcTime (s : State) (i : Nat) (h : Home) : (s.setHome i h).mcTime = s.mcTime := rfl
@[simp] theorem State.setHome_railsAt (s : State) (i : Nat) (h : Home) : (s.setHome i h).railsAt = s.railsAt := rfl
@[simp] theorem State.setHome_tripped (s : State) (i : Nat) (h : Home) : (s.setHome i h).tripped = s.tripped := rfl
@[simp] theorem State.setHome_bootStep (s : State) (i : Nat) (h : Home) : (s.setHome i h).bootStep = s.bootStep := rfl
@[simp] theorem State.setHome_bootRecord (s : State) (i : Nat) (h : Home) : (s.setHome i h).bootRecord = s.bootRecord := rfl
@[simp] theorem State.setHome_mcstat (s : State) (i : Nat) (h : Home) : (s.setHome i h).mcstat = s.mcstat := rfl
@[simp] theorem State.setHome_mcpwr (s : State) (i : Nat) (h : Home) : (s.setHome i h).mcpwr = s.mcpwr := rfl
@[simp] theorem State.setHome_mctemp (s : State) (i : Nat) (h : Home) : (s.setHome i h).mctemp = s.mctemp := rfl
@[simp] theorem State.setHome_mcce (s : State) (i : Nat) (h : Home) : (s.setHome i h).mcce = s.mcce := rfl
@[simp] theorem State.setHome_mceth (s : State) (i : Nat) (h : Home) : (s.setHome i h).mceth = s.mceth := rfl
@[simp] theorem State.setHome_pwrHalved (s : State) (i : Nat) (h : Home) : (s.setHome i h).pwrHalved = s.pwrHalved := rfl
@[simp] theorem State.setHome_pwrZero (s : State) (i : Nat) (h : Home) : (s.setHome i h).pwrZero = s.pwrZero := rfl
@[simp] theorem State.setHome_localBase (s : State) (i : Nat) (h : Home) : (s.setHome i h).localBase = s.localBase := rfl
@[simp] theorem State.setHome_podBase (s : State) (i : Nat) (h : Home) : (s.setHome i h).podBase = s.podBase := rfl
@[simp] theorem State.setHome_tenantBase (s : State) (i : Nat) (h : Home) : (s.setHome i h).tenantBase = s.tenantBase := rfl
@[simp] theorem State.setHome_pasidTbl (s : State) (i : Nat) (h : Home) : (s.setHome i h).pasidTbl = s.pasidTbl := rfl
@[simp] theorem State.setHome_cctBase (s : State) (i : Nat) (h : Home) : (s.setHome i h).cctBase = s.cctBase := rfl
@[simp] theorem State.setHome_harts (s : State) (i : Nat) (h : Home) : (s.setHome i h).harts = s.harts := rfl
@[simp] theorem State.setHome_imsics (s : State) (i : Nat) (h : Home) : (s.setHome i h).imsics = s.imsics := rfl
@[simp] theorem State.setHome_hosted (s : State) (i : Nat) (h : Home) : (s.setHome i h).hosted = s.hosted := rfl
@[simp] theorem State.setHome_hostLink (s : State) (i : Nat) (h : Home) : (s.setHome i h).hostLink = s.hostLink := rfl
@[simp] theorem State.setHome_doorbells (s : State) (i : Nat) (h : Home) : (s.setHome i h).doorbells = s.doorbells := rfl
@[simp] theorem State.setHome_owners (s : State) (i : Nat) (h : Home) : (s.setHome i h).owners = s.owners := rfl
@[simp] theorem State.setHome_mem (s : State) (i : Nat) (h : Home) : (s.setHome i h).mem = s.mem := rfl
@[simp] theorem State.setHome_poison (s : State) (i : Nat) (h : Home) : (s.setHome i h).poison = s.poison := rfl
@[simp] theorem State.setHome_dirtyLines (s : State) (i : Nat) (h : Home) : (s.setHome i h).dirtyLines = s.dirtyLines := rfl
@[simp] theorem State.setHome_predictors (s : State) (i : Nat) (h : Home) : (s.setHome i h).predictors = s.predictors := rfl
@[simp] theorem State.setHome_reqs (s : State) (i : Nat) (h : Home) : (s.setHome i h).reqs = s.reqs := rfl
@[simp] theorem State.setHome_hostWrites (s : State) (i : Nat) (h : Home) : (s.setHome i h).hostWrites = s.hostWrites := rfl
@[simp] theorem State.setHome_dmaWct (s : State) (i : Nat) (h : Home) : (s.setHome i h).dmaWct = s.dmaWct := rfl
@[simp] theorem State.setHome_tlbs (s : State) (i : Nat) (h : Home) : (s.setHome i h).tlbs = s.tlbs := rfl
@[simp] theorem State.setHome_walks (s : State) (i : Nat) (h : Home) : (s.setHome i h).walks = s.walks := rfl
@[simp] theorem State.setHome_invals (s : State) (i : Nat) (h : Home) : (s.setHome i h).invals = s.invals := rfl
@[simp] theorem State.setHome_heldFaults (s : State) (i : Nat) (h : Home) : (s.setHome i h).heldFaults = s.heldFaults := rfl
@[simp] theorem State.setHome_rights (s : State) (i : Nat) (h : Home) : (s.setHome i h).rights = s.rights := rfl
@[simp] theorem State.setHome_l1 (s : State) (i : Nat) (h : Home) : (s.setHome i h).l1 = s.l1 := rfl
@[simp] theorem State.setHome_cores (s : State) (i : Nat) (h : Home) : (s.setHome i h).cores = s.cores := rfl
@[simp] theorem State.setHome_wgs (s : State) (i : Nat) (h : Home) : (s.setHome i h).wgs = s.wgs := rfl
@[simp] theorem State.setHome_copies (s : State) (i : Nat) (h : Home) : (s.setHome i h).copies = s.copies := rfl
@[simp] theorem State.setHome_ops (s : State) (i : Nat) (h : Home) : (s.setHome i h).ops = s.ops := rfl
@[simp] theorem State.setHome_launches (s : State) (i : Nat) (h : Home) : (s.setHome i h).launches = s.launches := rfl
@[simp] theorem State.setHome_tcbs (s : State) (i : Nat) (h : Home) : (s.setHome i h).tcbs = s.tcbs := rfl
@[simp] theorem State.setHome_graphs (s : State) (i : Nat) (h : Home) : (s.setHome i h).graphs = s.graphs := rfl
@[simp] theorem State.setHome_slices (s : State) (i : Nat) (h : Home) : (s.setHome i h).slices = s.slices := rfl
@[simp] theorem State.setHome_queues (s : State) (i : Nat) (h : Home) : (s.setHome i h).queues = s.queues := rfl
@[simp] theorem State.setHome_tenants (s : State) (i : Nat) (h : Home) : (s.setHome i h).tenants = s.tenants := rfl
@[simp] theorem State.setHome_events (s : State) (i : Nat) (h : Home) : (s.setHome i h).events = s.events := rfl
@[simp] theorem State.setHome_scalars (s : State) (i : Nat) (h : Home) : (s.setHome i h).scalars = s.scalars := rfl
@[simp] theorem State.setHome_channels (s : State) (i : Nat) (h : Home) : (s.setHome i h).channels = s.channels := rfl
@[simp] theorem State.setHome_heldMsgs (s : State) (i : Nat) (h : Home) : (s.setHome i h).heldMsgs = s.heldMsgs := rfl
@[simp] theorem State.setHome_checks (s : State) (i : Nat) (h : Home) : (s.setHome i h).checks = s.checks := rfl
@[simp] theorem State.setHome_activeB (s : State) (i : Nat) (h : Home) : (s.setHome i h).activeB = s.activeB := rfl
@[simp] theorem State.setHome_versionA (s : State) (i : Nat) (h : Home) : (s.setHome i h).versionA = s.versionA := rfl
@[simp] theorem State.setHome_versionB (s : State) (i : Nat) (h : Home) : (s.setHome i h).versionB = s.versionB := rfl
@[simp] theorem State.setHome_update (s : State) (i : Nat) (h : Home) : (s.setHome i h).update = s.update := rfl
@[simp] theorem State.setHome_log (s : State) (i : Nat) (h : Home) : (s.setHome i h).log = s.log := rfl
@[simp] theorem State.setHome_bank (s : State) (i : Nat) (h : Home) : (s.setHome i h).bank = s.bank := rfl
@[simp] theorem State.setHome_ports (s : State) (i : Nat) (h : Home) : (s.setHome i h).ports = s.ports := rfl
@[simp] theorem State.setHome_ethIdx (s : State) (i : Nat) (h : Home) : (s.setHome i h).ethIdx = s.ethIdx := rfl
@[simp] theorem State.setHome_podChips (s : State) (i : Nat) (h : Home) : (s.setHome i h).podChips = s.podChips := rfl
@[simp] theorem State.setHome_podMap (s : State) (i : Nat) (h : Home) : (s.setHome i h).podMap = s.podMap := rfl
@[simp] theorem State.setHome_alone (s : State) (i : Nat) (h : Home) : (s.setHome i h).alone = s.alone := rfl
@[simp] theorem State.setHome_podFormed (s : State) (i : Nat) (h : Home) : (s.setHome i h).podFormed = s.podFormed := rfl
@[simp] theorem State.setHome_slow (s : State) (i : Nat) (h : Home) : (s.setHome i h).slow = s.slow := rfl
@[simp] theorem State.setHome_treeSent (s : State) (i : Nat) (h : Home) : (s.setHome i h).treeSent = s.treeSent := rfl
@[simp] theorem State.setHome_treeSeen (s : State) (i : Nat) (h : Home) : (s.setHome i h).treeSeen = s.treeSeen := rfl
@[simp] theorem State.setHome_treeHeld (s : State) (i : Nat) (h : Home) : (s.setHome i h).treeHeld = s.treeHeld := rfl
@[simp] theorem State.setHome_flitSeen (s : State) (i : Nat) (h : Home) : (s.setHome i h).flitSeen = s.flitSeen := rfl
@[simp] theorem State.setHome_asks (s : State) (i : Nat) (h : Home) : (s.setHome i h).asks = s.asks := rfl
@[simp] theorem State.setHome_waiters (s : State) (i : Nat) (h : Home) : (s.setHome i h).waiters = s.waiters := rfl
@[simp] theorem State.setHome_owedUnits (s : State) (i : Nat) (h : Home) : (s.setHome i h).owedUnits = s.owedUnits := rfl
@[simp] theorem State.setHome_parked (s : State) (i : Nat) (h : Home) : (s.setHome i h).parked = s.parked := rfl

/-! ### `State.setL1`: every field but `l1` -/

@[simp] theorem State.setL1_ptb (s : State) (i : Nat) (t : Tab Line) : (s.setL1 i t).ptb = s.ptb := rfl
@[simp] theorem State.setL1_agenda (s : State) (i : Nat) (t : Tab Line) : (s.setL1 i t).agenda = s.agenda := rfl
@[simp] theorem State.setL1_choiceNo (s : State) (i : Nat) (t : Tab Line) : (s.setL1 i t).choiceNo = s.choiceNo := rfl
@[simp] theorem State.setL1_cur (s : State) (i : Nat) (t : Tab Line) : (s.setL1 i t).cur = s.cur := rfl
@[simp] theorem State.setL1_mask (s : State) (i : Nat) (t : Tab Line) : (s.setL1 i t).mask = s.mask := rfl
@[simp] theorem State.setL1_free (s : State) (i : Nat) (t : Tab Line) : (s.setL1 i t).free = s.free := rfl
@[simp] theorem State.setL1_serialNo (s : State) (i : Nat) (t : Tab Line) : (s.setL1 i t).serialNo = s.serialNo := rfl
@[simp] theorem State.setL1_out (s : State) (i : Nat) (t : Tab Line) : (s.setL1 i t).out = s.out := rfl
@[simp] theorem State.setL1_present (s : State) (i : Nat) (t : Tab Line) : (s.setL1 i t).present = s.present := rfl
@[simp] theorem State.setL1_chip (s : State) (i : Nat) (t : Tab Line) : (s.setL1 i t).chip = s.chip := rfl
@[simp] theorem State.setL1_flash (s : State) (i : Nat) (t : Tab Line) : (s.setL1 i t).flash = s.flash := rfl
@[simp] theorem State.setL1_puf (s : State) (i : Nat) (t : Tab Line) : (s.setL1 i t).puf = s.puf := rfl
@[simp] theorem State.setL1_inReset (s : State) (i : Nat) (t : Tab Line) : (s.setL1 i t).inReset = s.inReset := rfl
@[simp] theorem State.setL1_mcTime (s : State) (i : Nat) (t : Tab Line) : (s.setL1 i t).mcTime = s.mcTime := rfl
@[simp] theorem State.setL1_railsAt (s : State) (i : Nat) (t : Tab Line) : (s.setL1 i t).railsAt = s.railsAt := rfl
@[simp] theorem State.setL1_tripped (s : State) (i : Nat) (t : Tab Line) : (s.setL1 i t).tripped = s.tripped := rfl
@[simp] theorem State.setL1_bootStep (s : State) (i : Nat) (t : Tab Line) : (s.setL1 i t).bootStep = s.bootStep := rfl
@[simp] theorem State.setL1_bootRecord (s : State) (i : Nat) (t : Tab Line) : (s.setL1 i t).bootRecord = s.bootRecord := rfl
@[simp] theorem State.setL1_mcstat (s : State) (i : Nat) (t : Tab Line) : (s.setL1 i t).mcstat = s.mcstat := rfl
@[simp] theorem State.setL1_mcpwr (s : State) (i : Nat) (t : Tab Line) : (s.setL1 i t).mcpwr = s.mcpwr := rfl
@[simp] theorem State.setL1_mctemp (s : State) (i : Nat) (t : Tab Line) : (s.setL1 i t).mctemp = s.mctemp := rfl
@[simp] theorem State.setL1_mcce (s : State) (i : Nat) (t : Tab Line) : (s.setL1 i t).mcce = s.mcce := rfl
@[simp] theorem State.setL1_mceth (s : State) (i : Nat) (t : Tab Line) : (s.setL1 i t).mceth = s.mceth := rfl
@[simp] theorem State.setL1_pwrHalved (s : State) (i : Nat) (t : Tab Line) : (s.setL1 i t).pwrHalved = s.pwrHalved := rfl
@[simp] theorem State.setL1_pwrZero (s : State) (i : Nat) (t : Tab Line) : (s.setL1 i t).pwrZero = s.pwrZero := rfl
@[simp] theorem State.setL1_localBase (s : State) (i : Nat) (t : Tab Line) : (s.setL1 i t).localBase = s.localBase := rfl
@[simp] theorem State.setL1_podBase (s : State) (i : Nat) (t : Tab Line) : (s.setL1 i t).podBase = s.podBase := rfl
@[simp] theorem State.setL1_tenantBase (s : State) (i : Nat) (t : Tab Line) : (s.setL1 i t).tenantBase = s.tenantBase := rfl
@[simp] theorem State.setL1_pasidTbl (s : State) (i : Nat) (t : Tab Line) : (s.setL1 i t).pasidTbl = s.pasidTbl := rfl
@[simp] theorem State.setL1_cctBase (s : State) (i : Nat) (t : Tab Line) : (s.setL1 i t).cctBase = s.cctBase := rfl
@[simp] theorem State.setL1_harts (s : State) (i : Nat) (t : Tab Line) : (s.setL1 i t).harts = s.harts := rfl
@[simp] theorem State.setL1_imsics (s : State) (i : Nat) (t : Tab Line) : (s.setL1 i t).imsics = s.imsics := rfl
@[simp] theorem State.setL1_hosted (s : State) (i : Nat) (t : Tab Line) : (s.setL1 i t).hosted = s.hosted := rfl
@[simp] theorem State.setL1_hostLink (s : State) (i : Nat) (t : Tab Line) : (s.setL1 i t).hostLink = s.hostLink := rfl
@[simp] theorem State.setL1_doorbells (s : State) (i : Nat) (t : Tab Line) : (s.setL1 i t).doorbells = s.doorbells := rfl
@[simp] theorem State.setL1_owners (s : State) (i : Nat) (t : Tab Line) : (s.setL1 i t).owners = s.owners := rfl
@[simp] theorem State.setL1_mem (s : State) (i : Nat) (t : Tab Line) : (s.setL1 i t).mem = s.mem := rfl
@[simp] theorem State.setL1_poison (s : State) (i : Nat) (t : Tab Line) : (s.setL1 i t).poison = s.poison := rfl
@[simp] theorem State.setL1_dirtyLines (s : State) (i : Nat) (t : Tab Line) : (s.setL1 i t).dirtyLines = s.dirtyLines := rfl
@[simp] theorem State.setL1_predictors (s : State) (i : Nat) (t : Tab Line) : (s.setL1 i t).predictors = s.predictors := rfl
@[simp] theorem State.setL1_homes (s : State) (i : Nat) (t : Tab Line) : (s.setL1 i t).homes = s.homes := rfl
@[simp] theorem State.setL1_reqs (s : State) (i : Nat) (t : Tab Line) : (s.setL1 i t).reqs = s.reqs := rfl
@[simp] theorem State.setL1_hostWrites (s : State) (i : Nat) (t : Tab Line) : (s.setL1 i t).hostWrites = s.hostWrites := rfl
@[simp] theorem State.setL1_dmaWct (s : State) (i : Nat) (t : Tab Line) : (s.setL1 i t).dmaWct = s.dmaWct := rfl
@[simp] theorem State.setL1_tlbs (s : State) (i : Nat) (t : Tab Line) : (s.setL1 i t).tlbs = s.tlbs := rfl
@[simp] theorem State.setL1_walks (s : State) (i : Nat) (t : Tab Line) : (s.setL1 i t).walks = s.walks := rfl
@[simp] theorem State.setL1_invals (s : State) (i : Nat) (t : Tab Line) : (s.setL1 i t).invals = s.invals := rfl
@[simp] theorem State.setL1_heldFaults (s : State) (i : Nat) (t : Tab Line) : (s.setL1 i t).heldFaults = s.heldFaults := rfl
@[simp] theorem State.setL1_rights (s : State) (i : Nat) (t : Tab Line) : (s.setL1 i t).rights = s.rights := rfl
@[simp] theorem State.setL1_cores (s : State) (i : Nat) (t : Tab Line) : (s.setL1 i t).cores = s.cores := rfl
@[simp] theorem State.setL1_wgs (s : State) (i : Nat) (t : Tab Line) : (s.setL1 i t).wgs = s.wgs := rfl
@[simp] theorem State.setL1_copies (s : State) (i : Nat) (t : Tab Line) : (s.setL1 i t).copies = s.copies := rfl
@[simp] theorem State.setL1_ops (s : State) (i : Nat) (t : Tab Line) : (s.setL1 i t).ops = s.ops := rfl
@[simp] theorem State.setL1_launches (s : State) (i : Nat) (t : Tab Line) : (s.setL1 i t).launches = s.launches := rfl
@[simp] theorem State.setL1_tcbs (s : State) (i : Nat) (t : Tab Line) : (s.setL1 i t).tcbs = s.tcbs := rfl
@[simp] theorem State.setL1_graphs (s : State) (i : Nat) (t : Tab Line) : (s.setL1 i t).graphs = s.graphs := rfl
@[simp] theorem State.setL1_slices (s : State) (i : Nat) (t : Tab Line) : (s.setL1 i t).slices = s.slices := rfl
@[simp] theorem State.setL1_queues (s : State) (i : Nat) (t : Tab Line) : (s.setL1 i t).queues = s.queues := rfl
@[simp] theorem State.setL1_tenants (s : State) (i : Nat) (t : Tab Line) : (s.setL1 i t).tenants = s.tenants := rfl
@[simp] theorem State.setL1_events (s : State) (i : Nat) (t : Tab Line) : (s.setL1 i t).events = s.events := rfl
@[simp] theorem State.setL1_scalars (s : State) (i : Nat) (t : Tab Line) : (s.setL1 i t).scalars = s.scalars := rfl
@[simp] theorem State.setL1_channels (s : State) (i : Nat) (t : Tab Line) : (s.setL1 i t).channels = s.channels := rfl
@[simp] theorem State.setL1_heldMsgs (s : State) (i : Nat) (t : Tab Line) : (s.setL1 i t).heldMsgs = s.heldMsgs := rfl
@[simp] theorem State.setL1_checks (s : State) (i : Nat) (t : Tab Line) : (s.setL1 i t).checks = s.checks := rfl
@[simp] theorem State.setL1_activeB (s : State) (i : Nat) (t : Tab Line) : (s.setL1 i t).activeB = s.activeB := rfl
@[simp] theorem State.setL1_versionA (s : State) (i : Nat) (t : Tab Line) : (s.setL1 i t).versionA = s.versionA := rfl
@[simp] theorem State.setL1_versionB (s : State) (i : Nat) (t : Tab Line) : (s.setL1 i t).versionB = s.versionB := rfl
@[simp] theorem State.setL1_update (s : State) (i : Nat) (t : Tab Line) : (s.setL1 i t).update = s.update := rfl
@[simp] theorem State.setL1_log (s : State) (i : Nat) (t : Tab Line) : (s.setL1 i t).log = s.log := rfl
@[simp] theorem State.setL1_bank (s : State) (i : Nat) (t : Tab Line) : (s.setL1 i t).bank = s.bank := rfl
@[simp] theorem State.setL1_ports (s : State) (i : Nat) (t : Tab Line) : (s.setL1 i t).ports = s.ports := rfl
@[simp] theorem State.setL1_ethIdx (s : State) (i : Nat) (t : Tab Line) : (s.setL1 i t).ethIdx = s.ethIdx := rfl
@[simp] theorem State.setL1_podChips (s : State) (i : Nat) (t : Tab Line) : (s.setL1 i t).podChips = s.podChips := rfl
@[simp] theorem State.setL1_podMap (s : State) (i : Nat) (t : Tab Line) : (s.setL1 i t).podMap = s.podMap := rfl
@[simp] theorem State.setL1_alone (s : State) (i : Nat) (t : Tab Line) : (s.setL1 i t).alone = s.alone := rfl
@[simp] theorem State.setL1_podFormed (s : State) (i : Nat) (t : Tab Line) : (s.setL1 i t).podFormed = s.podFormed := rfl
@[simp] theorem State.setL1_slow (s : State) (i : Nat) (t : Tab Line) : (s.setL1 i t).slow = s.slow := rfl
@[simp] theorem State.setL1_treeSent (s : State) (i : Nat) (t : Tab Line) : (s.setL1 i t).treeSent = s.treeSent := rfl
@[simp] theorem State.setL1_treeSeen (s : State) (i : Nat) (t : Tab Line) : (s.setL1 i t).treeSeen = s.treeSeen := rfl
@[simp] theorem State.setL1_treeHeld (s : State) (i : Nat) (t : Tab Line) : (s.setL1 i t).treeHeld = s.treeHeld := rfl
@[simp] theorem State.setL1_flitSeen (s : State) (i : Nat) (t : Tab Line) : (s.setL1 i t).flitSeen = s.flitSeen := rfl
@[simp] theorem State.setL1_asks (s : State) (i : Nat) (t : Tab Line) : (s.setL1 i t).asks = s.asks := rfl
@[simp] theorem State.setL1_waiters (s : State) (i : Nat) (t : Tab Line) : (s.setL1 i t).waiters = s.waiters := rfl
@[simp] theorem State.setL1_owedUnits (s : State) (i : Nat) (t : Tab Line) : (s.setL1 i t).owedUnits = s.owedUnits := rfl
@[simp] theorem State.setL1_parked (s : State) (i : Nat) (t : Tab Line) : (s.setL1 i t).parked = s.parked := rfl

/-! ### `State.updReq`: every field but `reqs` -/

@[simp] theorem State.updReq_ptb (s : State) (i : Nat) (f : Req → Req) : (s.updReq i f).ptb = s.ptb := rfl
@[simp] theorem State.updReq_agenda (s : State) (i : Nat) (f : Req → Req) : (s.updReq i f).agenda = s.agenda := rfl
@[simp] theorem State.updReq_choiceNo (s : State) (i : Nat) (f : Req → Req) : (s.updReq i f).choiceNo = s.choiceNo := rfl
@[simp] theorem State.updReq_cur (s : State) (i : Nat) (f : Req → Req) : (s.updReq i f).cur = s.cur := rfl
@[simp] theorem State.updReq_mask (s : State) (i : Nat) (f : Req → Req) : (s.updReq i f).mask = s.mask := rfl
@[simp] theorem State.updReq_free (s : State) (i : Nat) (f : Req → Req) : (s.updReq i f).free = s.free := rfl
@[simp] theorem State.updReq_serialNo (s : State) (i : Nat) (f : Req → Req) : (s.updReq i f).serialNo = s.serialNo := rfl
@[simp] theorem State.updReq_out (s : State) (i : Nat) (f : Req → Req) : (s.updReq i f).out = s.out := rfl
@[simp] theorem State.updReq_present (s : State) (i : Nat) (f : Req → Req) : (s.updReq i f).present = s.present := rfl
@[simp] theorem State.updReq_chip (s : State) (i : Nat) (f : Req → Req) : (s.updReq i f).chip = s.chip := rfl
@[simp] theorem State.updReq_flash (s : State) (i : Nat) (f : Req → Req) : (s.updReq i f).flash = s.flash := rfl
@[simp] theorem State.updReq_puf (s : State) (i : Nat) (f : Req → Req) : (s.updReq i f).puf = s.puf := rfl
@[simp] theorem State.updReq_inReset (s : State) (i : Nat) (f : Req → Req) : (s.updReq i f).inReset = s.inReset := rfl
@[simp] theorem State.updReq_mcTime (s : State) (i : Nat) (f : Req → Req) : (s.updReq i f).mcTime = s.mcTime := rfl
@[simp] theorem State.updReq_railsAt (s : State) (i : Nat) (f : Req → Req) : (s.updReq i f).railsAt = s.railsAt := rfl
@[simp] theorem State.updReq_tripped (s : State) (i : Nat) (f : Req → Req) : (s.updReq i f).tripped = s.tripped := rfl
@[simp] theorem State.updReq_bootStep (s : State) (i : Nat) (f : Req → Req) : (s.updReq i f).bootStep = s.bootStep := rfl
@[simp] theorem State.updReq_bootRecord (s : State) (i : Nat) (f : Req → Req) : (s.updReq i f).bootRecord = s.bootRecord := rfl
@[simp] theorem State.updReq_mcstat (s : State) (i : Nat) (f : Req → Req) : (s.updReq i f).mcstat = s.mcstat := rfl
@[simp] theorem State.updReq_mcpwr (s : State) (i : Nat) (f : Req → Req) : (s.updReq i f).mcpwr = s.mcpwr := rfl
@[simp] theorem State.updReq_mctemp (s : State) (i : Nat) (f : Req → Req) : (s.updReq i f).mctemp = s.mctemp := rfl
@[simp] theorem State.updReq_mcce (s : State) (i : Nat) (f : Req → Req) : (s.updReq i f).mcce = s.mcce := rfl
@[simp] theorem State.updReq_mceth (s : State) (i : Nat) (f : Req → Req) : (s.updReq i f).mceth = s.mceth := rfl
@[simp] theorem State.updReq_pwrHalved (s : State) (i : Nat) (f : Req → Req) : (s.updReq i f).pwrHalved = s.pwrHalved := rfl
@[simp] theorem State.updReq_pwrZero (s : State) (i : Nat) (f : Req → Req) : (s.updReq i f).pwrZero = s.pwrZero := rfl
@[simp] theorem State.updReq_localBase (s : State) (i : Nat) (f : Req → Req) : (s.updReq i f).localBase = s.localBase := rfl
@[simp] theorem State.updReq_podBase (s : State) (i : Nat) (f : Req → Req) : (s.updReq i f).podBase = s.podBase := rfl
@[simp] theorem State.updReq_tenantBase (s : State) (i : Nat) (f : Req → Req) : (s.updReq i f).tenantBase = s.tenantBase := rfl
@[simp] theorem State.updReq_pasidTbl (s : State) (i : Nat) (f : Req → Req) : (s.updReq i f).pasidTbl = s.pasidTbl := rfl
@[simp] theorem State.updReq_cctBase (s : State) (i : Nat) (f : Req → Req) : (s.updReq i f).cctBase = s.cctBase := rfl
@[simp] theorem State.updReq_harts (s : State) (i : Nat) (f : Req → Req) : (s.updReq i f).harts = s.harts := rfl
@[simp] theorem State.updReq_imsics (s : State) (i : Nat) (f : Req → Req) : (s.updReq i f).imsics = s.imsics := rfl
@[simp] theorem State.updReq_hosted (s : State) (i : Nat) (f : Req → Req) : (s.updReq i f).hosted = s.hosted := rfl
@[simp] theorem State.updReq_hostLink (s : State) (i : Nat) (f : Req → Req) : (s.updReq i f).hostLink = s.hostLink := rfl
@[simp] theorem State.updReq_doorbells (s : State) (i : Nat) (f : Req → Req) : (s.updReq i f).doorbells = s.doorbells := rfl
@[simp] theorem State.updReq_owners (s : State) (i : Nat) (f : Req → Req) : (s.updReq i f).owners = s.owners := rfl
@[simp] theorem State.updReq_mem (s : State) (i : Nat) (f : Req → Req) : (s.updReq i f).mem = s.mem := rfl
@[simp] theorem State.updReq_poison (s : State) (i : Nat) (f : Req → Req) : (s.updReq i f).poison = s.poison := rfl
@[simp] theorem State.updReq_dirtyLines (s : State) (i : Nat) (f : Req → Req) : (s.updReq i f).dirtyLines = s.dirtyLines := rfl
@[simp] theorem State.updReq_predictors (s : State) (i : Nat) (f : Req → Req) : (s.updReq i f).predictors = s.predictors := rfl
@[simp] theorem State.updReq_homes (s : State) (i : Nat) (f : Req → Req) : (s.updReq i f).homes = s.homes := rfl
@[simp] theorem State.updReq_hostWrites (s : State) (i : Nat) (f : Req → Req) : (s.updReq i f).hostWrites = s.hostWrites := rfl
@[simp] theorem State.updReq_dmaWct (s : State) (i : Nat) (f : Req → Req) : (s.updReq i f).dmaWct = s.dmaWct := rfl
@[simp] theorem State.updReq_tlbs (s : State) (i : Nat) (f : Req → Req) : (s.updReq i f).tlbs = s.tlbs := rfl
@[simp] theorem State.updReq_walks (s : State) (i : Nat) (f : Req → Req) : (s.updReq i f).walks = s.walks := rfl
@[simp] theorem State.updReq_invals (s : State) (i : Nat) (f : Req → Req) : (s.updReq i f).invals = s.invals := rfl
@[simp] theorem State.updReq_heldFaults (s : State) (i : Nat) (f : Req → Req) : (s.updReq i f).heldFaults = s.heldFaults := rfl
@[simp] theorem State.updReq_rights (s : State) (i : Nat) (f : Req → Req) : (s.updReq i f).rights = s.rights := rfl
@[simp] theorem State.updReq_l1 (s : State) (i : Nat) (f : Req → Req) : (s.updReq i f).l1 = s.l1 := rfl
@[simp] theorem State.updReq_cores (s : State) (i : Nat) (f : Req → Req) : (s.updReq i f).cores = s.cores := rfl
@[simp] theorem State.updReq_wgs (s : State) (i : Nat) (f : Req → Req) : (s.updReq i f).wgs = s.wgs := rfl
@[simp] theorem State.updReq_copies (s : State) (i : Nat) (f : Req → Req) : (s.updReq i f).copies = s.copies := rfl
@[simp] theorem State.updReq_ops (s : State) (i : Nat) (f : Req → Req) : (s.updReq i f).ops = s.ops := rfl
@[simp] theorem State.updReq_launches (s : State) (i : Nat) (f : Req → Req) : (s.updReq i f).launches = s.launches := rfl
@[simp] theorem State.updReq_tcbs (s : State) (i : Nat) (f : Req → Req) : (s.updReq i f).tcbs = s.tcbs := rfl
@[simp] theorem State.updReq_graphs (s : State) (i : Nat) (f : Req → Req) : (s.updReq i f).graphs = s.graphs := rfl
@[simp] theorem State.updReq_slices (s : State) (i : Nat) (f : Req → Req) : (s.updReq i f).slices = s.slices := rfl
@[simp] theorem State.updReq_queues (s : State) (i : Nat) (f : Req → Req) : (s.updReq i f).queues = s.queues := rfl
@[simp] theorem State.updReq_tenants (s : State) (i : Nat) (f : Req → Req) : (s.updReq i f).tenants = s.tenants := rfl
@[simp] theorem State.updReq_events (s : State) (i : Nat) (f : Req → Req) : (s.updReq i f).events = s.events := rfl
@[simp] theorem State.updReq_scalars (s : State) (i : Nat) (f : Req → Req) : (s.updReq i f).scalars = s.scalars := rfl
@[simp] theorem State.updReq_channels (s : State) (i : Nat) (f : Req → Req) : (s.updReq i f).channels = s.channels := rfl
@[simp] theorem State.updReq_heldMsgs (s : State) (i : Nat) (f : Req → Req) : (s.updReq i f).heldMsgs = s.heldMsgs := rfl
@[simp] theorem State.updReq_checks (s : State) (i : Nat) (f : Req → Req) : (s.updReq i f).checks = s.checks := rfl
@[simp] theorem State.updReq_activeB (s : State) (i : Nat) (f : Req → Req) : (s.updReq i f).activeB = s.activeB := rfl
@[simp] theorem State.updReq_versionA (s : State) (i : Nat) (f : Req → Req) : (s.updReq i f).versionA = s.versionA := rfl
@[simp] theorem State.updReq_versionB (s : State) (i : Nat) (f : Req → Req) : (s.updReq i f).versionB = s.versionB := rfl
@[simp] theorem State.updReq_update (s : State) (i : Nat) (f : Req → Req) : (s.updReq i f).update = s.update := rfl
@[simp] theorem State.updReq_log (s : State) (i : Nat) (f : Req → Req) : (s.updReq i f).log = s.log := rfl
@[simp] theorem State.updReq_bank (s : State) (i : Nat) (f : Req → Req) : (s.updReq i f).bank = s.bank := rfl
@[simp] theorem State.updReq_ports (s : State) (i : Nat) (f : Req → Req) : (s.updReq i f).ports = s.ports := rfl
@[simp] theorem State.updReq_ethIdx (s : State) (i : Nat) (f : Req → Req) : (s.updReq i f).ethIdx = s.ethIdx := rfl
@[simp] theorem State.updReq_podChips (s : State) (i : Nat) (f : Req → Req) : (s.updReq i f).podChips = s.podChips := rfl
@[simp] theorem State.updReq_podMap (s : State) (i : Nat) (f : Req → Req) : (s.updReq i f).podMap = s.podMap := rfl
@[simp] theorem State.updReq_alone (s : State) (i : Nat) (f : Req → Req) : (s.updReq i f).alone = s.alone := rfl
@[simp] theorem State.updReq_podFormed (s : State) (i : Nat) (f : Req → Req) : (s.updReq i f).podFormed = s.podFormed := rfl
@[simp] theorem State.updReq_slow (s : State) (i : Nat) (f : Req → Req) : (s.updReq i f).slow = s.slow := rfl
@[simp] theorem State.updReq_treeSent (s : State) (i : Nat) (f : Req → Req) : (s.updReq i f).treeSent = s.treeSent := rfl
@[simp] theorem State.updReq_treeSeen (s : State) (i : Nat) (f : Req → Req) : (s.updReq i f).treeSeen = s.treeSeen := rfl
@[simp] theorem State.updReq_treeHeld (s : State) (i : Nat) (f : Req → Req) : (s.updReq i f).treeHeld = s.treeHeld := rfl
@[simp] theorem State.updReq_flitSeen (s : State) (i : Nat) (f : Req → Req) : (s.updReq i f).flitSeen = s.flitSeen := rfl
@[simp] theorem State.updReq_asks (s : State) (i : Nat) (f : Req → Req) : (s.updReq i f).asks = s.asks := rfl
@[simp] theorem State.updReq_waiters (s : State) (i : Nat) (f : Req → Req) : (s.updReq i f).waiters = s.waiters := rfl
@[simp] theorem State.updReq_owedUnits (s : State) (i : Nat) (f : Req → Req) : (s.updReq i f).owedUnits = s.owedUnits := rfl
@[simp] theorem State.updReq_parked (s : State) (i : Nat) (f : Req → Req) : (s.updReq i f).parked = s.parked := rfl

/-! ### `State.setGang`: every field but those that hold gangs -/

@[simp] theorem State.setGang_ptb (s : State) (a : Agent) (g : Gang) : (s.setGang a g).ptb = s.ptb := by cases a <;> rfl
@[simp] theorem State.setGang_agenda (s : State) (a : Agent) (g : Gang) : (s.setGang a g).agenda = s.agenda := by cases a <;> rfl
@[simp] theorem State.setGang_choiceNo (s : State) (a : Agent) (g : Gang) : (s.setGang a g).choiceNo = s.choiceNo := by cases a <;> rfl
@[simp] theorem State.setGang_cur (s : State) (a : Agent) (g : Gang) : (s.setGang a g).cur = s.cur := by cases a <;> rfl
@[simp] theorem State.setGang_mask (s : State) (a : Agent) (g : Gang) : (s.setGang a g).mask = s.mask := by cases a <;> rfl
@[simp] theorem State.setGang_free (s : State) (a : Agent) (g : Gang) : (s.setGang a g).free = s.free := by cases a <;> rfl
@[simp] theorem State.setGang_serialNo (s : State) (a : Agent) (g : Gang) : (s.setGang a g).serialNo = s.serialNo := by cases a <;> rfl
@[simp] theorem State.setGang_out (s : State) (a : Agent) (g : Gang) : (s.setGang a g).out = s.out := by cases a <;> rfl
@[simp] theorem State.setGang_present (s : State) (a : Agent) (g : Gang) : (s.setGang a g).present = s.present := by cases a <;> rfl
@[simp] theorem State.setGang_chip (s : State) (a : Agent) (g : Gang) : (s.setGang a g).chip = s.chip := by cases a <;> rfl
@[simp] theorem State.setGang_flash (s : State) (a : Agent) (g : Gang) : (s.setGang a g).flash = s.flash := by cases a <;> rfl
@[simp] theorem State.setGang_puf (s : State) (a : Agent) (g : Gang) : (s.setGang a g).puf = s.puf := by cases a <;> rfl
@[simp] theorem State.setGang_inReset (s : State) (a : Agent) (g : Gang) : (s.setGang a g).inReset = s.inReset := by cases a <;> rfl
@[simp] theorem State.setGang_mcTime (s : State) (a : Agent) (g : Gang) : (s.setGang a g).mcTime = s.mcTime := by cases a <;> rfl
@[simp] theorem State.setGang_railsAt (s : State) (a : Agent) (g : Gang) : (s.setGang a g).railsAt = s.railsAt := by cases a <;> rfl
@[simp] theorem State.setGang_tripped (s : State) (a : Agent) (g : Gang) : (s.setGang a g).tripped = s.tripped := by cases a <;> rfl
@[simp] theorem State.setGang_bootStep (s : State) (a : Agent) (g : Gang) : (s.setGang a g).bootStep = s.bootStep := by cases a <;> rfl
@[simp] theorem State.setGang_bootRecord (s : State) (a : Agent) (g : Gang) : (s.setGang a g).bootRecord = s.bootRecord := by cases a <;> rfl
@[simp] theorem State.setGang_mcstat (s : State) (a : Agent) (g : Gang) : (s.setGang a g).mcstat = s.mcstat := by cases a <;> rfl
@[simp] theorem State.setGang_mcpwr (s : State) (a : Agent) (g : Gang) : (s.setGang a g).mcpwr = s.mcpwr := by cases a <;> rfl
@[simp] theorem State.setGang_mctemp (s : State) (a : Agent) (g : Gang) : (s.setGang a g).mctemp = s.mctemp := by cases a <;> rfl
@[simp] theorem State.setGang_mcce (s : State) (a : Agent) (g : Gang) : (s.setGang a g).mcce = s.mcce := by cases a <;> rfl
@[simp] theorem State.setGang_mceth (s : State) (a : Agent) (g : Gang) : (s.setGang a g).mceth = s.mceth := by cases a <;> rfl
@[simp] theorem State.setGang_pwrHalved (s : State) (a : Agent) (g : Gang) : (s.setGang a g).pwrHalved = s.pwrHalved := by cases a <;> rfl
@[simp] theorem State.setGang_pwrZero (s : State) (a : Agent) (g : Gang) : (s.setGang a g).pwrZero = s.pwrZero := by cases a <;> rfl
@[simp] theorem State.setGang_localBase (s : State) (a : Agent) (g : Gang) : (s.setGang a g).localBase = s.localBase := by cases a <;> rfl
@[simp] theorem State.setGang_podBase (s : State) (a : Agent) (g : Gang) : (s.setGang a g).podBase = s.podBase := by cases a <;> rfl
@[simp] theorem State.setGang_tenantBase (s : State) (a : Agent) (g : Gang) : (s.setGang a g).tenantBase = s.tenantBase := by cases a <;> rfl
@[simp] theorem State.setGang_pasidTbl (s : State) (a : Agent) (g : Gang) : (s.setGang a g).pasidTbl = s.pasidTbl := by cases a <;> rfl
@[simp] theorem State.setGang_cctBase (s : State) (a : Agent) (g : Gang) : (s.setGang a g).cctBase = s.cctBase := by cases a <;> rfl
@[simp] theorem State.setGang_harts (s : State) (a : Agent) (g : Gang) : (s.setGang a g).harts = s.harts := by cases a <;> rfl
@[simp] theorem State.setGang_imsics (s : State) (a : Agent) (g : Gang) : (s.setGang a g).imsics = s.imsics := by cases a <;> rfl
@[simp] theorem State.setGang_hosted (s : State) (a : Agent) (g : Gang) : (s.setGang a g).hosted = s.hosted := by cases a <;> rfl
@[simp] theorem State.setGang_hostLink (s : State) (a : Agent) (g : Gang) : (s.setGang a g).hostLink = s.hostLink := by cases a <;> rfl
@[simp] theorem State.setGang_doorbells (s : State) (a : Agent) (g : Gang) : (s.setGang a g).doorbells = s.doorbells := by cases a <;> rfl
@[simp] theorem State.setGang_owners (s : State) (a : Agent) (g : Gang) : (s.setGang a g).owners = s.owners := by cases a <;> rfl
@[simp] theorem State.setGang_mem (s : State) (a : Agent) (g : Gang) : (s.setGang a g).mem = s.mem := by cases a <;> rfl
@[simp] theorem State.setGang_poison (s : State) (a : Agent) (g : Gang) : (s.setGang a g).poison = s.poison := by cases a <;> rfl
@[simp] theorem State.setGang_dirtyLines (s : State) (a : Agent) (g : Gang) : (s.setGang a g).dirtyLines = s.dirtyLines := by cases a <;> rfl
@[simp] theorem State.setGang_predictors (s : State) (a : Agent) (g : Gang) : (s.setGang a g).predictors = s.predictors := by cases a <;> rfl
@[simp] theorem State.setGang_homes (s : State) (a : Agent) (g : Gang) : (s.setGang a g).homes = s.homes := by cases a <;> rfl
@[simp] theorem State.setGang_reqs (s : State) (a : Agent) (g : Gang) : (s.setGang a g).reqs = s.reqs := by cases a <;> rfl
@[simp] theorem State.setGang_hostWrites (s : State) (a : Agent) (g : Gang) : (s.setGang a g).hostWrites = s.hostWrites := by cases a <;> rfl
@[simp] theorem State.setGang_dmaWct (s : State) (a : Agent) (g : Gang) : (s.setGang a g).dmaWct = s.dmaWct := by cases a <;> rfl
@[simp] theorem State.setGang_tlbs (s : State) (a : Agent) (g : Gang) : (s.setGang a g).tlbs = s.tlbs := by cases a <;> rfl
@[simp] theorem State.setGang_walks (s : State) (a : Agent) (g : Gang) : (s.setGang a g).walks = s.walks := by cases a <;> rfl
@[simp] theorem State.setGang_invals (s : State) (a : Agent) (g : Gang) : (s.setGang a g).invals = s.invals := by cases a <;> rfl
@[simp] theorem State.setGang_heldFaults (s : State) (a : Agent) (g : Gang) : (s.setGang a g).heldFaults = s.heldFaults := by cases a <;> rfl
@[simp] theorem State.setGang_rights (s : State) (a : Agent) (g : Gang) : (s.setGang a g).rights = s.rights := by cases a <;> rfl
@[simp] theorem State.setGang_l1 (s : State) (a : Agent) (g : Gang) : (s.setGang a g).l1 = s.l1 := by cases a <;> rfl
@[simp] theorem State.setGang_cores (s : State) (a : Agent) (g : Gang) : (s.setGang a g).cores = s.cores := by cases a <;> rfl
@[simp] theorem State.setGang_copies (s : State) (a : Agent) (g : Gang) : (s.setGang a g).copies = s.copies := by cases a <;> rfl
@[simp] theorem State.setGang_ops (s : State) (a : Agent) (g : Gang) : (s.setGang a g).ops = s.ops := by cases a <;> rfl
@[simp] theorem State.setGang_launches (s : State) (a : Agent) (g : Gang) : (s.setGang a g).launches = s.launches := by cases a <;> rfl
@[simp] theorem State.setGang_tcbs (s : State) (a : Agent) (g : Gang) : (s.setGang a g).tcbs = s.tcbs := by cases a <;> rfl
@[simp] theorem State.setGang_graphs (s : State) (a : Agent) (g : Gang) : (s.setGang a g).graphs = s.graphs := by cases a <;> rfl
@[simp] theorem State.setGang_slices (s : State) (a : Agent) (g : Gang) : (s.setGang a g).slices = s.slices := by cases a <;> rfl
@[simp] theorem State.setGang_queues (s : State) (a : Agent) (g : Gang) : (s.setGang a g).queues = s.queues := by cases a <;> rfl
@[simp] theorem State.setGang_tenants (s : State) (a : Agent) (g : Gang) : (s.setGang a g).tenants = s.tenants := by cases a <;> rfl
@[simp] theorem State.setGang_events (s : State) (a : Agent) (g : Gang) : (s.setGang a g).events = s.events := by cases a <;> rfl
@[simp] theorem State.setGang_channels (s : State) (a : Agent) (g : Gang) : (s.setGang a g).channels = s.channels := by cases a <;> rfl
@[simp] theorem State.setGang_heldMsgs (s : State) (a : Agent) (g : Gang) : (s.setGang a g).heldMsgs = s.heldMsgs := by cases a <;> rfl
@[simp] theorem State.setGang_checks (s : State) (a : Agent) (g : Gang) : (s.setGang a g).checks = s.checks := by cases a <;> rfl
@[simp] theorem State.setGang_activeB (s : State) (a : Agent) (g : Gang) : (s.setGang a g).activeB = s.activeB := by cases a <;> rfl
@[simp] theorem State.setGang_versionA (s : State) (a : Agent) (g : Gang) : (s.setGang a g).versionA = s.versionA := by cases a <;> rfl
@[simp] theorem State.setGang_versionB (s : State) (a : Agent) (g : Gang) : (s.setGang a g).versionB = s.versionB := by cases a <;> rfl
@[simp] theorem State.setGang_update (s : State) (a : Agent) (g : Gang) : (s.setGang a g).update = s.update := by cases a <;> rfl
@[simp] theorem State.setGang_log (s : State) (a : Agent) (g : Gang) : (s.setGang a g).log = s.log := by cases a <;> rfl
@[simp] theorem State.setGang_bank (s : State) (a : Agent) (g : Gang) : (s.setGang a g).bank = s.bank := by cases a <;> rfl
@[simp] theorem State.setGang_ports (s : State) (a : Agent) (g : Gang) : (s.setGang a g).ports = s.ports := by cases a <;> rfl
@[simp] theorem State.setGang_ethIdx (s : State) (a : Agent) (g : Gang) : (s.setGang a g).ethIdx = s.ethIdx := by cases a <;> rfl
@[simp] theorem State.setGang_podChips (s : State) (a : Agent) (g : Gang) : (s.setGang a g).podChips = s.podChips := by cases a <;> rfl
@[simp] theorem State.setGang_podMap (s : State) (a : Agent) (g : Gang) : (s.setGang a g).podMap = s.podMap := by cases a <;> rfl
@[simp] theorem State.setGang_alone (s : State) (a : Agent) (g : Gang) : (s.setGang a g).alone = s.alone := by cases a <;> rfl
@[simp] theorem State.setGang_podFormed (s : State) (a : Agent) (g : Gang) : (s.setGang a g).podFormed = s.podFormed := by cases a <;> rfl
@[simp] theorem State.setGang_slow (s : State) (a : Agent) (g : Gang) : (s.setGang a g).slow = s.slow := by cases a <;> rfl
@[simp] theorem State.setGang_treeSent (s : State) (a : Agent) (g : Gang) : (s.setGang a g).treeSent = s.treeSent := by cases a <;> rfl
@[simp] theorem State.setGang_treeSeen (s : State) (a : Agent) (g : Gang) : (s.setGang a g).treeSeen = s.treeSeen := by cases a <;> rfl
@[simp] theorem State.setGang_treeHeld (s : State) (a : Agent) (g : Gang) : (s.setGang a g).treeHeld = s.treeHeld := by cases a <;> rfl
@[simp] theorem State.setGang_flitSeen (s : State) (a : Agent) (g : Gang) : (s.setGang a g).flitSeen = s.flitSeen := by cases a <;> rfl
@[simp] theorem State.setGang_asks (s : State) (a : Agent) (g : Gang) : (s.setGang a g).asks = s.asks := by cases a <;> rfl
@[simp] theorem State.setGang_waiters (s : State) (a : Agent) (g : Gang) : (s.setGang a g).waiters = s.waiters := by cases a <;> rfl
@[simp] theorem State.setGang_owedUnits (s : State) (a : Agent) (g : Gang) : (s.setGang a g).owedUnits = s.owedUnits := by cases a <;> rfl
@[simp] theorem State.setGang_parked (s : State) (a : Agent) (g : Gang) : (s.setGang a g).parked = s.parked := by cases a <;> rfl

/-! ### `State.updGang`: every field but those that hold gangs -/

@[simp] theorem State.updGang_ptb (s : State) (a : Agent) (f : Gang → Gang) : (s.updGang a f).ptb = s.ptb := by unfold State.updGang; split <;> simp
@[simp] theorem State.updGang_agenda (s : State) (a : Agent) (f : Gang → Gang) : (s.updGang a f).agenda = s.agenda := by unfold State.updGang; split <;> simp
@[simp] theorem State.updGang_choiceNo (s : State) (a : Agent) (f : Gang → Gang) : (s.updGang a f).choiceNo = s.choiceNo := by unfold State.updGang; split <;> simp
@[simp] theorem State.updGang_cur (s : State) (a : Agent) (f : Gang → Gang) : (s.updGang a f).cur = s.cur := by unfold State.updGang; split <;> simp
@[simp] theorem State.updGang_mask (s : State) (a : Agent) (f : Gang → Gang) : (s.updGang a f).mask = s.mask := by unfold State.updGang; split <;> simp
@[simp] theorem State.updGang_free (s : State) (a : Agent) (f : Gang → Gang) : (s.updGang a f).free = s.free := by unfold State.updGang; split <;> simp
@[simp] theorem State.updGang_serialNo (s : State) (a : Agent) (f : Gang → Gang) : (s.updGang a f).serialNo = s.serialNo := by unfold State.updGang; split <;> simp
@[simp] theorem State.updGang_out (s : State) (a : Agent) (f : Gang → Gang) : (s.updGang a f).out = s.out := by unfold State.updGang; split <;> simp
@[simp] theorem State.updGang_present (s : State) (a : Agent) (f : Gang → Gang) : (s.updGang a f).present = s.present := by unfold State.updGang; split <;> simp
@[simp] theorem State.updGang_chip (s : State) (a : Agent) (f : Gang → Gang) : (s.updGang a f).chip = s.chip := by unfold State.updGang; split <;> simp
@[simp] theorem State.updGang_flash (s : State) (a : Agent) (f : Gang → Gang) : (s.updGang a f).flash = s.flash := by unfold State.updGang; split <;> simp
@[simp] theorem State.updGang_puf (s : State) (a : Agent) (f : Gang → Gang) : (s.updGang a f).puf = s.puf := by unfold State.updGang; split <;> simp
@[simp] theorem State.updGang_inReset (s : State) (a : Agent) (f : Gang → Gang) : (s.updGang a f).inReset = s.inReset := by unfold State.updGang; split <;> simp
@[simp] theorem State.updGang_mcTime (s : State) (a : Agent) (f : Gang → Gang) : (s.updGang a f).mcTime = s.mcTime := by unfold State.updGang; split <;> simp
@[simp] theorem State.updGang_railsAt (s : State) (a : Agent) (f : Gang → Gang) : (s.updGang a f).railsAt = s.railsAt := by unfold State.updGang; split <;> simp
@[simp] theorem State.updGang_tripped (s : State) (a : Agent) (f : Gang → Gang) : (s.updGang a f).tripped = s.tripped := by unfold State.updGang; split <;> simp
@[simp] theorem State.updGang_bootStep (s : State) (a : Agent) (f : Gang → Gang) : (s.updGang a f).bootStep = s.bootStep := by unfold State.updGang; split <;> simp
@[simp] theorem State.updGang_bootRecord (s : State) (a : Agent) (f : Gang → Gang) : (s.updGang a f).bootRecord = s.bootRecord := by unfold State.updGang; split <;> simp
@[simp] theorem State.updGang_mcstat (s : State) (a : Agent) (f : Gang → Gang) : (s.updGang a f).mcstat = s.mcstat := by unfold State.updGang; split <;> simp
@[simp] theorem State.updGang_mcpwr (s : State) (a : Agent) (f : Gang → Gang) : (s.updGang a f).mcpwr = s.mcpwr := by unfold State.updGang; split <;> simp
@[simp] theorem State.updGang_mctemp (s : State) (a : Agent) (f : Gang → Gang) : (s.updGang a f).mctemp = s.mctemp := by unfold State.updGang; split <;> simp
@[simp] theorem State.updGang_mcce (s : State) (a : Agent) (f : Gang → Gang) : (s.updGang a f).mcce = s.mcce := by unfold State.updGang; split <;> simp
@[simp] theorem State.updGang_mceth (s : State) (a : Agent) (f : Gang → Gang) : (s.updGang a f).mceth = s.mceth := by unfold State.updGang; split <;> simp
@[simp] theorem State.updGang_pwrHalved (s : State) (a : Agent) (f : Gang → Gang) : (s.updGang a f).pwrHalved = s.pwrHalved := by unfold State.updGang; split <;> simp
@[simp] theorem State.updGang_pwrZero (s : State) (a : Agent) (f : Gang → Gang) : (s.updGang a f).pwrZero = s.pwrZero := by unfold State.updGang; split <;> simp
@[simp] theorem State.updGang_localBase (s : State) (a : Agent) (f : Gang → Gang) : (s.updGang a f).localBase = s.localBase := by unfold State.updGang; split <;> simp
@[simp] theorem State.updGang_podBase (s : State) (a : Agent) (f : Gang → Gang) : (s.updGang a f).podBase = s.podBase := by unfold State.updGang; split <;> simp
@[simp] theorem State.updGang_tenantBase (s : State) (a : Agent) (f : Gang → Gang) : (s.updGang a f).tenantBase = s.tenantBase := by unfold State.updGang; split <;> simp
@[simp] theorem State.updGang_pasidTbl (s : State) (a : Agent) (f : Gang → Gang) : (s.updGang a f).pasidTbl = s.pasidTbl := by unfold State.updGang; split <;> simp
@[simp] theorem State.updGang_cctBase (s : State) (a : Agent) (f : Gang → Gang) : (s.updGang a f).cctBase = s.cctBase := by unfold State.updGang; split <;> simp
@[simp] theorem State.updGang_harts (s : State) (a : Agent) (f : Gang → Gang) : (s.updGang a f).harts = s.harts := by unfold State.updGang; split <;> simp
@[simp] theorem State.updGang_imsics (s : State) (a : Agent) (f : Gang → Gang) : (s.updGang a f).imsics = s.imsics := by unfold State.updGang; split <;> simp
@[simp] theorem State.updGang_hosted (s : State) (a : Agent) (f : Gang → Gang) : (s.updGang a f).hosted = s.hosted := by unfold State.updGang; split <;> simp
@[simp] theorem State.updGang_hostLink (s : State) (a : Agent) (f : Gang → Gang) : (s.updGang a f).hostLink = s.hostLink := by unfold State.updGang; split <;> simp
@[simp] theorem State.updGang_doorbells (s : State) (a : Agent) (f : Gang → Gang) : (s.updGang a f).doorbells = s.doorbells := by unfold State.updGang; split <;> simp
@[simp] theorem State.updGang_owners (s : State) (a : Agent) (f : Gang → Gang) : (s.updGang a f).owners = s.owners := by unfold State.updGang; split <;> simp
@[simp] theorem State.updGang_mem (s : State) (a : Agent) (f : Gang → Gang) : (s.updGang a f).mem = s.mem := by unfold State.updGang; split <;> simp
@[simp] theorem State.updGang_poison (s : State) (a : Agent) (f : Gang → Gang) : (s.updGang a f).poison = s.poison := by unfold State.updGang; split <;> simp
@[simp] theorem State.updGang_dirtyLines (s : State) (a : Agent) (f : Gang → Gang) : (s.updGang a f).dirtyLines = s.dirtyLines := by unfold State.updGang; split <;> simp
@[simp] theorem State.updGang_predictors (s : State) (a : Agent) (f : Gang → Gang) : (s.updGang a f).predictors = s.predictors := by unfold State.updGang; split <;> simp
@[simp] theorem State.updGang_homes (s : State) (a : Agent) (f : Gang → Gang) : (s.updGang a f).homes = s.homes := by unfold State.updGang; split <;> simp
@[simp] theorem State.updGang_reqs (s : State) (a : Agent) (f : Gang → Gang) : (s.updGang a f).reqs = s.reqs := by unfold State.updGang; split <;> simp
@[simp] theorem State.updGang_hostWrites (s : State) (a : Agent) (f : Gang → Gang) : (s.updGang a f).hostWrites = s.hostWrites := by unfold State.updGang; split <;> simp
@[simp] theorem State.updGang_dmaWct (s : State) (a : Agent) (f : Gang → Gang) : (s.updGang a f).dmaWct = s.dmaWct := by unfold State.updGang; split <;> simp
@[simp] theorem State.updGang_tlbs (s : State) (a : Agent) (f : Gang → Gang) : (s.updGang a f).tlbs = s.tlbs := by unfold State.updGang; split <;> simp
@[simp] theorem State.updGang_walks (s : State) (a : Agent) (f : Gang → Gang) : (s.updGang a f).walks = s.walks := by unfold State.updGang; split <;> simp
@[simp] theorem State.updGang_invals (s : State) (a : Agent) (f : Gang → Gang) : (s.updGang a f).invals = s.invals := by unfold State.updGang; split <;> simp
@[simp] theorem State.updGang_heldFaults (s : State) (a : Agent) (f : Gang → Gang) : (s.updGang a f).heldFaults = s.heldFaults := by unfold State.updGang; split <;> simp
@[simp] theorem State.updGang_rights (s : State) (a : Agent) (f : Gang → Gang) : (s.updGang a f).rights = s.rights := by unfold State.updGang; split <;> simp
@[simp] theorem State.updGang_l1 (s : State) (a : Agent) (f : Gang → Gang) : (s.updGang a f).l1 = s.l1 := by unfold State.updGang; split <;> simp
@[simp] theorem State.updGang_cores (s : State) (a : Agent) (f : Gang → Gang) : (s.updGang a f).cores = s.cores := by unfold State.updGang; split <;> simp
@[simp] theorem State.updGang_copies (s : State) (a : Agent) (f : Gang → Gang) : (s.updGang a f).copies = s.copies := by unfold State.updGang; split <;> simp
@[simp] theorem State.updGang_ops (s : State) (a : Agent) (f : Gang → Gang) : (s.updGang a f).ops = s.ops := by unfold State.updGang; split <;> simp
@[simp] theorem State.updGang_launches (s : State) (a : Agent) (f : Gang → Gang) : (s.updGang a f).launches = s.launches := by unfold State.updGang; split <;> simp
@[simp] theorem State.updGang_tcbs (s : State) (a : Agent) (f : Gang → Gang) : (s.updGang a f).tcbs = s.tcbs := by unfold State.updGang; split <;> simp
@[simp] theorem State.updGang_graphs (s : State) (a : Agent) (f : Gang → Gang) : (s.updGang a f).graphs = s.graphs := by unfold State.updGang; split <;> simp
@[simp] theorem State.updGang_slices (s : State) (a : Agent) (f : Gang → Gang) : (s.updGang a f).slices = s.slices := by unfold State.updGang; split <;> simp
@[simp] theorem State.updGang_queues (s : State) (a : Agent) (f : Gang → Gang) : (s.updGang a f).queues = s.queues := by unfold State.updGang; split <;> simp
@[simp] theorem State.updGang_tenants (s : State) (a : Agent) (f : Gang → Gang) : (s.updGang a f).tenants = s.tenants := by unfold State.updGang; split <;> simp
@[simp] theorem State.updGang_events (s : State) (a : Agent) (f : Gang → Gang) : (s.updGang a f).events = s.events := by unfold State.updGang; split <;> simp
@[simp] theorem State.updGang_channels (s : State) (a : Agent) (f : Gang → Gang) : (s.updGang a f).channels = s.channels := by unfold State.updGang; split <;> simp
@[simp] theorem State.updGang_heldMsgs (s : State) (a : Agent) (f : Gang → Gang) : (s.updGang a f).heldMsgs = s.heldMsgs := by unfold State.updGang; split <;> simp
@[simp] theorem State.updGang_checks (s : State) (a : Agent) (f : Gang → Gang) : (s.updGang a f).checks = s.checks := by unfold State.updGang; split <;> simp
@[simp] theorem State.updGang_activeB (s : State) (a : Agent) (f : Gang → Gang) : (s.updGang a f).activeB = s.activeB := by unfold State.updGang; split <;> simp
@[simp] theorem State.updGang_versionA (s : State) (a : Agent) (f : Gang → Gang) : (s.updGang a f).versionA = s.versionA := by unfold State.updGang; split <;> simp
@[simp] theorem State.updGang_versionB (s : State) (a : Agent) (f : Gang → Gang) : (s.updGang a f).versionB = s.versionB := by unfold State.updGang; split <;> simp
@[simp] theorem State.updGang_update (s : State) (a : Agent) (f : Gang → Gang) : (s.updGang a f).update = s.update := by unfold State.updGang; split <;> simp
@[simp] theorem State.updGang_log (s : State) (a : Agent) (f : Gang → Gang) : (s.updGang a f).log = s.log := by unfold State.updGang; split <;> simp
@[simp] theorem State.updGang_bank (s : State) (a : Agent) (f : Gang → Gang) : (s.updGang a f).bank = s.bank := by unfold State.updGang; split <;> simp
@[simp] theorem State.updGang_ports (s : State) (a : Agent) (f : Gang → Gang) : (s.updGang a f).ports = s.ports := by unfold State.updGang; split <;> simp
@[simp] theorem State.updGang_ethIdx (s : State) (a : Agent) (f : Gang → Gang) : (s.updGang a f).ethIdx = s.ethIdx := by unfold State.updGang; split <;> simp
@[simp] theorem State.updGang_podChips (s : State) (a : Agent) (f : Gang → Gang) : (s.updGang a f).podChips = s.podChips := by unfold State.updGang; split <;> simp
@[simp] theorem State.updGang_podMap (s : State) (a : Agent) (f : Gang → Gang) : (s.updGang a f).podMap = s.podMap := by unfold State.updGang; split <;> simp
@[simp] theorem State.updGang_alone (s : State) (a : Agent) (f : Gang → Gang) : (s.updGang a f).alone = s.alone := by unfold State.updGang; split <;> simp
@[simp] theorem State.updGang_podFormed (s : State) (a : Agent) (f : Gang → Gang) : (s.updGang a f).podFormed = s.podFormed := by unfold State.updGang; split <;> simp
@[simp] theorem State.updGang_slow (s : State) (a : Agent) (f : Gang → Gang) : (s.updGang a f).slow = s.slow := by unfold State.updGang; split <;> simp
@[simp] theorem State.updGang_treeSent (s : State) (a : Agent) (f : Gang → Gang) : (s.updGang a f).treeSent = s.treeSent := by unfold State.updGang; split <;> simp
@[simp] theorem State.updGang_treeSeen (s : State) (a : Agent) (f : Gang → Gang) : (s.updGang a f).treeSeen = s.treeSeen := by unfold State.updGang; split <;> simp
@[simp] theorem State.updGang_treeHeld (s : State) (a : Agent) (f : Gang → Gang) : (s.updGang a f).treeHeld = s.treeHeld := by unfold State.updGang; split <;> simp
@[simp] theorem State.updGang_flitSeen (s : State) (a : Agent) (f : Gang → Gang) : (s.updGang a f).flitSeen = s.flitSeen := by unfold State.updGang; split <;> simp
@[simp] theorem State.updGang_asks (s : State) (a : Agent) (f : Gang → Gang) : (s.updGang a f).asks = s.asks := by unfold State.updGang; split <;> simp
@[simp] theorem State.updGang_waiters (s : State) (a : Agent) (f : Gang → Gang) : (s.updGang a f).waiters = s.waiters := by unfold State.updGang; split <;> simp
@[simp] theorem State.updGang_owedUnits (s : State) (a : Agent) (f : Gang → Gang) : (s.updGang a f).owedUnits = s.owedUnits := by unfold State.updGang; split <;> simp
@[simp] theorem State.updGang_parked (s : State) (a : Agent) (f : Gang → Gang) : (s.updGang a f).parked = s.parked := by unfold State.updGang; split <;> simp

end Sys2Proof.Machine
end

