-- ==== Sys2Proof/Laws/Memory.lean ====
section
/-! SUPPORT. Every operation that writes the memory of the package keeps its canonical form, and says which bytes it may change. -/

namespace Sys2Proof.Machine

/-- A fold over states keeps what each of its steps keeps. -/
theorem foldl_keeps {α : Type} {p : State → Prop} (f : State → α → State) (hf : ∀ s x, p s → p (f s x)) (xs : List α) :
    ∀ s, p s → p (xs.foldl f s) := by
  induction xs with
  | nil => exact fun _ h => h
  | cons x xs ih => exact fun s h => ih _ (hf s x h)

/-- Taking the name of a written line into the dirty lines of a slice leaves memory. -/
@[simp] theorem State.soil_mem (s : State) (line : Nat) : (s.soil line).mem = s.mem := by
  unfold State.soil; repeat' split
  all_goals rfl

theorem State.recall_wf (s : State) (line : Nat) (bump : Bool) (h : Memory.wf s.mem = true) :
    Memory.wf (s.recall line bump).mem = true := by
  unfold State.recall
  dsimp only
  repeat' split
  all_goals first
    | exact h
    | exact Mem.storeAll_wf _ _ _ h
    | (simp only [State.setPredictor, State.setHome_mem, State.setL1_mem, State.soil_mem]; exact Mem.storeAll_wf _ _ _ h)

theorem State.recalls_wf (lines : List Nat) (bump : Bool) (s : State) (h : Memory.wf s.mem = true) :
    Memory.wf (lines.foldl (fun s n => s.recall n bump) s).mem = true :=
  foldl_keeps (p := fun s => Memory.wf s.mem = true) _ (fun s n h => s.recall_wf n bump h) lines s h

theorem State.homeWrite_wf (s : State) (key : Nat) (bs : List Byte) (h : Memory.wf s.mem = true) :
    Memory.wf (s.homeWrite key bs).mem = true := Mem.storeAll_wf _ _ _ (State.recalls_wf _ true s h)

theorem State.commit_wf (s : State) (l1 wct key : Nat) (bs : List Byte) (h : Memory.wf s.mem = true) :
    Memory.wf (s.commit l1 wct key bs).mem = true := by
  unfold State.commit
  dsimp only
  rw [State.setHome_mem]
  split
  · exact h
  · rw [State.soil_mem]; exact s.homeWrite_wf key bs h

/-- Telling a source when its write is visible leaves memory. -/
@[simp] theorem State.lockUntil_mem (s : State) (k time : Nat) : (s.lockUntil k time).mem = s.mem := rfl

@[simp] theorem State.landed_mem (s : State) (src : Source) (key wct : Nat) : (s.landed src key wct).mem = s.mem := by
  unfold State.landed
  dsimp only
  repeat' split
  all_goals rfl

theorem State.arrive_wf (s : State) (src : Source) (scope : Option Nat) (key : Nat) (bs : List Byte) (h : Memory.wf s.mem = true) :
    Memory.wf (s.arrive src scope key bs).mem = true := by
  unfold State.arrive
  dsimp only
  split
  · exact h
  · split
    · rw [State.landed_mem]; exact h
    · rw [State.landed_mem]; exact s.commit_wf _ _ _ _ h

theorem State.write_wf (s : State) (src : Source) (scope : Option Nat) (key : Nat) (bs : List Byte) (h : Memory.wf s.mem = true) :
    Memory.wf (s.write src scope key bs).mem = true :=
  foldl_keeps (p := fun s => Memory.wf s.mem = true) _ (fun s q h => s.arrive_wf src scope q.1 q.2 h) _ s h

theorem State.homeStore_wf (s : State) (key : Nat) (bs : List Byte) (h : Memory.wf s.mem = true) :
    Memory.wf (s.homeStore key bs).mem = true := s.write_wf _ _ _ _ h

theorem State.writeAt_wf (s t : State) (src : Source) (scope : Option Nat) (c : Ctx) (va : Word) (bs : List Byte)
    (h : Memory.wf s.mem = true) (ht : s.writeAt src scope c va bs = .ok t) : Memory.wf t.mem = true := by
  unfold State.writeAt at ht
  split at ht
  · cases ht
  · cases ht
    exact foldl_keeps (p := fun s => Memory.wf s.mem = true) _ (fun s q h => s.write_wf src scope q.1 q.2 h) _ s h

theorem State.partWrite_wf (s t : State) (c : Ctx) (va : Word) (bs : List Byte) (h : Memory.wf s.mem = true)
    (ht : s.partWrite c va bs = .ok t) : Memory.wf t.mem = true := s.writeAt_wf t _ _ c va bs h ht

theorem State.scratchWrite_wf (s : State) (w o : Nat) (bs : List Byte) (h : Memory.wf s.mem = true) :
    Memory.wf (s.scratchWrite w o bs).mem = true := by
  unfold State.scratchWrite
  dsimp only
  repeat' split
  all_goals first
    | exact h
    | exact State.partWrite_wf (s.updWg w _) _ _ _ _ h ‹_›

/-! ### Package reset -/

theorem State.memAfter_wf (s : State) : Memory.wf s.memAfter.1 = true := by
  have key : ∀ (ps : List (Nat × Byte)) (acc : Tab Byte × Nat), Memory.wf acc.1 = true →
      Memory.wf (ps.foldl (fun acc p =>
        if p.1 / 2 ^ 40 = s.chip && decide (p.1 < hostKey) then
          (Mem.store acc.1 p.1 ((Config.freeWord acc.2).setWidth 8), acc.2 + 1)
        else (Mem.store acc.1 p.1 p.2, acc.2)) acc).1 = true := by
    intro ps
    induction ps with
    | nil => exact fun _ h => h
    | cons p ps ih =>
      intro acc h
      refine ih _ ?_
      dsimp only
      split <;> exact Mem.store_wf _ _ _ h
  exact key s.mem ([], s.free) rfl

theorem State.packageReset_wf (s : State) : Memory.wf s.packageReset.mem = true := s.memAfter_wf

theorem State.registerStore_wf (s : State) (o : Nat) (v : Word) (h : Memory.wf s.mem = true) :
    Memory.wf (s.registerStore o v).mem = true := by
  unfold State.registerStore
  split
  · exact h
  · split
    · exact s.packageReset_wf
    · exact h

theorem State.registerBytes_wf (s : State) (o : Nat) (bs : List Byte) (h : Memory.wf s.mem = true) :
    Memory.wf (s.registerBytes o bs).mem = true :=
  foldl_keeps (p := fun s => Memory.wf s.mem = true) _ (fun s _ h => s.registerStore_wf _ _ h) _ s h

theorem State.locWrite_wf (s : State) (l : Loc) (bs : List Byte) (h : Memory.wf s.mem = true) :
    Memory.wf (s.locWrite l bs).mem = true := by
  unfold State.locWrite
  split
  · exact s.scratchWrite_wf _ _ bs h
  · exact h
  · exact s.homeStore_wf _ bs h
  · exact s.registerBytes_wf _ bs h

/-! ### What a write at a home changes -/

theorem State.recall_mem (s : State) (line : Nat) (bump : Bool) (k : Nat) (hk : k / 128 ≠ line)
    (hl : ∀ l ln, Tab.find (s.l1At l) line = some ln → ln.data.length ≤ 128) :
    Mem.byte (s.recall line bump).mem k = Mem.byte s.mem k := by
  unfold State.recall
  dsimp only
  repeat' split
  all_goals first
    | rfl
    | (simp only [State.setPredictor, State.setHome_mem, State.setL1_mem, State.soil_mem]
       refine Mem.byte_storeAll_other _ _ _ _ ?_
       have := hl _ _ ‹_›
       omega)

end Sys2Proof.Machine
end

