-- ==== Sys2Proof/Laws/PerInstr.lean ====
section
/-! SUPPORT. Statements of every instruction, one lemma per constructor. -/

namespace Sys2Proof.Laws.OnlyWordsAreRefused

/-- An instruction is well formed, or it has a word, and Table 4.6 says which of its words are refused: an event is always well formed. -/
def Statement (i : Instr) : Prop := i.wf = true ∨ (encode i).isSome = true

theorem nop : Statement .nop := .inl rfl
theorem mov (d : BitVec 6) (b : BitVec 6) (u : BitVec 1) : Statement (.mov d b u) := .inl rfl
theorem rdsr (d : BitVec 6) (s : BitVec 12) : Statement (.rdsr d s) := .inr rfl
theorem wrsr (h : BitVec 6) (a : BitVec 6) (k : BitVec 6) : Statement (.wrsr h a k) := .inr rfl
theorem movgv (d : BitVec 6) : Statement (.movgv d) := .inl rfl
theorem movvg (b : BitVec 6) (u : BitVec 1) : Statement (.movvg b u) := .inl rfl
theorem waitne (d : BitVec 6) (a : BitVec 6) (b : BitVec 6) (u : BitVec 1) : Statement (.waitne d a b u) := .inl rfl
theorem lanemask (d : BitVec 6) (k : BitVec 6) : Statement (.lanemask d k) := .inr rfl
theorem sel (d : BitVec 6) (a : BitVec 6) (b : BitVec 6) (u : BitVec 1) (n : BitVec 1) (g : BitVec 3) : Statement (.sel d a b u n g) := .inl rfl
theorem addW (d : BitVec 6) (a : BitVec 6) (b : BitVec 6) (u : BitVec 1) : Statement (.addW d a b u) := .inl rfl
theorem addD (d : BitVec 6) (a : BitVec 6) (b : BitVec 6) (u : BitVec 1) : Statement (.addD d a b u) := .inl rfl
theorem subW (d : BitVec 6) (a : BitVec 6) (b : BitVec 6) (u : BitVec 1) : Statement (.subW d a b u) := .inl rfl
theorem subD (d : BitVec 6) (a : BitVec 6) (b : BitVec 6) (u : BitVec 1) : Statement (.subD d a b u) := .inl rfl
theorem mulW (d : BitVec 6) (a : BitVec 6) (b : BitVec 6) (u : BitVec 1) : Statement (.mulW d a b u) := .inl rfl
theorem mulD (d : BitVec 6) (a : BitVec 6) (b : BitVec 6) (u : BitVec 1) : Statement (.mulD d a b u) := .inl rfl
theorem mulhD (d : BitVec 6) (a : BitVec 6) (b : BitVec 6) (u : BitVec 1) : Statement (.mulhD d a b u) := .inl rfl
theorem mulhuD (d : BitVec 6) (a : BitVec 6) (b : BitVec 6) (u : BitVec 1) : Statement (.mulhuD d a b u) := .inl rfl
theorem madW (d : BitVec 6) (a : BitVec 6) (b : BitVec 6) (u : BitVec 1) : Statement (.madW d a b u) := .inl rfl
theorem madD (d : BitVec 6) (a : BitVec 6) (b : BitVec 6) (u : BitVec 1) : Statement (.madD d a b u) := .inl rfl
theorem and (d : BitVec 6) (a : BitVec 6) (b : BitVec 6) (u : BitVec 1) : Statement (.and d a b u) := .inl rfl
theorem or (d : BitVec 6) (a : BitVec 6) (b : BitVec 6) (u : BitVec 1) : Statement (.or d a b u) := .inl rfl
theorem xor (d : BitVec 6) (a : BitVec 6) (b : BitVec 6) (u : BitVec 1) : Statement (.xor d a b u) := .inl rfl
theorem andn (d : BitVec 6) (a : BitVec 6) (b : BitVec 6) (u : BitVec 1) : Statement (.andn d a b u) := .inl rfl
theorem shlW (d : BitVec 6) (a : BitVec 6) (b : BitVec 6) (u : BitVec 1) : Statement (.shlW d a b u) := .inl rfl
theorem shlD (d : BitVec 6) (a : BitVec 6) (b : BitVec 6) (u : BitVec 1) : Statement (.shlD d a b u) := .inl rfl
theorem shrW (d : BitVec 6) (a : BitVec 6) (b : BitVec 6) (u : BitVec 1) : Statement (.shrW d a b u) := .inl rfl
theorem shrD (d : BitVec 6) (a : BitVec 6) (b : BitVec 6) (u : BitVec 1) : Statement (.shrD d a b u) := .inl rfl
theorem sraW (d : BitVec 6) (a : BitVec 6) (b : BitVec 6) (u : BitVec 1) : Statement (.sraW d a b u) := .inl rfl
theorem sraD (d : BitVec 6) (a : BitVec 6) (b : BitVec 6) (u : BitVec 1) : Statement (.sraD d a b u) := .inl rfl
theorem rotW (d : BitVec 6) (a : BitVec 6) (b : BitVec 6) (u : BitVec 1) : Statement (.rotW d a b u) := .inl rfl
theorem rotD (d : BitVec 6) (a : BitVec 6) (b : BitVec 6) (u : BitVec 1) : Statement (.rotD d a b u) := .inl rfl
theorem min (d : BitVec 6) (a : BitVec 6) (b : BitVec 6) (u : BitVec 1) : Statement (.min d a b u) := .inl rfl
theorem max (d : BitVec 6) (a : BitVec 6) (b : BitVec 6) (u : BitVec 1) : Statement (.max d a b u) := .inl rfl
theorem minu (d : BitVec 6) (a : BitVec 6) (b : BitVec 6) (u : BitVec 1) : Statement (.minu d a b u) := .inl rfl
theorem maxu (d : BitVec 6) (a : BitVec 6) (b : BitVec 6) (u : BitVec 1) : Statement (.maxu d a b u) := .inl rfl
theorem abs (d : BitVec 6) (a : BitVec 6) : Statement (.abs d a) := .inl rfl
theorem clz (d : BitVec 6) (a : BitVec 6) : Statement (.clz d a) := .inl rfl
theorem popc (d : BitVec 6) (a : BitVec 6) : Statement (.popc d a) := .inl rfl
theorem brev (d : BitVec 6) (a : BitVec 6) : Statement (.brev d a) := .inl rfl
theorem bfe (d : BitVec 6) (a : BitVec 6) (b : BitVec 6) (u : BitVec 1) : Statement (.bfe d a b u) := .inl rfl
theorem bfeu (d : BitVec 6) (a : BitVec 6) (b : BitVec 6) (u : BitVec 1) : Statement (.bfeu d a b u) := .inl rfl
theorem bfi (d : BitVec 6) (a : BitVec 6) (b : BitVec 6) (u : BitVec 1) : Statement (.bfi d a b u) := .inl rfl
theorem slt (d : BitVec 6) (a : BitVec 6) (b : BitVec 6) (u : BitVec 1) : Statement (.slt d a b u) := .inl rfl
theorem sltu (d : BitVec 6) (a : BitVec 6) (b : BitVec 6) (u : BitVec 1) : Statement (.sltu d a b u) := .inl rfl
theorem seq (d : BitVec 6) (a : BitVec 6) (b : BitVec 6) (u : BitVec 1) : Statement (.seq d a b u) := .inl rfl
theorem sne (d : BitVec 6) (a : BitVec 6) (b : BitVec 6) (u : BitVec 1) : Statement (.sne d a b u) := .inl rfl
theorem addva (d : BitVec 6) (a : BitVec 6) (b : BitVec 6) (u : BitVec 1) : Statement (.addva d a b u) := .inl rfl
theorem icmpW (g : BitVec 3) (a : BitVec 6) (b : BitVec 6) (u : BitVec 1) (c : BitVec 3) : Statement (.icmpW g a b u c) := .inr rfl
theorem icmpD (g : BitVec 3) (a : BitVec 6) (b : BitVec 6) (u : BitVec 1) (c : BitVec 3) : Statement (.icmpD g a b u c) := .inr rfl
theorem fadd (d : BitVec 6) (a : BitVec 6) (b : BitVec 6) (u : BitVec 1) : Statement (.fadd d a b u) := .inl rfl
theorem fsub (d : BitVec 6) (a : BitVec 6) (b : BitVec 6) (u : BitVec 1) : Statement (.fsub d a b u) := .inl rfl
theorem fmul (d : BitVec 6) (a : BitVec 6) (b : BitVec 6) (u : BitVec 1) : Statement (.fmul d a b u) := .inl rfl
theorem ffma (d : BitVec 6) (a : BitVec 6) (b : BitVec 6) (u : BitVec 1) : Statement (.ffma d a b u) := .inl rfl
theorem fmin (d : BitVec 6) (a : BitVec 6) (b : BitVec 6) (u : BitVec 1) : Statement (.fmin d a b u) := .inl rfl
theorem fmax (d : BitVec 6) (a : BitVec 6) (b : BitVec 6) (u : BitVec 1) : Statement (.fmax d a b u) := .inl rfl
theorem fabs (d : BitVec 6) (a : BitVec 6) : Statement (.fabs d a) := .inl rfl
theorem fneg (d : BitVec 6) (a : BitVec 6) : Statement (.fneg d a) := .inl rfl
theorem fcpysgn (d : BitVec 6) (a : BitVec 6) (b : BitVec 6) (u : BitVec 1) : Statement (.fcpysgn d a b u) := .inl rfl
theorem fclass (d : BitVec 6) (a : BitVec 6) : Statement (.fclass d a) := .inl rfl
theorem faddS (d : BitVec 6) (a : BitVec 6) (b : BitVec 6) (u : BitVec 1) : Statement (.faddS d a b u) := .inl rfl
theorem fsubS (d : BitVec 6) (a : BitVec 6) (b : BitVec 6) (u : BitVec 1) : Statement (.fsubS d a b u) := .inl rfl
theorem fmulS (d : BitVec 6) (a : BitVec 6) (b : BitVec 6) (u : BitVec 1) : Statement (.fmulS d a b u) := .inl rfl
theorem ffmaS (d : BitVec 6) (a : BitVec 6) (b : BitVec 6) (u : BitVec 1) : Statement (.ffmaS d a b u) := .inl rfl
theorem fminS (d : BitVec 6) (a : BitVec 6) (b : BitVec 6) (u : BitVec 1) : Statement (.fminS d a b u) := .inl rfl
theorem fmaxS (d : BitVec 6) (a : BitVec 6) (b : BitVec 6) (u : BitVec 1) : Statement (.fmaxS d a b u) := .inl rfl
theorem fabsS (d : BitVec 6) (a : BitVec 6) : Statement (.fabsS d a) := .inl rfl
theorem fnegS (d : BitVec 6) (a : BitVec 6) : Statement (.fnegS d a) := .inl rfl
theorem fcpysgnS (d : BitVec 6) (a : BitVec 6) (b : BitVec 6) (u : BitVec 1) : Statement (.fcpysgnS d a b u) := .inl rfl
theorem fclassS (d : BitVec 6) (a : BitVec 6) : Statement (.fclassS d a) := .inl rfl
theorem hadd2 (d : BitVec 6) (a : BitVec 6) (b : BitVec 6) (u : BitVec 1) : Statement (.hadd2 d a b u) := .inl rfl
theorem hmul2 (d : BitVec 6) (a : BitVec 6) (b : BitVec 6) (u : BitVec 1) : Statement (.hmul2 d a b u) := .inl rfl
theorem hfma2 (d : BitVec 6) (a : BitVec 6) (b : BitVec 6) (u : BitVec 1) : Statement (.hfma2 d a b u) := .inl rfl
theorem hmax2 (d : BitVec 6) (a : BitVec 6) (b : BitVec 6) (u : BitVec 1) : Statement (.hmax2 d a b u) := .inl rfl
theorem badd2 (d : BitVec 6) (a : BitVec 6) (b : BitVec 6) (u : BitVec 1) : Statement (.badd2 d a b u) := .inl rfl
theorem bmul2 (d : BitVec 6) (a : BitVec 6) (b : BitVec 6) (u : BitVec 1) : Statement (.bmul2 d a b u) := .inl rfl
theorem bfma2 (d : BitVec 6) (a : BitVec 6) (b : BitVec 6) (u : BitVec 1) : Statement (.bfma2 d a b u) := .inl rfl
theorem bmax2 (d : BitVec 6) (a : BitVec 6) (b : BitVec 6) (u : BitVec 1) : Statement (.bmax2 d a b u) := .inl rfl
theorem fcmpS (g : BitVec 3) (a : BitVec 6) (b : BitVec 6) (u : BitVec 1) (c : BitVec 3) : Statement (.fcmpS g a b u c) := .inr rfl
theorem fcmpD (g : BitVec 3) (a : BitVec 6) (b : BitVec 6) (u : BitVec 1) (c : BitVec 3) : Statement (.fcmpD g a b u c) := .inr rfl
theorem cvt (d : BitVec 6) (a : BitVec 6) (s : BitVec 3) (t : BitVec 3) : Statement (.cvt d a s t) := .inr rfl
theorem qe4m3 (d : BitVec 6) (a : BitVec 6) (b : BitVec 6) (u : BitVec 1) (s : BitVec 1) : Statement (.qe4m3 d a b u s) := .inl rfl
theorem qe5m2 (d : BitVec 6) (a : BitVec 6) (b : BitVec 6) (u : BitVec 1) (s : BitVec 1) : Statement (.qe5m2 d a b u s) := .inl rfl
theorem qe2m1 (d : BitVec 6) (a : BitVec 6) (b : BitVec 6) (u : BitVec 1) (s : BitVec 1) : Statement (.qe2m1 d a b u s) := .inl rfl
theorem qi8 (d : BitVec 6) (a : BitVec 6) (b : BitVec 6) (u : BitVec 1) (s : BitVec 1) : Statement (.qi8 d a b u s) := .inl rfl
theorem de4m3 (d : BitVec 6) (a : BitVec 6) : Statement (.de4m3 d a) := .inl rfl
theorem de5m2 (d : BitVec 6) (a : BitVec 6) : Statement (.de5m2 d a) := .inl rfl
theorem de2m1 (d : BitVec 6) (a : BitVec 6) : Statement (.de2m1 d a) := .inl rfl
theorem addiW (d : BitVec 6) (a : BitVec 6) (i : BitVec 13) : Statement (.addiW d a i) := .inl rfl
theorem addiD (d : BitVec 6) (a : BitVec 6) (i : BitVec 13) : Statement (.addiD d a i) := .inl rfl
theorem andi (d : BitVec 6) (a : BitVec 6) (i : BitVec 13) : Statement (.andi d a i) := .inl rfl
theorem ori (d : BitVec 6) (a : BitVec 6) (i : BitVec 13) : Statement (.ori d a i) := .inl rfl
theorem xori (d : BitVec 6) (a : BitVec 6) (i : BitVec 13) : Statement (.xori d a i) := .inl rfl
theorem shifti (d : BitVec 6) (a : BitVec 6) (k : BitVec 2) (w : BitVec 1) (n : BitVec 6) : Statement (.shifti d a k w n) := .inr rfl
theorem movi (d : BitVec 6) (i : BitVec 19) : Statement (.movi d i) := .inl rfl
theorem movsh (d : BitVec 6) (i : BitVec 19) : Statement (.movsh d i) := .inl rfl
theorem rcpS (d : BitVec 6) (a : BitVec 6) (l : BitVec 4) : Statement (.rcpS d a l) := .inl rfl
theorem rsqS (d : BitVec 6) (a : BitVec 6) (l : BitVec 4) : Statement (.rsqS d a l) := .inl rfl
theorem sqrtS (d : BitVec 6) (a : BitVec 6) (l : BitVec 4) : Statement (.sqrtS d a l) := .inl rfl
theorem divS (d : BitVec 6) (a : BitVec 6) (b : BitVec 6) (u : BitVec 1) (l : BitVec 4) : Statement (.divS d a b u l) := .inl rfl
theorem rcpD (d : BitVec 6) (a : BitVec 6) (l : BitVec 4) : Statement (.rcpD d a l) := .inl rfl
theorem rsqD (d : BitVec 6) (a : BitVec 6) (l : BitVec 4) : Statement (.rsqD d a l) := .inl rfl
theorem sqrtD (d : BitVec 6) (a : BitVec 6) (l : BitVec 4) : Statement (.sqrtD d a l) := .inl rfl
theorem divD (d : BitVec 6) (a : BitVec 6) (b : BitVec 6) (u : BitVec 1) (l : BitVec 4) : Statement (.divD d a b u l) := .inl rfl
theorem exp2 (d : BitVec 6) (a : BitVec 6) (l : BitVec 4) : Statement (.exp2 d a l) := .inl rfl
theorem log2 (d : BitVec 6) (a : BitVec 6) (l : BitVec 4) : Statement (.log2 d a l) := .inl rfl
theorem sinpi (d : BitVec 6) (a : BitVec 6) (l : BitVec 4) : Statement (.sinpi d a l) := .inl rfl
theorem cospi (d : BitVec 6) (a : BitVec 6) (l : BitVec 4) : Statement (.cospi d a l) := .inl rfl
theorem div (d : BitVec 6) (a : BitVec 6) (b : BitVec 6) (u : BitVec 1) (l : BitVec 4) : Statement (.div d a b u l) := .inl rfl
theorem divu (d : BitVec 6) (a : BitVec 6) (b : BitVec 6) (u : BitVec 1) (l : BitVec 4) : Statement (.divu d a b u l) := .inl rfl
theorem rem (d : BitVec 6) (a : BitVec 6) (b : BitVec 6) (u : BitVec 1) (l : BitVec 4) : Statement (.rem d a b u l) := .inl rfl
theorem remu (d : BitVec 6) (a : BitVec 6) (b : BitVec 6) (u : BitVec 1) (l : BitVec 4) : Statement (.remu d a b u l) := .inl rfl
theorem xshfl (d : BitVec 6) (a : BitVec 6) (b : BitVec 6) (c : BitVec 3) (l : BitVec 4) : Statement (.xshfl d a b c l) := .inl rfl
theorem xshxor (d : BitVec 6) (a : BitVec 6) (p : BitVec 5) (c : BitVec 3) (l : BitVec 4) : Statement (.xshxor d a p c l) := .inl rfl
theorem xred (d : BitVec 6) (a : BitVec 6) (o : BitVec 5) (c : BitVec 3) (l : BitVec 4) : Statement (.xred d a o c l) := .inr rfl
theorem xscan (d : BitVec 6) (a : BitVec 6) (e : BitVec 1) (o : BitVec 5) (c : BitVec 3) (l : BitVec 4) : Statement (.xscan d a e o c l) := .inr rfl
theorem xvote (d : BitVec 6) (a : BitVec 6) (k : BitVec 6) (c : BitVec 3) (l : BitVec 4) : Statement (.xvote d a k c l) := .inr rfl
theorem xmatch (d : BitVec 6) (a : BitVec 6) (c : BitVec 3) (l : BitVec 4) : Statement (.xmatch d a c l) := .inl rfl
theorem ldb (d : BitVec 6) (a : BitVec 6) (u : BitVec 1) (i : BitVec 8) (l : BitVec 4) : Statement (.ldb d a u i l) := .inl rfl
theorem ldbu (d : BitVec 6) (a : BitVec 6) (u : BitVec 1) (i : BitVec 8) (l : BitVec 4) : Statement (.ldbu d a u i l) := .inl rfl
theorem ldh (d : BitVec 6) (a : BitVec 6) (u : BitVec 1) (i : BitVec 8) (l : BitVec 4) : Statement (.ldh d a u i l) := .inl rfl
theorem ldhu (d : BitVec 6) (a : BitVec 6) (u : BitVec 1) (i : BitVec 8) (l : BitVec 4) : Statement (.ldhu d a u i l) := .inl rfl
theorem ldw (d : BitVec 6) (a : BitVec 6) (u : BitVec 1) (i : BitVec 8) (l : BitVec 4) : Statement (.ldw d a u i l) := .inl rfl
theorem ldwu (d : BitVec 6) (a : BitVec 6) (u : BitVec 1) (i : BitVec 8) (l : BitVec 4) : Statement (.ldwu d a u i l) := .inl rfl
theorem ldd (d : BitVec 6) (a : BitVec 6) (u : BitVec 1) (i : BitVec 8) (l : BitVec 4) : Statement (.ldd d a u i l) := .inl rfl
theorem ldq (d : BitVec 5) (a : BitVec 6) (u : BitVec 1) (i : BitVec 8) (l : BitVec 4) : Statement (.ldq d a u i l) := .inl rfl
theorem prefetch (h : BitVec 2) (a : BitVec 6) (u : BitVec 1) (i : BitVec 8) : Statement (.prefetch h a u i) := .inr rfl
theorem lda (d : BitVec 6) (a : BitVec 6) (u : BitVec 1) (w : BitVec 2) (s : BitVec 3) (o : BitVec 3) (l : BitVec 4) : Statement (.lda d a u w s o l) := .inr rfl
theorem stb (n : BitVec 1) (g : BitVec 3) (a : BitVec 6) (b : BitVec 6) (u : BitVec 1) (i : BitVec 8) : Statement (.stb n g a b u i) := .inl rfl
theorem sth (n : BitVec 1) (g : BitVec 3) (a : BitVec 6) (b : BitVec 6) (u : BitVec 1) (i : BitVec 8) : Statement (.sth n g a b u i) := .inl rfl
theorem stw (n : BitVec 1) (g : BitVec 3) (a : BitVec 6) (b : BitVec 6) (u : BitVec 1) (i : BitVec 8) : Statement (.stw n g a b u i) := .inl rfl
theorem std (n : BitVec 1) (g : BitVec 3) (a : BitVec 6) (b : BitVec 6) (u : BitVec 1) (i : BitVec 8) : Statement (.std n g a b u i) := .inl rfl
theorem stq (n : BitVec 1) (g : BitVec 3) (a : BitVec 5) (b : BitVec 6) (u : BitVec 1) (i : BitVec 8) : Statement (.stq n g a b u i) := .inl rfl
theorem str (n : BitVec 1) (g : BitVec 3) (a : BitVec 6) (b : BitVec 6) (u : BitVec 1) (w : BitVec 2) (s : BitVec 3) (o : BitVec 3) : Statement (.str n g a b u w s o) := .inr rfl
theorem amadd (g : BitVec 2) (d : BitVec 6) (a : BitVec 6) (b : BitVec 6) (w : BitVec 1) (l : BitVec 4) : Statement (.amadd g d a b w l) := .inl rfl
theorem ammin (g : BitVec 2) (d : BitVec 6) (a : BitVec 6) (b : BitVec 6) (w : BitVec 1) (l : BitVec 4) : Statement (.ammin g d a b w l) := .inl rfl
theorem ammax (g : BitVec 2) (d : BitVec 6) (a : BitVec 6) (b : BitVec 6) (w : BitVec 1) (l : BitVec 4) : Statement (.ammax g d a b w l) := .inl rfl
theorem amumin (g : BitVec 2) (d : BitVec 6) (a : BitVec 6) (b : BitVec 6) (w : BitVec 1) (l : BitVec 4) : Statement (.amumin g d a b w l) := .inl rfl
theorem amumax (g : BitVec 2) (d : BitVec 6) (a : BitVec 6) (b : BitVec 6) (w : BitVec 1) (l : BitVec 4) : Statement (.amumax g d a b w l) := .inl rfl
theorem amand (g : BitVec 2) (d : BitVec 6) (a : BitVec 6) (b : BitVec 6) (w : BitVec 1) (l : BitVec 4) : Statement (.amand g d a b w l) := .inl rfl
theorem amor (g : BitVec 2) (d : BitVec 6) (a : BitVec 6) (b : BitVec 6) (w : BitVec 1) (l : BitVec 4) : Statement (.amor g d a b w l) := .inl rfl
theorem amxor (g : BitVec 2) (d : BitVec 6) (a : BitVec 6) (b : BitVec 6) (w : BitVec 1) (l : BitVec 4) : Statement (.amxor g d a b w l) := .inl rfl
theorem amswap (g : BitVec 2) (d : BitVec 6) (a : BitVec 6) (b : BitVec 6) (w : BitVec 1) (l : BitVec 4) : Statement (.amswap g d a b w l) := .inl rfl
theorem amcas (g : BitVec 2) (d : BitVec 6) (a : BitVec 6) (b : BitVec 6) (w : BitVec 1) (l : BitVec 4) : Statement (.amcas g d a b w l) := .inl rfl
theorem amfadd (g : BitVec 2) (d : BitVec 6) (a : BitVec 6) (b : BitVec 6) (w : BitVec 1) (l : BitVec 4) : Statement (.amfadd g d a b w l) := .inl rfl
theorem br (n : BitVec 1) (g : BitVec 3) (o : BitVec 21) : Statement (.br n g o) := .inl rfl
theorem call (o : BitVec 25) : Statement (.call o) := .inl rfl
theorem jr (b : BitVec 6) (u : BitVec 1) : Statement (.jr b u) := .inl rfl
theorem callr (b : BitVec 6) (u : BitVec 1) : Statement (.callr b u) := .inl rfl
theorem ret : Statement .ret := .inl rfl
theorem exit : Statement .exit := .inl rfl
theorem bkpt (n : BitVec 12) : Statement (.bkpt n) := .inl rfl
theorem cvset (n : BitVec 3) (b : BitVec 5) : Statement (.cvset n b) := .inl rfl
theorem cvsetGrp (n : BitVec 3) : Statement (.cvsetGrp n) := .inl rfl
theorem cvwait (n : BitVec 3) : Statement (.cvwait n) := .inl rfl
theorem cvquery (d : BitVec 6) (n : BitVec 3) (b : BitVec 6) (u : BitVec 1) : Statement (.cvquery d n b u) := .inl rfl
theorem cvclear (n : BitVec 3) : Statement (.cvclear n) := .inl rfl
theorem spawn (d : BitVec 6) (a : BitVec 6) (g : BitVec 3) (l : BitVec 4) : Statement (.spawn d a g l) := .inl rfl
theorem syscall (n : BitVec 15) (l : BitVec 4) : Statement (.syscall n l) := .inl rfl
theorem mma (c : BitVec 3) (a : BitVec 6) (p : BitVec 5) (q : BitVec 5) (l : BitVec 4) : Statement (.mma c a p q l) := .inl rfl
theorem mdrain (c : BitVec 3) (a : BitVec 6) (p : BitVec 5) (q : BitVec 5) (l : BitVec 4) : Statement (.mdrain c a p q l) := .inl rfl
theorem mzero (c : BitVec 3) (a : BitVec 6) (l : BitVec 4) : Statement (.mzero c a l) := .inl rfl
theorem mload (c : BitVec 3) (a : BitVec 6) (p : BitVec 5) (l : BitVec 4) : Statement (.mload c a p l) := .inl rfl
theorem mstore (c : BitVec 3) (a : BitVec 6) (p : BitVec 5) (l : BitVec 4) : Statement (.mstore c a p l) := .inl rfl
theorem mquant (c : BitVec 3) (a : BitVec 6) (p : BitVec 4) (l : BitVec 4) : Statement (.mquant c a p l) := .inl rfl
theorem mhad (c : BitVec 3) (a : BitVec 6) (p : BitVec 4) (l : BitVec 4) : Statement (.mhad c a p l) := .inl rfl
theorem matrixGatheringComplete (wg : Nat) (cv : Nat) : Statement (.matrixGatheringComplete wg cv) := .inl rfl
theorem matrixStep (op : Nat) : Statement (.matrixStep op) := .inl rfl
theorem snop : Statement .snop := .inl rfl
theorem smov (d : BitVec 6) (a : BitVec 6) : Statement (.smov d a) := .inl rfl
theorem srdsr (d : BitVec 6) (s : BitVec 12) : Statement (.srdsr d s) := .inr rfl
theorem swrsr (h : BitVec 6) (a : BitVec 6) (k : BitVec 6) : Statement (.swrsr h a k) := .inr rfl
theorem rdtime (d : BitVec 6) : Statement (.rdtime d) := .inl rfl
theorem rdbudget (d : BitVec 6) : Statement (.rdbudget d) := .inl rfl
theorem yield : Statement .yield := .inl rfl
theorem setdeadline (d : BitVec 6) (a : BitVec 6) (b : BitVec 6) : Statement (.setdeadline d a b) := .inl rfl
theorem saddW (d : BitVec 6) (a : BitVec 6) (b : BitVec 6) : Statement (.saddW d a b) := .inl rfl
theorem saddD (d : BitVec 6) (a : BitVec 6) (b : BitVec 6) : Statement (.saddD d a b) := .inl rfl
theorem ssubW (d : BitVec 6) (a : BitVec 6) (b : BitVec 6) : Statement (.ssubW d a b) := .inl rfl
theorem ssubD (d : BitVec 6) (a : BitVec 6) (b : BitVec 6) : Statement (.ssubD d a b) := .inl rfl
theorem smulW (d : BitVec 6) (a : BitVec 6) (b : BitVec 6) : Statement (.smulW d a b) := .inl rfl
theorem smulD (d : BitVec 6) (a : BitVec 6) (b : BitVec 6) : Statement (.smulD d a b) := .inl rfl
theorem smulhD (d : BitVec 6) (a : BitVec 6) (b : BitVec 6) : Statement (.smulhD d a b) := .inl rfl
theorem smulhuD (d : BitVec 6) (a : BitVec 6) (b : BitVec 6) : Statement (.smulhuD d a b) := .inl rfl
theorem smadW (d : BitVec 6) (a : BitVec 6) (b : BitVec 6) : Statement (.smadW d a b) := .inl rfl
theorem smadD (d : BitVec 6) (a : BitVec 6) (b : BitVec 6) : Statement (.smadD d a b) := .inl rfl
theorem sand (d : BitVec 6) (a : BitVec 6) (b : BitVec 6) : Statement (.sand d a b) := .inl rfl
theorem sor (d : BitVec 6) (a : BitVec 6) (b : BitVec 6) : Statement (.sor d a b) := .inl rfl
theorem sxor (d : BitVec 6) (a : BitVec 6) (b : BitVec 6) : Statement (.sxor d a b) := .inl rfl
theorem sandn (d : BitVec 6) (a : BitVec 6) (b : BitVec 6) : Statement (.sandn d a b) := .inl rfl
theorem sshlW (d : BitVec 6) (a : BitVec 6) (b : BitVec 6) : Statement (.sshlW d a b) := .inl rfl
theorem sshlD (d : BitVec 6) (a : BitVec 6) (b : BitVec 6) : Statement (.sshlD d a b) := .inl rfl
theorem sshrW (d : BitVec 6) (a : BitVec 6) (b : BitVec 6) : Statement (.sshrW d a b) := .inl rfl
theorem sshrD (d : BitVec 6) (a : BitVec 6) (b : BitVec 6) : Statement (.sshrD d a b) := .inl rfl
theorem ssraW (d : BitVec 6) (a : BitVec 6) (b : BitVec 6) : Statement (.ssraW d a b) := .inl rfl
theorem ssraD (d : BitVec 6) (a : BitVec 6) (b : BitVec 6) : Statement (.ssraD d a b) := .inl rfl
theorem srotW (d : BitVec 6) (a : BitVec 6) (b : BitVec 6) : Statement (.srotW d a b) := .inl rfl
theorem srotD (d : BitVec 6) (a : BitVec 6) (b : BitVec 6) : Statement (.srotD d a b) := .inl rfl
theorem smin (d : BitVec 6) (a : BitVec 6) (b : BitVec 6) : Statement (.smin d a b) := .inl rfl
theorem smax (d : BitVec 6) (a : BitVec 6) (b : BitVec 6) : Statement (.smax d a b) := .inl rfl
theorem sminu (d : BitVec 6) (a : BitVec 6) (b : BitVec 6) : Statement (.sminu d a b) := .inl rfl
theorem smaxu (d : BitVec 6) (a : BitVec 6) (b : BitVec 6) : Statement (.smaxu d a b) := .inl rfl
theorem sabs (d : BitVec 6) (a : BitVec 6) : Statement (.sabs d a) := .inl rfl
theorem sclz (d : BitVec 6) (a : BitVec 6) : Statement (.sclz d a) := .inl rfl
theorem spopc (d : BitVec 6) (a : BitVec 6) : Statement (.spopc d a) := .inl rfl
theorem sbrev (d : BitVec 6) (a : BitVec 6) : Statement (.sbrev d a) := .inl rfl
theorem sbfe (d : BitVec 6) (a : BitVec 6) (b : BitVec 6) : Statement (.sbfe d a b) := .inl rfl
theorem sbfeu (d : BitVec 6) (a : BitVec 6) (b : BitVec 6) : Statement (.sbfeu d a b) := .inl rfl
theorem sbfi (d : BitVec 6) (a : BitVec 6) (b : BitVec 6) : Statement (.sbfi d a b) := .inl rfl
theorem sslt (d : BitVec 6) (a : BitVec 6) (b : BitVec 6) : Statement (.sslt d a b) := .inl rfl
theorem ssltu (d : BitVec 6) (a : BitVec 6) (b : BitVec 6) : Statement (.ssltu d a b) := .inl rfl
theorem sseq (d : BitVec 6) (a : BitVec 6) (b : BitVec 6) : Statement (.sseq d a b) := .inl rfl
theorem ssne (d : BitVec 6) (a : BitVec 6) (b : BitVec 6) : Statement (.ssne d a b) := .inl rfl
theorem saddva (d : BitVec 6) (a : BitVec 6) (b : BitVec 6) : Statement (.saddva d a b) := .inl rfl
theorem saddi (d : BitVec 6) (a : BitVec 6) (i : BitVec 13) : Statement (.saddi d a i) := .inl rfl
theorem sandi (d : BitVec 6) (a : BitVec 6) (i : BitVec 13) : Statement (.sandi d a i) := .inl rfl
theorem sori (d : BitVec 6) (a : BitVec 6) (i : BitVec 13) : Statement (.sori d a i) := .inl rfl
theorem sxori (d : BitVec 6) (a : BitVec 6) (i : BitVec 13) : Statement (.sxori d a i) := .inl rfl
theorem sshifti (d : BitVec 6) (a : BitVec 6) (k : BitVec 2) (w : BitVec 1) (n : BitVec 6) : Statement (.sshifti d a k w n) := .inr rfl
theorem smovi (d : BitVec 6) (i : BitVec 19) : Statement (.smovi d i) := .inl rfl
theorem smovsh (d : BitVec 6) (i : BitVec 19) : Statement (.smovsh d i) := .inl rfl
theorem sld (d : BitVec 6) (a : BitVec 6) (w : BitVec 2) (i : BitVec 7) (l : BitVec 4) : Statement (.sld d a w i l) := .inl rfl
theorem sst (a : BitVec 6) (b : BitVec 6) (w : BitVec 2) (i : BitVec 11) : Statement (.sst a b w i) := .inl rfl
theorem fenceRel (s : BitVec 3) : Statement (.fenceRel s) := .inr rfl
theorem fenceAcq (s : BitVec 3) : Statement (.fenceAcq s) := .inr rfl
theorem fenceAcqrel (s : BitVec 3) : Statement (.fenceAcqrel s) := .inr rfl
theorem fenceSc (s : BitVec 3) : Statement (.fenceSc s) := .inr rfl
theorem fenceWct (d : BitVec 6) (s : BitVec 3) : Statement (.fenceWct d s) := .inr rfl
theorem releaseWaitEnd (agent : Agent) (issue : Nat) : Statement (.releaseWaitEnd agent issue) := .inl rfl
theorem barinit (d : BitVec 6) (a : BitVec 6) (b : BitVec 6) (l : BitVec 4) : Statement (.barinit d a b l) := .inl rfl
theorem bararrive (d : BitVec 6) (a : BitVec 6) (l : BitVec 4) : Statement (.bararrive d a l) := .inl rfl
theorem barexpect (d : BitVec 6) (a : BitVec 6) (b : BitVec 6) (l : BitVec 4) : Statement (.barexpect d a b l) := .inl rfl
theorem barwait (d : BitVec 6) (a : BitVec 6) (b : BitVec 6) (l : BitVec 4) : Statement (.barwait d a b l) := .inl rfl
theorem bartry (d : BitVec 6) (a : BitVec 6) (b : BitVec 6) (l : BitVec 4) : Statement (.bartry d a b l) := .inl rfl
theorem barpoison (d : BitVec 6) (a : BitVec 6) (l : BitVec 4) : Statement (.barpoison d a l) := .inl rfl
theorem cntrd (d : BitVec 6) (a : BitVec 6) (k : BitVec 6) (l : BitVec 4) : Statement (.cntrd d a k l) := .inr rfl
theorem cntwait (d : BitVec 6) (a : BitVec 6) (b : BitVec 6) (l : BitVec 4) : Statement (.cntwait d a b l) := .inl rfl
theorem cntadd (d : BitVec 6) (a : BitVec 6) (b : BitVec 6) (l : BitVec 4) : Statement (.cntadd d a b l) := .inl rfl
theorem cpy (d : BitVec 6) (a : BitVec 6) (l : BitVec 4) : Statement (.cpy d a l) := .inl rfl
theorem cpystat (d : BitVec 6) (a : BitVec 6) (l : BitVec 4) : Statement (.cpystat d a l) := .inl rfl
theorem cpywait (d : BitVec 6) (a : BitVec 6) (l : BitVec 4) : Statement (.cpywait d a l) := .inl rfl
theorem cpycancelCancel (d : BitVec 6) (a : BitVec 6) (l : BitVec 4) : Statement (.cpycancelCancel d a l) := .inl rfl
theorem cpycancelResume (d : BitVec 6) (a : BitVec 6) (l : BitVec 4) : Statement (.cpycancelResume d a l) := .inl rfl
theorem cpycancelFail (d : BitVec 6) (a : BitVec 6) (l : BitVec 4) : Statement (.cpycancelFail d a l) := .inl rfl
theorem rlock (d : BitVec 6) (a : BitVec 6) (b : BitVec 6) (l : BitVec 4) : Statement (.rlock d a b l) := .inl rfl
theorem runlock (d : BitVec 6) (a : BitVec 6) (l : BitVec 4) : Statement (.runlock d a l) := .inl rfl
theorem copyBoxStart (copy : Nat) (box : Nat) : Statement (.copyBoxStart copy box) := .inl rfl
theorem copyBoxLanded (copy : Nat) (box : Nat) : Statement (.copyBoxLanded copy box) := .inl rfl
theorem copyBoxFault (copy : Nat) (box : Nat) : Statement (.copyBoxFault copy box) := .inl rfl
theorem tfetch (d : BitVec 4) (l : BitVec 4) : Statement (.tfetch d l) := .inr rfl
theorem tretire (d : BitVec 6) (a : BitVec 4) (b : BitVec 6) (l : BitVec 4) : Statement (.tretire d a b l) := .inr rfl
theorem tgive (d : BitVec 6) (a : BitVec 4) (b : BitVec 6) (l : BitVec 4) : Statement (.tgive d a b l) := .inr rfl
theorem tstat (d : BitVec 6) (k : BitVec 6) (l : BitVec 4) : Statement (.tstat d k l) := .inr rfl
theorem dispenserRefill (wg : Nat) : Statement (.dispenserRefill wg) := .inl rfl
theorem schr (d : BitVec 6) (a : BitVec 6) (p : BitVec 1) (n : BitVec 4) : Statement (.schr d a p n) := .inl rfl
theorem schw (h : BitVec 6) (a : BitVec 6) (n : BitVec 4) : Statement (.schw h a n) := .inl rfl
theorem schcommit (d : BitVec 6) (a : BitVec 6) : Statement (.schcommit d a) := .inl rfl
theorem launch (d : BitVec 6) (a : BitVec 6) (b : BitVec 6) (l : BitVec 4) : Statement (.launch d a b l) := .inl rfl
theorem launchp (d : BitVec 6) (a : BitVec 6) (b : BitVec 6) (l : BitVec 4) : Statement (.launchp d a b l) := .inl rfl
theorem graphsub (d : BitVec 6) (a : BitVec 6) (b : BitVec 6) (l : BitVec 4) : Statement (.graphsub d a b l) := .inl rfl
theorem cancelDrain (d : BitVec 6) (a : BitVec 6) (l : BitVec 4) : Statement (.cancelDrain d a l) := .inl rfl
theorem cancelKill (d : BitVec 6) (a : BitVec 6) (l : BitVec 4) : Statement (.cancelKill d a l) := .inl rfl
theorem waitdone (d : BitVec 6) (a : BitVec 6) (l : BitVec 4) : Statement (.waitdone d a l) := .inl rfl
theorem msgsend (d : BitVec 6) (a : BitVec 6) (b : BitVec 6) (l : BitVec 4) : Statement (.msgsend d a b l) := .inl rfl
theorem msgrecv (d : BitVec 6) (a : BitVec 6) (b : BitVec 6) (l : BitVec 4) : Statement (.msgrecv d a b l) := .inl rfl
theorem msgpoll (d : BitVec 6) (l : BitVec 4) : Statement (.msgpoll d l) := .inl rfl
theorem crpop (d : BitVec 6) (a : BitVec 6) (l : BitVec 4) : Statement (.crpop d a l) := .inl rfl
theorem resume (d : BitVec 6) (a : BitVec 5) (b : BitVec 5) (l : BitVec 4) : Statement (.resume d a b l) := .inl rfl
theorem resumeall (d : BitVec 6) (a : BitVec 5) (b : BitVec 5) (l : BitVec 4) : Statement (.resumeall d a b l) := .inl rfl
theorem crfwd (d : BitVec 6) (a : BitVec 6) (b : BitVec 6) (l : BitVec 4) : Statement (.crfwd d a b l) := .inl rfl
theorem krd (d : BitVec 6) (k : BitVec 6) : Statement (.krd d k) := .inr rfl
theorem kwr (a : BitVec 6) (k : BitVec 6) : Statement (.kwr a k) := .inr rfl
theorem tlbinv (d : BitVec 6) (a : BitVec 6) (b : BitVec 6) : Statement (.tlbinv d a b) := .inl rfl
theorem kret : Statement .kret := .inl rfl
theorem idle : Statement .idle := .inl rfl
theorem ctxevict (d : BitVec 6) (a : BitVec 6) (l : BitVec 4) : Statement (.ctxevict d a l) := .inl rfl
theorem ctxpin (d : BitVec 6) (a : BitVec 6) (b : BitVec 6) (l : BitVec 4) : Statement (.ctxpin d a b l) := .inl rfl
theorem gangkill (d : BitVec 6) (a : BitVec 6) (b : BitVec 6) (l : BitVec 4) : Statement (.gangkill d a b l) := .inl rfl
theorem wgkill (d : BitVec 6) (a : BitVec 6) (b : BitVec 6) (l : BitVec 4) : Statement (.wgkill d a b l) := .inl rfl
theorem ctxstat (d : BitVec 6) (a : BitVec 6) (l : BitVec 4) : Statement (.ctxstat d a l) := .inl rfl
theorem fetchTurn (agent : Agent) : Statement (.fetchTurn agent) := .inl rfl
theorem gangAged (wg : Nat) (gang : Nat) : Statement (.gangAged wg gang) := .inl rfl
theorem readyPoolAged (wg : Nat) (node : Nat) : Statement (.readyPoolAged wg node) := .inl rfl
theorem registerLineFill (agent : Agent) (line : Nat) : Statement (.registerLineFill agent line) := .inl rfl
theorem destinationDelivery (agent : Agent) (flight : Nat) : Statement (.destinationDelivery agent flight) := .inl rfl
theorem pageWalk (walk : Nat) : Statement (.pageWalk walk) := .inl rfl
theorem homeFill (req : Nat) (lease : Nat) : Statement (.homeFill req lease) := .inl rfl
theorem homeStore (req : Nat) : Statement (.homeStore req) := .inl rfl
theorem homeAtomic (req : Nat) : Statement (.homeAtomic req) := .inl rfl
theorem storeAck (req : Nat) : Statement (.storeAck req) := .inl rfl
theorem strongStoreVisible (req : Nat) : Statement (.strongStoreVisible req) := .inl rfl
theorem leaseExpiry (core : Nat) (line : Nat) : Statement (.leaseExpiry core line) := .inl rfl
theorem ownershipRecall (line : Nat) : Statement (.ownershipRecall line) := .inl rfl
theorem waitneReread (agent : Agent) (lane : Nat) : Statement (.waitneReread agent lane) := .inl rfl
theorem rangeLockRelease (core : Nat) (entry : Nat) : Statement (.rangeLockRelease core entry) := .inl rfl
theorem preemptionRequest (wg : Nat) (gang : Nat) : Statement (.preemptionRequest wg gang) := .inl rfl
theorem eviction (wg : Nat) : Statement (.eviction wg) := .inl rfl
theorem evictionComplete (wg : Nat) : Statement (.evictionComplete wg) := .inl rfl
theorem redispatch (wg : Nat) (core : Nat) (slot : Nat) : Statement (.redispatch wg core slot) := .inl rfl
theorem readyPoolDispatch (node : Nat) (core : Nat) (slot : Nat) : Statement (.readyPoolDispatch node core slot) := .inl rfl
theorem workgroupEnd (wg : Nat) : Statement (.workgroupEnd wg) := .inl rfl
theorem launchComplete (launch : Nat) : Statement (.launchComplete launch) := .inl rfl
theorem nodeEnd (node : Nat) : Statement (.nodeEnd node) := .inl rfl
theorem faultRingSlotFree (cluster : Nat) : Statement (.faultRingSlotFree cluster) := .inl rfl
theorem callRingSlotFree (cluster : Nat) : Statement (.callRingSlotFree cluster) := .inl rfl
theorem registerCacheEccUe (wg : Nat) (line : Nat × Nat) : Statement (.registerCacheEccUe wg line) := .inl rfl
theorem scratchpadEccUe (wg : Nat) : Statement (.scratchpadEccUe wg) := .inl rfl
theorem accumulatorEccUe (wg : Nat) : Statement (.accumulatorEccUe wg) := .inl rfl
theorem l1ParityError (core : Nat) (line : Nat) : Statement (.l1ParityError core line) := .inl rfl
theorem l2EccUe (line : Nat) : Statement (.l2EccUe line) := .inl rfl
theorem tcbEccUe (node : Nat) (readable : Bool) : Statement (.tcbEccUe node readable) := .inl rfl
theorem tlbParityError (cluster : Nat) (entry : Nat) : Statement (.tlbParityError cluster entry) := .inl rfl
theorem doorbell (tenant : Nat) (queue : Nat) (ahead : Nat) : Statement (.doorbell tenant queue ahead) := .inl rfl
theorem queuePoll (tenant : Nat) (queue : Nat) (ahead : Nat) : Statement (.queuePoll tenant queue ahead) := .inl rfl
theorem pktNop (tenant : Nat) (queue : Nat) (ahead : Nat) : Statement (.pktNop tenant queue ahead) := .inl rfl
theorem pktSlice (tenant : Nat) (queue : Nat) (ahead : Nat) : Statement (.pktSlice tenant queue ahead) := .inl rfl
theorem pktLaunch (tenant : Nat) (queue : Nat) (ahead : Nat) : Statement (.pktLaunch tenant queue ahead) := .inl rfl
theorem pktLaunchp (tenant : Nat) (queue : Nat) (ahead : Nat) : Statement (.pktLaunchp tenant queue ahead) := .inl rfl
theorem pktGraph (tenant : Nat) (queue : Nat) (ahead : Nat) : Statement (.pktGraph tenant queue ahead) := .inl rfl
theorem pktIb (tenant : Nat) (queue : Nat) (ahead : Nat) : Statement (.pktIb tenant queue ahead) := .inl rfl
theorem pktPred (tenant : Nat) (queue : Nat) (ahead : Nat) : Statement (.pktPred tenant queue ahead) := .inl rfl
theorem pktLoop (tenant : Nat) (queue : Nat) (ahead : Nat) : Statement (.pktLoop tenant queue ahead) := .inl rfl
theorem pktFfence (tenant : Nat) (queue : Nat) (ahead : Nat) : Statement (.pktFfence tenant queue ahead) := .inl rfl
theorem pktSignal (tenant : Nat) (queue : Nat) (ahead : Nat) : Statement (.pktSignal tenant queue ahead) := .inl rfl
theorem pktWait (tenant : Nat) (queue : Nat) (ahead : Nat) : Statement (.pktWait tenant queue ahead) := .inl rfl
theorem waitObservation (tenant : Nat) (queue : Nat) (ahead : Nat) : Statement (.waitObservation tenant queue ahead) := .inl rfl
theorem pktCopy (tenant : Nat) (queue : Nat) (ahead : Nat) : Statement (.pktCopy tenant queue ahead) := .inl rfl
theorem pktWrite (tenant : Nat) (queue : Nat) (ahead : Nat) : Statement (.pktWrite tenant queue ahead) := .inl rfl
theorem pktTimestamp (tenant : Nat) (queue : Nat) (ahead : Nat) : Statement (.pktTimestamp tenant queue ahead) := .inl rfl
theorem pktCancel (tenant : Nat) (queue : Nat) (ahead : Nat) : Statement (.pktCancel tenant queue ahead) := .inl rfl
theorem pktHostirq (tenant : Nat) (queue : Nat) (ahead : Nat) : Statement (.pktHostirq tenant queue ahead) := .inl rfl
theorem sliceEnd (tenant : Nat) (queue : Nat) : Statement (.sliceEnd tenant queue) := .inl rfl
theorem sliceCompletion (slice : Nat) : Statement (.sliceCompletion slice) := .inl rfl
theorem completionRingRoom (tenant : Nat) (queue : Nat) : Statement (.completionRingRoom tenant queue) := .inl rfl
theorem deadlinemiss (slice : Nat) : Statement (.deadlinemiss slice) := .inl rfl
theorem budget (slice : Nat) : Statement (.budget slice) := .inl rfl
theorem capMeasurement (tenant : Nat) (other : Nat) (power : Nat) : Statement (.capMeasurement tenant other power) := .inl rfl
theorem powerEstimate (milliwatt : Nat) : Statement (.powerEstimate milliwatt) := .inl rfl
theorem tenantReset (tenant : Nat) : Statement (.tenantReset tenant) := .inl rfl
theorem teardownComplete (tenant : Nat) : Statement (.teardownComplete tenant) := .inl rfl
theorem shootdownRequest (msi : Nat × Nat) : Statement (.shootdownRequest msi) := .inl rfl
theorem invalidationComplete (inv : Nat) : Statement (.invalidationComplete inv) := .inl rfl
theorem cxlMemRead (offset : Nat) (size : Nat) : Statement (.cxlMemRead offset size) := .inl rfl
theorem cxlMemWrite (offset : Nat) (bytes : List Byte) : Statement (.cxlMemWrite offset bytes) := .inl rfl
theorem cxlMemWriteComplete (write : Nat) : Statement (.cxlMemWriteComplete write) := .inl rfl
theorem hostSnoop (line : Nat) : Statement (.hostSnoop line) := .inl rfl
theorem dmaWrite (requester : Nat) (addr : Nat) (bytes : List Byte) : Statement (.dmaWrite requester addr bytes) := .inl rfl
theorem devirq (source : Nat) (vector : Nat) : Statement (.devirq source vector) := .inl rfl
theorem ethFrameReceive (port : Nat) (ring : Nat) (fcs : Nat) (bytes : List Byte) : Statement (.ethFrameReceive port ring fcs bytes) := .inl rfl
theorem ethTransmit (port : Nat) (ring : Nat) : Statement (.ethTransmit port ring) := .inl rfl
theorem flitReceive (port : Nat) (bytes : List Byte) : Statement (.flitReceive port bytes) := .inl rfl
theorem fabricPortFailure (port : Nat) : Statement (.fabricPortFailure port) := .inl rfl
theorem podFormation (clash : Bool) (ahead : Int) (chips : List PodChip) : Statement (.podFormation clash ahead chips) := .inl rfl
theorem launchAnnounce (hop : Nat × Nat) (rootLaunch : Nat) (pasid : Nat) (slice : Nat) (bytes : List Byte) : Statement (.launchAnnounce hop rootLaunch pasid slice bytes) := .inl rfl
theorem announceAck (launch : Nat) (chip : Nat) (okay : Bool) : Statement (.announceAck launch chip okay) := .inl rfl
theorem go (hop : Nat × Nat) (rootLaunch : Nat) : Statement (.go hop rootLaunch) := .inl rfl
theorem withdraw (hop : Nat × Nat) (rootLaunch : Nat) : Statement (.withdraw hop rootLaunch) := .inl rfl
theorem announceTimeout (launch : Nat) : Statement (.announceTimeout launch) := .inl rfl
theorem treeCancel (hop : Nat × Nat) (rootLaunch : Nat) (kill : Bool) : Statement (.treeCancel hop rootLaunch kill) := .inl rfl
theorem chipReport (launch : Nat) (chip : Nat) : Statement (.chipReport launch chip) := .inl rfl
theorem chipLost (launch : Nat) (chip : Nat) : Statement (.chipLost launch chip) := .inl rfl
theorem exitWordForward (launch : Nat) (chip : Nat) (time : Nat) (word : Nat) : Statement (.exitWordForward launch chip time word) := .inl rfl
theorem trapEntry (core : Nat) : Statement (.trapEntry core) := .inl rfl
theorem ktimecmpMatch (core : Nat) : Statement (.ktimecmpMatch core) := .inl rfl
theorem shardStart (core : Nat) : Statement (.shardStart core) := .inl rfl
theorem measure (core : Nat) : Statement (.measure core) := .inl rfl
theorem attest (core : Nat) : Statement (.attest core) := .inl rfl
theorem update (core : Nat) : Statement (.update core) := .inl rfl
theorem unknownMessage (core : Nat) : Statement (.unknownMessage core) := .inl rfl
theorem messageChannelRoom (target : Nat) : Statement (.messageChannelRoom target) := .inl rfl
theorem updateStandbyReady : Statement .updateStandbyReady := .inl rfl
theorem updateReadyTimeout : Statement .updateReadyTimeout := .inl rfl
theorem quiescentBoundary : Statement .quiescentBoundary := .inl rfl
theorem quiescenceTimeout : Statement .quiescenceTimeout := .inl rfl
theorem stateTableImport : Statement .stateTableImport := .inl rfl
theorem complexMachineCheck : Statement .complexMachineCheck := .inl rfl
theorem standbyMachineCheck : Statement .standbyMachineCheck := .inl rfl
theorem powerOn : Statement .powerOn := .inl rfl
theorem railOutOfBand (rail : Nat) : Statement (.railOutOfBand rail) := .inl rfl
theorem pcieFundamentalReset : Statement .pcieFundamentalReset := .inl rfl
theorem mcreset : Statement .mcreset := .inl rfl
theorem boot (step : Nat) (okay : Bool) : Statement (.boot step okay) := .inl rfl
theorem thermalSample (sixteenths : Nat) : Statement (.thermalSample sixteenths) := .inl rfl
theorem baseRegisterWrite (offset : Nat) (value : Nat) : Statement (.baseRegisterWrite offset value) := .inl rfl
theorem registerWrite (offset : Nat) (value : Nat) : Statement (.registerWrite offset value) := .inl rfl
theorem unassignedWord (word : BitVec 32) : Statement (.unassignedWord word) := .inl rfl
theorem dmaRead (requester : Nat) (addr : Nat) (size : Nat) : Statement (.dmaRead requester addr size) := .inl rfl
theorem serviceCoreL1EccUe (core : Nat) : Statement (.serviceCoreL1EccUe core) := .inl rfl
theorem tenantFaultRingEntryFree (tenant : Nat) : Statement (.tenantFaultRingEntryFree tenant) := .inl rfl

end Sys2Proof.Laws.OnlyWordsAreRefused
end

