-- ==== Sys2Proof/Laws/Pick.lean ====
section
/-! SUPPORT. Laws of the choices among free entries and slots: something is taken where there is something to take, and what is
taken was free. -/

namespace Sys2Proof.Machine

/-- A choice among some numbers takes one of them. -/
theorem pickOf_mem {now j : Nat} {js : List Nat} (h : pickOf now js = some j) : j ∈ js := List.mem_of_getElem? h
/-- A choice among some numbers takes something unless there is none. -/
theorem pickOf_isSome (now : Nat) {js : List Nat} (h : js ≠ []) : ∃ j, pickOf now js = some j :=
  ⟨_, List.getElem?_eq_getElem (Nat.mod_lt _ (List.length_pos_iff.mpr h))⟩
/-- Of one number, that one is taken. -/
@[simp] theorem pickOf_single (now j : Nat) : pickOf now [j] = some j := by simp [pickOf, Nat.mod_one]
/-- Of no number, none is taken. -/
@[simp] theorem pickOf_nil (now : Nat) : pickOf now [] = none := rfl

/-- The n-th key of some gaps is there when they hold more than n. -/
theorem gapKey_isSome {gs : List (Nat × Nat)} {n : Nat} (h : n < gapCount gs) : ∃ k, gapKey gs n = some k := by
  induction gs generalizing n with
  | nil => simp [gapCount] at h
  | cons g gs ih =>
    simp only [gapKey]
    split
    · exact ⟨_, rfl⟩
    · exact ih (by simp only [gapCount, List.map_cons, List.sum_cons] at h ⊢; omega)
/-- The n-th key of some gaps lies in one of them. -/
theorem gapKey_mem {gs : List (Nat × Nat)} {n k : Nat} (h : gapKey gs n = some k) : ∃ g ∈ gs, g.1 ≤ k ∧ k < g.1 + g.2 := by
  induction gs generalizing n with
  | nil => simp [gapKey] at h
  | cons g gs ih =>
    simp only [gapKey] at h
    split at h
    · obtain rfl := Option.some.inj h
      exact ⟨g, List.mem_cons_self, by omega, by omega⟩
    · obtain ⟨x, hx, hk⟩ := ih h
      exact ⟨x, List.mem_cons_of_mem _ hx, hk⟩
/-- A key is taken from some gaps unless they are empty. -/
theorem pickKey_isSome (now : Nat) {gs : List (Nat × Nat)} (h : gapCount gs ≠ 0) : ∃ k, pickKey now gs = some k :=
  gapKey_isSome (Nat.mod_lt _ (Nat.pos_of_ne_zero h))
/-- A key that is taken lies in one of the gaps. -/
theorem pickKey_mem {now k : Nat} {gs : List (Nat × Nat)} (h : pickKey now gs = some k) : ∃ g ∈ gs, g.1 ≤ k ∧ k < g.1 + g.2 :=
  gapKey_mem h
/-- A key is taken while there is one below the limit. -/
theorem freeKey_isSome {α : Type} (now : Nat) {limit : Nat} {t : Tab α} (h : gapCount (gaps limit 0 t) ≠ 0) : ∃ k, freeKey now limit t = some k :=
  pickKey_isSome now h
/-- A launch takes an entry that was never used while there is one. -/
theorem State.freeLaunch_isSome {s : State} (h : gapCount (gaps 16384 0 s.launches) ≠ 0) : ∃ k, s.freeLaunch = some k := by
  obtain ⟨k, hk⟩ := freeKey_isSome s.ptb h
  exact ⟨k, by simp [State.freeLaunch, hk]⟩
/-- A graph takes an entry that was never used while there is one. -/
theorem State.freeGraph_isSome {s : State} (h : gapCount (gaps 16384 0 s.graphs) ≠ 0) : ∃ k, s.freeGraph = some k := by
  obtain ⟨k, hk⟩ := freeKey_isSome s.ptb h
  exact ⟨k, by simp [State.freeGraph, hk]⟩

/-- Free keys in a row are taken while some gap is long enough. -/
theorem freeRun_isSome {α : Type} (now : Nat) {limit n : Nat} {t : Tab α}
    (h : gapCount (((gaps limit 0 t).filter fun g => n ≤ g.2).map fun g => (g.1, g.2 + 1 - n)) ≠ 0) : ∃ k, freeRun now limit n t = some k :=
  pickKey_isSome now h
/-- A graph that passes its checks is entered while there is room. -/
theorem State.submit_done {s : State} {v : Word × Nat × Nat} {n : Nat} {r : List Byte} {rs : List (List Byte)}
    (h : s.withOverflow v.2.2 (images n r) = some rs) (ok : graphOk rs = true) (hb : ∃ b, freeRun s.ptb 65536 n s.tcbs = some b)
    (hg : ∃ i, s.freeGraph = some i) : ∃ i t, s.submit v n r = .done i t := by
  obtain ⟨b, hb⟩ := hb
  obtain ⟨i, hg⟩ := hg
  exact ⟨i, _, by simp only [State.submit, h, ok, hb, hg]; rfl⟩

/-- The ring of a cluster with one free slot has room there. -/
theorem State.ringRoom_single {s : State} {c j : Nat} {call : Bool} {k : Scalar} (hk : s.scalar c = some k) (hr : k.running = true)
    (hb : k.ring call ≠ 0) (hf : s.freeSlots c (k.ring call) (if call then 2048 else 64) (if call then 256 else 64) = [j]) :
    s.ringRoom c call = some (k.ring call, j) := by
  have hb' : (k.ring call == 0) = false := by simpa using hb
  simp only [State.ringRoom, hk, hr, hb', State.freeSlot, hf, pickOf_single]
  rfl
/-- A tenant's fault ring that can be read takes an event while an entry is free. -/
theorem State.tenantSlot_isSome {s : State} {t : Tenant}
    (h : (s.ownSight.partRead (tenantCtx t.pasid) (BitVec.ofNat 64 t.ring) 4096).toOption.any
      (fun bs => !((List.range 64).filter fun j => bs.getD (64 * j + 63) 0 == 0).isEmpty) = true) :
    ∃ j, s.tenantSlot t = .ok (some j) := by
  match hr : s.ownSight.partRead (tenantCtx t.pasid) (BitVec.ofNat 64 t.ring) 4096 with
  | .error _ => simp [hr, Except.toOption] at h
  | .ok bs =>
    obtain ⟨j, hj⟩ := pickOf_isSome s.ptb (js := (List.range 64).filter fun j => bs.getD (64 * j + 63) 0 == 0)
      (by simpa only [hr, Except.toOption, Option.any_some, Bool.not_eq_true', List.isEmpty_eq_false_iff] using h)
    exact ⟨j, by simp only [State.tenantSlot, hr, hj]⟩

end Sys2Proof.Machine
end

