-- ==== Sys2Proof/Laws/Uniform.lean ====
section
/-! SUPPORT. Laws of completion and of uniform writes. -/

namespace Sys2Proof.Machine

theorem Gang.finish_spec (g : Gang) (l : Nat) (next : Word) (k : Nat) :
    (g.finish l next).pcOf k = (if k = l then next else g.pcOf k) ∧
    (g.finish l next).stat k = if k = l then .ready else g.stat k := by
  constructor
  · show Tab.at (Tab.set 0 g.pc l next) k 0 = _
    rw [Tab.at_set]; rfl
  · show Tab.at (Tab.set .ready g.status l .ready) k .ready = _
    rw [Tab.at_set]; rfl

/-- Completing an instruction in a list of lanes. -/
def Gang.finishIn (g : Gang) (ls : List Nat) : Gang := ls.foldl (fun g l => g.finish l (g.pcOf l + 4)) g

theorem Gang.finishAll_eq (g : Gang) (m : LaneMask) : g.finishAll m = g.finishIn (lanesOf m) := rfl

theorem Gang.finishIn_spec (ls : List Nat) : ls.Nodup → ∀ g : Gang,
    (∀ k, (g.finishIn ls).pcOf k = if k ∈ ls then g.pcOf k + 4 else g.pcOf k) ∧
    (∀ k, (g.finishIn ls).stat k = if k ∈ ls then .ready else g.stat k) ∧
    (g.finishIn ls).v = g.v ∧ (g.finishIn ls).s = g.s ∧ (g.finishIn ls).g = g.g ∧ (g.finishIn ls).fcr = g.fcr ∧
    (g.finishIn ls).flights = g.flights ∧ (g.finishIn ls).dirty = g.dirty ∧
    (∀ h, (g.finishIn ls).withLanesOf h = g.withLanesOf h) := by
  induction ls with
  | nil => intro _ g; simp [Gang.finishIn]
  | cons l ls ih =>
    intro hn g
    obtain ⟨hl, hn⟩ := List.nodup_cons.1 hn
    obtain ⟨i1, i2, i3, i4, i5, i6, i7, i8, i9⟩ := ih hn (g.finish l (g.pcOf l + 4))
    have e : g.finishIn (l :: ls) = (g.finish l (g.pcOf l + 4)).finishIn ls := rfl
    rw [e]
    refine ⟨fun k => ?_, fun k => ?_, i3, i4, i5, i6, i7, i8, i9⟩
    · rw [i1 k, (Gang.finish_spec g l _ k).1]
      by_cases hk : k = l
      · subst hk; simp [hl]
      · simp [hk]
    · rw [i2 k, (Gang.finish_spec g l _ k).2]
      by_cases hk : k = l
      · subst hk; simp [hl]
      · simp [hk]

theorem Gang.openAll_spec (g : Gang) (m : LaneMask) (n : Nat) (d : Dest) :
    (g.openAll m n d).v = g.v ∧ (g.openAll m n d).s = g.s ∧ (g.openAll m n d).g = g.g ∧ (g.openAll m n d).pc = g.pc ∧
    (g.openAll m n d).fcr = g.fcr ∧ (g.openAll m n d).status = g.status ∧ (g.openAll m n d).flights = g.flights ∧
    (∀ h, (g.openAll m n d).withLanesOf h = g.withLanesOf h) := by
  unfold Gang.openAll
  split
  · exact ⟨rfl, rfl, rfl, rfl, rfl, rfl, rfl, fun _ => rfl⟩
  · exact ⟨rfl, rfl, rfl, rfl, rfl, rfl, rfl, fun _ => rfl⟩

/-- Writing one uniform register. -/
theorem Gang.sreg_setS (g : Gang) (d n : Nat) (x : Word) :
    (g.setS d x).sreg n = if n = d ∧ d ≠ 0 then x else g.sreg n := by
  unfold Gang.setS Gang.sreg
  by_cases hd : d = 0
  · subst hd; simp
  · simp only [hd, if_false, Gang.mark_s]
    by_cases hn : n = 0
    · subst hn; simp [Ne.symm hd]
    · simp only [hn, if_false, Tab.at_set]
      by_cases e : n = d <;> simp [e, hd]

@[simp] theorem Gang.setS_v (g : Gang) (n : Nat) (x : Word) : (g.setS n x).v = g.v := by unfold Gang.setS; split <;> simp
@[simp] theorem Gang.setS_g (g : Gang) (n : Nat) (x : Word) : (g.setS n x).g = g.g := by unfold Gang.setS; split <;> simp
@[simp] theorem Gang.setS_pc (g : Gang) (n : Nat) (x : Word) : (g.setS n x).pc = g.pc := by unfold Gang.setS; split <;> simp
@[simp] theorem Gang.setS_fcr (g : Gang) (n : Nat) (x : Word) : (g.setS n x).fcr = g.fcr := by unfold Gang.setS; split <;> simp
@[simp] theorem Gang.setS_status (g : Gang) (n : Nat) (x : Word) : (g.setS n x).status = g.status := by
  unfold Gang.setS; split <;> simp
@[simp] theorem Gang.setS_flights (g : Gang) (n : Nat) (x : Word) : (g.setS n x).flights = g.flights := by
  unfold Gang.setS; split <;> simp
theorem Gang.setS_rest (g h : Gang) (n : Nat) (x : Word) :
    { (g.setS n x).withLanesOf h with s := h.s } = { g.withLanesOf h with s := h.s } := by
  unfold Gang.setS; split
  · rfl
  · rw [Gang.mark_rest]; rfl

/-- The gang that a completed uniform write leaves. -/
theorem Gang.setS_took (g1 g : Gang) (m : LaneMask) (d la : Nat) (x udiv : Word) (r : Dest)
    (hv : g1.v = g.v) (hs : g1.s = g.s) (hg : g1.g = g.g) (hp : g1.pc = g.pc) (hc : g1.fcr = g.fcr) (ht : g1.status = g.status)
    (hf : g1.flights = g.flights) (hr : g1.withLanesOf g = g) :
    TookUniform g { ((g1.setS d x).finishAll m).openAll m la r with gstat := g1.gstat ||| udiv } m d x udiv := by
  obtain ⟨o1, o2, o3, o4, o5, o6, o7, o8⟩ := Gang.openAll_spec ((g1.setS d x).finishAll m) m la r
  obtain ⟨f1, f2, f3, f4, f5, f6, f7, f8, f9⟩ := Gang.finishIn_spec (lanesOf m) (lanesOf_nodup m) (g1.setS d x)
  rw [← Gang.finishAll_eq] at f1 f2 f3 f4 f5 f6 f7 f8 f9
  have hstat : g1.gstat = g.gstat := by have e := congrArg Gang.gstat hr; exact e
  constructor
  · intro n hn
    have : (({ ((g1.setS d x).finishAll m).openAll m la r with gstat := g1.gstat ||| udiv } : Gang)).sreg n = (g1.setS d x).sreg n := by
      simp only [Gang.sreg, o2, f4]
    rw [this, Gang.sreg_setS]
    simp only [Gang.sreg, hs]
  · exact congrArg (· ||| udiv) hstat
  · intro l hl
    have : (({ ((g1.setS d x).finishAll m).openAll m la r with gstat := g1.gstat ||| udiv } : Gang)).pcOf l =
        ((g1.setS d x).finishAll m).pcOf l := by simp only [Gang.pcOf, o4]
    rw [this, f1 l]
    simp only [mem_lanesOf m l hl, Gang.pcOf, Gang.setS_pc, hp]
  · intro l hl
    have : (({ ((g1.setS d x).finishAll m).openAll m la r with gstat := g1.gstat ||| udiv } : Gang)).stat l =
        ((g1.setS d x).finishAll m).stat l := by simp only [Gang.stat, o6]
    rw [this, f2 l]
    simp only [mem_lanesOf m l hl, Gang.stat, Gang.setS_status, ht]
  · intro l n _ _; simp only [Gang.vreg, o1, f3, Gang.setS_v, hv]
  · intro l n _ _; simp only [Gang.guard, Gang.guards, o3, f5, Gang.setS_g, hg]
  · intro l _; simp only [Gang.fcrOf, o5, f6, Gang.setS_fcr, hc]
  · simp only [o7, f7, Gang.setS_flights, hf]
  · have h1 : ({ (Gang.withLanesOf { ((g1.setS d x).finishAll m).openAll m la r with gstat := g1.gstat ||| udiv } g) with
        s := g.s, gstat := g.gstat } : Gang) =
        { ({ (((g1.setS d x).finishAll m).openAll m la r).withLanesOf g with s := g.s } : Gang) with gstat := g.gstat } := rfl
    rw [h1, o8 g, f9 g, Gang.setS_rest, hr]

theorem Gang.setS_gstat (g : Gang) (m : LaneMask) (d la : Nat) (x : Word) (r : Dest) :
    (((g.setS d x).finishAll m).openAll m la r).gstat = g.gstat := by
  have q1 := congrArg Gang.gstat ((Gang.openAll_spec ((g.setS d x).finishAll m) m la r).2.2.2.2.2.2.2 g)
  have q2 := congrArg Gang.gstat ((Gang.finishIn_spec (lanesOf m) (lanesOf_nodup m) (g.setS d x)).2.2.2.2.2.2.2.2 g)
  have q3 := congrArg Gang.gstat (Gang.setS_rest g g d x)
  exact q1.trans (q2.trans q3)

/-- What a uniform write leaves: where it does not trap, the register, `GSTAT.UDIV` under divergence, and the pcs. -/
theorem State.setUni_took (s t : State) (u : Use) (g : Gang) (d la : Nat) (x : Word)
    (h : OnlyGang s t (g.issued s u)) (hok : ¬(d ≠ 0 ∧ g.live ≠ s.mask ∧ g.gstat.getLsbD 1 = true)) :
    ∃ g', OnlyGang s (t.setUni d x la) g' ∧ TookUniform g g' s.mask d x (if d ≠ 0 ∧ g.live ≠ s.mask then 1 else 0) := by
  obtain ⟨e1, e2, e3, e4, e5, e6, e7, e8, e9, e10⟩ := Gang.issued_fields g s u
  have hi : t.gang t.cur = some (g.issued s u) := by rw [h.cur]; exact h.issuer
  by_cases h0 : d = 0
  · subst h0
    have hb : t.setUni 0 x la = t.finish t.mask := by simp [State.setUni, State.setUnis]
    rw [hb]
    have hu := h.trans (OnlyGang.updGang t (fun g => g.finishAll t.mask) _ hi)
    refine ⟨_, hu, ?_⟩
    rw [h.mask]
    have hx := Gang.setS_took (g.issued s u) g s.mask 0 0 x 0 (.lanes [] none) e1 e2 e3 e4 e5 e6 e7 e10
    have hgs := Gang.setS_gstat (g.issued s u) s.mask 0 0 x (.lanes [] none)
    have hgz : (g.issued s u).gstat ||| 0 = (g.issued s u).gstat := by simp
    rw [hgz, ← hgs] at hx
    rw [if_neg (by simp)]
    exact hx
  · have hb : t.setUni d x la = t.uniformWrite fun s => s.updGang s.cur fun g =>
        ((g.setS d x).finishAll s.mask).openAll s.mask la (.uniforms [d]) := by
      have : ([(d, x)] : List (Nat × Word)).filter (fun p => decide (p.1 ≠ 0)) = [(d, x)] := by simp [h0]
      simp only [State.setUni, State.setUnis, this]
      rfl
    rw [hb]
    unfold State.uniformWrite State.diverged
    rw [hi]
    simp only [Option.map_some, Option.getD_some, e8, e9, h.mask]
    by_cases hdv : g.live = s.mask
    · have hne : (g.live != s.mask) = false := by simp [hdv]
      simp only [hne, Bool.false_eq_true, if_false]
      have hu := h.trans (OnlyGang.updGang t (fun g => ((g.setS d x).finishAll s.mask).openAll s.mask la (.uniforms [d])) _ hi)
      refine ⟨_, hu, ?_⟩
      have hx := Gang.setS_took (g.issued s u) g s.mask d la x 0 (.uniforms [d]) e1 e2 e3 e4 e5 e6 e7 e10
      have hz : (if d ≠ 0 ∧ g.live ≠ s.mask then (1 : Word) else 0) = 0 := by simp [hdv]
      rw [hz]
      have hgs := Gang.setS_gstat (g.issued s u) s.mask d la x (.uniforms [d])
      have hgz : (g.issued s u).gstat ||| 0 = (g.issued s u).gstat := by simp
      rw [hgz, ← hgs] at hx
      exact hx
    · have hne : (g.live != s.mask) = true := by simp [hdv]
      have htr : g.gstat.getLsbD 1 = false := by
        cases e : g.gstat.getLsbD 1
        · rfl
        · exact absurd ⟨h0, hdv, e⟩ hok
      simp only [hne, htr, Bool.false_eq_true, if_false, if_true]
      have hu := h.trans (OnlyGang.updGang t (fun g => ((g.setS d x).finishAll s.mask).openAll s.mask la (.uniforms [d])) _ hi)
      have hv := hu.trans (OnlyGang.updGang _ (fun g => { g with gstat := g.gstat ||| 1 }) _ (by rw [hu.cur]; exact hu.issuer))
      refine ⟨_, hv, ?_⟩
      have hx := Gang.setS_took (g.issued s u) g s.mask d la x 1 (.uniforms [d]) e1 e2 e3 e4 e5 e6 e7 e10
      have hz : (if d ≠ 0 ∧ g.live ≠ s.mask then (1 : Word) else 0) = 1 := by simp [h0, hdv]
      rw [hz]
      have hgs := Gang.setS_gstat (g.issued s u) s.mask d la x (.uniforms [d])
      rw [← hgs] at hx
      exact hx

end Sys2Proof.Machine
end

