-- ==== Sys2Proof/Tests/Slice0.lean ====
section
/-! SUPPORT. Tests: ill-formed instructions are refused, words decode as the spec's encodings say, small steps, and states that meet the hypotheses of each statement. -/

namespace Sys2Proof.Tests
set_option Elab.async false
open Sys2Proof Sys2Proof.Machine

set_option maxRecDepth 100000

/-! ### Field values that are refused (Table 4.6; each beside the nearest value that is not) -/

theorem test_wf_system_registers : Instr.wf (.rdsr 1 16) = false ∧ Instr.wf (.rdsr 1 15) = true ∧ Instr.wf (.srdsr 1 16) = false ∧ Instr.wf (.srdsr 1 15) = true ∧
    Instr.wf (.wrsr 0 1 16) = false ∧ Instr.wf (.wrsr 1 1 0) = false ∧ Instr.wf (.wrsr 0 1 15) = true ∧ Instr.wf (.swrsr 0 1 16) = false ∧ Instr.wf (.swrsr 0 1 9) = true := by decide
theorem test_wf_lanemask : Instr.wf (.lanemask 1 7) = false ∧ Instr.wf (.lanemask 1 6) = true := by decide
theorem test_wf_compares : Instr.wf (.icmpW 0 1 2 0 0) = false ∧ Instr.wf (.icmpW 1 1 2 0 7) = true ∧ Instr.wf (.icmpD 0 1 2 0 0) = false ∧ Instr.wf (.icmpD 7 1 2 0 7) = true ∧
    Instr.wf (.fcmpS 1 1 2 0 6) = false ∧ Instr.wf (.fcmpS 0 1 2 0 0) = false ∧ Instr.wf (.fcmpS 1 1 2 0 5) = true ∧ Instr.wf (.fcmpD 1 1 2 0 7) = false ∧ Instr.wf (.fcmpD 1 1 2 0 5) = true := by decide
theorem test_wf_cvt : Instr.wf (.cvt 1 2 3 3) = false ∧ Instr.wf (.cvt 1 2 3 4) = true := by decide
theorem test_wf_shifts : Instr.wf (.shifti 1 2 0 0 32) = false ∧ Instr.wf (.shifti 1 2 0 0 31) = true ∧ Instr.wf (.shifti 1 2 0 1 63) = true ∧
    Instr.wf (.sshifti 1 2 0 0 32) = false ∧ Instr.wf (.sshifti 1 2 0 1 32) = true := by decide
theorem test_wf_cross_lane : Instr.wf (.xred 1 2 14 0 0) = false ∧ Instr.wf (.xred 1 2 13 0 0) = true ∧ Instr.wf (.xscan 1 2 0 14 0 0) = false ∧
    Instr.wf (.xscan 1 2 0 13 0 0) = true ∧ Instr.wf (.xvote 1 2 4 0 0) = false ∧ Instr.wf (.xvote 1 2 3 0 0) = true := by decide
theorem test_wf_accesses : Instr.wf (.prefetch 3 1 0 0) = false ∧ Instr.wf (.prefetch 2 1 0 0) = true ∧ Instr.wf (.lda 3 1 0 2 1 0 0) = false ∧ Instr.wf (.lda 2 1 0 2 1 0 0) = true ∧
    Instr.wf (.lda 2 1 0 3 1 0 0) = false ∧ Instr.wf (.lda 2 1 0 0 6 0 0) = false ∧ Instr.wf (.str 0 0 3 1 0 2 1 0) = false ∧ Instr.wf (.str 0 0 2 1 0 2 5 0) = true := by decide
theorem test_wf_fences : Instr.wf (.fenceRel 6) = false ∧ Instr.wf (.fenceRel 5) = true ∧ Instr.wf (.fenceAcq 6) = false ∧ Instr.wf (.fenceAcqrel 7) = false ∧
    Instr.wf (.fenceSc 6) = false ∧ Instr.wf (.fenceWct 1 6) = false ∧ Instr.wf (.fenceWct 1 5) = true := by decide
theorem test_wf_counters : Instr.wf (.cntrd 1 2 4 0) = false ∧ Instr.wf (.cntrd 1 2 3 0) = true ∧ Instr.wf (.cntrd 1 2 31 0) = false ∧ Instr.wf (.cntrd 1 2 32 0) = true ∧
    Instr.wf (.cntrd 1 2 40 0) = false ∧ Instr.wf (.cntrd 1 2 39 0) = true := by decide
theorem test_wf_dispenser : Instr.wf (.tfetch 0 0) = false ∧ Instr.wf (.tfetch 1 0) = true ∧ Instr.wf (.tretire 1 0 2 0) = false ∧ Instr.wf (.tgive 1 0 2 0) = false ∧
    Instr.wf (.tgive 1 15 2 0) = true ∧ Instr.wf (.tstat 1 7 0) = false ∧ Instr.wf (.tstat 1 6 0) = true := by decide
theorem test_wf_k_registers : Instr.wf (.krd 1 15) = false ∧ Instr.wf (.krd 1 14) = true ∧ Instr.wf (.kwr 1 15) = false ∧ Instr.wf (.kwr 1 14) = true := by decide

/-! ### Words of the spec (the sample words and worked examples of sections 4 to 14 and 21) -/

noncomputable def reads (ps : List (Nat × Instr)) : Bool := ps.all fun p => decodeTableWord 32 p.1 == some p.2
/-- The worked example behind Table 4.5, and the words that section 5 works out. -/
theorem test_words_of_sections_4_and_5 : reads [(0, .nop), (0x04188281, .addD 3 4 5 0), (0x203FFFFB, .movi 7 0x7FFFB), (0x4440C023, .ldd 8 6 0 2 3),
    (0x50257EFF, .std 0 1 10 63 0 0xFF), (0x6D5FFFFD, .br 1 2 0x1FFFFD), (0x82494581, .saddD 9 10 11), (0x124882C8, .qe4m3 9 4 5 1 1), (0x124882C0, .qe4m3 9 4 5 1 0),
    (0x2A508342, .div 10 4 6 1 2), (0x80000000, .snop), (0x82616503, .ssubD 12 11 10), (0x20280000, .movi 5 0), (0x222E8ACF, .movsh 5 0x68ACF)] = true := by decide +kernel
/-- Sections 6, 8 and 9. -/
theorem test_words_of_sections_6_8_and_9 : reads [(0x70000281, .callr 5 0), (0x70000002, .ret), (0x70000003, .exit), (0x72002000, .cvsetGrp 0), (0x72100001, .cvwait 2),
    (0x3030A410, .xred 6 5 8 1 0), (0x96000003, .fenceRel 3), (0x96000034, .fenceSc 4), (0x96600044, .fenceWct 12 4), (0x4018AFD0, .ldw 3 5 0 0xFD 0), (0x48212610, .lda 4 9 0 1 4 1 0),
    (0x54028C58, .str 0 0 5 6 0 1 3 0), (0x570E4130, .amadd 2 7 8 9 1 0), (0x924F9830, .sld 9 60 3 3 0), (0x9CA2A000, .cpy 20 21 0), (0x9CB28020, .cpywait 22 20 0),
    (0x9C2860B0, .cpycancelResume 5 3 0)] = true := by decide +kernel
/-- Sections 10, 12 and 14. -/
theorem test_words_of_sections_10_12_and_14 : reads [(0x781061A0, .mma 0 16 12 13 0), (0x7A1171E0, .mdrain 0 17 14 15 0), (0x7C120000, .mzero 0 18 0), (0x7C106010, .mload 0 16 12 0),
    (0x7C106020, .mstore 0 16 12 0), (0x7E92A000, .mquant 2 18 10 0), (0x7E93B010, .mhad 2 19 11 0), (0x9E800000, .tfetch 4 0), (0x9EA20A90, .tretire 20 4 21 0), (0x9EA20B20, .tgive 20 4 22 0),
    (0x9E4800B0, .tstat 9 1 0), (0x98214580, .barinit 4 10 11 0), (0x98294010, .bararrive 5 10 0), (0x98014620, .barexpect 0 10 12 0), (0x983142B0, .barwait 6 10 5 0), (0x983142C0, .bartry 6 10 5 0),
    (0x98014050, .barpoison 0 10 0), (0x9A4A8000, .cntrd 9 20 0 0), (0x9A4A8190, .cntwait 9 20 3 0), (0x9A3904A0, .cntadd 7 8 9 0)] = true := by decide +kernel
/-- Words that no row encodes: U major 0x3F, MSG function 7, UMISC function 8 (section 4), and fields that are refused. -/
theorem test_words_refused : [0xFFFFFFFF, 0xA4000070, 0x80000008, 0x04000026, 0x06000000].all (fun w => (decodeTableWord 32 w).isNone) = true := by decide +kernel

/-! ### A word of every row: the row's fixed bits, and a value in each field where `spec/opcode_table.json` places it -/

noncomputable def words1 : List (Nat × Instr) :=
  [(0x00000000, .nop),
   (0x00600BC1, .mov 12 23 1),
   (0x00980482, .rdsr 19 9),
   (0x0001A483, .wrsr 0 13 9),
   (0x01080004, .movgv 33),
   (0x00001405, .movvg 40 0),
   (0x017F42C6, .waitne 47 58 5 1),
   (0x01B0A007, .lanemask 54 5),
   (0x03E909D4, .sel 61 8 19 1 0 5),
   (0x0421ED00, .addW 4 15 26 0),
   (0x045AD0C1, .addD 11 22 33 1),
   (0x0493B402, .subW 18 29 40 0),
   (0x04CC97C3, .subD 25 36 47 1),
   (0x05057B04, .mulW 32 43 54 0),
   (0x053E5EC5, .mulD 39 50 61 1),
   (0x05772206, .mulhD 46 57 4 0),
   (0x05A805C7, .mulhuD 53 0 11 1),
   (0x05E0E908, .madW 60 7 18 0),
   (0x0419CCC9, .madD 3 14 25 1),
   (0x0452B00A, .and 10 21 32 0),
   (0x048B93CB, .or 17 28 39 1),
   (0x04C4770C, .xor 24 35 46 0),
   (0x04FD5ACD, .andn 31 42 53 1),
   (0x05363E0E, .shlW 38 49 60 0),
   (0x056F01CF, .shlD 45 56 3 1),
   (0x05A7E510, .shrW 52 63 10 0),
   (0x05D8C8D1, .shrD 59 6 17 1),
   (0x0411AC12, .sraW 2 13 24 0),
   (0x044A8FD3, .sraD 9 20 31 1),
   (0x04837314, .rotW 16 27 38 0),
   (0x04BC56D5, .rotD 23 34 45 1),
   (0x04F53A16, .min 30 41 52 0),
   (0x052E1DD7, .max 37 48 59 1),
   (0x0566E118, .minu 44 55 2 0)]
noncomputable def words2 : List (Nat × Instr) :=
  [(0x059FC4D9, .maxu 51 62 9 1),
   (0x05D0A01A, .abs 58 5),
   (0x0409801B, .clz 1 12),
   (0x0442601C, .popc 8 19),
   (0x047B401D, .brev 15 26),
   (0x04B4361E, .bfe 22 33 44 0),
   (0x04ED19DF, .bfeu 29 40 51 1),
   (0x0525FD20, .bfi 36 47 58 0),
   (0x055EC0E1, .slt 43 54 1 1),
   (0x0597A422, .sltu 50 61 8 0),
   (0x05C887E3, .seq 57 4 15 1),
   (0x04016B24, .sne 0 11 22 0),
   (0x043A4EE5, .addva 7 18 29 1),
   (0x061B3220, .icmpW 3 25 36 0 4),
   (0x061C15E4, .icmpD 3 32 43 1 4),
   (0x08E4F900, .fadd 28 39 50 0),
   (0x091DDCC1, .fsub 35 46 57 1),
   (0x0956A002, .fmul 42 53 0 0),
   (0x098F83C3, .ffma 49 60 7 1),
   (0x09C06704, .fmin 56 3 14 0),
   (0x09F94AC5, .fmax 63 10 21 1),
   (0x08322006, .fabs 6 17),
   (0x086B0007, .fneg 13 24),
   (0x08A3F508, .fcpysgn 20 31 42 0),
   (0x08DCC009, .fclass 27 38),
   (0x0B15BC00, .faddS 34 45 56 0),
   (0x0B4E9FC1, .fsubS 41 52 63 1),
   (0x0B876302, .fmulS 48 59 6 0),
   (0x0BB846C3, .ffmaS 55 2 13 1),
   (0x0BF12A04, .fminS 62 9 20 0),
   (0x0A2A0DC5, .fmaxS 5 16 27 1),
   (0x0A62E006, .fabsS 12 23),
   (0x0A9BC007, .fnegS 19 30),
   (0x0AD4B808, .fcpysgnS 26 37 48 0)]
noncomputable def words3 : List (Nat × Instr) :=
  [(0x0B0D8009, .fclassS 33 44),
   (0x0D467F00, .hadd2 40 51 62 0),
   (0x0D7F42C1, .hmul2 47 58 5 1),
   (0x0DB02602, .hfma2 54 1 12 0),
   (0x0DE909C3, .hmax2 61 8 19 1),
   (0x0C21ED04, .badd2 4 15 26 0),
   (0x0C5AD0C5, .bmul2 11 22 33 1),
   (0x0C93B406, .bfma2 18 29 40 0),
   (0x0CCC97C7, .bmax2 25 36 47 1),
   (0x0E1D7B20, .fcmpS 3 43 54 0 4),
   (0x0E1E5EE4, .fcmpD 3 50 61 1 4),
   (0x1177203A, .cvt 46 57 7 2),
   (0x13A805C0, .qe4m3 53 0 11 1 0),
   (0x13E0E909, .qe5m2 60 7 18 0 1),
   (0x1219CCC2, .qe2m1 3 14 25 1 0),
   (0x1252B00B, .qi8 10 21 32 0 1),
   (0x128B8004, .de4m3 17 28),
   (0x12C46005, .de5m2 24 35),
   (0x12FD4006, .de2m1 31 42),
   (0x1536227C, .addiW 38 49 636),
   (0x176F0283, .addiD 45 56 643),
   (0x19A7E28A, .andi 52 63 650),
   (0x1BD8C291, .ori 59 6 657),
   (0x1C11A298, .xori 2 13 664),
   (0x1E4A9415, .shifti 9 20 2 1 21),
   (0x2080029B, .movi 16 667),
   (0x22B802A2, .movsh 23 674),
   (0x24F52004, .rcpS 30 41 4),
   (0x252E001B, .rsqS 37 48 11),
   (0x2566E022, .sqrtS 44 55 2),
   (0x259FC4FF, .divS 51 62 9 1 15),
   (0x27D0A000, .rcpD 58 5 0),
   (0x26098017, .rsqD 1 12 7),
   (0x2642602E, .sqrtD 8 19 14)]
noncomputable def words4 : List (Nat × Instr) :=
  [(0x267B52FB, .divD 15 26 37 1 11),
   (0x28B4200C, .exp2 22 33 12),
   (0x28ED0013, .log2 29 40 3),
   (0x2925E02A, .sinpi 36 47 10),
   (0x295EC031, .cospi 43 54 1),
   (0x2B97A40E, .div 50 61 8 0 14),
   (0x2BC887D5, .divu 57 4 15 1 5),
   (0x2A016B2C, .rem 0 11 22 0 12),
   (0x2A3A4EF3, .remu 7 18 29 1 3),
   (0x2C73322A, .xshfl 14 25 36 2 10),
   (0x2EAC05B1, .xshxor 21 32 11 3 1),
   (0x30E4E4C8, .xred 28 39 9 4 8),
   (0x331DC4EA, .xscan 35 46 0 9 6 10),
   (0x3556A166, .xvote 42 53 2 6 6),
   (0x378F8062, .xmatch 49 60 6 2),
   (0x39C07594, .ldb 56 3 1 89 4),
   (0x3BF9460B, .ldbu 63 10 0 96 11),
   (0x3C323672, .ldh 6 17 1 103 2),
   (0x3E6B06E9, .ldhu 13 24 0 110 9),
   (0x40A3F750, .ldw 20 31 1 117 0),
   (0x42DCC7C7, .ldwu 27 38 0 124 7),
   (0x4515B83E, .ldd 34 45 1 131 14),
   (0x469688A5, .ldq 9 52 0 138 5),
   (0x462F7910, .prefetch 2 59 1 145),
   (0x49B846B9, .lda 55 2 0 1 5 3 9),
   (0x4B0A3FB5, .stb 1 0 20 31 1 181),
   (0x4C2DCCBC, .sth 0 1 27 38 0 188),
   (0x4F515BC3, .stw 1 2 34 45 1 195),
   (0x5074E8CA, .std 0 3 41 52 0 202),
   (0x539077D1, .stq 1 4 16 59 1 209),
   (0x54BB846B, .str 0 5 55 2 0 1 5 3),
   (0x56E7F13F, .amadd 1 51 62 9 1 15),
   (0x59742A06, .ammin 2 58 5 16 0 6),
   (0x5B8262FD, .ammax 3 1 12 23 1 13)]
noncomputable def words5 : List (Nat × Instr) :=
  [(0x5C109BC4, .amumin 0 8 19 30 0 4),
   (0x5E9ED4BB, .amumax 1 15 26 37 1 11),
   (0x612D0D82, .amand 2 22 33 44 0 2),
   (0x63BB4679, .amor 3 29 40 51 1 9),
   (0x64497F40, .amxor 0 36 47 58 0 0),
   (0x66D7B037, .amswap 1 43 54 1 1 7),
   (0x6965E90E, .amcas 2 50 61 8 0 14),
   (0x6BF221F5, .amfadd 3 57 4 15 1 5),
   (0x6C20040B, .br 0 1 1035),
   (0x6E0003FC, .call 1020),
   (0x700001C0, .jr 3 1),
   (0x70000501, .callr 10 0),
   (0x70000002, .ret),
   (0x70000003, .exit),
   (0x70020F84, .bkpt 1055),
   (0x72381140, .cvset 7 17),
   (0x72002000, .cvsetGrp 0),
   (0x72080001, .cvwait 1),
   (0x73D868C2, .cvquery 59 3 17 1),
   (0x72180003, .cvclear 3),
   (0x744A830A, .spawn 9 20 6 10),
   (0x7608450B, .syscall 1104 11),
   (0x79A26B03, .mma 6 34 13 24 3),
   (0x7BE9A3EA, .mdrain 7 41 20 31 10),
   (0x7C30000B, .mzero 0 48 11),
   (0x7C77101D, .mload 1 55 2 13),
   (0x7CBE4824, .mstore 2 62 9 4),
   (0x7EC5000B, .mquant 3 5 0 11),
   (0x7F0C7012, .mhad 4 12 7 2),
   (0x80000000, .snop),
   (0x807B4001, .smov 15 26),
   (0x80B00482, .srdsr 22 9),
   (0x8001A483, .swrsr 0 13 9),
   (0x81200004, .rdtime 36)]
noncomputable def words6 : List (Nat × Instr) :=
  [(0x81580005, .rdbudget 43),
   (0x80000006, .yield),
   (0x81C88787, .setdeadline 57 4 15),
   (0x82016B00, .saddW 0 11 22),
   (0x823A4E81, .saddD 7 18 29),
   (0x82733202, .ssubW 14 25 36),
   (0x82AC1583, .ssubD 21 32 43),
   (0x82E4F904, .smulW 28 39 50),
   (0x831DDC85, .smulD 35 46 57),
   (0x8356A006, .smulhD 42 53 0),
   (0x838F8387, .smulhuD 49 60 7),
   (0x83C06708, .smadW 56 3 14),
   (0x83F94A89, .smadD 63 10 21),
   (0x82322E0A, .sand 6 17 28),
   (0x826B118B, .sor 13 24 35),
   (0x82A3F50C, .sxor 20 31 42),
   (0x82DCD88D, .sandn 27 38 49),
   (0x8315BC0E, .sshlW 34 45 56),
   (0x834E9F8F, .sshlD 41 52 63),
   (0x83876310, .sshrW 48 59 6),
   (0x83B84691, .sshrD 55 2 13),
   (0x83F12A12, .ssraW 62 9 20),
   (0x822A0D93, .ssraD 5 16 27),
   (0x8262F114, .srotW 12 23 34),
   (0x829BD495, .srotD 19 30 41),
   (0x82D4B816, .smin 26 37 48),
   (0x830D9B97, .smax 33 44 55),
   (0x83467F18, .sminu 40 51 62),
   (0x837F4299, .smaxu 47 58 5),
   (0x83B0201A, .sabs 54 1),
   (0x83E9001B, .sclz 61 8),
   (0x8221E01C, .spopc 4 15),
   (0x825AC01D, .sbrev 11 22),
   (0x8293B41E, .sbfe 18 29 40)]
noncomputable def words7 : List (Nat × Instr) :=
  [(0x82CC979F, .sbfeu 25 36 47),
   (0x83057B20, .sbfi 32 43 54),
   (0x833E5EA1, .sslt 39 50 61),
   (0x83772222, .ssltu 46 57 4),
   (0x83A805A3, .sseq 53 0 11),
   (0x83E0E924, .ssne 60 7 18),
   (0x8219CCA5, .saddva 3 14 25),
   (0x8452A5E0, .saddi 10 21 1504),
   (0x868B85E7, .sandi 17 28 1511),
   (0x88C465EE, .sori 24 35 1518),
   (0x8AFD45F5, .sxori 31 42 1525),
   (0x8D362815, .sshifti 38 49 1 0 21),
   (0x8F6805F8, .smovi 45 1528),
   (0x91A005FF, .smovsh 52 1535),
   (0x93D8C1C7, .sld 59 6 0 28 7),
   (0x9411AE23, .sst 2 13 1 1571),
   (0x96000004, .fenceRel 4),
   (0x96000014, .fenceAcq 4),
   (0x96000024, .fenceAcqrel 4),
   (0x96000034, .fenceSc 4),
   (0x97280044, .fenceWct 37 4),
   (0x9966E10D, .barinit 44 55 2 13),
   (0x999FC019, .bararrive 51 62 9),
   (0x99D0A82B, .barexpect 58 5 16 11),
   (0x98098BB2, .barwait 1 12 23 2),
   (0x98426F49, .bartry 8 19 30 9),
   (0x987B4055, .barpoison 15 26 5),
   (0x9AB43087, .cntrd 22 33 33 7),
   (0x9AED199E, .cntwait 29 40 51 14),
   (0x9B25FD25, .cntadd 36 47 58 5),
   (0x9D5EC001, .cpy 43 54 1),
   (0x9D97A018, .cpystat 50 61 8),
   (0x9DC8802F, .cpywait 57 4 15),
   (0x9C016036, .cpycancelCancel 0 11 6)]
noncomputable def words8 : List (Nat × Instr) :=
  [(0x9C3A40BD, .cpycancelResume 7 18 13),
   (0x9C732134, .cpycancelFail 14 25 4),
   (0x9CAC15C6, .rlock 21 32 43 6),
   (0x9CE4E052, .runlock 28 39 2),
   (0x9F20000E, .tfetch 9 14),
   (0x9F54801B, .tretire 42 9 0 11),
   (0x9F8C83A2, .tgive 49 9 7 2),
   (0x9FC0033E, .tstat 56 6 14),
   (0xA1F94000, .schr 63 10 0 0),
   (0xA0322601, .schw 6 17 12),
   (0xA06B0002, .schcommit 13 24),
   (0xA2A3F505, .launch 20 31 42 5),
   (0xA2DCD89C, .launchp 27 38 49 12),
   (0xA315BC23, .graphsub 34 45 56 3),
   (0xA34E803F, .cancelDrain 41 52 15),
   (0xA38760B6, .cancelKill 48 59 6),
   (0xA3B8404D, .waitdone 55 2 13),
   (0xA5F12A0F, .msgsend 62 9 20 15),
   (0xA42A0D96, .msgrecv 5 16 27 6),
   (0xA4600027, .msgpoll 12 7),
   (0xA69BC009, .crpop 19 30 9),
   (0xA6D1501B, .resume 26 5 16 11),
   (0xA70B1722, .resumeall 33 12 23 2),
   (0xA7467F39, .crfwd 40 51 62 9),
   (0xA9780600, .krd 47 12),
   (0xA806C601, .kwr 54 12),
   (0xA9E90982, .tlbinv 61 8 19),
   (0xA8000003, .kret),
   (0xA8000004, .idle),
   (0xAA93A008, .ctxevict 18 29 8),
   (0xAACC979A, .ctxpin 25 36 47 10),
   (0xAB057B21, .gangkill 32 43 54 1),
   (0xAB3E5EB8, .wgkill 39 50 61 8),
   (0xAB772044, .ctxstat 46 57 4)]
theorem test_words1 : (words1.all fun p => decodeTableWord 32 p.1 == some p.2 && encode p.2 == some (BitVec.ofNat 32 p.1)) = true := by decide +kernel
theorem test_words2 : (words2.all fun p => decodeTableWord 32 p.1 == some p.2 && encode p.2 == some (BitVec.ofNat 32 p.1)) = true := by decide +kernel
theorem test_words3 : (words3.all fun p => decodeTableWord 32 p.1 == some p.2 && encode p.2 == some (BitVec.ofNat 32 p.1)) = true := by decide +kernel
theorem test_words4 : (words4.all fun p => decodeTableWord 32 p.1 == some p.2 && encode p.2 == some (BitVec.ofNat 32 p.1)) = true := by decide +kernel
theorem test_words5 : (words5.all fun p => decodeTableWord 32 p.1 == some p.2 && encode p.2 == some (BitVec.ofNat 32 p.1)) = true := by decide +kernel
theorem test_words6 : (words6.all fun p => decodeTableWord 32 p.1 == some p.2 && encode p.2 == some (BitVec.ofNat 32 p.1)) = true := by decide +kernel
theorem test_words7 : (words7.all fun p => decodeTableWord 32 p.1 == some p.2 && encode p.2 == some (BitVec.ofNat 32 p.1)) = true := by decide +kernel
theorem test_words8 : (words8.all fun p => decodeTableWord 32 p.1 == some p.2 && encode p.2 == some (BitVec.ofNat 32 p.1)) = true := by decide +kernel

/-! ### States to test in -/

/-- The admission of an issue, as a computation. -/
def admits (s : State) (u : Use) (g : Gang) : Bool :=
  decide (s.gang s.cur = some g) && (decide (u.allow ≠ 1) || isGang s.cur) && (decide (u.allow ≠ 2) || !isGang s.cur) &&
    u.lanes.all g.available && decide (g.inWindow u s.mask = 0) && !g.blocked u s.mask &&
    (g.needs u s.mask).all fun n => (Tab.find g.lines n).isSome
theorem admits_of {s : State} {u : Use} {g : Gang} (h : admits s u g = true) : s.Admits u g := by
  simp only [admits, Bool.and_eq_true, Bool.or_eq_true, decide_eq_true_eq, List.all_eq_true, Bool.not_eq_true', ne_eq] at h
  obtain ⟨⟨⟨⟨⟨⟨h1, h2⟩, h3⟩, h4⟩, h5⟩, h6⟩, h7⟩ := h
  exact ⟨h1, fun e => h2.resolve_left fun k => k e, fun e => h3.resolve_left fun k => k e, h4, h5, h6, h7⟩
theorem all_admit {s : State} {us : List Use} {g : Gang} (h : (us.all fun u => admits s u g) = true) : ∀ u ∈ us, s.Admits u g :=
  fun _ hu => admits_of (List.all_eq_true.mp h _ hu)
/-- Accesses may issue, as a computation. -/
def mayOk (s : State) (kind size : Nat) (xs : List Acc) : Bool :=
  (xs.all fun x => decide (s.check s.cur kind size x.addr = .ok x.loc) && !s.held? x size && !s.upperLocked kind size x) && (decide (kind = 0) || xs.all fun x => !s.barred x) &&
    !s.noRoom s.cur xs
theorem may_of {s : State} {k n : Nat} {xs : List Acc} (h : mayOk s k n xs = true) : MayIssue s k n xs := by
  simp only [mayOk, Bool.and_eq_true, decide_eq_true_eq, Bool.not_eq_true', List.all_eq_true] at h
  simp only [Bool.or_eq_true, decide_eq_true_eq, List.all_eq_true, Bool.not_eq_true'] at h
  exact ⟨fun x hx => (h.1.1 x hx).1.1, fun x hx => (h.1.1 x hx).1.2, fun x hx => (h.1.1 x hx).2, h.1.2, h.2⟩
theorem may_all {s : State} {k n : Nat} {xs : List Acc} (h : (xs.all fun x => mayOk s k n [x]) = true) : ∀ x ∈ xs, MayIssue s k n [x] :=
  fun _ hx => may_of (List.all_eq_true.mp h _ hx)
/-- Translation entries for the low GiB of PASID 0, which stands at the bottom of the package's memory. -/
def low : Tlb := ⟨some 0, 0, 2 ^ 30, 0, true, true, true, true, true, 0⟩
/-- A launch record: 64 lane registers, one gang of lane 0, 64 KiB of scratchpad and of accumulator store, 4 granules. -/
def labRecord : List Byte :=
  mkRecord 384 [(0, 8, 0x1000), (8, 1, 64), (0xA, 1, 1), (0xC, 4, 1), (0x10, 8, 0x4000400040), (0x18, 2, 4), (0x1A, 2, 1), (0x1C, 2, 1), (0x1E, 2, 1), (0x20, 8, 0x3000), (0x28, 8, 0x2000), (0x30, 8, 0x100000),
    (0x38, 8, 0x200000), (0x100, 8, 0xE4), (0x108, 8, 0x01010104), (0x110, 8, 0x10001), (0x118, 8, 0x21), (0x130, 8, 0x400)]
def labLaunch : Launch := { freshLaunch labRecord 1 0 0 0 0 0 with started := true, wglive := 1, placement := [0] }
def labGang : Gang :=
  { freshGang labLaunch 0 0 0 with bufs := [(0, ⟨0x1000, List.replicate 48 0⟩)], lines := (List.range 136).map fun n => (n, 0), slot := true }
/-- A package whose die 0 is there, with workgroup 0 on core 0, whose one thread has the turn. -/
def labOf (g : Gang) (x : Launch) : State :=
  { State.blank with
    cur := .gang 0 0, mask := 1, present := [(0, 0x80001FFFFFFFFFFF)], tlbs := [(0, [low]), (48, [low])]
    launches := [(0, x)], cores := [(0, { freshCore with slots := [(0, 0)] })], wgs := [(0, { freshWg x 0 0 1 0 0 0 with gangs := [(0, g)] })] }
def labWg : Workgroup := { freshWg labLaunch 0 0 1 0 0 0 with gangs := [(0, labGang)] }
def lab : State := labOf labGang labLaunch
/-- Service core 0 running, with the turn, beside the workgroup. -/
def denCore : Scalar := { freshScalar 0 0 with running := true, ctx := freshCtx 0x1000 0 0 0 0 0 }
def denOf (c : Scalar) : State := { lab with cur := .core 0, scalars := [(0, c)] }
def den : State := denOf denCore

/-- A gang with lane 0's v2, v3 and v4, and the uniform s2 and s3. -/
def holding (a b c : Word) : Gang := ((((labGang.setV 0 2 a).setV 0 3 b).setV 0 4 c).setS 2 a).setS 3 b
/-- What instruction i leaves of a gang with those values: its own gang, where it answers a next state. -/
noncomputable def left (a b c : Word) (i : Instr) : Option Gang :=
  match exec i (labOf (holding a b c) labLaunch) with
  | .next t => t.gang t.cur
  | _ => none
/-- Lane register n after an instruction. -/
noncomputable def vAfter (a b c : Word) (i : Instr) (n : Nat) : Option Word := (left a b c i).map fun g => g.vreg 0 n
/-- Uniform register n after an instruction. -/
noncomputable def sAfter (a b c : Word) (i : Instr) (n : Nat) : Option Word := (left a b c i).map fun g => g.sreg n
/-- The fault that the issuing lane is suspended by, as its record gives it. -/
noncomputable def faultOf (a b c : Word) (i : Instr) : Option Nat :=
  match exec i (labOf (holding a b c) labLaunch) with
  | .next t => if (t.gang t.cur).map (fun g => g.stat 0) = some .fault then (t.held 0).head?.map (fun r => recAt r 0x14 1) else none
  | _ => none

/-! ### Steps whose results the spec gives, or that are worked out by hand -/

theorem test_add_wraps : vAfter 0xFFFFFFFFFFFFFFFF 1 0 (.addD 2 2 3 0) 2 = some 0 ∧ vAfter 0x7FFFFFFF 1 0 (.addW 1 2 3 0) 1 = some 0xFFFFFFFF80000000 := by decide +kernel
theorem test_mulh : vAfter 0xFFFFFFFFFFFFFFFF 2 0 (.mulhD 1 2 3 0) 1 = some 0xFFFFFFFFFFFFFFFF ∧ vAfter 0xFFFFFFFFFFFFFFFF 2 0 (.mulhuD 1 2 3 0) 1 = some 1 := by decide +kernel
theorem test_fields : vAfter 0xF80 0x507 0 (.bfe 1 2 3 0) 1 = some 0xFFFFFFFFFFFFFFFF ∧ vAfter 0xF80 0x507 0 (.bfeu 1 2 3 0) 1 = some 31 := by decide +kernel
theorem test_shift_right : vAfter 0xFFFFFFFF80000000 31 0 (.shrW 1 2 3 0) 1 = some 1 ∧ vAfter 0xFFFFFFFF80000000 31 0 (.sraW 1 2 3 0) 1 = some 0xFFFFFFFFFFFFFFFF := by decide +kernel
/-- Section 5's worked example of `qe4m3`: 1,000.0, 3.0 and −0.001 with a scale of 2^−1. -/
theorem test_qe4m3 : vAfter 0x447A0000 0xFFFFFFFFFFFFFFFF 0 (.qe4m3 1 2 3 0 1) 1 = some 0x7E ∧ vAfter 0x40400000 0xFFFFFFFFFFFFFFFF 0 (.qe4m3 1 2 3 0 1) 1 = some 0x3C ∧
    vAfter 0xBA83126F 0xFFFFFFFFFFFFFFFF 0 (.qe4m3 1 2 3 0 1) 1 = some 0x80 ∧ vAfter 0x447A0000 0xFFFFFFFFFFFFFFFF 0 (.qe4m3 1 2 3 0 0) 1 = some 0x7F := by decide +kernel
theorem test_qi8 : vAfter 0x40400000 0xFFFFFFFFFFFFFFFF 0 (.qi8 1 2 3 0 1) 1 = some 2 ∧ vAfter 0x447A0000 0xFFFFFFFFFFFFFFFF 0 (.qi8 1 2 3 0 1) 1 = some 127 ∧
    vAfter 0xBA83126F 0xFFFFFFFFFFFFFFFF 0 (.qi8 1 2 3 0 1) 1 = some 0 := by decide +kernel
/-- Section 5's worked example of `div`: −7 / 2 is −3. -/
theorem test_div : (left 0xFFFFFFFFFFFFFFF9 2 0 (.div 1 2 3 0 2)).map (fun g => (g.flights.map (·.vals), g.windows.map (·.left))) = some ([some [0xFFFFFFFFFFFFFFFD]], [2]) := by decide +kernel
theorem test_div_limits : (left 0x8000000000000000 0xFFFFFFFFFFFFFFFF 0 (.div 1 2 3 0 0)).map (fun g => g.flights.map (·.vals)) = some [some [0x8000000000000000]] ∧
    (left 7 0 0 (.rem 1 2 3 0 0)).map (fun g => g.flights.map (·.vals)) = some [some [7]] := by decide +kernel
/-- 1.0 + 2^−24 is a tie, and rounds to even; 3.0 as FP32 converts to 3. -/
theorem test_fadd_rounds_to_even : vAfter 0x3F800000 0x33800000 0 (.faddS 1 2 3 0) 1 = some 0x3F800000 ∧ (left 0x3F800000 0x33800000 0 (.faddS 1 2 3 0)).map (fun g => g.fcrOf 0) = some 1 ∧
    vAfter 0x40400000 0 0 (.cvt 1 2 6 2) 1 = some 3 := by decide +kernel
theorem test_fcmp_nan : (left 0x7FC00000 0x3F800000 0 (.fcmpS 1 2 3 0 2)).map (fun g => (g.guard 0 1, g.fcrOf 0)) = some (false, 16) ∧
    (left 0x7FC00000 0x3F800000 0 (.fcmpS 1 2 3 0 1)).map (fun g => (g.guard 0 1, g.fcrOf 0)) = some (true, 0) := by decide +kernel
theorem test_movi_sign : vAfter 0 0 0 (.movi 7 0x7FFFB) 7 = some 0xFFFFFFFFFFFFFFFB ∧ vAfter 0x3C048 0 0 (.movsh 2 0x68ACF) 2 = some 0x1E02468ACF := by decide +kernel
theorem test_uniform : sAfter 5 7 0 (.ssubD 4 2 3) 4 = some 0xFFFFFFFFFFFFFFFE ∧ sAfter 5 7 0 (.saddD 0 2 3) 0 = some 0 := by decide +kernel
theorem test_addva_limits : vAfter 0xFFFFFFFFFFFFFF 0 0 (.addva 1 2 3 0) 1 = some 0xFFFFFFFFFFFFFF ∧ faultOf 0xFFFFFFFFFFFFFF 1 0 (.addva 1 2 3 0) = some 8 := by decide +kernel
theorem test_thread_id_and_traps : vAfter 0 0 0 (.rdsr 1 5) 1 = some 0 ∧ faultOf 0 0 0 (.krd 1 2) = some 2 ∧ faultOf 0 0 0 (.unassignedWord 0xFFFFFFFF) = some 1 ∧ faultOf 0 0 0 (.bkpt 3) = some 0x11 := by decide +kernel
theorem test_branch_and_call : (left 0 0 0 (.br 0 0 3)).map (fun g => g.pcOf 0) = some 0x100C ∧ (left 0 0 0 (.br 1 0 3)).map (fun g => g.pcOf 0) = some 0x1004 ∧
    (left 0 0 0 (.call 5)).map (fun g => (g.pcOf 0, g.vreg 0 62)) = some (0x1014, 0x1004) := by decide +kernel
theorem test_exit_ends_gang : (left 0 0 0 .exit).map (fun g => (g.live, g.ended)) = some (0, true) := by decide +kernel
/-- A store to the scratchpad, and a misaligned load. -/
theorem test_scratch_store : (match exec (.std 0 0 4 2 0 1) (labOf (holding 0xFF00000000000010 0 0x0102030405060708) labLaunch) with
    | .next t => (t.wg 0).map fun x => (Mem.byte x.scratch 0x17, Mem.byte x.scratch 0x18, Mem.byte x.scratch 0x1F)
    | _ => none) = some (0, 8, 1) ∧ faultOf 0xFF00000000000011 0 0 (.ldw 1 2 0 0 0) = some 4 ∧ faultOf 0xFF00000000010000 0 0 (.ldw 1 2 0 0 0) = some 8 := by decide +kernel
/-- Loads from memory put a request in flight; from the scratchpad their value. -/
theorem test_loads : (match exec (.ldd 1 2 0 0 0) (labOf (holding 0x8000 0 0) labLaunch) with
    | .next t => t.reqs.map fun r => (r.key, r.size)
    | _ => []) = [(0x8000, 8)] ∧ (left 0xFF00000000000010 0 0 (.ldd 1 2 0 0 0)).map (fun g => g.flights.map (·.vals)) = some [some [0]] := by decide +kernel
theorem test_step_runs_the_placed_word : (match step (State.reset.withFetchWord 32 0x20080007) with
    | .next t => (t.gang (.gang 0 0)).map fun g => (g.vreg 0 1, g.pcOf 0)
    | _ => none) = some (7, 0x1004) := by decide +kernel
/-- The kernel return of a service core: the pc is `KEPC`. -/
theorem test_kret : (match exec .kret (denOf { denCore with handling := true, k := Tab.put denCore.k 2 0x5550 }) with
    | .next t => (t.scalar 0).map fun c => (c.ctx.pcOf 0, c.handling)
    | _ => none) = some (0x5550, false) := by decide +kernel
theorem test_service_trap : (match exec .exit den with
    | .next t => (t.scalar 0).map fun c => (c.kreg 1, c.kreg 2, c.ctx.pcOf 0, c.handling)
    | _ => none) = some (1, 0x1000, 0xFFFFFF0000000000, true) := by decide +kernel

/-! ### States that meet the hypotheses of the statements: instructions of threads -/

theorem one_lane {p : Nat → Prop} (h : p 0) : ∀ l, (1 : LaneMask).getLsbD l = true → p l := by
  intro l hl
  cases l with
  | zero => exact h
  | succ l => simp at hl
theorem lane_zero {p : Nat → Prop} (h : p 0) : ∀ l ∈ lanesOf (1 : LaneMask), p l := by
  intro l hl
  have e : lanesOf (1 : LaneMask) = [0] := by decide
  rw [e] at hl; simp at hl; rw [hl]; exact h
theorem lab_on_compute : OnCompute lab labGang 0 0 labWg labLaunch := ⟨rfl, rfl, rfl, rfl, by decide⟩
theorem den_on_service : OnService den 0 denCore := ⟨rfl, rfl, rfl, rfl⟩
/-- LaneArithmetic, LaneShiftsAndFields, LaneMovesAndImmediates, LaneCompares, LaneFloat, LaneClass, LanePacked, LaneConversions, LaneLongLatency, IntegerDivision: every shape of use. -/
theorem witness_lane_uses : ∀ u ∈ [useB [1, 2] 3 0, useB [1, 2] 3 1, useB [0, 63] 63 0, .regs [1, 2] [], .regs [1] [], .regs [] [], useB [1] 3 0, { useB [1, 2] 3 0 with guards := [1] },
    { Use.regs [1] [] with guards := List.range 8 }, { useB [] 3 0 with guards := [1, 2, 3, 4, 5, 6, 7] }, { useB [2] 3 1 with guards := [7] }], lab.Admits u labGang := all_admit (by decide +kernel)
/-- UniformArithmetic, UniformImmediatesAndMoves: also at s63, and not under divergence. -/
theorem witness_uniform_uses : (∀ u ∈ [Use.regs [] [1, 2, 3], .regs [] [1, 2], .regs [] [1], .regs [] [0, 63, 63]], lab.Admits u labGang) ∧ ¬UdivTraps lab labGang 1 :=
  ⟨all_admit (by decide +kernel), by unfold UdivTraps; decide⟩
/-- A gang of two lanes, of which lane 0 has the turn, whose launch traps `UDIV`. -/
def split : Gang := { labGang with live := 3, gstat := 2 }
theorem witness_diverged : OnCompute (labOf split labLaunch) split 0 0 { labWg with gangs := [(0, split)] } labLaunch ∧ UdivTraps (labOf split labLaunch) split 1 ∧
    (labOf split labLaunch).Admits (.regs [] [1, 2, 3]) split ∧ (labOf split labLaunch).Admits (.regs [] [1, 2]) split :=
  ⟨⟨rfl, rfl, rfl, rfl, by decide⟩, by unfold UdivTraps; decide, admits_of (by decide +kernel), admits_of (by decide +kernel)⟩
/-- FloatingPointRules: a NaN of each kind, both infinities, and a quotient that divides. -/
theorem witness_special_values : fp64.read 0x7FF8000000000000 = .nan false ∧ fp64.read 0x7FF0000000000001 = .nan true ∧ fp64.read 0x7FF0000000000000 = .inf false ∧
    fp64.read 0xFFF0000000000000 = .inf true ∧ anyNan [fp64.decode 0x7FF8000000000000] = true ∧ anyNan [fp64.decode 0] = false ∧ 3 ∣ 12 := by decide +kernel
/-- CanonicalSums: the two ends of the range, and one beyond each. -/
theorem witness_sums : (let g := holding 0xFFFFFFFFFFFFFF 0 0; ∀ l, (1 : LaneMask).getLsbD l = true → -(2 ^ 56 : Int) ≤ (g.vreg l 2).toInt + (g.opB l 3 0).toInt ∧ (g.vreg l 2).toInt + (g.opB l 3 0).toInt < 2 ^ 56) ∧
    (let g := holding 0xFFFFFFFFFFFFFF 1 0; ∀ l, (1 : LaneMask).getLsbD l = true → ¬(-(2 ^ 56 : Int) ≤ (g.vreg l 2).toInt + (g.opB l 3 0).toInt ∧ (g.vreg l 2).toInt + (g.opB l 3 0).toInt < 2 ^ 56)) ∧
    (let g := holding 0xFF00000000000000 0 0; (g.sreg 2).toInt + (g.sreg 3).toInt < 2 ^ 56 ∧ -(2 ^ 56 : Int) ≤ (g.sreg 2).toInt + (g.sreg 3).toInt) ∧ isGang lab.cur = true :=
  ⟨one_lane (by decide +kernel), one_lane (by decide +kernel), by decide +kernel, rfl⟩
/-- SystemRegisterReads and SystemRegisterWrites, on both kinds of core; a slice, and none. -/
def aSlice : Slice := ⟨0, 0, 0, 1000, 5, 0, 0, false, false, 0, 0, 0, false, none, 0, 0, none, false, false⟩
theorem witness_system_registers : lab.cur = .gang 0 0 ∧ lab.wg 0 = some labWg ∧ lab.launchOf labWg = some labLaunch ∧ den.cur = .core 0 ∧ lab.mask ≠ 0 ∧
    (∀ u ∈ [{ Use.regs [1] [] with fcr := true }, { Use.regs [] [1] with fcr := true }], lab.Admits u labGang) ∧ den.Admits { Use.regs [1] [] with fcr := true } denCore.ctx :=
  ⟨rfl, rfl, rfl, rfl, by decide, all_admit (by decide +kernel), admits_of (by decide +kernel)⟩
theorem witness_budget : ({ lab with slices := [aSlice] } : State).slice (({ lab with slices := [aSlice] } : State).sliceOf lab.cur) = some aSlice ∧
    ({ lab with slices := [aSlice] } : State).Admits (.regs [] [1]) labGang ∧ den.slice (den.sliceOf den.cur) = none ∧ isGang den.cur = false ∧ den.Admits (.regs [] [1]) denCore.ctx :=
  ⟨rfl, admits_of (by decide +kernel), rfl, rfl, admits_of (by decide +kernel)⟩
/-- RegisterAndLookaheadTraps: v12 with 16 registers (v0 to v11 are there), and an open window. -/
def few : Gang := { labGang with count := 16 }
def watched : Gang := { labGang with windows := [⟨0, 1, .lanes [2] none⟩] }
theorem witness_named_registers : OnCompute (labOf few labLaunch) few 0 0 { labWg with gangs := [(0, few)] } labLaunch ∧ few.available 12 = false ∧ few.available 11 = true ∧
    OnCompute (labOf watched labLaunch) watched 0 0 { labWg with gangs := [(0, watched)] } labLaunch ∧ (∀ n ∈ [1, 2, 3], watched.available n = true) ∧
    ∀ l, (1 : LaneMask).getLsbD l = true → ∃ k ∈ watched.windows, k.lane = l ∧ ∃ regs gd, k.dest = .lanes regs gd ∧ (1 ∈ regs ∨ 2 ∈ regs ∨ 3 ∈ regs) :=
  ⟨⟨rfl, rfl, rfl, rfl, by decide⟩, rfl, rfl, ⟨rfl, rfl, rfl, rfl, by decide⟩, by decide, one_lane ⟨_, .head _, rfl, _, _, rfl, by decide⟩⟩
/-- UnassignedWordsAndBreakpointsTrap, WordsOfTheOtherKindTrap: the two kinds of core. -/
theorem witness_traps : OnCompute lab labGang 0 0 labWg labLaunch ∧ lab.Admits (.regs [] []) labGang ∧ OnService den 0 denCore ∧ den.Admits (.regs [] []) denCore.ctx ∧
    lab.ringRoom (clusterOf labWg.core) false = none := ⟨lab_on_compute, admits_of (by decide +kernel), den_on_service, admits_of (by decide +kernel), by decide +kernel⟩
/-- TransfersOfControl: a target among the words fetched, the last of them, and in v62. -/
theorem witness_transfers : Fetched labGang 0 (labGang.pcOf 0 + 4 * (3 : BitVec 21).signExtend 64) ∧ Fetched labGang 0 (labGang.pcOf 0 + 4 * (47 : BitVec 25).signExtend 64) ∧
    Fetched (labGang.setV 0 62 0x1010) 0 ((labGang.setV 0 62 0x1010).vreg 0 62) ∧ labGang.guard 0 0 ≠ ((0 : BitVec 1) == 1) ∧
    (∀ u ∈ [{ Use.regs [] [] with guards := [0] }, .regs [62] [], useB [] 62 0, useB [62#6] 62 0], lab.Admits u labGang) :=
  ⟨⟨_, rfl, by decide +kernel⟩, ⟨_, rfl, by decide +kernel⟩, ⟨_, rfl, by decide +kernel⟩, by decide +kernel, all_admit (by decide +kernel)⟩
/-- A service core whose rings stand at 4 GiB and 4 GiB + 512 KiB of its own half. -/
def ringCore : Scalar := { denCore with k := Tab.put (Tab.put denCore.k 7 0xFF00000100100000) 8 0xFF00000100080000 }
def clear : State := { lab with scalars := [(0, ringCore)] }
/-- Every record of its call ring is valid but the first. -/
def rung : State := { clear with mem := (List.range 255).map fun j => (0x10008083F + 2048 * j, 1) }
theorem rung_slots : rung.freeSlots 0 0xFF00000100080000 2048 256 = [0] := by decide +kernel
theorem rung_calls : rung.ringRoom 0 true = some (0xFF00000100080000, 0) := State.ringRoom_single (k := ringCore) rfl rfl (by decide) rung_slots
/-- ExitYieldAndSyscall: the last thread of a gang, and one of two; a call ring with room, and none. -/
theorem witness_exit_and_syscall : lab.Admits { Use.regs [] [] with allow := 1 } labGang ∧ labGang.ended = false ∧ labWg.cvs = [] ∧ labWg.registry = [] ∧ labGang.live &&& ~~~lab.mask = 0 ∧
    split.live &&& ~~~(labOf split labLaunch).mask ≠ 0 ∧ (labOf split labLaunch).Admits { Use.regs [] [] with allow := 1 } split ∧
    (lab.partWrite (tenantCtx 0) (BitVec.ofNat 64 (labLaunch.field 0x28 8)) (leBytes 8 0)).isOk = true ∧
    rung.Admits (.regs [1, 2, 3, 4, 5, 6] []) labGang ∧ rung.ringRoom 0 true = some (0xFF00000100080000, 0) ∧ lab.ringRoom 0 true = none ∧ labGang.callSlot = none ∧
    (∀ k, rung.mask.getLsbD k = true → rung.released rung.cur 3 k = true) ∧
    (clear.partWrite (clear.ctxOf (.core 0)) 0xFF00000100080000 (clear.callRecord 0 0 3 1 clear.curPc)).isOk = true ∧ den.Admits (.regs [1, 2, 3, 4, 5, 6] []) denCore.ctx :=
  ⟨admits_of (by decide +kernel), rfl, rfl, rfl, by decide, by decide, admits_of (by decide +kernel), by decide +kernel, admits_of (by decide +kernel), rung_calls, by decide +kernel, rfl,
    one_lane (by decide +kernel), by decide +kernel, admits_of (by decide +kernel)⟩
/-- Convergence and CrossLaneResults: a register with two members, of which the group is one, and one whose only members the group is. -/
def meet (c : Conv) : State := { lab with wgs := [(0, { labWg with cvs := [(1, c)] })] }
def both : Conv := ⟨[(0, 3)], [], 1, 0, 0, false, [], []⟩
def alone : Conv := ⟨[(0, 1)], [], 1, 0, 0, false, [], []⟩
def open' : Conv := { both with arrived := [(0, 2)], state := 2, kind := 1 }
theorem witness_convergence : OnCompute (meet both) labGang 0 0 { labWg with cvs := [(1, both)] } labLaunch ∧ OnCompute (meet open') labGang 0 0 { labWg with cvs := [(1, open')] } labLaunch ∧
    (let c := ({ labWg with cvs := [(1, both)] } : Workgroup).cv 1
     (∀ j, (1 : LaneMask).getLsbD j = true → (Tab.at c.members 0 0).getLsbD j = true) ∧ (∃ q ∈ c.members, (Tab.at c.arrived q.1 0 ||| (if q.1 = 0 then 1 else 0)) ≠ q.2) ∧
      ¬(c.arrived ≠ [] ∨ 2 ≤ c.state) ∧ Tab.sorted c.members = true ∧ ∀ q ∈ c.members, q.1 < 32) ∧
    (let c := ({ labWg with cvs := [(1, open')] } : Workgroup).cv 1; c.state = 2 ∧ c.kind = 1 ∧ c.sig = 0 ∧ (c.arrived ≠ [] ∨ 2 ≤ c.state)) ∧
    (∀ u ∈ [{ Use.regs [] [] with allow := 1 }, { Use.regs [] [2, 3] with allow := 1 }, { useB [1] 2 0 with allow := 1 }, { Use.regs [1, 2, 3] [] with allow := 1 }], (meet both).Admits u labGang) ∧
    ∀ j, (1 : LaneMask).getLsbD j = true → (meet both).released (meet both).cur 1 j = true :=
  ⟨⟨rfl, rfl, rfl, rfl, by decide⟩, ⟨rfl, rfl, rfl, rfl, by decide⟩, ⟨one_lane (by decide), ⟨_, .head _, by decide⟩, by decide, by decide, by decide⟩, by decide,
    all_admit (by decide +kernel), one_lane (by decide +kernel)⟩
theorem witness_cross_lane : OnCompute (meet alone) labGang 0 0 { labWg with cvs := [(1, alone)] } labLaunch ∧ (let c := ({ labWg with cvs := [(1, alone)] } : Workgroup).cv 1
     c.members = [(0, (meet alone).mask)] ∧ c.arrived = [] ∧ c.state = 1) ∧ (meet alone).mask &&& ~~~labGang.live = 0 ∧ ({ labWg with cvs := [(1, alone)] } : Workgroup).deadMember alone = false ∧
    ∀ u ∈ [{ Use.regs [1, 2, 3] [] with allow := 1 }, { Use.regs [1, 2] [] with allow := 1 }], (meet alone).Admits u labGang :=
  ⟨⟨rfl, rfl, rfl, rfl, by decide⟩, by decide, by decide, by decide +kernel, all_admit (by decide +kernel)⟩
/-- A gang at work with lane 0's v2, v3, v4 and the uniform s2, s3. -/
def at' (a b c : Word) : State := labOf (holding a b c) labLaunch
/-- Loads, at a place in memory and at the two shares' first and last word; two of 8 bytes for 16 bytes of an NC page. -/
def mask0 (s : State) : Prop := ∀ l, s.mask.getLsbD l = true → l = 0
def places : List Acc := [⟨0, 1, 0x8000, .mem 0x8000 0⟩, ⟨0, 1, 0xFF00000000000000, .scratch 0 0⟩, ⟨0, 1, 0xFF0000000000FFF0, .scratch 0 0xFFF0⟩]
theorem witness_loads : (at' 0x8000 0 0).Admits { useB [] 2 0 with lanes := [1, 2], mem := true } (holding 0x8000 0 0) ∧
    MayIssue (at' 0x8000 0 0) 0 16 (accesses [0] (fun l => (holding 0x8000 0 0).opB l 2 0 + BitVec.ofInt 64 0) fun _ => .mem 0x8000 0) ∧ lanesOf (at' 0x8000 0 0).mask = [0] ∧
    (∀ x ∈ places, MayIssue (at' 0 0 0) 0 16 [x]) ∧ (∀ x ∈ places, MayIssue (at' 0 0 0) 1 16 [x]) ∧ (∀ x ∈ places, MayIssue (at' 0 0 0) 2 8 [x]) ∧
    (at' 0 0 0).check (.gang 0 0) 0 4 0xFF00000000010000 ≠ .ok (.scratch 0 0x10000) :=
  ⟨admits_of (by decide +kernel), may_of (by decide +kernel), by decide, may_all (by decide +kernel), may_all (by decide +kernel), may_all (by decide +kernel), by decide +kernel⟩
/-- Stores: as loads, of the thread whose guard 0 is 1; with the condition negated no thread stores; no release is open, and one is. -/
def busy : State := { at' 0x8000 0 0 with reqs := [⟨9, .gang 0 0, 0, 1, 0, .store, 0x9000, 8, false, leBytes 8 0, 0, 0, 0, false, none, none, .sent, false, false, .thread, 0, none⟩] }
theorem witness_stores : (at' 0x8000 0 0).Admits { useB [] 2 0 with lanes := [4, 2], guards := [0], mem := true } (holding 0x8000 0 0) ∧
    busy.Admits { useB [] 2 0 with lanes := [4, 2], guards := [0], mem := true } (holding 0x8000 0 0) ∧ ResidentShares (at' 0 0 0) [0] (fun _ => .scratch 0 0) ∧
    MayIssue (at' 0x8000 0 0) 1 4 (accesses [0] (fun l => (holding 0x8000 0 0).opB l 2 0 + BitVec.ofInt 64 0) fun _ => .mem 0x8000 0) ∧
    MayIssue busy 1 4 (accesses [0] (fun l => (holding 0x8000 0 0).opB l 2 0 + BitVec.ofInt 64 0) fun _ => .mem 0x8000 0) ∧
    ((lanesOf (at' 0 0 0).mask).filter fun l => (holding 0 0 0).guard l 0 != false) = [0] ∧ ((lanesOf (at' 0 0 0).mask).filter fun l => (holding 0 0 0).guard l 0 != true) = [] ∧
    (at' 0 0 0).released (.gang 0 0) 3 0 = true ∧ busy.released (.gang 0 0) 0 0 = false :=
  ⟨admits_of (by decide +kernel), admits_of (by decide +kernel), fun l _ => ⟨fun _ h => (nomatch h), fun v o x h hx => by cases h; cases hx; rfl⟩, may_of (by decide +kernel), may_of (by decide +kernel), by decide +kernel⟩
/-- Atomics: to memory whose lines the core does not own, in the scratchpad, and on a line that it owns. -/
def owning : State := { at' 0x8000 0 0 with homes := [(256, ⟨0, 0, some 0, 0⟩)], l1 := [(0, [(256, ⟨0, 0, 0, List.replicate 128 0, true, 0⟩)])] }
def onShare : Acc := ⟨0, 1, 0xFF00000000000040, .scratch 0 0x40⟩
theorem witness_atomics : (at' 0x8000 0 0).Admits { Use.regs [1, 2, 3] [] with guards := [0], mem := true } (holding 0x8000 0 0) ∧
    (at' 0xFF00000000000040 0 0).Admits { Use.regs [1, 2, 3] [] with guards := [0], mem := true } (holding 0xFF00000000000040 0 0) ∧
    owning.Admits { Use.regs [1, 2, 3] [] with guards := [0], mem := true } (holding 0x8000 0 0) ∧
    MayIssue (at' 0x8000 0 0) 2 8 (accesses [0] (fun l => (holding 0x8000 0 0).vreg l 2) fun _ => .mem 0x8000 0) ∧
    MayIssue (at' 0xFF00000000000040 0 0) 2 8 (accesses [0] (fun l => (holding 0xFF00000000000040 0 0).vreg l 2) fun _ => .scratch 0 0x40) ∧
    MayIssue owning 2 8 (accesses [0] (fun l => (holding 0x8000 0 0).vreg l 2) fun _ => .mem 0x8000 0) :=
  ⟨admits_of (by decide +kernel), admits_of (by decide +kernel), admits_of (by decide +kernel), may_of (by decide +kernel), may_of (by decide +kernel), may_of (by decide +kernel)⟩
theorem witness_atomic_places : ((lanesOf lab.mask).filter fun l => (holding 0x8000 0 0).guard l 0) = [0] ∧ Tab.find ((at' 0 0 0).l1At 0) 256 = none ∧
    ((at' 0 0 0).wg 0).map (fun x => x.place.isSome) = some true ∧ 0x8000 < hostKey ∧ owning.remote 0x8000 = false ∧ 0x8000 % 128 + 8 ≤ 128 ∧
    (owning.home (0x8000 / 128)).owner = some (owning.l1Of owning.cur) ∧ owning.busyOn (0x8000 / 128) = false ∧ owning.reqs = [] ∧
    (Tab.find (owning.l1At (owning.l1Of owning.cur)) (0x8000 / 128)).map (fun ln => (ln.owned, ln.data.length)) = some (true, 128) := by decide +kernel
/-- UniformAccesses: the same place, by the group. -/
theorem witness_uniform_accesses : (at' 0x8000 0 0).Admits { Use.regs [] [1, 2] with mem := true } (holding 0x8000 0 0) ∧ ¬UdivTraps (at' 0x8000 0 0) (holding 0x8000 0 0) 1 ∧
    MayIssue (at' 0x8000 0 0) 0 8 [⟨32, 1, (holding 0x8000 0 0).sreg 2, .mem 0x8000 0⟩] ∧ MayIssue (at' 0x8000 0 0) 1 8 [⟨32, 1, (holding 0x8000 0 0).sreg 2, .mem 0x8000 0⟩] ∧
    ResidentShares (at' 0x8000 0 0) [32] (fun _ => .mem 0x8000 0) :=
  ⟨admits_of (by decide +kernel), by unfold UdivTraps; decide +kernel, may_of (by decide +kernel), may_of (by decide +kernel), fun _ _ => ⟨fun _ h => (nomatch h), fun _ _ _ h => (nomatch h)⟩⟩
/-- FencesAndWaitne: with what precedes over, and with a store that is not; a word that differs from its compare value, and one that does not. -/
theorem witness_no_release : ∀ l n c k e y z p, (holding 0x8000 0 0).stat l = .release n c k e y z p → n ≤ (at' 0x8000 0 0).serialNo := by
  intro l n c k e y z p h
  have e : (holding 0x8000 0 0).status = [] := by decide +kernel
  unfold Gang.stat at h; rw [e] at h; cases h
theorem witness_fences : (at' 0x8000 0 0).Admits { Use.regs [] [] with mem := true } (holding 0x8000 0 0) ∧ (at' 0x8000 0 0).Admits { Use.regs [] [1] with mem := true } (holding 0x8000 0 0) ∧
    (∀ l ∈ lanesOf lab.mask, (at' 0x8000 0 0).quiet (.gang 0 0) l = true ∧ (2 ≤ (3 : BitVec 3).toNat → (holding 0x8000 0 0).watching l = false)) ∧
    busy.Admits { Use.regs [] [] with mem := true } (holding 0x8000 0 0) ∧ busy.released (.gang 0 0) 0 0 = false ∧ (lab.mask ≠ 0 ∧ lab.mask &&& ~~~(holding 0x8000 0 0).live = 0) :=
  ⟨admits_of (by decide +kernel), admits_of (by decide +kernel), lane_zero (by decide +kernel), admits_of (by decide +kernel), by decide +kernel⟩
theorem witness_waitne_word : (at' 0x8000 5 0).Admits { useB [1, 2] 3 0 with mem := true } (holding 0x8000 5 0) ∧
    MayIssue (at' 0x8000 5 0) 0 8 (accesses [0] (fun l => (holding 0x8000 5 0).vreg l 2) fun _ => .mem 0x8000 0) ∧ lab.poisoned 0x8000 = false ∧ (at' 0x8000 0 0).homeRead 0x8000 8 = List.replicate 8 0 :=
  ⟨admits_of (by decide +kernel), may_of (by decide +kernel), by decide +kernel⟩
/-- Barriers: an object at scratch offset 0x100 that is not registered, and one that is, of which one arrival is pending; the phase over, under way and poisoned. -/
def barAt (g : Gang) (o : List Byte) : State :=
  { lab with wgs := [(0, { freshWg labLaunch 0 0 1 0 0 0 with gangs := [(0, g)], registry := [(0x100, ⟨0, 0, false⟩)], scratch := Mem.storeAll [] 0x100 o })] }
/-- The registers of a group at the object: s2 holds its address, s3 the operand, s4 another. -/
def barGang (b : Word) : Gang := (labGang.setS 2 0xFF00000000000100).setS 3 b
def barWg (g : Gang) (o : List Byte) : Workgroup := { freshWg labLaunch 0 0 1 0 0 0 with gangs := [(0, g)], registry := [(0x100, ⟨0, 0, false⟩)], scratch := Mem.storeAll [] 0x100 o }
def pending1 : List Byte := leBytes 8 0x100010000 ++ leBytes 8 0
theorem nobody_at : NobodyAt (barWg (barGang 0) pending1) 0x100 := by
  intro p hp l
  obtain rfl : p = (0, barGang 0) := by simpa [barWg] using hp
  have e : (barGang 0).status = [] := by decide +kernel
  unfold Gang.stat; rw [e]; exact ⟨rfl, rfl⟩
theorem witness_barriers : (barAt (barGang 0) pending1).barPlace 0xFF00000000000100 = .ok (0, 0x100) ∧ lab.barPlace 0xFF00000000000100 = .ok (0, 0x100) ∧
    Tab.find labWg.registry 0x100 = none ∧ (barAt (barGang 0) pending1).wg 0 = some (barWg (barGang 0) pending1) ∧ (barWg (barGang 0) pending1).place.isSome = true ∧
    Tab.find (barWg (barGang 0) pending1).registry 0x100 = some ⟨0, 0, false⟩ ∧ objFields ((barWg (barGang 0) pending1).obj 0x100) = (false, false, 1, 1, 0) ∧
    NobodyAt (barWg (barGang 0) pending1) 0x100 ∧ lab.mask ≠ 0 ∧ lab.mask &&& ~~~labGang.live = 0 ∧ (lanesOf lab.mask).length ≤ ((barWg (barGang 0) pending1).obj 0x100).arrpend ∧
    (0 : BitVec 1024) &&& tidMask 0 lab.mask = 0 ∧ (∀ k, lab.mask.getLsbD k = true → (barAt (barGang 0) pending1).released lab.cur 1 k = true) ∧
    (barAt (barGang 0) pending1).Admits { Use.regs [] [1, 2] with mem := true, allow := 1 } (barGang 0) ∧
    (barAt (barGang 0) pending1).Admits { Use.regs [] [1, 2, 3] with mem := true, allow := 1 } (barGang 0) ∧ ¬UdivTraps (barAt (barGang 0) pending1) (barGang 0) 1 ∧
    objFields ((barWg (barGang 0) (leBytes 8 0xC000000100010000 ++ leBytes 8 5)).obj 0x100) = (true, true, 1, 1, 5) :=
  ⟨by decide +kernel, by decide +kernel, rfl, rfl, rfl, rfl, by decide +kernel, nobody_at, by decide, by decide, by decide +kernel, by decide +kernel, one_lane (by decide +kernel),
    admits_of (by decide +kernel), admits_of (by decide +kernel), by unfold UdivTraps; decide +kernel, by decide +kernel⟩
/-- Counters, ScheduleRegisters, LaunchInstructions, CancelAndWaitdone: a state with a slice, a launch and a graph, from a gang, and from a service core that charges no slice. -/
def aGraph : Graph := ⟨3, 1, 1, 0, 1, 0, 0, false, 0, 0, 0, false⟩
def worked (h : Word) : State := { labOf ((labGang.setS 2 h).setS 3 0x4000) labLaunch with slices := [aSlice], graphs := [(0, aGraph)] }
def servedGang (h : Word) : Gang := ((denCore.ctx.setS 2 h).setS 3 7)
def served (h : Word) : State := { denOf { denCore with ctx := servedGang h } with slices := [{ aSlice with handle := 0x1000000 }], graphs := [(0, aGraph)] }
def workedGang (h : Word) : Gang := (labGang.setS 2 h).setS 3 0x4000
def workedOk (h : Word) : Bool := admits (worked h) { Use.regs [] [1, 2, 3] with mem := true, allow := 1 } (workedGang h) && admits (worked h) (.regs [] [1, 2]) (workedGang h)
theorem worked_ok : (([0, 0x1000001, 0x1000002, 63] : List Word).all workedOk) = true := by decide +kernel
theorem worked_admits (x : Word) (h : workedOk x = true) : (worked x).Admits { Use.regs [] [1, 2, 3] with mem := true, allow := 1 } (workedGang x) ∧ (worked x).Admits (.regs [] [1, 2]) (workedGang x) := by
  rw [workedOk, Bool.and_eq_true] at h
  exact ⟨admits_of h.1, admits_of h.2⟩
/-- Counters: its own launch, and a graph, a slice and nothing by their handles. -/
theorem witness_counters : (worked 0).levelOrOwn 0 = some (.launch 0) ∧ (worked 0).launch 0 = some labLaunch ∧ labLaunch.gdone < 2 ^ 64 ∧
    (worked 0x1000002).levelOrOwn 2 = some (.graph 0) ∧ Tab.find (worked 0x1000002).graphs 0 = some aGraph ∧ aGraph.nended < 2 ^ 64 ∧
    (worked 0).levelOrOwn 2 = some (.slice 0) ∧ (worked 0).slice 0 = some aSlice ∧ (worked 63).levelOrOwn 2 = none ∧
    (served 0x1000000).levelOrOwn 2 = some (.slice 0x1000000) ∧ (served 0x1000000).sliceOf (served 0x1000000).cur ≠ 0x1000000 ∧
    (served 0x1000000).Admits { Use.regs [] [1, 2, 3] with allow := 2 } (servedGang 0x1000000) :=
  ⟨by decide +kernel, rfl, by decide +kernel, by decide +kernel, rfl, by decide, by decide +kernel, rfl, by decide +kernel, by decide +kernel, by decide +kernel, admits_of (by decide +kernel)⟩
theorem witness_counters_admit : ∀ x ∈ ([0, 0x1000001, 0x1000002, 63] : List Word), (worked x).Admits { Use.regs [] [1, 2, 3] with mem := true, allow := 1 } (workedGang x) ∧
    (worked x).Admits (.regs [] [1, 2]) (workedGang x) := fun x hx => worked_admits x (List.all_eq_true.mp worked_ok x hx)
theorem witness_no_udiv : ¬UdivTraps (worked 0) (workedGang 0) 1 ∧ ¬UdivTraps (worked 0x1000001) (workedGang 0x1000001) 1 ∧ ¬UdivTraps (worked 0x1000002) (workedGang 0x1000002) 1 := by unfold UdivTraps; decide +kernel
/-- ScheduleRegisters: the launch goes on, its proof passes, and with a tile of no cell sch1 fails. -/
theorem witness_schedule : (worked 0x1000001).levelOrOwn 2 = some (.launch 0) ∧ labLaunch.done = false ∧ labLaunch.pod = false ∧ (worked 0).schFails labLaunch labLaunch.proof = none ∧
    (worked 0).schFails labLaunch (Tab.set 0 labLaunch.proof 1 1) = some 1 := by decide +kernel
/-- Dispenser: granules that are free; none free in a launch without granules; a cancelled launch. -/
def stocked : Launch := { labLaunch with stock := [(coreKey 0, [0])] }
def deals' : State := { labOf labGang stocked with tenants := [] }
theorem witness_dispenser : OnCompute deals' labGang 0 0 labWg stocked ∧ ¬(labGang.live ≠ lab.mask ∧ labGang.gstat.getLsbD 1 = true) ∧
    (∀ u ∈ [{ Use.regs [] [4, 5, 6, 7] with allow := 1 }, { Use.regs [] [60, 61, 62, 63] with allow := 1 }, { Use.regs [] [1, 4, 5, 6, 7, 2] with allow := 1 }, { Use.regs [] [1] with allow := 1 }], deals'.Admits u labGang) ∧
    stocked.cancel = none ∧ deals'.inPlacement stocked labWg.core = true ∧ (deals'.sheet stocked stocked.granules).toOption = some [0, 0, 0, 0] ∧ ((deals'.tenant stocked.tenant).map (·.capped)).getD false = false ∧
    labWg.deals.length < 64 ∧ stocked.stocked (coreKey labWg.core) = [0] ∧ (deals'.moveGranules stocked (stocked.unit (stocked.unitAt 0).1 (stocked.unitAt 0).2) 0 1).1 ≠ [] ∧
    ({ stocked with cancel := some 0 } : Launch).cancel.isSome = true :=
  ⟨⟨rfl, rfl, rfl, rfl, by decide⟩, by decide +kernel, all_admit (by decide +kernel), by decide +kernel⟩
/-- CopiesAndLocks: a descriptor that passes at 0x8000; a copy that is queued, one that has stopped, one that has ended and none; a free lock table and a full one. -/
def labDesc : List Byte := mkRecord 64 [(0, 8, 0x10000), (8, 8, 0x20000), (24, 4, 16), (28, 2, 1), (30, 2, 1), (32, 2, 1)]
def copyGang : Gang := (labGang.setS 2 0x8000).setS 3 0x1000
def copyLab : State := { labOf copyGang labLaunch with mem := Mem.storeAll [] 0x8000 labDesc }
def copyWg : Workgroup := { freshWg labLaunch 0 0 1 0 0 0 with gangs := [(0, copyGang)] }
theorem witness_copy_issue : OnCompute copyLab copyGang 0 0 copyWg labLaunch ∧ MayIssue copyLab 0 64 [⟨32, 1, copyGang.sreg 2, .mem 0x8000 0⟩] ∧ (copyGang.descs = [] ∧ copyWg.home < 512 ∧
    copyLab.accPoisoned ⟨32, 1, 0x8000, .mem 0x8000 0⟩ = false ∧ copyLab.copyReason (some 0) (copyCtx copyWg.core 0) (copyDesc (copyLab.readNow ⟨32, 1, 0x8000, .mem 0x8000 0⟩ 64)) = 0 ∧
    2 ≤ (copyLab.freeLocks copyWg.core).length ∧ copyLab.coreQuiet copyWg.core = true ∧ copyLab.copies = [] ∧ labLaunch.peerAbort = false) ∧
    (∀ k, copyLab.mask.getLsbD k = true → copyLab.quiet copyLab.cur k = true) ∧ (∃ n, copyLab.engineSlot copyWg.core = some n) ∧
    copyLab.Admits { Use.regs [] [1, 2] with allow := 1, mem := true } copyGang ∧ copyLab.Admits { Use.regs [] [1, 2, 3] with allow := 1, mem := true } copyGang :=
  ⟨⟨rfl, rfl, rfl, rfl, by decide⟩, may_of (by decide +kernel), by decide +kernel, one_lane (by decide +kernel),
    show ∃ n, pickOf copyLab.ptb ((List.range 64).filter (copyLab.slotFree { freshCore with slots := [(0, 0)] })) = some n from pickOf_isSome _ (by decide +kernel),
    admits_of (by decide +kernel), admits_of (by decide +kernel)⟩
def aCopy (st : Nat) : Copy := ⟨some 0, 0x8000, 0, labDesc, st, 0, 0, 0, [], [], [], 0, false, false, 0, 0, 0, none, 0x1000, false⟩
def copyCores : Tab Core := [(0, { freshCore with slots := [(0, 0)], copySlots := [(0, 1)] })]
def copying (st : Nat) : State := { copyLab with copies := [(1, aCopy st)], cores := copyCores }
def copySrv (st : Nat) : State := { denOf { denCore with ctx := servedGang 0x8000 } with copies := [(1, aCopy st)], cores := copyCores }
theorem witness_copy_named : (copying 0).copyNamed (copyGang.sreg 2) = some (1, aCopy 0) ∧ (copying 2).copyNamed (copyGang.sreg 2) = some (1, aCopy 2) ∧ (copying 4).copyNamed (copyGang.sreg 2) = some (1, aCopy 4) ∧
    copyLab.copyNamed (copyGang.sreg 2) = none ∧ (copySrv 2).copyNamed ((servedGang 0x8000).sreg 2) = some (1, aCopy 2) ∧ Tab.find (copying 2).copies 1 = some (aCopy 2) ∧
    (copySrv 2).quiet (.core 0) 0 = true := by decide +kernel
theorem witness_copy_admits : (copying 2).Admits { Use.regs [] [1, 2] with allow := 1 } copyGang ∧ (copySrv 2).Admits { Use.regs [] [1, 2] with allow := 2 } (servedGang 0x8000) ∧
    ¬UdivTraps (copying 2) copyGang 1 := ⟨admits_of (by decide +kernel), admits_of (by decide +kernel), by unfold UdivTraps; decide +kernel⟩
def fullCore : Core := { freshCore with locks := (List.range 32).map fun n => (n, ⟨0x1000 * n, 0x1000 * n, 0, true, .gang 0 0, 0, false⟩) }
theorem witness_locks : (∀ n, n < 32 → (Tab.find fullCore.locks n).isSome = true) ∧ (Tab.find fullCore.locks 31).map (fun k => (k.owner, k.closing)) = some (.gang 0 0, false) ∧
    Tab.find freshCore.locks 0 = none ∧ Tab.find copyLab.cores copyWg.core = some { freshCore with slots := [(0, 0)] } ∧ crosses (0x8000, 0x8FFF) = false ∧
    crosses (0xFFFFFFFFFFFFFF, 0x100000000000000) = true ∧ copyLab.coreQuiet 0 = true := by decide +kernel
/-- LaunchInstructions: a slice to work for, and none; a record at 0x4000, a release that is over and one that is not; room, and none in the store. -/
def launching : State := { lab with wgs := [(0, { freshWg labLaunch 0 0 1 0 0 0 with gangs := [(0, workedGang 0x4000)] })] }
theorem witness_launch : launching.workSlice 0 = some (0, 0, 0) ∧ (launching.recordChunks 0 ((List.range 6).map fun j => 0x4000 + BitVec.ofNat 64 (64 * j))).toOption.map (·.length) = some 384 ∧
    launching.released launching.cur 4 0 = true ∧ gapCount (gaps 65536 0 launching.tcbs) ≠ 0 ∧ gapCount (gaps 16384 0 launching.launches) ≠ 0 ∧ (served 0).workSlice ((servedGang 0).sreg 3) = none ∧
    isGang (served 0).cur = false ∧ gapCount (gaps 16384 0 launching.graphs) ≠ 0 := by decide +kernel
theorem witness_launch_entry : (∃ n, launching.freeNode = some n) ∧ (∃ k, launching.freeLaunch = some k) ∧ ∃ k, launching.freeGraph = some k :=
  ⟨freeKey_isSome _ witness_launch.2.2.2.1, State.freeLaunch_isSome witness_launch.2.2.2.2.1, State.freeGraph_isSome witness_launch.2.2.2.2.2.2.2⟩
theorem witness_launch_admits : launching.Admits { Use.regs [] [1, 2, 0] with mem := true } (workedGang 0x4000) ∧ ¬UdivTraps launching (workedGang 0x4000) 1 ∧
    (served 0).Admits { Use.regs [] [1, 2, 3] with mem := true } (servedGang 0) := ⟨admits_of (by decide +kernel), by unfold UdivTraps; decide +kernel, admits_of (by decide +kernel)⟩
/-- GraphSubmission: one node that passes; a node of no kind, and no node at all. -/
def aNode : List Byte := mkRecord 128 [(0, 1, 1), (0x10, 8, 0x3000)]
def graphGang (n : Word) : Gang := (labGang.setS 2 0x4000).setS 3 n
def graphing (n : Word) : State := { labOf (graphGang n) labLaunch with mem := Mem.storeAll [] 0x4000 aNode }
theorem witness_graph : (graphing 1).workSlice ((graphing 1).sliceOf (graphing 1).cur) = some (0, 0, 0) ∧ gapCount (gaps 16384 0 (graphing 1).graphs) ≠ 0 ∧
    ((graphing 1).recordChunks 0 ((List.range 2).map fun j => 0x4000 + BitVec.ofNat 64 (64 * j))).toOption = some aNode ∧ ((lanesOf (graphing 1).mask).all fun k => (graphing 1).released (graphing 1).cur 3 k) = true ∧
    (graphing 1).withOverflow 0 (images 1 aNode) = some [aNode] ∧ graphOk [aNode] = true ∧ graphOk [List.replicate 128 0] = false ∧
    ((graphGang 1).sreg 3).toNat = 1 ∧ ((graphGang 0).sreg 3).toNat = 0 := by decide +kernel
theorem witness_graph_entries : (∃ i, (graphing 1).freeGraph = some i) ∧ ∃ b, freeRun (graphing 1).ptb 65536 1 (graphing 1).tcbs = some b :=
  ⟨State.freeGraph_isSome witness_graph.2.1, pickKey_isSome _ (by decide +kernel)⟩
theorem witness_graph_admits : (graphing 1).Admits { Use.regs [] [1, 2, 3] with mem := true } (graphGang 1) ∧ (graphing 0).Admits { Use.regs [] [1, 2, 3] with mem := true } (graphGang 0) :=
  ⟨admits_of (by decide +kernel), admits_of (by decide +kernel)⟩
/-- CancelAndWaitdone: the issuing gang's own launch and another; a graph; its own slice, and another's, from a service core. -/
def other : Launch := { labLaunch with serial := 2 }
def otherDone : Launch := { other with done := true }
def two (x : Launch) (h : Word) : State := { worked h with launches := [(0, labLaunch), (1, x)] }
theorem witness_cancel : (two other 63).level 63 = none ∧ (two other 0).level 0x2000041 = some (.launch 1) ∧ (two other 0).levelDone (.launch 1) = false ∧ (two otherDone 0).levelDone (.launch 1) = true ∧
    (two other 0).containsSelf (.launch 1) = false ∧ (two other 0).containsSelf (.launch 0) = true ∧ (two other 0).launch 1 = some other ∧ (two other 0).containsSelf (.graph 0) = false ∧
    (two other 0).level 0x1000002 = some (.graph 0) ∧ (two other 0).containsSelf (.slice 0) = true ∧ (served 0x1000000).level 0x1000000 = some (.slice 0x1000000) ∧
    (served 0x1000000).containsSelf (.slice 0x1000000) = false ∧ aSlice.cancel = none := by decide +kernel
theorem witness_cancel_admits : (two other 0x2000041).Admits (.regs [] [1, 2]) (workedGang 0x2000041) ∧ (two other 63).Admits (.regs [] [1, 2]) (workedGang 63) ∧
    (two other 0x1000002).Admits (.regs [] [1, 2]) (workedGang 0x1000002) ∧ (served 0x1000000).Admits (.regs [] [1, 2]) (servedGang 0x1000000) :=
  ⟨admits_of (by decide +kernel), admits_of (by decide +kernel), admits_of (by decide +kernel), admits_of (by decide +kernel)⟩
/-- Spawn: the thread offers the image at 0x8000. -/
theorem witness_spawn : (at' 0x8000 0 0).Admits { Use.regs [1, 2] [] with allow := 1, mem := true, guards := [1] } (holding 0x8000 0 0) ∧
    MayIssue (at' 0x8000 0 0) 0 128 (accesses [0] (fun k => (holding 0x8000 0 0).vreg k 2) fun _ => .mem 0x8000 0) ∧
    ((lanesOf lab.mask).filter fun k => (holding 0x8000 0 0).vreg k 2 ≠ 0) = [0] ∧ (at' 0x8000 0 0).accPoisoned ⟨0, laneBit 0, 0x8000, .mem 0x8000 0⟩ = false ∧
    (at' 0x8000 0 0).released lab.cur 3 0 = true :=
  ⟨admits_of (by decide +kernel), may_of (by decide +kernel), by decide +kernel⟩
/-- MatrixSigning: a register with two members; a gang that has signed an operation. -/
def signedOp : MatrixOp := ⟨0, 0, 0x3E, 0, 0, [], 1, false, 0, 1, false, [(0, 1)], [], []⟩
theorem witness_signing : (meet both).signedOp 0 0 = false ∧ ({ meet both with ops := [(0, signedOp)] } : State).signedOp 0 0 = true ∧ (meet both).released (meet both).cur 1 0 = true ∧
    (Tab.at (({ labWg with cvs := [(1, both)] } : Workgroup).cv 1).members 0 0).getLsbD 0 = true ∧ (({ labWg with cvs := [(1, both)] } : Workgroup).cv 1).state ≠ 2 ∧
    (let c : Conv := { both with arrived := [(0, 2)], state := 2, kind := 3, sig := 0, shape := [0x3E, 0] }; ({ labWg with cvs := [(1, c)] } : Workgroup).cv 1 = c) := by decide +kernel
theorem witness_signing_admits : ∀ j ∈ [(0x3C, [4, 5, 6, 7]), (0x3D, [4, 5]), (0x3E, []), (0x3E, [4, 5]), (0x3F, [4, 5, 6, 7])],
    (meet both).Admits ⟨1, [2], j.2, [], false, false, (meet both).tilesNamed j.1 2⟩ labGang := by
  have h : ([(0x3C, [4, 5, 6, 7]), (0x3D, [4, 5]), (0x3E, []), (0x3E, [4, 5]), (0x3F, [4, 5, 6, 7])].all fun j => admits (meet both) ⟨1, [2], j.2, [], false, false, (meet both).tilesNamed j.1 2⟩ labGang) = true := by
    decide +kernel
  exact fun j hj => admits_of (List.all_eq_true.mp h j hj)
/-- Messages: a buffer of the core's own half; a core that is there, one whose channel is full and one that is not there; messages of 64 and of 72 bytes, from one core and from any. -/
def talking (n : Nat) : State := { denOf { denCore with ctx := (denCore.ctx.setS 2 0x8000).setS 3 40 } with
  channels := [(40, List.replicate 8 (List.replicate 64 1)), (64 * 40, [List.replicate n 1])] }
def talker : Gang := (denCore.ctx.setS 2 0x8000).setS 3 40
def buffer : Loc := .mem 0x8000 0
theorem witness_messages : MayIssue (talking 64) 0 64 [⟨32, 1, talker.sreg 2, buffer⟩] ∧ MayIssue (talking 64) 1 64 [⟨32, 1, talker.sreg 2, buffer⟩] ∧
    (talking 64).accPoisoned ⟨32, 1, 0x8000, buffer⟩ = false ∧ (talking 64).indexPresent 39 = false ∧
    (talking 64).indexPresent 40 = true ∧ 8 ≤ ((talking 64).channel 0 40).length ∧ ((talking 64).channel 0 41).length < 8 ∧ (talking 64).released (.core 0) 3 0 = true ∧
    ((talking 64).channel 40 0).map List.length = [64] ∧ ((talking 72).channel 40 0).map List.length = [72] ∧ (talker.sreg 3).toNat = 40 ∧ ((talking 64).channel 41 0).isEmpty = true :=
  ⟨may_of (by decide +kernel), may_of (by decide +kernel), by decide +kernel⟩
theorem witness_messages_admit : ∀ u ∈ [coreUse [1, 2, 3] true, coreUse [1] false], (talking 64).Admits u talker := all_admit (by decide +kernel)
theorem witness_messages_place : ResidentShares (talking 64) [32] (fun _ => buffer) := fun _ _ => ⟨fun _ h => (nomatch h), fun _ _ _ h => (nomatch h)⟩
/-- CallsAndResumes: a ring with one valid record; a gang in a call, and one suspended by a fault; no such gang. -/
def calling : Gang := { labGang with callSlot := some 0, callLanes := 1, faultLanes := 2, live := 3, status := [(0, .call), (1, .fault)] }
def callWg : Workgroup := { freshWg labLaunch 0 0 1 0 0 0 with gangs := [(0, calling)] }
def callCtx : Gang := (((denCore.ctx.setS 2 0x200000).setS 3 1).setS 4 0x1000005).setS 5 1
def called : State := { labOf calling labLaunch with
  cur := .core 0, scalars := [(0, { ringCore with ctx := callCtx })], mem := Mem.store [] 0x10008003F 1 }
theorem witness_calls : MayIssue called 1 64 ((List.range 32).map fun n => ⟨32, 1, callCtx.sreg 2 + BitVec.ofNat 64 (64 * n), .mem (0x200000 + 64 * n) 0⟩) ∧
    called.popSlot 0 = some (0, 0xFF00000100080000) ∧ clear.popSlot 0 = none ∧ (called.partRead (called.ctxOf called.cur) 0xFF00000100080000 2048).toOption.map (·.length) = some 2048 ∧
    called.callerAt 0 0 [] = (some (0, 0), 0x1000005) ∧ called.gang (.gang 0 0) = some calling := ⟨may_of (by decide +kernel), by decide +kernel⟩
theorem witness_resumes : (called.gangByHandle 0x1000005 5).map (fun p => (p.1, p.2.2.1)) = some (0, 0) ∧ (called.gangByHandle 0x1000006 6).map (fun p => p.2.2.2.faultLanes) = some 2 ∧
    called.wg 0 = some callWg ∧ called.ops = [] ∧ called.holder 0x1000005 calling.callCluster = 0 ∧ calling.flights = [] ∧ calling.callLanes &&& ~~~calling.callDone &&& calling.live = 1 ∧
    (callCtx.sreg 4 = 0x1000005 ∧ callCtx.sreg 5 = 1) ∧ called.servicePresent 0 = true ∧ called.released called.cur 3 0 = true := by decide +kernel
theorem witness_resumes_admit : ∀ u ∈ [coreUse [1, 2] true, coreUse [1, 4, 5, 6, 7] false, coreUse [1, 2, 3] false], called.Admits u callCtx := all_admit (by decide +kernel)
/-- ServiceRegisters and ContextsAndDeadlines: service core 0, beside a resident workgroup, and a slice. -/
theorem witness_service_registers : OnService den 0 denCore ∧ (∀ u ∈ [coreUse [1] false, coreUse [] false, coreUse [1, 2, 3] false], den.Admits u denCore.ctx) ∧
    denCore.ctx.retrying den.mask = false ∧ ({ denCore.ctx with status := [(0, .retry 4)] } : Gang).stat 0 = .retry 4 ∧ (denCore.ctx.sreg 2).toNat / 2 ^ 61 % 4 ≠ 3 :=
  ⟨den_on_service, all_admit (by decide +kernel), by decide +kernel, by decide +kernel, by decide +kernel⟩
theorem witness_contexts : ((served 0x1000003).gangByHandle 0x1000003 3).map (fun p => (p.1, p.2.2.1, p.2.2.2)) = some (0, 0, labGang) ∧
    ((served 0x1000004).byHandle 0x1000004 4).map (fun p => (p.1, p.2.2)) = some (0, 0) ∧ (served 0).wg 0 = some labWg ∧ (served 0).launchOf labWg = some labLaunch ∧
    (served 0).slice 0 = none ∧ ((served 0).slice 0x1000000).isSome = true := by decide +kernel
theorem witness_contexts_admit : ∀ h ∈ ([0, 0x1000003, 0x1000004, 0x1000000] : List Word), (served h).Admits (coreUse [1, 2, 3] false) (servedGang h) ∧ (served h).Admits (coreUse [1, 2, 0] false) (servedGang h) := by
  have e : (([0, 0x1000003, 0x1000004, 0x1000000] : List Word).all fun h => admits (served h) (coreUse [1, 2, 3] false) (servedGang h) && admits (served h) (coreUse [1, 2, 0] false) (servedGang h)) = true := by
    decide +kernel
  intro h hh
  have k := List.all_eq_true.mp e h hh
  rw [Bool.and_eq_true] at k
  exact ⟨admits_of k.1, admits_of k.2⟩

/-! ### States that meet the hypotheses of the statements: events -/

/-- AgentsAreServed: a thread that waits for its words; the 4,096 cycles over; a line that a thread waits for. -/
def hungry : Gang := { labGang with bufs := [] }
theorem witness_lines_whole : LinesWhole (labOf hungry labLaunch) := fun _ _ _ h => (nomatch h)
theorem witness_fetch : (labOf hungry labLaunch).gang (.gang 0 0) = some hungry ∧ (labOf hungry labLaunch).mayIssue (.gang 0 0) = true ∧ nextInTurn hungry.lastTurn hungry.waitingPcs = some 0x1000 ∧
    (labOf hungry labLaunch).fetchCheck (.gang 0 0) 0x1000 = .ok (.mem 0x1000 0) ∧ (labOf hungry labLaunch).poisoned 0x1000 = false := by decide +kernel
def savedWg : Workgroup := { labWg with place := none }
def aTcb (st : Nat) : Tcb := ⟨st, aNode, 0, none, none, 0, 0, 0, 0, false, 0, 0, none, 0, 0, false, 0, false, 0⟩
theorem witness_aging : ({ lab with ptb := 5120 } : State).gang (.gang 0 0) = some labGang ∧ ({ lab with ptb := 5120 } : State).contends 0 0 labGang = true ∧ labGang.ended = false ∧ labGang.since + 5120 ≤ 5120 ∧
    ({ lab with ptb := 5120, wgs := [(0, savedWg)] } : State).wg 0 = some savedWg ∧ savedWg.since + 5120 ≤ 5120 ∧ ({ lab with ptb := 5120, tcbs := [(3, aTcb 2)] } : State).tcb 3 = some (aTcb 2) ∧
    ({ lab with ptb := 5120, tcbs := [(3, aTcb 2)] } : State).wg 3 = none := by decide +kernel
def filling : Gang := { labGang with lines := [(0, 0), (1, 0), (2, 0), (3, 0)], dirty := [], status := [(0, .lineFill 8)] }
def fillWg : Workgroup := { labWg with gangs := [(0, filling)] }
def fillLab : State := { lab with wgs := [(0, fillWg)] }
theorem witness_fill : fillLab.wg 0 = some fillWg ∧ fillLab.gang (.gang 0 0) = some filling ∧ fillLab.launchOf fillWg = some labLaunch ∧ filling.stat 0 = .lineFill 8 ∧ filling.dirty.contains 8 = false ∧
    8 < 8 + 2 * filling.count ∧ filling.count = 64 ∧
    (fillLab.wgs.map fun p => if p.2.place.map Prod.fst = some fillWg.core then p.2.lineCount else 0).foldl (· + ·) 0 < fillLab.cacheLines fillWg.core ∧
    (fillLab.partRead (tenantCtx 0) (labLaunch.image 0 0 + BitVec.ofNat 64 (128 * 8)) 128).toOption = some (List.replicate 128 0) := by decide +kernel
def inFlight : Gang := { labGang with flights := [⟨7, 0, 0, 1, [2, 3], some [5, 6], 1, false, false, 0x1000, 0⟩, ⟨8, 0, 32, 1, [4], some [9], 0, false, false, 0x1000, 0⟩] }
theorem witness_delivery : inFlight.flights.find? (fun x => x.id = 7) = some ⟨7, 0, 0, 1, [2, 3], some [5, 6], 1, false, false, 0x1000, 0⟩ ∧
    inFlight.flights.find? (fun x => x.id = 8) = some ⟨8, 0, 32, 1, [4], some [9], 0, false, false, 0x1000, 0⟩ ∧ (∀ n ∈ [2, 3], inFlight.holds (lineOfV inFlight.count 0 n) = true) ∧ inFlight.holds (lineOfS 4) = true ∧
    [2, 3].Nodup := by decide +kernel
/-- A page table of one leaf: PASID 0's root stands at 0x5000. -/
def aWalk (c : Bool) : Walk := ⟨1, .gang 0 0, 1, 0, 0x8000, [(0, 0x8000)], 0, c⟩
def walking (c : Bool) : State := { lab with walks := [aWalk c], mem := Mem.storeAll (Mem.storeAll [] 0 (leBytes 8 0x1000100000000005)) 0x5000 (leBytes 8 0xDF) }
theorem witness_walk : (walking true).walks.find? (fun w => w.id = 1) = some (aWalk true) ∧
    (State.walkVa { walking false with walks := [] } ((walking false).ctxOf (.gang 0 0)) 0 0x8000).toOption = some ⟨some 0, 0, 2 ^ 48, 0, true, true, true, true, true, 0⟩ := by decide +kernel
def rereading (cmp : Word) : Gang := { labGang with status := [(0, .waitne 0xFF00000000000000 cmp 5 0)] }
theorem witness_waitne : (rereading 0).stat 0 = .waitne 0xFF00000000000000 0 5 0 ∧ (labOf (rereading 0) labLaunch).waitPlace (.gang 0 0) 0xFF00000000000000 = some (.scratch 0 0) ∧
    (labOf (rereading 0) labLaunch).mayIssue (.gang 0 0) = true ∧ ({ labOf (rereading 0) labLaunch with slices := [{ aSlice with stopped := true }] } : State).mayIssue (.gang 0 0) = false ∧
    leNat ((labOf (rereading 0) labLaunch).locRead (.scratch 0 0) 8) = 0 ∧ (rereading 5).stat 0 = .waitne 0xFF00000000000000 5 5 0 ∧ (rereading 5).holds (lineOfV 64 0 5) = true := by decide +kernel
def fenced : Gang := { labGang with status := [(0, .release 4 3 1 0 0 [] default)] }
theorem witness_fence_wait : fenced.stat 0 = .release 4 3 1 0 0 [] default ∧ (labOf fenced labLaunch).released (.gang 0 0) 3 0 = true ∧ ∀ k, k < 32 → k ≠ 0 → fenced.stat k = .ready := by decide +kernel
/-- Sixteen gangs of one partition hold its slots; an aged one waits. -/
def crowd (n : Nat) (g : Gang) : Workgroup := { freshWg labLaunch n 0 (n + 1) 0 n 0 with gangs := (List.range 8).map fun k => (4 * k, g) }
def crowded : State := { lab with wgs := [(0, crowd 0 labGang), (1, crowd 1 labGang), (2, { crowd 2 { labGang with slot := false, aged := true } with gangs := [(0, { labGang with slot := false, aged := true })] })] }
theorem witness_preemption : crowded.wg 1 = some (crowd 1 labGang) ∧ crowded.gang (.gang 1 28) = some labGang ∧ labGang.slot = true ∧ (crowd 1 labGang).place = some (0, 1) ∧
    crowded.outranked 1 28 0 labGang = true ∧ (crowd 1 labGang).cvs = [] := by decide +kernel
/-- Every record of a fault ring is valid but the first, and a record is held. -/
def heldRing : State := { clear with heldFaults := [(0, [List.replicate 64 1])], mem := (List.range 63).map fun j => (0x10010007F + 64 * j, 1) }
/-- A ring in the service aperture, where no record can be written. -/
def brokenRing : State := { heldRing with scalars := [(0, { denCore with k := Tab.put denCore.k 7 (BitVec.ofNat 64 serviceAp) })] }
theorem witness_broken_ring : brokenRing.held 0 = [List.replicate 64 1] ∧ brokenRing.ringRoom 0 false = none ∧ brokenRing.ringBroken 0 false = some (BitVec.ofNat 64 (serviceAp + 0x3F)) := by decide +kernel
def syscaller : Gang := { labGang with status := [(0, .retry 5)], bufs := [(0, ⟨0x1000, [0x76000010]⟩)] }
def callSlotLab : State := { rung with wgs := [(0, { labWg with gangs := [(0, syscaller)] })] }
theorem witness_ring_slots : heldRing.held 0 = [List.replicate 64 1] ∧ heldRing.freeSlots 0 0xFF00000100100000 64 64 = [0] ∧ (heldRing.partWrite (heldRing.ctxOf (.core 0)) 0xFF00000100100000 (List.replicate 64 1)).isOk = true ∧
    callSlotLab.freeSlots 0 0xFF00000100080000 2048 256 = [0] ∧ syscaller.retryOf 0 = some 5 ∧ (∀ k, k < 32 → k ≠ 0 → syscaller.retryOf k = none) ∧ syscaller.wordAt 0 = some 0x76000010 ∧
    (0x76000010 : BitVec 32).toNat / 2 ^ 25 = 0x3B ∧ callSlotLab.released (.gang 0 0) 3 0 = true ∧ clusterOf labWg.core = 0 := by decide +kernel
theorem witness_ring_rooms : heldRing.ringRoom 0 false = some (0xFF00000100100000, 0) ∧ callSlotLab.ringRoom 0 true = some (0xFF00000100080000, 0) :=
  ⟨State.ringRoom_single (k := ringCore) rfl rfl (by decide) witness_ring_slots.2.1, State.ringRoom_single (k := ringCore) rfl rfl (by decide) witness_ring_slots.2.2.2.1⟩
/-- HomesServe: requests at line 256 that are sent, pending and applied, with no owner and with one. -/
theorem owners_whole {s : State} (h : s.homes = []) (k : s.l1 = []) : OwnersWhole s := by
  refine ⟨fun c n x e => ?_, fun n c => ?_⟩
  · rw [State.l1At, k] at e; cases e
  · simp [State.home, State.ownedLine, State.l1At, h, k, Tab.at, Tab.find]
def aReq (kind : ReqKind) (scope : Option Nat) (st : ReqState) : Req := ⟨1, .gang 0 0, 0, 1, 0, kind, 0x8078, 8, true, List.replicate 8 7, 0, 3, 0, false, scope, some 9, st, false, false, .thread, 0, none⟩
def waitingGang : Gang := { labGang with flights := [⟨9, 0, 0, 1, [2], none, 0, false, false, 0x1000, 0x8078⟩] }
def asking (rs : List Req) : State := { labOf waitingGang labLaunch with ptb := 5000, reqs := rs }
theorem witness_homes : Arrives (asking [aReq .store none .sent]) (aReq .store none .sent) ∧ (aReq .store none .sent).strong = false ∧ LineFree (asking [aReq .store none .sent]) 256 ∧
    (aReq .store none .sent).key % 128 + (aReq .store none .sent).data.length = 128 ∧ Arrives (asking [aReq .store (some 3) .sent]) (aReq .store (some 3) .sent) ∧ (aReq .store (some 3) .sent).strong = true ∧
    (asking [aReq .store (some 3) (.pending 5000)]).req 1 = some (aReq .store (some 3) (.pending 5000)) ∧ (asking [aReq .store (some 3) (.pending 5000)]).heldOn 256 = false ∧
    Arrives (asking [aReq .atomic none .sent]) (aReq .atomic none .sent) ∧ (asking [aReq .atomic none .sent]).poisoned 0x8078 = false ∧ (asking []).gang (.gang 0 0) = some waitingGang := by
  unfold Arrives LineFree; decide +kernel
theorem witness_owners : OwnersWhole (asking []) ∧ OwnersWhole (asking [aReq .store none .sent]) := ⟨owners_whole rfl rfl, owners_whole rfl rfl⟩
theorem witness_owned : OwnersWhole owning := by
  have f : ∀ n c, (owning.home n).owner = (if n = 256 then some 0 else none) ∧ Tab.find (owning.l1At c) n = if c = 0 ∧ n = 256 then some ⟨0, 0, 0, List.replicate 128 0, true, 0⟩ else none := by
    intro n c
    by_cases hn : n = 256 <;> by_cases hc : c = 0 <;> simp [owning, State.home, State.l1At, Tab.at, Tab.find, hn, hc, eq_comm]
  refine ⟨fun c n x e _ => ?_, fun n c => ?_⟩
  · rw [(f n c).2] at e
    split at e
    · obtain rfl := Option.some.inj e; rfl
    · cases e
  · rw [(f n c).1, State.ownedLine, (f n c).2]
    by_cases hn : n = 256 <;> by_cases hc : c = 0 <;> simp [hn, hc, eq_comm]
def second : Req := { aReq .store none .sent with id := 2, lane := 1, lanes := 2 }
theorem witness_pending_holds : Arrives (asking [aReq .store (some 3) (.pending 6000), second]) second ∧ (asking [aReq .store (some 3) (.pending 6000), second]).pendingOn 256 = some 6000 ∧
    Arrives (asking [aReq .store (some 3) (.pending 6000), { second with kind := .atomic }]) { second with kind := .atomic } := by unfold Arrives; decide +kernel
theorem witness_leases : Arrives (asking [aReq .load none .sent]) (aReq .load none .sent) ∧ ((asking []).home 256).owner = none ∧ (asking [aReq .load none .sent]).pendingOn 256 = none ∧
    Tab.find ((asking []).l1At 0) 256 = none ∧ (∀ q ∈ [aReq .load none .sent], q.kind ≠ .store) ∧ (asking [aReq .store none (.applied 5000)]).req 1 = some (aReq .store none (.applied 5000)) ∧
    ({ owning with ptb := 4096 } : State).home 256 = ⟨0, 0, some 0, 0⟩ ∧
    Tab.find (({ lab with l1 := [(0, [(256, ⟨7, 0, 0, List.replicate 128 0, false, 0⟩)])], ptb := 7 } : State).l1At 0) 256 = some ⟨7, 0, 0, List.replicate 128 0, false, 0⟩ := by unfold Arrives; decide +kernel
/-- EnginesWork: a lock that closes; a copy that runs, with a box begun, landing, and faulting; a gathering that is complete; an operation; an empty hold. -/
def closing : Core := { freshCore with locks := [(3, ⟨0, 9, 0, true, .gang 0 0, 4, true⟩)] }
def running (busyBox : Tab Nat) : Copy := { aCopy 1 with boxBusy := busyBox }
def copyRuns (b : Tab Nat) : State := { copyLab with copies := [(1, running b)], ptb := 50 }
theorem witness_engines : Tab.find ({ lab with cores := [(0, closing)], ptb := 4 } : State).cores 0 = some closing ∧ (Tab.find closing.locks 3).map (fun k => (k.closing, k.relt)) = some (true, 4) ∧
    Tab.find (copyRuns []).copies 1 = some (running []) ∧ 0 < (copyDesc labDesc).boxes ∧ (copyRuns []).copyActive (running []) = true ∧ Tab.find (running [(0, 0)]).boxBusy 0 = some 0 ∧
    ((copyRuns [(0, 0)]).boxPlaces (running [(0, 0)]) ((copyDesc labDesc).bytes 0)).2 = none ∧
    (((copyRuns [(0, 0)]).boxPlaces (running [(0, 0)]) ((copyDesc labDesc).bytes 0)).1.map fun p => bare p.2).Nodup ∧ (copyDesc labDesc).bar = 0 ∧ Tab.find (running [(0, 51)]).boxBusy 0 = some 51 := by decide +kernel
/-- A page that no table maps, and a poisoned line. -/
theorem witness_box_faults : (({ copyRuns [(0, 0)] with tlbs := [] } : State).boxPlaces (running [(0, 0)]) ((copyDesc labDesc).bytes 0)).2 = some (.page 0x10000) ∧
    (({ copyRuns [(0, 0)] with poison := [512] } : State).boxPlaces (running [(0, 0)]) ((copyDesc labDesc).bytes 0)).2 = some (.ecc 0x10000) := by decide +kernel
/-- A core whose page of PASID 0 lies on another chip of the pod. -/
def farAway : State := { copyRuns [(0, 0)] with podBase := 0x4000000000000, podChips := [0, 1], tlbs := [(0, [{ low with pa := 0x4010000000000 }])] }
theorem witness_box_far : (farAway.boxPlaces (running [(0, 0)]) ((copyDesc labDesc).bytes 0)).2 = some (.far 0x10000) := by decide +kernel
/-- `mzero` of one accumulator matrix of 16 by 16. -/
def zeroFmt : Word := 0
def gathered : Conv := { alone with arrived := [(0, 1)], state := 2, kind := 3, sig := zeroFmt, shape := [0x3E, 0] }
def gatherLab : State := { meet gathered with wgs := [(0, { labWg with cvs := [(1, gathered)], gangs := [(0, { labGang with status := [(0, .gather 1)] })] })] }
theorem witness_gathering : gathered.complete = true ∧ gathered.members ≠ [] ∧ gathered.arrivals.Nodup ∧ (gatherLab.opsOn 0).length < 16 ∧ gathered.operation.ranges.length ≤ (gatherLab.freeLocks 0).length ∧
    gatherLab.coreQuiet 0 = true ∧ gathered.operation.check labLaunch.scratch labLaunch.accShare = none ∧ Tab.find gatherLab.ops gatherLab.serialNo = none ∧
    (gatherLab.wg 0).map (fun x => (x.cv 1, x.place.isSome, x.evicting)) = some (gathered, true, false) := by decide +kernel
def zeroing : MatrixOp := ⟨0, 0, 0x3E, 0, zeroFmt, [], 1, false, 0, 1, false, [], [], []⟩
theorem witness_signers : ∀ q ∈ gathered.arrived, q.2 = 0 ∨ gatherLab.signedOp 0 q.1 = false := by decide +kernel
theorem witness_matrix_step : ({ lab with ops := [(5, zeroing)] } : State).opEligible 5 zeroing = true ∧ zeroing.mx.steps = 1 ∧
    (zeroing.mx.run labLaunch.ftz 0 (labWg.count 33 (8 + zeroing.mx.busy))).isSome = true := by decide +kernel
theorem witness_refill : lab.sliceStopped labLaunch.slice = false ∧ lab.inPlacement labLaunch labWg.core = true ∧ labLaunch.stocked (9 + labWg.core) = [] ∧ labLaunch.stocked (1 + labWg.core / 64) = [] ∧ labLaunch.pod = false ∧
    labLaunch.cancel = none ∧ 0 < labLaunch.unitCount ∧ schAt labLaunch.sch 2 % 4 = 1 ∧ labLaunch.turn = [] ∧ lab.dealers labLaunch none = [1] ∧ lab.dealers labLaunch (some 0) = [9] ∧
    (let x : Launch := { labLaunch with sch := Tab.set 0 labLaunch.sch 2 0 }; schAt x.sch 2 % 4 = 0 ∧ x.stocked 9 = [] ∧ 0 < x.unitCount) := by decide +kernel
/-- WorkIsDispatchedAndEnds: a node that runs a launch with a workgroup for core 0; a signal node; a workgroup whose gang has ended; a launch of which nothing is left. -/
def starting : Launch := { labLaunch with waiting := [(0, 0)], node := some 3 }
def running3 : Tcb := { aTcb 3 with work := some 0 }
def placing : State := { lab with slices := [aSlice], wgs := [], cores := [(0, freshCore)], launches := [(0, starting)], tcbs := [(3, running3)] }
theorem witness_dispatch : placing.tcb 3 = some running3 ∧ recAt running3.image 0 1 = 1 ∧ Tab.find starting.waiting (starting.firstWg + starting.placement.idxOf 0) = some 0 ∧ placing.mayPlace starting = true ∧
    placing.hasRoom 0 3 starting = true ∧ placing.firstForSpace 0 3 (placing.launchRank 0 starting) = true := by decide +kernel
/-- A launch that entered from another chip has no node: its entry is named. -/
theorem witness_member_dispatch : ¬(65536 + 0 < 65536) ∧ placing.launch (65536 + 0 - 65536) = some starting := by decide +kernel
def signalTcb : Tcb := { aTcb 2 with image := mkRecord 128 [(0, 1, 4), (0x10, 8, 0x8000), (0x18, 8, 0xFFFFFFFFFFFFFFFF)] }
def signalling : State := { lab with slices := [aSlice], tcbs := [(3, signalTcb)] }
theorem witness_signal_node : signalling.nodeFree 3 signalTcb = true ∧ signalling.nodeFirst 3 signalTcb = true ∧ signalTcb.bad = false ∧ recAt signalTcb.image 0 1 = 4 ∧
    (signalling.xlateNow (tenantCtx 0) 2 (recWord signalTcb.image 0x10)).toOption = some (0x8000, 0) ∧ signalling.poisoned 0x8000 = false ∧ signalTcb.graph = none ∧ signalTcb.spawner = none ∧
    signalling.pendingOn 256 = none ∧ signalling.heldOn 256 = false ∧ signalTcb.wrote ≤ signalling.ptb ∧ signalling.owes (.node 3) = false := by decide +kernel
theorem witness_signal_lease : ({ signalling with homes := [(256, ⟨50, 0, none, 0⟩)] } : State).ptb < (({ signalling with homes := [(256, ⟨50, 0, none, 0⟩)] } : State).home 256).lease ∧ OwnersWhole signalling ∧
    (let c : Tcb := { signalTcb with state := 3 }; ({ signalling with tcbs := [(3, c)] } : State).tcb 3 = some c ∧ c.work = none) := ⟨by decide +kernel, owners_whole rfl rfl, by decide +kernel⟩
def overGang : Gang := { labGang with live := 0, ended := true, slot := false }
def overWg : Workgroup := { labWg with gangs := [(0, overGang)] }
theorem witness_ends : (labOf overGang labLaunch).wgFinished 0 overWg = true ∧ overWg.place = some (0, 0) ∧ Tab.find (labOf overGang labLaunch).cores 0 = some { freshCore with slots := [(0, 0)] } ∧
    (let x : Launch := { labLaunch with wglive := 0 }; x.done = false ∧ x.started = true ∧ x.spawned = 0 ∧ x.pod = false ∧ x.failCode = 0 ∧ x.cancel = none) := by decide +kernel
def doneNode : Tcb := { aTcb 3 with image := mkRecord 128 [(0, 1, 1), (2, 1, 1), (0x10, 8, 0x3000), (0x20, 4, 1)], graph := some 0, work := some 0 }
theorem witness_node_end : doneNode.succs = [1] ∧ doneNode.succs.Nodup ∧ 0 ∉ doneNode.succs ∧ aGraph.nended + 1 < aGraph.n ∧ ({ labLaunch with done := true } : Launch).statusWord.toNat / 2 ^ 56 = 0 := by decide +kernel
/-- A workgroup whose space one of an earlier deadline waits for; a best-effort slice's workgroup beside it would go first. -/
def late : Slice := { aSlice with handle := 0x40, deadline := 9000 }
def urgent : Launch := { starting with serial := 2 }
def slow : Launch := { labLaunch with slice := 0x40 }
def contended : State :=
  { lab with slices := [{ aSlice with deadline := 10 }, late], launches := [(0, slow), (1, urgent)],
             cores := [(0, { freshCore with slots := [(0, 0), (1, 1), (2, 2), (3, 3)] })], wgs := (List.range 4).map fun k => (k, freshWg slow 0 0 (k + 1) 0 k 0) }
theorem witness_eviction : (contended.wg 3).map (fun x => (x.place, x.evicting, x.pinned, contended.earlierWaits 0 (contended.wgRank x))) =
    some (some (0, 3), false, false, true) ∧ contended.slices.all (fun y => !y.be) = true := by decide +kernel
def leavingWg : Workgroup := { labWg with evicting := true }
def saved' : Workgroup := { labWg with place := none }
def returning : State := { lab with slices := [aSlice], wgs := [(0, saved')], cores := [(0, freshCore)] }
theorem witness_saves : ({ lab with wgs := [(0, leavingWg)] } : State).atRest 0 leavingWg = true ∧ returning.savedFits 0 2 0 saved' = true ∧ returning.firstForSpace 0 2 (returning.savedRank 0 saved') = true ∧
    returning.wgQuiet 0 saved' = true ∧ (saved'.gangs.map Prod.fst).Nodup ∧ saved'.savedLocks = [] := by decide +kernel
/-- SoftErrors: an L1 line that is clean and one that is owned; a node of a graph that has not been dispatched; a service core that was started. -/
def leafTcb : Tcb := { aTcb 2 with graph := some 0 }
theorem witness_soft_errors : labGang.lines ≠ [] ∧ labGang.ended = false ∧ (Tab.find (owning.l1At 0) 256).map (·.owned) = some true ∧ leafTcb.succs = [] ∧ leafTcb.state = 2 ∧ aGraph.nended + 1 < aGraph.n ∧
    labLaunch.field 9 1 % 2 = 0 ∧ labWg.relaunches = 0 ∧ labWg.place.isSome = true := by decide +kernel
theorem witness_soft_places : (Tab.find labGang.lines 9).isSome = true ∧ labLaunch.firstFault = none ∧ 256 ∈ ({ lab with dirtyLines := [256] } : State).dirtyLines ∧
    ({ lab with wgs := [(0, leavingWg)] } : State).tilesRead 0 leavingWg = true ∧
    (Tab.find (({ lab with l1 := [(0, [(256, ⟨7, 0, 0, List.replicate 128 0, false, 0⟩)])] } : State).l1At 0) 256).map (·.owned) = some false := by decide +kernel
def startMsg : List Byte := mkRecord 64 [(0, 2, 1), (2, 1, 0), (8, 8, 0xFF00000100000000), (0x20, 8, 5)]
def startedCore : Scalar := { denCore with start := some startMsg }
def bothCores : State := { lab with scalars := [(0, startedCore), (1, denCore), (40, denCore)] }
theorem witness_service_errors : bothCores.scalar 0 = some startedCore ∧ startedCore.running = true ∧ bothCores.scalar 1 = some denCore ∧ (bothCores.scalars.map Prod.fst).Nodup ∧
    (bothCores.channel (bothCores.complexCore 0) 1).length < 8 := by decide +kernel

/-- A tenant whose queue 0 stands at 0x6000 with a ring of 64 words at 0xA000, in which `ws` are next, under a slice. -/
def aTenant : Tenant := ⟨false, false, none, true, 0, 0x6000, 0x7000, 0, 0, 0, 0⟩
def curSlice : Slice := { aSlice with handle := 0x10000, deadline := 100000000 }
def aStream : Stream := ⟨0xA000, 64, 0, [], []⟩
def aDesc (n : Nat) : List Byte := mkRecord 64 [(0, 8, 0xA000), (8, 1, 6), (9, 1, 1), (0x10, 8, n), (0x20, 8, 0xB000), (0x28, 1, 4)]
def aQueue (n : Nat) : Queue := ⟨1, n, [aStream], [], 0x10000, 0, 1, false, [], none, 0, 0, []⟩
def ringOf (ws : List Nat) : State :=
  { lab with bootStep := 9, scalars := [(40, denCore)], tenants := [(0, aTenant)], slices := [curSlice], queues := [(0, aQueue ws.length)], tenantBase := 0x9000,
             mem := Mem.storeAll (Mem.storeAll (Mem.storeAll [] 0x6000 (aDesc ws.length)) 0x9000 (mkRecord 64 [(0, 4, 0x80000000), (4, 4, 0x3FFFFFFF), (8, 8, 0x6000), (0x10, 8, 0x7000)])) 0xA000
               (ws.flatMap fun w => leBytes 4 w) }
def packet (k : Nat) (b : List Nat) : List Nat := (k * 2 ^ 24 + b.length * 2 ^ 12) :: b
/-- The hypotheses of `Standing` that are not of a body's words. -/
def standsOk (s : State) (y : Tenant) (k : Nat) (b : List Nat) : Bool :=
  let x := s.queue 0 0
  s.fetching && decide (s.tenant 0 = some y) && !y.teardown && decide (x.state = 1) && !x.skipping && x.waits.isEmpty && x.deferred.isEmpty && decide (x.streams = [aStream]) && decide (x.readPtr = 0) && s.settled 0 0 &&
    decide (k < 256) && decide (b.length < 4096) && decide (1 + b.length ≤ x.seenWrite) && decide ((ringWord s y aStream 0).toOption = some (k * 2 ^ 24 + b.length * 2 ^ 12)) &&
    (List.range b.length).all fun i => decide ((ringWord s y aStream (1 + i)).toOption = b[i]?)
theorem ok_of {e : Except (Nat × Word) Nat} {n : Nat} (h : e.toOption = some n) : e = .ok n := by
  cases e with
  | error x => simp [Except.toOption] at h
  | ok x => simpa [Except.toOption] using h
theorem standing_of {s : State} {y : Tenant} {k : Nat} {b : List Nat} (h : standsOk s y k b = true) : Standing s 0 0 y aStream k b := by
  simp only [standsOk, Bool.and_eq_true, decide_eq_true_eq, Bool.not_eq_true', List.isEmpty_iff, List.all_eq_true, List.mem_range] at h
  obtain ⟨⟨⟨⟨⟨⟨⟨⟨⟨⟨⟨⟨⟨⟨h1, h2⟩, h3⟩, h4⟩, h5⟩, h6⟩, hd⟩, h7⟩, h8⟩, h9⟩, h10⟩, h11⟩, h12⟩, h13⟩, h14⟩ := h
  refine ⟨h1, ⟨h2, h3⟩, ⟨h4, h5, h6, hd⟩, ⟨h7, rfl, rfl, h8⟩, h9, ⟨h10, h11, ?_⟩, ok_of h13, fun i w hi => ok_of ?_⟩
  · show 0 + 1 + b.length ≤ _
    omega
  · obtain ⟨hl, -⟩ := List.getElem?_eq_some_iff.mp hi
    show (ringWord s y aStream (0 + 1 + i)).toOption = some w
    rw [Nat.zero_add, h14 i hl, hi]
theorem witness_descriptor : (ringOf (packet 0 [1])).fetching = true ∧ ((ringOf (packet 0 [1])).partRead (tenantCtx 0) 0x6000 64).toOption = some (aDesc 2) ∧ recAt (aDesc 2) 9 1 % 4 = 1 ∧
    recAt (aDesc 2) 0x10 8 = 2 ∧ 2 ≤ 2 ^ (recAt (aDesc 2) 8 1 % 32) ∧ ({ ringOf [] with update := some ⟨2, 0, 0, 0⟩ } : State).fetching = false ∧ ({ ringOf [] with update := some ⟨2, 0, 0, 0⟩ } : State).complexUp = true := by
  decide +kernel
/-- Bodies of each type of packet that its statement speaks of. -/
def bodies : List (Nat × List Nat) :=
  [(0, []), (0, [7]), (1, [100000, 0, 50, 0, 0, 5, 0, 0]), (2, [0x3000, 0]), (3, [0x3000, 0]), (5, [0xC000, 0, 16, 0]), (6, [0x8000, 0, 0, 0, 0, 1]), (7, [2, 1]), (8, []), (9, [0x8000, 0, 1, 0]),
    (0xA, [1, 0x8000, 0]), (0xB, [0x10000, 0, 0x20000, 0, 0, 0, 16, 0x10001, 1, 0, 0, 0, 0, 0, 0, 0]), (0xC, [0x8000, 0, 1]), (0xD, [0x8000, 0]), (0xE, [0x20000, 0, 1]), (0xF, [2047])]
theorem witness_packets : ∀ p ∈ bodies, Standing (ringOf (packet p.1 p.2)) 0 0 aTenant aStream p.1 p.2 := by
  have h : (bodies.all fun p => standsOk (ringOf (packet p.1 p.2)) aTenant p.1 p.2) = true := by decide +kernel
  exact fun p hp => standing_of (List.all_eq_true.mp h p hp)
theorem witness_in_slice : InSlice (ringOf []) 0 0 curSlice := ⟨⟨rfl, by decide⟩, by decide +kernel⟩
theorem witness_packet_effects : (ringOf (packet 1 [100000, 0, 50, 0, 0, 5, 0, 0])).admission 0 0 [100000, 0, 50, 0, 0, 5, 0, 0] = 0 ∧ (ringOf []).admission 0 0 [100000, 0, 50, 0, 0, 5, 1, 0] ≠ 0 ∧
    (ringOf []).entryRoom 0 0 = true ∧ (ringOf []).tcbs = [] ∧ ((ringOf []).signalAdd (.queue 0) 0 0 0x8000 1).toOption.map Option.isSome = some true ∧
    ({ ringOf [] with reqs := [aReq .store (some 3) (.pending 6000)] } : State).signalAdd (.queue 0) 0 0 0x8078 1 = .ok none ∧ ((ringOf []).partWrite (tenantCtx 0) 0x8000 (leBytes 8 0)).isOk = true ∧
    ((ringOf []).partNat (tenantCtx 0) 0x8000 8).toOption = some 0 ∧ ((ringOf []).channel ((ringOf []).complexCore 0) aTenant.shard).length < 8 ∧
    (ringWord (ringOf (packet 6 [0x8000, 0, 0, 0, 0, 1] ++ packet 9 [1, 2, 3, 4])) aTenant aStream 7).toOption = some (9 * 2 ^ 24 + 4 * 2 ^ 12) ∧
    (let z : Slice := { curSlice with handle := 0x20000 }; ({ ringOf [] with slices := [curSlice, z] } : State).slice 0x20000 = some z ∧ z.tenant = 0 ∧ z.cancel = none) := by decide +kernel
/-- A graph packet of one node, at 0x4000, that passes; one that fails its checks; and no room for one. -/
def graphRing (node : List Byte) (tcbs : Tab Tcb) : State := { ringOf (packet 4 [0x4000, 0, 1, 0]) with mem := Mem.storeAll (ringOf (packet 4 [0x4000, 0, 1, 0])).mem 0x4000 node, tcbs := tcbs }
/-- What it takes for the node to enter. -/
def graphEnters (u : State) : Bool :=
  decide (u.withOverflow 0 (images 1 aNode) = some [aNode]) && graphOk [aNode] &&
    decide (gapCount (((gaps 65536 0 u.tcbs).filter fun g => 1 ≤ g.2).map fun g => (g.1, g.2 + 1 - 1)) ≠ 0) && decide (gapCount (gaps 16384 0 u.graphs) ≠ 0)
theorem witness_graph_packet : (match (graphRing aNode []).nextPacket 0 0 0 (· = 4) with
    | .found u p => decide (u.currentSlice 0 0 = some curSlice) && decide (u.tenant 0 = some aTenant) && decide (p = ⟨4 * 2 ^ 24 + 4 * 2 ^ 12, [0x4000, 0, 1, 0], 0, true⟩) &&
        decide ((u.partRead (tenantCtx 0) 0x4000 128).toOption = some aNode) && decide (u.submit (0x10000, 0, 0) 1 (List.replicate 128 0) = .fails) && graphEnters u
    | _ => false) = true := by decide +kernel
theorem witness_graph_room : ∀ u p, (graphRing aNode []).nextPacket 0 0 0 (· = 4) = .found u p → ∃ i v, u.submit (0x10000, 0, 0) 1 aNode = .done i v := by
  intro u p h
  have w := witness_graph_packet
  rw [h] at w
  simp only [Bool.and_eq_true, graphEnters, decide_eq_true_eq] at w
  obtain ⟨_, ⟨⟨h1, h2⟩, h3⟩, h4⟩ := w
  exact State.submit_done h1 h2 (freeRun_isSome _ h3) (State.freeGraph_isSome h4)
theorem witness_completion_state : (ringOf []).complexUp = true ∧ (ringOf []).settled 0 0 = true ∧ ((ringOf []).queue 0 0).owed = none ∧ ((ringOf []).queue 0 0).entries = [] ∧ ((ringOf []).queue 0 0).deferred = [] ∧
    ((ringOf []).queue 0 0).streams = [aStream] ∧ ((ringOf []).queue 0 0).readPtr = aStream.pos ∧ ((ringOf []).queue 0 0).state = 1 ∧ aStream.loops = [] := by decide +kernel
/-- A wait that is over; packets at their end; a slice with nothing left; and an entry that waits, with room in the ring. -/
theorem witness_completion : ({ ringOf [] with queues := [(0, { aQueue 0 with waits := [⟨0x10000, [0x8000], false⟩] })] } : State).fetching = true ∧
    ((ringOf []).partNat (tenantCtx 0) 0x8000 8).toOption = some 0 ∧ ((ringOf []).partNat (tenantCtx 0) (BitVec.ofNat 64 (aTenant.queueTable + 0x10)) 8).toOption = some 0 ∧
    ((ringOf []).queue 0 0).seenWrite = 0 ∧ ((ringOf []).partRead (tenantCtx 0) 0x6000 64).toOption = some (aDesc 0) ∧ recAt (aDesc 0) 0x30 8 - recAt (aDesc 0) 0x38 8 < 2 ^ (recAt (aDesc 0) 0x28 1 % 16) ∧
    (let x : Slice := { curSlice with packetsDone := true }; x.handle = BitVec.ofNat 64 0x10000 ∧ x.outst = 0 ∧ x.endKind = 0) ∧ (denCore.ctx.status = [] ∧ labGang.status = []) := by decide +kernel

/-- HubAndDevices: a tenant with a record, events, a tenant being torn down with nothing left, a mailbox with an entry, an invalidation that is over, and the host's and devices' places. -/
def hubLab : State := { ringOf [] with hosted := true, hostLink := true, ptb := 100000000, slices := [{ curSlice with budget := 0 }], events := [⟨0, List.replicate 64 1⟩], harts := [(0, 0x5000), (1, 0xE000), (2, 1), (5, 1)], hostWrites := [⟨3, 0⟩], invals := [⟨4, 0, 0, 0, 0, false, some 0, 9, 0xE800, false, []⟩] }
theorem witness_hub : ((hubLab.tenantRecord 0).map fun r => recAt r 4 4) = some 0x3FFFFFFF ∧ hubLab.slice 0x10000 = some { curSlice with budget := 0 } ∧ curSlice.missed = false ∧ curSlice.deadline ≤ hubLab.ptb ∧
    hubLab.events.find? (fun e => e.tenant = 0) = some ⟨0, List.replicate 64 1⟩ ∧ aTenant.teardown = false ∧
    ({ hubLab with wgs := [], slices := [], tenants := [(0, { aTenant with teardown := true })] } : State).tenantQuiet 0 { aTenant with teardown := true } = true := by decide +kernel
set_option maxRecDepth 20000 in
theorem witness_tenant_slot : ∃ j, hubLab.tenantSlot aTenant = .ok (some j) :=
  State.tenantSlot_isSome (by decide +kernel)
theorem witness_shootdown : (let s : State := { hubLab with invals := [] }
     hubLab.servicePresent 0 = true ∧ hubLab.hosted = true ∧ (s.hart 0 0x28).getLsbD 0 = true ∧ (s.hart 0 0x18).toNat + 0 < (s.hart 0 0x10).toNat ∧ (s.hart 0 0x10).toNat = 1 ∧ (s.spaBytes (s.hart 0 8).toNat 64).isSome = true) ∧
    (∀ j, j < 40 → ((hubLab.hart j 0).toNat / 4096 = 0x5000 / 4096 ↔ j = 0)) ∧
    hubLab.invals.find? (fun v => v.id = 4) = some ⟨4, 0, 0, 0, 0, false, some 0, 9, 0xE800, false, []⟩ ∧ hubLab.invalOver ⟨4, 0, 0, 0, 0, false, some 0, 9, 0xE800, false, []⟩ = true ∧
    (hubLab.invals.find? fun u => u.hart == some 0) = some ⟨4, 0, 0, 0, 0, false, some 0, 9, 0xE800, false, []⟩ ∧
    hubLab.route 0xE800 = some 0xE800 ∧ 0xE800 % 128 ≤ 120 ∧ hubLab.pendingOn (0xE800 / 128) = none ∧ hubLab.heldOn (0xE800 / 128) = false := by decide +kernel
theorem witness_host : hubLab.localKey 0x8000 = some 0x8000 ∧ 0x8000 + 128 ≤ 2 ^ 40 ∧ hubLab.poisoned 0x8000 = false ∧ 0x8000 % 128 + 128 ≤ 128 ∧ hubLab.hostWrites.find? (fun v => v.id = 3) = some ⟨3, 0⟩ ∧
    (hubLab.home (2 ^ 49)).lease ≤ hubLab.ptb ∧ hubLab.hostLink = true ∧ hubLab.remote 0x8000 = false ∧ (∀ w ∈ hubLab.hostWrites, w.id ≠ hubLab.serialNo) ∧ hubLab.owes (.host 3) = false := by decide +kernel
theorem witness_budget_gang : (let s : State := { hubLab with launches := [(0, { labLaunch with slice := 0x10000 })] }; s.sliceOf (.gang 0 0) = 0x10000 ∧ s.gang (.gang 0 0) = some labGang ∧ isGang (.gang 0 0) = true) := by decide +kernel
/-- A ring entry of a port, wherever `Config.ethRing` places the ring: the host's memory holds it. -/
def ethBase (n : Word) : State := { hubLab with localBase := n, podBase := n }
def ethState (b : Nat) (e : List Byte) : State := { ethBase (if b < 2 ^ 60 then 2 ^ 62 else 0) with mem := Mem.storeAll [] (hostKey + b) e }
theorem eth_reads (b : Nat) (e : List Byte) : (ethState b e).spaBytes b e.length = some e := by
  have hr : (ethState b e).route b = some (hostKey + b) := by
    have hl : (ethState b e).hostLink = true := rfl
    have h1 : (ethState b e).localBase = if b < 2 ^ 60 then 2 ^ 62 else 0 := rfl
    have h2 : (ethState b e).podBase = if b < 2 ^ 60 then 2 ^ 62 else 0 := rfl
    have h62 : (2 ^ 62 : Word).toNat = 2 ^ 62 := by decide
    unfold State.route
    rw [h1, h2, hl]
    by_cases hb : b < 2 ^ 60 <;> simp only [hb, if_true, if_false, h62] <;> split <;> try split
    all_goals first | rfl | (simp at *; omega)
  rw [State.spaBytes, hr]
  refine congrArg some (List.ext_getElem (by simp [State.homeRead]) fun i h1 h2 => ?_)
  simp only [State.homeRead, List.getElem_map, List.getElem_range]
  exact (Mem.byte_storeAll_in e [] (hostKey + b) i h2).trans (by simp)
/-- A buffer at the bottom of this package's memory of 64 bytes, the last of its frame. -/
def ethEntryBytes (b : Nat) : List Byte := mkRecord 16 [(0, 8, if b < 2 ^ 60 then 2 ^ 62 else 0), (8, 2, 64), (0xA, 2, 1)]
theorem dma_place_mem (s : State) (m : Tab Byte) (r a n : Nat) : ({ s with mem := m } : State).dmaPlace r a n = s.dmaPlace r a n := rfl
theorem eth_places : ((ethBase (2 ^ 62)).dmaPlace 4 (2 ^ 62) 64).isSome = true ∧ ((ethBase 0).dmaPlace 4 0 64).isSome = true := by decide +kernel
theorem eth_place (b : Nat) : ((ethState b (ethEntryBytes b)).dmaPlace 4 (recAt (ethEntryBytes b) 0 8) 64).isSome = true := by
  have e : recAt (ethEntryBytes b) 0 8 = if b < 2 ^ 60 then 2 ^ 62 else 0 := by unfold ethEntryBytes; split <;> decide +kernel
  rw [e, ethState, dma_place_mem]
  split
  · exact eth_places.1
  · exact eth_places.2
theorem witness_ethernet (p r kind : Nat) : ∃ (s : State) (e : List Byte), s.spaBytes (s.ethEntry p r kind).1 16 = some e ∧ recAt e 8 2 = 64 ∧ recAt e 0xA 2 % 2 = 1 ∧ s.reqs = [] ∧
    (s.dmaPlace 4 (recAt e 0 8) 64).isSome = true := by
  let b := (Config.ethRing p r kind).1
  refine ⟨ethState b (ethEntryBytes b), ethEntryBytes b, ?_, ?_, ?_, rfl, ?_⟩
  · have e1 : ((ethState b (ethEntryBytes b)).ethEntry p r kind).1 = b := by simp [State.ethEntry, ethState, ethBase, hubLab, ringOf, lab, labOf, State.blank, Tab.at, Tab.find, b]
    have e2 : (ethEntryBytes b).length = 16 := by unfold ethEntryBytes; split <;> decide +kernel
    rw [e1, ← e2]; exact eth_reads b _
  · unfold ethEntryBytes; split <;> decide +kernel
  · unfold ethEntryBytes; split <;> decide +kernel
  · exact eth_place b
theorem witness_devices : hubLab.dmaPlace 0 0x8000 128 = some (.mem 0x8000 0) ∧ hubLab.dmaPlace 0 0x2000000000 8 = none ∧ hubLab.owes (.dma 0) = false ∧ hubLab.servicePresent (Tab.at hubLab.owners 7 0) = true ∧ hubLab.heldMsgs = [] ∧
    hubLab.channels = [] ∧ hubLab.poisoned 0x8000 = false ∧ hubLab.pendingOn 256 = none ∧ hubLab.heldOn 256 = false := by decide +kernel
theorem witness_hub_owners : OwnersWhole hubLab := owners_whole rfl rfl

/-- PodLaunches: a pod of three chips; a launch at its root, not yet acknowledged by all; one at a member; one that runs. -/
def podRoot : Launch := { labLaunch with pod := true, root := 0, rootLaunch := 5, range := [0, 1, 2], acked := [0], started := false, total := 3 }
def podMember : Launch := { labLaunch with pod := true, root := 1, rootLaunch := 5, range := [0, 1], started := false, total := 2 }
/-- Chips in a row: this one's port 3 leads to chip 1, whose port 5 leads to chip 2. -/
def podRow : List PodChip := [⟨0, [0x80001FFFFFFFFFFF], [(3, 1)]⟩, ⟨1, [0x80001FFFFFFFFFFF], [(4, 0), (5, 2)]⟩, ⟨2, [0x80001FFFFFFFFFFF], [(6, 1)]⟩]
def podLab : State := { lab with podFormed := true, podChips := [0, 1, 2], podMap := podRow, bootStep := 9, launches := [(0, podRoot), (1, podMember), (2, { podRoot with gone := true, started := true, reported := [1] })] }
/-- A flit from chip 1 to a chip, with its CRC. -/
def flitTo (chip : Nat) : List Byte :=
  let b := leBytes 2 chip ++ leBytes 2 1 ++ List.replicate 244 0
  b ++ leBytes 8 (crc64 b).toNat
/-- The check value that is published for the CRC-64 of ECMA-182. -/
theorem test_crc64 : crc64 [0x31, 0x32, 0x33, 0x34, 0x35, 0x36, 0x37, 0x38, 0x39] = 0x6C40DF5F0B497347 := by decide +kernel
theorem pod_carries : Carries podLab := ⟨rfl, rfl, rfl⟩
theorem witness_flits : ∀ c ∈ [0, 2], ComesIn podLab 3 (flitTo c) ∧ recAt (flitTo c) 0 2 = c ∧ recAt (flitTo c) 6 2 = 0 ∧ podLab.routePort 2 = some 3 := by
  have h : ([0, 2].all fun c => flitSound (flitTo c) && decide ((flitTo c).length = 256) && decide (recAt (flitTo c) 0 2 = c) && decide (recAt (flitTo c) 6 2 = 0) &&
      decide (recAt (flitTo c) 2 2 = 1)) = true := by decide +kernel
  have hp : podLab.routePort 2 = some 3 := by decide +kernel
  intro c hc
  have k := List.all_eq_true.mp h c hc
  simp only [flitSound, Bool.and_eq_true, decide_eq_true_eq, beq_iff_eq] at k
  obtain ⟨⟨⟨⟨⟨⟨⟨⟨-, k1⟩, k2⟩, k3⟩, k4⟩, k5⟩, k6⟩, k7⟩, k8⟩ := k
  exact ⟨⟨⟨by decide, rfl⟩, ⟨k5, k1, k2, k3, k4⟩, rfl, pod_carries, by rw [k8]; decide⟩, k6, k7, hp⟩
/-- What a flit tells is a free value: whatever it is, the flit comes in its place. -/
theorem witness_told (m : PodMsg) (h : Config.flitMessage (flitTo 0) = some m) : Tells podLab 3 (flitTo 0) m := by
  obtain ⟨h1, h2, h3, -⟩ := witness_flits 0 (by decide)
  exact ⟨h1, h2, h3, h⟩
theorem witness_bad_flit : recWord (List.replicate 255 0 ++ [1]) 0xF8 ≠ crc64 ((List.replicate 255 0 ++ [1]).take 0xF8) := by decide +kernel
/-- Two launches of one queue, the later with every acknowledgement but one. -/
def podNode (n : Nat) (x : Launch) : Launch := { x with node := some n, slice := 1 }
def podTcb (n : Nat) : Tcb := { newTcb (mkRecord 128 [(0, 2, 0x101)]) 1 0 0 0 with order := n, packet := true }
def queued : State := { podLab with
  tcbs := [(0, podTcb 0), (1, podTcb 1)], slices := [{ aSlice with handle := 1 }], launches := [(0, podNode 0 podRoot), (1, podNode 1 { podRoot with acked := [0, 1] })] }
theorem witness_held_go : AtRoot queued 1 (podNode 1 { podRoot with acked := [0, 1] }) ∧ (podNode 0 podRoot).undecided queued.chip = true ∧ Carries queued ∧
    Earlier queued (podNode 0 podRoot) (podNode 1 { podRoot with acked := [0, 1] }) :=
  ⟨⟨rfl, rfl, rfl, rfl, rfl, rfl, by decide⟩, by decide +kernel, ⟨rfl, rfl, rfl⟩, podTcb 1, podTcb 0, rfl, rfl, by decide, by decide +kernel, by decide +kernel⟩
/-- The Go that was held follows once the earlier launch is withdrawn. -/
theorem test_held_go : ((queued.sendGos 2).launch 1).map (·.gone) = some false ∧
    ((({ queued with launches := [(0, podNode 0 { podRoot with started := true }), (1, podNode 1 { podRoot with acked := [0, 1, 2] })] } : State).sendGos 2).launch 1).map (·.gone) = some true := by decide +kernel
/-- A message down the tree of chip 1 reaches chip 0 and goes no further; one of chip 0's own goes to chip 1. -/
theorem test_trees : podLab.treeKids 0 = [1] ∧ podLab.treeKids 1 = [] ∧ (spanningTree podRow 1).map Prod.fst = [1, 0, 2] := by decide +kernel
theorem witness_pod_roots : AtRoot podLab 0 podRoot ∧ AtRoot { podLab with launches := [(0, { podRoot with acked := [0, 1] })], ptb := 100000 } 0 { podRoot with acked := [0, 1] } :=
  ⟨⟨rfl, rfl, rfl, rfl, rfl, rfl, by decide⟩, ⟨rfl, rfl, rfl, rfl, rfl, rfl, by decide⟩⟩
theorem witness_rooted : podLab.rooted 0x1000001 = some (0, podRoot) ∧ 1 ∈ podRoot.range := by decide +kernel
theorem witness_pod : podRoot.range.filter (· ≠ podLab.chip) ≠ [] ∧ podLab.ptb ≤ podRoot.announced + 100000 ∧ podRoot.announced + 100000 ≤ 100000 ∧ podLab.memberOf 1 5 = some (1, podMember) ∧
    podLab.memberOf 2 5 = none ∧ podLab.launch 1 = some podMember ∧ podLab.inReset = false ∧ 4 < podLab.bootStep ∧ podLab.alone = false ∧ labRecord.length = 384 ∧
    Tab.at podLab.treeSeen 1 0 = 0 ∧ 1 ∈ podLab.podChips := by decide +kernel
/-- An announced record of chips 0 and 1 that passes its checks. -/
def podRecord : List Byte :=
  mkRecord 384 [(0, 8, 0x1000), (8, 1, 64), (0xA, 1, 1), (0xC, 4, 1), (0x10, 8, 0x4000400040), (0x18, 2, 4), (0x1A, 2, 1), (0x1C, 2, 1), (0x1E, 2, 1), (0x20, 8, 0x3000), (0x28, 8, 0x2000), (0x30, 8, 0x100000),
    (0x38, 8, 0x200000), (0x100, 8, 0xE4), (0x108, 8, 0x01010104), (0x110, 8, 0x10001), (0x118, 8, 0x21), (0x130, 8, 0x800)]
def announced : State := { lab with podFormed := true, podChips := [0, 1], podMap := podRow.take 2, launches := [], wgs := [], cores := [] }
theorem witness_announce : announced.chip ∈ (announcedEntry announced 1 5 0 0 podRecord).range ∧ announced.launchOk (announcedEntry announced 1 5 0 0 podRecord) = true ∧
    (announcedEntry announced 1 5 0 0 podRecord).placement = [0] ∧ announced.hasRoom 0 0 (announcedEntry announced 1 5 0 0 podRecord) = true ∧ announced.memberOf 1 5 = none ∧ podRecord.length = 384 := by decide +kernel
theorem witness_announce_entry : ∃ l, announced.freeLaunch = some l := State.freeLaunch_isSome (by decide +kernel)
theorem witness_pod_reports : (podLab.launch 2).map (fun x => (x.pod, x.root, x.gone, x.done)) = some (true, 0, true, false) ∧ (podLab.launch 2).map (fun x => (x.reported, x.lost)) = some ([1], []) ∧ podMember.cancel = none ∧
    podLab.ptb < podRoot.announced + 100000 ∧ podRoot.announced + 100000 ≤ ({ podLab with ptb := 100000 } : State).ptb := by decide +kernel

/-- ComplexesServe: an enabled pending interrupt; the timer; messages of every kind with the complexes up; an update at each of its phases; a standby that runs. -/
def timed : Scalar := { denCore with k := [(4, 8), (5, 8), (6, 7)] }
theorem witness_interrupt : ({ denOf timed with ptb := 7 } : State).kip 0 &&& timed.kreg 4 ≠ 0 ∧ timed.running = true ∧ timed.handling = false ∧ timed.kreg 6 ≠ 0 ∧ (timed.kreg 6).toNat ≤ 7 := by decide +kernel
def up (m : List Byte) : State := { lab with bootStep := 9, scalars := [(0, { denCore with running := false, measured := true }), (40, denCore), (44, denCore)], channels := [(40, [m])] }
def asks (k : Nat) : List Byte := mkRecord 64 [(0, 2, k), (8, 8, 0x8000), (0x10, 8, 64), (0x28, 8, 0x9000)]
theorem asked_of {m : List Byte} (h : (decide ((up m).channel 0 ((up m).complexCore 0) = [m]) && (up m).complexUp) = true) : Asked (up m) 0 m [] := by
  rw [Bool.and_eq_true, decide_eq_true_eq] at h
  exact ⟨h.2, h.1, rfl, by simp [State.channel, up, State.complexCore, State.blank, lab, labOf, Tab.at, Tab.find], by decide⟩
theorem witness_asked : ∀ m ∈ startMsg :: [6, 7, 8, 9, 0x7FFF].map asks, Asked (up m) 0 m [] := by
  have h : ((startMsg :: [6, 7, 8, 9, 0x7FFF].map asks).all fun m => decide ((up m).channel 0 ((up m).complexCore 0) = [m]) && (up m).complexUp) = true := by decide +kernel
  exact fun m hm => asked_of (List.all_eq_true.mp h m hm)
theorem witness_requests : (let s := up startMsg
     let m := startMsg
     s.shard0 = some 0 ∧ s.servicePresent 0 = true ∧ shardHalf (recWord m 8) = true ∧ canonical (recWord m 8) = true ∧ inThreadAp (recWord m 8).toNat = false ∧ inServiceAp (recWord m 8).toNat = false ∧ (recWord m 8).toNat % 4 = 0 ∧ recAt m 3 5 = 0 ∧ recAt m 0x1C 4 = 0 ∧
       recAt m 0x38 8 = 0 ∧ recAt m 0x18 4 < 2 ^ 20 ∧ recAt m 0x10 8 / 2 ^ 60 % 16 ≤ 1) ∧ (recAt (asks 6) 2 1 < 40 ∧ 0 < recAt (asks 6) 0x10 8 ∧ recAt (asks 6) 0x10 8 ≤ 2 ^ 32) ∧
    ((up (asks 6)).spaBytes (recAt (asks 6) 8 8) (recAt (asks 6) 0x10 8)).isSome = true ∧ (up (asks 7)).route (recAt (asks 7) 0x28 8) = some 0x9000 ∧ recAt (asks 7) 0x30 8 = 0 ∧ (up (asks 7)).openAt 0x9000 192 = true ∧ (up (asks 7)).openAt 0xA000 64 = true ∧
    ({ up (asks 7) with homes := [(0x120, { lease := 1, stamp := 0, owner := none, granted := 0 })] } : State).openAt 0x9000 192 = false ∧
    (up (asks 8)).update = none ∧ (up (asks 8)).log = [] ∧ ((up (asks 2)).channel 40 3).length < 8 := by decide +kernel
theorem witness_updates : (∀ p ∈ [1, 2, 3], ({ up [] with update := some ⟨p, 0, 0, 0⟩, ptb := 100000000 } : State).doorbells = []) ∧ (100000000 : Nat) ≤ 0 + 100000000 ∧ (up []).complexUp = true ∧
    ((up []).scalar (if (up []).activeB then 40 else 44)).map (·.running) = some true := by decide +kernel

/-- A table that is sound, as the machine itself writes it, and one that is not; no packet is held. -/
theorem witness_tables : tableSound (up []).stateTable = true ∧ tableSound [] = false ∧ ∀ p ∈ (up []).queues, p.2.deferred = [] := ⟨by decide +kernel, by decide +kernel, fun _ h => (nomatch h)⟩

/-- ResetAndBoot: in reset and cool; the steps of the boot that the statement names; no tenant, and one. -/
def resetLab (n : Nat) : State := { State.blank with bootStep := n }
theorem witness_boot : ({ State.blank with inReset := true, mctemp := 1599 } : State).mctemp.toNat < 1600 ∧ (∀ n ∈ [1, 2, 4, 8], (resetLab n).bootStep = n ∧ (resetLab n).inReset = false) ∧
    (resetLab 4).someTenant = false ∧ ({ resetLab 9 with hosted := true } : State).someTenant = false ∧ (resetLab 9).hosted = false ∧ (resetLab 0).mcstat.getLsbD 17 = false ∧ hubLab.servicePresent 0 = true ∧ (ringOf []).someTenant = true ∧ (ringOf []).inReset = false ∧ recAt ({ State.blank with bootRecord := List.replicate 16 0 ++ [2] } : State).bootRecord 0x10 1 / 2 % 2 = 1 := by decide +kernel
/-- StepRunsTheDecoded and StepKeepsInvariant: the word that stands next after reset is picked, it decodes, and the invariant holds there. -/
theorem witness_step : (let s := State.reset.withFetchWord 32 0x20080007
    match s.agenda with
    | [⟨dt, .issue a pc⟩] => ((State.pass { s with agenda := [] } dt).pick a pc).map Prod.snd
    | _ => none) = some 0x20080007 ∧ decodeTableWord 32 0x20080007 = some (.movi 1 7) := by decide +kernel
theorem witness_invariant : State.Inv State.reset := by unfold State.Inv; decide +kernel

/-! ### States that meet the hypotheses of single clauses -/

/-- A store of a thread after a fence that another of its stores still holds. -/
def barredGang : Gang := { holding 0x8000 0 0 with bars := [(0, 3, 20)] }
def barredLab : State := { labOf barredGang labLaunch with reqs := busy.reqs }
theorem witness_fenced_stores : barredLab.Admits { useB [] 2 0 with lanes := [4, 2], guards := [0], mem := true } barredGang ∧
    barredLab.check (.gang 0 0) 1 8 0x8000 = .ok (.mem 0x8000 0) ∧ barredLab.barred ⟨0, 1, 0x8000, .mem 0x8000 0⟩ = true :=
  ⟨admits_of (by decide +kernel), by decide +kernel, by decide +kernel⟩
/-- ScheduleRegisters, Dispenser: a launch whose root is chip 1; nothing asked, a question that is out, and one that is answered. -/
def awayLaunch : Launch := { labLaunch with pod := true, root := 1, range := [0, 1] }
def away (qs : List Ask) : State := { worked 0x1000001 with launches := [(0, awayLaunch)], asks := qs, podFormed := true, podChips := [0, 1], podMap := podRow.take 2 }
def anAsk (got : Option (List Word)) : Ask := ⟨1, 1, .gang 0 0, 1, 0x1000, .value, got⟩
theorem witness_away : (away []).levelOrOwn 0 = some (.launch 0) ∧ Away (away []) awayLaunch ∧ (away []).askOf = none ∧ (away [anAsk none]).askOf = some (anAsk none) ∧
    (away [anAsk (some [7])]).askOf = some (anAsk (some [7])) ∧ (∀ qs ∈ [[], [anAsk none], [anAsk (some [7])]], (away qs).Admits (.regs [] [1, 0]) (workedGang 0x1000001)) ∧
    ¬UdivTraps (away []) (workedGang 0x1000001) 1 := by
  refine ⟨by decide +kernel, by unfold Away; decide +kernel, by decide +kernel, by decide +kernel, by decide +kernel, ?_, by unfold UdivTraps; decide +kernel⟩
  have h : ([[], [anAsk none], [anAsk (some [7])]].all fun qs => admits (away qs) (.regs [] [1, 0]) (workedGang 0x1000001)) = true := by decide +kernel
  exact fun qs hq => admits_of (List.all_eq_true.mp h qs hq)
theorem witness_away_deals : OnCompute (away []) (workedGang 0x1000001) 0 0 { labWg with gangs := [(0, workedGang 0x1000001)] } awayLaunch ∧ awayLaunch.cancel = none ∧
    (away []).rankedOut 0 0 0 tfetchWord = false ∧ (workedGang 0x1000001).aged = false ∧ ({ away [] with pwrZero := true } : State).pwrZero = true ∧ (away []).pwrZero = false ∧ labWg.deals.length < 64 ∧
    (away []).Admits { Use.regs [] [4, 5, 6, 7] with allow := 1 } (workedGang 0x1000001) :=
  ⟨⟨rfl, rfl, rfl, rfl, by decide⟩, by decide +kernel, by decide +kernel, by decide +kernel, rfl, by decide +kernel, by decide +kernel, admits_of (by decide +kernel)⟩
/-- A record that is written at a ring of the lab's memory stands there at once. -/
theorem witness_stands : (heldRing.partKeys (heldRing.ctxOf (.core 0)) 0xFF00000100100000 64).toOption = some ((List.range 64).map (0x100100000 + ·)) ∧ OwnersWhole heldRing ∧
    (∀ n, n < 64 → heldRing.pendingOn ((0x100100000 + n) / 128) = none ∧ heldRing.heldOn ((0x100100000 + n) / 128) = false ∧ (heldRing.home ((0x100100000 + n) / 128)).lease ≤ heldRing.ptb) :=
  ⟨by decide +kernel, owners_whole rfl rfl, fun _ _ => ⟨rfl, rfl, Nat.zero_le _⟩⟩
/-- A node whose launch goes on; one whose copy has ended. -/
theorem witness_nodes : (labOf labGang labLaunch).launch 0 = some labLaunch ∧ labLaunch.done = false ∧
    (let y := { aCopy 3 with wg := none }; Tab.find ({ lab with copies := [(0, y)] } : State).copies 0 = some y ∧ 3 ≤ y.state ∧ y.boxBusy = [] ∧ y.wrote ≤ lab.ptb ∧ lab.reqs = []) ∧
    recAt (mkRecord 128 [(0, 1, 2)]) 0 1 ≠ 1 ∧ (running3.state, running3.work) = (3, some 0) := by decide +kernel
/-- An MSI at either offset of its page; 10 µs after a measurement, and before. -/
theorem witness_msi : MsiBrings 0x5000 1 1 ∧ MsiBrings 0x5004 0x01000000 1 := by unfold MsiBrings; decide
theorem witness_window : 10000 ≤ hubLab.ptb - aTenant.measuredAt ∧ lab.ptb - aTenant.measuredAt < 10000 ∧ hubLab.someTenant = true := by decide +kernel
/-- An event of the same kind and slice waits; one of another slice; none. -/
theorem witness_events : (∃ w ∈ ({ hubLab with events := [⟨0, sliceEvent hubLab 0x10000 2 0⟩] } : State).events, w.tenant = 0 ∧ recAt w.entry 8 8 = 0x10000 ∧ recAt w.entry 0x18 1 = 2) ∧
    (∀ w ∈ hubLab.events, recAt w.entry 8 8 ≠ 0x10000) ∧ (ringOf []).events = [] ∧ curSlice.stopped = false ∧ curSlice.be = false ∧ aTenant.shard < 64 ∧
    hubLab.sliceOf (.gang 0 0) = 0 ∧ (∃ j, hubLab.tenantSlot aTenant = .ok (some j)) :=
  ⟨⟨_, List.mem_singleton_self _, by decide +kernel⟩, by decide +kernel, rfl, rfl, rfl, by decide, by decide +kernel, witness_tenant_slot⟩
/-- The rails have been in band for 10 ms, and have not; a flash that holds no record; an image of no byte that the record does not name. -/
theorem witness_reset_ends : (let s : State := { State.blank with inReset := true, mcTime := 10000000 }; s.tripped = false ∧ s.railsAt + 10000000 ≤ s.mcTime) ∧
    (let s : State := { State.blank with inReset := true, mcTime := 5 }; s.mcTime < s.railsAt + 10000000) ∧ ({ State.blank with inReset := true, tripped := true } : State).tripped = true := by decide
theorem witness_no_record : ¬Accepts (Mem.bytes ({ resetLab 3 with flash := [] } : State).flash 0 0x260) := by
  have e : Mem.bytes ({ resetLab 3 with flash := [] } : State).flash 0 0x260 = List.replicate 0x260 0 := by decide +kernel
  rintro ⟨h, -⟩
  rw [e] at h
  revert h; decide +kernel
theorem witness_image : (let s : State := { up [] with bootStep := 5, bootRecord := mkRecord 0x260 [(0x88, 8, 4), (0x90, 8, 0x8000)] };
     s.shard0 = some 0 ∧ (s.scalar 0).isSome = true ∧ s.route 0x8000 = some 0x8000 ∧ s.route 0x8003 = some 0x8003 ∧ s.inReset = false ∧
     sha384 (Mem.bytes s.flash 0 4) ≠ (s.bootRecord.drop 0xA8).take 48) ∧
    (let s : State := { up [] with bootStep := 5, bootRecord := mkRecord 0xA8 [(0x88, 8, 4), (0x90, 8, 0x8000)] ++ sha384 [0, 0, 0, 0] };
     sha384 (Mem.bytes s.flash 0 4) = (s.bootRecord.drop 0xA8).take 48) ∧ (∀ n ∈ [3, 5, 6, 7], (resetLab n).bootStep = n) := by decide +kernel
/-- Registers: a trained link with no tenant, and with none trained. -/
theorem witness_registers : ({ resetLab 9 with hosted := true, hostLink := true } : State).someTenant = false ∧ (resetLab 9).hostLink = false ∧ Tab.at (resetLab 9).imsics 0 [] = [] := by decide +kernel
/-- A step of an operation that passes its checks; a machine check of a complex core; a boundary in time; a message to a root. -/
theorem witness_operation : zeroing.mx.check labLaunch.scratch labLaunch.accShare = none ∧ 0 < zeroing.mx.steps := by decide +kernel
theorem witness_checks : ({ up [] with checks := [40] } : State).checks = [40] ∧ (((up []).scalar 44).map (·.running)) = some true ∧ (up []).doorbells = [] ∧ (up []).ptb ≤ 0 + 1000000 := by decide +kernel
/-- Where the configuration record maps the management registers is a free value: a store may issue there, wherever it is. -/
theorem witness_register_store (b : Word) (h : Config.registersAt den.bootRecord = some b) (a : b.toNat % 8 = 0) (c : canonical b = true) (e : inThreadAp b.toNat = false)
    (f : inServiceAp b.toNat = false) (d : shardHalf b = true) : MayIssue den 1 8 [⟨0, 1, b, .reg 0x3000⟩] := by
  refine ⟨fun x hx => ?_, fun x hx => ?_, fun x hx => ?_, .inr fun x hx => ?_, ?_⟩
  on_goal 5 => unfold State.noRoom; rfl
  all_goals obtain rfl := List.mem_singleton.mp hx
  · have hr : den.regWindow (.core 0) b = some (.reg 0x3000) := by rw [State.regWindow, d, h]; show (if (b - b).toNat < 0x30 then some (Loc.reg (0x3000 + (b - b).toNat)) else none) = _; rw [BitVec.sub_self]; rfl
    show den.check (.core 0) 1 8 b = _
    unfold State.check
    simp only [a, c, e, f, hr]; rfl
  · unfold State.held?; rfl
  · unfold State.upperLocked; rfl
  · rfl

end Sys2Proof.Tests
end

section
/-! The state after package reset (SPEC.md, R363). -/

namespace Sys2Proof.Proofs
open Sys2Proof.Machine

/-- Settles O54: package reset sets only the agenda, to the boot of complex A (R363, log 14); every other field keeps its value in
`State.blank`, the 0 of the four base registers among them (log 6). -/
theorem resetState : Obligations.ResetState := by
  unfold Obligations.ResetState
  simp only [State.reset, State.blank, and_self]

end Sys2Proof.Proofs
end

section
/-! Steps and the agenda (SPEC.md, R21, R89, R92; log 3). -/

namespace Sys2Proof.Proofs
open Sys2Proof.Machine

/-- What follows what a step did: the rest that it leaves to be done. -/
noncomputable def followedBy (old : State) : Host.Outcome State Fault Refusal → Host.Outcome State Fault Refusal
  | .next t => .next (((t.settle old).survey fun w u => exec (instrOf w) u).tendSlots old)
  | .fault f => .fault f
  | .refused r => .refused r

/-- A step carries out the head of the agenda, after its time has passed, and then does what that leaves to be done. -/
theorem step_of_agenda {s : State} {dt : Nat} {a : Act} {cs : List Choice} (h : s.agenda = ⟨dt, a⟩ :: cs) :
    step s = followedBy (State.pass { s with agenda := cs } dt) (act (State.pass { s with agenda := cs } dt) a) := by
  simp only [step, State.nextAct, h]
  rfl

theorem instrOf_ok {w : BitVec 32} {i : Instr} (h : decodeWord w = .ok i) : instrOf w = i := by simp only [instrOf, h]
theorem instrOf_error {w : BitVec 32} {e : Reject} (h : decodeWord w = .error e) : instrOf w = .unassignedWord w := by
  simp only [instrOf, h]
theorem act_issue {s u : State} {a : Agent} {pc : Word} {w : BitVec 32} (h : s.pick a pc = some (u, w)) :
    act s (.issue a pc) = exec (instrOf w) u := by simp only [act, h]
theorem act_event {s : State} {i : Instr} (h : isEvent i = true) : act s (.event i) = exec i s := by simp only [act, h, if_true]

/-- Settles O58: the agenda's head is carried out (log 3), the picked word as what it decodes to or as an unassigned word (R89, R92). -/
theorem stepRunsTheDecoded : Obligations.StepRunsTheDecoded := by
  unfold Obligations.StepRunsTheDecoded
  refine ⟨fun s u cs dt a pc w hs hp => ⟨fun i hi => ?_, fun e he => ?_⟩, fun s cs dt i hs hi => ?_⟩
  · rw [step_of_agenda hs, act_issue hp, instrOf_ok hi]
    cases exec i u <;> rfl
  · rw [step_of_agenda hs, act_issue hp, instrOf_error he]
    cases exec (.unassignedWord w) u <;> rfl
  · intro old
    rw [step_of_agenda hs, act_event hi]
    change followedBy old (exec i old) = _
    cases exec i old <;> rfl

end Sys2Proof.Proofs
end

section
/-! Uniform writes under divergence: `tstat` of a contact sheet that cannot be read (R25, R265, R294). -/

namespace Sys2Proof.Proofs
open Machine

/-- A launch of one granule: each count at 0x18 is 1. -/
def oneGranule : Launch :=
  { (default : Launch) with record := List.replicate 0x18 0 ++ [1, 0, 1, 0, 1, 0, 1, 0] }

/-- A gang of two threads whose launch traps diverged uniform writes (`GSTAT` bit 1). -/
def trappingGang : Gang := { (default : Gang) with live := 3, gstat := 2 }

/-- The gang's workgroup. -/
def trappingGroup : Workgroup := { (default : Workgroup) with gangs := [(0, trappingGang)] }

/-- Thread 0 of the gang issues without thread 1, on a chip whose PASID table is at no place, so that no contact sheet can be read. -/
def sheetless : State :=
  { (default : State) with cur := .gang 0 0, mask := 1, wgs := [(0, trappingGroup)], launches := [(0, oneGranule)] }

theorem sheetless_onCompute : OnCompute sheetless trappingGang 0 0 trappingGroup oneGranule :=
  ⟨rfl, rfl, rfl, rfl, by decide⟩

theorem sheetless_admits : sheetless.Admits { Use.regs [] [1] with allow := 1 } trappingGang where
  agent := rfl
  compute := fun _ => rfl
  service := fun h => absurd h (by decide)
  registers := fun _ h => absurd h List.not_mem_nil
  window := by decide
  scoreboard := by decide
  lines := fun _ h => absurd h List.not_mem_nil

/-- The operands of `tstat` into U1 of the count of granules in state 0. -/
def readGranules : Fields := ⟨1, 0, 0, 1, 0, 0, 0, 0, 0, 0, 0, 0, 0, 0, 0, 0, 0, 0, 0, 0, 0, 0, 0, 0⟩

/-- What `tstat` leaves of thread 0's status where the sheet cannot be read: it stays ready. -/
theorem tstat_of_sheetless : ∃ t, exec (.tstat 1 1 0) sheetless = .next t ∧ (t.gang sheetless.cur).map (·.stat 0) = some .ready :=
  ⟨_, rfl, by decide +kernel⟩

/-- Refutes O18: `tstat` of a contact sheet that cannot be read is `WIREDFAULT` of the tenant, and no thread traps. -/
theorem not_divergedUniformWriteTraps : ¬ Obligations.DivergedUniformWriteTraps := by
  unfold Obligations.DivergedUniformWriteTraps
  intro h
  obtain ⟨hw, -⟩ := h sheetless trappingGang 0 0 trappingGroup oneGranule readGranules sheetless_onCompute
  have hu : UniformWriter readGranules (.tstat 1 1 0, { Use.regs [] [1] with allow := 1 }) := by
    simp [UniformWriter, readGranules]
  obtain ⟨t, ht, ⟨⟨g', hg, hstat, -⟩, -, -⟩, -⟩ := hw ⟨by decide, by decide, by decide⟩ _ (.inl hu) sheetless_admits
  obtain ⟨t', ht', hready⟩ := tstat_of_sheetless
  obtain rfl : t' = t := by simpa using ht'.symm.trans ht
  have hfault := hstat 0 (by decide)
  rw [hg] at hready
  simp only [Option.map_some, Option.some.injEq] at hready
  rw [hready] at hfault
  exact absurd hfault (by decide)

end Sys2Proof.Proofs
end

section
/-! Memory as its homes hold it: what a recall, a write and a record change of it (R161, R176, R184, R205, R265, R266). -/

namespace Sys2Proof.Machine

theorem State.l1At_setL1 (s : State) (l c : Nat) (t : Tab Line) : (s.setL1 l t).l1At c = if c = l then t else s.l1At c :=
  Tab.at_set [] s.l1 l c t
theorem State.home_setHome (s : State) (line n : Nat) (h : Home) : (s.setHome line h).home n = if n = line then h else s.home n :=
  Tab.at_set _ s.homes line n h
theorem State.ownedLine_eq_some {s : State} {c n : Nat} {x : Line} :
    s.ownedLine c n = some x ↔ Tab.find (s.l1At c) n = some x ∧ x.owned = true := by
  simp [State.ownedLine, Option.filter_eq_some_iff]

/-- The copy that holds a line for its home: that of the L1 which the home says owns it. -/
def State.keeper (s : State) (n : Nat) : Option Line := (s.home n).owner.bind fun l => s.ownedLine l n

theorem State.homeByte_eq (s : State) (k : Nat) :
    s.homeByte k = (s.keeper (k / 128)).elim (Mem.byte s.mem k) fun x => x.data.getD (k % 128) 0 := by
  simp only [State.homeByte, State.keeper, State.home, State.ownedLine, State.l1At, Tab.at]
  cases Tab.find s.homes (k / 128) with
  | none => rfl
  | some h =>
    obtain ⟨lease, stamp, owner, granted⟩ := h
    cases owner with
    | none => rfl
    | some l =>
      simp only [Option.getD_some, Option.bind_some]
      cases Tab.find ((Tab.find s.l1 l).getD []) (k / 128) with
      | none => rfl
      | some x => cases hx : x.owned <;> simp [Option.filter, hx]

theorem State.homeByte_of_keeper_none {s : State} {k : Nat} (h : s.keeper (k / 128) = none) : s.homeByte k = Mem.byte s.mem k := by
  rw [State.homeByte_eq, h]; rfl
theorem State.keeper_of_owner_none {s : State} {n : Nat} (h : (s.home n).owner = none) : s.keeper n = none := by
  rw [State.keeper, h]; rfl
theorem State.keeper_congr {s t : State} {n : Nat} (h : t.home n = s.home n) (hl : ∀ c, t.ownedLine c n = s.ownedLine c n) :
    t.keeper n = s.keeper n := by
  simp only [State.keeper, h, hl]
theorem State.homeByte_congr {s t : State} {k : Nat} (h : t.keeper (k / 128) = s.keeper (k / 128))
    (hm : Mem.byte t.mem k = Mem.byte s.mem k) : t.homeByte k = s.homeByte k := by
  rw [State.homeByte_eq, State.homeByte_eq, h, hm]
theorem State.keeper_whole {s : State} (w : LinesWhole s) {n : Nat} {x : Line} (h : s.keeper n = some x) : x.data.length = 128 := by
  obtain ⟨c, -, hx⟩ := Option.bind_eq_some_iff.mp h
  obtain ⟨hf, ho⟩ := State.ownedLine_eq_some.mp hx
  exact w c n x hf ho

/-- What writes at homes leave: everything but memory, what homes and L1s hold, and requests. -/
def State.offHome (s : State) : State :=
  { s with mem := [], homes := [], l1 := [], predictors := [], dirtyLines := [], reqs := [], serialNo := 0 }

@[simp] theorem State.soil_keeper (s : State) (line n : Nat) : (s.soil line).keeper n = s.keeper n := by
  unfold State.soil; dsimp only; split <;> rfl
@[simp] theorem State.soil_home (s : State) (line n : Nat) : (s.soil line).home n = s.home n := by
  unfold State.soil; dsimp only; split <;> rfl
@[simp] theorem State.soil_l1At (s : State) (line c : Nat) : (s.soil line).l1At c = s.l1At c := by
  unfold State.soil; dsimp only; split <;> rfl
@[simp] theorem State.soil_offHome (s : State) (line : Nat) : (s.soil line).offHome = s.offHome := by
  unfold State.soil; dsimp only; split <;> rfl
@[simp] theorem State.soil_reqs (s : State) (line : Nat) : (s.soil line).reqs = s.reqs := by
  unfold State.soil; dsimp only; split <;> rfl
@[simp] theorem State.setL1_offHome (s : State) (l : Nat) (t : Tab Line) : (s.setL1 l t).offHome = s.offHome := rfl
@[simp] theorem State.setHome_offHome (s : State) (line : Nat) (h : Home) : (s.setHome line h).offHome = s.offHome := rfl

/-! ### Recalls (R205) -/

theorem State.recall_of_unowned {s : State} {line : Nat} (h : (s.home line).owner = none) (bump : Bool) : s.recall line bump = s := by
  simp only [State.recall, h]
@[simp] theorem State.ownedLine_setHome (s : State) (line : Nat) (h : Home) (c n : Nat) : (s.setHome line h).ownedLine c n = s.ownedLine c n := rfl
@[simp] theorem State.home_setL1 (s : State) (l : Nat) (t : Tab Line) (n : Nat) : (s.setL1 l t).home n = s.home n := rfl
@[simp] theorem State.soil_ownedLine (s : State) (line c n : Nat) : (s.soil line).ownedLine c n = s.ownedLine c n := by
  simp only [State.ownedLine, State.soil_l1At]
theorem State.ownedLine_setL1 (s : State) (l : Nat) (t : Tab Line) (c n : Nat) :
    (s.setL1 l t).ownedLine c n = if c = l then (Tab.find t n).filter (·.owned) else s.ownedLine c n := by
  simp only [State.ownedLine, State.l1At_setL1]; split <;> rfl
theorem Tab.find_del {α : Type} (t : Tab α) (k j : Nat) : Tab.find (Tab.del t k) j = if j = k then none else Tab.find t j := by
  split
  · subst j; exact Tab.find_del_same t k
  · exact Tab.find_del_other t k j ‹_›

/-- An L1 gives up its copy of a line, one that it owns back to memory. -/
def State.dropCopy (s : State) (l line : Nat) : State :=
  match Tab.find (s.l1At l) line with
  | some x =>
    let t := if x.owned then { s with mem := Mem.storeAll s.mem (line * 128) x.data }.soil line else s
    t.setL1 l (Tab.del (t.l1At l) line)
  | none => s

theorem State.dropCopy_cases (s : State) (l line : Nat) :
    (Tab.find (s.l1At l) line = none ∧ s.dropCopy l line = s) ∨
    (∃ x, s.ownedLine l line = some x ∧
      s.dropCopy l line = ({ s with mem := Mem.storeAll s.mem (line * 128) x.data }.soil line).setL1 l (Tab.del (s.l1At l) line)) ∨
    (s.ownedLine l line = none ∧ s.dropCopy l line = s.setL1 l (Tab.del (s.l1At l) line)) := by
  unfold State.dropCopy
  cases hf : Tab.find (s.l1At l) line with
  | none => exact .inl ⟨rfl, rfl⟩
  | some x =>
    cases ho : x.owned with
    | true => exact .inr (.inl ⟨x, State.ownedLine_eq_some.mpr ⟨hf, ho⟩, by simp only [ho, if_true, State.soil_l1At]; rfl⟩)
    | false => exact .inr (.inr ⟨by simp [State.ownedLine, hf, ho, Option.filter], by simp only [ho]; rfl⟩)

@[simp] theorem State.dropCopy_home (s : State) (l line n : Nat) : (s.dropCopy l line).home n = s.home n := by
  obtain ⟨-, e⟩ | ⟨x, -, e⟩ | ⟨-, e⟩ := s.dropCopy_cases l line <;> rw [e]
  · rw [State.home_setL1, State.soil_home]; rfl
  · rfl
theorem State.dropCopy_ownedLine (s : State) (l line c n : Nat) :
    (s.dropCopy l line).ownedLine c n = if c = l ∧ n = line then none else s.ownedLine c n := by
  have del : (Tab.find (Tab.del (s.l1At l) line) n).filter (·.owned) = if n = line then none else s.ownedLine l n := by
    rw [Tab.find_del]; split <;> rfl
  obtain ⟨hn, e⟩ | ⟨x, -, e⟩ | ⟨-, e⟩ := s.dropCopy_cases l line <;> rw [e]
  · split
    · rename_i h; rw [h.1, h.2, State.ownedLine, hn]; rfl
    · rfl
  · rw [State.ownedLine_setL1, del, State.soil_ownedLine]
    by_cases hc : c = l
    · simp [hc]
    · simp only [hc, if_false, false_and]; rfl
  · rw [State.ownedLine_setL1, del]
    by_cases hc : c = l <;> simp [hc]
theorem State.dropCopy_mem (s : State) (l line : Nat) :
    (s.dropCopy l line).mem = (s.ownedLine l line).elim s.mem fun x => Mem.storeAll s.mem (line * 128) x.data := by
  obtain ⟨hn, e⟩ | ⟨x, hx, e⟩ | ⟨hx, e⟩ := s.dropCopy_cases l line <;> rw [e]
  · rw [State.ownedLine, hn]; rfl
  · rw [hx, State.setL1_mem, State.soil_mem]; rfl
  · rw [hx]; rfl
@[simp] theorem State.dropCopy_offHome (s : State) (l line : Nat) : (s.dropCopy l line).offHome = s.offHome := by
  obtain ⟨-, e⟩ | ⟨x, -, e⟩ | ⟨-, e⟩ := s.dropCopy_cases l line <;> rw [e]
  · rw [State.setL1_offHome, State.soil_offHome]; rfl
  · rfl
@[simp] theorem State.dropCopy_reqs (s : State) (l line : Nat) : (s.dropCopy l line).reqs = s.reqs := by
  obtain ⟨-, e⟩ | ⟨x, -, e⟩ | ⟨-, e⟩ := s.dropCopy_cases l line <;> rw [e]
  · rw [State.setL1_reqs, State.soil_reqs]
  · rfl

theorem State.recall_of_owned {s : State} {line l : Nat} (h : (s.home line).owner = some l) (bump : Bool) :
    ∃ p, s.recall line bump = { (s.dropCopy l line).setHome line { s.home line with owner := none } with predictors := p } := by
  simp only [State.recall, h]
  cases bump <;> exact ⟨_, rfl⟩

/-- After a recall the home names no owner. -/
theorem State.recall_home (s : State) (line : Nat) (bump : Bool) (n : Nat) :
    (s.recall line bump).home n = if n = line then { s.home line with owner := none } else s.home n := by
  cases h : (s.home line).owner with
  | none =>
    rw [State.recall_of_unowned h]
    split
    · subst n; rw [← h]
    · rfl
  | some l =>
    obtain ⟨p, e⟩ := State.recall_of_owned h bump
    rw [e]
    exact (State.home_setHome _ _ _ _).trans (by rw [State.dropCopy_home])
theorem State.recall_ownedLine (s : State) (line : Nat) (bump : Bool) (c n : Nat) :
    (s.recall line bump).ownedLine c n = if (s.home line).owner = some c ∧ n = line then none else s.ownedLine c n := by
  cases h : (s.home line).owner with
  | none => rw [State.recall_of_unowned h]; simp
  | some l =>
    obtain ⟨p, e⟩ := State.recall_of_owned h bump
    rw [e]
    exact (State.dropCopy_ownedLine s l line c n).trans (by simp [eq_comm])
theorem State.recall_mem_eq (s : State) (line : Nat) (bump : Bool) :
    (s.recall line bump).mem = (s.keeper line).elim s.mem fun x => Mem.storeAll s.mem (line * 128) x.data := by
  cases h : (s.home line).owner with
  | none => rw [State.recall_of_unowned h, State.keeper_of_owner_none h]; rfl
  | some l =>
    obtain ⟨p, e⟩ := State.recall_of_owned h bump
    rw [e]
    exact (State.dropCopy_mem s l line).trans (by rw [State.keeper, h]; rfl)
@[simp] theorem State.recall_offHome (s : State) (line : Nat) (bump : Bool) : (s.recall line bump).offHome = s.offHome := by
  cases h : (s.home line).owner with
  | none => rw [State.recall_of_unowned h]
  | some l =>
    obtain ⟨p, e⟩ := State.recall_of_owned h bump
    rw [e]
    exact State.dropCopy_offHome s l line
@[simp] theorem State.recall_reqs (s : State) (line : Nat) (bump : Bool) : (s.recall line bump).reqs = s.reqs := by
  cases h : (s.home line).owner with
  | none => rw [State.recall_of_unowned h]
  | some l =>
    obtain ⟨p, e⟩ := State.recall_of_owned h bump
    rw [e]
    exact State.dropCopy_reqs s l line
theorem State.recall_keeper (s : State) (line : Nat) (bump : Bool) (n : Nat) :
    (s.recall line bump).keeper n = if n = line then none else s.keeper n := by
  split
  · exact State.keeper_of_owner_none (by rw [State.recall_home, if_pos ‹_›])
  · exact State.keeper_congr (by rw [State.recall_home, if_neg ‹_›]) fun c => by rw [State.recall_ownedLine, if_neg (by simp [*])]
/-- A recall brings to memory what its home serves of the line, and leaves the rest of memory. -/
theorem State.recall_byte {s : State} (w : LinesWhole s) (line : Nat) (bump : Bool) (k : Nat) :
    Mem.byte (s.recall line bump).mem k = if k / 128 = line then s.homeByte k else Mem.byte s.mem k := by
  rw [State.recall_mem_eq, State.homeByte_eq]
  cases hk : s.keeper line with
  | none =>
    split
    · subst line; rw [hk]; rfl
    · rfl
  | some x =>
    have hx := State.keeper_whole w hk
    split
    · subst line
      rw [hk]
      have e := Mem.byte_storeAll_in x.data s.mem (k / 128 * 128) (k % 128) (by omega)
      rw [show k / 128 * 128 + k % 128 = k by omega] at e
      simpa [List.getD_eq_getElem?_getD, show k % 128 < x.data.length by omega] using e
    · exact Mem.byte_storeAll_other _ _ _ _ (by omega)
/-- A recall changes no byte as its home serves it. -/
theorem State.recall_homeByte {s : State} (w : LinesWhole s) (line : Nat) (bump : Bool) (k : Nat) :
    (s.recall line bump).homeByte k = s.homeByte k := by
  by_cases h : k / 128 = line
  · rw [State.homeByte_of_keeper_none (by rw [State.recall_keeper, if_pos h]), State.recall_byte w, if_pos h]
  · exact State.homeByte_congr (by rw [State.recall_keeper, if_neg h]) (by rw [State.recall_byte w, if_neg h])
theorem linesWhole_iff {s : State} : LinesWhole s ↔ ∀ c n x, s.ownedLine c n = some x → x.data.length = 128 :=
  ⟨fun w c n x h => w c n x (State.ownedLine_eq_some.mp h).1 (State.ownedLine_eq_some.mp h).2,
    fun w c n x hf ho => w c n x (State.ownedLine_eq_some.mpr ⟨hf, ho⟩)⟩
theorem State.recall_linesWhole {s : State} (w : LinesWhole s) (line : Nat) (bump : Bool) : LinesWhole (s.recall line bump) := by
  refine linesWhole_iff.mpr fun c n x h => ?_
  rw [State.recall_ownedLine] at h
  split at h
  · cases h
  · exact linesWhole_iff.mp w c n x h
theorem State.recall_ownersWhole {s : State} (w : OwnersWhole s) (line : Nat) (bump : Bool) : OwnersWhole (s.recall line bump) := by
  refine ⟨State.recall_linesWhole w.1 line bump, fun n c => ?_⟩
  rw [State.recall_home, State.recall_ownedLine]
  by_cases hn : n = line
  · subst n
    have := w.2 line c
    by_cases hc : (s.home line).owner = some c
    · simp [hc]
    · simpa [hc] using this
  · simpa [hn] using w.2 n c
/-- The copy that keeps a line is the one that the L1 named by the home owns. -/
theorem State.keeper_of_ownedLine {s : State} (w : OwnersWhole s) {c n : Nat} {x : Line} (h : s.ownedLine c n = some x) : s.keeper n = some x := by
  rw [State.keeper, (w.2 n c).mpr (by rw [h]; rfl)]
  exact h

/-! ### Writes at the homes (R161, R176) -/

theorem overlay_length (key k : Nat) (bs new : List Byte) : (overlay key bs k new).length = bs.length := by simp [overlay]
theorem overlay_getD (key k : Nat) (bs new : List Byte) {i : Nat} (h : i < bs.length) :
    (overlay key bs k new).getD i 0 = if k ≤ key + i ∧ key + i < k + new.length then new.getD (key + i - k) 0 else bs.getD i 0 := by
  simp [overlay, List.getD_eq_getElem?_getD, List.getElem?_range h]

/-- The bytes that a write of bs from a key on leaves as f gave them before. -/
def written (key : Nat) (bs : List Byte) (f : Nat → Byte) (q : Nat) : Byte :=
  if key ≤ q ∧ q < key + bs.length then bs.getD (q - key) 0 else f q
theorem Mem.byte_storeAll (m : Tab Byte) (key : Nat) (bs : List Byte) (q : Nat) :
    Mem.byte (Mem.storeAll m key bs) q = written key bs (Mem.byte m) q := by
  rw [written]
  split
  · obtain ⟨i, rfl⟩ := Nat.exists_eq_add_of_le ‹_ ∧ _›.1
    rw [Mem.byte_storeAll_in _ _ _ _ (by omega)]
    simp [List.getD_eq_getElem?_getD, show i < bs.length by omega]
  · exact Mem.byte_storeAll_other _ _ _ _ (by omega)
theorem written_append (key : Nat) (a b : List Byte) (f : Nat → Byte) (q : Nat) :
    written (key + a.length) b (written key a f) q = written key (a ++ b) f q := by
  simp only [written, List.length_append, List.getD_eq_getElem?_getD]
  by_cases h1 : key + a.length ≤ q ∧ q < key + a.length + b.length
  · rw [if_pos h1, if_pos (by omega), List.getElem?_append_right (by omega)]
    congr 2; omega
  · rw [if_neg h1]
    by_cases h2 : key ≤ q ∧ q < key + a.length
    · rw [if_pos h2, if_pos (by omega), List.getElem?_append_left (by omega)]
    · rw [if_neg h2, if_neg (by omega)]

/-- t is s after its homes took bs from a key on, with time as the write time of each line of it. -/
structure State.Wrote (s t : State) (time key : Nat) (bs : List Byte) : Prop where
  bytes : ∀ q, t.homeByte q = written key bs s.homeByte q
  whole : OwnersWhole t
  lease : ∀ n, (t.home n).lease = (s.home n).lease
  stamp : ∀ n, (t.home n).stamp = time ∨ (t.home n).stamp = (s.home n).stamp ∧ ∀ q, key ≤ q → q < key + bs.length → q / 128 ≠ n
  reqs : t.reqs = s.reqs
  off : t.offHome = s.offHome

theorem State.Wrote.nil {s : State} (w : OwnersWhole s) (time key : Nat) : s.Wrote s time key [] :=
  ⟨fun q => by simp only [written, List.length_nil]; rw [if_neg (by omega)], w, fun _ => rfl,
    fun _ => .inr ⟨rfl, fun q h1 h2 => absurd h2 (by simp only [List.length_nil]; omega)⟩, rfl, rfl⟩
theorem State.Wrote.trans {s t u : State} {time key : Nat} {a b : List Byte} (h : s.Wrote t time key a)
    (h' : t.Wrote u time (key + a.length) b) : s.Wrote u time key (a ++ b) where
  bytes q := by rw [h'.bytes, funext h.bytes, written_append]
  whole := h'.whole
  lease n := (h'.lease n).trans (h.lease n)
  stamp n := by
    obtain h2 | ⟨h2, h3⟩ := h'.stamp n
    · exact .inl h2
    · obtain h4 | ⟨h4, h5⟩ := h.stamp n
      · exact .inl (h2.trans h4)
      · refine .inr ⟨h2.trans h4, fun q hq hl => ?_⟩
        rw [List.length_append] at hl
        by_cases hc : q < key + a.length
        · exact h5 q hq hc
        · exact h3 q (by omega) (by omega)
  reqs := h'.reqs.trans h.reqs
  off := h'.off.trans h.off

theorem linesOf_within {key n : Nat} (h0 : 0 < n) (h : key % 128 + n ≤ 128) : linesOf key n = [key / 128] := by
  have : (key % 128 + n + 127) / 128 = 1 := by omega
  simp [linesOf, this]
theorem State.homeWrite_within (s : State) {key : Nat} {bs : List Byte} (h0 : 0 < bs.length) (h : key % 128 + bs.length ≤ 128) :
    s.homeWrite key bs = { s.recall (key / 128) true with mem := Mem.storeAll (s.recall (key / 128) true).mem key bs } := by
  simp only [State.homeWrite, linesOf_within h0 h, List.foldl_cons, List.foldl_nil]

/-- A write within a line that no L1 of the writer owns: the home takes the line back, and the bytes go to memory. -/
theorem State.commit_unowned {s : State} {l1 time key : Nat} {bs : List Byte} (ho : s.ownedLine l1 (key / 128) = none)
    (h0 : 0 < bs.length) (h : key % 128 + bs.length ≤ 128) :
    s.commit l1 time key bs = (({ s.recall (key / 128) true with mem := Mem.storeAll (s.recall (key / 128) true).mem key bs } : State).soil
      (key / 128)).setHome (key / 128) { s.home (key / 128) with owner := none, stamp := time } := by
  unfold State.commit
  simp only [ho, State.homeWrite_within s h0 h, State.soil_home]
  have : ({ s.recall (key / 128) true with mem := Mem.storeAll (s.recall (key / 128) true).mem key bs } : State).home (key / 128) =
      { s.home (key / 128) with owner := none } := (State.recall_home s (key / 128) true (key / 128)).trans (if_pos rfl)
  rw [this]
theorem State.commit_owned {s : State} {l1 time key : Nat} {bs : List Byte} {x : Line} (ho : s.ownedLine l1 (key / 128) = some x) :
    s.commit l1 time key bs = (s.setL1 l1 (Tab.put (s.l1At l1) (key / 128)
      { x with data := overlay (key / 128 * 128) x.data key bs, stamp := time })).setHome (key / 128) { s.home (key / 128) with stamp := time } := by
  unfold State.commit
  simp only [ho, State.home_setL1]

theorem State.commit_owned_wrote {s : State} (w : OwnersWhole s) {l1 : Nat} (time : Nat) {key : Nat} {bs : List Byte} {x : Line}
    (ho : s.ownedLine l1 (key / 128) = some x) (h : key % 128 + bs.length ≤ 128) :
    s.Wrote (s.commit l1 time key bs) time key bs := by
  obtain ⟨hf, hw⟩ := State.ownedLine_eq_some.mp ho
  have hx := linesWhole_iff.mp w.1 _ _ _ ho
  rw [State.commit_owned ho]
  generalize ht : State.setHome _ _ _ = t
  have home : ∀ n, t.home n = if n = key / 128 then { s.home (key / 128) with stamp := time } else s.home n :=
    fun n => by rw [← ht, State.home_setHome]; rfl
  have owned : ∀ c n, t.ownedLine c n = if c = l1 ∧ n = key / 128 then
      some { x with data := overlay (key / 128 * 128) x.data key bs, stamp := time } else s.ownedLine c n := by
    intro c n
    rw [← ht, State.ownedLine_setHome, State.ownedLine_setL1]
    by_cases hc : c = l1
    · subst c
      by_cases hn : n = key / 128
      · subst n; simp [Tab.find_put_same, Option.filter, hw]
      · rw [Tab.find_put_other _ _ _ _ hn]; simp [hn, State.ownedLine]
    · simp [hc]
  have keep : t.keeper (key / 128) = some { x with data := overlay (key / 128 * 128) x.data key bs, stamp := time } := by
    have hk : (s.home (key / 128)).owner = some l1 := (w.2 _ _).mpr (by rw [ho]; rfl)
    rw [State.keeper, home, if_pos rfl, hk, Option.bind_some, owned, if_pos ⟨rfl, rfl⟩]
  have mem : t.mem = s.mem := by rw [← ht]; rfl
  refine ⟨fun q => ?_, ⟨linesWhole_iff.mpr fun c n y hy => ?_, fun n c => ?_⟩, fun n => ?_, fun n => ?_, by rw [← ht]; rfl, by rw [← ht]; rfl⟩
  · by_cases hq : q / 128 = key / 128
    · rw [State.homeByte_eq t, hq, keep, Option.elim_some, overlay_getD _ _ _ _ (by omega), written, State.homeByte_eq s, hq, State.keeper_of_ownedLine w ho,
        Option.elim_some, show key / 128 * 128 + q % 128 = q by omega]
    · rw [written, if_neg (by omega)]
      refine State.homeByte_congr ?_ (by rw [mem])
      exact State.keeper_congr (by rw [home, if_neg hq]) fun c => by rw [owned, if_neg (by simp [hq])]
  · rw [owned] at hy
    split at hy
    · cases hy; exact (overlay_length _ _ _ _).trans hx
    · exact linesWhole_iff.mp w.1 c n y hy
  · rw [home, owned]
    have h1 := w.2 n c
    by_cases hc : c = l1 ∧ n = key / 128
    · obtain ⟨rfl, rfl⟩ := hc
      simpa [ho] using h1
    · rw [if_neg hc]
      by_cases hn : n = key / 128
      · subst n; simpa using h1
      · rwa [if_neg hn]
  · rw [home]; split
    · subst n; rfl
    · rfl
  · rw [home]; split
    · exact .inl rfl
    · exact .inr ⟨rfl, fun q h1 h2 => by omega⟩

theorem State.commit_unowned_wrote {s : State} (w : OwnersWhole s) {l1 : Nat} (time : Nat) {key : Nat} {bs : List Byte}
    (ho : s.ownedLine l1 (key / 128) = none) (h0 : 0 < bs.length) (h : key % 128 + bs.length ≤ 128) :
    s.Wrote (s.commit l1 time key bs) time key bs := by
  rw [State.commit_unowned ho h0 h]
  have wr := State.recall_ownersWhole w (key / 128) true
  generalize ht : State.setHome _ _ _ = t
  have home : ∀ n, t.home n = if n = key / 128 then { s.home (key / 128) with owner := none, stamp := time } else s.home n := by
    intro n
    rw [← ht, State.home_setHome, State.soil_home]
    by_cases hn : n = key / 128
    · rw [if_pos hn, if_pos hn]
    · rw [if_neg hn, if_neg hn]; exact (State.recall_home s _ true n).trans (if_neg hn)
  have owned : ∀ c n, t.ownedLine c n = (s.recall (key / 128) true).ownedLine c n := by
    intro c n; rw [← ht, State.ownedLine_setHome, State.soil_ownedLine]; rfl
  have mem : ∀ q, Mem.byte t.mem q = written key bs (Mem.byte (s.recall (key / 128) true).mem) q := by
    intro q; rw [← ht, State.setHome_mem, State.soil_mem, Mem.byte_storeAll]
  refine ⟨fun q => ?_, ⟨linesWhole_iff.mpr fun c n y hy => ?_, fun n c => ?_⟩, fun n => ?_, fun n => ?_, ?_, ?_⟩
  · by_cases hq : q / 128 = key / 128
    · rw [State.homeByte_of_keeper_none (State.keeper_of_owner_none (by rw [home, if_pos hq])), mem, written, written,
        State.recall_byte w.1, if_pos hq]
    · have e : t.keeper (q / 128) = s.keeper (q / 128) :=
        (State.keeper_congr (by rw [home, if_neg hq, State.recall_home, if_neg hq]) fun c => owned c _).trans
          ((State.recall_keeper s _ true _).trans (if_neg hq))
      rw [written, if_neg (by omega)]
      refine State.homeByte_congr e ?_
      rw [mem, written, if_neg (by omega), State.recall_byte w.1, if_neg hq]
  · rw [owned] at hy; exact linesWhole_iff.mp wr.1 c n y hy
  · have h1 := wr.2 n c
    rw [State.recall_home] at h1
    rw [home, owned, ← h1]
    by_cases hn : n = key / 128
    · rw [if_pos hn, if_pos hn]
    · rw [if_neg hn, if_neg hn]
  · rw [home]; split
    · subst n; rfl
    · rfl
  · rw [home]; split
    · exact .inl rfl
    · exact .inr ⟨rfl, fun q h1 h2 => by omega⟩
  · rw [← ht, State.setHome_reqs, State.soil_reqs]; exact State.recall_reqs s _ true
  · rw [← ht, State.setHome_offHome, State.soil_offHome]; exact State.recall_offHome s _ true
theorem State.commit_wrote {s : State} (w : OwnersWhole s) (l1 time : Nat) {key : Nat} {bs : List Byte}
    (h0 : 0 < bs.length) (h : key % 128 + bs.length ≤ 128) : s.Wrote (s.commit l1 time key bs) time key bs := by
  cases ho : s.ownedLine l1 (key / 128) with
  | none => exact State.commit_unowned_wrote w time ho h0 h
  | some x => exact State.commit_owned_wrote w time ho h
end Sys2Proof.Machine
end

section
/-! Records that the chip writes to its rings (R265, R266): what they leave where no write waits at their lines. -/

namespace Sys2Proof.Machine

/-- Nothing waits at the lines of n bytes from a key on, and no lease of theirs goes on. -/
def State.Clear (s : State) (key n : Nat) : Prop :=
  ∀ q, key ≤ q → q < key + n → LineFree s (q / 128) ∧ (s.home (q / 128)).lease ≤ s.ptb

theorem State.Clear.sub {s : State} {key n key' n' : Nat} (h : s.Clear key n) (h1 : key ≤ key') (h2 : key' + n' ≤ key + n) :
    s.Clear key' n' := fun q hq hl => h q (by omega) (by omega)
theorem State.Wrote.ptb_eq {s t : State} {time key : Nat} {bs : List Byte} (h : s.Wrote t time key bs) : t.ptb = s.ptb := by
  show t.offHome.ptb = s.offHome.ptb; rw [h.off]
theorem State.Clear.of_wrote {s t : State} {time key n key' : Nat} {bs : List Byte} (h : s.Clear key n) (w : s.Wrote t time key' bs) :
    t.Clear key n := by
  intro q h1 h2
  obtain ⟨hf, hl⟩ := h q h1 h2
  refine ⟨?_, by rw [w.lease, w.ptb_eq]; exact hl⟩
  simpa only [LineFree, State.pendingOn, State.heldOn, w.reqs] using hf
theorem State.Clear.wctNow {s : State} {key n : Nat} (h : s.Clear key n) (h0 : 0 < n) : s.wctNow key = s.ptb := by
  have := (h key (Nat.le_refl _) (by omega)).2
  simp only [State.wctNow]; omega
theorem State.Clear.busyOn {s : State} {key n : Nat} (h : s.Clear key n) (h0 : 0 < n) : s.busyOn (key / 128) = false := by
  obtain ⟨⟨hp, hh⟩, -⟩ := h key (Nat.le_refl _) (by omega)
  simp [State.busyOn, hp, hh]
theorem State.Clear.arrive {s : State} {key : Nat} {bs : List Byte} (h : s.Clear key bs.length) (h0 : 0 < bs.length) :
    s.arrive .part none key bs = s.commit noL1 s.ptb key bs := by
  unfold State.arrive
  simp only [h.busyOn h0, h.wctNow h0, Option.isSome_none, Bool.false_and, Bool.false_eq_true, if_false, State.landed, State.stampOf]

/-- The pieces of a write that lie in its first lines have written what they hold. -/
theorem State.arrives_wrote {s : State} (w : OwnersWhole s) {key : Nat} {bs : List Byte} (hc : s.Clear key bs.length) (h0 : 0 < bs.length) (j : Nat)
    (hj : j ≤ (key % 128 + bs.length + 127) / 128) :
    s.Wrote ((((List.range j).map (key / 128 + ·)).map fun n =>
      (max key (n * 128), (bs.drop (n * 128 - key)).take (n * 128 + 128 - max key (n * 128)))).foldl
        (fun s p => s.arrive .part none p.1 p.2) s) s.ptb key (bs.take (j * 128 - key % 128)) := by
  induction j with
  | zero => simpa using State.Wrote.nil w s.ptb key
  | succ j ih =>
    have ih := ih (by omega)
    rw [List.range_succ, List.map_append, List.map_append, List.foldl_append]
    generalize List.foldl _ s _ = t at ih ⊢
    have hm : max key ((key / 128 + j) * 128) = key + (j * 128 - key % 128) := by omega
    have hd : (key / 128 + j) * 128 - key = j * 128 - key % 128 := by omega
    simp only [List.map_cons, List.map_nil, List.foldl_cons, List.foldl_nil, hm, hd]
    generalize ho : j * 128 - key % 128 = o at *
    generalize hz : (key / 128 + j) * 128 + 128 - (key + o) = z
    have hlen : ((bs.drop o).take z).length = min z (bs.length - o) := by simp
    have hclear : t.Clear (key + o) ((bs.drop o).take z).length := (hc.of_wrote ih).sub (by omega) (by omega)
    have hw := State.commit_wrote ih.whole noL1 t.ptb (key := key + o) (bs := (bs.drop o).take z) (by omega) (by omega)
    rw [← hclear.arrive (by omega), ih.ptb_eq] at hw
    have ht : bs.take ((j + 1) * 128 - key % 128) = bs.take o ++ (bs.drop o).take z := by
      rw [← List.take_add]; congr 1; omega
    have hl : (bs.take o).length = o := by simp; omega
    rw [ht]
    exact ih.trans (by rw [hl]; exact hw)

/-- A write at free lines is at its homes at once. -/
theorem State.write_wrote {s : State} (w : OwnersWhole s) {key : Nat} {bs : List Byte} (hc : s.Clear key bs.length) (h0 : 0 < bs.length) :
    s.Wrote (s.write .part none key bs) s.ptb key bs := by
  have h := State.arrives_wrote w hc h0 _ (Nat.le_refl _)
  rwa [List.take_of_length_le (by omega)] at h

theorem State.releaseStore_wrote {s : State} (w : OwnersWhole s) {scope key time : Nat} {b : Byte} (hc : s.Clear key 1)
    (ht : time ≤ s.ptb) : s.Wrote (s.releaseStore scope key [b] time) s.ptb key [b] := by
  unfold State.releaseStore
  simp only [hc.busyOn Nat.one_pos, hc.wctNow Nat.one_pos, Nat.max_eq_right ht, Bool.false_eq_true, if_false, Nat.lt_irrefl]
  exact State.commit_wrote w noL1 s.ptb (by simp) (by simp; omega)

/-- Bytes of consecutive keys are one run. -/
theorem runsOf_consecutive (bs : List Byte) : ∀ k, bs ≠ [] → runsOf (((List.range bs.length).map (k + ·)).zip bs) = [(k, bs)] := by
  induction bs with
  | nil => exact fun _ h => absurd rfl h
  | cons b bs ih =>
    intro k _
    have hz : ((List.range (b :: bs).length).map (k + ·)).zip (b :: bs) = (k, b) :: ((List.range bs.length).map (k + 1 + ·)).zip bs := by
      rw [List.length_cons, List.range_succ_eq_map, List.map_cons, List.map_map, List.zip_cons_cons]
      congr 3
      funext i; simp only [Function.comp]; omega
    rw [hz]
    cases bs with
    | nil => simp [runsOf]
    | cons c cs => rw [runsOf, ih (k + 1) (List.cons_ne_nil _ _)]; simp
theorem foldl_max_le (l : List Nat) (f : Nat → Nat) (b n : Nat) (hb : b ≤ n) (h : ∀ x ∈ l, f x ≤ n) : (l.map f).foldl max b ≤ n := by
  induction l generalizing b with
  | nil => exact hb
  | cons x l ih => exact ih _ (Nat.max_le.mpr ⟨hb, h x List.mem_cons_self⟩) fun y hy => h y (List.mem_cons_of_mem _ hy)

/-- A record stands where it is written, its last byte of 0x3F after the others (R265). -/
theorem State.recordWrite_stands (s : State) (i : Nat) (slice va : Word) (r : List Byte) : Stands s (s.recordWrite i slice va r) i va r := by
  intro k hk w hclear n hn
  have hc : s.Clear k r.length := fun q h1 h2 => by simpa [Nat.add_sub_cancel' h1] using hclear (q - k) (by omega)
  have hne : r ≠ [] := by rintro rfl; simp at hn
  unfold State.recordWrite
  simp only [hk]
  have hr : runsOf (((List.range r.length).map (k + ·)).zip (r.set 0x3F 0)) = [(k, r.set 0x3F 0)] := by
    have := runsOf_consecutive (r.set 0x3F 0) k (by simpa using hne)
    rwa [List.length_set] at this
  rw [hr, List.foldl_cons, List.foldl_nil]
  have h1 : s.Wrote (s.write .part none k (r.set 0x3F 0)) s.ptb k (r.set 0x3F 0) := State.write_wrote w (by rwa [List.length_set]) (by simp; omega)
  generalize s.write .part none k (r.set 0x3F 0) = t at h1 ⊢
  have hb : t.homeByte (k + n) = (r.set 0x3F 0).getD n 0 := by
    rw [h1.bytes, written, List.length_set, if_pos (by omega), Nat.add_sub_cancel_left]
  by_cases hl : 0x3F < r.length
  · rw [List.getElem?_map, List.getElem?_range hl, Option.map_some]
    have hd : (r.drop 0x3F).take 1 = [r.getD 0x3F 0] := by
      rw [List.drop_eq_getElem_cons hl, List.take_succ_cons, List.take_zero, List.getD_eq_getElem?_getD, List.getElem?_eq_getElem hl]; rfl
    simp only [hd]
    have htime : (((List.range r.length).map (k + ·)).map fun k => (t.home (k / 128)).stamp).foldl max 0 ≤ t.ptb := by
      refine foldl_max_le _ _ _ _ (Nat.zero_le _) fun q hq => ?_
      obtain ⟨j, hj, rfl⟩ := List.mem_map.mp hq
      rw [List.mem_range] at hj
      obtain he | ⟨-, hx⟩ := h1.stamp ((k + j) / 128)
      · rw [he, h1.ptb_eq]
      · exact absurd rfl (hx (k + j) (by omega) (by rw [List.length_set]; omega))
    have h2 := State.releaseStore_wrote h1.whole (scope := 2) (b := r.getD 0x3F 0) ((hc.of_wrote h1).sub (key' := k + 0x3F) (n' := 1) (by omega) (by omega)) htime
    rw [h2.bytes, written, hb, List.length_singleton]
    by_cases he : n = 0x3F
    · subst n; simp
    · rw [if_neg (by omega)]; simp [List.getD_eq_getElem?_getD, Ne.symm he]
  · have hs : r.set 0x3F 0 = r := List.set_eq_of_length_le (by omega)
    rw [List.getElem?_eq_none (by simp; omega)]
    exact hb.trans (by rw [hs])

theorem State.same_of_offHome {α : Type} {s t : State} (h : t.offHome = s.offHome) (f : State → α) (hf : ∀ u, f u.offHome = f u) :
    f t = f s := by rw [← hf t, h, hf]

/-! What every write at homes leaves, where requests wait too. -/

theorem State.enqueue_offHome (s : State) (src : Source) (scope : Option Nat) (key : Nat) (bs : List Byte) (st : ReqState) :
    (s.enqueue src scope key bs st).offHome = s.offHome := rfl
theorem State.homeWrite_offHome (s : State) (key : Nat) (bs : List Byte) : (s.homeWrite key bs).offHome = s.offHome := by
  have h : ((linesOf key bs.length).foldl (fun s n => s.recall n true) s).offHome = s.offHome :=
    foldl_keeps (p := fun t => t.offHome = s.offHome) _ (fun t n h => (State.recall_offHome t n true).trans h) _ s rfl
  exact h
theorem State.commit_offHome (s : State) (l1 time key : Nat) (bs : List Byte) : (s.commit l1 time key bs).offHome = s.offHome := by
  unfold State.commit
  dsimp only
  rw [State.setHome_offHome]
  cases s.ownedLine l1 (key / 128) with
  | none => exact (State.soil_offHome _ _).trans (s.homeWrite_offHome key bs)
  | some x => rfl
theorem State.arrive_part_offHome (s : State) (scope : Option Nat) (key : Nat) (bs : List Byte) :
    (s.arrive .part scope key bs).offHome = s.offHome := by
  unfold State.arrive
  simp only [State.landed, State.stampOf]
  split
  · exact s.enqueue_offHome ..
  · split
    · exact s.enqueue_offHome ..
    · exact s.commit_offHome ..
theorem State.write_part_offHome (s : State) (scope : Option Nat) (key : Nat) (bs : List Byte) :
    (s.write .part scope key bs).offHome = s.offHome :=
  foldl_keeps (p := fun t => t.offHome = s.offHome) _ (fun t p h => (t.arrive_part_offHome scope p.1 p.2).trans h) _ s rfl
theorem State.releaseStore_offHome (s : State) (scope key : Nat) (bs : List Byte) (time : Nat) :
    (s.releaseStore scope key bs time).offHome = s.offHome := by
  unfold State.releaseStore
  dsimp only
  split
  · exact s.enqueue_offHome ..
  · split
    · exact s.enqueue_offHome ..
    · exact s.commit_offHome ..
/-- A record is written at homes alone, or its ring cannot be translated and a tenant is told (R265). -/
theorem State.recordWrite_offHome (s : State) (i : Nat) (slice va : Word) (r : List Byte) :
    (s.recordWrite i slice va r).offHome = s.offHome ∨ ∃ a, s.recordWrite i slice va r = s.wiredFault (tenantOfSlice slice) a := by
  unfold State.recordWrite
  cases s.partKeys (s.ctxOf (.core i)) va r.length with
  | error e => exact .inr ⟨e.2, rfl⟩
  | ok ks =>
    left
    have h : ((runsOf (ks.zip (r.set 0x3F 0))).foldl (fun s p => s.write .part none p.1 p.2) s).offHome = s.offHome :=
      foldl_keeps (p := fun t => t.offHome = s.offHome) _ (fun t p h => (t.write_part_offHome none p.1 p.2).trans h) _ s rfl
    dsimp only
    cases ks[0x3F]? with
    | none => exact h
    | some k => exact (State.releaseStore_offHome ..).trans h
end Sys2Proof.Machine
end

section
/-! What the state of memory, rings and cores tells is not changed by what an issue counts (R22, R265). -/

namespace Sys2Proof.Machine

/-- The state without its workgroups, what their cores hold for them, the accounts of its slices, and whose turn it is. -/
def State.ground (s : State) : State :=
  { s with
    wgs := [], slices := [], serialNo := 0, owedUnits := [], free := 0, cur := .core 0, mask := 0, walks := [], asks := [], cores := [] }

theorem State.same_of_ground {α : Type} {s t : State} (h : t.ground = s.ground) (f : State → α) (hf : ∀ u, f u.ground = f u) :
    f t = f s := by rw [← hf t, h, hf]

@[simp] theorem State.ground_ptb (s : State) : s.ground.ptb = s.ptb := rfl
@[simp] theorem State.ground_scalar (s : State) (i : Nat) : s.ground.scalar i = s.scalar i := rfl
@[simp] theorem State.ground_launch (s : State) (l : Nat) : s.ground.launch l = s.launch l := rfl
@[simp] theorem State.ground_held (s : State) (c : Nat) : s.ground.held c = s.held c := rfl
@[simp] theorem State.ground_home (s : State) (n : Nat) : s.ground.home n = s.home n := rfl
@[simp] theorem State.ground_homeByte (s : State) (k : Nat) : s.ground.homeByte k = s.homeByte k := rfl
@[simp] theorem State.ground_homeRead (s : State) (k n : Nat) : s.ground.homeRead k n = s.homeRead k n := rfl
@[simp] theorem State.ground_poisoned (s : State) (k : Nat) : s.ground.poisoned k = s.poisoned k := rfl
@[simp] theorem State.ground_route (s : State) (a : Nat) : s.ground.route a = s.route a := rfl
@[simp] theorem State.ground_rootFor (s : State) (c : Ctx) (va : Word) : s.ground.rootFor c va = s.rootFor c va := rfl
@[simp] theorem State.ground_translate (s : State) (c : Ctx) (kind : Nat) (va : Word) : s.ground.translate c kind va = s.translate c kind va := rfl
@[simp] theorem State.ground_place (s : State) (t : Tlb) (kind : Nat) (va : Word) : s.ground.place t kind va = s.place t kind va := rfl
@[simp] theorem State.ground_ctxOf_core (s : State) (i : Nat) : s.ground.ctxOf (.core i) = s.ctxOf (.core i) := rfl
@[simp] theorem State.ground_lineFree (s : State) (n : Nat) : LineFree s.ground n ↔ LineFree s n := Iff.rfl
@[simp] theorem State.ground_ownersWhole (s : State) : OwnersWhole s.ground ↔ OwnersWhole s := Iff.rfl

@[simp] theorem State.ground_walkFrom (s : State) (user : Bool) (va l : Nat) : ∀ ppn, s.ground.walkFrom user va l ppn = s.walkFrom user va l ppn := by
  induction l with
  | zero => intro ppn; unfold State.walkFrom; simp only [State.ground_route, State.ground_homeRead] <;> rfl
  | succ l ih => intro ppn; unfold State.walkFrom; simp only [State.ground_route, State.ground_homeRead, ih] <;> rfl
@[simp] theorem State.ground_xlateNow (s : State) (c : Ctx) (kind : Nat) (va : Word) : s.ground.xlateNow c kind va = s.xlateNow c kind va := by
  simp only [State.xlateNow, State.walkLeaf, State.ground_translate, State.ground_place, State.ground_walkFrom, State.ground_rootFor]
@[simp] theorem State.ground_partKeys (s : State) (c : Ctx) (n : Nat) : ∀ va, s.ground.partKeys c va n = s.partKeys c va n := by
  induction n with
  | zero => exact fun _ => rfl
  | succ n ih => intro va; simp only [State.partKeys, State.ground_xlateNow, ih]
@[simp] theorem State.ground_partRead (s : State) (c : Ctx) (n : Nat) : ∀ va, s.ground.partRead c va n = s.partRead c va n := by
  induction n with
  | zero => exact fun _ => rfl
  | succ n ih => intro va; simp only [State.partRead, State.ground_xlateNow, State.ground_poisoned, State.ground_homeByte, ih]
theorem State.ground_ownSight (s : State) : s.ground.ownSight = s.ownSight.ground :=
  List.foldl_hom State.ground (fun _ _ => rfl)
@[simp] theorem State.ground_ringKey (s : State) (i : Nat) (va : Word) : s.ground.ringKey i va = s.ringKey i va := by
  simp only [State.ringKey, State.ground_xlateNow, State.ground_poisoned, State.ground_ctxOf_core] <;> rfl
@[simp] theorem State.ground_ringRoom (s : State) (c : Nat) (call : Bool) : s.ground.ringRoom c call = s.ringRoom c call := by
  simp only [State.ringRoom, State.freeSlot, State.freeSlots, State.ground_scalar, State.ground_ptb, State.ground_ringKey,
    State.ground_ownSight, State.ground_homeByte]
@[simp] theorem State.ground_ringBroken (s : State) (c : Nat) (call : Bool) : s.ground.ringBroken c call = s.ringBroken c call := by
  simp only [State.ringBroken, State.ground_scalar, State.ground_ringRoom, State.ground_ringKey]
theorem stands_ground (s t : State) (c : Nat) (va : Word) (r : List Byte) : Stands s.ground t c va r ↔ Stands s t c va r := by
  simp only [Stands, State.ground_partKeys, State.ground_ctxOf_core, State.ground_ownersWhole, State.ground_lineFree, State.ground_home,
    State.ground_ptb]
end Sys2Proof.Machine
end

section
/-! Traps: what a gang's thread or a service core that traps leaves (R91, R265, R337), and the words of the other kind of core. -/

namespace Sys2Proof.Machine

/-! ### Fields of a record -/

theorem leNat_leBytes (n : Nat) : ∀ x, leNat (leBytes n x) = x % 256 ^ n := by
  induction n with
  | zero => intro x; simp [leBytes, leNat, Nat.mod_one]
  | succ n ih =>
    intro x
    rw [leBytes, leNat, ih, BitVec.toNat_ofNat, show 256 ^ (n + 1) = 256 * 256 ^ n from Nat.pow_succ', Nat.mod_mul]
@[simp] theorem leBytes_length (n : Nat) : ∀ x, (leBytes n x).length = n := by
  induction n with
  | zero => exact fun _ => rfl
  | succ n ih => intro x; rw [leBytes, List.length_cons, ih]
theorem Mem.bytes_storeAll_other (m : Tab Byte) (a : Nat) (bs : List Byte) (o n : Nat) (h : o + n ≤ a ∨ a + bs.length ≤ o) :
    Mem.bytes (Mem.storeAll m a bs) o n = Mem.bytes m o n := by
  refine List.map_congr_left fun i hi => ?_
  rw [List.mem_range] at hi
  exact Mem.byte_storeAll_other _ _ _ _ (by omega)
theorem Mem.bytes_storeAll_same (m : Tab Byte) (a : Nat) (bs : List Byte) : Mem.bytes (Mem.storeAll m a bs) a bs.length = bs := by
  refine List.ext_getElem (by simp [Mem.bytes]) fun i _ h => ?_
  simp only [Mem.bytes, List.getElem_map, List.getElem_range]
  exact Mem.byte_storeAll_in bs m a i h
theorem recAt_bytes (m : Tab Byte) {n o k : Nat} (h : o + k ≤ n) : recAt (Mem.bytes m 0 n) o k = leNat (Mem.bytes m o k) := by
  unfold recAt
  congr 1
  refine List.ext_getElem (by simp [Mem.bytes]; omega) fun i _ _ => ?_
  simp [Mem.bytes]
/-- A field that no later field of the record covers holds what was put there. -/
theorem recAt_mkRecord {n : Nat} (before after : List (Nat × Nat × Nat)) {o k v : Nat} (h : o + k ≤ n)
    (ha : ∀ f ∈ after, o + k ≤ f.1 ∨ f.1 + f.2.1 ≤ o) : recAt (mkRecord n (before ++ (o, k, v) :: after)) o k = v % 256 ^ k := by
  have keeps : ∀ m, Mem.bytes (after.foldl (fun m f => Mem.storeAll m f.1 (leBytes f.2.1 f.2.2)) m) o k = Mem.bytes m o k := by
    induction after with
    | nil => exact fun _ => rfl
    | cons f fs ih =>
      intro m
      rw [List.foldl_cons, ih fun f hf => ha f (List.mem_cons_of_mem _ hf)]
      exact Mem.bytes_storeAll_other _ _ _ _ _ (by rw [leBytes_length]; exact ha f List.mem_cons_self)
  rw [mkRecord, recAt_bytes _ h, List.foldl_append, List.foldl_cons, keeps]
  have := Mem.bytes_storeAll_same (before.foldl (fun m f => Mem.storeAll m f.1 (leBytes f.2.1 f.2.2)) []) o (leBytes k v)
  rw [leBytes_length] at this
  rw [this, leNat_leBytes]
@[simp] theorem faultRecord_length (now : Nat) (handle : Word) (m : LaneMask) (src : Nat) (tr : Trap) (slice : Word) (pasid : Nat) :
    (faultRecord now handle m src tr slice pasid).length = 64 := by simp [faultRecord, mkRecord, Mem.bytes]
/-- A fault record names its slice at 0x28 (Table 13.5). -/
theorem faultRecord_slice (now : Nat) (handle : Word) (m : LaneMask) (src : Nat) (tr : Trap) (slice : Word) (pasid : Nat) :
    recWord (faultRecord now handle m src tr slice pasid) 0x28 = slice := by
  have := recAt_mkRecord (n := 64) [(0, 8, now), (8, 8, handle.toNat), (0x10, 4, m.toNat), (0x14, 1, tr.code), (0x15, 1, src),
    (0x16, 2, tr.aux), (0x18, 8, tr.pc.toNat), (0x20, 8, tr.val.toNat)] [(0x30, 8, tr.copy.toNat), (0x38, 4, tr.tag),
    (0x3C, 3, pasid % 2 ^ 20), (0x3F, 1, 1)] (o := 0x28) (k := 8) (v := slice.toNat) (by omega) (by simp)
  refine BitVec.eq_of_toNat_eq ?_
  rw [recWord, BitVec.toNat_ofNat]
  have e : recAt (faultRecord now handle m src tr slice pasid) 0x28 8 = slice.toNat % 256 ^ 8 := this
  rw [e]
  have := slice.isLt
  omega

/-! ### Fault records of a cluster (R265) -/

theorem State.ringRoom_none_of_broken {s : State} {c : Nat} {call : Bool} {a : Word} (h : s.ringBroken c call = some a) :
    s.ringRoom c call = none := by
  revert h
  unfold State.ringBroken
  cases s.scalar c with
  | none => intro h; cases h
  | some k =>
    dsimp only
    cases s.ringRoom c call with
    | none => exact fun _ => rfl
    | some p => simp
theorem State.postFault_ring {s : State} {cl : Nat} {p : Word × Nat} (r : List Byte) (h : s.held cl = [])
    (hp : s.ringRoom cl false = some p) : s.postFault cl r = s.recordWrite cl (recWord r 0x28) (p.1 + BitVec.ofNat 64 (64 * p.2)) r := by
  simp only [State.postFault, h, hp]
theorem State.postFault_broken {s : State} {cl : Nat} {a : Word} (r : List Byte) (h : s.held cl = [])
    (hb : s.ringBroken cl false = some a) : s.postFault cl r = s.wiredFault (tenantOfSlice (recWord r 0x28)) a := by
  simp only [State.postFault, h, State.ringRoom_none_of_broken hb, hb]
theorem State.postFault_held {s : State} {cl : Nat} (r : List Byte)
    (h : s.held cl ≠ [] ∨ (s.ringRoom cl false = none ∧ s.ringBroken cl false = none)) :
    s.postFault cl r = { s with heldFaults := Tab.put s.heldFaults cl (s.held cl ++ [r]) } := by
  unfold State.postFault
  obtain h | ⟨h1, h2⟩ := h
  · cases e : s.held cl with
    | nil => exact absurd e h
    | cons a l => rfl
  · rw [h1, h2]
    cases s.held cl <;> rfl
/-- The three ends of a fault record. -/
theorem State.postFault_cases (s : State) (cl : Nat) (r : List Byte) :
    (∃ p, s.postFault cl r = s.recordWrite cl (recWord r 0x28) p r) ∨ (∃ n a, s.postFault cl r = s.wiredFault n a) ∨
    s.postFault cl r = { s with heldFaults := Tab.put s.heldFaults cl (s.held cl ++ [r]) } := by
  by_cases h : s.held cl = []
  · cases hp : s.ringRoom cl false with
    | some p => exact .inl ⟨_, State.postFault_ring r h hp⟩
    | none =>
      cases hb : s.ringBroken cl false with
      | some a => exact .inr (.inl ⟨_, a, State.postFault_broken r h hb⟩)
      | none => exact .inr (.inr (State.postFault_held r (.inr ⟨hp, hb⟩)))
  · exact .inr (.inr (State.postFault_held r (.inl h)))
theorem State.recordWrite_wgs (s : State) (i : Nat) (slice va : Word) (r : List Byte) :
    (s.recordWrite i slice va r).wgs = s.wgs ∧ (s.recordWrite i slice va r).scalars = s.scalars ∧
      (s.recordWrite i slice va r).heldFaults = s.heldFaults := by
  obtain h | ⟨a, h⟩ := s.recordWrite_offHome i slice va r
  · exact ⟨State.same_of_offHome h (·.wgs) fun _ => rfl, State.same_of_offHome h (·.scalars) fun _ => rfl,
      State.same_of_offHome h (·.heldFaults) fun _ => rfl⟩
  · rw [h]; exact ⟨rfl, rfl, rfl⟩
/-- A fault record changes no gang. -/
theorem State.postFault_gang (s : State) (cl : Nat) (r : List Byte) (a : Agent) : (s.postFault cl r).gang a = s.gang a := by
  have key : (s.postFault cl r).wgs = s.wgs ∧ (s.postFault cl r).scalars = s.scalars := by
    obtain ⟨p, h⟩ | ⟨n, b, h⟩ | h := s.postFault_cases cl r <;> rw [h]
    · exact ⟨(s.recordWrite_wgs _ _ p r).1, (s.recordWrite_wgs _ _ p r).2.1⟩
    · exact ⟨rfl, rfl⟩
    · exact ⟨rfl, rfl⟩
  cases a with
  | core i => simp only [State.gang, State.scalar, key.2]
  | gang w i => simp only [State.gang, State.wg, key.1]

/-- A fault record of a trap of a gang's threads is posted as R265 says. -/
theorem State.postFault_recorded (s : State) (i : Nat) (x : Workgroup) (r : Launch) (m : LaneMask) (tr : Trap) :
    Recorded s (s.postFault (clusterOf x.core) (faultRecord s.ptb (gangHandle x i 6) m 0 tr r.slice r.pasid)) i x r m tr where
  ring base j h hp := by
    rw [State.postFault_ring _ h hp]
    refine ⟨?_, State.recordWrite_stands _ _ _ _ _⟩
    rw [← h, State.held, State.held, (s.recordWrite_wgs _ _ _ _).2.2]
  held h := by
    rw [State.postFault_held _ h]
    simp only [State.held, Tab.at, Tab.find_put_same, Option.getD_some]
  broken a h hb := by
    rw [State.postFault_broken _ h hb, faultRecord_slice]
    exact ⟨h, rfl⟩
theorem recorded_of_ground {s s' t : State} {i : Nat} {x x' : Workgroup} {r r' : Launch} {m : LaneMask} {tr : Trap}
    (h : Recorded s' t i x' r' m tr) (e : s'.ground = s.ground) (hx : x'.core = x.core ∧ gangHandle x' i 6 = gangHandle x i 6)
    (hr : r'.slice = r.slice ∧ r'.pasid = r.pasid) : Recorded s t i x r m tr := by
  have hheld : ∀ c, s'.held c = s.held c := fun c => by rw [← s'.ground_held, e, s.ground_held]
  have hroom : ∀ c, s'.ringRoom c false = s.ringRoom c false := fun c => by rw [← s'.ground_ringRoom, e, s.ground_ringRoom]
  have hbrok : ∀ c, s'.ringBroken c false = s.ringBroken c false := fun c => by rw [← s'.ground_ringBroken, e, s.ground_ringBroken]
  have hptb : s'.ptb = s.ptb := State.same_of_ground e (·.ptb) fun _ => rfl
  obtain ⟨h1, h2, h3⟩ := h
  simp only [hheld, hroom, hbrok, hx.1, hx.2, hr.1, hr.2, hptb] at h1 h2 h3
  refine ⟨fun base j a b => ?_, h2, fun a b c => ?_⟩
  · obtain ⟨p, q⟩ := h1 base j a b
    exact ⟨p, (stands_ground ..).mp (e ▸ (stands_ground ..).mpr q)⟩
  · obtain ⟨p, q⟩ := h3 a b c
    exact ⟨p, q.trans (State.same_of_ground e (fun t => (t.wiredFault (tenantOfSlice r.slice) a).tenants) fun _ => rfl)⟩

/-! ### Threads that trap -/

theorem Gang.foldl_setStat (ls : List Nat) (st : Status) : ∀ g : Gang,
    (∀ l, (ls.foldl (fun g l => g.setStat l st) g).stat l = if l ∈ ls then st else g.stat l) ∧
    ∃ tb, ls.foldl (fun g l => g.setStat l st) g = { g with status := tb } := by
  induction ls with
  | nil => exact fun g => ⟨fun l => by simp, g.status, rfl⟩
  | cons a ls ih =>
    intro g
    obtain ⟨h1, tb, h2⟩ := ih (g.setStat a st)
    refine ⟨fun l => ?_, tb, h2⟩
    rw [List.foldl_cons, h1]
    simp only [List.mem_cons, Gang.setStat, Gang.stat, Tab.at_set]
    by_cases hl : l ∈ ls
    · simp [hl]
    · by_cases ha : l = a <;> simp [hl, ha]
/-- Setting the status of a group's threads changes theirs and no other. -/
theorem Gang.stat_each (g : Gang) (m : LaneMask) (st : Status) {l : Nat} (hl : l < 32) :
    (g.each m fun g l => g.setStat l st).stat l = if m.getLsbD l then st else g.stat l := by
  rw [Gang.each, (Gang.foldl_setStat (lanesOf m) st g).1]
  simp only [mem_lanesOf m l hl]
theorem Gang.each_setStat (g : Gang) (m : LaneMask) (st : Status) : ∃ tb, (g.each m fun g l => g.setStat l st) = { g with status := tb } :=
  (Gang.foldl_setStat (lanesOf m) st g).2

theorem maskOf_lanesOf (m : LaneMask) : maskOf (lanesOf m) = m := by
  refine BitVec.eq_of_getLsbD_eq fun i hi => ?_
  rw [maskOf_lane _ i hi, Bool.eq_iff_iff, decide_eq_true_iff, mem_lanesOf m i hi]
theorem lanesOf_ne_nil {m : LaneMask} (h : m ≠ 0) : lanesOf m ≠ [] := by
  intro e
  refine h (BitVec.eq_of_getLsbD_eq fun i hi => ?_)
  have := mem_lanesOf m i hi
  rw [e] at this
  simpa using this
theorem Trap.shares_self (tr : Trap) : tr.shares tr = true := by simp [Trap.shares]
theorem trapSets_const_from (ls : List Nat) (tr : Trap) : ∀ m, (ls.map fun l => (l, tr)).foldl (fun acc p =>
    if acc.any fun q => q.2.shares p.2 then acc.map fun q => if q.2.shares p.2 then (q.1 ||| laneBit p.1, q.2) else q
    else acc ++ [(laneBit p.1, p.2)]) [(m, tr)] = [(ls.foldl (fun m l => m ||| laneBit l) m, tr)] := by
  induction ls with
  | nil => exact fun _ => rfl
  | cons l ls ih =>
    intro m
    rw [List.map_cons, List.foldl_cons, List.foldl_cons, ← ih]
    simp [Trap.shares_self]
/-- Threads that trap alike make one set. -/
theorem trapSets_const {m : LaneMask} (h : m ≠ 0) (tr : Trap) : trapSets ((lanesOf m).map fun l => (l, tr)) = [(m, tr)] := by
  obtain ⟨l, ls, e⟩ := List.exists_cons_of_ne_nil (lanesOf_ne_nil h)
  have := trapSets_const_from ls tr (laneBit l)
  have hm : ls.foldl (fun m l => m ||| laneBit l) (laneBit l) = m := by
    rw [← maskOf_lanesOf m, e, maskOf, List.foldl_cons, show (0 : LaneMask) ||| laneBit l = laneBit l from BitVec.zero_or]
  rw [hm] at this
  rw [trapSets, e, List.map_cons, List.foldl_cons]
  exact this

theorem State.updGang_scalars (s : State) (w i : Nat) (f : Gang → Gang) : (s.updGang (.gang w i) f).scalars = s.scalars := by
  unfold State.updGang; cases s.gang (.gang w i) <;> rfl
/-- What an action of a gang leaves of the state besides gangs and accounts. -/
theorem OnlyGang.ground_eq {s t : State} {g : Gang} (h : OnlyGang s t g) (hs : t.scalars = s.scalars) : t.ground = s.ground := by
  have h1 : (t.withGangsOf s).ground = s.ground := by rw [h.rest]
  have h2 : t.ground = (t.withGangsOf s).ground := by
    unfold State.ground State.withGangsOf; rw [hs]
  exact h2.trans h1
/-- The threads of a group that trap alike (R91, R265): they are suspended, and one record is posted. -/
theorem State.raise_suspended {s : State} {g : Gang} {w i : Nat} {x : Workgroup} {r : Launch} (hcur : s.cur = .gang w i)
    (hx : s.wg w = some x) (hr : s.launchOf x = some r) (hg : Tab.find x.gangs i = some g) {m : LaneMask} (hm : m ≠ 0) (tr : Trap) :
    SuspendedIn s (s.raise s.cur ((lanesOf m).map fun l => (l, tr))) g i x r m tr := by
  have hi : s.gang s.cur = some g := by rw [hcur, State.gang, hx]; exact hg
  have h1 := OnlyGang.updGang s (fun x' => { (x'.each m fun x l => x.setStat l .fault) with
    faultLanes := x'.faultLanes ||| m, faultCluster := clusterOf x.core }) g hi
  have h2 := h1.trans (OnlyGang.count _ w 38 (((lanesOf m).map fun l => (l, tr)).filter fun p => p.2.code = 9).length _
    (by rw [h1.cur]; exact h1.issuer))
  have hmap : ((lanesOf m).map fun l => (l, tr)).map Prod.fst = lanesOf m := by
    rw [List.map_map]; exact List.map_id _
  have e : s.raise s.cur ((lanesOf m).map fun l => (l, tr)) =
      (((s.updGang s.cur fun x' => { (x'.each m fun x l => x.setStat l .fault) with
        faultLanes := x'.faultLanes ||| m, faultCluster := clusterOf x.core }).updWg w fun x =>
          x.count 38 (((lanesOf m).map fun l => (l, tr)).filter fun p => p.2.code = 9).length)).postFault (clusterOf x.core)
        (faultRecord s.ptb (gangHandle x i 6) m 0 tr r.slice r.pasid) := by
    rw [hcur]
    simp only [State.raise, hx, hmap, maskOf_lanesOf, trapSets_const hm, List.foldl_cons, List.foldl_nil]
    rw [hcur] at h2 h1
    have hl : State.launchOf ((s.updGang (.gang w i) fun x' => { (x'.each m fun x l => x.setStat l .fault) with
        faultLanes := x'.faultLanes ||| m, faultCluster := clusterOf x.core }).updWg w fun x =>
          x.count 38 (((lanesOf m).map fun l => (l, tr)).filter fun p => p.2.code = 9).length) x = some r := by
      have := congrArg (fun t : State => t.launchOf x) h2.rest
      exact this.trans hr
    rw [hl, h2.ptb]
    rfl
  rw [e]
  generalize ht : State.updWg _ _ _ = t at h2 ⊢
  have hgr : t.ground = s.ground := h2.ground_eq (by rw [← ht, hcur]; exact s.updGang_scalars w i _)
  obtain ⟨tb, hes⟩ := g.each_setStat m .fault
  refine ⟨⟨_, (t.postFault_gang _ _ _).trans h2.issuer, fun l hl => g.stat_each m .fault hl, ?_⟩, ?_, fun a ha => ?_⟩
  · rw [hes]; exact ⟨rfl, rfl, rfl, rfl, rfl, rfl⟩
  · have := t.postFault_recorded i x r m tr
    rw [h2.ptb] at this
    exact recorded_of_ground this hgr ⟨rfl, rfl⟩ ⟨rfl, rfl⟩
  · exact (t.postFault_gang _ _ _).trans (h2.others a ha)
/-- What a trap tells of a gang is the same in both. -/
def Gang.SameLanes (g g' : Gang) : Prop :=
  g'.v = g.v ∧ g'.s = g.s ∧ g'.g = g.g ∧ g'.pc = g.pc ∧ g'.fcr = g.fcr ∧ g'.faultLanes = g.faultLanes ∧ g'.status = g.status
theorem onCompute_issuer {s : State} {g : Gang} {w i : Nat} {x : Workgroup} {r : Launch} (h : OnCompute s g w i x r) :
    s.gang s.cur = some g := by rw [h.cur, State.gang, h.wg]; exact h.gang
/-- What an action of the issuing gang leaves of its place: the gang's workgroup and launch. -/
theorem OnlyGang.onCompute {s t : State} {g g' : Gang} {w i : Nat} {x : Workgroup} {r : Launch} (h : OnlyGang s t g')
    (o : OnCompute s g w i x r) : ∃ y, OnCompute t g' w i y r ∧ { y with gangs := x.gangs, perf := x.perf } = x := by
  obtain ⟨y, hy, e⟩ := h.workgroups w x o.wg
  refine ⟨y, ⟨h.cur.trans o.cur, hy, ?_, ?_, by rw [h.mask]; exact o.some⟩, e⟩
  · have h1 : t.launchOf y = (t.withGangsOf s).launchOf { y with gangs := x.gangs, perf := x.perf } := rfl
    rw [h1, h.rest, e]
    exact o.launch
  · have := h.issuer
    rw [o.cur, State.gang, hy] at this
    exact this
/-- Threads that trap alike after their instruction is counted are suspended as they were. -/
theorem OnlyGang.raise_suspended {s t : State} {g g' : Gang} {w i : Nat} {x : Workgroup} {r : Launch} (h : OnlyGang s t g')
    (o : OnCompute s g w i x r) (hs : t.scalars = s.scalars) (hl : g.SameLanes g') {m : LaneMask} (hm : m ≠ 0) (tr : Trap) :
    SuspendedIn s (t.raise t.cur ((lanesOf m).map fun l => (l, tr))) g i x r m tr := by
  obtain ⟨y, oy, e⟩ := h.onCompute o
  obtain ⟨hv, hs', hg, hp, hf, hfl, hst⟩ := hl
  obtain ⟨⟨g2, h1, h2, q1, q2, q3, q4, q5, q6⟩, hrec, hoth⟩ := State.raise_suspended oy.cur oy.wg oy.launch oy.gang hm tr
  rw [h.cur] at h1 hoth
  refine ⟨⟨g2, by rw [h.cur]; exact h1, fun l hl' => ?_, q1.trans hv, q2.trans hs', q3.trans hg, q4.trans hp, q5.trans hf, by rw [q6, hfl]⟩, ?_,
    fun a ha => by rw [h.cur]; exact (hoth a ha).trans (h.others a ha)⟩
  · rw [h2 l hl']
    simp only [Gang.stat, hst]
  · exact recorded_of_ground hrec (h.ground_eq hs) ⟨by rw [← e]; rfl, by rw [← e]; rfl⟩ ⟨rfl, rfl⟩

theorem State.countIssue_scalars (s : State) (w i : Nat) : (s.countIssue (.gang w i)).scalars = s.scalars := by
  rw [State.countIssue, State.updGang_scalars]
  show (s.charge (s.sliceOf (.gang w i)) 1).scalars = s.scalars
  unfold State.charge; split <;> rfl
/-- The state of an instruction that is counted, or that goes on retrying. -/
def State.counted (s : State) (g : Gang) : State := if g.retrying s.mask then s else s.countIssue s.cur
theorem State.counted_onlyGang {s : State} {g : Gang} {w i : Nat} {x : Workgroup} {r : Launch} (o : OnCompute s g w i x r) :
    ∃ g', OnlyGang s (s.counted g) g' ∧ (s.counted g).scalars = s.scalars ∧ g.SameLanes g' := by
  have hi := onCompute_issuer o
  unfold State.counted
  by_cases hr : g.retrying s.mask = true
  · rw [if_pos hr]
    exact ⟨g, OnlyGang.refl s g hi, rfl, rfl, rfl, rfl, rfl, rfl, rfl, rfl⟩
  · rw [if_neg hr]
    refine ⟨_, OnlyGang.countIssue s g hi, by rw [o.cur]; exact s.countIssue_scalars w i, ?_⟩
    split <;> exact ⟨rfl, rfl, rfl, rfl, rfl, rfl, rfl⟩

/-! ### Words of the other kind of core (R29, R30, R92) -/

/-- An instruction of service cores on a compute core raises `PRIV`. -/
theorem State.issue_service_on_compute {s : State} {g : Gang} {w i : Nat} {x : Workgroup} {r : Launch} (o : OnCompute s g w i x r)
    {u : Use} (hu : u.allow = 2) (body : State → State) : ∃ t, s.issue u body = .next t ∧ Suspended s t g i x r 2 := by
  obtain ⟨g', h, hs, hl⟩ := State.counted_onlyGang o
  refine ⟨(s.counted g).raiseAll (s.wordTrap 2 s.curPc), ?_, ?_⟩
  · have hgate : s.gate u = .stop ((s.counted g).raiseAll (s.wordTrap 2 s.curPc)) := by
      unfold State.gate
      rw [onCompute_issuer o]
      simp [o.cur, hu, State.counted]
    unfold State.issue
    rw [hgate]
  · have := h.raise_suspended o hs hl o.some (s.wordTrap 2 s.curPc)
    rw [State.raiseAll, h.mask]
    exact this
theorem onService_issuer {s : State} {c : Nat} {k : Scalar} (h : OnService s c k) : s.gang s.cur = some k.ctx := by
  rw [h.cur, State.gang, h.core]; rfl
theorem onService_curPc {s : State} {c : Nat} {k : Scalar} (h : OnService s c k) : s.curPc = k.ctx.pcOf 0 := by
  rw [State.curPc, onService_issuer h, h.one]; rfl
theorem State.scalar_updScalar_same (s : State) (c : Nat) (f : Scalar → Scalar) : (s.updScalar c f).scalar c = (s.scalar c).map f :=
  Tab.find_upd_same _ _ _
theorem State.scalar_updScalar_other (s : State) (c : Nat) (f : Scalar → Scalar) {j : Nat} (h : j ≠ c) :
    (s.updScalar c f).scalar j = s.scalar j := Tab.find_upd_other _ _ _ _ h
/-- A trap of a service core that handles none (R341). -/
theorem State.trap_trapped {s : State} {c : Nat} {k : Scalar} (hk : s.scalar c = some k) (hf : k.handling = false) (cause epc tval : Word) :
    Trapped s (s.trap c cause epc tval) c k cause epc tval := by
  have e : s.trap c cause epc tval = s.updScalar c fun c =>
      { c with
        k := Tab.set 0 (Tab.set 0 (Tab.set 0 c.k 1 cause) 2 epc) 3 tval
        handling := true, idle := false
        ctx := (c.ctx.setPc 0 0xFFFFFF0000000000).setStat 0 .ready } := by
    simp only [State.trap, hk, hf, Bool.false_eq_true, if_false]
  rw [e]
  refine ⟨⟨_, (State.scalar_updScalar_same s c _).trans (congrArg _ hk), ?_, ?_, ?_, rfl, fun n h1 h2 h3 => ?_, ?_, rfl, rfl⟩,
    fun j hj => s.scalar_updScalar_other c _ hj, rfl⟩
  · simp [Scalar.kreg, Tab.at_set]
  · simp [Scalar.kreg, Tab.at_set]
  · simp [Scalar.kreg, Tab.at_set]
  · simp [Scalar.kreg, Tab.at_set, h1, h2, h3]
  · simp [Gang.pcOf, Gang.setStat, Gang.setPc, Tab.at_set]
/-- An instruction of compute cores on a service core raises `ILLEGAL`. -/
theorem State.issue_compute_on_service {s : State} {c : Nat} {k : Scalar} (o : OnService s c k) {u : Use} (hu : u.allow = 1)
    (body : State → State) : ∃ t, s.issue u body = .next t ∧ Trapped s t c k 1 (k.ctx.pcOf 0) s.curWord := by
  refine ⟨s.trap c 1 (k.ctx.pcOf 0) s.curWord, ?_, State.trap_trapped o.core o.free _ _ _⟩
  have hraise : s.raiseAll (s.wordTrap 1 s.curPc) = s.trap c 1 (k.ctx.pcOf 0) s.curWord := by
    have hw : (s.wordTrap 1 s.curPc).pc = k.ctx.pcOf 0 := onService_curPc o
    rw [State.raiseAll, o.cur, o.one, ← hw]
    rfl
  have hgate : s.gate u = .stop (s.trap c 1 (k.ctx.pcOf 0) s.curWord) := by
    unfold State.gate
    rw [onService_issuer o]
    simp only [o.cur, hu, Bool.not_false, Bool.and_true, decide_true, if_true, ← hraise]
    cases k.ctx.retrying s.mask <;> rfl
  unfold State.issue
  rw [hgate]
end Sys2Proof.Machine
end

section
/-! The words of the other kind of core (R29, R30, R92): each issues for one kind of core alone. -/

namespace Sys2Proof.Proofs
open Machine

/-- An instruction that only agents of a kind issue (1: compute cores, 2: service cores). -/
def IssuesFor (allow : Nat) (s : State) (j : Instr) : Prop := ∃ u body, u.allow = allow ∧ exec j s = s.issue u body

theorem privilegedWords_issueFor (s : State) (d a b : BitVec 6) (l : BitVec 4) (p q : BitVec 5) :
    ∀ j ∈ [Instr.msgsend d a b l, .msgrecv d a b l, .msgpoll d l, .crpop d a l, .resume d p q l, .resumeall d p q l,
        .crfwd d a b l, .krd d a, .kwr a b, .tlbinv d a b, .kret, .idle, .ctxevict d a l, .ctxpin d a b l, .gangkill d a b l,
        .wgkill d a b l, .ctxstat d a l, .setdeadline d a b, .cntadd d a b l, .cpycancelResume d a l, .cpycancelFail d a l],
      IssuesFor 2 s j := by
  simp only [List.forall_mem_cons, List.not_mem_nil, false_imp_iff, forall_const, and_true]
  and_intros <;> exact ⟨_, _, rfl, rfl⟩

theorem computeWords_issueFor (s : State) (f : Fields) :
    ∀ j ∈ [Instr.exit, .cvset f.c f.p, .cvsetGrp f.c, .cvwait f.c, .cvquery f.d f.c f.b f.u, .cvclear f.c, .xshfl f.d f.a f.b f.c f.l,
        .xshxor f.d f.a f.p f.c f.l, .xred f.d f.a f.p f.c f.l, .xscan f.d f.a f.e f.p f.c f.l, .xvote f.d f.a f.k f.c f.l,
        .xmatch f.d f.a f.c f.l, .spawn f.d f.a f.g f.l] ++
      [Instr.mma f.c f.a f.p f.q f.l, .mdrain f.c f.a f.p f.q f.l, .mzero f.c f.a f.l, .mload f.c f.a f.p f.l, .mstore f.c f.a f.p f.l,
        .mquant f.c f.a f.m f.l, .mhad f.c f.a f.m f.l, .bararrive f.d f.a f.l, .barwait f.d f.a f.b f.l, .barinit f.d f.a f.b f.l,
        .cpy f.d f.a f.l, .rlock f.d f.a f.b f.l, .runlock f.d f.a f.l, .tfetch f.m f.l, .tretire f.d f.m f.b f.l, .tgive f.d f.m f.b f.l,
        .tstat f.d f.k f.l],
      IssuesFor 1 s j := by
  simp only [List.cons_append, List.nil_append, List.forall_mem_cons, List.not_mem_nil, false_imp_iff, forall_const, and_true]
  and_intros <;> exact ⟨_, _, rfl, rfl⟩

theorem privilegedWordsTrap : privilegedWordsTrapOnComputeCoresRule := by
  intro s g w i x r d a b l p q o j hj
  obtain ⟨u, body, hu, e⟩ := privilegedWords_issueFor s d a b l p q j hj
  rw [e]
  exact State.issue_service_on_compute o hu body

theorem computeWordsTrap : computeWordsTrapOnServiceCoresRule := by
  intro s c k f o j hj
  obtain ⟨u, body, hu, e⟩ := computeWords_issueFor s f j hj
  rw [e]
  exact State.issue_compute_on_service o hu body

/-- Settles O16: the issue of such a word stops at its first check, which raises the trap. -/
theorem wordsOfTheOtherKindTrap : Obligations.WordsOfTheOtherKindTrap := ⟨privilegedWordsTrap, computeWordsTrap⟩

end Sys2Proof.Proofs
end

section
/-! The state without its gangs: what an action of a gang on itself leaves, and what does not depend on gangs (R22, R109). -/

namespace Sys2Proof.Machine

theorem Tab.find_map {α : Type} (t : Tab α) (f : α → α) (k : Nat) :
    Tab.find (t.map fun p => (p.1, f p.2)) k = (Tab.find t k).map f := by
  induction t with
  | nil => rfl
  | cons p t ih =>
    simp only [List.map_cons, Tab.find, ih]
    split <;> rfl
theorem Tab.map_upd {α : Type} (t : Tab α) (k : Nat) (f g : α → α) (h : ∀ x, f (g x) = f x) :
    (Tab.upd t k g).map (fun p => (p.1, f p.2)) = t.map fun p => (p.1, f p.2) := by
  rw [Tab.upd, List.map_map]
  refine List.map_congr_left fun p _ => ?_
  simp only [Function.comp]
  split
  · rw [h]
  · rfl

/-- A workgroup without its gangs and counters. -/
def Workgroup.bare (x : Workgroup) : Workgroup := { x with gangs := [], perf := [] }
/-- A service core without its context. -/
def Scalar.bare (c : Scalar) : Scalar := { c with ctx := default }
/-- A slice without its account. -/
def Slice.bare (x : Slice) : Slice := { x with budget := 0, charged := 0 }
/-- The state without gangs, contexts, the accounts of slices, and names given. -/
def State.bare (s : State) : State :=
  { s with
    wgs := s.wgs.map fun p => (p.1, p.2.bare), scalars := s.scalars.map fun p => (p.1, p.2.bare)
    slices := s.slices.map Slice.bare, serialNo := 0, owedUnits := [] }

theorem State.same_of_bare {α : Type} {s t : State} (h : t.bare = s.bare) (f : State → α) (hf : ∀ u, f u.bare = f u) :
    f t = f s := by rw [← hf t, h, hf]

theorem State.bare_wg (s : State) (w : Nat) : s.bare.wg w = (s.wg w).map Workgroup.bare := Tab.find_map _ _ _
theorem State.bare_scalar (s : State) (i : Nat) : s.bare.scalar i = (s.scalar i).map Scalar.bare := Tab.find_map _ _ _
theorem State.setGang_bare (s : State) (a : Agent) (g : Gang) : (s.setGang a g).bare = s.bare := by
  cases a with
  | gang w i =>
    exact congrArg (fun x => { s.bare with wgs := x })
      (Tab.map_upd s.wgs w Workgroup.bare (fun x => { x with gangs := Tab.upd x.gangs i fun _ => g }) fun _ => rfl)
  | core i =>
    exact congrArg (fun x => { s.bare with scalars := x })
      (Tab.map_upd s.scalars i Scalar.bare (fun x => { x with ctx := g }) fun _ => rfl)
@[simp] theorem State.updGang_bare (s : State) (a : Agent) (f : Gang → Gang) : (s.updGang a f).bare = s.bare := by
  unfold State.updGang
  cases s.gang a with
  | none => rfl
  | some g => exact s.setGang_bare a (f g)
@[simp] theorem State.count_bare (s : State) (w sel n : Nat) : (s.updWg w fun x => x.count sel n).bare = s.bare :=
  congrArg (fun x => { s.bare with wgs := x }) (Tab.map_upd s.wgs w Workgroup.bare (·.count sel n) fun _ => rfl)
@[simp] theorem State.charge_bare (s : State) (h : Word) (n : Nat) : (s.charge h n).bare = s.bare := by
  unfold State.charge
  split
  · rfl
  · refine congrArg (fun x => { s.bare with slices := x }) ((List.map_map ..).trans (List.map_congr_left fun x _ => ?_))
    simp only [Function.comp]
    split <;> rfl
theorem State.bare_slice (s : State) (h : Word) : s.bare.slice h = (s.slice h).map Slice.bare := by
  simp only [State.slice, State.bare, List.find?_map]
  rfl
@[simp] theorem State.countIssue_bare (s : State) (a : Agent) : (s.countIssue a).bare = s.bare := by
  cases a with
  | core i => rfl
  | gang w i => rw [State.countIssue, State.updGang_bare, State.count_bare, State.charge_bare]
@[simp] theorem State.setGstat_bare (s : State) (b : Word) : (s.setGstat b).bare = s.bare := s.updGang_bare _ _
theorem State.gate_bare {s t : State} {u : Use} (h : s.gate u = .go t) : t.bare = s.bare := by
  unfold State.gate at h
  cases hg : s.gang s.cur with
  | none => simp [hg] at h
  | some g =>
    have hc : (if g.retrying s.mask then s else s.countIssue s.cur).bare = s.bare := by split <;> simp
    simp only [hg] at h
    generalize (if g.retrying s.mask then s else s.countIssue s.cur) = c at h hc
    split_ifs at h <;> try split at h
    all_goals cases h
    exact (State.updGang_bare _ _ _).trans hc

/-! ### What does not depend on gangs -/

@[simp] theorem State.bare_reqs (s : State) : s.bare.reqs = s.reqs := rfl
@[simp] theorem State.bare_homeByte (s : State) (k : Nat) : s.bare.homeByte k = s.homeByte k := rfl
@[simp] theorem State.bare_l1At (s : State) (l : Nat) : s.bare.l1At l = s.l1At l := rfl
@[simp] theorem State.bare_translate (s : State) (c : Ctx) (kind : Nat) (va : Word) : s.bare.translate c kind va = s.translate c kind va := rfl
@[simp] theorem State.bare_rangeLocked (s : State) (core : Nat) (me : LockOwner) (p k v n : Nat) :
    s.bare.rangeLocked core me p k v n = s.rangeLocked core me p k v n := rfl
@[simp] theorem State.bare_ctxOf (s : State) (a : Agent) : s.bare.ctxOf a = s.ctxOf a := by
  cases a with
  | gang w i => simp only [State.ctxOf, State.bare_wg]; cases s.wg w <;> rfl
  | core i => simp only [State.ctxOf, State.bare_scalar]; cases s.scalar i <;> rfl
@[simp] theorem State.bare_l1Of (s : State) (a : Agent) : s.bare.l1Of a = s.l1Of a := by
  cases a with
  | gang w i => simp only [State.l1Of, State.bare_wg]; cases s.wg w <;> rfl
  | core i => rfl
theorem State.bare_resident (s : State) (core slot : Nat) : s.bare.resident core slot = (s.resident core slot).map fun p => (p.1, p.2.bare) := by
  simp only [State.resident, State.bare, List.find?_map]
  rfl
@[simp] theorem State.bare_serviceWindow (s : State) (c : Option Nat) (va : Nat) : s.bare.serviceWindow c va = s.serviceWindow c va := by
  simp only [State.serviceWindow, State.bare_resident]
  split
  · rfl
  · cases s.resident _ _ <;> rfl
@[simp] theorem State.bare_regWindow (s : State) (a : Agent) (va : Word) : s.bare.regWindow a va = s.regWindow a va := rfl
theorem State.bare_homeWindow (s : State) (w : Nat) (va : Nat) :
    (((s.wg w).map Workgroup.bare).bind fun g => s.bare.homeWindow w g va) = (s.wg w).bind fun g => s.homeWindow w g va := by
  cases s.wg w <;> rfl
theorem State.bare_check (s : State) (a : Agent) (kind size : Nat) (va : Word) : s.bare.check a kind size va = s.check a kind size va := by
  cases a with
  | gang w i =>
    simp only [State.check, State.bare_wg, State.bare_ctxOf, State.bare_regWindow, State.bare_translate, State.bare_rangeLocked,
      State.bare_homeWindow]
    generalize (if (inThreadAp va.toNat || inServiceAp va.toNat) = true then (_ : Chk) else _) = loc
    cases loc with
    | ok l => dsimp only; cases s.wg w <;> rfl
    | miss => rfl
    | fault f => rfl
  | core i =>
    simp only [State.check, State.bare_ctxOf, State.bare_regWindow, State.bare_translate, State.bare_serviceWindow]
    generalize (if (inThreadAp va.toNat || inServiceAp va.toNat) = true then (_ : Chk) else _) = loc
    cases loc <;> rfl
theorem State.bare_locByte (s : State) (l : Loc) : s.bare.locByte l = s.locByte l := by
  cases l with
  | scratch w o => simp only [State.locByte, State.bare_wg]; cases s.wg w <;> rfl
  | acc w o => simp only [State.locByte, State.bare_wg]; cases s.wg w <;> rfl
  | mem k p => rfl
  | reg o => rfl
theorem State.bare_locRead (s : State) (l : Loc) (n : Nat) : s.bare.locRead l n = s.locRead l n := by
  simp only [State.locRead, State.bare_locByte]
theorem State.bare_noRoom (s : State) (a : Agent) (xs : List Acc) : s.bare.noRoom a xs = s.noRoom a xs := by
  simp only [State.noRoom, State.bare_l1Of] <;> rfl
theorem State.bare_held? (s : State) (x : Acc) (n : Nat) : s.bare.held? x n = s.held? x n := rfl
theorem State.bare_upperLocked (s : State) (kind size : Nat) (x : Acc) : s.bare.upperLocked kind size x = s.upperLocked kind size x := by
  unfold State.upperLocked
  have hc : s.bare.cur = s.cur := rfl
  rw [hc]
  cases (if size = 16 then x.upper else none) with
  | none => rfl
  | some y =>
    cases s.cur with
    | core i => rfl
    | gang w i => simp only [State.bare_wg, State.bare_ctxOf]; cases s.wg w <;> rfl
theorem State.bare_loadedNow (s : State) (g : Gang) (lanes : LaneMask) (loc : Loc) (size : Nat) (signed : Bool) :
    loadedNow s.bare g lanes loc size signed = loadedNow s g lanes loc size signed := by
  cases loc with
  | mem k p => simp only [loadedNow, State.bare_l1Of] <;> rfl
  | scratch w o => simp only [loadedNow, State.bare_locRead]
  | acc w o => simp only [loadedNow, State.bare_locRead]
  | reg o => simp only [loadedNow, State.bare_locRead]

end Sys2Proof.Machine
end

section
/-! Accesses of a gang: what a load and a store put in flight and ask of homes (R175 to R178, R193). -/

namespace Sys2Proof.Machine

/-- What a gang's own actions leave of memory, requests and tenants. -/
theorem OnlyGang.same {α : Type} {s t : State} {g : Gang} (h : OnlyGang s t g) (f : State → α)
    (hf : ∀ u, f (u.withGangsOf s) = f u) : f t = f s := by rw [← hf t, h.rest]
theorem OnlyGang.reqs {s t : State} {g : Gang} (h : OnlyGang s t g) : t.reqs = s.reqs := h.same (·.reqs) fun _ => rfl
theorem OnlyGang.homeByte {s t : State} {g : Gang} (h : OnlyGang s t g) (k : Nat) : t.homeByte k = s.homeByte k :=
  h.same (·.homeByte k) fun _ => rfl

/-- A part of workgroups that may differ, beside gangs and counters. -/
def Aside (field : Workgroup → Workgroup → Workgroup) : Prop :=
  ∀ z y x : Workgroup, { z with gangs := y.gangs, perf := y.perf } = y →
    ({ field z x with gangs := x.gangs, perf := x.perf } : Workgroup) = { field y x with gangs := x.gangs, perf := x.perf }
theorem aside_noneOf : Aside noneOf := fun z y x h => by rw [← h]; rfl
theorem aside_sharesOf : Aside sharesOf := fun z y x h => by rw [← h]; rfl

/-- t is s after the issuing gang has become g', it has asked rs of homes, and no byte has changed as a home serves it. -/
structure State.Asks (s t : State) (g' : Gang) (field : Workgroup → Workgroup → Workgroup) (rs : List Req) : Prop where
  only : OnlyAnd s t g' (asked s) field
  moved : OnlyMoved s t
  reqs : t.reqs = s.reqs ++ rs
  homes : ∀ k, t.homeByte k = s.homeByte k

section
variable {s t u : State} {g g' : Gang} {field : Workgroup → Workgroup → Workgroup} {rs : List Req}

theorem State.Asks.of_onlyGang (hf : ∀ x, field x x = x) (ha : Aside field) (h : OnlyGang s t g) : s.Asks t g field [] where
  only := ⟨h.issuer, h.others, fun w x hx => by
    obtain ⟨y, hy, e⟩ := h.workgroups w x hx
    exact ⟨y, hy, by rw [ha y x x e, hf]⟩, h.cores, h.slices, by rw [h.rest]; rfl⟩
  moved k := by rw [h.same (·.tenants) fun _ => rfl]
  reqs := by rw [h.reqs, List.append_nil]
  homes := h.homeByte
theorem State.Asks.cur_eq (h : s.Asks t g field rs) : t.cur = s.cur := by
  have := congrArg State.cur h.only.rest
  exact this
theorem State.Asks.mask_eq (h : s.Asks t g field rs) : t.mask = s.mask := by
  have := congrArg State.mask h.only.rest
  exact this
theorem State.Asks.issuer (h : s.Asks t g field rs) : t.gang t.cur = some g := by rw [h.cur_eq]; exact h.only.issuer
theorem State.Asks.onlyGang (ha : Aside field) (h : s.Asks t g field rs) (k : OnlyGang t u g') : s.Asks u g' field rs where
  only := by
    refine ⟨by rw [← h.cur_eq]; exact k.issuer, fun a ha' => (k.others a (by rw [h.cur_eq]; exact ha')).trans (h.only.others a ha'),
      fun w x hx => ?_, fun i c hc => ?_, fun i x hx => ?_, ?_⟩
    · obtain ⟨y, hy, ey⟩ := h.only.workgroups w x hx
      obtain ⟨z, hz, ez⟩ := k.workgroups w y hy
      exact ⟨z, hz, by rw [ha z y x ez, ey]⟩
    · obtain ⟨y, hy, ey⟩ := h.only.cores i c hc
      obtain ⟨z, hz, ez⟩ := k.cores i y hy
      exact ⟨z, hz, by rw [← ey, ← ez]⟩
    · obtain ⟨y, hy, ey⟩ := h.only.slices i x hx
      obtain ⟨z, hz, ez⟩ := k.slices i y hy
      exact ⟨z, hz, by rw [← ey, ← ez]⟩
    · have e : u.withGangsOf s = (u.withGangsOf t).withGangsOf s := rfl
      rw [e, k.rest, h.only.rest]
  moved k' := by rw [k.same (·.tenants) fun _ => rfl]; exact h.moved k'
  reqs := by rw [k.reqs, h.reqs]
  homes k' := (k.homeByte k').trans (h.homes k')
/-- What is done to requests, L1 copies and tenants alone. -/
theorem State.Asks.beside (h : s.Asks t g field rs) {rs' : List Req} {l1 : Tab (Tab Line)} {ten : Tab Tenant}
    (hten : ∀ k, (Tab.find ten k).map (fun x => { x with moved := 0 }) = (Tab.find t.tenants k).map fun x => { x with moved := 0 })
    (hhome : ∀ k, ({ t with l1 := l1 } : State).homeByte k = t.homeByte k) :
    s.Asks { t with reqs := t.reqs ++ rs', l1 := l1, tenants := ten } g field (rs ++ rs') where
  only := ⟨h.only.issuer, h.only.others, h.only.workgroups, h.only.cores, h.only.slices, h.only.rest⟩
  moved k := (hten k).trans (h.moved k)
  reqs := by
    show t.reqs ++ rs' = _
    rw [h.reqs, List.append_assoc]
  homes k := (hhome k).trans (h.homes k)
end

theorem OnlyGang.countFor (s : State) (a : Agent) (sel n : Nat) {g : Gang} (hg : s.gang s.cur = some g) :
    OnlyGang s (s.countFor a sel n) g := by
  cases a with
  | gang w i => exact OnlyGang.count s w sel n g hg
  | core i => exact OnlyGang.refl s g hg
theorem State.moves_eq (s : State) (tenant : Option Nat) (key n : Nat) : ∃ ten, s.moves tenant key n = { s with tenants := ten } ∧
    ∀ k, (Tab.find ten k).map (fun x => { x with moved := 0 }) = (Tab.find s.tenants k).map fun x => { x with moved := 0 } := by
  unfold State.moves
  cases tenant with
  | none => exact ⟨s.tenants, rfl, fun _ => rfl⟩
  | some t =>
    dsimp only
    split
    · refine ⟨_, rfl, fun k => ?_⟩
      rw [Tab.find_upd]
      split
      · subst k; cases Tab.find s.tenants t <;> rfl
      · rfl
    · exact ⟨s.tenants, rfl, fun _ => rfl⟩

/-- A copy in an L1 that the L1 does not own, or that keeps what it holds, may differ otherwise. -/
theorem State.setL1_homeByte {s : State} {l n : Nat} {x y : Line} (hx : Tab.find (s.l1At l) n = some x) (ho : y.owned = x.owned)
    (hd : x.owned = true → y.data = x.data) (k : Nat) : (s.setL1 l (Tab.put (s.l1At l) n y)).homeByte k = s.homeByte k := by
  have owned : ∀ c m, ((s.setL1 l (Tab.put (s.l1At l) n y)).ownedLine c m).map Line.data = (s.ownedLine c m).map Line.data := by
    intro c m
    rw [State.ownedLine_setL1]
    split
    · subst c
      by_cases hm : m = n
      · subst m
        rw [Tab.find_put_same, State.ownedLine, hx]
        cases h : x.owned
        · simp [Option.filter, ho, h]
        · simp [Option.filter, ho, h, hd h]
      · rw [Tab.find_put_other _ _ _ _ hm]; rfl
    · rfl
  have keep : ((s.setL1 l (Tab.put (s.l1At l) n y)).keeper (k / 128)).map Line.data = (s.keeper (k / 128)).map Line.data := by
    simp only [State.keeper, State.home_setL1]
    cases (s.home (k / 128)).owner with
    | none => rfl
    | some c => exact owned c _
  rw [State.homeByte_eq, State.homeByte_eq, State.setL1_mem]
  cases h1 : (s.setL1 l (Tab.put (s.l1At l) n y)).keeper (k / 128) <;> cases h2 : s.keeper (k / 128) <;> rw [h1, h2] at keep <;>
    simp at keep ⊢
  rw [keep]

section
variable {s t u : State} {g g' : Gang} {field : Workgroup → Workgroup → Workgroup} {rs : List Req}

theorem State.Asks.request (ha : Aside field) (h : s.Asks t g field rs) (r : Req) :
    ∃ id, s.Asks (t.request r) g field (rs ++ [{ r with id := id }]) := by
  unfold State.request
  dsimp only
  have h1 : s.Asks (if t.remote r.key then t.charge (t.sliceOf r.agent) 1 else t) g field rs := by
    split
    · exact h.onlyGang ha (OnlyGang.charge t _ _ g h.issuer)
    · exact h
  generalize (if t.remote r.key then t.charge (t.sliceOf r.agent) 1 else t) = t1 at h1 ⊢
  have h2 : s.Asks (if (r.kind = .load || r.kind = .prefetch || r.kind = .own) = true then t1.countFor r.agent 35 1 else t1) g field rs := by
    split
    · exact h1.onlyGang ha (OnlyGang.countFor t1 _ _ _ h1.issuer)
    · exact h1
  generalize (if (r.kind = .load || r.kind = .prefetch || r.kind = .own) = true then t1.countFor r.agent 35 1 else t1) = t2 at h2 ⊢
  obtain ⟨ten, e, hten⟩ := t2.moves_eq ((t2.launchAt r.agent).map (·.tenant)) r.key r.moves
  rw [e]
  have h3 := h2.onlyGang ha (OnlyGang.named t2 (t2.serialNo + 1) g h2.issuer)
  exact ⟨t2.serialNo, h3.beside (rs' := [{ r with id := t2.serialNo }]) (l1 := t2.l1) (ten := ten) hten fun _ => rfl⟩
theorem State.Asks.touchLine (h : s.Asks t g field rs) (l line : Nat) : s.Asks (t.touchLine l line) g field rs := by
  unfold State.touchLine
  cases hx : Tab.find (t.l1At l) line with
  | none => exact h
  | some x =>
    have := h.beside (rs' := []) (ten := t.tenants) (fun _ => rfl) (State.setL1_homeByte (y := { x with used := t.serialNo }) hx rfl fun _ => rfl)
    rwa [List.append_nil, List.append_nil] at this
theorem State.Asks.mergeStore (h : s.Asks t g field rs) (l key : Nat) (bs : List Byte) : s.Asks (t.mergeStore l key bs) g field rs := by
  unfold State.mergeStore
  cases hx : Tab.find (t.l1At l) (key / 128) with
  | none => exact h
  | some x =>
    dsimp only
    by_cases ho : x.owned = true
    · rwa [if_pos ho]
    · rw [if_neg ho]
      have := h.beside (rs' := []) (ten := t.tenants) (fun _ => rfl) (State.setL1_homeByte
        (y := { x with data := overlay (key / 128 * 128) x.data key bs, used := t.serialNo }) hx rfl fun h => absurd h ho)
      rwa [List.append_nil, List.append_nil] at this
theorem State.Asks.updGang (ha : Aside field) (h : s.Asks t g field rs) (f : Gang → Gang) : s.Asks (t.updGang t.cur f) (f g) field rs :=
  h.onlyGang ha (OnlyGang.updGang t f g h.issuer)
end

/-- g' is g with fs in flight besides, and what it has seen and waits for. -/
def Gang.Drifts (g g' : Gang) (fs : List Flight) : Prop :=
  g'.flights = g.flights ++ fs ∧
    { g' with flights := g.flights, horizon := g.horizon, seen := g.seen, wct := g.wct, watched := g.watched } = g

theorem Gang.Drifts.trans {a b c : Gang} {fs gs : List Flight} (h : a.Drifts b fs) (k : b.Drifts c gs) : a.Drifts c (fs ++ gs) := by
  obtain ⟨h1, h2⟩ := h
  obtain ⟨k1, k2⟩ := k
  exact ⟨by rw [k1, h1, List.append_assoc], by rw [← h2, ← k2]⟩
theorem Gang.observe_drifts (g : Gang) (lanes : LaneMask) (line stamp skew : Nat) : g.Drifts (g.observe lanes line stamp skew) [] :=
  ⟨(List.append_nil _).symm, rfl⟩
theorem Gang.bound_drifts (g : Gang) (lanes : LaneMask) (time : Nat) : g.Drifts (g.bound lanes time) [] := ⟨(List.append_nil _).symm, rfl⟩
theorem Gang.watch_drifts (g : Gang) (lanes : LaneMask) (ids : List Nat) : g.Drifts (g.watch lanes ids) [] := ⟨(List.append_nil _).symm, rfl⟩
theorem Gang.addFlight_drifts (g : Gang) (f : Flight) : g.Drifts { g with flights := g.flights ++ [f] } [f] := ⟨rfl, rfl⟩

/-- The request of a load that its L1 does not serve. -/
def LoadRequest (s : State) (x : Acc) (n : Nat) (signed : Bool) (f : Flight) (key p : Nat) (r : Req) : Prop :=
  r.kind = .load ∧ r.agent = s.cur ∧ r.lane = x.lane ∧ r.lanes = x.lanes ∧ r.key = key ∧ r.size = n ∧ r.flight = some f.id ∧
    r.state = .sent ∧ r.signed = signed ∧ r.cached = decide (p = 0) ∧ r.io = decide (p = 2)

/-- The destination that a load puts in flight. -/
def State.loadFlight (s : State) (x : Acc) (acquire : Bool) (regs : List Nat) (vals : Option (List Word)) (poisoned : Bool) : Flight :=
  { id := 32 * s.serialNo, issued := s.ptb, lane := x.lane, lanes := x.lanes, regs := regs, vals := vals, flags := 0
    acquire := acquire, poisoned := poisoned, pc := s.curPc, addr := x.addr }
/-- The request that a load makes of its home. -/
def State.loadReq (s : State) (x : Acc) (key p n : Nat) (signed : Bool) : Req :=
  { (default : Req) with
    agent := s.cur, lane := x.lane, lanes := x.lanes, l1 := s.l1Of s.cur, kind := .load, key := key, size := n
    cached := decide (p = 0), signed := signed, flight := some (32 * s.serialNo), state := .sent, io := decide (p = 2), data := [] }
/-- The line of the agent's L1 that serves a load (R175, R178). -/
def State.serves (s : State) (g : Gang) (x : Acc) (key p n : Nat) : Option Line :=
  if p = 0 ∧ s.readAhead s.cur x.lanes key n (fun _ => true) = false then s.hit g (s.l1Of s.cur) x.lanes key else none

theorem State.load_mem {s : State} {g : Gang} (hg : s.gang s.cur = some g) {x : Acc} {key p : Nat} (hx : x.loc = .mem key p) (n : Nat)
    (signed acquire : Bool) (regs : List Nat) :
    s.load x n signed acquire regs =
      match s.serves g x key p n with
      | some ln =>
        let t := (({ s with serialNo := s.serialNo + 1 } : State).observed s.cur x.lanes (s.l1Of s.cur) key n ln.stamp ln.merged).touchLine
          (s.l1Of s.cur) (key / 128)
        (if t.ptb + t.skew key < ln.lease then t.countFor t.cur 34 1 else t).addFlight
          (s.loadFlight x acquire regs (some (loadWords signed (s.ownView s.cur x.lanes key (s.lineView (s.l1Of s.cur) key n ln)))) false)
      | none =>
        (({ s with serialNo := s.serialNo + 1 } : State).addFlight (s.loadFlight x acquire regs none (s.poisoned key))).request
          (s.loadReq x key p n signed) := by
  have hs : (if decide (p = 0) && !({ s with serialNo := s.serialNo + 1 } : State).readAhead s.cur x.lanes key n fun _ => true then
      (({ s with serialNo := s.serialNo + 1 } : State).gang s.cur).bind fun g =>
        ({ s with serialNo := s.serialNo + 1 } : State).hit g (({ s with serialNo := s.serialNo + 1 } : State).l1Of s.cur) x.lanes key
      else none) = s.serves g x key p n := by
    have hg' : ({ s with serialNo := s.serialNo + 1 } : State).gang s.cur = some g := hg
    rw [hg', State.serves]
    simp only [Bool.and_eq_true, decide_eq_true_eq, Bool.not_eq_true', Option.bind_some]
    rfl
  unfold State.load
  simp only [hx]
  rw [hs]
  cases s.serves g x key p n <;> rfl
theorem State.load_share {s : State} {x : Acc} (hx : ∀ k p, x.loc ≠ .mem k p) (n : Nat) (signed acquire : Bool) (regs : List Nat) :
    s.load x n signed acquire regs = ({ s with serialNo := s.serialNo + 1 } : State).addFlight
      (s.loadFlight x acquire regs (some (loadWords signed (s.locRead x.loc n))) false) := by
  have hr : ({ s with serialNo := s.serialNo + 1 } : State).locRead x.loc n = s.locRead x.loc n :=
    (State.bare_locRead { s with serialNo := s.serialNo + 1 } _ _).symm.trans (State.bare_locRead s _ _)
  unfold State.load
  cases e : x.loc with
  | mem k p => exact absurd e (hx k p)
  | scratch w o => rw [e] at hr; simp only [hr]; rfl
  | acc w o => rw [e] at hr; simp only [hr]; rfl
  | reg o => rw [e] at hr; simp only [hr]; rfl
theorem loadedNow_mem (s : State) (g : Gang) (x : Acc) (key p n : Nat) (signed : Bool) :
    loadedNow s g x.lanes (.mem key p) n signed =
      (s.serves g x key p n).map fun ln => loadWords signed (s.ownView s.cur x.lanes key (s.lineView (s.l1Of s.cur) key n ln)) := by
  unfold loadedNow State.serves
  dsimp only
  split <;> rfl
theorem loadedNow_share (s : State) (g : Gang) (lanes : LaneMask) {l : Loc} (h : ∀ k p, l ≠ .mem k p) (n : Nat) (signed : Bool) :
    loadedNow s g lanes l n signed = some (loadWords signed (s.locRead l n)) := by
  cases l with
  | mem k p => exact absurd rfl (h k p)
  | scratch w o => rfl
  | acc w o => rfl
  | reg o => rfl

section
variable {s t : State} {g : Gang} {field : Workgroup → Workgroup → Workgroup} {rs : List Req}

theorem State.Asks.addFlight (ha : Aside field) (h : s.Asks t g field rs) (f : Flight) :
    s.Asks (t.addFlight f) { g with flights := g.flights ++ [f] } field rs :=
  h.updGang ha fun g => { g with flights := g.flights ++ [f] }
theorem State.Asks.countIf (ha : Aside field) (h : s.Asks t g field rs) (c : Prop) [Decidable c] (sel : Nat) :
    s.Asks (if c then t.countFor t.cur sel 1 else t) g field rs := by
  split
  · exact h.onlyGang ha (OnlyGang.countFor t _ _ _ h.issuer)
  · exact h
/-- A load that its L1 serves. -/
theorem State.load_served (ha : Aside field) (h : s.Asks t g field rs) (x : Acc) {key p : Nat} (hx : x.loc = .mem key p) (n : Nat)
    (signed acquire : Bool) (regs : List Nat) {ln : Line} (hs : t.serves g x key p n = some ln) :
    ∃ g', s.Asks (t.load x n signed acquire regs) g' field rs ∧ g.Drifts g' [t.loadFlight x acquire regs
      (some (loadWords signed (t.ownView t.cur x.lanes key (t.lineView (t.l1Of t.cur) key n ln)))) false] := by
  rw [State.load_mem h.issuer hx, hs]
  dsimp only
  have h1 := h.onlyGang ha (OnlyGang.named t (t.serialNo + 1) g h.issuer)
  have h2 := (h1.updGang ha fun g => ((g.observe x.lanes (key / 128) ln.stamp (({ t with serialNo := t.serialNo + 1 } : State).skew key)).bound
    x.lanes (late ln.merged (({ t with serialNo := t.serialNo + 1 } : State).skew key))).watch x.lanes
      ((t.reqs.filter fun r => r.kind = .store && r.l1 = t.l1Of t.cur && r.merged && r.touches key n &&
        !(r.agent = t.cur && x.lanes &&& ~~~r.lanes = 0)).map (·.id))).touchLine (t.l1Of t.cur) (key / 128)
  generalize hu : State.touchLine _ _ _ = u at h2
  have hu' : (({ t with serialNo := t.serialNo + 1 } : State).observed t.cur x.lanes (t.l1Of t.cur) key n ln.stamp ln.merged).touchLine
      (t.l1Of t.cur) (key / 128) = u := hu
  rw [hu']
  exact ⟨_, (h2.countIf ha (u.ptb + u.skew key < ln.lease) 34).addFlight ha _,
    (((Gang.observe_drifts g ..).trans (Gang.bound_drifts _ ..)).trans (Gang.watch_drifts _ ..)).trans (Gang.addFlight_drifts _ _)⟩
/-- What a load leaves: a destination in flight, with its value where it is there at once, and else a request to the home. -/
theorem State.load_asks (ha : Aside field) (h : s.Asks t g field rs) (x : Acc) (n : Nat) (signed acquire : Bool) (regs : List Nat) :
    ∃ g' f rs', s.Asks (t.load x n signed acquire regs) g' field (rs ++ rs') ∧ g.Drifts g' [f] ∧
      f.lane = x.lane ∧ f.lanes = x.lanes ∧ f.regs = regs ∧ f.vals = loadedNow t g x.lanes x.loc n signed ∧ f.flags = 0 ∧
      f.acquire = acquire ∧ (f.poisoned = (f.vals.isNone && t.locPoisoned x.loc)) ∧ (f.vals.isSome = true → rs' = []) ∧
      ∀ k p, x.loc = .mem k p → f.vals = none → ∃ r, rs' = [r] ∧ LoadRequest t x n signed f k p r := by
  have h1 := h.onlyGang ha (OnlyGang.named t (t.serialNo + 1) g h.issuer)
  by_cases hm : ∃ key p, x.loc = .mem key p
  · obtain ⟨key, p, hx⟩ := hm
    cases hs : t.serves g x key p n with
    | some ln =>
      obtain ⟨g', ha', hd⟩ := State.load_served ha h x hx n signed acquire regs hs
      refine ⟨g', _, [], by rwa [List.append_nil], hd, rfl, rfl, rfl, ?_, rfl, rfl, rfl, fun _ => rfl, nofun⟩
      rw [hx, loadedNow_mem, hs]; rfl
    | none =>
      rw [State.load_mem h.issuer hx, hs]
      obtain ⟨id, h2⟩ := (h1.addFlight ha (t.loadFlight x acquire regs none (t.poisoned key))).request ha (t.loadReq x key p n signed)
      refine ⟨_, _, _, h2, Gang.addFlight_drifts _ _, rfl, rfl, rfl, ?_, rfl, rfl, ?_, nofun, fun k q hk _ => ?_⟩
      · rw [hx, loadedNow_mem, hs]; rfl
      · rw [hx]; rfl
      · rw [hx] at hk
        cases hk
        exact ⟨_, rfl, rfl, rfl, rfl, rfl, rfl, rfl, rfl, rfl, rfl, rfl, rfl⟩
  · have hx : ∀ k p, x.loc ≠ .mem k p := fun k p e => hm ⟨k, p, e⟩
    rw [State.load_share hx]
    refine ⟨_, _, [], by rw [List.append_nil]; exact h1.addFlight ha _, Gang.addFlight_drifts _ _, rfl, rfl, rfl, ?_, rfl, rfl, rfl, fun _ => rfl,
      fun k p hk => absurd hk (hx k p)⟩
    rw [loadedNow_share t g x.lanes hx]; rfl
end

end Sys2Proof.Machine
end

section
/-! The uniform load and store: one access of the group (R25, R199, R202, R206). -/

namespace Sys2Proof.Machine

theorem State.wg_updWg (s : State) (w v : Nat) (f : Workgroup → Workgroup) :
    (s.updWg w f).wg v = if v = w then (s.wg v).map f else s.wg v := Tab.find_upd s.wgs w v f

section
variable {s t : State} {g : Gang} {field : Workgroup → Workgroup → Workgroup} {rs : List Req}

/-! ### Stores (R176, R178) -/

theorem State.Asks.updShare (h : s.Asks t g sharesOf rs) (w : Nat) (f : Workgroup → Workgroup)
    (hf : ∀ x : Workgroup, { f x with scratch := x.scratch, acc := x.acc } = x) : s.Asks (t.updWg w f) g sharesOf rs where
  only := by
    have hg : ∀ x, (f x).gangs = x.gangs := fun x => by
      show ({ f x with scratch := x.scratch, acc := x.acc } : Workgroup).gangs = _
      rw [hf]
    have same : ∀ a, (t.updWg w f).gang a = t.gang a := by
      intro a
      cases a with
      | core i => rfl
      | gang v i =>
        simp only [State.gang, State.wg, State.updWg, Tab.find_upd]
        split
        · subst v
          cases Tab.find t.wgs w with
          | none => rfl
          | some x => simp only [Option.map_some, Option.bind_some, hg]
        · rfl
    refine ⟨(same _).trans h.only.issuer, fun a ha => (same a).trans (h.only.others a ha), fun v x hx => ?_, h.only.cores, h.only.slices,
      h.only.rest⟩
    obtain ⟨y, hy, e⟩ := h.only.workgroups v x hx
    rw [State.wg_updWg]
    split
    · subst v
      refine ⟨f y, by rw [hy]; rfl, ?_⟩
      rw [← e]
      have hy' := hf y
      generalize f y = z at hy' ⊢
      rw [← hy']; rfl
    · exact ⟨y, hy, e⟩
  moved := h.moved
  reqs := h.reqs
  homes := h.homes

/-- The bytes that a store leaves in a share: at its place in the share, if it has one. -/
def stored (place : Option Nat) (bs : List Byte) (f : Nat → Byte) (o : Nat) : Byte :=
  match place with
  | some q => written q bs f o
  | none => f o

/-- The request that a store of one access makes of its home; a weak store of cached memory also goes to the L1's copy (R178). -/
def State.storeReq (s : State) (x : Acc) (key p : Nat) (bs : List Byte) (scope : Option Nat) : Req :=
  let r : Req :=
    { (default : Req) with
      agent := s.cur, lane := x.lane, lanes := x.lanes, l1 := s.l1Of s.cur, kind := .store, key := key, size := bs.length
      cached := decide (p = 0), data := bs, scope := scope, state := .sent, io := decide (p = 2) }
  { r with merged := decide (p = 0) && !r.strong }
/-- What a store of one access leaves: a request to the home, or the bytes in a share of a resident workgroup. -/
theorem State.storeOne_asks (h : s.Asks t g sharesOf rs) (x : Acc) (bs : List Byte) (scope : Option Nat) (hreg : ∀ o, x.loc ≠ .reg o)
    (hres : ∀ v o y, x.loc = .scratch v o → t.wg v = some y → y.place.isSome = true) :
    ∃ rs', s.Asks (t.storeOne x bs scope) g sharesOf (rs ++ rs') ∧
      (∀ r ∈ rs', r.kind = .store ∧ r.agent = t.cur ∧ r.state = .sent ∧ r.scope = scope) ∧
      rs'.map (fun r => (r.lane, r.key, r.data)) = (match x.loc with
        | .mem k _ => [(x.lane, k, bs)]
        | _ => []) ∧
      ∀ v y, t.wg v = some y → ∃ z, (t.storeOne x bs scope).wg v = some z ∧ ∀ o,
        Mem.byte z.scratch o = stored (scratchIn v x.loc) bs (Mem.byte y.scratch) o ∧
        Mem.byte z.acc o = stored (accIn v x.loc) bs (Mem.byte y.acc) o := by
  cases hx : x.loc with
  | reg o => exact absurd hx (hreg o)
  | mem key p =>
    have e : (if (t.storeReq x key p bs scope).merged then (t.request (t.storeReq x key p bs scope)).mergeStore (t.l1Of t.cur) key bs
        else t.request (t.storeReq x key p bs scope)) = t.storeOne x bs scope := by simp only [State.storeOne, hx]; rfl
    have go : ∀ {s0 : State} {fld : Workgroup → Workgroup → Workgroup} {rs0 : List Req}, Aside fld → s0.Asks t g fld rs0 →
        ∃ id, s0.Asks (t.storeOne x bs scope) g fld (rs0 ++ [{ t.storeReq x key p bs scope with id := id }]) := by
      intro s0 fld rs0 ha h0
      obtain ⟨id, h1⟩ := h0.request ha (t.storeReq x key p bs scope)
      refine ⟨id, ?_⟩
      rw [← e]
      split
      · exact h1.mergeStore _ _ _
      · exact h1
    obtain ⟨id, h1⟩ := go aside_sharesOf h
    obtain ⟨_, h2⟩ := go aside_noneOf (State.Asks.of_onlyGang (s := t) (fun _ => rfl) aside_noneOf (OnlyGang.refl t g h.issuer))
    refine ⟨_, h1, fun r hr => ?_, rfl, fun v y hy => ?_⟩
    · obtain rfl := List.mem_singleton.mp hr
      exact ⟨rfl, rfl, rfl, rfl⟩
    · obtain ⟨z, hz, e⟩ := h2.only.workgroups v y hy
      refine ⟨z, hz, fun o => ?_⟩
      rw [← e]
      exact ⟨rfl, rfl⟩
  | scratch w o =>
    have e : t.storeOne x bs scope = t.updWg w fun g => { g with scratch := Mem.storeAll g.scratch o bs } := by
      simp only [State.storeOne, hx, State.locWrite, State.scratchWrite]
      rw [State.wg_updWg, if_pos rfl]
      cases hy : t.wg w with
      | none => rfl
      | some y => simp only [Option.map_some, hres w o y hx hy, if_true]
    rw [e]
    refine ⟨[], by rw [List.append_nil]; exact h.updShare w _ fun _ => rfl, by simp, rfl, fun v y hy => ?_⟩
    rw [State.wg_updWg]
    by_cases hvw : v = w
    · subst v
      refine ⟨{ y with scratch := Mem.storeAll y.scratch o bs }, by rw [if_pos rfl, hy]; rfl, fun q => ⟨?_, rfl⟩⟩
      simp only [scratchIn, if_true, stored, Mem.byte_storeAll]
    · refine ⟨y, by rw [if_neg hvw, hy], fun q => ⟨?_, rfl⟩⟩
      simp only [scratchIn, if_neg (Ne.symm hvw), stored]
  | acc w o =>
    have e : t.storeOne x bs scope = t.updWg w fun g => { g with acc := Mem.storeAll g.acc o bs } := by
      simp only [State.storeOne, hx, State.locWrite]
    rw [e]
    refine ⟨[], by rw [List.append_nil]; exact h.updShare w _ fun _ => rfl, by simp, rfl, fun v y hy => ?_⟩
    rw [State.wg_updWg]
    by_cases hvw : v = w
    · subst v
      refine ⟨{ y with acc := Mem.storeAll y.acc o bs }, by rw [if_pos rfl, hy]; rfl, fun q => ⟨rfl, ?_⟩⟩
      simp only [accIn, if_true, stored, Mem.byte_storeAll]
    · refine ⟨y, by rw [if_neg hvw, hy], fun q => ⟨rfl, ?_⟩⟩
      simp only [accIn, if_neg (Ne.symm hvw), stored]
end

/-! ### One access of the group (R25, R206) -/

theorem Gang.issued_bars (g : Gang) (s : State) (u : Use) : (g.issued s u).bars = g.bars ∧ (g.issued s u).watched = g.watched ∧
    (g.issued s u).wct = g.wct ∧ (g.issued s u).horizon = g.horizon ∧ (g.issued s u).seen = g.seen := by
  unfold Gang.issued; split <;> exact ⟨rfl, rfl, rfl, rfl, rfl⟩
theorem State.barred_congr {s t : State} {g g' : Gang} (hs : s.gang s.cur = some g) (ht : t.gang t.cur = some g')
    (hg : g'.bars = g.bars ∧ g'.watched = g.watched ∧ g'.wct = g.wct ∧ g'.horizon = g.horizon) (hr : t.reqs = s.reqs) (hc : t.cur = s.cur)
    (hp : t.ptb = s.ptb) (x : Acc) : t.barred x = s.barred x := by
  obtain ⟨h1, h2, h3, h4⟩ := hg
  have hov : ∀ b, t.barOver t.cur b = s.barOver s.cur b := fun b => by
    simp only [State.barOver, hs, ht, hr, hp, Option.map_some, Gang.watching, Gang.releaseTime, h2, h3, h4]
    rw [hc] <;> rfl
  simp only [State.barred, hs, ht, h1, hov, Option.map_some]
theorem loadedNow_congr {g g' : Gang} (h : g'.seen = g.seen) (s : State) (m : LaneMask) (l : Loc) (n : Nat) (signed : Bool) :
    loadedNow s g' m l n signed = loadedNow s g m l n signed := by
  cases l with
  | mem k p => simp only [loadedNow, State.hit, h]
  | scratch w o => rfl
  | acc w o => rfl
  | reg o => rfl

/-- A group's single access whose checks pass: it is made at once. -/
theorem State.access_one {s : State} {kind size lane : Nat} {m : LaneMask} {va : Word} {loc : Loc} (hk : s.check s.cur kind size va = .ok loc)
    (hu : s.upperLocked kind size ⟨lane, m, va, loc⟩ = false) (hr : s.noRoom s.cur [⟨lane, m, va, loc⟩] = false)
    {hold : State → Acc → Bool} (hh : hold s ⟨lane, m, va, loc⟩ = false) (half : State → Acc → State) (go : State → List Acc → State) :
    s.access kind size [(lane, m, va)] hold half go = go s [⟨lane, m, va, loc⟩] := by
  simp [State.access, hk, hu, hr, hh]

/-- The state in which a group's uniform access is made: `GSTAT.UDIV` is set under divergence. -/
def State.marked (s : State) : State := if s.diverged then s.setGstat 1 else s
theorem State.marked_onlyGang {s : State} {g : Gang} (hg : s.gang s.cur = some g) :
    OnlyGang s s.marked { g with gstat := g.gstat ||| if g.live ≠ s.mask then 1 else 0 } := by
  have hd : s.diverged = decide (g.live ≠ s.mask) := by
    simp only [State.diverged, hg, Option.map_some, Option.getD_some]
    rw [Bool.eq_iff_iff]; simp
  unfold State.marked
  rw [hd]
  by_cases h : g.live ≠ s.mask
  · rw [if_pos (by simpa using h), if_pos h]
    exact OnlyGang.updGang s _ g hg
  · rw [if_neg (by simpa using h), if_neg h]
    simpa using OnlyGang.refl s g hg
/-- What stands before an instruction of the gang's group is found again when it is issued. -/
structure State.Issued (s t : State) (u : Use) (g : Gang) : Prop where
  only : OnlyGang s t (g.issued s u)
  bare : t.bare = s.bare
theorem State.issue_issued (s : State) (u : Use) (g : Gang) (body : State → State) (h : s.Admits u g) :
    ∃ t, s.issue u body = .next (body t) ∧ s.Issued t u g := by
  obtain ⟨t, h1, h2⟩ := s.gate_admits u g h
  exact ⟨t, by unfold State.issue; rw [h1], h2, State.gate_bare h1⟩
theorem State.Issued.issuer {s t : State} {u : Use} {g : Gang} (h : s.Issued t u g) : t.gang t.cur = some (g.issued s u) := by
  rw [h.only.cur]; exact h.only.issuer
theorem State.Issued.uni {s t : State} {u : Use} {g : Gang} (h : s.Issued t u g) (n : Nat) : t.uni n = g.sreg n := by
  obtain ⟨-, hs, -⟩ := Gang.issued_fields g s u
  simp only [State.uni, h.issuer, Option.map_some, Option.getD_some, Gang.sreg, hs]

theorem State.Issued.uniAccess {s t : State} {u : Use} {g : Gang} (h : s.Issued t u g) (hg : s.gang s.cur = some g) {kind size : Nat}
    {va : Word} {loc : Loc} (hd : ¬UdivTraps s g 1) (hm : MayIssue s kind size [⟨32, s.mask, va, loc⟩]) (hk : kind = 0 ∨ kind = 1)
    (go : State → Acc → State) : t.uniAccess kind size va go = go t.marked ⟨32, s.mask, va, loc⟩ := by
  obtain ⟨-, -, -, -, -, -, -, hgs, hl, -⟩ := Gang.issued_fields g s u
  obtain ⟨b1, b2, b3, b4, -⟩ := Gang.issued_bars g s u
  have hx : (⟨32, s.mask, va, loc⟩ : Acc) ∈ [(⟨32, s.mask, va, loc⟩ : Acc)] := List.mem_singleton_self _
  have hc : t.check t.cur kind size va = .ok loc := by
    rw [h.only.cur, State.same_of_bare h.bare (·.check s.cur kind size va) fun v => v.bare_check ..]
    exact hm.checked _ hx
  have hup : t.upperLocked kind size ⟨32, s.mask, va, loc⟩ = false :=
    (State.same_of_bare h.bare (·.upperLocked kind size ⟨32, s.mask, va, loc⟩) fun v => v.bare_upperLocked ..).trans (hm.halves _ hx)
  have hr : t.noRoom t.cur [⟨32, s.mask, va, loc⟩] = false := by
    rw [h.only.cur, State.same_of_bare h.bare (·.noRoom s.cur [⟨32, s.mask, va, loc⟩]) fun v => v.bare_noRoom ..]
    exact hm.room
  have hh : t.held? ⟨32, s.mask, va, loc⟩ size = false :=
    (State.same_of_bare h.bare (·.held? ⟨32, s.mask, va, loc⟩ size) fun v => rfl).trans (hm.free _ hx)
  have hb : (kind = 1 && t.barred ⟨32, s.mask, va, loc⟩) = false := by
    rw [State.barred_congr hg h.issuer ⟨b1, b2, b3, b4⟩ h.only.reqs h.only.cur h.only.ptb]
    obtain rfl | rfl := hk
    · rfl
    · rw [hm.fenced.resolve_left (by omega) _ hx, Bool.and_false]
  have hgo : ¬(((1 : Nat) ≠ 0 && t.diverged && ((t.gang t.cur).map fun g => g.gstat.getLsbD 1).getD false) = true) := by
    intro e
    refine hd ⟨by decide, ?_, ?_⟩
    · simp only [State.diverged, h.issuer, Option.map_some, Option.getD_some, hl, h.only.mask, Bool.and_eq_true] at e
      simpa using e.1.2
    · simp only [h.issuer, Option.map_some, Option.getD_some, hgs, Bool.and_eq_true] at e
      exact e.2
  unfold State.uniAccess State.uniGuard
  rw [if_neg hgo]
  dsimp only
  rw [h.only.mask, State.access_one hc hup hr (by rw [hb, hh]; rfl)]
  simp [State.marked]

/-! ### The pcs afterwards -/

/-- What a group that goes on with its pcs leaves of its gang. -/
theorem Gang.goesOn {s : State} {u : Use} {g gd : Gang} {fs : List Flight} {b : Word}
    (h : Gang.Drifts { g.issued s u with gstat := b } gd fs) (m : LaneMask) (la : Nat) (d : Dest) :
    GoesOn g { (gd.finishAll m).openAll m la d with gstat := g.gstat } m ∧ ((gd.finishAll m).openAll m la d).gstat = b ∧
      ((gd.finishAll m).openAll m la d).flights = g.flights ++ fs := by
  obtain ⟨e1, e2, e3, e4, e5, e6, e7, e8, e9, e10⟩ := Gang.issued_fields g s u
  obtain ⟨hf, hr⟩ := h
  obtain ⟨f1, f2, f3, f4, f5, f6, f7, f8, f9⟩ := Gang.finishIn_spec (lanesOf m) (lanesOf_nodup m) gd
  obtain ⟨o1, o2, o3, o4, o5, o6, o7, o8⟩ := Gang.openAll_spec (gd.finishAll m) m la d
  have hv := congrArg (fun x : Gang => (x.v, x.s, x.g, x.fcr)) hr
  have hp := congrArg (fun x : Gang => x.pc) hr
  have ht := congrArg (fun x : Gang => x.status) hr
  have hst := congrArg (fun x : Gang => x.gstat) hr
  simp only [Prod.mk.injEq] at hv hp ht hst
  obtain ⟨v1, v2, v3, v4⟩ := hv
  have lanes : ∀ h, ((gd.finishAll m).openAll m la d).withLanesOf h = gd.withLanesOf h := fun h => (o8 h).trans (f9 h)
  refine ⟨⟨fun l hl => ?_, fun l hl => ?_, ⟨?_, ?_, ?_, ?_⟩, ?_⟩, ?_, ?_⟩
  · have : ((gd.finishAll m).openAll m la d).pcOf l = (gd.finishAll m).pcOf l := by simp only [Gang.pcOf, o4]
    exact this.trans ((f1 l).trans (by simp only [mem_lanesOf m l hl, Gang.pcOf, hp, e4]))
  · have : ((gd.finishAll m).openAll m la d).stat l = (gd.finishAll m).stat l := by simp only [Gang.stat, o6]
    exact this.trans ((f2 l).trans (by simp only [mem_lanesOf m l hl, Gang.stat, ht, e6]))
  · exact o1.trans (f3.trans (v1.trans e1))
  · exact o2.trans (f4.trans (v2.trans e2))
  · exact o3.trans (f5.trans (v3.trans e3))
  · exact o5.trans (f6.trans (v4.trans e5))
  · calc ({ Gang.withLanesOf { (gd.finishAll m).openAll m la d with gstat := g.gstat } g with
          horizon := g.horizon, seen := g.seen, wct := g.wct, watched := g.watched } : Gang)
        = { ((gd.finishAll m).openAll m la d).withLanesOf g with
          gstat := g.gstat, horizon := g.horizon, seen := g.seen, wct := g.wct, watched := g.watched } := rfl
      _ = { gd.withLanesOf g with
          gstat := g.gstat, horizon := g.horizon, seen := g.seen, wct := g.wct, watched := g.watched } := by rw [lanes]
      _ = { Gang.withLanesOf { gd with
            flights := (g.issued s u).flights, horizon := (g.issued s u).horizon, seen := (g.issued s u).seen
            wct := (g.issued s u).wct, watched := (g.issued s u).watched } g with
          gstat := g.gstat, horizon := g.horizon, seen := g.seen, wct := g.wct, watched := g.watched } := rfl
      _ = { (g.issued s u).withLanesOf g with
          gstat := g.gstat, horizon := g.horizon, seen := g.seen, wct := g.wct, watched := g.watched } := by rw [hr]; rfl
      _ = g := by rw [e10]
  · have := congrArg Gang.gstat (lanes g)
    exact this.trans hst
  · exact o7.trans (f7.trans (hf.trans (congrArg (· ++ fs) e7)))

end Sys2Proof.Machine
end

section
/-! `sld` and `sst` (R25, R199, R202, R206). -/

namespace Sys2Proof.Proofs
open Machine

section
variable {s t : State} {u : Use} {g : Gang}

theorem marked_bare (t : State) : t.marked.bare = t.bare := by
  unfold State.marked
  split
  · exact State.setGstat_bare t 1
  · rfl
theorem issued_loadedNow (h : s.Issued t u g) (m : LaneMask) (l : Loc) (n : Nat) (signed : Bool) :
    loadedNow t.marked (Gang.issued g s u) m l n signed = loadedNow s g m l n signed := by
  obtain ⟨-, -, -, -, hs⟩ := Gang.issued_bars g s u
  rw [loadedNow_congr hs]
  exact State.same_of_bare ((marked_bare t).trans h.bare) (loadedNow · g m l n signed) fun v => v.bare_loadedNow ..

/-- The gang in which a uniform access is made. -/
theorem issued_marked (h : s.Issued t u g) {field : Workgroup → Workgroup → Workgroup}
    (hf : ∀ x, field x x = x) (ha : Aside field) :
    s.Asks t.marked { g.issued s u with gstat := g.gstat ||| if g.live ≠ s.mask then 1 else 0 } field [] := by
  obtain ⟨-, -, -, -, -, -, -, hgs, hl, -⟩ := Gang.issued_fields g s u
  have h1 := State.marked_onlyGang h.issuer
  have e : ((g.issued s u).gstat ||| if (g.issued s u).live ≠ t.mask then (1 : Word) else 0) =
      g.gstat ||| if g.live ≠ s.mask then 1 else 0 := by rw [hgs, hl, h.only.mask]
  rw [e] at h1
  exact State.Asks.of_onlyGang hf ha (h.only.trans h1)
end

theorem uniformSize_ne (w : BitVec 2) : 2 ^ w.toNat ≠ 16 := by
  have h : 2 ^ w.toNat ≤ 2 ^ 3 := Nat.pow_le_pow_right (by omega) (by omega)
  omega
/-- What one access stores in a share, as the stores of a group are laid there. -/
theorem stored_laid (place : Loc → Option Nat) (loc : Loc) (size v o : Nat) (f : Nat → Byte) :
    stored (place loc) (leBytes size v) f o = laid [32] (fun _ => place loc) (fun _ => leBytes size v) size o (f o) := by
  simp only [laid, List.foldl_cons, List.foldl_nil]
  cases place loc with
  | none => rfl
  | some q => simp only [stored, Machine.written, leBytes_length]

theorem uniformLoad (s : State) (g : Gang) (d a : BitVec 6) (w : BitVec 2) (o : BitVec 7) (la : BitVec 4) (loc : Loc)
    (hadm : s.Admits { Use.regs [] [d.toNat, a.toNat] with mem := true } g) (hd : ¬UdivTraps s g 1)
    (hm : MayIssue s 0 (2 ^ w.toNat) [⟨32, s.mask, g.sreg a.toNat + BitVec.ofInt 64 ((2 ^ w.toNat : Nat) * o.toInt), loc⟩]) :
    ∃ t g' f rs, exec (.sld d a w o la) s = .next t ∧ OnlyAnd s t g' (asked s) noneOf ∧ OnlyMoved s t ∧
      GoesOn g { g' with gstat := g.gstat } s.mask ∧ g'.gstat = g.gstat ||| (if g.live ≠ s.mask then 1 else 0) ∧ g'.flights = g.flights ++ [f] ∧
      f.lane = 32 ∧ f.lanes = s.mask ∧ f.regs = (if d = 0 then [] else [d.toNat]) ∧
      f.vals = loadedNow s g s.mask loc (2 ^ w.toNat) false ∧ t.reqs = s.reqs ++ rs ∧
      (f.vals.isSome = true → rs = []) ∧
      (∀ k p, loc = .mem k p → f.vals = none → ∃ r, rs = [r] ∧ r.kind = .load ∧ r.key = k ∧ r.size = 2 ^ w.toNat ∧ r.flight = some f.id) ∧
      ∀ k, t.homeByte k = s.homeByte k := by
  have hg := hadm.agent
  obtain ⟨t, he, hi⟩ := s.issue_issued _ g (fun s => s.uniAccess 0 (2 ^ w.toNat) (s.uni a.toNat + BitVec.ofInt 64 ((2 ^ w.toNat : Nat) * o.toInt))
    fun s x => (s.load x (2 ^ w.toNat) false false (if d = 0 then [] else [d.toNat])).accDone s.mask (if d = 0 then 0 else la.toNat)
      (.uniforms (if d = 0 then [] else [d.toNat]))) hadm
  rw [hi.uni, hi.uniAccess hg hd hm (.inl rfl)] at he
  have hmk := issued_marked hi (fun _ => rfl) aside_noneOf
  obtain ⟨g1, f, rs, h1, hdr, hl, hls, hreg, hv, -, -, -, hnow, hreq⟩ := State.load_asks aside_noneOf hmk
    ⟨32, s.mask, g.sreg a.toNat + BitVec.ofInt 64 ((2 ^ w.toNat : Nat) * o.toInt), loc⟩ (2 ^ w.toNat) false false (if d = 0 then [] else [d.toNat])
  have h2 := h1.updGang aside_noneOf fun g => (g.finishAll t.marked.mask).openAll t.marked.mask (if d = 0 then 0 else la.toNat)
    (.uniforms (if d = 0 then [] else [d.toNat]))
  rw [hmk.mask_eq] at h2
  obtain ⟨k1, k2, k3⟩ := Gang.goesOn hdr s.mask (if d = 0 then 0 else la.toNat) (.uniforms (if d = 0 then [] else [d.toNat]))
  refine ⟨_, (g1.finishAll s.mask).openAll s.mask (if d = 0 then 0 else la.toNat) (.uniforms (if d = 0 then [] else [d.toNat])), f, rs, he, ?_⟩
  rw [hmk.mask_eq]
  have hv' : loadedNow t.marked { g.issued s _ with gstat := _ } s.mask loc (2 ^ w.toNat) false = _ :=
    (loadedNow_congr rfl t.marked s.mask loc (2 ^ w.toNat) false).trans (issued_loadedNow hi s.mask loc (2 ^ w.toNat) false)
  refine ⟨h2.only, h2.moved, k1, k2, k3, hl, hls, hreg, hv.trans hv', h2.reqs, hnow, fun k p hk hn => ?_, h2.homes⟩
  obtain ⟨r, hr, r1, -, -, -, r2, r3, r4, -⟩ := hreq k p hk hn
  exact ⟨r, hr, r1, r2, r3, r4⟩

theorem uniformStore (s : State) (g : Gang) (a b : BitVec 6) (w : BitVec 2) (q : BitVec 11) (loc : Loc)
    (hadm : s.Admits { Use.regs [] [a.toNat, b.toNat] with mem := true } g) (hres : ResidentShares s [32] fun _ => loc)
    (hd : ¬UdivTraps s g 1)
    (hm : MayIssue s 1 (2 ^ w.toNat) [⟨32, s.mask, g.sreg b.toNat + BitVec.ofInt 64 ((2 ^ w.toNat : Nat) * q.toInt), loc⟩]) :
    ∃ t g' rs, exec (.sst a b w q) s = .next t ∧ OnlyAnd s t g' (asked s) sharesOf ∧ OnlyMoved s t ∧
      GoesOn g { g' with gstat := g.gstat } s.mask ∧ g'.gstat = g.gstat ||| (if g.live ≠ s.mask then 1 else 0) ∧ g'.flights = g.flights ∧
      Stored s t [32] (fun _ => loc) (2 ^ w.toNat) (fun _ => leBytes (2 ^ w.toNat) (g.sreg a.toNat).toNat) none rs := by
  have hg := hadm.agent
  obtain ⟨t, he, hi⟩ := s.issue_issued _ g (fun s => s.uniAccess 1 (2 ^ w.toNat) (s.uni b.toNat + BitVec.ofInt 64 ((2 ^ w.toNat : Nat) * q.toInt))
    fun s x => (s.store x (leBytes (2 ^ w.toNat) (s.uni a.toNat).toNat) none).finish s.mask) hadm
  rw [hi.uni, hi.uniAccess hg hd hm (.inr rfl)] at he
  have hmk := issued_marked hi (field := sharesOf) (fun _ => rfl) aside_sharesOf
  have hmk' := issued_marked hi (field := noneOf) (fun _ => rfl) aside_noneOf
  have hwg : ∀ v x, s.wg v = some x → ∃ y, t.marked.wg v = some y ∧ y.place = x.place ∧ y.scratch = x.scratch ∧ y.acc = x.acc := by
    intro v x hx
    obtain ⟨y, hy, e⟩ := hmk'.only.workgroups v x hx
    exact ⟨y, hy, by rw [← e]; rfl, by rw [← e]; rfl, by rw [← e]; rfl⟩
  have hres' : ∀ v o y, loc = .scratch v o → t.marked.wg v = some y → y.place.isSome = true := by
    intro v o y hl hy
    have hb : s.bare.wg v = some y.bare := by rw [← hi.bare, ← marked_bare, State.bare_wg, hy]; rfl
    obtain ⟨x, hx, -⟩ := Option.map_eq_some_iff.mp ((State.bare_wg s v).symm.trans hb)
    obtain ⟨y', hy', hp, -⟩ := hwg v x hx
    rw [hy] at hy'
    cases hy'
    rw [hp]
    exact (hres 32 (List.mem_singleton_self _)).2 v o x hl hx
  obtain ⟨rs, h1, hk, he', hsh⟩ := State.storeOne_asks hmk ⟨32, s.mask, g.sreg b.toNat + BitVec.ofInt 64 ((2 ^ w.toNat : Nat) * q.toInt), loc⟩
    (leBytes (2 ^ w.toNat) (g.sreg a.toNat).toNat) none (hres 32 (List.mem_singleton_self _)).1 hres'
  have hsize : 2 ^ w.toNat ≠ 16 := uniformSize_ne w
  have hstore : t.marked.store ⟨32, s.mask, g.sreg b.toNat + BitVec.ofInt 64 ((2 ^ w.toNat : Nat) * q.toInt), loc⟩
      (leBytes (2 ^ w.toNat) (t.marked.uni a.toNat).toNat) none = t.marked.storeOne
        ⟨32, s.mask, g.sreg b.toNat + BitVec.ofInt 64 ((2 ^ w.toNat : Nat) * q.toInt), loc⟩ (leBytes (2 ^ w.toNat) (g.sreg a.toNat).toNat) none := by
    have hu : t.marked.uni a.toNat = g.sreg a.toNat := by
      obtain ⟨-, hs, -⟩ := Gang.issued_fields g s { Use.regs [] [a.toNat, b.toNat] with mem := true }
      simp only [State.uni, hmk.issuer, Option.map_some, Option.getD_some, Gang.sreg, hs]
    rw [hu, State.store, leBytes_length, if_neg hsize]
  rw [hstore, hmk.mask_eq] at he
  have h2 := h1.updGang aside_sharesOf fun g => g.finishAll s.mask
  obtain ⟨k1, k2, k3⟩ := Gang.goesOn (s := s) (u := { Use.regs [] [a.toNat, b.toNat] with mem := true }) (g := g)
    (b := g.gstat ||| if g.live ≠ s.mask then 1 else 0) (fs := []) ⟨(List.append_nil _).symm, rfl⟩ s.mask 0 (.lanes [] none)
  refine ⟨_, _, rs, he, h2.only, h2.moved, k1, k2, k3.trans (List.append_nil _), h2.reqs, ?_, fun r hr => ?_, fun v x hx => ?_, h2.homes⟩
  · rw [he']
    cases loc with
    | mem k p => simp [parts, hsize, List.take_of_length_le]
    | scratch v o => simp [parts]
    | acc v o => simp [parts]
    | reg o => simp [parts]
  · obtain ⟨r1, r2, r3, r4⟩ := hk r hr
    exact ⟨r1, r2.trans hmk.cur_eq, r3, r4⟩
  · obtain ⟨y, hy, -, hs, ha⟩ := hwg v x hx
    obtain ⟨z, hz, hb⟩ := hsh v y hy
    obtain ⟨z', hz', e⟩ := (OnlyGang.updGang _ (fun g => g.finishAll s.mask) _ h1.issuer).workgroups v z hz
    refine ⟨z', hz', fun o => ?_⟩
    obtain ⟨b1, b2⟩ := hb o
    rw [show z'.scratch = z.scratch by rw [← e], show z'.acc = z.acc by rw [← e], b1, b2, hs, ha]
    exact ⟨stored_laid .., stored_laid ..⟩

/-- Settles O28: the group's one access is made as its gang issued it, whether a load or a store. -/
theorem uniformAccesses : Obligations.UniformAccesses := by
  intro s g d a b w o q la size udiv acc
  exact ⟨fun loc hadm h => uniformLoad s g d a w o la loc hadm h.1 h.2,
    fun loc hadm hres h => uniformStore s g a b w q loc hadm hres h.1 h.2⟩

end Sys2Proof.Proofs
end

section
/-! Which threads live (R133): what leaves it as it is — writes, barriers, convergence registers, traps. -/

namespace Sys2Proof.Machine

/-- The live threads of an agent, and whether it has ended. -/
def State.lives (s : State) (a : Agent) : Option (LaneMask × Bool) := (s.gang a).map fun g => (g.live, g.ended)
/-- Neither the live threads of an agent nor whether it has ended differ. -/
def SameLives (s t : State) : Prop := ∀ a, t.lives a = s.lives a

section
variable {s t u : State}

theorem SameLives.refl (s : State) : SameLives s s := fun _ => rfl
theorem SameLives.trans (h : SameLives s t) (k : SameLives t u) : SameLives s u := fun a => (k a).trans (h a)
theorem sameLives_of_gangs (h : ∀ a, t.gang a = s.gang a) : SameLives s t := fun a => by rw [State.lives, h]; rfl
theorem sameLives_of_tables (h : t.wgs = s.wgs) (k : t.scalars = s.scalars) : SameLives s t :=
  sameLives_of_gangs fun a => by
    cases a with
    | core i => simp only [State.gang, State.scalar, k]
    | gang w i => simp only [State.gang, State.wg, h]
theorem sameLives_of_offHome (h : t.offHome = s.offHome) : SameLives s t :=
  sameLives_of_tables (State.same_of_offHome h (·.wgs) fun _ => rfl) (State.same_of_offHome h (·.scalars) fun _ => rfl)
theorem sameLives_foldl {α : Type} (f : State → α → State) (h : ∀ s x, SameLives s (f s x)) (xs : List α) (s : State) :
    SameLives s (xs.foldl f s) :=
  foldl_keeps (p := SameLives s) f (fun t x ht => ht.trans (h t x)) xs s (SameLives.refl s)

theorem State.gang_updGang (s : State) (a b : Agent) (f : Gang → Gang) :
    (s.updGang a f).gang b = if b = a then (s.gang b).map f else s.gang b := by
  split
  · subst b
    cases h : s.gang a with
    | none => simp only [State.updGang, h]; rfl
    | some g => exact State.gang_updGang_same s a f g h
  · exact State.gang_updGang_other s a b f ‹_›
theorem sameLives_updGang (s : State) (a : Agent) (f : Gang → Gang) (hf : ∀ g, (f g).live = g.live ∧ (f g).ended = g.ended) :
    SameLives s (s.updGang a f) := fun b => by
  rw [State.lives, State.gang_updGang]
  split
  · rw [State.lives, Option.map_map]
    exact congrArg (fun h => (s.gang b).map h) (funext fun g => by simp only [Function.comp, (hf g).1, (hf g).2])
  · rfl
theorem State.gang_updWg (s : State) (w : Nat) (f : Workgroup → Workgroup) (hf : ∀ x, (f x).gangs = x.gangs) (a : Agent) :
    (s.updWg w f).gang a = s.gang a := by
  cases a with
  | core i => rfl
  | gang v i =>
    simp only [State.gang, State.wg_updWg]
    split
    · cases s.wg v with
      | none => rfl
      | some x => simp only [Option.map_some, Option.bind_some, hf]
    · rfl
theorem sameLives_updWg (s : State) (w : Nat) (f : Workgroup → Workgroup) (hf : ∀ x, (f x).gangs = x.gangs) : SameLives s (s.updWg w f) :=
  sameLives_of_gangs (s.gang_updWg w f hf)

/-! ### Writes of the model's parts -/

theorem State.partWrite_offHome {s t : State} {c : Ctx} {va : Word} {bs : List Byte} (h : s.partWrite c va bs = .ok t) :
    t.offHome = s.offHome := by
  unfold State.partWrite State.writeAt at h
  split at h
  · cases h
  · cases h
    exact foldl_keeps (p := fun t => t.offHome = s.offHome) _ (fun t p h => (t.write_part_offHome none p.1 p.2).trans h) _ s rfl
theorem sameLives_scratchWrite (s : State) (w o : Nat) (bs : List Byte) : SameLives s (s.scratchWrite w o bs) := by
  have h1 := sameLives_updWg s w (fun g => { g with scratch := Mem.storeAll g.scratch o bs }) fun _ => rfl
  unfold State.scratchWrite
  dsimp only
  generalize s.updWg w _ = t at h1 ⊢
  cases t.wg w with
  | none => exact h1
  | some g =>
    dsimp only
    split
    · exact h1
    · cases t.launchOf g with
      | none => exact h1
      | some x =>
        dsimp only
        cases hw : t.partWrite (tenantCtx x.pasid) (x.saveAt g.wgid + BitVec.ofNat 64 o) bs with
        | ok u => exact h1.trans (sameLives_of_offHome (State.partWrite_offHome hw))
        | error e => exact h1.trans (sameLives_of_tables rfl rfl)
theorem sameLives_wiredWrite (s : State) (tenant pasid : Nat) (va : Word) (bs : List Byte) : SameLives s (s.wiredWrite tenant pasid va bs) := by
  unfold State.wiredWrite
  split
  · exact SameLives.refl s
  · cases hw : s.partWrite (tenantCtx pasid) va bs with
    | ok u => exact sameLives_of_offHome (State.partWrite_offHome hw)
    | error e => exact sameLives_of_tables rfl rfl

/-! ### Traps and uniform writes of a gang -/

theorem sameLives_postFault (s : State) (cl : Nat) (r : List Byte) : SameLives s (s.postFault cl r) :=
  sameLives_of_gangs (s.postFault_gang cl r)
theorem sameLives_raise (s : State) (w i : Nat) (ts : List (Nat × Trap)) : SameLives s (s.raise (.gang w i) ts) := by
  unfold State.raise
  dsimp only
  cases s.wg w with
  | none => exact SameLives.refl s
  | some x =>
    refine SameLives.trans ?_ (sameLives_foldl _ (fun t q => sameLives_postFault t _ _) _ _)
    refine (sameLives_updGang s _ _ fun g => ?_).trans (sameLives_updWg _ w _ fun _ => rfl)
    obtain ⟨tb, h⟩ := g.each_setStat (maskOf (ts.map Prod.fst)) .fault
    rw [h]
    exact ⟨rfl, rfl⟩
theorem Gang.finishAll_lives (g : Gang) (m : LaneMask) : (g.finishAll m).live = g.live ∧ (g.finishAll m).ended = g.ended := by
  have h := (Gang.finishIn_spec (lanesOf m) (lanesOf_nodup m) g).2.2.2.2.2.2.2.2 g
  have h' := congrArg (fun x : Gang => (x.live, x.ended)) h
  exact Prod.mk.inj h'
theorem Gang.openAll_lives (g : Gang) (m : LaneMask) (n : Nat) (d : Dest) : (g.openAll m n d).live = g.live ∧ (g.openAll m n d).ended = g.ended := by
  unfold Gang.openAll; split <;> exact ⟨rfl, rfl⟩
theorem Gang.foldl_setS_lives (rs : List (Nat × Word)) : ∀ g : Gang,
    (rs.foldl (fun g p => g.setS p.1 p.2) g).live = g.live ∧ (rs.foldl (fun g p => g.setS p.1 p.2) g).ended = g.ended := by
  induction rs with
  | nil => exact fun _ => ⟨rfl, rfl⟩
  | cons p rs ih =>
    intro g
    obtain ⟨h1, h2⟩ := ih (g.setS p.1 p.2)
    have h := Gang.setS_rest g g p.1 p.2
    obtain ⟨k1, k2⟩ := Prod.mk.inj (congrArg (fun x : Gang => (x.live, x.ended)) h)
    exact ⟨h1.trans k1, h2.trans k2⟩
theorem sameLives_finish (s : State) (m : LaneMask) : SameLives s (s.finish m) :=
  sameLives_updGang s _ _ fun g => g.finishAll_lives m
theorem sameLives_setGstat (s : State) (b : Word) : SameLives s (s.setGstat b) := sameLives_updGang s _ _ fun _ => ⟨rfl, rfl⟩
theorem sameLives_setUni {s : State} {w i : Nat} (hc : s.cur = .gang w i) (d : Nat) (x : Word) (la : Nat) : SameLives s (s.setUni d x la) := by
  have write : ∀ rs : List (Nat × Word), ∀ t : State, SameLives t (t.updGang t.cur fun g =>
      ((rs.foldl (fun g p => g.setS p.1 p.2) g).finishAll t.mask).openAll t.mask la (.uniforms (rs.map Prod.fst))) := fun rs t =>
    sameLives_updGang t _ _ fun g => by
      obtain ⟨a1, a2⟩ := Gang.foldl_setS_lives rs g
      obtain ⟨b1, b2⟩ := Gang.finishAll_lives (rs.foldl (fun g p => g.setS p.1 p.2) g) t.mask
      obtain ⟨c1, c2⟩ := Gang.openAll_lives ((rs.foldl (fun g p => g.setS p.1 p.2) g).finishAll t.mask) t.mask la (.uniforms (rs.map Prod.fst))
      exact ⟨c1.trans (b1.trans a1), c2.trans (b2.trans a2)⟩
  unfold State.setUni State.setUnis State.uniformWrite
  dsimp only
  split
  · exact sameLives_finish s _
  · split
    · split
      · refine (sameLives_setGstat s 1).trans ?_
        have : (s.setGstat 1).cur = .gang w i := by
          rw [← hc]; unfold State.setGstat State.updGang; cases s.gang s.cur <;> simp
        rw [State.raiseAll, this]
        exact sameLives_raise _ w i _
      · exact (write _ s).trans (sameLives_setGstat _ 1)
    · exact write _ s

/-! ### Barriers (R309 to R316) -/

theorem sameLives_as_setUni (s : State) (w i : Nat) (m : LaneMask) (d : Nat) (x : Word) (la : Nat) :
    SameLives s (s.as (.gang w i) m fun s => s.setUni d x la) := by
  have h1 : SameLives s { s with cur := .gang w i, mask := m } := sameLives_of_tables rfl rfl
  have h2 := sameLives_setUni (s := { s with cur := .gang w i, mask := m }) rfl d x la
  unfold State.as
  dsimp only
  exact (h1.trans h2).trans (sameLives_of_tables rfl rfl)
theorem sameLives_setObj (s : State) (w off : Nat) (o : Obj) : SameLives s (s.setObj w off o) := sameLives_scratchWrite s w off _
theorem sameLives_setReg (s : State) (w off : Nat) (r : BarReg) : SameLives s (s.setReg w off r) := sameLives_updWg s w _ fun _ => rfl
theorem sameLives_barRelease (s : State) (w off : Nat) (x : Word) : SameLives s (s.barRelease w off x) := by
  unfold State.barRelease
  cases s.wg w with
  | none => exact SameLives.refl s
  | some g => exact sameLives_foldl _ (fun t p => sameLives_foldl _ (fun u q => sameLives_as_setUni u w _ _ _ _ _) _ t) _ s
theorem sameLives_endArrive (s : State) (w i off n d : Nat) (extra : Word) : SameLives s (s.endArrive w i off n d extra) := by
  unfold State.endArrive
  cases s.gang (.gang w i) with
  | none => exact SameLives.refl s
  | some g =>
    dsimp only
    split
    · exact sameLives_as_setUni s w i _ _ _ _
    · exact (sameLives_of_tables rfl rfl : SameLives s s.unstated.2).trans (sameLives_as_setUni _ w i _ _ _ _)
theorem foldl_setStat_lives {α : Type} (f : α → Nat) (st : Status) (ls : List α) (g : Gang) :
    (ls.foldl (fun g l => g.setStat (f l) st) g).live = g.live ∧ (ls.foldl (fun g l => g.setStat (f l) st) g).ended = g.ended := by
  induction ls generalizing g with
  | nil => exact ⟨rfl, rfl⟩
  | cons l ls ih => exact ih (g.setStat (f l) st)
theorem sameLives_arriveIssue (s : State) (w i off n d : Nat) : SameLives s (s.arriveIssue w i off n d).1 := by
  unfold State.arriveIssue
  cases s.wg w with
  | none => exact SameLives.refl s
  | some wg =>
    cases s.gang (.gang w i) with
    | none => exact SameLives.refl s
    | some g =>
      dsimp only
      cases Tab.find wg.registry off with
      | none => exact SameLives.refl s
      | some r0 =>
        dsimp only
        generalize List.foldl _ (r0, (wg.obj off).arrpend, []) _ = r
        generalize (if (wg.obj off).phase = true then 1 else 0) = p
        have h := (sameLives_setReg s w off r.1).trans ((sameLives_setObj _ w off
          ((wg.obj off).put (wg.obj off).poison (wg.obj off).phase (wg.obj off).arrcnt r.2.1)).trans (sameLives_updGang _ (.gang w i)
            (fun g => r.2.2.foldl (fun g l => g.setStat l (.barArrive off d n true p)) g)
            fun g => foldl_setStat_lives id _ r.2.2 g))
        split
        · exact h.trans (sameLives_endArrive _ w i off n d 0)
        · exact h
theorem sameLives_barTest (k : Nat) : ∀ (s : State) (w off : Nat), SameLives s (State.barTest k s w off) := by
  induction k with
  | zero => exact fun s _ _ => SameLives.refl s
  | succ k ih =>
    intro s w off
    unfold State.barTest
    cases s.wg w with
    | none => exact SameLives.refl s
    | some g =>
      dsimp only
      cases Tab.find g.registry off with
      | none => exact SameLives.refl s
      | some r =>
        dsimp only
        split
        · exact SameLives.refl s
        · refine SameLives.trans (((sameLives_setObj s w off _).trans (sameLives_setReg _ w off _)).trans (sameLives_barRelease _ w off 0))
            (sameLives_foldl _ (fun t p => sameLives_foldl _ (fun u q => ?_) _ t) _ _)
          have h := sameLives_arriveIssue u w p.1 off q.1 q.2
          split
          · exact h.trans (ih _ w off)
          · exact h
theorem sameLives_barDepart (s : State) (w i : Nat) (m : LaneMask) : SameLives s (s.barDepart w i m) := by
  unfold State.barDepart
  cases s.wg w with
  | none => exact SameLives.refl s
  | some g =>
    refine sameLives_foldl _ (fun t p => sameLives_foldl _ (fun u l => ?_) _ t) _ s
    cases u.wg w with
    | none => exact SameLives.refl u
    | some g =>
      dsimp only
      cases Tab.find g.registry p.1 with
      | none => exact SameLives.refl u
      | some r =>
        dsimp only
        split
        · exact SameLives.refl u
        · generalize (r.arrived &&& tidBit i l != 0) = came
          cases came with
          | true => exact (sameLives_setReg u w p.1 _).trans (sameLives_setObj _ w p.1 _)
          | false => exact ((sameLives_setReg u w p.1 _).trans (sameLives_setObj _ w p.1 _)).trans (sameLives_barTest 1025 _ w p.1)

/-! ### Convergence registers (R136 to R141) -/

theorem sameLives_setCv (s : State) (w n : Nat) (c : Conv) : SameLives s (s.setCv w n c) := sameLives_updWg s w _ fun _ => rfl
theorem Gang.setV_lives (g : Gang) (lane n : Nat) (x : Word) : (g.setV lane n x).live = g.live ∧ (g.setV lane n x).ended = g.ended := by
  unfold Gang.setV Gang.mark
  split <;> exact ⟨rfl, rfl⟩
theorem sameLives_deliverV (s : State) (a : Agent) (lane n : Nat) (x : Word) : SameLives s (s.deliverV a lane n x) := by
  unfold State.deliverV
  cases s.gang a with
  | none => exact SameLives.refl s
  | some g =>
    dsimp only
    split
    · exact sameLives_updGang s a _ fun g => g.setV_lives lane n x
    · cases a with
      | core i => exact SameLives.refl s
      | gang w i =>
        dsimp only
        unfold State.imageWrite
        cases s.wg w with
        | none => exact SameLives.refl s
        | some g =>
          dsimp only
          cases s.launchOf g with
          | none => exact SameLives.refl s
          | some l => exact sameLives_wiredWrite s _ _ _ _
theorem sameLives_proceed (s : State) (a : Agent) (lane la : Nat) (d : Dest) : SameLives s (s.proceed a lane la d) :=
  sameLives_updGang s a _ fun _ => Gang.openAll_lives _ _ _ _
theorem sameLives_gathered (s : State) (w n : Nat) : SameLives s (s.gathered w n) := by
  unfold State.gathered
  cases s.wg w with
  | none => exact SameLives.refl s
  | some g =>
    dsimp only
    split
    · refine (sameLives_setCv s w n _).trans (sameLives_foldl _ (fun t q => ?_) _ _)
      split
      · exact sameLives_proceed t _ _ _ _
      · exact (sameLives_deliverV t _ _ _ _).trans (sameLives_proceed _ _ _ _ _)
    · exact SameLives.refl s
theorem sameLives_cvDepart (s : State) (w i : Nat) (m : LaneMask) : SameLives s (s.cvDepart w i m) := by
  unfold State.cvDepart
  refine sameLives_foldl _ (fun t n => ?_) _ s
  cases t.wg w with
  | none => exact SameLives.refl t
  | some g => exact (sameLives_setCv t w n _).trans (sameLives_gathered _ w n)
end

end Sys2Proof.Machine
end

section
/-! Writes at homes, whichever part of the chip makes them: the bytes that they leave are the same (R161, R184). -/

namespace Sys2Proof.Machine

/-- What homes and L1s hold, and nothing else. -/
def State.shelf (s : State) : State := { (default : State) with mem := s.mem, homes := s.homes, l1 := s.l1 }

theorem State.same_of_shelf {α : Type} {s t : State} (h : s.shelf = t.shelf) (f : State → α) (hf : ∀ u, f u.shelf = f u) :
    f s = f t := by rw [← hf s, h, hf]
@[simp] theorem State.soil_shelf (s : State) (line : Nat) : (s.soil line).shelf = s.shelf := by
  unfold State.soil; dsimp only; split <;> rfl
theorem State.setHome_shelf {s t : State} (h : s.shelf = t.shelf) (line : Nat) (x : Home) : (s.setHome line x).shelf = (t.setHome line x).shelf :=
  State.same_of_shelf h (fun u => (u.setHome line x).shelf) fun _ => rfl
theorem State.dropCopy_shelf (s : State) (l line : Nat) : (s.dropCopy l line).shelf = (s.shelf.dropCopy l line).shelf := by
  unfold State.dropCopy
  have hl : s.shelf.l1At l = s.l1At l := rfl
  rw [hl]
  cases Tab.find (s.l1At l) line with
  | none => rfl
  | some x =>
    dsimp only
    have hsoil : ({ s with mem := Mem.storeAll s.mem (line * 128) x.data } : State).shelf =
        ({ s.shelf with mem := Mem.storeAll s.shelf.mem (line * 128) x.data } : State).shelf := rfl
    cases x.owned with
    | false => rfl
    | true =>
      simp only [if_true]
      have e := ((State.soil_shelf _ line).trans hsoil).trans (State.soil_shelf { s.shelf with mem := Mem.storeAll s.shelf.mem (line * 128) x.data } line).symm
      exact State.same_of_shelf e (fun u => (u.setL1 l (Tab.del (u.l1At l) line)).shelf) fun _ => rfl
theorem State.recall_shelf (s : State) (line : Nat) (bump : Bool) : (s.recall line bump).shelf = (s.shelf.recall line bump).shelf := by
  have hh : s.shelf.home line = s.home line := rfl
  cases h : (s.home line).owner with
  | none => rw [State.recall_of_unowned h, State.recall_of_unowned (hh ▸ h)]; rfl
  | some l =>
    obtain ⟨p, e⟩ := State.recall_of_owned h bump
    obtain ⟨q, e'⟩ := State.recall_of_owned (s := s.shelf) (hh ▸ h) bump
    rw [e, e', hh]
    exact State.setHome_shelf (s.dropCopy_shelf l line) line { s.home line with owner := none }
theorem State.homeWrite_shelf {s t : State} (h : s.shelf = t.shelf) (key : Nat) (bs : List Byte) :
    (s.homeWrite key bs).shelf = (t.homeWrite key bs).shelf := by
  have key' : ∀ ns : List Nat, ∀ s t : State, s.shelf = t.shelf →
      (ns.foldl (fun s n => s.recall n true) s).shelf = (ns.foldl (fun s n => s.recall n true) t).shelf := by
    intro ns
    induction ns with
    | nil => exact fun _ _ h => h
    | cons n ns ih => exact fun s t h => ih _ _ (by rw [State.recall_shelf, h, ← State.recall_shelf])
  have e := key' (linesOf key bs.length) s t h
  exact State.same_of_shelf e (fun u => ({ u with mem := Mem.storeAll u.mem key bs } : State).shelf) fun _ => rfl
theorem State.commit_shelf {s t : State} (h : s.shelf = t.shelf) (l1 time key : Nat) (bs : List Byte) :
    (s.commit l1 time key bs).shelf = (t.commit l1 time key bs).shelf := by
  have ho : s.ownedLine l1 (key / 128) = t.ownedLine l1 (key / 128) := State.same_of_shelf h (·.ownedLine l1 (key / 128)) fun _ => rfl
  unfold State.commit
  dsimp only
  rw [ho]
  cases t.ownedLine l1 (key / 128) with
  | some x =>
    exact State.same_of_shelf h (fun u => ((u.setL1 l1 (Tab.put (u.l1At l1) (key / 128)
      { x with data := overlay (key / 128 * 128) x.data key bs, stamp := time })).setHome (key / 128)
        { u.home (key / 128) with stamp := time }).shelf) fun _ => rfl
  | none =>
    have e := (State.soil_shelf _ (key / 128)).trans ((State.homeWrite_shelf h key bs).trans (State.soil_shelf _ (key / 128)).symm)
    exact State.same_of_shelf e (fun u => (u.setHome (key / 128) { u.home (key / 128) with stamp := time }).shelf) fun _ => rfl

/-- Two states with the same bytes at homes, at the same time, where the same lines wait. -/
structure SameStore (s t : State) : Prop where
  shelf : s.shelf = t.shelf
  ptb : s.ptb = t.ptb
  waits : s.reqs.map (fun r => (r.key, r.state)) = t.reqs.map fun r => (r.key, r.state)

theorem SameStore.mem {s t : State} (h : SameStore s t) : s.mem = t.mem := State.same_of_shelf h.shelf (·.mem) fun _ => rfl
theorem SameStore.wctNow {s t : State} (h : SameStore s t) (key : Nat) : s.wctNow key = t.wctNow key := by
  have hh : s.home (key / 128) = t.home (key / 128) := State.same_of_shelf h.shelf (·.home (key / 128)) fun _ => rfl
  rw [State.wctNow, State.wctNow, h.ptb, hh]
/-- The line of a waiting request, with its write time if it has one. -/
def waitAt (line : Nat) (p : Nat × ReqState) : Option Nat :=
  match p.2 with
  | .pending w => if p.1 / 128 = line then some w else none
  | _ => none
theorem State.pendingOn_eq (s : State) (line : Nat) :
    s.pendingOn line = ((s.reqs.map fun r => (r.key, r.state)).filterMap (waitAt line)).head? := by
  rw [List.filterMap_map]; rfl
theorem State.heldOn_eq (s : State) (line : Nat) :
    s.heldOn line = (s.reqs.map fun r => (r.key, r.state)).any fun p => p.2 = .held && p.1 / 128 = line := by
  rw [List.any_map]; rfl
theorem SameStore.busyOn {s t : State} (h : SameStore s t) (line : Nat) : s.busyOn line = t.busyOn line := by
  simp only [State.busyOn, State.pendingOn_eq, State.heldOn_eq, h.waits]
theorem SameStore.enqueue {s t : State} (h : SameStore s t) (a b : Source) (scope : Option Nat) (key : Nat) (bs : List Byte) (st : ReqState) :
    SameStore (s.enqueue a scope key bs st) (t.enqueue b scope key bs st) :=
  ⟨h.shelf, h.ptb, by simp only [State.enqueue, List.map_append, h.waits, List.map_cons, List.map_nil]⟩
theorem SameStore.commit {s t : State} (h : SameStore s t) (l1 time key : Nat) (bs : List Byte) :
    SameStore (s.commit l1 time key bs) (t.commit l1 time key bs) := by
  have reqs : ∀ u : State, (u.commit l1 time key bs).reqs = u.reqs := by
    intro u
    have hw : (u.homeWrite key bs).reqs = u.reqs := by
      have := foldl_keeps (p := fun v : State => v.reqs = u.reqs) (fun s n => s.recall n true) (fun v n h => (State.recall_reqs v n true).trans h)
        (linesOf key bs.length) u rfl
      exact this
    unfold State.commit
    dsimp only
    rw [State.setHome_reqs]
    cases u.ownedLine l1 (key / 128) with
    | some x => rfl
    | none => exact (State.soil_reqs _ _).trans hw
  have hp : ∀ u : State, (u.commit l1 time key bs).ptb = u.ptb := fun u => State.same_of_offHome (u.commit_offHome l1 time key bs) (·.ptb) fun _ => rfl
  exact ⟨State.commit_shelf h.shelf l1 time key bs, by rw [hp, hp, h.ptb], by rw [reqs, reqs, h.waits]⟩
/-- The model's own write, and a launch's. -/
theorem SameStore.arrive {s t : State} (h : SameStore s t) (l key : Nat) (bs : List Byte) :
    SameStore (s.arrive (.launch l) none key bs) (t.arrive .part none key bs) := by
  unfold State.arrive
  simp only [h.busyOn, h.wctNow, Option.isSome_none, Bool.false_and, Bool.false_eq_true, if_false, State.stampOf]
  split
  · exact h.enqueue _ _ _ _ _ _
  · obtain ⟨h1, h2, h3⟩ := h.commit noL1 (t.wctNow key) key bs
    exact ⟨h1, h2, h3⟩
theorem SameStore.write {s t : State} (h : SameStore s t) (l key : Nat) (bs : List Byte) :
    SameStore (s.write (.launch l) none key bs) (t.write .part none key bs) := by
  unfold State.write
  generalize linePieces key bs = ps
  induction ps generalizing s t with
  | nil => exact h
  | cons p ps ih => exact ih (h.arrive l p.1 p.2)
theorem SameStore.writes {s t : State} (h : SameStore s t) (l : Nat) (ps : List (Nat × List Byte)) :
    SameStore (ps.foldl (fun s p => s.write (.launch l) none p.1 p.2) s) (ps.foldl (fun s p => s.write .part none p.1 p.2) t) := by
  induction ps generalizing s t with
  | nil => exact h
  | cons p ps ih => exact ih (h.write l p.1 p.2)
theorem SameStore.writeAt {s t : State} (h : SameStore s t) (l : Nat) (c : Ctx) (va : Word) (bs : List Byte)
    (hk : s.partKeys c va bs.length = t.partKeys c va bs.length) {t' : State} (ht : t.partWrite c va bs = .ok t') :
    ∃ s', s.writeAt (.launch l) none c va bs = .ok s' ∧ SameStore s' t' := by
  unfold State.partWrite State.writeAt at ht
  unfold State.writeAt
  rw [hk]
  cases e : t.partKeys c va bs.length with
  | error f => rw [e] at ht; cases ht
  | ok ks =>
    rw [e] at ht
    cases ht
    exact ⟨_, rfl, h.writes l (runsOf (ks.zip bs))⟩

end Sys2Proof.Machine
end

section
/-! `exit` (R26, R133, R347). -/

namespace Sys2Proof.Machine

/-- What is left of a gang when the threads of m are no longer live. -/
def Gang.leave (g : Gang) (m : LaneMask) : Gang :=
  let g := g.each m fun g l => g.setStat l .ready
  { g with
    live := g.live &&& ~~~m, faultLanes := g.faultLanes &&& ~~~m
    flights := g.flights.filter fun f => if f.lane = 32 then f.lanes &&& g.live &&& ~~~m != 0 else !m.getLsbD f.lane
    windows := g.windows.filter fun x => !m.getLsbD x.lane }
/-- The walks that the threads of m await go on for others alone (R133). -/
def State.leaveWalks (s : State) (a : Agent) (m : LaneMask) : State :=
  { s with walks := (s.walks.map fun x => if x.agent = a then { x with lanes := x.lanes &&& ~~~m } else x).filter fun x => x.lanes != 0 }
theorem State.lanesEnd_eq (s : State) (w i : Nat) (m : LaneMask) :
    s.lanesEnd w i m = ((((s.updGang (.gang w i) (·.leave m)).leaveWalks (.gang w i) m).barDepart w i m).cvDepart w i m) := rfl

theorem Gang.leave_fields (g : Gang) (m : LaneMask) : (g.leave m).live = g.live &&& ~~~m ∧ (g.leave m).ended = g.ended ∧
    (g.leave m).v = g.v ∧ (g.leave m).s = g.s ∧ (g.leave m).g = g.g ∧ (g.leave m).pc = g.pc ∧ (g.leave m).fcr = g.fcr ∧
    (g.leave m).flights = g.flights.filter fun f => if f.lane = 32 then f.lanes &&& g.live &&& ~~~m != 0 else !m.getLsbD f.lane := by
  obtain ⟨tb, h⟩ := g.each_setStat m .ready
  unfold Gang.leave
  rw [h]
  exact ⟨rfl, rfl, rfl, rfl, rfl, rfl, rfl, rfl⟩
/-- What stays in flight is for live threads. -/
theorem Gang.mem_leave_flights (g : Gang) (m : LaneMask) (f : Flight) : f ∈ (g.leave m).flights ↔
    f ∈ g.flights ∧ (if f.lane = 32 then f.lanes &&& (g.leave m).live ≠ 0 else m.getLsbD f.lane = false) := by
  obtain ⟨hl, -, -, -, -, -, -, hf⟩ := g.leave_fields m
  rw [hf, hl, List.mem_filter]
  refine and_congr_right fun _ => ?_
  split
  · rw [BitVec.and_assoc]; simp
  · simp

/-! ### The end of a gang -/

theorem State.arrive_launch_tables (s : State) (l : Nat) (key : Nat) (bs : List Byte) :
    (s.arrive (.launch l) none key bs).wgs = s.wgs ∧ (s.arrive (.launch l) none key bs).scalars = s.scalars := by
  unfold State.arrive
  simp only [Option.isSome_none, Bool.false_and, Bool.false_eq_true, if_false]
  split
  · exact ⟨rfl, rfl⟩
  · have h := s.commit_offHome noL1 (s.stampOf (.launch l) (s.wctNow key)) key bs
    exact ⟨State.same_of_offHome h (·.wgs) fun _ => rfl, State.same_of_offHome h (·.scalars) fun _ => rfl⟩
theorem State.writeAt_launch_tables {s t : State} {l : Nat} {c : Ctx} {va : Word} {bs : List Byte}
    (h : s.writeAt (.launch l) none c va bs = .ok t) : t.wgs = s.wgs ∧ t.scalars = s.scalars := by
  have one : ∀ (u : State) (key : Nat) (bs : List Byte),
      (u.write (.launch l) none key bs).wgs = u.wgs ∧ (u.write (.launch l) none key bs).scalars = u.scalars := fun u key bs =>
    foldl_keeps (p := fun v : State => v.wgs = u.wgs ∧ v.scalars = u.scalars) _
      (fun v p hv => ⟨(v.arrive_launch_tables l p.1 p.2).1.trans hv.1, (v.arrive_launch_tables l p.1 p.2).2.trans hv.2⟩) _ u ⟨rfl, rfl⟩
  unfold State.writeAt at h
  split at h
  · cases h
  · cases h
    exact foldl_keeps (p := fun v : State => v.wgs = s.wgs ∧ v.scalars = s.scalars) _
      (fun v p hv => ⟨(one v p.1 p.2).1.trans hv.1, (one v p.1 p.2).2.trans hv.2⟩) _ s ⟨rfl, rfl⟩
/-- The exit word of one gang: it is not written when the tenant's teardown has begun, and else at its place if that is mapped (R347). -/
theorem State.statusWrite_one (s : State) (l : Nat) (x : Launch) (wgid i : Nat) (v : Word) :
    s.statusWrite l x wgid i 1 v = if s.tornDown x.tenant then s else
      match s.writeAt (.launch l) none (tenantCtx x.pasid) (BitVec.ofNat 64 (x.field 0x28 8 + 8 * (wgid * x.ngang + i))) (leBytes 8 v.toNat) with
      | .ok t => t
      | .error _ => s := rfl
theorem State.statusWrite_gang (s : State) (l : Nat) (x : Launch) (wgid i : Nat) (v : Word) (a : Agent) :
    (s.statusWrite l x wgid i 1 v).gang a = s.gang a := by
  rw [State.statusWrite_one]
  split
  · rfl
  · split
    · rename_i t h
      obtain ⟨h1, h2⟩ := State.writeAt_launch_tables h
      cases a with
      | core c => simp only [State.gang, State.scalar, h2]
      | gang w j => simp only [State.gang, State.wg, h1]
    · rfl
/-- A gang that ends, with what it locked given free. -/
def State.gangDone (s : State) (w i core : Nat) : State :=
  let s := (s.updGang (.gang w i) fun x => { x with ended := true, slot := false, flights := [] }).unlock core fun k => k.owner == .gang w i
  { s with asks := s.asks.filter fun q => q.agent ≠ .gang w i || q.got.isNone }
theorem State.gangOver_zero {s : State} {w : Nat} {y : Workgroup} (hy : s.wg w = some y) (i : Nat) :
    s.gangOver w i 0 = match (s.gangDone w i y.core).launchOf y with
      | none => s.gangDone w i y.core
      | some x => (s.gangDone w i y.core).statusWrite y.launch x y.wgid i 1 0 := by
  unfold State.gangOver
  simp only [hy]
  rfl
theorem State.unlock_eq (s : State) (core : Nat) (p : Lock → Bool) : ∃ cs, s.unlock core p = { s with cores := cs } := by
  unfold State.unlock
  cases Tab.find s.cores core with
  | none => exact ⟨s.cores, rfl⟩
  | some c => exact ⟨_, rfl⟩
theorem State.gangDone_gang (s : State) (w i core : Nat) (a : Agent) : (s.gangDone w i core).gang a =
    (s.updGang (.gang w i) fun x => { x with ended := true, slot := false, flights := [] }).gang a := by
  unfold State.gangDone
  obtain ⟨cs, e⟩ := State.unlock_eq (s.updGang (.gang w i) fun x => { x with ended := true, slot := false, flights := [] }) core
    fun k => k.owner == .gang w i
  rw [e]
  cases a <;> rfl
theorem State.updGang_ground (s : State) (w i : Nat) (f : Gang → Gang) : (s.updGang (.gang w i) f).ground = s.ground := by
  unfold State.updGang; cases s.gang (.gang w i) <;> rfl
theorem State.gangDone_ground (s : State) (w i core : Nat) : (s.gangDone w i core).ground = s.ground := by
  unfold State.gangDone
  obtain ⟨cs, e⟩ := State.unlock_eq (s.updGang (.gang w i) fun x => { x with ended := true, slot := false, flights := [] }) core
    fun k => k.owner == .gang w i
  rw [e, ← s.updGang_ground w i fun x => { x with ended := true, slot := false, flights := [] }]
  rfl
theorem State.gangOver_gang {s : State} {w : Nat} {y : Workgroup} (hy : s.wg w = some y) (i : Nat) (a : Agent) :
    (s.gangOver w i 0).gang a = (s.updGang (.gang w i) fun x => { x with ended := true, slot := false, flights := [] }).gang a := by
  rw [State.gangOver_zero hy, ← State.gangDone_gang s w i y.core]
  cases (s.gangDone w i y.core).launchOf y with
  | none => rfl
  | some x => exact State.statusWrite_gang _ _ _ _ _ _ a
theorem State.wg_of_gang {s : State} {w i : Nat} {g : Gang} (h : s.gang (.gang w i) = some g) : ∃ y, s.wg w = some y := by
  cases e : s.wg w with
  | none => rw [State.gang, e] at h; cases h
  | some y => exact ⟨y, rfl⟩
/-- A gang without live threads ends, and no other. -/
theorem State.gangMayEnd_gang {s : State} {w i : Nat} {g : Gang} (h : s.gang (.gang w i) = some g) (he : g.ended = false) (a : Agent) :
    (s.gangMayEnd w i).gang a = (s.updGang (.gang w i) fun x =>
      if g.live = 0 then { x with ended := true, slot := false, flights := [] } else x).gang a := by
  obtain ⟨y, hy⟩ := State.wg_of_gang h
  simp only [State.gangMayEnd, h, he, Bool.not_false, Bool.and_true, decide_eq_true_eq]
  by_cases hl : g.live = 0
  · simp only [if_pos hl]
    exact State.gangOver_gang hy i a
  · simp only [if_neg hl]
    rw [State.gang_updGang]
    split
    · cases s.gang a <;> rfl
    · rfl

/-! ### Leaving barriers and convergence registers that a workgroup does not use -/

theorem State.barDepart_none {s : State} {w : Nat} {y : Workgroup} (hy : s.wg w = some y) (hr : y.registry = []) (i : Nat) (m : LaneMask) :
    s.barDepart w i m = s := by
  simp only [State.barDepart, hy, hr, List.foldl_nil]
theorem Conv.unarrive_empty (i : Nat) (m : LaneMask) :
    ({ emptyConv with members := Tab.set 0 emptyConv.members i (Tab.at emptyConv.members i 0 &&& ~~~m) } : Conv).unarrive i m = emptyConv := by
  simp [Conv.unarrive, emptyConv, Tab.at, Tab.find, Tab.set, Tab.del]
theorem State.cvDepart_none {s : State} {w : Nat} {y : Workgroup} (hy : s.wg w = some y) (hc : y.cvs = []) (i : Nat) (m : LaneMask) :
    (s.cvDepart w i m).ground = s.ground ∧ ∀ v, (s.cvDepart w i m).wg v = s.wg v := by
  unfold State.cvDepart
  refine foldl_keeps (p := fun t : State => t.ground = s.ground ∧ ∀ v, t.wg v = s.wg v) _ (fun t n ht => ?_) _ s ⟨rfl, fun _ => rfl⟩
  obtain ⟨h1, h2⟩ := ht
  have hcv : y.cv n = emptyConv := by rw [Workgroup.cv, hc]; rfl
  have hset : ∀ v, (t.setCv w n emptyConv).wg v = s.wg v := by
    intro v
    rw [State.setCv, State.wg_updWg, h2]
    split
    · subst v
      have hn : Tab.set emptyConv y.cvs n emptyConv = y.cvs := by rw [hc]; rfl
      rw [hy, Option.map_some, hn]
    · rfl
  have he : (if emptyConv.members.isEmpty = true then emptyConv.settle else emptyConv) = emptyConv := rfl
  rw [h2, hy]
  dsimp only
  rw [hcv, Conv.unarrive_empty, he]
  have hg : (t.setCv w n emptyConv).gathered w n = t.setCv w n emptyConv := by
    unfold State.gathered
    rw [hset, hy]
    dsimp only
    rw [hcv]
    rfl
  rw [hg]
  exact ⟨h1, hset⟩

/-! ### What `exit` leaves -/

theorem State.gate_scalars {s t : State} {u : Use} {w i : Nat} (hc : s.cur = .gang w i) (h : s.gate u = .go t) : t.scalars = s.scalars := by
  unfold State.gate at h
  cases hg : s.gang s.cur with
  | none => simp [hg] at h
  | some g =>
    have hs : (if g.retrying s.mask then s else s.countIssue s.cur).scalars = s.scalars := by
      split
      · rfl
      · rw [hc]; exact s.countIssue_scalars w i
    have hcur : (if g.retrying s.mask then s else s.countIssue s.cur).cur = .gang w i := by
      split
      · exact hc
      · exact (OnlyGang.countIssue s g hg).cur.trans hc
    simp only [hg] at h
    generalize (if g.retrying s.mask then s else s.countIssue s.cur) = c at h hs hcur
    split_ifs at h <;> try split at h
    all_goals cases h
    rw [hcur, State.updGang_scalars]
    exact hs
/-- What stands before an instruction of a compute core's group is found again when it is issued. -/
structure State.IssuedOn (s t : State) (u : Use) (g : Gang) (w i : Nat) (x : Workgroup) (r : Launch) (y : Workgroup) : Prop extends
    State.Issued s t u g where
  on : OnCompute t (g.issued s u) w i y r
  group : { y with gangs := x.gangs, perf := x.perf } = x
  scalars : t.scalars = s.scalars
  ground : t.ground = s.ground
theorem State.issue_on_compute {s : State} {u : Use} {g : Gang} {w i : Nat} {x : Workgroup} {r : Launch} (o : OnCompute s g w i x r)
    (h : s.Admits u g) (body : State → State) : ∃ t y, s.issue u body = .next (body t) ∧ s.IssuedOn t u g w i x r y := by
  obtain ⟨t, h1, h2⟩ := s.gate_admits u g h
  obtain ⟨y, hy, e⟩ := h2.onCompute o
  have hs := State.gate_scalars o.cur h1
  exact ⟨t, y, by unfold State.issue; rw [h1], ⟨h2, State.gate_bare h1⟩, hy, e, hs, h2.ground_eq hs⟩

/-- A workgroup after an update of a gang: all but its gangs. -/
theorem State.wg_updGang {s : State} {w : Nat} {y : Workgroup} (hy : s.wg w = some y) (a : Agent) (f : Gang → Gang) :
    ∃ z, (s.updGang a f).wg w = some z ∧ { z with gangs := y.gangs } = y := by
  unfold State.updGang
  cases s.gang a with
  | none => exact ⟨y, hy, rfl⟩
  | some g => exact State.setGang_wg s a (f g) w y hy
theorem State.leaveWalks_gang (s : State) (b : Agent) (m : LaneMask) (a : Agent) : (s.leaveWalks b m).gang a = s.gang a := by
  cases a <;> rfl
theorem State.leaveWalks_ground (s : State) (b : Agent) (m : LaneMask) : (s.leaveWalks b m).ground = s.ground := rfl
theorem State.gang_of_tables {s t : State} (hs : t.scalars = s.scalars) (hw : ∀ v, t.wg v = s.wg v) (a : Agent) :
    t.gang a = s.gang a := by
  cases a with
  | core i => simp only [State.gang, State.scalar, hs]
  | gang w i => simp only [State.gang, hw]
/-- Threads that leave a workgroup without barriers and convergence registers change nothing else. -/
theorem State.lanesEnd_plain {s : State} {w i : Nat} {y : Workgroup} (hy : s.wg w = some y) (hc : y.cvs = []) (hr : y.registry = []) (m : LaneMask) :
    (s.lanesEnd w i m).ground = s.ground ∧ (∀ a, (s.lanesEnd w i m).gang a = (s.updGang (.gang w i) (·.leave m)).gang a) ∧
      ∃ z, (s.lanesEnd w i m).wg w = some z ∧ { z with gangs := y.gangs } = y := by
  obtain ⟨z, hz, e⟩ := State.wg_updGang hy (.gang w i) (·.leave m)
  have hzc : z.cvs = [] := by rw [← hc, ← e]
  have hzr : z.registry = [] := by rw [← hr, ← e]
  have hg := (State.leaveWalks_ground _ (.gang w i) m).trans (s.updGang_ground w i (·.leave m))
  have ha := State.leaveWalks_gang (s.updGang (.gang w i) (·.leave m)) (.gang w i) m
  have hz' : ((s.updGang (.gang w i) (·.leave m)).leaveWalks (.gang w i) m).wg w = some z := hz
  rw [State.lanesEnd_eq]
  generalize (s.updGang (.gang w i) (·.leave m)).leaveWalks (.gang w i) m = u at hg ha hz'
  rw [State.barDepart_none hz' hzr]
  obtain ⟨h1, h2⟩ := State.cvDepart_none hz' hzc i m
  refine ⟨h1.trans hg, fun a => (State.gang_of_tables ?_ h2 a).trans (ha a), z, (h2 w).trans hz', e⟩
  exact State.same_of_ground h1 (·.scalars) fun _ => rfl

end Sys2Proof.Machine

namespace Sys2Proof.Proofs
open Machine

/-- The gang that `exit` leaves has ended if no thread of it lives. -/
theorem exit_lives {t : State} {g : Gang} {w i : Nat} (hg : t.gang (.gang w i) = some g) (he : g.ended = false) (m : LaneMask) :
    ∃ g', ((t.lanesEnd w i m).gangMayEnd w i).gang (.gang w i) = some g' ∧ g'.live = g.live &&& ~~~m ∧ g'.ended = decide (g'.live = 0) := by
  obtain ⟨hl, hd, -⟩ := g.leave_fields m
  have h1 : (t.lanesEnd w i m).lives (.gang w i) = some (g.live &&& ~~~m, false) := by
    rw [State.lanesEnd_eq, sameLives_cvDepart, sameLives_barDepart]
    have : ((t.updGang (.gang w i) (·.leave m)).leaveWalks (.gang w i) m).gang (.gang w i) = some (g.leave m) :=
      (State.leaveWalks_gang _ _ m _).trans (State.gang_updGang_same t _ _ g hg)
    rw [State.lives, this, Option.map_some, hl, hd, he]
  obtain ⟨g1, hg1, e⟩ := Option.map_eq_some_iff.mp h1
  obtain ⟨e1, e2⟩ := Prod.mk.inj e
  have h2 := State.gangMayEnd_gang hg1 e2 (.gang w i)
  rw [State.gang_updGang_same _ _ _ g1 hg1] at h2
  refine ⟨_, h2, ?_⟩
  by_cases h0 : g1.live = 0
  · rw [if_pos h0]
    exact ⟨e1, by simp [h0]⟩
  · rw [if_neg h0]
    exact ⟨e1, by rw [e2]; exact (decide_eq_false h0).symm⟩

/-- The memory that the end of a gang leaves: its exit word of 0 stands in the status array, if that is mapped (R347). -/
theorem gangOver_mem {s t : State} {w i : Nat} {x y : Workgroup} {r : Launch} (hy : t.wg w = some y) (hgr : t.ground = s.ground)
    (hxy : y.launch = x.launch ∧ y.wgid = x.wgid) (hr : s.launchOf x = some r) :
    (s.tornDown r.tenant = true → (t.gangOver w i 0).mem = s.mem) ∧
      ∀ s2, s.tornDown r.tenant = false → s.partWrite (tenantCtx r.pasid)
        (BitVec.ofNat 64 (r.field 0x28 8 + 8 * (x.wgid * r.ngang + i))) (leBytes 8 0) = .ok s2 → (t.gangOver w i 0).mem = s2.mem := by
  have hd := (t.gangDone_ground w i y.core).trans hgr
  have hl : (t.gangDone w i y.core).launchOf y = some r := by
    rw [← hr, State.launchOf, State.launchOf, hxy.1]
    exact State.same_of_ground hd (·.launch x.launch) fun _ => rfl
  rw [State.gangOver_zero hy, hl]
  dsimp only
  rw [State.statusWrite_one, hxy.2]
  generalize t.gangDone w i y.core = v at hd
  have htorn : v.tornDown r.tenant = s.tornDown r.tenant := State.same_of_ground hd (·.tornDown r.tenant) fun _ => rfl
  rw [htorn]
  refine ⟨fun h => by rw [if_pos h]; exact State.same_of_ground hd (·.mem) fun _ => rfl, fun s2 h hw => ?_⟩
  rw [if_neg (by simp [h])]
  have hs : SameStore v s := ⟨State.same_of_ground hd (·.shelf) fun _ => rfl, State.same_of_ground hd (·.ptb) fun _ => rfl,
    State.same_of_ground hd (fun u => u.reqs.map fun r => (r.key, r.state)) fun _ => rfl⟩
  obtain ⟨v', hv, hm⟩ := hs.writeAt y.launch (tenantCtx r.pasid) _ (leBytes 8 0)
    (State.same_of_ground hd (·.partKeys (tenantCtx r.pasid) _ _) fun u => u.ground_partKeys ..) hw
  have hv' : v.writeAt (.launch y.launch) none (tenantCtx r.pasid) (BitVec.ofNat 64 (r.field 0x28 8 + 8 * (x.wgid * r.ngang + i)))
      (leBytes 8 (0 : Word).toNat) = .ok v' := hv
  rw [hv']
  exact hm.mem

theorem gang_issued_ended (g : Gang) (s : State) (u : Use) : (g.issued s u).ended = g.ended := by unfold Gang.issued; split <;> rfl
theorem threadsExit : threadsExitRule := by
  intro s g w i x r o hadm he
  obtain ⟨t, y, hex, hi⟩ := State.issue_on_compute o hadm fun s => match s.cur with
    | .gang w i => (s.lanesEnd w i s.mask).gangMayEnd w i
    | .core _ => s
  obtain ⟨e1, e2, e3, e4, e5, -, e7, -, e9, -⟩ := Gang.issued_fields g s { Use.regs [] [] with allow := 1 }
  have hend : (g.issued s { Use.regs [] [] with allow := 1 }).ended = false := (gang_issued_ended g s _).trans he
  have hmask := hi.only.mask
  have hothers := hi.only.others
  have hg0 : t.gang (.gang w i) = some (g.issued s { Use.regs [] [] with allow := 1 }) := by rw [← o.cur]; exact hi.only.issuer
  generalize Gang.issued g s { Use.regs [] [] with allow := 1 } = g0 at *
  have hex' : exec .exit s = .next ((t.lanesEnd w i s.mask).gangMayEnd w i) := by
    have := hex
    rw [hi.on.cur, hmask] at this
    exact this
  obtain ⟨g', hg', hl, hen⟩ := exit_lives hg0 hend s.mask
  refine ⟨_, g', hex', by rw [o.cur]; exact hg', by rw [hl, e9], hen, fun hcvs hreg => ?_⟩
  obtain ⟨h1, h2, z, hz, ez⟩ := State.lanesEnd_plain (i := i) hi.on.wg (by rw [← hcvs, ← hi.group]) (by rw [← hreg, ← hi.group]) s.mask
  have hleft : (t.lanesEnd w i s.mask).gang (.gang w i) = some (g0.leave s.mask) :=
    (h2 _).trans (State.gang_updGang_same t _ _ g0 hg0)
  obtain ⟨f1, f2, f3, f4, f5, f6, f7, -⟩ := g0.leave_fields s.mask
  have hmay := State.gangMayEnd_gang hleft (f2.trans hend)
  have hgang : g' = if (g0.leave s.mask).live = 0 then { g0.leave s.mask with ended := true, slot := false, flights := [] } else g0.leave s.mask := by
    have := hmay (.gang w i)
    rw [State.gang_updGang_same _ _ _ _ hleft, hg'] at this
    exact Option.some.inj this
  have hlive : g'.live = (g0.leave s.mask).live := hl.trans f1.symm
  have hfl : ∀ f, f ∈ (g0.leave s.mask).flights ↔ f ∈ g.flights ∧ (if f.lane = 32 then f.lanes &&& g'.live ≠ 0 else s.mask.getLsbD f.lane = false) := by
    intro f; rw [Gang.mem_leave_flights, e7, hlive]
  have hother : ∀ a, a ≠ s.cur → ((t.lanesEnd w i s.mask).gangMayEnd w i).gang a = s.gang a := by
    intro a ha
    rw [hmay a, State.gang_updGang_other _ _ _ _ (by rw [← o.cur]; exact ha), h2 a,
      State.gang_updGang_other _ _ _ _ (by rw [← o.cur]; exact ha), hothers a ha]
  refine ⟨hother, ?_⟩
  by_cases h0 : g'.live = 0
  · rw [if_pos (hlive ▸ h0)] at hgang
    have hover : (t.lanesEnd w i s.mask).gangMayEnd w i = (t.lanesEnd w i s.mask).gangOver w i 0 := by
      simp only [State.gangMayEnd, hleft, f2, hend, decide_eq_true (hlive ▸ h0 : (g0.leave s.mask).live = 0), Bool.not_false, Bool.and_self, if_true]
    have hzx : z.launch = x.launch ∧ z.wgid = x.wgid := by
      constructor <;> rw [← hi.group, ← ez]
    obtain ⟨m1, m2⟩ := gangOver_mem (i := i) hz (h1.trans hi.ground) hzx o.launch
    rw [hover]
    have hf : g'.flights = [] := by rw [hgang]
    refine ⟨by rw [hgang]; exact f3.trans e1, by rw [hgang]; exact f4.trans e2, by rw [hgang]; exact f5.trans e3, by rw [hgang]; exact f6.trans e4,
      by rw [hgang]; exact f7.trans e5, fun f hf' => ?_, fun hne => absurd h0 hne, fun _ => ⟨by rw [hgang], hf, m1, m2⟩⟩
    rw [hf] at hf'
    cases hf'
  · rw [if_neg (hlive ▸ h0)] at hgang
    have hover : (t.lanesEnd w i s.mask).gangMayEnd w i = t.lanesEnd w i s.mask := by
      simp only [State.gangMayEnd, hleft, decide_eq_false (hlive ▸ h0 : ¬(g0.leave s.mask).live = 0), Bool.false_and, Bool.false_eq_true, if_false]
    rw [hover]
    refine ⟨by rw [hgang]; exact f3.trans e1, by rw [hgang]; exact f4.trans e2, by rw [hgang]; exact f5.trans e3, by rw [hgang]; exact f6.trans e4,
      by rw [hgang]; exact f7.trans e5, fun f hf => (hfl f).mp (hgang ▸ hf), fun _ => ⟨?_, fun f hf hc => ?_⟩, fun hz => absurd hz h0⟩
    · exact State.same_of_ground (h1.trans hi.ground) (·.mem) fun _ => rfl
    · rw [hgang]; exact (hfl f).mpr ⟨hf, hc⟩

end Sys2Proof.Proofs
end

section
/-! `yield` and `syscall` (R128, R265, R283, R333, R341). -/

namespace Sys2Proof.Machine

/-! ### Threads that wait -/

/-- A thread that waits, since n if it did not wait before. -/
def Gang.wait (n : Nat) (g : Gang) (l : Nat) : Gang :=
  match g.stat l with
  | .retry _ => g
  | _ => g.setStat l (.retry n)
theorem Gang.wait_same (n : Nat) (g : Gang) (l : Nat) : ∃ k, (g.wait n l).stat l = .retry k := by
  have h : (g.setStat l (.retry n)).stat l = .retry n := by simp [Gang.setStat, Gang.stat, Tab.at_set]
  unfold Gang.wait
  split
  · exact ⟨_, ‹_›⟩
  · exact ⟨n, h⟩
theorem Gang.wait_other (n : Nat) (g : Gang) {l j : Nat} (h : j ≠ l) : (g.wait n l).stat j = g.stat j := by
  unfold Gang.wait
  split
  · rfl
  · simp [Gang.setStat, Gang.stat, Tab.at_set, h]
theorem Gang.wait_status (n : Nat) (g : Gang) (l : Nat) : ∃ tb, g.wait n l = { g with status := tb } := by
  unfold Gang.wait
  split
  · exact ⟨g.status, rfl⟩
  · exact ⟨_, rfl⟩
theorem Gang.foldl_wait (n : Nat) (ls : List Nat) : ∀ g : Gang,
    (∀ l, if l ∈ ls then ∃ k, (ls.foldl (Gang.wait n) g).stat l = .retry k else (ls.foldl (Gang.wait n) g).stat l = g.stat l) ∧
    ∃ tb, ls.foldl (Gang.wait n) g = { g with status := tb } := by
  induction ls with
  | nil => exact fun g => ⟨fun l => by simp, g.status, rfl⟩
  | cons a ls ih =>
    intro g
    obtain ⟨h1, tb, h2⟩ := ih (g.wait n a)
    obtain ⟨tb', h3⟩ := g.wait_status n a
    refine ⟨fun l => ?_, tb, by rw [List.foldl_cons, h2, h3]⟩
    have h := h1 l
    rw [List.foldl_cons]
    by_cases hl : l ∈ ls
    · rw [if_pos (List.mem_cons_of_mem _ hl)]
      rwa [if_pos hl] at h
    · rw [if_neg hl] at h
      by_cases ha : l = a
      · subst l
        rw [if_pos List.mem_cons_self, h]
        exact g.wait_same n a
      · rw [if_neg (by simp [ha, hl]), h]
        exact g.wait_other n ha
theorem State.waitRetry_eq (s : State) (m : LaneMask) : s.waitRetry m = s.updGang s.cur fun g => (lanesOf m).foldl (Gang.wait s.serialNo) g := rfl
/-- A group that waits, after its instruction is counted. -/
theorem Gang.waits_issued (g : Gang) (s : State) (u : Use) (m : LaneMask) (n : Nat) :
    Waits g ((lanesOf m).foldl (Gang.wait n) (g.issued s u)) m := by
  obtain ⟨-, -, -, -, -, hst, -⟩ := Gang.issued_fields g s u
  obtain ⟨h1, tb, h2⟩ := Gang.foldl_wait n (lanesOf m) (g.issued s u)
  refine ⟨fun l hl => ?_, ?_⟩
  · have h := h1 l
    simp only [mem_lanesOf m l hl] at h
    by_cases hb : m.getLsbD l = true
    · rwa [if_pos hb] at h ⊢
    · rw [if_neg hb] at h ⊢
      rw [h, Gang.stat, hst]; rfl
  · rw [h2]
    unfold OnlyStat Gang.issued
    split <;> rfl

/-! ### Threads that complete -/

theorem Gang.completed_issued (g : Gang) (s : State) (u : Use) (m : LaneMask) : Completed g ((g.issued s u).finishAll m) m := by
  obtain ⟨e1, e2, e3, e4, e5, e6, e7, -, -, e10⟩ := Gang.issued_fields g s u
  obtain ⟨f1, f2, f3, f4, f5, f6, f7, f8, f9⟩ := Gang.finishIn_spec (lanesOf m) (lanesOf_nodup m) (g.issued s u)
  refine ⟨fun l n _ _ => ?_, fun l n _ _ => ?_, fun l _ => ?_, fun l hl => ?_, fun l hl => ?_, f7.trans e7, (f9 g).trans e10⟩
  · rw [ite_self, Gang.vreg, Gang.finishAll_eq, f3, e1]; rfl
  · rw [ite_self, Gang.guard, Gang.guards, Gang.finishAll_eq, f5, e3]; rfl
  · rw [Gang.fcrOf, Gang.finishAll_eq, f6, e5]
    simp [Gang.fcrOf]
  · exact (f1 l).trans (by simp only [mem_lanesOf m l hl, Gang.pcOf, e4])
  · exact (f2 l).trans (by simp only [mem_lanesOf m l hl, Gang.stat, e6])

/-! ### Call records (R283, Table 13.8) -/

section
variable (s : State) (ts : Tab Tenant)

theorem State.tenants_walkFrom (user : Bool) (va l : Nat) : ∀ ppn, ({ s with tenants := ts } : State).walkFrom user va l ppn = s.walkFrom user va l ppn := by
  have hr : ∀ a, ({ s with tenants := ts } : State).route a = s.route a := fun _ => rfl
  have hh : ∀ k n, ({ s with tenants := ts } : State).homeRead k n = s.homeRead k n := fun _ _ => rfl
  induction l with
  | zero => intro ppn; unfold State.walkFrom; simp only [hr, hh]
  | succ l ih => intro ppn; unfold State.walkFrom; simp only [hr, hh, ih]
theorem State.tenants_xlateNow (c : Ctx) (kind : Nat) (va : Word) : ({ s with tenants := ts } : State).xlateNow c kind va = s.xlateNow c kind va := by
  simp only [State.xlateNow, State.walkLeaf, State.tenants_walkFrom] <;> rfl
theorem State.tenants_partKeys (c : Ctx) (n : Nat) : ∀ va, ({ s with tenants := ts } : State).partKeys c va n = s.partKeys c va n := by
  induction n with
  | zero => exact fun _ => rfl
  | succ n ih => intro va; simp only [State.partKeys, State.tenants_xlateNow, ih]
theorem State.tenants_partRead (c : Ctx) (n : Nat) : ∀ va, ({ s with tenants := ts } : State).partRead c va n = s.partRead c va n := by
  induction n with
  | zero => exact fun _ => rfl
  | succ n ih => intro va; simp only [State.partRead, State.tenants_xlateNow, ih] <;> rfl
theorem stands_tenants (t : State) (c : Nat) (va : Word) (r : List Byte) : Stands { s with tenants := ts } t c va r ↔ Stands s t c va r := by
  simp only [Stands, State.tenants_partKeys] <;> rfl
theorem State.tenants_callRecord (w i n : Nat) (m : LaneMask) (pc : Word) :
    ({ s with tenants := ts } : State).callRecord w i n m pc = s.callRecord w i n m pc := by
  have hv : ∀ l k, ({ s with tenants := ts } : State).laneValue w i l k = s.laneValue w i l k := fun l k => by
    simp only [State.laneValue, State.tenants_partRead] <;> rfl
  simp only [State.callRecord, hv] <;> rfl
end

theorem stands_of_homes {s t u : State} (h : ∀ k, u.homeByte k = t.homeByte k) {c : Nat} {va : Word} {r : List Byte} (k : Stands s t c va r) :
    Stands s u c va r := fun a h1 h2 h3 n hn => (h (a + n)).trans (k a h1 h2 h3 n hn)
/-- A gang whose threads of m are in a call at slot j of a cluster. -/
def Gang.inCall (g : Gang) (m : LaneMask) (j cluster : Nat) : Gang :=
  { ((g.finishAll m).each m fun x l => x.setStat l .call) with
    callSlot := some j, callCluster := cluster, callPopped := false, callLanes := m, callDone := 0 }
theorem Gang.inCall_fields (g : Gang) (m : LaneMask) (j cluster : Nat) :
    (∀ k, k < 32 → (g.inCall m j cluster).stat k = if m.getLsbD k then .call else g.stat k) ∧
    (∀ k, k < 32 → (g.inCall m j cluster).pcOf k = if m.getLsbD k then g.pcOf k + 4 else g.pcOf k) ∧
    (g.inCall m j cluster).v = g.v ∧ (g.inCall m j cluster).s = g.s ∧ (g.inCall m j cluster).g = g.g ∧ (g.inCall m j cluster).fcr = g.fcr := by
  obtain ⟨f1, f2, f3, f4, f5, f6, -⟩ := Gang.finishIn_spec (lanesOf m) (lanesOf_nodup m) g
  obtain ⟨tb, h⟩ := Gang.each_setStat (g.finishAll m) m .call
  refine ⟨fun k hk => ?_, fun k hk => ?_, ?_⟩
  · have h1 : (g.inCall m j cluster).stat k = ((g.finishAll m).each m fun x l => x.setStat l .call).stat k := rfl
    rw [h1, Gang.stat_each _ _ _ hk]
    split
    · rfl
    · rename_i hb
      exact (f2 k).trans (if_neg (by rwa [mem_lanesOf m k hk]))
  · have h1 : (g.inCall m j cluster).pcOf k = ((g.finishAll m).each m fun x l => x.setStat l .call).pcOf k := rfl
    rw [h1, h]
    exact (f1 k).trans (by simp only [mem_lanesOf m k hk])
  · unfold Gang.inCall
    rw [h]
    exact ⟨f3, f4, f5, f6⟩

theorem State.recordWrite_turn (s : State) (i : Nat) (slice va : Word) (r : List Byte) :
    (s.recordWrite i slice va r).cur = s.cur ∧ (s.recordWrite i slice va r).mask = s.mask := by
  obtain h | ⟨a, h⟩ := s.recordWrite_offHome i slice va r
  · exact ⟨State.same_of_offHome h (·.cur) fun _ => rfl, State.same_of_offHome h (·.mask) fun _ => rfl⟩
  · rw [h]; exact ⟨rfl, rfl⟩
/-- A call that is made: its record is written, and its threads are in the call. -/
def State.postCall (s : State) (w i n cluster : Nat) (slice base : Word) (j : Nat) : State :=
  let s := s.recordWrite cluster slice (base + BitVec.ofNat 64 (2048 * j)) (s.callRecord w i n s.mask s.curPc)
  s.updGang s.cur (·.inCall s.mask j cluster)
theorem State.postCall_calls {s : State} {g : Gang} (hg : s.gang s.cur = some g) (w i n cluster : Nat) (slice base : Word) (j : Nat) :
    (s.postCall w i n cluster slice base j).gang s.cur = some (g.inCall s.mask j cluster) ∧
      (∀ a, a ≠ s.cur → (s.postCall w i n cluster slice base j).gang a = s.gang a) ∧
      Stands s (s.postCall w i n cluster slice base j) cluster (base + BitVec.ofNat 64 (2048 * j)) (s.callRecord w i n s.mask s.curPc) := by
  unfold State.postCall
  dsimp only
  obtain ⟨h1, h2, -⟩ := s.recordWrite_wgs cluster slice (base + BitVec.ofNat 64 (2048 * j)) (s.callRecord w i n s.mask s.curPc)
  obtain ⟨h3, h4⟩ := s.recordWrite_turn cluster slice (base + BitVec.ofNat 64 (2048 * j)) (s.callRecord w i n s.mask s.curPc)
  have h5 := s.recordWrite_stands cluster slice (base + BitVec.ofNat 64 (2048 * j)) (s.callRecord w i n s.mask s.curPc)
  generalize s.recordWrite cluster slice (base + BitVec.ofNat 64 (2048 * j)) (s.callRecord w i n s.mask s.curPc) = u at *
  have hgang : ∀ a, u.gang a = s.gang a := fun a => by
    cases a with
    | core c => simp only [State.gang, State.scalar, h2]
    | gang v k => simp only [State.gang, State.wg, h1]
  rw [h3, h4]
  refine ⟨State.gang_updGang_same _ _ _ g ((hgang _).trans hg), fun a ha => (State.gang_updGang_other _ _ _ _ ha).trans (hgang a), ?_⟩
  exact stands_of_homes (fun k => State.same_of_bare (u.updGang_bare s.cur _) (·.homeByte k) fun v => v.bare_homeByte k) h5
theorem State.makeCall_eq {s : State} {g : Gang} {w i : Nat} {x : Workgroup} (hcur : s.cur = .gang w i) (hwg : s.wg w = some x) (hg : s.gang s.cur = some g)
    {base : Word} {j : Nat} (hslot : g.callSlot = none) (hrel : ∀ k, s.mask.getLsbD k = true → s.released s.cur 3 k = true)
    (hring : s.ringRoom (clusterOf x.core) true = some (base, j)) (n : Nat) :
    ∃ u, (∃ ts, u = { s with tenants := ts }) ∧ s.makeCall n = u.postCall w i n (clusterOf x.core) (s.sliceOf s.cur) base j := by
  have hall : ((lanesOf s.mask).all fun l => s.released (.gang w i) 3 l) = true := by
    rw [List.all_eq_true]
    intro l hl
    rw [← hcur]
    exact hrel l ((mem_lanesOf s.mask l (lanesOf_lt s.mask l hl)).mp hl)
  rw [hcur] at hg
  cases hf : s.imageFault w i with
  | none =>
    refine ⟨s, ⟨s.tenants, rfl⟩, ?_⟩
    unfold State.postCall Gang.inCall
    simp only [State.makeCall, hcur, hwg, hg, hslot, Option.isSome_none, Bool.false_eq_true, if_false, State.afterRelease, hall, if_true,
      hring, hf]
  | some a =>
    refine ⟨s.wiredFault (tenantOfSlice (s.sliceOf s.cur)) a, ⟨_, rfl⟩, ?_⟩
    unfold State.postCall Gang.inCall
    simp only [State.makeCall, hcur, hwg, hg, hslot, Option.isSome_none, Bool.false_eq_true, if_false, State.afterRelease, hall, if_true,
      hring, hf]
/-- A call of a group whose accesses have performed, where the ring has room: its record is written, and its threads are in the call. -/
theorem State.makeCall_calls {s : State} {g : Gang} {w i : Nat} {x : Workgroup} (hcur : s.cur = .gang w i) (hwg : s.wg w = some x) (hg : s.gang s.cur = some g)
    {base : Word} {j : Nat} (hslot : g.callSlot = none) (hrel : ∀ k, s.mask.getLsbD k = true → s.released s.cur 3 k = true)
    (hring : s.ringRoom (clusterOf x.core) true = some (base, j)) (n : Nat) :
    (s.makeCall n).gang s.cur = some (g.inCall s.mask j (clusterOf x.core)) ∧ (∀ a, a ≠ s.cur → (s.makeCall n).gang a = s.gang a) ∧
      Stands s (s.makeCall n) (clusterOf x.core) (base + BitVec.ofNat 64 (2048 * j)) (s.callRecord w i n s.mask s.curPc) := by
  obtain ⟨u, ⟨ts, rfl⟩, e⟩ := State.makeCall_eq hcur hwg hg hslot hrel hring n
  obtain ⟨h1, h2, h3⟩ := State.postCall_calls (s := { s with tenants := ts }) (g := g) hg w i n (clusterOf x.core) (s.sliceOf s.cur) base j
  rw [e]
  refine ⟨h1, h2, (stands_tenants s ts ..).mp ?_⟩
  rwa [State.tenants_callRecord] at h3
/-- A call that cannot be made yet: its threads wait. -/
theorem State.makeCall_waits {s : State} {g : Gang} {w i : Nat} {x : Workgroup} {r : Launch} (o : OnCompute s g w i x r)
    (h : g.callSlot.isSome = true ∨ ¬(∀ k, s.mask.getLsbD k = true → s.released s.cur 3 k = true) ∨
      (s.ringRoom (clusterOf x.core) true = none ∧ s.ringBroken (clusterOf x.core) true = none)) (n : Nat) :
    s.makeCall n = s.waitRetry s.mask := by
  have hg : s.gang (.gang w i) = some g := by rw [← o.cur]; exact onCompute_issuer o
  simp only [State.makeCall, o.cur, o.wg, hg]
  split
  · rfl
  · unfold State.afterRelease
    split
    · rename_i hs hall
      obtain h | h | ⟨h1, h2⟩ := h
      · exact absurd h hs
      · refine absurd (fun k hk => ?_) h
        have hk' : k < 32 := BitVec.lt_of_getLsbD hk
        exact (List.all_eq_true.mp hall) k ((mem_lanesOf s.mask k hk').mpr hk)
      · simp only [h1, h2]
    · rfl
/-- A call at a ring that cannot be read: its threads wait, and the tenant is told. -/
theorem State.makeCall_broken {s : State} {g : Gang} {w i : Nat} {x : Workgroup} {r : Launch} (o : OnCompute s g w i x r) {a : Word}
    (hslot : g.callSlot = none) (hrel : ∀ k, s.mask.getLsbD k = true → s.released s.cur 3 k = true)
    (hb : s.ringBroken (clusterOf x.core) true = some a) (n : Nat) :
    s.makeCall n = (s.waitRetry s.mask).wiredFault (tenantOfSlice r.slice) a := by
  have hall : ((lanesOf s.mask).all fun l => s.released (.gang w i) 3 l) = true := by
    rw [List.all_eq_true]
    intro l hl
    rw [← o.cur]
    exact hrel l ((mem_lanesOf s.mask l (lanesOf_lt s.mask l hl)).mp hl)
  have hg : s.gang (.gang w i) = some g := by rw [← o.cur]; exact onCompute_issuer o
  have hslice : s.sliceOf (.gang w i) = r.slice := by
    simp only [State.sliceOf, State.launchAt, o.wg, Option.bind_some, o.launch, Option.map_some, Option.getD_some]
  simp only [State.makeCall, o.cur, o.wg, hg, hslot, Option.isSome_none, Bool.false_eq_true, if_false, State.afterRelease, hall, if_true,
    State.ringRoom_none_of_broken hb, hb, hslice]

/-! ### What is found again when the call issues -/

theorem State.IssuedOn.released {s t : State} {u : Use} {g : Gang} {w i : Nat} {x y : Workgroup} {r : Launch} (h : s.IssuedOn t u g w i x r y)
    (hg : s.gang s.cur = some g) (scope k : Nat) : t.released t.cur scope k = s.released s.cur scope k := by
  obtain ⟨-, h2, h3, h4, -⟩ := Gang.issued_bars g s u
  simp only [State.released, hg, h.issuer, Option.map_some, Gang.watching, Gang.releaseTime, h2, h3, h4, State.quiet, h.only.reqs, h.only.ptb]
  rw [h.only.cur] <;> rfl
theorem State.IssuedOn.ringRoom {s t : State} {u : Use} {g : Gang} {w i : Nat} {x y : Workgroup} {r : Launch} (h : s.IssuedOn t u g w i x r y)
    (c : Nat) (call : Bool) : t.ringRoom c call = s.ringRoom c call :=
  State.same_of_ground h.ground (·.ringRoom c call) fun v => v.ground_ringRoom c call
theorem State.IssuedOn.ringBroken {s t : State} {u : Use} {g : Gang} {w i : Nat} {x y : Workgroup} {r : Launch} (h : s.IssuedOn t u g w i x r y)
    (c : Nat) (call : Bool) : t.ringBroken c call = s.ringBroken c call :=
  State.same_of_ground h.ground (·.ringBroken c call) fun v => v.ground_ringBroken c call
theorem State.IssuedOn.core_eq {s t : State} {u : Use} {g : Gang} {w i : Nat} {x y : Workgroup} {r : Launch} (h : s.IssuedOn t u g w i x r y) :
    y.core = x.core := by rw [← h.group]; rfl
theorem Gang.issued_callSlot (g : Gang) (s : State) (u : Use) : (g.issued s u).callSlot = g.callSlot := by
  unfold Gang.issued; split <;> rfl
theorem State.curPc_congr {s t : State} {g g' : Gang} (hs : s.gang s.cur = some g) (ht : t.gang t.cur = some g') (hm : t.mask = s.mask)
    (hp : g'.pc = g.pc) : t.curPc = s.curPc := by
  have h : g'.pcOf = g.pcOf := by funext l; simp only [Gang.pcOf, hp]
  simp only [State.curPc, hs, ht, hm, Option.bind_some]
  rw [h]
theorem State.bare_deadlineOf (s : State) (h : Word) (d : Nat) : s.bare.deadlineOf h d = s.deadlineOf h d := by
  simp only [State.deadlineOf, State.bare_slice]
  cases s.slice h <;> rfl
theorem Tab.isSome_find_map {α : Type} (f : Nat × α → Nat × α) (hf : ∀ p, (f p).1 = p.1) (t : Tab α) (k : Nat) :
    (Tab.find (t.map f) k).isSome = (Tab.find t k).isSome := by
  induction t with
  | nil => rfl
  | cons p t ih =>
    have hp := hf p
    obtain ⟨j, v⟩ := p
    rw [List.map_cons]
    generalize f (j, v) = q at hp
    obtain ⟨j', v'⟩ := q
    obtain rfl : j' = j := hp
    by_cases h : j' = k
    · simp only [Tab.find, if_pos h, Option.isSome_some]
    · simp only [Tab.find, if_neg h, ih]
theorem Gang.issued_holds (g : Gang) (s : State) (u : Use) (line : Nat) : (g.issued s u).holds line = g.holds line := by
  have hl : (Tab.find (g.issued s u).lines line).isSome = (Tab.find g.lines line).isSome := by
    have : (g.issued s u).lines = g.lines.map fun p => if (g.needs u s.mask).contains p.1 then (p.1, s.serialNo + 1) else p := by
      unfold Gang.issued; split <;> rfl
    rw [this]
    exact Tab.isSome_find_map _ (fun p => by split <;> rfl) g.lines line
  have hc : (g.issued s u).count = g.count ∧ (g.issued s u).dirty = g.dirty := by unfold Gang.issued; split <;> exact ⟨rfl, rfl⟩
  simp only [Gang.holds, hl, hc.1, hc.2]
theorem Gang.issued_count (g : Gang) (s : State) (u : Use) : (g.issued s u).count = g.count := by unfold Gang.issued; split <;> rfl
/-- The call record of an instruction is what it was before the issue was counted. -/
theorem State.IssuedOn.callRecord {s t : State} {u : Use} {g : Gang} {w i : Nat} {x y : Workgroup} {r : Launch} (h : s.IssuedOn t u g w i x r y)
    (o : OnCompute s g w i x r) (n : Nat) (m : LaneMask) (pc : Word) : t.callRecord w i n m pc = s.callRecord w i n m pc := by
  have hy : y = { x with gangs := y.gangs, perf := y.perf } := by rw [← h.group]
  have hs : s.gang (.gang w i) = some g := by rw [← o.cur]; exact onCompute_issuer o
  have ht : t.gang (.gang w i) = some (g.issued s u) := by rw [← h.on.cur]; exact h.issuer
  have hr : t.launchOf y = some r := h.on.launch
  have hv : ∀ k, (g.issued s u).vreg k = g.vreg k := fun k => by
    obtain ⟨e, -⟩ := g.issued_fields s u
    funext n
    simp only [Gang.vreg, e]
  have hread : ∀ c va n, t.partRead c va n = s.partRead c va n := fun c va n =>
    State.same_of_ground h.ground (·.partRead c va n) fun v => v.ground_partRead c n va
  have hlane : ∀ lane k, t.laneValue w i lane k = s.laneValue w i lane k := fun lane k => by
    simp only [State.laneValue, h.on.wg, o.wg, ht, hs, g.issued_holds, g.issued_count, hv, hr, o.launch, hread]
    rw [hy]
  have hdead : ∀ a d, t.deadlineOf a d = s.deadlineOf a d := fun a d =>
    State.same_of_bare h.bare (·.deadlineOf a d) fun v => v.bare_deadlineOf a d
  simp only [State.callRecord, h.on.wg, o.wg, hr, o.launch, hlane, hdead, h.only.ptb]
  rw [hy]

end Sys2Proof.Machine

namespace Sys2Proof.Proofs
open Machine

theorem yieldCompletes (s : State) (g : Gang) : Does .yield (.regs [] []) s g fun g' =>
    Completed g g' s.mask ∧ g'.yielded = true ∧ g'.aged = false ∧ g'.since = s.ptb := by
  intro hadm
  obtain ⟨t, he, h⟩ := s.issue_admits _ g (fun s => (s.finish s.mask).updGang s.cur fun g => { g with yielded := true, aged := false, since := s.ptb }) hadm
  have hi : t.gang t.cur = some (g.issued s (.regs [] [])) := by rw [h.cur]; exact h.issuer
  have h1 : OnlyGang t (t.finish t.mask) ((g.issued s (.regs [] [])).finishAll t.mask) := OnlyGang.updGang t (fun g => g.finishAll t.mask) _ hi
  have h2 := OnlyGang.updGang (t.finish t.mask) (fun g => { g with yielded := true, aged := false, since := t.ptb }) _
    (by rw [h1.cur]; exact h1.issuer)
  rw [h1.cur] at h2
  have hc := g.completed_issued s (.regs [] []) s.mask
  refine ⟨_, _, he, h.trans (h1.trans h2), ?_, rfl, rfl, h.ptb⟩
  rw [h.mask]
  exact ⟨hc.regs, hc.guards, hc.fcr, hc.pc, hc.stat, hc.inFlight, hc.rest⟩

theorem syscallOnCompute (s : State) (g : Gang) (w i : Nat) (x : Workgroup) (r : Launch) (n : BitVec 15) (l : BitVec 4)
    (o : OnCompute s g w i x r) (hadm : s.Admits (.regs [1, 2, 3, 4, 5, 6] []) g) :
    let released := ∀ k, s.mask.getLsbD k = true → s.released s.cur 3 k = true
    let ring := s.ringRoom (clusterOf x.core) true
    (∀ base j, g.callSlot = none → released → ring = some (base, j) →
      ∃ t g', exec (.syscall n l) s = .next t ∧ t.gang s.cur = some g' ∧ (∀ a, a ≠ s.cur → t.gang a = s.gang a) ∧
        (∀ k, k < 32 → g'.stat k = if s.mask.getLsbD k then .call else g.stat k) ∧
        (∀ k, k < 32 → g'.pcOf k = if s.mask.getLsbD k then g.pcOf k + 4 else g.pcOf k) ∧
        g'.callSlot = some j ∧ g'.callLanes = s.mask ∧ g'.callDone = 0 ∧ g'.callCluster = clusterOf x.core ∧
        g'.v = g.v ∧ g'.s = g.s ∧ g'.g = g.g ∧ g'.fcr = g.fcr ∧
        Stands s t (clusterOf x.core) (base + BitVec.ofNat 64 (2048 * j)) (s.callRecord w i n.toNat s.mask s.curPc)) ∧
    ((g.callSlot.isSome = true ∨ ¬released ∨ (ring = none ∧ s.ringBroken (clusterOf x.core) true = none)) →
      ∃ t g', exec (.syscall n l) s = .next t ∧ OnlyGang s t g' ∧ Waits g g' s.mask) ∧
    (∀ a, g.callSlot = none → released → s.ringBroken (clusterOf x.core) true = some a →
      ∃ t g', exec (.syscall n l) s = .next t ∧ Waits g g' s.mask ∧
        OnlyAnd s t g' (fun t => { t with tenants := s.tenants }) noneOf ∧
        t.tenants = (s.wiredFault (tenantOfSlice r.slice) a).tenants) := by
  intro released ring
  obtain ⟨t, y, he, hi⟩ := State.issue_on_compute o hadm fun s => s.makeCall n.toNat
  have hg := hadm.agent
  have hslot := g.issued_callSlot s (.regs [1, 2, 3, 4, 5, 6] [])
  have hrel : (∀ k, t.mask.getLsbD k = true → t.released t.cur 3 k = true) ↔ released := by
    simp only [hi.released hg, hi.only.mask]
    rfl
  have hroom : t.ringRoom (clusterOf y.core) true = ring := by rw [hi.core_eq, hi.ringRoom]
  have hbrok : t.ringBroken (clusterOf y.core) true = s.ringBroken (clusterOf x.core) true := by rw [hi.core_eq, hi.ringBroken]
  have hwait := OnlyGang.updGang t (fun g => (lanesOf t.mask).foldl (Gang.wait t.serialNo) g) _ hi.issuer
  have hwaits : Waits g ((lanesOf t.mask).foldl (Gang.wait t.serialNo) (g.issued s (.regs [1, 2, 3, 4, 5, 6] []))) s.mask := by
    rw [hi.only.mask]; exact g.waits_issued s _ s.mask t.serialNo
  refine ⟨fun base j h1 h2 h3 => ?_, fun h => ?_, fun a h1 h2 h3 => ?_⟩
  · obtain ⟨k1, k2, k3⟩ := State.makeCall_calls hi.on.cur hi.on.wg (onCompute_issuer hi.on) (hslot.trans h1) (hrel.mpr h2) (hroom.trans h3) n.toNat
    obtain ⟨e1, e2, e3, e4, e5, e6, -⟩ := g.issued_fields s (.regs [1, 2, 3, 4, 5, 6] [])
    obtain ⟨f1, f2, f3, f4, f5, f6⟩ := Gang.inCall_fields (g.issued s (.regs [1, 2, 3, 4, 5, 6] [])) t.mask j (clusterOf y.core)
    rw [hi.only.cur, hi.only.mask] at *
    refine ⟨_, _, he, k1, fun a ha => (k2 a ha).trans (hi.only.others a ha), fun k hk => ?_, fun k hk => ?_, rfl, rfl, rfl, ?_,
      f3.trans e1, f4.trans e2, f5.trans e3, f6.trans e5, ?_⟩
    · rw [f1 k hk, Gang.stat, e6]; rfl
    · rw [f2 k hk, Gang.pcOf, e4]; rfl
    · rw [← hi.core_eq]; rfl
    · rw [hi.core_eq, hi.callRecord o, State.curPc_congr hg hi.issuer hi.only.mask e4] at k3
      exact (stands_ground ..).mp (hi.ground ▸ (stands_ground ..).mpr k3)
  · rw [State.makeCall_waits hi.on (by rwa [hslot, hrel, hroom, hbrok])] at he
    exact ⟨_, _, he, hi.only.trans hwait, hwaits⟩
  · rw [State.makeCall_broken hi.on (hslot.trans h1) (hrel.mpr h2) (hbrok.trans h3)] at he
    have hall := hi.only.trans hwait
    refine ⟨_, _, he, hwaits, ⟨hall.issuer, hall.others, hall.workgroups, hall.cores, hall.slices, ?_⟩, ?_⟩
    · exact congrArg (fun u : State => { u with tenants := s.tenants }) hall.rest
    · exact hall.same (fun u => (u.wiredFault (tenantOfSlice r.slice) a).tenants) fun _ => rfl

/-- A core whose context the action does not concern is as it was. -/
theorem onlyGang_scalar {s t : State} {g : Gang} (h : OnlyGang s t g) {j : Nat} (hj : Agent.core j ≠ s.cur) : t.scalar j = s.scalar j := by
  have hg := h.others (.core j) hj
  cases hs : s.scalar j with
  | none =>
    rw [State.gang, State.gang, hs] at hg
    exact Option.map_eq_none_iff.mp hg
  | some c =>
    obtain ⟨d, hd, e⟩ := h.cores j c hs
    rw [State.gang, State.gang, hs, hd] at hg
    have hc : d.ctx = c.ctx := Option.some.inj hg
    rw [hd, ← e, ← hc]

theorem syscallOnService (s : State) (c : Nat) (k : Scalar) (n : BitVec 15) (l : BitVec 4) (o : OnService s c k)
    (hadm : s.Admits (.regs [1, 2, 3, 4, 5, 6] []) k.ctx) :
    ∃ t, exec (.syscall n l) s = .next t ∧ Trapped s t c k 0x12 (k.ctx.pcOf 0 + 4) s.curWord := by
  obtain ⟨t, he, hi⟩ := s.issue_issued _ k.ctx (fun s => s.makeCall n.toNat) hadm
  obtain ⟨e1, e2, e3, e4, -⟩ := k.ctx.issued_fields s (.regs [1, 2, 3, 4, 5, 6] [])
  have hg := hadm.agent
  have hcur : t.cur = .core c := hi.only.cur.trans o.cur
  obtain ⟨d, hd, ek⟩ := hi.only.cores c k o.core
  have hctx : d.ctx = k.ctx.issued s (.regs [1, 2, 3, 4, 5, 6] []) := by
    have := hi.issuer
    rw [hcur, State.gang, hd] at this
    exact Option.some.inj this
  have hpc : t.curPc = k.ctx.pcOf 0 := (State.curPc_congr hg hi.issuer hi.only.mask e4).trans (onService_curPc o)
  have hword : t.curWord = s.curWord := by
    have hw : (k.ctx.issued s (.regs [1, 2, 3, 4, 5, 6] [])).wordAt = k.ctx.wordAt := by
      funext l
      have hb : (k.ctx.issued s (.regs [1, 2, 3, 4, 5, 6] [])).bufs = k.ctx.bufs := by unfold Gang.issued; split <;> rfl
      simp only [Gang.wordAt, Gang.pcOf, hb, e4] <;> rfl
    simp only [State.curWord, hi.issuer, hg, hi.only.mask, hw]
  have hcall : t.makeCall n.toNat = t.trap c 0x12 (k.ctx.pcOf 0 + 4) s.curWord := by
    rw [← hpc, ← hword]
    simp only [State.makeCall, hcur]
  have hfree : d.handling = false := by rw [← o.free, ← ek]
  obtain ⟨⟨k', c1, c2, c3, c4, c5, c6, c7, c8, c9⟩, hoth, hmem⟩ := State.trap_trapped hd hfree 0x12 (k.ctx.pcOf 0 + 4) s.curWord
  rw [hcall] at he
  refine ⟨_, he, ⟨k', c1, c2, c3, c4, c5, fun m h1 h2 h3 => ?_, c7, ?_, ?_⟩, fun j hj => (hoth j hj).trans ?_, hmem.trans hi.only.mem⟩
  · rw [c6 m h1 h2 h3]
    simp only [Scalar.kreg, show d.k = k.k by rw [← ek]]
  · rw [c8, hctx, e1]
  · rw [c9, hctx, e2]
  · exact onlyGang_scalar hi.only (by rw [o.cur]; exact fun h => hj (Agent.core.inj h))

/-- Settles O22: the gang that exits leaves, a yield completes, and a call posts its record or waits. -/
theorem exitYieldAndSyscall : Obligations.ExitYieldAndSyscall :=
  ⟨threadsExit, yieldCompletes, fun s g w i x r n l o hadm => syscallOnCompute s g w i x r n l o hadm, syscallOnService⟩

end Sys2Proof.Proofs
end

section
/-! Events by which agents are served: ageing, walks, waits that end, and deliveries (R22, R87, R135, R165, R171, R183). -/

namespace Sys2Proof.Machine

theorem State.tcb_updTcb (s : State) (n m : Nat) (f : Tcb → Tcb) : (s.updTcb n f).tcb m = if m = n then (s.tcb m).map f else s.tcb m :=
  Tab.find_upd s.tcbs n m f
theorem State.launch_updLaunch (s : State) (l m : Nat) (f : Launch → Launch) :
    (s.updLaunch l f).launch m = if m = l then (s.launch m).map f else s.launch m := Tab.find_upd s.launches l m f
/-- An update of a gang is of that gang alone. -/
theorem oneGang_updGang {s : State} {a : Agent} {g : Gang} (hg : s.gang a = some g) (f : Gang → Gang) : OneGang s (s.updGang a f) a (f g) := by
  refine ⟨State.gang_updGang_same s a f g hg, fun b hb => State.gang_updGang_other s a b f hb, fun w x hx => State.wg_updGang hx a f,
    fun i c hc => ?_, ?_⟩
  · simp only [State.updGang, hg]
    exact s.setGang_scalar a (f g) i c hc
  · simp only [State.updGang, hg]
    exact s.setGang_rest a (f g)
theorem oneGang_trans {s t u : State} {a : Agent} {g g' : Gang} (h : OneGang s t a g) (k : OneGang t u a g') : OneGang s u a g' := by
  obtain ⟨-, h2, h3, h4, h5⟩ := h
  obtain ⟨k1, k2, k3, k4, k5⟩ := k
  refine ⟨k1, fun b hb => (k2 b hb).trans (h2 b hb), fun w x hx => ?_, fun i c hc => ?_, ?_⟩
  · obtain ⟨y, hy, e⟩ := h3 w x hx
    obtain ⟨z, hz, e'⟩ := k3 w y hy
    exact ⟨z, hz, by rw [← e, ← e']⟩
  · obtain ⟨d, hd, e⟩ := h4 i c hc
    obtain ⟨d', hd', e'⟩ := k4 i d hd
    exact ⟨d', hd', by rw [← e, ← e']⟩
  · have e : ({ u with wgs := s.wgs, scalars := s.scalars } : State) =
        { ({ u with wgs := t.wgs, scalars := t.scalars } : State) with wgs := s.wgs, scalars := s.scalars } := rfl
    rw [e, k5, h5]
theorem oneGang_refl {s : State} {a : Agent} {g : Gang} (h : s.gang a = some g) : OneGang s s a g :=
  ⟨h, fun _ _ => rfl, fun _ x hx => ⟨x, hx, rfl⟩, fun _ c hc => ⟨c, hc, rfl⟩, rfl⟩

end Sys2Proof.Machine

namespace Sys2Proof.Proofs
open Machine

/-! ### Ageing (R22) -/

theorem gangsAge (s : State) (w i : Nat) (g : Gang) (hg : s.gang (.gang w i) = some g) (he : g.ended = false) :
    (s.contends w i g = true → g.since + 5120 ≤ s.ptb →
      Becomes (.gangAged w i) s fun t => OneGang s t (.gang w i) { g with aged := true }) ∧
    (s.contends w i g = false ∨ s.ptb < g.since + 5120 → exec (.gangAged w i) s = .next s) := by
  have hex : exec (.gangAged w i) s = .next (if s.contends w i g && !g.ended && decide (g.since + agingNs ≤ s.ptb) then
      s.updGang (.gang w i) fun g => { g with aged := true } else s) := by
    show execGangAged w i s = _
    simp only [execGangAged, hg]
  rw [Becomes, hex]
  refine ⟨fun hc ht => ⟨_, rfl, ?_⟩, fun h => ?_⟩
  · rw [if_pos (by simp [hc, he, agingNs, ht])]
    exact oneGang_updGang hg _
  · rw [if_neg]
    obtain h | h := h
    · simp [h]
    · rw [decide_eq_false (by rw [agingNs]; omega), Bool.and_false]
      exact Bool.false_ne_true
theorem workgroupsAge (s : State) (w n : Nat) (x : Workgroup) (r : Launch) (hx : s.wg w = some x) (hr : s.launchOf x = some r)
    (hp : x.place = none) (hs : s.sliceStopped r.slice = false) (ht : x.since + 5120 ≤ s.ptb) :
    Becomes (.readyPoolAged w n) s fun t => t.wg w = some { x with aged := true } ∧ (∀ v, v ≠ w → t.wg v = s.wg v) ∧
      { t with wgs := s.wgs } = s := by
  refine ⟨s.updWg w fun g => { g with aged := true }, ?_, ?_, fun v hv => ?_, rfl⟩
  · show execReadyPoolAged w n s = _
    simp [execReadyPoolAged, hx, hp, hr, hs, agingNs, ht]
  · rw [State.wg_updWg, if_pos rfl, hx]; rfl
  · rw [State.wg_updWg, if_neg hv]
theorem nodesAge (s : State) (w n : Nat) (c : Tcb) (hw : s.wg w = none) (hn : n < 65536) (hc : s.tcb n = some c)
    (h : (s.nodeFree n c = true ∧ c.freeAt + 5120 ≤ s.ptb) ∨
      (c.state = 3 ∧ ∃ l x, c.work = some l ∧ s.launch l = some x ∧ s.launchWaits x = true ∧ x.freeAt + 5120 ≤ s.ptb)) :
    Becomes (.readyPoolAged w n) s fun t => t.tcb n = some { c with aged := true } ∧ (∀ m, m ≠ n → t.tcb m = s.tcb m) ∧
      { t with tcbs := s.tcbs } = s := by
  refine ⟨s.updTcb n fun t => { t with aged := true }, ?_, ?_, fun m hm => (s.tcb_updTcb n m _).trans (if_neg hm), rfl⟩
  · show execReadyPoolAged w n s = _
    simp only [execReadyPoolAged, hw, hc, Option.map_none, Option.getD_none, Bool.false_eq_true, if_false, if_neg (Nat.not_le.mpr hn)]
    rw [if_pos]
    obtain ⟨h1, h2⟩ | ⟨h1, l, x, h2, h3, h4, h5⟩ := h
    · simp [h1, h2, agingNs]
    · simp [h1, h2, h3, h4, h5, agingNs]
  · rw [State.tcb_updTcb, if_pos rfl, hc]; rfl
theorem launchesAge (s : State) (w l : Nat) (x : Launch) (hw : s.wg w = none) (hx : s.launch l = some x) (h : s.launchWaits x = true)
    (ht : x.freeAt + 5120 ≤ s.ptb) :
    Becomes (.readyPoolAged w (65536 + l)) s fun t => t.launch l = some { x with aged := true } ∧ (∀ m, m ≠ l → t.launch m = s.launch m) ∧
      { t with launches := s.launches } = s := by
  refine ⟨s.updLaunch l fun x => { x with aged := true }, ?_, ?_, fun m hm => (s.launch_updLaunch l m _).trans (if_neg hm), rfl⟩
  · show execReadyPoolAged w (65536 + l) s = _
    simp [execReadyPoolAged, hw, hx, h, agingNs, ht]
  · rw [State.launch_updLaunch, if_pos rfl, hx]; rfl
theorem aging : agingAfter4096Cycles :=
  ⟨gangsAge, workgroupsAge, nodesAge, launchesAge⟩

/-! ### Page walks (R165, R166, R171) -/

theorem walksInstall : walkInstalls := by
  intro s x hx
  have hex : exec (.pageWalk x.id) s = execPageWalk x.id s := rfl
  refine ⟨fun hc => ⟨{ s with walks := s.walks.filter fun w => w.id ≠ x.id }, ?_, rfl, rfl⟩, fun e hc he =>
    ⟨({ s with walks := s.walks.filter fun w => w.id ≠ x.id } : State).tlbPut x.cluster e, ?_, rfl, fun c => ?_, rfl⟩⟩
  · rw [hex]
    simp only [execPageWalk, hx, hc, if_true]
  · rw [hex]
    simp only [execPageWalk, hx, hc, Bool.false_eq_true, if_false]
    have hctx : ({ s with walks := s.walks.filter fun w => w.id ≠ x.id } : State).ctxOf x.agent = s.ctxOf x.agent := rfl
    rw [hctx, he]
  · simp only [State.tlbPut, Tab.at]
    split
    · subst c; rw [Tab.find_put_same]; rfl
    · rw [Tab.find_put_other _ _ _ _ ‹_›]

/-! ### Fences that end (R183, R185) -/

/-- A thread that waits in a fence of an issue. -/
def inRelease (g : Gang) (n l : Nat) : Prop := ∃ c k d va bs loc, g.stat l = .release n c k d va bs loc

theorem endRelease_other {s : State} {a : Agent} {g : Gang} (hg : s.gang a = some g) {n k : Nat} (h : ¬inRelease g n k) :
    s.endRelease a n k = s := by
  unfold State.endRelease
  simp only [hg, Option.map_some, Option.getD_some]
  split
  · rename_i m c kind d va bs loc hst
    rw [if_neg]
    rintro ⟨rfl, -⟩
    exact h ⟨c, kind, d, va, bs, loc, hst⟩
  · rfl
theorem endRelease_fence {s : State} {a : Agent} {g : Gang} (hg : s.gang a = some g) {n l c d : Nat} {va : Word} {bs : List Byte} {loc : Loc}
    (hst : g.stat l = .release n c 1 d va bs loc) (hr : s.released a c l = true) :
    s.endRelease a n l = s.updGang a fun g' => g'.finish l (g.pcOf l + 4) := by
  unfold State.endRelease
  simp only [hg, Option.map_some, Option.getD_some, hst]
  rw [if_pos (by simp [hr]), if_neg (by simp)]
theorem foldl_endRelease_others {s : State} {a : Agent} {g : Gang} (hg : s.gang a = some g) {n : Nat} (ls : List Nat)
    (h : ∀ k ∈ ls, ¬inRelease g n k) : ls.foldl (fun s l => s.endRelease a n l) s = s := by
  induction ls with
  | nil => rfl
  | cons k ls ih =>
    rw [List.foldl_cons, endRelease_other hg (h k List.mem_cons_self)]
    exact ih fun j hj => h j (List.mem_cons_of_mem _ hj)
theorem endWct_none {s : State} {a : Agent} {g : Gang} (hg : s.gang a = some g) {n : Nat} (h : ∀ k, k < 32 → ¬inRelease g n k) :
    s.endWct a n = s := by
  unfold State.endWct
  simp only [hg]
  rw [List.filterMap_eq_nil_iff.mpr]
  · rfl
  · intro k hk
    rw [List.mem_range] at hk
    split
    · rename_i m c d va bs loc hst
      rw [if_neg]
      rintro ⟨rfl, -⟩
      exact h k hk ⟨c, 2, d, va, bs, loc, hst⟩
    · rfl
theorem fenceEnds : fenceWaitEnds := by
  intro s a g n l c d va bs loc hg hl hst hr hother
  have hk : ∀ k, k < 32 → k ≠ l → ¬inRelease g n k := by
    rintro k hk hkl ⟨c', k', d', va', bs', loc', h⟩
    exact hother k hk hkl n c' k' d' va' bs' loc' h rfl
  have hg' : (s.updGang a fun g' => g'.finish l (g.pcOf l + 4)).gang a = some (g.finish l (g.pcOf l + 4)) := State.gang_updGang_same s a _ g hg
  have hdone : ∀ k, k < 32 → ¬inRelease (g.finish l (g.pcOf l + 4)) n k := by
    rintro k hk32 ⟨c', k', d', va', bs', loc', h⟩
    rw [(Gang.finish_spec g l (g.pcOf l + 4) k).2] at h
    split at h
    · cases h
    · exact hk k hk32 ‹_› ⟨c', k', d', va', bs', loc', h⟩
  have hfold : (List.range 32).foldl (fun s l => s.endRelease a n l) s = s.updGang a fun g' => g'.finish l (g.pcOf l + 4) := by
    obtain ⟨before, after, e⟩ := List.append_of_mem (List.mem_range.mpr hl)
    have hlt : ∀ k ∈ before ++ l :: after, k < 32 := fun k hk => List.mem_range.mp (e ▸ hk)
    have hnd : (before ++ l :: after).Nodup := e ▸ List.nodup_range
    obtain ⟨-, -, hdisj⟩ := List.nodup_append.mp hnd
    rw [e, List.foldl_append, List.foldl_cons, foldl_endRelease_others hg, endRelease_fence hg hst hr, foldl_endRelease_others hg']
    · exact fun k hk' => hdone k (hlt k (by simp [hk']))
    · exact fun k hk' => hk k (hlt k (by simp [hk'])) (hdisj k hk' l List.mem_cons_self)
  have hex : exec (.releaseWaitEnd a n) s = .next (s.updGang a fun g' => g'.finish l (g.pcOf l + 4)) := by
    have hcur : (s.updGang a fun g' => g'.finish l (g.pcOf l + 4)).cur = s.cur := by
      simp only [State.updGang, hg, State.setGang_cur]
    show execReleaseWaitEnd a n s = _
    simp only [execReleaseWaitEnd, hfold]
    rw [show ({ s.updGang a (fun g' => g'.finish l (g.pcOf l + 4)) with cur := s.cur } : State) =
      s.updGang a fun g' => g'.finish l (g.pcOf l + 4) by rw [← hcur], endWct_none hg' hdone]
  exact ⟨_, hex, _, oneGang_updGang hg _, fun k _ => (Gang.finish_spec g l _ k).2,
    fun k _ => by rw [(Gang.finish_spec g l _ k).1]; split <;> simp [*], rfl, rfl, rfl, rfl, rfl⟩

/-! ### Values delivered to registers (R87) -/

theorem setV_holds {g : Gang} (l n : Nat) (x : Word) {line : Nat} (h : g.holds line = true) : (g.setV l n x).holds line = true := by
  unfold Gang.setV Gang.mark
  split
  · exact h
  · simp only [Gang.holds, Bool.or_eq_true, List.contains_cons] at h ⊢
    tauto
theorem setV_same (g : Gang) (l n : Nat) (x : Word) : (g.setV l n x).count = g.count ∧ (g.setV l n x).s = g.s ∧ (g.setV l n x).g = g.g ∧
    (g.setV l n x).pc = g.pc ∧ (g.setV l n x).fcr = g.fcr ∧ (g.setV l n x).status = g.status ∧ (g.setV l n x).flights = g.flights ∧
    (g.setV l n x).windows = g.windows := by
  unfold Gang.setV Gang.mark
  split <;> exact ⟨rfl, rfl, rfl, rfl, rfl, rfl, rfl, rfl⟩
theorem deliverV_held {s : State} {a : Agent} {g : Gang} (hg : s.gang a = some g) {l n : Nat} (h : g.holds (lineOfV g.count l n) = true) (x : Word) :
    s.deliverV a l n x = s.updGang a fun g => g.setV l n x := by
  simp only [State.deliverV, hg, h, if_true]
theorem deliverVs_held {a : Agent} {l : Nat} (ps : List (Nat × Word)) : ∀ {s : State} {g : Gang}, s.gang a = some g →
    (∀ p ∈ ps, g.holds (lineOfV g.count l p.1) = true) → OneGang s (ps.foldl (fun s p => s.deliverV a l p.1 p.2) s) a (g.putRegs l ps) := by
  induction ps with
  | nil => exact fun hg _ => oneGang_refl hg
  | cons p ps ih =>
    intro s g hg h
    have h1 := oneGang_updGang hg fun g => g.setV l p.1 p.2
    rw [List.foldl_cons, deliverV_held hg (h p List.mem_cons_self)]
    refine oneGang_trans h1 (ih h1.1 fun q hq => ?_)
    rw [(setV_same g l p.1 p.2).1]
    exact setV_holds _ _ _ (h q (List.mem_cons_of_mem _ hq))
/-- Values for different registers: each register has its own, and the others are as they were. -/
theorem foldl_write_eq_find (n : Nat) (ps : List (Nat × Word)) : (ps.map Prod.fst).Nodup → ∀ x,
    ps.foldl (fun x p => if n = p.1 then p.2 else x) x = ((ps.find? fun p => p.1 = n).map Prod.snd).getD x := by
  induction ps with
  | nil => exact fun _ _ => rfl
  | cons p ps ih =>
    intro hnd x
    rw [List.map_cons, List.nodup_cons] at hnd
    rw [List.foldl_cons, ih hnd.2, List.find?_cons]
    by_cases hp : n = p.1
    · have hnone : ps.find? (fun q => q.1 = n) = none := by
        rw [List.find?_eq_none]
        intro q hq e
        exact hnd.1 (List.mem_map.mpr ⟨q, hq, by simpa [hp] using e⟩)
      simp [hp, hp ▸ hnone]
    · simp [hp, Ne.symm hp]
/-- Register writes leave the uniform registers and the windows. -/
theorem putRegs_keeps (l : Nat) (ps : List (Nat × Word)) : ∀ g : Gang, (g.putRegs l ps).s = g.s ∧ (g.putRegs l ps).windows = g.windows := by
  induction ps with
  | nil => exact fun _ => ⟨rfl, rfl⟩
  | cons p ps ih =>
    intro g
    obtain ⟨-, h1, -, -, -, -, -, h2⟩ := setV_same g l p.1 p.2
    exact ⟨(ih _).1.trans h1, (ih _).2.trans h2⟩

theorem laneDelivery (s : State) (a : Agent) (g : Gang) (f : Flight) (vs : List Word) (hg : s.gang a = some g)
    (hf : g.flights.find? (fun x => x.id = f.id) = some f) (hv : f.vals = some vs) (hp : f.poisoned = false) (hl : f.lane < 32)
    (hnd : f.regs.Nodup) (hlen : vs.length = f.regs.length) (hlt : ∀ n ∈ f.regs, n < 64)
    (hh : ∀ n ∈ f.regs, g.holds (lineOfV g.count f.lane n) = true) :
    Becomes (.destinationDelivery a f.id) s fun t => ∃ g', OneGang s t a g' ∧
      (∀ l n, l < 32 → n < 64 → g'.vreg l n = if l = f.lane then (((f.regs.zip vs).find? fun p => p.1 = n).map Prod.snd).getD (g.vreg l n) else g.vreg l n) ∧
      (∀ l, l < 32 → g'.fcrOf l = if l = f.lane then g.fcrOf l ||| f.flags.setWidth 32 else g.fcrOf l) ∧
      g'.flights = g.flights.filter (fun x => x.id ≠ f.id) ∧ g'.s = g.s ∧ g'.g = g.g ∧ g'.pc = g.pc ∧ g'.status = g.status ∧
      g'.windows = g.windows := by
  have hkeys : (f.regs.zip vs).map Prod.fst = f.regs := List.map_fst_zip (by omega)
  have hmem : ∀ p ∈ f.regs.zip vs, p.1 ∈ f.regs := fun p hp => hkeys ▸ List.mem_map_of_mem hp
  have h1 := deliverVs_held (l := f.lane) (f.regs.zip vs) hg fun p hp => hh p.1 (hmem p hp)
  have h2 := oneGang_trans h1 (oneGang_updGang h1.1 fun g => g.setFlags f.lane f.flags)
  have h3 := oneGang_trans h2 (oneGang_updGang h2.1 fun g => { g with flights := g.flights.filter fun x => x.id ≠ f.id })
  have hex : exec (.destinationDelivery a f.id) s = .next (((f.regs.zip vs).foldl (fun s p => s.deliverV a f.lane p.1 p.2) s |>.updGang a
      fun g => g.setFlags f.lane f.flags).updGang a fun g => { g with flights := g.flights.filter fun x => x.id ≠ f.id }) := by
    show execDestinationDelivery a f.id s = _
    simp only [execDestinationDelivery, hg, Option.bind_some, hf, Option.map_some, hv, hp, Bool.false_eq_true, if_false,
      if_neg (show ¬f.lane = 32 by omega)]
  obtain ⟨e2, e3, e4, e5, e6, -⟩ := Gang.putRegs_same (f.regs.zip vs) g f.lane g
  obtain ⟨e1, e7⟩ := putRegs_keeps f.lane (f.regs.zip vs) g
  refine ⟨_, hex, _, h3, fun l n _ hn => ?_, fun l _ => ?_, ?_, e1, e2, e3, e5, e7⟩
  · rw [← foldl_write_eq_find n _ (hkeys.symm ▸ hnd)]
    exact Gang.putRegs_vreg (f.regs.zip vs) g f.lane l n (fun p hp => hlt _ (hmem p hp)) hn
  · have : ∀ h : Gang, (h.setFlags f.lane f.flags).fcrOf l = if l = f.lane then h.fcrOf f.lane ||| f.flags.setWidth 32 else h.fcrOf l :=
      fun h => Tab.at_set 0 h.fcr f.lane l _
    refine (this _).trans ?_
    simp only [Gang.fcrOf, e4]
    split
    · subst l; rfl
    · rfl
  · exact congrArg (List.filter _) e6
theorem uniformDelivery (s : State) (a : Agent) (g : Gang) (f : Flight) (n : Nat) (x : Word) (hg : s.gang a = some g)
    (hf : g.flights.find? (fun x => x.id = f.id) = some f) (hv : f.vals = some [x]) (hr : f.regs = [n]) (hp : f.poisoned = false)
    (hl : f.lane = 32) (hn : n < 64) (hh : g.holds (lineOfS n) = true) :
    Becomes (.destinationDelivery a f.id) s fun t => ∃ g', OneGang s t a g' ∧
      (∀ m, m < 64 → g'.sreg m = if m = n ∧ n ≠ 0 then x else g.sreg m) ∧
      g'.flights = g.flights.filter (fun x => x.id ≠ f.id) ∧ g'.v = g.v ∧ g'.g = g.g ∧ g'.fcr = g.fcr ∧ g'.pc = g.pc ∧ g'.status = g.status := by
  have h1 : OneGang s (s.deliverS a n x) a (g.setS n x) := by
    simp only [State.deliverS, hg, hh, if_true]
    split
    · subst n
      simpa [Gang.setS] using oneGang_refl hg
    · exact oneGang_updGang hg _
  have h2 := oneGang_trans h1 (oneGang_updGang h1.1 fun g => { g with flights := g.flights.filter fun x => x.id ≠ f.id })
  have hex : exec (.destinationDelivery a f.id) s = .next ((s.deliverS a n x).updGang a
      fun g => { g with flights := g.flights.filter fun x => x.id ≠ f.id }) := by
    show execDestinationDelivery a f.id s = _
    simp only [execDestinationDelivery, hg, Option.bind_some, hf, Option.map_some, hv, hp, hr, hl, Bool.false_eq_true, if_false, if_true]
    rfl
  refine ⟨_, hex, _, h2, fun m hm => ?_, ?_, ?_, ?_, ?_, ?_, ?_⟩
  · exact Gang.sreg_setS g n m x
  all_goals simp
theorem delivery : deliveryOnce := ⟨laneDelivery, uniformDelivery⟩

/-! ### A `waitne` that ends (R135, R337, R416) -/

/-- A scratchpad place is in an aperture, whose entries no buffer keeps. -/
theorem keepEntry_of_scratch {s : State} {a : Agent} {va : Word} {w o : Nat} (h : s.waitPlace a va = some (.scratch w o)) (c : Ctx) (kind : Nat) :
    s.keepEntry c kind va = s := by
  have hap : (inThreadAp va.toNat || inServiceAp va.toNat) = true := by
    by_contra hap
    simp only [State.waitPlace, hap, if_false, Option.map_eq_some_iff] at h
    obtain ⟨p, -, hp⟩ := h
    cases hp
  unfold State.keepEntry
  rw [if_pos]
  simpa [or_assoc] using Or.inr (by simpa using hap)
/-- What a thread reads again in a scratchpad. -/
def wordAtScratch (s : State) (w o : Nat) : Word := BitVec.ofNat 64 (leNat (s.locRead (.scratch w o) 8))

theorem execWaitneReread_scratch {s : State} {a : Agent} {g : Gang} {l d n w o : Nat} {va cmp : Word} (hg : s.gang a = some g)
    (hst : g.stat l = .waitne va cmp d n) (hp : s.waitPlace a va = some (.scratch w o)) :
    exec (.waitneReread a l) s = .next (if s.reaching a = false ∨ wordAtScratch s w o = cmp then s else
      (s.deliverV a l d (wordAtScratch s w o)).proceed a l 0 (.lanes [] none)) := by
  have hx : extend false (s.locRead (.scratch w o) 8) = wordAtScratch s w o := rfl
  show execWaitneReread a l s = _
  simp only [execWaitneReread, hg, Option.map_some, Option.getD_some, hst, hp]
  by_cases hr : s.reaching a = true
  · simp only [hr, Bool.not_true, Bool.false_eq_true, if_false, keepEntry_of_scratch hp, State.locPoisoned, State.reread, hx, beq_iff_eq,
      Bool.true_eq_false, false_or]
  · simp [hr]
/-- A thread that goes on leaves the registers of its gang and what is in flight. -/
theorem finish_keeps (g : Gang) (l : Nat) (x : Word) : (g.finish l x).vreg = g.vreg ∧ (g.finish l x).s = g.s ∧ (g.finish l x).g = g.g ∧
    (g.finish l x).fcr = g.fcr ∧ (g.finish l x).flights = g.flights := ⟨rfl, rfl, rfl, rfl, rfl⟩
theorem waitneEnds : waitneGoesOn := by
  intro s a g l d n va cmp w o hg hl hd hst hp x reaches
  have hex := execWaitneReread_scratch hg hst hp
  have hr : reaches ↔ s.reaching a = true := by
    cases a with
    | gang v i => cases hv : s.wg v <;> simp [reaches, State.reaching, hv]
    | core i => rfl
  refine ⟨fun h => ?_, fun h => ?_, fun h hne hh => ?_⟩
  · rw [hex, if_pos (.inl (by simpa [hr] using h))]
  · rw [hex, if_pos (.inr h)]
  · have h1 := oneGang_updGang hg fun g => g.setV l d x
    have hf : ∀ t : State, t.proceed a l 0 (.lanes [] none) = t.updGang a fun g => g.finish l (g.pcOf l + 4) := fun _ => rfl
    have h2 := oneGang_trans h1 (oneGang_updGang h1.1 fun g => g.finish l (g.pcOf l + 4))
    rw [Becomes, hex, if_neg (by rintro (h' | h'); exacts [by simp [hr.mp h] at h', hne h']), deliverV_held hg hh, hf]
    obtain ⟨e1, e2, e3, e4, e5, e6, e7, -⟩ := setV_same g l d x
    obtain ⟨k1, k2, k3, k4, k5⟩ := finish_keeps (g.setV l d x) l ((g.setV l d x).pcOf l + 4)
    refine ⟨_, rfl, _, h2, fun k m _ hm => ?_, fun k _ => ?_, fun k _ => ?_, ?_, ?_, ?_, ?_⟩
    · rw [k1]
      exact Gang.vreg_setV g l d x k m hd hm
    · rw [(Gang.finish_spec (g.setV l d x) l _ k).2]
      simp only [Gang.stat, e6]
    · rw [(Gang.finish_spec (g.setV l d x) l _ k).1]
      simp only [Gang.pcOf, e4]
      split <;> simp [*]
    · exact k2.trans e2
    · exact k3.trans e3
    · exact k4.trans e5
    · exact k5.trans e7

end Sys2Proof.Proofs
end

section
/-! Lines of a context image that arrive in the register cache (R76, R77). -/

namespace Sys2Proof.Machine

/-- Entries written at several places: what is at a place whose writes agree. -/
theorem Tab.at_foldl_set (key : Nat → Nat) (val : Nat → Word) (j : Nat) (x : Word) (ks : List Nat) : ∀ t : Tab Word,
    (∀ k ∈ ks, key k = j → val k = x) →
    Tab.at (ks.foldl (fun t k => Tab.set 0 t (key k) (val k)) t) j 0 = if ∃ k ∈ ks, key k = j then x else Tab.at t j 0 := by
  induction ks with
  | nil => exact fun _ _ => by simp
  | cons k ks ih =>
    intro t h
    rw [List.foldl_cons, ih _ fun i hi => h i (List.mem_cons_of_mem _ hi), Tab.at_set]
    by_cases hk : key k = j
    · simp [hk, h k List.mem_cons_self hk]
    · simp [hk, Ne.symm hk]

/-- The register whose place in a line is given is at that place. -/
theorem slotOf_regOfSlot {count slot : Nat} (h4 : 4 ≤ count) (hc : count ≤ 64) (h : slot < count) : slotOf count (regOfSlot count slot) = slot := by
  unfold slotOf regOfSlot
  split <;> split <;> omega
theorem regOfSlot_slotOf {count n : Nat} (h4 : 4 ≤ count) (hn : n < 64) (h : n < count - 4 ∨ 60 ≤ n) : regOfSlot count (slotOf count n) = n := by
  unfold slotOf regOfSlot
  split <;> split <;> omega
theorem regOfSlot_lt {count slot : Nat} (hc : count ≤ 64) (h : slot < count) : regOfSlot count slot < 64 := by
  unfold regOfSlot
  split <;> omega

/-! ### The registers of a line -/

/-- The uniform registers of a line that arrives. -/
def Gang.lineS (g : Gang) (n : Nat) (bs : List Byte) : Tab Word :=
  (List.range 16).foldl (fun t k => Tab.set 0 t ((n - 4) * 16 + k) (recWord bs (8 * k))) g.s
/-- The vector registers of a line that arrives. -/
def Gang.lineV (g : Gang) (n : Nat) (bs : List Byte) : Tab Word :=
  (List.range 16).foldl (fun t k => Tab.set 0 t (64 * ((n - 8) % 2 * 16 + k) + regOfSlot g.count ((n - 8) / 2)) (recWord bs (8 * k))) g.v

theorem Gang.loadLine_uniform (g : Gang) {n : Nat} (bs : List Byte) (h : n < 8) : g.loadLine n bs = { g with s := g.lineS n bs } := by
  simp only [Gang.loadLine, Gang.lineS, if_pos h]
  generalize List.range 16 = ks
  induction ks generalizing g with
  | nil => rfl
  | cons k ks ih => rw [List.foldl_cons, ih]; rfl
theorem Gang.loadLine_vector (g : Gang) {n : Nat} (bs : List Byte) (h : ¬n < 8) : g.loadLine n bs = { g with v := g.lineV n bs } := by
  simp only [Gang.loadLine, Gang.lineV, if_neg h]
  generalize List.range 16 = ks
  induction ks generalizing g with
  | nil => rfl
  | cons k ks ih => rw [List.foldl_cons, ih]; rfl

theorem Gang.lineS_at (g : Gang) {n m : Nat} (bs : List Byte) (h4 : 4 ≤ n) :
    Tab.at (g.lineS n bs) m 0 = if lineOfS m = n then recWord bs (8 * (m % 16)) else Tab.at g.s m 0 := by
  rw [Gang.lineS, Tab.at_foldl_set (fun k => (n - 4) * 16 + k) (fun k => recWord bs (8 * k)) m (recWord bs (8 * (m % 16)))]
  · have : (∃ k ∈ List.range 16, (n - 4) * 16 + k = m) ↔ lineOfS m = n := by
      rw [lineOfS]
      refine ⟨fun ⟨k, hk, e⟩ => by rw [List.mem_range] at hk; omega, fun h => ⟨m % 16, List.mem_range.mpr (by omega), by omega⟩⟩
    simp only [this]
  · intro k hk e
    rw [List.mem_range] at hk
    rw [show m % 16 = k by omega]
theorem Gang.lineV_at (g : Gang) {n l m : Nat} (bs : List Byte) (h8 : 8 ≤ n) (hn : n < 8 + 2 * g.count) (h4 : 4 ≤ g.count) (hc : g.count ≤ 64)
    (hm : m < 64) (hr : m < g.count - 4 ∨ 60 ≤ m) (hl : l < 32) :
    Tab.at (g.lineV n bs) (64 * l + m) 0 = if lineOfV g.count l m = n then recWord bs (8 * (l % 16)) else Tab.at g.v (64 * l + m) 0 := by
  have hslot : (n - 8) / 2 < g.count := by omega
  have hlt := regOfSlot_lt hc hslot
  have hm' : regOfSlot g.count ((n - 8) / 2) = m ↔ slotOf g.count m = (n - 8) / 2 :=
    ⟨fun e => e ▸ slotOf_regOfSlot h4 hc hslot, fun e => e ▸ regOfSlot_slotOf h4 hm hr⟩
  rw [Gang.lineV, Tab.at_foldl_set (fun k => 64 * ((n - 8) % 2 * 16 + k) + regOfSlot g.count ((n - 8) / 2)) (fun k => recWord bs (8 * k))
    (64 * l + m) (recWord bs (8 * (l % 16)))]
  · have : (∃ k ∈ List.range 16, 64 * ((n - 8) % 2 * 16 + k) + regOfSlot g.count ((n - 8) / 2) = 64 * l + m) ↔ lineOfV g.count l m = n := by
      rw [lineOfV]
      constructor
      · rintro ⟨k, hk, e⟩
        rw [List.mem_range] at hk
        have := hm'.mp (by omega)
        omega
      · intro h
        have := hm'.mpr (by omega)
        exact ⟨l % 16, List.mem_range.mpr (by omega), by omega⟩
    simp only [this]
  · intro k hk e
    rw [List.mem_range] at hk
    rw [show l % 16 = k by omega]

/-- The registers of a line that arrives are as the image has them. -/
theorem Gang.loadLine_sreg (g : Gang) {n : Nat} (bs : List Byte) (h4 : 4 ≤ n) {m : Nat} (hm : m < 64) :
    (g.loadLine n bs).sreg m = if lineOfS m = n ∧ m ≠ 0 then recWord bs (8 * (m % 16)) else g.sreg m := by
  by_cases h : n < 8
  · rw [g.loadLine_uniform bs h]
    simp only [Gang.sreg, g.lineS_at bs h4]
    by_cases hm0 : m = 0 <;> simp [hm0]
  · rw [g.loadLine_vector bs h, if_neg (by rw [lineOfS]; omega)]
    rfl
theorem Gang.loadLine_vreg (g : Gang) {n : Nat} (bs : List Byte) (hn : n < 8 + 2 * g.count) (h4 : 4 ≤ g.count) (hc : g.count ≤ 64) {l m : Nat}
    (hl : l < 32) (hm : m < 64) (hr : m < g.count - 4 ∨ 60 ≤ m) :
    (g.loadLine n bs).vreg l m = if lineOfV g.count l m = n then recWord bs (8 * (l % 16)) else g.vreg l m := by
  by_cases h : n < 8
  · rw [g.loadLine_uniform bs h, if_neg (by rw [lineOfV]; omega)]
    rfl
  · rw [g.loadLine_vector bs h]
    exact g.lineV_at bs (Nat.not_lt.mp h) hn h4 hc hm hr hl
theorem Gang.loadLine_keeps (g : Gang) (n : Nat) (bs : List Byte) : (g.loadLine n bs).status = g.status ∧ (g.loadLine n bs).lines = g.lines ∧
    (g.loadLine n bs).g = g.g ∧ (g.loadLine n bs).pc = g.pc ∧ (g.loadLine n bs).fcr = g.fcr ∧ (g.loadLine n bs).flights = g.flights := by
  by_cases h : n < 8
  · rw [g.loadLine_uniform bs h]
    exact ⟨rfl, rfl, rfl, rfl, rfl, rfl⟩
  · rw [g.loadLine_vector bs h]
    exact ⟨rfl, rfl, rfl, rfl, rfl, rfl⟩

theorem Gang.lineCame_spec (g : Gang) (n : Nat) : (∃ tb, g.lineCame n = { g with status := tb }) ∧
    ∀ l, l < 32 → (g.lineCame n).stat l = if g.stat l = .lineFill n then .ready else g.stat l := by
  have key : ∀ (ls : List Nat) (g : Gang),
      (∃ tb, ls.foldl (fun g l => if g.stat l = .lineFill n then g.setStat l .ready else g) g = { g with status := tb }) ∧
      ∀ l, (ls.foldl (fun g l => if g.stat l = .lineFill n then g.setStat l .ready else g) g).stat l =
        if l ∈ ls ∧ g.stat l = .lineFill n then .ready else g.stat l := by
    intro ls
    induction ls with
    | nil => exact fun g => ⟨⟨g.status, rfl⟩, fun l => by simp⟩
    | cons k ls ih =>
      intro g
      rw [List.foldl_cons]
      split
      · rename_i hk
        obtain ⟨⟨tb, h1⟩, h2⟩ := ih (g.setStat k .ready)
        refine ⟨⟨tb, h1⟩, fun l => ?_⟩
        have hst : (g.setStat k .ready).stat l = if l = k then .ready else g.stat l := by rw [Gang.stat, Gang.setStat, Tab.at_set]; rfl
        rw [h2, hst]
        by_cases hl : l = k
        · subst hl; simp [hk]
        · simp [hl]
      · rename_i hk
        refine ⟨(ih g).1, fun l => ?_⟩
        rw [(ih g).2]
        by_cases hl : l = k
        · subst hl; simp [hk]
        · simp [hl]
  refine ⟨(key (List.range 32) g).1, fun l hl => ?_⟩
  rw [Gang.lineCame, (key (List.range 32) g).2]
  simp [hl]

end Sys2Proof.Machine

namespace Sys2Proof.Proofs
open Machine

theorem replaceLine_room {s : State} {core : Nat} (w : Nat)
    (h : (s.wgs.map fun p => if p.2.place.map Prod.fst = some core then p.2.lineCount else 0).foldl (· + ·) 0 < s.cacheLines core) :
    s.replaceLine core w = s := by
  unfold State.replaceLine
  exact if_pos h
theorem lineArrives : registerLineArrives := by
  intro s w i n x g r bs hx hg hr hp he hw hd h4 hn hc4 hc hroom hb
  have hwanted : ((List.range 32).any fun k => g.live.getLsbD k && g.stat k = .lineFill n) = true := by
    obtain ⟨l, hl, hlive, hst⟩ := hw
    exact List.any_eq_true.mpr ⟨l, List.mem_range.mpr hl, by simp [hlive, hst]⟩
  have hplace : x.place.isNone = false := by cases hx : x.place <;> simp_all
  have hg0 : ∀ a, (s.updWg w fun g => g.count 37 1).gang a = s.gang a := State.gang_updWg s w _ fun _ => rfl
  have hread : (s.updWg w fun g => g.count 37 1).partRead (tenantCtx r.pasid) (r.image x.wgid i + BitVec.ofNat 64 (128 * n)) 128 = .ok bs := by
    rw [← hb]
    exact State.same_of_ground (s := s) (t := s.updWg w fun g => g.count 37 1) rfl (fun u => u.partRead _ _ 128) fun u => u.ground_partRead _ _ _
  have hex : exec (.registerLineFill (.gang w i) n) s = .next ((s.updWg w fun g => g.count 37 1).updGang (.gang w i) fun g =>
      (({ g with lines := Tab.put g.lines n s.serialNo } : Gang).loadLine n bs).lineCame n) := by
    show execRegisterLineFill (.gang w i) n s = _
    simp only [execRegisterLineFill, hx, hg, hr, hwanted, hplace, he, hd, replaceLine_room w hroom, hread, Bool.not_true, Bool.or_false,
      Bool.false_eq_true, if_false]
    rfl
  let g1 : Gang := { g with lines := Tab.put g.lines n s.serialNo }
  obtain ⟨⟨tb, e⟩, hst⟩ := (g1.loadLine n bs).lineCame_spec n
  obtain ⟨k1, k2, k3, k4, k5, k6⟩ := g1.loadLine_keeps n bs
  refine ⟨_, hex, (g1.loadLine n bs).lineCame n, State.gang_updGang_same _ _ _ g ((hg0 _).trans hg), fun b hb => ?_, ?_, ?_, fun m hm => ?_,
    fun l m hl hm hr => ?_, fun l hl => ?_, ?_⟩
  · rw [State.gang_updGang_other _ _ _ _ hb, hg0]
  · simp only [State.updGang, (hg0 _).trans hg]
    rfl
  · rw [e]
    exact (congrArg (fun t => (Tab.find t n).isSome) k2).trans (by simp [g1, Tab.find_put_same])
  · rw [e]
    exact g1.loadLine_sreg bs h4 hm
  · rw [e]
    exact g1.loadLine_vreg bs hn hc4 hc hl hm hr
  · rw [hst l hl, show (g1.loadLine n bs).stat l = g.stat l by rw [Gang.stat, k1]; rfl]
  · rw [e]
    exact ⟨k3, k4, k5, k6⟩

end Sys2Proof.Proofs
end

section
/-! A gang that loses its slot (R20, R336). -/

namespace Sys2Proof.Machine

/-- Threads of a gang that may issue again. -/
theorem restart_oneGang {w i : Nat} (ls : List Nat) : ∀ {s : State} {g : Gang}, s.gang (.gang w i) = some g →
    OneGang s (s.restart w (ls.map fun l => (i, l))) (.gang w i) (ls.foldl (fun g l => g.setStat l .ready) g) := by
  induction ls with
  | nil => exact fun hg => oneGang_refl hg
  | cons l ls ih =>
    intro s g hg
    have h := oneGang_updGang hg fun g => g.setStat l .ready
    exact oneGang_trans h (ih h.1)
theorem oneGang_mem {s t : State} {a : Agent} {g : Gang} (h : OneGang s t a g) : t.mem = s.mem := by
  obtain ⟨-, -, -, -, h⟩ := h
  rw [← h]

/-- What abandoning the arrivals at convergence registers leaves of a state: a gang whose gathering threads may be ready, and the registers
not yet looked at. -/
def Ungathered (s t : State) (w i : Nat) (x : Workgroup) (g : Gang) (ks : List Nat) : Prop :=
  (∃ y, t.wg w = some y ∧ ∀ k ∈ ks, y.cv k = x.cv k) ∧ t.mem = s.mem ∧
  ∃ tb, t.gang (.gang w i) = some { g with status := tb } ∧
    ∀ l, ({ g with status := tb } : Gang).stat l = g.stat l ∨
      ({ g with status := tb } : Gang).stat l = .ready ∧ ∃ m, g.stat l = .gather m

/-- One convergence register gives up the arrivals of some threads of a gang. -/
def State.cvLoses (s : State) (w i : Nat) (m : LaneMask) (n : Nat) : State :=
  match s.wg w with
  | none => s
  | some g =>
    let c := g.cv n
    let out := Tab.at c.arrived i 0 &&& m
    if out = 0 then s
    else (s.setCv w n (c.unarrive i out)).restart w ((lanesOf out).map fun l => (i, l))

theorem cvAbandon_eq (s : State) (w i : Nat) (m : LaneMask) : s.cvAbandon w i m = (List.range 8).foldl (fun s n => s.cvLoses w i m n) s := rfl

theorem cvLoses_ungathered {s t : State} {w i : Nat} {x : Workgroup} {g : Gang} {n : Nat} {ks : List Nat} (m : LaneMask) (hn : n ∉ ks)
    (hgather : ∀ l, (Tab.at (x.cv n).arrived i 0).getLsbD l = true → ∃ m, g.stat l = .gather m)
    (h : Ungathered s t w i x g (n :: ks)) : Ungathered s (t.cvLoses w i m n) w i x g ks := by
  obtain ⟨⟨y, hy, hcv⟩, hmem, tb, hg, hst⟩ := h
  unfold State.cvLoses
  simp only [hy, hcv n List.mem_cons_self]
  split
  · exact ⟨⟨y, hy, fun k hk => hcv k (List.mem_cons_of_mem _ hk)⟩, hmem, tb, hg, hst⟩
  · generalize hout : Tab.at (x.cv n).arrived i 0 &&& m = out
    generalize hc : (x.cv n).unarrive i out = c
    have hy1 : (t.setCv w n c).wg w = some { y with cvs := Tab.set emptyConv y.cvs n c } := by
      rw [State.setCv, State.wg_updWg, if_pos rfl, hy]; rfl
    have hg1 : (t.setCv w n c).gang (.gang w i) = some { g with status := tb } := by
      exact (State.gang_updWg t w (fun g => { g with cvs := Tab.set emptyConv g.cvs n c }) (fun _ => rfl) _).trans hg
    have h1 := restart_oneGang (lanesOf out) hg1
    obtain ⟨hstat, tb', htb⟩ := Gang.foldl_setStat (lanesOf out) .ready { g with status := tb }
    refine ⟨?_, (oneGang_mem h1).trans hmem, tb', htb ▸ h1.1, fun l => ?_⟩
    · obtain ⟨-, -, h3, -, -⟩ := h1
      obtain ⟨z, hz, e⟩ := h3 w _ hy1
      refine ⟨z, hz, fun k hk => ?_⟩
      have hzc : z.cvs = Tab.set emptyConv y.cvs n c := congrArg (fun x : Workgroup => x.cvs) e
      rw [← hcv k (List.mem_cons_of_mem _ hk), Workgroup.cv, Workgroup.cv, hzc, Tab.at_set, if_neg (by rintro rfl; exact hn hk)]
    · have hl : ({ g with status := tb' } : Gang).stat l = if l ∈ lanesOf out then .ready else ({ g with status := tb } : Gang).stat l := by
        rw [← hstat l, htb]
      rw [hl]
      split
      · rename_i hmem
        refine .inr ⟨rfl, hgather l ?_⟩
        have hlt := (mem_lanesOf out l (lanesOf_lt _ _ hmem)).mp hmem
        rw [← hout, BitVec.getLsbD_and, Bool.and_eq_true] at hlt
        exact hlt.1
      · exact hst l
theorem cvAbandon_ungathered {s : State} {w i : Nat} {x : Workgroup} {g : Gang} (m : LaneMask) (hx : s.wg w = some x)
    (hg : s.gang (.gang w i) = some g) (hgather : ∀ k l, (Tab.at (x.cv k).arrived i 0).getLsbD l = true → ∃ m, g.stat l = .gather m) :
    Ungathered s (s.cvAbandon w i m) w i x g [] := by
  have key : ∀ (ks : List Nat) (t : State), ks.Nodup → Ungathered s t w i x g ks →
      Ungathered s (ks.foldl (fun s n => s.cvLoses w i m n) t) w i x g [] := by
    intro ks
    induction ks with
    | nil => exact fun _ _ h => h
    | cons k ks ih =>
      intro t hnd h
      rw [List.nodup_cons] at hnd
      exact ih _ hnd.2 (cvLoses_ungathered m hnd.1 (hgather k) h)
  rw [cvAbandon_eq]
  exact key _ _ List.nodup_range ⟨⟨x, hx, fun _ _ => rfl⟩, rfl, g.status, hg, fun _ => .inl rfl⟩

/-- What becomes of a thread's wait when it is abandoned: those of a call and of a fault stand. -/
def Status.abandoned : Status → Status
  | .call => .call
  | .fault => .fault
  | _ => .ready
/-- A thread whose wait is abandoned. -/
def Gang.forsake (g : Gang) (l : Nat) : Gang :=
  match g.stat l with
  | .call => g
  | .fault => g
  | _ => g.setStat l .ready
theorem Gang.forsake_spec (g : Gang) (l : Nat) : (∃ tb, g.forsake l = { g with status := tb }) ∧
    ∀ k, (g.forsake l).stat k = if k = l then (g.stat k).abandoned else g.stat k := by
  have hset : ∀ k, (g.setStat l .ready).stat k = if k = l then .ready else g.stat k := fun k => by
    rw [Gang.stat, Gang.setStat, Tab.at_set]; rfl
  unfold Gang.forsake
  constructor
  · split
    exacts [⟨_, rfl⟩, ⟨_, rfl⟩, ⟨_, rfl⟩]
  · intro k
    split
    · rename_i h
      split
      · subst k; rw [h]; rfl
      · rfl
    · rename_i h
      split
      · subst k; rw [h]; rfl
      · rfl
    · rename_i h1 h2
      rw [hset]
      split
      · subst k
        unfold Status.abandoned
        split <;> simp_all
      · rfl
theorem Status.abandoned_abandoned (x : Status) : x.abandoned.abandoned = x.abandoned := by cases x <;> rfl
theorem Gang.foldl_forsake (ls : List Nat) : ∀ g : Gang, (∃ tb, ls.foldl Gang.forsake g = { g with status := tb }) ∧
    ∀ k, (ls.foldl Gang.forsake g).stat k = if k ∈ ls then (g.stat k).abandoned else g.stat k := by
  induction ls with
  | nil => exact fun g => ⟨⟨g.status, rfl⟩, fun k => by simp⟩
  | cons l ls ih =>
    intro g
    obtain ⟨⟨tb, h1⟩, h2⟩ := g.forsake_spec l
    obtain ⟨⟨tb', h3⟩, h4⟩ := ih (g.forsake l)
    refine ⟨⟨tb', by rw [List.foldl_cons, h3, h1]⟩, fun k => ?_⟩
    rw [List.foldl_cons, h4, h2]
    by_cases hk : k = l <;> by_cases hm : k ∈ ls <;> simp [hk, hm, Status.abandoned_abandoned]

end Sys2Proof.Machine

namespace Sys2Proof.Proofs
open Machine

theorem abandon_eq {s : State} {w i : Nat} (m : LaneMask) :
    s.abandon w i m = (s.cvAbandon w i m).updGang (.gang w i) fun g => (lanesOf m).foldl Gang.forsake g := rfl
/-- A gang's waits, abandoned: those of a call and of a fault stand. -/
theorem abandon_leaves {s : State} {w i : Nat} {x : Workgroup} {g : Gang} (hx : s.wg w = some x) (hg : s.gang (.gang w i) = some g)
    (hgather : ∀ k l, (Tab.at (x.cv k).arrived i 0).getLsbD l = true → ∃ m, g.stat l = .gather m) :
    ∃ tb, (s.abandon w i g.live).gang (.gang w i) = some { g with status := tb } ∧ (s.abandon w i g.live).mem = s.mem ∧
      ∀ l, l < 32 → g.live.getLsbD l = true → ({ g with status := tb } : Gang).stat l = (g.stat l).abandoned := by
  obtain ⟨-, hmem, tb, ht, hst⟩ := cvAbandon_ungathered g.live hx hg hgather
  have h := oneGang_updGang ht fun g' => (lanesOf g.live).foldl Gang.forsake g'
  obtain ⟨⟨tb', e⟩, hstat⟩ := Gang.foldl_forsake (lanesOf g.live) { g with status := tb }
  rw [abandon_eq]
  refine ⟨tb', h.1.trans (congrArg some e), (oneGang_mem h).trans hmem, fun l hl hlive => ?_⟩
  have hl' : ({ g with status := tb' } : Gang).stat l = (({ g with status := tb } : Gang).stat l).abandoned := by
    have h' := hstat l
    rwa [if_pos ((mem_lanesOf _ l hl).mpr hlive), e] at h'
  rw [hl']
  obtain he | ⟨he, m, hm⟩ := hst l
  · rw [he]
  · rw [he, hm]; rfl
theorem slotTaken : preemptionTakesSlot := by
  intro s w i x g hx hg hs hp ho hgather
  obtain ⟨tb, ht, hmem, hst⟩ := abandon_leaves hx hg hgather
  have hex : exec (.preemptionRequest w i) s = .next ((s.abandon w i g.live).updGang (.gang w i) fun x =>
      { x with slot := false, lost := true, gstat := if g.runnable then x.gstat ||| 4 else x.gstat }) := by
    show execPreemptionRequest w i s = _
    simp only [execPreemptionRequest, hx, hg, hs, hp, ho, Bool.and_true, if_true, State.preempt, Bool.true_and]
  have h := oneGang_updGang ht fun x => { x with slot := false, lost := true, gstat := if g.runnable then x.gstat ||| 4 else x.gstat }
  refine ⟨_, hex, _, h.1, rfl, ?_, fun l hl hlive => (hst l hl hlive).trans ?_, rfl, rfl, rfl, rfl, rfl, (oneGang_mem h).trans hmem⟩
  · simp only [Gang.runnable, Bool.or_eq_true]
  · cases g.stat l <;> rfl

end Sys2Proof.Proofs
end

section
/-! Records that wait for a slot of their ring (R265, R266, R422). -/

namespace Sys2Proof.Machine

theorem Tab.mem_of_find {α : Type} (k : Nat) (x : α) : ∀ t : Tab α, Tab.find t k = some x → (k, x) ∈ t
  | [], h => by cases h
  | (j, y) :: t, h => by
    rw [Tab.find] at h
    split at h
    · rename_i hj
      cases h
      exact hj ▸ List.mem_cons_self
    · exact List.mem_cons_of_mem _ (Tab.mem_of_find k x t h)

/-- The first of the least of a list by a measure, or what was found before. -/
def leastBy {α : Type} (f : α → Nat) (m : Option α) (x : α) : Option α :=
  match m with
  | none => some x
  | some y => if f x < f y then some x else some y
theorem foldl_leastBy {α : Type} (f : α → Nat) (ls : List α) : ∀ y, ∃ z, ls.foldl (leastBy f) (some y) = some z ∧
    (z = y ∨ z ∈ ls) ∧ f z ≤ f y ∧ ∀ x ∈ ls, f z ≤ f x := by
  induction ls with
  | nil => exact fun y => ⟨y, rfl, .inl rfl, Nat.le_refl _, fun x hx => by cases hx⟩
  | cons a ls ih =>
    intro y
    rw [List.foldl_cons, leastBy]
    split
    · rename_i h
      obtain ⟨z, h1, h2, h3, h4⟩ := ih a
      refine ⟨z, h1, .inr (h2.elim (fun e => e ▸ List.mem_cons_self) (List.mem_cons_of_mem _)), by omega, fun x hx => ?_⟩
      obtain rfl | hx := List.mem_cons.mp hx
      exacts [h3, h4 x hx]
    · rename_i h
      obtain ⟨z, h1, h2, h3, h4⟩ := ih y
      refine ⟨z, h1, h2.imp_right (List.mem_cons_of_mem _), h3, fun x hx => ?_⟩
      obtain rfl | hx := List.mem_cons.mp hx
      exacts [by omega, h4 x hx]
theorem least_of_mem {α : Type} (f : α → Nat) (ls : List α) {a : α} (ha : a ∈ ls) :
    ∃ z ∈ ls, ls.foldl (leastBy f) none = some z ∧ f z ≤ f a := by
  cases ls with
  | nil => cases ha
  | cons y ls =>
    obtain ⟨z, h1, h2, h3, h4⟩ := foldl_leastBy f ls y
    refine ⟨z, h2.elim (fun e => e ▸ List.mem_cons_self) (List.mem_cons_of_mem _), h1, ?_⟩
    obtain rfl | ha := List.mem_cons.mp ha
    exacts [h3, h4 a ha]

end Sys2Proof.Machine

namespace Sys2Proof.Proofs
open Machine

/-! ### Fault records that are held -/

/-- A cluster's held records, without the one that went. -/
def holdsOn (s : State) (c : Nat) (rs : List (List Byte)) : State :=
  { s with heldFaults := if rs.isEmpty then Tab.del s.heldFaults c else Tab.put s.heldFaults c rs }
theorem held_holdsOn (s : State) (c d : Nat) (rs : List (List Byte)) : (holdsOn s c rs).held d = if d = c then rs else s.held d := by
  simp only [State.held, holdsOn]
  cases rs with
  | nil =>
    simp only [List.isEmpty_nil, if_true, Tab.at, Tab.find_del]
    split <;> rfl
  | cons r rs =>
    simp only [List.isEmpty_cons, Bool.false_eq_true, if_false, Tab.at]
    split
    · subst d; rw [Tab.find_put_same]; rfl
    · rw [Tab.find_put_other _ _ _ _ ‹_›]
theorem heldRecordGoes (s : State) (c j : Nat) (base : Word) (r : List Byte) (rs : List (List Byte)) (hh : s.held c = r :: rs)
    (hroom : s.ringRoom c false = some (base, j)) :
    Becomes (.faultRingSlotFree c) s fun t => Stands s t c (base + BitVec.ofNat 64 (64 * j)) r ∧ t.held c = rs ∧
      (∀ d, d ≠ c → t.held d = s.held d) ∧ t.wgs = s.wgs ∧ t.scalars = s.scalars := by
  have hex : exec (.faultRingSlotFree c) s =
      .next (holdsOn (s.recordWrite c (recWord r 0x28) (base + BitVec.ofNat 64 (64 * j)) r) c rs) := by
    show execFaultRingSlotFree c s = _
    simp only [execFaultRingSlotFree, hh, hroom]
    rfl
  obtain ⟨h1, h2, h3⟩ := s.recordWrite_wgs c (recWord r 0x28) (base + BitVec.ofNat 64 (64 * j)) r
  refine ⟨_, hex, stands_of_homes (fun _ => rfl) (s.recordWrite_stands _ _ _ _), ?_, fun d hd => ?_, h1, h2⟩
  · rw [held_holdsOn, if_pos rfl]
  · rw [held_holdsOn, if_neg hd, State.held, h3, State.held]
theorem heldRecordOfBrokenRing (s : State) (c : Nat) (va : Word) (r : List Byte) (rs : List (List Byte)) (hh : s.held c = r :: rs)
    (hroom : s.ringRoom c false = none) (hb : s.ringBroken c false = some va) :
    Becomes (.faultRingSlotFree c) s fun t => t.held c = rs ∧ (∀ d, d ≠ c → t.held d = s.held d) ∧
      { t with heldFaults := s.heldFaults, tenants := s.tenants } = s ∧
      ∀ x, s.tenant (recAt r 0x28 8 / 2 ^ 10 % 64) = some x → ∃ y, t.tenant (recAt r 0x28 8 / 2 ^ 10 % 64) = some y ∧ y.killed.isSome = true := by
  have hex : exec (.faultRingSlotFree c) s = .next (holdsOn (s.wiredFault (tenantOfSlice (recWord r 0x28)) va) c rs) := by
    show execFaultRingSlotFree c s = _
    simp only [execFaultRingSlotFree, hh, hroom, hb]
    rfl
  refine ⟨_, hex, ?_, fun d hd => ?_, rfl, fun x hx => ?_⟩
  · rw [held_holdsOn, if_pos rfl]
  · rw [held_holdsOn, if_neg hd]; rfl
  · have ht : tenantOfSlice (recWord r 0x28) = recAt r 0x28 8 / 2 ^ 10 % 64 := by
      simp only [tenantOfSlice, bitsOf, recWord, BitVec.toNat_ofNat, Nat.shiftRight_eq_div_pow]
      omega
    refine ⟨if x.killed.isSome then x else { x with killed := some va }, ?_, ?_⟩
    · rw [State.tenant] at hx
      rw [← ht] at hx ⊢
      simp only [State.tenant, holdsOn, State.wiredFault, Tab.find_upd_same, hx, Option.map_some]
    · split
      · assumption
      · rfl

/-! ### Calls that wait -/

/-- The word of a thread is a `syscall`. -/
def isCall (g : Gang) (l : Nat) : Bool :=
  match g.wordAt l with
  | some w => (w >>> 25).toNat = 0x3B
  | none => false
/-- The waiting `syscall`s of a cluster: when the wait began, workgroup, gang and lane. -/
def callsWaiting (s : State) (cluster : Nat) : List (Nat × Nat × Nat × Nat) :=
  s.wgs.flatMap fun p =>
    if p.2.place.isSome && !p.2.evicting && clusterOf p.2.core = cluster then
      p.2.gangs.flatMap fun q => ((List.range 32).filter fun l => isCall q.2 l && q.2.callSlot.isNone).filterMap fun l =>
        (q.2.retryOf l).map fun n => (n, p.1, q.1, l)
    else []
theorem mem_callsWaiting {s : State} {c n w i l : Nat} : (n, w, i, l) ∈ callsWaiting s c ↔
    ∃ x g wd, (w, x) ∈ s.wgs ∧ x.place.isSome = true ∧ x.evicting = false ∧ clusterOf x.core = c ∧ (i, g) ∈ x.gangs ∧ g.callSlot = none ∧
      l < 32 ∧ g.wordAt l = some wd ∧ wd.toNat / 2 ^ 25 = 0x3B ∧ g.retryOf l = some n := by
  have hcall : ∀ (g : Gang) (k : Nat), isCall g k = true ↔ ∃ wd, g.wordAt k = some wd ∧ wd.toNat / 2 ^ 25 = 0x3B := fun g k => by
    unfold isCall
    cases g.wordAt k with
    | none => simp
    | some wd => simp [Nat.shiftRight_eq_div_pow]
  simp only [callsWaiting, List.mem_flatMap, List.mem_ite_nil_right, List.mem_filterMap, List.mem_filter, List.mem_range, Bool.and_eq_true,
    Bool.not_eq_true', decide_eq_true_iff, hcall, Option.map_eq_some_iff, Prod.mk.injEq, Option.isNone_iff_eq_none]
  constructor
  · rintro ⟨⟨w', x⟩, hx, ⟨⟨hp, he⟩, hc⟩, ⟨i', g⟩, hg, k, ⟨hk, ⟨wd, hwd, h3⟩, hs⟩, m, hm, rfl, rfl, rfl, rfl⟩
    exact ⟨x, g, wd, hx, hp, he, hc, hg, hs, hk, hwd, h3, hm⟩
  · rintro ⟨x, g, wd, hx, hp, he, hc, hg, hs, hk, hwd, h3, hm⟩
    exact ⟨(w, x), hx, ⟨⟨hp, he⟩, hc⟩, (i, g), hg, l, ⟨hk, ⟨wd, hwd, h3⟩, hs⟩, n, hm, rfl, rfl, rfl, rfl⟩
/-- The call that is chosen is made by the threads that wait with it. -/
def serveCall (s : State) (first : Option (Nat × Nat × Nat × Nat)) : Host.Outcome State Fault Refusal :=
  match first with
  | none => .next s
  | some (n, w, i, l) =>
    match s.gang (.gang w i) with
    | none => .next s
    | some g => .next (s.as (.gang w i) (maskOf ((List.range 32).filter fun k => g.retryOf k == some n))
        fun s => s.makeCall (bitsOf (((g.wordAt l).getD 0).toNat) 18 4))
theorem execCallRingSlotFree_eq {s : State} {c : Nat} {p : Word × Nat} (hroom : s.ringRoom c true = some p) :
    exec (.callRingSlotFree c) s = serveCall s ((callsWaiting s c).foldl (leastBy Prod.fst) none) := by
  show execCallRingSlotFree c s = _
  have hleast : leastBy (Prod.fst : Nat × Nat × Nat × Nat → Nat) = fun m x => match m with
      | none => some x
      | some y => if x.1 < y.1 then some x else some y := by
    funext m x
    cases m <;> rfl
  simp only [execCallRingSlotFree, hroom, serveCall, callsWaiting, hleast] <;> congr 1

section
variable (s : State) (a : Agent) (m : LaneMask)

/-- Whose turn it is, is nothing to a call's record. -/
theorem turn_partRead (c : Ctx) (va : Word) (n : Nat) : ({ s with cur := a, mask := m } : State).partRead c va n = s.partRead c va n :=
  State.same_of_ground (s := s) (t := { s with cur := a, mask := m }) rfl (fun u => u.partRead c va n) fun u => u.ground_partRead _ _ _
theorem turn_callRecord (w i n : Nat) (k : LaneMask) (pc : Word) :
    ({ s with cur := a, mask := m } : State).callRecord w i n k pc = s.callRecord w i n k pc := by
  have hv : ∀ l k, ({ s with cur := a, mask := m } : State).laneValue w i l k = s.laneValue w i l k := fun l k => by
    simp only [State.laneValue, turn_partRead] <;> rfl
  simp only [State.callRecord, hv] <;> rfl
end

/-- The oldest of the waiting calls is made, where one group's wait is older than all others. -/
theorem oldestCallIsServed (s : State) (c w i n : Nat) (x : Workgroup) (g : Gang) (base pc : Word) (j : Nat) (word : BitVec 32) (m : LaneMask)
    (hroom : s.ringRoom c true = some (base, j)) (hx : s.wg w = some x) (hg : s.gang (.gang w i) = some g) (hp : x.place.isSome = true)
    (he : x.evicting = false) (hc : clusterOf x.core = c) (hslot : g.callSlot = none) (hword : word.toNat / 2 ^ 25 = 0x3B) (hm : m ≠ 0)
    (hretry : ∀ l, l < 32 → (m.getLsbD l = true ↔ g.retryOf l = some n))
    (hlanes : ∀ l, m.getLsbD l = true → g.wordAt l = some word ∧ g.pcOf l = pc ∧ s.released (.gang w i) 3 l = true)
    (hfirst : ∀ p ∈ s.wgs, p.2.place.isSome = true → p.2.evicting = false → clusterOf p.2.core = c → ∀ q ∈ p.2.gangs, q.2.callSlot = none →
      ∀ l wd k, l < 32 → q.2.wordAt l = some wd → wd.toNat / 2 ^ 25 = 0x3B → q.2.retryOf l = some k →
        n < k ∨ (p.1 = w ∧ q.1 = i ∧ k = n ∧ m.getLsbD l = true)) :
    Becomes (.callRingSlotFree c) s fun t => ∃ g', t.gang (.gang w i) = some g' ∧ g'.callSlot = some j ∧ g'.callLanes = m ∧
      (∀ l, l < 32 → g'.stat l = if m.getLsbD l then .call else g.stat l) ∧
      (∀ l, l < 32 → g'.pcOf l = if m.getLsbD l then g.pcOf l + 4 else g.pcOf l) ∧ g'.callCluster = c ∧
      (∀ a, a ≠ .gang w i → t.gang a = s.gang a) ∧
      Stands s t c (base + BitVec.ofNat 64 (2048 * j)) (s.callRecord w i (word.toNat / 16 % 2 ^ 15) m pc) := by
  have hgx : Tab.find x.gangs i = some g := by simpa [State.gang, hx] using hg
  obtain ⟨l0, hl0⟩ := List.exists_mem_of_ne_nil _ (lanesOf_ne_nil hm)
  have hlt0 := lanesOf_lt m l0 hl0
  have hm0 := (mem_lanesOf m l0 hlt0).mp hl0
  have hmem : (n, w, i, l0) ∈ callsWaiting s c := mem_callsWaiting.mpr
    ⟨x, g, word, Tab.mem_of_find w x _ hx, hp, he, hc, Tab.mem_of_find i g _ hgx, hslot, hlt0, (hlanes l0 hm0).1, hword, (hretry l0 hlt0).mp hm0⟩
  obtain ⟨⟨n', w', i', l⟩, hz, hfold, hle⟩ := least_of_mem Prod.fst _ hmem
  obtain ⟨x', g', wd, h1, h2, h3, h4, h5, h6, h7, h8, h9, h10⟩ := mem_callsWaiting.mp hz
  obtain h | ⟨rfl, rfl, rfl, hl⟩ := hfirst _ h1 h2 h3 h4 _ h5 h6 l wd n' h7 h8 h9 h10
  · exact absurd hle (by simpa using h)
  have hmask : maskOf ((List.range 32).filter fun k => g.retryOf k == some n') = m := by
    refine BitVec.eq_of_getLsbD_eq fun k hk => ?_
    rw [maskOf_lane _ k hk, Bool.eq_iff_iff, hretry k hk]
    simp [hk]
  have hn : bitsOf ((g.wordAt l).getD 0).toNat 18 4 = word.toNat / 16 % 2 ^ 15 := by
    rw [(hlanes l hl).1, bitsOf, Nat.shiftRight_eq_div_pow]
    rfl
  have hex : exec (.callRingSlotFree c) s = .next (s.as (.gang w' i') m fun s => s.makeCall (word.toNat / 16 % 2 ^ 15)) := by
    rw [execCallRingSlotFree_eq hroom, hfold, serveCall]
    simp only [hg, hmask, hn]
  let u : State := { s with cur := .gang w' i', mask := m }
  have hpc : u.curPc = pc := by
    have hhead : (lanesOf m).head? = some ((lanesOf m).head (lanesOf_ne_nil hm)) := List.head?_eq_some_head _
    have hk := List.head_mem (lanesOf_ne_nil hm)
    have hu : u.gang u.cur = some g := hg
    have hk' := (mem_lanesOf m _ (lanesOf_lt m _ hk)).mp hk
    rw [State.curPc, hu, Option.bind_some, show u.mask = m from rfl, hhead, Option.map_some, Option.getD_some, (hlanes _ hk').2.1]
  have hring : u.ringRoom (clusterOf x.core) true = some (base, j) := by
    rw [hc, ← hroom]
    exact State.same_of_ground (s := s) (t := u) rfl (fun v => v.ringRoom c true) fun v => v.ground_ringRoom c true
  obtain ⟨k1, k2, k3⟩ := State.makeCall_calls (s := u) rfl hx hg hslot (fun k hk => (hlanes k hk).2.2) hring (word.toNat / 16 % 2 ^ 15)
  obtain ⟨f1, f2, -⟩ := Gang.inCall_fields g m j (clusterOf x.core)
  rw [hpc, hc, turn_callRecord] at k3
  refine ⟨_, hex, _, k1, rfl, rfl, f1, f2, hc, k2, ?_⟩
  exact stands_of_homes (fun _ => rfl) ((stands_ground s _ _ _ _).mp ((stands_ground u _ _ _ _).mpr k3))

theorem ringSlots : ringSlotsServeOldest :=
  ⟨fun s c j base r rs hh _ _ hroom => heldRecordGoes s c j base r rs hh hroom, heldRecordOfBrokenRing, oldestCallIsServed⟩

end Sys2Proof.Proofs
end

section
/-! Fetch turns: the lines they bring into the L1, and the words that the threads hold then (R21, R159, R175). -/

namespace Sys2Proof.Machine

/-- What filling a line of an L1 for a fetch leaves alone, besides counts. -/
def State.offFetch (s : State) : State :=
  { s with mem := [], l1 := [], homes := [], predictors := [], tlbs := [], free := 0, dirtyLines := [] }
theorem State.same_of_offFetch {α : Type} {s t : State} (h : t.offFetch = s.offFetch) (f : State → α) (hf : ∀ u, f u.offFetch = f u) :
    f t = f s := by rw [← hf t, h, hf]

/-- t is s with other copies of lines in its L1s: no byte changes as a home holds it, and only counts of the workgroups do. -/
structure State.Fetched (s t : State) : Prop where
  whole : LinesWhole t
  bytes : ∀ n, t.homeByte n = s.homeByte n
  gangs : ∀ b, t.gang b = s.gang b
  counts : ∀ w, (t.wg w).map (fun x => { x with perf := [] }) = (s.wg w).map fun x => { x with perf := [] }
  rest : { t.offFetch with wgs := s.wgs } = s.offFetch

theorem State.Fetched.refl {s : State} (w : LinesWhole s) : s.Fetched s := ⟨w, fun _ => rfl, fun _ => rfl, fun _ => rfl, rfl⟩
theorem State.Fetched.trans {s t u : State} (h : s.Fetched t) (k : t.Fetched u) : s.Fetched u := by
  refine ⟨k.whole, fun n => (k.bytes n).trans (h.bytes n), fun b => (k.gangs b).trans (h.gangs b), fun w => (k.counts w).trans (h.counts w), ?_⟩
  rw [← h.rest, ← k.rest]
/-- A step of the copies alone. -/
theorem State.Fetched.of_copies {s t : State} (w : LinesWhole t) (hb : ∀ n, t.homeByte n = s.homeByte n) (hr : t.offFetch = s.offFetch) :
    s.Fetched t := by
  have hwg : ∀ v, t.wg v = s.wg v := fun v => State.same_of_offFetch hr (fun u => u.wg v) fun _ => rfl
  refine ⟨w, hb, fun b => State.same_of_offFetch hr (fun u => u.gang b) fun _ => ?_, fun v => by rw [hwg], ?_⟩
  · cases b <;> rfl
  · rw [hr]; rfl
/-- A step of what no byte of a home depends on. -/
theorem State.Fetched.of_keepers {s t : State} (w : LinesWhole s) (ho : ∀ c n, t.ownedLine c n = s.ownedLine c n) (hm : t.mem = s.mem)
    (hh : ∀ n, (t.home n).owner = (s.home n).owner) (hr : t.offFetch = s.offFetch) : s.Fetched t := by
  refine .of_copies (linesWhole_iff.mpr fun c n x h => linesWhole_iff.mp w c n x (ho c n ▸ h)) (fun k => State.homeByte_congr ?_ (by rw [hm])) hr
  simp only [State.keeper, hh, ho]

/-! ### The steps of a fill -/

theorem State.soil_offFetch (s : State) (line : Nat) : (s.soil line).offFetch = s.offFetch := by
  unfold State.soil; dsimp only; split <;> rfl
theorem State.dropCopy_offFetch (s : State) (l line : Nat) : (s.dropCopy l line).offFetch = s.offFetch := by
  obtain ⟨-, e⟩ | ⟨x, -, e⟩ | ⟨-, e⟩ := s.dropCopy_cases l line <;> rw [e]
  · exact (State.soil_offFetch _ _).trans rfl
  · rfl
theorem State.recall_offFetch (s : State) (line : Nat) (bump : Bool) : (s.recall line bump).offFetch = s.offFetch := by
  cases h : (s.home line).owner with
  | none => rw [State.recall_of_unowned h]
  | some l =>
    obtain ⟨p, e⟩ := State.recall_of_owned h bump
    rw [e]
    exact s.dropCopy_offFetch l line
theorem State.recall_fetched {s : State} (w : LinesWhole s) (line : Nat) (bump : Bool) : s.Fetched (s.recall line bump) :=
  .of_copies (State.recall_linesWhole w line bump) (State.recall_homeByte w line bump) (s.recall_offFetch line bump)
theorem State.recallFor_fetched {s : State} (w : LinesWhole s) (l line : Nat) : s.Fetched (s.recallFor l line) := by
  unfold State.recallFor
  dsimp only
  split
  · exact State.recall_fetched w line true
  · exact .refl w
/-- A line leaves an L1, and no other copy of any line comes to be owned. -/
theorem State.dropLine_fetched {s : State} (w : LinesWhole s) (l line : Nat) : s.Fetched (s.dropLine l line) ∧
    ∀ c n, s.ownedLine c n = none → (s.dropLine l line).ownedLine c n = none := by
  unfold State.dropLine
  cases hx : Tab.find (s.l1At l) line with
  | none => exact ⟨.refl w, fun _ _ h => h⟩
  | some x =>
    dsimp only
    split
    · refine ⟨(State.recall_fetched w line false).trans (.of_keepers (State.recall_linesWhole w line false) (fun _ _ => rfl) rfl (fun _ => rfl) rfl),
        fun c n h => ?_⟩
      have : ((s.recall line false).setPredictor l line (s.predicts l line - 1)).ownedLine c n = (s.recall line false).ownedLine c n := rfl
      rw [this, State.recall_ownedLine, h, ite_self]
    · rename_i hx'
      have ho : ∀ c n, (s.setL1 l (Tab.del (s.l1At l) line)).ownedLine c n = s.ownedLine c n := by
        intro c n
        rw [State.ownedLine_setL1]
        split
        · subst c
          rw [Tab.find_del, State.ownedLine]
          split
          · subst n; simp [hx, Option.filter, hx']
          · rfl
        · rfl
      exact ⟨.of_keepers w ho rfl (fun _ => rfl) rfl, fun c n h => (ho c n).trans h⟩
/-- A copy that an L1 does not own takes the place of none that it does. -/
theorem State.putCopy_fetched {s : State} (w : LinesWhole s) {l line : Nat} (h : s.ownedLine l line = none) {x : Line} (hx : x.owned = false) :
    s.Fetched (s.setL1 l (Tab.put (s.l1At l) line x)) := by
  refine .of_keepers w (fun c n => ?_) rfl (fun _ => rfl) rfl
  rw [State.ownedLine_setL1]
  split
  · subst c
    by_cases hn : n = line
    · subst n; rw [Tab.find_put_same, h]; simp [Option.filter, hx]
    · rw [Tab.find_put_other _ _ _ _ hn]; rfl
  · rfl
theorem State.install_fetched {s : State} (w : LinesWhole s) {l line : Nat} (h : s.ownedLine l line = none) {x : Line} (hx : x.owned = false) :
    s.Fetched (s.install l line x) := by
  have key : ∀ t : State, s.Fetched t → t.ownedLine l line = none → s.Fetched (t.setL1 l (Tab.put (t.l1At l) line x)) :=
    fun t ht ho => ht.trans (State.putCopy_fetched ht.whole ho hx)
  unfold State.install
  dsimp only
  split
  · exact key s (.refl w) h
  · split
    · obtain ⟨h1, h2⟩ := State.dropLine_fetched w l _
      exact key _ h1 (h2 _ _ h)
    · exact key s (.refl w) h
theorem State.fill_fetched {s : State} (w : LinesWhole s) (l line lease : Nat) : s.Fetched (s.fill l line lease) := by
  unfold State.fill
  dsimp only
  split
  · rename_i h
    simp only [Bool.and_eq_true, Option.isNone_iff_eq_none] at h
    have h1 : s.Fetched (s.setHome line { s.home line with lease := max (s.home line).lease (s.grant line lease) }) := by
      refine .of_keepers w (fun _ _ => rfl) rfl (fun n => ?_) rfl
      rw [State.home_setHome]
      split
      · rename_i e; rw [e]
      · rfl
    exact h1.trans (State.install_fetched h1.whole h.1.2 rfl)
  · exact .refl w
theorem State.touchLine_fetched {s : State} (w : LinesWhole s) (l line : Nat) : s.Fetched (s.touchLine l line) := by
  unfold State.touchLine
  cases hx : Tab.find (s.l1At l) line with
  | none => exact .refl w
  | some x =>
    refine .of_copies (fun c n y hy ho => ?_) (State.setL1_homeByte hx rfl fun _ => rfl) rfl
    rw [State.l1At_setL1] at hy
    split at hy
    · subst c
      by_cases hn : n = line
      · subst n
        rw [Tab.find_put_same] at hy
        cases hy
        exact w l line x hx ho
      · rw [Tab.find_put_other _ _ _ _ hn] at hy
        exact w l n y hy ho
    · exact w c n y hy ho
theorem State.countFor_fetched {s : State} (w : LinesWhole s) (a : Agent) (sel n : Nat) : s.Fetched (s.countFor a sel n) := by
  cases a with
  | core i => exact .refl w
  | gang v i =>
    refine ⟨w, fun _ => rfl, State.gang_updWg s v _ fun _ => rfl, fun u => ?_, rfl⟩
    rw [State.countFor, State.wg_updWg]
    split
    · rw [Option.map_map]; rfl
    · rfl
theorem State.fetchFill_fetched {s : State} (w : LinesWhole s) (a : Agent) (l line : Nat) : s.Fetched (s.fetchFill a l line) := by
  unfold State.fetchFill
  split
  · exact State.touchLine_fetched w l line
  · have h1 : s.Fetched s.unstated.2 := .of_copies w (fun _ => rfl) rfl
    have h2 := h1.trans (State.recallFor_fetched h1.whole l line)
    have h3 := h2.trans (State.fill_fetched h2.whole l line (s.unstated.1.toNat % 4097))
    exact h3.trans (State.countFor_fetched h3.whole a 35 1)
theorem State.keepEntry_fetched {s : State} (w : LinesWhole s) (c : Ctx) (kind : Nat) (va : Word) : s.Fetched (s.keepEntry c kind va) := by
  unfold State.keepEntry
  split
  · exact .refl w
  · split
    · split
      · exact .of_copies w (fun _ => rfl) rfl
      · exact .refl w
    · exact .refl w
/-- The lines that a broadcast asks of the L1, and the words it brings. -/
theorem State.broadcast_fetched {s : State} (w : LinesWhole s) (a : Agent) (pc : Word) : s.Fetched (s.broadcast a pc).2 := by
  have key : ∀ (ls : List Nat) (t : State), s.Fetched t → s.Fetched (ls.foldl (fun u n => u.fetchFill a (s.l1Of a) n) t) := by
    intro ls
    induction ls with
    | nil => exact fun _ h => h
    | cons n ls ih => exact fun t h => ih _ (h.trans (State.fetchFill_fetched h.whole a (s.l1Of a) n))
  have h := key (((s.fetchPlaces a 48 pc).filter fun p => p.2 = 0).map fun p => p.1 / 128).eraseDups s (.refl w)
  exact h.trans (State.keepEntry_fetched h.whole _ _ _)
theorem fetchPlaces_length (s : State) (a : Agent) : ∀ n va, (s.fetchPlaces a n va).length ≤ n
  | 0, _ => Nat.le_refl 0
  | n + 1, va => by
    unfold State.fetchPlaces
    split
    · simp
    · split
      · simp
      · rw [List.length_cons]
        exact Nat.succ_le_succ (fetchPlaces_length s a n (va + 4))
/-- A broadcast at a place brings at most 48 words, the first of them the one there. -/
theorem broadcast_words {s : State} {a : Agent} {pc : Word} {k p : Nat} (h : s.fetchCheck a pc = .ok (.mem k p)) (hp : s.poisoned k = false) :
    ∃ ws, (s.broadcast a pc).1 = s.fetchWord (s.l1Of a) (k, p) :: ws ∧ ws.length < 48 := by
  have hx : s.xlateNow (s.ctxOf a) 3 pc = .ok (k, p) := by
    unfold State.fetchCheck at h
    unfold State.xlateNow
    split at h
    · cases h
    · split at h
      · cases h
      · rename_i hap
        rw [if_neg hap]
        split at h <;> cases h
        rename_i ht
        rw [ht]
  refine ⟨(s.fetchPlaces a 47 (pc + 4)).map (s.fetchWord (s.l1Of a)), ?_, ?_⟩
  · show (s.fetchPlaces a 48 pc).map (s.fetchWord (s.l1Of a)) = _
    rw [State.fetchPlaces, hx]
    simp only [hp, Bool.false_eq_true, if_false, List.map_cons]
  · rw [List.length_map]
    exact Nat.lt_succ_of_le (fetchPlaces_length s a 47 _)

end Sys2Proof.Machine

namespace Sys2Proof.Proofs
open Machine

/-- The gang whose threads of m hold words from a pc on. -/
def bufferedAt (g : Gang) (m : LaneMask) (pc : Word) (ws : List (BitVec 32)) : Gang :=
  { g with lastTurn := some pc, bufs := (lanesOf m).foldl (fun t l => Tab.put t l ⟨pc, ws⟩) g.bufs
           came := g.came.filter fun p => !m.getLsbD p.1 }
theorem find_foldl_put {α : Type} (x : α) (ls : List Nat) (l : Nat) : ∀ t : Tab α,
    Tab.find (ls.foldl (fun t l => Tab.put t l x) t) l = if l ∈ ls then some x else Tab.find t l := by
  induction ls with
  | nil => exact fun t => by simp
  | cons k ls ih =>
    intro t
    rw [List.foldl_cons, ih]
    by_cases hl : l ∈ ls
    · simp [hl]
    · by_cases hk : l = k
      · subst k; simp [Tab.find_put_same]
      · simp [hl, hk, Tab.find_put_other _ _ _ _ hk]
theorem find_filter_key {α : Type} (f : Nat → Bool) (k : Nat) : ∀ t : Tab α,
    Tab.find (t.filter fun p => f p.1) k = if f k = true then Tab.find t k else none
  | [] => by simp [Tab.find]
  | (j, x) :: t => by
    have ih := find_filter_key f k t
    by_cases hj : f j = true
    · rw [List.filter_cons_of_pos (by exact hj)]
      simp only [Tab.find, ih]
      split
      · rename_i e; rw [if_pos (e ▸ hj)]
      · rfl
    · rw [List.filter_cons_of_neg (by exact hj), ih]
      simp only [Tab.find]
      by_cases e : j = k
      · rw [if_pos e, if_neg (e ▸ hj)]
        exact (if_neg (e ▸ hj)).symm
      · rw [if_neg e]
theorem bufferedAt_buffers (g : Gang) (m : LaneMask) (pc : Word) (ws : List (BitVec 32)) (l : Nat) :
    if m.getLsbD l then Tab.find (bufferedAt g m pc ws).came l = none ∧ Tab.find (bufferedAt g m pc ws).bufs l = some ⟨pc, ws⟩
    else Tab.find (bufferedAt g m pc ws).came l = Tab.find g.came l ∧ Tab.find (bufferedAt g m pc ws).bufs l = Tab.find g.bufs l := by
  have hc : Tab.find (bufferedAt g m pc ws).came l = if (!m.getLsbD l) = true then Tab.find g.came l else none := find_filter_key (fun l => !m.getLsbD l) l g.came
  have hb : Tab.find (bufferedAt g m pc ws).bufs l = if l ∈ lanesOf m then some ⟨pc, ws⟩ else Tab.find g.bufs l := find_foldl_put _ _ l _
  rw [hc, hb]
  by_cases hl : m.getLsbD l = true
  · have hlt : l < 32 := by
      by_contra h
      rw [BitVec.getLsbD_of_ge m l (by omega)] at hl
      cases hl
    simp [hl, (mem_lanesOf m l hlt).mpr hl]
  · have : l ∉ lanesOf m := fun h => hl ((mem_lanesOf m l (lanesOf_lt m l h)).mp h)
    simp [hl, this]

/-- The counters of a workgroup are apart from it. -/
theorem wg_countedAs (s t : State) (w : Nat) :
    (countedAs s t).wg w = (t.wg w).map fun x : Workgroup => { x with perf := ((s.wg w).map Workgroup.perf).getD x.perf } := by
  have key : ∀ ps : Tab Workgroup, Tab.find (ps.map fun p : Nat × Workgroup => (p.1, { p.2 with perf := ((s.wg p.1).map Workgroup.perf).getD p.2.perf })) w =
      (Tab.find ps w).map fun x : Workgroup => { x with perf := ((s.wg w).map Workgroup.perf).getD x.perf } := by
    intro ps
    induction ps with
    | nil => rfl
    | cons p ps ih =>
      obtain ⟨j, x⟩ := p
      rw [List.map_cons]
      simp only [Tab.find]
      split
      · rename_i e; subst e; rfl
      · exact ih
  exact key t.wgs
theorem gang_countedAs (s t : State) (a : Agent) : (countedAs s t).gang a = t.gang a := by
  cases a with
  | core i => rfl
  | gang w i =>
    simp only [State.gang, wg_countedAs]
    cases t.wg w <;> rfl
/-- A change of one gang, after fills of lines that are only counted. -/
theorem oneGang_fetched {s t u : State} {a : Agent} {g : Gang} (h : s.Fetched t) (k : OneGang t u a g) :
    OneGang s (countedAs s { u with
      mem := s.mem, l1 := s.l1, homes := s.homes, predictors := s.predictors, tlbs := s.tlbs, free := s.free, dirtyLines := s.dirtyLines }) a g := by
  obtain ⟨k1, k2, k3, k4, k5⟩ := k
  have hgang : ∀ b, (countedAs s { u with
      mem := s.mem, l1 := s.l1, homes := s.homes, predictors := s.predictors, tlbs := s.tlbs, free := s.free, dirtyLines := s.dirtyLines }).gang b =
      u.gang b := fun b => (gang_countedAs _ _ b).trans (by cases b <;> rfl)
  have hscal : t.scalars = s.scalars := by
    have := h.rest
    have := congrArg (fun x : State => x.scalars) this
    exact this
  refine ⟨(hgang a).trans k1, fun b hb => (hgang b).trans ((k2 b hb).trans (h.gangs b)), fun w x hx => ?_, fun i c hc => ?_, ?_⟩
  · have hc := h.counts w
    rw [hx] at hc
    obtain ⟨y, hy, hyx⟩ := Option.map_eq_some_iff.mp hc
    obtain ⟨z, hz, hzy⟩ := k3 w y hy
    refine ⟨{ z with perf := x.perf }, (wg_countedAs _ _ w).trans ?_, ?_⟩
    · rw [hx]
      exact congrArg (Option.map fun y : Workgroup => { y with perf := x.perf }) hz
    · rw [← hzy] at hyx
      calc ({ ({ z with perf := x.perf } : Workgroup) with gangs := x.gangs } : Workgroup)
          = { ({ ({ z with gangs := y.gangs } : Workgroup) with perf := [] } : Workgroup) with perf := x.perf, gangs := x.gangs } := rfl
        _ = x := by rw [hyx]
  · refine k4 i c ?_
    rw [State.scalar, hscal]
    exact hc
  · calc _ = { ({ ({ u with wgs := t.wgs, scalars := t.scalars } : State).offFetch with wgs := s.wgs } : State) with
          mem := s.mem, l1 := s.l1, homes := s.homes, predictors := s.predictors, tlbs := s.tlbs, free := s.free,
          dirtyLines := s.dirtyLines, scalars := s.scalars } := rfl
      _ = s := by rw [k5, h.rest]; rfl
theorem fetchServes : fetchTurnServes := by
  intro s a g pc k p hg hmay hcore hnext hcheck hpois hw
  obtain ⟨ws, hws, hlen⟩ := broadcast_words hcheck hpois
  have hf := State.broadcast_fetched hw a pc
  have hex : exec (.fetchTurn a) s = .next ((s.broadcast a pc).2.updGang a fun g' =>
      bufferedAt g' (g.group pc) pc (s.fetchWord (s.l1Of a) (k, p) :: ws)) := by
    obtain ⟨t, ht⟩ : ∃ t, s.broadcast a pc = (s.fetchWord (s.l1Of a) (k, p) :: ws, t) := ⟨_, Prod.ext hws rfl⟩
    show Host.Outcome.next (s.fetchTurn a) = _
    unfold State.fetchTurn
    cases a with
    | gang w i => simp only [hg, hmay, hnext, hcheck, ht, Bool.not_true, Bool.or_self, Bool.false_eq_true, if_false] <;> rfl
    | core i =>
      have hi : ¬40 ≤ i := Nat.not_le.mpr (hcore i rfl)
      simp only [hg, hmay, hnext, hcheck, ht, hi, decide_false, Bool.not_true, Bool.or_self, Bool.false_eq_true, if_false] <;> rfl
  have hg' := (hf.gangs a).trans hg
  have h := oneGang_updGang hg' fun g' => bufferedAt g' (g.group pc) pc (s.fetchWord (s.l1Of a) (k, p) :: ws)
  refine ⟨_, hex, _, oneGang_fetched hf h, fun n => ?_, rfl, rfl, fun l => ?_⟩
  · rw [← hf.bytes n]
    exact State.same_of_bare (State.updGang_bare _ a _) (·.homeByte n) fun v => v.bare_homeByte n
  · have hb := bufferedAt_buffers g (g.group pc) pc (s.fetchWord (s.l1Of a) (k, p) :: ws) l
    split at hb
    · rename_i hl
      rw [if_pos hl]
      exact ⟨hb.1, _, hb.2, by rw [List.length_cons]; omega, rfl⟩
    · rename_i hl
      rw [if_neg hl]
      exact hb

/-- Settles O44: each of the events that serve an agent completes and leaves what its rule says. -/
theorem agentsAreServed : Obligations.AgentsAreServed :=
  ⟨fetchServes, aging, lineArrives, delivery, walksInstall, waitneEnds, fenceEnds, slotTaken, ringSlots⟩

end Sys2Proof.Proofs
end

section
/-! Values that long-latency lane instructions put in flight (R40, R87, R120). -/

namespace Sys2Proof.Machine

/-- A group that puts values in flight and goes on: its registers and guards are as they were. -/
theorem Gang.launched_took (g : Gang) (s : State) (u : Use) (m : LaneMask) (fs : List Flight) (la : Nat) (d : Dest) :
    Took g (({ g.issued s u with flights := (g.issued s u).flights ++ fs }.finishAll m).openAll m la d) m g.vreg g.guard (fun _ => 0)
      (g.flights ++ fs) := by
  obtain ⟨hv, -, hg, hp, hc, hs, hf, -, -, hr⟩ := Gang.issued_fields g s u
  obtain ⟨f1, f2, f3, -, f5, f6, f7, -, f9⟩ := Gang.finishIn_spec (lanesOf m) (lanesOf_nodup m)
    { g.issued s u with flights := (g.issued s u).flights ++ fs }
  obtain ⟨o1, -, o3, o4, o5, o6, o7, o8⟩ := Gang.openAll_spec
    ({ g.issued s u with flights := (g.issued s u).flights ++ fs }.finishAll m) m la d
  rw [← Gang.finishAll_eq] at f1 f2 f3 f5 f6 f7 f9
  constructor
  · intro l n _ _; rw [ite_self, Gang.vreg, o1, f3, hv]; rfl
  · intro l n _ _; rw [ite_self, Gang.guard, Gang.guards, o3, f5, hg]; rfl
  · intro l _; rw [Gang.fcrOf, o5, f6, hc]; simp [Gang.fcrOf]
  · intro l hl
    rw [Gang.pcOf, o4]
    exact (f1 l).trans (by simp only [mem_lanesOf m l hl, Gang.pcOf, hp])
  · intro l hl
    rw [Gang.stat, o6]
    exact (f2 l).trans (by simp only [mem_lanesOf m l hl, Gang.stat, hs])
  · rw [o7, f7, hf]
  · exact (o8 g).trans ((f9 g).trans hr)

/-- An admitted instruction whose body launches a value in each thread leaves each value in flight. -/
theorem laneFlies_of_launchLanes {i : Instr} {u : Use} {s : State} {g : Gang} {d : BitVec 6} {r : Nat → FpOut} (la : Nat)
    (f : Gang → Nat → FpOut) (he : exec i s = s.issue u fun s => s.launchLanes d la f) (hf : f (g.issued s u) = r) :
    LaneFlies i u s g d r := by
  intro ha
  obtain ⟨t, hn, h⟩ := State.issue_admits s u g (fun s => s.launchLanes d la f) ha
  have hl := h.trans (OnlyGang.updGang t (fun g =>
    ({ g with flights := g.flights ++ (lanesOf t.mask).map fun l =>
      { id := 32 * t.serialNo + l, issued := t.ptb, lane := l, lanes := laneBit l, regs := [d.toNat], vals := some [(f g l).1]
        flags := (f g l).2, acquire := false, poisoned := false, pc := g.pcOf l, addr := 0 : Flight } }.finishAll t.mask).openAll
      t.mask la (.lanes [d.toNat] none)) _ (by rw [h.cur]; exact h.issuer))
  refine ⟨_, _, fun l => 32 * t.serialNo + l, he.trans hn, hl, ?_⟩
  rw [h.mask, h.ptb, hf]
  have hpc : (g.issued s u).pcOf = g.pcOf := by
    obtain ⟨-, -, -, hp, -⟩ := Gang.issued_fields g s u
    funext l
    rw [Gang.pcOf, hp, Gang.pcOf]
  rw [hpc]
  exact Gang.launched_took g s u s.mask _ la _

/-- What an instruction reads of the gang that issues it. -/
theorem Gang.issued_reads (g : Gang) (s : State) (u : Use) :
    (g.issued s u).vreg = g.vreg ∧ (g.issued s u).opB = g.opB ∧ (g.issued s u).rm = g.rm := by
  obtain ⟨hv, hs, -, -, hc, -⟩ := Gang.issued_fields g s u
  refine ⟨?_, ?_, ?_⟩
  · funext l n; simp only [Gang.vreg, hv]
  · funext l b w; simp only [Gang.opB, Gang.vreg, Gang.sreg, hv, hs]
  · funext l; simp only [Gang.rm, Gang.fcrOf, hc]

/-- The one-source form of the long-latency pipes. -/
theorem laneFlies_laneX1 {i : Instr} {s : State} {g : Gang} {d a : BitVec 6} {la : BitVec 4} (f : Nat → Word → Word → FpOut)
    (he : exec i s = s.laneX1 d a la f) :
    LaneFlies i (.regs [d.toNat, a.toNat] []) s g d fun l => f (g.rm l) (g.vreg l a.toNat) 0 := by
  obtain ⟨hv, -, hm⟩ := g.issued_reads s (.regs [d.toNat, a.toNat] [])
  exact laneFlies_of_launchLanes la.toNat (fun g l => f (g.rm l) (g.vreg l a.toNat) 0) he (by simp only [hv, hm])

/-- The two-source form of the long-latency pipes. -/
theorem laneFlies_laneX {i : Instr} {s : State} {g : Gang} {d a b : BitVec 6} {u : BitVec 1} {la : BitVec 4}
    (f : Nat → Word → Word → FpOut) (he : exec i s = s.laneX d a b u la f) :
    LaneFlies i (useB [d, a] b u) s g d fun l => f (g.rm l) (g.vreg l a.toNat) (g.opB l b u) := by
  obtain ⟨hv, hb, hm⟩ := g.issued_reads s (useB [d, a] b u)
  exact laneFlies_of_launchLanes la.toNat (fun g l => f (g.rm l) (g.vreg l a.toNat) (g.opB l b u)) he (by simp only [hv, hb, hm])

end Sys2Proof.Machine

namespace Sys2Proof.Proofs
open Machine

/-- Settles O10: each of the twelve is an issue of one of the two long-latency forms. -/
theorem laneLongLatency : Obligations.LaneLongLatency := by
  intro s g d a b u la
  exact ⟨laneFlies_laneX1 (fpRcp fp32) rfl, laneFlies_laneX1 (fpRsq fp32) rfl, laneFlies_laneX1 (fpSqrt fp32) rfl, laneFlies_laneX (fpDiv fp32) rfl,
    laneFlies_laneX1 (fpRcp fp64) rfl, laneFlies_laneX1 (fpRsq fp64) rfl, laneFlies_laneX1 (fpSqrt fp64) rfl, laneFlies_laneX (fpDiv fp64) rfl,
    laneFlies_laneX1 fpExp2 rfl, laneFlies_laneX1 fpLog2 rfl, laneFlies_laneX1 fpSinpi rfl, laneFlies_laneX1 fpCospi rfl⟩

end Sys2Proof.Proofs
end

section
/-! Rounding an exact quotient once to an integer (R37, R38): what `RoundedTo` allows, and that the model's rounding is it. -/

namespace Sys2Proof.Machine

/-- A sign as a factor. -/
def sgn (n : Bool) : ℝ := if n then -1 else 1

@[simp] theorem sgn_true : sgn true = -1 := rfl
@[simp] theorem sgn_false : sgn false = 1 := rfl
theorem sgn_mul_self (n : Bool) : sgn n * sgn n = 1 := by cases n <;> norm_num
@[simp] theorem abs_sgn (n : Bool) : |sgn n| = 1 := by cases n <;> norm_num
theorem sgn_ne_zero (n : Bool) : sgn n ≠ 0 := by cases n <;> norm_num
theorem sgn_bne (n m : Bool) : sgn (n != m) = sgn n * sgn m := by cases n <;> cases m <;> norm_num
theorem abs_sgn_mul (n : Bool) {x : ℝ} (hx : 0 ≤ x) : |sgn n * x| = x := by rw [abs_mul, abs_sgn, one_mul, abs_of_nonneg hx]
theorem sgn_mul_inj (n : Bool) {x y : ℝ} : sgn n * x = sgn n * y ↔ x = y := mul_right_inj' (sgn_ne_zero n)
/-- A nonnegative magnitude and a sign that agrees with the number. -/
theorem sgn_mul_neg {n : Bool} {x : ℝ} (hx : 0 < x) : n = true ↔ sgn n * x < 0 := by
  cases n <;> simp [hx, hx.le]

/-- A finite value as a real number. -/
theorem ratOf_fin (n : Bool) (m : Nat) (e : Int) : (ratOf (.fin n m e) : ℝ) = sgn n * (m * (2 : ℝ) ^ e) := by
  cases n <;> simp [ratOf]

theorem two_zpow_pos (k : ℤ) : (0 : ℝ) < 2 ^ k := zpow_pos (by norm_num) k
theorem two_zpow_le {a b : ℤ} : (2 : ℝ) ^ a ≤ 2 ^ b ↔ a ≤ b := zpow_le_zpow_iff_right₀ (by norm_num)
theorem two_zpow_lt {a b : ℤ} : (2 : ℝ) ^ a < 2 ^ b ↔ a < b := zpow_lt_zpow_iff_right₀ (by norm_num)
theorem two_zpow_add (a b : ℤ) : (2 : ℝ) ^ (a + b) = 2 ^ a * 2 ^ b := zpow_add₀ (by norm_num) a b
theorem two_zpow_sub (a b : ℤ) : (2 : ℝ) ^ (a - b) = 2 ^ a / 2 ^ b := zpow_sub₀ (by norm_num) a b

/-! ### What a rounded integer is -/

/-- The nearest integer with ties to even is one. -/
theorem nearest_unique {x : ℝ} {a b : ℤ} (ha : |x - a| ≤ 1 / 2 ∧ (|x - a| = 1 / 2 → 2 ∣ a))
    (hb : |x - b| ≤ 1 / 2 ∧ (|x - b| = 1 / 2 → 2 ∣ b)) : a = b := by
  obtain ⟨ha, ta⟩ := ha
  obtain ⟨hb, tb⟩ := hb
  rw [abs_le] at ha hb
  have h1 : (a : ℝ) ≤ b + 1 := by linarith
  have h2 : (b : ℝ) ≤ a + 1 := by linarith
  have h1' : a ≤ b + 1 := by exact_mod_cast h1
  have h2' : b ≤ a + 1 := by exact_mod_cast h2
  -- neighbours are equally near only half-way, and then one of them is odd
  have odd : ∀ c d : ℤ, d = c + 1 → -(1 / 2) ≤ x - d → x - c ≤ 1 / 2 → (|x - c| = 1 / 2 → 2 ∣ c) → (|x - d| = 1 / 2 → 2 ∣ d) → False := by
    intro c d e hd hc tc td
    have ed : (d : ℝ) = c + 1 := by rw [e]; push_cast; ring
    have ec : x - c = 1 / 2 := by linarith
    have ed' : x - d = -(1 / 2) := by linarith
    have := tc (by rw [ec]; norm_num)
    have := td (by rw [ed']; norm_num)
    omega
  rcases lt_trichotomy a b with h | h | h
  · exact (odd a b (by omega) hb.1 ha.2 ta tb).elim
  · exact h
  · exact (odd b a (by omega) ha.1 hb.2 tb ta).elim

/-- The truncated integer is one. -/
theorem truncated_unique {x : ℝ} {a b : ℤ} (ha : |(a : ℝ)| ≤ |x| ∧ |x| < |(a : ℝ)| + 1 ∧ 0 ≤ x * a)
    (hb : |(b : ℝ)| ≤ |x| ∧ |x| < |(b : ℝ)| + 1 ∧ 0 ≤ x * b) : a = b := by
  obtain ⟨ha1, ha2, ha3⟩ := ha
  obtain ⟨hb1, hb2, hb3⟩ := hb
  have h1 : |(a : ℝ)| < |(b : ℝ)| + 1 := by linarith
  have h2 : |(b : ℝ)| < |(a : ℝ)| + 1 := by linarith
  have e : |a| = |b| := by
    have h1' : |a| < |b| + 1 := by exact_mod_cast h1
    have h2' : |b| < |a| + 1 := by exact_mod_cast h2
    omega
  rcases abs_eq_abs.1 e with h | h
  · exact h
  · -- opposite signs: x * a and -(x * a) are both nonnegative
    have hz : x * a = 0 := by
      have : x * b = -(x * a) := by rw [h]; push_cast; ring
      linarith
    rcases mul_eq_zero.1 hz with hx | hz
    · have : |(a : ℝ)| ≤ 0 := by rw [hx, abs_zero] at ha1; exact ha1
      have : a = 0 := by exact_mod_cast abs_nonpos_iff.1 this
      omega
    · have : a = 0 := by exact_mod_cast hz
      omega

theorem int_unique {a b : ℤ} (h1 : (a : ℝ) < b + 1) (h2 : (b : ℝ) < a + 1) : a = b := by
  have h1' : a < b + 1 := by exact_mod_cast h1
  have h2' : b < a + 1 := by exact_mod_cast h2
  omega

/-- A rounding mode delivers one integer. -/
theorem roundedTo_unique {rm : Nat} {x : ℝ} {a b : ℤ} (ha : RoundedTo rm x a) (hb : RoundedTo rm x b) : a = b := by
  match rm, ha, hb with
  | 0, ha, hb => exact nearest_unique ha hb
  | 1, ha, hb => exact truncated_unique ha hb
  | 2, ⟨a1, a2⟩, ⟨b1, b2⟩ => exact int_unique (by linarith) (by linarith)
  | _ + 3, ⟨a1, a2⟩, ⟨b1, b2⟩ => exact int_unique (by linarith) (by linarith)

/-- An integer rounds to itself. -/
theorem roundedTo_int (rm : Nat) (z : ℤ) : RoundedTo rm (z : ℝ) z := by
  unfold RoundedTo
  split
  · simp
  · exact ⟨le_refl _, by linarith, mul_self_nonneg _⟩
  · exact ⟨le_refl _, by linarith⟩
  · exact ⟨le_refl _, by linarith⟩

/-! ### The model's rounding -/

theorem roundDiv_snd (rm : Nat) (neg : Bool) (num den : Nat) : (roundDiv rm neg num den).2 = (num % den == 0) := by
  simp only [roundDiv]; split <;> rfl
theorem roundDiv_fst (rm : Nat) (neg : Bool) (num den : Nat) : (roundDiv rm neg num den).1 =
    if roundsUp rm neg (num / den % 2 == 1) (compare (2 * (num % den)) den) (num % den == 0) then num / den + 1 else num / den := by
  simp only [roundDiv]; split <;> rfl
/-- An exact quotient stays as it is. -/
theorem roundDiv_exact (rm : Nat) (neg : Bool) (num den : Nat) (h : num % den = 0) : (roundDiv rm neg num den).1 = num / den := by
  rw [roundDiv_fst, h]; rfl

/-- The four roundings of a quotient that is not exact (Table 2.3). -/
theorem roundDiv_modes (num den : Nat) (neg : Bool) (h : num % den ≠ 0) :
    (roundDiv 1 neg num den).1 = num / den ∧ (roundDiv 2 neg num den).1 = (if neg then num / den else num / den + 1) ∧
    (roundDiv 3 neg num den).1 = (if neg then num / den + 1 else num / den) ∧
    (roundDiv 0 neg num den).1 = if den < 2 * (num % den) ∨ (2 * (num % den) = den ∧ num / den % 2 = 1) then num / den + 1 else num / den := by
  have hx : (num % den == 0) = false := by simpa using h
  simp only [roundDiv_fst, hx, roundsUp]
  refine ⟨by simp, by cases neg <;> rfl, by cases neg <;> rfl, ?_⟩
  rcases lt_trichotomy (2 * (num % den)) den with hc | hc | hc
  · rw [Nat.compare_eq_lt.2 hc, if_neg (by simp), if_neg (by omega)]
  · rw [Nat.compare_eq_eq.2 hc]
    simp [hc]
  · rw [Nat.compare_eq_gt.2 hc, if_pos (by simp), if_pos (by omega)]

end Sys2Proof.Machine

namespace Sys2Proof.Proofs
open Machine

/-- Table 2.3 on an exact quotient (R37). -/
theorem roundingModes : roundingModesRule := by
  intro num den neg hd r
  have hdiv : den * (num / den) + num % den = num := Nat.div_add_mod num den
  have hlt : num % den < den := Nat.mod_lt _ hd
  have hq : num / den * den = den * (num / den) := Nat.mul_comm _ _
  have hq1 : (num / den + 1) * den = den * (num / den) + den := by rw [Nat.add_mul, one_mul, hq]
  refine ⟨fun rm => ⟨?_, fun h => ?_⟩, ?_⟩
  · rw [show (r rm).2 = (num % den == 0) from roundDiv_snd _ _ _ _, beq_iff_eq, Nat.dvd_iff_mod_eq_zero]
  · have h0 := Nat.mod_eq_zero_of_dvd h
    rw [show (r rm).1 = num / den from roundDiv_exact _ _ _ _ h0]
    omega
  by_cases h0 : num % den = 0
  · have e : ∀ rm, (r rm).1 = num / den := fun rm => roundDiv_exact _ _ _ _ h0
    simp only [e]
    cases neg <;> simp only [Bool.false_eq_true, if_true, if_false, true_and] <;> omega
  · obtain ⟨e1, e2, e3, e0⟩ := roundDiv_modes num den neg h0
    rw [show (r 1).1 = num / den from e1, show (r 2).1 = _ from e2, show (r 3).1 = _ from e3, show (r 0).1 = _ from e0]
    refine ⟨by omega, ?_, ?_⟩
    · cases neg <;> simp only [Bool.false_eq_true, if_true, if_false, true_and] <;> omega
    · split <;> omega

end Sys2Proof.Proofs

namespace Sys2Proof.Machine

/-- A quotient half-way between two integers. -/
theorem half_tie {a : ℕ} (num : ℕ) {den : ℕ} (hd : 0 < den) (h : |(num : ℝ) / den - a| = 1 / 2) :
    2 * (a * den) = 2 * num + den ∨ 2 * num = 2 * (a * den) + den := by
  have hD : (den : ℝ) ≠ 0 := by exact_mod_cast hd.ne'
  have e : (num : ℝ) / den * den = num := div_mul_cancel₀ _ hD
  rcases (abs_eq (by norm_num)).1 h with h | h
  · right
    have : (2 : ℝ) * num = 2 * (a * den) + den := by rw [← e]; linear_combination 2 * (den : ℝ) * h
    exact_mod_cast this
  · left
    have : (2 : ℝ) * (a * den) = 2 * num + den := by rw [← e]; linear_combination -2 * (den : ℝ) * h
    exact_mod_cast this

/-- The model's rounding of a quotient is the rounding of the real number (R37). -/
theorem roundDiv_roundedTo {rm : Nat} (hrm : rm < 4) (neg : Bool) (num den : Nat) (hd : 0 < den) :
    RoundedTo rm (sgn neg * ((num : ℝ) / den)) ((if neg then -1 else 1) * ((roundDiv rm neg num den).1 : ℤ)) := by
  obtain ⟨-, ⟨l1, u1⟩, hdir, ⟨l0, u0⟩, even⟩ := Proofs.roundingModes num den neg hd
  have hD : (0 : ℝ) < den := by exact_mod_cast hd
  have hX : (0 : ℝ) ≤ (num : ℝ) / den := by positivity
  -- an inequality of products by den, as one of the quotient
  have le_q : ∀ a : ℕ, a * den ≤ num → (a : ℝ) ≤ num / den := fun a h => by
    rw [le_div_iff₀ hD]; exact_mod_cast h
  have q_le : ∀ a : ℕ, num ≤ a * den → (num : ℝ) / den ≤ a := fun a h => by
    rw [div_le_iff₀ hD]; exact_mod_cast h
  have q_lt : ∀ a : ℕ, num < (a + 1) * den → (num : ℝ) / den < a + 1 := fun a h => by
    rw [div_lt_iff₀ hD]; exact_mod_cast h
  have lt_q : ∀ a : ℕ, a * den < num + den → (a : ℝ) < num / den + 1 := fun a h => by
    rw [div_add_one hD.ne', lt_div_iff₀ hD]; exact_mod_cast h
  have near_le : ∀ {a : ℕ}, 2 * (a * den) ≤ 2 * num + den → (a : ℝ) ≤ num / den + 1 / 2 := fun {a} h => by
    have : (2 : ℝ) * (a * den) ≤ 2 * num + den := by exact_mod_cast h
    rw [div_add_div _ _ hD.ne' two_ne_zero, le_div_iff₀ (by positivity)]; linarith
  have le_near : ∀ {a : ℕ}, 2 * num ≤ 2 * (a * den) + den → (num : ℝ) / den ≤ a + 1 / 2 := fun {a} h => by
    have : (2 : ℝ) * num ≤ 2 * (a * den) + den := by exact_mod_cast h
    rw [div_le_iff₀ hD]; linarith
  have tie := fun {a : ℕ} => half_tie (a := a) num hd
  generalize (num : ℝ) / den = X at *
  have hs : ∀ a : ℕ, (((if neg then -1 else 1) * (a : ℤ) : ℤ) : ℝ) = sgn neg * a := fun a => by cases neg <;> simp
  have r1 := le_q _ l1
  have r2 := q_lt _ u1
  interval_cases rm
  · have n1 : ((roundDiv 0 neg num den).1 : ℝ) ≤ X + 1 / 2 := near_le l0
    have n2 : X ≤ (roundDiv 0 neg num den).1 + 1 / 2 := le_near u0
    refine ⟨?_, fun he => ?_⟩
    · rw [hs, ← mul_sub, abs_mul, abs_sgn, one_mul, abs_le]
      constructor <;> linarith
    · rw [hs, ← mul_sub, abs_mul, abs_sgn, one_mul] at he
      have ev : (roundDiv 0 neg num den).1 % 2 = 0 := even (tie he)
      have : (2 : ℤ) ∣ ((roundDiv 0 neg num den).1 : ℤ) := by exact_mod_cast Nat.dvd_of_mod_eq_zero ev
      exact Dvd.dvd.mul_left this _
  · refine ⟨?_, ?_, ?_⟩
    · rw [hs, abs_sgn_mul _ (Nat.cast_nonneg _), abs_sgn_mul _ hX]; exact r1
    · rw [hs, abs_sgn_mul _ (Nat.cast_nonneg _), abs_sgn_mul _ hX]; exact r2
    · rw [hs, mul_mul_mul_comm, sgn_mul_self, one_mul]; positivity
  · show sgn neg * X ≤ _ ∧ _ < sgn neg * X + 1
    rw [hs]
    cases neg <;> simp only [if_true, if_false, Bool.false_eq_true] at hdir <;> obtain ⟨e, lo, hi⟩ := hdir
    · have := q_le _ lo
      have := lt_q _ hi
      constructor <;> simp only [sgn_false, one_mul] <;> linarith
    · rw [e]
      constructor <;> simp only [sgn_true] <;> linarith
  · show _ ≤ sgn neg * X ∧ sgn neg * X < _ + 1
    rw [hs]
    cases neg <;> simp only [if_true, if_false, Bool.false_eq_true] at hdir <;> obtain ⟨e, lo, hi⟩ := hdir
    · rw [e]
      constructor <;> simp only [sgn_false] <;> linarith
    · have := q_le _ lo
      have := lt_q _ hi
      constructor <;> simp only [sgn_true] <;> linarith

end Sys2Proof.Machine
end

section
/-! The magnitudes that the codes of a format stand for, and the rounding of a number to them (R34 to R38). -/

namespace Sys2Proof.Machine

/-! ### Magnitudes of codes -/

/-- What the codes of a format need: at least one fraction bit and two exponent bits. -/
def Fmt.Good (f : Fmt) : Prop := 1 ≤ f.fbits ∧ 2 ≤ f.ebits

/-- The binade of a code above the first, which the subnormals share. -/
def Fmt.binade (f : Fmt) (c : Nat) : Nat := c / 2 ^ f.fbits - 1
/-- The magnitude of a code without its sign. -/
noncomputable def Fmt.grid (f : Fmt) (c : Nat) : ℝ :=
  ((c - f.binade c * 2 ^ f.fbits : Nat) : ℝ) * 2 ^ (f.qmin + f.binade c)

theorem Fmt.binade_mul_le (f : Fmt) (c : Nat) : f.binade c * 2 ^ f.fbits ≤ c :=
  (Nat.mul_le_mul_right _ (Nat.sub_le _ _)).trans (Nat.div_mul_le_self c _)

theorem Fmt.grid_nonneg (f : Fmt) (c : Nat) : 0 ≤ f.grid c := mul_nonneg (Nat.cast_nonneg _) (two_zpow_pos _).le

/-- A code of subnormals, or the smallest normal. -/
theorem Fmt.grid_low (f : Fmt) {c : Nat} (h : c ≤ 2 ^ f.fbits) : f.grid c = c * 2 ^ f.qmin := by
  have hb : f.binade c = 0 := by
    have := Nat.div_le_div_right (c := 2 ^ f.fbits) h
    rw [Nat.div_self (Nat.two_pow_pos _)] at this
    unfold Fmt.binade; omega
  simp [Fmt.grid, hb]

/-- The code of a normal, from its binade and its significand, the end of the binade included. -/
theorem Fmt.grid_normal (f : Fmt) (b q : Nat) (h1 : 2 ^ f.fbits ≤ q) (h2 : q ≤ 2 ^ (f.fbits + 1)) :
    f.grid (b * 2 ^ f.fbits + q) = q * 2 ^ (f.qmin + b) := by
  have hp := Nat.two_pow_pos f.fbits
  rw [pow_succ] at h2
  rcases h2.lt_or_eq with h | h
  · have hb : f.binade (b * 2 ^ f.fbits + q) = b := by
      have hd : q / 2 ^ f.fbits = 1 := Nat.div_eq_of_lt_le (by omega) (by omega)
      rw [Fmt.binade, Nat.mul_comm, Nat.mul_add_div hp, hd]
      omega
    rw [Fmt.grid, hb, Nat.add_sub_cancel_left]
  · have hb : f.binade (b * 2 ^ f.fbits + q) = b + 1 := by
      rw [Fmt.binade, h, Nat.mul_comm, Nat.mul_add_div hp, Nat.mul_div_cancel_left _ hp]
      omega
    have hs : b * 2 ^ f.fbits + q - (b + 1) * 2 ^ f.fbits = 2 ^ f.fbits := by rw [Nat.add_mul]; omega
    rw [Fmt.grid, hb, hs, h, Nat.cast_add, Nat.cast_one, ← add_assoc, two_zpow_add (f.qmin + b) 1]
    push_cast
    ring

/-- From one code to the next the magnitude grows by the unit of its binade. -/
theorem Fmt.grid_succ (f : Fmt) (c : Nat) : f.grid (c + 1) = f.grid c + 2 ^ (f.qmin + f.binade c) := by
  have hp := Nat.two_pow_pos f.fbits
  have e : c = f.binade c * 2 ^ f.fbits + (c - f.binade c * 2 ^ f.fbits) := by have := f.binade_mul_le c; omega
  rcases Nat.lt_or_ge c (2 ^ f.fbits) with h | h
  · have hb : f.binade c = 0 := by rw [Fmt.binade, Nat.div_eq_of_lt h]
    rw [f.grid_low h, f.grid_low h.le, hb]
    push_cast
    ring_nf
  · have hd : 1 ≤ c / 2 ^ f.fbits := (Nat.one_le_div_iff hp).2 h
    have hm := Nat.div_add_mod c (2 ^ f.fbits)
    have hlt := Nat.mod_lt c hp
    have hbm : f.binade c * 2 ^ f.fbits = 2 ^ f.fbits * (c / 2 ^ f.fbits) - 2 ^ f.fbits := by
      rw [Fmt.binade, Nat.sub_mul, one_mul, Nat.mul_comm]
    have hle : 2 ^ f.fbits ≤ 2 ^ f.fbits * (c / 2 ^ f.fbits) := Nat.le_mul_of_pos_right _ hd
    have h1 := f.grid_normal (f.binade c) (c - f.binade c * 2 ^ f.fbits) (by omega) (by rw [pow_succ]; omega)
    have h2 := f.grid_normal (f.binade c) (c - f.binade c * 2 ^ f.fbits + 1) (by omega) (by rw [pow_succ]; omega)
    rw [← e] at h1
    rw [← add_assoc, ← e] at h2
    rw [h1, h2]
    push_cast
    ring

theorem Fmt.grid_strictMono (f : Fmt) : StrictMono f.grid :=
  strictMono_nat_of_lt_succ fun c => by rw [f.grid_succ]; exact lt_add_of_pos_right _ (two_zpow_pos _)

/-- The exponent of the smallest normal. -/
def Fmt.emin (f : Fmt) : Int := 1 - (f.bias : Int)
theorem Fmt.qmin_add (f : Fmt) : f.qmin + f.fbits = f.emin := by simp [Fmt.qmin, Fmt.emin]
theorem Fmt.grid_smallest (f : Fmt) : f.grid (2 ^ f.fbits) = 2 ^ f.emin := by
  rw [f.grid_low le_rfl, ← f.qmin_add, two_zpow_add, zpow_natCast]
  push_cast
  ring
/-- The unit of a normal is small beside it. -/
theorem Fmt.unit_le (f : Fmt) {c : Nat} (h : 2 ^ f.fbits ≤ c) : (2 : ℝ) ^ (f.qmin + f.binade c) ≤ f.grid c * 2 ^ (-(f.fbits : ℤ)) := by
  have hp := Nat.two_pow_pos f.fbits
  have hq : 2 ^ f.fbits ≤ c - f.binade c * 2 ^ f.fbits := by
    have hd : 1 ≤ c / 2 ^ f.fbits := (Nat.one_le_div_iff hp).2 h
    have hm := Nat.div_add_mod c (2 ^ f.fbits)
    have hbm : f.binade c * 2 ^ f.fbits = 2 ^ f.fbits * (c / 2 ^ f.fbits) - 2 ^ f.fbits := by
      rw [Fmt.binade, Nat.sub_mul, one_mul, Nat.mul_comm]
    have hle : 2 ^ f.fbits ≤ 2 ^ f.fbits * (c / 2 ^ f.fbits) := Nat.le_mul_of_pos_right _ hd
    omega
  have hq' : (2 : ℝ) ^ (f.fbits : ℤ) ≤ ((c - f.binade c * 2 ^ f.fbits : Nat) : ℝ) := by
    rw [zpow_natCast]; exact_mod_cast hq
  rw [zpow_neg, ← div_eq_mul_inv, le_div_iff₀ (two_zpow_pos _), mul_comm]
  exact mul_le_mul_of_nonneg_right hq' (two_zpow_pos _).le

/-! ### Codes of finite values -/

theorem Fmt.maxCode_lt (f : Fmt) : f.maxCode < 2 ^ (f.ebits + f.fbits) := by
  have h1 := Nat.two_pow_pos (f.ebits + f.fbits)
  have h2 : (2 ^ f.ebits - 1) * 2 ^ f.fbits ≤ 2 ^ (f.ebits + f.fbits) := by
    rw [pow_add]; exact Nat.mul_le_mul_right _ (Nat.sub_le _ _)
  unfold Fmt.maxCode
  split
  · omega
  · split <;> omega
theorem Fmt.smallest_le_maxCode {f : Fmt} (h : f.Good) : 2 ^ f.fbits ≤ f.maxCode := by
  obtain ⟨hf, he⟩ := h
  have hp : 2 ≤ 2 ^ f.fbits := Nat.le_self_pow (n := f.fbits) (by omega) 2
  have h4 : 4 ≤ 2 ^ f.ebits := Nat.pow_le_pow_right (n := 2) (by norm_num) he
  have h1 : 3 * 2 ^ f.fbits ≤ (2 ^ f.ebits - 1) * 2 ^ f.fbits := Nat.mul_le_mul_right _ (by omega)
  have h2 : 4 * 2 ^ f.fbits ≤ 2 ^ (f.ebits + f.fbits) := by rw [pow_add]; exact Nat.mul_le_mul_right _ h4
  unfold Fmt.maxCode
  split
  · omega
  · split <;> omega

/-- The sign bit of a code with a sign. -/
theorem Fmt.testBit_sign (f : Fmt) (neg : Bool) {c : Nat} (h : c < 2 ^ (f.ebits + f.fbits)) :
    (f.signBit neg + c).testBit (f.fbits + f.ebits) = neg := by
  rw [Nat.add_comm f.fbits]
  cases neg
  · simpa [Fmt.signBit] using Nat.testBit_lt_two_pow h
  · simpa [Fmt.signBit] using Nat.testBit_two_pow_add_eq _ _ |>.trans (by rw [Nat.testBit_lt_two_pow h]; rfl)
/-- The fields of a code with a sign. -/
theorem Fmt.fields_sign (f : Fmt) (neg : Bool) {c : Nat} (h : c < 2 ^ (f.ebits + f.fbits)) :
    (f.signBit neg + c) % 2 ^ f.fbits = c % 2 ^ f.fbits ∧ (f.signBit neg + c) / 2 ^ f.fbits % 2 ^ f.ebits = c / 2 ^ f.fbits := by
  have hs : f.signBit neg = 2 ^ f.fbits * (2 ^ f.ebits * neg.toNat) := by cases neg <;> simp [Fmt.signBit, pow_add, Nat.mul_comm]
  have hc : c / 2 ^ f.fbits < 2 ^ f.ebits := Nat.div_lt_of_lt_mul (by rwa [← pow_add, Nat.add_comm])
  rw [hs]
  exact ⟨Nat.mul_add_mod _ _ _, by rw [Nat.mul_add_div (Nat.two_pow_pos _), Nat.mul_add_mod, Nat.mod_eq_of_lt hc]⟩

/-- A code up to the largest finite one is a finite value, with this significand and exponent. -/
theorem Fmt.decode_code {f : Fmt} (hg : f.Good) (neg : Bool) {c : Nat} (h : c ≤ f.maxCode) :
    f.decode (f.signBit neg + c) = .fin neg (c - f.binade c * 2 ^ f.fbits) (f.qmin + f.binade c) := by
  have hlt : c < 2 ^ (f.ebits + f.fbits) := h.trans_lt f.maxCode_lt
  have hp := Nat.two_pow_pos f.fbits
  have hdm := Nat.div_add_mod c (2 ^ f.fbits)
  have hml := Nat.mod_lt c hp
  have hmax := Fmt.smallest_le_maxCode hg
  obtain ⟨h1, h2⟩ := f.fields_sign neg hlt
  unfold Fmt.decode
  simp only [h1, h2, f.testBit_sign neg hlt]
  -- not an infinity or a NaN
  have n0 : ¬(c / 2 ^ f.fbits = 2 ^ f.ebits - 1 ∧ f.kind = 0) := by
    rintro ⟨e, k⟩
    rw [Fmt.maxCode, if_pos k, ← e, Nat.mul_comm] at h hmax
    omega
  have n1 : ¬(c / 2 ^ f.fbits = 2 ^ f.ebits - 1 ∧ f.kind = 1 ∧ c % 2 ^ f.fbits = 2 ^ f.fbits - 1) := by
    rintro ⟨e, k, m⟩
    rw [Fmt.maxCode, if_neg (by omega), if_pos k, pow_add] at h hmax
    rw [e, m, Nat.mul_sub, Nat.mul_comm, mul_one] at hdm
    have := Nat.le_mul_of_pos_left (2 ^ f.fbits) (Nat.two_pow_pos f.ebits)
    omega
  rw [if_neg n0, if_neg n1]
  by_cases e0 : c / 2 ^ f.fbits = 0
  · have hc : c % 2 ^ f.fbits = c := by rw [e0] at hdm; omega
    simp [Fmt.binade, e0, hc]
  · have hb : f.binade c * 2 ^ f.fbits = 2 ^ f.fbits * (c / 2 ^ f.fbits) - 2 ^ f.fbits := by
      rw [Fmt.binade, Nat.sub_mul, one_mul, Nat.mul_comm]
    have hle : 2 ^ f.fbits ≤ 2 ^ f.fbits * (c / 2 ^ f.fbits) := Nat.le_mul_of_pos_right _ (Nat.pos_of_ne_zero e0)
    have hexp : ((f.binade c : Nat) : Int) = (c / 2 ^ f.fbits : Nat) - 1 := by rw [Fmt.binade]; omega
    rw [if_neg e0, hexp, hb]
    congr 1
    omega

/-- A code with a sign, up to the largest finite one, is its magnitude with that sign. -/
theorem Fmt.finIs_code {f : Fmt} (hg : f.Good) (neg : Bool) {c : Nat} (h : c ≤ f.maxCode) :
    FinIs (f.decode (f.signBit neg + c)) neg (sgn neg * f.grid c) := by
  rw [Fmt.decode_code hg neg h]
  exact ⟨⟨_, _, rfl⟩, ratOf_fin _ _ _⟩
theorem Fmt.ratOf_maxCode {f : Fmt} (hg : f.Good) : (ratOf (f.decode f.maxCode) : ℝ) = f.grid f.maxCode := by
  have h := (Fmt.finIs_code hg false le_rfl).2
  simpa [Fmt.signBit] using h

/-! ### The leading exponent -/

theorem bitLen_pos {n : Nat} (h : 0 < n) : bitLen n = Nat.log2 n + 1 := if_neg (by omega)
theorem lt_two_pow_bitLen (n : Nat) : n < 2 ^ bitLen n := by
  rcases Nat.eq_zero_or_pos n with rfl | h
  · simp [bitLen]
  · rw [bitLen_pos h]; exact Nat.lt_log2_self
theorem two_pow_le_of_bitLen {n : Nat} (h : 0 < n) : (2 : ℝ) ^ ((bitLen n : ℤ) - 1) ≤ n := by
  rw [bitLen_pos h]
  push_cast
  rw [add_sub_cancel_right, zpow_natCast]
  exact_mod_cast Nat.log2_self_le h.ne'
theorem lt_zpow_bitLen (n : Nat) : (n : ℝ) < 2 ^ (bitLen n : ℤ) := by
  rw [zpow_natCast]; exact_mod_cast lt_two_pow_bitLen n

/-- The test by which `leadExp` tells the two candidates apart. -/
theorem below_iff (num den : Nat) (k : ℤ) (hd : 0 < den) :
    (if 0 ≤ k then decide (num < den <<< k.toNat) else decide (num <<< (-k).toNat < den)) = true ↔ (num : ℝ) / den < 2 ^ k := by
  have hD : (0 : ℝ) < den := by exact_mod_cast hd
  rw [div_lt_iff₀ hD]
  split
  · rename_i h
    have e : (2 : ℝ) ^ k = 2 ^ k.toNat := by rw [← zpow_natCast, Int.toNat_of_nonneg h]
    rw [decide_eq_true_eq, Nat.shiftLeft_eq, e, mul_comm]
    exact_mod_cast Iff.rfl
  · rename_i h
    have e : (2 : ℝ) ^ k * 2 ^ (-k).toNat = 1 := by
      rw [← zpow_natCast, Int.toNat_of_nonneg (by omega), ← two_zpow_add]; simp
    have hp : (0 : ℝ) < 2 ^ (-k).toNat := by positivity
    rw [decide_eq_true_eq, Nat.shiftLeft_eq, ← mul_lt_mul_iff_left₀ hp, mul_right_comm, e, one_mul]
    exact_mod_cast Iff.rfl

/-- `leadExp` is the exponent of the leading bit. -/
theorem leadExp_spec {num den : Nat} (hn : 0 < num) (hd : 0 < den) (e : ℤ) :
    (2 : ℝ) ^ leadExp num den e ≤ num / den * 2 ^ e ∧ (num : ℝ) / den * 2 ^ e < 2 ^ (leadExp num den e + 1) := by
  have hD : (0 : ℝ) < den := by exact_mod_cast hd
  have n1 := two_pow_le_of_bitLen hn
  have n2 := lt_zpow_bitLen num
  have d1 := two_pow_le_of_bitLen hd
  have d2 := lt_zpow_bitLen den
  have lo : (2 : ℝ) ^ ((bitLen num : ℤ) - bitLen den - 1) ≤ num / den := by
    rw [le_div_iff₀ hD]
    calc (2 : ℝ) ^ ((bitLen num : ℤ) - bitLen den - 1) * den ≤ 2 ^ ((bitLen num : ℤ) - bitLen den - 1) * 2 ^ (bitLen den : ℤ) :=
          mul_le_mul_of_nonneg_left d2.le (two_zpow_pos _).le
      _ = 2 ^ ((bitLen num : ℤ) - 1) := by rw [← two_zpow_add]; congr 1; ring
      _ ≤ num := n1
  have hi : (num : ℝ) / den < 2 ^ ((bitLen num : ℤ) - bitLen den + 1) := by
    rw [div_lt_iff₀ hD]
    calc (num : ℝ) < 2 ^ (bitLen num : ℤ) := n2
      _ = 2 ^ ((bitLen num : ℤ) - bitLen den + 1) * 2 ^ ((bitLen den : ℤ) - 1) := by rw [← two_zpow_add]; congr 1; ring
      _ ≤ 2 ^ ((bitLen num : ℤ) - bitLen den + 1) * den := mul_le_mul_of_nonneg_left d1 (two_zpow_pos _).le
  have hb := below_iff num den ((bitLen num : ℤ) - bitLen den) hd
  have key : ∀ j : ℤ, (2 : ℝ) ^ j ≤ num / den → (num : ℝ) / den < 2 ^ (j + 1) →
      (2 : ℝ) ^ (e + j) ≤ num / den * 2 ^ e ∧ (num : ℝ) / den * 2 ^ e < 2 ^ (e + j + 1) := fun j h1 h2 => by
    rw [add_assoc, two_zpow_add e j, two_zpow_add e (j + 1), mul_comm _ ((2 : ℝ) ^ e)]
    exact ⟨mul_le_mul_of_nonneg_left h1 (two_zpow_pos _).le, mul_lt_mul_of_pos_left h2 (two_zpow_pos _)⟩
  unfold leadExp
  dsimp only
  by_cases h : (num : ℝ) / den < 2 ^ ((bitLen num : ℤ) - bitLen den)
  · rw [if_pos (hb.2 h)]
    exact key _ lo (by rwa [sub_add_cancel])
  · rw [if_neg (mt hb.1 h)]
    exact key _ (not_lt.1 h) hi

/-! ### Rounding in a given unit -/

/-- A signed natural number as an integer. -/
def sgnInt (n : Bool) (q : Nat) : ℤ := (if n then -1 else 1) * q
theorem cast_sgnInt (n : Bool) (q : Nat) : (sgnInt n q : ℝ) = sgn n * q := by cases n <;> simp [sgnInt]

theorem div_two_zpow (num den : Nat) (e u : ℤ) (hd : 0 < den) :
    (num : ℝ) / den * 2 ^ e / 2 ^ u =
      if u ≤ e then ((num <<< (e - u).toNat : Nat) : ℝ) / den else (num : ℝ) / (den <<< (u - e).toNat : Nat) := by
  have hD : (den : ℝ) ≠ 0 := by exact_mod_cast hd.ne'
  have h2 : (2 : ℝ) ^ u ≠ 0 := (two_zpow_pos u).ne'
  split
  · rename_i h
    rw [Nat.shiftLeft_eq]
    push_cast
    rw [← zpow_natCast, Int.toNat_of_nonneg (by omega), two_zpow_sub]
    field_simp
  · rename_i h
    have h3 : (2 : ℝ) ^ e ≠ 0 := (two_zpow_pos e).ne'
    rw [Nat.shiftLeft_eq]
    push_cast
    rw [← zpow_natCast, Int.toNat_of_nonneg (by omega), two_zpow_sub]
    field_simp

/-- Rounding to a multiple of 2 ^ u is rounding the number in that unit. -/
theorem roundQuanta_roundedTo {rm : Nat} (hrm : rm < 4) (neg : Bool) (num : Nat) {den : Nat} (hd : 0 < den) (e u : ℤ) :
    RoundedTo rm (sgn neg * (num / den * 2 ^ e) / 2 ^ u) (sgnInt neg (roundQuanta rm neg num den e u).1) := by
  rw [mul_div_assoc, div_two_zpow num den e u hd]
  unfold roundQuanta sgnInt
  split
  · exact roundDiv_roundedTo hrm neg _ _ hd
  · exact roundDiv_roundedTo hrm neg _ _ (by rw [Nat.shiftLeft_eq]; positivity)

/-- A rounded integer is less than 1 away. -/
theorem roundedTo_abs_lt {rm : Nat} {x : ℝ} {z : ℤ} (h : RoundedTo rm x z) : |x - z| < 1 := by
  unfold RoundedTo at h
  split at h
  · exact h.1.trans_lt (by norm_num)
  · obtain ⟨h1, h2, h3⟩ := h
    rcases le_total 0 x with hx | hx
    · have hz : 0 ≤ (z : ℝ) ∨ x = 0 := by
        rcases hx.eq_or_lt with h | h
        · exact .inr h.symm
        · exact .inl (nonneg_of_mul_nonneg_right h3 h)
      rcases hz with hz | hz
      · rw [abs_of_nonneg hx, abs_of_nonneg hz] at h1 h2
        rw [abs_lt]; constructor <;> linarith
      · rw [hz, abs_zero] at h1
        rw [hz, abs_nonpos_iff.1 h1]; norm_num
    · have hz : (z : ℝ) ≤ 0 ∨ x = 0 := by
        rcases hx.eq_or_lt with h | h
        · exact .inr h
        · exact .inl (by by_contra hc; push Not at hc; nlinarith)
      rcases hz with hz | hz
      · rw [abs_of_nonpos hx, abs_of_nonpos hz] at h1 h2
        rw [abs_lt]; constructor <;> linarith
      · rw [hz, abs_zero] at h1
        rw [hz, abs_nonpos_iff.1 h1]; norm_num
  · rw [abs_lt]; constructor <;> linarith [h.1, h.2]
  · rw [abs_lt]; constructor <;> linarith [h.1, h.2]

/-- A rounded magnitude stays between integers that the magnitude lies between. -/
theorem roundedTo_bounds {rm : Nat} {neg : Bool} {x : ℝ} {q : Nat} (h : RoundedTo rm (sgn neg * x) (sgnInt neg q)) :
    (∀ a : Nat, (a : ℝ) ≤ x → a ≤ q) ∧ ∀ b : Nat, x ≤ b → q ≤ b := by
  have h1 := roundedTo_abs_lt h
  rw [cast_sgnInt, ← mul_sub, abs_mul, abs_sgn, one_mul, abs_lt] at h1
  refine ⟨fun a ha => ?_, fun b hb => ?_⟩
  · have : (a : ℝ) < q + 1 := by linarith
    have : a < q + 1 := by exact_mod_cast this
    omega
  · have : (q : ℝ) < b + 1 := by linarith
    have : q < b + 1 := by exact_mod_cast this
    omega

/-- The exactness that a rounding reports. -/
theorem roundQuanta_exact {rm : Nat} (neg : Bool) (num : Nat) {den : Nat} (hd : 0 < den) (e u : ℤ) :
    (roundQuanta rm neg num den e u).2 = true ↔ ((roundQuanta rm neg num den e u).1 : ℝ) * 2 ^ u = num / den * 2 ^ e := by
  have key : ∀ a b : Nat, 0 < b → ((roundDiv rm neg a b).2 = true ↔ ((roundDiv rm neg a b).1 : ℝ) = a / b) := fun a b hb => by
    have hB : (b : ℝ) ≠ 0 := by exact_mod_cast hb.ne'
    obtain ⟨h1, h2⟩ := (Proofs.roundingModes a b neg hb).1 rm
    rw [h1, eq_div_iff hB]
    refine ⟨fun h => by exact_mod_cast h2 h, fun h => ?_⟩
    have : (roundDiv rm neg a b).1 * b = a := by exact_mod_cast h
    exact ⟨_, by rw [← this, Nat.mul_comm]⟩
  rw [← eq_div_iff (two_zpow_pos u).ne', div_two_zpow num den e u hd]
  unfold roundQuanta
  split
  · exact key _ _ hd
  · exact key _ _ (by rw [Nat.shiftLeft_eq]; positivity)

end Sys2Proof.Machine
end

section
/-! Rounding once to a format: `Fmt.roundMag` and `Fmt.round` against `Rounds` and `RoundsTo` (R36 to R38). -/

namespace Sys2Proof.Machine

/-- What a rounding to a format delivers: with q the magnitude X rounded in the unit 2 ^ u of its own binade, the tiny case rounds X again
in the unit of the subnormals, and any other has the code of q, or the largest finite one. -/
def Fmt.RoundsMag (f : Fmt) (rm : Nat) (neg : Bool) (X : ℝ) (r : Rounded) (u : ℤ) (q : Nat) : Prop :=
  RoundedTo rm (sgn neg * X / 2 ^ u) (sgnInt neg q) ∧
  ((q * (2 : ℝ) ^ u < 2 ^ f.emin ∧ X < 2 ^ f.emin ∧ RoundedTo rm (sgn neg * X / 2 ^ f.qmin) (sgnInt neg r.code) ∧ r.code ≤ 2 ^ f.fbits ∧
      r.overflow = false ∧ r.tiny = true ∧ (r.exact = true ↔ f.grid r.code = X)) ∨
    (2 ^ f.emin ≤ q * (2 : ℝ) ^ u ∧ r.tiny = false ∧ ∃ c, f.grid c = q * 2 ^ u ∧ r.code = min c f.maxCode ∧
      r.overflow = decide (f.maxCode < c) ∧ (r.exact = true ↔ f.grid c = X)))

/-- The delivered code of a value that is not tiny, of which c is the code where it fits. -/
theorem Fmt.normal_fits (f : Fmt) {X : ℝ} {qu c : Nat} {xu : Bool} {lead : ℤ} (hc : f.grid c = qu * 2 ^ (lead - f.fbits))
    (hx : xu = true ↔ (qu : ℝ) * 2 ^ (lead - f.fbits) = X) :
    let r : Rounded := if f.maxCode < c then ⟨f.maxCode, xu, true, false⟩ else ⟨c, xu, false, false⟩
    r.tiny = false ∧ ∃ c, f.grid c = qu * 2 ^ (lead - f.fbits) ∧ r.code = min c f.maxCode ∧
      r.overflow = decide (f.maxCode < c) ∧ (r.exact = true ↔ f.grid c = X) := by
  dsimp only
  split
  case isTrue h => exact ⟨rfl, c, hc, by simp [h.le], by simp [h], by rw [hc]; exact hx⟩
  case isFalse h => exact ⟨rfl, c, hc, by simp [not_lt.1 h], by simp [h], by rw [hc]; exact hx⟩
/-- A significand of a whole binade. -/
theorem quanta_ge {b qu : Nat} (lead : ℤ) (h : 2 ^ b ≤ qu) : (2 : ℝ) ^ lead ≤ qu * 2 ^ (lead - b) := by
  have : (2 : ℝ) ^ b ≤ qu := by exact_mod_cast h
  calc (2 : ℝ) ^ lead = 2 ^ b * 2 ^ (lead - b) := by rw [← zpow_natCast, ← two_zpow_add]; congr 1; ring
    _ ≤ _ := mul_le_mul_of_nonneg_right this (two_zpow_pos _).le

theorem Fmt.roundMag_spec (f : Fmt) {rm : Nat} (hrm : rm < 4) (neg : Bool) {num den : Nat} (hn : 0 < num) (hd : 0 < den) (e : ℤ) :
    let X : ℝ := num / den * 2 ^ e
    ∃ (u : ℤ) (q : Nat), (2 : ℝ) ^ (u + f.fbits) ≤ X ∧ X < 2 ^ (u + f.fbits + 1) ∧ f.RoundsMag rm neg X (f.roundMag rm neg num den e) u q := by
  intro X
  obtain ⟨l1, l2⟩ := leadExp_spec hn hd e
  have ed : leadExp num den e - f.fbits + f.fbits = leadExp num den e := by ring
  have hq := roundQuanta_roundedTo hrm neg num hd e (leadExp num den e - f.fbits)
  have hx := roundQuanta_exact (rm := rm) neg num hd e (leadExp num den e - f.fbits)
  have hm := roundQuanta_roundedTo hrm neg num hd e f.qmin
  have hmx := roundQuanta_exact (rm := rm) neg num hd e f.qmin
  refine ⟨leadExp num den e - f.fbits, (roundQuanta rm neg num den e (leadExp num den e - f.fbits)).1, by rw [ed]; exact l1,
    by rw [ed]; exact l2, hq, ?_⟩
  unfold Fmt.roundMag
  dsimp only
  generalize roundQuanta rm neg num den e (leadExp num den e - f.fbits) = r at *
  generalize roundQuanta rm neg num den e f.qmin = t at *
  generalize leadExp num den e = lead at *
  have hX : X = num / den * 2 ^ e := rfl
  rw [← hX] at hq hx hm hmx l1 l2
  generalize X = X at *
  obtain ⟨qu, xu⟩ := r
  obtain ⟨qt, xt⟩ := t
  dsimp only at *
  rw [mul_div_assoc] at hq hm
  -- the rounded significand has one bit more than the fraction, or is the end of its binade
  have s1 : 2 ^ f.fbits ≤ qu := (roundedTo_bounds hq).1 _ (by
    rw [le_div_iff₀ (two_zpow_pos _)]; push_cast; rw [← zpow_natCast, ← two_zpow_add, add_sub_cancel]; exact l1)
  have s2 : qu ≤ 2 ^ (f.fbits + 1) := (roundedTo_bounds hq).2 _ (by
    rw [div_le_iff₀ (two_zpow_pos _)]; push_cast; rw [← zpow_natCast, ← two_zpow_add]
    refine l2.le.trans (le_of_eq ?_); congr 1; push_cast; ring)
  have value : ∀ b q : Nat, (b : ℤ) = lead - f.emin → (q : ℝ) * 2 ^ (f.qmin + b) = q * 2 ^ (lead - f.fbits) := fun b q hb => by
    rw [hb, ← f.qmin_add]; congr 2; ring
  have hemin : (1 - (f.bias : ℤ)) = f.emin := rfl
  rw [hemin, mul_div_assoc]
  have fit := fun c hc => f.normal_fits (lead := lead) (c := c) hc hx
  have tiny : ∀ l : ℤ, lead ≤ l → l < f.emin → X < 2 ^ f.emin ∧ qt ≤ 2 ^ f.fbits := fun l hl hlt => by
    have hX : X < 2 ^ f.emin := l2.trans_le (two_zpow_le.2 (by omega))
    refine ⟨hX, (roundedTo_bounds hm).2 _ ?_⟩
    rw [div_le_iff₀ (two_zpow_pos _)]
    push_cast
    rw [← zpow_natCast, ← two_zpow_add, add_comm, f.qmin_add]
    exact hX.le
  have quant := quanta_ge lead s1
  by_cases hend : qu = 2 ^ (f.fbits + 1)
  · have e2 : (qu : ℝ) * 2 ^ (lead - f.fbits) = 2 ^ (lead + 1) := by
      rw [hend]; push_cast; rw [← zpow_natCast, ← two_zpow_add]; congr 1; push_cast; ring
    simp only [hend, if_true]
    rw [← hend]
    by_cases hlt : lead + 1 < f.emin
    · obtain ⟨hX, hqt⟩ := tiny (lead + 1) (by omega) hlt
      rw [if_pos hlt]
      exact .inl ⟨by rw [e2]; exact two_zpow_lt.2 hlt, hX, hm, hqt, rfl, rfl, by rw [f.grid_low hqt]; exact hmx⟩
    · rw [if_neg hlt]
      refine .inr ⟨by rw [e2]; exact two_zpow_le.2 (by omega), ?_⟩
      refine fit _ ?_
      have hb : (((lead + 1 - f.emin).toNat : Nat) : ℤ) = lead + 1 - f.emin := Int.toNat_of_nonneg (by omega)
      have hg := f.grid_normal (lead + 1 - f.emin).toNat (2 ^ f.fbits) le_rfl (Nat.pow_le_pow_right (by norm_num) (by omega))
      rw [Nat.sub_self, Nat.add_zero, Nat.add_mul, one_mul, hg, e2, hb, ← f.qmin_add]
      push_cast
      rw [← zpow_natCast, ← two_zpow_add]
      congr 1
      ring
  · simp only [hend, if_false]
    by_cases hlt : lead < f.emin
    · obtain ⟨hX, hqt⟩ := tiny lead le_rfl hlt
      rw [if_pos hlt]
      refine .inl ⟨?_, hX, hm, hqt, rfl, rfl, by rw [f.grid_low hqt]; exact hmx⟩
      have : (qu : ℝ) < 2 ^ (f.fbits + 1) := by exact_mod_cast lt_of_le_of_ne s2 hend
      calc (qu : ℝ) * 2 ^ (lead - f.fbits) < 2 ^ (f.fbits + 1) * 2 ^ (lead - f.fbits) := mul_lt_mul_of_pos_right this (two_zpow_pos _)
        _ = 2 ^ (lead + 1) := by rw [← zpow_natCast, ← two_zpow_add]; congr 1; push_cast; ring
        _ ≤ 2 ^ f.emin := two_zpow_le.2 (by omega)
    · rw [if_neg hlt]
      refine .inr ⟨(two_zpow_le.2 (by omega)).trans quant, ?_⟩
      refine fit _ ?_
      have hb : (((lead - f.emin).toNat : Nat) : ℤ) = lead - f.emin := Int.toNat_of_nonneg (by omega)
      have hc : ((lead - f.emin).toNat + 1) * 2 ^ f.fbits + (qu - 2 ^ f.fbits) = (lead - f.emin).toNat * 2 ^ f.fbits + qu := by
        rw [Nat.add_mul, one_mul]; omega
      rw [hc, f.grid_normal _ _ s1 s2, value _ _ hb]

/-- The two binades of `Rounds` and of a rounding are one. -/
theorem binade_unique {X : ℝ} {a b : ℤ} (a1 : (2 : ℝ) ^ a ≤ X) (a2 : X < 2 ^ (a + 1)) (b1 : (2 : ℝ) ^ b ≤ X) (b2 : X < 2 ^ (b + 1)) : a = b := by
  have h1 := two_zpow_lt.1 (a1.trans_lt b2)
  have h2 := two_zpow_lt.1 (b1.trans_lt a2)
  omega

/-- The code of a rounding is finite. -/
theorem Fmt.roundMag_code_le {f : Fmt} (hg : f.Good) {rm : Nat} (hrm : rm < 4) (neg : Bool) {num den : Nat} (hn : 0 < num) (hd : 0 < den)
    (e : ℤ) : (f.roundMag rm neg num den e).code ≤ f.maxCode := by
  obtain ⟨u, q, -, -, -, h | h⟩ := f.roundMag_spec hrm neg hn hd e
  · exact h.2.2.2.1.trans (smallest_le_maxCode hg)
  · obtain ⟨-, -, c, -, hc, -⟩ := h
    rw [hc]; exact min_le_right _ _
/-- A rounding that does not overflow is exact just where its code is the number. -/
theorem Fmt.roundMag_exact (f : Fmt) {rm : Nat} (hrm : rm < 4) (neg : Bool) {num den : Nat} (hn : 0 < num) (hd : 0 < den) (e : ℤ)
    (ho : (f.roundMag rm neg num den e).overflow = false) :
    (f.roundMag rm neg num den e).exact = true ↔ f.grid (f.roundMag rm neg num den e).code = num / den * 2 ^ e := by
  obtain ⟨u, q, -, -, -, h | h⟩ := f.roundMag_spec hrm neg hn hd e
  · exact h.2.2.2.2.2.2
  · obtain ⟨-, -, c, -, hc, hov, hx⟩ := h
    rw [ho] at hov
    rw [hx, hc, min_eq_left (not_lt.1 (of_decide_eq_false hov.symm))]

/-- `Fmt.roundMag` rounds once: what is said of an overflow, and of the code where there is none, is said of the number rounded. -/
theorem Fmt.roundMag_rounds {f : Fmt} (hg : f.Good) {rm : Nat} (hrm : rm < 4) (neg : Bool) {num den : Nat} (hn : 0 < num) (hd : 0 < den)
    (e : ℤ) {x : ℝ} (hx : x = sgn neg * (num / den * 2 ^ e)) {above : Prop} {fits : ℝ → Prop → Prop}
    (ho : (f.roundMag rm neg num den e).overflow = true → above)
    (hf : (f.roundMag rm neg num den e).overflow = false → ∀ p : Prop, (p ↔ (f.roundMag rm neg num den e).tiny = true) →
      fits (sgn neg * f.grid (f.roundMag rm neg num den e).code) p) : Rounds f rm x above fits := by
  intro u z h1 h2 hz
  obtain ⟨v, q, q1, q2, hq, hr⟩ := f.roundMag_spec hrm neg hn hd e
  have hX : (0 : ℝ) ≤ num / den * 2 ^ e := (two_zpow_pos _).le.trans q1
  rw [hx, abs_sgn_mul _ hX] at h1 h2
  obtain rfl : u = v := by have := binade_unique h1 h2 q1 q2; omega
  obtain rfl : z = sgnInt neg q := roundedTo_unique (hx ▸ hz) hq
  have hy : (sgnInt neg q : ℝ) * 2 ^ u = sgn neg * (q * 2 ^ u) := by rw [cast_sgnInt, mul_assoc]
  have hya : |(sgnInt neg q : ℝ) * 2 ^ u| = q * 2 ^ u := by
    rw [hy]; exact abs_sgn_mul _ (mul_nonneg (Nat.cast_nonneg _) (two_zpow_pos _).le)
  have hemin : (1 - (f.bias : ℤ)) = f.emin := rfl
  intro y big
  show (big < |y| → above) ∧ (|y| < (2 : ℝ) ^ (1 - (f.bias : ℤ)) → _) ∧ (|y| ≤ big → (2 : ℝ) ^ (1 - (f.bias : ℤ)) ≤ |y| → fits y False)
  rw [hya, hemin, show big = f.grid f.maxCode from ratOf_maxCode hg]
  have hsm : (2 : ℝ) ^ f.emin ≤ f.grid f.maxCode := by
    rw [← f.grid_smallest]; exact f.grid_strictMono.monotone (smallest_le_maxCode hg)
  rcases hr with ⟨hlt, -, hm, hcode, hov, ht, -⟩ | ⟨hge, ht, c, hc, hcode, hov, -⟩
  · refine ⟨fun h => absurd hlt (by linarith), fun _ k hk => ?_, fun _ h => absurd hlt (by linarith)⟩
    obtain rfl : k = sgnInt neg _ := roundedTo_unique (hx ▸ hk) hm
    rw [cast_sgnInt, mul_assoc, ← f.grid_low hcode]
    exact hf hov True (by simp [ht])
  · refine ⟨fun h => ho ?_, fun h => absurd h (by linarith), fun h _ => ?_⟩
    · rw [hov, decide_eq_true_eq]
      rw [← hc] at h
      exact f.grid_strictMono.lt_iff_lt.1 h
    · rw [← hc] at h
      have hle : c ≤ f.maxCode := f.grid_strictMono.le_iff_le.1 h
      have := hf (by rw [hov]; simpa using hle) False (by simp [ht])
      rw [hcode, min_eq_left hle, hc] at this
      rw [show y = _ from hy]
      exact this

/-! ### Rounding under IEEE rules -/

theorem Fmt.decode_inf {f : Fmt} (hk : f.kind = 0) (neg : Bool) : f.decode (f.inf neg) = .inf neg := by
  have he := Nat.two_pow_pos f.ebits
  have hc : (2 ^ f.ebits - 1) * 2 ^ f.fbits < 2 ^ (f.ebits + f.fbits) := by
    rw [pow_add]; exact Nat.mul_lt_mul_of_pos_right (by omega) (Nat.two_pow_pos _)
  have hi : f.inf neg = f.signBit neg + (2 ^ f.ebits - 1) * 2 ^ f.fbits := rfl
  obtain ⟨h1, h2⟩ := f.fields_sign neg hc
  rw [hi]
  unfold Fmt.decode
  simp only [h1, h2, f.testBit_sign neg hc, hk, Nat.mul_div_cancel _ (Nat.two_pow_pos f.fbits), Nat.mul_mod_left, and_self, if_true]

/-- A number that is not 0, rounded by `Fmt.round`, is that number rounded once, with its flags (R36 to R38). -/
theorem Fmt.round_roundsTo {f : Fmt} (hg : f.Good) (hk : f.kind = 0) {rm : Nat} (hrm : rm < 4) (neg : Bool) {num den : Nat} (hn : 0 < num)
    (hd : 0 < den) (e : ℤ) {x : ℝ} (hx : x = sgn neg * (num / den * 2 ^ e)) : RoundsTo f rm x (f.round rm neg num den e) := by
  intro n hneg
  have hX : (0 : ℝ) < num / den * 2 ^ e := by
    have : (0 : ℝ) < num := by exact_mod_cast hn
    have : (0 : ℝ) < den := by exact_mod_cast hd
    have := two_zpow_pos e
    positivity
  obtain rfl : n = neg := by
    have := hneg.trans ((by rw [hx]) : _ ↔ _) |>.trans (sgn_mul_neg (n := neg) hX).symm
    cases n <;> cases neg <;> simp_all
  have hle := roundMag_code_le hg hrm n hn hd e
  have hex := f.roundMag_exact hrm n hn hd e
  have hr : f.round rm n num den e = if (f.roundMag rm n num den e).overflow then
      (if (rm == 0 || (rm == 2 && !n) || (rm == 3 && n)) = true then f.inf n else f.signBit n + f.maxCode, 5)
    else (f.signBit n + (f.roundMag rm n num den e).code,
      if (f.roundMag rm n num den e).exact then 0 else if (f.roundMag rm n num den e).tiny then 3 else 1) := by
    rw [Fmt.round, if_neg hn.ne']
  refine roundMag_rounds hg hrm n hn hd e hx (fun ho => ?_) (fun ho p hp => ?_)
  · rw [hr, ho, if_pos rfl]
    refine ⟨rfl, ?_⟩
    have hc : (rm == 0 || (rm == 2 && !n) || (rm == 3 && n)) = true ↔ rm = 0 ∨ (rm = 2 ∧ n = false) ∨ (rm = 3 ∧ n = true) := by
      simp [or_assoc]
    by_cases h : rm = 0 ∨ (rm = 2 ∧ n = false) ∨ (rm = 3 ∧ n = true)
    · rw [if_pos h, if_pos (hc.2 h)]; exact decode_inf hk n
    · rw [if_neg h, if_neg (mt hc.1 h)]
      have := finIs_code hg n (le_refl f.maxCode)
      rw [ratOf_maxCode hg]
      cases n <;> simpa using this
  · rw [hr, ho]
    simp only [Bool.false_eq_true, if_false]
    refine ⟨finIs_code hg n hle, fun h => ?_, fun h => ?_⟩
    · rw [hx, sgn_mul_inj] at h
      rw [if_pos ((hex ho).2 h)]
    · rw [hx, Ne, sgn_mul_inj] at h
      rw [if_neg (mt (hex ho).1 h)]
      exact ⟨fun t => by rw [if_pos (hp.1 t)], fun t => by rw [if_neg (mt hp.2 t)]⟩

theorem good_fp64 : fp64.Good := ⟨by decide, by decide⟩
theorem good_fp32 : fp32.Good := ⟨by decide, by decide⟩
theorem good_fp16 : fp16.Good := ⟨by decide, by decide⟩
theorem good_bf16 : bf16.Good := ⟨by decide, by decide⟩
theorem good_e5m2 : e5m2.Good := ⟨by decide, by decide⟩
theorem good_e4m3 : e4m3.Good := ⟨by decide, by decide⟩
theorem good_e2m1 : e2m1.Good := ⟨by decide, by decide⟩

/-- The four IEEE formats of registers. -/
theorem ieee_good {f : Fmt} (h : f ∈ [fp16, bf16, fp32, fp64]) : f.Good ∧ f.kind = 0 := by
  simp only [List.mem_cons, List.not_mem_nil, or_false] at h
  rcases h with rfl | rfl | rfl | rfl
  · exact ⟨good_fp16, rfl⟩
  · exact ⟨good_bf16, rfl⟩
  · exact ⟨good_fp32, rfl⟩
  · exact ⟨good_fp64, rfl⟩

end Sys2Proof.Machine
end

section
/-! The operations on finite values round their exact results once (R36 to R38, R40), and rounding what a format holds changes nothing. -/

namespace Sys2Proof.Machine

/-! ### Numbers that a format holds -/

/-- A multiple of 2 ^ u rounds to itself in that unit. -/
theorem roundedTo_multiple {rm : Nat} {neg : Bool} {m : Nat} {e u : ℤ} (h : u ≤ e) {q : Nat}
    (hq : RoundedTo rm (sgn neg * (m * (2 : ℝ) ^ e) / 2 ^ u) (sgnInt neg q)) : (q : ℝ) * 2 ^ u = m * 2 ^ e := by
  have hi : sgn neg * (m * (2 : ℝ) ^ e) / 2 ^ u = (sgnInt neg (m * 2 ^ (e - u).toNat) : ℤ) := by
    rw [cast_sgnInt]
    push_cast
    rw [← zpow_natCast, Int.toNat_of_nonneg (by omega), two_zpow_sub]
    ring
  rw [hi] at hq
  have hz := roundedTo_unique hq (roundedTo_int rm _)
  have hc := congrArg (Int.cast (R := ℝ)) hz
  rw [cast_sgnInt, ← hi, mul_div_assoc, sgn_mul_inj] at hc
  rw [hc, div_mul_cancel₀ _ (two_zpow_pos u).ne']

/-- A magnitude of no more bits than a significand, at or above the unit of the subnormals and not above the largest finite one, is the
magnitude of its code. -/
theorem Fmt.roundMag_representable {f : Fmt} {rm : Nat} (hrm : rm < 4) (neg : Bool) {m : Nat} (hm : 0 < m)
    (hb : m < 2 ^ (f.fbits + 1)) {e : ℤ} (he : f.qmin ≤ e) (hmax : (m : ℝ) * 2 ^ e ≤ f.grid f.maxCode) :
    (f.roundMag rm neg m 1 e).overflow = false ∧ (f.roundMag rm neg m 1 e).exact = true ∧ f.grid (f.roundMag rm neg m 1 e).code = m * 2 ^ e := by
  have hX : ((m : ℝ) / (1 : ℕ) * 2 ^ e) = m * 2 ^ e := by simp
  have hex := f.roundMag_exact hrm neg hm one_pos e
  obtain ⟨u, q, h1, h2, hq, h⟩ := f.roundMag_spec hrm neg hm one_pos e
  rw [hX] at h1 h2 hq h hex
  have hu : u ≤ e := by
    have : (m : ℝ) < 2 ^ ((f.fbits : ℤ) + 1) := by
      have : (m : ℝ) < 2 ^ (f.fbits + 1) := by exact_mod_cast hb
      rwa [← zpow_natCast] at this
    have := two_zpow_lt.1 (h1.trans_lt ((mul_lt_mul_of_pos_right this (two_zpow_pos e)).trans_eq (two_zpow_add _ _).symm))
    omega
  have hqu := roundedTo_multiple hu hq
  have ho : (f.roundMag rm neg m 1 e).overflow = false := by
    rcases h with h | ⟨-, -, c, hc, -, hov, -⟩
    · exact h.2.2.2.2.1
    · rw [hqu] at hc
      rw [← hc] at hmax
      rw [hov]
      simpa using f.grid_strictMono.le_iff_le.1 hmax
  have hg : f.grid (f.roundMag rm neg m 1 e).code = m * 2 ^ e := by
    rcases h with ⟨-, -, hr, hle, -⟩ | ⟨-, -, c, hc, hcode, hov, -⟩
    · rw [f.grid_low hle]; exact roundedTo_multiple he hr
    · rw [ho] at hov
      rw [hcode, min_eq_left (not_lt.1 (of_decide_eq_false hov.symm)), hc, hqu]
  exact ⟨ho, (hex ho).2 hg, hg⟩

/-! ### Sums and products -/

/-- The value of a finite operand in the unit 2 ^ e of a sum. -/
theorem shifted_value (n : Bool) (m : Nat) {e k : ℤ} (h : e ≤ k) :
    (((if n then -1 else 1) * (m <<< (k - e).toNat : Nat) : ℤ) : ℝ) * 2 ^ e = sgn n * (m * 2 ^ k) := by
  have : (((if n then -1 else 1) * (m <<< (k - e).toNat : Nat) : ℤ) : ℝ) = sgn n * (m * 2 ^ (k - e)) := by
    rw [Nat.shiftLeft_eq, show (2 : ℝ) ^ (k - e) = 2 ^ (k - e).toNat by rw [← zpow_natCast, Int.toNat_of_nonneg (by omega)]]
    cases n <;> simp
  rw [this, mul_assoc, mul_assoc, ← two_zpow_add, sub_add_cancel]

/-- The exact sum of two finite values; its magnitude is 0 just where the sum is. -/
theorem addExact_value (rm : Nat) (n1 : Bool) (m1 : Nat) (e1 : ℤ) (n2 : Bool) (m2 : Nat) (e2 : ℤ) :
    let r := addExact rm n1 m1 e1 n2 m2 e2
    sgn r.1 * (r.2.1 * (2 : ℝ) ^ r.2.2) = sgn n1 * (m1 * 2 ^ e1) + sgn n2 * (m2 * 2 ^ e2) := by
  have h1 := shifted_value n1 m1 (min_le_left e1 e2)
  have h2 := shifted_value n2 m2 (min_le_right e1 e2)
  intro r
  have hr : r = addExact rm n1 m1 e1 n2 m2 e2 := rfl
  unfold addExact at hr
  dsimp only at hr
  rw [← h1, ← h2, ← add_mul, ← Int.cast_add]
  generalize ((if n1 = true then (-1 : ℤ) else 1) * _ + _ : ℤ) = t at hr ⊢
  by_cases ht : t = 0
  · rw [if_pos ht] at hr
    simp [hr, ht]
  · rw [if_neg ht] at hr
    rw [hr]
    have hs : sgn (decide (t < 0)) * (t.natAbs : ℝ) = t := by
      rw [Nat.cast_natAbs, Int.cast_abs]
      rcases lt_or_gt_of_ne ht with h | h
      · have : (t : ℝ) < 0 := by exact_mod_cast h
        simp [h, abs_of_neg this]
      · have : (0 : ℝ) < t := by exact_mod_cast h
        simp [not_lt.2 h.le, abs_of_pos this]
    dsimp only
    rw [← mul_assoc, hs]

/-- A finite value that is not 0 has a magnitude that is not 0. -/
theorem mag_pos {n : Bool} {m : Nat} {e : ℤ} {x : ℝ} (h : x = sgn n * (m * 2 ^ e)) (hx : x ≠ 0) : 0 < m := by
  rcases Nat.eq_zero_or_pos m with rfl | h0
  · simp [h] at hx
  · exact h0

/-- `Fmt.round` of a value that is not 0 rounds it once. -/
theorem Fmt.round_value {f : Fmt} (hg : f.Good) (hk : f.kind = 0) {rm : Nat} (hrm : rm < 4) {n : Bool} {m : Nat} {e : ℤ} {x : ℝ}
    (h : sgn n * (m * 2 ^ e) = x) (hx : x ≠ 0) : RoundsTo f rm x (f.round rm n m 1 e) :=
  round_roundsTo hg hk hrm n (mag_pos h.symm hx) one_pos e (by rw [← h]; simp)

/-- The sum of finite values is the rounding of their exact sum. -/
theorem Fmt.add_fin (f : Fmt) (rm : Nat) (n1 n2 : Bool) (m1 m2 : Nat) (e1 e2 : ℤ) :
    f.add rm (.fin n1 m1 e1) (.fin n2 m2 e2) =
      f.round rm (addExact rm n1 m1 e1 n2 m2 e2).1 (addExact rm n1 m1 e1 n2 m2 e2).2.1 1 (addExact rm n1 m1 e1 n2 m2 e2).2.2 := rfl
/-- The fused operation on finite values is the rounding of its exact result. -/
theorem Fmt.fma_fin (f : Fmt) (rm : Nat) (n1 n2 n3 : Bool) (m1 m2 m3 : Nat) (e1 e2 e3 : ℤ) :
    f.fma rm (.fin n1 m1 e1) (.fin n2 m2 e2) (.fin n3 m3 e3) =
      f.round rm (addExact rm (n1 != n2) (m1 * m2) (e1 + e2) n3 m3 e3).1 (addExact rm (n1 != n2) (m1 * m2) (e1 + e2) n3 m3 e3).2.1 1
        (addExact rm (n1 != n2) (m1 * m2) (e1 + e2) n3 m3 e3).2.2 := by
  simp [Fmt.fma, anyNan, Val.mul]

/-! ### Square roots -/

/-- The bits of the integer square root that are still to be found. -/
theorem isqrtBits_spec (n : Nat) : ∀ (k r : Nat), r * r ≤ n → n < (r + 2 ^ k) * (r + 2 ^ k) →
    isqrtBits n k r * isqrtBits n k r ≤ n ∧ n < (isqrtBits n k r + 1) * (isqrtBits n k r + 1) := by
  intro k
  induction k with
  | zero => exact fun r h1 h2 => ⟨h1, by rwa [pow_zero] at h2⟩
  | succ k ih =>
    intro r h1 h2
    unfold isqrtBits
    split
    · rename_i h
      refine ih _ h ?_
      rwa [pow_succ, show r + 2 ^ k * 2 = r + 2 ^ k + 2 ^ k by ring] at h2
    · rename_i h
      exact ih _ h1 (not_le.1 h)
theorem isqrt_eq (n : Nat) : isqrt n = Nat.sqrt n := by
  have h : n < 2 ^ (bitLen n / 2 + 1) * 2 ^ (bitLen n / 2 + 1) := by
    rw [← pow_add]
    exact (lt_two_pow_bitLen n).trans_le (Nat.pow_le_pow_right (by norm_num) (by omega))
  obtain ⟨h1, h2⟩ := isqrtBits_spec n (bitLen n / 2 + 1) 0 (by simp) (by simpa using h)
  exact Nat.eq_sqrt.2 ⟨h1, h2⟩

/-- Two numbers lie alike among the multiples of 2 ^ j. -/
def SameCell (j : ℤ) (x y : ℝ) : Prop := ∀ t : ℤ, (x < t * 2 ^ j ↔ y < t * 2 ^ j) ∧ (t * 2 ^ j < x ↔ t * 2 ^ j < y)

/-- Numbers between the same neighbours lie alike. -/
theorem sameCell_of_between {j : ℤ} {x y : ℝ} (t : ℤ) (hx : t * 2 ^ j < x ∧ x < (t + 1) * 2 ^ j) (hy : t * 2 ^ j < y ∧ y < (t + 1) * 2 ^ j) :
    SameCell j x y := by
  have side : ∀ z : ℝ, t * 2 ^ j < z ∧ z < (t + 1) * 2 ^ j → ∀ i : ℤ, (z < i * 2 ^ j ↔ t < i) ∧ (i * 2 ^ j < z ↔ i ≤ t) := by
    rintro z ⟨h1, h2⟩ i
    have hp := two_zpow_pos j
    constructor <;> constructor
    · intro h
      have : (t : ℝ) < i := lt_of_mul_lt_mul_right (h1.trans h) hp.le
      exact_mod_cast this
    · intro h
      have : (t : ℝ) + 1 ≤ i := by exact_mod_cast h
      exact h2.trans_le (mul_le_mul_of_nonneg_right this hp.le)
    · intro h
      have : (i : ℝ) < t + 1 := lt_of_mul_lt_mul_right (h.trans h2) hp.le
      have : i < t + 1 := by exact_mod_cast this
      omega
    · intro h
      have : (i : ℝ) ≤ t := by exact_mod_cast h
      exact (mul_le_mul_of_nonneg_right this hp.le).trans_lt h1
  exact fun i => ⟨(side x hx i).1.trans (side y hy i).1.symm, (side x hx i).2.trans (side y hy i).2.symm⟩

/-- Numbers that lie alike among finer multiples do so among coarser ones, in that unit. -/
theorem SameCell.div {j v : ℤ} {x y : ℝ} (h : SameCell j x y) (hv : j ≤ v) (t : ℤ) : (x / 2 ^ v < t ↔ y / 2 ^ v < t) ∧ (t < x / 2 ^ v ↔ t < y / 2 ^ v) := by
  have hp := two_zpow_pos v
  have e : (t : ℝ) * 2 ^ v = ((t * 2 ^ (v - j).toNat : ℤ) : ℝ) * 2 ^ j := by
    push_cast
    rw [← zpow_natCast, Int.toNat_of_nonneg (by omega), mul_assoc, ← two_zpow_add, sub_add_cancel]
  rw [div_lt_iff₀ hp, div_lt_iff₀ hp, lt_div_iff₀ hp, lt_div_iff₀ hp, e]
  exact h _

/-- They lie alike among the halves too, one unit further. -/
theorem SameCell.half {j v : ℤ} {x y : ℝ} (h : SameCell j x y) (hv : j + 1 ≤ v) (t : ℤ) :
    (x / 2 ^ v < t / 2 ↔ y / 2 ^ v < t / 2) ∧ (t / 2 < x / 2 ^ v ↔ t / 2 < y / 2 ^ v) := by
  obtain ⟨h1, h2⟩ := h.div (v := v - 1) (by omega) t
  have e : ∀ z : ℝ, z / 2 ^ (v - 1) = z / 2 ^ v * 2 := fun z => by rw [two_zpow_sub, zpow_one]; field_simp
  rw [e, e] at h1 h2
  rw [lt_div_iff₀ two_pos, lt_div_iff₀ two_pos, div_lt_iff₀ two_pos, div_lt_iff₀ two_pos]
  exact ⟨h1, h2⟩

/-- Positive numbers that lie alike among multiples of half a unit, or finer, round alike. -/
theorem SameCell.roundedTo {j v : ℤ} {x y : ℝ} (h : SameCell j x y) (hv : j + 1 ≤ v) (hx : 0 < x) (hy : 0 < y) {rm : Nat} {z : ℤ}
    (hz : RoundedTo rm (x / 2 ^ v) z) : RoundedTo rm (y / 2 ^ v) z := by
  have hi := fun t => h.div (v := v) (by omega) t
  have hh := fun t => h.half hv t
  have hx' : 0 < x / 2 ^ v := div_pos hx (two_zpow_pos v)
  have hy' : 0 < y / 2 ^ v := div_pos hy (two_zpow_pos v)
  generalize x / 2 ^ v = a at *
  generalize y / 2 ^ v = b at *
  have lt := fun t => (hi t).1
  have gt := fun t => (hi t).2
  have le : ∀ t : ℤ, a ≤ t ↔ b ≤ t := fun t => by rw [← not_lt, ← not_lt, gt]
  have ge : ∀ t : ℤ, (t : ℝ) ≤ a ↔ (t : ℝ) ≤ b := fun t => by rw [← not_lt, ← not_lt, lt]
  unfold RoundedTo at hz ⊢
  split at hz
  · obtain ⟨h1, h2⟩ := hz
    rw [abs_le] at h1
    have hle : ∀ t : ℤ, a ≤ t / 2 ↔ b ≤ t / 2 := fun t => by rw [← not_lt, ← not_lt, (hh t).2]
    have hge : ∀ t : ℤ, (t : ℝ) / 2 ≤ a ↔ (t : ℝ) / 2 ≤ b := fun t => by rw [← not_lt, ← not_lt, (hh t).1]
    have up := hle (2 * z + 1)
    have dn := hge (2 * z - 1)
    push_cast at up dn
    have hb1 : b ≤ (2 * z + 1) / 2 := up.1 (by linarith)
    have hb2 : (2 * z - 1) / 2 ≤ b := dn.1 (by linarith)
    refine ⟨by rw [abs_le]; constructor <;> linarith, fun he => h2 ?_⟩
    rcases (abs_eq (by norm_num)).1 he with he | he
    · have up' := hge (2 * z + 1)
      push_cast at up'
      have := up'.2 (by linarith)
      rw [show a - z = 1 / 2 by linarith]; norm_num
    · have dn' := hle (2 * z - 1)
      push_cast at dn'
      have := dn'.2 (by linarith)
      rw [show a - z = -(1 / 2) by linarith]; norm_num
  · obtain ⟨h1, h2, h3⟩ := hz
    have hz0 : 0 ≤ (z : ℝ) := nonneg_of_mul_nonneg_right h3 hx'
    rw [abs_of_pos hx', abs_of_nonneg hz0] at h1 h2
    have l := lt (z + 1)
    push_cast at l
    rw [abs_of_pos hy', abs_of_nonneg hz0]
    exact ⟨(ge z).1 h1, l.1 h2, by positivity⟩
  · have l := gt (z - 1)
    push_cast at l
    exact ⟨(le z).1 hz.1, by linarith [l.1 (by linarith [hz.2])]⟩
  · have l := lt (z + 1)
    push_cast at l
    exact ⟨(ge z).1 hz.1, l.1 hz.2⟩

theorem SameCell.symm {j : ℤ} {x y : ℝ} (h : SameCell j x y) : SameCell j y x := fun t => ⟨(h t).1.symm, (h t).2.symm⟩

/-- A multiple of the unit is the one number just where it is the other. -/
theorem SameCell.eq_iff {j v : ℤ} {x y : ℝ} (h : SameCell j x y) (hv : j ≤ v) (z : ℤ) : z * (2 : ℝ) ^ v = x ↔ z * (2 : ℝ) ^ v = y := by
  have hp := two_zpow_pos v
  obtain ⟨h1, h2⟩ := h.div hv z
  rw [← eq_div_iff hp.ne', ← eq_div_iff hp.ne']
  constructor
  · intro e; exact le_antisymm (not_lt.1 (h1.not.1 (by rw [e]; exact lt_irrefl _))) (not_lt.1 (h2.not.1 (by rw [e]; exact lt_irrefl _)))
  · intro e; exact le_antisymm (not_lt.1 (h1.not.2 (by rw [e]; exact lt_irrefl _))) (not_lt.1 (h2.not.2 (by rw [e]; exact lt_irrefl _)))

/-- What rounds once a number also rounds once another that lies alike among multiples far below the last bit. -/
theorem SameCell.roundsTo {f : Fmt} {rm : Nat} {j : ℤ} {x y : ℝ} {r : Nat × Flags} (h : SameCell j x y) (hx : 0 < x) (hy : 0 < y)
    (hj : (2 : ℝ) ^ (j + 1 + f.fbits) ≤ x) (hr : RoundsTo f rm x r) : RoundsTo f rm y r := by
  intro neg hneg u z h1 h2 hz
  rw [abs_of_pos hy] at h1 h2
  -- both lie in the same binade
  have pow : ∀ k : ℤ, j ≤ k → ((2 : ℝ) ^ k ≤ x ↔ (2 : ℝ) ^ k ≤ y) := fun k hk => by
    have := (h.div hk 1).1
    rw [Int.cast_one, div_lt_one (two_zpow_pos k), div_lt_one (two_zpow_pos k)] at this
    rw [← not_lt, ← not_lt, this]
  have hju : j + 1 ≤ u := by
    have := two_zpow_lt.1 (((pow (j + 1 + f.fbits) (by omega)).1 hj).trans_lt h2)
    omega
  have x1 := (pow (u + f.fbits) (by omega)).2 h1
  have x2 := not_le.1 (mt (pow (u + f.fbits + 1) (by omega)).1 (not_le.2 h2))
  have hyx := hr neg (hneg.trans (iff_of_false (not_lt.2 hy.le) (not_lt.2 hx.le))) u z (by rwa [abs_of_pos hx]) (by rwa [abs_of_pos hx]) (h.symm.roundedTo hju hy hx hz)
  obtain ⟨a, b, c⟩ := hyx
  refine ⟨a, fun hlt k hk => ?_, fun g1 g2 => ?_⟩
  · -- a tiny number is rounded in a coarser unit
    have hq : u ≤ f.qmin := by
      have hz1 : (2 : ℝ) ^ f.fbits ≤ z := by
        have hy1 : (2 : ℝ) ^ f.fbits ≤ y / 2 ^ u := by
          rw [le_div_iff₀ (two_zpow_pos u), ← zpow_natCast, ← two_zpow_add, add_comm]; exact h1
        have := roundedTo_abs_lt hz
        rw [abs_lt] at this
        have h' : ((2 ^ f.fbits : ℤ) : ℝ) < z + 1 := by push_cast; linarith
        have : (2 ^ f.fbits : ℤ) < z + 1 := by exact_mod_cast h'
        have : (2 ^ f.fbits : ℤ) ≤ z := by omega
        exact_mod_cast this
      have hlt' : (2 : ℝ) ^ (u + f.fbits) < 2 ^ f.emin := by
        refine lt_of_le_of_lt ?_ hlt
        rw [abs_of_nonneg (mul_nonneg ((by positivity : (0 : ℝ) ≤ 2 ^ f.fbits).trans hz1) (two_zpow_pos u).le), two_zpow_add, mul_comm,
          zpow_natCast]
        exact mul_le_mul_of_nonneg_right hz1 (two_zpow_pos u).le
      have := two_zpow_lt.1 hlt'
      rw [← f.qmin_add] at this
      omega
    obtain ⟨t1, t2, t3⟩ := b hlt k (h.symm.roundedTo (hju.trans hq) hy hx hk)
    have e := h.eq_iff (v := f.qmin) (by omega) k
    exact ⟨t1, fun g => t2 (e.2 g), fun g => t3 (mt e.1 g)⟩
  · obtain ⟨t1, t2, t3⟩ := c g1 g2
    have e := h.eq_iff (v := u) (by omega) z
    exact ⟨t1, fun g => t2 (e.2 g), fun g => t3 (mt e.1 g)⟩

/-- The sticky root: where it is not the root itself, it lies with it between the same multiples of its unit. -/
theorem rootSticky_spec (num den k : Nat) (hd : 0 < den) :
    let R := Real.sqrt ((num : ℝ) / den) * 2 ^ k
    ∃ r : Nat, (r : ℝ) ≤ R ∧ R < r + 1 ∧
      ((R = r ∧ rootSticky num den k = 2 * r) ∨ ((r : ℝ) < R ∧ rootSticky num den k = 2 * r + 1)) := by
  intro R
  have hD : (0 : ℝ) < den := by exact_mod_cast hd
  have hR : 0 ≤ R := by positivity
  have hR2 : R * R = ((num <<< (2 * k) : Nat) : ℝ) / den := by
    rw [mul_mul_mul_comm, Real.mul_self_sqrt (by positivity), ← pow_add, Nat.shiftLeft_eq, ← two_mul]
    push_cast
    ring
  have hs : isqrt (num <<< (2 * k) / den) * isqrt (num <<< (2 * k) / den) ≤ num <<< (2 * k) / den ∧
      num <<< (2 * k) / den < (isqrt (num <<< (2 * k) / den) + 1) * (isqrt (num <<< (2 * k) / den) + 1) := by
    rw [isqrt_eq]; exact ⟨Nat.sqrt_le _, Nat.lt_succ_sqrt _⟩
  unfold rootSticky
  dsimp only
  generalize num <<< (2 * k) = a at *
  generalize isqrt (a / den) = r at *
  have hdm := Nat.div_add_mod a den
  have hlt := Nat.mod_lt a hd
  obtain ⟨s1, s2⟩ := hs
  have lo : (r : ℝ) ≤ R := abs_le_of_sq_le_sq' (by
    rw [sq, sq, hR2, le_div_iff₀ hD]
    exact_mod_cast (Nat.mul_le_mul_right den s1).trans (Nat.div_mul_le_self a den)) hR |>.2
  have hi : R < r + 1 := lt_of_pow_lt_pow_left₀ 2 (by positivity) (by
    rw [sq, sq, hR2, div_lt_iff₀ hD]
    have : a < (r + 1) * (r + 1) * den := by
      calc a < den * (a / den) + den := by omega
        _ = (a / den + 1) * den := by ring
        _ ≤ _ := Nat.mul_le_mul_right den s2
    exact_mod_cast this)
  refine ⟨r, lo, hi, ?_⟩
  by_cases h : r * r = a / den ∧ a % den = 0
  · left
    refine ⟨?_, if_pos h⟩
    have e : r * r * den = a := by rw [h.1, Nat.mul_comm]; omega
    have : (r : ℝ) * r = R * R := by
      rw [hR2, eq_div_iff hD.ne']; exact_mod_cast e
    exact ((mul_self_inj (Nat.cast_nonneg r) hR).1 this).symm
  · right
    refine ⟨lt_of_le_of_ne lo fun he => h ?_, if_neg h⟩
    have : (r : ℝ) * r = (a : ℝ) / den := by rw [← hR2, he]
    rw [eq_div_iff hD.ne'] at this
    have e : r * r * den = a := by exact_mod_cast this
    rw [← e, Nat.mul_div_cancel _ hd, Nat.mul_mod_left]
    exact ⟨rfl, rfl⟩

/-- The root that `Fmt.root` takes, in units of 2 ^ -k, before an odd exponent is made even. -/
theorem sqrt_even (num den : Nat) (e : ℤ) : Real.sqrt ((num : ℝ) / den * 2 ^ e) =
    if e % 2 = 0 then Real.sqrt ((num : ℝ) / den) * 2 ^ (e / 2) else Real.sqrt (((2 * num : Nat) : ℝ) / den) * 2 ^ ((e - 1) / 2) := by
  have key : ∀ (x : ℝ) (i : ℤ), 0 ≤ x → Real.sqrt (x * 2 ^ (2 * i)) = Real.sqrt x * 2 ^ i := fun x i hx => by
    rw [Real.sqrt_mul hx, two_mul, two_zpow_add, Real.sqrt_mul_self (two_zpow_pos i).le]
  split
  · rename_i h
    rw [← key _ _ (by positivity)]
    congr 3
    omega
  · rename_i h
    rw [← key _ _ (by positivity), show e = 2 * ((e - 1) / 2) + 1 by omega, two_zpow_add _ 1]
    push_cast
    congr 1
    rw [show (2 * ((e - 1) / 2) + 1 - 1) / 2 = (e - 1) / 2 by omega]
    ring

/-- `Fmt.root` rounds a square root once. -/
theorem Fmt.root_roundsTo {f : Fmt} (hg : f.Good) (hk : f.kind = 0) {rm : Nat} (hrm : rm < 4) {num den : Nat} (hn : 0 < num) (hd : 0 < den)
    (e : ℤ) : RoundsTo f rm (Real.sqrt ((num : ℝ) / den * 2 ^ e)) (f.root rm num den e) := by
  -- the even exponent, and what is under the root then
  obtain ⟨a, i, ha, hR, hroot⟩ : ∃ (a : Nat) (i : ℤ), 0 < a ∧ Real.sqrt ((num : ℝ) / den * 2 ^ e) = Real.sqrt ((a : ℝ) / den) * 2 ^ i ∧
      f.root rm num den e = f.round rm false (rootSticky a den (f.fbits + 8 + bitLen den)) 1 (i - (f.fbits + 8 + bitLen den : Nat) - 1) := by
    by_cases h : e % 2 = 0
    · exact ⟨num, e / 2, hn, by rw [sqrt_even, if_pos h], by simp only [Fmt.root, if_pos h]⟩
    · exact ⟨2 * num, (e - 1) / 2, by omega, by rw [sqrt_even, if_neg h], by simp only [Fmt.root, if_neg h]⟩
  rw [hR, hroot]
  have hkk : ∃ k, k = f.fbits + 8 + bitLen den := ⟨_, rfl⟩
  obtain ⟨k, hkd⟩ := hkk
  rw [← hkd]
  obtain ⟨r, r1, r2, hr⟩ := rootSticky_spec a den k hd
  -- the root has at least f.fbits + 8 bits before its unit
  have hD : (0 : ℝ) < den := by exact_mod_cast hd
  have hbig : (2 : ℝ) ^ (f.fbits + 8) ≤ r := by
    have h1 : (2 : ℝ) ^ (f.fbits + 8) ≤ Real.sqrt ((a : ℝ) / den) * 2 ^ k := by
      have hden : (den : ℝ) ≤ 2 ^ bitLen den := by exact_mod_cast (lt_two_pow_bitLen den).le
      have h1' : (1 : ℝ) ≤ den := by exact_mod_cast hd
      have hs : 1 / (den : ℝ) ≤ Real.sqrt ((a : ℝ) / den) := by
        apply Real.le_sqrt_of_sq_le
        have ha1 : (1 : ℝ) ≤ a := by exact_mod_cast ha
        rw [div_pow, one_pow, div_le_div_iff₀ (by positivity) hD]
        nlinarith
      rw [hkd, pow_add 2 (f.fbits + 8)]
      calc (2 : ℝ) ^ (f.fbits + 8) = 1 / den * (2 ^ (f.fbits + 8) * den) := by field_simp
        _ ≤ Real.sqrt ((a : ℝ) / den) * (2 ^ (f.fbits + 8) * 2 ^ bitLen den) := by gcongr
    have : ((2 ^ (f.fbits + 8) : Nat) : ℝ) < r + 1 := by push_cast; linarith
    have : 2 ^ (f.fbits + 8) < r + 1 := by exact_mod_cast this
    exact_mod_cast Nat.lt_succ_iff.1 this
  have hr0 : (0 : ℝ) < r := (by positivity : (0 : ℝ) < 2 ^ (f.fbits + 8)).trans_le hbig
  have hsplit : ∀ z : ℝ, z * 2 ^ i = z * 2 ^ k * 2 ^ (i - k) := fun z => by
    rw [mul_assoc, ← zpow_natCast, ← two_zpow_add]; congr 2; ring
  rw [hsplit]
  generalize Real.sqrt ((a : ℝ) / den) * 2 ^ k = R at *
  have hp := two_zpow_pos (i - k)
  have hhalf : (2 : ℝ) ^ (i - k) = 2 * 2 ^ (i - k - 1) := by rw [two_zpow_sub _ 1, zpow_one]; ring
  rcases hr with ⟨e1, e2⟩ | ⟨e1, e2⟩
  · have hv : sgn false * (((2 * r : Nat) : ℝ) * 2 ^ (i - k - 1)) = R * 2 ^ (i - k) := by
      rw [sgn_false, e1, hhalf]; push_cast; ring
    rw [e2]
    exact round_value hg hk hrm hv (by rw [e1]; positivity)
  · have hv : sgn false * (((2 * r + 1 : Nat) : ℝ) * 2 ^ (i - k - 1)) = (r + 1 / 2) * 2 ^ (i - k) := by
      rw [sgn_false, hhalf]; push_cast; ring
    rw [e2]
    have hS := round_value hg hk hrm hv (by positivity)
    have hcell : SameCell (i - k) ((r + 1 / 2 : ℝ) * 2 ^ (i - k)) (R * 2 ^ (i - k)) :=
      sameCell_of_between r ⟨mul_lt_mul_of_pos_right (by push_cast; linarith) hp, mul_lt_mul_of_pos_right (by push_cast; linarith) hp⟩
        ⟨mul_lt_mul_of_pos_right (by push_cast; exact e1) hp, mul_lt_mul_of_pos_right (by push_cast; exact r2) hp⟩
    refine hcell.roundsTo (by positivity) (mul_pos (hr0.trans e1) hp) ?_ hS
    calc (2 : ℝ) ^ (i - k + 1 + f.fbits) = 2 ^ (f.fbits + 1) * 2 ^ (i - k) := by
          rw [← zpow_natCast, ← two_zpow_add]; congr 1; push_cast; ring
      _ ≤ 2 ^ (f.fbits + 8) * 2 ^ (i - k) := by gcongr <;> norm_num
      _ ≤ (r + 1 / 2) * 2 ^ (i - k) := mul_le_mul_of_nonneg_right (by linarith) hp.le

end Sys2Proof.Machine

namespace Sys2Proof.Proofs
open Machine

/-- The product of two finite values, as a real number. -/
theorem mul_value (n1 n2 : Bool) (m1 m2 : Nat) (e1 e2 : ℤ) :
    sgn (n1 != n2) * (((m1 * m2 : Nat) : ℝ) * 2 ^ (e1 + e2)) = ratOf (.fin n1 m1 e1) * ratOf (.fin n2 m2 e2) := by
  rw [ratOf_fin, ratOf_fin, sgn_bne, two_zpow_add]; push_cast; ring

/-- Each operation on finite values delivers its exact result rounded once (R36 to R38, R40). -/
theorem operationsRoundOnce : operationsRoundOnceRule := by
  intro f hf rm hrm n1 n2 n3 m1 m2 m3 e1 e2 e3 x y z
  obtain ⟨hg, hk⟩ := ieee_good hf
  have ne : ∀ {q : ℚ}, q ≠ 0 → (q : ℝ) ≠ 0 := fun h => by exact_mod_cast h
  refine ⟨fun h => ?_, fun h => ?_, fun h => ?_, fun hx hy => ?_, fun hx => ?_⟩
  · rw [show f.add rm x y = _ from Fmt.add_fin f rm n1 n2 m1 m2 e1 e2]
    refine Fmt.round_value hg hk hrm ?_ (ne h)
    rw [addExact_value]
    push_cast
    rw [ratOf_fin, ratOf_fin]
  · refine Fmt.round_value hg hk hrm ?_ (ne h)
    rw [mul_value]
    push_cast
    rfl
  · rw [show f.fma rm x y z = _ from Fmt.fma_fin f rm n1 n2 n3 m1 m2 m3 e1 e2 e3]
    refine Fmt.round_value hg hk hrm ?_ (ne h)
    rw [addExact_value, mul_value]
    push_cast
    rw [ratOf_fin n3]
  · have p1 := mag_pos (ratOf_fin n1 m1 e1) (ne hx)
    have p2 := mag_pos (ratOf_fin n2 m2 e2) (ne hy)
    have e : f.div rm x y = f.round rm (n1 != n2) m1 m2 (e1 - e2) := by
      show (if m2 = 0 then _ else _) = _
      rw [if_neg p2.ne']
    rw [e]
    refine Fmt.round_roundsTo hg hk hrm _ p1 p2 _ ?_
    have h2 : (m2 : ℝ) ≠ 0 := by exact_mod_cast p2.ne'
    push_cast
    rw [ratOf_fin, ratOf_fin, sgn_bne, two_zpow_sub]
    have := sgn_ne_zero n2
    have h1 := sgn_mul_self n2
    field_simp
    rw [sq, h1, mul_one]
  · have hx' : (0 : ℝ) < ratOf x := by exact_mod_cast hx
    have hxv := ratOf_fin n1 m1 e1
    have p1 := mag_pos hxv hx'.ne'
    have hn : n1 = false := by
      have := (sgn_mul_neg (n := n1) (x := (m1 : ℝ) * 2 ^ e1) (by have := two_zpow_pos e1; positivity)).not.2
        (by rw [← hxv]; exact not_lt.2 hx'.le)
      simpa using this
    have hv : (ratOf x : ℝ) = m1 * 2 ^ e1 := by rw [hxv, hn]; simp
    subst hn
    have es : f.sqrt rm x = f.root rm m1 1 e1 := by
      show (if m1 = 0 then _ else if false = true then _ else _) = _
      rw [if_neg p1.ne', if_neg (by simp)]
    have er : f.rsqrt rm x = f.root rm 1 m1 (-e1) := by
      show (if m1 = 0 then _ else if false = true then _ else _) = _
      rw [if_neg p1.ne', if_neg (by simp)]
    rw [es, er, hv]
    constructor
    · simpa using Fmt.root_roundsTo hg hk hrm p1 one_pos e1
    · have := Fmt.root_roundsTo hg hk hrm one_pos p1 (-e1)
      have e : ((1 : ℕ) : ℝ) / m1 * 2 ^ (-e1) = ((m1 : ℝ) * 2 ^ e1)⁻¹ := by rw [zpow_neg]; push_cast; field_simp
      rwa [e, Real.sqrt_inv, ← one_div] at this

end Sys2Proof.Proofs
end

section
/-! Special values (R39) and conversions (R32, R41). -/

namespace Sys2Proof.Machine

/-! ### Integers in registers -/

theorem sextInt_toNat (n : Nat) (a : Word) : sextInt n a.toNat = (a.setWidth n).toInt := by
  rw [sextInt, BitVec.ofNat_toNat]
theorem readInt_eq {t : Nat} (ht : t < 4) (a : Word) : readInt t a = intOf t a := by
  interval_cases t
  · exact sextInt_toNat 32 a
  · show ((a.toNat % 2 ^ 32 : Nat) : ℤ) = ((a.setWidth 32).toNat : ℤ)
    rw [BitVec.toNat_setWidth]
  · exact (sextInt_toNat 64 a).trans (by rw [BitVec.setWidth_eq]; rfl)
  · show ((a.toNat % 2 ^ 64 : Nat) : ℤ) = (a.toNat : ℤ)
    rw [Nat.mod_eq_of_lt a.isLt]
theorem sextInt_ofInt (n : Nat) (z : ℤ) : sextInt n (BitVec.ofInt n z).toNat = (BitVec.ofInt n z).toInt := by
  unfold sextInt
  rw [BitVec.ofNat_toNat, BitVec.setWidth_eq]
theorem placeInt_eq {t : Nat} (ht : t < 4) (z : ℤ) : placeInt t z = intAs t z := by
  interval_cases t
  · show BitVec.ofInt 64 (sextInt 32 (BitVec.ofInt 32 z).toNat) = (BitVec.ofInt 32 z).signExtend 64
    rw [sextInt_ofInt]; rfl
  · show BitVec.ofNat 64 (BitVec.ofInt 32 z).toNat = (BitVec.ofInt 32 z).setWidth 64
    rw [BitVec.ofNat_toNat]
  · show BitVec.ofInt 64 (sextInt 64 (BitVec.ofInt 64 z).toNat) = BitVec.ofInt 64 z
    rw [sextInt_ofInt, BitVec.ofInt_toInt]
  · show BitVec.ofNat 64 (BitVec.ofInt 64 z).toNat = BitVec.ofInt 64 z
    rw [BitVec.ofNat_toNat, BitVec.setWidth_eq]

theorem fpType_eq {t : Nat} (h4 : 4 ≤ t) (h8 : t < 8) : fpType t = fmtOf t ∧ fmtOf t ∈ [fp16, bf16, fp32, fp64] := by
  interval_cases t <;> exact ⟨rfl, by simp [fmtOf]⟩

/-- The limits that `convert` clamps to. -/
theorem convert_to_int {s d : Nat} (rm : Nat) (a : Word) (hs : 4 ≤ s) (hs8 : s < 8) (hd : d < 4) :
    convert s d rm a = let r := Val.toInt rm (intLow d) (intHigh d) ((fmtOf s).read a)
      (intAs d r.1, r.2) := by
  have h4 : ¬s < 4 := by omega
  simp only [convert, if_neg h4, if_pos hd, (fpType_eq hs hs8).1, placeInt_eq hd]
  interval_cases d <;> rfl

/-- Rounding a finite value to an integer within limits (R41). -/
theorem toInt_fin {rm : Nat} (hrm : rm < 4) (lo hi : ℤ) (n : Bool) (m : Nat) (e : ℤ) {z : ℤ}
    (hz : RoundedTo rm (ratOf (.fin n m e) : ℝ) z) :
    Val.toInt rm lo hi (.fin n m e) = if hi < z then (hi, 16) else if z < lo then (lo, 16)
      else (z, if (z : ℚ) = ratOf (.fin n m e) then 0 else 1) := by
  have hq := roundQuanta_roundedTo hrm n m one_pos e 0
  have hx := roundQuanta_exact (rm := rm) n m one_pos e 0
  rw [Nat.cast_one, div_one, zpow_zero, div_one, ← ratOf_fin] at hq
  rw [Nat.cast_one, div_one, zpow_zero, mul_one] at hx
  have hzq : z = sgnInt n (roundQuanta rm n m 1 e 0).1 := roundedTo_unique hz hq
  have hv : (if n then -((roundQuanta rm n m 1 e 0).1 : ℤ) else (roundQuanta rm n m 1 e 0).1) = z := by
    rw [hzq]; cases n <;> simp [sgnInt]
  have hx' : (roundQuanta rm n m 1 e 0).2 = true ↔ (z : ℚ) = ratOf (.fin n m e) := by
    rw [hx, hzq, ← sgn_mul_inj n, ← ratOf_fin, ← cast_sgnInt]
    exact_mod_cast Iff.rfl
  rw [Val.toInt]
  dsimp only
  rw [hv]
  split
  · rfl
  · split
    · rfl
    · by_cases h : (z : ℚ) = ratOf (.fin n m e)
      · rw [if_pos h, hx'.2 h]; rfl
      · rw [if_neg h, Bool.eq_false_iff.2 (mt hx'.1 h)]; rfl

theorem Fmt.round_zero (f : Fmt) (rm : Nat) (n : Bool) (den : Nat) (e : ℤ) : f.round rm n 0 den e = (f.signBit n, 0) := rfl
theorem Fmt.finIs_zero {f : Fmt} (hg : f.Good) (n : Bool) : FinIs (f.decode (f.signBit n)) n 0 := by
  have h := finIs_code hg n (Nat.zero_le f.maxCode)
  rwa [Nat.add_zero, f.grid_low (Nat.zero_le _), Nat.cast_zero, zero_mul, mul_zero] at h

end Sys2Proof.Machine

namespace Sys2Proof.Proofs
open Machine

/-- Conversions between the types of `cvt` (R32, R41). -/
theorem convertLimits : convertLimitsRule := by
  intro s d rm a hrm hs hd hsd r x
  refine ⟨fun h1 h2 => ?_, fun h1 h2 => ?_, fun h1 h2 => ?_, fun h1 h2 => ?_⟩
  · show convert s d rm a = _
    rw [convert, if_pos h1, if_pos h2, readInt_eq h1, placeInt_eq h2]
  · obtain ⟨ef, hf⟩ := fpType_eq h2 hd
    obtain ⟨hg, hk⟩ := ieee_good hf
    refine ⟨(fmtOf d).ofInt rm (intOf s a), ?_, fun h0 => ?_, fun h0 => ?_⟩
    · show convert s d rm a = _
      rw [convert, if_pos h1, if_neg (by omega), ef, readInt_eq h1]
    · rw [h0]; rfl
    · refine Fmt.round_value hg hk hrm ?_ (by exact_mod_cast h0)
      rw [zpow_zero, mul_one, Nat.cast_natAbs, Int.cast_abs]
      rcases lt_or_gt_of_ne h0 with h | h
      · have : ((intOf s a : ℤ) : ℝ) < 0 := by exact_mod_cast h
        rw [abs_of_neg this, decide_eq_true h, sgn_true]; ring
      · have : (0 : ℝ) < (intOf s a : ℤ) := by exact_mod_cast h
        rw [abs_of_pos this, decide_eq_false (not_lt.2 h.le), sgn_false, one_mul]
  · have hr : r = _ := convert_to_int rm a h1 hs h2
    rw [hr]
    refine ⟨fun q h => ?_, fun h => ?_, fun h => ?_, fun n m e h z hz => ?_⟩
    · rw [show (fmtOf s).read a = _ from h]
      have : intAs d 0 = 0 := by interval_cases d <;> rfl
      simp only [Val.toInt, this]
    · rw [show (fmtOf s).read a = _ from h]; rfl
    · rw [show (fmtOf s).read a = _ from h]; rfl
    · rw [h] at hz ⊢
      rw [show (fmtOf s).read a = _ from h]
      simp only [toInt_fin hrm _ _ n m e hz]
      split
      · rfl
      · split <;> rfl
  · obtain ⟨ef, hf⟩ := fpType_eq h2 hd
    obtain ⟨hg, hk⟩ := ieee_good hf
    refine ⟨(fmtOf d).ofVal rm x, ?_, fun q h => ?_, fun n h => ?_, fun n m e h => ⟨fun h0 => ?_, fun h0 => ?_⟩⟩
    · show convert s d rm a = _
      rw [convert, if_neg (by omega), if_neg (by omega), ef, (fpType_eq h1 hs).1]
    · rw [h]; rfl
    · rw [h]; exact ⟨Fmt.decode_inf hk n, rfl⟩
    · rw [h, h0]; exact ⟨Fmt.finIs_zero hg n, rfl⟩
    · rw [h]
      refine Fmt.round_value hg hk hrm (ratOf_fin n m e).symm ?_
      rw [ratOf_fin]
      exact mul_ne_zero (sgn_ne_zero n) (mul_ne_zero (by exact_mod_cast h0) (two_zpow_pos e).ne')

/-- Operations on NaNs, invalid operations, and the orderings of zeros (R39). -/
theorem floatSpecialValues : floatSpecialValuesRule := by
  intro f hf
  refine ⟨fun rm x y h => ?_, fun rm x y z h => ?_, fun rm n => ?_, fun rm n m e => ⟨rfl, rfl⟩, fun rm n m k e1 e2 hk => ?_,
    fun rm n m e1 e2 => rfl, fun a b ha hb => ?_, ?_⟩
  · cases x with
    | nan q => exact ⟨rfl, rfl⟩
    | inf n => cases y with
      | nan q => exact ⟨rfl, rfl⟩
      | _ => simp [anyNan] at h
    | fin n m e => cases y with
      | nan q => exact ⟨rfl, rfl⟩
      | _ => simp [anyNan] at h
  · unfold Fmt.fma
    simp only [h, if_true]
    rw [apply_ite Prod.fst]
    exact ite_self f.nan
  · show (if n = !n then _ else _) = _
    rw [if_neg (by cases n <;> decide)]
  · show (if (0 : Nat) = 0 then (if k = 0 then (f.nan, 16) else (f.inf (n != m), 8)) else f.round rm (n != m) k 0 (e1 - e2)) = _
    rw [if_pos rfl, if_neg hk.ne']
  · simp [Fmt.minMax, ha, hb]
  · obtain ⟨hg, -⟩ := ieee_good hf
    have hn := Fmt.decode_code hg true (Nat.zero_le _)
    have hp := Fmt.decode_code hg false (Nat.zero_le _)
    simp only [Fmt.signBit, if_true, Bool.false_eq_true, if_false, Nat.add_zero, Nat.zero_sub] at hn hp
    simp [Fmt.minMax, hn, hp, anyNan, anySignalling, Val.cmp, Val.isNeg]

end Sys2Proof.Proofs
end

section
/-! Quantising and widening conversions (R35, R42 with Table 2.5, R43). -/

namespace Sys2Proof.Machine

/-! ### Bounds of what a code stands for -/

/-- The significand and the exponent of a finite value of a format. -/
theorem Fmt.decode_fin_bounds {f : Fmt} (hg : f.Good) {c : Nat} {n : Bool} {m : Nat} {e : ℤ} (h : f.decode c = .fin n m e) :
    m < 2 ^ (f.fbits + 1) ∧ f.qmin ≤ e ∧ e < f.qmin + (2 ^ f.ebits - 1 : ℕ) ∧ (f.kind = 0 → e < f.qmin + (2 ^ f.ebits - 2 : ℕ)) := by
  have h4 : 4 ≤ 2 ^ f.ebits := Nat.pow_le_pow_right (n := 2) (by norm_num) hg.2
  have hp := Nat.two_pow_pos f.fbits
  have hm := Nat.mod_lt c hp
  have he := Nat.mod_lt (c / 2 ^ f.fbits) (Nat.two_pow_pos f.ebits)
  have hpow : 2 ^ (f.fbits + 1) = 2 ^ f.fbits + 2 ^ f.fbits := by rw [pow_succ]; ring
  unfold Fmt.decode at h
  dsimp only at h
  generalize c / 2 ^ f.fbits % 2 ^ f.ebits = x at *
  split at h
  · split at h <;> simp at h
  · rename_i h1
    split at h
    · simp at h
    · split at h
      · obtain ⟨-, rfl, rfl⟩ := Val.fin.inj h
        exact ⟨by omega, by omega, by omega, fun _ => by omega⟩
      · obtain ⟨-, rfl, rfl⟩ := Val.fin.inj h
        refine ⟨by omega, by omega, by omega, fun hk => ?_⟩
        have : x ≠ 2 ^ f.ebits - 1 := fun hx => h1 ⟨hx, hk⟩
        omega

/-- The largest finite magnitude of an IEEE format. -/
theorem Fmt.grid_maxCode {f : Fmt} (hg : f.Good) (hk : f.kind = 0) :
    f.grid f.maxCode = ((2 ^ (f.fbits + 1) - 1 : ℕ) : ℝ) * 2 ^ (f.qmin + (2 ^ f.ebits - 3 : ℕ)) := by
  have hp := Nat.two_pow_pos f.fbits
  have h4 : 4 ≤ 2 ^ f.ebits := Nat.pow_le_pow_right (n := 2) (by norm_num) hg.2
  rw [← f.grid_normal _ _ (by rw [pow_succ]; omega) (by omega), Fmt.maxCode, if_pos hk]
  congr 1
  have h1 : (2 ^ f.ebits - 1) * 2 ^ f.fbits = (2 ^ f.ebits - 3) * 2 ^ f.fbits + 2 * 2 ^ f.fbits := by
    rw [← Nat.add_mul]; congr 1; omega
  rw [h1, pow_succ]
  omega

/-- A value within the significand and the exponents of an IEEE format stays what it is in that format. -/
theorem Fmt.ofVal_representable {f : Fmt} (hg : f.Good) (hk : f.kind = 0) {rm : Nat} (hrm : rm < 4) {n : Bool} {m : Nat} {e : ℤ}
    (hm : m < 2 ^ (f.fbits + 1)) (h1 : f.qmin ≤ e) (h2 : e ≤ f.qmin + (2 ^ f.ebits - 3 : ℕ)) :
    FinIs (f.decode (f.ofVal rm (.fin n m e)).1) n (ratOf (.fin n m e) : ℝ) := by
  show FinIs (f.decode (f.round rm n m 1 e).1) n _
  rcases Nat.eq_zero_or_pos m with rfl | h0
  · rw [f.round_zero, ratOf_fin, Nat.cast_zero, zero_mul, mul_zero]
    exact finIs_zero hg n
  · have hmax : (m : ℝ) * 2 ^ e ≤ f.grid f.maxCode := by
      rw [grid_maxCode hg hk]
      have : (m : ℝ) ≤ ((2 ^ (f.fbits + 1) - 1 : ℕ) : ℝ) := by exact_mod_cast Nat.le_sub_one_of_lt hm
      exact mul_le_mul this (two_zpow_le.2 h2) (two_zpow_pos e).le (Nat.cast_nonneg _)
    obtain ⟨ho, hx, hv⟩ := roundMag_representable hrm n h0 hm h1 hmax
    rw [Fmt.round, if_neg h0.ne']
    simp only [ho, Bool.false_eq_true, if_false]
    rw [ratOf_fin, ← hv]
    exact finIs_code hg n (roundMag_code_le hg hrm n h0 one_pos e)

/-- What widening to FP32 delivers of a value that it holds. -/
def WidensExactly (v : Val) : Prop :=
  match v with
  | .nan _ => fp32.widen v = 0x7FC00000
  | .inf n => fp32.decode (fp32.widen v) = .inf n
  | .fin n _ _ => FinIs (fp32.decode (fp32.widen v)) n (ratOf v : ℝ)

theorem widensExactly_decode {f : Fmt} (hg : f.Good) (hf : f.fbits ≤ 22) (hlo : -149 ≤ f.qmin) (hhi : f.qmin + (2 ^ f.ebits - 1 : ℕ) ≤ 104) (c : Nat) :
    WidensExactly (f.decode c) := by
  cases h : f.decode c with
  | nan q => rfl
  | inf n => exact Fmt.decode_inf rfl n
  | fin n m e =>
    obtain ⟨b1, b2, b3, -⟩ := Fmt.decode_fin_bounds hg h
    exact Fmt.ofVal_representable good_fp32 rfl (by norm_num) (b1.trans_le (Nat.pow_le_pow_right (n := 2) (j := 24) (by norm_num) (by omega)))
      (show (-149 : ℤ) ≤ e by omega) (show e ≤ (-149 : ℤ) + 253 by omega)

/-! ### Quantising -/

/-- A value scaled by a power of two, as a real number. -/
theorem ratOf_scaled (n : Bool) (m : Nat) (e k : ℤ) :
    ((ratOf (.fin n m e) * (2 : ℚ) ^ k : ℚ) : ℝ) = sgn n * ((m : ℝ) / (1 : ℕ) * 2 ^ (e + k)) := by
  push_cast
  rw [ratOf_fin, two_zpow_add]
  ring

/-- Where a rounding overflows, its code is the largest finite one. -/
theorem Fmt.roundMag_overflow (f : Fmt) {rm : Nat} (hrm : rm < 4) (neg : Bool) {num den : Nat} (hn : 0 < num) (hd : 0 < den) (e : ℤ)
    (ho : (f.roundMag rm neg num den e).overflow = true) : (f.roundMag rm neg num den e).code = f.maxCode := by
  obtain ⟨u, q, -, -, -, h | h⟩ := f.roundMag_spec hrm neg hn hd e
  · rw [h.2.2.2.2.1] at ho; exact absurd ho (by simp)
  · obtain ⟨-, -, c, -, hc, hov, -⟩ := h
    rw [ho] at hov
    rw [hc, min_eq_right (of_decide_eq_true hov.symm).le]

/-- What narrowing delivers above the largest finite value. -/
def Fmt.narrowOver (f : Fmt) (sat n : Bool) : Nat := if sat then f.signBit n + f.maxCode else if f.kind = 1 then f.nan else f.inf n

/-- Narrowing rounds the scaled value once, to nearest. -/
theorem qNarrow_rounds {f : Fmt} (hg : f.Good) (n sat : Bool) {m : Nat} (hm : 0 < m) (e k : ℤ) {above : Prop}
    (ho : qNarrow f sat (.fin n m e) k = f.narrowOver sat n → above) :
    Rounds f 0 ((ratOf (.fin n m e) * (2 : ℚ) ^ k : ℚ) : ℝ) above fun y _ => FinIs (f.decode (qNarrow f sat (.fin n m e) k)) n y := by
  have hq : qNarrow f sat (.fin n m e) k = if (f.roundMag 0 n m 1 (e + k)).overflow then f.narrowOver sat n
      else f.signBit n + (f.roundMag 0 n m 1 (e + k)).code := by
    rw [qNarrow, if_neg hm.ne']; rfl
  refine Fmt.roundMag_rounds hg (by norm_num) n hm one_pos (e + k) (ratOf_scaled n m e k) (fun h => ho ?_) (fun h p _ => ?_)
  · rw [hq, h, if_pos rfl]
  · rw [hq, h]
    exact Fmt.finIs_code hg n (Fmt.roundMag_code_le hg (by norm_num) n hm one_pos _)

/-- The code of a narrowing to E2M1. -/
theorem qE2M1_fin (n : Bool) {m : Nat} (hm : 0 < m) (e k : ℤ) :
    qE2M1 (.fin n m e) k = if (e2m1.roundMag 0 n m 1 (e + k)).code = 0 then 0 else e2m1.signBit n + (e2m1.roundMag 0 n m 1 (e + k)).code := by
  rw [qE2M1, if_neg hm.ne']

/-- Narrowing to E2M1 rounds the scaled value once, to nearest, and delivers no −0. -/
theorem qE2M1_rounds (n : Bool) {m : Nat} (hm : 0 < m) (e k : ℤ) :
    Rounds e2m1 0 ((ratOf (.fin n m e) * (2 : ℚ) ^ k : ℚ) : ℝ) (qE2M1 (.fin n m e) k = if n then 15 else 7) fun y _ =>
      qE2M1 (.fin n m e) k < 16 ∧ qE2M1 (.fin n m e) k ≠ 8 ∧ (ratOf (e2m1.decode (qE2M1 (.fin n m e) k)) : ℝ) = y := by
  have hs : e2m1.signBit n = if n then 8 else 0 := by cases n <;> rfl
  have hle : (e2m1.roundMag 0 n m 1 (e + k)).code ≤ 7 := Fmt.roundMag_code_le good_e2m1 (by norm_num) n hm one_pos _
  rw [qE2M1_fin n hm]
  refine Fmt.roundMag_rounds good_e2m1 (by norm_num) n hm one_pos (e + k) (ratOf_scaled n m e k) (fun h => ?_) (fun h p _ => ?_)
  · rw [Fmt.roundMag_overflow _ (by norm_num) n hm one_pos _ h, hs]
    cases n <;> rfl
  · by_cases h0 : (e2m1.roundMag 0 n m 1 (e + k)).code = 0
    · rw [if_pos h0, h0]
      refine ⟨by norm_num, by norm_num, ?_⟩
      have hz := (Fmt.finIs_zero good_e2m1 false).2
      rw [e2m1.grid_low (Nat.zero_le _), Nat.cast_zero, zero_mul, mul_zero]
      exact hz
    · rw [if_neg h0]
      refine ⟨?_, ?_, (Fmt.finIs_code good_e2m1 n hle).2⟩
      · rw [hs]; split <;> omega
      · rw [hs]; split <;> omega

/-- A zero narrows to 0. -/
theorem qInt8_zero (n : Bool) (e k : ℤ) : qInt8 (.fin n 0 e) k = 0 := by
  have hz : RoundedTo 0 (ratOf (.fin n 0 (e + k)) : ℝ) 0 := by
    rw [ratOf_fin, Nat.cast_zero, zero_mul, mul_zero]
    exact_mod_cast roundedTo_int 0 0
  show (Val.toInt 0 (-128) 127 (.fin n 0 (e + k))).1 = 0
  rw [toInt_fin (by norm_num) _ _ _ _ _ hz]
  rfl

end Sys2Proof.Machine

namespace Sys2Proof.Proofs
open Machine

/-- The quantising conversions and the widening ones (R35, R42, R43). -/
theorem quantising : quantisingRule := by
  refine ⟨fun n sat m e k hm => ?_, fun n sat q e k => ?_, fun c hc => ?_⟩
  · intro v x
    refine ⟨fun f hf => ?_, qE2M1_rounds n hm e k, fun z hz => ?_⟩
    · intro c
      have hg : f.Good := by
        simp only [List.mem_cons, List.not_mem_nil, or_false] at hf
        rcases hf with rfl | rfl
        · exact good_e4m3
        · exact good_e5m2
      refine qNarrow_rounds hg n sat hm e k fun ho => ?_
      rw [show c = _ from ho, Fmt.narrowOver]
      cases sat
      · simp only [List.mem_cons, List.not_mem_nil, or_false] at hf
        rcases hf with rfl | rfl
        · rfl
        · cases n <;> rfl
      · have := Fmt.finIs_code hg n (le_refl f.maxCode)
        rw [Fmt.ratOf_maxCode hg]
        cases n <;> simpa using this
    · have hx : x = (ratOf (.fin n m (e + k)) : ℝ) := by
        rw [show x = _ from ratOf_scaled n m e k, ratOf_fin, Nat.cast_one, div_one]
      rw [hx] at hz
      show (Val.toInt 0 (-128) 127 (.fin n m (e + k))).1 = _
      rw [toInt_fin (by norm_num) _ _ _ _ _ hz]
      split
      · simp only; omega
      · split <;> simp only <;> omega
  · cases n <;> cases sat <;> exact ⟨rfl, rfl, rfl, rfl, rfl, rfl, rfl, rfl, rfl, qInt8_zero _ e k, rfl, rfl⟩
  · have hlone : ∀ c, c < 16 → c ≠ 8 → e2m1Lone c = e2m1.decode c := fun c h h8 => by
      rw [e2m1Lone, Nat.mod_eq_of_lt h, if_neg h8]
    refine ⟨widensExactly_decode good_e4m3 (by decide) (by decide) (by decide) c, widensExactly_decode good_e5m2 (by decide) (by decide) (by decide) c,
      fun h16 => ⟨?_, hlone c h16, fun h => by subst h; simp [e2m1Lone, ratOf]⟩⟩
    by_cases h8 : c = 8
    · subst h8
      exact Fmt.ofVal_representable good_fp32 rfl (by norm_num) (by norm_num) (by decide) (by decide)
    · rw [hlone c h16 h8]
      exact widensExactly_decode good_e2m1 (by decide) (by decide) (by decide) c

end Sys2Proof.Proofs
end

section
/-! Faithful functions (R40): a value that brackets the exact one closely is delivered as one of its two neighbours (log 10). -/

namespace Sys2Proof.Machine

/-- Truncation below the largest finite value delivers the code whose magnitude the number has reached. -/
theorem Fmt.roundMag_truncates {f : Fmt} (neg : Bool) {num den : Nat} (hn : 0 < num) (hd : 0 < den) (e : ℤ)
    (hmax : (num : ℝ) / den * 2 ^ e < f.grid f.maxCode) :
    f.grid (f.roundMag 1 neg num den e).code ≤ num / den * 2 ^ e ∧
      (num : ℝ) / den * 2 ^ e < f.grid ((f.roundMag 1 neg num den e).code + 1) ∧ (f.roundMag 1 neg num den e).code < f.maxCode := by
  have trunc : ∀ (v : ℤ) (q : Nat) (X : ℝ), 0 ≤ X → RoundedTo 1 (sgn neg * X / 2 ^ v) (sgnInt neg q) →
      (q : ℝ) * 2 ^ v ≤ X ∧ X < (q + 1) * 2 ^ v := by
    rintro v q X hX ⟨h1, h2, -⟩
    rw [cast_sgnInt, mul_div_assoc, abs_sgn_mul _ (Nat.cast_nonneg _), abs_sgn_mul _ (div_nonneg hX (two_zpow_pos v).le)] at h1 h2
    exact ⟨(le_div_iff₀ (two_zpow_pos v)).1 h1, (div_lt_iff₀ (two_zpow_pos v)).1 h2⟩
  obtain ⟨u, q, h1, h2, hq, h⟩ := f.roundMag_spec (rm := 1) (by norm_num) neg hn hd e
  generalize (num : ℝ) / den * 2 ^ e = X at *
  have hX : 0 ≤ X := (two_zpow_pos _).le.trans h1
  obtain ⟨q1, q2⟩ := trunc u q X hX hq
  have key : f.grid (f.roundMag 1 neg num den e).code ≤ X ∧ X < f.grid ((f.roundMag 1 neg num den e).code + 1) := by
    rcases h with ⟨-, -, hr, hle, -⟩ | ⟨hge, -, c, hc, hcode, -⟩
    · obtain ⟨t1, t2⟩ := trunc _ _ X hX hr
      rw [f.grid_succ, f.grid_low hle]
      refine ⟨t1, t2.trans_le ?_⟩
      rw [add_mul, one_mul]
      have := two_zpow_le.2 (show f.qmin ≤ f.qmin + f.binade (f.roundMag 1 neg num den e).code by omega)
      linarith
    · have hcm : c < f.maxCode := f.grid_strictMono.lt_iff_lt.1 ((hc.trans_le q1).trans_lt hmax)
      rw [hcode, min_eq_left hcm.le]
      refine ⟨hc.trans_le q1, ?_⟩
      -- the code is that of the significand q in its binade
      have hu : f.qmin ≤ u := by
        have := two_zpow_lt.1 ((hge.trans q1).trans_lt h2)
        rw [← f.qmin_add] at this
        omega
      have hb : (((u - f.qmin).toNat : Nat) : ℤ) = u - f.qmin := Int.toNat_of_nonneg (by omega)
      have s1 : 2 ^ f.fbits ≤ q := by
        have : ((2 ^ f.fbits : Nat) : ℝ) < q + 1 := by
          have := h1.trans_lt q2
          rw [two_zpow_add, mul_comm, zpow_natCast] at this
          push_cast
          exact lt_of_mul_lt_mul_right this (two_zpow_pos u).le
        exact Nat.lt_succ_iff.1 (by exact_mod_cast this)
      have s2 : q < 2 ^ (f.fbits + 1) := by
        have := q1.trans_lt h2
        rw [add_assoc, two_zpow_add, mul_comm] at this
        have := lt_of_mul_lt_mul_left this (two_zpow_pos u).le
        rw [show ((f.fbits : ℤ) + 1) = ((f.fbits + 1 : Nat) : ℤ) by push_cast; ring, zpow_natCast] at this
        exact_mod_cast this
      have g1 := f.grid_normal (u - f.qmin).toNat q s1 s2.le
      have g2 := f.grid_normal (u - f.qmin).toNat (q + 1) (by omega) (by omega)
      rw [hb, add_sub_cancel] at g1 g2
      have : (u - f.qmin).toNat * 2 ^ f.fbits + q = c := f.grid_strictMono.injective (g1.trans hc.symm)
      rw [← this, add_assoc, g2]
      push_cast
      exact q2
  exact ⟨key.1, key.2, f.grid_strictMono.lt_iff_lt.1 (key.1.trans_lt hmax)⟩

/-- A code of 32 bits reads back from a register as its value. -/
theorem read_fp32 {c : Nat} (h : c < 2 ^ 32) : fp32.read (BitVec.ofNat 64 c) = fp32.decode c := by
  show fp32.decode ((BitVec.ofNat 64 c).toNat % 2 ^ 32) = _
  rw [BitVec.toNat_ofNat, Nat.mod_eq_of_lt (by omega : c < 2 ^ 64), Nat.mod_eq_of_lt h]
theorem finIs_read_fp32 (neg : Bool) {c : Nat} (h : c ≤ fp32.maxCode) :
    FinIs (fp32.read (BitVec.ofNat 64 (fp32.signBit neg + c))) neg (sgn neg * fp32.grid c) := by
  have h' : c ≤ 0x7F7FFFFF := h
  have hs : fp32.signBit neg ≤ 2 ^ 31 := by cases neg <;> decide
  rw [read_fp32 (by omega)]
  exact Fmt.finIs_code good_fp32 neg h

/-- `faithful` delivers one of the two neighbours of its argument: within the unit of its last bit. -/
theorem faithful_spec (fn bits : Nat) (neg : Bool) {num den : Nat} (hn : 0 < num) (hd : 0 < den) (e : ℤ)
    (hmax : (num : ℝ) / den * 2 ^ e < fp32.grid fp32.maxCode) :
    ∃ y : ℝ, FinIs (fp32.read (faithful fn bits neg num den e).1) neg (sgn neg * y) ∧
      |y - num / den * 2 ^ e| ≤ num / den * 2 ^ e * 2 ^ (-23 : ℤ) + 2 ^ (-149 : ℤ) ∧
      ((2 : ℝ) ^ (-126 : ℤ) ≤ num / den * 2 ^ e → |y - num / den * 2 ^ e| ≤ num / den * 2 ^ e * 2 ^ (-23 : ℤ)) := by
  obtain ⟨lo, hi, hlt⟩ := Fmt.roundMag_truncates (f := fp32) neg hn hd e hmax
  have hX : (0 : ℝ) ≤ num / den * 2 ^ e := (Fmt.grid_nonneg _ _).trans lo
  have hf : (faithful fn bits neg num den e).1 = BitVec.ofNat 64 (fp32.signBit neg +
      if Config.sfuUpper fn bits then (fp32.roundMag 1 neg num den e).code + 1 else (fp32.roundMag 1 neg num den e).code) := rfl
  rw [hf]
  generalize (fp32.roundMag 1 neg num den e).code = c at *
  generalize (num : ℝ) / den * 2 ^ e = X at *
  have hs := fp32.grid_succ c
  have hd : ∀ c', c' = c ∨ c' = c + 1 → |fp32.grid c' - X| ≤ 2 ^ (fp32.qmin + fp32.binade c) := by
    intro c' h
    have := two_zpow_pos (fp32.qmin + fp32.binade c)
    rcases h with h | h <;> rw [h, abs_le] <;> constructor <;> linarith
  have hc' : (if Config.sfuUpper fn bits then c + 1 else c) = c ∨ (if Config.sfuUpper fn bits then c + 1 else c) = c + 1 := by
    split
    · exact .inr rfl
    · exact .inl rfl
  generalize (if Config.sfuUpper fn bits then c + 1 else c) = c' at *
  have hnorm : 2 ^ fp32.fbits ≤ c → (2 : ℝ) ^ (fp32.qmin + fp32.binade c) ≤ X * 2 ^ (-23 : ℤ) := fun h =>
    (fp32.unit_le h).trans (mul_le_mul_of_nonneg_right lo (two_zpow_pos _).le)
  refine ⟨fp32.grid c', finIs_read_fp32 neg (by omega), ?_, fun h => (hd c' hc').trans (hnorm ?_)⟩
  · refine (hd c' hc').trans ?_
    rcases Nat.lt_or_ge c (2 ^ fp32.fbits) with h | h
    · have hb : fp32.binade c = 0 := by rw [Fmt.binade, Nat.div_eq_of_lt h]
      rw [hb]
      have : (2 : ℝ) ^ (fp32.qmin + ((0 : Nat) : ℤ)) = 2 ^ (-149 : ℤ) := rfl
      rw [this]
      have := mul_nonneg hX (two_zpow_pos (-23)).le
      linarith
    · have := hnorm h
      have := two_zpow_pos (-149)
      linarith
  · have h2 : fp32.grid (2 ^ fp32.fbits) < fp32.grid (c + 1) := by
      rw [fp32.grid_smallest]
      exact lt_of_le_of_lt h hi
    have := fp32.grid_strictMono.lt_iff_lt.1 h2
    omega

/-- A result is near a value: the bound of R40 with a slack. -/
def NearTo (r : FpOut) (v slack : ℝ) : Prop := ∃ neg y, FinIs (fp32.read r.1) neg y ∧ |y - v| ≤ |v| * (2 : ℝ) ^ (-22 : ℤ) + slack

/-- `faithful` of a number close to a value is near the value. -/
theorem faithful_near (fn bits : Nat) (neg : Bool) {num den : Nat} (hn : 0 < num) (hd : 0 < den) (e : ℤ) {V : ℝ}
    (hmax : (num : ℝ) / den * 2 ^ e < fp32.grid fp32.maxCode) (hV : 0 ≤ V) (hc : |(num : ℝ) / den * 2 ^ e - V| ≤ V * 2 ^ (-25 : ℤ)) :
    NearTo (faithful fn bits neg num den e) (sgn neg * V) (2 ^ (-149 : ℤ)) ∧
      ((2 : ℝ) ^ (-126 : ℤ) ≤ num / den * 2 ^ e → NearTo (faithful fn bits neg num den e) (sgn neg * V) 0) := by
  obtain ⟨y, hy, h1, h2⟩ := faithful_spec fn bits neg hn hd e hmax
  have hX : (num : ℝ) / den * 2 ^ e ≤ V + V * 2 ^ (-25 : ℤ) := by linarith [(abs_le.1 hc).2]
  generalize (num : ℝ) / den * 2 ^ e = X at *
  have close : ∀ slack : ℝ, |y - X| ≤ X * 2 ^ (-23 : ℤ) + slack → |sgn neg * y - sgn neg * V| ≤ |sgn neg * V| * 2 ^ (-22 : ℤ) + slack := by
    intro slack h
    rw [← mul_sub, abs_mul, abs_sgn, one_mul, abs_sgn_mul _ hV]
    have ht : |y - V| ≤ |y - X| + |X - V| := abs_sub_le _ _ _
    have hm : X * (2 : ℝ) ^ (-23 : ℤ) ≤ (V + V * 2 ^ (-25 : ℤ)) * 2 ^ (-23 : ℤ) := mul_le_mul_of_nonneg_right hX (two_zpow_pos _).le
    have : (V + V * (2 : ℝ) ^ (-25 : ℤ)) * 2 ^ (-23 : ℤ) + V * 2 ^ (-25 : ℤ) ≤ V * 2 ^ (-22 : ℤ) := by norm_num; linarith
    linarith
  exact ⟨⟨neg, _, hy, close _ h1⟩, fun h => ⟨neg, _, hy, close 0 (by rw [add_zero]; exact h2 h)⟩⟩

end Sys2Proof.Machine
end

section
/-! `exp2` and `log2` (R40, R120): the fixed-point evaluations are close to the functions. -/

namespace Sys2Proof.Machine

/-! ### The fixed point -/

theorem fixOne_pos : 0 < fixOne := by rw [fixOne]; positivity
theorem fixOne_eq : (fixOne : ℝ) = 2 ^ (512 : ℤ) := by rw [fixOne, Nat.cast_pow, Nat.cast_ofNat, zpow_ofNat]

/-- A product in a fixed point of unit F, truncated. -/
theorem fixMul_bounds {F : Nat} (h0 : 0 < F) (a b : Nat) : ((a * b / F : Nat) : ℝ) / F ≤ a / F * (b / F) ∧
    (a : ℝ) / F * (b / F) - 1 / F < ((a * b / F : Nat) : ℝ) / F := by
  have hF : (0 : ℝ) < F := by exact_mod_cast h0
  have h1 : ((a * b / F : Nat) : ℝ) ≤ a * b / F := by exact_mod_cast Nat.cast_div_le (α := ℝ) (m := a * b) (n := F)
  have h2 : (a : ℝ) * b / F < ((a * b / F : Nat) : ℝ) + 1 := by
    rw [div_lt_iff₀ hF]
    have := Nat.lt_mul_div_succ (a * b) h0
    rw [Nat.mul_comm F] at this
    exact_mod_cast this
  have e : (a : ℝ) / F * (b / F) = a * b / F / F := by field_simp
  rw [e, ← sub_div]
  exact ⟨div_le_div_of_nonneg_right h1 hF.le, div_lt_div_of_pos_right (by linarith) hF⟩

/-- A square root in a fixed point of unit F, truncated. -/
theorem fixRoot_bounds {F : Nat} (h0 : 0 < F) (a : Nat) : ((isqrt (a * F) : Nat) : ℝ) / F ≤ Real.sqrt (a / F) ∧
    Real.sqrt (a / F) - 1 / F < ((isqrt (a * F) : Nat) : ℝ) / F := by
  have hF : (0 : ℝ) < F := by exact_mod_cast h0
  rw [isqrt_eq]
  have h1 : (((a * F).sqrt * (a * F).sqrt : Nat) : ℝ) ≤ ((a * F : Nat) : ℝ) := by exact_mod_cast Nat.sqrt_le _
  have h2 : ((a * F : Nat) : ℝ) < (((a * F).sqrt + 1) * ((a * F).sqrt + 1) : Nat) := by exact_mod_cast Nat.lt_succ_sqrt _
  generalize (a * F).sqrt = r at *
  push_cast at h1 h2
  have e : (a : ℝ) / F = a * F / (F * F) := by field_simp
  constructor
  · apply Real.le_sqrt_of_sq_le
    rw [e, div_pow, sq, sq]
    exact div_le_div_of_nonneg_right h1 (by positivity)
  · rw [sub_lt_iff_lt_add, ← add_div, Real.sqrt_lt' (by positivity), e, div_pow, sq, sq]
    exact div_lt_div_of_pos_right h2 (by positivity)

/-! ### Powers of two -/

/-- The bits of a fraction below bit n + 1, from its bit n and those below. -/
theorem mod_two_pow_succ (x n : Nat) : x % 2 ^ (n + 1) = (if x.testBit n then 2 ^ n else 0) + x % 2 ^ n := by
  rw [Nat.mod_pow_succ, Nat.testBit_eq_decide_div_mod_eq]
  rcases Nat.mod_two_eq_zero_or_one (x / 2 ^ n) with h | h <;> simp [h, Nat.add_comm]

/-- A truncated product of two numbers that are each a little low is a little low. -/
theorem low_mul {A W a w α ω ε : ℝ} (hA : 1 ≤ A) (hW : 1 ≤ W) (hα : 0 ≤ α) (hω : 0 ≤ ω) (hα1 : α ≤ 1) (hε : 0 ≤ ε)
    (ha : A * (1 - α) ≤ a) (hw : W * (1 - ω) ≤ w) (hw0 : 0 ≤ w) : A * W * (1 - (α + ω + ε)) ≤ a * w - ε := by
  have h1 : A * (1 - α) * (W * (1 - ω)) ≤ a * w :=
    (mul_le_mul_of_nonneg_left hw (mul_nonneg (by linarith) (by linarith))).trans (mul_le_mul_of_nonneg_right ha hw0)
  have h2 : 1 ≤ A * W := one_le_mul_of_one_le_of_one_le hA hW
  have h3 : 0 ≤ A * W * (α * ω) := mul_nonneg (by linarith) (mul_nonneg hα hω)
  have h4 : ε ≤ A * W * ε := le_mul_of_one_le_left hε h2
  have e : A * W * (1 - (α + ω + ε)) = A * (1 - α) * (W * (1 - ω)) - A * W * (α * ω) - A * W * ε := by ring
  linarith

/-- A truncated root of a number that is a little low is a little low. -/
theorem low_sqrt {W w ω ε : ℝ} (hW : 1 ≤ W) (hω : 0 ≤ ω) (hω1 : ω ≤ 1) (hε : 0 ≤ ε) (hw : W * (1 - ω) ≤ w) :
    Real.sqrt W * (1 - (ω + ε)) ≤ Real.sqrt w - ε := by
  have h1 : Real.sqrt W * (1 - ω) ≤ Real.sqrt w := by
    apply Real.le_sqrt_of_sq_le
    rw [mul_pow, Real.sq_sqrt (by linarith)]
    refine le_trans ?_ hw
    have : (1 - ω) ^ 2 ≤ 1 - ω := by nlinarith
    exact mul_le_mul_of_nonneg_left this (by linarith)
  have h2 : 1 ≤ Real.sqrt W := Real.one_le_sqrt.2 hW
  have h3 : ε ≤ Real.sqrt W * ε := le_mul_of_one_le_left hε h2
  have e : Real.sqrt W * (1 - (ω + ε)) = Real.sqrt W * (1 - ω) - Real.sqrt W * ε := by ring
  linarith

theorem expBits_succ (frac n root acc : Nat) : expBits frac (n + 1) root acc =
    expBits frac n (isqrt (root * fixOne)) (if frac.testBit n then acc * root / fixOne else acc) := rfl

/-- `expBits` multiplies by 2 ^ (2 ^ -k) for each set bit, with an error of a few units for each. -/
theorem expBits_bounds (frac : Nat) : ∀ (n root acc : Nat) (w A r a : ℝ), 0 ≤ w → 1 ≤ A → 0 ≤ r → 0 ≤ a →
    a + n * (r + n + 1) ≤ fixOne → r ≤ fixOne →
    (2 : ℝ) ^ w * (1 - r / fixOne) ≤ root / fixOne → (root : ℝ) / fixOne ≤ 2 ^ w →
    A * (1 - a / fixOne) ≤ acc / fixOne → (acc : ℝ) / fixOne ≤ A →
    let B := A * (2 : ℝ) ^ (2 * w / 2 ^ n * (frac % 2 ^ n : Nat))
    B * (1 - (a + n * (r + n + 1)) / fixOne) ≤ (expBits frac n root acc : ℝ) / fixOne ∧ (expBits frac n root acc : ℝ) / fixOne ≤ B := by
  have h0 := fixOne_pos
  have hF : (0 : ℝ) < fixOne := by exact_mod_cast h0
  intro n
  induction n with
  | zero =>
    intro root acc w A r a _ _ _ _ _ _ _ _ h1 h2
    simp only [expBits, pow_zero, Nat.mod_one, Nat.cast_zero, mul_zero, Real.rpow_zero, mul_one, zero_mul, add_zero]
    exact ⟨h1, h2⟩
  | succ n ih =>
    intro root acc w A r a hw hA hr ha hsum hrF r1 r2 a1 a2 B
    rw [expBits_succ]
    generalize fixOne = F at *
    have hn : (0 : ℝ) ≤ n := Nat.cast_nonneg n
    have hnr := mul_nonneg hn hr
    have hnn := mul_nonneg hn hn
    push_cast at hsum
    have hW : (1 : ℝ) ≤ 2 ^ w := Real.one_le_rpow (by norm_num) hw
    have hα : a / F ≤ 1 := by rw [div_le_one hF]; linarith
    have hω : r / (F : ℝ) ≤ 1 := (div_le_one hF).2 hrF
    have hε : (0 : ℝ) ≤ 1 / F := by positivity
    -- the next root
    obtain ⟨s1, s2⟩ := fixRoot_bounds h0 root
    have hs : Real.sqrt ((2 : ℝ) ^ w) = 2 ^ (w / 2) := by
      rw [Real.sqrt_eq_rpow, ← Real.rpow_mul (by norm_num)]; congr 1; ring
    have n1 : (2 : ℝ) ^ (w / 2) * (1 - (r + 1) / F) ≤ (isqrt (root * F) : ℝ) / F := by
      have := low_sqrt hW (div_nonneg hr hF.le) hω hε r1
      rw [hs, ← add_div] at this
      linarith
    have n2 : (isqrt (root * F) : ℝ) / F ≤ 2 ^ (w / 2) := by
      rw [← hs]; exact s1.trans (Real.sqrt_le_sqrt r2)
    have hB : B = (if frac.testBit n then A * 2 ^ w else A) * (2 : ℝ) ^ (2 * (w / 2) / 2 ^ n * (frac % 2 ^ n : Nat)) := by
      have hp : (2 : ℝ) ^ n ≠ 0 := by positivity
      show A * (2 : ℝ) ^ (2 * w / 2 ^ (n + 1) * (frac % 2 ^ (n + 1) : Nat)) = _
      rw [mod_two_pow_succ]
      cases frac.testBit n
      · simp only [Bool.false_eq_true, if_false, Nat.zero_add]
        congr 2
        rw [pow_succ]
        field_simp
      · simp only [if_true]
        rw [mul_assoc, ← Real.rpow_add (by norm_num)]
        congr 2
        push_cast
        rw [pow_succ]
        field_simp
    rw [hB]
    cases hbit : frac.testBit n
    · -- the bit is clear: the product stays
      have := ih (isqrt (root * F)) acc (w / 2) A (r + 1) a (by linarith) hA (by linarith) ha (by linarith) (by linarith) n1 n2 a1 a2
      obtain ⟨b1, b2⟩ := this
      simp only [Bool.false_eq_true, if_false]
      refine ⟨le_trans (mul_le_mul_of_nonneg_left ?_ (by positivity)) b1, b2⟩
      have : (a + n * (r + 1 + n + 1)) / (F : ℝ) ≤ (a + ((n + 1 : Nat) : ℝ) * (r + (n + 1 : Nat) + 1)) / F :=
        div_le_div_of_nonneg_right (by push_cast; linarith) hF.le
      linarith
    · -- the bit is set: one more factor
      obtain ⟨m1, m2⟩ := fixMul_bounds h0 acc root
      have c1 : A * 2 ^ w * (1 - (a + r + 1) / F) ≤ ((acc * root / F : Nat) : ℝ) / F := by
        have := low_mul hA hW (div_nonneg ha hF.le) (div_nonneg hr hF.le) hα hε a1 r1 (by positivity)
        rw [← add_div, ← add_div] at this
        linarith
      have c2 : ((acc * root / F : Nat) : ℝ) / F ≤ A * 2 ^ w :=
        m1.trans (mul_le_mul a2 r2 (by positivity) (by linarith))
      have := ih (isqrt (root * F)) (acc * root / F) (w / 2) (A * 2 ^ w) (r + 1) (a + r + 1) (by linarith)
        (one_le_mul_of_one_le_of_one_le hA hW) (by linarith) (by linarith) (by linarith) (by linarith) n1 n2 c1 c2
      obtain ⟨b1, b2⟩ := this
      simp only [if_true]
      refine ⟨le_trans (mul_le_mul_of_nonneg_left ?_ (by positivity)) b1, b2⟩
      have : (a + r + 1 + n * (r + 1 + n + 1)) / (F : ℝ) ≤ (a + ((n + 1 : Nat) : ℝ) * (r + (n + 1 : Nat) + 1)) / F :=
        div_le_div_of_nonneg_right (by push_cast; linarith) hF.le
      linarith

/-- The fraction of a power: `fpExp2`'s product of roots is 2 ^ (f / 2 ^ q), a little low. -/
theorem expBits_start (f q : Nat) (hf : f < 2 ^ q) (hq : q ≤ 149) :
    let v := (expBits f q (isqrt (2 * fixOne * fixOne)) fixOne : ℝ) / fixOne
    let V := (2 : ℝ) ^ ((f : ℝ) / 2 ^ q)
    V * (1 - 2 ^ (-26 : ℤ)) ≤ v ∧ v ≤ V := by
  intro v V
  have h0 := fixOne_pos
  have hF : (0 : ℝ) < fixOne := by exact_mod_cast h0
  have hbig : (2 : ℝ) ^ (100 : ℤ) ≤ fixOne := by rw [fixOne_eq]; exact two_zpow_le.2 (by norm_num)
  have h100 : (1000000 : ℝ) ≤ 2 ^ (100 : ℤ) := by norm_num
  obtain ⟨s1, s2⟩ := fixRoot_bounds h0 (2 * fixOne)
  have hv : v = (expBits f q (isqrt (2 * fixOne * fixOne)) fixOne : ℝ) / fixOne := rfl
  have kb := expBits_bounds f q (isqrt (2 * fixOne * fixOne)) fixOne
  rw [hv]
  generalize fixOne = F at *
  have e2 : ((2 * F : Nat) : ℝ) / F = 2 := by push_cast; field_simp
  have hs : Real.sqrt 2 = (2 : ℝ) ^ (1 / 2 : ℝ) := Real.sqrt_eq_rpow 2
  rw [e2, hs] at s1 s2
  have hW : (1 : ℝ) ≤ 2 ^ (1 / 2 : ℝ) := Real.one_le_rpow (by norm_num) (by norm_num)
  have hq' : (q : ℝ) ≤ 149 := by exact_mod_cast hq
  have hq0 : (0 : ℝ) ≤ q := Nat.cast_nonneg q
  have key := kb (1 / 2) 1 1 0 (by norm_num) le_rfl (by norm_num) le_rfl
    (by nlinarith) (by linarith) (by
      have : 1 / (F : ℝ) ≤ 2 ^ (1 / 2 : ℝ) * (1 / F) := le_mul_of_one_le_left (by positivity) hW
      rw [mul_sub, mul_one]; linarith) s1 (by rw [zero_div, sub_zero, div_self hF.ne', mul_one]) (by rw [div_self hF.ne'])
  have hV : (1 : ℝ) * 2 ^ (2 * (1 / 2) / 2 ^ q * ((f % 2 ^ q : Nat) : ℝ)) = V := by
    rw [Nat.mod_eq_of_lt hf, one_mul]
    congr 1
    ring
  rw [hV] at key
  refine ⟨le_trans (mul_le_mul_of_nonneg_left ?_ (by positivity)) key.1, key.2⟩
  have : (0 + (q : ℝ) * (1 + q + 1)) / F ≤ 2 ^ (-26 : ℤ) := by
    rw [div_le_iff₀ hF]
    have h1 : (2 : ℝ) ^ (-26 : ℤ) * 2 ^ (100 : ℤ) ≤ 2 ^ (-26 : ℤ) * F := mul_le_mul_of_nonneg_left hbig (two_zpow_pos _).le
    have h2 : (1000000 : ℝ) ≤ 2 ^ (-26 : ℤ) * 2 ^ (100 : ℤ) := by norm_num
    nlinarith
  linarith

end Sys2Proof.Machine
end

section
/-! `exp2` on finite operands (R40). -/

namespace Sys2Proof.Machine

/-- A result is a value, and no flag is raised. -/
def ExactlyIs (r : FpOut) (v : ℝ) : Prop := (∃ neg, FinIs (fp32.read r.1) neg v) ∧ r.2 = 0

theorem ExactlyIs.nearTo {r : FpOut} {v slack : ℝ} (h : ExactlyIs r v) (hs : 0 ≤ slack) : NearTo r v slack := by
  obtain ⟨⟨neg, hn⟩, -⟩ := h
  refine ⟨neg, v, hn, ?_⟩
  rw [sub_self, abs_zero]
  have := two_zpow_pos (-22)
  positivity

/-- The fields of a finite FP32 operand. -/
theorem read_fp32_bounds {a : Word} {n : Bool} {m : Nat} {e : ℤ} (h : fp32.read a = .fin n m e) : m < 2 ^ 24 ∧ -149 ≤ e ∧ e ≤ 104 := by
  obtain ⟨h1, h2, -, h3⟩ := Fmt.decode_fin_bounds good_fp32 h
  have h3' : e < (-149 : ℤ) + 254 := h3 rfl
  exact ⟨h1, h2, by omega⟩

theorem grid_maxCode_fp32 : fp32.grid fp32.maxCode = (2 ^ 24 - 1 : ℕ) * 2 ^ (104 : ℤ) := Fmt.grid_maxCode good_fp32 rfl

/-- The comparisons by which `fpExp2` tells a large magnitude. -/
theorem magnitude_ge (m t : Nat) (e : ℤ) :
    (0 ≤ e ∧ t ≤ m * 2 ^ e.toNat) ∨ (e < 0 ∧ t ≤ m / 2 ^ (-e).toNat) ↔ (t : ℝ) ≤ m * 2 ^ e := by
  rcases lt_or_ge e 0 with h | h
  · have e1 : (2 : ℝ) ^ e = (((2 ^ (-e).toNat : Nat) : ℝ))⁻¹ := by
      rw [Nat.cast_pow, Nat.cast_ofNat, ← zpow_natCast, Int.toNat_of_nonneg (by omega), zpow_neg, inv_inv]
    rw [or_iff_right (by omega), and_iff_right h, Nat.le_div_iff_mul_le (Nat.two_pow_pos _), e1, ← div_eq_mul_inv,
      le_div_iff₀ (by positivity)]
    exact_mod_cast Iff.rfl
  · have e1 : (2 : ℝ) ^ e = ((2 ^ e.toNat : Nat) : ℝ) := by
      rw [Nat.cast_pow, Nat.cast_ofNat, ← zpow_natCast, Int.toNat_of_nonneg h]
    rw [or_iff_left (by omega), and_iff_right h, e1]
    exact_mod_cast Iff.rfl

/-- The integer and the fraction of a scaled operand. -/
theorem fixed_parts (n : Bool) (m : Nat) (e : ℤ) :
    let q := (-e).toNat
    let x : ℤ := (if n then -1 else 1) * (m <<< e.toNat : Nat)
    (ratOf (.fin n m e) : ℝ) = (x / (2 ^ q : Nat) : ℤ) + ((x % (2 ^ q : Nat)).toNat : ℝ) / 2 ^ q ∧ (x % (2 ^ q : Nat)).toNat < 2 ^ q := by
  intro q x
  have hq : (0 : ℤ) < (2 ^ q : Nat) := by exact_mod_cast Nat.two_pow_pos q
  have hr : (ratOf (.fin n m e) : ℝ) = (x : ℝ) / 2 ^ q := by
    have hx : (x : ℝ) = sgn n * (m * 2 ^ e.toNat) := by
      show (((if n then -1 else 1) * (m <<< e.toNat : Nat) : ℤ) : ℝ) = _
      rw [Nat.shiftLeft_eq]
      cases n <;> simp
    have he : (2 : ℝ) ^ e = 2 ^ e.toNat / 2 ^ q := by
      rw [← zpow_natCast, ← zpow_natCast, ← two_zpow_sub]
      congr 1
      omega
    rw [ratOf_fin, hx, he]
    ring
  have hm0 := Int.emod_nonneg x hq.ne'
  have hm1 := Int.emod_lt_of_pos x hq
  refine ⟨?_, by omega⟩
  have hc : ((x % (2 ^ q : Nat)).toNat : ℝ) = ((x % (2 ^ q : Nat) : ℤ) : ℝ) := by
    have := Int.toNat_of_nonneg hm0
    exact_mod_cast congrArg (Int.cast (R := ℝ)) this
  have hd : (x : ℝ) = ((2 ^ q : Nat) : ℝ) * (x / (2 ^ q : Nat) : ℤ) + (x % (2 ^ q : Nat) : ℤ) := by
    exact_mod_cast (Int.mul_ediv_add_emod x (2 ^ q : Nat)).symm
  have hp : (2 : ℝ) ^ q ≠ 0 := by positivity
  rw [hr, hc]
  generalize (x / (2 ^ q : Nat) : ℤ) = k at *
  generalize (x % (2 ^ q : Nat) : ℤ) = f at *
  rw [hd]
  push_cast
  field_simp

/-- An operand below 128 is so far below it that its power does not round to infinity. -/
theorem exp2_below_max {n : Bool} {m : Nat} {e : ℤ} (hm : m < 2 ^ 24) (h : (ratOf (.fin n m e) : ℝ) < 128) :
    (2 : ℝ) ^ (ratOf (.fin n m e) : ℝ) < fp32.grid fp32.maxCode := by
  have hm' : (m : ℝ) < 2 ^ (24 : ℤ) := by exact_mod_cast hm
  have hx : (ratOf (.fin n m e) : ℝ) ≤ 128 - 2 ^ (-17 : ℤ) := by
    have h0 : (0 : ℝ) ≤ m * 2 ^ e := mul_nonneg (Nat.cast_nonneg _) (two_zpow_pos e).le
    have h17 : (2 : ℝ) ^ (-17 : ℤ) ≤ 1 := by norm_num
    rw [ratOf_fin] at h ⊢
    cases n
    · rw [sgn_false, one_mul] at h ⊢
      rcases lt_or_ge e (-17) with he | he
      · have h1 : (m : ℝ) * 2 ^ e ≤ 2 ^ (24 : ℤ) * 2 ^ (-18 : ℤ) :=
          mul_le_mul hm'.le (two_zpow_le.2 (by omega)) (two_zpow_pos e).le (two_zpow_pos _).le
        have h2 : (2 : ℝ) ^ (24 : ℤ) * 2 ^ (-18 : ℤ) = 64 := by norm_num
        linarith
      · -- both are multiples of 2 ^ -17
        have e1 : (m : ℝ) * 2 ^ e = ((m * 2 ^ (e + 17).toNat : Nat) : ℝ) * 2 ^ (-17 : ℤ) := by
          push_cast
          rw [← zpow_natCast, Int.toNat_of_nonneg (by omega), mul_assoc, ← two_zpow_add]
          congr 2
          ring
        rw [e1] at h ⊢
        generalize m * 2 ^ (e + 17).toNat = t at *
        have ht : t < 128 * 2 ^ 17 := by
          have : (t : ℝ) < 128 * 2 ^ (17 : ℤ) := by
            rw [zpow_neg, ← div_eq_mul_inv, div_lt_iff₀ (two_zpow_pos _)] at h
            exact h
          exact_mod_cast this
        have : (t : ℝ) ≤ 128 * 2 ^ 17 - 1 := by
          have : (t : ℝ) + 1 ≤ 128 * 2 ^ 17 := by exact_mod_cast ht
          linarith
        calc (t : ℝ) * 2 ^ (-17 : ℤ) ≤ (128 * 2 ^ 17 - 1) * 2 ^ (-17 : ℤ) := mul_le_mul_of_nonneg_right this (two_zpow_pos _).le
          _ = 128 - 2 ^ (-17 : ℤ) := by norm_num
    · rw [sgn_true]; linarith
  have hgap : (1 : ℝ) + 2 ^ (-18 : ℤ) ≤ 2 ^ ((2 : ℝ) ^ (-17 : ℤ)) := by
    rw [Real.rpow_def_of_pos two_pos]
    have hl := Real.log_two_gt_d9
    have he := Real.add_one_le_exp (Real.log 2 * 2 ^ (-17 : ℤ))
    have h18 : (2 : ℝ) ^ (-18 : ℤ) = 1 / 2 * 2 ^ (-17 : ℤ) := by norm_num
    have hm2 : (1 : ℝ) / 2 * 2 ^ (-17 : ℤ) ≤ Real.log 2 * 2 ^ (-17 : ℤ) := mul_le_mul_of_nonneg_right (by linarith) (two_zpow_pos _).le
    rw [h18, add_comm]
    exact (add_le_add_left hm2 1).trans he
  have hpow : (2 : ℝ) ^ (128 - (2 : ℝ) ^ (-17 : ℤ)) * (1 + 2 ^ (-18 : ℤ)) ≤ 2 ^ (128 : ℤ) := by
    calc (2 : ℝ) ^ (128 - (2 : ℝ) ^ (-17 : ℤ)) * (1 + 2 ^ (-18 : ℤ)) ≤ 2 ^ (128 - (2 : ℝ) ^ (-17 : ℤ)) * 2 ^ ((2 : ℝ) ^ (-17 : ℤ)) :=
          mul_le_mul_of_nonneg_left hgap (by positivity)
      _ = 2 ^ (128 : ℝ) := by rw [← Real.rpow_add two_pos, sub_add_cancel]
      _ = 2 ^ (128 : ℤ) := by rw [← Real.rpow_intCast]; norm_num
  rw [grid_maxCode_fp32]
  refine (Real.rpow_le_rpow_of_exponent_le (by norm_num) hx).trans_lt ?_
  refine lt_of_mul_lt_mul_right (hpow.trans_lt ?_) (by positivity : (0 : ℝ) ≤ 1 + 2 ^ (-18 : ℤ))
  norm_num

/-- A power of two that FP32 holds. -/
theorem exp2_int {k : ℤ} (h1 : -149 ≤ k) (h2 : k ≤ 127) :
    (fp32.roundMag 0 false 1 1 k).exact = true ∧ FinIs (fp32.read (BitVec.ofNat 64 (fp32.roundMag 0 false 1 1 k).code)) false ((2 : ℝ) ^ k) := by
  have hmax : ((1 : Nat) : ℝ) * 2 ^ k ≤ fp32.grid fp32.maxCode := by
    rw [grid_maxCode_fp32, Nat.cast_one, one_mul]
    exact (two_zpow_le.2 h2).trans (by norm_num)
  obtain ⟨-, hx, hv⟩ := Fmt.roundMag_representable (f := fp32) (rm := 0) (by norm_num) false one_pos (by decide) h1 hmax
  have hr := finIs_read_fp32 false (Fmt.roundMag_code_le good_fp32 (rm := 0) (by norm_num) false one_pos one_pos k)
  rw [hv] at hr
  exact ⟨hx, by simpa [Fmt.signBit] using hr⟩

/-- A power of two below the least magnitude is not exact. -/
theorem exp2_int_low {k : ℤ} (h : k < -149) : (fp32.roundMag 0 false 1 1 k).exact ≠ true := by
  obtain ⟨u, q, h1, h2, hq, hr⟩ := fp32.roundMag_spec (rm := 0) (by norm_num) false one_pos one_pos k
  rw [Nat.cast_one, div_one, one_mul] at h1 h2 hq hr
  have hu : u ≤ k := (le_add_of_nonneg_right (Int.natCast_nonneg _)).trans (two_zpow_le.1 h1)
  have hqu := roundedTo_multiple (rm := 0) (neg := false) (m := 1) hu (by rwa [Nat.cast_one, one_mul])
  rw [Nat.cast_one, one_mul] at hqu
  rcases hr with ⟨-, -, -, hle, -, -, hx⟩ | ⟨hge, -⟩
  · rw [Ne, hx, fp32.grid_low hle, show fp32.qmin = -149 from rfl]
    generalize (fp32.roundMag 0 false 1 1 k).code = c
    rcases Nat.eq_zero_or_pos c with rfl | hc
    · rw [Nat.cast_zero, zero_mul]; exact (two_zpow_pos k).ne
    · have hc1 : (1 : ℝ) ≤ c := by exact_mod_cast hc
      have := le_mul_of_one_le_left (two_zpow_pos (-149)).le hc1
      exact ((two_zpow_lt.2 h).trans_le this).ne'
  · rw [hqu] at hge
    have : (-126 : ℤ) ≤ k := two_zpow_le.1 hge
    omega

/-- The far end: below 2 ^ -256 one of the two least magnitudes is delivered. -/
theorem exp2_far (bits : Nat) {x : ℝ} (hx : x ≤ -256) : NearTo (faithful 0 bits false 1 1 (-300)) (2 ^ x) (2 ^ (-149 : ℤ)) := by
  have hv : (2 : ℝ) ^ x ≤ 2 ^ (-149 : ℤ) := by
    rw [← Real.rpow_intCast]
    exact Real.rpow_le_rpow_of_exponent_le (by norm_num) (by push_cast; linarith)
  have hv0 : (0 : ℝ) < 2 ^ x := Real.rpow_pos_of_pos two_pos x
  have hc : (fp32.roundMag 1 false 1 1 (-300)).code = 0 := by decide
  have hf : (faithful 0 bits false 1 1 (-300)).1 = BitVec.ofNat 64 (fp32.signBit false + if Config.sfuUpper 0 bits then 1 else 0) := by
    simp only [faithful, hc]
  have hg : fp32.grid (if Config.sfuUpper 0 bits then 1 else 0) = if Config.sfuUpper 0 bits then 2 ^ (-149 : ℤ) else 0 := by
    split
    · rw [fp32.grid_low (by decide), Nat.cast_one, one_mul]; rfl
    · rw [fp32.grid_low (by decide), Nat.cast_zero, zero_mul]
  refine ⟨false, _, hf ▸ finIs_read_fp32 false (by split <;> decide), ?_⟩
  rw [hg, sgn_false, one_mul, abs_of_pos hv0]
  have h22 := mul_nonneg hv0.le (two_zpow_pos (-22)).le
  split
  · rw [abs_of_nonneg (by linarith)]; linarith
  · rw [zero_sub, abs_neg, abs_of_pos hv0]; linarith

/-- The tests by which `fpExp2` tells an operand of 128 or more, and one of -256 or less. -/
theorem exp2_large_iff (n : Bool) (m : Nat) (e : ℤ) :
    (!n && decide (2 ^ 7 ≤ m * 2 ^ e.toNat) && decide (0 ≤ e) || (!n && decide (e < 0) && decide (2 ^ 7 ≤ m / 2 ^ (-e).toNat))) = true ↔
      (128 : ℝ) ≤ ratOf (.fin n m e) := by
  have hmag : (0 : ℝ) ≤ m * 2 ^ e := mul_nonneg (Nat.cast_nonneg _) (two_zpow_pos e).le
  have := magnitude_ge m (2 ^ 7) e
  rw [ratOf_fin]
  cases n
  · rw [sgn_false, one_mul, show (128 : ℝ) = ((2 ^ 7 : Nat) : ℝ) by norm_num, ← this]
    simp [and_comm]
  · rw [sgn_true]
    simp only [Bool.not_true, Bool.false_and, Bool.or_self, Bool.false_eq_true, false_iff, not_le]
    linarith
theorem exp2_small_iff (n : Bool) (m : Nat) (e : ℤ) :
    (n && (decide (0 ≤ e) && decide (2 ^ 8 ≤ m * 2 ^ e.toNat) || decide (e < 0) && decide (2 ^ 8 ≤ m / 2 ^ (-e).toNat))) = true ↔
      (ratOf (.fin n m e) : ℝ) ≤ -256 := by
  have hmag : (0 : ℝ) ≤ m * 2 ^ e := mul_nonneg (Nat.cast_nonneg _) (two_zpow_pos e).le
  have := magnitude_ge m (2 ^ 8) e
  rw [ratOf_fin]
  cases n
  · rw [sgn_false]
    simp only [Bool.false_and, Bool.false_eq_true, false_iff, not_le]
    linarith
  · rw [sgn_true, neg_one_mul, neg_le_neg_iff, show (256 : ℝ) = ((2 ^ 8 : Nat) : ℝ) by norm_num, ← this]
    simp

/-- `fpExp2` of 0. -/
theorem exp2_zero : ExactlyIs ((0x3F800000, 0) : FpOut) (2 ^ (0 : ℤ)) := by
  have hx := exp2_int (k := 0) (by norm_num) (by norm_num)
  have hc : (fp32.roundMag 0 false 1 1 0).code = 0x3F800000 := by decide
  rw [hc] at hx
  exact ⟨⟨false, hx.2⟩, rfl⟩

/-- `fpExp2` of an operand between the far ends, of integer k and fraction f / 2 ^ q. -/
def exp2Middle (bits : Nat) (k : ℤ) (f q : Nat) : FpOut :=
  if f = 0 then
    if (fp32.roundMag 0 false 1 1 k).exact then (BitVec.ofNat 64 (fp32.roundMag 0 false 1 1 k).code, 0) else faithful 0 bits false 1 1 k
  else faithful 0 bits false (expBits f q (isqrt (2 * fixOne * fixOne)) fixOne) fixOne k

theorem exp2Middle_int (bits : Nat) {k : ℤ} (q : Nat) (h1 : -149 ≤ k) (h2 : k ≤ 127) : ExactlyIs (exp2Middle bits k 0 q) (2 ^ k) := by
  obtain ⟨hx, hr⟩ := exp2_int h1 h2
  rw [exp2Middle, if_pos rfl, if_pos hx]
  exact ⟨⟨false, hr⟩, rfl⟩

theorem exp2Middle_int_near (bits : Nat) {k : ℤ} (q : Nat) (hk : k ≤ 127) : NearTo (exp2Middle bits k 0 q) (2 ^ k) (2 ^ (-149 : ℤ)) := by
  rcases lt_or_ge k (-149) with hk1 | hk1
  · have hX : ((1 : Nat) : ℝ) / (1 : Nat) * 2 ^ k = 2 ^ k := by simp
    have hmax : (2 : ℝ) ^ k < fp32.grid fp32.maxCode := by
      rw [grid_maxCode_fp32]
      exact (two_zpow_le.2 (show k ≤ 0 by omega)).trans_lt (by norm_num)
    have hn := faithful_near 0 bits false one_pos one_pos k (V := 2 ^ k) (by rwa [hX]) (two_zpow_pos k).le (by rw [hX, sub_self, abs_zero]; positivity)
    rw [sgn_false, one_mul] at hn
    rw [exp2Middle, if_pos rfl, if_neg (exp2_int_low hk1)]
    exact hn.1
  · exact (exp2Middle_int bits q hk1 hk).nearTo (two_zpow_pos _).le

theorem exp2Middle_fraction_near (bits : Nat) (k : ℤ) {f q : Nat} (hf0 : f ≠ 0) (hf : f < 2 ^ q) (hq : q ≤ 149)
    (hmax : (2 : ℝ) ^ ((k : ℝ) + f / 2 ^ q) < fp32.grid fp32.maxCode) :
    NearTo (exp2Middle bits k f q) (2 ^ ((k : ℝ) + f / 2 ^ q)) (2 ^ (-149 : ℤ)) := by
  rw [exp2Middle, if_neg hf0]
  have hV : (2 : ℝ) ^ ((k : ℝ) + f / 2 ^ q) = 2 ^ k * (2 : ℝ) ^ ((f : ℝ) / 2 ^ q) := by rw [Real.rpow_add two_pos, Real.rpow_intCast]
  have hx0 : (0 : ℝ) < 2 ^ ((k : ℝ) + f / 2 ^ q) := Real.rpow_pos_of_pos two_pos _
  obtain ⟨b1, b2⟩ := expBits_start f q hf hq
  have hk := two_zpow_pos k
  have hP : (1 : ℝ) ≤ (2 : ℝ) ^ ((f : ℝ) / 2 ^ q) := Real.one_le_rpow (by norm_num) (by positivity)
  have hE : 0 < expBits f q (isqrt (2 * fixOne * fixOne)) fixOne := by
    rcases Nat.eq_zero_or_pos (expBits f q (isqrt (2 * fixOne * fixOne)) fixOne) with h0 | h0
    · rw [h0, Nat.cast_zero, zero_div] at b1
      have : (0 : ℝ) < 2 ^ ((f : ℝ) / 2 ^ q) * (1 - 2 ^ (-26 : ℤ)) := mul_pos (by linarith) (by norm_num)
      linarith
    · exact h0
  have hn := faithful_near 0 bits false hE fixOne_pos k (V := 2 ^ ((k : ℝ) + f / 2 ^ q))
  rw [sgn_false, one_mul] at hn
  generalize (expBits f q (isqrt (2 * fixOne * fixOne)) fixOne : ℝ) / fixOne = v at *
  have hle : v * 2 ^ k ≤ 2 ^ ((k : ℝ) + f / 2 ^ q) := by rw [hV, mul_comm]; exact mul_le_mul_of_nonneg_left b2 hk.le
  have hge : 2 ^ ((k : ℝ) + f / 2 ^ q) * (1 - 2 ^ (-26 : ℤ)) ≤ v * 2 ^ k := by
    rw [hV, mul_assoc, mul_comm]; exact mul_le_mul_of_nonneg_right b1 hk.le
  generalize (2 : ℝ) ^ ((k : ℝ) + f / 2 ^ q) = V at *
  refine (hn (hle.trans_lt hmax) hx0.le ?_).1
  rw [abs_le]
  have h26 : V * 2 ^ (-26 : ℤ) ≤ V * 2 ^ (-25 : ℤ) := mul_le_mul_of_nonneg_left (two_zpow_le.2 (by norm_num)) hx0.le
  have h25 : (0 : ℝ) ≤ V * 2 ^ (-25 : ℤ) := mul_nonneg hx0.le (two_zpow_pos _).le
  rw [mul_sub, mul_one] at hge
  constructor <;> linarith

/-- `exp2` of a finite operand (R40). -/
theorem fpExp2_fin {a : Word} {n : Bool} {m : Nat} {e : ℤ} (h : fp32.read a = .fin n m e) :
    let x : ℝ := ratOf (.fin n m e)
    (128 ≤ x → fpExp2 0 a 0 = (0x7F800000, 5)) ∧ (x < 128 → NearTo (fpExp2 0 a 0) (2 ^ x) (2 ^ (-149 : ℤ))) ∧
      ∀ z : ℤ, -149 ≤ z → z ≤ 127 → x = z → ExactlyIs (fpExp2 0 a 0) (2 ^ z) := by
  intro x
  obtain ⟨hm, he1, he2⟩ := read_fp32_bounds h
  unfold fpExp2
  rw [h]
  dsimp only
  by_cases h0 : m = 0
  · have hx0 : x = 0 := by rw [show x = _ from ratOf_fin n m e, h0]; simp
    rw [if_pos h0, hx0]
    refine ⟨fun h => absurd h (by norm_num), fun _ => ?_, fun z _ _ hz => ?_⟩
    · rw [Real.rpow_zero, ← zpow_zero (2 : ℝ)]; exact exp2_zero.nearTo (two_zpow_pos _).le
    · have : z = 0 := by exact_mod_cast hz.symm
      rw [this]; exact exp2_zero
  rw [if_neg h0]
  by_cases h1 : 128 ≤ x
  · rw [if_pos ((exp2_large_iff n m e).2 h1)]
    refine ⟨fun _ => rfl, fun h => absurd h1 (not_le.2 h), fun z _ hz hxz => ?_⟩
    have : (z : ℝ) ≤ 127 := by exact_mod_cast hz
    linarith
  rw [if_neg (mt (exp2_large_iff n m e).1 h1)]
  by_cases h2 : x ≤ -256
  · rw [if_pos ((exp2_small_iff n m e).2 h2)]
    refine ⟨fun h => absurd h h1, fun _ => exp2_far _ h2, fun z hz _ hxz => ?_⟩
    have : (-149 : ℝ) ≤ z := by exact_mod_cast hz
    linarith
  rw [if_neg (mt (exp2_small_iff n m e).1 h2)]
  obtain ⟨hparts, hflt⟩ := fixed_parts n m e
  have hq : (-e).toNat ≤ 149 := by omega
  have hmax := exp2_below_max hm (not_le.1 h1)
  have hxv : x = (ratOf (.fin n m e) : ℝ) := rfl
  rw [← hxv] at hparts hmax
  generalize (-e).toNat = q at *
  generalize ((if n = true then -1 else 1) * (m <<< e.toNat : Nat) : ℤ) = X at *
  generalize (X / (2 ^ q : Nat) : ℤ) = k at *
  generalize (X % (2 ^ q : Nat)).toNat = f at *
  generalize x = x at *
  subst hparts
  have hq0 : (0 : ℝ) < 2 ^ q := pow_pos two_pos q
  have hf0 : (0 : ℝ) ≤ (f : ℝ) / 2 ^ q := div_nonneg (Nat.cast_nonneg f) hq0.le
  have hf1 : (f : ℝ) / 2 ^ q < 1 := by
    rw [div_lt_one hq0]; exact_mod_cast hflt
  show _ ∧ (_ → NearTo (exp2Middle (a.toNat % 2 ^ 32) k f q) _ _) ∧ ∀ z : ℤ, _ → _ → _ → ExactlyIs (exp2Middle (a.toNat % 2 ^ 32) k f q) _
  refine ⟨fun h => absurd h h1, fun _ => ?_, fun z hz1 hz2 hxz => ?_⟩
  · by_cases hf : f = 0
    · have hk : k ≤ 127 := by
        have : (k : ℝ) < 128 := by linarith
        have : k < 128 := by exact_mod_cast this
        omega
      rw [hf, Nat.cast_zero, zero_div, add_zero, Real.rpow_intCast]
      exact exp2Middle_int_near _ q hk
    · exact exp2Middle_fraction_near _ k hf hflt hq hmax
  · have hk : k = z := int_unique (by linarith) (by linarith)
    have hf : f = 0 := by
      have : (f : ℝ) / 2 ^ q = 0 := by rw [hk] at hxz; linarith
      exact_mod_cast (div_eq_zero_iff.1 this).resolve_right hq0.ne'
    rw [hf, hk]
    exact exp2Middle_int _ q hz1 hz2

end Sys2Proof.Machine
end

section
/-! `log2` on finite operands (R40). -/

namespace Sys2Proof.Machine

/-- The logarithm of a power of two. -/
theorem logb_two_zpow (z : ℤ) : Real.logb 2 ((2 : ℝ) ^ z) = z := by
  rw [← Real.rpow_intCast, Real.logb_rpow (by norm_num) (by norm_num)]

/-- Truncation in the fixed point lowers a logarithm by a few units at most. -/
theorem logb_truncated {F y t : ℝ} (hF : 0 < F) (h1 : F ≤ y) (h2 : y ≤ t) (h3 : t ≤ y + 2) :
    0 ≤ Real.logb 2 (t / F) - Real.logb 2 (y / F) ∧ Real.logb 2 (t / F) - Real.logb 2 (y / F) ≤ 4 / F := by
  have hy : 0 < y := hF.trans_le h1
  have ht : 0 < t := hy.trans_le h2
  have hl := Real.log_two_gt_d9
  have e : Real.logb 2 (t / F) - Real.logb 2 (y / F) = Real.log (t / y) / Real.log 2 := by
    rw [← Real.logb_div (by positivity) (by positivity), div_div_div_cancel_right₀ hF.ne']; rfl
  rw [e]
  refine ⟨div_nonneg (Real.log_nonneg ((one_le_div hy).2 h2)) (by linarith), ?_⟩
  rw [div_le_iff₀ (by linarith)]
  have h4 := Real.log_le_sub_one_of_pos (div_pos ht hy)
  have h5 : t / y - 1 ≤ 2 / F := by
    rw [div_sub_one hy.ne']
    exact (div_le_div_of_nonneg_right (by linarith) hy.le).trans (div_le_div_of_nonneg_left (by norm_num) hF h1)
  have h6 : 2 / F ≤ 4 / F * Real.log 2 := by
    rw [div_mul_eq_mul_div]; exact div_le_div_of_nonneg_right (by linarith) hF.le
  linarith

theorem logBits_succ (n y acc : Nat) : logBits (n + 1) y acc =
    if 2 * fixOne ≤ y * y / fixOne then logBits n (y * y / fixOne / 2) (2 * acc + 1) else logBits n (y * y / fixOne) (2 * acc) := rfl

/-- `logBits` finds bits of the logarithm of a number of the fixed point in [1, 2). -/
theorem logBits_bounds : ∀ (n y acc : Nat), fixOne ≤ y → y < 2 * fixOne →
    |(logBits n y acc : ℝ) / 2 ^ n - (acc + Real.logb 2 ((y : ℝ) / fixOne))| ≤ 1 / 2 ^ n + 4 / fixOne := by
  have h0 := fixOne_pos
  intro n
  induction n with
  | zero =>
    intro y acc h1 h2
    rw [logBits, pow_zero, div_one]
    generalize fixOne = F at *
    have hF : (0 : ℝ) < F := by exact_mod_cast h0
    have l1 : (1 : ℝ) ≤ y / F := by rw [le_div_iff₀ hF, one_mul]; exact_mod_cast h1
    have l2 : (y : ℝ) / F ≤ 2 := by rw [div_le_iff₀ hF]; exact_mod_cast h2.le
    have k1 := Real.logb_nonneg (b := 2) (by norm_num) l1
    have k2 : Real.logb 2 ((y : ℝ) / F) ≤ 1 := by
      have := Real.logb_le_logb_of_le (b := 2) (by norm_num) (by linarith) l2
      rwa [Real.logb_self_eq_one (by norm_num)] at this
    have : (0 : ℝ) < 4 / F := by positivity
    rw [abs_le]
    constructor <;> linarith
  | succ n ih =>
    intro y acc h1 h2
    rw [logBits_succ]
    generalize fixOne = F at *
    have hF : (0 : ℝ) < F := by exact_mod_cast h0
    have hy1 : (F : ℝ) ≤ y := by exact_mod_cast h1
    have hy0 : (0 : ℝ) < y := hF.trans_le hy1
    have hsq : Real.logb 2 ((y : ℝ) * y / F / F) = 2 * Real.logb 2 (y / F) := by
      rw [div_div, mul_div_mul_comm, Real.logb_mul (by positivity) (by positivity)]; ring
    have hlo : ((y * y / F : Nat) : ℝ) ≤ y * y / F := by exact_mod_cast Nat.cast_div_le (α := ℝ) (m := y * y) (n := F)
    have hhi : (y : ℝ) * y / F < ((y * y / F : Nat) : ℝ) + 1 := by
      rw [div_lt_iff₀ hF]
      have := Nat.lt_mul_div_succ (y * y) h0
      rw [Nat.mul_comm F] at this
      exact_mod_cast this
    have hge : F ≤ y * y / F := by
      rw [Nat.le_div_iff_mul_le h0]; exact Nat.mul_le_mul h1 h1
    have hlt : y * y / F < 4 * F := by
      rw [Nat.div_lt_iff_lt_mul h0]
      calc y * y < 2 * F * (2 * F) := Nat.mul_lt_mul_of_lt_of_lt h2 h2
        _ = 4 * F * F := by ring
    generalize y * y / F = y2 at *
    -- one more bit halves the error
    have step : ∀ (D bit : ℝ) (L' : ℝ), |D / 2 ^ n - (2 * acc + bit + L')| ≤ 1 / 2 ^ n + 4 / F →
        0 ≤ 2 * Real.logb 2 ((y : ℝ) / F) - bit - L' → 2 * Real.logb 2 ((y : ℝ) / F) - bit - L' ≤ 4 / F →
        |D / 2 ^ (n + 1) - (acc + Real.logb 2 ((y : ℝ) / F))| ≤ 1 / 2 ^ (n + 1) + 4 / F := by
      intro D bit L' hD d1 d2
      have e1 : D / 2 ^ (n + 1) = D / 2 ^ n / 2 := by rw [pow_succ, div_div]
      have e2 : (1 : ℝ) / 2 ^ (n + 1) = 1 / 2 ^ n / 2 := by rw [pow_succ, div_div]
      rw [e1, e2]
      rw [abs_le] at hD ⊢
      constructor <;> linarith [hD.1, hD.2]
    by_cases hb : 2 * F ≤ y2
    · rw [if_pos hb]
      have q1 : ((y2 / 2 : Nat) : ℝ) ≤ y2 / 2 := Nat.cast_div_le
      have q2 : (y2 : ℝ) / 2 < ((y2 / 2 : Nat) : ℝ) + 1 := by
        have : y2 < (y2 / 2 + 1) * 2 := by omega
        rw [div_lt_iff₀ two_pos]; exact_mod_cast this
      have hi := ih (y2 / 2) (2 * acc + 1) (by omega) (by omega)
      obtain ⟨d1, d2⟩ := logb_truncated hF (y := ((y2 / 2 : Nat) : ℝ)) (t := (y : ℝ) * y / F / 2)
        (by exact_mod_cast (show F ≤ y2 / 2 by omega)) (by linarith) (by linarith)
      have hhalf : Real.logb 2 ((y : ℝ) * y / F / 2 / F) = 2 * Real.logb 2 (y / F) - 1 := by
        rw [div_right_comm, Real.logb_div (by positivity) (by norm_num), hsq, Real.logb_self_eq_one (by norm_num)]
      rw [hhalf] at d1 d2
      push_cast at hi
      exact step _ 1 _ hi d1 d2
    · rw [if_neg hb]
      have hi := ih y2 (2 * acc) hge (by omega)
      obtain ⟨d1, d2⟩ := logb_truncated hF (y := (y2 : ℝ)) (t := (y : ℝ) * y / F) (by exact_mod_cast hge) hlo (by linarith)
      rw [hsq] at d1 d2
      push_cast at hi
      exact step _ 0 (Real.logb 2 ((y2 : ℝ) / F)) (by rwa [add_zero]) (by rwa [sub_zero]) (by rwa [sub_zero])

/-- A logarithm of a number of 24 bits that is no power of two is not near an integer. -/
theorem logb_significand {m : Nat} (hm : m < 2 ^ 24) {l : Nat} (h1 : 2 ^ l < m) (h2 : m < 2 ^ (l + 1)) :
    (2 : ℝ) ^ (-25 : ℤ) ≤ Real.logb 2 ((m : ℝ) / 2 ^ l) ∧ Real.logb 2 ((m : ℝ) / 2 ^ l) ≤ 1 - 2 ^ (-25 : ℤ) := by
  -- log2 (1 + t) is at least t / 2
  have key : ∀ a b : Nat, 0 < a → a < b → a < 2 ^ 24 → (2 : ℝ) ^ (-25 : ℤ) ≤ Real.logb 2 ((b : ℝ) / a) := by
    intro a b ha hab ha24
    have hA : (0 : ℝ) < a := by exact_mod_cast ha
    have hB : (a : ℝ) + 1 ≤ b := by exact_mod_cast hab
    have hA24 : (a : ℝ) + 1 ≤ 2 ^ 24 := by exact_mod_cast ha24
    have hl := Real.log_two_lt_d9
    have hl' := Real.log_two_gt_d9
    have hx := Real.one_sub_inv_le_log_of_pos (div_pos (by linarith : (0 : ℝ) < b) hA)
    have hinv : ((b : ℝ) / a)⁻¹ ≤ 1 - 2 ^ (-24 : ℤ) := by
      rw [inv_div, div_le_iff₀ (by linarith)]
      have : (a : ℝ) ≤ (1 - 2 ^ (-24 : ℤ)) * (a + 1) := by norm_num; linarith
      exact this.trans (mul_le_mul_of_nonneg_left hB (by norm_num))
    rw [Real.logb, le_div_iff₀ (by linarith)]
    have : (2 : ℝ) ^ (-25 : ℤ) * Real.log 2 ≤ 2 ^ (-24 : ℤ) := by norm_num; linarith
    linarith
  have hp : 0 < 2 ^ l := Nat.two_pow_pos l
  have k1 := key (2 ^ l) m hp h1 (by omega)
  have k2 := key m (2 ^ (l + 1)) (by omega) h2 hm
  push_cast at k1 k2
  refine ⟨k1, ?_⟩
  have hM : (0 : ℝ) < m := by exact_mod_cast (by omega : 0 < m)
  have e : Real.logb 2 ((2 : ℝ) ^ (l + 1) / m) = 1 - Real.logb 2 ((m : ℝ) / 2 ^ l) := by
    rw [Real.logb_div (by positivity) hM.ne', Real.logb_div hM.ne' (by positivity), pow_succ,
      Real.logb_mul (by positivity) (by norm_num), Real.logb_self_eq_one (by norm_num)]
    ring
  linarith

/-- An integer of FP32's exponent range is held exactly. -/
theorem ofInt_exactly {k : ℤ} (hk : k.natAbs < 2 ^ 24) : ExactlyIs (placeFp (fp32.ofInt 0 k)) k := by
  have hs : sgn (decide (k < 0)) * (k.natAbs : ℝ) = k := by
    rw [Nat.cast_natAbs, Int.cast_abs]
    rcases lt_or_ge k 0 with h | h
    · have : (k : ℝ) < 0 := by exact_mod_cast h
      simp [h, abs_of_neg this]
    · have : (0 : ℝ) ≤ k := by exact_mod_cast h
      simp [not_lt.2 h, abs_of_nonneg this]
  show ExactlyIs (placeFp (fp32.round 0 (decide (k < 0)) k.natAbs 1 0)) k
  rcases Nat.eq_zero_or_pos k.natAbs with h | h
  · rw [h, Nat.cast_zero, mul_zero] at hs
    rw [h, fp32.round_zero, ← hs]
    have hz := finIs_read_fp32 (decide (k < 0)) (Nat.zero_le _)
    rw [Nat.add_zero, fp32.grid_low (Nat.zero_le _), Nat.cast_zero, zero_mul, mul_zero] at hz
    exact ⟨⟨_, hz⟩, rfl⟩
  · have hmax : (k.natAbs : ℝ) * 2 ^ (0 : ℤ) ≤ fp32.grid fp32.maxCode := by
      rw [grid_maxCode_fp32]
      have : (k.natAbs : ℝ) ≤ (2 ^ 24 - 1 : ℕ) := by exact_mod_cast Nat.le_sub_one_of_lt hk
      exact mul_le_mul this (by norm_num) (by norm_num) (Nat.cast_nonneg _)
    obtain ⟨ho, hx, hv⟩ := Fmt.roundMag_representable (f := fp32) (rm := 0) (by norm_num) (decide (k < 0)) h hk (by decide) hmax
    rw [Fmt.round, if_neg h.ne']
    simp only [ho, hx, Bool.false_eq_true, if_false, if_true]
    have hr := finIs_read_fp32 (decide (k < 0)) (Fmt.roundMag_code_le good_fp32 (rm := 0) (by norm_num) (decide (k < 0)) h one_pos 0)
    rw [hv, zpow_zero, mul_one, hs] at hr
    exact ⟨⟨_, hr⟩, rfl⟩

/-- The significand in the fixed point. -/
theorem fixed_significand {m l : Nat} (hl : l ≤ 512) (h1 : 2 ^ l ≤ m) (h2 : m < 2 ^ (l + 1)) :
    fixOne ≤ m * fixOne / 2 ^ l ∧ m * fixOne / 2 ^ l < 2 * fixOne ∧ ((m * fixOne / 2 ^ l : Nat) : ℝ) / fixOne = m / 2 ^ l := by
  have h0 := fixOne_pos
  have hF : (fixOne : ℝ) ≠ 0 := by exact_mod_cast h0.ne'
  obtain ⟨t, ht⟩ : 2 ^ l ∣ fixOne := by rw [fixOne]; exact pow_dvd_pow 2 hl
  have hp := Nat.two_pow_pos l
  rw [pow_succ] at h2
  have e : m * fixOne / 2 ^ l = m * t := by rw [ht, Nat.mul_left_comm, Nat.mul_div_cancel_left _ hp]
  rw [e]
  generalize fixOne = F at *
  subst ht
  have ht0 : 0 < t := Nat.pos_of_mul_pos_left h0
  refine ⟨Nat.mul_le_mul_right t h1, ?_, ?_⟩
  · calc m * t < 2 ^ l * 2 * t := Nat.mul_lt_mul_of_pos_right h2 ht0
      _ = 2 * (2 ^ l * t) := by ring
  · have : (t : ℝ) ≠ 0 := by exact_mod_cast ht0.ne'
    push_cast
    field_simp

/-- A logarithm that is no integer, from a sum of units that is close to it: the result is near. -/
theorem faithful_log_near (bits : Nat) {w : ℤ} {L : ℝ} (hw : w ≠ 0) (hL1 : (2 : ℝ) ^ (-25 : ℤ) ≤ |L|) (hL2 : |L| ≤ 200)
    (hc : |(w : ℝ) * 2 ^ (-101 : ℤ) - L| ≤ 2 ^ (-60 : ℤ)) :
    NearTo (faithful 1 bits (decide (w < 0)) w.natAbs 1 (-101)) L 0 := by
  have hX : ((w.natAbs : Nat) : ℝ) / (1 : Nat) * 2 ^ (-101 : ℤ) = |(w : ℝ) * 2 ^ (-101 : ℤ)| := by
    rw [Nat.cast_one, div_one, Nat.cast_natAbs, Int.cast_abs, abs_mul, abs_of_pos (two_zpow_pos _)]
  have hsmall : (2 : ℝ) ^ (-60 : ℤ) < 2 ^ (-25 : ℤ) := two_zpow_lt.2 (by norm_num)
  -- both have one sign
  have hs : sgn (decide (w < 0)) * |L| = L := by
    have hp := two_zpow_pos (-101)
    rw [abs_le] at hc
    rcases lt_or_ge w 0 with h | h
    · have hw0 : (w : ℝ) * 2 ^ (-101 : ℤ) < 0 := mul_neg_of_neg_of_pos (by exact_mod_cast h) hp
      have : L < 0 := by
        by_contra hn
        rw [abs_of_nonneg (not_lt.1 hn)] at hL1
        linarith
      simp [h, abs_of_neg this]
    · have hw0 : 0 ≤ (w : ℝ) * 2 ^ (-101 : ℤ) := mul_nonneg (by exact_mod_cast h) hp.le
      have : 0 < L := by
        by_contra hn
        rw [abs_of_nonpos (not_lt.1 hn)] at hL1
        linarith
      simp [not_lt.2 h, abs_of_pos this]
  have hd := (abs_abs_sub_abs_le ((w : ℝ) * 2 ^ (-101 : ℤ)) L).trans hc
  have hn := faithful_near 1 bits (decide (w < 0)) (Int.natAbs_pos.2 hw) one_pos (-101) (V := |L|)
  rw [hX, hs] at hn
  generalize |(w : ℝ) * 2 ^ (-101 : ℤ)| = X at *
  generalize |L| = V at *
  have hV : (2 : ℝ) ^ (-50 : ℤ) ≤ V * 2 ^ (-25 : ℤ) := by
    rw [show (-50 : ℤ) = -25 + -25 by norm_num, two_zpow_add]
    exact mul_le_mul_of_nonneg_right hL1 (two_zpow_pos _).le
  have h60 : (2 : ℝ) ^ (-60 : ℤ) ≤ 2 ^ (-50 : ℤ) := two_zpow_le.2 (by norm_num)
  rw [abs_le] at hd
  refine (hn ?_ ((two_zpow_pos _).le.trans hL1) (abs_le.2 ⟨by linarith, by linarith⟩)).2 ?_
  · rw [grid_maxCode_fp32]
    have h1 : (2 : ℝ) ^ (-60 : ℤ) ≤ 1 := by norm_num
    have h2 : (300 : ℝ) < (2 ^ 24 - 1 : ℕ) * 2 ^ (104 : ℤ) := by norm_num
    linarith
  · have h126 : (2 : ℝ) ^ (-126 : ℤ) ≤ 2 ^ (-25 : ℤ) - 2 ^ (-60 : ℤ) := by norm_num
    linarith

/-- An operand by its binade, and its logarithm. -/
theorem logb_operand {m : Nat} (hm0 : 0 < m) (e : ℤ) (l : Nat) :
    (ratOf (.fin false m e) : ℝ) = m / 2 ^ l * 2 ^ (e + l) ∧
      Real.logb 2 (ratOf (.fin false m e) : ℝ) = (e + l : ℤ) + Real.logb 2 ((m : ℝ) / 2 ^ l) := by
  have hM : (0 : ℝ) < m := by exact_mod_cast hm0
  have hx : (ratOf (.fin false m e) : ℝ) = m / 2 ^ l * 2 ^ (e + l) := by
    rw [ratOf_fin, sgn_false, one_mul, two_zpow_add, zpow_natCast]
    field_simp
  refine ⟨hx, ?_⟩
  rw [hx, Real.logb_mul (by positivity) (two_zpow_pos _).ne', logb_two_zpow]
  ring

/-- The delivered neighbour of a logarithm K + L with 0 < L < 1, of which D counts L in the unit 2 ^ -100. -/
theorem faithful_log_digits (bits : Nat) {K D : ℤ} {L : ℝ} (hK : |K| ≤ 150) (h1 : (2 : ℝ) ^ (-25 : ℤ) ≤ L) (h2 : L ≤ 1 - 2 ^ (-25 : ℤ))
    (hD : |(D : ℝ) / 2 ^ 100 - L| ≤ 1 / 2 ^ 100 + 2 ^ (-100 : ℤ)) :
    let v : ℤ := K * (2 ^ 100 : Nat) + D
    NearTo (faithful 1 bits (decide (2 * v + 1 < 0)) (2 * v + 1).natAbs 1 (-101)) (K + L) 0 := by
  intro v
  have hw : ((2 * (K * (2 ^ 100 : Nat) + D) + 1 : ℤ) : ℝ) * 2 ^ (-101 : ℤ) = K + D / 2 ^ 100 + 2 ^ (-101 : ℤ) := by
    push_cast
    norm_num
    ring
  refine faithful_log_near _ (by omega) ?_ ?_ ?_
  · rw [le_abs]
    rcases lt_or_ge K 0 with h | h
    · right
      have : (K : ℝ) ≤ -1 := by exact_mod_cast (by omega : K ≤ -1)
      linarith
    · left
      have : (0 : ℝ) ≤ K := by exact_mod_cast h
      linarith
  · have hK' : |(K : ℝ)| ≤ 150 := by exact_mod_cast hK
    have hq := two_zpow_pos (-25)
    rw [abs_le] at hK' ⊢
    constructor <;> linarith [hK'.1, hK'.2]
  · rw [hw]
    have h100 : (1 : ℝ) / 2 ^ 100 + 2 ^ (-100 : ℤ) + 2 ^ (-101 : ℤ) ≤ 2 ^ (-60 : ℤ) := by norm_num
    have h101 := two_zpow_pos (-101)
    rw [abs_le] at hD ⊢
    constructor <;> linarith [hD.1, hD.2]

/-- `log2` of a positive finite operand (R40). -/
theorem fpLog2_pos {a : Word} {m : Nat} {e : ℤ} (h : fp32.read a = .fin false m e) (hm0 : 0 < m) :
    let x : ℝ := ratOf (.fin false m e)
    NearTo (fpLog2 0 a 0) (Real.logb 2 x) 0 ∧ ∀ z : ℤ, x = 2 ^ z → ExactlyIs (fpLog2 0 a 0) z := by
  intro x
  obtain ⟨hm, he1, he2⟩ := read_fp32_bounds h
  have hM : (0 : ℝ) < m := by exact_mod_cast hm0
  have hl1 := Nat.log2_self_le hm0.ne'
  have hl2 : m < 2 ^ (Nat.log2 m + 1) := Nat.lt_log2_self
  have hl24 : Nat.log2 m < 24 := (Nat.log2_lt hm0.ne').2 hm
  have hf : fpLog2 0 a 0 = if m = 2 ^ Nat.log2 m then placeFp (fp32.ofInt 0 (e + Nat.log2 m)) else
      let v : ℤ := (e + Nat.log2 m) * (2 ^ 100 : Nat) + logBits 100 (m * fixOne / 2 ^ Nat.log2 m) 0
      faithful 1 (a.toNat % 2 ^ 32) (decide (2 * v + 1 < 0)) (2 * v + 1).natAbs 1 (-101) := by
    unfold fpLog2
    rw [h]
    dsimp only
    rw [if_neg hm0.ne', if_neg (by simp)]
  rw [hf]
  clear hf
  have hl24' := hl24
  generalize Nat.log2 m = l at *
  obtain ⟨hx, hlog⟩ : x = m / 2 ^ l * 2 ^ (e + l) ∧ Real.logb 2 x = (e + l : ℤ) + Real.logb 2 ((m : ℝ) / 2 ^ l) := logb_operand hm0 e l
  by_cases hp : m = 2 ^ l
  · have hk : (e + l : ℤ).natAbs < 2 ^ 24 := by omega
    have hone : (m : ℝ) / 2 ^ l = 1 := by rw [hp]; push_cast; exact div_self (by positivity)
    rw [if_pos hp, hlog, hone, Real.logb_one, add_zero]
    refine ⟨(ofInt_exactly hk).nearTo le_rfl, fun z hz => ?_⟩
    rw [hx, hone, one_mul] at hz
    rw [← zpow_right_injective₀ (by norm_num) (by norm_num) hz]
    exact ofInt_exactly hk
  · rw [if_neg hp]
    have hlt : 2 ^ l < m := lt_of_le_of_ne hl1 (Ne.symm hp)
    obtain ⟨s1, s2⟩ := logb_significand hm hlt hl2
    refine ⟨?_, fun z hz => ?_⟩
    · obtain ⟨y1, y2, y3⟩ := fixed_significand (by omega) hl1 hl2
      have hD := logBits_bounds 100 _ 0 y1 y2
      rw [y3] at hD
      dsimp only
      generalize logBits 100 (m * fixOne / 2 ^ l) 0 = D at *
      have hF : 4 / (fixOne : ℝ) ≤ 2 ^ (-100 : ℤ) := by
        rw [fixOne_eq, show (4 : ℝ) = 2 ^ (2 : ℤ) by norm_num, ← two_zpow_sub]
        exact two_zpow_le.2 (by norm_num)
      rw [Nat.cast_zero, zero_add] at hD
      rw [hlog]
      exact faithful_log_digits _ (by rw [abs_le]; omega) s1 s2 (by rw [Int.cast_natCast]; linarith)
    · -- the logarithm lies strictly between integers
      exfalso
      have hz' : Real.logb 2 x = z := by rw [hz, logb_two_zpow]
      rw [hlog] at hz'
      have hq := two_zpow_pos (-25)
      have h1 : ((e + l : ℤ) : ℝ) < z := by linarith
      have h2 : (z : ℝ) < (e + l : ℤ) + 1 := by linarith
      exact h1.ne (congrArg _ (int_unique (by linarith) h2))

end Sys2Proof.Machine
end

section
/-! The Taylor polynomials of sine and cosine in the fixed point (R40). -/

namespace Sys2Proof.Machine

/-! ### The polynomials over the real numbers -/

/-- What `trigTerms` computes, over the real numbers: s is the square of the argument. -/
noncomputable def trigPoly (s : ℝ) : Nat → Nat → ℝ → ℝ
  | 0, _, _ => 0
  | n + 1, k, t => t - trigPoly s n (k + 2) (t * s / ((k + 1) * (k + 2)))

/-- Every second term of the exponential series, with alternating signs. -/
noncomputable def altSum (x : ℝ) (n k : Nat) : ℝ := ∑ j ∈ Finset.range n, (-1) ^ j * (x ^ (k + 2 * j) / (k + 2 * j).factorial)

theorem trigPoly_eq (x : ℝ) : ∀ n k : Nat, trigPoly (x ^ 2) n k (x ^ k / k.factorial) = altSum x n k := by
  intro n
  induction n with
  | zero => intro k; simp [trigPoly, altSum]
  | succ n ih =>
    intro k
    have ht : x ^ k / k.factorial * x ^ 2 / ((k + 1) * (k + 2)) = x ^ (k + 2) / (k + 2).factorial := by
      rw [Nat.factorial_succ, Nat.factorial_succ, pow_add]
      push_cast
      have := Nat.factorial_pos k
      field_simp
      ring
    rw [trigPoly, ht, ih, altSum, altSum, Finset.sum_range_succ', sub_eq_add_neg, ← Finset.sum_neg_distrib, add_comm]
    congr 1
    · refine Finset.sum_congr rfl fun j _ => ?_
      rw [pow_succ, show k + 2 * (j + 1) = k + 2 + 2 * j by ring]
      ring
    · simp

theorem altSum_succ (x : ℝ) (n k : Nat) : altSum x (n + 1) k = altSum x n k + (-1) ^ n * (x ^ (k + 2 * n) / (k + 2 * n).factorial) :=
  Finset.sum_range_succ _ n

/-- The even and the odd terms of the series of exp (x i). -/
theorem exp_series_parts (x : ℝ) (n : Nat) :
    ∑ m ∈ Finset.range (2 * n), ((x : ℂ) * Complex.I) ^ m / m.factorial = altSum x n 0 + altSum x n 1 * Complex.I := by
  induction n with
  | zero => simp [altSum]
  | succ n ih =>
    have h2 : ((x : ℂ) * Complex.I) ^ (2 * n) = (-1) ^ n * x ^ (2 * n) := by
      rw [mul_pow, pow_mul Complex.I, Complex.I_sq]; ring
    rw [show 2 * (n + 1) = 2 * n + 1 + 1 by ring, Finset.sum_range_succ, Finset.sum_range_succ, ih, altSum_succ, altSum_succ, pow_succ _ (2 * n), h2]
    push_cast
    rw [Nat.zero_add, Nat.add_comm 1 (2 * n), pow_succ]
    ring

/-- Sixty terms of each series. -/
theorem altSum_close {x : ℝ} (h0 : 0 ≤ x) (h2 : x ≤ 2) :
    |altSum x 60 0 - Real.cos x| ≤ 2 ^ (-200 : ℤ) ∧ |altSum x 60 1 - Real.sin x| ≤ 2 ^ (-200 : ℤ) := by
  have hn : ‖(x : ℂ) * Complex.I‖ = x := by simp [abs_of_nonneg h0]
  have hb := Complex.exp_bound' (x := (x : ℂ) * Complex.I) (n := 2 * 60) (by
    rw [hn, div_le_div_iff₀ (by positivity) two_pos]
    push_cast
    linarith)
  rw [hn, exp_series_parts, Complex.exp_mul_I] at hb
  have hsmall : x ^ (2 * 60) / (2 * 60).factorial * 2 ≤ 2 ^ (-200 : ℤ) := by
    have hf : (15).factorial * 16 ^ 105 ≤ (2 * 60).factorial := Nat.factorial_mul_pow_le_factorial (n := 105) (m := 15)
    have hf' : ((2 : ℝ) ^ (200 : ℤ)) * 2 ^ (121 : ℤ) ≤ ((2 * 60).factorial : ℝ) := by
      have h1 : (2 : ℕ) ^ 200 * 2 ^ 121 ≤ (2 * 60).factorial :=
        le_trans (by rw [show (16 : ℕ) = 2 ^ 4 by norm_num, ← pow_mul, ← pow_add]
                     exact (Nat.pow_le_pow_right two_pos (by decide)).trans (Nat.le_mul_of_pos_left _ (Nat.factorial_pos _))) hf
      exact_mod_cast h1
    have hx : x ^ (2 * 60) ≤ 2 ^ (2 * 60) := pow_le_pow_left₀ h0 h2 _
    rw [div_mul_eq_mul_div, div_le_iff₀ (by positivity), zpow_neg, inv_mul_eq_div, le_div_iff₀ (two_zpow_pos _)]
    calc x ^ (2 * 60) * 2 * 2 ^ (200 : ℤ) ≤ 2 ^ (2 * 60) * 2 * 2 ^ (200 : ℤ) := by gcongr
      _ = 2 ^ (200 : ℤ) * 2 ^ (121 : ℤ) := by norm_num
      _ ≤ _ := hf'
  have hb' := hb.trans hsmall
  have hre : (Complex.cos x + Complex.sin x * Complex.I - (altSum x 60 0 + altSum x 60 1 * Complex.I)).re = Real.cos x - altSum x 60 0 := by
    simp [Complex.cos_ofReal_re, Complex.sin_ofReal_im]
  have him : (Complex.cos x + Complex.sin x * Complex.I - (altSum x 60 0 + altSum x 60 1 * Complex.I)).im = Real.sin x - altSum x 60 1 := by
    simp [Complex.sin_ofReal_re, Complex.cos_ofReal_im]
  constructor
  · rw [abs_sub_comm, ← hre]; exact (Complex.abs_re_le_norm _).trans hb'
  · rw [abs_sub_comm, ← him]; exact (Complex.abs_im_le_norm _).trans hb'

/-! ### Their evaluation -/

theorem trigTerms_succ (x2 n k t : Nat) : trigTerms x2 (n + 1) k t =
    (t : ℤ) - trigTerms x2 n (k + 2) (t * x2 / fixOne / ((k + 1) * (k + 2))) := rfl

/-- The next term in a fixed point of unit F, from a term and a square that are each a little off. -/
theorem next_term_close {F t x2 c : Nat} {τ s δ : ℝ} (h0 : 2 ≤ F) (hc : 2 ≤ c) (hτ0 : 0 ≤ τ) (hτ : τ ≤ 2) (hs : s ≤ 3)
    (ht : |(t : ℝ) / F - τ| ≤ δ) (hx : |(x2 : ℝ) / F - s| ≤ 1 / F) :
    |((t * x2 / F / c : Nat) : ℝ) / F - τ * s / c| ≤ 2 * δ + 3 * (1 / F) := by
  have hF : (0 : ℝ) < F := by exact_mod_cast (by omega : 0 < F)
  have hF2 : 1 / (F : ℝ) ≤ 1 / 2 := one_div_le_one_div_of_le two_pos (by exact_mod_cast h0)
  have hC : (2 : ℝ) ≤ c := by exact_mod_cast hc
  have hδ : 0 ≤ δ := (abs_nonneg _).trans ht
  obtain ⟨m1, m2⟩ := fixMul_bounds (by omega : 0 < F) t x2
  have d1 : ((t * x2 / F / c : Nat) : ℝ) ≤ ((t * x2 / F : Nat) : ℝ) / c := Nat.cast_div_le
  have d2 : ((t * x2 / F : Nat) : ℝ) / c < ((t * x2 / F / c : Nat) : ℝ) + 1 := by
    rw [div_lt_iff₀ (by linarith)]
    have := Nat.lt_mul_div_succ (t * x2 / F) (by omega : 0 < c)
    rw [Nat.mul_comm c] at this
    exact_mod_cast this
  generalize ((t * x2 / F / c : Nat) : ℝ) = u at *
  generalize ((t * x2 / F : Nat) : ℝ) = p at *
  -- the product of the two
  have hp : |(t : ℝ) / F * (x2 / F) - τ * s| ≤ 7 / 2 * δ + 2 * (1 / F) := by
    have e : (t : ℝ) / F * (x2 / F) - τ * s = (t / F - τ) * (x2 / F) + τ * (x2 / F - s) := by ring
    have hx2 : |(x2 : ℝ) / F| ≤ 7 / 2 := by
      rw [abs_of_nonneg (by positivity)]; linarith [(abs_le.1 hx).2]
    rw [e]
    refine (abs_add_le _ _).trans ?_
    rw [abs_mul, abs_mul, abs_of_nonneg hτ0]
    have a1 := mul_le_mul ht hx2 (abs_nonneg _) hδ
    have a2 := mul_le_mul hτ hx (abs_nonneg _) two_pos.le
    linarith
  have hε : (0 : ℝ) < 1 / F := by positivity
  rw [abs_le] at hp
  have key : ∀ z : ℝ, 0 ≤ z → z / c ≤ z / 2 := fun z hz => div_le_div_of_nonneg_left hz two_pos hC
  -- divided by c, and truncated twice
  have u1 : u / F ≤ p / F / c := by rw [div_right_comm]; exact div_le_div_of_nonneg_right d1 hF.le
  have u2 : p / F / c - 1 / F < u / F := by
    rw [div_right_comm, ← sub_div]; exact div_lt_div_of_pos_right (by linarith) hF
  have v1 : p / F / c ≤ (τ * s + (7 / 2 * δ + 2 * (1 / F))) / c := div_le_div_of_nonneg_right (by linarith [hp.2]) (by linarith)
  have v2 : (τ * s - (7 / 2 * δ + 3 * (1 / F))) / c ≤ p / F / c := div_le_div_of_nonneg_right (by linarith [hp.1]) (by linarith)
  rw [add_div] at v1
  rw [sub_div] at v2
  have k1 := key (7 / 2 * δ + 2 * (1 / F)) (by positivity)
  have k2 := key (7 / 2 * δ + 3 * (1 / F)) (by positivity)
  rw [abs_le]
  constructor <;> linarith

/-- `trigTerms` is close to the polynomial. -/
theorem trigTerms_close {x2 : Nat} {s : ℝ} (hs0 : 0 ≤ s) (hs : s ≤ 3) (hx : |(x2 : ℝ) / fixOne - s| ≤ 1 / fixOne) :
    ∀ (n k t : Nat) (τ δ : ℝ), 0 ≤ τ → τ ≤ 2 → (k = 0 → τ ≤ 1) → |(t : ℝ) / fixOne - τ| ≤ δ →
      |(trigTerms x2 n k t : ℝ) / fixOne - trigPoly s n k τ| ≤ 3 ^ n * (δ + 3 * (1 / fixOne)) := by
  have h2 : 2 ≤ fixOne := by rw [fixOne]; exact Nat.one_lt_two_pow (by decide)
  intro n
  induction n with
  | zero =>
    intro k t τ δ _ _ _ ht
    rw [trigTerms, trigPoly, Int.cast_zero, zero_div, sub_zero, abs_zero]
    have hδ : 0 ≤ δ := (abs_nonneg _).trans ht
    positivity
  | succ n ih =>
    intro k t τ δ h0 hτ hk ht
    rw [trigTerms_succ, trigPoly]
    generalize fixOne = F at *
    have hδ : 0 ≤ δ := (abs_nonneg _).trans ht
    have hc : 2 ≤ (k + 1) * (k + 2) := Nat.le_trans (by norm_num) (Nat.mul_le_mul (Nat.le_add_left 1 k) (Nat.le_add_left 2 k))
    have hnext := next_term_close h2 hc h0 hτ hs ht hx
    push_cast at hnext
    have hτ' : τ * s / ((k + 1) * (k + 2)) ≤ 2 := by
      rw [div_le_iff₀ (by positivity)]
      rcases Nat.eq_zero_or_pos k with rfl | hk0
      · have := mul_le_mul (hk rfl) hs hs0 one_pos.le
        norm_num
        linarith
      · have hk1 : (1 : ℝ) ≤ k := by exact_mod_cast hk0
        have := mul_le_mul hτ hs hs0 two_pos.le
        nlinarith
    have hi := ih (k + 2) _ _ _ (by positivity) hτ' (by omega) hnext
    have h1 : δ ≤ 3 ^ n * δ := le_mul_of_one_le_left hδ (one_le_pow₀ (by norm_num))
    have h3 : (0 : ℝ) ≤ 3 ^ n * (1 / F) := by positivity
    rw [Int.cast_sub, Int.cast_natCast, sub_div, pow_succ]
    rw [abs_le] at hi ht ⊢
    constructor <;> linarith [hi.1, hi.2, ht.1, ht.2]

end Sys2Proof.Machine
end

section
/-! `sinpi` and `cospi` on finite operands, and R40 as a whole. -/

namespace Sys2Proof.Machine

/-! ### π in the fixed point -/

theorem fixPi_close : |(fixPi : ℝ) / fixOne - Real.pi| ≤ 2 ^ (-60 : ℤ) := by
  have hF : (0 : ℝ) < fixOne := by exact_mod_cast fixOne_pos
  have e : (fixOne : ℝ) = 2 ^ 256 * 2 ^ 256 := by rw [fixOne_eq, ← pow_add, ← zpow_natCast]; rfl
  have h1 := Real.pi_gt_d20
  have h2 := Real.pi_lt_d20
  have l1 : (3.14159265358979323846 : ℝ) ≤ fixPi / fixOne := by
    rw [le_div_iff₀ hF, e, fixPi]; norm_num
  have l2 : (fixPi : ℝ) / fixOne ≤ 3.14159265358979323847 := by
    rw [div_le_iff₀ hF, e, fixPi]; norm_num
  have h3 : (3.14159265358979323847 : ℝ) - 3.14159265358979323846 ≤ 2 ^ (-60 : ℤ) := by norm_num
  rw [abs_le]
  constructor <;> linarith

/-- The argument in the fixed point. -/
theorem fixArg_close (r q : Nat) (h : 2 * r ≤ 2 ^ q) :
    |((fixPi * r / 2 ^ q : Nat) : ℝ) / fixOne - Real.pi * ((r : ℝ) / 2 ^ q)| ≤ 2 ^ (-60 : ℤ) * ((r : ℝ) / 2 ^ q) + 1 / fixOne ∧
      ((fixPi * r / 2 ^ q : Nat) : ℝ) / fixOne ≤ 1.6 := by
  have hF : (0 : ℝ) < fixOne := by exact_mod_cast fixOne_pos
  have hp := fixPi_close
  generalize fixOne = F at *
  have hq : (0 : ℝ) < 2 ^ q := by positivity
  have hρ : (r : ℝ) / 2 ^ q ≤ 1 / 2 := by
    have : 2 * (r : ℝ) ≤ 2 ^ q := by exact_mod_cast h
    rw [div_le_div_iff₀ hq two_pos]; linarith
  have hρ0 : 0 ≤ (r : ℝ) / 2 ^ q := by positivity
  have d1 : ((fixPi * r / 2 ^ q : Nat) : ℝ) ≤ fixPi * r / 2 ^ q := by
    exact_mod_cast Nat.cast_div_le (α := ℝ) (m := fixPi * r) (n := 2 ^ q)
  have d2 : (fixPi : ℝ) * r / 2 ^ q < ((fixPi * r / 2 ^ q : Nat) : ℝ) + 1 := by
    rw [div_lt_iff₀ hq]
    have := Nat.lt_mul_div_succ (fixPi * r) (Nat.two_pow_pos q)
    rw [Nat.mul_comm (2 ^ q)] at this
    exact_mod_cast this
  have e : (fixPi : ℝ) * r / 2 ^ q / F = fixPi / F * (r / 2 ^ q) := by ring
  have u1 := div_le_div_of_nonneg_right d1 hF.le
  have u2 := div_lt_div_of_pos_right d2 hF
  rw [add_div, e] at u2
  rw [e] at u1
  have hpi := Real.pi_lt_d2
  clear d1 d2 e
  have h60 : (2 : ℝ) ^ (-60 : ℤ) ≤ 0.01 := by norm_num
  generalize (2 : ℝ) ^ (-60 : ℤ) = t at *
  generalize ((fixPi * r / 2 ^ q : Nat) : ℝ) / F = ξ at *
  generalize (fixPi : ℝ) / F = P at *
  generalize (r : ℝ) / 2 ^ q = ρ at *
  have hPρ : |P * ρ - Real.pi * ρ| ≤ t * ρ := by
    rw [← sub_mul, abs_mul, abs_of_nonneg hρ0]; exact mul_le_mul_of_nonneg_right hp hρ0
  have hε : (0 : ℝ) < 1 / F := by positivity
  refine ⟨?_, ?_⟩
  · rw [abs_le] at hPρ ⊢
    constructor <;> linarith [hPρ.1, hPρ.2]
  · have hP : P ≤ 3.2 := by linarith [(abs_le.1 hp).2]
    have : P * ρ ≤ 3.2 * (1 / 2) := mul_le_mul hP hρ hρ0 (by norm_num)
    linarith

/-- The sine or the cosine that `trig` stands for. -/
noncomputable def trigReal (cosine : Bool) (x : ℝ) : ℝ := if cosine then Real.cos x else Real.sin x

/-- The errors of the evaluation, and of sixty terms, together. -/
theorem trig_errors : 3 ^ 60 * (0 + 3 * (1 / (fixOne : ℝ))) + 2 ^ (-200 : ℤ) ≤ 2 ^ (-199 : ℤ) := by
  have e : (1 : ℝ) / fixOne = 2 ^ (-200 : ℤ) * 2 ^ (-312 : ℤ) := by rw [fixOne_eq, one_div, ← zpow_neg, ← two_zpow_add]; rfl
  have h2 : (2 : ℝ) ^ (-199 : ℤ) = 2 ^ (-200 : ℤ) + 2 ^ (-200 : ℤ) := by rw [show (-199 : ℤ) = -200 + 1 by norm_num, two_zpow_add]; ring
  have h312 : (3 : ℝ) ^ 60 * 3 * 2 ^ (-312 : ℤ) ≤ 1 := by
    have h4 : (3 : ℝ) ^ 60 * 3 ≤ 2 ^ (122 : ℤ) := by norm_num
    calc (3 : ℝ) ^ 60 * 3 * 2 ^ (-312 : ℤ) ≤ 2 ^ (122 : ℤ) * 2 ^ (-312 : ℤ) := mul_le_mul_of_nonneg_right h4 (two_zpow_pos _).le
      _ = 2 ^ (-190 : ℤ) := by rw [← two_zpow_add]; norm_num
      _ ≤ 1 := by rw [← zpow_zero (2 : ℝ)]; exact two_zpow_le.2 (by norm_num)
  rw [e, h2, zero_add]
  have := mul_le_mul_of_nonneg_left h312 (two_zpow_pos (-200)).le
  linarith

/-- Sixty terms in the fixed point are close to the cosine and the sine of an argument of the fixed point. -/
theorem trigTerms_taylor (x : Nat) (hx : (x : ℝ) / fixOne ≤ 1.6) :
    |((trigTerms (x * x / fixOne) 60 0 fixOne : ℤ) : ℝ) / fixOne - Real.cos ((x : ℝ) / fixOne)| ≤ 2 ^ (-199 : ℤ) ∧
      |((trigTerms (x * x / fixOne) 60 1 x : ℤ) : ℝ) / fixOne - Real.sin ((x : ℝ) / fixOne)| ≤ 2 ^ (-199 : ℤ) := by
  have h0 := fixOne_pos
  have hE := trig_errors
  have close := trigTerms_close (x2 := x * x / fixOne) (s := ((x : ℝ) / fixOne) ^ 2) (sq_nonneg _)
  generalize fixOne = F at *
  have hF : (0 : ℝ) < F := by exact_mod_cast h0
  have hξ0 : (0 : ℝ) ≤ (x : ℝ) / F := by positivity
  obtain ⟨a0, a1⟩ := altSum_close hξ0 (by linarith)
  obtain ⟨m1, m2⟩ := fixMul_bounds h0 x x
  have hε : (0 : ℝ) < 1 / F := by positivity
  have hone : (F : ℝ) / F = 1 := div_self hF.ne'
  have p0 := trigPoly_eq ((x : ℝ) / F) 60 0
  have p1 := trigPoly_eq ((x : ℝ) / F) 60 1
  rw [pow_zero, Nat.factorial_zero, Nat.cast_one, div_one] at p0
  rw [pow_one, Nat.factorial_one, Nat.cast_one, div_one] at p1
  have close' := close (by nlinarith) (by rw [sq, abs_le]; constructor <;> linarith) 60
  have c0 := close' 0 F 1 0 (by norm_num) (by norm_num) (fun _ => le_rfl) (by rw [hone, sub_self, abs_zero])
  have c1 := close' 1 x _ 0 hξ0 (by linarith) (by omega) (by rw [sub_self, abs_zero])
  rw [p0] at c0
  rw [p1] at c1
  exact ⟨(abs_sub_le _ (altSum ((x : ℝ) / F) 60 0) _).trans ((add_le_add c0 a0).trans hE),
    (abs_sub_le _ (altSum ((x : ℝ) / F) 60 1) _).trans ((add_le_add c1 a1).trans hE)⟩

/-- Cutting a number off at 0 brings it no further from one that is not negative. -/
theorem toNat_close (T : ℤ) {F v E : ℝ} (hF : 0 < F) (hv : 0 ≤ v) (h : |(T : ℝ) / F - v| ≤ E) : |(T.toNat : ℝ) / F - v| ≤ E := by
  rcases le_total 0 T with hT | hT
  · have : ((T.toNat : ℕ) : ℝ) = (T : ℝ) := by exact_mod_cast congrArg (Int.cast (R := ℝ)) (Int.toNat_of_nonneg hT)
    rwa [this]
  · have : (T : ℝ) / F ≤ 0 := div_nonpos_of_nonpos_of_nonneg (by exact_mod_cast hT) hF.le
    rw [Int.toNat_of_nonpos hT, Nat.cast_zero, zero_div, zero_sub, abs_neg, abs_of_nonneg hv]
    linarith [(abs_le.1 h).1]

/-- `trig` is close to the function on the first quarter of the circle. -/
theorem trig_close (cosine : Bool) (r q : Nat) (h : 2 * r ≤ 2 ^ q) :
    |(trig cosine r q : ℝ) / fixOne - trigReal cosine (Real.pi * ((r : ℝ) / 2 ^ q))| ≤ 2 ^ (-198 : ℤ) + 2 ^ (-60 : ℤ) * ((r : ℝ) / 2 ^ q) := by
  obtain ⟨hξ, hξ2⟩ := fixArg_close r q h
  obtain ⟨t0, t1⟩ := trigTerms_taylor _ hξ2
  have hF : (0 : ℝ) < fixOne := by exact_mod_cast fixOne_pos
  have hE : (1 : ℝ) / fixOne ≤ 2 ^ (-199 : ℤ) := by rw [fixOne_eq, one_div, ← zpow_neg]; exact two_zpow_le.2 (by norm_num)
  have ht : trig cosine r q = (if cosine then trigTerms (fixPi * r / 2 ^ q * (fixPi * r / 2 ^ q) / fixOne) 60 0 fixOne
      else trigTerms (fixPi * r / 2 ^ q * (fixPi * r / 2 ^ q) / fixOne) 60 1 (fixPi * r / 2 ^ q)).toNat := rfl
  rw [ht]
  generalize fixPi * r / 2 ^ q = x at *
  have h2 : (2 : ℝ) ^ (-198 : ℤ) = 2 ^ (-199 : ℤ) + 2 ^ (-199 : ℤ) := by rw [show (-198 : ℤ) = -199 + 1 by norm_num, two_zpow_add]; ring
  clear hξ2
  generalize (2 : ℝ) ^ (-198 : ℤ) = e198 at *
  generalize (2 : ℝ) ^ (-199 : ℤ) = e199 at *
  generalize (2 : ℝ) ^ (-60 : ℤ) = e60 at *
  generalize fixOne = F at *
  have hpi := Real.pi_pos
  have hθ0 : 0 ≤ Real.pi * ((r : ℝ) / 2 ^ q) := by positivity
  have hθ : Real.pi * ((r : ℝ) / 2 ^ q) ≤ Real.pi / 2 := by
    have hr : 2 * (r : ℝ) ≤ 2 ^ q := by exact_mod_cast h
    have : (r : ℝ) / 2 ^ q ≤ 1 / 2 := by rw [div_le_div_iff₀ (by positivity) two_pos]; linarith
    have := mul_le_mul_of_nonneg_left this hpi.le
    linarith
  cases cosine
  · simp only [trigReal, Bool.false_eq_true, if_false]
    have hl := Real.abs_sin_sub_sin_le ((x : ℝ) / F) (Real.pi * ((r : ℝ) / 2 ^ q))
    exact toNat_close _ hF (Real.sin_nonneg_of_nonneg_of_le_pi hθ0 (by linarith))
      ((abs_sub_le _ (Real.sin ((x : ℝ) / F)) _).trans (by linarith))
  · simp only [trigReal, if_true]
    have hl := Real.abs_cos_sub_cos_le ((x : ℝ) / F) (Real.pi * ((r : ℝ) / 2 ^ q))
    exact toNat_close _ hF (Real.cos_nonneg_of_neg_pi_div_two_le_of_le (by linarith) hθ)
      ((abs_sub_le _ (Real.cos ((x : ℝ) / F)) _).trans (by linarith))

end Sys2Proof.Machine
end

section
/-! `sinpi` and `cospi` on the whole circle, and R40 as a whole. -/

namespace Sys2Proof.Machine

/-! ### Symmetries -/

theorem trigReal_sign (cosine n : Bool) (x : ℝ) : trigReal cosine (sgn n * x) = sgn (!cosine && n) * trigReal cosine x := by
  cases cosine <;> cases n <;> simp [trigReal]

theorem trigReal_turns (cosine half : Bool) (k : ℕ) (ρ : ℝ) :
    trigReal cosine (Real.pi * (2 * k + (if half then 1 else 0) + ρ)) = sgn half * trigReal cosine (Real.pi * ρ) := by
  have e : ∀ y, Real.pi * (2 * k + y) = Real.pi * y + k * (2 * Real.pi) := fun y => by ring
  rw [add_assoc, e]
  cases half
  · cases cosine <;> simp [trigReal, Real.sin_add_nat_mul_two_pi, Real.cos_add_nat_mul_two_pi]
  · cases cosine <;> simp [trigReal, Real.sin_add_nat_mul_two_pi, Real.cos_add_nat_mul_two_pi, mul_add, add_comm Real.pi, Real.sin_add_pi, Real.cos_add_pi]

theorem trigReal_mirror (cosine : Bool) (ρ : ℝ) : trigReal cosine (Real.pi * (1 - ρ)) = sgn cosine * trigReal cosine (Real.pi * ρ) := by
  rw [mul_sub, mul_one]
  cases cosine <;> simp [trigReal, Real.sin_pi_sub, Real.cos_pi_sub]

/-- The position on the half circle: whole turns, the half, and the rest. -/
theorem turns_split (X q : Nat) : (X : ℝ) / 2 ^ q = 2 * (X / (2 * 2 ^ q) : Nat) +
    (if decide (2 ^ q ≤ X % (2 * 2 ^ q)) then 1 else 0) + (X % (2 * 2 ^ q) % 2 ^ q : Nat) / 2 ^ q := by
  have hq := Nat.two_pow_pos q
  have h1 := Nat.div_add_mod X (2 * 2 ^ q)
  have hp := Nat.mod_lt X (by omega : 2 * 2 ^ q > 0)
  generalize X % (2 * 2 ^ q) = p at *
  have h2 : p = (if 2 ^ q ≤ p then 2 ^ q else 0) + p % 2 ^ q := by
    split
    case isTrue h => rw [Nat.mod_eq_sub_mod h, Nat.mod_eq_of_lt (by omega)]; omega
    case isFalse h => rw [Nat.mod_eq_of_lt (by omega)]; omega
  have hX : (X : ℝ) = 2 * 2 ^ q * (X / (2 * 2 ^ q) : Nat) + ((if 2 ^ q ≤ p then 2 ^ q else 0) + (p % 2 ^ q : Nat)) := by
    rw [h2] at h1
    exact_mod_cast h1.symm.trans (by rw [← h2])
  have hq' : (2 : ℝ) ^ q ≠ 0 := by positivity
  generalize X / (2 * 2 ^ q) = k at *
  generalize p % 2 ^ q = r at *
  rw [hX]
  by_cases h : 2 ^ q ≤ p
  · simp only [h, decide_true, if_true]
    field_simp
    ring
  · simp only [h, decide_false, Bool.false_eq_true, if_false]
    field_simp
    ring

/-- What `trigPi` computes: the function at ρ on the half circle, with the sign of the half and of the operand. -/
theorem trigReal_position (cosine n : Bool) (X q : Nat) :
    trigReal cosine (Real.pi * (sgn n * ((X : ℝ) / 2 ^ q))) =
      sgn ((!cosine && n) != decide (2 ^ q ≤ X % (2 * 2 ^ q))) * trigReal cosine (Real.pi * ((X % (2 * 2 ^ q) % 2 ^ q : Nat) / 2 ^ q)) := by
  rw [mul_left_comm, trigReal_sign, turns_split, trigReal_turns, sgn_bne, mul_assoc]

/-! ### Strictly inside a quarter -/

/-- The function is well above the error of its evaluation. -/
theorem trigReal_low (cosine : Bool) {r q : Nat} (h0 : 0 < r) (h : 2 * r < 2 ^ q) (hr : r < 2 ^ 24) (hq : q ≤ 149) :
    2 ^ (-198 : ℤ) + 2 ^ (-60 : ℤ) * ((r : ℝ) / 2 ^ q) + 2 ^ (-198 : ℤ) ≤ trigReal cosine (Real.pi * ((r : ℝ) / 2 ^ q)) * 2 ^ (-25 : ℤ) := by
  have hpi := Real.pi_pos
  have hq0 : (0 : ℝ) < 2 ^ q := by positivity
  have hr0 : (1 : ℝ) ≤ r := by exact_mod_cast h0
  have hρ0 : (2 : ℝ) ^ (-149 : ℤ) ≤ (r : ℝ) / 2 ^ q := by
    have h1 : (2 : ℝ) ^ q ≤ 2 ^ 149 := pow_le_pow_right₀ (by norm_num) hq
    rw [zpow_neg, inv_eq_one_div, div_le_div_iff₀ (two_zpow_pos _) hq0, one_mul]
    calc (2 : ℝ) ^ q ≤ 2 ^ 149 := h1
      _ = 1 * 2 ^ (149 : ℤ) := by norm_num
      _ ≤ r * 2 ^ (149 : ℤ) := by gcongr
  have hρ : 2 ^ (-26 : ℤ) ≤ 1 / 2 - (r : ℝ) / 2 ^ q := by
    rcases Nat.lt_or_ge q 26 with h26 | h26
    · have h1 : 2 * (r : ℝ) + 1 ≤ 2 ^ q := by exact_mod_cast h
      have h2 : (2 : ℝ) ^ q ≤ 2 ^ 25 := pow_le_pow_right₀ (by norm_num) (by omega)
      rw [zpow_neg, inv_eq_one_div, div_sub_div _ _ two_ne_zero hq0.ne', div_le_div_iff₀ (two_zpow_pos _) (by positivity)]
      have e : (2 : ℝ) ^ (26 : ℤ) = 2 * 2 ^ 25 := by norm_num
      rw [e]
      nlinarith
    · have h1 : (r : ℝ) ≤ 2 ^ 24 := by exact_mod_cast hr.le
      have h2 : (2 : ℝ) ^ 26 ≤ 2 ^ q := pow_le_pow_right₀ (by norm_num) h26
      have : (r : ℝ) / 2 ^ q ≤ 1 / 4 := by
        rw [div_le_div_iff₀ hq0 (by norm_num)]
        linarith
      have : (2 : ℝ) ^ (-26 : ℤ) ≤ 1 / 4 := by norm_num
      linarith
  generalize (r : ℝ) / 2 ^ q = ρ at *
  have hρp : 0 < ρ := lt_of_lt_of_le (two_zpow_pos _) hρ0
  have h26 := two_zpow_pos (-26)
  -- both functions lie above their chord
  have chord : ∀ t, 0 ≤ t → t ≤ 1 / 2 → 2 * t ≤ Real.sin (Real.pi * t) := by
    intro t h1 h2
    have hs := Real.mul_le_sin (x := Real.pi * t) (by positivity) (by nlinarith)
    have e : 2 / Real.pi * (Real.pi * t) = 2 * t := by field_simp
    rwa [e] at hs
  have hp25 := two_zpow_pos (-25)
  cases cosine
  · have hs := mul_le_mul_of_nonneg_right (chord ρ hρp.le (by linarith)) hp25.le
    have e198 : (2 : ℝ) ^ (-198 : ℤ) = 2 ^ (-149 : ℤ) * 2 ^ (-49 : ℤ) := by rw [← two_zpow_add]; norm_num
    have s49 : (2 : ℝ) ^ (-149 : ℤ) * 2 ^ (-49 : ℤ) ≤ ρ * 2 ^ (-49 : ℤ) := mul_le_mul_of_nonneg_right hρ0 (two_zpow_pos _).le
    have hsum : (2 : ℝ) ^ (-49 : ℤ) + 2 ^ (-60 : ℤ) + 2 ^ (-49 : ℤ) ≤ 2 * 2 ^ (-25 : ℤ) := by norm_num
    have := mul_le_mul_of_nonneg_left hsum hρp.le
    simp only [trigReal, Bool.false_eq_true, if_false]
    rw [e198]
    linarith
  · have hs := chord (1 / 2 - ρ) (by linarith) (by linarith)
    rw [mul_sub Real.pi, mul_one_div, Real.sin_pi_div_two_sub] at hs
    have hV := mul_le_mul_of_nonneg_right ((mul_le_mul_of_nonneg_left hρ two_pos.le).trans hs) hp25.le
    have h198 : (2 : ℝ) ^ (-198 : ℤ) ≤ 2 ^ (-62 : ℤ) := two_zpow_le.2 (by norm_num)
    have h60 : (2 : ℝ) ^ (-60 : ℤ) * ρ ≤ 2 ^ (-60 : ℤ) * 1 := mul_le_mul_of_nonneg_left (by linarith) (two_zpow_pos _).le
    have hsum : (2 : ℝ) ^ (-62 : ℤ) + 2 ^ (-60 : ℤ) * 1 + 2 ^ (-62 : ℤ) ≤ 2 * 2 ^ (-26 : ℤ) * 2 ^ (-25 : ℤ) := by norm_num
    simp only [trigReal, if_true]
    linarith

theorem trigReal_mem (cosine : Bool) {r q : Nat} (h : 2 * r ≤ 2 ^ q) :
    0 ≤ trigReal cosine (Real.pi * ((r : ℝ) / 2 ^ q)) ∧ trigReal cosine (Real.pi * ((r : ℝ) / 2 ^ q)) ≤ 1 := by
  have hρ : Real.pi * ((r : ℝ) / 2 ^ q) ≤ Real.pi / 2 := by
    have hr : 2 * (r : ℝ) ≤ 2 ^ q := by exact_mod_cast h
    rw [div_eq_mul_one_div Real.pi 2]
    refine mul_le_mul_of_nonneg_left ?_ Real.pi_pos.le
    rw [div_le_div_iff₀ (by positivity) two_pos]
    linarith
  have h0 : 0 ≤ Real.pi * ((r : ℝ) / 2 ^ q) := mul_nonneg Real.pi_pos.le (by positivity)
  have hpi := Real.pi_pos
  cases cosine
  · exact ⟨Real.sin_nonneg_of_nonneg_of_le_pi h0 (by linarith), Real.sin_le_one _⟩
  · exact ⟨Real.cos_nonneg_of_neg_pi_div_two_le_of_le (by linarith) hρ, Real.cos_le_one _⟩

/-- The delivered neighbour, strictly inside a quarter. -/
theorem trig_faithful_near (fn bits : Nat) (cosine s : Bool) {r q : Nat} (h0 : 0 < r) (h : 2 * r < 2 ^ q) (hr : r < 2 ^ 24) (hq : q ≤ 149) :
    NearTo (faithful fn bits s (2 * trig cosine r q + 1) (2 * fixOne) 0) (sgn s * trigReal cosine (Real.pi * ((r : ℝ) / 2 ^ q))) (2 ^ (-149 : ℤ)) := by
  have hF0 := fixOne_pos
  have hE1 : (1 : ℝ) / fixOne ≤ 2 ^ (-198 : ℤ) := by rw [fixOne_eq, one_div, ← zpow_neg]; exact two_zpow_le.2 (by norm_num)
  have hc := trig_close cosine r q h.le
  generalize fixOne = F at *
  have hF : (0 : ℝ) < F := by exact_mod_cast hF0
  have hE : (1 : ℝ) / (2 * F) ≤ 2 ^ (-198 : ℤ) := (one_div_le_one_div_of_le hF (by linarith)).trans hE1
  have hl := trigReal_low cosine h0 h hr hq
  obtain ⟨v0, v1⟩ := trigReal_mem cosine h.le
  have e : ((2 * trig cosine r q + 1 : Nat) : ℝ) / (2 * F : Nat) * 2 ^ (0 : ℤ) = (trig cosine r q : ℝ) / F + 1 / (2 * F) := by
    push_cast
    field_simp
  have hε : 0 < (1 : ℝ) / (2 * F) := by positivity
  have hnear := faithful_near fn bits s (num := 2 * trig cosine r q + 1) (den := 2 * F) (Nat.succ_pos _) (Nat.mul_pos two_pos hF0) 0
    (V := trigReal cosine (Real.pi * ((r : ℝ) / 2 ^ q)))
  rw [e] at hnear
  have h25 : (2 : ℝ) ^ (-25 : ℤ) ≤ 1 := by norm_num
  have h25' : (0 : ℝ) ≤ 2 ^ (-25 : ℤ) := (two_zpow_pos _).le
  have hmax : (3 : ℝ) < fp32.grid fp32.maxCode := by
    rw [grid_maxCode_fp32]
    have : (1 : ℝ) ≤ 2 ^ (104 : ℤ) := one_le_zpow₀ (by norm_num) (by norm_num)
    have h2 : ((2 ^ 24 - 1 : ℕ) : ℝ) = 2 ^ 24 - 1 := by norm_num
    rw [h2]
    linarith
  generalize (2 : ℝ) ^ (-198 : ℤ) = e198 at *
  generalize (2 : ℝ) ^ (-25 : ℤ) = e25 at *
  generalize trigReal cosine (Real.pi * ((r : ℝ) / 2 ^ q)) = V at *
  generalize (2 : ℝ) ^ (-60 : ℤ) * ((r : ℝ) / 2 ^ q) = d at *
  generalize (1 : ℝ) / (2 * F) = ε at *
  generalize (trig cosine r q : ℝ) / F = T at *
  have hclose : |T + ε - V| ≤ V * e25 := by
    rw [abs_le] at hc ⊢
    constructor <;> linarith [hc.1, hc.2]
  have hVe : V * e25 ≤ 1 * 1 := mul_le_mul v1 h25 h25' one_pos.le
  exact (hnear (by linarith [(abs_le.1 hclose).2]) v0 hclose).1

/-! ### The whole circle -/

theorem one_exactly (s : Bool) : ExactlyIs (BitVec.ofNat 64 (fp32.signBit s + 0x3F800000), 0) (sgn s * 1) := by
  have hg : fp32.grid 0x3F800000 = 1 := by
    have h := fp32.grid_normal 126 (2 ^ 23) le_rfl (Nat.pow_le_pow_right two_pos (Nat.le_succ _))
    have e : fp32.qmin + (126 : ℕ) = -23 := rfl
    rw [e] at h
    exact h.trans (by norm_num)
  have h := finIs_read_fp32 s (c := 0x3F800000) (by decide)
  rw [hg] at h
  exact ⟨⟨s, h⟩, rfl⟩

theorem zero_exactly (s : Bool) : ExactlyIs (BitVec.ofNat 64 (fp32.signBit s), 0) 0 := by
  have h := finIs_read_fp32 s (Nat.zero_le _)
  rw [Nat.add_zero, fp32.grid_low (Nat.zero_le _), Nat.cast_zero, zero_mul, mul_zero] at h
  exact ⟨⟨s, h⟩, rfl⟩

/-- The middle of the half circle. -/
theorem trigReal_middle (cosine : Bool) {r q : Nat} (h : 2 * r = 2 ^ q) : trigReal cosine (Real.pi * ((r : ℝ) / 2 ^ q)) = if cosine then 0 else 1 := by
  have hr : 2 * (r : ℝ) = 2 ^ q := by exact_mod_cast h
  have e : Real.pi * ((r : ℝ) / 2 ^ q) = Real.pi / 2 := by
    rw [← hr]
    have : (2 : ℝ) * r ≠ 0 := by rw [hr]; positivity
    have hr0 : (r : ℝ) ≠ 0 := right_ne_zero_of_mul this
    field_simp
  rw [e]
  cases cosine <;> simp [trigReal]

/-- A rest in the second quarter, mirrored into the first. -/
theorem trigReal_fold (cosine : Bool) {r q : Nat} (h : r ≤ 2 ^ q) :
    trigReal cosine (Real.pi * ((r : ℝ) / 2 ^ q)) = sgn (cosine && decide (2 ^ q < 2 * r)) *
      trigReal cosine (Real.pi * (((if 2 ^ q < 2 * r then 2 ^ q - r else r : Nat) : ℝ) / 2 ^ q)) := by
  by_cases hlt : 2 ^ q < 2 * r
  · have hq : (2 : ℝ) ^ q ≠ 0 := by positivity
    have e : (((2 ^ q - r : Nat) : ℝ)) / 2 ^ q = 1 - (r : ℝ) / 2 ^ q := by
      rw [Nat.cast_sub h]; push_cast; field_simp
    rw [if_pos hlt, e, trigReal_mirror, ← mul_assoc, decide_eq_true hlt, Bool.and_true, sgn_mul_self, one_mul]
  · rw [if_neg hlt, decide_eq_false hlt, Bool.and_false, sgn_false, one_mul]

/-- A position whose double is whole has a rest of 0 or a half. -/
theorem half_multiple {n half : Bool} {x : ℝ} {X q k r : Nat} (hx : x = sgn n * ((X : ℝ) / 2 ^ q)) (hr : r < 2 ^ q)
    (hturn : (X : ℝ) / 2 ^ q = 2 * k + (if half then 1 else 0) + (r : ℝ) / 2 ^ q) {z : ℤ} (hz : 2 * x = z) : r = 0 ∨ 2 * r = 2 ^ q := by
  have hp : (2 : ℝ) ^ q ≠ 0 := by positivity
  obtain ⟨w, hw⟩ : ∃ w : ℤ, (2 * r : ℝ) = w * 2 ^ q := by
    refine ⟨(if n then -1 else 1) * z - 4 * k - 2 * (if half then 1 else 0), ?_⟩
    have h2 : 2 * ((X : ℝ) / 2 ^ q) = sgn n * z := by rw [← hz, hx, mul_left_comm 2, ← mul_assoc, sgn_mul_self, one_mul]
    have e : (r : ℝ) = (r : ℝ) / 2 ^ q * 2 ^ q := by field_simp
    have e2 : (r : ℝ) / 2 ^ q = sgn n * z / 2 - 2 * k - (if half then 1 else 0) := by linarith
    rw [e, e2]
    cases n <;> cases half <;> simp <;> ring
  have hw' : (2 * r : ℤ) = w * (2 ^ q : Nat) := by exact_mod_cast hw
  have hp : (0 : ℤ) < (2 ^ q : Nat) := by exact_mod_cast Nat.two_pow_pos q
  have hr' : (r : ℤ) < (2 ^ q : Nat) := by exact_mod_cast hr
  generalize 2 ^ q = Q at *
  have h0 : 0 ≤ w := by
    by_contra hn
    have := Int.mul_neg_of_neg_of_pos (not_le.1 hn) hp
    omega
  have h2 : w < 2 := by
    by_contra hn
    have := Int.mul_le_mul_of_nonneg_right (not_lt.1 hn) hp.le
    omega
  have : w = 0 ∨ w = 1 := by omega
  rcases this with rfl | rfl <;> omega

/-- The delivered neighbour at a rest that is neither 0 nor a half, by its mirror image in the first quarter. -/
theorem trig_folded_near (fn bits : Nat) (cosine s : Bool) {r q : Nat} (hr : r < 2 ^ q) (hr24 : r < 2 ^ 24) (hq : q ≤ 149) (h0 : r ≠ 0)
    (h1 : 2 * r ≠ 2 ^ q) :
    NearTo (faithful fn bits s (2 * trig cosine (if 2 ^ q < 2 * r then 2 ^ q - r else r) q + 1) (2 * fixOne) 0)
      (sgn s * trigReal cosine (Real.pi * (((if 2 ^ q < 2 * r then 2 ^ q - r else r : Nat) : ℝ) / 2 ^ q))) (2 ^ (-149 : ℤ)) := by
  split <;> exact trig_faithful_near fn bits cosine s (by omega) (by omega) (by omega) hq

/-- The cases of `trigPi`, with the sign, the rest on the half circle, and its mirror image in the first quarter. -/
theorem trigPi_spec (fn bits : Nat) (cosine n : Bool) {m : Nat} {e : ℤ} (hm : m < 2 ^ 24) (he : -149 ≤ e) :
    let x : ℝ := ratOf (.fin n m e)
    NearTo (trigPi fn bits cosine n m e) (trigReal cosine (Real.pi * x)) (2 ^ (-149 : ℤ)) ∧
      ∀ z : ℤ, 2 * x = z → ExactlyIs (trigPi fn bits cosine n m e) (trigReal cosine (Real.pi * x)) := by
  intro x
  have hx : x = sgn n * ((m <<< e.toNat : Nat) / 2 ^ (-e).toNat) := by
    have h2 : (2 : ℝ) ^ e = 2 ^ e.toNat / 2 ^ (-e).toNat := by
      rw [← zpow_natCast, ← zpow_natCast, ← two_zpow_sub]
      congr 1
      omega
    rw [show x = _ from ratOf_fin n m e, h2, Nat.shiftLeft_eq]
    push_cast
    ring
  have hq149 : (-e).toNat ≤ 149 := by omega
  have hX : (-e).toNat = 0 ∨ m <<< e.toNat < 2 ^ 24 := by
    rcases le_or_gt 0 e with h | h
    · exact .inl (by omega)
    · exact .inr (by rwa [show e.toNat = 0 by omega, Nat.shiftLeft_zero])
  have hpos := trigReal_position cosine n (m <<< e.toNat) (-e).toNat
  have hturn := turns_split (m <<< e.toNat) (-e).toNat
  rw [← hx] at hpos
  unfold trigPi
  dsimp only
  generalize (-e).toNat = q at *
  generalize m <<< e.toNat = X at *
  generalize hs : decide (2 ^ q ≤ X % (2 * 2 ^ q)) = half at *
  have hr : X % (2 * 2 ^ q) % 2 ^ q < 2 ^ q := Nat.mod_lt _ (Nat.two_pow_pos q)
  have hrX : X % (2 * 2 ^ q) % 2 ^ q ≤ X := (Nat.mod_le _ _).trans (Nat.mod_le _ _)
  generalize X % (2 * 2 ^ q) % 2 ^ q = r at *
  generalize X / (2 * 2 ^ q) = k at *
  have hfold := trigReal_fold cosine hr.le
  -- a rest that is neither 0 nor a half is no multiple of a half
  have hno : ∀ z : ℤ, 2 * x = z → r = 0 ∨ 2 * r = 2 ^ q := fun z hz => half_multiple hx hr hturn hz
  have hr24 : r < 2 ^ 24 := by
    rcases hX with hX | hX
    · rw [hX] at hr; omega
    · omega
  have hin := fun h0 h1 s => trig_folded_near fn bits cosine s hr hr24 hq149 h0 h1
  rw [hpos]
  have slack := (two_zpow_pos (-149)).le
  cases cosine
  case true =>
    simp only [if_true, Bool.not_true, Bool.false_and, Bool.false_bne, Bool.true_and] at *
    by_cases h1 : 2 * r = 2 ^ q
    · rw [if_pos h1, trigReal_middle true h1, if_pos rfl, mul_zero]
      have hz := zero_exactly false
      exact ⟨hz.nearTo slack, fun _ _ => hz⟩
    rw [if_neg h1]
    by_cases h0 : r = 0
    · have hone : trigReal true (Real.pi * ((r : ℝ) / 2 ^ q)) = 1 := by rw [h0]; simp [trigReal]
      have hlt : ¬2 ^ q < 2 * r := by rw [h0]; exact Nat.not_lt_zero _
      rw [hone, if_neg hlt, if_pos h0, decide_eq_false hlt, Bool.bne_false]
      have hz := one_exactly half
      exact ⟨hz.nearTo slack, fun _ _ => hz⟩
    · have h' : (if 2 ^ q < 2 * r then 2 ^ q - r else r) ≠ 0 := by split <;> omega
      rw [if_neg h', hfold, ← mul_assoc, ← sgn_bne]
      exact ⟨hin h0 h1 _, fun z hz => absurd (hno z hz) (by tauto)⟩
  case false =>
    simp only [Bool.false_eq_true, if_false, Bool.not_false, Bool.true_and, Bool.false_and, sgn_false, one_mul] at *
    by_cases h0 : r = 0
    · have hzero : trigReal false (Real.pi * ((r : ℝ) / 2 ^ q)) = 0 := by rw [h0]; simp [trigReal]
      rw [if_pos h0, hzero, mul_zero]
      have hz := zero_exactly n
      exact ⟨hz.nearTo slack, fun _ _ => hz⟩
    rw [if_neg h0]
    by_cases h1 : 2 * r = 2 ^ q
    · rw [if_pos h1, trigReal_middle false h1, if_neg Bool.false_ne_true]
      have hz := one_exactly (n != half)
      exact ⟨hz.nearTo slack, fun _ _ => hz⟩
    · rw [if_neg h1, hfold]
      exact ⟨hin h0 h1 _, fun z hz => absurd (hno z hz) (by tauto)⟩

theorem fpSinpi_fin {a : Word} {n : Bool} {m : Nat} {e : ℤ} (h : fp32.read a = .fin n m e) :
    let x : ℝ := ratOf (.fin n m e)
    NearTo (fpSinpi 0 a 0) (Real.sin (Real.pi * x)) (2 ^ (-149 : ℤ)) ∧ ∀ z : ℤ, 2 * x = z → ExactlyIs (fpSinpi 0 a 0) (Real.sin (Real.pi * x)) := by
  intro x
  obtain ⟨hm, he, -⟩ := read_fp32_bounds h
  unfold fpSinpi
  rw [h]
  dsimp only
  by_cases h0 : m = 0
  · have hx : x = 0 := by rw [show x = _ from ratOf_fin n m e, h0]; simp
    have hz := zero_exactly n
    rw [if_pos h0, hx, mul_zero, Real.sin_zero]
    exact ⟨hz.nearTo (two_zpow_pos _).le, fun _ _ => hz⟩
  · rw [if_neg h0]
    exact trigPi_spec 2 _ false n hm he

theorem fpCospi_fin {a : Word} {n : Bool} {m : Nat} {e : ℤ} (h : fp32.read a = .fin n m e) :
    let x : ℝ := ratOf (.fin n m e)
    NearTo (fpCospi 0 a 0) (Real.cos (Real.pi * x)) (2 ^ (-149 : ℤ)) ∧ ∀ z : ℤ, 2 * x = z → ExactlyIs (fpCospi 0 a 0) (Real.cos (Real.pi * x)) := by
  intro x
  obtain ⟨hm, he, -⟩ := read_fp32_bounds h
  unfold fpCospi
  rw [h]
  dsimp only
  by_cases h0 : m = 0
  · have hx : x = 0 := by rw [show x = _ from ratOf_fin n m e, h0]; simp
    have hz := one_exactly false
    rw [sgn_false, one_mul] at hz
    rw [if_pos h0, hx, mul_zero, Real.cos_zero]
    exact ⟨hz.nearTo (two_zpow_pos _).le, fun _ _ => hz⟩
  · rw [if_neg h0]
    exact trigPi_spec 3 _ true n hm he

/-! ### R40 -/

/-- Of a NaN, each function delivers the canonical one. -/
theorem special_of_nan {a : Word} {q : Bool} (h : fp32.read a = .nan q) :
    fpExp2 0 a 0 = (0x7FC00000, if q then 16 else 0) ∧ fpLog2 0 a 0 = (0x7FC00000, if q then 16 else 0) ∧
      fpSinpi 0 a 0 = (0x7FC00000, if q then 16 else 0) ∧ fpCospi 0 a 0 = (0x7FC00000, if q then 16 else 0) := by
  unfold fpExp2 fpLog2 fpSinpi fpCospi
  rw [h]
  exact ⟨rfl, rfl, rfl, rfl⟩

theorem special_of_inf {a : Word} {n : Bool} (h : fp32.read a = .inf n) :
    fpExp2 0 a 0 = (if n then 0 else 0x7F800000, 0) ∧ fpLog2 0 a 0 = (if n then (0x7FC00000, 16) else (0x7F800000, 0)) ∧
      fpSinpi 0 a 0 = (0x7FC00000, 16) ∧ fpCospi 0 a 0 = (0x7FC00000, 16) := by
  unfold fpExp2 fpLog2 fpSinpi fpCospi
  rw [h]
  cases n <;> exact ⟨rfl, rfl, rfl, rfl⟩

theorem special_of_zero {a : Word} {n : Bool} {e : ℤ} (h : fp32.read a = .fin n 0 e) :
    fpLog2 0 a 0 = (0xFF800000, 8) ∧ fpSinpi 0 a 0 = (if n then 0x80000000 else 0, 0) := by
  unfold fpLog2 fpSinpi
  rw [h]
  cases n <;> exact ⟨rfl, rfl⟩

theorem fpLog2_neg {a : Word} {m : Nat} {e : ℤ} (h : fp32.read a = .fin true m e) (hm : m ≠ 0) : fpLog2 0 a 0 = (0x7FC00000, 16) := by
  unfold fpLog2
  rw [h]
  dsimp only
  rw [if_neg hm, if_pos rfl]
  rfl

end Sys2Proof.Machine

namespace Sys2Proof.Proofs
open Machine

/-- R40: the special functions. -/
theorem specialFunctions : specialFunctionsRule := by
  refine ⟨fun a q h => special_of_nan h, fun a n h => special_of_inf h, fun a n m e h => ?_⟩
  obtain ⟨hbig, hnear, hexact⟩ := fpExp2_fin h
  refine ⟨?_, hexact, ?_, ?_, ?_, (fpSinpi_fin h).1, (fpCospi_fin h).1, fun z hz => ⟨(fpSinpi_fin h).2 z hz, (fpCospi_fin h).2 z hz⟩⟩
  · split
    case isTrue h128 => exact hbig h128
    case isFalse h128 => exact hnear (not_le.1 h128)
  · rintro rfl
    exact special_of_zero h
  · rintro hm rfl
    exact fpLog2_neg h hm
  · intro hx
    rw [ratOf_fin] at hx
    have hmag : (0 : ℝ) ≤ m * 2 ^ e := mul_nonneg (Nat.cast_nonneg _) (two_zpow_pos e).le
    cases n
    · have hm : 0 < m := Nat.pos_of_ne_zero (by rintro rfl; simp at hx)
      exact fpLog2_pos h hm
    · rw [sgn_true] at hx
      linarith

end Sys2Proof.Proofs
end

section
/-! Elements in the shares of a workgroup: reading one after writing one, and after writing many (R224 to R226). -/

namespace Sys2Proof.Machine

/-! ### Folds of writes -/

/-- A fold of changes, each of which may be refused for a reason that earlier changes do not touch. -/
theorem foldOpt_map_some {α β γ : Type} [Inhabited γ] {v : α → Option γ} {w : β → α → γ → β} : ∀ {l : List α} {g y : β},
    foldOpt (fun h p => (v p).map (w h p)) g l = some y →
      (∀ p ∈ l, v p = some ((v p).getD default)) ∧ y = l.foldl (fun h p => w h p ((v p).getD default)) g
  | [], g, y, h => ⟨by simp, (Option.some.inj h).symm⟩
  | p :: l, g, y, h => by
    cases hv : v p with
    | none => simp [foldOpt, hv] at h
    | some c =>
      simp only [foldOpt, hv, Option.map_some] at h
      obtain ⟨h1, h2⟩ := foldOpt_map_some h
      refine ⟨fun q hq => ?_, by rw [List.foldl_cons, hv]; exact h2⟩
      rcases List.mem_cons.1 hq with rfl | hq
      · rw [hv]; rfl
      · exact h1 q hq

theorem foldOpt_map_isSome {α β γ : Type} {v : α → Option γ} {w : β → α → γ → β} : ∀ {l : List α} (g : β),
    (∀ p ∈ l, (v p).isSome = true) → (foldOpt (fun h p => (v p).map (w h p)) g l).isSome = true
  | [], _, _ => rfl
  | p :: l, g, h => by
    obtain ⟨c, hc⟩ := Option.isSome_iff_exists.1 (h p List.mem_cons_self)
    simp only [foldOpt, hc, Option.map_some]
    exact foldOpt_map_isSome _ fun q hq => h q (List.mem_cons_of_mem _ hq)

/-- After a fold of writes, each place holds what was written there. -/
theorem foldl_reads {α β γ : Type} {w : β → α → β} {R : β → α → γ} {val : α → γ} {l : List α} (same : ∀ g, ∀ p ∈ l, R (w g p) p = val p)
    (other : ∀ g, ∀ p ∈ l, ∀ q ∈ l, q ≠ p → R (w g p) q = R g q) (g : β) : ∀ q ∈ l, R (l.foldl w g) q = val q := by
  suffices h : ∀ t, t ⊆ l → ∀ q ∈ t, R (t.foldl w g) q = val q from h l (List.Subset.refl l)
  intro t
  induction t using List.reverseRecOn with
  | nil => intro _ q hq; simp at hq
  | append_singleton t p ih =>
    intro ht q hq
    have hp : p ∈ l := ht (by simp)
    rw [List.foldl_concat]
    by_cases hqp : q = p
    · rw [hqp]; exact same _ p hp
    · have hqt : q ∈ t := by simpa [hqp] using hq
      rw [other _ p hp q (ht hq) hqp]
      exact ih (fun x hx => ht (List.mem_append_left _ hx)) q hqt

theorem mem_pairs {is js : List Nat} {p : Nat × Nat} : p ∈ pairs is js ↔ p.1 ∈ is ∧ p.2 ∈ js := by
  obtain ⟨i, j⟩ := p
  simp only [pairs, List.mem_flatMap, List.mem_map, Prod.mk.injEq]
  constructor
  · rintro ⟨a, ha, b, hb, rfl, rfl⟩; exact ⟨ha, hb⟩
  · exact fun h => ⟨i, h.1, j, h.2, rfl, rfl⟩

/-! ### Numbers in bytes -/

theorem Mem.leNat_lt (m : Tab Byte) (a n : Nat) : leNat (Mem.bytes m a n) < 256 ^ n := by
  suffices h : ∀ bs : List Byte, leNat bs < 256 ^ bs.length by simpa [Mem.bytes] using h (Mem.bytes m a n)
  intro bs
  induction bs with
  | nil => exact one_pos
  | cons b bs ih =>
    have := b.isLt
    rw [leNat, List.length_cons, pow_succ]
    omega

/-- A number read back from where it was written. -/
theorem Mem.leNat_storeAll (m : Tab Byte) (a n : Nat) {x : Nat} (hx : x < 256 ^ n) : leNat (Mem.bytes (Mem.storeAll m a (leBytes n x)) a n) = x := by
  have h := Mem.bytes_storeAll_same m a (leBytes n x)
  rw [leBytes_length] at h
  rw [h, leNat_leBytes, Nat.mod_eq_of_lt hx]

theorem Mem.leNat_storeAll_other (m : Tab Byte) {a b n k : Nat} (x : Nat) (h : a + n ≤ b ∨ b + k ≤ a) :
    leNat (Mem.bytes (Mem.storeAll m b (leBytes k x)) a n) = leNat (Mem.bytes m a n) := by
  rw [Mem.bytes_storeAll_other _ _ _ _ _ (by rwa [leBytes_length])]

theorem digits_inj {n a b c d : Nat} (hb : b < n) (hd : d < n) (h : a * n + b = c * n + d) : a = c ∧ b = d := by
  have hn : 0 < n := by omega
  have h1 := congrArg (· / n) h
  have h2 := congrArg (· % n) h
  simp only [Nat.mul_comm _ n, Nat.mul_add_div hn, Nat.mul_add_mod, Nat.div_eq_of_lt hb, Nat.div_eq_of_lt hd, Nat.mod_eq_of_lt hb,
    Nat.mod_eq_of_lt hd, Nat.add_zero] at h1 h2
  exact ⟨h1, h2⟩
theorem digits_lt {n q a b : Nat} (hb : b < n) (ha : a < q) : a * n + b < q * n := by
  have := Nat.mul_le_mul_right n (Nat.succ_le_of_lt ha)
  rw [Nat.succ_mul] at this
  omega
/-- Places of n bytes each. -/
theorem places_disjoint {n a b : Nat} (h : a ≠ b) : n * a + n ≤ n * b ∨ n * b + n ≤ n * a := by
  rcases Nat.lt_or_gt_of_ne h with h | h
  · exact .inl (by simpa [Nat.mul_succ] using Nat.mul_le_mul_left n (Nat.succ_le_of_lt h))
  · exact .inr (by simpa [Nat.mul_succ] using Nat.mul_le_mul_left n (Nat.succ_le_of_lt h))

/-! ### Accumulator elements (R226) -/

/-- The number of an element among those of its region, in the order in which they stand. -/
def MxOp.slot (o : MxOp) (i j : Nat) : Nat :=
  (i / 16 * (fwN o.fmt / o.tileCols) + j / o.tileCols) * (16 * o.tileCols) + (i % 16 * o.tileCols + j % o.tileCols)

theorem MxOp.tileCols_pos (o : MxOp) : 0 < o.tileCols := by unfold MxOp.tileCols; split <;> decide
theorem MxOp.tile_bytes (o : MxOp) : o.accBytes * (16 * o.tileCols) = 1024 := by unfold MxOp.accBytes MxOp.tileCols; split <;> rfl
theorem MxOp.tileCols_dvd (o : MxOp) : o.tileCols ∣ fwN o.fmt := by
  unfold MxOp.tileCols fwN
  split
  · exact Dvd.dvd.mul_right (by decide) _
  · exact Dvd.intro _ rfl

theorem MxOp.accAt_eq (o : MxOp) (i j : Nat) : o.accAt i j = 1024 * fwCt o.fmt + o.accBytes * o.slot i j := by
  unfold MxOp.accAt MxOp.slot
  rw [← o.tile_bytes]
  ring

theorem MxOp.inTile_lt (o : MxOp) (i j : Nat) : i % 16 * o.tileCols + j % o.tileCols < 16 * o.tileCols :=
  digits_lt (Nat.mod_lt _ o.tileCols_pos) (Nat.mod_lt _ (by decide))
theorem MxOp.col_lt (o : MxOp) {j : Nat} (hj : j < fwN o.fmt) : j / o.tileCols < fwN o.fmt / o.tileCols :=
  Nat.div_lt_div_of_lt_of_dvd o.tileCols_dvd hj

theorem MxOp.slot_lt (o : MxOp) {i j : Nat} (hi : i < fwM o.fmt) (hj : j < fwN o.fmt) : o.slot i j < o.tiles * (16 * o.tileCols) :=
  digits_lt (o.inTile_lt i j) (digits_lt (o.col_lt hj) (Nat.div_lt_div_of_lt_of_dvd (Dvd.intro _ rfl) hi))

theorem MxOp.slot_inj (o : MxOp) {i j i' j' : Nat} (hj : j < fwN o.fmt) (hj' : j' < fwN o.fmt) (h : o.slot i j = o.slot i' j') : i = i' ∧ j = j' := by
  obtain ⟨h1, h2⟩ := digits_inj (o.inTile_lt i j) (o.inTile_lt i' j') h
  obtain ⟨h3, h4⟩ := digits_inj (o.col_lt hj) (o.col_lt hj') h1
  obtain ⟨h5, h6⟩ := digits_inj (Nat.mod_lt _ o.tileCols_pos) (Nat.mod_lt _ o.tileCols_pos) h2
  have e1 := Nat.div_add_mod i 16
  have e2 := Nat.div_add_mod i' 16
  have e3 := Nat.div_add_mod j o.tileCols
  have e4 := Nat.div_add_mod j' o.tileCols
  rw [h4, h6] at e3
  exact ⟨by omega, e3.symm.trans e4⟩

theorem MxOp.accAt_disjoint (o : MxOp) {i j i' j' : Nat} (hj : j < fwN o.fmt) (hj' : j' < fwN o.fmt) (h : (i', j') ≠ (i, j)) :
    o.accAt i' j' + o.accBytes ≤ o.accAt i j ∨ o.accAt i j + o.accBytes ≤ o.accAt i' j' := by
  have hs : o.slot i' j' ≠ o.slot i j := fun he => h (by obtain ⟨rfl, rfl⟩ := o.slot_inj hj' hj he; rfl)
  rw [o.accAt_eq, o.accAt_eq]
  rcases places_disjoint (n := o.accBytes) hs with h | h <;> omega

/-- An element of the region stands in the region's tiles. -/
theorem MxOp.accAt_in (o : MxOp) {i j : Nat} (hi : i < fwM o.fmt) (hj : j < fwN o.fmt) :
    1024 * fwCt o.fmt ≤ o.accAt i j ∧ o.accAt i j + o.accBytes ≤ 1024 * (fwCt o.fmt + o.tiles) := by
  have h := Nat.mul_le_mul_left o.accBytes (Nat.succ_le_of_lt (o.slot_lt hi hj))
  have e : o.accBytes * (o.tiles * (16 * o.tileCols)) = 1024 * o.tiles := by rw [← o.tile_bytes]; ring
  rw [e, Nat.mul_succ] at h
  rw [o.accAt_eq]
  omega

theorem accBits_lt (g : Workgroup) (o : MxOp) (i j : Nat) : g.accBits o i j < 256 ^ o.accBytes := Mem.leNat_lt _ _ _
theorem accBits_setAcc_same (g : Workgroup) (o : MxOp) (i j : Nat) {x : Nat} (hx : x < 256 ^ o.accBytes) :
    (g.setAcc o i j x).accBits o i j = x := Mem.leNat_storeAll _ _ _ hx
theorem accBits_setAcc_other (g : Workgroup) (o : MxOp) {i j i' j' : Nat} (x : Nat) (hj : j < fwN o.fmt) (hj' : j' < fwN o.fmt)
    (h : (i', j') ≠ (i, j)) : (g.setAcc o i j x).accBits o i' j' = g.accBits o i' j' :=
  Mem.leNat_storeAll_other _ _ (o.accAt_disjoint hj hj' h)
/-- A written element leaves the bytes outside the region. -/
theorem acc_setAcc (g : Workgroup) (o : MxOp) {i j : Nat} (x : Nat) (hi : i < fwM o.fmt) (hj : j < fwN o.fmt) {e : Nat}
    (he : e < 1024 * fwCt o.fmt ∨ 1024 * (fwCt o.fmt + o.tiles) ≤ e) : Mem.byte (g.setAcc o i j x).acc e = Mem.byte g.acc e := by
  obtain ⟨h1, h2⟩ := o.accAt_in hi hj
  exact Mem.byte_storeAll_other _ _ _ _ (by rw [leBytes_length]; omega)

/-! ### Elements of a stored matrix (R224) -/

/-- Bytes of an element of whole bytes. -/
def Mat.size (m : Mat) : Nat := halfBytes m.fmt / 2
/-- A matrix of whole bytes whose lines do not overlap. -/
def Mat.Apart (m : Mat) : Prop := m.fmt ≠ 9 ∧ m.lineBytes ≤ m.ld

theorem halfBytes_even {fmt : Nat} (h : fmt ≠ 9) : halfBytes fmt = 2 * (halfBytes fmt / 2) := by
  unfold halfBytes
  split_ifs <;> rfl
theorem Mat.lineBytes_eq {m : Mat} (h : m.fmt ≠ 9) : m.lineBytes = m.size * m.elems := by
  rw [Mat.lineBytes, halfBytes_even h, Mat.size, Nat.mul_left_comm, Nat.mul_div_cancel_left _ two_pos, Nat.mul_comm]
theorem Mat.offset_eq {m : Mat} (h : m.fmt ≠ 9) (r c : Nat) : m.offset r c = m.base + (m.locate r c).1 * m.ld + m.size * (m.locate r c).2 := by
  rw [Mat.offset, halfBytes_even h, Mat.size, Nat.mul_left_comm, Nat.mul_div_cancel_left _ two_pos, Nat.mul_comm _ (halfBytes m.fmt / 2)]

theorem Mat.locate_lt (m : Mat) {r c : Nat} (hr : r < m.rows) (hc : c < m.cols) : (m.locate r c).1 < m.lines ∧ (m.locate r c).2 < m.elems := by
  unfold Mat.locate Mat.lines Mat.elems
  split <;> exact ⟨‹_›, ‹_›⟩
theorem Mat.locate_inj (m : Mat) {r c r' c' : Nat} (h : m.locate r c = m.locate r' c') : r = r' ∧ c = c' := by
  unfold Mat.locate at h
  split at h <;> exact ⟨by simp_all, by simp_all⟩

/-- An element stands in its line. -/
theorem Mat.inLine {m : Mat} (h9 : m.fmt ≠ 9) {p : Nat} (hp : p < m.elems) : m.size * p + m.size ≤ m.lineBytes := by
  rw [Mat.lineBytes_eq h9]
  simpa [Nat.mul_succ] using Nat.mul_le_mul_left m.size (Nat.succ_le_of_lt hp)

theorem Mat.offset_disjoint {m : Mat} (hm : m.Apart) {r c r' c' : Nat} (hr : r < m.rows) (hc : c < m.cols) (hr' : r' < m.rows) (hc' : c' < m.cols)
    (h : (r', c') ≠ (r, c)) : m.offset r' c' + m.size ≤ m.offset r c ∨ m.offset r c + m.size ≤ m.offset r' c' := by
  obtain ⟨h9, hld⟩ := hm
  have hl : m.locate r' c' ≠ m.locate r c := fun he => h (by obtain ⟨rfl, rfl⟩ := m.locate_inj he; rfl)
  obtain ⟨-, h2⟩ := m.locate_lt hr hc
  obtain ⟨-, h4⟩ := m.locate_lt hr' hc'
  rw [m.offset_eq h9, m.offset_eq h9]
  generalize m.locate r c = p at *
  generalize m.locate r' c' = q at *
  have hp := Mat.inLine h9 h2
  have hq := Mat.inLine h9 h4
  rcases Nat.lt_trichotomy q.1 p.1 with h | h | h
  · have := Nat.mul_le_mul_right m.ld (Nat.succ_le_of_lt h)
    rw [Nat.succ_mul] at this
    omega
  · have : q.2 ≠ p.2 := fun he => hl (Prod.ext h he)
    rw [h]
    rcases places_disjoint (n := m.size) this with h | h <;> omega
  · have := Nat.mul_le_mul_right m.ld (Nat.succ_le_of_lt h)
    rw [Nat.succ_mul] at this
    omega

/-- An element stands in the range of its matrix. -/
theorem Mat.offset_in {m : Mat} (h9 : m.fmt ≠ 9) {r c : Nat} (hr : r < m.rows) (hc : c < m.cols) :
    m.base ≤ m.offset r c ∧ m.offset r c + m.size ≤ m.base + ((m.lines - 1) * m.ld + m.lineBytes) := by
  obtain ⟨h1, h2⟩ := m.locate_lt hr hc
  rw [m.offset_eq h9]
  have hp := Mat.inLine h9 h2
  have := Nat.mul_le_mul_right m.ld (Nat.le_sub_one_of_lt h1)
  omega

theorem Mat.size_pos {m : Mat} (h9 : m.fmt ≠ 9) : 0 < m.size := by
  have h : 0 < halfBytes m.fmt := by unfold halfBytes; split_ifs <;> decide
  rw [halfBytes_even h9] at h
  exact Nat.pos_of_mul_pos_left h

/-- The range of the lines is one of those that the checks go through. -/
theorem Mat.body_mem {m : Mat} (h9 : m.fmt ≠ 9) {r c : Nat} (hr : r < m.rows) (hc : c < m.cols) :
    (m.base, (m.lines - 1) * m.ld + m.lineBytes) ∈ m.ranges := by
  obtain ⟨h1, h2⟩ := m.locate_lt hr hc
  have := Mat.inLine h9 h2
  have := Mat.size_pos h9
  have hne : (decide (m.lines = 0) || decide (m.lineBytes = 0)) = false := by simp; omega
  rw [Mat.ranges]
  simp only [hne, Bool.false_eq_true, if_false]
  exact List.mem_append_left _ (List.mem_singleton.2 rfl)

theorem rawAt_eq (g : Workgroup) {m : Mat} (h9 : m.fmt ≠ 9) (r c : Nat) : g.rawAt m r c = leNat (Mem.bytes g.scratch (m.offset r c) m.size) := if_neg h9
theorem rawAt_lt (g : Workgroup) {m : Mat} (h9 : m.fmt ≠ 9) (r c : Nat) : g.rawAt m r c < 256 ^ m.size := by rw [rawAt_eq g h9]; exact Mem.leNat_lt _ _ _
theorem rawAt_setElem_same (g : Workgroup) {m : Mat} (h9 : m.fmt ≠ 9) (r c : Nat) {x : Nat} (hx : x < 256 ^ m.size) :
    (g.setElem m r c x).rawAt m r c = x := by
  rw [rawAt_eq _ h9]
  exact Mem.leNat_storeAll _ _ _ hx
theorem rawAt_setElem_other (g : Workgroup) {m : Mat} (hm : m.Apart) {r c r' c' : Nat} (x : Nat) (hr : r < m.rows) (hc : c < m.cols)
    (hr' : r' < m.rows) (hc' : c' < m.cols) (h : (r', c') ≠ (r, c)) : (g.setElem m r c x).rawAt m r' c' = g.rawAt m r' c' := by
  rw [rawAt_eq _ hm.1, rawAt_eq _ hm.1]
  exact Mem.leNat_storeAll_other _ _ (Mat.offset_disjoint hm hr hc hr' hc' h)
/-- A written element leaves the bytes outside the matrix. -/
theorem scratch_setElem (g : Workgroup) {m : Mat} (h9 : m.fmt ≠ 9) {r c : Nat} (x : Nat) (hr : r < m.rows) (hc : c < m.cols) {e : Nat}
    (he : ∀ q ∈ m.ranges, e < q.1 ∨ q.1 + q.2 ≤ e) : Mem.byte (g.setElem m r c x).scratch e = Mem.byte g.scratch e := by
  have h := he _ (Mat.body_mem h9 hr hc)
  obtain ⟨h1, h2⟩ := Mat.offset_in h9 hr hc
  have hs : (leBytes (halfBytes m.fmt / 2) x).length = m.size := leBytes_length _ _
  exact Mem.byte_storeAll_other _ _ _ _ (by rw [hs]; dsimp only at h; omega)

end Sys2Proof.Machine
end

section
/-! What the checks of Table 10.5 establish for each operation of the matrix array. -/

namespace Sys2Proof.Machine

theorem MxOp.check_none {o : MxOp} {scratch acc : Nat} (h : o.check scratch acc = none) : o.illegal = false ∧ o.overlaps = false := by
  unfold MxOp.check at h
  split_ifs at h with h1 h2 h3 h4 h5
  exact ⟨by simpa using h1, by simpa using h5⟩

/-- Lines of a written matrix do not overlap. -/
theorem MxOp.written_ld {o : MxOp} (h : o.illegal = false) {m : Mat} (hm : m ∈ o.mats) (hw : m.written = true) : m.lineBytes ≤ m.ld := by
  simp only [MxOp.illegal, Bool.or_eq_false_iff, List.any_eq_false] at h
  simpa [hw] using h.1.2 m hm

/-- What is peculiar to a major in step 1 of the checks. -/
def MxOp.Legal (o : MxOp) : Prop :=
  let a := fwA o.fmt
  let b := fwB o.fmt
  (o.major = 0x3C → fwCplx o.fmt = true → a ≤ 1 ∧ fwK o.fmt % 2 = 0) ∧
  (o.major = 0x3D → isAcc a = true ∧ (b ≤ 7 ∨ b = 11) ∧ (fwScl o.fmt = true → bitsOf (o.word 2).toNat 63 23 = 0)) ∧
  (o.major = 0x3E → isAcc a = true) ∧
  (o.major = 0x3F → a = 1 ∧ (∀ m ∈ o.mats, m.trans = false) ∧
    if o.sub = 0 then blocked b = true ∧ (if (o.mats.drop 1).any (·.axis) then fwM o.fmt = 256 else fwK o.fmt % 256 = 0)
    else b = 1 ∧ fwHn o.fmt ≤ 64 ∧ (if fwHax o.fmt then fwM o.fmt else fwK o.fmt) % fwHn o.fmt = 0)

theorem MxOp.legal_of_illegal {o : MxOp} (h : o.illegal = false) : o.Legal := by
  simp only [MxOp.illegal, Bool.or_eq_false_iff] at h
  obtain ⟨-, h⟩ := h
  refine ⟨fun hm => ?_, fun hm => ?_, fun hm => ?_, fun hm => ?_⟩
  · rw [if_pos hm] at h
    intro hc
    simp [hc] at h
    omega
  · rw [hm] at h
    simp at h
    refine ⟨h.1.1.1, by omega, fun hs => (h.2 hs).1⟩
  · rw [hm] at h
    simp at h
    exact h.1
  · rw [hm] at h
    simp at h
    obtain ⟨⟨⟨ha, -⟩, htrans⟩, h⟩ := h
    refine ⟨ha, htrans, ?_⟩
    split
    case isTrue hs =>
      rw [if_pos hs] at h
      obtain ⟨hb, h⟩ := h
      exact ⟨hb, by simpa using h⟩
    case isFalse hs =>
      rw [if_neg hs] at h
      obtain ⟨⟨⟨hb, -⟩, hn⟩, h⟩ := h
      exact ⟨hb, hn, h⟩

/-! ### The matrices of each major -/

theorem MxOp.mats_mma {o : MxOp} (h : o.major = 0x3C) : o.mats = [matOf (o.word 0) (o.word 1) (fwA o.fmt) (fwM o.fmt) (fwK o.fmt) false,
    matOf (o.word 2) (o.word 3) (fwB o.fmt) (fwK o.fmt) (if fwCplx o.fmt then fwN o.fmt / 2 else fwN o.fmt) false] := if_pos h
theorem MxOp.mats_drain {o : MxOp} (h : o.major = 0x3D) : o.mats = matOf (o.word 0) (o.word 1) (fwB o.fmt) (fwM o.fmt) (fwN o.fmt) true ::
    if fwScl o.fmt then [matOf (o.word 2) (o.word 3) 1 1 (fwN o.fmt) false] else [] := by
  rw [MxOp.mats, h]; rfl
theorem MxOp.mats_tiles {o : MxOp} (h : o.major = 0x3E) : o.mats =
    if o.sub = 0 then [] else [matOf (o.word 0) (o.word 1) (fwA o.fmt) (fwM o.fmt) (fwN o.fmt) (o.sub == 2)] := by
  rw [MxOp.mats, h]; rfl
theorem MxOp.mats_blocks {o : MxOp} (h : o.major = 0x3F) : o.mats = [matOf (o.word 0) (o.word 1) 1 (fwM o.fmt) (fwK o.fmt) false,
    matOf (o.word 2) (o.word 3) (fwB o.fmt) (fwM o.fmt) (fwK o.fmt) true] := by
  rw [MxOp.mats, h]; rfl

/-- A written matrix of whole bytes. -/
theorem MxOp.apart {o : MxOp} (h : o.illegal = false) {m : Mat} (hm : m ∈ o.mats) (hw : m.written = true) (h9 : m.fmt ≠ 9) : m.Apart :=
  ⟨h9, o.written_ld h hm hw⟩
/-- A byte outside the written ranges is outside those of each written matrix. -/
theorem MxOp.outside_ranges {o : MxOp} {m : Mat} (hm : m ∈ o.mats) (hw : m.written = true) {e : Nat}
    (he : ∀ r ∈ o.ranges, r.2.2 = true → e < r.1 ∨ r.1 + r.2.1 ≤ e) : ∀ q ∈ m.ranges, e < q.1 ∨ q.1 + q.2 ≤ e := by
  intro q hq
  exact he (q.1, q.2, m.written) (List.mem_flatMap.2 ⟨m, hm, List.mem_map.2 ⟨q, hq, rfl⟩⟩) hw

/-! ### The steps of an operation -/

/-- A step has a first k. -/
theorem MxOp.first_lt {o : MxOp} (h : o.major = 0x3C) {n : Nat} (hn : n < o.steps) : o.kStep * n < fwK o.fmt := by
  rw [MxOp.steps, if_pos h, ceilDiv, Nat.lt_div_iff_mul_lt (by unfold MxOp.kStep; split <;> decide)] at hn
  rw [Nat.mul_comm]
  omega

/-- The rows of a step are rows of the region. -/
theorem MxOp.stepRow_lt {o : MxOp} (h1 : o.major ≠ 0x3C) (h2 : o.major ≠ 0x3F) {n : Nat} (hn : n < o.steps) {i : Nat} (hi : i ∈ stepRows n) :
    i < fwM o.fmt := by
  rw [MxOp.steps, if_neg h1, if_neg h2] at hn
  obtain ⟨k, hk, rfl⟩ := List.mem_map.1 hi
  rw [List.mem_range] at hk
  have := Nat.div_mul_le_self (fwM o.fmt) 16
  have := Nat.mul_le_mul_right 16 (Nat.succ_le_of_lt hn)
  omega
theorem mem_stepRows {n i : Nat} : i ∈ stepRows n ↔ 16 * n ≤ i ∧ i < 16 * n + 16 := by
  simp only [stepRows, List.mem_map, List.mem_range]
  constructor
  · rintro ⟨k, hk, rfl⟩; omega
  · exact fun h => ⟨i - 16 * n, by omega, by omega⟩

/-- The k of a step. -/
theorem MxOp.ks_eq (o : MxOp) (n : Nat) : o.ks n = List.range' (o.kStep * n) (min (fwK o.fmt) (o.kStep * (n + 1)) - o.kStep * n) := by
  rw [MxOp.ks, List.range_eq_range', List.map_add_range', Nat.add_zero, Nat.mul_comm n, Nat.mul_succ]
  generalize o.kStep * n = s
  generalize o.kStep = t
  induction t with
  | zero => simp
  | succ t ih =>
    rw [List.range'_1_concat, List.filter_append, ih]
    by_cases h : s + t < fwK o.fmt
    · have e : min (fwK o.fmt) (s + (t + 1)) - s = min (fwK o.fmt) (s + t) - s + 1 := by omega
      have e2 : s + (min (fwK o.fmt) (s + t) - s) = s + t := by omega
      rw [e, List.range'_1_concat, e2]
      simp [h]
    · have e : min (fwK o.fmt) (s + (t + 1)) - s = min (fwK o.fmt) (s + t) - s := by omega
      rw [e]
      simp [h]

end Sys2Proof.Machine
end

section
/-! The arithmetic of a step of `mma` (R51 to R55): codes in their width, fused chains, exact sums. -/

namespace Sys2Proof.Machine

/-! ### Codes in their width -/

theorem Fmt.two_pow_width (f : Fmt) : 2 ^ f.width = 2 ^ (f.ebits + f.fbits) + 2 ^ (f.ebits + f.fbits) := by rw [Fmt.width, pow_succ, Nat.mul_two]
theorem Fmt.code_lt (f : Fmt) (n : Bool) {c : Nat} (h : c < 2 ^ (f.ebits + f.fbits)) : f.signBit n + c < 2 ^ f.width := by
  rw [f.two_pow_width]
  cases n
  · simp only [Fmt.signBit, Bool.false_eq_true, if_false]; omega
  · simp only [Fmt.signBit, if_true]; omega
theorem Fmt.inf_lt (f : Fmt) (n : Bool) : f.inf n < 2 ^ f.width := by
  refine f.code_lt n ?_
  rw [pow_add]
  exact Nat.mul_lt_mul_of_pos_right (Nat.sub_lt (Nat.two_pow_pos _) one_pos) (Nat.two_pow_pos _)
theorem Fmt.nan_lt {f : Fmt} (hg : f.Good) : f.nan < 2 ^ f.width := by
  have h0 := Nat.two_pow_pos (f.ebits + f.fbits)
  have h1 : (2 ^ f.ebits - 1) * 2 ^ f.fbits + 2 ^ f.fbits = 2 ^ (f.ebits + f.fbits) := by
    rw [pow_add, ← Nat.succ_mul]
    congr 1
    have := Nat.two_pow_pos f.ebits
    omega
  have h2 : 2 ^ (f.fbits - 1) < 2 ^ f.fbits := Nat.pow_lt_pow_right (by norm_num) (by have := hg.1; omega)
  rw [f.two_pow_width]
  unfold Fmt.nan
  split <;> omega
theorem Fmt.round_lt {f : Fmt} (hg : f.Good) (n : Bool) (m : Nat) (e : ℤ) : (f.round 0 n m 1 e).1 < 2 ^ f.width := by
  unfold Fmt.round
  split
  case isTrue h => exact f.code_lt n (Nat.two_pow_pos _)
  case isFalse h =>
    have hc := (roundMag_code_le hg (rm := 0) (by norm_num) n (Nat.pos_of_ne_zero h) one_pos e).trans_lt f.maxCode_lt
    dsimp only
    split
    · exact f.inf_lt n
    · exact f.code_lt n hc

theorem Fmt.ofVal_lt {f : Fmt} (hg : f.Good) (v : Val) : (f.ofVal 0 v).1 < 2 ^ f.width := by
  cases v with
  | nan s => exact Fmt.nan_lt hg
  | inf n => exact f.inf_lt n
  | fin n m e => exact Fmt.round_lt hg n m e

/-! ### Operations as roundings of exact values -/

theorem Fmt.inf_add_inf_code (f : Fmt) (n m : Bool) : (if n = m then (f.inf n, 0) else (f.nan, 16) : Nat × Flags).1 =
    (f.ofVal 0 (if n = m then .inf n else .nan false)).1 := by
  split <;> rfl
theorem Fmt.add_code (f : Fmt) (x y : Val) : (f.add 0 x y).1 = (f.ofVal 0 (x.add y)).1 := by
  cases x with
  | nan s => rfl
  | inf n =>
    cases y with
    | nan s => rfl
    | inf m => exact f.inf_add_inf_code n m
    | fin m k e => rfl
  | fin n m e => cases y <;> rfl
theorem Fmt.mul_code (f : Fmt) (x y : Val) : (f.mul 0 x y).1 = (f.ofVal 0 (x.mul y)).1 := by
  cases x with
  | nan s => rfl
  | inf n =>
    cases y with
    | nan s => rfl
    | inf m => rfl
    | fin m k e =>
      simp only [Fmt.mul, Val.mul]
      split <;> rfl
  | fin n m e =>
    cases y with
    | nan s => rfl
    | inf k =>
      simp only [Fmt.mul, Val.mul]
      split <;> rfl
    | fin k j d => rfl
theorem Fmt.fma_code (f : Fmt) (x y z : Val) : (f.fma 0 x y z).1 = (f.ofVal 0 ((x.mul y).add z)).1 := by
  cases x with
  | nan s => cases s <;> rfl
  | inf n =>
    cases y with
    | nan s => cases s <;> rfl
    | inf m =>
      cases z with
      | nan s => cases s <;> rfl
      | inf k => exact f.inf_add_inf_code _ _
      | fin k j d => rfl
    | fin m k e =>
      cases k with
      | zero => rfl
      | succ k =>
        cases z with
        | nan s => cases s <;> rfl
        | inf k => exact f.inf_add_inf_code _ _
        | fin k j d => rfl
  | fin n m e =>
    cases y with
    | nan s => cases m <;> cases s <;> rfl
    | inf k =>
      cases m with
      | zero => rfl
      | succ m =>
        cases z with
        | nan s => cases s <;> rfl
        | inf j => exact f.inf_add_inf_code _ _
        | fin k j d => rfl
    | fin k j d =>
      cases z with
      | nan s => cases m <;> cases j <;> cases s <;> rfl
      | inf s => cases m <;> cases j <;> rfl
      | fin s t u => exact congrArg Prod.fst (f.fma_fin 0 n k s m j t e d u)

theorem Fmt.add_lt {f : Fmt} (hg : f.Good) (x y : Val) : (f.add 0 x y).1 < 2 ^ f.width := by rw [f.add_code]; exact Fmt.ofVal_lt hg _
theorem Fmt.mul_lt {f : Fmt} (hg : f.Good) (x y : Val) : (f.mul 0 x y).1 < 2 ^ f.width := by rw [f.mul_code]; exact Fmt.ofVal_lt hg _
theorem Fmt.fma_lt {f : Fmt} (hg : f.Good) (x y z : Val) : (f.fma 0 x y z).1 < 2 ^ f.width := by rw [f.fma_code]; exact Fmt.ofVal_lt hg _

/-! ### Rounding steps (R55) -/

theorem fpStep_arrayStep {f : Fmt} {ftz : Bool} {r : Nat × Flags} {c : Nat} (h : fpStep f ftz r = some c) : ArrayStep f ftz r c := by
  unfold fpStep at h
  unfold ArrayStep
  dsimp only at h ⊢
  generalize r.1 % 2 ^ (f.width - 1) = mag at *
  have hp := Nat.two_pow_pos f.fbits
  split at h
  case isTrue ht =>
    simp only [ne_eq, Bool.and_eq_true, decide_eq_true_eq, Bool.or_eq_true] at ht
    have hftz : ftz = true ∧ c = r.1 - mag := by
      cases ftz
      · simp at h
      · exact ⟨rfl, by simpa using h.symm⟩
    exact ⟨fun h => by omega, fun _ _ => hftz, fun _ => .inr hftz⟩
  case isFalse ht =>
    have hc : c = r.1 := by simpa using h.symm
    simp only [ne_eq, Bool.and_eq_true, decide_eq_true_eq, Bool.or_eq_true] at ht
    exact ⟨fun _ => hc, fun h1 h2 => absurd ⟨by omega, .inl h2⟩ ht, fun _ => .inl hc⟩
theorem fpStep_le {f : Fmt} {ftz : Bool} {r : Nat × Flags} {c : Nat} (h : fpStep f ftz r = some c) : c ≤ r.1 := by
  unfold fpStep at h
  dsimp only at h
  split_ifs at h
  · exact (Option.some.inj h).symm.le.trans (Nat.sub_le _ _)
  · exact (Option.some.inj h).symm.le
theorem fpStep_isSome (f : Fmt) (r : Nat × Flags) : (fpStep f true r).isSome = true := by
  unfold fpStep
  dsimp only
  split <;> rfl
theorem fmaStep_lt {f : Fmt} (hg : f.Good) {ftz : Bool} {a b : Val} {c d : Nat} (h : fmaStep f ftz a b c = some d) : d < 2 ^ f.width :=
  (fpStep_le h).trans_lt (Fmt.fma_lt hg _ _ _)

/-! ### Chains (R51, R54) -/

/-- The values that a fold of steps, each of which may be refused, goes through. -/
theorem foldl_bind_sequence {α : Type} (F : Nat → α → Option α) (s : Nat) (a : α) : ∀ (n : Nat) {d : α},
    (List.range' s n).foldl (fun r k => r.bind (F k)) (some a) = some d →
      ∃ c : Nat → α, c s = a ∧ c (s + n) = d ∧ ∀ k, s ≤ k → k < s + n → F k (c k) = some (c (k + 1))
  | 0, d, h => ⟨fun _ => a, rfl, Option.some.inj h, fun k h1 h2 => absurd h2 (by omega)⟩
  | n + 1, d, h => by
    rw [List.range'_1_concat, List.foldl_concat, Option.bind_eq_some_iff] at h
    obtain ⟨b, hb, hd⟩ := h
    obtain ⟨c, h1, h2, h3⟩ := foldl_bind_sequence F s a n hb
    refine ⟨Function.update c (s + n + 1) d, ?_, Function.update_self _ _ _, fun k hk1 hk2 => ?_⟩
    · rw [Function.update_of_ne (by omega), h1]
    · rw [Function.update_of_ne (by omega)]
      rcases Nat.lt_or_ge k (s + n) with hk | hk
      · rw [Function.update_of_ne (by omega)]; exact h3 k hk1 hk
      · have : k = s + n := by omega
        rw [this, h2, hd, Function.update_self]
theorem foldl_bind_isSome {α β : Type} (F : β → α → Option α) (hF : ∀ k a, (F k a).isSome = true) (a : α) (l : List β) :
    (l.foldl (fun r k => r.bind (F k)) (some a)).isSome = true := by
  induction l using List.reverseRecOn with
  | nil => rfl
  | append_singleton l k ih =>
    obtain ⟨b, hb⟩ := Option.isSome_iff_exists.1 ih
    rw [List.foldl_concat, hb]
    exact hF k b

theorem chain_isSome (f : Fmt) (ks : List Nat) (a b : Nat → Val) (c : Nat) : (chain f true ks a b c).isSome = true :=
  foldl_bind_isSome _ (fun _ _ => fpStep_isSome _ _) c ks

/-- One step of both chains of complex mode. -/
def chainsStep (f : Fmt) (ftz : Bool) (a b c d : Val) (p : Nat × Nat) : Option (Nat × Nat) :=
  match (fmaStep f ftz a c p.1).bind (fmaStep f ftz b.neg d), (fmaStep f ftz a d p.2).bind (fmaStep f ftz b c) with
  | some x, some y => some (x, y)
  | _, _ => none
theorem chains_eq (f : Fmt) (ftz : Bool) (ks : List Nat) (a b c d : Nat → Val) (re im : Nat) :
    chains f ftz ks a b c d re im = ks.foldl (fun r k => r.bind (chainsStep f ftz (a k) (b k) (c k) (d k))) (some (re, im)) := rfl
/-- The values of both chains in the middle of a step. -/
def chainsMid (f : Fmt) (ftz : Bool) (a c d : Val) (p : Nat × Nat) : Nat × Nat :=
  ((fmaStep f ftz a c p.1).getD 0, (fmaStep f ftz a d p.2).getD 0)
/-- The real and the imaginary part of a step, each by way of its middle value. -/
theorem chainsStep_eq_some {f : Fmt} {ftz : Bool} {a b c d : Val} {p q : Nat × Nat} (h : chainsStep f ftz a b c d p = some q) :
    let mid := chainsMid f ftz a c d p
    fmaStep f ftz a c p.1 = some mid.1 ∧ fmaStep f ftz b.neg d mid.1 = some q.1 ∧
      fmaStep f ftz a d p.2 = some mid.2 ∧ fmaStep f ftz b c mid.2 = some q.2 := by
  unfold chainsStep at h
  split at h
  case h_1 u v hu hv =>
    obtain rfl := Option.some.inj h
    obtain ⟨x, hx1, hx2⟩ := Option.bind_eq_some_iff.1 hu
    obtain ⟨y, hy1, hy2⟩ := Option.bind_eq_some_iff.1 hv
    rw [chainsMid, hx1, hy1]
    exact ⟨rfl, hx2, rfl, hy2⟩
  case h_2 => simp at h
theorem chainsStep_isSome (f : Fmt) (a b c d : Val) (p : Nat × Nat) : (chainsStep f true a b c d p).isSome = true := by
  have h : ∀ u v w z : Val, ∀ t, ((fmaStep f true u v t).bind (fmaStep f true w z)).isSome = true := fun u v w z t => by
    obtain ⟨x, hx⟩ := Option.isSome_iff_exists.1 (fpStep_isSome f (f.fma 0 u v (f.decode t)))
    rw [fmaStep, hx]
    exact fpStep_isSome _ _
  obtain ⟨x, hx⟩ := Option.isSome_iff_exists.1 (h a c b.neg d p.1)
  obtain ⟨y, hy⟩ := Option.isSome_iff_exists.1 (h a d b c p.2)
  rw [chainsStep, hx, hy]
  rfl

/-! ### Exact sums (R52, R53) -/

/-- A value is the exact sum of others. -/
def IsSum (l : List Val) (S : Val) : Prop :=
  match S with
  | .nan _ => (∃ q, .nan q ∈ l) ∨ (.inf true ∈ l ∧ .inf false ∈ l)
  | .inf s => .inf s ∈ l ∧ .inf (!s) ∉ l ∧ ∀ q, .nan q ∉ l
  | .fin .. => (∀ v ∈ l, ∃ n m e, v = .fin n m e) ∧ ratOf S = (l.map ratOf).sum

theorem addExact_ratOf (n1 n2 : Bool) (m1 m2 : Nat) (e1 e2 : ℤ) :
    ratOf (Val.add (.fin n1 m1 e1) (.fin n2 m2 e2)) = ratOf (.fin n1 m1 e1) + ratOf (.fin n2 m2 e2) := by
  have h := addExact_value 0 n1 m1 e1 n2 m2 e2
  have h' : (ratOf (Val.add (.fin n1 m1 e1) (.fin n2 m2 e2)) : ℝ) = ratOf (.fin n1 m1 e1) + ratOf (.fin n2 m2 e2) := by
    rw [ratOf_fin n1, ratOf_fin n2]
    exact (ratOf_fin _ _ _).trans h
  exact_mod_cast h'

theorem isSum_singleton (v : Val) : IsSum [v] v := by cases v <;> simp [IsSum]

theorem isSum_add {l k : List Val} {S T : Val} (hS : IsSum l S) (hT : IsSum k T) : IsSum (l ++ k) (S.add T) := by
  cases S with
  | nan s =>
    have h : (∃ q, Val.nan q ∈ l) ∨ (Val.inf true ∈ l ∧ Val.inf false ∈ l) := hS
    exact h.imp (fun ⟨q, h⟩ => ⟨q, List.mem_append_left _ h⟩) fun ⟨h, h'⟩ => ⟨List.mem_append_left _ h, List.mem_append_left _ h'⟩
  | inf s =>
    obtain ⟨h1, h2, h3⟩ : Val.inf s ∈ l ∧ Val.inf (!s) ∉ l ∧ ∀ q, Val.nan q ∉ l := hS
    cases T with
    | nan t =>
      have h : (∃ q, Val.nan q ∈ k) ∨ (Val.inf true ∈ k ∧ Val.inf false ∈ k) := hT
      exact h.imp (fun ⟨q, h⟩ => ⟨q, List.mem_append_right _ h⟩) fun ⟨h, h'⟩ => ⟨List.mem_append_right _ h, List.mem_append_right _ h'⟩
    | inf t =>
      obtain ⟨k1, k2, k3⟩ : Val.inf t ∈ k ∧ Val.inf (!t) ∉ k ∧ ∀ q, Val.nan q ∉ k := hT
      show IsSum _ (if s = t then .inf s else .nan false)
      split
      case isTrue hst =>
        subst hst
        exact ⟨by simp [h1], by simp [h2, k2], by simp [h3, k3]⟩
      case isFalse hst =>
        refine .inr ?_
        cases s <;> cases t <;> simp_all
    | fin n m e =>
      obtain ⟨k1, -⟩ : (∀ v ∈ k, ∃ n m e, v = .fin n m e) ∧ _ := hT
      have hi : ∀ s, Val.inf s ∉ k := fun s hs => by obtain ⟨_, _, _, h⟩ := k1 _ hs; cases h
      have hn : ∀ s, Val.nan s ∉ k := fun s hs => by obtain ⟨_, _, _, h⟩ := k1 _ hs; cases h
      exact ⟨by simp [h1], by simp [h2, hi], by simp [h3, hn]⟩
  | fin n m e =>
    obtain ⟨h1, h2⟩ : (∀ v ∈ l, ∃ n m e, v = .fin n m e) ∧ ratOf (.fin n m e) = (l.map ratOf).sum := hS
    have hi : ∀ s, Val.inf s ∉ l := fun s hs => by obtain ⟨_, _, _, h⟩ := h1 _ hs; cases h
    have hn : ∀ s, Val.nan s ∉ l := fun s hs => by obtain ⟨_, _, _, h⟩ := h1 _ hs; cases h
    cases T with
    | nan t =>
      have h : (∃ q, Val.nan q ∈ k) ∨ (Val.inf true ∈ k ∧ Val.inf false ∈ k) := hT
      exact h.imp (fun ⟨q, h⟩ => ⟨q, List.mem_append_right _ h⟩) fun ⟨h, h'⟩ => ⟨List.mem_append_right _ h, List.mem_append_right _ h'⟩
    | inf t =>
      obtain ⟨k1, k2, k3⟩ : Val.inf t ∈ k ∧ Val.inf (!t) ∉ k ∧ ∀ q, Val.nan q ∉ k := hT
      exact ⟨by simp [k1], by simp [hi, k2], by simp [hn, k3]⟩
    | fin n' m' e' =>
      obtain ⟨k1, k2⟩ : (∀ v ∈ k, ∃ n m e, v = .fin n m e) ∧ ratOf (.fin n' m' e') = (k.map ratOf).sum := hT
      refine ⟨fun v hv => (List.mem_append.1 hv).elim (h1 v) (k1 v), ?_⟩
      rw [List.map_append, List.sum_append, ← h2, ← k2]
      exact addExact_ratOf n n' m m' e e'
/-- A fold of additions is the sum of what it adds. -/
theorem isSum_foldl (x : Val) (xs : List Val) : IsSum (x :: xs) (xs.foldl Val.add x) := by
  induction xs using List.reverseRecOn with
  | nil => exact isSum_singleton x
  | append_singleton xs v ih =>
    rw [List.foldl_concat]
    exact isSum_add ih (isSum_singleton v)

end Sys2Proof.Machine
end

section
/-! The steps of `mma` (R51 to R54, R229). -/

namespace Sys2Proof.Machine

/-! ### Groups of products -/

theorem ratOf_mul {x y : Val} {n : Bool} {m : Nat} {e : ℤ} (h : x.mul y = .fin n m e) : ratOf (x.mul y) = ratOf x * ratOf y := by
  cases x with
  | nan s => cases h
  | inf s =>
    cases y with
    | nan t => cases h
    | inf t => cases h
    | fin k j d =>
      simp only [Val.mul] at h
      split at h <;> cases h
  | fin s t u =>
    cases y with
    | nan t => cases h
    | inf k =>
      simp only [Val.mul] at h
      split at h <;> cases h
    | fin k j d =>
      have := Proofs.mul_value s k t j u d
      have h2 : (ratOf (Val.mul (.fin s t u) (.fin k j d)) : ℝ) = ratOf (.fin s t u) * ratOf (.fin k j d) := (ratOf_fin _ _ _).trans this
      exact_mod_cast h2

/-- A finite value rounded to FP32. -/
theorem ofVal_rounds (v : Val) (hv : ∃ n m e, v = .fin n m e) :
    (ratOf v = 0 → ∃ s, FinIs (fp32.decode (fp32.ofVal 0 v).1) s 0) ∧
      (ratOf v ≠ 0 → ∀ s : Bool, (s = true ↔ ratOf v < 0) →
        Rounds fp32 0 (ratOf v : ℝ) (fp32.decode (fp32.ofVal 0 v).1 = .inf s) fun y _ => FinIs (fp32.decode (fp32.ofVal 0 v).1) s y) := by
  obtain ⟨n, m, e, rfl⟩ := hv
  have hv := ratOf_fin n m e
  refine ⟨fun h0 => ?_, fun h0 s hs => ?_⟩
  · have hm : m = 0 := by
      rw [h0, Rat.cast_zero] at hv
      have := (mul_eq_zero.1 hv.symm).resolve_left (sgn_ne_zero n)
      exact_mod_cast (mul_eq_zero.1 this).resolve_right (two_zpow_pos e).ne'
    exact ⟨n, by rw [hm]; exact Fmt.finIs_zero good_fp32 n⟩
  · have hm : 0 < m := Nat.pos_of_ne_zero fun h => h0 (by rw [h]; simp [ratOf])
    have hr := Fmt.round_roundsTo good_fp32 rfl (rm := 0) (by norm_num) n hm one_pos e (x := (ratOf (.fin n m e) : ℝ)) (by rw [hv]; simp)
    have hs' : s = true ↔ ((ratOf (.fin n m e) : ℚ) : ℝ) < 0 := by rw [hs]; exact_mod_cast Iff.rfl
    intro u z h1 h2 h3
    obtain ⟨h4, h5, h6⟩ := hr s hs' u z h1 h2 h3
    exact ⟨fun h => (if_pos (Or.inl rfl)).mp (h4 h).2, fun h k hk => (h5 h k hk).1, fun h h' => (h6 h h').1⟩

/-- A NaN among addends, or infinities of both signs. -/
def BadSum (l : List Val) : Prop := (∃ q, Val.nan q ∈ l) ∨ (Val.inf true ∈ l ∧ Val.inf false ∈ l)

/-- An exact sum rounded to FP32. -/
theorem isSum_code {l : List Val} {S : Val} (h : IsSum l S) :
    let r := (fp32.ofVal 0 S).1
    (BadSum l → r = 0x7FC00000) ∧ (∀ s, ¬BadSum l → Val.inf s ∈ l → fp32.decode r = .inf s) ∧
      (¬BadSum l → (∀ s, Val.inf s ∉ l) → let t := (l.map ratOf).sum
        (t = 0 → ∃ s, FinIs (fp32.decode r) s 0) ∧
        (t ≠ 0 → ∀ s : Bool, (s = true ↔ t < 0) → Rounds fp32 0 (t : ℝ) (fp32.decode r = .inf s) fun v _ => FinIs (fp32.decode r) s v)) := by
  intro r
  cases S with
  | nan q => exact ⟨fun _ => rfl, fun s hb => absurd h hb, fun hb => absurd h hb⟩
  | inf s =>
    obtain ⟨h1, h2, h3⟩ : Val.inf s ∈ l ∧ Val.inf (!s) ∉ l ∧ ∀ q, Val.nan q ∉ l := h
    have hone : ∀ t, Val.inf t ∈ l → t = s := fun t ht => by
      by_contra hne
      rw [Bool.eq_not_of_ne hne] at ht
      exact h2 ht
    refine ⟨?_, fun t _ ht => ?_, fun _ hno => absurd h1 (hno s)⟩
    · rintro (⟨q, h⟩ | ⟨h, h'⟩)
      · exact absurd h (h3 q)
      · exact absurd (hone _ h) (by rw [← hone _ h']; decide)
    · rw [hone t ht]
      exact Fmt.decode_inf rfl s
  | fin n m e =>
    obtain ⟨hall, hval⟩ : (∀ v ∈ l, ∃ n m e, v = .fin n m e) ∧ ratOf (.fin n m e) = (l.map ratOf).sum := h
    have hinf : ∀ s, Val.inf s ∉ l := fun s hs => by obtain ⟨_, _, _, h⟩ := hall _ hs; cases h
    have hnan : ∀ q, Val.nan q ∉ l := fun q hq => by obtain ⟨_, _, _, h⟩ := hall _ hq; cases h
    refine ⟨?_, fun t _ ht => absurd ht (hinf t), fun _ _ => ?_⟩
    · rintro (⟨q, h⟩ | ⟨h, -⟩)
      · exact absurd h (hnan q)
      · exact absurd h (hinf _)
    · rw [← hval]
      exact ofVal_rounds _ ⟨n, m, e, rfl⟩

theorem badSum_cons (C : Val) (l : List Val) : BadSum (C :: l) ↔
    (∃ q, Val.nan q ∈ l) ∨ (Val.inf true ∈ l ∧ Val.inf false ∈ l) ∨ (∃ q, C = .nan q) ∨ ∃ s, C = .inf s ∧ Val.inf (!s) ∈ l := by
  unfold BadSum
  cases C with
  | nan q => simp
  | inf s => cases s <;> simp <;> tauto
  | fin n m e => simp

/-- The exact sum of the products and the accumulator, rounded once (R52). -/
theorem exactGroup_spec {ks : List Nat} (hks : ks ≠ []) (a b : Nat → Val) (c : Nat) :
    let term := fun k => (a k).mul (b k)
    let some := fun (p : Val → Prop) => ∃ k ∈ ks, p (term k)
    let C := fp32.decode c
    let r := exactGroup ks a b c
    let d := fp32.decode r
    let bad := some (fun v => ∃ q, v = .nan q) ∨ (some (· = .inf true) ∧ some (· = .inf false)) ∨ (∃ q, C = .nan q) ∨ ∃ s, C = .inf s ∧ some (· = .inf !s)
    (bad → r = 0x7FC00000) ∧ (∀ s, ¬bad → some (· = .inf s) ∨ C = .inf s → d = .inf s) ∧
      (¬bad → (∀ s, ¬some (· = .inf s) ∧ C ≠ .inf s) →
        let t := ratOf C + (ks.map fun k => ratOf (a k) * ratOf (b k)).sum
        (t = 0 → ∃ s, FinIs d s 0) ∧ (t ≠ 0 → ∀ s : Bool, (s = true ↔ t < 0) → Rounds fp32 0 (t : ℝ) (d = .inf s) fun v _ => FinIs d s v)) := by
  obtain ⟨k0, ks, rfl⟩ := List.exists_cons_of_ne_nil hks
  intro term some C r d bad
  have hr : r = (fp32.ofVal 0 (C.add ((ks.map term).foldl Val.add (term k0)))).1 := fp32.add_code _ _
  have hmem : ∀ v, v ∈ C :: (k0 :: ks).map term ↔ some (· = v) ∨ C = v := fun v => by
    rw [List.mem_cons, List.mem_map, or_comm, eq_comm]
  obtain ⟨s1, s2, s3⟩ := isSum_code (isSum_add (isSum_singleton C) (isSum_foldl (term k0) (ks.map term)))
  rw [← List.map_cons, List.singleton_append, ← hr] at s1 s2 s3
  have hbad : bad ↔ BadSum (C :: (k0 :: ks).map term) := by
    have hl : ∀ v, v ∈ (k0 :: ks).map term ↔ some (· = v) := fun v => List.mem_map
    have hq : (∃ q, some (· = .nan q)) ↔ some (fun v => ∃ q, v = .nan q) :=
      ⟨fun ⟨q, k, hk, h⟩ => ⟨k, hk, q, h⟩, fun ⟨k, hk, q, h⟩ => ⟨q, k, hk, h⟩⟩
    rw [badSum_cons]
    simp only [hl, hq, bad]
  have hsum : ¬bad → (∀ s, ¬some (· = .inf s) ∧ C ≠ .inf s) → ((C :: (k0 :: ks).map term).map ratOf).sum =
      ratOf C + ((k0 :: ks).map fun k => ratOf (a k) * ratOf (b k)).sum := fun hb hi => by
    rw [List.map_cons, List.sum_cons, List.map_map]
    refine congrArg _ (congrArg _ (List.map_congr_left fun k hk => ?_))
    cases hv : term k with
    | nan q => exact absurd (.inl ⟨k, hk, q, hv⟩) hb
    | inf s => exact absurd ⟨k, hk, hv⟩ (hi s).1
    | fin n m e => exact ratOf_mul hv
  refine ⟨fun h => s1 (hbad.1 h), fun s hb h => s2 s (mt hbad.2 hb) ((hmem _).2 h), fun hb hi => ?_⟩
  have := s3 (mt hbad.2 hb) fun s hs => ((hmem _).1 hs).elim (hi s).1 (hi s).2
  rwa [hsum hb hi] at this

/-- The saturating and the wrapping sum of an integer group (R53). -/
theorem intGroup_spec (sat : Bool) (ks : List Nat) (a b : Nat → ℤ) (c : Nat) :
    let t := sextInt 32 c + (ks.map fun k => a k * b k).sum
    sextInt 32 (intGroup sat ks a b c) = if sat then max (-(2 ^ 31)) (min (2 ^ 31 - 1) t) else (BitVec.ofInt 32 t).toInt := by
  have hr : intGroup sat ks a b c = (BitVec.ofInt 32 (if sat then max (-(2 ^ 31)) (min (2 ^ 31 - 1) (sextInt 32 c + (ks.map fun k => a k * b k).sum))
      else sextInt 32 c + (ks.map fun k => a k * b k).sum)).toNat := by
    rw [intGroup, List.sum_eq_foldl]
  intro t
  rw [hr, sextInt_ofInt]
  cases sat
  · rfl
  · exact BitVec.toInt_ofInt_eq_self (by norm_num) (by simp) (by simp)

end Sys2Proof.Machine
end

section
/-! What a step of `mma` leaves in the accumulator share (R229). -/

namespace Sys2Proof.Machine

/-- The operands of `mma`. -/
def MxOp.matA (o : MxOp) : Mat := matOf (o.word 0) (o.word 1) (fwA o.fmt) (fwM o.fmt) (fwK o.fmt) false
def MxOp.matB (o : MxOp) : Mat := matOf (o.word 2) (o.word 3) (fwB o.fmt) (fwK o.fmt) (if fwCplx o.fmt then fwN o.fmt / 2 else fwN o.fmt) false

/-- The elements that a step writes, real and complex. -/
def MxOp.putReal (o : MxOp) (h : Workgroup) (p : Nat × Nat) (c : Nat) : Workgroup := h.setAcc o p.1 p.2 c
def MxOp.putComplex (o : MxOp) (h : Workgroup) (p : Nat × Nat) (c : Nat × Nat) : Workgroup :=
  (h.setAcc o p.1 (2 * p.2) c.1).setAcc o p.1 (2 * p.2 + 1) c.2

theorem MxOp.run_real {o : MxOp} (h : o.major = 0x3C) (hc : fwCplx o.fmt = false) (ftz : Bool) (n : Nat) (g : Workgroup) : o.run ftz n g =
    foldOpt (fun h p => (g.mmaElement o ftz o.matA o.matB n p.1 p.2).map (o.putReal h p)) g (pairs (List.range (fwM o.fmt)) (List.range (fwN o.fmt))) := by
  rw [MxOp.run, h, MxOp.mats_mma h]
  simp only [hc, Bool.false_eq_true, if_false, MxOp.matA, MxOp.matB]
  rfl
theorem MxOp.run_complex {o : MxOp} (h : o.major = 0x3C) (hc : fwCplx o.fmt = true) (ftz : Bool) (n : Nat) (g : Workgroup) : o.run ftz n g =
    foldOpt (fun h p => (g.mmaComplex o ftz o.matA o.matB n p.1 p.2).map (o.putComplex h p)) g
      (pairs (List.range (fwM o.fmt)) (List.range (fwN o.fmt / 2))) := by
  rw [MxOp.run, h, MxOp.mats_mma h]
  simp only [hc, if_true, MxOp.matA, MxOp.matB]
  rfl

/-! ### Values in the width of an accumulator element -/

theorem MxOp.acc_width {o : MxOp} (h : o.major = 0x3C) : 256 ^ o.accBytes = 2 ^ (if fwA o.fmt = 0 then 64 else 32) := by
  have hk : o.kind = 0 ↔ fwA o.fmt = 0 := by
    rw [MxOp.kind, if_pos h, accKind]
    split_ifs <;> simp_all
  rw [MxOp.accBytes]
  simp only [hk]
  split <;> norm_num
theorem opFmt_width {a : Nat} (h : a ≤ 1) : (opFmt a).Good ∧ (opFmt a).width = if a = 0 then 64 else 32 := by
  interval_cases a
  · exact ⟨good_fp64, rfl⟩
  · exact ⟨good_fp32, rfl⟩

/-- The first and the last k of a step. -/
def MxOp.first (o : MxOp) (n : Nat) : Nat := o.kStep * n
def MxOp.last (o : MxOp) (n : Nat) : Nat := min (fwK o.fmt) (o.kStep * (n + 1))
theorem MxOp.kStep_pos (o : MxOp) : 0 < o.kStep := by unfold MxOp.kStep; split <;> decide
theorem MxOp.first_lt_last {o : MxOp} (h : o.major = 0x3C) {n : Nat} (hn : n < o.steps) : o.first n < o.last n := by
  have h1 := MxOp.first_lt h hn
  have h2 := o.kStep_pos
  rw [MxOp.first, MxOp.last, Nat.mul_succ]
  omega
/-- The value a step starts from. -/
def MxOp.start (o : MxOp) (n : Nat) (x : Workgroup) (i j : Nat) : Nat := if n = 0 ∧ fwZero o.fmt = true then 0 else x.accBits o i j

theorem mmaElement_chain {x : Workgroup} {o : MxOp} {ftz : Bool} {n i j d : Nat} (hm : o.major = 0x3C) (hn : n < o.steps) (ha : fwA o.fmt ≤ 1)
    (h : x.mmaElement o ftz o.matA o.matB n i j = some d) :
    ∃ c : Nat → Nat, c (o.first n) = o.start n x i j ∧ c (o.last n) = d ∧ ∀ k, o.first n ≤ k → k < o.last n →
      fmaStep (opFmt (fwA o.fmt)) ftz (x.elemAt o.matA i k) (x.elemAt o.matB k j) (c k) = some (c (k + 1)) := by
  have hl := MxOp.first_lt_last hm hn
  have e : o.first n + (o.last n - o.first n) = o.last n := by omega
  have hs : (if (decide (n = 0) && fwZero o.fmt) = true then 0 else x.accBits o i j) = o.start n x i j := by simp [MxOp.start]
  rw [Workgroup.mmaElement] at h
  simp only [if_pos ha, hs] at h
  rw [chain, MxOp.ks_eq] at h
  obtain ⟨c, h1, h2, h3⟩ := foldl_bind_sequence (fun k => fmaStep (opFmt (fwA o.fmt)) ftz (x.elemAt o.matA i k) (x.elemAt o.matB k j)) _ _ _ h
  have h2' : c (o.first n + (o.last n - o.first n)) = d := h2
  rw [e] at h2'
  exact ⟨c, h1, h2', fun k hk1 hk2 => h3 k hk1 (hk2.trans_eq e.symm)⟩

theorem mmaElement_int {x : Workgroup} {o : MxOp} {ftz : Bool} {n i j d : Nat} (ha : fwA o.fmt = 6 ∨ fwA o.fmt = 7)
    (h : x.mmaElement o ftz o.matA o.matB n i j = some d) :
    d = intGroup (fwSat o.fmt) (List.range' (o.first n) (o.last n - o.first n)) (x.intAt o.matA i) (fun k => x.intAt o.matB k j) (o.start n x i j) := by
  have hs : (if (decide (n = 0) && fwZero o.fmt) = true then 0 else x.accBits o i j) = o.start n x i j := by simp [MxOp.start]
  rw [Workgroup.mmaElement] at h
  rw [if_neg (by omega), if_pos (by simpa using ha), hs, MxOp.ks_eq] at h
  exact (Option.some.inj h).symm

theorem mmaElement_exact {x : Workgroup} {o : MxOp} {ftz : Bool} {n i j d : Nat} (h2 : 2 ≤ fwA o.fmt) (h6 : fwA o.fmt ≠ 6) (h7 : fwA o.fmt ≠ 7)
    (h : x.mmaElement o ftz o.matA o.matB n i j = some d) :
    d = exactGroup (List.range' (o.first n) (o.last n - o.first n)) (x.elemAt o.matA i) (fun k => x.elemAt o.matB k j) (o.start n x i j) := by
  have hs : (if (decide (n = 0) && fwZero o.fmt) = true then 0 else x.accBits o i j) = o.start n x i j := by simp [MxOp.start]
  rw [Workgroup.mmaElement] at h
  rw [if_neg (by omega), if_neg (by simp [h6, h7]), hs, MxOp.ks_eq] at h
  exact (Option.some.inj h).symm

theorem mmaElement_lt {x : Workgroup} {o : MxOp} {ftz : Bool} {n i j d : Nat} (hm : o.major = 0x3C) (hn : n < o.steps)
    (h : x.mmaElement o ftz o.matA o.matB n i j = some d) : d < 256 ^ o.accBytes := by
  have hl := MxOp.first_lt_last hm hn
  rw [MxOp.acc_width hm]
  rcases Nat.lt_or_ge 1 (fwA o.fmt) with ha | ha
  · rw [if_neg (by omega)]
    by_cases h67 : fwA o.fmt = 6 ∨ fwA o.fmt = 7
    · rw [mmaElement_int h67 h]
      exact BitVec.isLt _
    · rw [mmaElement_exact ha (by tauto) (by tauto) h]
      obtain ⟨t, ht⟩ : ∃ t, o.last n - o.first n = t + 1 := ⟨_, (Nat.succ_pred_eq_of_pos (by omega)).symm⟩
      rw [ht]
      exact Fmt.add_lt good_fp32 _ _
  · obtain ⟨hg, hw⟩ := opFmt_width ha
    obtain ⟨c, -, h2, h3⟩ := mmaElement_chain hm hn ha h
    have := h3 (o.last n - 1) (by omega) (by omega)
    rw [Nat.sub_add_cancel (by omega), h2] at this
    rw [← hw]
    exact fmaStep_lt hg this

/-- The even numbers of a range. -/
theorem filter_even_range' (f t : Nat) : (List.range' (2 * f) (2 * t)).filter (· % 2 = 0) = (List.range' f t).map (2 * ·) := by
  induction t with
  | zero => rfl
  | succ t ih =>
    rw [Nat.mul_succ, List.range'_1_concat, List.range'_1_concat, List.filter_append, List.filter_append, ih, List.range'_1_concat, List.map_append]
    have h0 : (2 * f + 2 * t) % 2 = 0 := by omega
    simp [h0, Nat.mul_add]

/-- The values of a chain by way of middle values: those after an even number of steps, and those between. -/
def interleave (even odd : Nat → Nat) (k : Nat) : Nat := if k % 2 = 0 then even (k / 2) else odd (k / 2)
@[simp] theorem interleave_even (even odd : Nat → Nat) (m : Nat) : interleave even odd (2 * m) = even m := by simp [interleave]
@[simp] theorem interleave_odd (even odd : Nat → Nat) (m : Nat) : interleave even odd (2 * m + 1) = odd m := by
  rw [interleave, if_neg (by omega), show (2 * m + 1) / 2 = m by omega]

theorem mmaComplex_chains {x : Workgroup} {o : MxOp} {ftz : Bool} {n i q : Nat} {d : Nat × Nat} (hm : o.major = 0x3C) (hn : n < o.steps)
    (hK : fwK o.fmt % 2 = 0) (h : x.mmaComplex o ftz o.matA o.matB n i q = some d) :
    ∃ re im : Nat → Nat, re (o.first n) = o.start n x i (2 * q) ∧ im (o.first n) = o.start n x i (2 * q + 1) ∧
      re (o.last n) = d.1 ∧ im (o.last n) = d.2 ∧ ∀ m, o.first n ≤ 2 * m → 2 * m < o.last n →
        let step := fmaStep (opFmt (fwA o.fmt)) ftz
        step (x.elemAt o.matA i (2 * m)) (x.elemAt o.matB (2 * m) q) (re (2 * m)) = some (re (2 * m + 1)) ∧
        step (x.elemAt o.matA i (2 * m + 1)).neg (x.elemAt o.matB (2 * m + 1) q) (re (2 * m + 1)) = some (re (2 * m + 2)) ∧
        step (x.elemAt o.matA i (2 * m)) (x.elemAt o.matB (2 * m + 1) q) (im (2 * m)) = some (im (2 * m + 1)) ∧
        step (x.elemAt o.matA i (2 * m + 1)) (x.elemAt o.matB (2 * m) q) (im (2 * m + 1)) = some (im (2 * m + 2)) := by
  have hl := MxOp.first_lt_last hm hn
  obtain ⟨f, hf⟩ : ∃ f, o.first n = 2 * f := by
    rw [MxOp.first, MxOp.kStep]
    split
    · exact ⟨4 * n, by omega⟩
    · exact ⟨8 * n, by omega⟩
  obtain ⟨l, hl2⟩ : ∃ l, o.last n = 2 * l := by
    have : o.kStep * (n + 1) % 2 = 0 := by rw [MxOp.kStep]; split <;> omega
    exact ⟨o.last n / 2, by rw [MxOp.last]; omega⟩
  have hs : ∀ j, (if (decide (n = 0) && fwZero o.fmt) = true then 0 else x.accBits o i j) = o.start n x i j := fun j => by simp [MxOp.start]
  have hks : (o.ks n).filter (· % 2 = 0) = (List.range' f (l - f)).map (2 * ·) := by
    rw [MxOp.ks_eq, ← filter_even_range', Nat.mul_sub, ← hf, ← hl2, MxOp.first, MxOp.last]
  rw [Workgroup.mmaComplex] at h
  rw [hs, hs, hks, chains_eq, List.foldl_map] at h
  obtain ⟨c, h1, h2, h3⟩ := foldl_bind_sequence (fun m => chainsStep (opFmt (fwA o.fmt)) ftz (x.elemAt o.matA i (2 * m))
    (x.elemAt o.matA i (2 * m + 1)) (x.elemAt o.matB (2 * m) q) (x.elemAt o.matB (2 * m + 1) q)) _ _ _ h
  rw [show f + (l - f) = l by omega] at h2 h3
  have hmid := fun m h h' => chainsStep_eq_some (h3 m h h')
  rw [hf, hl2]
  let mid := fun m => chainsMid (opFmt (fwA o.fmt)) ftz (x.elemAt o.matA i (2 * m)) (x.elemAt o.matB (2 * m) q) (x.elemAt o.matB (2 * m + 1) q) (c m)
  refine ⟨interleave (fun m => (c m).1) fun m => (mid m).1, interleave (fun m => (c m).2) fun m => (mid m).2, ?_, ?_, ?_, ?_, fun m hm1 hm2 => ?_⟩
  · rw [interleave_even, h1]
  · rw [interleave_even, h1]
  · rw [interleave_even, h2]
  · rw [interleave_even, h2]
  · rw [show 2 * m + 2 = 2 * (m + 1) by omega]
    simp only [interleave_even, interleave_odd]
    exact hmid m (by omega) (by omega)

theorem mmaComplex_lt {x : Workgroup} {o : MxOp} {ftz : Bool} {n i q : Nat} {d : Nat × Nat} (hm : o.major = 0x3C) (hn : n < o.steps)
    (ha : fwA o.fmt ≤ 1) (hK : fwK o.fmt % 2 = 0) (h : x.mmaComplex o ftz o.matA o.matB n i q = some d) :
    d.1 < 256 ^ o.accBytes ∧ d.2 < 256 ^ o.accBytes := by
  have hl := MxOp.first_lt_last hm hn
  obtain ⟨re, im, -, -, h1, h2, h3⟩ := mmaComplex_chains hm hn hK h
  obtain ⟨hg, hw⟩ := opFmt_width ha
  have hlast : o.last n % 2 = 0 := by
    have : o.kStep * (n + 1) % 2 = 0 := by rw [MxOp.kStep]; split <;> omega
    rw [MxOp.last]; omega
  obtain ⟨l, hl2⟩ : ∃ l, o.last n = 2 * l + 2 := ⟨o.last n / 2 - 1, by omega⟩
  have hf : o.first n % 2 = 0 := by rw [MxOp.first, MxOp.kStep]; split <;> omega
  obtain ⟨-, s1, -, s2⟩ := h3 l (by omega) (by omega)
  rw [← hl2] at s1 s2
  rw [h1] at s1
  rw [h2] at s2
  rw [MxOp.acc_width hm, ← hw]
  exact ⟨fmaStep_lt hg s1, fmaStep_lt hg s2⟩

/-! ### The step -/

/-- What a step of `mma` writes for the elements of the region. -/
theorem run_real_reads {o : MxOp} {ftz : Bool} {n : Nat} {x y : Workgroup} (hm : o.major = 0x3C) (hc : fwCplx o.fmt = false) (hn : n < o.steps)
    (h : o.run ftz n x = some y) {i j : Nat} (hi : i < fwM o.fmt) (hj : j < fwN o.fmt) :
    x.mmaElement o ftz o.matA o.matB n i j = some (y.accBits o i j) := by
  rw [MxOp.run_real hm hc] at h
  obtain ⟨h1, rfl⟩ := foldOpt_map_some (v := fun p : Nat × Nat => x.mmaElement o ftz o.matA o.matB n p.1 p.2) h
  have hmem : ∀ p ∈ pairs (List.range (fwM o.fmt)) (List.range (fwN o.fmt)), p.2 < fwN o.fmt := fun p hp => List.mem_range.1 (mem_pairs.1 hp).2
  have hij : (i, j) ∈ pairs (List.range (fwM o.fmt)) (List.range (fwN o.fmt)) := mem_pairs.2 ⟨List.mem_range.2 hi, List.mem_range.2 hj⟩
  have hr := foldl_reads (R := fun g p => g.accBits o p.1 p.2) (val := fun p => (x.mmaElement o ftz o.matA o.matB n p.1 p.2).getD default)
    (fun g p hp => accBits_setAcc_same g o _ _ (mmaElement_lt hm hn (h1 p hp)))
    (fun g p hp q hq hne => accBits_setAcc_other g o _ (hmem p hp) (hmem q hq) hne) x (i, j) hij
  rw [h1 _ hij]
  exact congrArg some hr.symm

theorem run_complex_reads {o : MxOp} {ftz : Bool} {n : Nat} {x y : Workgroup} (hm : o.major = 0x3C) (hc : fwCplx o.fmt = true) (ha : fwA o.fmt ≤ 1)
    (hK : fwK o.fmt % 2 = 0) (hn : n < o.steps) (h : o.run ftz n x = some y) {i q : Nat} (hi : i < fwM o.fmt) (hq : q < fwN o.fmt / 2) :
    x.mmaComplex o ftz o.matA o.matB n i q = some (y.accBits o i (2 * q), y.accBits o i (2 * q + 1)) := by
  rw [MxOp.run_complex hm hc] at h
  obtain ⟨h1, rfl⟩ := foldOpt_map_some (v := fun p : Nat × Nat => x.mmaComplex o ftz o.matA o.matB n p.1 p.2) h
  have hmem : ∀ p ∈ pairs (List.range (fwM o.fmt)) (List.range (fwN o.fmt / 2)), 2 * p.2 + 1 < fwN o.fmt := fun p hp => by
    have := List.mem_range.1 (mem_pairs.1 hp).2
    omega
  have hij : (i, q) ∈ pairs (List.range (fwM o.fmt)) (List.range (fwN o.fmt / 2)) := mem_pairs.2 ⟨List.mem_range.2 hi, List.mem_range.2 hq⟩
  have hr := foldl_reads (w := fun h p => o.putComplex h p ((x.mmaComplex o ftz o.matA o.matB n p.1 p.2).getD default))
    (R := fun g p => (g.accBits o p.1 (2 * p.2), g.accBits o p.1 (2 * p.2 + 1)))
    (val := fun p => (x.mmaComplex o ftz o.matA o.matB n p.1 p.2).getD default)
    (fun g p hp => by
      obtain ⟨b1, b2⟩ := mmaComplex_lt hm hn ha hK (h1 p hp)
      have := hmem p hp
      refine Prod.ext ?_ (accBits_setAcc_same _ o _ _ b2)
      exact (accBits_setAcc_other _ o _ this (by omega) (by simp)).trans (accBits_setAcc_same g o _ _ b1))
    (fun g p hp r hr hne => by
      have hp' := hmem p hp
      have hr' := hmem r hr
      have hkeep : ∀ j, j < fwN o.fmt → (r.1, j) ≠ (p.1, 2 * p.2) → (r.1, j) ≠ (p.1, 2 * p.2 + 1) →
          (o.putComplex g p ((x.mmaComplex o ftz o.matA o.matB n p.1 p.2).getD default)).accBits o r.1 j = g.accBits o r.1 j := fun j hj h h' =>
        (accBits_setAcc_other _ o _ hp' hj h').trans (accBits_setAcc_other g o _ (by omega) hj h)
      have hpair : r.1 = p.1 → r.2 ≠ p.2 := fun h h' => hne (Prod.ext h h')
      refine Prod.ext (hkeep _ (by omega) ?_ ?_) (hkeep _ hr' ?_ ?_) <;>
        (simp only [ne_eq, Prod.mk.injEq, not_and]; intro h; have := hpair h; omega)) x (i, q) hij
  rw [h1 _ hij]
  exact congrArg some hr.symm

theorem multiplyStep {o : MxOp} {ftz : Bool} {n : Nat} {x y : Workgroup} (hm : o.major = 0x3C) (hL : o.Legal) (hn : n < o.steps)
    (h : o.run ftz n x = some y) : multiplyStepRule o ftz n x y := by
  intro i hi
  have hl := MxOp.first_lt_last hm hn
  rcases Bool.eq_false_or_eq_true (fwCplx o.fmt) with hc | hc
  case inl =>
    obtain ⟨ha, hK⟩ := hL.1 hm hc
    refine ⟨fun _ h => absurd (hc.symm.trans h) (by decide), fun _ q hq => ?_, fun h => by omega, fun h => by omega⟩
    obtain ⟨re, im, h1, h2, h3, h4, h5⟩ := mmaComplex_chains hm hn hK (run_complex_reads hm hc ha hK hn h hi hq)
    refine ⟨re, im, h1, h2, h3.symm, h4.symm, fun m hm1 hm2 => ?_⟩
    obtain ⟨s1, s2, s3, s4⟩ := h5 m hm1 hm2
    exact ⟨fpStep_arrayStep s1, fpStep_arrayStep s2, fpStep_arrayStep s3, fpStep_arrayStep s4⟩
  case inr =>
    have hread := fun {j} (hj : j < fwN o.fmt) => run_real_reads hm hc hn h hi hj
    refine ⟨fun ha _ j hj => ?_, fun h => absurd (hc.symm.trans h) (by decide), fun ha j hj => ?_, fun h2 h6 h7 j hj => ?_⟩
    · obtain ⟨c, h1, h2, h3⟩ := mmaElement_chain hm hn ha (hread hj)
      exact ⟨c, h1, h2.symm, fun k hk1 hk2 => fpStep_arrayStep (h3 k hk1 hk2)⟩
    · have hd := mmaElement_int ha (hread hj)
      have hs := intGroup_spec (fwSat o.fmt) (List.range' (o.first n) (o.last n - o.first n)) (x.intAt o.matA i) (fun k => x.intAt o.matB k j)
        (o.start n x i j)
      rw [← hd] at hs
      exact hs
    · have hd := mmaElement_exact h2 h6 h7 (hread hj)
      have hs := exactGroup_spec (ks := List.range' (o.first n) (o.last n - o.first n)) (by simp; omega) (x.elemAt o.matA i) (fun k => x.elemAt o.matB k j)
        (o.start n x i j)
      have hk : ∀ k, k ∈ List.range' (o.first n) (o.last n - o.first n) ↔ o.first n ≤ k ∧ k < o.last n := fun k => by
        rw [List.mem_range'_1, show o.first n + (o.last n - o.first n) = o.last n by omega]
      simp only [hk, and_assoc] at hs
      rw [← hd] at hs
      exact hs

end Sys2Proof.Machine
end

section
/-! The conversion of `mdrain` (R55, R230). -/

namespace Sys2Proof.Machine

/-! ### Whole numbers -/

theorem toInt_spec (lo hi : ℤ) (h : lo ≤ hi) (n : Bool) (m : Nat) (e : ℤ) {z : ℤ} (hz : RoundedTo 0 (ratOf (.fin n m e) : ℝ) z) :
    (Val.toInt 0 lo hi (.fin n m e)).1 = max lo (min hi z) := by
  rw [toInt_fin (by norm_num) lo hi n m e hz]
  split_ifs <;> simp only <;> omega
theorem toInt_mem (lo hi : ℤ) (h0 : lo ≤ 0) (h1 : 0 ≤ hi) (v : Val) : lo ≤ (Val.toInt 0 lo hi v).1 ∧ (Val.toInt 0 lo hi v).1 ≤ hi := by
  cases v with
  | nan s => exact ⟨h0, h1⟩
  | inf n => cases n <;> simp [Val.toInt] <;> omega
  | fin n m e =>
    simp only [Val.toInt]
    split_ifs <;> simp only <;> omega

/-- A whole number of w bits, signed or not, as `Drained` reads it from its code. -/
theorem sextInt_ofInt_of_mem {w : Nat} (hw : 0 < w) {z : ℤ} (h1 : -(2 ^ (w - 1)) ≤ z) (h2 : z < 2 ^ (w - 1)) : sextInt w (BitVec.ofInt w z).toNat = z := by
  rw [sextInt_ofInt]
  exact BitVec.toInt_ofInt_eq_self hw h1 h2
theorem ofInt_toNat_of_mem {w : Nat} {z : ℤ} (h1 : 0 ≤ z) (h2 : z < 2 ^ w) : ((BitVec.ofInt w z).toNat : ℤ) = z := by
  rw [BitVec.toNat_ofInt]
  push_cast
  rw [Int.toNat_of_nonneg (Int.emod_nonneg _ (by positivity)), Int.emod_eq_of_lt h1 h2]

/-! ### Floating-point results -/

/-- The parts of a code of a sign and a magnitude. -/
theorem Fmt.mod_code (f : Fmt) (n : Bool) {c : Nat} (h : c < 2 ^ (f.ebits + f.fbits)) : (f.signBit n + c) % 2 ^ (f.width - 1) = c := by
  rw [show f.width - 1 = f.ebits + f.fbits from rfl]
  cases n
  · simpa [Fmt.signBit] using Nat.mod_eq_of_lt h
  · simpa [Fmt.signBit] using Nat.mod_eq_of_lt h

/-- Rounding to FP32 of a finite value that is not 0. -/
theorem round32_rounds (n : Bool) {m : Nat} (hm : 0 < m) (e : ℤ) :
    Rounds fp32 0 (ratOf (.fin n m e) : ℝ) (fp32.decode (fp32.ofVal 0 (.fin n m e)).1 = .inf n)
      fun y _ => FinIs (fp32.decode (fp32.ofVal 0 (.fin n m e)).1) n y := by
  have h0 : ratOf (.fin n m e) ≠ 0 := fun h => by
    have hv := ratOf_fin n m e
    rw [h, Rat.cast_zero] at hv
    have := (mul_eq_zero.1 ((mul_eq_zero.1 hv.symm).resolve_left (sgn_ne_zero n))).resolve_right (two_zpow_pos e).ne'
    have : m = 0 := by exact_mod_cast this
    omega
  refine (ofVal_rounds _ ⟨n, m, e, rfl⟩).2 h0 n ?_
  have hx : (0 : ℝ) < m * 2 ^ e := mul_pos (by exact_mod_cast hm) (two_zpow_pos e)
  rw [sgn_mul_neg hx, ← ratOf_fin]
  exact_mod_cast Iff.rfl

/-- A rounded value that is not tiny is normal. -/
theorem Fmt.roundMag_normal {f : Fmt} (hg : f.Good) (n : Bool) {m : Nat} (hm : 0 < m) (e : ℤ) (ht : (f.roundMag 0 n m 1 e).tiny = false) :
    2 ^ f.fbits ≤ (f.roundMag 0 n m 1 e).code := by
  obtain ⟨u, q, -, -, -, h | h⟩ := f.roundMag_spec (rm := 0) (by norm_num) n hm one_pos e
  · rw [h.2.2.2.2.2.1] at ht
    cases ht
  · obtain ⟨hge, -, c, hc, hcode, -⟩ := h
    rw [hcode, le_min_iff]
    refine ⟨?_, smallest_le_maxCode hg⟩
    rw [← hc, ← f.grid_smallest] at hge
    exact f.grid_strictMono.le_iff_le.1 hge

/-- A normal result that raised no underflow passes a rounding step. -/
theorem fpStep_normal {f : Fmt} (ftz : Bool) {r : Nat × Flags} (h : 2 ^ f.fbits ≤ r.1 % 2 ^ (f.width - 1)) (hu : r.2.getLsbD 1 = false) :
    fpStep f ftz r = some r.1 := by
  rw [fpStep]
  simp only [hu, not_lt.2 h, decide_false, Bool.and_false, Bool.or_self, Bool.false_eq_true, if_false]

/-- A flushed rounding to FP32: tiny results become zeros (R55). -/
theorem flush32_rounds {n : Bool} {m : Nat} (hm : 0 < m) {e : ℤ} {ftz : Bool} {c : Nat} (h : fpStep fp32 ftz (fp32.ofVal 0 (.fin n m e)) = some c) :
    Rounds fp32 0 (ratOf (.fin n m e) : ℝ) (fp32.decode c = .inf n) fun y tiny =>
      (¬tiny → FinIs (fp32.decode c) n y) ∧ (tiny → y = 0 → FinIs (fp32.decode c) n 0) ∧
        (tiny → y ≠ 0 → |y| < (2 : ℝ) ^ (-126 : ℤ) → ftz = true ∧ FinIs (fp32.decode c) n 0) := by
  have hg := good_fp32
  have hcode := Fmt.roundMag_code_le hg (rm := 0) (by norm_num) n hm one_pos e
  refine Fmt.roundMag_rounds hg (rm := 0) (by norm_num) n hm one_pos e (by rw [ratOf_fin]; simp) (fun ho => ?_) fun ho p hp => ?_
  · have hr : fp32.ofVal 0 (.fin n m e) = (fp32.inf n, 5) := by
      show fp32.round 0 n m 1 e = _
      rw [Fmt.round, if_neg hm.ne']
      simp only [ho, if_true]
      rfl
    rw [hr, fpStep_normal ftz (by cases n <;> decide) (by simp)] at h
    rw [← Option.some.inj h]
    exact Fmt.decode_inf rfl n
  · have hr : fp32.ofVal 0 (.fin n m e) = (fp32.signBit n + (fp32.roundMag 0 n m 1 e).code,
        if (fp32.roundMag 0 n m 1 e).exact then 0 else if (fp32.roundMag 0 n m 1 e).tiny then 3 else 1) := by
      show fp32.round 0 n m 1 e = _
      rw [Fmt.round, if_neg hm.ne']
      simp only [ho, Bool.false_eq_true, if_false]
    have hnorm := Fmt.roundMag_normal hg n hm e
    rw [hr] at h
    generalize (fp32.roundMag 0 n m 1 e).code = k at *
    have hmod := fp32.mod_code n (hcode.trans_lt fp32.maxCode_lt)
    obtain ⟨s1, s2, -⟩ := fpStep_arrayStep h
    simp only [hmod] at s1 s2
    refine ⟨fun hn => ?_, fun _ h0 => ?_, fun _ h0 hlt => ?_⟩
    · have ht := Bool.eq_false_iff.2 (mt hp.2 hn)
      rw [fpStep_normal ftz (by simp only [hmod]; exact hnorm ht) (by rw [ht]; cases (fp32.roundMag 0 n m 1 e).exact <;> simp)] at h
      rw [← Option.some.inj h]
      exact Fmt.finIs_code hg n hcode
    · have hk : k = 0 := by
        have := (mul_eq_zero.1 h0).resolve_left (sgn_ne_zero n)
        rw [show (0 : ℝ) = fp32.grid 0 by rw [fp32.grid_low (Nat.zero_le _)]; simp] at this
        exact fp32.grid_strictMono.injective this
      rw [s1 (.inl hk), hk]
      exact Fmt.finIs_zero hg n
    · rw [abs_sgn_mul _ (fp32.grid_nonneg _), show (2 : ℝ) ^ (-126 : ℤ) = fp32.grid (2 ^ fp32.fbits) from fp32.grid_smallest.symm] at hlt
      have hk0 : k ≠ 0 := fun hk => h0 (by rw [hk, fp32.grid_low (Nat.zero_le _)]; simp)
      obtain ⟨hf, hc⟩ := s2 (Nat.pos_of_ne_zero hk0) (fp32.grid_strictMono.lt_iff_lt.1 hlt)
      rw [hc, Nat.add_sub_cancel]
      exact ⟨hf, Fmt.finIs_zero hg n⟩

/-! ### The conversion -/

/-- What a value above the largest finite one becomes: as the clause of `Drained` says it. -/
def AboveMost (b : Nat) (sat n : Bool) (c : Nat) : Prop :=
  if 2 ≤ b ∧ sat = true then FinIs ((opFmt b).decode c) n (mostOf (opFmt b) n) else if b = 4 then c = 0x7F else (opFmt b).decode c = .inf n

/-- The results of a narrowing rounding: FP16, BF16, E4M3 and E5M2. -/
theorem drained_narrow {b : Nat} (hb2 : 2 ≤ b) (hb5 : b ≤ 5) (a : Nat) (sat ftz : Bool) (v : Val) : Drained a b sat ftz v (qNarrow (opFmt b) sat v 0) := by
  have hw : ¬(b = 6 ∨ b = 7 ∨ b = 11) := by omega
  have hg : (opFmt b).Good ∧ ((opFmt b).kind = if b = 4 then 1 else 0) ∧ (b = 4 → (opFmt b).nan = 0x7F) := by
    interval_cases b
    · exact ⟨good_fp16, rfl, by decide⟩
    · exact ⟨good_bf16, rfl, by decide⟩
    · exact ⟨good_e4m3, rfl, by decide⟩
    · exact ⟨good_e5m2, rfl, by decide⟩
  obtain ⟨hg, hk, hn⟩ := hg
  have habove : ∀ n, AboveMost b sat n ((opFmt b).narrowOver sat n) := fun n => by
    unfold AboveMost
    cases sat
    · by_cases h4 : b = 4
      · simp only [Bool.false_eq_true, and_false, if_false, if_pos h4, Fmt.narrowOver, hk, if_true]
        exact hn h4
      · rw [if_neg h4] at hk
        simp only [Bool.false_eq_true, and_false, if_false, if_neg h4, Fmt.narrowOver, hk, zero_ne_one]
        exact Fmt.decode_inf hk n
    · simp only [hb2, and_self, if_true, Fmt.narrowOver]
      have hm : mostOf (opFmt b) n = sgn n * (opFmt b).grid (opFmt b).maxCode := by
        rw [mostOf, Fmt.ratOf_maxCode hg]
        cases n <;> simp
      rw [hm]
      exact Fmt.finIs_code hg n le_rfl
  unfold Drained
  cases v with
  | nan s => simp only [if_neg hw]; rfl
  | inf n => simp only [if_neg hw]; exact habove n
  | fin n m e =>
    refine ⟨fun h => absurd h hw, fun _ h0 => ?_, fun _ h0 => ?_⟩
    · rw [h0]
      exact Fmt.finIs_zero hg n
    · have hr := qNarrow_rounds hg n sat (Nat.pos_of_ne_zero h0) e 0 (above := AboveMost b sat n (qNarrow (opFmt b) sat (.fin n m e) 0)) fun h => by
        rw [h]; exact habove n
      rw [zpow_zero, mul_one] at hr
      have hb1 : ¬(b = 1 ∧ a = 0) := by omega
      simp only [if_neg (show ¬b = 0 by omega), if_neg hb1]
      exact hr

/-- The whole number that a code of INT8, UINT8 or INT32 stands for, and the limits of each. -/
def wholeOf (b c : Nat) : ℤ := if b = 6 then sextInt 8 c else if b = 7 then (c : Int) else sextInt 32 c
def wholeLow (b : Nat) : ℤ := if b = 6 then -128 else if b = 7 then 0 else -(2 ^ 31)
def wholeHigh (b : Nat) : ℤ := if b = 6 then 127 else if b = 7 then 255 else 2 ^ 31 - 1

/-- A result that stands for the clamped value. -/
theorem drained_whole {b : Nat} (hb : b = 6 ∨ b = 7 ∨ b = 11) {v : Val} {c : Nat} (hc : wholeOf b c = (v.toInt 0 (wholeLow b) (wholeHigh b)).1)
    (h0 : ∀ q, v = .nan q → c = 0) (a : Nat) (sat ftz : Bool) : Drained a b sat ftz v c := by
  unfold Drained
  cases v with
  | nan s => simp only [if_pos hb]; exact h0 s rfl
  | inf n => simp only [if_pos hb]; exact hc
  | fin n m e =>
    refine ⟨fun _ z hz => ?_, fun h => absurd hb h, fun h => absurd hb h⟩
    rw [toInt_spec _ _ (by unfold wholeLow wholeHigh; split_ifs <;> norm_num) n m e hz] at hc
    exact hc

/-- The values that FP64 holds. -/
def Exact64 (v : Val) : Prop :=
  match v with
  | .fin _ m e => m < 2 ^ 53 ∧ -1074 ≤ e ∧ e ≤ 971
  | _ => True

theorem drained_fp64 {v : Val} (hv : Exact64 v) (a : Nat) (sat ftz : Bool) : Drained a 0 sat ftz v (fp64.ofVal 0 v).1 := by
  unfold Drained
  cases v with
  | nan s => rfl
  | inf n => exact Fmt.decode_inf (f := fp64) rfl n
  | fin n m e =>
    obtain ⟨hm, h1, h2⟩ := hv
    have hr := Fmt.ofVal_representable good_fp64 rfl (rm := 0) (by norm_num) (n := n) hm h1 h2
    refine ⟨fun h => by omega, fun _ h0 => ?_, fun _ _ => hr⟩
    rw [h0]
    exact Fmt.finIs_zero good_fp64 n

theorem drained_fp32 (v : Val) {a : Nat} (ha : a ≠ 0) (sat ftz : Bool) : Drained a 1 sat ftz v (fp32.ofVal 0 v).1 := by
  unfold Drained
  cases v with
  | nan s => rfl
  | inf n => exact Fmt.decode_inf (f := fp32) rfl n
  | fin n m e =>
    refine ⟨fun h => by omega, fun _ h0 => ?_, fun _ h0 => ?_⟩
    · rw [h0]
      exact Fmt.finIs_zero good_fp32 n
    · have hr := round32_rounds n (Nat.pos_of_ne_zero h0) e
      simp only [one_ne_zero, if_false, true_and, if_neg ha]
      exact hr

theorem drained_flushed {v : Val} {ftz : Bool} {c : Nat} (h : fpStep fp32 ftz (fp32.ofVal 0 v) = some c) (sat : Bool) : Drained 0 1 sat ftz v c := by
  have keep : ∀ k, (fp32.ofVal 0 v).1 = k → 2 ^ fp32.fbits < k % 2 ^ (fp32.width - 1) ∨ k % 2 ^ (fp32.width - 1) = 0 → c = k := fun k hk h1 => by
    rw [(fpStep_arrayStep h).1 (by rw [hk]; exact h1.symm), hk]
  unfold Drained
  cases v with
  | nan s => exact keep _ rfl (.inl (by decide))
  | inf n =>
    rw [keep (fp32.inf n) rfl (.inl (by cases n <;> decide))]
    exact Fmt.decode_inf (f := fp32) rfl n
  | fin n m e =>
    refine ⟨fun h => by omega, fun _ h0 => ?_, fun _ h0 => ?_⟩
    · rw [keep (fp32.signBit n) (by rw [h0]; rfl) (.inr (by cases n <;> decide))]
      exact Fmt.finIs_zero good_fp32 n
    · simp only [one_ne_zero, if_false, and_self, if_true]
      exact flush32_rounds (Nat.pos_of_ne_zero h0) h

theorem drainConvert_drained {a b : Nat} (hb : b ≤ 7 ∨ b = 11) {sat ftz : Bool} {v : Val} (hv : Exact64 v) {c : Nat}
    (h : drainConvert a b sat ftz v = some c) : Drained a b sat ftz v c := by
  have hmem := fun lo hi h0 h1 => toInt_mem lo hi h0 h1 v
  have hcases : b = 0 ∨ b = 1 ∨ (2 ≤ b ∧ b ≤ 5) ∨ b = 6 ∨ b = 7 ∨ b = 11 := by omega
  rcases hcases with rfl | rfl | ⟨h2, h5⟩ | rfl | rfl | rfl
  · rw [← Option.some.inj h]
    exact drained_fp64 hv a sat ftz
  · by_cases ha : a = 0
    · subst ha
      exact drained_flushed h sat
    · rw [show drainConvert a 1 sat ftz v = some (fp32.ofVal 0 v).1 from if_neg ha] at h
      rw [← Option.some.inj h]
      exact drained_fp32 v ha sat ftz
  · have hc : c = qNarrow (opFmt b) sat v 0 := by
      interval_cases b <;> exact (Option.some.inj h).symm
    rw [hc]
    exact drained_narrow h2 h5 a sat ftz v
  · obtain rfl := Option.some.inj h
    obtain ⟨h1, h2⟩ := hmem (-128) 127 (by norm_num) (by norm_num)
    have hs := sextInt_ofInt_of_mem (w := 8) (by norm_num) h1 (lt_of_le_of_lt h2 (by norm_num))
    exact drained_whole (.inl rfl) hs (by rintro q rfl; rfl) a sat ftz
  · obtain rfl := Option.some.inj h
    obtain ⟨h1, h2⟩ := hmem 0 255 le_rfl (by norm_num)
    have hs := ofInt_toNat_of_mem (w := 8) h1 (lt_of_le_of_lt h2 (by norm_num))
    exact drained_whole (.inr (.inl rfl)) hs (by rintro q rfl; rfl) a sat ftz
  · obtain rfl := Option.some.inj h
    obtain ⟨h1, h2⟩ := hmem (-(2 ^ 31)) (2 ^ 31 - 1) (by norm_num) (by norm_num)
    have hs := sextInt_ofInt_of_mem (w := 32) (by norm_num) h1 (lt_of_le_of_lt h2 (by norm_num))
    exact drained_whole (.inr (.inr rfl)) hs (by rintro q rfl; rfl) a sat ftz

theorem qNarrow_lt {f : Fmt} (hg : f.Good) (sat : Bool) (v : Val) (k : ℤ) : qNarrow f sat v k < 2 ^ f.width := by
  have hover : ∀ n, f.narrowOver sat n < 2 ^ f.width := fun n => by
    unfold Fmt.narrowOver
    split_ifs
    · exact f.code_lt n f.maxCode_lt
    · exact Fmt.nan_lt hg
    · exact f.inf_lt n
  cases v with
  | nan s => exact Fmt.nan_lt hg
  | inf n => exact hover n
  | fin n m e =>
    unfold qNarrow
    dsimp only
    split
    case isTrue h => exact f.code_lt n (Nat.two_pow_pos _)
    case isFalse h =>
      split
      · exact hover n
      · exact f.code_lt n ((Fmt.roundMag_code_le hg (rm := 0) (by norm_num) n (Nat.pos_of_ne_zero h) one_pos _).trans_lt f.maxCode_lt)

/-- A converted value fits the element that it is written to. -/
theorem drainConvert_lt {a b : Nat} (hb : b ≤ 7 ∨ b = 11) {sat ftz : Bool} {v : Val} {c : Nat} (h : drainConvert a b sat ftz v = some c) :
    c < 256 ^ (halfBytes b / 2) := by
  have hcases : b = 0 ∨ b = 1 ∨ (2 ≤ b ∧ b ≤ 5) ∨ b = 6 ∨ b = 7 ∨ b = 11 := by omega
  rcases hcases with rfl | rfl | ⟨h2, h5⟩ | rfl | rfl | rfl
  · rw [← Option.some.inj h]
    exact Fmt.ofVal_lt good_fp64 v
  · have hlt := Fmt.ofVal_lt good_fp32 v
    have hc : c ≤ (fp32.ofVal 0 v).1 := by
      simp only [drainConvert] at h
      split at h
      · exact fpStep_le h
      · exact (Option.some.inj h).symm.le
    exact hc.trans_lt hlt
  · interval_cases b
    · rw [← Option.some.inj h]; exact qNarrow_lt good_fp16 sat v 0
    · rw [← Option.some.inj h]; exact qNarrow_lt good_bf16 sat v 0
    · rw [← Option.some.inj h]; exact qNarrow_lt good_e4m3 sat v 0
    · rw [← Option.some.inj h]; exact qNarrow_lt good_e5m2 sat v 0
  · rw [← Option.some.inj h]; exact BitVec.isLt _
  · rw [← Option.some.inj h]; exact BitVec.isLt _
  · rw [← Option.some.inj h]; exact BitVec.isLt _
theorem drainConvert_isSome (a b : Nat) (sat : Bool) (v : Val) : (drainConvert a b sat true v).isSome = true := by
  unfold drainConvert
  split
  case h_2 => split; exacts [fpStep_isSome _ _, rfl]
  all_goals rfl

end Sys2Proof.Machine
end

section
/-! The steps of `mdrain`, `mzero`, `mlda` and `msta` (R230, R231), and what the steps on accumulators leave unchanged. -/

namespace Sys2Proof.Machine

/-! ### What a step leaves unchanged -/

/-- A step that writes only accumulator elements of its region. -/
def AccStep (o : MxOp) (x y : Workgroup) : Prop :=
  { y with acc := x.acc } = x ∧ ∀ e, e < 1024 * fwCt o.fmt ∨ 1024 * (fwCt o.fmt + o.tiles) ≤ e → Mem.byte y.acc e = Mem.byte x.acc e
/-- A step that writes only bytes of a matrix. -/
def ScratchStep (m : Mat) (x y : Workgroup) : Prop :=
  { y with scratch := x.scratch } = x ∧ ∀ e, (∀ q ∈ m.ranges, e < q.1 ∨ q.1 + q.2 ≤ e) → Mem.byte y.scratch e = Mem.byte x.scratch e

theorem accStep_refl (o : MxOp) (x : Workgroup) : AccStep o x x := ⟨rfl, fun _ _ => rfl⟩
theorem scratchStep_refl (m : Mat) (x : Workgroup) : ScratchStep m x x := ⟨rfl, fun _ _ => rfl⟩
theorem accStep_trans {o : MxOp} {x y z : Workgroup} (h : AccStep o x y) (h' : AccStep o y z) : AccStep o x z := by
  refine ⟨?_, fun e he => (h'.2 e he).trans (h.2 e he)⟩
  have h1 : { z with acc := x.acc } = ({ ({ z with acc := y.acc } : Workgroup) with acc := x.acc } : Workgroup) := rfl
  rw [h1, h'.1, h.1]
theorem scratchStep_trans {m : Mat} {x y z : Workgroup} (h : ScratchStep m x y) (h' : ScratchStep m y z) : ScratchStep m x z := by
  refine ⟨?_, fun e he => (h'.2 e he).trans (h.2 e he)⟩
  have h1 : { z with scratch := x.scratch } = ({ ({ z with scratch := y.scratch } : Workgroup) with scratch := x.scratch } : Workgroup) := rfl
  rw [h1, h'.1, h.1]
theorem setAcc_accStep (g : Workgroup) (o : MxOp) {i j : Nat} (x : Nat) (hi : i < fwM o.fmt) (hj : j < fwN o.fmt) : AccStep o g (g.setAcc o i j x) :=
  ⟨rfl, fun _ he => acc_setAcc g o x hi hj he⟩
theorem setElem_scratchStep (g : Workgroup) {m : Mat} (h9 : m.fmt ≠ 9) {r c : Nat} (x : Nat) (hr : r < m.rows) (hc : c < m.cols) :
    ScratchStep m g (g.setElem m r c x) := ⟨rfl, fun _ he => scratch_setElem g h9 x hr hc he⟩

/-- A fold of such writes is such a step. -/
theorem foldl_accStep {α : Type} {o : MxOp} {w : Workgroup → α → Workgroup} {l : List α} (h : ∀ g, ∀ p ∈ l, AccStep o g (w g p)) (g : Workgroup) :
    AccStep o g (l.foldl w g) := by
  induction l generalizing g with
  | nil => exact accStep_refl o g
  | cons p l ih => exact accStep_trans (h g p List.mem_cons_self) (ih (fun g q hq => h g q (List.mem_cons_of_mem _ hq)) _)
theorem foldl_scratchStep {α : Type} {m : Mat} {w : Workgroup → α → Workgroup} {l : List α} (h : ∀ g, ∀ p ∈ l, ScratchStep m g (w g p)) (g : Workgroup) :
    ScratchStep m g (l.foldl w g) := by
  induction l generalizing g with
  | nil => exact scratchStep_refl m g
  | cons p l ih => exact scratchStep_trans (h g p List.mem_cons_self) (ih (fun g q hq => h g q (List.mem_cons_of_mem _ hq)) _)

/-! ### `mma` -/

theorem run_mma_accStep {o : MxOp} (hm : o.major = 0x3C) {ftz : Bool} {n : Nat} {x y : Workgroup} (h : o.run ftz n x = some y) : AccStep o x y := by
  rcases Bool.eq_false_or_eq_true (fwCplx o.fmt) with hc | hc
  · rw [MxOp.run_complex hm hc] at h
    obtain ⟨-, rfl⟩ := foldOpt_map_some (v := fun p : Nat × Nat => x.mmaComplex o ftz o.matA o.matB n p.1 p.2) h
    refine foldl_accStep (fun g p hp => ?_) x
    obtain ⟨hi, hj⟩ := mem_pairs.1 hp
    rw [List.mem_range] at hi hj
    exact accStep_trans (setAcc_accStep g o _ hi (by omega)) (setAcc_accStep _ o _ hi (by omega))
  · rw [MxOp.run_real hm hc] at h
    obtain ⟨-, rfl⟩ := foldOpt_map_some (v := fun p : Nat × Nat => x.mmaElement o ftz o.matA o.matB n p.1 p.2) h
    refine foldl_accStep (fun g p hp => ?_) x
    obtain ⟨hi, hj⟩ := mem_pairs.1 hp
    exact setAcc_accStep g o _ (List.mem_range.1 hi) (List.mem_range.1 hj)

theorem run_mma_isSome {o : MxOp} (hm : o.major = 0x3C) (n : Nat) (x : Workgroup) : (o.run true n x).isSome = true := by
  rcases Bool.eq_false_or_eq_true (fwCplx o.fmt) with hc | hc
  · rw [MxOp.run_complex hm hc]
    refine foldOpt_map_isSome x fun p _ => ?_
    rw [Workgroup.mmaComplex, chains_eq]
    exact foldl_bind_isSome _ (fun _ _ => chainsStep_isSome _ _ _ _ _ _) _ _
  · rw [MxOp.run_real hm hc]
    refine foldOpt_map_isSome x fun p _ => ?_
    unfold Workgroup.mmaElement
    dsimp only
    split
    · exact chain_isSome _ _ _ _ _
    · split <;> rfl

/-! ### `mdrain` -/

theorem exact64_decode64 (c : Nat) : Exact64 (fp64.decode c) := by
  unfold Exact64
  split
  case h_1 n m e h =>
    obtain ⟨h1, h2, -, h3⟩ := Fmt.decode_fin_bounds good_fp64 h
    have h3' : e < (-1074 : ℤ) + 2046 := h3 rfl
    exact ⟨h1, h2, by omega⟩
  case h_2 => trivial
theorem exact64_decode32 (c : Nat) : Exact64 (fp32.decode c) := by
  unfold Exact64
  split
  case h_1 n m e h =>
    obtain ⟨h1, h2, -, h3⟩ := Fmt.decode_fin_bounds good_fp32 h
    have h1' : m < 2 ^ 24 := h1
    have h2' : -149 ≤ e := h2
    have h3' : e < (-149 : ℤ) + 254 := h3 rfl
    exact ⟨by omega, by omega, by omega⟩
  case h_2 => trivial

/-- The value of an accumulator element, and the format in which it is rounded. -/
def accValue (a bits : Nat) : Val := if a = 11 then Val.fin (decide (sextInt 32 bits < 0)) (sextInt 32 bits).natAbs 0 else (opFmt a).decode bits
def accFmt (a : Nat) : Fmt := if a = 0 then fp64 else fp32

theorem exact64_accValue {a : Nat} (ha : isAcc a = true) (bits : Nat) : Exact64 (accValue a bits) := by
  have hcases : a = 0 ∨ a = 1 ∨ a = 11 := by simpa [isAcc, or_assoc] using ha
  rcases hcases with rfl | rfl | rfl
  · exact exact64_decode64 bits
  · exact exact64_decode32 bits
  · have h1 : -(2 ^ 31) ≤ sextInt 32 bits := BitVec.le_toInt _
    have h2 : sextInt 32 bits < 2 ^ 31 := BitVec.toInt_lt
    exact ⟨by omega, by norm_num, by norm_num⟩
theorem exact64_accFmt (a c : Nat) : Exact64 ((accFmt a).decode c) := by
  unfold accFmt
  split
  · exact exact64_decode64 c
  · exact exact64_decode32 c

theorem drainElement_eq (f : FmtWord) (ftz : Bool) (bits : Nat) (m : Val) : drainElement f ftz bits m =
    if fwScl f then (fpStep (accFmt (fwA f)) ftz ((accFmt (fwA f)).ofVal 0 ((accValue (fwA f) bits).mul m))).bind fun r =>
        drainConvert (fwA f) (fwB f) (fwSat f) ftz ((accFmt (fwA f)).decode r)
      else drainConvert (fwA f) (fwB f) (fwSat f) ftz (accValue (fwA f) bits) := rfl

/-- What `mdrain` makes of an accumulator element. -/
theorem drainElement_spec {f : FmtWord} (ha : isAcc (fwA f) = true) (hb : fwB f ≤ 7 ∨ fwB f = 11) {ftz : Bool} {bits c : Nat} {m : Val}
    (h : drainElement f ftz bits m = some c) :
    c < 256 ^ (halfBytes (fwB f) / 2) ∧
      if fwScl f then ∃ r, ArrayStep (accFmt (fwA f)) ftz ((accFmt (fwA f)).mul 0 (accValue (fwA f) bits) m) r ∧
        Drained (fwA f) (fwB f) (fwSat f) ftz ((accFmt (fwA f)).decode r) c
      else Drained (fwA f) (fwB f) (fwSat f) ftz (accValue (fwA f) bits) c := by
  rw [drainElement_eq] at h
  split at h
  case isTrue hs =>
    obtain ⟨r, hr, hc⟩ := Option.bind_eq_some_iff.1 h
    rw [if_pos hs]
    refine ⟨drainConvert_lt hb hc, r, ?_, drainConvert_drained hb (exact64_accFmt _ _) hc⟩
    have := fpStep_arrayStep hr
    unfold ArrayStep at this ⊢
    rwa [Fmt.mul_code]
  case isFalse hs =>
    rw [if_neg hs]
    exact ⟨drainConvert_lt hb h, drainConvert_drained hb (exact64_accValue ha _) h⟩
theorem drainElement_isSome (f : FmtWord) (bits : Nat) (m : Val) : (drainElement f true bits m).isSome = true := by
  rw [drainElement_eq]
  split
  · obtain ⟨r, hr⟩ := Option.isSome_iff_exists.1 (fpStep_isSome (accFmt (fwA f)) ((accFmt (fwA f)).ofVal 0 ((accValue (fwA f) bits).mul m)))
    rw [hr]
    exact drainConvert_isSome _ _ _ _
  · exact drainConvert_isSome _ _ _ _

/-- The multiplier of a column. -/
def MxOp.multiplier (o : MxOp) (g : Workgroup) (j : Nat) : Val :=
  if fwScl o.fmt then g.elemAt (matOf (o.word 2) (o.word 3) 1 1 (fwN o.fmt) false) 0 j else .fin false 1 0
/-- The matrix that a step of `mdrain` writes, and the region that the steps of `mlda` and `msta` copy. -/
def MxOp.drained (o : MxOp) : Mat := matOf (o.word 0) (o.word 1) (fwB o.fmt) (fwM o.fmt) (fwN o.fmt) true
def MxOp.tileMat (o : MxOp) (written : Bool) : Mat := matOf (o.word 0) (o.word 1) (fwA o.fmt) (fwM o.fmt) (fwN o.fmt) written

theorem MxOp.run_drain {o : MxOp} (h : o.major = 0x3D) (ftz : Bool) (n : Nat) (g : Workgroup) : o.run ftz n g =
    foldOpt (fun h p => (drainElement o.fmt ftz (g.accBits o p.1 p.2) (o.multiplier g p.2)).map (h.setElem o.drained p.1 p.2)) g
      (pairs (stepRows n) (List.range (fwN o.fmt))) := by
  rw [MxOp.run, h, MxOp.mats_drain h]
  unfold MxOp.multiplier MxOp.drained
  rcases Bool.eq_false_or_eq_true (fwScl o.fmt) with hs | hs
  · simp only [hs, if_true]
  · simp only [hs, Bool.false_eq_true, if_false]

theorem elemAt_fp32 (g : Workgroup) {m : Mat} (h : m.fmt = 1) (r c : Nat) :
    g.elemAt m r c = fp32.decode (leNat (Mem.bytes g.scratch (m.offset r c) 4)) := by
  rw [Workgroup.elemAt, h, rawAt_eq g (by rw [h]; decide), Mat.size, h]
  rfl
theorem multiplier_eq {o : MxOp} (hL : bitsOf (o.word 2).toNat 63 23 = 0) (hs : fwScl o.fmt = true) (g : Workgroup) (j : Nat) :
    o.multiplier g j = fp32.decode (leNat (Mem.bytes g.scratch (bitsOf (o.word 2).toNat 22 0 + 4 * j) 4)) := by
  have hx : (o.word 2).toNat >>> 23 = 0 := by
    rw [bitsOf, Nat.mod_eq_of_lt] at hL
    · exact hL
    · rw [Nat.shiftRight_eq_div_pow]
      exact Nat.div_lt_of_lt_mul (o.word 2).isLt
  have ht : bitOf (o.word 2).toNat 24 = false := by
    have := congrArg (fun y => Nat.testBit y 1) hx
    exact (show Nat.testBit _ 24 = false by simpa [Nat.testBit_shiftRight] using this)
  rw [MxOp.multiplier, if_pos hs]
  have hflip : (matOf (o.word 2) (o.word 3) 1 1 (fwN o.fmt) false).flip = false := by
    show (bitOf (o.word 2).toNat 24 || false) = false
    rw [ht]; rfl
  have hoff : (matOf (o.word 2) (o.word 3) 1 1 (fwN o.fmt) false).offset 0 j = bitsOf (o.word 2).toNat 22 0 + 4 * j := by
    rw [Mat.offset, Mat.locate, hflip]
    show bitsOf (o.word 2).toNat 22 0 + 0 * _ + j * 8 / 2 = _
    omega
  rw [elemAt_fp32 g rfl, hoff]

theorem mem_cells {o : MxOp} (h1 : o.major ≠ 0x3C) (h2 : o.major ≠ 0x3F) {n : Nat} (hn : n < o.steps) {p : Nat × Nat}
    (hp : p ∈ pairs (stepRows n) (List.range (fwN o.fmt))) : p.1 < fwM o.fmt ∧ p.2 < fwN o.fmt := by
  obtain ⟨hi, hj⟩ := mem_pairs.1 hp
  exact ⟨MxOp.stepRow_lt h1 h2 hn hi, List.mem_range.1 hj⟩
theorem cell_mem {o : MxOp} {n i j : Nat} (h1 : 16 * n ≤ i) (h2 : i < 16 * n + 16) (hj : j < fwN o.fmt) :
    (i, j) ∈ pairs (stepRows n) (List.range (fwN o.fmt)) := mem_pairs.2 ⟨mem_stepRows.2 ⟨h1, h2⟩, List.mem_range.2 hj⟩

/-- Elements of a matrix written one by one, as they read afterwards. -/
theorem foldl_setElem_reads {m : Mat} (hm : m.Apart) {l : List (Nat × Nat)} {val : Nat × Nat → Nat} (hl : ∀ p ∈ l, p.1 < m.rows ∧ p.2 < m.cols)
    (hv : ∀ p ∈ l, val p < 256 ^ m.size) (g : Workgroup) : ∀ p ∈ l, (l.foldl (fun h p => h.setElem m p.1 p.2 (val p)) g).rawAt m p.1 p.2 = val p :=
  foldl_reads (R := fun g p => g.rawAt m p.1 p.2) (fun g p hp => rawAt_setElem_same g hm.1 _ _ (hv p hp))
    (fun g p hp q hq hne => rawAt_setElem_other g hm _ (hl p hp).1 (hl p hp).2 (hl q hq).1 (hl q hq).2 hne) g
theorem foldl_setAcc_reads {o : MxOp} {l : List (Nat × Nat)} {val : Nat × Nat → Nat} (hl : ∀ p ∈ l, p.2 < fwN o.fmt)
    (hv : ∀ p ∈ l, val p < 256 ^ o.accBytes) (g : Workgroup) : ∀ p ∈ l, (l.foldl (fun h p => h.setAcc o p.1 p.2 (val p)) g).accBits o p.1 p.2 = val p :=
  foldl_reads (R := fun g p => g.accBits o p.1 p.2) (fun g p hp => accBits_setAcc_same g o _ _ (hv p hp))
    (fun g p hp q hq hne => accBits_setAcc_other g o _ (hl p hp) (hl q hq) hne) g

/-- A step of `mdrain`: each element, and what it leaves unchanged. -/
theorem drainStep {o : MxOp} {ftz : Bool} {n : Nat} {x y : Workgroup} (hm : o.major = 0x3D) (hI : o.illegal = false) (hn : n < o.steps)
    (h : o.run ftz n x = some y) :
    ScratchStep o.drained x y ∧ ∀ i j, 16 * n ≤ i → i < 16 * n + 16 → j < fwN o.fmt →
      drainElement o.fmt ftz (x.accBits o i j) (o.multiplier x j) = some (y.rawAt o.drained i j) := by
  obtain ⟨ha, hb, -⟩ := (MxOp.legal_of_illegal hI).2.1 hm
  have h9 : o.drained.fmt ≠ 9 := by show fwB o.fmt ≠ 9; omega
  have hap := MxOp.apart hI (m := o.drained) (by rw [MxOp.mats_drain hm]; exact List.mem_cons_self) rfl h9
  have hcell := fun p hp => mem_cells (o := o) (by rw [hm]; decide) (by rw [hm]; decide) hn (p := p) hp
  rw [MxOp.run_drain hm] at h
  obtain ⟨h1, rfl⟩ := foldOpt_map_some (v := fun p : Nat × Nat => drainElement o.fmt ftz (x.accBits o p.1 p.2) (o.multiplier x p.2)) h
  refine ⟨foldl_scratchStep (fun g p hp => setElem_scratchStep g h9 _ (hcell p hp).1 (hcell p hp).2) x, fun i j hi hi' hj => ?_⟩
  have hij := cell_mem (o := o) hi hi' hj
  have hr := foldl_setElem_reads hap hcell (fun p hp => (drainElement_spec ha hb (h1 p hp)).1) x (i, j) hij
  rw [h1 _ hij]
  exact congrArg some hr.symm
theorem run_drain_isSome {o : MxOp} (hm : o.major = 0x3D) (n : Nat) (x : Workgroup) : (o.run true n x).isSome = true := by
  rw [MxOp.run_drain hm]
  exact foldOpt_map_isSome x fun p _ => drainElement_isSome _ _ _

/-! ### `mzero`, `mlda` and `msta` -/

theorem MxOp.run_zero {o : MxOp} (h : o.major = 0x3E) (hs : o.sub = 0) (ftz : Bool) (n : Nat) (g : Workgroup) :
    o.run ftz n g = some ((pairs (stepRows n) (List.range (fwN o.fmt))).foldl (fun h p => h.setAcc o p.1 p.2 0) g) := by
  rw [MxOp.run, h, MxOp.mats_tiles h, if_pos hs]
  rfl
theorem MxOp.run_load {o : MxOp} (h : o.major = 0x3E) (hs : o.sub ≠ 0) (h2 : o.sub ≠ 2) (ftz : Bool) (n : Nat) (g : Workgroup) :
    o.run ftz n g = some ((pairs (stepRows n) (List.range (fwN o.fmt))).foldl
      (fun h p => h.setAcc o p.1 p.2 (g.rawAt (o.tileMat false) p.1 p.2)) g) := by
  have hw : (o.sub == 2) = false := by simpa using h2
  rw [MxOp.run, h, MxOp.mats_tiles h, if_neg hs, hw]
  rfl
theorem MxOp.run_store {o : MxOp} (h : o.major = 0x3E) (hs : o.sub = 2) (ftz : Bool) (n : Nat) (g : Workgroup) :
    o.run ftz n g = some ((pairs (stepRows n) (List.range (fwN o.fmt))).foldl
      (fun h p => h.setElem (o.tileMat true) p.1 p.2 (g.accBits o p.1 p.2)) g) := by
  rw [MxOp.run, h, MxOp.mats_tiles h, hs]
  rfl

/-- An element of a tile has the bytes of an element of a matrix of its format. -/
theorem MxOp.acc_size {o : MxOp} (h : o.major = 0x3E) (ha : isAcc (fwA o.fmt) = true) : fwA o.fmt ≠ 9 ∧ o.accBytes = halfBytes (fwA o.fmt) / 2 := by
  have hk : o.kind = fwA o.fmt := by rw [MxOp.kind, if_neg (by rw [h]; decide)]
  have hcases : fwA o.fmt = 0 ∨ fwA o.fmt = 1 ∨ fwA o.fmt = 11 := by simpa [isAcc, or_assoc] using ha
  rw [MxOp.accBytes, hk]
  rcases hcases with h | h | h <;> rw [h] <;> exact ⟨by decide, rfl⟩

theorem zeroStep {o : MxOp} {ftz : Bool} {n : Nat} {x y : Workgroup} (hm : o.major = 0x3E) (hs : o.sub = 0) (hn : n < o.steps)
    (h : o.run ftz n x = some y) : AccStep o x y ∧ ∀ i j, 16 * n ≤ i → i < 16 * n + 16 → j < fwN o.fmt → y.accBits o i j = 0 := by
  have hcell := fun p hp => mem_cells (o := o) (by rw [hm]; decide) (by rw [hm]; decide) hn (p := p) hp
  rw [MxOp.run_zero hm hs] at h
  obtain rfl := Option.some.inj h
  exact ⟨foldl_accStep (fun g p hp => setAcc_accStep g o _ (hcell p hp).1 (hcell p hp).2) x, fun i j hi hi' hj =>
    foldl_setAcc_reads (val := fun _ => 0) (fun p hp => (hcell p hp).2) (fun _ _ => Nat.pow_pos (by decide)) x (i, j) (cell_mem hi hi' hj)⟩
theorem loadStep {o : MxOp} {ftz : Bool} {n : Nat} {x y : Workgroup} (hm : o.major = 0x3E) (hs : o.sub ≠ 0) (h2 : o.sub ≠ 2)
    (hL : o.Legal) (hn : n < o.steps) (h : o.run ftz n x = some y) :
    AccStep o x y ∧ ∀ i j, 16 * n ≤ i → i < 16 * n + 16 → j < fwN o.fmt → y.accBits o i j = x.rawAt (o.tileMat false) i j := by
  have hcell := fun p hp => mem_cells (o := o) (by rw [hm]; decide) (by rw [hm]; decide) hn (p := p) hp
  obtain ⟨h9, hb⟩ := MxOp.acc_size hm (hL.2.2.1 hm)
  rw [MxOp.run_load hm hs h2] at h
  obtain rfl := Option.some.inj h
  exact ⟨foldl_accStep (fun g p hp => setAcc_accStep g o _ (hcell p hp).1 (hcell p hp).2) x, fun i j hi hi' hj =>
    foldl_setAcc_reads (val := fun p => x.rawAt (o.tileMat false) p.1 p.2) (fun p hp => (hcell p hp).2)
      (fun p _ => by rw [hb]; exact rawAt_lt x (m := o.tileMat false) h9 _ _) x (i, j) (cell_mem hi hi' hj)⟩
theorem storeStep {o : MxOp} {ftz : Bool} {n : Nat} {x y : Workgroup} (hm : o.major = 0x3E) (hs : o.sub = 2)
    (hI : o.illegal = false) (hn : n < o.steps) (h : o.run ftz n x = some y) :
    ScratchStep (o.tileMat true) x y ∧ ∀ i j, 16 * n ≤ i → i < 16 * n + 16 → j < fwN o.fmt → y.rawAt (o.tileMat true) i j = x.accBits o i j := by
  have hcell := fun p hp => mem_cells (o := o) (by rw [hm]; decide) (by rw [hm]; decide) hn (p := p) hp
  obtain ⟨h9, hb⟩ := MxOp.acc_size hm ((MxOp.legal_of_illegal hI).2.2.1 hm)
  have hap := MxOp.apart hI (m := o.tileMat true) (by rw [MxOp.mats_tiles hm, hs]; exact List.mem_cons_self) rfl h9
  rw [MxOp.run_store hm hs] at h
  obtain rfl := Option.some.inj h
  exact ⟨foldl_scratchStep (fun g p hp => setElem_scratchStep g (m := o.tileMat true) h9 _ (hcell p hp).1 (hcell p hp).2) x, fun i j hi hi' hj =>
    foldl_setElem_reads hap (val := fun p => x.accBits o p.1 p.2) hcell
      (fun p _ => (accBits_lt x o _ _).trans_eq (congrArg (256 ^ ·) hb)) x (i, j) (cell_mem hi hi' hj)⟩

end Sys2Proof.Machine
end

section
/-! The steps of `mhad` (R49, R233). -/

namespace Sys2Proof.Machine

/-! ### The transform -/

@[simp] theorem hadStage_length (h : Nat) (xs : List Nat) : (hadStage h xs).length = xs.length := by simp [hadStage]
theorem hadStage_getD (h : Nat) (xs : List Nat) {i : Nat} (hi : i < xs.length) : (hadStage h xs).getD i 0 =
    if i / h % 2 = 0 then (fp32.add 0 (fp32.decode (xs.getD i 0)) (fp32.decode (xs.getD (i + h) 0))).1
    else (fp32.add 0 (fp32.decode (xs.getD (i - h) 0)) (fp32.decode (xs.getD i 0)).neg).1 := by
  rw [List.getD_eq_getElem?_getD, hadStage, List.getElem?_map, List.getElem?_range hi]
  rfl

/-- The values after the first s stages. -/
def hadIter (xs : List Nat) : Nat → List Nat
  | 0 => xs
  | s + 1 => hadStage (2 ^ s) (hadIter xs s)
@[simp] theorem hadIter_length (xs : List Nat) (s : Nat) : (hadIter xs s).length = xs.length := by
  induction s with
  | zero => rfl
  | succ s ih => rw [hadIter, hadStage_length, ih]

/-- The scale of the transform of h values: a quarter, its like for 32, or an eighth. -/
def hadScale (h : Nat) : Nat := if h = 16 then 0x3E800000 else if h = 32 then 0x3E3504F3 else 0x3E000000

theorem hadamard_eq {h s : Nat} (hs : 2 ^ s = h) (h16 : 16 ≤ h) (h64 : h ≤ 64) (xs : List Nat) :
    hadamard h xs = (hadIter xs s).map fun y => (fp32.mul 0 (fp32.decode y) (fp32.decode (hadScale h))).1 := by
  have h4 : 4 ≤ s := by
    by_contra hlt
    have := Nat.pow_le_pow_right (n := 2) (by norm_num) (show s ≤ 3 by omega)
    omega
  have h6 : s ≤ 6 := by
    by_contra hlt
    have := Nat.pow_le_pow_right (n := 2) (by norm_num) (show 7 ≤ s by omega)
    omega
  have hf : ([1, 2, 4, 8, 16, 32].filter (· < h)).foldl (fun ys k => hadStage k ys) xs = hadIter xs s := by
    subst hs
    interval_cases s <;> norm_num [hadIter, List.filter]
  rw [hadamard, hf]
  rfl

theorem fwHn_cases (f : FmtWord) : 16 ≤ fwHn f ∧ ∃ s, 2 ^ s = fwHn f := by
  refine ⟨Nat.le_mul_of_pos_right _ (Nat.two_pow_pos _), 4 + bitsOf f 49 48, ?_⟩
  rw [fwHn, pow_add]
  norm_num

/-! ### The groups -/

/-- Element i of group q. -/
def MxOp.hadCell (o : MxOp) (q i : Nat) : Nat × Nat :=
  if fwHax o.fmt then (q / fwK o.fmt * fwHn o.fmt + i, q % fwK o.fmt)
  else (q / (fwK o.fmt / fwHn o.fmt), q % (fwK o.fmt / fwHn o.fmt) * fwHn o.fmt + i)
/-- The number of groups. -/
def MxOp.hadGroups (o : MxOp) : Nat := fwM o.fmt * fwK o.fmt / fwHn o.fmt

theorem MxOp.group_had {o : MxOp} (hs : o.sub ≠ 0) (q : Nat) : o.group q = (List.range (fwHn o.fmt)).map (o.hadCell q) := by
  unfold MxOp.group MxOp.hadCell
  dsimp only
  rw [if_neg hs]
  split <;> rfl
theorem MxOp.mem_groups {o : MxOp} (hs : o.sub ≠ 0) {n q : Nat} : q ∈ o.groups n ↔ o.hadPer * n ≤ q ∧ q < o.hadPer * (n + 1) ∧ q < o.hadGroups := by
  rw [MxOp.groups, if_neg hs, List.mem_filter, List.mem_map, Nat.mul_comm n, Nat.mul_succ]
  simp only [List.mem_range, decide_eq_true_eq, MxOp.hadGroups]
  constructor
  · rintro ⟨⟨k, hk, rfl⟩, h⟩; omega
  · exact fun h => ⟨⟨q - o.hadPer * n, by omega, by omega⟩, h.2.2⟩

theorem fwHn_pos (f : FmtWord) : 0 < fwHn f := Nat.mul_pos (by decide) (Nat.two_pow_pos _)

/-- An element of a group is one of the matrix. -/
theorem MxOp.hadCell_lt {o : MxOp} (hd : (if fwHax o.fmt then fwM o.fmt else fwK o.fmt) % fwHn o.fmt = 0) {q i : Nat} (hq : q < o.hadGroups)
    (hi : i < fwHn o.fmt) : (o.hadCell q i).1 < fwM o.fmt ∧ (o.hadCell q i).2 < fwK o.fmt := by
  have hn := fwHn_pos o.fmt
  unfold MxOp.hadGroups at hq
  unfold MxOp.hadCell
  generalize fwHn o.fmt = h at *
  cases hx : fwHax o.fmt
  · rw [hx] at hd
    obtain ⟨k, hk⟩ := Nat.dvd_of_mod_eq_zero hd
    rw [if_neg Bool.false_ne_true] at hk
    rw [hk, Nat.mul_left_comm, Nat.mul_div_cancel_left _ hn] at hq
    rw [hk]
    simp only [Bool.false_eq_true, if_false, Nat.mul_div_cancel_left _ hn]
    have hk0 : 0 < k := Nat.pos_of_ne_zero fun h0 => by rw [h0, Nat.mul_zero] at hq; omega
    exact ⟨Nat.div_lt_of_lt_mul (by rwa [Nat.mul_comm]), (digits_lt hi (Nat.mod_lt _ hk0)).trans_eq (Nat.mul_comm _ _)⟩
  · rw [hx] at hd
    obtain ⟨k, hk⟩ := Nat.dvd_of_mod_eq_zero hd
    rw [if_pos rfl] at hk
    rw [hk, Nat.mul_assoc, Nat.mul_div_cancel_left _ hn] at hq
    rw [hk]
    simp only [if_true]
    have hk0 : 0 < fwK o.fmt := Nat.pos_of_ne_zero fun h0 => by rw [h0, Nat.mul_zero] at hq; omega
    exact ⟨(digits_lt hi (Nat.div_lt_of_lt_mul (by rwa [Nat.mul_comm]))).trans_eq (Nat.mul_comm _ _), Nat.mod_lt _ hk0⟩
theorem MxOp.hadCell_inj {o : MxOp} {q i r j : Nat} (hi : i < fwHn o.fmt) (hj : j < fwHn o.fmt) (h : o.hadCell q i = o.hadCell r j) : q = r ∧ i = j := by
  unfold MxOp.hadCell at h
  split at h
  · obtain ⟨h1, h2⟩ := Prod.mk.inj h
    obtain ⟨h3, h4⟩ := digits_inj hi hj h1
    exact ⟨by rw [← Nat.div_add_mod q (fwK o.fmt), ← Nat.div_add_mod r (fwK o.fmt), h2, h3], h4⟩
  · obtain ⟨h1, h2⟩ := Prod.mk.inj h
    obtain ⟨h3, h4⟩ := digits_inj hi hj h2
    exact ⟨by rw [← Nat.div_add_mod q (fwK o.fmt / fwHn o.fmt), ← Nat.div_add_mod r (fwK o.fmt / fwHn o.fmt), h1, h3], h4⟩

/-! ### The step -/

/-- The operand and the result of `mhad` and of `mquant`. -/
def MxOp.source (o : MxOp) : Mat := matOf (o.word 0) (o.word 1) 1 (fwM o.fmt) (fwK o.fmt) false
def MxOp.result (o : MxOp) : Mat := matOf (o.word 2) (o.word 3) (fwB o.fmt) (fwM o.fmt) (fwK o.fmt) true

/-- The operands of a group, and its results. -/
def MxOp.hadIn (o : MxOp) (x : Workgroup) (q : Nat) : List Nat := (List.range (fwHn o.fmt)).map fun i => x.rawAt o.source (o.hadCell q i).1 (o.hadCell q i).2
def MxOp.hadOut (o : MxOp) (x : Workgroup) (p : Nat × Nat) : Nat := (hadamard (fwHn o.fmt) (o.hadIn x p.1)).getD p.2 0

theorem MxOp.hadOut_eq {o : MxOp} (h64 : fwHn o.fmt ≤ 64) {s : Nat} (hs : 2 ^ s = fwHn o.fmt) (x : Workgroup) (q : Nat) {i : Nat} (hi : i < fwHn o.fmt) :
    o.hadOut x (q, i) = (fp32.mul 0 (fp32.decode ((hadIter (o.hadIn x q) s).getD i 0)) (fp32.decode (hadScale (fwHn o.fmt)))).1 := by
  have hl : i < (hadIter (o.hadIn x q) s).length := by simpa [MxOp.hadIn] using hi
  rw [MxOp.hadOut, hadamard_eq hs (fwHn_cases _).1 h64]
  rw [List.getD_eq_getElem?_getD, List.getElem?_map, List.getD_eq_getElem?_getD, List.getElem?_eq_getElem hl]
  rfl

theorem MxOp.run_had {o : MxOp} (hm : o.major = 0x3F) (hs : o.sub ≠ 0) (h64 : fwHn o.fmt ≤ 64) (ftz : Bool) (n : Nat) (g : Workgroup) : o.run ftz n g =
    some ((pairs (o.groups n) (List.range (fwHn o.fmt))).foldl
      (fun h p => h.setElem o.result (o.hadCell p.1 p.2).1 (o.hadCell p.1 p.2).2 (o.hadOut g p)) g) := by
  obtain ⟨h16, s, hs2⟩ := fwHn_cases _
  have hzip : ∀ q, (o.group q).zip (hadamard (fwHn o.fmt) ((o.group q).map fun p => g.rawAt o.source p.1 p.2)) =
      (List.range (fwHn o.fmt)).map fun i => (o.hadCell q i, o.hadOut g (q, i)) := fun q => by
    have hin : ((o.group q).map fun p => g.rawAt o.source p.1 p.2) = o.hadIn g q := by
      rw [MxOp.group_had hs, List.map_map]
      rfl
    have hlen : (hadamard (fwHn o.fmt) (o.hadIn g q)).length = fwHn o.fmt := by
      rw [hadamard_eq hs2 h16 h64]
      simp [MxOp.hadIn]
    rw [hin, MxOp.group_had hs]
    refine List.ext_getElem (by simp [hlen]) fun i h1 h2 => ?_
    have hi : i < fwHn o.fmt := by simpa using h2
    simp [MxOp.hadOut, List.getD_eq_getElem?_getD, hlen, hi]
  rw [MxOp.run, hm, MxOp.mats_blocks hm]
  show some _ = _
  rw [pairs, List.foldl_flatMap]
  refine congrArg some (congrArg (fun w => (o.groups n).foldl w g) (funext fun h => funext fun q => ?_))
  rw [if_neg hs]
  refine (congrArg (List.foldl _ h) (hzip q)).trans ?_
  rw [List.foldl_map, List.foldl_map]
  rfl

/-- A step of `mhad`: each element of its groups, and what it leaves unchanged. -/
theorem hadStep {o : MxOp} {ftz : Bool} {n : Nat} {x y : Workgroup} (hm : o.major = 0x3F) (hs : o.sub ≠ 0) (hI : o.illegal = false)
    (h : o.run ftz n x = some y) :
    ScratchStep o.result x y ∧ ∀ q, q ∈ o.groups n → ∀ i, i < fwHn o.fmt →
      y.rawAt o.result (o.hadCell q i).1 (o.hadCell q i).2 = o.hadOut x (q, i) := by
  obtain ⟨-, -, hL⟩ := (MxOp.legal_of_illegal hI).2.2.2 hm
  rw [if_neg hs] at hL
  obtain ⟨hb, h64, hd⟩ := hL
  obtain ⟨-, s, hs2⟩ := fwHn_cases o.fmt
  have h9 : o.result.fmt ≠ 9 := by show fwB o.fmt ≠ 9; omega
  have hap := MxOp.apart hI (m := o.result) (by rw [MxOp.mats_blocks hm]; exact List.mem_cons_of_mem _ List.mem_cons_self) rfl h9
  have hsize : o.result.size = 4 := by
    show halfBytes (fwB o.fmt) / 2 = 4
    rw [hb]; rfl
  have hmem : ∀ p ∈ pairs (o.groups n) (List.range (fwHn o.fmt)), p.1 < o.hadGroups ∧ p.2 < fwHn o.fmt := fun p hp => by
    obtain ⟨h1, h2⟩ := mem_pairs.1 hp
    exact ⟨((MxOp.mem_groups hs).1 h1).2.2, List.mem_range.1 h2⟩
  have hcell : ∀ p ∈ pairs (o.groups n) (List.range (fwHn o.fmt)), (o.hadCell p.1 p.2).1 < o.result.rows ∧ (o.hadCell p.1 p.2).2 < o.result.cols :=
    fun p hp => MxOp.hadCell_lt hd (hmem p hp).1 (hmem p hp).2
  rw [MxOp.run_had hm hs h64] at h
  obtain rfl := Option.some.inj h
  refine ⟨foldl_scratchStep (fun g p hp => setElem_scratchStep g h9 _ (hcell p hp).1 (hcell p hp).2) x, fun q hq i hi => ?_⟩
  refine foldl_reads (w := fun h p => h.setElem o.result (o.hadCell p.1 p.2).1 (o.hadCell p.1 p.2).2 (o.hadOut x p))
    (R := fun g p => g.rawAt o.result (o.hadCell p.1 p.2).1 (o.hadCell p.1 p.2).2) (val := fun p => o.hadOut x p)
    (fun g p hp => rawAt_setElem_same g h9 _ _ ?_) (fun g p hp r hr hne => ?_) x (q, i) (mem_pairs.2 ⟨hq, List.mem_range.2 hi⟩)
  · rw [hsize, MxOp.hadOut_eq h64 hs2 x p.1 (hmem p hp).2]
    exact Fmt.mul_lt good_fp32 _ _
  · refine rawAt_setElem_other g hap _ (hcell p hp).1 (hcell p hp).2 (hcell r hr).1 (hcell r hr).2 fun he => hne ?_
    obtain ⟨h1, h2⟩ := MxOp.hadCell_inj (hmem r hr).2 (hmem p hp).2 he
    exact Prod.ext h1 h2

theorem hadamardStep {o : MxOp} {ftz : Bool} {n : Nat} {x y : Workgroup} (hm : o.major = 0x3F) (hs : o.sub ≠ 0) (hI : o.illegal = false)
    (h : o.run ftz n x = some y) : hadamardStepRule o n x y := by
  obtain ⟨-, hread⟩ := hadStep hm hs hI h
  obtain ⟨-, -, hL⟩ := (MxOp.legal_of_illegal hI).2.2.2 hm
  rw [if_neg hs] at hL
  obtain ⟨-, h64, -⟩ := hL
  intro q h1 h2 h3
  have hq : q ∈ o.groups n := (MxOp.mem_groups hs).2 ⟨h1, h2, h3⟩
  have hin : ∀ i, i < fwHn o.fmt → (o.hadIn x q).getD i 0 = x.rawAt o.source (o.hadCell q i).1 (o.hadCell q i).2 := fun i hi => by
    rw [MxOp.hadIn, List.getD_eq_getElem?_getD, List.getElem?_map, List.getElem?_range hi]
    rfl
  refine ⟨fun s i => (hadIter (o.hadIn x q) s).getD i 0, fun i hi => hin i hi, fun s i _ hi => ?_, fun s i hs2 hi => ?_⟩
  · exact hadStage_getD (2 ^ s) (hadIter (o.hadIn x q) s) (by simpa [MxOp.hadIn] using hi)
  · exact (hread q hq i hi).trans (MxOp.hadOut_eq h64 hs2 x q hi)

end Sys2Proof.Machine
end

section
/-! The quantiser of a block (R44, R47). -/

namespace Sys2Proof.Machine

/-! ### Finite values -/

/-- A value is finite. -/
def IsFin (v : Val) : Prop := ∃ n m e, v = .fin n m e

theorem ratOf_shifted (n : Bool) (m : Nat) {e k : ℤ} (h : e ≤ k) :
    (((if n then -1 else 1) * (m <<< (k - e).toNat : Nat) : ℤ) : ℚ) * 2 ^ e = ratOf (.fin n m k) := by
  have h1 := shifted_value n m h
  refine Rat.cast_injective (α := ℝ) ?_
  rw [Rat.cast_mul, Rat.cast_intCast, Rat.cast_zpow, Rat.cast_ofNat, h1, ratOf_fin]
/-- The comparison of finite values. -/
theorem cmp_fin {x y : Val} (hx : IsFin x) (hy : IsFin y) : x.cmp y = compare (ratOf x) (ratOf y) := by
  obtain ⟨n1, m1, e1, rfl⟩ := hx
  obtain ⟨n2, m2, e2, rfl⟩ := hy
  rw [← ratOf_shifted n1 m1 (min_le_left e1 e2), ← ratOf_shifted n2 m2 (min_le_right e1 e2)]
  show compare _ _ = _
  have hp : (0 : ℚ) < 2 ^ min e1 e2 := zpow_pos (by norm_num) _
  generalize ((if n1 then -1 else 1) * (m1 <<< (e1 - min e1 e2).toNat : Nat) : ℤ) = a
  generalize ((if n2 then -1 else 1) * (m2 <<< (e2 - min e1 e2).toNat : Nat) : ℤ) = b
  rcases lt_trichotomy a b with h | h | h
  · rw [compare_lt_iff_lt.2 h, eq_comm, compare_lt_iff_lt]
    exact mul_lt_mul_of_pos_right (by exact_mod_cast h) hp
  · rw [compare_eq_iff_eq.2 h, h, eq_comm, compare_eq_iff_eq]
  · rw [compare_gt_iff_gt.2 h, eq_comm, compare_gt_iff_gt]
    exact mul_lt_mul_of_pos_right (by exact_mod_cast h) hp

theorem ratOf_pos (m : Nat) (e : ℤ) : ratOf (.fin false m e) = m * 2 ^ e := by simp [ratOf]
theorem isFin_abs {v : Val} (h : IsFin v) : IsFin v.abs := by
  obtain ⟨n, m, e, rfl⟩ := h
  exact ⟨false, m, e, rfl⟩
theorem ratOf_abs {v : Val} (h : IsFin v) : ratOf v.abs = |ratOf v| := by
  obtain ⟨n, m, e, rfl⟩ := h
  have h0 : (0 : ℚ) ≤ m * 2 ^ e := by positivity
  show ratOf (.fin false m e) = _
  rw [ratOf_pos, ratOf]
  cases n
  · simp [abs_of_nonneg h0]
  · simp [abs_of_nonneg h0]
theorem isFin_neg {v : Val} (h : IsFin v) : IsFin v.neg := by
  obtain ⟨n, m, e, rfl⟩ := h
  exact ⟨!n, m, e, rfl⟩
theorem ratOf_neg {v : Val} (h : IsFin v) : ratOf v.neg = -ratOf v := by
  obtain ⟨n, m, e, rfl⟩ := h
  cases n <;> simp [Val.neg, ratOf]
theorem isFin_add {v w : Val} (h : IsFin v) (h' : IsFin w) : IsFin (v.add w) := by
  obtain ⟨n, m, e, rfl⟩ := h
  obtain ⟨n', m', e', rfl⟩ := h'
  exact ⟨_, _, _, rfl⟩
theorem ratOf_add {v w : Val} (h : IsFin v) (h' : IsFin w) : ratOf (v.add w) = ratOf v + ratOf w := by
  obtain ⟨n, m, e, rfl⟩ := h
  obtain ⟨n', m', e', rfl⟩ := h'
  exact addExact_ratOf n n' m m' e e'
theorem isFin_scale {v : Val} (h : IsFin v) (k : ℤ) : IsFin (v.scale k) := by
  obtain ⟨n, m, e, rfl⟩ := h
  exact ⟨n, m, e + k, rfl⟩
theorem ratOf_scale {v : Val} (h : IsFin v) (k : ℤ) : ratOf (v.scale k) = ratOf v * 2 ^ k := by
  obtain ⟨n, m, e, rfl⟩ := h
  show ratOf (.fin n m (e + k)) = _
  rw [ratOf, ratOf, zpow_add₀ (by norm_num), ← mul_assoc]

/-- The comparison of two distances. -/
theorem dist_cmp {y z w : Val} (hy : IsFin y) (hz : IsFin z) (hw : IsFin w) :
    ((y.add z.neg).abs.cmp (y.add w.neg).abs == Ordering.lt) = true ↔ |ratOf y - ratOf z| < |ratOf y - ratOf w| := by
  have h1 := isFin_add hy (isFin_neg hz)
  have h2 := isFin_add hy (isFin_neg hw)
  rw [beq_iff_eq, cmp_fin (isFin_abs h1) (isFin_abs h2), compare_lt_iff_lt, ratOf_abs h1, ratOf_abs h2, ratOf_add hy (isFin_neg hz),
    ratOf_add hy (isFin_neg hw), ratOf_neg hz, ratOf_neg hw, sub_eq_add_neg, sub_eq_add_neg]

/-! ### The largest magnitude -/

/-- What `amaxOf` finds. -/
def IsAmax (xs : List Val) (r : Option Val) : Prop :=
  match r with
  | none => ∃ v ∈ xs, ¬IsFin v
  | some y => (∀ v ∈ xs, IsFin v ∧ |ratOf v| ≤ ratOf y) ∧
      ∃ m e, y = .fin false m e ∧ (m = 0 ∨ ∃ v ∈ xs, v.abs = y)

/-- One step of `amaxOf`. -/
def amaxStep (m : Option Val) (x : Val) : Option Val :=
  match m, x with
  | some y, .fin _ k e => if y.cmp (.fin false k e) = .lt then some (.fin false k e) else some y
  | _, _ => none
theorem amaxOf_eq (xs : List Val) : amaxOf xs = xs.foldl amaxStep (some (.fin false 0 0)) := rfl

theorem isAmax_step {xs : List Val} {r : Option Val} (h : IsAmax xs r) (v : Val) : IsAmax (xs ++ [v]) (amaxStep r v) := by
  have grow : ∀ {p : Val → Prop}, (∃ w ∈ xs, p w) → ∃ w ∈ xs ++ [v], p w := fun ⟨w, hw, h⟩ => ⟨w, List.mem_append_left _ hw, h⟩
  cases r with
  | none => exact grow h
  | some y =>
    obtain ⟨hall, m, e, rfl, hy⟩ := h
    cases v with
    | nan s => exact ⟨.nan s, by simp, fun ⟨_, _, _, h⟩ => Val.noConfusion h⟩
    | inf s => exact ⟨.inf s, by simp, fun ⟨_, _, _, h⟩ => Val.noConfusion h⟩
    | fin n k d =>
      have hv : IsFin (.fin n k d) := ⟨n, k, d, rfl⟩
      have habs : |ratOf (.fin n k d)| = ratOf (.fin false k d) := (ratOf_abs hv).symm
      have hlt : Val.cmp (.fin false m e) (.fin false k d) = .lt ↔ ratOf (.fin false m e) < ratOf (.fin false k d) := by
        rw [cmp_fin ⟨_, _, _, rfl⟩ ⟨_, _, _, rfl⟩, compare_lt_iff_lt]
      show IsAmax _ (if Val.cmp (.fin false m e) (.fin false k d) = .lt then some (.fin false k d) else some (.fin false m e))
      split
      case isTrue h =>
        rw [hlt] at h
        refine ⟨fun w hw => ?_, k, d, rfl, .inr ⟨_, List.mem_append_right _ (List.mem_singleton.2 rfl), rfl⟩⟩
        rcases List.mem_append.1 hw with hw | hw
        · exact ⟨(hall w hw).1, (hall w hw).2.trans h.le⟩
        · rw [List.mem_singleton.1 hw]; exact ⟨hv, habs.le⟩
      case isFalse h =>
        rw [hlt, not_lt] at h
        refine ⟨fun w hw => ?_, m, e, rfl, hy.imp_right grow⟩
        rcases List.mem_append.1 hw with hw | hw
        · exact hall w hw
        · rw [List.mem_singleton.1 hw]; exact ⟨hv, habs.le.trans h⟩
theorem isAmax_amaxOf (xs : List Val) : IsAmax xs (amaxOf xs) := by
  rw [amaxOf_eq]
  induction xs using List.reverseRecOn with
  | nil => exact ⟨by simp, 0, 0, rfl, .inl rfl⟩
  | append_singleton xs v ih =>
    rw [List.foldl_concat]
    exact isAmax_step ih v

/-! ### The exponent -/

/-- The largest element of BS4 and of BS8. -/
def mostElem (bs4 : Bool) : ℚ := if bs4 then 6 else 448

theorem scaleExp_spec (bs4 : Bool) {m : Nat} (hm : 0 < m) (e : ℤ) :
    (m : ℚ) * 2 ^ e ≤ mostElem bs4 * 2 ^ scaleExp bs4 m e ∧ mostElem bs4 * 2 ^ (scaleExp bs4 m e - 1) < m * 2 ^ e ∧
      scaleExp bs4 m e < e + bitLen m := by
  have hb : bitLen m - 1 + 1 = bitLen m := by rw [bitLen_pos hm]; rfl
  have h1 : 2 ^ (bitLen m - 1) ≤ m := by rw [bitLen_pos hm]; exact Nat.log2_self_le hm.ne'
  have h2 : m < 2 * 2 ^ (bitLen m - 1) := by rw [← pow_succ', hb]; exact lt_two_pow_bitLen m
  have hE : (e + bitLen m : ℤ) = e + (bitLen m - 1 : Nat) + 1 := by omega
  have hlead : (2 : ℚ) ^ (e + (bitLen m - 1 : Nat)) = 2 ^ (bitLen m - 1) * 2 ^ e := by
    rw [zpow_add₀ (by norm_num), zpow_natCast, mul_comm]
  have q1 : (2 : ℚ) ^ (bitLen m - 1) ≤ m := by exact_mod_cast h1
  have q2 : (m : ℚ) < 2 * 2 ^ (bitLen m - 1) := by exact_mod_cast h2
  have hp : (0 : ℚ) < 2 ^ e := zpow_pos (by norm_num) e
  have hsub : ∀ j : ℤ, (2 : ℚ) ^ (e + (bitLen m - 1 : Nat) - j) = 2 ^ (bitLen m - 1) * 2 ^ e / 2 ^ j := fun j => by
    rw [zpow_sub₀ (by norm_num), hlead]
  have t1 := mul_le_mul_of_nonneg_right q1 hp.le
  have t2 := mul_lt_mul_of_pos_right q2 hp
  rw [hE]
  -- each case compares the significand with one and a half, or with seven quarters
  have key : ∀ (s : ℤ) (a b : ℚ), mostElem bs4 * (2 ^ (bitLen m - 1) * 2 ^ e / 2 ^ s) = a → mostElem bs4 * (2 ^ (bitLen m - 1) * 2 ^ e / 2 ^ (s + 1)) = b →
      1 ≤ s → (m : ℚ) * 2 ^ e ≤ a → b < m * 2 ^ e →
      (m : ℚ) * 2 ^ e ≤ mostElem bs4 * 2 ^ (e + (bitLen m - 1 : Nat) - s) ∧ mostElem bs4 * 2 ^ (e + (bitLen m - 1 : Nat) - s - 1) < m * 2 ^ e ∧
        e + (bitLen m - 1 : Nat) - s < e + (bitLen m - 1 : Nat) + 1 := by
    rintro s a b rfl rfl hs ha hb
    rw [sub_sub, hsub, hsub]
    exact ⟨ha, hb, by omega⟩
  unfold scaleExp
  dsimp only
  cases bs4
  · simp only [Bool.false_eq_true, if_false]
    split
    case isTrue h =>
      have q3 : 4 * (m : ℚ) ≤ 7 * 2 ^ (bitLen m - 1) := by exact_mod_cast h
      have t3 := mul_le_mul_of_nonneg_right q3 hp.le
      refine key 8 _ _ rfl rfl (by norm_num) ?_ ?_ <;> norm_num [mostElem] <;> linarith
    case isFalse h =>
      have q3 : 7 * (2 : ℚ) ^ (bitLen m - 1) < 4 * m := by exact_mod_cast not_le.1 h
      have t3 := mul_lt_mul_of_pos_right q3 hp
      refine key 7 _ _ rfl rfl (by norm_num) ?_ ?_ <;> norm_num [mostElem] <;> linarith
  · simp only [if_true]
    split
    case isTrue h =>
      have q3 : 2 * (m : ℚ) ≤ 3 * 2 ^ (bitLen m - 1) := by exact_mod_cast h
      have t3 := mul_le_mul_of_nonneg_right q3 hp.le
      refine key 2 _ _ rfl rfl (by norm_num) ?_ ?_ <;> norm_num [mostElem] <;> linarith
    case isFalse h =>
      have q3 : 3 * (2 : ℚ) ^ (bitLen m - 1) < 2 * m := by exact_mod_cast not_le.1 h
      have t3 := mul_lt_mul_of_pos_right q3 hp
      refine key 1 _ _ rfl rfl (by norm_num) ?_ ?_ <;> norm_num [mostElem] <;> linarith

/-! ### The quantiser -/

theorem roundMag_e4m3_fits (n : Bool) {m : Nat} (hm : 0 < m) (e : ℤ) (h : (m : ℝ) / (1 : ℕ) * 2 ^ e ≤ 6) : (e4m3.roundMag 0 n m 1 e).overflow = false := by
  obtain ⟨u, q, h1, -, hq, hr | hr⟩ := e4m3.roundMag_spec (rm := 0) (by norm_num) n hm one_pos e
  · exact hr.2.2.2.2.1
  · obtain ⟨-, -, c, hc, -, ho, -⟩ := hr
    rw [ho, decide_eq_false_iff_not, not_lt, ← e4m3.grid_strictMono.le_iff_le, hc]
    have hu := two_zpow_pos u
    have h8 : (2 : ℝ) ^ (u + e4m3.fbits) = 2 ^ u * 8 := by
      rw [two_zpow_add]
      norm_num [e4m3]
    rw [h8] at h1
    have hlt := roundedTo_abs_lt hq
    rw [cast_sgnInt, mul_div_assoc, ← mul_sub, abs_mul, abs_sgn, one_mul, abs_lt] at hlt
    have hd : (m : ℝ) / (1 : ℕ) * 2 ^ e / 2 ^ u * 2 ^ u = m / (1 : ℕ) * 2 ^ e := div_mul_cancel₀ _ hu.ne'
    have hq2 : (q : ℝ) * 2 ^ u ≤ (m / (1 : ℕ) * 2 ^ e / 2 ^ u + 1) * 2 ^ u := mul_le_mul_of_nonneg_right (by linarith [hlt.1]) hu.le
    have hmax : e4m3.grid e4m3.maxCode = 448 := by
      have hg := e4m3.grid_normal 14 14 (by decide) (by decide)
      have he : e4m3.qmin + (14 : ℕ) = 5 := rfl
      rw [he] at hg
      exact hg.trans (by norm_num)
    rw [add_mul, hd, one_mul] at hq2
    linarith
/-- A value no further than the largest element of BS4 narrows to a finite code. -/
theorem qNarrow_fits {v : Val} (hv : IsFin v) {k : ℤ} (h : |ratOf v * 2 ^ k| ≤ 6) : IsFin (e4m3.decode (qNarrow e4m3 false v k)) := by
  obtain ⟨n, m, e, rfl⟩ := hv
  unfold qNarrow
  dsimp only
  split
  case isTrue => exact ⟨n, (Fmt.finIs_zero good_e4m3 n).1⟩
  case isFalse hm =>
    have hm' := Nat.pos_of_ne_zero hm
    have hX : (m : ℝ) / (1 : ℕ) * 2 ^ (e + k) ≤ 6 := by
      have h1 : (0 : ℝ) ≤ (m : ℝ) / (1 : ℕ) * 2 ^ (e + k) := mul_nonneg (by positivity) (two_zpow_pos _).le
      rw [← abs_sgn_mul n h1, ← ratOf_scaled]
      exact_mod_cast h
    rw [roundMag_e4m3_fits n hm' _ hX]
    exact ⟨n, (Fmt.finIs_code good_e4m3 n (Fmt.roundMag_code_le good_e4m3 (rm := 0) (by norm_num) n hm' one_pos _)).1⟩
theorem e2m1_isFin (c : Nat) : IsFin (e2m1.decode c) := by
  unfold Fmt.decode
  dsimp only
  rw [if_neg (by simp [e2m1]), if_neg (by simp [e2m1])]
  split
  · exact ⟨_, _, _, rfl⟩
  · exact ⟨_, _, _, rfl⟩
theorem qE2M1_lt (v : Val) (k : ℤ) : qE2M1 v k < 16 := by
  have hs : ∀ n, e2m1.signBit n ≤ 8 := fun n => by cases n <;> decide
  cases v with
  | nan s => exact (by decide : 0 < 16)
  | inf n => have := hs n; show e2m1.signBit n + 7 < 16; omega
  | fin n m e =>
    unfold qE2M1
    dsimp only
    split
    case isTrue => decide
    case isFalse hm =>
      have hc : (e2m1.roundMag 0 n m 1 (e + k)).code ≤ 7 := Fmt.roundMag_code_le good_e2m1 (rm := 0) (by norm_num) n (Nat.pos_of_ne_zero hm) one_pos _
      have := hs n
      split <;> omega

/-- The code of an element of a BS4 block whose peak has this code: the escape 8, or the element narrowed. -/
def blockCode (peak : Nat) (k : ℤ) (v : Val) : Nat :=
  if ((v.scale k).add (e4m3.decode peak).neg).abs.cmp ((v.scale k).add (e2m1.decode (qE2M1 v k)).neg).abs == Ordering.lt then 8 else qE2M1 v k
theorem blockCode_lt (peak : Nat) (k : ℤ) (v : Val) : blockCode peak k v < 16 := by
  unfold blockCode
  split
  · decide
  · exact qE2M1_lt v k
theorem blockCode_eq {peak : Nat} (hp : IsFin (e4m3.decode peak)) (k : ℤ) {v : Val} (hv : IsFin v) : blockCode peak k v =
    if |ratOf v * 2 ^ k - ratOf (e4m3.decode peak)| < |ratOf v * 2 ^ k - ratOf (e2m1.decode (qE2M1 v k))| then 8 else qE2M1 v k := by
  unfold blockCode
  simp only [dist_cmp (isFin_scale hv k) hp (e2m1_isFin _), ratOf_scale hv]

/-- The quantiser by the block: not finite, all 0, or with a first largest element. -/
theorem quantise_notFinite (bs4 : Bool) {xs : List Val} (h : ∃ v ∈ xs, ¬IsFin v) : quantise bs4 xs = (255, 0, xs.map fun _ => 0) := by
  have ha := isAmax_amaxOf xs
  unfold quantise
  split
  case h_1 => rfl
  case h_2 n m e hr =>
    rw [hr] at ha
    obtain ⟨v, hv, hn⟩ := h
    exact absurd (ha.1 v hv).1 hn
  case h_3 => rfl
theorem quantise_zero (bs4 : Bool) {xs : List Val} (h : ∀ v ∈ xs, IsFin v ∧ ratOf v = 0) :
    quantise bs4 xs = (127, 0, xs.map fun x => if bs4 then 0 else e4m3.signBit x.isNeg) := by
  have ha := isAmax_amaxOf xs
  cases hr : amaxOf xs with
  | none =>
    rw [hr] at ha
    obtain ⟨v, hv, hn⟩ := ha
    exact absurd (h v hv).1 hn
  | some y =>
    rw [hr] at ha
    obtain ⟨-, m, e, rfl, hm⟩ := ha
    have hm0 : m = 0 := by
      rcases hm with hm | ⟨v, hv, hvm⟩
      · exact hm
      · have hz := ratOf_abs (h v hv).1
        rw [hvm, (h v hv).2, abs_zero, ratOf_pos] at hz
        have := (mul_eq_zero.1 hz).resolve_right (by positivity)
        exact_mod_cast this
    rw [quantise, hr]
    exact if_pos hm0
/-- A block with a largest element. -/
theorem quantise_peak (bs4 : Bool) {xs : List Val} (h : ∀ v ∈ xs, IsFin v) {p : Val} (hp : p ∈ xs) (h0 : ratOf p ≠ 0)
    (hmax : ∀ v ∈ xs, |ratOf v| ≤ |ratOf p|) (hfirst : xs.find? (fun v => |ratOf v| = |ratOf p|) = some p) :
    ∃ (m : Nat) (e : ℤ), 0 < m ∧ ratOf (.fin false m e) = |ratOf p| ∧ (∃ v ∈ xs, v.abs = .fin false m e) ∧
      let ex := max 1 (scaleExp bs4 m e + 127)
      let k := 127 - ex
      quantise bs4 xs = if bs4 then (ex.toNat, qNarrow e4m3 false p k, xs.map (blockCode (qNarrow e4m3 false p k) k))
        else (ex.toNat, 0, xs.map fun v => qNarrow e4m3 false v k) := by
  have hp0 : 0 < |ratOf p| := abs_pos.2 h0
  have ha := isAmax_amaxOf xs
  cases hr : amaxOf xs with
  | none =>
    rw [hr] at ha
    obtain ⟨v, hv, hn⟩ := ha
    exact absurd (h v hv) hn
  | some y =>
    rw [hr] at ha
    obtain ⟨hall, m, e, rfl, hm⟩ := ha
    have hge := (hall p hp).2
    have hm0 : m ≠ 0 := fun h => by
      rw [h, ratOf_pos, Nat.cast_zero, zero_mul] at hge
      linarith
    obtain ⟨v, hv, hvm⟩ := hm.resolve_left hm0
    have heq : ratOf (.fin false m e) = |ratOf p| := by
      refine le_antisymm ?_ hge
      rw [← hvm, ratOf_abs (h v hv)]
      exact hmax v hv
    refine ⟨m, e, Nat.pos_of_ne_zero hm0, heq, ⟨v, hv, hvm⟩, ?_⟩
    have hfind : xs.find? (fun x => x.abs.cmp (.fin false m e) = .eq) = some p := by
      rw [← hfirst]
      refine List.find?_congr fun x hx => ?_
      rw [cmp_fin (isFin_abs (h x hx)) ⟨_, _, _, rfl⟩, ratOf_abs (h x hx), heq]
      exact decide_eq_decide.2 compare_eq_iff_eq
    intro ex k
    rw [quantise, hr]
    dsimp only
    rw [if_neg hm0, hfind]
    rfl

end Sys2Proof.Machine
end

section
/-! The steps of `mquant` (R44, R47, R225, R232). -/

namespace Sys2Proof.Machine

/-! ### The place of a block -/

/-- Element i of block q. -/
def MxOp.blockCell (o : MxOp) (q i : Nat) : Nat × Nat :=
  if o.result.axis then (i, q) else (q / (fwK o.fmt / 256), q % (fwK o.fmt / 256) * 256 + i)

theorem MxOp.result_axis {o : MxOp} (hm : o.major = 0x3F) : (o.mats.drop 1).any (·.axis) = o.result.axis := by
  rw [MxOp.mats_blocks hm]
  exact Bool.or_false _
theorem MxOp.group_block {o : MxOp} (hm : o.major = 0x3F) (hs : o.sub = 0) (q : Nat) : o.group q = (List.range 256).map (o.blockCell q) := by
  unfold MxOp.group MxOp.blockCell
  dsimp only
  rw [if_pos hs, MxOp.result_axis hm]
  split <;> rfl
theorem MxOp.groups_block {o : MxOp} (hs : o.sub = 0) {n : Nat} (hn : n < o.steps) : o.groups n = [n] := by
  rw [MxOp.groups, if_pos hs]
  simp [hn]

/-- The elements of a block stand one after another in a line. -/
def BlockAt (m : Mat) (cell : Nat → Nat × Nat) (line block : Nat) : Prop :=
  (∀ i, i < 256 → m.locate (cell i).1 (cell i).2 = (line, 256 * block + i)) ∧ line < m.lines ∧ 256 * block + 256 ≤ m.elems

theorem MxOp.blockAt {o : MxOp} (hm : o.major = 0x3F) (hs : o.sub = 0) (hL : o.Legal) {n : Nat} (hn : n < o.steps) :
    ∃ line block, BlockAt o.result (o.blockCell n) line block := by
  obtain ⟨-, htrans, hL⟩ := hL.2.2.2 hm
  rw [if_pos hs, MxOp.result_axis hm] at hL
  obtain ⟨hb, hL⟩ := hL
  have ht : o.result.trans = false := htrans _ (by rw [MxOp.mats_blocks hm]; exact List.mem_cons_of_mem _ List.mem_cons_self)
  have hflip : o.result.flip = o.result.axis := by
    have hf : blocked o.result.fmt = true := hb
    rw [Mat.flip, ht, hf]
    rfl
  have hsteps : n * 256 < fwM o.fmt * fwK o.fmt := by
    rw [MxOp.steps, if_neg (by rw [hm]; decide), if_pos hm, ceilDiv, Nat.lt_div_iff_mul_lt (by decide)] at hn
    omega
  have hrows : o.result.rows = fwM o.fmt := rfl
  have hcols : o.result.cols = fwK o.fmt := rfl
  unfold BlockAt MxOp.blockCell Mat.locate Mat.lines Mat.elems
  rw [hflip, hrows, hcols]
  cases hx : o.result.axis
  · rw [hx] at hL
    obtain ⟨k, hk⟩ := Nat.dvd_of_mod_eq_zero hL
    rw [hk]
    simp only [Bool.false_eq_true, if_false, Nat.mul_div_cancel_left k (show 0 < 256 by decide)]
    rw [hk, Nat.mul_left_comm, Nat.mul_comm n] at hsteps
    have hlt := Nat.lt_of_mul_lt_mul_left hsteps
    have hk0 : 0 < k := Nat.pos_of_ne_zero fun h => by rw [h, Nat.mul_zero] at hlt; omega
    refine ⟨n / k, n % k, fun i _ => by rw [Nat.mul_comm (n % k)], Nat.div_lt_of_lt_mul (by rwa [Nat.mul_comm]), ?_⟩
    have := Nat.mod_lt n hk0
    omega
  · rw [hx] at hL
    rw [if_pos rfl] at hL
    simp only [if_true]
    rw [hL] at hsteps ⊢
    exact ⟨n, 0, fun i _ => by simp, by omega, by omega⟩

section place
variable {m : Mat} {cell : Nat → Nat × Nat} {line block : Nat} (h : BlockAt m cell line block)
include h

theorem BlockAt.offset_eq {i : Nat} (hi : i < 256) : m.offset (cell i).1 (cell i).2 = m.base + line * m.ld + (256 * block + i) * halfBytes m.fmt / 2 := by
  rw [Mat.offset, h.1 i hi]
theorem BlockAt.header_eq {i : Nat} (hi : i < 256) : m.header (cell i).1 (cell i).2 = m.scale + headerBytes m.fmt * (line * (m.elems / 256) + block) := by
  rw [Mat.header, h.1 i hi]
  show m.scale + headerBytes m.fmt * (line * (m.elems / 256) + (256 * block + i) / 256) = _
  rw [show (256 * block + i) / 256 = block by omega]

/-- The bytes of the block's elements stand in the range of the matrix, and its header in that of the scale array. -/
theorem BlockAt.body_in : m.base ≤ m.offset (cell 0).1 (cell 0).2 ∧
    m.offset (cell 0).1 (cell 0).2 + 128 * halfBytes m.fmt ≤ m.base + ((m.lines - 1) * m.ld + m.lineBytes) := by
  obtain ⟨-, h1, h2⟩ := id h
  rw [h.offset_eq (by decide), Mat.lineBytes]
  have e1 := Nat.mul_le_mul_right m.ld (Nat.le_sub_one_of_lt h1)
  have e2 := Nat.mul_le_mul_right (halfBytes m.fmt) h2
  rw [Nat.add_mul] at e2
  have e3 : (256 * block + 0) * halfBytes m.fmt = 256 * block * halfBytes m.fmt := rfl
  omega
theorem BlockAt.head_in : m.scale ≤ m.header (cell 0).1 (cell 0).2 ∧
    m.header (cell 0).1 (cell 0).2 + headerBytes m.fmt ≤ m.scale + headerBytes m.fmt * (m.lines * (m.elems / 256)) := by
  obtain ⟨-, h1, h2⟩ := id h
  have hb : block < m.elems / 256 := (Nat.le_div_iff_mul_le (by decide)).2 (by omega)
  have := Nat.mul_le_mul_left (headerBytes m.fmt) (Nat.succ_le_of_lt (digits_lt hb h1))
  rw [Nat.mul_succ] at this
  rw [h.header_eq (by decide)]
  omega

theorem BlockAt.ranges_eq (hb : blocked m.fmt = true) : m.ranges =
    [(m.base, (m.lines - 1) * m.ld + m.lineBytes), (m.scale, headerBytes m.fmt * (m.lines * (m.elems / 256)))] := by
  obtain ⟨-, h1, h2⟩ := id h
  have hh : 0 < headerBytes m.fmt * (m.lines * (m.elems / 256)) := by
    refine Nat.mul_pos (by unfold headerBytes; split <;> decide) (Nat.mul_pos (by omega) (Nat.div_pos (by omega) (by decide)))
  have hl : 0 < m.lineBytes := by
    have h8 : 0 < halfBytes m.fmt := by unfold halfBytes; split_ifs <;> decide
    have := Nat.mul_le_mul (show 2 ≤ m.elems by omega) (Nat.succ_le_of_lt h8)
    rw [Mat.lineBytes]
    omega
  have hne : (decide (m.lines = 0) || decide (m.lineBytes = 0)) = false := by simp; omega
  rw [Mat.ranges]
  simp only [hne, hb, hh, decide_true, Bool.and_true, Bool.false_eq_true, if_true, if_false, List.cons_append, List.nil_append]
end place

/-- Written ranges of an operation that is not `mhad` do not meet. -/
theorem MxOp.apart_of_overlaps {o : MxOp} (h : o.overlaps = false) (hs : o.sub ≠ 1) {i j : Nat} (hi : i < o.ranges.length) (hj : j < o.ranges.length)
    (hij : i ≠ j) (hw : (o.ranges[i]).2.2 = true) : rangesMeet o.ranges[i] o.ranges[j] = false := by
  unfold MxOp.overlaps at h
  simp only [hs, decide_false, Bool.and_false, Bool.false_and, Bool.not_false, Bool.true_and, List.any_eq_false, List.mem_range] at h
  have := h i hi
  simp only [Bool.not_eq_true, List.any_eq_false, List.mem_range] at this
  have := this j hj
  simpa [List.getD_eq_getElem?_getD, hi, hj, hij, hw] using this

/-- The elements and the header of a block of `mquant` do not share a byte. -/
theorem MxOp.block_apart {o : MxOp} (hm : o.major = 0x3F) (hs : o.sub = 0) (hO : o.overlaps = false) (hb : blocked o.result.fmt = true)
    {cell : Nat → Nat × Nat} {line block : Nat} (h : BlockAt o.result cell line block) :
    let off := o.result.offset (cell 0).1 (cell 0).2
    let head := o.result.header (cell 0).1 (cell 0).2
    off + 128 * halfBytes o.result.fmt ≤ head ∨ head + headerBytes o.result.fmt ≤ off := by
  have hr : ∃ pre, o.ranges = pre ++ [(o.result.base, (o.result.lines - 1) * o.result.ld + o.result.lineBytes, true),
      (o.result.scale, headerBytes o.result.fmt * (o.result.lines * (o.result.elems / 256)), true)] := by
    refine ⟨o.source.ranges.map fun r => (r.1, r.2, false), ?_⟩
    have e : o.mats = [o.source, o.result] := MxOp.mats_blocks hm
    rw [MxOp.ranges, e, List.flatMap_cons, List.flatMap_cons, List.flatMap_nil, List.append_nil, h.ranges_eq hb]
    rfl
  obtain ⟨pre, hr⟩ := hr
  have hlen : o.ranges.length = pre.length + 2 := by rw [hr]; simp
  have hmeet := MxOp.apart_of_overlaps hO (by omega) (i := pre.length) (j := pre.length + 1) (by omega) (by omega) (by omega) (by simp [hr])
  simp only [hr, List.getElem_append_right (Nat.le_refl _), List.getElem_append_right (Nat.le_succ _)] at hmeet
  obtain ⟨b1, b2⟩ := h.body_in
  obtain ⟨c1, c2⟩ := h.head_in
  simp [rangesMeet] at hmeet
  intro off head
  by_contra hn
  rw [not_or, not_le, not_le] at hn
  have := hmeet (by omega)
  omega

/-! ### What is written -/

/-- The bytes of a block's elements, and of its header. -/
def bodyBytes (fmt : Nat) (codes : List Nat) : List Byte :=
  if fmt = 9 then (List.range 128).map fun i => BitVec.ofNat 8 (codes.getD (2 * i) 0 + 16 * codes.getD (2 * i + 1) 0) else codes.map (BitVec.ofNat 8)
def headBytes (fmt : Nat) (r : Nat × Nat × List Nat) : List Byte := if fmt = 9 then [BitVec.ofNat 8 r.1, BitVec.ofNat 8 r.2.1] else [BitVec.ofNat 8 r.1]

theorem headBytes_length (fmt : Nat) (r : Nat × Nat × List Nat) : (headBytes fmt r).length = headerBytes fmt := by
  unfold headBytes headerBytes
  split <;> rfl
theorem bodyBytes_length {fmt : Nat} (hb : blocked fmt = true) {codes : List Nat} (hc : codes.length = 256) :
    (bodyBytes fmt codes).length = 128 * halfBytes fmt := by
  have h : fmt = 8 ∨ fmt = 9 := by simpa [blocked] using hb
  rcases h with rfl | rfl
  · simp [bodyBytes, hc, halfBytes]
  · simp [bodyBytes, halfBytes]

theorem putBlock_scratch (g : Workgroup) (m : Mat) (cell : Nat → Nat × Nat) (r : Nat × Nat × List Nat) :
    (g.putBlock m ((List.range 256).map cell) r).scratch = Mem.storeAll (Mem.storeAll g.scratch (m.offset (cell 0).1 (cell 0).2) (bodyBytes m.fmt r.2.2))
      (m.header (cell 0).1 (cell 0).2) (headBytes m.fmt r) := rfl

/-- The bytes of the header. -/
theorem putBlock_header (g : Workgroup) (m : Mat) (cell : Nat → Nat × Nat) (r : Nat × Nat × List Nat) :
    (Mem.byte (g.putBlock m ((List.range 256).map cell) r).scratch (m.header (cell 0).1 (cell 0).2)).toNat = r.1 % 256 ∧
      (m.fmt = 9 → (Mem.byte (g.putBlock m ((List.range 256).map cell) r).scratch (m.header (cell 0).1 (cell 0).2 + 1)).toNat = r.2.1 % 256) := by
  have hhead : ∀ t (ht : t < (headBytes m.fmt r).length), Mem.byte (g.putBlock m ((List.range 256).map cell) r).scratch
      (m.header (cell 0).1 (cell 0).2 + t) = (headBytes m.fmt r)[t] := fun t ht => by
    rw [putBlock_scratch]
    exact Mem.byte_storeAll_in _ _ _ _ ht
  have hl := headBytes_length m.fmt r
  have hp : 0 < headerBytes m.fmt := by unfold headerBytes; split <;> decide
  constructor
  · rw [← Nat.add_zero (m.header _ _), hhead 0 (by omega)]
    unfold headBytes
    split <;> rfl
  · intro h9
    rw [hhead 1 (by rw [hl, h9]; decide)]
    simp [headBytes, h9]

section written
variable {m : Mat} {cell : Nat → Nat × Nat} {line block : Nat} (h : BlockAt m cell line block) (hb : blocked m.fmt = true)
include h hb

/-- What the block leaves unchanged. -/
theorem putBlock_scratchStep (g : Workgroup) {r : Nat × Nat × List Nat} (hc : r.2.2.length = 256) :
    ScratchStep m g (g.putBlock m ((List.range 256).map cell) r) := by
  refine ⟨rfl, fun e he => ?_⟩
  rw [h.ranges_eq hb] at he
  simp only [List.mem_cons, List.not_mem_nil, or_false, forall_eq_or_imp, forall_eq] at he
  obtain ⟨b1, b2⟩ := h.body_in
  obtain ⟨c1, c2⟩ := h.head_in
  rw [putBlock_scratch, Mem.byte_storeAll_other _ _ _ _ (by rw [headBytes_length]; omega),
    Mem.byte_storeAll_other _ _ _ _ (by rw [bodyBytes_length hb hc]; omega)]

variable (hap : m.offset (cell 0).1 (cell 0).2 + 128 * halfBytes m.fmt ≤ m.header (cell 0).1 (cell 0).2 ∨
  m.header (cell 0).1 (cell 0).2 + headerBytes m.fmt ≤ m.offset (cell 0).1 (cell 0).2)
include hap

/-- The code of each element. -/
theorem putBlock_rawAt (g : Workgroup) {r : Nat × Nat × List Nat} (hc : r.2.2.length = 256)
    (hlt : ∀ i, r.2.2.getD i 0 < if m.fmt = 9 then 16 else 256) {i : Nat} (hi : i < 256) :
    (g.putBlock m ((List.range 256).map cell) r).rawAt m (cell i).1 (cell i).2 = r.2.2.getD i 0 := by
  have hbody : ∀ t (ht : t < (bodyBytes m.fmt r.2.2).length), Mem.byte (g.putBlock m ((List.range 256).map cell) r).scratch
      (m.offset (cell 0).1 (cell 0).2 + t) = (bodyBytes m.fmt r.2.2)[t] := fun t ht => by
    have hl := bodyBytes_length hb hc
    rw [putBlock_scratch, Mem.byte_storeAll_other _ _ _ _ (by rw [headBytes_length]; omega)]
    exact Mem.byte_storeAll_in _ _ _ _ ht
  have h8 : m.fmt = 8 ∨ m.fmt = 9 := by simpa [blocked] using hb
  have hoff := h.offset_eq hi
  have hoff0 := h.offset_eq (show 0 < 256 by decide)
  have hl := bodyBytes_length hb hc
  generalize g.putBlock m ((List.range 256).map cell) r = y at *
  rcases h8 with h8 | h8
  · rw [h8, show halfBytes 8 = 2 from rfl] at hoff hoff0 hl
    have e : m.offset (cell i).1 (cell i).2 = m.offset (cell 0).1 (cell 0).2 + i := by omega
    have hv := hlt i
    rw [if_neg (by rw [h8]; decide)] at hv
    have hby := hbody i (by rw [h8]; omega)
    rw [rawAt_eq y (by rw [h8]; decide), Mat.size, h8, e]
    show (Mem.byte y.scratch (m.offset (cell 0).1 (cell 0).2 + i + 0)).toNat + 256 * 0 = _
    simp only [Nat.mul_zero, Nat.add_zero, hby]
    simp only [bodyBytes, h8, show ¬(8 : Nat) = 9 by decide, if_false, List.getElem_map, BitVec.toNat_ofNat]
    rw [List.getD_eq_getElem?_getD, List.getElem?_eq_getElem (by omega)] at hv ⊢
    exact Nat.mod_eq_of_lt hv
  · rw [h8, show halfBytes 9 = 1 from rfl] at hoff hoff0 hl
    have e : m.offset (cell i).1 (cell i).2 = m.offset (cell 0).1 (cell 0).2 + i / 2 := by omega
    have hby := hbody (i / 2) (by rw [h8]; omega)
    have v0 := hlt (2 * (i / 2))
    have v1 := hlt (2 * (i / 2) + 1)
    rw [if_pos h8] at v0 v1
    rw [Workgroup.rawAt]
    simp only [h8, if_true, h.1 i hi, e, hby]
    simp only [bodyBytes, if_true, List.getElem_map, List.getElem_range, BitVec.toNat_ofNat]
    rcases Nat.mod_two_eq_zero_or_one i with hi2 | hi2
    · rw [if_pos (show (256 * block + i) % 2 = 0 by omega)]
      rw [show 2 * (i / 2) = i by omega] at *
      omega
    · rw [if_neg (show ¬(256 * block + i) % 2 = 0 by omega)]
      rw [show 2 * (i / 2) + 1 = i by omega] at *
      omega
end written

/-! ### The step -/

theorem quantise_codes (bs4 : Bool) (xs : List Val) :
    (quantise bs4 xs).2.2.length = xs.length ∧ ∀ i, (quantise bs4 xs).2.2.getD i 0 < if bs4 then 16 else 256 := by
  have hmap : ∃ c : Val → Nat, (quantise bs4 xs).2.2 = xs.map c ∧ ∀ v, c v < if bs4 then 16 else 256 := by
    have h0 : 0 < if bs4 then 16 else 256 := by split <;> decide
    unfold quantise
    split
    case h_1 => exact ⟨fun _ => 0, rfl, fun _ => h0⟩
    case h_2 n m e _ =>
      split
      · refine ⟨_, rfl, fun v => ?_⟩
        cases bs4
        · cases v.isNeg <;> decide
        · exact h0
      · cases bs4
        · exact ⟨_, rfl, fun v => qNarrow_lt good_e4m3 false v _⟩
        · exact ⟨_, rfl, fun v => blockCode_lt _ _ v⟩
    case h_3 => exact ⟨fun _ => 0, rfl, fun _ => h0⟩
  obtain ⟨c, hc, hlt⟩ := hmap
  rw [hc]
  refine ⟨List.length_map _, fun i => ?_⟩
  rw [List.getD_eq_getElem?_getD, List.getElem?_map]
  cases xs[i]? with
  | none => show 0 < _; split <;> decide
  | some v => exact hlt v

/-- Element i of a list of codes by the element of the block. -/
theorem codes_getD (X : Nat → Val) (c : Val → Nat) {i : Nat} (hi : i < 256) : (((List.range 256).map X).map c).getD i 0 = c (X i) := by
  rw [List.getD_eq_getElem?_getD, List.getElem?_map, List.getElem?_map, List.getElem?_range hi]
  rfl

/-- A block with a first largest element (R47): its exponent, its peak and its codes. -/
theorem quantise_first (bs4 : Bool) {X : Nat → Val} (hX : ∀ i n m e, X i = .fin n m e → m < 2 ^ 24 ∧ e ≤ 104)
    (hfin : ∀ i, i < 256 → IsFin (X i)) {j : Nat} (hj : j < 256) (h0 : ratOf (X j) ≠ 0) (hmax : ∀ i, i < 256 → |ratOf (X i)| ≤ |ratOf (X j)|)
    (hfirst : ∀ i, i < j → |ratOf (X i)| < |ratOf (X j)|) :
    ∃ E : Nat, 1 ≤ E ∧ E < 256 ∧ let k : ℤ := 127 - E
      |ratOf (X j)| ≤ mostElem bs4 * 2 ^ (-k) ∧ (E ≠ 1 → mostElem bs4 * 2 ^ (-k - 1) < |ratOf (X j)|) ∧
      quantise bs4 ((List.range 256).map X) = if bs4 then
          (E, qNarrow e4m3 false (X j) k, ((List.range 256).map X).map (blockCode (qNarrow e4m3 false (X j) k) k))
        else (E, 0, ((List.range 256).map X).map fun v => qNarrow e4m3 false v k) := by
  have hmem : ∀ {p : Val → Prop}, (∀ i, i < 256 → p (X i)) → ∀ v ∈ (List.range 256).map X, p v := fun h v hv => by
    obtain ⟨i, hi, rfl⟩ := List.mem_map.1 hv
    exact h i (List.mem_range.1 hi)
  have hfind : ((List.range 256).map X).find? (fun v => |ratOf v| = |ratOf (X j)|) = some (X j) := by
    rw [List.find?_map, (List.find?_range_eq_some (i := j)).2 ⟨by simp, List.mem_range.2 hj, fun i hi => by simpa using (hfirst i hi).ne⟩]
    rfl
  obtain ⟨m, e, hm, hv, ⟨v, hvm, hva⟩, hq⟩ := quantise_peak bs4 (hmem hfin) (List.mem_map_of_mem (List.mem_range.2 hj)) h0 (hmem hmax) hfind
  obtain ⟨i, hi, rfl⟩ := List.mem_map.1 hvm
  obtain ⟨n, m', e', hXi⟩ := hfin i (List.mem_range.1 hi)
  obtain ⟨hm24, he⟩ := hX i n m' e' hXi
  rw [hXi] at hva
  obtain ⟨-, rfl, rfl⟩ := Val.fin.inj hva
  obtain ⟨s1, s2, s3⟩ := scaleExp_spec bs4 hm e'
  have hbl : bitLen m' ≤ 24 := by
    rw [bitLen_pos hm]
    exact (Nat.log2_lt hm.ne').2 hm24
  rw [← ratOf_pos, hv] at s1 s2
  generalize scaleExp bs4 m' e' = s at *
  have hE : ((max 1 (s + 127)).toNat : ℤ) = max 1 (s + 127) := Int.toNat_of_nonneg (by omega)
  refine ⟨(max 1 (s + 127)).toNat, by omega, by omega, ?_⟩
  rw [hE]
  refine ⟨s1.trans ?_, fun h1 => ?_, hq⟩
  · refine mul_le_mul_of_nonneg_left (zpow_le_zpow_right₀ (by norm_num) (by omega)) ?_
    unfold mostElem
    split <;> norm_num
  · have he : max 1 (s + 127) = s + 127 := by omega
    rw [he, show -(127 - (s + 127)) - 1 = s - 1 by ring]
    exact s2

theorem source_fp32 (o : MxOp) (x : Workgroup) (r c : Nat) {n : Bool} {m : Nat} {e : ℤ} (h : x.elemAt o.source r c = .fin n m e) :
    m < 2 ^ 24 ∧ e ≤ 104 := by
  rw [elemAt_fp32 x rfl] at h
  obtain ⟨h1, -, -, h3⟩ := Fmt.decode_fin_bounds good_fp32 h
  have h3' : e < (-149 : ℤ) + 254 := h3 rfl
  exact ⟨h1, by omega⟩

/-- The block that a step of `mquant` reads, and what it makes of it. -/
def MxOp.blockIn (o : MxOp) (x : Workgroup) (n i : Nat) : Val := x.elemAt o.source (o.blockCell n i).1 (o.blockCell n i).2
def MxOp.blockOut (o : MxOp) (x : Workgroup) (n : Nat) : Nat × Nat × List Nat :=
  quantise (o.result.fmt == 9) ((List.range 256).map (o.blockIn x n))

theorem MxOp.run_block {o : MxOp} (hm : o.major = 0x3F) (hs : o.sub = 0) {n : Nat} (hn : n < o.steps) (ftz : Bool) (g : Workgroup) : o.run ftz n g =
    some (g.putBlock o.result ((List.range 256).map (o.blockCell n)) (o.blockOut g n)) := by
  rw [MxOp.run, hm, MxOp.mats_blocks hm]
  show some _ = _
  rw [MxOp.groups_block hs hn, List.foldl_cons, List.foldl_nil]
  dsimp only
  rw [if_pos hs, MxOp.group_block hm hs, List.map_map]
  rfl

/-- The rule of a step, from what the header and the elements of its block hold. -/
theorem quantiseRule_intro {o : MxOp} {n : Nat} {x y : Workgroup} (hb : blocked o.result.fmt = true)
    (hE : (Mem.byte y.scratch (o.result.header (o.blockCell n 0).1 (o.blockCell n 0).2)).toNat = (o.blockOut x n).1 % 256)
    (hpeak : o.result.fmt = 9 → (Mem.byte y.scratch (o.result.header (o.blockCell n 0).1 (o.blockCell n 0).2 + 1)).toNat = (o.blockOut x n).2.1 % 256)
    (hcode : ∀ i, i < 256 → y.rawAt o.result (o.blockCell n i).1 (o.blockCell n i).2 = (o.blockOut x n).2.2.getD i 0) : quantiseStepRule o n x y := by
  obtain ⟨bs4, hbs, h9, h8⟩ : ∃ bs4, (o.result.fmt == 9) = bs4 ∧ (fwB o.fmt = 9 ↔ bs4 = true) ∧ (fwB o.fmt = 8 ↔ bs4 = false) := by
    have h : fwB o.fmt = 8 ∨ fwB o.fmt = 9 := by simpa [blocked] using (show blocked (fwB o.fmt) = true from hb)
    refine ⟨_, rfl, by rw [beq_iff_eq]; rfl, ?_⟩
    show _ ↔ (fwB o.fmt == 9) = false
    rw [beq_eq_false_iff_ne]
    omega
  have hQ : o.blockOut x n = quantise bs4 ((List.range 256).map (o.blockIn x n)) := by rw [← hbs]; rfl
  have hpeak' := fun h : fwB o.fmt = 9 => hpeak h
  have hmem : ∀ {p : Val → Prop}, (∀ i, i < 256 → p (o.blockIn x n i)) → ∀ v ∈ (List.range 256).map (o.blockIn x n), p v := fun h v hv => by
    obtain ⟨i, hi, rfl⟩ := List.mem_map.1 hv
    exact h i (List.mem_range.1 hi)
  refine ⟨fun hf => ?_, fun hf hz => ?_, fun j hf hj h0 hmax hfirst => ?_⟩
  · have hf' : ∃ v ∈ (List.range 256).map (o.blockIn x n), ¬IsFin v := by
      by_contra hn
      push Not at hn
      exact hf fun i hi => hn _ (List.mem_map_of_mem (List.mem_range.2 hi))
    rw [hQ, quantise_notFinite _ hf'] at hE hpeak' hcode
    exact ⟨hE, hpeak', fun i hi => (hcode i hi).trans (codes_getD (o.blockIn x n) (fun _ => 0) hi)⟩
  · rw [hQ, quantise_zero _ (hmem fun i hi => ⟨hf i hi, hz i hi⟩)] at hE hpeak' hcode
    refine ⟨hE, hpeak', fun i hi => (hcode i hi).trans
      ((codes_getD (o.blockIn x n) (fun v => if bs4 then 0 else e4m3.signBit v.isNeg) hi).trans ?_)⟩
    show (if bs4 then 0 else e4m3.signBit (o.blockIn x n i).isNeg) = if fwB o.fmt = 8 ∧ (o.blockIn x n i).isNeg = true then 0x80 else 0
    simp only [h8]
    cases bs4 <;> cases (o.blockIn x n i).isNeg <;> rfl
  · obtain ⟨E, hE1, hE2, hk1, hk2, hq⟩ := quantise_first bs4 (X := o.blockIn x n) (fun i _ _ _ h => source_fp32 o x _ _ h) hf hj h0 hmax hfirst
    have hfin : ∀ i, i < 256 → IsFin (o.blockIn x n i) := hf
    have hmost : (if fwB o.fmt = 9 then 6 else 448 : ℚ) = mostElem bs4 := by unfold mostElem; simp only [h9]
    suffices third : ∀ e p : Nat, e = (o.blockOut x n).1 % 256 → (fwB o.fmt = 9 → p = (o.blockOut x n).2.1 % 256) →
        let k : ℤ := 127 - (e : ℤ)
        1 ≤ e ∧ |ratOf (o.blockIn x n j)| ≤ (if fwB o.fmt = 9 then 6 else 448 : ℚ) * 2 ^ (-k) ∧
        (e ≠ 1 → (if fwB o.fmt = 9 then 6 else 448 : ℚ) * 2 ^ (-k - 1) < |ratOf (o.blockIn x n j)|) ∧
        (fwB o.fmt = 8 → ∀ i, i < 256 → y.rawAt o.result (o.blockCell n i).1 (o.blockCell n i).2 = qNarrow e4m3 false (o.blockIn x n i) k) ∧
        (fwB o.fmt = 9 → p = qNarrow e4m3 false (o.blockIn x n j) k ∧ ∀ i, i < 256 →
          y.rawAt o.result (o.blockCell n i).1 (o.blockCell n i).2 =
            if |ratOf (o.blockIn x n i) * 2 ^ k - ratOf (e4m3.decode p)| <
              |ratOf (o.blockIn x n i) * 2 ^ k - ratOf (e2m1.decode (qE2M1 (o.blockIn x n i) k))| then 8 else qE2M1 (o.blockIn x n i) k) from
      third _ _ hE hpeak'
    intro e p he hp k
    rw [hQ, hq] at he hp hcode
    have heE : e = E := by rw [he]; cases bs4 <;> exact Nat.mod_eq_of_lt hE2
    subst heE
    rw [hmost]
    refine ⟨hE1, hk1, hk2, fun hb8 i hi => ?_, fun hb9 => ?_⟩
    · rw [hcode i hi, h8.1 hb8]
      exact codes_getD (o.blockIn x n) (fun v => qNarrow e4m3 false v k) hi
    · obtain rfl := h9.1 hb9
      have hp' : p = qNarrow e4m3 false (o.blockIn x n j) k := (hp hb9).trans (Nat.mod_eq_of_lt (qNarrow_lt good_e4m3 false _ _))
      have hpf : IsFin (e4m3.decode p) := by
        rw [hp']
        refine qNarrow_fits (hf j hj) ?_
        have h2 : (0 : ℚ) < 2 ^ k := zpow_pos (by norm_num) k
        rw [abs_mul, abs_of_pos h2]
        have := mul_le_mul_of_nonneg_right hk1 h2.le
        rw [mul_assoc, ← zpow_add₀ (by norm_num), neg_add_cancel, zpow_zero, mul_one] at this
        exact this
      refine ⟨hp', fun i hi => ?_⟩
      rw [hcode i hi, ← blockCode_eq hpf k (hfin i hi), hp']
      exact codes_getD (o.blockIn x n) (blockCode (qNarrow e4m3 false (o.blockIn x n j) k) k) hi

theorem quantiseStep {o : MxOp} {ftz : Bool} {n : Nat} {x y : Workgroup} (hm : o.major = 0x3F) (hs : o.sub = 0) (hI : o.illegal = false)
    (hO : o.overlaps = false) (hn : n < o.steps) (h : o.run ftz n x = some y) : ScratchStep o.result x y ∧ quantiseStepRule o n x y := by
  have hL := MxOp.legal_of_illegal hI
  obtain ⟨line, block, hat⟩ := MxOp.blockAt hm hs hL hn
  have hb : blocked o.result.fmt = true := by
    obtain ⟨-, -, hL⟩ := hL.2.2.2 hm
    rw [if_pos hs] at hL
    exact hL.1
  have hap := MxOp.block_apart hm hs hO hb hat
  rw [MxOp.run_block hm hs hn] at h
  obtain rfl := Option.some.inj h
  have hQ : o.blockOut x n = quantise (o.result.fmt == 9) ((List.range 256).map (o.blockIn x n)) := rfl
  have hcodes := quantise_codes (o.result.fmt == 9) ((List.range 256).map (o.blockIn x n))
  rw [← hQ, List.length_map, List.length_range] at hcodes
  simp only [beq_iff_eq] at hcodes
  have hcode := fun {i} (hi : i < 256) => putBlock_rawAt hat hb hap x (r := o.blockOut x n) hcodes.1 hcodes.2 hi
  obtain ⟨hE, hpeak⟩ := putBlock_header x o.result (o.blockCell n) (o.blockOut x n)
  refine ⟨putBlock_scratchStep hat hb x hcodes.1, ?_⟩
  clear hat hap hcodes
  generalize x.putBlock o.result ((List.range 256).map (o.blockCell n)) (o.blockOut x n) = y at *
  exact quantiseRule_intro hb hE hpeak fun i hi => hcode hi

end Sys2Proof.Machine
end

section
/-! The arithmetic of the matrix array (R44 to R55, R224 to R226, R229 to R233), and the floating-point rules as a whole. -/

namespace Sys2Proof.Machine

/-- The clauses of a step about what it leaves unchanged. -/
def StepKeeps (o : MxOp) (x y : Workgroup) : Prop :=
  (if o.major = 0x3C ∨ (o.major = 0x3E ∧ o.sub ≠ 2) then { y with acc := x.acc } = x else { y with scratch := x.scratch } = x) ∧
    (∀ e, e < 1024 * fwCt o.fmt ∨ 1024 * (fwCt o.fmt + o.tiles) ≤ e → Mem.byte y.acc e = Mem.byte x.acc e) ∧
    ∀ e, (∀ r ∈ o.ranges, r.2.2 = true → e < r.1 ∨ r.1 + r.2.1 ≤ e) → Mem.byte y.scratch e = Mem.byte x.scratch e

theorem stepKeeps_acc {o : MxOp} {x y : Workgroup} (hm : o.major = 0x3C ∨ (o.major = 0x3E ∧ o.sub ≠ 2)) (h : AccStep o x y) : StepKeeps o x y := by
  have hs : y.scratch = x.scratch := by have := congrArg Workgroup.scratch h.1; exact this
  exact ⟨by rw [if_pos hm]; exact h.1, h.2, fun e _ => by rw [hs]⟩
theorem stepKeeps_scratch {o : MxOp} {m : Mat} {x y : Workgroup} (hm : ¬(o.major = 0x3C ∨ (o.major = 0x3E ∧ o.sub ≠ 2))) (hmem : m ∈ o.mats)
    (hw : m.written = true) (h : ScratchStep m x y) : StepKeeps o x y := by
  have ha : y.acc = x.acc := by have := congrArg Workgroup.acc h.1; exact this
  exact ⟨by rw [if_neg hm]; exact h.1, fun e _ => by rw [ha], fun e he => h.2 e (MxOp.outside_ranges hmem hw he)⟩

/-- An operation of another major changes nothing. -/
theorem MxOp.run_other {o : MxOp} (h1 : o.major ≠ 0x3C) (h2 : o.major ≠ 0x3D) (h3 : o.major ≠ 0x3E) (h4 : o.major ≠ 0x3F) (ftz : Bool) (n : Nat)
    (g : Workgroup) : o.run ftz n g = some g := by
  unfold MxOp.run
  split
  case h_1 h _ => exact absurd h h1
  case h_2 h _ => exact absurd h h2
  case h_3 h => exact absurd h h3
  case h_4 h _ => exact absurd h h4
  case h_5 => rfl

/-- Under `ftz` no step needs an assist. -/
theorem MxOp.run_ftz_isSome (o : MxOp) (n : Nat) (g : Workgroup) : (o.run true n g).isSome = true := by
  by_cases h1 : o.major = 0x3C
  · exact run_mma_isSome h1 n g
  by_cases h2 : o.major = 0x3D
  · exact run_drain_isSome h2 n g
  unfold MxOp.run
  split
  case h_1 h _ => exact absurd h h1
  case h_2 h _ => exact absurd h h2
  case h_3 =>
    split
    · split <;> rfl
    · rfl
  case h_4 => rfl
  case h_5 => rfl

/-- What every step leaves unchanged. -/
theorem run_keeps {o : MxOp} {ftz : Bool} {n : Nat} {x y : Workgroup} (hI : o.illegal = false) (hO : o.overlaps = false) (hn : n < o.steps)
    (h : o.run ftz n x = some y) : StepKeeps o x y := by
  have hL := MxOp.legal_of_illegal hI
  by_cases h1 : o.major = 0x3C
  · exact stepKeeps_acc (.inl h1) (run_mma_accStep h1 h)
  by_cases h2 : o.major = 0x3D
  · have hmem : o.drained ∈ o.mats := by rw [MxOp.mats_drain h2]; exact List.mem_cons_self
    exact stepKeeps_scratch (by omega) hmem rfl (drainStep h2 hI hn h).1
  by_cases h3 : o.major = 0x3E
  · by_cases hs2 : o.sub = 2
    · have hmem : o.tileMat true ∈ o.mats := by rw [MxOp.mats_tiles h3, hs2]; exact List.mem_cons_self
      exact stepKeeps_scratch (by omega) hmem rfl (storeStep h3 hs2 hI hn h).1
    by_cases hs0 : o.sub = 0
    · exact stepKeeps_acc (.inr ⟨h3, hs2⟩) (zeroStep h3 hs0 hn h).1
    · exact stepKeeps_acc (.inr ⟨h3, hs2⟩) (loadStep h3 hs0 hs2 hL hn h).1
  by_cases h4 : o.major = 0x3F
  · have hmem : o.result ∈ o.mats := by rw [MxOp.mats_blocks h4]; exact List.mem_cons_of_mem _ List.mem_cons_self
    by_cases hs0 : o.sub = 0
    · exact stepKeeps_scratch (by omega) hmem rfl (quantiseStep h4 hs0 hI hO hn h).1
    · exact stepKeeps_scratch (by omega) hmem rfl (hadStep h4 hs0 hI h).1
  · rw [MxOp.run_other h1 h2 h3 h4] at h
    obtain rfl := Option.some.inj h
    exact stepKeeps_scratch (m := o.result) (by omega) (by rw [MxOp.mats, if_neg h1, if_neg h2, if_neg h3]; exact List.mem_cons_of_mem _ List.mem_cons_self)
      rfl (scratchStep_refl _ x)

end Sys2Proof.Machine

namespace Sys2Proof.Proofs
open Machine

/-- The steps of the operations of the matrix array. -/
theorem matrixArithmetic : matrixArithmeticRule := by
  intro o ftz scratch acc n x hck hn
  obtain ⟨hI, hO⟩ := MxOp.check_none hck
  have hL := MxOp.legal_of_illegal hI
  refine ⟨fun hf => by rw [hf]; exact o.run_ftz_isSome n x, fun y h => ?_⟩
  obtain ⟨k1, k2, k3⟩ := run_keeps hI hO hn h
  refine ⟨k1, k2, k3, fun hm => multiplyStep hm hL hn h, fun hm i j hi hi' hj => ?_, fun hm hs => (zeroStep hm hs hn h).2,
    fun hm hs => (loadStep hm (by omega) (by omega) hL hn h).2, fun hm hs => (storeStep hm hs hI hn h).2,
    fun hm hs => (quantiseStep hm hs hI hO hn h).2, fun hm hs => hadamardStep hm (by omega) hI h⟩
  obtain ⟨ha, hb, hs⟩ := hL.2.1 hm
  have hd := (drainStep hm hI hn h).2 i j hi hi' hj
  obtain ⟨-, hd⟩ := drainElement_spec ha hb hd
  by_cases hscl : fwScl o.fmt = true
  · rw [multiplier_eq (hs hscl) hscl] at hd
    exact hd
  · rw [if_neg hscl] at hd ⊢
    exact hd

/-- Settles O9: the seven rules, from the rounding of magnitudes, the fixed-point series of the special functions and the steps of the matrix array. -/
theorem floatingPointRules : Obligations.FloatingPointRules :=
  ⟨convertLimits, floatSpecialValues, roundingModes, operationsRoundOnce, quantising, specialFunctions, matrixArithmetic⟩

end Sys2Proof.Proofs
end
